-- ==== Sys2Proof/Word.lean ====
section
/-!
DEFINITION. The word types of the Plilar 960: 64-bit scalar registers (R59), bytes of memory (R4) and 32-bit
accumulator elements (R124). Nothing else stands here, so that no arithmetic of the model is out of a repair's reach.
-/

namespace Sys2Proof

/-- A scalar register, control register or virtual address (R59, R153). -/
abbrev Word := BitVec 64

/-- One byte of memory, device memory being little-endian (R4). -/
abbrev Byte := BitVec 8

/-- One accumulator element, or the low half of a scalar register read as FP32 (R112, R124). -/
abbrev W32 := BitVec 32

/-- A scalar register number s0 to s31 (R13, R48). -/
abbrev Reg := Fin 32

end Sys2Proof
end

