-- ==== Sys2Proof/Syntax.lean ====
section
/-!
DEFINITION. The instructions of the Plilar 960 as abstract syntax: one constructor for each row of
spec/opcode_table.json. The first 230 have an encoding (R42 to R58). The other 89 are the table's events: steps the
device takes by itself or at the request of a party outside, each whole and indivisible; they have no encoding and stand
here with the data that say where the event happens.
-/

namespace Sys2Proof

/-- The six scopes of R24; codes 6 and 7 are no scope and trap (R25). -/
inductive Scope where
  | core | row | clus | die | dev | sys
  deriving DecidableEq, Repr

/-- The instructions and events of the opcode table. Field names are those of R46: `d` destination, `a`, `b`, `c`
sources, `wa`, `wb`, `w` wait bits, `x` an accumulator, `n` a register index or control number; an event names cores by
physical identifier (R21), banks and lines by number. -/
inductive Instr where
  -- Integer operations of major 0 (R76)
  | add (d a b : Reg) (wa wb : Bool)
  | sub (d a b : Reg) (wa wb : Bool)
  | mul (d a b : Reg) (wa wb : Bool)
  | mulh (d a b : Reg) (wa wb : Bool)
  | mulhn (d a b : Reg) (wa wb : Bool)
  | div (d a b : Reg) (wa wb : Bool)
  | divn (d a b : Reg) (wa wb : Bool)
  | rem (d a b : Reg) (wa wb : Bool)
  | remn (d a b : Reg) (wa wb : Bool)
  | and (d a b : Reg) (wa wb : Bool)
  | or (d a b : Reg) (wa wb : Bool)
  | xor (d a b : Reg) (wa wb : Bool)
  | andn (d a b : Reg) (wa wb : Bool)
  | sll (d a b : Reg) (wa wb : Bool)
  | srl (d a b : Reg) (wa wb : Bool)
  | sra (d a b : Reg) (wa wb : Bool)
  | ror (d a b : Reg) (wa wb : Bool)
  | min (d a b : Reg) (wa wb : Bool)
  | max (d a b : Reg) (wa wb : Bool)
  | minn (d a b : Reg) (wa wb : Bool)
  | maxn (d a b : Reg) (wa wb : Bool)
  | slt (d a b : Reg) (wa wb : Bool)
  | sltn (d a b : Reg) (wa wb : Bool)
  | seq (d a b : Reg) (wa wb : Bool)
  | clz (d a : Reg) (wa : Bool)
  | ctz (d a : Reg) (wa : Bool)
  | popc (d a : Reg) (wa : Bool)
  | sext (d a : Reg) (size : Fin 3) (wa : Bool)
  | zext (d a : Reg) (size : Fin 3) (wa : Bool)
  | csel (d a b : Reg) (wa wb : Bool)
  -- Immediate forms, shifts, hi and pcrel (R77 to R79)
  | addi (d a : Reg) (wa : Bool) (imm : BitVec 14)
  | andi (d a : Reg) (wa : Bool) (imm : BitVec 14)
  | ori (d a : Reg) (wa : Bool) (imm : BitVec 14)
  | xori (d a : Reg) (wa : Bool) (imm : BitVec 14)
  | slli (d a : Reg) (wa : Bool) (amt : BitVec 6)
  | srli (d a : Reg) (wa : Bool) (amt : BitVec 6)
  | srai (d a : Reg) (wa : Bool) (amt : BitVec 6)
  | rori (d a : Reg) (wa : Bool) (amt : BitVec 6)
  | slti (d a : Reg) (wa : Bool) (imm : BitVec 14)
  | sltni (d a : Reg) (wa : Bool) (imm : BitVec 14)
  | hi (d : Reg) (imm : BitVec 20)
  | pcrel (d : Reg) (imm : BitVec 20)
  -- Branches and jumps (R80, R81)
  | beq (a b : Reg) (w : Bool) (off : BitVec 12)
  | bne (a b : Reg) (w : Bool) (off : BitVec 12)
  | blt (a b : Reg) (w : Bool) (off : BitVec 12)
  | bge (a b : Reg) (w : Bool) (off : BitVec 12)
  | bltn (a b : Reg) (w : Bool) (off : BitVec 12)
  | bgen (a b : Reg) (w : Bool) (off : BitVec 12)
  | bbs (a : Reg) (bit : Fin 32) (w : Bool) (off : BitVec 12)
  | bbc (a : Reg) (bit : Fin 32) (w : Bool) (off : BitVec 12)
  | jal (d : Reg) (off : BitVec 20)
  | jalr (d a : Reg) (wa : Bool) (imm : BitVec 14)
  -- Scalar floating point (R113 to R119)
  | fadd (d a b : Reg) (wa wb : Bool)
  | fsub (d a b : Reg) (wa wb : Bool)
  | fmul (d a b : Reg) (wa wb : Bool)
  | fdiv (d a b : Reg) (wa wb : Bool)
  | fsqrt (d a : Reg) (wa : Bool)
  | fmin (d a b : Reg) (wa wb : Bool)
  | fmax (d a b : Reg) (wa wb : Bool)
  | fneg (d a : Reg) (wa : Bool)
  | fabs (d a : Reg) (wa : Bool)
  | fsgnj (d a b : Reg) (wa wb : Bool)
  | feq (d a b : Reg) (wa wb : Bool)
  | flt (d a b : Reg) (wa wb : Bool)
  | fle (d a b : Reg) (wa wb : Bool)
  | fclass (d a : Reg) (wa : Bool)
  | frcp (d a : Reg) (wa : Bool)
  | frsq (d a : Reg) (wa : Bool)
  | fcvtfi (d a : Reg) (wa : Bool)
  | fcvtif (d a : Reg) (wa : Bool)
  | fcvtfn (d a : Reg) (wa : Bool)
  | fcvtnf (d a : Reg) (wa : Bool)
  | fcvtbf (d a : Reg) (wa : Bool)
  | fcvtfb (d a : Reg) (wa : Bool)
  | ffma (d a b c : Reg) (w : Bool)
  | ffms (d a b c : Reg) (w : Bool)
  | fnfma (d a b c : Reg) (w : Bool)
  | fnfms (d a b c : Reg) (w : Bool)
  -- Loads, stores and cache operations (R197, R201 to R203)
  | ldB (d a : Reg) (wa : Bool) (off : BitVec 11)
  | ldH (d a : Reg) (wa : Bool) (off : BitVec 11)
  | ldW (d a : Reg) (wa : Bool) (off : BitVec 11)
  | ldD (d a : Reg) (wa : Bool) (off : BitVec 11)
  | ldBn (d a : Reg) (wa : Bool) (off : BitVec 11)
  | ldHn (d a : Reg) (wa : Bool) (off : BitVec 11)
  | ldWn (d a : Reg) (wa : Bool) (off : BitVec 11)
  | stB (data a : Reg) (w : Bool) (off : BitVec 11)
  | stH (data a : Reg) (w : Bool) (off : BitVec 11)
  | stW (data a : Reg) (w : Bool) (off : BitVec 11)
  | stD (data a : Reg) (w : Bool) (off : BitVec 11)
  | pref (level : Fin 3) (a : Reg) (wa : Bool)
  | cflush (scope : Scope) (a : Reg) (wa : Bool)
  | cinval (scope : Scope) (a : Reg) (wa : Bool)
  -- Atomics and reductions at memory (R205 to R211)
  | amoAdd (d a b : Reg) (w sz : Bool) (scope : Scope)
  | amoAnd (d a b : Reg) (w sz : Bool) (scope : Scope)
  | amoOr (d a b : Reg) (w sz : Bool) (scope : Scope)
  | amoXor (d a b : Reg) (w sz : Bool) (scope : Scope)
  | amoMin (d a b : Reg) (w sz : Bool) (scope : Scope)
  | amoMax (d a b : Reg) (w sz : Bool) (scope : Scope)
  | amoMinn (d a b : Reg) (w sz : Bool) (scope : Scope)
  | amoMaxn (d a b : Reg) (w sz : Bool) (scope : Scope)
  | amoSwap (d a b : Reg) (w sz : Bool) (scope : Scope)
  | amoFadd (d a b : Reg) (w : Bool) (scope : Scope)
  | amoFmin (d a b : Reg) (w : Bool) (scope : Scope)
  | amoFmax (d a b : Reg) (w : Bool) (scope : Scope)
  | amoBadd (d a b : Reg) (w : Bool) (scope : Scope)
  | cas (d a b : Reg) (w sz : Bool) (scope : Scope)
  | redAdd (a b : Reg) (w sz ord : Bool) (scope : Scope)
  | redAnd (a b : Reg) (w sz ord : Bool) (scope : Scope)
  | redOr (a b : Reg) (w sz ord : Bool) (scope : Scope)
  | redXor (a b : Reg) (w sz ord : Bool) (scope : Scope)
  | redMin (a b : Reg) (w sz ord : Bool) (scope : Scope)
  | redMax (a b : Reg) (w sz ord : Bool) (scope : Scope)
  | redMinn (a b : Reg) (w sz ord : Bool) (scope : Scope)
  | redMaxn (a b : Reg) (w sz ord : Bool) (scope : Scope)
  | redFadd (a b : Reg) (w ord : Bool) (scope : Scope)
  | redFmin (a b : Reg) (w ord : Bool) (scope : Scope)
  | redFmax (a b : Reg) (w ord : Bool) (scope : Scope)
  | redBadd (a b : Reg) (w ord : Bool) (scope : Scope)
  -- Sync words, fences and monitors (R214 to R221)
  | acq (scope : Scope) (a : Reg) (w : Bool)
  | rel (scope : Scope) (a : Reg) (w : Bool)
  | bind (a b : Reg) (w : Bool)
  | unbind (a : Reg) (w : Bool)
  | fence (scope : Scope)
  | mon (d a : Reg) (w : Bool)
  | mwait
  -- Presence bits and remote writes (R83 to R85)
  | rwr (n a b : Reg) (wa wb : Bool)
  | feclr (n : Reg)
  | feset (n : Reg)
  | fetst (d n : Reg)
  -- Tasks, helpers, cwait and bar (R325 to R328, R394 to R397)
  | tspawn (a : Reg) (wa : Bool)
  | tfork (a : Reg) (wa : Bool)
  | tjoin (a : Reg) (wa : Bool)
  | tdec (a b : Reg) (wa wb : Bool)
  | tend
  | tyield
  | hstart (h : Fin 10) (a b : Reg) (wa wb : Bool)
  | hend
  | cwait (a b : Reg) (wa wb : Bool)
  | bar (a : Reg) (wa : Bool)
  -- Fold Store (R340 to R359)
  | fdecl (a b : Reg) (wa wb : Bool)
  | fpost (d a b : Reg) (wa wb : Bool)
  | fpostv (d a b : Reg) (wa wb : Bool)
  | fdrain (d a : Reg) (wa : Bool)
  | fpeek (d a : Reg) (wa : Bool)
  | fthr (a b : Reg) (wa wb : Bool)
  | fcount (d a : Reg) (wa : Bool)
  | fquiet (a b : Reg) (wa wb : Bool)
  -- Messages and trees (R303, R304, R309)
  | msend (d a b : Reg) (wa wb : Bool)
  | mtake (a b : Reg) (wa wb : Bool)
  | nred (d a b : Reg) (wa wb : Bool)
  -- Copy engine (R295 to R298)
  | cpy (ch : Fin 4) (a b : Reg) (wa wb : Bool)
  | cpyc (ch : Fin 4) (a : Reg) (wa : Bool)
  | cstop (ch : Fin 4)
  -- Shape records (R377, R378)
  | tsfence
  | tsdim (d a : Reg) (dim : Fin 4) (wa : Bool)
  -- Matrix slice (R142 to R147)
  | mld (a : Reg) (wa : Bool)
  | mma (x : Fin 4) (a b : Reg) (wa wb : Bool)
  | mgang (x : Fin 4) (a b : Reg) (wa wb : Bool)
  | mzero (x : Fin 4)
  | mdrain (x : Fin 4) (a b : Reg) (wa wb : Bool)
  | mrel (a : Reg) (wa : Bool)
  | mmaSolo (x : Fin 4) (a b : Reg) (wa wb : Bool)
  -- The one-shot format field (R54)
  | fmtp (pfx : BitVec 25)
  -- System (R163, R165, R223 to R226, R370)
  | trap (a : Reg) (wa : Bool)
  | svc (a : Reg) (wa : Bool)
  | eret
  | brk
  | tlbinv (a b : Reg) (wa wb : Bool)
  | txb (d : Reg)
  | txe
  | txa
  -- Vector engine (R243 to R255)
  | vadd (d a b : Reg) (bs w : Bool)
  | vsub (d a b : Reg) (bs w : Bool)
  | vmul (d a b : Reg) (bs w : Bool)
  | vdiv (d a b : Reg) (bs w : Bool)
  | vfma (d a b : Reg) (bs w : Bool)
  | vmin (d a b : Reg) (bs w : Bool)
  | vmax (d a b : Reg) (bs w : Bool)
  | vabs (d a : Reg) (w : Bool)
  | vneg (d a : Reg) (w : Bool)
  | vrcp (d a : Reg) (w : Bool)
  | vrsq (d a : Reg) (w : Bool)
  | vexp2 (d a : Reg) (w : Bool)
  | vlog2 (d a : Reg) (w : Bool)
  | vsel (d a b : Reg) (bs w : Bool)
  | vcmpEq (d a b : Reg) (bs w : Bool)
  | vcmpNe (d a b : Reg) (bs w : Bool)
  | vcmpLt (d a b : Reg) (bs w : Bool)
  | vcmpLe (d a b : Reg) (bs w : Bool)
  | vand (d a b : Reg) (bs w : Bool)
  | vor (d a b : Reg) (bs w : Bool)
  | vxor (d a b : Reg) (bs w : Bool)
  | vshl (d a b : Reg) (bs w : Bool)
  | vshr (d a b : Reg) (bs w : Bool)
  | vpopc (d a : Reg) (w : Bool)
  | vcvt (d a : Reg) (w : Bool)
  | vquant (d a : Reg) (w : Bool)
  | vsum (d a : Reg) (dim : Fin 4) (w : Bool)
  | vmaxr (d a : Reg) (dim : Fin 4) (w : Bool)
  | vscan (d a : Reg) (dim : Fin 4) (w : Bool)
  | vgath (d a b : Reg) (w : Bool)
  | vscat (d a b : Reg) (w : Bool)
  | vamoOr (d a b : Reg) (w : Bool)
  | vamoAnd (d a b : Reg) (w : Bool)
  | vamoAdd (d a b : Reg) (w : Bool)
  | vamoFadd (d a b : Reg) (w : Bool)
  | vamoMax (d a b : Reg) (w : Bool)
  | vhash (d a : Reg) (w : Bool)
  | vacc (d : Reg) (x : Fin 4) (w : Bool)
  | vfill (d b : Reg) (w : Bool)
  | viota (d b : Reg) (w : Bool)
  | vaccLive (d : Reg) (x : Fin 4) (w : Bool)
  -- Control registers (R156, R157)
  | mfc (d : Reg) (n : BitVec 12)
  | mtc (n : BitVec 12) (a : Reg) (wa : Bool)
  -- Compact forms (R44)
  | cMv (d b : Reg) (w : Bool)
  | cAdd (d b : Reg) (w : Bool)
  | cSub (d b : Reg) (w : Bool)
  | cAnd (d b : Reg) (w : Bool)
  | cOr (d b : Reg) (w : Bool)
  | cXor (d b : Reg) (w : Bool)
  | cSll (d b : Reg) (w : Bool)
  | cSrl (d b : Reg) (w : Bool)
  | cSra (d b : Reg) (w : Bool)
  | cAddi (d : Reg) (imm : BitVec 5) (w : Bool)
  | cLd (d b : Reg) (w : Bool)
  | cSt (d b : Reg) (w : Bool)
  | cFadd (d b : Reg) (w : Bool)
  | cFmul (d b : Reg) (w : Bool)
  | cFmin (d b : Reg) (w : Bool)
  | cFmax (d b : Reg) (w : Bool)
  -- Events: steps of the opcode table that have no encoding
  | loadValueArrival (core ctx : Nat) (reg : Reg) (bad : Bool)
  | remoteWriteArrival (n : Nat)
  | inboxEntryApply (core n : Nat)
  | watchdogExpiry (core : Nat)
  | yieldWaitLimit (core : Nat)
  | sliceEnd (core : Nat) (next : Option Nat)
  | graceExpiry (core : Nat)
  | takeWork (core : Nat)
  | groupPlacement (cluster : Nat)
  | launchParse (part : Nat)
  | hardwareHelperStart (core : Nat)
  | qntExpiry (core : Nat)
  | quantumEnd (part : Nat)
  | nestingHoldExpiry (cluster n : Nat)
  | matrixKStep (core n : Nat)
  | mdrainRow (core n : Nat)
  | formatEmulationRequest (die : Nat)
  | vectorElementGroup (core : Nat)
  | pageReplySuccess (vf slot gen : Nat)
  | pageReplyInvalidRequest (vf slot gen : Nat)
  | pageReplyResponseFailure (vf slot gen : Nat)
  | functionReset (vf : Nat)
  | hostStage2Invalidation (part : Nat) (ipa : Option (BitVec 64))
  | copyLineWrite (core ch : Nat)
  | copyRecordFinish (core ch : Nat)
  | messagePlacement (n : Nat)
  | msendAnswer (core ctx : Nat)
  | foldPostArrival (n : Nat)
  | fpostStatusAnswer (n : Nat)
  | foldReplay (cluster part : Nat)
  | topTokenPass (part slot : Nat)
  | nredRoundComplete (core tree : Nat)
  | treeHoldExpiry (part tree : Nat)
  | linkRetryExhausted (flow : Nat × Option Nat)
  | overflowWatchScan (part : Nat)
  | bankRetentionEntry (bank : Nat)
  | wakeSlotGrant (die : Nat)
  | bankWakeComplete (bank : Nat)
  | clusterRetentionEntry (cluster : Nat)
  | clusterRetentionExit (cluster : Nat) (lost : Bool)
  | cacheEviction (cluster line : Nat)
  | updateOnlyEviction (core line : Nat)
  | proxyAtomicService (die lane : Nat)
  | backInvalidationAck (line : Nat)
  | hostSnoop (pa : Nat) (bytes : List (BitVec 8))
  | cxlMemWrite (place : Nat × Nat) (bytes : List (BitVec 8))
  | cxlMemRead (place : Nat × Nat)
  | stashEntryASwap (die : Nat)
  | stashEntryBSwap (die : Nat)
  | treeT0Swap (die : Nat)
  | monitorConfigSwap (die : Nat)
  | hbaseSwap (die : Nat)
  | ovfbaseSwap (die : Nat)
  | ovfsizeSwap (die : Nat)
  | s1rootSwap (die : Nat)
  | s1attrSwap (die : Nat)
  | partitionRegisterWrite (die : Nat)
  | create (tag : Nat) (cores : List Nat × List (Nat × Nat)) (banks : List Nat) (vf : Nat) (det : Bool)
  | resize (tag : Nat) (grow : List Nat) (shrink limit : Nat)
  | replace (tag lcore phys : Nat)
  | layoutTick (tag : Nat)
  | shrinkLimitExpiry (tag : Nat)
  | release (tag : Nat)
  | sets2 (tag : Nat) (root attr : BitVec 64) (pasid : Nat)
  | setquota (tag : Nat) (cluster : Option Nat) (q : Nat)
  | summary
  | attest (nonce : List (BitVec 8))
  | logread (seq count : Nat)
  | bbread (recorder index count : Nat)
  | auditAppend (askers events : List Nat) (data : List (List (BitVec 8)))
  | blackBoxWrite (recorder : Nat)
  | fatalError (recorder : Nat)
  | coldReset (signed : List (BitVec 8) × List (BitVec 8)) (items : List (List (BitVec 8)))
  | warmReset (signed : List (BitVec 8) × List (BitVec 8)) (items : List (List (BitVec 8)))
  | powerOff
  | budgetTreeUpdate (dieBudgets : List Nat) (counts : List (Nat × List Nat))
  | rampWindow (core busy : Nat)
  | governorWindow (core cycles stalls : Nat)
  | microcontrollerLoop (temps volts fmax : List Nat) (limits : List Nat × Nat × Nat)
  | thermalTrip (cluster : Nat)
  | thermalShutdown
  | hole (word : BitVec 32) (cause : BitVec 8)
  | fetchFault (cause : BitVec 8) (eval : BitVec 64)
  | accessPerformed (core n : Nat)
  | bankPowerDownComplete (bank : Nat)
  | bolmorRemoteAccess (tag pa kind : Nat) (bytes : List (BitVec 8))
  | lineRetirement (place : Option (Nat × Nat × Nat) × Nat)
  | debugUnlock (state : List (BitVec 8))
  | thresholdWriteArrival (n : Nat)
  deriving DecidableEq, Repr

end Sys2Proof
end

