-- ==== Sys2Proof/WellFormed.lean ====
section
/-!
DEFINITION. The checks of an instruction's fields that its types do not make (R51): hstart names an even pair of source
registers, fdrain and fpeek an even nonzero destination, a hole carries one of the two causes of R56.
-/

namespace Sys2Proof

/-- An instruction whose fields the encoding admits (R51, R56). -/
def wellFormed : Instr → Bool
  | .hstart _ _ b _ _ => b.val % 2 == 0
  | .fdrain d _ _ => d.val != 0 && d.val % 2 == 0
  | .fpeek d _ _ => d.val != 0 && d.val % 2 == 0
  | .hole _ cause => cause == 0x01 || cause == 0x02
  | .add _ _ _ _ _ => true
  | .sub _ _ _ _ _ => true
  | .mul _ _ _ _ _ => true
  | .mulh _ _ _ _ _ => true
  | .mulhn _ _ _ _ _ => true
  | .div _ _ _ _ _ => true
  | .divn _ _ _ _ _ => true
  | .rem _ _ _ _ _ => true
  | .remn _ _ _ _ _ => true
  | .and _ _ _ _ _ => true
  | .or _ _ _ _ _ => true
  | .xor _ _ _ _ _ => true
  | .andn _ _ _ _ _ => true
  | .sll _ _ _ _ _ => true
  | .srl _ _ _ _ _ => true
  | .sra _ _ _ _ _ => true
  | .ror _ _ _ _ _ => true
  | .min _ _ _ _ _ => true
  | .max _ _ _ _ _ => true
  | .minn _ _ _ _ _ => true
  | .maxn _ _ _ _ _ => true
  | .slt _ _ _ _ _ => true
  | .sltn _ _ _ _ _ => true
  | .seq _ _ _ _ _ => true
  | .clz _ _ _ => true
  | .ctz _ _ _ => true
  | .popc _ _ _ => true
  | .sext _ _ _ _ => true
  | .zext _ _ _ _ => true
  | .csel _ _ _ _ _ => true
  | .addi _ _ _ _ => true
  | .andi _ _ _ _ => true
  | .ori _ _ _ _ => true
  | .xori _ _ _ _ => true
  | .slli _ _ _ _ => true
  | .srli _ _ _ _ => true
  | .srai _ _ _ _ => true
  | .rori _ _ _ _ => true
  | .slti _ _ _ _ => true
  | .sltni _ _ _ _ => true
  | .hi _ _ => true
  | .pcrel _ _ => true
  | .beq _ _ _ _ => true
  | .bne _ _ _ _ => true
  | .blt _ _ _ _ => true
  | .bge _ _ _ _ => true
  | .bltn _ _ _ _ => true
  | .bgen _ _ _ _ => true
  | .bbs _ _ _ _ => true
  | .bbc _ _ _ _ => true
  | .jal _ _ => true
  | .jalr _ _ _ _ => true
  | .fadd _ _ _ _ _ => true
  | .fsub _ _ _ _ _ => true
  | .fmul _ _ _ _ _ => true
  | .fdiv _ _ _ _ _ => true
  | .fsqrt _ _ _ => true
  | .fmin _ _ _ _ _ => true
  | .fmax _ _ _ _ _ => true
  | .fneg _ _ _ => true
  | .fabs _ _ _ => true
  | .fsgnj _ _ _ _ _ => true
  | .feq _ _ _ _ _ => true
  | .flt _ _ _ _ _ => true
  | .fle _ _ _ _ _ => true
  | .fclass _ _ _ => true
  | .frcp _ _ _ => true
  | .frsq _ _ _ => true
  | .fcvtfi _ _ _ => true
  | .fcvtif _ _ _ => true
  | .fcvtfn _ _ _ => true
  | .fcvtnf _ _ _ => true
  | .fcvtbf _ _ _ => true
  | .fcvtfb _ _ _ => true
  | .ffma _ _ _ _ _ => true
  | .ffms _ _ _ _ _ => true
  | .fnfma _ _ _ _ _ => true
  | .fnfms _ _ _ _ _ => true
  | .ldB _ _ _ _ => true
  | .ldH _ _ _ _ => true
  | .ldW _ _ _ _ => true
  | .ldD _ _ _ _ => true
  | .ldBn _ _ _ _ => true
  | .ldHn _ _ _ _ => true
  | .ldWn _ _ _ _ => true
  | .stB _ _ _ _ => true
  | .stH _ _ _ _ => true
  | .stW _ _ _ _ => true
  | .stD _ _ _ _ => true
  | .pref _ _ _ => true
  | .cflush _ _ _ => true
  | .cinval _ _ _ => true
  | .amoAdd _ _ _ _ _ _ => true
  | .amoAnd _ _ _ _ _ _ => true
  | .amoOr _ _ _ _ _ _ => true
  | .amoXor _ _ _ _ _ _ => true
  | .amoMin _ _ _ _ _ _ => true
  | .amoMax _ _ _ _ _ _ => true
  | .amoMinn _ _ _ _ _ _ => true
  | .amoMaxn _ _ _ _ _ _ => true
  | .amoSwap _ _ _ _ _ _ => true
  | .amoFadd _ _ _ _ _ => true
  | .amoFmin _ _ _ _ _ => true
  | .amoFmax _ _ _ _ _ => true
  | .amoBadd _ _ _ _ _ => true
  | .cas _ _ _ _ _ _ => true
  | .redAdd _ _ _ _ _ _ => true
  | .redAnd _ _ _ _ _ _ => true
  | .redOr _ _ _ _ _ _ => true
  | .redXor _ _ _ _ _ _ => true
  | .redMin _ _ _ _ _ _ => true
  | .redMax _ _ _ _ _ _ => true
  | .redMinn _ _ _ _ _ _ => true
  | .redMaxn _ _ _ _ _ _ => true
  | .redFadd _ _ _ _ _ => true
  | .redFmin _ _ _ _ _ => true
  | .redFmax _ _ _ _ _ => true
  | .redBadd _ _ _ _ _ => true
  | .acq _ _ _ => true
  | .rel _ _ _ => true
  | .bind _ _ _ => true
  | .unbind _ _ => true
  | .fence _ => true
  | .mon _ _ _ => true
  | .mwait => true
  | .rwr _ _ _ _ _ => true
  | .feclr _ => true
  | .feset _ => true
  | .fetst _ _ => true
  | .tspawn _ _ => true
  | .tfork _ _ => true
  | .tjoin _ _ => true
  | .tdec _ _ _ _ => true
  | .tend => true
  | .tyield => true
  | .hend => true
  | .cwait _ _ _ _ => true
  | .bar _ _ => true
  | .fdecl _ _ _ _ => true
  | .fpost _ _ _ _ _ => true
  | .fpostv _ _ _ _ _ => true
  | .fthr _ _ _ _ => true
  | .fcount _ _ _ => true
  | .fquiet _ _ _ _ => true
  | .msend _ _ _ _ _ => true
  | .mtake _ _ _ _ => true
  | .nred _ _ _ _ _ => true
  | .cpy _ _ _ _ _ => true
  | .cpyc _ _ _ => true
  | .cstop _ => true
  | .tsfence => true
  | .tsdim _ _ _ _ => true
  | .mld _ _ => true
  | .mma _ _ _ _ _ => true
  | .mgang _ _ _ _ _ => true
  | .mzero _ => true
  | .mdrain _ _ _ _ _ => true
  | .mrel _ _ => true
  | .mmaSolo _ _ _ _ _ => true
  | .fmtp _ => true
  | .trap _ _ => true
  | .svc _ _ => true
  | .eret => true
  | .brk => true
  | .tlbinv _ _ _ _ => true
  | .txb _ => true
  | .txe => true
  | .txa => true
  | .vadd _ _ _ _ _ => true
  | .vsub _ _ _ _ _ => true
  | .vmul _ _ _ _ _ => true
  | .vdiv _ _ _ _ _ => true
  | .vfma _ _ _ _ _ => true
  | .vmin _ _ _ _ _ => true
  | .vmax _ _ _ _ _ => true
  | .vabs _ _ _ => true
  | .vneg _ _ _ => true
  | .vrcp _ _ _ => true
  | .vrsq _ _ _ => true
  | .vexp2 _ _ _ => true
  | .vlog2 _ _ _ => true
  | .vsel _ _ _ _ _ => true
  | .vcmpEq _ _ _ _ _ => true
  | .vcmpNe _ _ _ _ _ => true
  | .vcmpLt _ _ _ _ _ => true
  | .vcmpLe _ _ _ _ _ => true
  | .vand _ _ _ _ _ => true
  | .vor _ _ _ _ _ => true
  | .vxor _ _ _ _ _ => true
  | .vshl _ _ _ _ _ => true
  | .vshr _ _ _ _ _ => true
  | .vpopc _ _ _ => true
  | .vcvt _ _ _ => true
  | .vquant _ _ _ => true
  | .vsum _ _ _ _ => true
  | .vmaxr _ _ _ _ => true
  | .vscan _ _ _ _ => true
  | .vgath _ _ _ _ => true
  | .vscat _ _ _ _ => true
  | .vamoOr _ _ _ _ => true
  | .vamoAnd _ _ _ _ => true
  | .vamoAdd _ _ _ _ => true
  | .vamoFadd _ _ _ _ => true
  | .vamoMax _ _ _ _ => true
  | .vhash _ _ _ => true
  | .vacc _ _ _ => true
  | .vfill _ _ _ => true
  | .viota _ _ _ => true
  | .vaccLive _ _ _ => true
  | .mfc _ _ => true
  | .mtc _ _ _ => true
  | .cMv _ _ _ => true
  | .cAdd _ _ _ => true
  | .cSub _ _ _ => true
  | .cAnd _ _ _ => true
  | .cOr _ _ _ => true
  | .cXor _ _ _ => true
  | .cSll _ _ _ => true
  | .cSrl _ _ _ => true
  | .cSra _ _ _ => true
  | .cAddi _ _ _ => true
  | .cLd _ _ _ => true
  | .cSt _ _ _ => true
  | .cFadd _ _ _ => true
  | .cFmul _ _ _ => true
  | .cFmin _ _ _ => true
  | .cFmax _ _ _ => true
  | .loadValueArrival _ _ _ _ => true
  | .remoteWriteArrival _ => true
  | .inboxEntryApply _ _ => true
  | .watchdogExpiry _ => true
  | .yieldWaitLimit _ => true
  | .sliceEnd _ _ => true
  | .graceExpiry _ => true
  | .takeWork _ => true
  | .groupPlacement _ => true
  | .launchParse _ => true
  | .hardwareHelperStart _ => true
  | .qntExpiry _ => true
  | .quantumEnd _ => true
  | .nestingHoldExpiry _ _ => true
  | .matrixKStep _ _ => true
  | .mdrainRow _ _ => true
  | .formatEmulationRequest _ => true
  | .vectorElementGroup _ => true
  | .pageReplySuccess _ _ _ => true
  | .pageReplyInvalidRequest _ _ _ => true
  | .pageReplyResponseFailure _ _ _ => true
  | .functionReset _ => true
  | .hostStage2Invalidation _ _ => true
  | .copyLineWrite _ _ => true
  | .copyRecordFinish _ _ => true
  | .messagePlacement _ => true
  | .msendAnswer _ _ => true
  | .foldPostArrival _ => true
  | .fpostStatusAnswer _ => true
  | .foldReplay _ _ => true
  | .topTokenPass _ _ => true
  | .nredRoundComplete _ _ => true
  | .treeHoldExpiry _ _ => true
  | .linkRetryExhausted _ => true
  | .overflowWatchScan _ => true
  | .bankRetentionEntry _ => true
  | .wakeSlotGrant _ => true
  | .bankWakeComplete _ => true
  | .clusterRetentionEntry _ => true
  | .clusterRetentionExit _ _ => true
  | .cacheEviction _ _ => true
  | .updateOnlyEviction _ _ => true
  | .proxyAtomicService _ _ => true
  | .backInvalidationAck _ => true
  | .hostSnoop _ _ => true
  | .cxlMemWrite _ _ => true
  | .cxlMemRead _ => true
  | .stashEntryASwap _ => true
  | .stashEntryBSwap _ => true
  | .treeT0Swap _ => true
  | .monitorConfigSwap _ => true
  | .hbaseSwap _ => true
  | .ovfbaseSwap _ => true
  | .ovfsizeSwap _ => true
  | .s1rootSwap _ => true
  | .s1attrSwap _ => true
  | .partitionRegisterWrite _ => true
  | .create _ _ _ _ _ => true
  | .resize _ _ _ _ => true
  | .replace _ _ _ => true
  | .layoutTick _ => true
  | .shrinkLimitExpiry _ => true
  | .release _ => true
  | .sets2 _ _ _ _ => true
  | .setquota _ _ _ => true
  | .summary => true
  | .attest _ => true
  | .logread _ _ => true
  | .bbread _ _ _ => true
  | .auditAppend _ _ _ => true
  | .blackBoxWrite _ => true
  | .fatalError _ => true
  | .coldReset _ _ => true
  | .warmReset _ _ => true
  | .powerOff => true
  | .budgetTreeUpdate _ _ => true
  | .rampWindow _ _ => true
  | .governorWindow _ _ _ => true
  | .microcontrollerLoop _ _ _ _ => true
  | .thermalTrip _ => true
  | .thermalShutdown => true
  | .fetchFault _ _ => true
  | .accessPerformed _ _ => true
  | .bankPowerDownComplete _ => true
  | .bolmorRemoteAccess _ _ _ _ => true
  | .lineRetirement _ => true
  | .debugUnlock _ => true
  | .thresholdWriteArrival _ => true

end Sys2Proof
end

