-- ==== Sys2Proof/Decode.lean ====
section
/-!
DEFINITION. Decoding and encoding (R42 to R58). A word is read as a natural number, bit 0 least significant (R4), and a
field is a quotient and a remainder, so that the fields of a packed word are arithmetic facts. Every bit pattern that is
no instruction is refused with the cause of R56: 0x02, or 0x01 for scope 6 or 7 (R25).
-/

namespace Sys2Proof

/-- The trap cause of a word that is no instruction (R56). -/
abbrev HoleCause := BitVec 8

/-- Why bytes do not decode: a hole with its cause, or fewer bytes than the instruction has. -/
inductive DecodeError where
  | hole (word : BitVec 32) (cause : HoleCause)
  | short
  deriving DecidableEq, Repr

/-- Bits lo + n - 1 to lo of w (R4). -/
def fld (w lo n : Nat) : Nat := w / 2 ^ lo % 2 ^ n

/-- A 5-bit register field at bit lo (R48). -/
def rfld (w lo : Nat) : Reg := Fin.ofNat 32 (fld w lo 5)

/-- One bit of w. -/
def bfld (w lo : Nat) : Bool := fld w lo 1 == 1

/-- The scope of a 3-bit field; 6 and 7 are none (R24). -/
def scopeOf : Nat → Option Scope
  | 0 => some .core | 1 => some .row | 2 => some .clus | 3 => some .die | 4 => some .dev | 5 => some .sys | _ => none

/-- The code of a scope (R24). -/
def Scope.code : Scope → Nat
  | .core => 0 | .row => 1 | .clus => 2 | .die => 3 | .dev => 4 | .sys => 5

/-- A must-be-zero field, or cause 0x02 (R56). -/
def must0 (ok : Bool) (i : Instr) : Except HoleCause Instr := if ok then .ok i else .error 0x02

/-- RR with d, a, b (R46). -/
def dRR3 (w : Nat) (mk : Reg → Reg → Reg → Bool → Bool → Instr) : Except HoleCause Instr :=
  .ok (mk (rfld w 7) (rfld w 12) (rfld w 17) (bfld w 22) (bfld w 23))

/-- RR with d and a; b and wb zero (R51). -/
def dRR2 (w : Nat) (mk : Reg → Reg → Bool → Instr) : Except HoleCause Instr :=
  must0 (fld w 17 5 == 0 && fld w 23 1 == 0) (mk (rfld w 7) (rfld w 12) (bfld w 22))

/-- sext and zext: the size in the b field (R51). -/
def dExt (w : Nat) (mk : Reg → Reg → Fin 3 → Bool → Instr) : Except HoleCause Instr :=
  must0 (decide (fld w 17 5 < 3) && fld w 23 1 == 0) (mk (rfld w 7) (rfld w 12) (Fin.ofNat 3 (fld w 17 5)) (bfld w 22))

/-- RI (R46). -/
def dRI (w : Nat) (mk : Reg → Reg → Bool → BitVec 14 → Instr) : Except HoleCause Instr :=
  .ok (mk (rfld w 7) (rfld w 12) (bfld w 17) (BitVec.ofNat 14 (fld w 18 14)))

/-- shift immediate: imm 11:6 zero (R78). -/
def dSh (w : Nat) (mk : Reg → Reg → Bool → BitVec 6 → Instr) : Except HoleCause Instr :=
  must0 (fld w 24 6 == 0) (mk (rfld w 7) (rfld w 12) (bfld w 17) (BitVec.ofNat 6 (fld w 18 6)))

/-- U (R46). -/
def dU (w : Nat) (mk : Reg → BitVec 20 → Instr) : Except HoleCause Instr :=
  .ok (mk (rfld w 7) (BitVec.ofNat 20 (fld w 12 20)))

/-- B with two registers (R46). -/
def dBr (w : Nat) (mk : Reg → Reg → Bool → BitVec 12 → Instr) : Except HoleCause Instr :=
  .ok (mk (rfld w 7) (rfld w 12) (bfld w 17) (BitVec.ofNat 12 (fld w 20 12)))

/-- bbs and bbc: b is a bit index (R50). -/
def dBbit (w : Nat) (mk : Reg → Fin 32 → Bool → BitVec 12 → Instr) : Except HoleCause Instr :=
  .ok (mk (rfld w 7) (rfld w 12) (bfld w 17) (BitVec.ofNat 12 (fld w 20 12)))

/-- J (R46). -/
def dJ (w : Nat) (mk : Reg → BitVec 20 → Instr) : Except HoleCause Instr :=
  .ok (mk (rfld w 7) (BitVec.ofNat 20 (fld w 12 20)))

/-- T (R46). -/
def dT (w : Nat) (mk : Reg → Reg → Reg → Reg → Bool → Instr) : Except HoleCause Instr :=
  .ok (mk (rfld w 7) (rfld w 12) (rfld w 17) (rfld w 22) (bfld w 27))

/-- M, loads (R46). -/
def dLd (w : Nat) (mk : Reg → Reg → Bool → BitVec 11 → Instr) : Except HoleCause Instr :=
  .ok (mk (rfld w 7) (rfld w 12) (bfld w 17) (BitVec.ofNat 11 (fld w 21 11)))

/-- S, stores (R46). -/
def dSt (w : Nat) (mk : Reg → Reg → Bool → BitVec 11 → Instr) : Except HoleCause Instr :=
  .ok (mk (rfld w 7) (rfld w 12) (bfld w 17) (BitVec.ofNat 11 (fld w 21 11)))

/-- pref: level 0 to 2, the rest zero (R50, R51). -/
def dPref (w : Nat) (mk : Fin 3 → Reg → Bool → Instr) : Except HoleCause Instr :=
  must0 (decide (fld w 26 3 < 3) && fld w 18 8 == 0 && fld w 7 5 == 0) (mk (Fin.ofNat 3 (fld w 26 3)) (rfld w 12) (bfld w 17))

/-- cflush and cinval: the scope first (R58 step 3). -/
def dCop (w : Nat) (mk : Scope → Reg → Bool → Instr) : Except HoleCause Instr :=
  match scopeOf (fld w 26 3) with
  | none => .error 0x01
  | some sc => must0 (fld w 18 8 == 0 && fld w 7 5 == 0) (mk sc (rfld w 12) (bfld w 17))

/-- A, atomics of both sizes (R46). -/
def dAmo (w : Nat) (mk : Reg → Reg → Reg → Bool → Bool → Scope → Instr) : Except HoleCause Instr :=
  match scopeOf (fld w 23 3) with
  | none => .error 0x01
  | some sc => .ok (mk (rfld w 7) (rfld w 12) (rfld w 17) (bfld w 22) (bfld w 26) sc)

/-- A, the 32-bit operations of R52: with sz = 1 the word is unassigned. -/
def dAmoF (w : Nat) (mk : Reg → Reg → Reg → Bool → Scope → Instr) : Except HoleCause Instr :=
  if fld w 26 1 == 1 then .error 0x02 else
  match scopeOf (fld w 23 3) with
  | none => .error 0x01
  | some sc => .ok (mk (rfld w 7) (rfld w 12) (rfld w 17) (bfld w 22) sc)

/-- red: d bits 11:8 zero, the order flag in bit 7 (R50). -/
def dRed (w : Nat) (mk : Reg → Reg → Bool → Bool → Bool → Scope → Instr) : Except HoleCause Instr :=
  match scopeOf (fld w 23 3) with
  | none => .error 0x01
  | some sc => must0 (fld w 8 4 == 0) (mk (rfld w 12) (rfld w 17) (bfld w 22) (bfld w 26) (bfld w 7) sc)

/-- red of the 32-bit operations of R52. -/
def dRedF (w : Nat) (mk : Reg → Reg → Bool → Bool → Scope → Instr) : Except HoleCause Instr :=
  if fld w 26 1 == 1 then .error 0x02 else
  match scopeOf (fld w 23 3) with
  | none => .error 0x01
  | some sc => must0 (fld w 8 4 == 0) (mk (rfld w 12) (rfld w 17) (bfld w 22) (bfld w 7) sc)

/-- acq and rel (R51). -/
def dSync1 (w : Nat) (mk : Scope → Reg → Bool → Instr) : Except HoleCause Instr :=
  match scopeOf (fld w 23 3) with
  | none => .error 0x01
  | some sc => must0 (fld w 17 5 == 0 && fld w 7 5 == 0) (mk sc (rfld w 12) (bfld w 22))

/-- bind: scope and d zero (R51). -/
def dBind (w : Nat) (mk : Reg → Reg → Bool → Instr) : Except HoleCause Instr :=
  must0 (fld w 23 3 == 0 && fld w 7 5 == 0) (mk (rfld w 12) (rfld w 17) (bfld w 22))

/-- unbind (R51). -/
def dUnbind (w : Nat) (mk : Reg → Bool → Instr) : Except HoleCause Instr :=
  must0 (fld w 23 3 == 0 && fld w 17 5 == 0 && fld w 7 5 == 0) (mk (rfld w 12) (bfld w 22))

/-- fence: every field but the scope zero (R219). -/
def dFence (w : Nat) (mk : Scope → Instr) : Except HoleCause Instr :=
  match scopeOf (fld w 23 3) with
  | none => .error 0x01
  | some sc => must0 (fld w 7 16 == 0) (mk sc)

/-- mon (R220). -/
def dMon (w : Nat) (mk : Reg → Reg → Bool → Instr) : Except HoleCause Instr :=
  must0 (fld w 23 3 == 0 && fld w 17 5 == 0) (mk (rfld w 7) (rfld w 12) (bfld w 22))

/-- a form whose operand fields, bits 23:7, are all zero. -/
def dNone (w : Nat) (mk : Instr) : Except HoleCause Instr :=
  must0 (fld w 7 17 == 0) mk

/-- mwait: bits 25:7 zero. -/
def dSyncNone (w : Nat) (mk : Instr) : Except HoleCause Instr :=
  must0 (fld w 7 19 == 0) mk

/-- RR whose only field is d (feclr, feset, txb). -/
def dN (w : Nat) (mk : Reg → Instr) : Except HoleCause Instr :=
  must0 (fld w 12 12 == 0) (mk (rfld w 7))

/-- fetst: the index in the a field, so wa is zero (R85). -/
def dFetst (w : Nat) (mk : Reg → Reg → Instr) : Except HoleCause Instr :=
  must0 (fld w 17 7 == 0) (mk (rfld w 7) (rfld w 12))

/-- RR whose only field is a. -/
def dA1 (w : Nat) (mk : Reg → Bool → Instr) : Except HoleCause Instr :=
  must0 (fld w 17 5 == 0 && fld w 7 5 == 0 && fld w 23 1 == 0) (mk (rfld w 12) (bfld w 22))

/-- RR with a and b; d zero. -/
def dAB (w : Nat) (mk : Reg → Reg → Bool → Bool → Instr) : Except HoleCause Instr :=
  must0 (fld w 7 5 == 0) (mk (rfld w 12) (rfld w 17) (bfld w 22) (bfld w 23))

/-- hstart: helper 0 to 9, b even (R51). -/
def dHstart (w : Nat) (mk : Fin 10 → Reg → Reg → Bool → Bool → Instr) : Except HoleCause Instr :=
  must0 (decide (fld w 7 5 < 10) && fld w 17 1 == 0) (mk (Fin.ofNat 10 (fld w 7 5)) (rfld w 12) (rfld w 17) (bfld w 22) (bfld w 23))

/-- fdrain and fpeek: d even and nonzero (R51). -/
def dDA (w : Nat) (mk : Reg → Reg → Bool → Instr) : Except HoleCause Instr :=
  must0 (fld w 17 5 == 0 && fld w 23 1 == 0 && fld w 7 5 != 0 && fld w 7 1 == 0) (mk (rfld w 7) (rfld w 12) (bfld w 22))

/-- RR with a channel or an accumulator 0 to 3 in d (R51). -/
def dCh3 (w : Nat) (mk : Fin 4 → Reg → Reg → Bool → Bool → Instr) : Except HoleCause Instr :=
  must0 (decide (fld w 7 5 < 4)) (mk (Fin.ofNat 4 (fld w 7 5)) (rfld w 12) (rfld w 17) (bfld w 22) (bfld w 23))

/-- cpyc (R51). -/
def dCh2 (w : Nat) (mk : Fin 4 → Reg → Bool → Instr) : Except HoleCause Instr :=
  must0 (decide (fld w 7 5 < 4) && fld w 17 5 == 0 && fld w 23 1 == 0) (mk (Fin.ofNat 4 (fld w 7 5)) (rfld w 12) (bfld w 22))

/-- cstop and mzero (R51). -/
def dCh1 (w : Nat) (mk : Fin 4 → Instr) : Except HoleCause Instr :=
  must0 (decide (fld w 7 5 < 4) && fld w 12 12 == 0) (mk (Fin.ofNat 4 (fld w 7 5)))

/-- tsdim: the dimension in b, wb zero (R378). -/
def dTsdim (w : Nat) (mk : Reg → Reg → Fin 4 → Bool → Instr) : Except HoleCause Instr :=
  must0 (decide (fld w 17 5 < 4) && fld w 23 1 == 0) (mk (rfld w 7) (rfld w 12) (Fin.ofNat 4 (fld w 17 5)) (bfld w 22))

/-- V with b a record or, with bs, a scalar (R49). -/
def dV3 (w : Nat) (mk : Reg → Reg → Reg → Bool → Bool → Instr) : Except HoleCause Instr :=
  .ok (mk (rfld w 7) (rfld w 12) (rfld w 17) (bfld w 23) (bfld w 22))

/-- V with three records (R51, VMEM 0 to 6). -/
def dV3n (w : Nat) (mk : Reg → Reg → Reg → Bool → Instr) : Except HoleCause Instr :=
  must0 (fld w 23 1 == 0) (mk (rfld w 7) (rfld w 12) (rfld w 17) (bfld w 22))

/-- V whose b is unused: b = 0 and bs = 0 (R51). -/
def dV2 (w : Nat) (mk : Reg → Reg → Bool → Instr) : Except HoleCause Instr :=
  must0 (fld w 17 5 == 0 && fld w 23 1 == 0) (mk (rfld w 7) (rfld w 12) (bfld w 22))

/-- VRED: dim in b, bs = 1 required (R51). -/
def dVred (w : Nat) (mk : Reg → Reg → Fin 4 → Bool → Instr) : Except HoleCause Instr :=
  must0 (decide (fld w 17 5 < 4) && fld w 23 1 == 1) (mk (rfld w 7) (rfld w 12) (Fin.ofNat 4 (fld w 17 5)) (bfld w 22))

/-- vacc and vacc.live: accumulator in b, bs = 1 required, a zero (R51). -/
def dVacc (w : Nat) (mk : Reg → Fin 4 → Bool → Instr) : Except HoleCause Instr :=
  must0 (decide (fld w 17 5 < 4) && fld w 23 1 == 1 && fld w 12 5 == 0) (mk (rfld w 7) (Fin.ofNat 4 (fld w 17 5)) (bfld w 22))

/-- vfill and viota: bs = 1 required, a zero (R51). -/
def dVfill (w : Nat) (mk : Reg → Reg → Bool → Instr) : Except HoleCause Instr :=
  must0 (fld w 23 1 == 1 && fld w 12 5 == 0) (mk (rfld w 7) (rfld w 17) (bfld w 22))

/-- ALU functions (R51). -/
def decALU (w : Nat) : Except HoleCause Instr :=
  match fld w 24 8 with
  | 0 => dRR3 w .add
  | 1 => dRR3 w .sub
  | 2 => dRR3 w .mul
  | 3 => dRR3 w .mulh
  | 4 => dRR3 w .mulhn
  | 5 => dRR3 w .div
  | 6 => dRR3 w .divn
  | 7 => dRR3 w .rem
  | 8 => dRR3 w .remn
  | 16 => dRR3 w .and
  | 17 => dRR3 w .or
  | 18 => dRR3 w .xor
  | 19 => dRR3 w .andn
  | 24 => dRR3 w .sll
  | 25 => dRR3 w .srl
  | 26 => dRR3 w .sra
  | 27 => dRR3 w .ror
  | 32 => dRR3 w .min
  | 33 => dRR3 w .max
  | 34 => dRR3 w .minn
  | 35 => dRR3 w .maxn
  | 40 => dRR3 w .slt
  | 41 => dRR3 w .sltn
  | 42 => dRR3 w .seq
  | 48 => dRR2 w .clz
  | 49 => dRR2 w .ctz
  | 50 => dRR2 w .popc
  | 51 => dExt w .sext
  | 52 => dExt w .zext
  | 56 => dRR3 w .csel
  | _ => .error 0x02

/-- FP functions (R51). -/
def decFP (w : Nat) : Except HoleCause Instr :=
  match fld w 24 8 with
  | 0 => dRR3 w .fadd
  | 1 => dRR3 w .fsub
  | 2 => dRR3 w .fmul
  | 3 => dRR3 w .fdiv
  | 4 => dRR2 w .fsqrt
  | 5 => dRR3 w .fmin
  | 6 => dRR3 w .fmax
  | 7 => dRR2 w .fneg
  | 8 => dRR2 w .fabs
  | 9 => dRR3 w .fsgnj
  | 10 => dRR3 w .feq
  | 11 => dRR3 w .flt
  | 12 => dRR3 w .fle
  | 13 => dRR2 w .fclass
  | 14 => dRR2 w .frcp
  | 15 => dRR2 w .frsq
  | 16 => dRR2 w .fcvtfi
  | 17 => dRR2 w .fcvtif
  | 18 => dRR2 w .fcvtfn
  | 19 => dRR2 w .fcvtnf
  | 20 => dRR2 w .fcvtbf
  | 21 => dRR2 w .fcvtfb
  | _ => .error 0x02

/-- REG functions (R51). -/
def decREG (w : Nat) : Except HoleCause Instr :=
  match fld w 24 8 with
  | 0 => dRR3 w .rwr
  | 1 => dN w .feclr
  | 2 => dN w .feset
  | 3 => dFetst w .fetst
  | _ => .error 0x02

/-- TASK functions (R51). -/
def decTASK (w : Nat) : Except HoleCause Instr :=
  match fld w 24 8 with
  | 0 => dA1 w .tspawn
  | 1 => dA1 w .tfork
  | 2 => dA1 w .tjoin
  | 3 => dAB w .tdec
  | 4 => dNone w .tend
  | 5 => dNone w .tyield
  | 6 => dHstart w .hstart
  | 7 => dNone w .hend
  | 8 => dAB w .cwait
  | 9 => dA1 w .bar
  | _ => .error 0x02

/-- FOLD functions (R51). -/
def decFOLD (w : Nat) : Except HoleCause Instr :=
  match fld w 24 8 with
  | 0 => dAB w .fdecl
  | 1 => dRR3 w .fpost
  | 2 => dRR3 w .fpostv
  | 3 => dDA w .fdrain
  | 4 => dDA w .fpeek
  | 5 => dAB w .fthr
  | 6 => dRR2 w .fcount
  | 7 => dAB w .fquiet
  | _ => .error 0x02

/-- MSG functions (R51). -/
def decMSG (w : Nat) : Except HoleCause Instr :=
  match fld w 24 8 with
  | 0 => dRR3 w .msend
  | 1 => dAB w .mtake
  | 2 => dRR3 w .nred
  | _ => .error 0x02

/-- COPY functions (R51). -/
def decCOPY (w : Nat) : Except HoleCause Instr :=
  match fld w 24 8 with
  | 0 => dCh3 w .cpy
  | 1 => dCh2 w .cpyc
  | 2 => dCh1 w .cstop
  | _ => .error 0x02

/-- TS functions (R51). -/
def decTS (w : Nat) : Except HoleCause Instr :=
  match fld w 24 8 with
  | 0 => dNone w .tsfence
  | 1 => dTsdim w .tsdim
  | _ => .error 0x02

/-- MX functions (R51). -/
def decMX (w : Nat) : Except HoleCause Instr :=
  match fld w 24 8 with
  | 0 => dA1 w .mld
  | 1 => dCh3 w .mma
  | 2 => dCh3 w .mgang
  | 3 => dCh1 w .mzero
  | 4 => dCh3 w .mdrain
  | 5 => dA1 w .mrel
  | 6 => dCh3 w .mmaSolo
  | _ => .error 0x02

/-- SYS functions (R51). -/
def decSYS (w : Nat) : Except HoleCause Instr :=
  match fld w 24 8 with
  | 0 => dA1 w .trap
  | 1 => dA1 w .svc
  | 2 => dNone w .eret
  | 3 => dNone w .brk
  | 4 => dAB w .tlbinv
  | 5 => dN w .txb
  | 6 => dNone w .txe
  | 7 => dNone w .txa
  | _ => .error 0x02

/-- VARITH functions (R51). -/
def decVARITH (w : Nat) : Except HoleCause Instr :=
  match fld w 24 8 with
  | 0 => dV3 w .vadd
  | 1 => dV3 w .vsub
  | 2 => dV3 w .vmul
  | 3 => dV3 w .vdiv
  | 4 => dV3 w .vfma
  | 5 => dV3 w .vmin
  | 6 => dV3 w .vmax
  | 7 => dV2 w .vabs
  | 8 => dV2 w .vneg
  | 9 => dV2 w .vrcp
  | 10 => dV2 w .vrsq
  | 11 => dV2 w .vexp2
  | 12 => dV2 w .vlog2
  | 13 => dV3 w .vsel
  | _ => .error 0x02

/-- VBIT functions (R51). -/
def decVBIT (w : Nat) : Except HoleCause Instr :=
  match fld w 24 8 with
  | 0 => dV3 w .vcmpEq
  | 1 => dV3 w .vcmpNe
  | 2 => dV3 w .vcmpLt
  | 3 => dV3 w .vcmpLe
  | 8 => dV3 w .vand
  | 9 => dV3 w .vor
  | 10 => dV3 w .vxor
  | 11 => dV3 w .vshl
  | 12 => dV3 w .vshr
  | 13 => dV2 w .vpopc
  | _ => .error 0x02

/-- VCONV functions (R51). -/
def decVCONV (w : Nat) : Except HoleCause Instr :=
  match fld w 24 8 with
  | 0 => dV2 w .vcvt
  | 1 => dV2 w .vquant
  | _ => .error 0x02

/-- VRED functions (R51). -/
def decVRED (w : Nat) : Except HoleCause Instr :=
  match fld w 24 8 with
  | 0 => dVred w .vsum
  | 1 => dVred w .vmaxr
  | 2 => dVred w .vscan
  | _ => .error 0x02

/-- VMEM functions (R51). -/
def decVMEM (w : Nat) : Except HoleCause Instr :=
  match fld w 24 8 with
  | 0 => dV3n w .vgath
  | 1 => dV3n w .vscat
  | 2 => dV3n w .vamoOr
  | 3 => dV3n w .vamoAnd
  | 4 => dV3n w .vamoAdd
  | 5 => dV3n w .vamoFadd
  | 6 => dV3n w .vamoMax
  | 8 => dV2 w .vhash
  | 9 => dVacc w .vacc
  | 10 => dVfill w .vfill
  | 11 => dVfill w .viota
  | 13 => dVacc w .vaccLive
  | _ => .error 0x02

/-- Shift immediates: the operation in imm 13:12 (R78). -/
def decSHI (w : Nat) : Except HoleCause Instr :=
  match fld w 30 2 with
  | 0 => dSh w .slli
  | 1 => dSh w .srli
  | 2 => dSh w .srai
  | 3 => dSh w .rori
  | _ => .error 0x02

/-- FMA functions (R51). -/
def decFMA (w : Nat) : Except HoleCause Instr :=
  match fld w 28 4 with
  | 0 => dT w .ffma
  | 1 => dT w .ffms
  | 2 => dT w .fnfma
  | 3 => dT w .fnfms
  | _ => .error 0x02

/-- BR1 conditions (R50). -/
def decBR1 (w : Nat) : Except HoleCause Instr :=
  match fld w 18 2 with
  | 0 => dBr w .beq
  | 1 => dBr w .bne
  | 2 => dBr w .blt
  | 3 => dBr w .bge
  | _ => .error 0x02

/-- BR2 conditions (R50). -/
def decBR2 (w : Nat) : Except HoleCause Instr :=
  match fld w 18 2 with
  | 0 => dBr w .bltn
  | 1 => dBr w .bgen
  | 2 => dBbit w .bbs
  | 3 => dBbit w .bbc
  | _ => .error 0x02

/-- Load sizes (R51). -/
def decLD (w : Nat) : Except HoleCause Instr :=
  match fld w 18 3 with
  | 0 => dLd w .ldB
  | 1 => dLd w .ldH
  | 2 => dLd w .ldW
  | 3 => dLd w .ldD
  | 4 => dLd w .ldBn
  | 5 => dLd w .ldHn
  | 6 => dLd w .ldWn
  | _ => .error 0x02

/-- Store sizes (R51). -/
def decST (w : Nat) : Except HoleCause Instr :=
  match fld w 18 3 with
  | 0 => dSt w .stB
  | 1 => dSt w .stH
  | 2 => dSt w .stW
  | 3 => dSt w .stD
  | _ => .error 0x02

/-- CACHE functions in imm 13:11 (R51). -/
def decCACHE (w : Nat) : Except HoleCause Instr :=
  match fld w 29 3 with
  | 0 => dPref w .pref
  | 1 => dCop w .cflush
  | 2 => dCop w .cinval
  | _ => .error 0x02

/-- amo operations (R51). -/
def decAMO (w : Nat) : Except HoleCause Instr :=
  match fld w 27 5 with
  | 0 => dAmo w .amoAdd
  | 1 => dAmo w .amoAnd
  | 2 => dAmo w .amoOr
  | 3 => dAmo w .amoXor
  | 4 => dAmo w .amoMin
  | 5 => dAmo w .amoMax
  | 6 => dAmo w .amoMinn
  | 7 => dAmo w .amoMaxn
  | 8 => dAmo w .amoSwap
  | 9 => dAmoF w .amoFadd
  | 10 => dAmoF w .amoFmin
  | 11 => dAmoF w .amoFmax
  | 12 => dAmoF w .amoBadd
  | _ => .error 0x02

/-- cas: op5 must be 0 (R208). -/
def decCAS (w : Nat) : Except HoleCause Instr :=
  match fld w 27 5 with
  | 0 => dAmo w .cas
  | _ => .error 0x02

/-- red operations (R51). -/
def decRED (w : Nat) : Except HoleCause Instr :=
  match fld w 27 5 with
  | 0 => dRed w .redAdd
  | 1 => dRed w .redAnd
  | 2 => dRed w .redOr
  | 3 => dRed w .redXor
  | 4 => dRed w .redMin
  | 5 => dRed w .redMax
  | 6 => dRed w .redMinn
  | 7 => dRed w .redMaxn
  | 9 => dRedF w .redFadd
  | 10 => dRedF w .redFmin
  | 11 => dRedF w .redFmax
  | 12 => dRedF w .redBadd
  | _ => .error 0x02

/-- SYNC functions (R51). -/
def decSYNC (w : Nat) : Except HoleCause Instr :=
  match fld w 26 6 with
  | 0 => dSync1 w .acq
  | 1 => dSync1 w .rel
  | 2 => dBind w .bind
  | 3 => dUnbind w .unbind
  | 4 => dFence w .fence
  | 5 => dMon w .mon
  | 6 => dSyncNone w .mwait
  | _ => .error 0x02

/-- mfc: imm 13:12, a and wa zero (R50). -/
def decMFC (w : Nat) : Except HoleCause Instr :=
  must0 (fld w 12 6 == 0 && fld w 30 2 == 0) (.mfc (rfld w 7) (BitVec.ofNat 12 (fld w 18 12)))

/-- mtc: imm 13:12 and d zero (R50). -/
def decMTC (w : Nat) : Except HoleCause Instr :=
  must0 (fld w 7 5 == 0 && fld w 30 2 == 0) (.mtc (BitVec.ofNat 12 (fld w 18 12)) (rfld w 12) (bfld w 17))

/-- A 32-bit word by its major opcode (R50); majors 39 to 63 are unassigned. -/
def decode32 (w : Nat) : Except HoleCause Instr :=
  match fld w 1 6 with
  | 0 => decALU w
  | 1 => dRI w .addi
  | 2 => dRI w .andi
  | 3 => dRI w .ori
  | 4 => dRI w .xori
  | 5 => decSHI w
  | 6 => dRI w .slti
  | 7 => dRI w .sltni
  | 8 => dU w .hi
  | 9 => dU w .pcrel
  | 10 => decBR1 w
  | 11 => decBR2 w
  | 12 => dJ w .jal
  | 13 => dRI w .jalr
  | 14 => decFP w
  | 15 => decFMA w
  | 16 => decLD w
  | 17 => decST w
  | 18 => decCACHE w
  | 19 => decAMO w
  | 20 => decCAS w
  | 21 => decRED w
  | 22 => decSYNC w
  | 23 => decREG w
  | 24 => decTASK w
  | 25 => decFOLD w
  | 26 => decMSG w
  | 27 => decCOPY w
  | 28 => decTS w
  | 29 => decMX w
  | 30 => .ok (.fmtp (BitVec.ofNat 25 (fld w 7 25)))
  | 31 => decSYS w
  | 32 => decVARITH w
  | 33 => decVBIT w
  | 34 => decVCONV w
  | 35 => decVRED w
  | 36 => decVMEM w
  | 37 => decMFC w
  | 38 => decMTC w
  | _ => .error 0x02

/-- A 16-bit halfword: the wait bit 15, b 14:10, d 9:5, op4 4:1; no halfword is a hole (R44). -/
def decode16 (w : Nat) : Instr :=
  let d := rfld w 5
  let b := rfld w 10
  let wt := bfld w 15
  match fld w 1 4 with
  | 0 => .cMv d b wt
  | 1 => .cAdd d b wt
  | 2 => .cSub d b wt
  | 3 => .cAnd d b wt
  | 4 => .cOr d b wt
  | 5 => .cXor d b wt
  | 6 => .cSll d b wt
  | 7 => .cSrl d b wt
  | 8 => .cSra d b wt
  | 9 => .cAddi d (BitVec.ofNat 5 (fld w 10 5)) wt
  | 10 => .cLd d b wt
  | 11 => .cSt d b wt
  | 12 => .cFadd d b wt
  | 13 => .cFmul d b wt
  | 14 => .cFmin d b wt
  | _ => .cFmax d b wt

/-- Length in bytes by bit 0 of the first halfword (R42). -/
def lenOf (h : Nat) : Nat := if h % 2 = 0 then 2 else 4

/-- Decode the first instruction of a byte string: little-endian halfwords, the length from bit 0 (R42). -/
def decode : List Byte → Except DecodeError (Instr × List Byte)
  | b0 :: b1 :: rest =>
    let h := b0.toNat + 256 * b1.toNat
    if h % 2 = 0 then .ok (decode16 h, rest)
    else match rest with
      | b2 :: b3 :: rest' =>
        let w := h + 65536 * b2.toNat + 16777216 * b3.toNat
        match decode32 w with
        | .ok i => .ok (i, rest')
        | .error c => .error (.hole (BitVec.ofNat 32 w) c)
      | _ => .error .short
  | _ => .error .short

/-- The n low bytes of a number, least significant first (R4). -/
def leBytes : Nat → Nat → List Byte
  | 0, _ => []
  | n + 1, v => BitVec.ofNat 8 v :: leBytes n (v / 256)

/-- The instruction the decoder reads from a word of nbits bits, bit 0 the least significant of the first halfword;
bits above nbits are zero. -/
def decodeTableWord (nbits w : Nat) : Option Instr :=
  match decode (leBytes 4 (w % 2 ^ nbits)) with
  | .ok (i, _) => some i
  | .error _ => none

/-- One bit as a number. -/
def bit (b : Bool) : Nat := if b then 1 else 0

/-- RR and V: func, the two bits 23 and 22, b, a, d, major (R46). -/
def packRR (major func y x b a d : Nat) : Nat :=
  1 + 2 * major + 128 * d + 4096 * a + 131072 * b + 4194304 * x + 8388608 * y + 16777216 * func

/-- RR, SYNC variant (R46). -/
def packSync (func scope w b a d : Nat) : Nat :=
  1 + 2 * 22 + 128 * d + 4096 * a + 131072 * b + 4194304 * w + 8388608 * scope + 67108864 * func

/-- RI (R46). -/
def packRI (major imm wa a d : Nat) : Nat := 1 + 2 * major + 128 * d + 4096 * a + 131072 * wa + 262144 * imm

/-- U and J (R46). -/
def packU (major imm d : Nat) : Nat := 1 + 2 * major + 128 * d + 4096 * imm

/-- B (R46). -/
def packB (major off cond w b a : Nat) : Nat :=
  1 + 2 * major + 128 * a + 4096 * b + 131072 * w + 262144 * cond + 1048576 * off

/-- M and S (R46). -/
def packM (major off size w a d : Nat) : Nat :=
  1 + 2 * major + 128 * d + 4096 * a + 131072 * w + 262144 * size + 2097152 * off

/-- A (R46). -/
def packA (major op sz scope w b a d : Nat) : Nat :=
  1 + 2 * major + 128 * d + 4096 * a + 131072 * b + 4194304 * w + 8388608 * scope + 67108864 * sz + 134217728 * op

/-- T (R46). -/
def packT (func w c b a d : Nat) : Nat :=
  1 + 2 * 15 + 128 * d + 4096 * a + 131072 * b + 4194304 * c + 134217728 * w + 268435456 * func

/-- The compact form (R44). -/
def packC (op w b d : Nat) : Nat := 2 * op + 32 * d + 1024 * b + 32768 * w

/-- The encoding of an instruction: its length in bits and its word (R44 to R54); an event has none. -/
def encode : Instr → Option (Nat × Nat)
  | .add d a b wa wb => some (32, packRR 0 0 (bit wb) (bit wa) b a d)
  | .sub d a b wa wb => some (32, packRR 0 1 (bit wb) (bit wa) b a d)
  | .mul d a b wa wb => some (32, packRR 0 2 (bit wb) (bit wa) b a d)
  | .mulh d a b wa wb => some (32, packRR 0 3 (bit wb) (bit wa) b a d)
  | .mulhn d a b wa wb => some (32, packRR 0 4 (bit wb) (bit wa) b a d)
  | .div d a b wa wb => some (32, packRR 0 5 (bit wb) (bit wa) b a d)
  | .divn d a b wa wb => some (32, packRR 0 6 (bit wb) (bit wa) b a d)
  | .rem d a b wa wb => some (32, packRR 0 7 (bit wb) (bit wa) b a d)
  | .remn d a b wa wb => some (32, packRR 0 8 (bit wb) (bit wa) b a d)
  | .and d a b wa wb => some (32, packRR 0 16 (bit wb) (bit wa) b a d)
  | .or d a b wa wb => some (32, packRR 0 17 (bit wb) (bit wa) b a d)
  | .xor d a b wa wb => some (32, packRR 0 18 (bit wb) (bit wa) b a d)
  | .andn d a b wa wb => some (32, packRR 0 19 (bit wb) (bit wa) b a d)
  | .sll d a b wa wb => some (32, packRR 0 24 (bit wb) (bit wa) b a d)
  | .srl d a b wa wb => some (32, packRR 0 25 (bit wb) (bit wa) b a d)
  | .sra d a b wa wb => some (32, packRR 0 26 (bit wb) (bit wa) b a d)
  | .ror d a b wa wb => some (32, packRR 0 27 (bit wb) (bit wa) b a d)
  | .min d a b wa wb => some (32, packRR 0 32 (bit wb) (bit wa) b a d)
  | .max d a b wa wb => some (32, packRR 0 33 (bit wb) (bit wa) b a d)
  | .minn d a b wa wb => some (32, packRR 0 34 (bit wb) (bit wa) b a d)
  | .maxn d a b wa wb => some (32, packRR 0 35 (bit wb) (bit wa) b a d)
  | .slt d a b wa wb => some (32, packRR 0 40 (bit wb) (bit wa) b a d)
  | .sltn d a b wa wb => some (32, packRR 0 41 (bit wb) (bit wa) b a d)
  | .seq d a b wa wb => some (32, packRR 0 42 (bit wb) (bit wa) b a d)
  | .clz d a wa => some (32, packRR 0 48 0 (bit wa) 0 a d)
  | .ctz d a wa => some (32, packRR 0 49 0 (bit wa) 0 a d)
  | .popc d a wa => some (32, packRR 0 50 0 (bit wa) 0 a d)
  | .sext d a size wa => some (32, packRR 0 51 0 (bit wa) size a d)
  | .zext d a size wa => some (32, packRR 0 52 0 (bit wa) size a d)
  | .csel d a b wa wb => some (32, packRR 0 56 (bit wb) (bit wa) b a d)
  | .addi d a wa imm => some (32, packRI 1 imm.toNat (bit wa) a d)
  | .andi d a wa imm => some (32, packRI 2 imm.toNat (bit wa) a d)
  | .ori d a wa imm => some (32, packRI 3 imm.toNat (bit wa) a d)
  | .xori d a wa imm => some (32, packRI 4 imm.toNat (bit wa) a d)
  | .slli d a wa amt => some (32, packRI 5 (amt.toNat + 0) (bit wa) a d)
  | .srli d a wa amt => some (32, packRI 5 (amt.toNat + 4096) (bit wa) a d)
  | .srai d a wa amt => some (32, packRI 5 (amt.toNat + 8192) (bit wa) a d)
  | .rori d a wa amt => some (32, packRI 5 (amt.toNat + 12288) (bit wa) a d)
  | .slti d a wa imm => some (32, packRI 6 imm.toNat (bit wa) a d)
  | .sltni d a wa imm => some (32, packRI 7 imm.toNat (bit wa) a d)
  | .hi d imm => some (32, packU 8 imm.toNat d)
  | .pcrel d imm => some (32, packU 9 imm.toNat d)
  | .beq a b w off => some (32, packB 10 off.toNat 0 (bit w) b a)
  | .bne a b w off => some (32, packB 10 off.toNat 1 (bit w) b a)
  | .blt a b w off => some (32, packB 10 off.toNat 2 (bit w) b a)
  | .bge a b w off => some (32, packB 10 off.toNat 3 (bit w) b a)
  | .bltn a b w off => some (32, packB 11 off.toNat 0 (bit w) b a)
  | .bgen a b w off => some (32, packB 11 off.toNat 1 (bit w) b a)
  | .bbs a idx w off => some (32, packB 11 off.toNat 2 (bit w) idx a)
  | .bbc a idx w off => some (32, packB 11 off.toNat 3 (bit w) idx a)
  | .jal d off => some (32, packU 12 off.toNat d)
  | .jalr d a wa imm => some (32, packRI 13 imm.toNat (bit wa) a d)
  | .fadd d a b wa wb => some (32, packRR 14 0 (bit wb) (bit wa) b a d)
  | .fsub d a b wa wb => some (32, packRR 14 1 (bit wb) (bit wa) b a d)
  | .fmul d a b wa wb => some (32, packRR 14 2 (bit wb) (bit wa) b a d)
  | .fdiv d a b wa wb => some (32, packRR 14 3 (bit wb) (bit wa) b a d)
  | .fsqrt d a wa => some (32, packRR 14 4 0 (bit wa) 0 a d)
  | .fmin d a b wa wb => some (32, packRR 14 5 (bit wb) (bit wa) b a d)
  | .fmax d a b wa wb => some (32, packRR 14 6 (bit wb) (bit wa) b a d)
  | .fneg d a wa => some (32, packRR 14 7 0 (bit wa) 0 a d)
  | .fabs d a wa => some (32, packRR 14 8 0 (bit wa) 0 a d)
  | .fsgnj d a b wa wb => some (32, packRR 14 9 (bit wb) (bit wa) b a d)
  | .feq d a b wa wb => some (32, packRR 14 10 (bit wb) (bit wa) b a d)
  | .flt d a b wa wb => some (32, packRR 14 11 (bit wb) (bit wa) b a d)
  | .fle d a b wa wb => some (32, packRR 14 12 (bit wb) (bit wa) b a d)
  | .fclass d a wa => some (32, packRR 14 13 0 (bit wa) 0 a d)
  | .frcp d a wa => some (32, packRR 14 14 0 (bit wa) 0 a d)
  | .frsq d a wa => some (32, packRR 14 15 0 (bit wa) 0 a d)
  | .fcvtfi d a wa => some (32, packRR 14 16 0 (bit wa) 0 a d)
  | .fcvtif d a wa => some (32, packRR 14 17 0 (bit wa) 0 a d)
  | .fcvtfn d a wa => some (32, packRR 14 18 0 (bit wa) 0 a d)
  | .fcvtnf d a wa => some (32, packRR 14 19 0 (bit wa) 0 a d)
  | .fcvtbf d a wa => some (32, packRR 14 20 0 (bit wa) 0 a d)
  | .fcvtfb d a wa => some (32, packRR 14 21 0 (bit wa) 0 a d)
  | .ffma d a b c w => some (32, packT 0 (bit w) c b a d)
  | .ffms d a b c w => some (32, packT 1 (bit w) c b a d)
  | .fnfma d a b c w => some (32, packT 2 (bit w) c b a d)
  | .fnfms d a b c w => some (32, packT 3 (bit w) c b a d)
  | .ldB d a wa off => some (32, packM 16 off.toNat 0 (bit wa) a d)
  | .ldH d a wa off => some (32, packM 16 off.toNat 1 (bit wa) a d)
  | .ldW d a wa off => some (32, packM 16 off.toNat 2 (bit wa) a d)
  | .ldD d a wa off => some (32, packM 16 off.toNat 3 (bit wa) a d)
  | .ldBn d a wa off => some (32, packM 16 off.toNat 4 (bit wa) a d)
  | .ldHn d a wa off => some (32, packM 16 off.toNat 5 (bit wa) a d)
  | .ldWn d a wa off => some (32, packM 16 off.toNat 6 (bit wa) a d)
  | .stB data a w off => some (32, packM 17 off.toNat 0 (bit w) a data)
  | .stH data a w off => some (32, packM 17 off.toNat 1 (bit w) a data)
  | .stW data a w off => some (32, packM 17 off.toNat 2 (bit w) a data)
  | .stD data a w off => some (32, packM 17 off.toNat 3 (bit w) a data)
  | .pref level a wa => some (32, packRI 18 (256 * level.val) (bit wa) a 0)
  | .cflush scope a wa => some (32, packRI 18 (2048 + 256 * scope.code) (bit wa) a 0)
  | .cinval scope a wa => some (32, packRI 18 (4096 + 256 * scope.code) (bit wa) a 0)
  | .amoAdd d a b w sz scope => some (32, packA 19 0 (bit sz) scope.code (bit w) b a d)
  | .amoAnd d a b w sz scope => some (32, packA 19 1 (bit sz) scope.code (bit w) b a d)
  | .amoOr d a b w sz scope => some (32, packA 19 2 (bit sz) scope.code (bit w) b a d)
  | .amoXor d a b w sz scope => some (32, packA 19 3 (bit sz) scope.code (bit w) b a d)
  | .amoMin d a b w sz scope => some (32, packA 19 4 (bit sz) scope.code (bit w) b a d)
  | .amoMax d a b w sz scope => some (32, packA 19 5 (bit sz) scope.code (bit w) b a d)
  | .amoMinn d a b w sz scope => some (32, packA 19 6 (bit sz) scope.code (bit w) b a d)
  | .amoMaxn d a b w sz scope => some (32, packA 19 7 (bit sz) scope.code (bit w) b a d)
  | .amoSwap d a b w sz scope => some (32, packA 19 8 (bit sz) scope.code (bit w) b a d)
  | .amoFadd d a b w scope => some (32, packA 19 9 0 scope.code (bit w) b a d)
  | .amoFmin d a b w scope => some (32, packA 19 10 0 scope.code (bit w) b a d)
  | .amoFmax d a b w scope => some (32, packA 19 11 0 scope.code (bit w) b a d)
  | .amoBadd d a b w scope => some (32, packA 19 12 0 scope.code (bit w) b a d)
  | .cas d a b w sz scope => some (32, packA 20 0 (bit sz) scope.code (bit w) b a d)
  | .redAdd a b w sz ord scope => some (32, packA 21 0 (bit sz) scope.code (bit w) b a (bit ord))
  | .redAnd a b w sz ord scope => some (32, packA 21 1 (bit sz) scope.code (bit w) b a (bit ord))
  | .redOr a b w sz ord scope => some (32, packA 21 2 (bit sz) scope.code (bit w) b a (bit ord))
  | .redXor a b w sz ord scope => some (32, packA 21 3 (bit sz) scope.code (bit w) b a (bit ord))
  | .redMin a b w sz ord scope => some (32, packA 21 4 (bit sz) scope.code (bit w) b a (bit ord))
  | .redMax a b w sz ord scope => some (32, packA 21 5 (bit sz) scope.code (bit w) b a (bit ord))
  | .redMinn a b w sz ord scope => some (32, packA 21 6 (bit sz) scope.code (bit w) b a (bit ord))
  | .redMaxn a b w sz ord scope => some (32, packA 21 7 (bit sz) scope.code (bit w) b a (bit ord))
  | .redFadd a b w ord scope => some (32, packA 21 9 0 scope.code (bit w) b a (bit ord))
  | .redFmin a b w ord scope => some (32, packA 21 10 0 scope.code (bit w) b a (bit ord))
  | .redFmax a b w ord scope => some (32, packA 21 11 0 scope.code (bit w) b a (bit ord))
  | .redBadd a b w ord scope => some (32, packA 21 12 0 scope.code (bit w) b a (bit ord))
  | .acq scope a w => some (32, packSync 0 scope.code (bit w) 0 a 0)
  | .rel scope a w => some (32, packSync 1 scope.code (bit w) 0 a 0)
  | .bind a b w => some (32, packSync 2 0 (bit w) b a 0)
  | .unbind a w => some (32, packSync 3 0 (bit w) 0 a 0)
  | .fence scope => some (32, packSync 4 scope.code 0 0 0 0)
  | .mon d a w => some (32, packSync 5 0 (bit w) 0 a d)
  | .mwait => some (32, packSync 6 0 0 0 0 0)
  | .rwr n a b wa wb => some (32, packRR 23 0 (bit wb) (bit wa) b a n)
  | .feclr n => some (32, packRR 23 1 0 0 0 0 n)
  | .feset n => some (32, packRR 23 2 0 0 0 0 n)
  | .fetst d n => some (32, packRR 23 3 0 0 0 n d)
  | .tspawn a wa => some (32, packRR 24 0 0 (bit wa) 0 a 0)
  | .tfork a wa => some (32, packRR 24 1 0 (bit wa) 0 a 0)
  | .tjoin a wa => some (32, packRR 24 2 0 (bit wa) 0 a 0)
  | .tdec a b wa wb => some (32, packRR 24 3 (bit wb) (bit wa) b a 0)
  | .tend => some (32, packRR 24 4 0 0 0 0 0)
  | .tyield => some (32, packRR 24 5 0 0 0 0 0)
  | .hstart h a b wa wb => some (32, packRR 24 6 (bit wb) (bit wa) b a h)
  | .hend => some (32, packRR 24 7 0 0 0 0 0)
  | .cwait a b wa wb => some (32, packRR 24 8 (bit wb) (bit wa) b a 0)
  | .bar a wa => some (32, packRR 24 9 0 (bit wa) 0 a 0)
  | .fdecl a b wa wb => some (32, packRR 25 0 (bit wb) (bit wa) b a 0)
  | .fpost d a b wa wb => some (32, packRR 25 1 (bit wb) (bit wa) b a d)
  | .fpostv d a b wa wb => some (32, packRR 25 2 (bit wb) (bit wa) b a d)
  | .fdrain d a wa => some (32, packRR 25 3 0 (bit wa) 0 a d)
  | .fpeek d a wa => some (32, packRR 25 4 0 (bit wa) 0 a d)
  | .fthr a b wa wb => some (32, packRR 25 5 (bit wb) (bit wa) b a 0)
  | .fcount d a wa => some (32, packRR 25 6 0 (bit wa) 0 a d)
  | .fquiet a b wa wb => some (32, packRR 25 7 (bit wb) (bit wa) b a 0)
  | .msend d a b wa wb => some (32, packRR 26 0 (bit wb) (bit wa) b a d)
  | .mtake a b wa wb => some (32, packRR 26 1 (bit wb) (bit wa) b a 0)
  | .nred d a b wa wb => some (32, packRR 26 2 (bit wb) (bit wa) b a d)
  | .cpy ch a b wa wb => some (32, packRR 27 0 (bit wb) (bit wa) b a ch)
  | .cpyc ch a wa => some (32, packRR 27 1 0 (bit wa) 0 a ch)
  | .cstop ch => some (32, packRR 27 2 0 0 0 0 ch)
  | .tsfence => some (32, packRR 28 0 0 0 0 0 0)
  | .tsdim d a dim wa => some (32, packRR 28 1 0 (bit wa) dim a d)
  | .mld a wa => some (32, packRR 29 0 0 (bit wa) 0 a 0)
  | .mma x a b wa wb => some (32, packRR 29 1 (bit wb) (bit wa) b a x)
  | .mgang x a b wa wb => some (32, packRR 29 2 (bit wb) (bit wa) b a x)
  | .mzero x => some (32, packRR 29 3 0 0 0 0 x)
  | .mdrain x a b wa wb => some (32, packRR 29 4 (bit wb) (bit wa) b a x)
  | .mrel a wa => some (32, packRR 29 5 0 (bit wa) 0 a 0)
  | .mmaSolo x a b wa wb => some (32, packRR 29 6 (bit wb) (bit wa) b a x)
  | .fmtp pfx => some (32, (1 + 2 * 30 + 128 * pfx.toNat))
  | .trap a wa => some (32, packRR 31 0 0 (bit wa) 0 a 0)
  | .svc a wa => some (32, packRR 31 1 0 (bit wa) 0 a 0)
  | .eret => some (32, packRR 31 2 0 0 0 0 0)
  | .brk => some (32, packRR 31 3 0 0 0 0 0)
  | .tlbinv a b wa wb => some (32, packRR 31 4 (bit wb) (bit wa) b a 0)
  | .txb d => some (32, packRR 31 5 0 0 0 0 d)
  | .txe => some (32, packRR 31 6 0 0 0 0 0)
  | .txa => some (32, packRR 31 7 0 0 0 0 0)
  | .vadd d a b bs w => some (32, packRR 32 0 (bit bs) (bit w) b a d)
  | .vsub d a b bs w => some (32, packRR 32 1 (bit bs) (bit w) b a d)
  | .vmul d a b bs w => some (32, packRR 32 2 (bit bs) (bit w) b a d)
  | .vdiv d a b bs w => some (32, packRR 32 3 (bit bs) (bit w) b a d)
  | .vfma d a b bs w => some (32, packRR 32 4 (bit bs) (bit w) b a d)
  | .vmin d a b bs w => some (32, packRR 32 5 (bit bs) (bit w) b a d)
  | .vmax d a b bs w => some (32, packRR 32 6 (bit bs) (bit w) b a d)
  | .vabs d a w => some (32, packRR 32 7 0 (bit w) 0 a d)
  | .vneg d a w => some (32, packRR 32 8 0 (bit w) 0 a d)
  | .vrcp d a w => some (32, packRR 32 9 0 (bit w) 0 a d)
  | .vrsq d a w => some (32, packRR 32 10 0 (bit w) 0 a d)
  | .vexp2 d a w => some (32, packRR 32 11 0 (bit w) 0 a d)
  | .vlog2 d a w => some (32, packRR 32 12 0 (bit w) 0 a d)
  | .vsel d a b bs w => some (32, packRR 32 13 (bit bs) (bit w) b a d)
  | .vcmpEq d a b bs w => some (32, packRR 33 0 (bit bs) (bit w) b a d)
  | .vcmpNe d a b bs w => some (32, packRR 33 1 (bit bs) (bit w) b a d)
  | .vcmpLt d a b bs w => some (32, packRR 33 2 (bit bs) (bit w) b a d)
  | .vcmpLe d a b bs w => some (32, packRR 33 3 (bit bs) (bit w) b a d)
  | .vand d a b bs w => some (32, packRR 33 8 (bit bs) (bit w) b a d)
  | .vor d a b bs w => some (32, packRR 33 9 (bit bs) (bit w) b a d)
  | .vxor d a b bs w => some (32, packRR 33 10 (bit bs) (bit w) b a d)
  | .vshl d a b bs w => some (32, packRR 33 11 (bit bs) (bit w) b a d)
  | .vshr d a b bs w => some (32, packRR 33 12 (bit bs) (bit w) b a d)
  | .vpopc d a w => some (32, packRR 33 13 0 (bit w) 0 a d)
  | .vcvt d a w => some (32, packRR 34 0 0 (bit w) 0 a d)
  | .vquant d a w => some (32, packRR 34 1 0 (bit w) 0 a d)
  | .vsum d a dim w => some (32, packRR 35 0 1 (bit w) dim a d)
  | .vmaxr d a dim w => some (32, packRR 35 1 1 (bit w) dim a d)
  | .vscan d a dim w => some (32, packRR 35 2 1 (bit w) dim a d)
  | .vgath d a b w => some (32, packRR 36 0 0 (bit w) b a d)
  | .vscat d a b w => some (32, packRR 36 1 0 (bit w) b a d)
  | .vamoOr d a b w => some (32, packRR 36 2 0 (bit w) b a d)
  | .vamoAnd d a b w => some (32, packRR 36 3 0 (bit w) b a d)
  | .vamoAdd d a b w => some (32, packRR 36 4 0 (bit w) b a d)
  | .vamoFadd d a b w => some (32, packRR 36 5 0 (bit w) b a d)
  | .vamoMax d a b w => some (32, packRR 36 6 0 (bit w) b a d)
  | .vhash d a w => some (32, packRR 36 8 0 (bit w) 0 a d)
  | .vacc d x w => some (32, packRR 36 9 1 (bit w) x 0 d)
  | .vfill d b w => some (32, packRR 36 10 1 (bit w) b 0 d)
  | .viota d b w => some (32, packRR 36 11 1 (bit w) b 0 d)
  | .vaccLive d x w => some (32, packRR 36 13 1 (bit w) x 0 d)
  | .mfc d n => some (32, packRI 37 n.toNat 0 0 d)
  | .mtc n a wa => some (32, packRI 38 n.toNat (bit wa) a 0)
  | .cMv d b w => some (16, packC 0 (bit w) b d)
  | .cAdd d b w => some (16, packC 1 (bit w) b d)
  | .cSub d b w => some (16, packC 2 (bit w) b d)
  | .cAnd d b w => some (16, packC 3 (bit w) b d)
  | .cOr d b w => some (16, packC 4 (bit w) b d)
  | .cXor d b w => some (16, packC 5 (bit w) b d)
  | .cSll d b w => some (16, packC 6 (bit w) b d)
  | .cSrl d b w => some (16, packC 7 (bit w) b d)
  | .cSra d b w => some (16, packC 8 (bit w) b d)
  | .cAddi d imm w => some (16, packC 9 (bit w) imm.toNat d)
  | .cLd d b w => some (16, packC 10 (bit w) b d)
  | .cSt d b w => some (16, packC 11 (bit w) b d)
  | .cFadd d b w => some (16, packC 12 (bit w) b d)
  | .cFmul d b w => some (16, packC 13 (bit w) b d)
  | .cFmin d b w => some (16, packC 14 (bit w) b d)
  | .cFmax d b w => some (16, packC 15 (bit w) b d)
  | .loadValueArrival _ _ _ _ => none
  | .remoteWriteArrival _ => none
  | .inboxEntryApply _ _ => none
  | .watchdogExpiry _ => none
  | .yieldWaitLimit _ => none
  | .sliceEnd _ _ => none
  | .graceExpiry _ => none
  | .takeWork _ => none
  | .groupPlacement _ => none
  | .launchParse _ => none
  | .hardwareHelperStart _ => none
  | .qntExpiry _ => none
  | .quantumEnd _ => none
  | .nestingHoldExpiry _ _ => none
  | .matrixKStep _ _ => none
  | .mdrainRow _ _ => none
  | .formatEmulationRequest _ => none
  | .vectorElementGroup _ => none
  | .pageReplySuccess _ _ _ => none
  | .pageReplyInvalidRequest _ _ _ => none
  | .pageReplyResponseFailure _ _ _ => none
  | .functionReset _ => none
  | .hostStage2Invalidation _ _ => none
  | .copyLineWrite _ _ => none
  | .copyRecordFinish _ _ => none
  | .messagePlacement _ => none
  | .msendAnswer _ _ => none
  | .foldPostArrival _ => none
  | .fpostStatusAnswer _ => none
  | .foldReplay _ _ => none
  | .topTokenPass _ _ => none
  | .nredRoundComplete _ _ => none
  | .treeHoldExpiry _ _ => none
  | .linkRetryExhausted _ => none
  | .overflowWatchScan _ => none
  | .bankRetentionEntry _ => none
  | .wakeSlotGrant _ => none
  | .bankWakeComplete _ => none
  | .clusterRetentionEntry _ => none
  | .clusterRetentionExit _ _ => none
  | .cacheEviction _ _ => none
  | .updateOnlyEviction _ _ => none
  | .proxyAtomicService _ _ => none
  | .backInvalidationAck _ => none
  | .hostSnoop _ _ => none
  | .cxlMemWrite _ _ => none
  | .cxlMemRead _ => none
  | .stashEntryASwap _ => none
  | .stashEntryBSwap _ => none
  | .treeT0Swap _ => none
  | .monitorConfigSwap _ => none
  | .hbaseSwap _ => none
  | .ovfbaseSwap _ => none
  | .ovfsizeSwap _ => none
  | .s1rootSwap _ => none
  | .s1attrSwap _ => none
  | .partitionRegisterWrite _ => none
  | .create _ _ _ _ _ => none
  | .resize _ _ _ _ => none
  | .replace _ _ _ => none
  | .layoutTick _ => none
  | .shrinkLimitExpiry _ => none
  | .release _ => none
  | .sets2 _ _ _ _ => none
  | .setquota _ _ _ => none
  | .summary => none
  | .attest _ => none
  | .logread _ _ => none
  | .bbread _ _ _ => none
  | .auditAppend _ _ _ => none
  | .blackBoxWrite _ => none
  | .fatalError _ => none
  | .coldReset _ _ => none
  | .warmReset _ _ => none
  | .powerOff => none
  | .budgetTreeUpdate _ _ => none
  | .rampWindow _ _ => none
  | .governorWindow _ _ _ => none
  | .microcontrollerLoop _ _ _ _ => none
  | .thermalTrip _ => none
  | .thermalShutdown => none
  | .hole _ _ => none
  | .fetchFault _ _ => none
  | .accessPerformed _ _ => none
  | .bankPowerDownComplete _ => none
  | .bolmorRemoteAccess _ _ _ _ => none
  | .lineRetirement _ => none
  | .debugUnlock _ => none
  | .thresholdWriteArrival _ => none

/-- The bytes of an instruction, little-endian (R42). -/
def encodeBytes (i : Instr) : Option (List Byte) :=
  match encode i with
  | some (nb, w) => some (leBytes (nb / 8) w)
  | none => none

end Sys2Proof
end

