-- ==== Sys2Proof/Config.lean ====
section
/-!
DEFINITION. What an implementation fixes and the spec does not give: free values. None has a body, so no proof can
see a number; a claim that meets one is true whatever it is.
-/

namespace Sys2Proof.Config

/-- A free 64-bit value, fresh for each value of the state's counter (log entry 3). -/
opaque freeWord : Nat → Word

/-- The signature over an attestation report by the device identity key, which the hardware derives from fuses and no
agent can read (R450; log entry 6). -/
opaque sign : List Byte → List Byte

/-- How many ready entries and watches an overflow area of a size holds; the spec gives no entry size (R318, R392; log
entry 7). -/
opaque overflowEntries : Word → Nat

/-- The slice of the cluster cache that holds a line, modulo 24, and of the die cache, modulo 64: a hash that the spec does not
give (R182; log entry 84). -/
opaque cacheSlice : Nat → Nat

/-- The set of a cache that holds a line, modulo the number of sets: the spec does not give it (R171; log entry 84). -/
opaque cacheSet : Nat → Nat

/-- The weight of a count in a core's demand, in mW: issued instructions, matrix K-steps, vector element groups, bytes moved (R456; log
entry 111). -/
opaque demandWeight : Nat → Nat

/-- A record of a given size that holds numbers: the spec names the fields of SUMMARY and their order, not their places
within an entry, and the kind of reset that an audit record names (R447, R452; log entry 9). -/
opaque packFields : Nat → List Nat → List Byte

end Sys2Proof.Config
end

