-- ==== Sys2Proof/Machine/State.lean ====
section
/-!
DEFINITION. The state of a Plilar 960 module as plain data, with its reset. Every piece of state the spec names is a
field here (R41 and the inventories R90, R123, R152, R170, R196, R228, R257, R282, R312, R335, R361, R385, R401, R448,
R462). The core whose instructions run next is held in `core`; every other core that differs from reset is in `others`.
-/

namespace Sys2Proof.Machine

/-- Memory contents by byte address: addresses strictly rising, no listed byte equal to 0, which is what an unlisted
address reads as (R185: a bank woken from off reads as zero; log entry 4 for host memory). -/
abbrev Memory := List Host.Cell

/-- Where a byte lies: at a physical address, or at an offset of the local-store allocation that the group `gid` of
partition `part` has on core `phys` (R174). -/
inductive Place where
  | mem (pa : Nat)
  | ls (phys part gid off : Nat)
  deriving DecidableEq, Repr

/-- A part of an access that lies in one line: its place, whether it is cached, its bytes; `detp` and the page's virtual
address serve the region rules, `device` the order of device accesses (R368); `psh` is log2 of its page's size. -/
structure Piece where
  place : Place
  cacheable : Bool
  len : Nat
  va : Word
  detp : Bool
  device : Bool
  psh : Nat
  deriving DecidableEq, Repr

/-! ### Tables and records -/

/-- A shape record's fields (R375). Extents and strides of unused dimensions are 1 and 0 (R229). -/
structure ShapeRec where
  base : Word
  fmt : Nat
  rank : Nat
  space : Nat
  pad : Bool
  padval : W32
  ext : Vector Nat 4
  stride : Vector Int 4
  deriving DecidableEq, Repr

/-- A task record's fields (R313). -/
structure TaskRec where
  count : Int
  kind : Nat
  prio : Nat
  det : Bool
  movable : Bool
  steal : Nat
  entry : Word
  arg0 : Word
  arg1 : Word
  word : Word
  next : Word
  gsize : Nat
  limit : Nat
  base : Nat
  lsize : Nat
  save : Word
  deriving DecidableEq, Repr

/-- A combined translation of one 4 KiB page in a TLB, with the pages of both stages it came from, for invalidation
(R369, R370). `d` says that both leaves were recorded dirty (R367); `sh1` and `sh2` are log2 of the pages' sizes, `at1` and `at2`
where the leaves stand, `used` the stage-2 pages of the walk: an IPA page in each and log2 of its size. -/
structure TlbEntry where
  part : Nat
  gen : Nat
  vpage : Nat
  ppage : Nat
  s1bits : Nat
  ipa : Nat
  s2bits : Nat
  r : Bool
  w : Bool
  x : Bool
  t : Bool
  d : Bool
  ty : Nat
  attr1 : Nat
  attr2 : Nat
  nostash : Bool
  detp : Bool
  sh1 : Nat
  sh2 : Nat
  at1 : Nat
  at2 : Nat
  used : List (Nat × Nat)
  deriving DecidableEq, Repr

/-- One slot of a function's page-request queue (R371); `hw` says that the scheduler waits on it too. -/
structure PageReq where
  slot : Nat
  page : Nat
  gen : Nat
  kinds : Nat
  hw : Bool
  deriving DecidableEq, Repr

/-- An entry of the region binding table (R380). -/
structure Region where
  base : Nat
  length : Nat
  cls : Nat
  owner : Nat
  sync : Word
  deriving DecidableEq, Repr

/-- A sync word of the held set with the physical place its acq translated (R216). -/
structure HeldWord where
  va : Word
  place : Place
  cacheable : Bool
  deriving DecidableEq, Repr

/-- A stash entry of a core (R382), as its two dwords, for the allocation `gid` of `part`. -/
structure StashEntry where
  idx : Nat
  part : Nat
  gid : Nat
  a : Word
  b : Word
  deriving DecidableEq, Repr

/-- A valid stash line: local line, the global line it copies, the mask of the bytes stored since the fill or the last
write-back, none for a clean line (R179, R261), the translation made at the fill (R180). -/
structure StashLine where
  part : Nat
  gid : Nat
  lsline : Nat
  line : Nat
  mask : BitVec 64
  tlb : TlbEntry
  deriving DecidableEq, Repr

/-! ### Contexts -/

/-- An outstanding long-latency producer: the register, the value that will arrive, the data address, the package whose link
brings it (R444), whether the data is bad, and whether that error has been detected, after which the register stays empty
(R63, R67). -/
structure Producer where
  reg : Reg
  value : Word
  addr : Word
  package : Option Nat
  bad : Bool
  failed : Bool
  deriving DecidableEq, Repr

/-- An armed monitor and whether it has recorded a wake-up (R220, R221). -/
structure Monitor where
  place : Place
  woke : Bool
  deriving DecidableEq, Repr

/-- The vector-engine record, at save-area offset 0x1280 and as resume state (R237, R242). `counts` are the statuses of an
fpostv's posts so far (R352), for which the layout of R242 has no field. -/
structure VRec where
  pc : Word
  word : W32
  ctx : Nat
  group : Nat
  done : BitVec 64
  pend : BitVec 64
  vd : Word
  va : Word
  vb : Word
  counts : List (Nat × Nat)
  deriving DecidableEq, Repr

/-- A trap that waits for an instruction boundary (R67, R139, R178, R195, R240); a context takes those that wait one after
the other, the oldest first. -/
structure Deferred where
  cause : BitVec 8
  eval : Word
  einfo : Word
  deriving DecidableEq, Repr

/-- A trap entry under way (R162, R166): its trap and the address that EPC names. -/
structure Entry where
  trap : Deferred
  epc : Word
  deriving DecidableEq, Repr

/-- What a context that stands at an instruction waits for, and the answer when it has come: a page request (R371) for
a virtual address, a proxy atomic (R209), a message (R304), a firmware emulation (R168), the gang barrier (R144), a quantum end (R355), a monitor (R221). -/
inductive Await where
  | nothing
  | page (page : Nat) (va : Word)
  | pageDone (page kinds : Nat) (ok : Bool) (va : Word)
  | proxy
  | proxyDone (v : Word)
  | proxyTrap (cause : BitVec 8) (eval einfo : Word)
  | message
  | messageDone (status : Nat)
  | emulation
  | emulationDone
  | emulationTrap (cause : BitVec 8) (eval einfo : Word)
  | gang
  | gangGo
  | gangFail (einfo : Word)
  | quantum
  | mwait
  | mwaitDone
  deriving DecidableEq, Repr

/-- What started a helper (R26, R147, R297, R306). -/
inductive HelperOrigin where
  | software
  | drain (acc : Fin 4) (row : Nat)
  | completion (ch : Fin 4)
  | arrival (ring : Fin 4)
  deriving DecidableEq, Repr

/-- One context: the control context, or a helper (R59, R107, R153). `standing` is the instruction that it has fetched and
stands at, with its address; `entering` a trap entry and `saving` a save of the context that has begun and waits (R166). -/
structure Ctx where
  pc : Word
  regs : Vector Word 32
  pres : BitVec 32
  prods : List Producer
  locks : List Reg
  status : Word
  cause : Word
  epc : Word
  eval : Word
  einfo : Word
  fmt : Word
  fflags : Word
  live : Bool
  origin : HelperOrigin
  age : Nat
  stalled : Bool
  party : Bool
  monitor : Option Monitor
  vres : Option VRec
  deferred : List Deferred
  await : Await
  standing : Option (Word × Instr)
  entering : Option Entry
  saving : Bool
  deriving DecidableEq, Repr

/-- A context after reset: registers 0 and present (R59), control registers 0 (log entry 1). -/
def Ctx.reset (helper : Bool) : Ctx where
  pc := 0
  regs := Vector.replicate 32 0
  pres := BitVec.allOnes 32
  prods := []
  locks := []
  status := if helper then 0x40 else 0
  cause := 0
  epc := 0
  eval := 0
  einfo := 0
  fmt := 0
  fflags := 0
  live := false
  origin := .software
  age := 0
  stalled := false
  party := false
  monitor := none
  vres := none
  deferred := []
  await := .nothing
  standing := none
  entering := none
  saving := false

/-! ### Work of the engines -/

/-- The matrix instructions that wait in the command queue or stay unfinished after acceptance: by their KIND code of R150, and
mld and mrel, which are done as soon as the engine reaches them. -/
inductive MxKind where
  | solo | mma | gang | drain | zero | load | release
  deriving DecidableEq, Repr

/-- A page that the acceptance of a matrix instruction translated (R135, R138). -/
structure MxPage where
  vpage : Nat
  ppage : Nat
  cacheable : Bool
  deriving DecidableEq, Repr

/-- An accepted matrix instruction (R135, R150): its operands, the K-steps or rows done, its flags so far. `held` while
it waits in the Nesting buffer or at the gang's barrier; `begun` once its engine performs it, until when it holds an entry of
the command queue (R283); `host` the slice that runs it and the operation of that slice's queue (R288, R289); `pages` are the
physical pages its acceptance translated, `pins` the lines fetched for its next K-step (R140). -/
structure MxOp where
  kind : MxKind
  acc : Fin 4
  held : Bool
  begun : Bool
  host : Option (Nat × Nat)
  emu : Bool
  usesFmt : Bool
  pfmt : Word
  aAddr : Word
  bAddr : Word
  asAddr : Word
  bsAddr : Word
  a : ShapeRec
  b : ShapeRec
  asRec : Option ShapeRec
  bsRec : Option ShapeRec
  pages : List MxPage
  pins : List Nat
  rows : Nat
  next : Nat
  total : Nat
  released : Nat
  rm : Nat
  hpc : Word
  flags : BitVec 5
  prio : Nat
  member : Nat
  deriving DecidableEq, Repr

/-- The tile that mld loaded (R124, R141, R146): its record address and record, which give its key, the pinned lines of each
K-step that the stationary buffer holds (R140), and those of its K-steps that are stale (R141). -/
structure Tile where
  addr : Word
  rcd : ShapeRec
  steps : List (List Nat)
  stale : List Nat
  deriving DecidableEq, Repr

/-- A member of a Nesting-buffer entry (R286): `limit` is the time at which it has waited its hold limit (R287), `ready`
says that its acceptance is complete, until when its context stands at the mma. -/
structure NestMember where
  phys : Nat
  acc : Fin 4
  number : Nat
  rows : Nat
  limit : Nat
  ready : Bool
  deriving DecidableEq, Repr

/-- An entry of a row's Nesting buffer: its key, its members, how many numbers it has given out (R285, R286). -/
structure NestEntry where
  row : Nat
  key : List Nat
  members : List NestMember
  given : Nat
  nhold : Nat
  deriving DecidableEq, Repr

/-- An operation of a slice's queue (R289): its priority; the instructions it serves name it by `id`. The queue is in
the order in which its operations came. -/
structure SliceOp where
  id : Nat
  prio : Nat
  deriving DecidableEq, Repr

/-- An arrival at a row's wired barrier (R144, R145). `round` counts the gangs that the core has arrived at and that still
stand at the barrier; `answered` says that the member has taken its own trap or cause 0x0F. -/
structure GangArrival where
  phys : Nat
  rank : Nat
  aAddr : Word
  pfmt : Option Word
  failed : Bool
  round : Nat
  answered : Bool
  deriving DecidableEq, Repr

/-- The vector instruction that the engine performs (R237): its records by operand code, the bits of its elements read
so far by operand and index, the pages it waits for with their replies, the elements that wait with their pages, the
accesses of the elements that have passed their checks, which are translated once (R236). FMT of
its prefix, its rounding mode, SEED and its privilege are those of its issue; `first` is the group at which it began; `span` are the byte
envelopes of its records (R238); `passed` says that every group has passed its checks, so that its context goes on (R237). -/
structure VxOp where
  instr : Instr
  vrec : VRec
  fmt : Option Word
  rm : Nat
  seed : Word
  priv : Nat
  first : Nat
  span : List (Nat × Nat)
  passed : Bool
  flags : BitVec 5
  recs : List (Nat × ShapeRec)
  got : List (Nat × Nat)
  pages : List (Nat × Option (Nat × Bool))
  waits : List (Nat × Nat)
  placed : List (Nat × List (Word × List Piece))
  deriving DecidableEq, Repr

/-- A transfer record as its channel has read it (R296, R297). -/
structure Transfer where
  addr : Word
  next : Word
  hpc : Word
  datum : Word
  helper : Bool
  deriving DecidableEq, Repr

/-- A pair of records a copy channel works through; `rcd` is the transfer record, none for cpy (R294 to R297). `todo` are the
destination lines whose pages wait, so that they are not owned yet (R263), `srcs` the source lines read so far (R266), both by
virtual line. -/
structure CopyJob where
  rcd : Option Transfer
  dstAddr : Word
  srcAddr : Word
  dst : ShapeRec
  src : ShapeRec
  done : Nat
  todo : List Nat
  srcs : List (Nat × List Byte)
  deriving DecidableEq, Repr

/-- The state of a copy channel (R299). -/
inductive ChanState where
  | idle | running | parked | faulted
  deriving DecidableEq, Repr

/-- A copy channel (R294 to R300): `at` is the record it is parked or continues at, `hwait` a completion-helper start
(HPC, DATUM, record) still waiting. -/
structure Chan where
  state : ChanState
  cause : BitVec 8
  wp : Nat
  job : Option CopyJob
  rcd : Word
  hwait : Option (Word × Word × Word)
  await : Await
  deriving DecidableEq, Repr

/-- A command that waits for the copy engine (R283, R295, R297, R298), with the context that issued it; `again` says that a
cpyc resumes the channel that was parked at its record. -/
inductive CopyCmd where
  | cpy (ctx : Nat) (ch : Fin 4) (dst src : Word)
  | cpyc (ctx : Nat) (ch : Fin 4) (head : Word) (again : Bool)
  | cstop (ctx : Nat) (ch : Fin 4)
  deriving DecidableEq, Repr

/-- A write of DONE or FADDR into a transfer record that waits for its page or line (R265, R297, R298). -/
structure OwedWrite where
  part : Nat
  rcd : Word
  off : Nat
  value : Word
  deriving DecidableEq, Repr

/-- A hardware request for a helper: entry, two data, what asked, for an arrival the group that opened the ring (R329). -/
structure HelperReq where
  pc : Word
  s1 : Word
  s2 : Word
  origin : HelperOrigin
  part : Nat
  gid : Nat
  deriving DecidableEq, Repr

/-- An open message ring: the allocation offset of its control block, its group, sequence numbers by sender (R302). -/
structure Ring where
  cb : Nat
  part : Nat
  gid : Nat
  seqs : List (Nat × Nat)
  deriving DecidableEq, Repr

/-! ### Accesses not yet performed -/

/-- The read-modify-write operations of R206, with cas (R208). -/
inductive RmwOp where
  | add | and | or | xor | min | max | minn | maxn | swap | fadd | fmin | fmax | badd
  | cas (expected : Word)
  deriving DecidableEq, Repr

/-- What an access that is still to be performed does (R204, R211, R219). -/
inductive AccKind where
  | store (bytes : List Byte)
  | rmw (op : RmwOp) (size : Nat) (v : Word)
  | red (op : RmwOp) (size : Nat) (v : Word) (ord : Bool)
  | flush
  | inval
  deriving DecidableEq, Repr

/-- An access issued and not yet performed at its place (R219): by context `ctx` (0 control, h + 1 helper). `device` says that
its page has the device type (R368); `tied` marks the second part of an access that crosses a line, performed after the first
(R198). -/
structure PendAcc where
  ctx : Nat
  place : Place
  cacheable : Bool
  device : Bool
  tied : Bool
  det : Bool
  va : Word
  scope : Scope
  kind : AccKind
  deriving DecidableEq, Repr

/-- A partial result of a reduction: an update-only copy of a core, or pending at the line's home (R211). `home` is the
cluster for scopes up to .clus, none for the home die cache; `scope` is none if contributions of several scopes are in it
(R212). -/
structure Partial where
  pa : Nat
  home : Option Nat
  part : Nat
  lcore : Nat
  op : RmwOp
  size : Nat
  ord : Bool
  scope : Option Scope
  v : Word
  deriving DecidableEq, Repr

/-- A post on its way, or held in a transaction (R351, R356): `answer` names the context and register that wait. -/
structure Post where
  part : Nat
  slot : Nat
  key : Nat
  value : W32
  home : Nat
  phys : Nat
  ctx : Nat
  answer : Option Reg
  deriving DecidableEq, Repr

/-- An open transaction (R223, R224): the checkpoint, the txb's address and destination, the lines read and written, the
bytes written as the context itself sees them, the stores and atomics that the commit performs, in program order, the
posts held. -/
structure Txn where
  checkpoint : Ctx
  pc : Word
  d : Reg
  rd : List Nat
  wr : List Nat
  bytes : List (Nat × Byte)
  writes : List PendAcc
  posts : List Post
  deriving DecidableEq, Repr

/-! ### Tasks -/

/-- How a ready record starts: afresh, as a continuation of cwait or bar, or resumed after a yield (R318, R390). -/
inductive StartKind where
  | fresh | continuation | resumed
  deriving DecidableEq, Repr

/-- What a resumed record carries beside its save area (R36, R167, R170): CAUSE, EPC, EVAL and EINFO of the contexts, control
context first, NBSTAT, the rounding modes of the unfinished matrix instructions, which channels were inside a record, the counts of
an unfinished fpostv. -/
structure Kept where
  causes : List (Word × Word × Word × Word)
  nbstat : Word
  rms : List Nat
  jobs : List Bool
  counts : List (Nat × Nat)
  deriving DecidableEq, Repr

/-- An entry of a ready queue, a deque or a watch: a copy of the record with what travels with it (R318); `event` names
the slot and index of an event task (R350). -/
structure ReadyEntry where
  rcd : TaskRec
  addr : Word
  start : StartKind
  part : Nat
  launch : Nat
  det : Bool
  phys : Option Nat
  gid : Nat
  rank : Nat
  peer : Option Nat
  held : List HeldWord
  kept : Option Kept
  passed : Nat
  stamp : Nat
  task : Word
  event : Option (Nat × Nat)
  deriving DecidableEq, Repr

/-- The task a control context runs (R319, R350). `event` is the slot and index of an event task, `regions` the banks of
the pages it has touched under its phase, with the time of the last touch of those it has touched themselves (R189). -/
structure Running where
  rcd : TaskRec
  addr : Word
  part : Nat
  launch : Nat
  gid : Nat
  rank : Nat
  peer : Option Nat
  det : Bool
  held : List HeldWord
  event : Option (Nat × Nat)
  regions : List (Nat × Option Nat)
  deriving DecidableEq, Repr

/-- The tracking record of a line of a group-private region (R272): readers none, one rank or several. -/
structure Track where
  place : Place
  w : Option Nat
  rd : List Nat
  u : Bool
  deriving DecidableEq, Repr

/-- A group that lives (R31 to R33): the ranks still running, the continuations waiting or ready, its barrier word in
deterministic mode (R398), its tracking records. -/
structure Group where
  gid : Nat
  base : Nat
  size : Nat
  running : List Nat
  conts : Nat
  next : Word
  launch : Nat
  lsize : Nat
  cluster : Nat
  bar : Option Place
  tracks : List Track
  deriving DecidableEq, Repr

/-- A launch: its slot, population, failures, first code (R317). -/
structure Launch where
  slot : Nat
  pop : Nat
  failed : Nat
  code : Nat
  done : Word
  det : Bool
  deriving DecidableEq, Repr

/-- A watch on a counter or barrier word (R390, R391). -/
structure Watch where
  kind : Nat
  arg : W32
  place : Place
  entry : ReadyEntry
  deriving DecidableEq, Repr

/-- A Fold Store instruction with what it read (R341, R355): fdecl its record or the fault of the read; fpostv its word, the
format of its values, its elements (index, key word, value) up to a fault, the counts of the earlier run that it continues. -/
inductive FoldOp where
  | decl (slot rcd : Word) (bytes : List Byte) (fault : Option Deferred)
  | post (d : Reg) (kw v : Word)
  | postv (word : W32) (d : Reg) (keys vals : Word) (fmt : Nat) (elems : List (Nat × Word × W32))
      (fault : Option Deferred) (counts : List (Nat × Nat))
  | drain (d : Reg) (mask : Word)
  | peek (d : Reg) (mask : Word)
  | thr (slot v : Word)
  | quiet (slot rcd : Word)
  deriving DecidableEq, Repr

/-- A message on its way to a ring, and the answer on its way back once it is placed or refused (R304); `seq` is its number in
its flow (R445). -/
structure Msg where
  seq : Nat
  part : Nat
  src : Nat
  target : Nat
  ring : Nat
  hreq : Bool
  body : List Byte
  phys : Nat
  ctx : Nat
  answer : Option Nat
  deriving DecidableEq, Repr

/-- A remote write on its way (R83): from a logical core on physical core `phys`; `seq` is its number in its flow (R445). -/
structure RemoteWrite where
  seq : Nat
  part : Nat
  phys : Nat
  src : Nat
  target : Nat
  idx : Reg
  value : Word
  deriving DecidableEq, Repr

/-- A request held to the quantum end (R332). -/
inductive HeldReq where
  | ready (e : ReadyEntry)
  | push (e : ReadyEntry)
  | tdec (launch : Nat) (det : Bool) (addr : Word) (amount : Nat)
  | fold (ctx : Nat) (op : FoldOp)
  | rwr (w : RemoteWrite)
  | msg (m : Msg)
  | mtake (ring : Fin 4) (n : Nat)
  | nred (tree : Nat)
  | post (q : Post)
  | eventEnd (slot idx : Nat)
  | setReg (n : Nat) (v : Word)
  | arrive (cacheable : Bool) (w : Watch)
  | quota (cl q : Nat)
  | watch (w : Watch)
  deriving DecidableEq, Repr

/-- Work of the scheduler that waits for a page reply: the decrement of a record or the readying of a graph target for a
launch, seen from a cluster and core, the completion of a launch (R317, R323, R327), a slot's bytes still to be judged, the
completion word of a rejected launch (R315, R316), or the release of a partition that a completion word holds up (R439). -/
inductive HwWork where
  | decrement (part launch cl phys : Nat) (det : Bool) (addr : Word)
  | target (part launch cl phys : Nat) (det : Bool) (addr : Word)
  | complete (part slot : Nat)
  | parse (part slot : Nat) (bytes : List Byte)
  | reject (part slot reason : Nat) (done : Word)
  | release (part : Nat)
  deriving DecidableEq, Repr

/-- A forced yield under way: how long step 2 of R167 has waited, and whether WDOG has expired during it. -/
structure Yield where
  waited : Nat
  expired : Bool
  deriving DecidableEq, Repr

/-! ### A core -/

/-- A local-store allocation of a resident group (R32, R174), with its bad lines (R194, R195). -/
structure Alloc where
  part : Nat
  gid : Nat
  rank : Nat
  size : Nat
  mem : Memory
  bad : List Nat
  deriving DecidableEq, Repr

/-- A remote write waiting in an inbox (R68). -/
structure InboxEntry where
  idx : Reg
  value : Word
  src : Nat
  deriving DecidableEq, Repr

/-- A core (R20): its contexts, control registers (R153), matrix slice (R124), engines, local store and caches. `cur` is
the context that issues next, none for the control context; `frames` marks the trap frames written since the task started
(R169), `resume` the held words still to be acquired by a resumption under way (R216) and `kept` what its record carries,
`victims` where the next steal starts at each level (R322). `sliceq` is the slice's queue of operations (R289), `serves` the partitions that it serves in their rotation and `sliceFrom`
when the current slice began (R432), `held` the requests held to the quantum end with their partitions (R332), `pace` how many elements of an indexed form the vector engine performs in a step, 0 for all of a group (log entry 2), `vcq` the contexts
whose vector instructions wait in the engine's command queue and `copyq` the commands that wait for the copy engine (R283). -/
structure Core where
  phys : Nat
  part : Option Nat
  serves : List Nat
  sliceFrom : Nat
  ctl : Ctx
  helpers : Vector Ctx 10
  cur : Option (Fin 10)
  last : Nat
  ages : Nat
  tvec : Word
  task : Word
  lcore : Word
  grank : Word
  gsize : Word
  groupid : Word
  cycle : Word
  retired : Word
  wdog : Nat
  qnt : Nat
  duty : Nat
  bwphase : Word
  seed : Word
  nbstat : Word
  saveptr : Word
  fw : List (Nat × Word)
  run : Option Running
  resume : Option (List HeldWord)
  kept : Option Kept
  frames : BitVec 11
  victims : Vector Nat 4
  acc : Vector (Vector (Vector W32 16) 32) 4
  steps : Vector (Vector W32 32) 4
  mxq : List MxOp
  sliceq : List SliceOp
  sliceIds : Nat
  tile : Option Tile
  vcq : List Nat
  vxq : List VxOp
  copyq : List CopyCmd
  owes : List OwedWrite
  chans : Vector Chan 4
  rings : Vector (Option Ring) 4
  hreqs : List HelperReq
  inbox : List InboxEntry
  setAside : List (Nat × List InboxEntry)
  allocs : List Alloc
  stash : List StashEntry
  stashLines : List StashLine
  recs : List (Word × List Byte)
  tlb : List TlbEntry
  itlb : List TlbEntry
  l1d : List Nat
  icache : List (Nat × List Byte)
  pend : List PendAcc
  upd : List Partial
  txn : Option Txn
  deque : List ReadyEntry
  held : List (Nat × HeldReq)
  atBarrier : Bool
  rwrs : Nat
  yield : Option Yield
  grace : Option Nat
  slice : Option Nat
  freq : Nat
  busyPrev : Nat
  demand : Nat
  pace : Nat
  deriving DecidableEq, Repr

/-- A core after reset (R153, R386; log entry 1). Its clock runs at 4,000 MHz, the model's choice (log entry 95). -/
def Core.reset (phys : Nat) : Core where
  phys := phys
  part := none
  serves := []
  sliceFrom := 0
  ctl := Ctx.reset false
  helpers := Vector.replicate 10 (Ctx.reset true)
  cur := none
  last := 0
  ages := 0
  tvec := 0
  task := 0
  lcore := 0
  grank := 0
  gsize := 0
  groupid := 0
  cycle := 0
  retired := 0
  wdog := 0
  qnt := 0
  duty := 16
  bwphase := 0
  seed := 0
  nbstat := 0
  saveptr := 0
  fw := []
  run := none
  resume := none
  kept := none
  frames := 0
  victims := Vector.replicate 4 0
  acc := Vector.replicate 4 (Vector.replicate 32 (Vector.replicate 16 0))
  steps := Vector.replicate 4 (Vector.replicate 32 0)
  mxq := []
  sliceq := []
  sliceIds := 0
  tile := none
  vcq := []
  vxq := []
  copyq := []
  owes := []
  chans := Vector.replicate 4 ⟨.idle, 0, 0, none, 0, none, .nothing⟩
  rings := Vector.replicate 4 none
  hreqs := []
  inbox := []
  setAside := []
  allocs := []
  stash := []
  stashLines := []
  recs := []
  tlb := []
  itlb := []
  l1d := []
  icache := []
  pend := []
  upd := []
  txn := none
  deque := []
  held := []
  atBarrier := false
  rwrs := 0
  yield := none
  grace := none
  slice := none
  freq := 4000
  busyPrev := 0
  demand := 0
  pace := 0

/-! ### A cluster -/

/-- A line of a cluster cache: its 64 bytes and the mask of bytes stored since fetch or write-back (R182, R261). -/
structure CLine where
  line : Nat
  part : Nat
  bytes : Vector Byte 64
  mask : BitVec 64
  deriving DecidableEq, Repr

/-- A pending entry of a Fold Store (R336); `born` is when it was inserted. -/
structure FoldEntry where
  part : Nat
  slot : Nat
  key : Nat
  value : W32
  born : Nat
  deriving DecidableEq, Repr

/-- What a store keeps for one declaration slot (R345, R347, R348, R359): threshold, spill counts, refusals, live event
task indices, the Top's colour. -/
structure SlotState where
  part : Nat
  slot : Nat
  thr : W32
  head : Nat
  tail : Nat
  refusals : Nat
  live : List Nat
  black : Bool
  deriving DecidableEq, Repr

/-- A monitor unit (R399). -/
structure MonUnit where
  config : Word
  count : Word
  sum : Word
  min : Word
  max : Word
  bins : Vector Word 16
  deriving DecidableEq, Repr

/-- A cluster (R20, R318, R336, R390, R399). `pins` are the lines that tile fetch holds, once for each tile (R140),
`refetch` the pinned lines that a cinval has invalidated, which leave when their last pin goes (R203), `tlb` the second-level
TLB and `walks` the table entries that its walkers cache, by partition and place (R369), `limit` the power limit in mW once the
microcontroller has written one (R459). -/
structure Cluster where
  id : Nat
  lines : List CLine
  fold : List FoldEntry
  slots : List SlotState
  quotas : List (Nat × Nat)
  ready : List ReadyEntry
  watches : List Watch
  nest : List NestEntry
  gangs : List GangArrival
  mons : Vector MonUnit 8
  pins : List Nat
  refetch : List Nat
  tlb : List TlbEntry
  walks : List (Nat × Nat × Nat)
  reserves : List (Nat × Nat)
  retained : Bool
  limit : Option Nat
  deriving DecidableEq, Repr

/-- A monitor unit after reset (R399). -/
def MonUnit.reset : MonUnit := ⟨0, 0, 0, 0xFFFFFFFF, 0, Vector.replicate 16 0⟩

/-- A cluster after reset. -/
def Cluster.reset (id : Nat) : Cluster :=
  ⟨id, [], [], [], [], [], [], [], [], Vector.replicate 8 MonUnit.reset, [], [], [], [], [], false, none⟩

/-! ### A partition -/

/-- A declaration slot (R339, R340). -/
structure Decl where
  slot : Nat
  op : Nat
  dispatch : Bool
  det : Bool
  conc : Nat
  prio : Nat
  limit : Nat
  thr : W32
  handler : Word
  ring : Word
  ringsize : Nat
  home : Nat
  datum : Word
  launch : Nat
  lsize : Nat
  deriving DecidableEq, Repr

/-- The Top of a slot (R359): the cluster that holds the token, its colour, the record, the launch that its decrement
belongs to. `started` says that the token has left the initiator, `ripe` that, where the quantum rules apply, a quantum end has
passed since the one that applied the fquiet (R360). -/
structure Top where
  slot : Nat
  holder : Nat
  black : Bool
  rcd : Word
  started : Bool
  ripe : Bool
  launch : Nat
  det : Bool
  deriving DecidableEq, Repr

/-- A contribution to a tree round that has not completed (R309): the places of the vector with the translations that gave them, the
completion word and the launch that its decrement belongs to. -/
structure Contribution where
  tree : Nat
  lcore : Nat
  round : Nat
  op : Nat
  fmt : Nat
  elems : List W32
  pieces : List (Place × Bool × Nat)
  entries : List TlbEntry
  word : Word
  launch : Nat
  det : Bool
  deriving DecidableEq, Repr

/-- A tree of the tree table (R383): its two dwords, its leaves, the rounds each leaf has begun, uncombined forwarding. -/
structure Tree where
  idx : Nat
  t0 : Word
  t1 : Word
  leaves : List Nat
  rounds : List (Nat × Nat)
  results : List (Nat × List W32)
  forwarded : Bool
  deriving DecidableEq, Repr

/-- An entry of the rank table (R379). -/
structure RankEntry where
  phys : Nat
  valid : Bool
  transit : Bool
  deriving DecidableEq, Repr

/-- A layout change between its stage and its tick (R437, R438): the shadow tables, which are the rank table, the stage-2 root,
attributes and PASID of the descriptor, bank ownership, the region bindings; `replace` says that it replaces a core. -/
structure Shadow where
  ranks : List RankEntry
  s2root : Word
  s2attr : Word
  pasid : Nat
  banks : List Nat
  regions : List Region
  leaving : List Nat
  shrinking : Bool
  replace : Bool
  limit : Nat
  deriving DecidableEq, Repr

/-- A partition (R431 to R439): its layout, descriptor (R363), runtime registers (R435), tables and groups. `state` is
that of R447: 1 live, 2 changing, 3 releasing. `shares` are the lengths in ns of its slices on its shared cores, its other cores
being dedicated (R432); `reports` the inbox entries that were discarded and reported to it (R438). -/
structure Partition where
  tag : Nat
  state : Nat
  det : Bool
  ranks : List RankEntry
  shadow : Option Shadow
  shares : List (Nat × Nat)
  reports : List InboxEntry
  banks : List Nat
  vf : Nat
  gen : Nat
  pasid : Nat
  s1root : Word
  s1attr : Word
  s2root : Word
  s2attr : Word
  hbase : Word
  ovfbase : Word
  ovfsize : Word
  ovfReady : List ReadyEntry
  ovfWatches : List Watch
  grace : Word
  nhold : Word
  qlen : Word
  qlenNext : Option Word
  decls : List Decl
  tops : List Top
  regions : List Region
  pageOwners : List (Nat × Nat)
  trees : List Tree
  contribs : List Contribution
  groups : List Group
  gids : Nat
  launches : List Launch
  parsed : List Nat
  failures : Nat
  deriving DecidableEq, Repr

/-- A virtual function of the host link: its generation, its request slots, whether a response failure stands (R371 to
R373), the replies that the scheduler has still to see: page, kinds, success. `waiting` are the requests that wait for a free slot,
in the order in which they arose (R371). -/
structure Function where
  vf : Nat
  gen : Nat
  slots : List PageReq
  waiting : List PageReq
  failed : Bool
  replies : List (Nat × Nat × Bool)
  deriving DecidableEq, Repr

/-! ### Banks, dies and the I/O die -/

/-- The states of a bank (R185, R384); a bank that is powering down still counts as off for wakes. -/
inductive BankState where
  | off | retention | active | waking | powerDown
  deriving DecidableEq, Repr

/-- An entry of a bank map (R384): banks 0 to 8,191 are die × 2,048 + unit of stacked DRAM, 8,192 + g bank group g.
`entered` is when it last went into retention, `stay` until when it may not go there again (R187). -/
structure Bank where
  id : Nat
  state : BankState
  owner : Option Nat
  touch : Nat
  entered : Nat
  stay : Nat
  deriving DecidableEq, Repr

/-- A wake in progress (R190): a demand of a front end, or a pre-wake; granted once it holds an in-rush slot. `asked` is when it
was first requested (R187). -/
structure Wake where
  bank : Nat
  asked : Nat
  demand : Bool
  granted : Bool
  fromOff : Bool
  deriving DecidableEq, Repr

/-- An entry of a black box (R453). -/
structure BBEntry where
  time : Nat
  code : Nat
  part : Nat
  core : Nat
  dropped : Nat
  data : Word × Word
  deriving DecidableEq, Repr

/-- A black-box recorder (R453, R454): entries oldest first, how many were ever written, staged entries, the drop count. -/
structure BlackBox where
  entries : List BBEntry
  head : Nat
  staged : List BBEntry
  dropped : Nat
  frozen : Bool
  deriving DecidableEq, Repr

/-- An empty recorder. -/
def BlackBox.reset : BlackBox := ⟨[], 0, [], 0, false⟩

/-- A proxy atomic at a control core (R209): its lane, the context that waits. -/
structure ProxyReq where
  lane : Nat
  phys : Nat
  ctx : Nat
  part : Nat
  runtime : Bool
  va : Word
  pa : Nat
  op : RmwOp
  size : Nat
  v : Word
  returns : Bool
  deriving DecidableEq, Repr

/-- An emulation request at a control core (R168): the core that stands at the matrix instruction, the instruction, whether
it has passed its checks, as a started gang's has (R144), whether it comes from a resumption (R150). -/
structure EmuReq where
  phys : Nat
  op : MxOp
  checked : Bool
  resumed : Bool
  deriving DecidableEq, Repr

/-- A compute die's control core and recorder (R23, R453). -/
structure Die where
  proxies : List ProxyReq
  emus : List EmuReq
  bb : BlackBox
  deriving DecidableEq, Repr

/-- A record of the audit log (R451). -/
structure AuditRec where
  seq : Nat
  time : Nat
  event : Nat
  part : Nat
  data : List Byte
  prev : List Byte
  deriving DecidableEq, Repr

/-- The answer of the mailbox to its last command: "not booted", an error code, or what the command returns (R446, R449). -/
inductive Response where
  | none | notBooted | error
  | data (bytes : List Byte)
  deriving DecidableEq, Repr

/-- The I/O die: measurement registers (R449), audit log (R451), recorder, mailbox (R446), supplies (R459). `booted` is
false in recovery and before the boot; `response` is the last mailbox answer; `poweredAt` when the power came, from which the
hardware clock counts (R451); `slowBelow` and `fastAbove` the governor's thresholds in 1/100 (R458); `fuse` the digest of the public
key in the fuses (R449). -/
structure IODie where
  mr : Vector (List Byte) 8
  audit : List AuditRec
  auditSeq : Nat
  bb : BlackBox
  booted : Bool
  response : Response
  volts : List Nat
  fmax : List Nat
  poweredAt : Nat
  slowBelow : Nat
  fastAbove : Nat
  fuse : List Byte
  deriving DecidableEq, Repr

/-- The I/O die right after reset: the measurement registers are zero (R449), the log is empty (R451), the governor's thresholds
are 0.25 and 0.5 (R458). That every island allows the highest core clock, 4,000 MHz, and that the fuses hold zeros are the model's
choices (log entries 95 and 110). -/
def IODie.reset : IODie :=
  ⟨Vector.replicate 8 (List.replicate 48 0), [], 0, BlackBox.reset, false, .none, List.replicate 24 0,
    List.replicate 24 4000, 0, 25, 50, List.replicate 48 0⟩

/-! ### The module -/

/-- A memory or cache with an error counter of its own (R171, R193): of a core, a cluster, a die, or a channel of DRAM by
the front end that serves it. -/
inductive MemUnit where
  | localStore (phys : Nat)
  | l1Data (phys : Nat)
  | l1Instr (phys : Nat)
  | clusterCache (cl : Nat)
  | dieCache (die : Nat)
  | dram (front : Nat)
  deriving DecidableEq, Repr

/-- A status of a post on its way back to the context and register that wait for it (R351). -/
structure Answer where
  part : Nat
  phys : Nat
  ctx : Nat
  reg : Reg
  status : Word
  deriving DecidableEq, Repr

/-- A flow from a physical core to a logical core of its partition: the sequence number of its next packet (R445). -/
structure Flow where
  part : Nat
  phys : Nat
  target : Nat
  next : Nat
  deriving DecidableEq, Repr

/-- What happens next when something is due: an event, an issue by another core, time that passes (log entry 2), an error
that a memory corrects (R193), data that can no longer be corrected, at the line of a place (R194), or the number of elements that a
core's vector engine performs in a step before others go on (R235). -/
inductive Move where
  | event (i : Instr)
  | issue (phys : Nat)
  | elapse (ns : Nat)
  | corrected (m : MemUnit)
  | upset (p : Place)
  | pace (phys n : Nat)
  deriving DecidableEq, Repr

/-- The module (R1, R20). `wakeQueue` holds the sleeping banks that accesses wait for behind a demand wake of their front
end, in arrival order (R190), `sleepers` the lines that accesses wait for
in sleeping banks, each with whether the wake is from off if it began with the access (R191, R400), `dieLines` the lines of the home die caches with their partition tags (R183, R431). `agenda` and `turn` are the model's own: what happens next, and how many events have been chosen
(log entry 2). -/
structure State where
  core : Core
  others : List Core
  agenda : List Move
  turn : Nat
  freeCtr : Nat
  time : Nat
  powered : Bool
  layout : Nat
  mem : Memory
  badLines : List Nat
  corrected : List (MemUnit × Nat)
  dieLines : List (Nat × Nat)
  partials : List Partial
  detTags : List Nat
  foreignMarks : List Nat
  owned : List (Nat × Nat × Nat)
  hostLines : List Nat
  hostWaits : List Nat
  clusters : List Cluster
  parts : List Partition
  funcs : List Function
  banks : List Bank
  wakes : List Wake
  wakeQueue : List Nat
  sleepers : List (Nat × Option Bool)
  remotes : List RemoteWrite
  posts : List Post
  answers : List Answer
  thrs : List (Nat × Nat × Nat × W32)
  msgs : List Msg
  flows : List Flow
  hwork : List HwWork
  dies : Vector Die 4
  io : IODie
  deriving DecidableEq, Repr

/-- The module right after reset: nothing on the agenda, no partition (R461), every bank off, memory with nothing listed,
the measurement registers zero (R449). The core in focus is the first assignable core of die 0, identifier 1 (R21, R23;
log entry 1). -/
def State.reset : State where
  core := Core.reset 1
  others := []
  agenda := []
  turn := 0
  freeCtr := 0
  time := 0
  powered := true
  layout := 0
  mem := []
  badLines := []
  corrected := []
  dieLines := []
  partials := []
  detTags := []
  foreignMarks := []
  owned := []
  hostLines := []
  hostWaits := []
  clusters := []
  parts := []
  funcs := []
  banks := []
  wakes := []
  wakeQueue := []
  sleepers := []
  remotes := []
  posts := []
  answers := []
  thrs := []
  msgs := []
  flows := []
  hwork := []
  dies := Vector.replicate 4 ⟨[], [], BlackBox.reset⟩
  io := IODie.reset

/-- Why a step stops the machine. -/
inductive Fault where
  /-- Raised by `step` when the module has no power (R451, R460) and nothing is on the agenda: no instruction can run.
  Safe: the machine stops where the hardware does nothing. -/
  | deviceOff
  deriving DecidableEq, Repr

/-- Why an instruction has no meaning. -/
inductive Refusal where
  /-- Raised by an arm of `exec` for an instruction not modelled yet. Safe. -/
  | notModelled (mnemonic : String)
  deriving DecidableEq, Repr

end Sys2Proof.Machine
end

