-- ==== Sys2Proof/Machine/Bits.lean ====
section
/-!
DEFINITION. Bit fields, extensions and byte order (R4, R18), and the integer results of the ALU and of the immediate
forms (R76 to R80).
-/

namespace Sys2Proof.Machine

/-- Sext(x, n) of R18. -/
def sextBits (n : Nat) (x : Nat) : Word := (BitVec.ofNat n x).signExtend 64

/-- Zext(x, n) of R18. -/
def zextBits (n : Nat) (x : Nat) : Word := BitVec.ofNat 64 (x % 2 ^ n)

/-- A number from bytes, least significant first (R4). -/
def leNat : List Byte → Nat
  | [] => 0
  | b :: bs => b.toNat + 256 * leNat bs

/-- Bits hi:lo of a word as a number (R18). -/
def bitsOf (w : Word) (hi lo : Nat) : Nat := w.toNat / 2 ^ lo % 2 ^ (hi + 1 - lo)

/-- The word with bits hi:lo replaced by v. -/
def setBits (w : Word) (hi lo v : Nat) : Word :=
  BitVec.ofNat 64 (w.toNat - bitsOf w hi lo * 2 ^ lo + v % 2 ^ (hi + 1 - lo) * 2 ^ lo)

/-- A condition as a register value. -/
def boolWord (b : Bool) : Word := if b then 1 else 0

/-- Number of one bits among the low n bits of x. -/
def popcount : Nat → Nat → Nat
  | 0, _ => 0
  | n + 1, x => x % 2 + popcount n (x / 2)

/-- Trailing zeros of an n-bit x; n if x = 0. -/
def ctzN : Nat → Nat → Nat
  | 0, _ => 0
  | n + 1, x => if x % 2 = 1 then 0 else 1 + ctzN n (x / 2)

/-- Leading zeros of a 64-bit x; 64 if x = 0 (R76). -/
def clz64 (x : Word) : Nat := if x = 0 then 64 else 63 - x.toNat.log2

/-- The binary operations of major 0 (R76). -/
inductive AluOp where
  | add | sub | mul | mulh | mulhn | div | divn | rem | remn | and | or | xor | andn | sll | srl | sra | ror
  | min | max | minn | maxn | slt | sltn | seq
  deriving DecidableEq, Repr

/-- Bits 127:64 of the signed product (R76). -/
def mulhSigned (x y : Word) : Word := BitVec.ofInt 64 (x.toInt * y.toInt / 2 ^ 64)

/-- Bits 127:64 of the natural product (R76). -/
def mulhNat (x y : Word) : Word := BitVec.ofNat 64 (x.toNat * y.toNat / 2 ^ 64)

/-- The signed quotient toward zero: all ones for SB = 0, −2^63 for −2^63 ÷ −1 (R76). -/
def divSigned (x y : Word) : Word := if y = 0 then BitVec.allOnes 64 else BitVec.ofInt 64 (x.toInt.tdiv y.toInt)

/-- The remainder of divSigned, with the sign of SA; SA for SB = 0 (R76). -/
def remSigned (x y : Word) : Word := if y = 0 then x else BitVec.ofInt 64 (x.toInt.tmod y.toInt)

/-- The natural quotient (R76). -/
def divNat (x y : Word) : Word := if y = 0 then BitVec.allOnes 64 else x / y

/-- The natural remainder (R76). -/
def remNat (x y : Word) : Word := if y = 0 then x else x % y

/-- Bits 5:0 of a shift amount (R76). -/
def shAmt (y : Word) : Nat := y.toNat % 64

/-- The result of a binary operation of major 0 (R76). -/
def aluOp : AluOp → Word → Word → Word
  | .add, x, y => x + y
  | .sub, x, y => x - y
  | .mul, x, y => x * y
  | .mulh, x, y => mulhSigned x y
  | .mulhn, x, y => mulhNat x y
  | .div, x, y => divSigned x y
  | .divn, x, y => divNat x y
  | .rem, x, y => remSigned x y
  | .remn, x, y => remNat x y
  | .and, x, y => x &&& y
  | .or, x, y => x ||| y
  | .xor, x, y => x ^^^ y
  | .andn, x, y => x &&& ~~~y
  | .sll, x, y => x <<< shAmt y
  | .srl, x, y => x >>> shAmt y
  | .sra, x, y => x.sshiftRight (shAmt y)
  | .ror, x, y => x.rotateRight (shAmt y)
  | .min, x, y => if x.slt y then x else y
  | .max, x, y => if x.slt y then y else x
  | .minn, x, y => if x.ult y then x else y
  | .maxn, x, y => if x.ult y then y else x
  | .slt, x, y => boolWord (x.slt y)
  | .sltn, x, y => boolWord (x.ult y)
  | .seq, x, y => boolWord (x == y)

/-- The conditions of the branches with two registers (R80). -/
inductive BrCond where
  | eq | ne | lt | ge | ltn | gen
  deriving DecidableEq, Repr

/-- Whether a branch condition holds (R80). -/
def brCond : BrCond → Word → Word → Bool
  | .eq, x, y => x == y
  | .ne, x, y => x != y
  | .lt, x, y => x.slt y
  | .ge, x, y => !x.slt y
  | .ltn, x, y => x.ult y
  | .gen, x, y => !x.ult y

/-- PC + Sext(off) × 2, the target of a branch or jump (R17). -/
def target {n : Nat} (pc : Word) (off : BitVec n) : Word := pc + off.signExtend 64 * 2

/-- Sext(imm20, 20) << 12 (R79). -/
def hiValue (imm : BitVec 20) : Word := imm.signExtend 64 <<< (12 : Nat)

/-- The first element of a list that satisfies a test, with the list less it. -/
def takeFirst {α : Type} (p : α → Bool) : List α → Option (α × List α)
  | [] => none
  | x :: xs => if p x then some (x, xs) else (takeFirst p xs).map (fun r => (r.1, x :: r.2))

/-- Element n of a list, with the list less it. -/
def takeNth {α : Type} : Nat → List α → Option (α × List α)
  | _, [] => none
  | 0, x :: xs => some (x, xs)
  | n + 1, x :: xs => (takeNth n xs).map (fun r => (r.1, x :: r.2))

/-- The elements at positions lo to lo + n - 1. -/
def slice {α : Type} (l : List α) (lo n : Nat) : List α := (l.drop lo).take n

/-- Replace every element that satisfies a test. -/
def modifyWhere {α : Type} (p : α → Bool) (f : α → α) (l : List α) : List α := l.map (fun x => if p x then f x else x)

/-- Insert into a list sorted by a key, after equal keys. -/
def insertBy {α : Type} (key : α → Nat) (x : α) : List α → List α
  | [] => [x]
  | y :: ys => if key x < key y then x :: y :: ys else y :: insertBy key x ys

/-- Sort by a key, stable. -/
def sortBy {α : Type} (key : α → Nat) (l : List α) : List α := l.foldr (fun x acc => insertByFront key x acc) []
where
  /-- Insert before equal keys. -/
  insertByFront {α : Type} (key : α → Nat) (x : α) : List α → List α
    | [] => [x]
    | y :: ys => if key x ≤ key y then x :: y :: ys else y :: insertByFront key x ys

end Sys2Proof.Machine
end

