-- ==== Sys2Proof/Machine/Flags.lean ====
section
/-!
DEFINITION. Number formats, rounding and the exception flags (R91 to R104). Every rounding maps an exact value, given as
a significand and a power of two, to the target's grid.
-/

namespace Sys2Proof.Machine

/-! ### FFLAGS (R104) -/

/-- The exception flags in the places of R104: OF 0, UF 1, NX 2, NV 3, DZ 4. -/
abbrev FlagSet := BitVec 5

/-- Overflow (R102). -/
def flagOF : FlagSet := 1
/-- Underflow (R102). -/
def flagUF : FlagSet := 2
/-- Inexact (R102). -/
def flagNX : FlagSet := 4
/-- Invalid operation (R102). -/
def flagNV : FlagSet := 8
/-- Divide by zero (R102). -/
def flagDZ : FlagSet := 16

/-- A flag raised when a condition holds. -/
def flagIf (c : Bool) (f : FlagSet) : FlagSet := if c then f else 0

/-! ### Formats (R94) -/

/-- A floating-point format: exponent and fraction bits, bias, whether it has infinities and NaNs of IEEE form; E4M3 has
the NaN of all ones only (R94). -/
structure FloatFmt where
  e : Nat
  m : Nat
  bias : Nat
  ieee : Bool
  e4m3 : Bool
  deriving DecidableEq, Repr

/-- FP32 (R94). -/
def fp32 : FloatFmt := ⟨8, 23, 127, true, false⟩
/-- BF16 (R94). -/
def bf16 : FloatFmt := ⟨8, 7, 127, true, false⟩
/-- FP16 (R94). -/
def fp16 : FloatFmt := ⟨5, 10, 15, true, false⟩
/-- E4M3 (R94). -/
def e4m3 : FloatFmt := ⟨4, 3, 7, false, true⟩
/-- E5M2 (R94). -/
def e5m2 : FloatFmt := ⟨5, 2, 15, true, false⟩
/-- E2M1 (R94). -/
def e2m1 : FloatFmt := ⟨2, 1, 1, false, false⟩
/-- E3M2 (R94). -/
def e3m2 : FloatFmt := ⟨3, 2, 3, false, false⟩

/-- The floating-point format of a format code (R91). -/
def floatFmt : Nat → Option FloatFmt
  | 0 => some fp32 | 1 => some bf16 | 2 => some fp16 | 3 => some e4m3 | 4 => some e5m2 | 13 => some e2m1
  | 14 => some e3m2 | _ => none

/-- Width in bits of an element (R91). -/
def fmtBits : Nat → Nat
  | 0 => 32 | 1 => 16 | 2 => 16 | 3 => 8 | 4 => 8 | 5 => 32 | 6 => 8 | 7 => 8 | 8 => 4 | 9 => 64 | 10 => 1 | 11 => 8
  | 12 => 16 | 13 => 4 | 14 => 6 | _ => 8

/-- The granule of dimension 0 (R93). -/
def fmtGranule : Nat → Nat
  | 8 => 32 | 10 => 8 | 13 => 2 | 14 => 4 | _ => 1

/-- The limits of an integer format (R93). -/
def intLimits : Nat → Option (Int × Int)
  | 5 => some (-2147483648, 2147483647)
  | 6 => some (-128, 127)
  | 7 => some (0, 255)
  | 9 => some (-9223372036854775808, 9223372036854775807)
  | 12 => some (-32768, 32767)
  | _ => none

/-- All exponent bits one. -/
def FloatFmt.emax (f : FloatFmt) : Nat := 2 ^ f.e - 1

/-- The sign bit as a number. -/
def FloatFmt.signBit (f : FloatFmt) : Nat := 2 ^ (f.e + f.m)

/-- The bits of the largest finite magnitude (R94). -/
def FloatFmt.maxFinite (f : FloatFmt) : Nat :=
  if f.ieee then f.emax * 2 ^ f.m - 1 else if f.e4m3 then f.signBit - 2 else f.signBit - 1

/-- The bits of +∞ in a format that has it. -/
def FloatFmt.infBits (f : FloatFmt) : Nat := f.emax * 2 ^ f.m

/-- The canonical NaN (R94, R96): 0x7F for E4M3; a format without NaNs has none and gives +0 (R103). -/
def FloatFmt.nanBits (f : FloatFmt) : Nat :=
  if f.ieee then f.emax * 2 ^ f.m + 2 ^ (f.m - 1) else if f.e4m3 then f.signBit - 1 else 0

/-- The exponent of the subnormal spacing, 1 − bias − m. -/
def FloatFmt.minExp (f : FloatFmt) : Int := 1 - f.bias - f.m

/-- A value read as a number: a NaN, quiet or signalling, an infinity, or (−1)^neg × m × 2^e (R94). -/
inductive Val where
  | nan (signalling : Bool)
  | inf (neg : Bool)
  | fin (neg : Bool) (m : Nat) (e : Int)
  deriving DecidableEq, Repr

/-- The value of an encoding (R94, R96). -/
def FloatFmt.read (f : FloatFmt) (bits : Nat) : Val :=
  let neg := bits / f.signBit % 2 == 1
  let ex := bits / 2 ^ f.m % 2 ^ f.e
  let fr := bits % 2 ^ f.m
  if f.ieee && ex == f.emax then
    if fr == 0 then .inf neg else .nan (fr < 2 ^ (f.m - 1))
  else if f.e4m3 && ex == f.emax && fr == 2 ^ f.m - 1 then .nan false
  else if ex == 0 then .fin neg fr f.minExp
  else .fin neg (2 ^ f.m + fr) (f.minExp + (ex - 1 : Nat))

/-- An integer as a value. -/
def Val.ofInt (i : Int) : Val := .fin (decide (i < 0)) i.natAbs 0

/-- Whether a value is a signalling NaN. -/
def Val.isSig : Val → Bool
  | .nan s => s
  | _ => false

/-- Whether a value is a NaN. -/
def Val.isNan : Val → Bool
  | .nan _ => true
  | _ => false

/-- The value with its sign inverted. -/
def Val.neg : Val → Val
  | .nan s => .nan s
  | .inf n => .inf (!n)
  | .fin n m e => .fin (!n) m e

/-! ### Rounding (R99 to R101) -/

/-- How a value is rounded: the mode code of R99 and the 24-bit dither D of R101. -/
structure Rounding where
  rm : Nat
  dither : Nat
  deriving DecidableEq, Repr

/-- To nearest, ties to even. -/
def rne : Rounding := ⟨0, 0⟩

/-- D of R101 for element index i and SEED. -/
def ditherOf (i : Nat) (seed : Nat) : Nat := (i % 2 ^ 32 * 0x9E3779B1 + seed) % 2 ^ 32 / 256

/-- Rounding mode rm at element index i with SEED (R101, R110). -/
def Rounding.at (rm i : Nat) (seed : Word) : Rounding := ⟨rm, ditherOf i (seed.toNat % 2 ^ 32)⟩

/-- Whether the magnitude (m + fraction) × 2^e with `rest` of 2^shift left over rounds up (R99, R101). `sticky` says that
the exact value lies strictly above the given one, by less than its last place. -/
def roundUp (r : Rounding) (neg : Bool) (q rest shift : Nat) (sticky : Bool) : Bool :=
  let inexact := rest != 0 || sticky
  match r.rm with
  | 0 => rest * 2 > 2 ^ shift || (rest * 2 == 2 ^ shift && (sticky || q % 2 == 1))
  | 1 => false
  | 2 => inexact && !neg
  | 3 => inexact && neg
  | 4 => rest * 2 ≥ 2 ^ shift
  | _ => rest * 2 ^ 24 + r.dither * 2 ^ shift ≥ 2 ^ (24 + shift)

/-- A magnitude m × 2^e (and a little more if sticky) on the grid with `mb` fraction bits above the exponent `minE`
(R99): the significand, its exponent, and whether it differs from the exact value. -/
def roundGrid (mb : Nat) (minE : Int) (r : Rounding) (neg : Bool) (m : Nat) (e : Int) (sticky : Bool) :
    Nat × Int × Bool :=
  if m = 0 then (0, minE, sticky)
  else
    let qe := max (e + m.log2 - mb) minE
    if qe ≤ e then (m * 2 ^ (e - qe).toNat, qe, sticky)
    else
      let sh := (qe - e).toNat
      let q := m / 2 ^ sh
      let rest := m % 2 ^ sh
      (if roundUp r neg q rest sh sticky then q + 1 else q, qe, rest != 0 || sticky)

/-- The result of an overflow (R100): the bits without the sign. -/
def overflowBits (f : FloatFmt) (rm : Nat) (neg : Bool) : Nat :=
  if !f.ieee then f.maxFinite
  else match rm with
    | 0 => f.infBits
    | 4 => f.infBits
    | 2 => if neg then f.maxFinite else f.infBits
    | 3 => if neg then f.infBits else f.maxFinite
    | _ => f.maxFinite

/-- An exact nonzero or zero number rounded into a format, with its flags (R99 to R102). -/
def FloatFmt.round (f : FloatFmt) (r : Rounding) (neg : Bool) (m : Nat) (e : Int) (sticky : Bool) : Nat × FlagSet :=
  let sb := if neg then f.signBit else 0
  let (q, qe, inexact) := roundGrid f.m f.minExp r neg m e sticky
  let bits := (qe - f.minExp).toNat * 2 ^ f.m + q
  if q = 0 then (sb, flagIf inexact (flagNX ||| flagUF))
  else if bits > f.maxFinite then (sb + overflowBits f r.rm neg, flagOF ||| flagNX)
  else (sb + bits, flagIf inexact flagNX ||| flagIf (inexact && decide (e + m.log2 < 1 - f.bias)) flagUF)

/-- An exact result before it is delivered: a NaN, an infinity, or a number, with the flags already raised. -/
inductive Exact where
  | nan (flags : FlagSet)
  | inf (neg : Bool) (flags : FlagSet)
  | num (neg : Bool) (m : Nat) (e : Int) (sticky : Bool)
  deriving DecidableEq, Repr

/-- Delivery of an exact result into a floating-point format (R96, R99, R100). -/
def FloatFmt.deliver (f : FloatFmt) (r : Rounding) : Exact → Nat × FlagSet
  | .nan fl => (f.nanBits, fl)
  | .inf neg fl => ((if neg then f.signBit else 0) + f.infBits, fl)
  | .num neg m e s => f.round r neg m e s

/-! ### Exact arithmetic (R113, R117) -/

/-- m × 2^e as an integer multiple of 2^b, for b ≤ e. -/
def scaled (neg : Bool) (m : Nat) (e b : Int) : Int :=
  let v : Int := (m * 2 ^ (e - b).toNat : Nat)
  if neg then -v else v

/-- The least exponent among the finite terms. -/
def minExpOf (xs : List Val) : Int :=
  xs.foldl (fun acc x => match x with | .fin _ _ e => min acc e | _ => acc) 0

/-- The exact integer sum of the finite terms over 2^b. -/
def sumScaled (b : Int) (xs : List Val) : Int :=
  xs.foldl (fun acc x => match x with | .fin n m e => acc + scaled n m e b | _ => acc) 0

/-- Whether a term is a zero of the given sign. -/
def Val.isZero (x : Val) (neg : Bool) : Bool :=
  match x with
  | .fin n m _ => m == 0 && n == neg
  | _ => false

/-- The exact sum of terms with the special cases of R113 and R133 (also R249): a NaN term or infinities of both signs
give a NaN; an exact zero sum keeps the sign that all zero terms share, else is +0, or −0 in rdn. -/
def sumExact (rm : Nat) (xs : List Val) : Exact :=
  let sig := xs.any Val.isSig
  let pinf := xs.any (· == .inf false)
  let ninf := xs.any (· == .inf true)
  if xs.any Val.isNan || (pinf && ninf) then .nan (flagIf (sig || (pinf && ninf)) flagNV)
  else if pinf then .inf false 0
  else if ninf then .inf true 0
  else
    let b := minExpOf xs
    let t := sumScaled b xs
    if t = 0 then
      let neg := if xs.all (·.isZero true) && !xs.isEmpty then true
        else if xs.all (·.isZero false) then false else rm == 3
      .num neg 0 0 false
    else .num (decide (t < 0)) t.natAbs b false

/-- The exact product, and whether it is 0 × ∞ (R113). -/
def mulVal : Val → Val → Val × Bool
  | .nan s, .nan s' => (.nan (s || s'), false)
  | .nan s, _ => (.nan s, false)
  | _, .nan s => (.nan s, false)
  | .inf n, .inf n' => (.inf (n ^^ n'), false)
  | .inf n, .fin n' m _ => if m = 0 then (.nan false, true) else (.inf (n ^^ n'), false)
  | .fin n m _, .inf n' => if m = 0 then (.nan false, true) else (.inf (n ^^ n'), false)
  | .fin n m e, .fin n' m' e' => (.fin (n ^^ n') (m * m') (e + e'), false)

/-- A value as an exact result, with NV for a signalling NaN. -/
def Val.exact : Val → Exact
  | .nan s => .nan (flagIf s flagNV)
  | .inf n => .inf n 0
  | .fin n m e => .num n m e false

/-- The exact result with its sign inverted (fnfma, fnfms: R117). -/
def Exact.neg : Exact → Exact
  | .nan f => .nan f
  | .inf n f => .inf (!n) f
  | .num n m e s => .num (!n) m e s

/-- SA × SB (R113). -/
def mulExact (x y : Val) : Exact :=
  let (p, bad) := mulVal x y
  if bad then .nan flagNV else p.exact

/-- SA × SB + SC (R117): 0 × ∞ gives a NaN with NV even when SC is a quiet NaN. -/
def fmaExact (rm : Nat) (x y z : Val) : Exact :=
  let (p, bad) := mulVal x y
  if bad then .nan flagNV else sumExact rm [p, z]

/-- SA ÷ SB (R113). The quotient carries 128 bits more than any format needs; the rest is sticky. -/
def divExact : Val → Val → Exact
  | .nan s, .nan s' => .nan (flagIf (s || s') flagNV)
  | .nan s, _ => .nan (flagIf s flagNV)
  | _, .nan s => .nan (flagIf s flagNV)
  | .inf _, .inf _ => .nan flagNV
  | .inf n, .fin n' _ _ => .inf (n ^^ n') 0
  | .fin n _ _, .inf n' => .num (n ^^ n') 0 0 false
  | .fin n m e, .fin n' m' e' =>
    if m' = 0 then (if m = 0 then .nan flagNV else .inf (n ^^ n') flagDZ)
    else
      let k := 128 + m'.log2
      .num (n ^^ n') (m * 2 ^ k / m') (e - e' - k) (decide (m * 2 ^ k % m' ≠ 0))

/-- The integer square root, bit by bit from 2^k. -/
def isqrt : Nat → Nat → Nat → Nat
  | 0, n, r => if (r + 1) * (r + 1) ≤ n then r + 1 else r
  | k + 1, n, r =>
    let r' := r + 2 ^ (k + 1)
    isqrt k n (if r' * r' ≤ n then r' else r)

/-- The square root of m × 2^e: a significand of more than 128 bits, its exponent, whether a rest remains. -/
def sqrtParts (m : Nat) (e : Int) : Nat × Int × Bool :=
  let odd := (e % 2).toNat
  let n := m * 2 ^ (odd + 256)
  let r := isqrt (n.log2 / 2 + 1) n 0
  (r, (e - odd) / 2 - 128, decide (r * r ≠ n))

/-- √SA (R113). -/
def sqrtExact : Val → Exact
  | .nan s => .nan (flagIf s flagNV)
  | .inf neg => if neg then .nan flagNV else .inf false 0
  | .fin neg m e =>
    if m = 0 then .num neg 0 0 false
    else if neg then .nan flagNV
    else
      let (r, re, st) := sqrtParts m e
      .num false r re st

/-- 1 ÷ SA with the edge cases of R118. -/
def rcpExact : Val → Exact
  | .fin neg m e => if m = 0 then .inf neg flagDZ else divExact (.fin false 1 0) (.fin neg m e)
  | .inf neg => .num neg 0 0 false
  | .nan s => .nan (flagIf s flagNV)

/-- 1 ÷ √SA with the edge cases of R118. -/
def rsqExact : Val → Exact
  | .nan s => .nan (flagIf s flagNV)
  | .inf neg => if neg then .nan flagNV else .num false 0 0 false
  | .fin neg m e =>
    if m = 0 then .inf neg flagDZ
    else if neg then .nan flagNV
    else
      let odd := (e % 2).toNat
      let n := 2 ^ (m.log2 + 400) / (m * 2 ^ odd)
      let r := isqrt (n.log2 / 2 + 1) n 0
      let sh : Int := (m.log2 + 400 : Nat)
      if sh % 2 = 0 then .num false r (-(e - odd) / 2 - sh / 2) (decide (r * r * (m * 2 ^ odd) ≠ 2 ^ (m.log2 + 400)))
      else
        let n' := 2 ^ (m.log2 + 401) / (m * 2 ^ odd)
        let r' := isqrt (n'.log2 / 2 + 1) n' 0
        .num false r' (-(e - odd) / 2 - (sh + 1) / 2) (decide (r' * r' * (m * 2 ^ odd) ≠ 2 ^ (m.log2 + 401)))

/-- Delivery of an estimate on the 12-bit grid of R118, into FP32. UF is raised whenever the exact result is below the
smallest normal. -/
def deliverEstimate : Exact → Nat × FlagSet
  | .num neg m e st =>
    if m = 0 then (if neg then fp32.signBit else 0, 0)
    else
      let (q, qe, inexact) := roundGrid 11 (-149) rne neg m e st
      let small := decide (e + m.log2 < -126)
      if qe + q.log2 ≥ 128 then ((if neg then fp32.signBit else 0) + fp32.infBits, flagOF ||| flagNX)
      else ((fp32.round rne neg q qe false).1, flagIf inexact flagNX ||| flagIf small flagUF)
  | x => fp32.deliver rne x

/-- Delivery of vrcp and vrsq in a format (R244): the estimate of R118 in FP32; else rounded once to nearest even, with the
underflow of R118 and R102 whenever the exact result is below the smallest normal. -/
def FloatFmt.deliverRecip (f : FloatFmt) (x : Exact) : Nat × FlagSet :=
  if f = fp32 then deliverEstimate x
  else
    let (bits, fl) := f.deliver rne x
    match x with
    | .num _ m e _ => (bits, fl ||| flagIf (m != 0 && decide (e + m.log2 < 1 - f.bias)) flagUF)
    | _ => (bits, fl)

/-! ### Comparisons, minimum and maximum (R114, R116) -/

/-- The order of two values that are no NaNs, −0 equal to +0. -/
def Val.cmp : Val → Val → Ordering
  | .inf n, .inf n' => if n = n' then .eq else if n then .lt else .gt
  | .inf n, _ => if n then .lt else .gt
  | _, .inf n => if n then .gt else .lt
  | .fin n m e, .fin n' m' e' => let b := min e e'; compare (scaled n m e b) (scaled n' m' e' b)
  | _, _ => .eq

/-- x smaller than y with −0 below +0 (R114). -/
def Val.below (x y : Val) : Bool :=
  match x.cmp y with
  | .lt => true
  | .eq => x.isZero true && y.isZero false
  | .gt => false

/-- fmin or fmax on encodings (R114): the chosen input's bits, the canonical NaN for two NaNs. -/
def minMaxBits (f : FloatFmt) (isMax : Bool) (x y : Nat) : Nat × FlagSet :=
  let vx := f.read x
  let vy := f.read y
  let fl := flagIf (vx.isSig || vy.isSig) flagNV
  if vx.isNan && vy.isNan then (f.nanBits, fl)
  else if vx.isNan then (y, fl)
  else if vy.isNan then (x, fl)
  else if isMax then (if vx.below vy then y else x, fl)
  else (if vy.below vx then y else x, fl)

/-- feq, flt and fle, with their flags (R116). -/
inductive FCmp where
  | eq | lt | le
  deriving DecidableEq, Repr

/-- The outcome of a comparison (R116). -/
def fcmp (c : FCmp) (x y : Val) : Bool × FlagSet :=
  if x.isNan || y.isNan then (false, flagIf (x.isSig || y.isSig || c != .eq) flagNV)
  else
    match c, x.cmp y with
    | .eq, .eq => (true, 0)
    | .lt, .lt => (true, 0)
    | .le, .gt => (false, 0)
    | .le, _ => (true, 0)
    | _, _ => (false, 0)

/-- The class of fclass with the sign in bit 3 (R116). -/
def fclassOf (bits : Nat) : Nat :=
  let s := bits / fp32.signBit % 2 * 8
  match fp32.read bits with
  | .nan sig => s + (if sig then 5 else 4)
  | .inf _ => s + 3
  | .fin _ m _ => s + (if m = 0 then 0 else if m < 2 ^ 23 then 1 else 2)

/-! ### Conversions (R103) -/

/-- A magnitude rounded to an integer (spacing 1: R99), and whether it changed. -/
def roundInt (r : Rounding) (neg : Bool) (m : Nat) (e : Int) (sticky : Bool) : Nat × Bool :=
  if 0 ≤ e then (m * 2 ^ e.toNat, sticky)
  else
    let sh := (-e).toNat
    let q := m / 2 ^ sh
    let rest := m % 2 ^ sh
    (if roundUp r neg q rest sh sticky then q + 1 else q, rest != 0 || sticky)

/-- Conversion to an integer within limits (R103). -/
def toInt (lo hi : Int) (r : Rounding) : Val → Int × FlagSet
  | .nan _ => (0, flagNV)
  | .inf neg => (if neg then lo else hi, flagNV)
  | .fin neg m e =>
    if e > 80 && m ≠ 0 then (if neg then lo else hi, flagNV)
    else
      let (q, inexact) := roundInt r neg m e false
      let v : Int := if neg then -(q : Int) else q
      if v < lo then (lo, flagNV) else if hi < v then (hi, flagNV) else (v, flagIf inexact flagNX)

/-- Convert(x, f, rm, i) of R103 for a floating-point format. -/
def FloatFmt.convert (f : FloatFmt) (r : Rounding) (x : Val) : Nat × FlagSet :=
  match x with
  | .nan s => (f.nanBits, if f.ieee || f.e4m3 then flagIf s flagNV else flagNV)
  | .inf neg =>
    let sb := if neg then f.signBit else 0
    if f.ieee then (sb + f.infBits, 0) else (sb + f.maxFinite, flagOF ||| flagNX)
  | .fin neg m e => f.round r neg m e false

/-- Convert(x, f, rm, i) of R103 for a format code; Q4X as an integer format with limits −7 and 7 (R248). The result is
the element's bits. -/
def convertTo (fmt : Nat) (r : Rounding) (x : Val) : Nat × FlagSet :=
  match floatFmt fmt with
  | some f => f.convert r x
  | none =>
    let (lo, hi) := if fmt = 8 then ((-7 : Int), (7 : Int)) else (intLimits fmt).getD (0, 1)
    let (v, fl) := toInt lo hi r x
    ((v % 2 ^ fmtBits fmt).toNat, fl)

/-- The value of an element of a format code; E8 is its scale and 0xFF a NaN (R95), integers and bits are themselves. Q4X
elements are read by block (R97). -/
def readElem (fmt : Nat) (bits : Nat) : Val :=
  match floatFmt fmt with
  | some f => f.read bits
  | none =>
    if fmt = 11 then (if bits = 255 then .nan false else .fin false 1 ((bits : Int) - 127))
    else if fmt = 7 || fmt = 10 then .fin false bits 0
    else
      let w := fmtBits fmt
      Val.ofInt (if bits < 2 ^ (w - 1) then bits else (bits : Int) - 2 ^ w)

/-! ### 2^X and log2 X (R244) -/

/-- The product of 2^(2^−i) over the set bits of a fraction, from its most significant bit, to 320 bits; `c` is the
current root of 2. -/
def exp2Frac : List Bool → Nat → Nat → Nat
  | [], _, acc => acc
  | b :: bs, c, acc =>
    exp2Frac bs (isqrt 321 (c * 2 ^ 320) 0) (if b then acc * c / 2 ^ 320 else acc)

/-- The n bits of x, most significant first. -/
def bitList : Nat → Nat → List Bool
  | 0, _ => []
  | n + 1, x => (x / 2 ^ n % 2 == 1) :: bitList n x

/-- An exponent beyond every format's range, cut short; no rounding tells the difference. -/
def clampExp (k : Int) : Int := max (-4096) (min 4096 k)

/-- 2^X, exact but for a sticky rest (R244). -/
def exp2Exact : Val → Exact
  | .nan s => .nan (flagIf s flagNV)
  | .inf neg => if neg then .num false 0 0 false else .inf false 0
  | .fin neg m e =>
    if m = 0 then .num false 1 0 false
    else if 0 ≤ e then
      let k := m * 2 ^ (min e 24).toNat
      .num false 1 (clampExp (if neg then -(k : Int) else k)) false
    else
      let sh := (-e).toNat
      let v := scaled neg m e e
      let i := v.fdiv (2 ^ sh)
      let fr := (v - i * 2 ^ sh).toNat
      if fr = 0 then .num false 1 (clampExp i) false
      else .num false (exp2Frac (bitList sh fr) (isqrt 321 (2 ^ 641) 0) (2 ^ 320)) (clampExp i - 320) true

/-- Successive binary digits of log2 of y ÷ 2^600 in [1, 2), by squaring. -/
def log2Digits : Nat → Nat → Nat → Nat
  | 0, _, acc => acc
  | n + 1, y, acc =>
    let y' := y * y / 2 ^ 600
    if y' ≥ 2 ^ 601 then log2Digits n (y' / 2) (2 * acc + 1) else log2Digits n y' (2 * acc)

/-- log2 X, exact but for a sticky rest (R244). -/
def log2Exact : Val → Exact
  | .nan s => .nan (flagIf s flagNV)
  | .inf neg => if neg then .nan flagNV else .inf false 0
  | .fin neg m e =>
    if m = 0 then .inf true flagDZ
    else if neg then .nan flagNV
    else
      let l := m.log2
      let k : Int := e + l
      if m = 2 ^ l then .num (decide (k < 0)) k.natAbs 0 false
      else
        let b := log2Digits 220 (m * 2 ^ (600 - l)) 0
        let v : Int := k * 2 ^ 220 + b
        if 0 ≤ v then .num false v.toNat (-220) true else .num true ((-v) - 1).toNat (-220) true

end Sys2Proof.Machine
end

