-- ==== Sys2Proof/Machine/Store.lean ====
section
/-!
DEFINITION. The contents of memory, the sparse tables of State, and every write at a place with what it sets off:
combined reductions (R211), recalled stash lines (R180), aborted transactions (R224), monitors (R221), watches (R391).
-/

namespace Sys2Proof.Machine

/-! ### Memory contents -/

/-- The byte at an address; an unlisted address reads 0. -/
def memGet : Memory → Nat → Byte
  | [], _ => 0
  | (k, v) :: m, a => if a = k then v else memGet m a

/-- Write a byte, keeping the canonical form. -/
def memSet : Memory → Nat → Byte → Memory
  | [], a, v => if v = 0 then [] else [(a, v)]
  | (k, w) :: m, a, v =>
    if a < k then (if v = 0 then (k, w) :: m else (a, v) :: (k, w) :: m)
    else if a = k then (if v = 0 then m else (a, v) :: m)
    else (k, w) :: memSet m a v

/-- The canonical form of memory: addresses strictly rising, no listed byte 0. -/
abbrev Memory.wf (m : Memory) : Prop := m.Pairwise (fun c c' => c.1 < c'.1) ∧ ∀ c ∈ m, c.2 ≠ 0

/-- Write consecutive bytes from an address. -/
def memWrite : Memory → Nat → List Byte → Memory
  | m, _, [] => m
  | m, a, b :: bs => memWrite (memSet m a b) (a + 1) bs

/-- Write single bytes at their addresses. -/
def memPut (m : Memory) (cells : List (Nat × Byte)) : Memory := cells.foldl (fun m c => memSet m c.1 c.2) m

/-- The n bytes from an address. -/
def memRead (m : Memory) (a n : Nat) : List Byte := (List.range n).map (fun i => memGet m (a + i))

/-- Remove every byte of a range: it reads 0 afterwards (R185). -/
def memClear (m : Memory) (lo n : Nat) : Memory := m.filter (fun c => c.1 < lo || lo + n ≤ c.1)

/-! ### Sparse tables: lists sorted by a key -/

/-- The element with a key. -/
def findBy {α : Type} (key : α → Nat) (k : Nat) : List α → Option α
  | [] => none
  | x :: xs => if key x = k then some x else findBy key k xs

/-- Replace the element with the same key, or insert it in key order. -/
def putBy {α : Type} (key : α → Nat) (x : α) : List α → List α
  | [] => [x]
  | y :: ys =>
    if key x = key y then x :: ys else if key x < key y then x :: y :: ys else y :: putBy key x ys

/-- Cluster, row and die of a physical identifier (R21). -/
def clusterOf (phys : Nat) : Nat := phys / 256
/-- The row of a core. -/
def rowOf (phys : Nat) : Nat := phys / 16
/-- The die of a core. -/
def dieOf (phys : Nat) : Nat := phys / 4096 % 4

/-- A control core (R23). -/
def isControlCore (phys : Nat) : Bool := phys % 4096 == 0

/-- An identifier that names a core (R21). -/
def isCore (phys : Nat) : Bool := phys < 16384 && phys / 256 % 16 < 10 && phys / 16 % 16 < 12

/-- The core with an identifier; one that State does not hold is as after reset. -/
def coreAt (s : State) (phys : Nat) : Core :=
  if s.core.phys = phys then s.core else (findBy Core.phys phys s.others).getD (Core.reset phys)

/-- Store a core under its identifier. -/
def setCore (c : Core) (s : State) : State :=
  if s.core.phys = c.phys then { s with core := c } else { s with others := putBy Core.phys c s.others }

/-- Change the core with an identifier. -/
def onCore (phys : Nat) (f : Core → Core) (s : State) : State := setCore (f (coreAt s phys)) s

/-- Every core that State holds. -/
def allCores (s : State) : List Core := s.core :: s.others

/-- Change every core that State holds. -/
def mapCores (f : Core → Core) (s : State) : State := { s with core := f s.core, others := s.others.map f }

/-- Bring a core into focus: its instructions run next. -/
def focusOn (phys : Nat) (s : State) : State :=
  if s.core.phys = phys then s
  else
    let c := coreAt s phys
    { s with core := c, others := putBy Core.phys s.core (s.others.filter (·.phys != phys)) }

/-- The cluster with a number 0 to 63 (die × 16 + cluster). -/
def clusterAt (s : State) (id : Nat) : Cluster := (findBy Cluster.id id s.clusters).getD (Cluster.reset id)

/-- Change a cluster. -/
def onCluster (id : Nat) (f : Cluster → Cluster) (s : State) : State :=
  { s with clusters := putBy Cluster.id (f (clusterAt s id)) s.clusters }

/-- The live partition with a tag. -/
def partAt (s : State) (tag : Nat) : Option Partition := findBy Partition.tag tag s.parts

/-- Change a live partition. -/
def onPart (tag : Nat) (f : Partition → Partition) (s : State) : State :=
  { s with parts := modifyWhere (·.tag == tag) f s.parts }

/-- Change a group of a partition. -/
def onGroup (tag gid : Nat) (f : Group → Group) (s : State) : State :=
  onPart tag (fun p => { p with groups := modifyWhere (·.gid == gid) f p.groups }) s

/-- A group of a partition that lives. -/
def groupAt (s : State) (tag gid : Nat) : Option Group := (partAt s tag).bind (fun p => findBy Group.gid gid p.groups)

/-- The physical core of a logical number of a partition (R379). -/
def physOf (p : Partition) (lcore : Nat) : Option Nat :=
  match p.ranks[lcore]? with
  | some r => if r.valid then some r.phys else none
  | none => none

/-- The logical number of a physical core in a partition (R22). -/
def lcoreOf (p : Partition) (phys : Nat) : Option Nat := p.ranks.findIdx? (fun r => r.valid && r.phys == phys)

/-! ### The black box (R453, R454) -/

/-- Stage an entry, or count it as dropped when 64 wait; the next entry that is written counts what was dropped. A frozen
recorder accepts none. -/
def BlackBox.stage (b : BlackBox) (e : BBEntry) : BlackBox :=
  if b.frozen then b
  else if b.staged.length < 64 then { b with staged := b.staged ++ [e] }
  else { b with dropped := b.dropped + 1 }

/-- Change recorder r: 0 to 3 a compute die's, 4 the I/O die's. -/
def onRecorder (r : Nat) (f : BlackBox → BlackBox) (s : State) : State :=
  if h : r < 4 then { s with dies := s.dies.set r { s.dies[r] with bb := f s.dies[r].bb } }
  else { s with io := { s.io with bb := f s.io.bb } }

/-- Nanoseconds since power-on, from the clock of the I/O die (R451). -/
def clockOf (s : State) : Nat := s.time - s.io.poweredAt

/-- Record an event in a recorder (R453). -/
def record (r code part core : Nat) (d0 d1 : Word) (s : State) : State :=
  onRecorder r (·.stage ⟨clockOf s, code, part, core, 0, (d0, d1)⟩) s

/-! ### Ready queues (R318) and launches (R317) -/

/-- Change a launch of a partition. -/
def onLaunch (tag slot : Nat) (f : Launch → Launch) (s : State) : State :=
  onPart tag (fun p => { p with launches := modifyWhere (·.slot == slot) f p.launches }) s

/-- The population of a launch rises by one. -/
def popUp (tag slot : Nat) (s : State) : State := onLaunch tag slot (fun l => { l with pop := l.pop + 1 }) s

/-- The population of a launch falls by one. -/
def popDown (tag slot : Nat) (s : State) : State := onLaunch tag slot (fun l => { l with pop := l.pop - 1 }) s

/-- A failure of a launch with a code; the first code stays (R317). -/
def launchFails (tag slot code failed : Nat) (s : State) : State :=
  onLaunch tag slot (fun l =>
    { l with failed := min (l.failed + failed) (2 ^ 32 - 1), code := if l.code = 0 then code else l.code }) s

/-- A hardware decrement or readying that is refused (R329): recorded, and its launch fails with the code. -/
def hardwareRefused (tag slot code : Nat) (addr : Word) (s : State) : State :=
  launchFails tag slot code 0 (record 4 0x00D tag 0x3FFF addr (BitVec.ofNat 64 code) s)

/-- Whether the overflow area of a partition has room for one more entry (R318, R392). -/
def overflowRoom (p : Partition) : Bool :=
  p.ovfbase != 0 && p.ovfReady.length + p.ovfWatches.length < Config.overflowEntries p.ovfsize

/-- Whether the queue of a cluster takes one more entry of a partition (R318). -/
def queueRoom (s : State) (cl part : Nat) : Bool := ((clusterAt s cl).ready.filter (·.part == part)).length < 4096

/-- Entries of an overflow area return to their cluster's queue in arrival order as room appears (R318). -/
def refillReady (tag : Nat) : Nat → State → State
  | 0, s => s
  | fuel + 1, s =>
    match partAt s tag with
    | none => s
    | some p =>
      match takeFirst (fun e => queueRoom s (clusterOf (e.phys.getD 0)) tag) p.ovfReady with
      | none => s
      | some (e, rest) =>
        let cl := clusterOf (e.phys.getD 0)
        let e' := if e.start = .fresh then { e with phys := none } else e
        refillReady tag fuel (onCluster cl (fun c => { c with ready := insertBy (fun x => 7 - x.rcd.prio) e' c.ready })
          (onPart tag (fun p => { p with ovfReady := rest }) s))

/-- Place an entry in the ready queue of a cluster, behind every entry of its priority, or in the overflow area when the
partition's 4,096 entries are in use; none when that is full (R318). -/
def readyPush (cl : Nat) (e : ReadyEntry) (s : State) : Option State :=
  if queueRoom s cl e.part then
    some (onCluster cl (fun c => { c with ready := insertBy (fun x => 7 - x.rcd.prio) { e with stamp := s.time } c.ready }) s)
  else
    match partAt s e.part with
    | none => none
    | some p =>
      if overflowRoom p then
        some (onPart e.part (fun p => { p with ovfReady := p.ovfReady ++ [{ e with stamp := s.time, phys := e.phys <|> some (cl * 256) }] }) s)
      else none

/-- Ready a continuation that is already in its launch's population (R391); a full overflow area fails the launch
(R318), which the dispatcher completes when it next looks at the partition. -/
def readyContinuation (e : ReadyEntry) (s : State) : State :=
  match readyPush (clusterOf (e.phys.getD 0)) e s with
  | some s' => s'
  | none =>
    onGroup e.part e.gid (fun g => { g with conts := g.conts - 1 })
      (popDown e.part e.launch (hardwareRefused e.part e.launch 0x09 e.addr s))

/-! ### Transactions that end without commit (R225) -/

/-- The abort code of R225. -/
def abortCode (reason cause : Nat) : Word := BitVec.ofNat 64 (0x1E + reason * 2 ^ 8 + cause * 2 ^ 16)

/-- Write a register of a context and mark it present; register 0 discards. -/
def putReg (n : Reg) (v : Word) (x : Ctx) : Ctx :=
  if n = 0 then x else { x with regs := x.regs.set n v, pres := x.pres ||| (1#32 <<< n.val) }

/-- The producers of a checkpoint have ended: a sound one has written its register; one with bad data leaves it empty, and its
machine error still comes unless it has been taken since, that is, unless the context no longer has the producer (R67). -/
def settleProducers (now : List Producer) (k : Ctx) : Ctx :=
  let lost := fun (p : Producer) => p.bad || p.failed
  let due := (k.prods.filter lost).filter (fun p => now.any (fun q => q.reg == p.reg && q.addr == p.addr && lost q))
  (k.prods.filter (fun p => !lost p)).foldl (fun x p => putReg p.reg p.value x)
    { k with prods := due.map (fun p => { p with failed := true }) }

/-- Abort the open transaction of a core (R225): the checkpoint is restored, d of the txb gets the code, PC goes behind the
txb. A value that was on its way at the txb has arrived; one that was bad has not (R67). -/
def abortTxn (reason cause : Nat) (c : Core) : Core :=
  match c.txn with
  | none => c
  | some t =>
    let k := settleProducers c.ctl.prods t.checkpoint
    let x := { c.ctl with
      regs := k.regs, pres := k.pres, prods := k.prods, fflags := k.fflags, fmt := k.fmt
      status := k.status &&& ~~~0x20#64, pc := t.pc + 4, await := .nothing, stalled := false, party := false }
    { c with ctl := putReg t.d (abortCode reason cause) x, txn := none }

/-- A core's open transaction meets an access of another agent to a line (R224, reason 1). -/
def conflict (line : Nat) (write : Bool) (c : Core) : Core :=
  match c.txn with
  | none => c
  | some t => if t.wr.contains line || (write && t.rd.contains line) then abortTxn 1 0 c else c

/-! ### Places -/

/-- The place n bytes on. -/
def Place.plus : Place → Nat → Place
  | .mem pa, n => .mem (pa + n)
  | .ls phys part gid off, n => .ls phys part gid (off + n)

/-- The first place of the 64-byte line of a place. -/
def Place.line : Place → Place
  | .mem pa => .mem (pa / 64 * 64)
  | .ls phys part gid off => .ls phys part gid (off / 64 * 64)

/-- Whether n bytes at one place and m bytes at another have a byte in common. -/
def Place.meets : Place → Nat → Place → Nat → Bool
  | .mem a, n, .mem b, m => a < b + m && b < a + n
  | .ls p t g a, n, .ls p' t' g' b, m => p == p' && t == t' && g == g' && a < b + m && b < a + n
  | _, _, _, _ => false

/-- Memory of the device (R173): stacked DRAM or LPDDR-6. -/
def isDram (pa : Nat) : Bool := pa < 0x3000000000 || (0x4000000000 ≤ pa && pa < 0x10000000000)

/-- The map unit of an address of device memory: die × 2,048 + unit of stacked DRAM, 8,192 + group of LPDDR-6 (R184). -/
def bankOf (pa : Nat) : Nat :=
  if pa < 0x3000000000 then pa / 0xC00000000 * 2048 + pa % 0xC00000000 / 0x1800000
  else 8192 + (pa - 0x4000000000) / 0x30000000

/-- A bank's entry of the bank map; off and unowned unless State holds it (R384). -/
def bankAt (s : State) (b : Nat) : Bank := (findBy Bank.id b s.banks).getD ⟨b, .off, none, 0, 0, 0⟩

/-- The home die of an address of device memory (R173). -/
def homeDie (pa : Nat) : Nat :=
  if pa < 0x3000000000 then pa / 0xC00000000 else (pa - 0x4000000000) / 0x30000000 % 4

/-- Host memory (R434). -/
def isHost (pa : Nat) : Bool := 0xC000000000000 ≤ pa && pa < 0x10000000000000

/-- The allocation that a place of a local store lies in. -/
def allocOf (c : Core) (part gid : Nat) : Option Alloc := c.allocs.find? (fun a => a.part == part && a.gid == gid)

/-- Change an allocation of a core. -/
def onAlloc (part gid : Nat) (f : Alloc → Alloc) (c : Core) : Core :=
  { c with allocs := modifyWhere (fun a => a.part == part && a.gid == gid) f c.allocs }

/-- Whether the line of a place is bad (R195). -/
def badAt (s : State) : Place → Bool
  | .mem pa => s.badLines.contains (pa / 64)
  | .ls phys part gid off => (allocOf (coreAt s phys) part gid).any (·.bad.contains (off / 64))

/-- An error in data that no instruction consumes is recorded (R194). -/
def errorRecorded (part phys line : Nat) (s : State) : State :=
  record (if isDram (line * 64) then homeDie (line * 64) else 4) 0x003 part phys (BitVec.ofNat 64 (line * 64)) 0 s

/-- A line of a cluster cache. -/
def lineAt (s : State) (cl line : Nat) : Option CLine := findBy CLine.line line (clusterAt s cl).lines

/-- The byte that a stash line of a core holds in place of a global byte, if it was stored there (R180). -/
def stashByte (c : Core) (pa : Nat) : Option Byte :=
  match c.stashLines.find? (fun l => l.line == pa / 64 && l.mask.getLsbD (pa % 64)) with
  | none => none
  | some l => (allocOf c l.part l.gid).map (fun a => memGet a.mem (l.lsline * 64 + pa % 64))

/-- A byte as the agents of a cluster observe it (R260): a dirty stash byte, else the cluster cache's, else the home's. -/
def clusterByte (s : State) (cl pa : Nat) : Byte :=
  match (allCores s).findSome? (fun c => if clusterOf c.phys = cl then stashByte c pa else none) with
  | some b => b
  | none =>
    match lineAt s cl (pa / 64) with
    | some l => l.bytes[pa % 64]'(Nat.mod_lt _ (by decide))
    | none => memGet s.mem pa

/-- A byte at a place as a core reads it: through its cluster cache, or at the home, or at the banks. -/
def placeByte (s : State) (phys : Nat) (cacheable : Bool) : Place → Byte
  | .mem pa => if cacheable then clusterByte s (clusterOf phys) pa else memGet s.mem pa
  | .ls p part gid off =>
    match allocOf (coreAt s p) part gid with
    | some a => memGet a.mem off
    | none => 0

/-- n bytes from a place as a core reads them. -/
def placeBytes (s : State) (phys : Nat) (cacheable : Bool) (p : Place) (n : Nat) : List Byte :=
  (List.range n).map (fun i => placeByte s phys cacheable (p.plus i))

/-- n bytes of memory at their home, as a number. -/
def homeNat (s : State) (pa n : Nat) : Nat := leNat (memRead s.mem pa n)

/-! ### Monitors and watches -/

/-- A context's monitor records a wake-up if its line is written (R221). -/
def wakeCtx (hit : Place → Bool) (x : Ctx) : Ctx :=
  match x.monitor with
  | some m => if hit m.place then { x with monitor := some { m with woke := true } } else x
  | none => x

/-- The monitors of a core record a wake-up. -/
def wakeCore (hit : Place → Bool) (c : Core) : Core :=
  { c with ctl := wakeCtx hit c.ctl, helpers := c.helpers.map (wakeCtx hit) }

/-- A write of n bytes at a place wakes the monitors on the line: those of one cluster, or of every core. -/
def wakeMonitors (cl : Option Nat) (p : Place) (n : Nat) (s : State) : State :=
  mapCores (fun c =>
    if cl.isNone || cl == some (clusterOf c.phys) then wakeCore (fun q => q.line.meets 64 p n) c else c) s

/-- The width of a watched word: a dword for a barrier, else 4 bytes (R391). -/
def watchWidth (w : Watch) : Nat := if w.kind = 3 then 8 else 4

/-- Whether a watch of a kind is satisfied by a value (R391). -/
def watchHolds (kind : Nat) (arg : W32) (v : Nat) : Bool :=
  match kind with
  | 1 => (BitVec.ofNat 32 v).sle arg
  | 2 => arg.sle (BitVec.ofNat 32 v)
  | _ => v / 2 ^ 32 != arg.toNat

/-- The value at a watched word at its watch point: a cluster cache, the home, or the banks. -/
def watchValue (s : State) (cl : Option Nat) (w : Watch) : Nat :=
  leNat ((List.range (watchWidth w)).map (fun i =>
    match w.place.plus i, cl with
    | .mem pa, some cl => clusterByte s cl pa
    | .mem pa, none => memGet s.mem pa
    | p, _ => placeByte s 0 false p))

/-- A watch that is satisfied now, at its cluster's watch point or at the home; those of deterministic tasks wait for the quantum
end (R391, R393). -/
def watchMet (s : State) (cl : Nat) (w : Watch) : Bool :=
  !w.entry.det && (watchHolds w.kind w.arg (watchValue s (some cl) w) || watchHolds w.kind w.arg (watchValue s none w))

/-- Overflow watches of a cluster move into its table in arrival order as entries are free; the dispatcher evaluates each as it
moves (R392). -/
def refillWatches (cl : Nat) (s : State) : State :=
  let all := s.parts.flatMap (fun p => p.ovfWatches.filter (fun w => clusterOf (w.entry.phys.getD 0) == cl))
  (sortBy (fun w => w.entry.stamp) all).foldl (fun s w =>
    if 256 ≤ (clusterAt s cl).watches.length then s
    else
      let s := onPart w.entry.part (fun p => { p with ovfWatches := p.ovfWatches.erase w }) s
      if watchMet s cl w then readyContinuation w.entry s
      else onCluster cl (fun c => { c with watches := c.watches ++ [w] }) s) s

/-- Places that have become free in queues and tables are filled from the overflow areas (R318, R392). -/
def refillQueues (s : State) : State :=
  let s := s.parts.foldl (fun s p => refillReady p.tag p.ovfReady.length s) s
  (s.clusters.map Cluster.id).foldl (fun s cl => refillWatches cl s) s

/-- A write of n bytes at a place evaluates the watches of one cluster on the word it left (R391). Watches of
deterministic tasks wait for the quantum end (R393). -/
def evalWatchesOf (point : Option Nat) (p : Place) (n : Nat) (cl : Nat) (s : State) : State :=
  let due := fun (w : Watch) => !w.entry.det && w.place.meets (watchWidth w) p n && watchHolds w.kind w.arg (watchValue s point w)
  let ws := (clusterAt s cl).watches
  if ws.any due then
    let s := onCluster cl (fun c => { c with watches := c.watches.filter (fun w => !due w) }) s
    refillWatches cl ((ws.filter due).foldl (fun s w => readyContinuation w.entry s) s)
  else s

/-- Overflow watches satisfied by a write that a home performs, or at the banks of a local store (R392). -/
def evalOverflow (p : Place) (n : Nat) (s : State) : State :=
  let due := fun (w : Watch) => !w.entry.det && w.place.meets (watchWidth w) p n && watchHolds w.kind w.arg (watchValue s none w)
  let hit := s.parts.flatMap (fun q => q.ovfWatches.filter due)
  if hit.isEmpty then s
  else
    hit.foldl (fun s w => readyContinuation w.entry s)
      { s with parts := s.parts.map (fun q => { q with ovfWatches := q.ovfWatches.filter (fun w => !due w) }) }

/-- What a write at a place sets off: at a cluster cache in that cluster, at a home or at banks everywhere. -/
def written (point : Option Nat) (p : Place) (n : Nat) (s : State) : State :=
  let s := wakeMonitors point p n s
  match point with
  | some cl => evalWatchesOf point p n cl s
  | none => evalOverflow p n ((s.clusters.map Cluster.id).foldl (fun s cl => evalWatchesOf none p n cl s) s)

/-! ### Read-modify-write operations (R206) -/

/-- One BF16 lane of badd. -/
def baddLane (x y : Nat) : Nat := (bf16.deliver rne (sumExact 0 [bf16.read x, bf16.read y])).1

/-- Op(old, v) on 32 or 64 bits (R206); cas compares with its expected value (R208). -/
def rmwApply (op : RmwOp) (size : Nat) (old v : Word) : Word :=
  let w := 8 * size
  let o := zextBits w old.toNat
  let x := zextBits w v.toNat
  let so := sextBits w old.toNat
  let sx := sextBits w v.toNat
  let r : Word :=
    match op with
    | .add => o + x
    | .and => o &&& x
    | .or => o ||| x
    | .xor => o ^^^ x
    | .min => if sx.slt so then x else o
    | .max => if so.slt sx then x else o
    | .minn => if x.ult o then x else o
    | .maxn => if o.ult x then x else o
    | .swap => x
    | .fadd => BitVec.ofNat 64 (fp32.deliver rne (sumExact 0 [fp32.read o.toNat, fp32.read x.toNat])).1
    | .fmin => BitVec.ofNat 64 (minMaxBits fp32 false o.toNat x.toNat).1
    | .fmax => BitVec.ofNat 64 (minMaxBits fp32 true o.toNat x.toNat).1
    | .badd => BitVec.ofNat 64 (baddLane (o.toNat % 65536) (x.toNat % 65536) +
        65536 * baddLane (o.toNat / 65536) (x.toNat / 65536))
    | .cas e => if o = zextBits w e.toNat then x else o
  zextBits w r.toNat

/-- The eight operations whose result does not depend on order (R210). -/
def RmwOp.orderFree : RmwOp → Bool
  | .add | .and | .or | .xor | .min | .max | .minn | .maxn => true
  | _ => false

/-- Ext(old) of R205: Zext for 32-bit results of minn, maxn, fadd, fmin, fmax and badd, else Sext. -/
def rmwExt (op : RmwOp) (size : Nat) (old : Word) : Word :=
  if size = 8 then old
  else match op with
    | .minn | .maxn | .fadd | .fmin | .fmax | .badd => zextBits 32 old.toNat
    | _ => sextBits 32 old.toNat

/-! ### Writes at a cluster cache and at a home -/

/-- Set the bytes of a cell list that fall into a line, and its mask bits if they are stores. -/
def CLine.put (l : CLine) (cells : List (Nat × Byte)) (stored : Bool) : CLine :=
  cells.foldl (fun l c =>
    if c.1 / 64 = l.line then
      { l with
        bytes := l.bytes.set (c.1 % 64) c.2 (Nat.mod_lt _ (by decide))
        mask := if stored then l.mask ||| (1#64 <<< (c.1 % 64)) else l.mask }
    else l) l

/-- Bytes from an address as cells. -/
def cellsOf (pa : Nat) (bytes : List Byte) : List (Nat × Byte) :=
  (List.range bytes.length).zipWith (fun i b => (pa + i, b)) bytes

/-- The written bytes of the lines of a cluster copy, as cells (R261). -/
def CLine.dirtyCells (l : CLine) : List (Nat × Byte) :=
  (List.finRange 64).filterMap (fun (i : Fin 64) => if l.mask.getLsbD i then some (l.line * 64 + i.val, l.bytes.get i) else none)

/-- The runs of consecutive addresses among cells: first address and length. -/
def cellRuns : List (Nat × Byte) → List (Nat × Nat)
  | [] => []
  | (a, _) :: cs =>
    match cellRuns cs with
    | (b, n) :: rs => if b = a + 1 then (a, n + 1) :: rs else (a, 1) :: (b, n) :: rs
    | [] => [(a, 1)]

/-- What a write of cells at a cluster cache or a home sets off, for every byte written (R221, R391). -/
def writtenCells (point : Option Nat) (cells : List (Nat × Byte)) (s : State) : State :=
  (cellRuns cells).foldl (fun s r => written point (.mem r.1) r.2 s) s

/-- The lines of a die-cache slice: 2 MiB (R171). -/
def dieSliceLines : Nat := 32768

/-- The lines that share a set of so many ways with a line, once the set is full of them; none while there is room (R171). The
hashes that choose slices and sets are not given (log entry 84), and they do not matter in a cache with fewer lines than ways. -/
def fullSet (ways line : Nat) (held : List Nat) : List Nat :=
  if held.length < ways then []
  else
    let mates := held.filter (fun l => Config.cacheSlice l % 24 == Config.cacheSlice line % 24 && Config.cacheSet l % 1024 == Config.cacheSet line % 1024)
    if mates.length < ways then [] else mates

/-- Place an entry at the head of an L1 cache of 64 sets of 8 ways (R171): it takes the place of the last one of its set. -/
def intoL1 {α : Type} (line : α → Nat) (x : α) (l : List α) : List α :=
  let old := l.filter (fun y => line y != line x)
  if old.length < 8 then x :: old
  else
    let mate := fun (y : α) => Config.cacheSet (line y) % 64 == Config.cacheSet (line x) % 64
    if (old.filter mate).length < 8 then x :: old
    else
      match takeFirst mate old.reverse with
      | some (_, rest) => x :: rest.reverse
      | none => x :: old

/-- The element of a list that a free value points at; the list must not be empty. -/
def freePick (xs : List Nat) (s : State) : Nat := xs[(Config.freeWord s.freeCtr).toNat % xs.length]?.getD 0

/-- Whether its home die cache holds a line of DRAM (R183). -/
def inDieCache (s : State) (line : Nat) : Bool := s.dieLines.any (·.1 == line)

/-- A line of DRAM enters its home die cache, through which every access to it passes (R183), with the tag of the partition that
owns its bank (R431); a full slice gives up a line, which one the spec leaves open (log entry 74). -/
def enterDie (line : Nat) (s : State) : State :=
  if !isDram (line * 64) || inDieCache s line then s
  else
    let new := (line, ((bankAt s (bankOf (line * 64))).owner).getD 64)
    let mates := if s.dieLines.length < dieSliceLines then []
      else (s.dieLines.map (·.1)).filter (fun l =>
        homeDie (l * 64) == homeDie (line * 64) && Config.cacheSlice l % 64 == Config.cacheSlice line % 64)
    if mates.length < dieSliceLines then { s with dieLines := s.dieLines ++ [new] }
    else
      let out := freePick mates s
      { s with freeCtr := s.freeCtr + 1, dieLines := s.dieLines.filter (·.1 != out) ++ [new] }

/-- A write of cells of one line at its home (R183): the bytes, a bad line made whole if all 64 are replaced (R195), the
host's copy invalidated (R442), monitors and watches, whose second point is the home of device memory only (R220). -/
def homePut (cells : List (Nat × Byte)) (s : State) : State :=
  match cells with
  | [] => s
  | (pa, _) :: _ =>
    let line := pa / 64
    let s := { s with
      mem := memPut s.mem cells
      badLines := if cells.length ≥ 64 then s.badLines.filter (· != line) else s.badLines
      hostLines := s.hostLines.filter (· != line) }
    let s := enterDie line s
    if isHost pa then s else writtenCells none cells s

/-- The K-steps of a tile that a line belongs to are stale (R141). -/
def Tile.spoil (line : Nat) (t : Tile) : Tile :=
  { t with stale := (List.range t.steps.length).filter (fun k => t.stale.contains k || (t.steps.getD k []).contains line) }

/-- A line of a cluster is stored to, or leaves: the tiles that hold it fetch it again (R141). -/
def spoilTiles (cl line : Nat) (s : State) : State :=
  mapCores (fun c => if clusterOf c.phys = cl then { c with tile := c.tile.map (Tile.spoil line) } else c) s

/-- Store cells of one line into a cluster's copy of it, which must exist. -/
def clusterPut (cl : Nat) (cells : List (Nat × Byte)) (s : State) : State :=
  match cells with
  | [] => s
  | (pa, _) :: _ =>
    let line := pa / 64
    let s := onCluster cl (fun c => { c with lines := modifyWhere (·.line == line) (·.put cells true) c.lines }) s
    let s := spoilTiles cl line s
    writtenCells (some cl) cells s

/-! ### Reductions that are combined (R211) -/

/-- Two partials of one core that have bytes in common at one home. -/
def Partial.sameSpot (p q : Partial) : Bool :=
  p.home == q.home && p.part == q.part && p.lcore == q.lcore && p.pa < q.pa + q.size && q.pa < p.pa + p.size

/-- A contribution that goes into a partial: the same place, width and operation. -/
def Partial.joins (p q : Partial) : Bool := p.sameSpot q && p.pa == q.pa && p.size == q.size && p.op == q.op

/-- Merge a contribution into the last partial of its core and place, or start one behind it (R211). A partial of ordered
and unordered contributions counts as unordered, one of several scopes has none (R212). -/
def mergePartial (p : Partial) : List Partial → List Partial
  | [] => [p]
  | q :: qs =>
    if p.joins q && !qs.any p.sameSpot then
      { q with v := rmwApply p.op p.size q.v p.v, ord := q.ord && p.ord, scope := if q.scope == p.scope then q.scope else none } :: qs
    else q :: mergePartial p qs

/-- The partials of a line at one home, and the state less them: those pending at the home, into which each recalled
update-only copy of the same core is merged. -/
def takePartials (home : Option Nat) (line : Nat) (s : State) : List Partial × State :=
  let here := fun (p : Partial) => p.home == home && p.pa / 64 == line
  let ps := ((allCores s).flatMap (fun c => c.upd.filter here)).foldl (fun l p => mergePartial p l) (s.partials.filter here)
  if ps.isEmpty then ([], s)
  else
    (ps, mapCores (fun c => { c with upd := c.upd.filter (fun p => !here p) })
      { s with partials := s.partials.filter (fun p => !here p) })

/-- Contributions that are all .ord and of one scope are combined in ascending logical-core order, others as they arrived
(R211, R212). -/
def orderPartials (ps : List Partial) : List Partial :=
  match ps with
  | [] => []
  | p :: _ => if p.scope.isSome && ps.all (fun q => q.ord && q.scope == p.scope) then sortBy Partial.lcore ps else ps

/-- Combine the partials of a line with memory at their home (R211); the deterministic tag is cleared (R213). -/
def combineAt (home : Option Nat) (line : Nat) (s : State) : State :=
  match takePartials home line s with
  | ([], _) => s
  | (ps, s) =>
    let s := { s with detTags := s.detTags.filter (· != line) }
    let s := if s.badLines.contains line then errorRecorded ((ps.head?.map Partial.part).getD 64) 0x3FFF line s else s
    (orderPartials ps).foldl (fun s p =>
      let old := leNat ((List.range p.size).map (fun i =>
        match home with
        | some cl => clusterByte s cl (p.pa + i)
        | none => memGet s.mem (p.pa + i)))
      let new := rmwApply p.op p.size (BitVec.ofNat 64 old) p.v
      let cells := cellsOf p.pa (leBytes p.size new.toNat)
      match home with
      | some cl => clusterPut cl cells s
      | none => homePut cells s) s

/-- Whether any reduction of a line still waits to be combined. -/
def hasPartials (line : Nat) (s : State) : Bool :=
  s.partials.any (fun p => p.pa / 64 == line) || (allCores s).any (fun c => c.upd.any (fun p => p.pa / 64 == line))

/-- An access reaches the home die cache of a line (R183, R211). -/
def reachHome (line : Nat) (s : State) : State := if hasPartials line s then combineAt none line s else s

/-- Write cells of one line at its home as any agent's write: pending reductions are combined first. -/
def homeWrite (cells : List (Nat × Byte)) (s : State) : State :=
  match cells with
  | [] => s
  | (pa, _) :: _ => homePut cells (reachHome (pa / 64) s)

/-- Write bytes at their homes, line by line. -/
def homeWriteBytes (pa : Nat) (bytes : List Byte) (s : State) : State :=
  let cells := cellsOf pa bytes
  ((List.range (bytes.length / 64 + 2)).map (· + pa / 64)).foldl
    (fun s line => homeWrite (cells.filter (fun c => c.1 / 64 == line)) s) s

/-- Write back the stored bytes of a cluster's copy of a line and leave it clean (R202, R261). An error met there is
consumed by no instruction (R194). -/
def writeBack (cl line : Nat) (s : State) : State :=
  match lineAt s cl line with
  | none => s
  | some l =>
    if l.mask = 0 then s
    else
      let s := onCluster cl (fun c => { c with lines := modifyWhere (·.line == line) (fun l => { l with mask := 0 }) c.lines }) s
      let s := if s.badLines.contains line && l.mask != BitVec.allOnes 64 then errorRecorded l.part 0x3FFF line s else s
      homeWrite l.dirtyCells s

/-! ### Stash lines (R179, R180) -/

/-- Set A, and D for a write, in a leaf by an OR at its home (R367). -/
def setAD (write : Bool) (pa e : Nat) (s : State) : State :=
  let low := e % 256
  let new := low ||| 0x40 ||| (if write then 0x80 else 0)
  if new = low then s else homeWrite [(pa, BitVec.ofNat 8 new)] s

/-- The cells of the bytes stored into a stash line. -/
def stashCells (c : Core) (l : StashLine) : List (Nat × Byte) :=
  (List.range 64).filterMap (fun i =>
    if l.mask.getLsbD i then
      (allocOf c l.part l.gid).map (fun a => (l.line * 64 + i, memGet a.mem (l.lsline * 64 + i)))
    else none)

/-- Write a stash line of a core back into its cluster cache, which holds every line a stash holds (R182), and, if asked,
remove it. Where the translation of the fill recorded D = 0, D is set first, since this writes the page (R367, R374). -/
def stashWriteBack (phys : Nat) (l : StashLine) (remove : Bool) (s : State) : State :=
  let cells := stashCells (coreAt s phys) l
  let same := fun (x : StashLine) => x.part == l.part && x.gid == l.gid && x.lsline == l.lsline
  let s := onCore phys (fun c =>
    { c with stashLines :=
        if remove then c.stashLines.filter (fun x => !same x) else modifyWhere same (fun x => { x with mask := 0 }) c.stashLines }) s
  if cells.isEmpty then s
  else
  let s := if l.tlb.d then s else setAD true l.tlb.at2 (homeNat s l.tlb.at2 8) (setAD true l.tlb.at1 (homeNat s l.tlb.at1 8) s)
  if (lineAt s (clusterOf phys) l.line).isSome then clusterPut (clusterOf phys) cells s
  else homeWrite cells s

/-- Recall every stash line of a cluster that copies a global line (R180). -/
def recallStash (cl line : Nat) (s : State) : State :=
  (allCores s).foldl (fun s c =>
    if clusterOf c.phys = cl then
      (c.stashLines.filter (·.line == line)).foldl (fun s l => stashWriteBack c.phys l true s) s
    else s) s

/-! ### Lines of a cluster cache (R182) -/

/-- A cluster's copy of a line and every L1 copy in it are gone. -/
def forgetLine (cl line : Nat) (s : State) : State :=
  mapCores (fun c => if clusterOf c.phys = cl then { c with l1d := c.l1d.filter (· != line) } else c)
    (spoilTiles cl line
      (onCluster cl (fun c => { c with lines := c.lines.filter (·.line != line), refetch := c.refetch.filter (· != line) }) s))

/-- The partition of the first reduction of a line that waits at a cluster cache. -/
def partialOwner (cl line : Nat) (s : State) : Option Nat :=
  let here := fun (p : Partial) => p.home == some cl && p.pa / 64 == line
  (((s.partials.filter here).head?) <|> (((allCores s).flatMap (fun c => c.upd.filter here)).head?)).map Partial.part

/-- A line that a cluster cache holds leaves it: its stash copies are recalled, its reductions combined, its stored bytes
written back (R180, R182, R211, R261). -/
def evictLine (cl line : Nat) (s : State) : State :=
  let s := recallStash cl line s
  let s := if (lineAt s cl line).isSome && (partialOwner cl line s).isSome then combineAt (some cl) line s else s
  forgetLine cl line (writeBack cl line s)

/-- A group that runs in a cluster tracks a line, which therefore stays resident (R274). -/
def trackedIn (s : State) (cl line : Nat) : Bool :=
  s.parts.any (fun p => p.groups.any (fun g => g.cluster == cl && g.tracks.any (fun t =>
    match t.place with | .mem pa => pa / 64 == line | _ => false)))

/-- A line of a cluster has bytes that its home has still to see: stored ones, or reductions. -/
def unwritten (s : State) (cl line : Nat) : Bool :=
  (lineAt s cl line).any (·.mask != 0) || (partialOwner cl line s).isSome ||
    (allCores s).any (fun c => clusterOf c.phys == cl && c.stashLines.any (fun l => l.line == line && l.mask != 0))

/-- A line that an eviction may take: no tile holds it (R140), no group tracks it (R274), no copy channel owns it (R263), and the
host holds no copy that a write-back would first have to invalidate (R442). -/
def evictable (s : State) (cl line : Nat) : Bool :=
  !(clusterAt s cl).pins.contains line && !trackedIn s cl line && !s.owned.any (·.1 == line) &&
    !(s.hostLines.contains line && unwritten s cl line)

/-- A full set of a cluster-cache slice, 16 ways, gives up a line (R171); which one the spec leaves open (log entry 74). -/
def makeRoom (cl line : Nat) (s : State) : State :=
  let may := (fullSet 16 line ((clusterAt s cl).lines.map CLine.line)).filter (evictable s cl)
  if may.isEmpty then s else evictLine cl (freePick may s) { s with freeCtr := s.freeCtr + 1 }

/-- Fetch a line into a cluster cache if it is not there (R182, R261). -/
def fillLine (cl part line : Nat) (s : State) : State :=
  match lineAt s cl line with
  | some _ => s
  | none =>
    let s := reachHome line (makeRoom cl line s)
    let bytes := Vector.ofFn (fun i : Fin 64 => memGet s.mem (line * 64 + i))
    onCluster cl (fun c => { c with lines := putBy CLine.line ⟨line, part, bytes, 0⟩ c.lines }) s

/-- Combine the reductions of a line that wait at a cluster cache, which fetches the line for it (R211). -/
def combineCluster (cl line : Nat) (s : State) : State :=
  match partialOwner cl line s with
  | none => s
  | some part => combineAt (some cl) line (fillLine cl part line s)

/-- An access reaches a cluster cache: the line is there and its reductions are combined (R211). -/
def reachCluster (cl part line : Nat) (s : State) : State :=
  combineCluster cl line (fillLine cl part line s)

/-- Remove every copy of a line from a cluster: stash, L1 and cluster cache, dirty ones written back first (R180, R207,
R217). A tile that holds the line fetches it again with its next K-step. -/
def dropLine (cl line : Nat) (s : State) : State :=
  evictLine cl line (combineCluster cl line (recallStash cl line s))

/-- cinval on a line (R203): a pinned line is written back, stays, and is fetched again once its tiles are done. -/
def invalLine (cl line : Nat) (s : State) : State :=
  if (clusterAt s cl).pins.contains line then
    let s := writeBack cl line (combineCluster cl line (recallStash cl line s))
    onCluster cl (fun c => { c with refetch := if c.refetch.contains line then c.refetch else c.refetch ++ [line] }) s
  else dropLine cl line s

/-- Tiles give up pinned lines of a cluster; a line that a cinval waits for leaves with its last pin (R203). -/
def unpinLines (cl : Nat) (lines : List Nat) (s : State) : State :=
  let s := onCluster cl (fun c => { c with pins := lines.foldl (fun l x => l.erase x) c.pins }) s
  lines.foldl (fun s line =>
    if (clusterAt s cl).refetch.contains line && !(clusterAt s cl).pins.contains line then dropLine cl line s else s) s

/-! ### The store of an agent -/

/-- Tag and mark rules of R213 for a store or atomic of a task to a line. -/
def foreignStore (det : Bool) (line : Nat) (s : State) : State :=
  if !det && s.detTags.contains line then
    { s with
      detTags := s.detTags.filter (· != line)
      foreignMarks := if s.foreignMarks.contains line then s.foreignMarks else line :: s.foreignMarks }
  else s

/-- The transactions of a cluster meet an access by an agent; `self` is the core whose control context made it, which is
no other agent. -/
def meetTxns (cl line : Nat) (write : Bool) (self : Option Nat) (s : State) : State :=
  mapCores (fun c => if clusterOf c.phys = cl && self != some c.phys then conflict line write c else c) s

/-- The L1 copies of the other cores of a cluster are invalidated by a store. -/
def snoopL1 (cl line phys : Nat) (s : State) : State :=
  mapCores (fun c => if clusterOf c.phys = cl && c.phys != phys then { c with l1d := c.l1d.filter (· != line) } else c) s

/-- An agent of core `phys` stores bytes of one line at their place: at the banks, in the cluster cache for a write-back
page, else at the home (R219). `self` says that its control context made the store (R224). -/
def storeAt (phys part : Nat) (det self cacheable : Bool) (p : Place) (bytes : List Byte) (s : State) : State :=
  match p with
  | .ls h t g off =>
    let mask := (List.range bytes.length).foldl (fun m i => m ||| (1#64 <<< ((off + i) % 64))) 0#64
    let s := onCore h (fun c =>
      { onAlloc t g (fun a => { a with
            mem := memWrite a.mem off bytes
            bad := if bytes.length = 64 then a.bad.filter (· != off / 64) else a.bad }) c with
        stashLines := modifyWhere (fun l => l.part == t && l.gid == g && l.lsline == off / 64)
          (fun l => { l with mask := l.mask ||| mask }) c.stashLines }) s
    written none p bytes.length s
  | .mem pa =>
    let line := pa / 64
    let cl := clusterOf phys
    let s := foreignStore det line s
    let s := meetTxns cl line true (if self then some phys else none) s
    if cacheable then
      let s := recallStash cl line s
      let s := if bytes.length = 64 && s.badLines.contains line then { s with badLines := s.badLines.filter (· != line) } else s
      clusterPut cl (cellsOf pa bytes) (snoopL1 cl line phys (reachCluster cl part line s))
    else homeWrite (cellsOf pa bytes) s

/-- Store bytes that may span lines, line by line in ascending order (R198). -/
def storeSpan (phys part : Nat) (det cacheable : Bool) (p : Place) (bytes : List Byte) : Nat → State → State
  | 0, s => s
  | fuel + 1, s =>
    if bytes.isEmpty then s
    else
      let off := match p with | .mem pa => pa % 64 | .ls _ _ _ o => o % 64
      let n := min bytes.length (64 - off)
      storeSpan phys part det cacheable (p.plus n) (bytes.drop n) fuel
        (storeAt phys part det true cacheable p (bytes.take n) s)

/-- An agent of core `phys` reads a line through its cluster cache, or at the home, or at the banks: what the read sets
off. -/
def readAt (phys part : Nat) (self cacheable : Bool) (p : Place) (s : State) : State :=
  match p with
  | .ls .. => s
  | .mem pa =>
    let cl := clusterOf phys
    let s := meetTxns cl (pa / 64) false (if self then some phys else none) s
    if cacheable then reachCluster cl part (pa / 64) s else reachHome (pa / 64) s

/-- Where a read-modify-write is performed (R207): the cluster cache below .die on a write-back page, else the home, after
the cluster's copy is written back and dropped. -/
def rmwAtCluster (scope : Scope) (cacheable : Bool) : Bool :=
  cacheable && (match scope with | .core | .row | .clus => true | _ => false)

/-- Perform a read-modify-write of 4 or 8 bytes at its place; the old value (R205, R207, R208). It is an atomic of its task
to the line's tag whether or not a cas stores (R213), and records a wake-up either way (R221) but at a home in host memory, which
is no watch point (R220). At .die and above it takes the line from the cluster (R224). -/
def rmwAt (phys part : Nat) (det self cacheable : Bool) (scope : Scope) (op : RmwOp) (size : Nat) (v : Word) (p : Place)
    (s : State) : Word × State :=
  let atCluster := rmwAtCluster scope cacheable
  let s := match p with
    | .mem pa =>
      let s := foreignStore det (pa / 64) s
      if cacheable && !atCluster then
        dropLine (clusterOf phys) (pa / 64) (meetTxns (clusterOf phys) (pa / 64) true (if self then some phys else none) s)
      else if atCluster then recallStash (clusterOf phys) (pa / 64) s else s
    | _ => s
  let s := readAt phys part self atCluster p s
  let old := BitVec.ofNat 64 (leNat (placeBytes s phys atCluster p size))
  let new := rmwApply op size old v
  let changes := match op with | .cas e => zextBits (8 * size) old.toNat == zextBits (8 * size) e.toNat | _ => true
  if changes then (old, storeAt phys part det self atCluster p (leBytes size new.toNat) s)
  else
    let seen := atCluster || (match p with | .mem pa => !isHost pa | _ => true)
    (old, if seen then wakeMonitors (if atCluster then some (clusterOf phys) else none) p size s else s)

end Sys2Proof.Machine
end

