-- ==== Sys2Proof/Machine/Translate.lean ====
section
/-!
DEFINITION. Address translation: the windows of local store (R175 to R177), the two-stage walk (R362 to R368), the TLB
(R369), page requests (R371, R372), physical ranges and bank ownership (R173, R186, R434), and the wake of a bank that an
access reaches (R189, R190).
-/

namespace Sys2Proof.Machine

/-- Why the work of an instruction or event does not go on: a trap condition, a stall (on another party, or on hardware:
R35), a task failure, an abort of the open transaction (R224), or an end that has already set the state. -/
inductive Stop where
  | trap (cause : BitVec 8) (eval einfo : Word)
  | stall (party : Bool)
  | fail (cause : BitVec 8) (eval einfo : Word)
  | abort (reason cause : Nat)
  | done
  deriving DecidableEq, Repr

/-- Work on the state that may stop. -/
abbrev Act := EStateM Stop State

/-- Stop with a trap condition. -/
def trapAct {α : Type} (cause : BitVec 8) (eval : Word) (einfo : Word := 0) : Act α := throw (.trap cause eval einfo)

/-- Wait: on hardware, or on another party. -/
def stallAct {α : Type} (party : Bool := false) : Act α := throw (.stall party)

/-- Who accesses memory: a core, the context on whose behalf (0 control, h + 1 helper), its partition, whether its task is
deterministic (R38), its privilege; `hw` marks the scheduler, whose wait for a bank lies inside its step, `elems` an access
of tile fetch, vector elements or copy lines, which no device page serves (R368), `chan` a copy channel, which is another agent
than the contexts (R224, R263). -/
structure Agent where
  phys : Nat
  ctx : Nat
  part : Nat
  det : Bool
  priv : Nat
  hw : Bool := false
  elems : Bool := false
  chan : Bool := false
  deriving DecidableEq, Repr

/-- The agent of an engine's access to elements (R368). -/
def Agent.onElems (ag : Agent) : Agent := { ag with elems := true }

/-- Whether an access is its core's control context's own, which its open transaction does not meet (R224). -/
def Agent.self (ag : Agent) : Bool := ag.ctx == 0 && !ag.chan

/-- Who waits for a page request: a context, a copy channel, the elements of a context's vector instruction, or a
dispatcher, which simply looks again. -/
inductive Waiter where
  | ctx (phys ctx : Nat)
  | chan (phys ch : Nat)
  | vec (phys ctx : Nat)
  | hw
  deriving DecidableEq, Repr

/-- The permissions an access needs (R366). -/
structure Need where
  r : Bool
  w : Bool
  x : Bool
  deriving DecidableEq, Repr

/-- A load. -/
def needR : Need := ⟨true, false, false⟩
/-- A store. -/
def needW : Need := ⟨false, true, false⟩
/-- An atomic or a reduction. -/
def needRW : Need := ⟨true, true, false⟩
/-- A fetch. -/
def needX : Need := ⟨false, false, true⟩

/-- The kinds of a page request: R 1, W 2, X 4 (R371). -/
def Need.kinds (n : Need) : Nat := n.r.toNat + 2 * n.w.toNat + 4 * n.x.toNat

/-- The kinds that a leaf's R, W, X bits do not give (R366). -/
def Need.missing (n : Need) (bits : Nat) : Nat :=
  (n.r && bits / 2 % 2 == 0).toNat + 2 * (n.w && bits / 4 % 2 == 0).toNat + 4 * (n.x && bits / 8 % 2 == 0).toNat

/-- Whether a leaf's R, W, X bits cover a need. -/
def Need.okBits (n : Need) (bits : Nat) : Bool :=
  (!n.r || bits / 2 % 2 == 1) && (!n.w || bits / 4 % 2 == 1) && (!n.x || bits / 8 % 2 == 1)

/-! ### Contexts by index -/

/-- A context of a core: 0 the control context, h + 1 helper h. -/
def ctxOf (c : Core) (i : Nat) : Ctx := if h : 0 < i ∧ i ≤ 10 then c.helpers[i - 1] else c.ctl

/-- Replace a context of a core. -/
def putCtx (c : Core) (i : Nat) (x : Ctx) : Core :=
  if h : 0 < i ∧ i ≤ 10 then { c with helpers := c.helpers.set (i - 1) x } else { c with ctl := x }

/-- Change a context of a core. -/
def onCtx (phys i : Nat) (f : Ctx → Ctx) (s : State) : State := onCore phys (fun c => putCtx c i (f (ctxOf c i))) s

/-! ### Page requests (R371) -/

/-- A virtual function; one that State does not hold has generation 0 and no request. -/
def funcAt (s : State) (vf : Nat) : Function := (findBy Function.vf vf s.funcs).getD ⟨vf, 0, [], [], false, []⟩

/-- Change a virtual function. -/
def onFunc (vf : Nat) (f : Function → Function) (s : State) : State :=
  { s with funcs := putBy Function.vf (f (funcAt s vf)) s.funcs }

/-- The lowest free request slot. -/
def freeSlot (slots : List PageReq) : Option Nat := (List.range 64).find? (fun n => !slots.any (·.slot == n))

/-- What a waiter waits for. -/
def awaitOf (s : State) : Waiter → Await
  | .ctx phys i => (ctxOf (coreAt s phys) i).await
  | .chan phys ch => if h : ch < 4 then (coreAt s phys).chans[ch].await else .nothing
  | .vec .. => .nothing
  | .hw => .nothing

/-- Change the vector instruction that a core's engine performs for a context. -/
def onVx (phys ctx : Nat) (f : VxOp → VxOp) (s : State) : State :=
  onCore phys (fun c => { c with vxq := modifyWhere (·.vrec.ctx == ctx) f c.vxq }) s

/-- The reply that a waiter has for a page: the kinds granted and whether it was a success. -/
def replyOf (s : State) (vf : Nat) (w : Waiter) (page : Nat) : Option (Nat × Bool) :=
  match w with
  | .hw => ((funcAt s vf).replies.find? (·.1 == page)).map (·.2)
  | .vec phys ctx =>
    ((coreAt s phys).vxq.find? (·.vrec.ctx == ctx)).bind (fun q => (q.pages.find? (·.1 == page)).bind (·.2))
  | w =>
    match awaitOf s w with
    | .pageDone q k ok _ => if q = page then some (k, ok) else none
    | _ => none

/-- Set what a waiter waits for. -/
def setAwait (w : Waiter) (a : Await) (s : State) : State :=
  match w with
  | .ctx phys i => onCtx phys i (fun x => { x with await := a }) s
  | .chan phys ch =>
    if h : ch < 4 then onCore phys (fun c => { c with chans := c.chans.set ch { c.chans[ch] with await := a } }) s else s
  | .vec phys ctx =>
    match a with
    | .page page _ =>
      onVx phys ctx (fun q => { q with pages := q.pages.filter (·.1 != page) ++ [(page, none)] }) s
    | _ => s
  | .hw => s

/-- Requests that wait get the slots that are free, in the order in which they arose (R371). -/
def grantSlots (f : Function) : Function :=
  f.waiting.foldl (fun f q =>
    match freeSlot f.slots with
    | some n => { f with slots := f.slots ++ [{ q with slot := n, gen := f.gen }] }
    | none => { f with waiting := f.waiting ++ [q] }) { f with waiting := [] }

/-- The request that an access to an address waited for has been refused, or its function reset: the access traps without another
walk (R372, R373). The scheduler and vector elements are looked at by page and by element. -/
def refusedAt (s : State) (w : Waiter) (va : Word) : Bool :=
  match awaitOf s w with
  | .pageDone _ _ ok v => !ok && v == va
  | _ => false

/-- Raise or join a page request for an IPA page of a partition's function, for an access to an address (R371); with all 64 slots
in use the request waits for a free one. -/
def raiseRequest (p : Partition) (page kinds : Nat) (va : Word) (w : Waiter) (s : State) : State :=
  let mine := fun (q : PageReq) => q.page == page && q.gen == (funcAt s p.vf).gen
  let join := fun (q : PageReq) => { q with hw := q.hw || w == .hw }
  onFunc p.vf (fun f =>
    if f.slots.any mine then { f with slots := modifyWhere mine join f.slots }
    else if f.waiting.any mine then { f with waiting := modifyWhere mine join f.waiting }
    else grantSlots { f with waiting := f.waiting ++ [⟨64, page, f.gen, kinds, w == .hw⟩] }) (setAwait w (.page page va) s)

/-- The scheduler has seen the reply for a page. -/
def dropReply (vf page : Nat) (w : Waiter) (s : State) : State :=
  if w = .hw ∧ (funcAt s vf).replies.any (·.1 == page) then
    onFunc vf (fun f => { f with replies := f.replies.filter (·.1 != page) }) s
  else s

/-- Kinds granted cover the kinds needed. -/
def kindsWithin (need got : Nat) : Bool := need &&& got == need

/-- A stage-2 miss (R371, R372): after a reply that covers the kinds that are missing, or while the function has failed, cause
0x08; otherwise a page request for those kinds, and the access waits. -/
def pageMiss {α : Type} (p : Partition) (ipa kinds : Nat) (va : Word) (w : Waiter) : Act α := do
  let s ← get
  let page := ipa / 4096
  if (funcAt s p.vf).failed then trapAct 0x08 va
  modify (dropReply p.vf page w)
  match replyOf s p.vf w page with
  | some (k, ok) => if !ok ∨ kindsWithin kinds k then trapAct 0x08 va
  | none => pure ()
  modify (raiseRequest p page kinds va w)
  stallAct true

/-! ### Physical ranges (R173, R434) and banks (R184 to R190) -/

/-- What a physical address names. -/
inductive PaKind where
  | dram (bank : Nat)
  | regs (tag off : Nat)
  | launch (tag off : Nat)
  | package
  | host
  | none
  deriving DecidableEq, Repr

/-- The range of a physical address. Device registers and unassigned addresses are none: every access traps. -/
def paKind (pa : Nat) : PaKind :=
  if isDram pa then .dram (bankOf pa)
  else if 0x10100000000 ≤ pa && pa < 0x10100000000 + 64 * 0x10000 then
    .regs ((pa - 0x10100000000) / 0x10000) ((pa - 0x10100000000) % 0x10000)
  else if 0x10200000000 ≤ pa && pa < 0x10200000000 + 64 * 0x1000 then
    .launch ((pa - 0x10200000000) / 0x1000) ((pa - 0x10200000000) % 0x1000)
  else if 0x8000000000000 ≤ pa && pa < 0x8000000000000 + 256 * 0x10000000000 then
    (if isDram ((pa - 0x8000000000000) % 0x10000000000) then .package else .none)
  else if isHost pa then .host
  else .none

/-- The package whose memory a physical address names (R434). -/
def packageOf (pa : Nat) : Option Nat :=
  match paKind pa with
  | .package => some ((pa - 0x8000000000000) / 0x10000000000)
  | _ => none

/-- Memory of the device that a counter word, an atomic below .sys or a monitor may name: stacked DRAM, LPDDR-6 and the
launch windows. -/
def insideDevice (pa : Nat) : Bool :=
  match paKind pa with
  | .dram _ => true
  | .launch .. => true
  | _ => false

/-- Change a bank's entry. -/
def onBank (b : Nat) (f : Bank → Bank) (s : State) : State := { s with banks := putBy Bank.id (f (bankAt s b)) s.banks }

/-- The front end of a bank: 16 channels a front end for stacked DRAM, 2 for LPDDR-6 (R190). -/
def frontEnd (b : Nat) : Nat :=
  if b < 8192 then b / 2048 * 16 + b % 256 / 16 else 64 + (b - 8192) % 32 / 2

/-- The in-rush arbiter of a bank: a die, 4 for the I/O die (R190). -/
def arbiterOf (b : Nat) : Nat := if b < 8192 then b / 2048 else 4

/-- Whether a front end holds a demand wake for another bank (R190). -/
def frontBusy (s : State) (b : Nat) : Bool := s.wakes.any (fun w => w.demand && w.bank != b && frontEnd w.bank == frontEnd b)

/-- A demand wake of a bank is raised, which a pre-wake under way joins (R190). -/
def raiseWake (b : Nat) (s : State) : State :=
  match s.wakes.find? (·.bank == b) with
  | some w =>
    if w.granted then { s with wakes := modifyWhere (·.bank == b) (fun w => { w with demand := true }) s.wakes }
    else { s with wakes := s.wakes.filter (·.bank != b) ++ [{ w with demand := true }] }
  | none =>
    { s with wakes := s.wakes ++ [⟨b, s.time, true, false, (bankAt s b).state == .off || (bankAt s b).state == .powerDown⟩] }

/-- An access of a front end meets a sleeping bank (R190): it joins a demand wake of the bank; behind a demand wake of the
front end for another bank, or accesses that wait behind one, it waits in arrival order; else a demand wake is raised. -/
def demandWake (b : Nat) (s : State) : State :=
  if s.wakes.any (fun w => w.bank == b && w.demand) || s.wakeQueue.contains b then s
  else if frontBusy s b || s.wakeQueue.any (fun x => frontEnd x == frontEnd b) then { s with wakeQueue := s.wakeQueue ++ [b] }
  else raiseWake b s

/-- The first access that waits behind its front end for a bank that still sleeps raises its wake when the current one completes
(R190). -/
def nextInLine (front : Nat) (s : State) : State :=
  let s := { s with wakeQueue := s.wakeQueue.filter (fun b => !(frontEnd b == front && (bankAt s b).state == .active)) }
  match s.wakeQueue.find? (fun b => frontEnd b == front) with
  | none => s
  | some b => raiseWake b { s with wakeQueue := s.wakeQueue.erase b }

/-- A pre-wake of a bank in retention (R189); an off bank wakes only on demand. -/
def preWake (b : Nat) (s : State) : State :=
  if (bankAt s b).state == .retention && !s.wakes.any (·.bank == b) then
    { s with wakes := s.wakes ++ [⟨b, s.time, false, false, false⟩] }
  else s

/-- The banks of the same memory that a phase pre-wakes beside bank b (R189). -/
def preWakes (phase b : Nat) : List Nat :=
  let (lo, hi) := if b < 8192 then (b / 2048 * 2048, b / 2048 * 2048 + 2048) else (8192, 9216)
  let want := if phase = 2 then [b + 1] else if phase = 3 then [b - 1, b + 1, b + 2] else []
  want.filter (fun x => lo ≤ x && x < hi && x != b)

/-- The other banks of the page, of 2^sh bytes, that holds an address (R189). -/
def pageBanks (sh pa : Nat) : List Nat :=
  let lo := pa / 2 ^ sh * 2 ^ sh
  let first := bankOf lo
  ((List.range (bankOf (lo + 2 ^ sh - 1) + 1 - first)).map (· + first)).filter (· != bankOf pa)

/-- The running task touches an address of DRAM in a page of 2^sh bytes: the banks of the page are regions of its phase, and the
first touch of a bank under a phase pre-wakes its neighbours (R189). -/
def touchRegion (phys sh pa : Nat) (s : State) : State :=
  match (coreAt s phys).run with
  | none => s
  | some r =>
    let b := bankOf pa
    let more := if sh ≤ 21 then [] else (pageBanks sh pa).filter (fun x => !r.regions.any (·.1 == x))
    let t := onCore phys (fun c =>
      { c with run := c.run.map (fun r =>
        { r with regions := r.regions.filter (·.1 != b) ++ (b, some s.time) :: more.map (fun x => (x, none)) }) }) s
    if r.regions.any (fun x => x.1 == b && x.2.isSome) then t
    else (preWakes (coreAt s phys).bwphase.toNat b).foldl (fun s x => preWake x s) t

/-! ### The contents of a bank (R185) -/

/-- The first address and the size of a bank (R184). -/
def bankRange (b : Nat) : Nat × Nat :=
  if b < 8192 then (b / 2048 * 0xC00000000 + b % 2048 * 0x1800000, 0x1800000)
  else (0x4000000000 + (b - 8192) * 0x30000000, 0x30000000)

/-- A bank's bytes are zero and no cache holds one of its lines: it lost its contents (R185). A bad line of it stays bad
(R195). -/
def clearBank (b : Nat) (s : State) : State :=
  let (lo, n) := bankRange b
  { s with
    mem := memClear s.mem lo n
    dieLines := s.dieLines.filter (fun l => l.1 * 64 < lo || lo + n ≤ l.1 * 64)
    partials := s.partials.filter (fun p => p.home.isSome || p.pa < lo || lo + n ≤ p.pa) }

/-- A bank becomes active (R185, R187): from off its contents are lost; a wake asked for within 4 µs of its entry into retention
abandons the hold, and the bank stays active for 10 µs. -/
def activate (b asked : Nat) (fromOff touched : Bool) (s : State) : State :=
  let s := if fromOff then clearBank b s else s
  onBank b (fun k =>
    { k with
      state := .active
      touch := if touched then s.time / 100 % 2 ^ 32 else k.touch
      stay := if !fromOff && asked < k.entered + 4000 then s.time + 10000 else k.stay }) s

/-- A bank is woken, and its wake with its wait is over: an agent that waits inside its own step reaches it (log entry 2). -/
def wakeNow (b : Nat) (s : State) : State :=
  if (bankAt s b).state == .active then onBank b (fun k => { k with touch := s.time / 100 % 2 ^ 32 }) s
  else
    let fromOff := (bankAt s b).state == .off || (bankAt s b).state == .powerDown || s.wakes.any (fun w => w.bank == b && w.fromOff)
    let asked := ((s.wakes.find? (·.bank == b)).map Wake.asked).getD s.time
    let s := activate b asked fromOff true { s with wakes := s.wakes.filter (·.bank != b), wakeQueue := s.wakeQueue.filter (· != b) }
    if frontBusy s b then s else nextInLine (frontEnd b) s

/-! ### Samples (R400) -/

/-- A free value, fresh for each value of the state's counter (log entry 3). -/
def freeAct : Act Word := do
  let s ← get
  set { s with freeCtr := s.freeCtr + 1 }
  return Config.freeWord s.freeCtr

/-- A sample of a monitor unit (R400). -/
def sampleUnit (u : MonUnit) (x : Nat) : MonUnit :=
  let x := min x (2 ^ 32 - 1)
  let b := min 15 (max x 1).log2
  { u with
    count := u.count + 1
    sum := u.sum + BitVec.ofNat 64 x
    min := BitVec.ofNat 64 (min u.min.toNat x)
    max := BitVec.ofNat 64 (max u.max.toNat x)
    bins := Vector.ofFn (fun i : Fin 16 => if i.val = b then u.bins[i] + 1 else u.bins[i]) }

/-- An event of a source on a core is sampled by the enabled units of its cluster that ask for it (R399, R400). -/
def sampleAt (phys part source sel x : Nat) (s : State) : State :=
  let cl := clusterOf phys
  if (clusterAt s cl).mons.all (fun u => !u.config.getLsbD 0) then s
  else onCluster cl (fun c =>
    { c with mons := c.mons.map (fun u =>
        if u.config.getLsbD 0 && bitsOf u.config 35 30 == part && bitsOf u.config 7 4 == source &&
            bitsOf u.config 15 12 == sel && (bitsOf u.config 47 36 == 0 || u.config.getLsbD (36 + phys / 16 % 16)) then
          sampleUnit u x
        else u) }) s

/-- A sample whose value is a time: it is free (log entry 3), and drawn only if a unit of the cluster is on. -/
def sampleFree (phys part source sel : Nat) : Act Unit := do
  let s ← get
  if (clusterAt s (clusterOf phys)).mons.all (fun u => !u.config.getLsbD 0) then pure ()
  else
    let x ← freeAct
    modify (sampleAt phys part source sel x.toNat)

/-- A sample whose value lies in a bin: where in it is free (log entry 3), and drawn only if a unit of the cluster is on. -/
def sampleBin (phys part source sel bin : Nat) : Act Unit := do
  let s ← get
  if (clusterAt s (clusterOf phys)).mons.all (fun u => !u.config.getLsbD 0) then pure ()
  else
    let x ← freeAct
    modify (sampleAt phys part source sel (2 ^ bin + x.toNat % 2 ^ bin))

/-! ### Reaching DRAM (R183, R185, R190) -/

/-- The wake of a bank begins now and finds a slot free: its time is the nominal one (R191). -/
def freshWake (s : State) (b : Nat) : Option Bool :=
  (s.wakes.find? (fun w => w.bank == b && w.demand && w.asked == s.time)).bind (fun w =>
    if (s.wakes.filter (fun w => w.granted && arbiterOf w.bank == arbiterOf b)).length < 16 then some w.fromOff else none)

/-- An access to a line reaches a bank: it touches an active one and waits for the wake of any other (R185, R190). -/
def touchBank (ag : Agent) (b line : Nat) : Act Unit := do
  let s ← get
  if ag.hw || (bankAt s b).state = .active then set (wakeNow b s)
  else
    let s := demandWake b s
    set (if s.sleepers.any (·.1 == line) then s else { s with sleepers := s.sleepers ++ [(line, freshWake s b)] })
    stallAct

/-- The sample of a DRAM access (R400): an active bank serves it in 220 ns, a group of LPDDR-6 in 350 ns, one that woke for it
later by its wake (R191, R427), all within a bin; how long one waits behind other wakes is free. -/
def sampleDram (ag : Agent) (pa : Nat) : Act Unit := do
  let s ← get
  let sel := if bankOf pa < 8192 then 0 else 1
  match s.sleepers.find? (·.1 == pa / 64) with
  | none => sampleBin ag.phys ag.part 2 sel (7 + sel)
  | some (_, some fromOff) => sampleBin ag.phys ag.part 2 sel (if fromOff then 11 else 9)
  | some (_, none) => sampleFree ag.phys ag.part 2 sel

/-- An access reaches the home of an address (R183): a line of DRAM that its home die cache does not hold comes from its
bank, which is a DRAM access (R400). -/
def touchPa (ag : Agent) (pa : Nat) : Act Unit := do
  if isDram pa && !inDieCache (← get) (pa / 64) then
    touchBank ag (bankOf pa) (pa / 64)
    if !ag.hw then sampleDram ag pa
    modify (fun s => enterDie (pa / 64) { s with sleepers := s.sleepers.filter (·.1 != pa / 64) })

/-- Whether a partition may reach a physical address at all: check 7 of R199. -/
def mayReach (s : State) (part pa : Nat) : Bool :=
  match paKind pa with
  | .dram b => (bankAt s b).owner == some part
  | .regs t _ => t == part
  | .launch t _ => t == part
  | .package => true
  | .host => true
  | .none => false

/-! ### Page-table entries and the walk (R364 to R367) -/

/-- A field hi:lo of a number. -/
def nbits (x hi lo : Nat) : Nat := x / 2 ^ lo % 2 ^ (hi + 1 - lo)

/-- ADDR of an entry as an address. -/
def pteAddr (e : Nat) : Nat := nbits e 51 12 * 4096

/-- An entry with V = 1 and R = W = X = 0 (R364). -/
def pteIsTable (e : Nat) : Bool := nbits e 3 1 == 0

/-- TYPE of the attribute-table entry that a leaf names (R368). -/
def attrEntry (table : Word) (e : Nat) : Nat := table.toNat / 2 ^ (8 * nbits e 10 8) % 256

/-- Whether an entry with V = 1 at the level with index shift sh is malformed (R364, R365); stage 2 has its own
must-be-zero bits. Root tables and level 0 have shifts 48 and 39. -/
def pteBad (stage2 : Bool) (sh : Nat) (attr : Word) (e : Nat) : Bool :=
  e / 2 ^ 53 != 0 ||
  (if pteIsTable e then sh == 12 || nbits e 11 4 != 0 || nbits e 52 52 != 0
   else
     (nbits e 2 2 == 1 && nbits e 1 1 == 0) || sh == 48 || sh == 39 ||
     (nbits e 11 11 == 1 && sh != 12) || (sh == 30 && nbits e 29 12 != 0) || (sh == 21 && nbits e 20 12 != 0) ||
     (stage2 && (nbits e 52 52 != 0 || nbits e 5 4 != 0)) || attrEntry attr e % 4 == 3)

/-- The end of a walk of one stage: a leaf with log2 of its page's size, the address of its entry and the translated
address, an entry with V = 0, or a malformed one. -/
inductive Walked where
  | leaf (sh bits entry addr : Nat)
  | absent
  | bad
  deriving DecidableEq, Repr

/-- log2 of the size of a leaf's page: 64 KiB with CONT (R364, R365). -/
def leafShift (sh e : Nat) : Nat := if sh = 12 && nbits e 11 11 == 1 then 16 else sh

/-- The untranslated range (R175). -/
def inWindows (va : Word) : Bool := bitsOf va 63 48 == 0xFFFE

/-- EVAL of a machine error at an address: the line's virtual address, or the window address (R194). -/
def badEval (va : Word) : Word := if inWindows va then va else va &&& ~~~0x3F#64

/-- Read a table entry for a walk (R365): at its home, or one that the cluster's walkers hold, as a free value says (R369; log
entry 77); a table in a bank of another partition gives 0x09 (R186), one in a bad line 0x17 at the address under translation (R194, R195;
log entry 33). Table entries are cached, leaves are not. -/
def readEntry (ag : Agent) (va : Word) (pa : Nat) : Act Nat := do
  let s ← get
  if !mayReach s ag.part pa then trapAct 0x09 va
  let cl := clusterOf ag.phys
  match (clusterAt s cl).walks.find? (fun x => x.1 == ag.part && x.2.1 == pa) with
  | some x =>
    set { s with freeCtr := s.freeCtr + 1 }
    if (Config.freeWord s.freeCtr).getLsbD 0 then return x.2.2
  | none => pure ()
  touchPa ag pa
  if badAt (← get) (.mem pa) then trapAct 0x17 (badEval va)
  modify (reachHome (pa / 64))
  let e := homeNat (← get) pa 8
  if e % 2 = 1 && pteIsTable e then
    modify (onCluster cl (fun c => { c with walks := (ag.part, pa, e) :: c.walks.filter (fun x => !(x.1 == ag.part && x.2.1 == pa)) }))
  return e

/-- The levels of a stage-2 walk from a table (R365). -/
def walk2 (ag : Agent) (p : Partition) (va : Word) (ipa : Nat) : List Nat → Nat → Act Walked
  | [], _ => pure .bad
  | sh :: rest, table => do
    if !isDram table then return .bad
    let pa := table + 8 * (ipa / 2 ^ sh % (if sh = 48 then 16 else 512))
    let e ← readEntry ag va pa
    if e % 2 = 0 then return .absent
    if pteBad true sh p.s2attr e then return .bad
    if pteIsTable e then walk2 ag p va ipa rest (pteAddr e)
    else return .leaf (leafShift sh e) e pa (pteAddr e + ipa % 2 ^ sh)

/-- A request for a page that the scheduler or elements of a vector instruction wait for has been refused: the access traps (R236, R372,
R373). -/
def pageRefused {α : Type} (p : Partition) (w : Waiter) (va : Word) (page : Nat) (a : Act α) : Act α := do
  let refused := match w with | .hw => true | .vec .. => true | _ => false
  match refused, replyOf (← get) p.vf w page with
  | true, some (_, false) =>
    modify (dropReply p.vf page w)
    trapAct 0x08 va
  | _, _ => a

/-- Translate an IPA by stage 2 for a need (R366 order 3 and 4): the leaf, or a page request, or 0x08. -/
def stage2 (ag : Agent) (p : Partition) (w : Waiter) (va : Word) (need : Need) (ipa : Nat) :
    Act (Nat × Nat × Nat × Nat) := pageRefused p w va (ipa / 4096) do
  match ← walk2 ag p va ipa [48, 39, 30, 21, 12] p.s2root.toNat with
  | .bad => trapAct 0x08 va
  | .absent => pageMiss p ipa need.kinds va w
  | .leaf sh e at_ pa =>
    if need.okBits e then
      modify (dropReply p.vf (ipa / 4096) w)
      return (sh, e, at_, pa)
    else pageMiss p ipa (need.missing e) va w

/-- The levels of a stage-1 walk; each table's IPA is translated by stage 2 first (R366 order 1). `used` collects the stage-2 pages
of the tables. -/
def walk1 (ag : Agent) (p : Partition) (w : Waiter) (va : Word) (used : List (Nat × Nat)) : List Nat → Nat → Act (Walked × List (Nat × Nat))
  | [], _ => pure (.bad, used)
  | sh :: rest, table => do
    let (sh2, _, _, base) ← stage2 ag p w va needR table
    let used := used ++ [(table / 4096, sh2)]
    if !isDram base then return (.bad, used)
    let pa := base + 8 * (va.toNat / 2 ^ sh % 512)
    let e ← readEntry ag va pa
    if e % 2 = 0 then return (.absent, used)
    if pteBad false sh p.s1attr e then return (.bad, used)
    if pteIsTable e then walk1 ag p w va used rest (pteAddr e)
    else return (.leaf (leafShift sh e) e pa (pteAddr e + va.toNat % 2 ^ sh), used)

/-- A canonical virtual address (R362). -/
def canonical (va : Word) : Bool := bitsOf va 63 56 == 0 || bitsOf va 63 56 == 255

/-- A TLB entry that allows an access without a walk: the page, the permissions, T at task privilege, D for a write. -/
def TlbEntry.serves (e : TlbEntry) (part gen vpage : Nat) (need : Need) (priv : Nat) : Bool :=
  e.part == part && e.gen == gen && e.vpage == vpage && (!need.r || e.r) && (!need.w || (e.w && e.d)) &&
    (!need.x || e.x) && (priv != 0 || e.t)

/-- Place an entry in a TLB of n entries, in the place of an older one of its page. -/
def TlbEntry.into (t : TlbEntry) (n : Nat) (l : List TlbEntry) : List TlbEntry :=
  (t :: l.filter (fun x => !(x.part == t.part && x.vpage == t.vpage))).take n

/-- Place an entry in a core's L1 TLB for data, 128 entries, or for instructions, 32 entries (R369). -/
def placeL1 (phys : Nat) (fetch : Bool) (t : TlbEntry) (s : State) : State :=
  onCore phys (fun c => if fetch then { c with itlb := t.into 32 c.itlb } else { c with tlb := t.into 128 c.tlb }) s

/-- Walk both stages for an address and need, in the order of R366, set A and D, and place the entry in the TLBs. -/
def walkBoth (ag : Agent) (w : Waiter) (need : Need) (p : Partition) (va : Word) : Act TlbEntry := do
  match ← walk1 ag p w va [] [48, 39, 30, 21, 12] p.s1root.toNat with
  | (.absent, _) => trapAct 0x07 va
  | (.bad, _) => trapAct 0x07 va
  | (.leaf sh1 e1 at1 ipa, used) =>
    if !need.okBits e1 || (ag.priv = 0 && nbits e1 4 4 = 0) then trapAct 0x09 va
    let (sh2, e2, at2, pa) ← stage2 ag p w va need ipa
    modify (fun s => setAD need.w at2 e2 (setAD need.w at1 e1 s))
    let a1 := attrEntry p.s1attr e1
    let a2 := attrEntry p.s2attr e2
    let both := fun (b : Nat) => nbits e1 b b == 1 && nbits e2 b b == 1
    let t : TlbEntry := {
      part := ag.part, gen := p.gen, vpage := va.toNat / 4096, ppage := pa / 4096, s1bits := e1, ipa := ipa / 4096,
      s2bits := e2, r := both 1, w := both 2, x := both 3, t := nbits e1 4 4 == 1, d := need.w || both 7,
      ty := min (a1 % 4) (a2 % 4), attr1 := nbits e1 10 8, attr2 := nbits e2 10 8,
      nostash := a1 / 4 % 2 == 1 || a2 / 4 % 2 == 1, detp := nbits e1 52 52 == 1, sh1, sh2, at1, at2
      used := used ++ [(ipa / 4096, sh2)] }
    modify (fun s => placeL1 ag.phys need.x t (onCluster (clusterOf ag.phys) (fun c => { c with tlb := t.into 8192 c.tlb }) s))
    return t

/-- A translation that a TLB holds serves an access, but the scheduler's whose request for the page was refused (R372). -/
def useEntry (w : Waiter) (p : Partition) (va : Word) (e : TlbEntry) : Act TlbEntry := pageRefused p w va e.ipa (pure e)

/-- Translate one address: checks 4 and 5 of R199, by the TLBs of the core and its cluster (R369), or by a walk; an access whose
page request was refused traps (R372, R373). -/
def translate (ag : Agent) (w : Waiter) (need : Need) (va : Word) : Act TlbEntry := do
  if !canonical va then trapAct 0x07 va
  let s ← get
  if refusedAt s w va then trapAct 0x08 va
  match partAt s ag.part with
  | none => trapAct 0x07 va
  | some p =>
    let mine := fun (e : TlbEntry) => e.serves ag.part p.gen (va.toNat / 4096) need ag.priv
    let c := coreAt s ag.phys
    match (if need.x then c.itlb else c.tlb).find? mine with
    | some e => useEntry w p va e
    | none =>
      match (clusterAt s (clusterOf ag.phys)).tlb.find? mine with
      | some e =>
        set (placeL1 ag.phys need.x e s)
        useEntry w p va e
      | none => walkBoth ag w need p va

/-! ### Resolving an access -/

/-- Cut n bytes from an offset into the parts of its lines: offset within the access and length. -/
def linePieces (off n : Nat) : Nat → List (Nat × Nat)
  | 0 => []
  | fuel + 1 =>
    if n = 0 then []
    else
      let k := min n (64 - off % 64)
      (off, k) :: linePieces (off + k) (n - k) fuel

/-- Pieces of n bytes from a place whose line offset is `off`. -/
def piecesAt (p : Place) (off : Nat) (cacheable : Bool) (va : Word) (detp : Bool) (n : Nat) : List Piece :=
  (linePieces off n (n / 64 + 2)).map (fun x =>
    ⟨p.plus (x.1 - off), cacheable, x.2, va + BitVec.ofNat 64 (x.1 - off), detp, false, 12⟩)

/-- The size in bytes of an allocation of a group. -/
def Group.bytes (g : Group) : Nat := g.lsize * 64

/-- Resolve n bytes in the windows (R177). -/
def resolveWindow (ag : Agent) (va : Word) (n : Nat) : Act (List Piece) := do
  let s ← get
  let c := coreAt s ag.phys
  let o := va.toNat % 2 ^ 48
  match c.run with
  | none => trapAct 0x0B va
  | some r =>
    if o < 0x20000 then
      match allocOf c r.part r.gid with
      | none => trapAct 0x0B va
      | some a => if o + n > a.size then trapAct 0x0B va else return piecesAt (.ls ag.phys r.part r.gid o) (o % 64) false va false n
    else if 0x10000000000 ≤ o && o < 0x10001800000 then
      match r.peer with
      | none => trapAct 0x0B va
      | some gid =>
        match groupAt s r.part gid, partAt s r.part with
        | some g, some p =>
          let k := (o - 0x10000000000) / 0x20000
          let off := (o - 0x10000000000) % 0x20000
          if k ≥ g.size then trapAct 0x0B va
          if off + n > g.bytes then trapAct 0x0B va
          match p.ranks[g.base + k]? with
          | none => trapAct 0x0A va
          | some rank =>
            if rank.transit then stallAct
            return piecesAt (.ls rank.phys r.part gid off) (off % 64) false va false n
        | _, _ => trapAct 0x0A va
    else trapAct 0x0B va

/-- Physical pieces of one page: check 7 of R199, and the effective type (R368, R434). -/
def resolvePage (ag : Agent) (e : TlbEntry) (eval va : Word) (n : Nat) : Act (List Piece) := do
  let s ← get
  let pa := e.ppage * 4096 + va.toNat % 4096
  if !mayReach s ag.part pa || (ag.elems && e.ty == 0) then trapAct 0x09 eval
  let cacheable := e.ty == 2 && (isDram pa || isHost pa)
  return (piecesAt (.mem pa) (pa % 64) cacheable va e.detp n).map (fun p => { p with device := e.ty == 0, psh := min e.sh1 e.sh2 })

/-- Resolve n bytes from an address: checks 3 to 7 of R199, both pages of a page-crossing access first (R198). The page below
the windows is followed by the own window, which is not translated (R362; log entry 78). -/
def resolve (ag : Agent) (w : Waiter) (need : Need) (va : Word) (n : Nat) : Act (List Piece) := do
  let low := 4096 - va.toNat % 4096
  let va2 := va + BitVec.ofNat 64 low
  if inWindows va then resolveWindow ag va n
  else if low < n && inWindows va2 then
    let up ← resolveWindow ag va2 (n - low)
    return (← resolvePage ag (← translate ag w need va) va va low) ++ up
  else
    let e ← translate ag w need va
    if n ≤ low then resolvePage ag e va va n
    else
      let e2 ← translate ag w need va2
      if e.attr1 ≠ e2.attr1 || e.attr2 ≠ e2.attr2 then trapAct 0x06 va2
      return (← resolvePage ag e va va low) ++ (← resolvePage ag e2 va va2 (n - low))

end Sys2Proof.Machine
end

