-- ==== Sys2Proof/Machine/Access.lean ====
section
/-!
DEFINITION. The accesses of contexts, engines and hardware: the deterministic-mode checks (R210, R213, R270 to R274), the
stash (R179), transactions (R224), pending accesses (R219, R259), loads, stores, atomics, reductions, cache operations.
-/

namespace Sys2Proof.Machine

/-- What an access is to the rules of deterministic mode: a load, a store, a non-returning update that R210 lets through
or not, a returning atomic or cas; `other` for accesses the rules do not govern. -/
inductive AccessClass where
  | load
  | store
  | update (allowed : Bool)
  | returning
  | other
  deriving DecidableEq, Repr

/-- The context that issues on the core in focus: 0 the control context, h + 1 helper h. -/
def curIdx (s : State) : Nat := match s.core.cur with | none => 0 | some h => h.val + 1

/-- The partition a core serves; 64 names none. -/
def corePart (c : Core) : Nat := c.part.getD 64

/-- PRIV of a STATUS value (R154). -/
def privOf (status : Word) : Nat := bitsOf status 9 8

/-- The agent that a context of a core is. -/
def agentAt (s : State) (phys i : Nat) : Agent :=
  let c := coreAt s phys
  ⟨phys, i, corePart c, (ctxOf c i).status.getLsbD 4, privOf (ctxOf c i).status, false, false, false⟩

/-- The agent of the context that issues. -/
def curAgent (s : State) : Agent := agentAt s s.core.phys (curIdx s)

/-! ### Regions and tracking (R270 to R274) -/

/-- The entry of the region binding table that holds an address (R380). -/
def regionAt (p : Partition) (va : Nat) : Option Region :=
  p.regions.find? (fun r => r.base ≤ va && va < r.base + r.length)

/-- A trap with cause 0x10 of a kind (R270). -/
def unordered {α : Type} (va : Word) (kind : Nat) : Act α := trapAct 0x10 va (BitVec.ofNat 64 (kind * 16))

/-- Whether an access conflicts with a tracking record (R272). -/
def trackFails (cls : AccessClass) (rank : Nat) (t : Track) : Bool :=
  match cls with
  | .load => (t.w.any (· != rank)) || t.u
  | .store => (t.w.any (· != rank)) || t.rd.any (· != rank) || t.u
  | _ => t.w.isSome || !t.rd.isEmpty

/-- What an access records (R272). -/
def trackAdd (cls : AccessClass) (rank : Nat) (t : Track) : Track :=
  match cls with
  | .load => if t.rd.contains rank then t else { t with rd := t.rd ++ [rank] }
  | .store => { t with w := some rank }
  | _ => { t with u := true }

/-- Check and record an access by a member of a group to a line of a group-private region (R271, R272, R274). -/
def trackLine (ag : Agent) (cls : AccessClass) (va : Word) (line : Place) : Act Unit := do
  let s ← get
  match (coreAt s ag.phys).run with
  | none => pure ()
  | some r =>
    match groupAt s r.part r.gid with
    | none => pure ()
    | some g =>
      let t := (g.tracks.find? (·.place == line)).getD ⟨line, none, [], false⟩
      if trackFails cls r.rank t then unordered va 4
      let isMem := match line with | .mem _ => true | _ => false
      if isMem && !g.tracks.any (·.place == line) &&
          (g.tracks.filter (fun t => match t.place with | .mem _ => true | _ => false)).length ≥ 8192 then
        unordered va 5
      set (onGroup r.part r.gid (fun g =>
        { g with tracks := trackAdd cls r.rank t :: g.tracks.filter (·.place != line) }) s)

/-- The group of the running task of an agent's core. -/
def runGid (s : State) (ag : Agent) : Nat := ((coreAt s ag.phys).run.map Running.gid).getD 0

/-- The rules of a group-private region that belongs to `owner`, 0 for none yet (R270, R271). -/
def privateRules (ag : Agent) (cls : AccessClass) (va : Word) (p : Piece) (owner : Nat) : Act Unit := do
  let s ← get
  if owner ≠ 0 ∧ owner ≠ runGid s ag then unordered va 4
  match cls with
  | .returning => unordered va 6
  | .update false => unordered va 6
  | _ => trackLine ag cls va p.place.line

/-- The deterministic-mode rules for one piece: the foreign mark (R213), then the class of its region (R210, R270). The spec does not
order the two within check 9; the mark first is the model's choice (log entry 100). -/
def detPiece (ag : Agent) (cls : AccessClass) (va : Word) (p : Piece) : Act Unit := do
  let s ← get
  match p.place with
  | .ls _ _ gid _ => privateRules ag cls va p gid
  | .mem pa =>
    let reads := match cls with | .load => true | .returning => true | _ => false
    if reads && s.foreignMarks.contains (pa / 64) then trapAct 0x11 va
    match partAt s ag.part with
    | none => pure ()
    | some q =>
      match regionAt q p.va.toNat with
      | some r =>
        match r.cls with
        | 1 =>
          let held := ((coreAt s ag.phys).run.map Running.held).getD []
          if !held.any (·.va == r.sync) then unordered va 2
        | 2 =>
          privateRules ag cls va p r.owner
          modify (onPart ag.part (fun q =>
            { q with regions := modifyWhere (·.base == r.base) (fun r => { r with owner := runGid s ag }) q.regions }))
        | 3 => match cls with | .load => pure () | _ => unordered va 3
        | _ => match cls with
          | .load => pure ()
          | .store => unordered va 1
          | .update true => pure ()
          | _ => unordered va 6
      | none =>
        if p.detp then
          let page := p.va.toNat / 4096
          let owner := ((q.pageOwners.find? (·.1 == page)).map (·.2)).getD 0
          privateRules ag cls va p owner
          modify (onPart ag.part (fun q =>
            { q with pageOwners := (page, runGid s ag) :: q.pageOwners.filter (·.1 != page) }))
        else match cls with
          | .load => pure ()
          | .store => unordered va 1
          | .update true => pure ()
          | _ => unordered va 6

/-- The deterministic-mode checks of an access: check 9 of R199. -/
def detCheck (ag : Agent) (cls : AccessClass) (va : Word) (ps : List Piece) : Act Unit :=
  if !ag.det || cls == .other then pure () else ps.forM (detPiece ag cls va)

/-- Whether a copy channel owns a line that an access by a core reaches: at the home, or in the issuing cluster (R263). -/
def ownedFor (s : State) (phys line : Nat) (reachesHome : Bool) : Bool :=
  s.owned.any (fun o => o.1 == line && (reachesHome || clusterOf o.2.1 == clusterOf phys))

/-- Send a back-invalidation for a line the host may hold, unless one is on its way (R442). -/
def backInvalidate (line : Nat) (s : State) : State :=
  if s.hostWaits.contains line then s else { s with hostWaits := s.hostWaits ++ [line] }

/-- A write at the home of a line waits while the host may hold it (R442). -/
def awaitHost (line : Nat) : Act Unit := do
  let s ← get
  if s.hostLines.contains line then
    set (backInvalidate line s)
    stallAct

/-- An access that reaches the home of a line combines the reductions that wait there (R211), a write at the home, which waits
while the host may hold the line (R442). -/
def awaitCombine (line : Nat) : Act Unit := do
  if hasPartials line (← get) then awaitHost line

/-! ### The stash (R179) -/

/-- VALID, NLINES, LSLINE and the global line address of a stash entry (R382). -/
def StashEntry.covers (e : StashEntry) (part gid lsline : Nat) : Bool :=
  e.part == part && e.gid == gid && e.a.getLsbD 0 && bitsOf e.b 10 0 ≤ lsline &&
    lsline ≤ bitsOf e.b 10 0 + bitsOf e.b 26 16

/-- The stash entry that maps the local-store line of a place, if one does (R179). -/
def stashEntryAt (s : State) : Place → Option StashEntry
  | .mem _ => none
  | .ls phys part gid off => (coreAt s phys).stash.find? (fun e => e.covers part gid (off / 64))

/-- Fill the stash line under a piece of local store before it is accessed (R179). The fill is a read of the global line:
it needs R whatever the access is, and a later write-back asks for nothing more (log entry 75). -/
def stashFill (ag : Agent) (w : Waiter) (p : Piece) : Act Unit := do
  match p.place with
  | .mem _ => pure ()
  | .ls phys part gid off =>
    let s ← get
    let c := coreAt s phys
    let lsline := off / 64
    match stashEntryAt s p.place with
    | none => pure ()
    | some e =>
      if c.stashLines.any (fun l => l.part == part && l.gid == gid && l.lsline == lsline) then pure ()
      else
        let gva := (e.a &&& ~~~0x3F#64) + BitVec.ofNat 64 ((lsline - bitsOf e.b 10 0) * 64)
        let t ← translate ag w needR gva
        let pa := t.ppage * 4096 + gva.toNat % 4096
        if !mayReach (← get) ag.part pa then trapAct 0x09 gva
        if t.nostash || t.ty != 2 || !(isDram pa || isHost pa) then trapAct 0x09 gva
        if !ag.hw && isDram pa then modify (touchRegion ag.phys (min t.sh1 t.sh2) pa)
        if (lineAt (← get) (clusterOf phys) (pa / 64)).isNone then
          touchPa ag pa
          sampleFree ag.phys ag.part 1 0
          awaitCombine (pa / 64)
        if ownedFor (← get) phys (pa / 64) true then stallAct
        if badAt (← get) (.mem pa) then trapAct 0x17 (gva &&& ~~~0x3F#64)
        modify (fun s =>
          let s := reachCluster (clusterOf phys) part (pa / 64) (recallStash (clusterOf phys) (pa / 64) s)
          let bytes := (List.range 64).map (fun i => clusterByte s (clusterOf phys) (pa / 64 * 64 + i))
          onCore phys (fun c =>
            { onAlloc part gid (fun a => { a with mem := memWrite a.mem (lsline * 64) bytes }) c with
              stashLines := ⟨part, gid, lsline, pa / 64, 0, t⟩ :: c.stashLines }) s)

/-! ### Reaching the place of an access -/

/-- A packet of the flow from a core to another is still on its way: a remote write or a message (R445). -/
def flowBusy (s : State) (part phys dest : Nat) : Bool :=
  phys != dest && (partAt s part).any (fun p =>
    s.remotes.any (fun w => w.part == part && w.phys == phys && physOf p w.target == some dest) ||
      s.msgs.any (fun m => m.part == part && m.phys == phys && m.answer.isNone && physOf p m.target == some dest))

/-- A core is being replaced in a layout change of a partition: traffic to it is held (R379). -/
def inTransit (s : State) (part dest : Nat) : Bool :=
  (partAt s part).any (fun p => p.ranks.any (fun r => r.valid && r.transit && r.phys == dest))

/-- The number of the next packet of a flow (R445). -/
def flowNext (s : State) (part phys target : Nat) : Nat :=
  ((s.flows.find? (fun f => f.part == part && f.phys == phys && f.target == target)).map Flow.next).getD 0

/-- A flow has taken the number of its next packet (R445). -/
def flowSent (part phys target : Nat) (s : State) : State :=
  { s with flows := ⟨part, phys, target, flowNext s part phys target + 1⟩ ::
      s.flows.filter (fun f => !(f.part == part && f.phys == phys && f.target == target)) }

/-- No packet of a flow with a lower number is still on its way (R445). -/
def flowTurn (s : State) (part phys target seq : Nat) : Bool :=
  !s.remotes.any (fun w => w.part == part && w.phys == phys && w.target == target && w.seq < seq) &&
    !s.msgs.any (fun m => m.part == part && m.phys == phys && m.target == target && m.answer.isNone && m.seq < seq)

/-- The access waits while an earlier packet of its flow to another core is on its way (R445), while a channel owns its line (R263),
while its bank is not active (R190), and while the host must give up the line for a combination at its home (R442). -/
def touchData (ag : Agent) (p : Piece) : Act Unit := do
  match p.place with
  | .ls dest part .. => if flowBusy (← get) part ag.phys dest then stallAct
  | .mem pa =>
    if !ag.hw && isDram pa then modify (touchRegion ag.phys p.psh pa)
    let s ← get
    let home := !p.cacheable || (lineAt s (clusterOf ag.phys) (pa / 64)).isNone
    if ownedFor s ag.phys (pa / 64) home then stallAct
    if home then
      touchPa ag pa
      if p.cacheable then sampleFree ag.phys ag.part 1 0
      awaitCombine (pa / 64)

/-- The address of a piece in memory. -/
def Piece.pa? (p : Piece) : Option Nat := match p.place with | .mem pa => some pa | _ => none

/-- Whether a piece lies outside the device's memory (R209). -/
def Piece.outside (p : Piece) : Bool := match p.place with | .mem pa => !insideDevice pa | _ => false

/-- Whether a piece lies in a partition register block (R381). -/
def Piece.inRegs (p : Piece) : Bool :=
  match p.place with
  | .mem pa => match paKind pa with | .regs .. => true | _ => false
  | _ => false

/-- Open an access: checks 3 to 9 of R199, stash fills, the wait for banks and owned lines. `outside` lets memory outside
the device through (check 8); the register block is no place for an ordinary access (R381). -/
def openAccess (ag : Agent) (w : Waiter) (cls : AccessClass) (need : Need) (outside : Bool) (va : Word) (n : Nat) :
    Act (List Piece) := do
  let ps ← resolve ag w need va n
  if ps.any Piece.inRegs then trapAct 0x09 va
  if !outside && ps.any Piece.outside then trapAct 0x09 va
  detCheck ag cls va ps
  ps.forM (stashFill ag w)
  ps.forM (touchData ag)
  return ps

/-! ### Performing pending accesses (R219, R259) -/

/-- How many bytes a pending access concerns. -/
def PendAcc.width (q : PendAcc) : Nat :=
  match q.kind with
  | .store bytes => bytes.length
  | .rmw _ n _ => n
  | .red _ n _ _ => n
  | .flush => 64
  | .inval => 64

/-- A store, atomic or reduction, not a cache operation. -/
def PendAcc.isData (q : PendAcc) : Bool := match q.kind with | .flush => false | .inval => false | _ => true

/-- Perform a reduction: at the banks of a window at once, else into the core's update-only copy, or the pending partial
at the home for an uncached page (R211), with the tags of R213. `self` says that the first context of the core does it, whose
own transaction it does not meet. -/
def redAt (phys part : Nat) (det self cacheable : Bool) (scope : Scope) (op : RmwOp) (size : Nat) (v : Word) (ord : Bool)
    (p : Place) (s : State) : State :=
  match p with
  | .ls .. => (rmwAt phys part det self cacheable scope op size v p s).2
  | .mem pa =>
    let cl := clusterOf phys
    let line := pa / 64
    let home := if rmwAtCluster scope cacheable then some cl else none
    let s := if !cacheable then s else if home.isNone then dropLine cl line s else recallStash cl line s
    let s := meetTxns cl line true (if self then some phys else none) s
    let s := if det && ord then
        { s with
          detTags := if s.detTags.contains line then s.detTags else line :: s.detTags
          foreignMarks := s.foreignMarks.filter (· != line) }
      else s
    let c : Partial := ⟨pa, home, part, (coreAt s phys).lcore.toNat, op, size, ord, some scope, v⟩
    if cacheable then onCore phys (fun k => { k with upd := mergePartial c k.upd }) s
    else { s with partials := mergePartial c s.partials }

/-- The stash lines of a core that copy a global line are written back, and removed if asked. -/
def flushStash (phys line : Nat) (remove : Bool) (s : State) : State :=
  ((coreAt s phys).stashLines.filter (·.line == line)).foldl (fun s l => stashWriteBack phys l remove s) s

/-- cflush on a line (R202). -/
def flushAt (phys : Nat) (scope : Scope) (p : Place) (s : State) : State :=
  match p with
  | .ls .. => s
  | .mem pa =>
    let line := pa / 64
    let cl := clusterOf phys
    match scope with
    | .core => s
    | .row | .clus =>
      combineCluster cl line (flushStash phys line false s)
    | _ =>
      let s := combineCluster cl line (flushStash phys line false s)
      if isHost pa && scope != .sys then s else reachHome line (writeBack cl line s)

/-- cinval on a line (R203); the L1 instruction copy goes at every scope (R268). -/
def invalAt (phys : Nat) (scope : Scope) (p : Place) (s : State) : State :=
  match p with
  | .ls .. => s
  | .mem pa =>
    let line := pa / 64
    let s := onCore phys (fun c =>
      { c with l1d := c.l1d.filter (· != line), icache := c.icache.filter (·.1 != line) }) s
    match scope with
    | .core => s
    | .row | .clus => combineCluster (clusterOf phys) line (flushStash phys line true s)
    | _ => reachHome line (invalLine (clusterOf phys) line (flushStash phys line true s))

/-- Whether a pending access must read a bad line (R195): a store of part of it, an atomic, or a reduction. -/
def readsBad (s : State) (q : PendAcc) : Bool :=
  badAt s q.place &&
    (match q.kind with
    | .store bytes => bytes.length < 64
    | .rmw .. => true
    | .red .. => true
    | _ => false)

/-- Whether a pending access goes to the allocation of a group that has exited (R178). -/
def tooLate (s : State) (q : PendAcc) : Bool :=
  match q.place with
  | .mem _ => false
  | .ls phys part gid _ => (allocOf (coreAt s phys) part gid).isNone

/-- A trap that a context takes at its next instruction boundary, behind those that already wait there. -/
def deferTrap (phys ctx : Nat) (d : Deferred) (s : State) : State :=
  onCtx phys ctx (fun x => { x with deferred := x.deferred ++ [d] }) s

/-- The stash line under a pending access to a local store is filled again if it has left since the issue (R179). -/
def refillPend (phys : Nat) (q : PendAcc) : Act Unit := do
  if q.isData then
    stashFill { agentAt (← get) phys q.ctx with hw := true } .hw ⟨q.place, q.cacheable, q.width, q.va, false, q.device, 12⟩

/-- Perform an access of a core at its place. One that must read a bad line performs nothing, and a machine error waits for the
context's next boundary (R195). -/
def performAt (phys : Nat) (q : PendAcc) (s : State) : State :=
  let part := corePart (coreAt s phys)
  if readsBad s q then deferTrap phys q.ctx ⟨0x17, badEval q.va, 0⟩ s
  else match q.kind with
  | .store bytes => storeAt phys part q.det (q.ctx == 0) q.cacheable q.place bytes s
  | .rmw op n v => (rmwAt phys part q.det (q.ctx == 0) q.cacheable q.scope op n v q.place s).2
  | .red op n v ord => redAt phys part q.det (q.ctx == 0) q.cacheable q.scope op n v ord q.place s
  | .flush => flushAt phys q.scope q.place s
  | .inval => invalAt phys q.scope q.place s

/-- Perform a pending access of a core, its stash line filled first. The trap of that fill, and of an access that comes after its
peer group's exit (R178), waits for the context's next boundary; one whose fill must wait stays pending. -/
def performPend (phys : Nat) (q : PendAcc) (s : State) : State :=
  if tooLate s q then deferTrap phys q.ctx ⟨0x0A, q.va, 0⟩ s
  else
    match refillPend phys q s with
    | .ok _ s => performAt phys q s
    | .error (.trap c v x) s => deferTrap phys q.ctx ⟨c, v, x⟩ s
    | .error _ s => onCore phys (fun c => { c with pend := c.pend ++ [q] }) s

/-- The line whose host copy a performed access must first see invalidated (R442): one that writes at the home of device memory, or
that takes the cluster's stored bytes there. -/
def PendAcc.homeLine (q : PendAcc) : Option Nat :=
  match q.place, q.kind with
  | .ls .., _ => none
  | .mem pa, .store _ => if q.cacheable then none else some (pa / 64)
  | .mem pa, .rmw .. => if rmwAtCluster q.scope q.cacheable then none else some (pa / 64)
  | .mem pa, .red .. => if rmwAtCluster q.scope q.cacheable then none else some (pa / 64)
  | .mem pa, _ => match q.scope with | .core | .row | .clus => none | _ => some (pa / 64)

/-- Whether a copy channel owns the line that a pending access of a core reaches (R263), an earlier packet of its flow is on its
way (R445), or its peer is being replaced (R379). -/
def PendAcc.blocked (q : PendAcc) (phys : Nat) (s : State) : Bool :=
  match q.place with
  | .mem pa => ownedFor s phys (pa / 64) (q.homeLine.isSome || !q.cacheable || (lineAt s (clusterOf phys) (pa / 64)).isNone)
  | .ls dest part .. => flowBusy s part phys dest || (dest != phys && inTransit s part dest)

/-- A pending access may be performed: no channel owns its line (R263), no host copy stands in its way (R442), its stash line need
not be waited for (R179). -/
def awaitPend (phys : Nat) (q : PendAcc) : Act Unit := do
  if q.blocked phys (← get) then stallAct
  match q.homeLine with | some line => awaitHost line | none => pure ()
  fun s =>
    match refillPend phys q s with
    | .error (.stall p) s => .error (.stall p) s
    | .error _ _ => .ok () s
    | .ok _ s => .ok () s

/-- Perform every store, atomic and reduction of a context that is pending, in program order; of a deterministic task those
of every context of the core, in issue order. They may be performed at any time (R259). -/
def performOwn (ag : Agent) : Act Unit := do
  let s ← get
  let own := fun (q : PendAcc) => (ag.det || q.ctx == ag.ctx) && q.isData
  let mine := (coreAt s ag.phys).pend.filter own
  if mine.isEmpty then pure ()
  else
    mine.forM (awaitPend ag.phys)
    let s := onCore ag.phys (fun c => { c with pend := c.pend.filter (fun q => !own q) }) (← get)
    set (mine.foldl (fun s q => performPend ag.phys q s) s)

/-- Whether a proxy atomic of an agent to bytes of a place still waits at a control core; an access to a device page waits for any
(R368). -/
def proxyWaits (s : State) (ag : Agent) (p : Piece) : Bool :=
  (List.finRange 4).any (fun (d : Fin 4) => (s.dies.get d).proxies.any (fun q =>
    q.phys == ag.phys && (ag.det || q.ctx == ag.ctx) && (p.device || p.place.meets p.len (.mem q.pa) q.size)))

/-- Whether n bytes at an address touch a line within the byte envelope of a vector instruction (R238). -/
def VxOp.spans (q : VxOp) (va : Word) (n : Nat) : Bool :=
  q.span.any (fun r => r.1 ≤ (va.toNat + n - 1) / 64 && va.toNat / 64 ≤ r.2)

/-- Whether an element access of a vector instruction lies at bytes of a place, under whatever address (R200). -/
def VxOp.meets (q : VxOp) (p : Piece) : Bool :=
  q.placed.any (fun x => x.2.any (fun y => y.2.any (fun e => e.place.meets e.len p.place p.len)))

/-- Whether an earlier vector instruction of a context that its context has gone past spans bytes of an access (R200, R238). -/
def vectorSpans (s : State) (phys ctx : Nat) (p : Piece) : Bool :=
  (coreAt s phys).vxq.any (fun q => q.passed && q.vrec.ctx == ctx && (q.spans p.va p.len || q.meets p))

/-- A later access of a context to a location waits for its own proxy atomic on it (R200, R209), and for its own vector
instruction whose records span its line (R238); the engines' accesses are no later ones. -/
def awaitProxies (ag : Agent) (ps : List Piece) : Act Unit := do
  let s ← get
  if ps.any (proxyWaits s ag) then stallAct
  if !ag.elems && ps.any (vectorSpans s ag.phys ag.ctx) then stallAct

/-- A read of a context sees its own earlier writes (R200, R259): those to the same bytes are performed first, and before an access
to a device page every earlier one to device pages (R368). -/
def performMeeting (ag : Agent) (ps : List Piece) : Act Unit := do
  awaitProxies ag ps
  let s ← get
  if (coreAt s ag.phys).pend.any (fun q => (ag.det || q.ctx == ag.ctx) && q.isData &&
      ps.any (fun p => (p.device && q.device) || p.place.meets p.len q.place q.width)) then
    performOwn ag
  else pure ()

/-- Queue an access of a context to be performed later (R259). A deterministic task's accesses are performed in the order
in which the contexts of its core issue (R38, R333): at once, unless the host must first give up the line. -/
def pendPush (ag : Agent) (scope : Scope) (kind : AccKind) (tied : Bool) (va : Word) (p : Piece) : Act Unit :=
  modify (fun s =>
    let q : PendAcc := ⟨ag.ctx, p.place, p.cacheable, p.device, tied, ag.det, va, scope, kind⟩
    if ag.det && (coreAt s ag.phys).pend.isEmpty && !q.homeLine.any s.hostLines.contains && !q.blocked ag.phys s then performPend ag.phys q s
    else onCore ag.phys (fun c => { c with pend := c.pend ++ [q] }) s)

/-! ### Transactions (R224) -/

/-- Whether an access is inside an open transaction: only the control context's are (R224). -/
def inTxn (s : State) (ag : Agent) : Bool := ag.ctx == 0 && (coreAt s ag.phys).txn.isSome

/-- Add to the read or write set the lines of pieces that lie in device memory; elsewhere the transaction aborts with
reason 7, beyond the limits with reason 2 (R224). -/
def txnTouch (ag : Agent) (write : Bool) (ps : List Piece) : Act Unit :=
  ps.forM (fun p => do
    match p.place with
    | .ls .. => throw (.abort 7 0)
    | .mem pa =>
      if !isDram pa then throw (.abort 7 0)
      let s ← get
      match (coreAt s ag.phys).txn with
      | none => pure ()
      | some t =>
        let line := pa / 64
        let rd := if write || t.rd.contains line then t.rd else t.rd ++ [line]
        let wr := if write && !t.wr.contains line then t.wr ++ [line] else t.wr
        if rd.length > 64 || wr.length > 16 then throw (.abort 2 0)
        set (onCore ag.phys (fun c => { c with txn := some { t with rd := rd, wr := wr } }) s))

/-- A byte as the transaction's own context sees it. -/
def txnByte (s : State) (phys : Nat) (p : Piece) (i : Nat) : Byte :=
  match p.place.plus i, (coreAt s phys).txn with
  | .mem pa, some t =>
    match t.bytes.find? (·.1 == pa) with
    | some b => b.2
    | none => placeByte s phys p.cacheable (.mem pa)
  | q, _ => placeByte s phys p.cacheable q

/-- A store or atomic inside a transaction: the bytes as the context sees them, newest first, and what the commit performs
(R224, R226). -/
def txnPut (ag : Agent) (scope : Scope) (kind : AccKind) (va : Word) (p : Piece) (bytes : List Byte) : Act Unit :=
  match p.place with
  | .ls .. => pure ()
  | .mem pa => modify (onCore ag.phys (fun c =>
      { c with txn := c.txn.map (fun t =>
        { t with
          bytes := (cellsOf pa bytes).reverse ++ t.bytes
          writes := t.writes ++ [⟨ag.ctx, p.place, p.cacheable, p.device, false, ag.det, va, scope, kind⟩] }) }))

/-! ### Loads and stores -/

/-- A dword as bytes. -/
def dwBytes (w : Word) : List Byte := leBytes 8 w.toNat

/-- What a load brought: the bytes, whether it is a long-latency producer (R63), whether a line of it is bad (R194), the package
that they come from, if another (R444). -/
structure Loaded where
  bytes : List Byte
  slow : Bool
  bad : Bool
  package : Option Nat

/-- Whether an access to a window address goes through the peer window. -/
def isPeer (va : Word) : Bool := inWindows va && va.toNat % 2 ^ 48 ≥ 0x20000

/-- A load misses the L1 unless every line of it has an L1 copy (R63). -/
def missesL1 (s : State) (phys : Nat) (ps : List Piece) : Bool :=
  ps.any (fun p => match p.place with
    | .ls .. => false
    | .mem pa => !p.cacheable || !(coreAt s phys).l1d.contains (pa / 64) || (lineAt s (clusterOf phys) (pa / 64)).isNone)

/-- The lines of a load have L1 copies afterwards. -/
def fillL1 (phys : Nat) (ps : List Piece) (s : State) : State :=
  ps.foldl (fun s p => match p.place with
    | .ls .. => s
    | .mem pa =>
      if p.cacheable then onCore phys (fun c => { c with l1d := intoL1 id (pa / 64) c.l1d }) s
      else s) s

/-- Whether a piece lies in a bad line. -/
def Piece.isBad (s : State) (p : Piece) : Bool := badAt s p.place

/-- Whether a line of pieces is bad. -/
def anyBad (s : State) (ps : List Piece) : Bool := ps.any (·.isBad s)

/-- The machine error of an engine that meets a bad line (R194). -/
def checkBad (whole : Bool) (ps : List Piece) : Act Unit := do
  let s ← get
  match ps.find? (fun p => p.isBad s && !(whole && p.len == 64)) with
  | some p => trapAct 0x17 (badEval p.va)
  | none => pure ()

/-- The bytes of pieces as a context of a core reads them now. -/
def piecesBytes (s : State) (ag : Agent) (ps : List Piece) : List Byte :=
  if inTxn s ag then ps.flatMap (fun p => (List.range p.len).map (fun i => txnByte s ag.phys p i))
  else ps.flatMap (fun p => placeBytes s ag.phys p.cacheable p.place p.len)

/-- The reads of pieces reach their places. -/
def reachPieces (ag : Agent) (ps : List Piece) (s : State) : State :=
  ps.foldl (fun s p => readAt ag.phys ag.part ag.self p.cacheable p.place s) s

/-- Load n bytes (R197 to R200). One that is no long-latency producer takes the machine error of a bad line itself (R63, R175,
R194). -/
def loadAct (ag : Agent) (va : Word) (n : Nat) : Act Loaded := do
  let ps ← openAccess ag (.ctx ag.phys ag.ctx) .load needR true va n
  performMeeting ag ps
  if inTxn (← get) ag then txnTouch ag false ps
  let s := reachPieces ag ps (← get)
  set s
  let slow := isPeer va || missesL1 s ag.phys ps
  if !slow then checkBad false ps
  let bad := anyBad s ps
  set (fillL1 ag.phys ps s)
  return ⟨piecesBytes s ag ps, slow, bad, ps.findSome? (fun p => p.pa?.bind packageOf)⟩

/-- Store parts of bytes one after the other. -/
def forParts (ps : List Piece) (bytes : List Byte) (f : Nat → Piece → List Byte → Act Unit) : Act Unit := do
  let _ ← ps.foldlM (fun off p => do
    f off p (slice bytes off p.len)
    return off + p.len) 0

/-- Store bytes: performed later, its parts in ascending order (R197, R198, R259). A store to a line that the stash maps is
performed with its fill, in one step (R179). -/
def storeAct (ag : Agent) (va : Word) (bytes : List Byte) : Act Unit := do
  let ps ← openAccess ag (.ctx ag.phys ag.ctx) .store needW true va bytes.length
  let s ← get
  if inTxn s ag then
    txnTouch ag true ps
    awaitProxies ag ps
    checkBad true ps
    forParts ps bytes (fun _ p b => txnPut ag .core (.store b) va p b)
  else if ps.any (fun p => (stashEntryAt s p.place).isSome) then
    performMeeting ag ps
    checkBad true ps
    forParts ps bytes (fun _ p b => modify (storeAt ag.phys ag.part ag.det ag.self p.cacheable p.place b))
  else
    awaitProxies ag ps
    forParts ps bytes (fun off p b => pendPush ag .core (.store b) (off != 0) va p)

/-- Read n bytes for an engine or the hardware as an access of a context (R200): pending writes to them first. A bad line
gives the machine error at once. -/
def readMem (ag : Agent) (w : Waiter) (cls : AccessClass) (va : Word) (n : Nat) : Act (List Byte) := do
  let ps ← openAccess ag w cls needR true va n
  performMeeting ag ps
  let s := reachPieces ag ps (← get)
  set s
  checkBad false ps
  return ps.flatMap (fun p => placeBytes s ag.phys p.cacheable p.place p.len)

/-- A write through pieces at their homes waits while the host may hold their lines (R442). -/
def awaitHosts (ps : List Piece) : Act Unit :=
  ps.forM (fun p => match p.place with
    | .mem pa => if p.cacheable then pure () else awaitHost (pa / 64)
    | .ls .. => pure ())

/-- Write bytes for an engine or the hardware at once. -/
def writeMem (ag : Agent) (w : Waiter) (cls : AccessClass) (va : Word) (bytes : List Byte) : Act Unit := do
  let ps ← openAccess ag w cls needW true va bytes.length
  performMeeting ag ps
  checkBad true ps
  awaitHosts ps
  forParts ps bytes (fun _ p b => modify (storeAt ag.phys ag.part ag.det ag.self p.cacheable p.place b))

/-- A copy channel writes bytes of one line (R263, R265): at the home, with the issuing cluster's copy written back and
dropped, or at the banks of a local store. -/
def storeThrough (phys part : Nat) (det : Bool) (p : Place) (bytes : List Byte) (s : State) : State :=
  match p with
  | .ls .. => storeAt phys part det true false p bytes s
  | .mem pa =>
    let cl := clusterOf phys
    let s := meetTxns cl (pa / 64) true none (foreignStore det (pa / 64) s)
    homeWrite (cellsOf pa bytes) (dropLine cl (pa / 64) s)

/-- Write a field of a transfer record (R265): it waits for its page, bank and line; what fails is recorded (R297). -/
def putTransfer (phys : Nat) (o : OwedWrite) : Act Unit := fun s =>
  let ag : Agent := ⟨phys, 0, o.part, false, 0, true, false, true⟩
  let put : Act Unit := do
    let ps ← openAccess ag .hw .other needW true (o.rcd + BitVec.ofNat 64 o.off) 8
    performMeeting ag.onElems ps
    checkBad true ps
    awaitHosts (ps.map (fun p => { p with cacheable := false }))
    forParts ps (dwBytes o.value) (fun _ p b => modify (storeThrough phys o.part false p.place b))
  match put s with
  | .error (.stall p) s => .error (.stall p) s
  | .error _ s => .ok () (record (dieOf phys) 0x011 o.part phys o.rcd 0 s)
  | .ok _ s => .ok () s

/-- The writes into transfer records that wait on a core are made, as far as they can be. -/
def payOwed (phys : Nat) (s : State) : State :=
  (coreAt s phys).owes.foldl (fun s o =>
    match putTransfer phys o s with
    | .ok _ s => onCore phys (fun c => { c with owes := c.owes.erase o }) s
    | .error _ s => s) s

/-- A write into a transfer record that its channel does not wait for (R297, R298). -/
def oweTransfer (phys : Nat) (o : OwedWrite) (s : State) : State :=
  payOwed phys (onCore phys (fun c => { c with owes := c.owes ++ [o] }) s)

/-! ### Atomics and reductions -/

/-- Whether a scope is .sys. -/
def isSys (scope : Scope) : Bool := match scope with | .sys => true | _ => false

/-- The lane of a proxy atomic (R209). -/
def proxyLane (pa : Nat) : Nat := nbits pa 9 6 ^^^ nbits pa 13 10 ^^^ nbits pa 17 14

/-- Send a proxy atomic to the die's control core (R209). -/
def sendProxy (ag : Agent) (va : Word) (pa : Nat) (op : RmwOp) (size : Nat) (v : Word) (returns : Bool) (s : State) : State :=
  let d := dieOf ag.phys
  if h : d < 4 then
    { s with dies := s.dies.set d { s.dies[d] with
        proxies := s.dies[d].proxies ++ [⟨proxyLane pa, ag.phys, ag.ctx, ag.part, ag.priv != 0, va, pa, op, size, v, returns⟩] } }
  else s

/-- A proxy atomic of a context (R209): sent; if the context waits for the old value it stalls until it comes back. -/
def proxyAct (ag : Agent) (va : Word) (pa : Nat) (op : RmwOp) (size : Nat) (v : Word) (waits : Bool) : Act Word := do
  let s ← get
  if waits then
    set (setAwait (.ctx ag.phys ag.ctx) .proxy (sendProxy ag va pa op size v true s))
    stallAct
  else
    set (sendProxy ag va pa op size v false s)
    return 0

/-- What has become of the proxy atomic that a context waits for: nothing if it waits for none. -/
def proxyAnswer (ag : Agent) : Act (Option Word) := do
  let s ← get
  let w := Waiter.ctx ag.phys ag.ctx
  match awaitOf s w with
  | .proxyDone old =>
    set (setAwait w .nothing s)
    return some old
  | .proxyTrap c e i =>
    set (setAwait w .nothing s)
    trapAct c e i
  | .proxy => stallAct
  | _ => return none

/-- An access of the register block that R381 allows: amo.swap.d.sys, or amo.or.d.sys with a zero operand. -/
def regAccessOk (op : RmwOp) (size : Nat) (scope : Scope) (v : Word) : Bool :=
  size == 8 && isSys scope && (op == .swap || (op == .or && v == 0))

/-- An atomic inside a transaction (R224): performed at the commit, at its place. Its old value is the one that the place and
the transaction's own bytes give now; at .die and above the cluster's copy is first written back and dropped (log entry 76). -/
def txnAtomic (ag : Agent) (scope : Scope) (op : RmwOp) (size : Nat) (va v : Word) (p : Piece) : Act Word := do
  let near := rmwAtCluster scope p.cacheable
  match p.pa? with
  | some pa => if p.cacheable && !near then modify (dropLine (clusterOf ag.phys) (pa / 64))
  | none => pure ()
  let q := { p with cacheable := near }
  modify (reachPieces ag [q])
  checkBad false [q]
  let old := BitVec.ofNat 64 (leNat (piecesBytes (← get) ag [q]))
  txnPut ag scope (.rmw op size v) va p (leBytes size (rmwApply op size old v).toNat)
  return old

/-- An amo or cas (R205 to R210), after the operand reads: the old value. `returns` says that d is not s0, or a cas. -/
def atomicAct (ag : Agent) (scope : Scope) (op : RmwOp) (size : Nat) (va v : Word) (returns : Bool) : Act Word := do
  if va.toNat % size ≠ 0 then trapAct 0x05 va
  let w := Waiter.ctx ag.phys ag.ctx
  let ps ← resolve ag w needRW va size
  match ps with
  | [] => return 0
  | p :: _ =>
    if p.inRegs then
      if !regAccessOk op size scope v then trapAct 0x09 va
      if inTxn (← get) ag then throw (.abort 7 0)
      proxyAct ag va (p.pa?.getD 0) op size v returns
    else
      if p.outside && !isSys scope then trapAct 0x09 va
      let cls := if returns then AccessClass.returning else .update op.orderFree
      detCheck ag cls va ps
      stashFill ag w p
      touchData ag { p with cacheable := rmwAtCluster scope p.cacheable }
      if inTxn (← get) ag then
        txnTouch ag false ps
        txnTouch ag true ps
        performMeeting ag ps
        txnAtomic ag scope op size va v p
      else if p.outside then
        performMeeting ag ps
        proxyAct ag va (p.pa?.getD 0) op size v returns
      else if returns then
        performMeeting ag ps
        if anyBad (← get) ps then trapAct 0x17 (badEval va)
        match p.pa? with
        | some pa => if !rmwAtCluster scope p.cacheable then awaitHost (pa / 64)
        | none => pure ()
        let (old, s) := rmwAt ag.phys ag.part ag.det ag.self p.cacheable scope op size v p.place (← get)
        set s
        return old
      else if (stashEntryAt (← get) p.place).isSome then
        performMeeting ag ps
        checkBad false ps
        modify (fun s => (rmwAt ag.phys ag.part ag.det ag.self p.cacheable scope op size v p.place s).2)
        return 0
      else
        awaitProxies ag ps
        pendPush ag scope (.rmw op size v) false va p
        return 0

/-- A red (R211), after the operand reads. -/
def redAct (ag : Agent) (scope : Scope) (op : RmwOp) (size : Nat) (ord : Bool) (va v : Word) : Act Unit := do
  if va.toNat % size ≠ 0 then trapAct 0x05 va
  let w := Waiter.ctx ag.phys ag.ctx
  let ps ← resolve ag w needRW va size
  match ps with
  | [] => pure ()
  | p :: _ =>
    if p.inRegs then trapAct 0x09 va
    if p.outside && (!isSys scope || ord) then trapAct 0x09 va
    detCheck ag (.update (ord || op.orderFree)) va ps
    stashFill ag w p
    touchData ag { p with cacheable := rmwAtCluster scope p.cacheable }
    if p.outside then
      performMeeting ag ps
      let _ ← proxyAct ag va (p.pa?.getD 0) op size v false
    else if (stashEntryAt (← get) p.place).isSome then
      performMeeting ag ps
      checkBad false ps
      modify (redAt ag.phys ag.part ag.det ag.self p.cacheable scope op size v ord p.place)
    else
      awaitProxies ag ps
      pendPush ag scope (.red op size v ord) false va p

/-- cflush or cinval on the line of an address (R202 to R204): nothing for a window address; checks 3 to 9 without the
alignment check, then performed later. -/
def cacheAct (ag : Agent) (scope : Scope) (inval : Bool) (va : Word) : Act Unit := do
  if inWindows va then pure ()
  else
    let ps ← resolve ag (.ctx ag.phys ag.ctx) needR va 1
    if ps.any Piece.inRegs then trapAct 0x09 va
    match ps with
    | [] => pure ()
    | p :: _ =>
      awaitProxies ag ps
      pendPush ag scope (if inval then .inval else .flush) false va { p with place := p.place.line }

/-! ### Fences (R219) -/

/-- Whether a pending access of a context holds up a fence of a scope. -/
def PendAcc.holds (q : PendAcc) (i : Nat) (scope : Scope) : Bool :=
  q.ctx == i && (q.isData || q.scope.code ≤ scope.code)

/-- Whether every earlier access of a context is performed at a scope (R219). -/
def accessesDone (s : State) (phys i : Nat) (scope : Scope) : Bool :=
  !(coreAt s phys).pend.any (·.holds i scope) &&
    !(List.finRange 4).any (fun (d : Fin 4) => (s.dies.get d).proxies.any (fun q => q.phys == phys && q.ctx == i))

/-- Whether the earlier matrix and vector instructions of a context are complete (R138, R238). -/
def enginesDone (s : State) (phys i : Nat) : Bool :=
  let c := coreAt s phys
  !c.vxq.any (·.vrec.ctx == i) && (i != 0 || c.mxq.isEmpty)

/-- Wait as fence.scope does (R219). -/
def fenceAct (ag : Agent) (scope : Scope) : Act Unit := do
  let s ← get
  if !accessesDone s ag.phys ag.ctx scope || !enginesDone s ag.phys ag.ctx then stallAct

end Sys2Proof.Machine
end

