-- ==== Sys2Proof/Machine/FoldStore.lean ====
section
/-!
DEFINITION. The contents of the Fold Stores (R336 to R348): folds and magnitudes, eligibility and the choice of a take,
quotas, homes, the counts of a slot, and what a slot adds to its launch's population (R340).
-/

namespace Sys2Proof.Machine

/-! ### Partitions as the store sees them -/

/-- The clusters of a partition in ring order: by their lowest logical core (R346). -/
def ringOf (p : Partition) : List Nat :=
  p.ranks.foldl (fun l r => if r.valid && !l.contains (clusterOf r.phys) then l ++ [clusterOf r.phys] else l) []

/-- Whether the quantum rules apply in a partition (R38, R40). -/
def quantumRules (p : Partition) : Bool := p.det || p.launches.any (·.det)

/-- The ring index of a cluster in a partition (R346). -/
def ringIndex (p : Partition) (cl : Nat) : Nat := ((ringOf p).findIdx? (· == cl)).getD 0

/-! ### Folding (R342) -/

/-- Operators whose values are FP32 (R342). -/
def foldIsFloat (op : Nat) : Bool := [0, 2, 3, 7].contains op

/-- Operators whose values fdrain sign-extends (R353). -/
def foldIsSigned (op : Nat) : Bool := [1, 4, 5, 8, 9].contains op

/-- Fold(old, v) (R342); a NaN that last.f32 delivers is the canonical one, as of every floating-point result (R96). -/
def foldVal (op : Nat) (old v : W32) : W32 :=
  match op with
  | 0 => BitVec.ofNat 32 (fp32.deliver rne (sumExact 0 [fp32.read old.toNat, fp32.read v.toNat])).1
  | 1 => old + v
  | 2 => BitVec.ofNat 32 (minMaxBits fp32 false old.toNat v.toNat).1
  | 3 => BitVec.ofNat 32 (minMaxBits fp32 true old.toNat v.toNat).1
  | 4 => if v.slt old then v else old
  | 5 => if old.slt v then v else old
  | 6 => old ||| v
  | 7 => if (fp32.read v.toNat).isNan then BitVec.ofNat 32 fp32.nanBits else v
  | 9 => BitVec.ofInt 32 (max (-2147483648) (min 2147483647 (old.toInt + v.toInt)))
  | _ => v

/-- The magnitude of FP32 bits over 2^149: infinity above every finite value, every NaN above infinity (R342). -/
def floatMag (bits : Nat) : Nat :=
  match fp32.read bits with
  | .nan _ => 2 ^ 301
  | .inf _ => 2 ^ 300
  | .fin _ m e => m * 2 ^ (e + 149).toNat

/-- The magnitude of a value by its operator, over 2^149 (R342). -/
def foldMag (op : Nat) (x : W32) : Nat :=
  if foldIsFloat op then floatMag x.toNat
  else if op = 6 then popcount 32 x.toNat * 2 ^ 149
  else x.toInt.natAbs * 2 ^ 149

/-- A threshold in the operator's domain (R345). -/
def thrMag (op : Nat) (x : W32) : Nat := if foldIsFloat op then floatMag x.toNat else x.toNat * 2 ^ 149

/-! ### Slots of a store -/

/-- The declaration of a slot of a partition (R339). -/
def declOf (p : Partition) (slot : Nat) : Option Decl := findBy Decl.slot slot p.decls

/-- What a store keeps for a declared slot; its threshold is the declaration's until one is written. -/
def slotStateOf (c : Cluster) (part : Nat) (d : Decl) : SlotState :=
  (c.slots.find? (fun k => k.part == part && k.slot == d.slot)).getD ⟨part, d.slot, d.thr, 0, 0, 0, [], false⟩

/-- Change what a store keeps for a slot. -/
def onSlot (cl part : Nat) (d : Decl) (f : SlotState → SlotState) (s : State) : State :=
  onCluster cl (fun c =>
    { c with slots := f (slotStateOf c part d) :: c.slots.filter (fun k => !(k.part == part && k.slot == d.slot)) }) s

/-- Spill records of a slot pending at a store (R347). -/
def SlotState.pending (k : SlotState) : Nat := k.tail - k.head

/-- Whether an entry is eligible under its slot's threshold (R345). -/
def eligible (c : Cluster) (part : Nat) (d : Decl) (e : FoldEntry) : Bool :=
  e.part == part && e.slot == d.slot && thrMag d.op (slotStateOf c part d).thr ≤ foldMag d.op e.value

/-- Whether one entry goes before another in a take: greater magnitude, then smaller key, then lower slot (R345). -/
def takenBefore (x y : Nat × FoldEntry) : Bool :=
  y.1 < x.1 || (x.1 == y.1 && (x.2.key < y.2.key || (x.2.key == y.2.key && x.2.slot < y.2.slot)))

/-- The entry that a take of some slots chooses in a store (R345). -/
def chooseEntry (c : Cluster) (p : Partition) (slots : List Nat) : Option FoldEntry :=
  let cands := c.fold.filterMap (fun e =>
    if slots.contains e.slot then
      (declOf p e.slot).bind (fun d => if eligible c p.tag d e then some (foldMag d.op e.value, e) else none)
    else none)
  (cands.foldl (fun best x => match best with
    | none => some x
    | some b => if takenBefore x b then some x else some b) none).map (·.2)

/-- Remove an entry from a store. -/
def removeEntry (cl : Nat) (e : FoldEntry) (s : State) : State :=
  onCluster cl (fun c =>
    { c with fold := c.fold.filter (fun x => !(x.part == e.part && x.slot == e.slot && x.key == e.key)) }) s

/-! ### Quotas (R337, R338) and homes (R346) -/

/-- The partitions that hold cores in a cluster. -/
def partsIn (s : State) (cl : Nat) : List Partition := s.parts.filter (fun p => (ringOf p).contains cl)

/-- The default quota of a cluster: what the set quotas leave, shared and rounded down to 1,024 (R337, R338). -/
def defaultQuota (s : State) (cl : Nat) : Nat :=
  let c := clusterAt s cl
  let ps := partsIn s cl
  let fixed := ps.filterMap (fun p => (c.quotas.find? (·.1 == p.tag)).map (·.2))
  let n := ps.length - fixed.length
  if n = 0 then 0 else (65536 - fixed.sum) / n / 1024 * 1024

/-- The quota Q of a partition in a cluster's store. -/
def quotaOf (s : State) (cl part : Nat) : Nat :=
  (((clusterAt s cl).quotas.find? (·.1 == part)).map (·.2)).getD (defaultQuota s cl)

/-- The valid entries of a partition in a store. -/
def foldCount (s : State) (cl part : Nat) : Nat := ((clusterAt s cl).fold.filter (·.part == part)).length

/-- Whether a store is full for a partition (R337, R338). -/
def storeFull (s : State) (cl part : Nat) : Bool :=
  quotaOf s cl part ≤ foldCount s cl part || 65536 ≤ (clusterAt s cl).fold.length

/-- The home store of a key of a slot for a poster's cluster (R346). -/
def foldHome (p : Partition) (d : Decl) (key cl : Nat) : Nat :=
  if d.home = 1 then cl
  else
    let ring := ringOf p
    let h := key * 0x9E3779B97F4A7C15 % 2 ^ 64 / 2 ^ 32
    ring.getD (h * ring.length / 2 ^ 32) cl

/-! ### Population (R340) -/

/-- A post of a slot is on its way to its home, or held to the quantum end (R332). -/
def postInFlight (s : State) (part slot : Nat) : Bool :=
  let mine := fun (q : Post) => q.part == part && q.slot == slot
  s.posts.any mine || (allCores s).any (fun c => c.held.any (fun r => match r.2 with | .post q => mine q | _ => false))

/-- Whether a declared slot holds work in some store: an eligible entry, a spill record, a live event task, or a post in
flight. -/
def slotBusy (s : State) (p : Partition) (d : Decl) : Bool :=
  postInFlight s p.tag d.slot ||
    (ringOf p).any (fun cl =>
      let c := clusterAt s cl
      let k := slotStateOf c p.tag d
      k.pending != 0 || !k.live.isEmpty || c.fold.any (eligible c p.tag d))

/-- Whether a launch has slots that add to its population (R340). -/
def slotsHold (s : State) (p : Partition) (launch : Nat) : Bool :=
  p.decls.any (fun d => d.launch == launch && d.dispatch && slotBusy s p d)

/-- Release a slot with its entries, spill counts, thresholds on their way and Top (R340); a post on its way is refused
(log entry 30). -/
def releaseSlot (part slot : Nat) (s : State) : State :=
  let mine := fun (q : Post) => q.part == part && q.slot == slot
  { onPart part (fun p =>
      { p with decls := p.decls.filter (·.slot != slot), tops := p.tops.filter (·.slot != slot) }) s with
    clusters := s.clusters.map (fun c =>
      { c with
        fold := c.fold.filter (fun e => !(e.part == part && e.slot == slot))
        slots := c.slots.filter (fun k => !(k.part == part && k.slot == slot)) })
    thrs := s.thrs.filter (fun t => !(t.1 == part && t.2.1 == slot))
    posts := s.posts.filter (fun q => !mine q)
    answers := s.answers ++ (s.posts.filter mine).filterMap (fun q => q.answer.map (fun r => ⟨q.part, q.phys, q.ctx, r, 3⟩)) }

/-- Nobody waits any more for the answers of a core's posts. -/
def forgetAnswers (phys : Nat) (s : State) : State :=
  { s with
    posts := s.posts.map (fun q => if q.phys = phys then { q with answer := none } else q)
    answers := s.answers.filter (fun a => a.phys != phys) }

/-- Whether an answer to a post of a core is still to come (R357). -/
def answersDue (s : State) (phys : Nat) : Bool :=
  s.posts.any (fun q => q.phys == phys && q.answer.isSome) || s.answers.any (·.phys == phys)

/-- Requests of contexts that stand at a Fold Store instruction leave the core with them (R355, R357). -/
def dropStanding (c : Core) : Core :=
  { c with held := c.held.filter (fun q => match q.2 with | .fold .. => q.1 != corePart c | _ => true) }

/-- The launch of a request that is held to the quantum end (R332). -/
def HeldReq.launch? : HeldReq → Option Nat
  | .ready e => some e.launch
  | .push e => some e.launch
  | .tdec l .. => some l
  | _ => none

/-- Whether a launch is complete (R317): nothing of it is ready, running, waiting or held, and no slot adds to it. -/
def launchDone (s : State) (p : Partition) (l : Launch) : Bool :=
  l.pop == 0 && !slotsHold s p l.slot &&
    !(allCores s).any (fun c => c.held.any (fun q => q.1 == p.tag && q.2.launch? == some l.slot)) &&
    !s.hwork.any (fun w => match w with
      | .decrement part launch .. => part == p.tag && launch == l.slot
      | .target part launch .. => part == p.tag && launch == l.slot
      | .complete part slot => part == p.tag && slot == l.slot
      | _ => false)

end Sys2Proof.Machine
end

