-- ==== Sys2Proof/Machine/Sched.lean ====
section
/-!
DEFINITION. The scheduler: task records (R313, R314), the clusters that can hold a group (R320), readying (R318, R325),
graph nodes (R323), decrements (R326, R329), launches that complete (R317), group start and exit (R31 to R33, R319).
-/

namespace Sys2Proof.Machine

/-! ### Task records -/

/-- Dword i of a record's bytes. -/
def dwordAt (bytes : List Byte) (i : Nat) : Nat := leNat (slice bytes (8 * i) 8)

/-- The fields of a task record's 64 bytes (R313). -/
def parseTask (b : List Byte) : TaskRec where
  count := (BitVec.ofNat 32 (dwordAt b 0)).toInt
  kind := nbits (dwordAt b 0) 35 32
  prio := nbits (dwordAt b 0) 38 36
  det := nbits (dwordAt b 0) 39 39 == 1
  movable := nbits (dwordAt b 0) 40 40 == 1
  steal := nbits (dwordAt b 0) 42 41
  entry := BitVec.ofNat 64 (dwordAt b 1)
  arg0 := BitVec.ofNat 64 (dwordAt b 2)
  arg1 := BitVec.ofNat 64 (dwordAt b 3)
  word := BitVec.ofNat 64 (dwordAt b 4)
  next := BitVec.ofNat 64 (dwordAt b 5)
  gsize := nbits (dwordAt b 6) 15 0
  limit := nbits (dwordAt b 6) 23 16
  base := nbits (dwordAt b 6) 47 32
  lsize := nbits (dwordAt b 6) 59 48
  save := BitVec.ofNat 64 (dwordAt b 7)

/-- The reserved bits of a task record are zero (R313). -/
def taskReservedOk (b : List Byte) : Bool :=
  nbits (dwordAt b 0) 63 43 == 0 && nbits (dwordAt b 6) 31 24 == 0 && nbits (dwordAt b 6) 63 60 == 0

/-- Whether logical cores base to base + g − 1 all lie in one cluster of the partition. -/
def oneCluster (p : Partition) (base g : Nat) : Bool :=
  match physOf p base with
  | none => false
  | some q => (List.range g).all (fun k => (physOf p (base + k)).any (fun x => clusterOf x == clusterOf q))

/-- A record that breaks no rule of R314. -/
def taskOk (p : Partition) (reserved : Bool) (r : TaskRec) : Bool :=
  reserved && r.kind < 6 && 1 ≤ r.gsize && r.gsize ≤ 192 && 12 ≤ r.limit && r.limit ≤ 32 && !r.entry.getLsbD 0 &&
    bitsOf r.save 5 0 == 0 && r.lsize ≤ 2048 && (!r.movable || r.gsize == 1) &&
    (r.base == 0 || oneCluster p (r.base - 1) r.gsize)

/-! ### Clusters that can hold a group (R319, R320) -/

/-- The assignable cores of a partition in a cluster. -/
def coresIn (p : Partition) (cl : Nat) : List Nat :=
  p.ranks.filterMap (fun r => if r.valid && clusterOf r.phys == cl then some r.phys else none)

/-- Whether a cluster can hold a group of size g (R320). -/
def canHold (p : Partition) (cl g : Nat) : Bool :=
  let cs := coresIn p cl
  cs.length ≥ g && (g % 16 != 0 ||
    ((List.range 12).filter (fun row => (List.range 16).all (fun col => cs.contains (cl * 256 + row * 16 + col)))).length ≥ g / 16)

/-- A ring of clusters from one on, wrapping round. -/
def ringFrom (ring : List Nat) (cl : Nat) : List Nat :=
  match ring.findIdx? (· == cl) with
  | some i => ring.drop i ++ ring.take i
  | none => ring

/-- The cluster whose queue a record readied in a cluster enters (R320). -/
def queueCluster (p : Partition) (cl : Nat) (r : TaskRec) : Option Nat :=
  if r.base ≠ 0 then (physOf p (r.base - 1)).map clusterOf
  else (ringFrom (ringOf p) cl).find? (fun c => canHold p c r.gsize)

/-- Whether a stealing domain around a core contains another (R322). -/
def domainHas (steal home phys : Nat) : Bool :=
  match steal with
  | 0 => rowOf home == rowOf phys
  | 1 => clusterOf home == clusterOf phys
  | 2 => dieOf home == dieOf phys
  | _ => true

/-! ### Reading and readying records -/

/-- A scheduler's access on behalf of a partition, seen from a core. -/
def hwAgent (phys part : Nat) (priv : Nat := 0) : Agent := ⟨phys, 0, part, false, priv, true, false, false⟩

/-- Run an act whose stop is an answer. -/
def attempt {α : Type} (a : Act α) : Act (Except Stop α) := fun s =>
  match a s with
  | .ok x s' => .ok (.ok x) s'
  | .error e s' => .ok (.error e) s'

/-- Read the 64 bytes of a record. -/
def readRecord (ag : Agent) (w : Waiter) (addr : Word) : Act (List Byte) := do
  if addr.toNat % 64 ≠ 0 then trapAct 0x05 addr
  readMem ag w .load addr 64

/-- The bytes of a place at the home of its line, the agent's cluster copy written back and dropped first. -/
def atHome (phys : Nat) (p : Place) (n : Nat) (s : State) : List Byte × State :=
  match p with
  | .mem pa =>
    let s := reachHome (pa / 64) (dropLine (clusterOf phys) (pa / 64) (recallStash (clusterOf phys) (pa / 64) s))
    (memRead s.mem pa n, s)
  | _ => (placeBytes s phys false p n, s)

/-- An access at the home of a place waits while a copy channel owns its line (R263), and a write there, that of the cluster's stored
bytes included, while the host may hold it (R442). -/
def awaitHome (phys : Nat) (write : Bool) (p : Place) : Act Unit := do
  match p with
  | .ls .. => pure ()
  | .mem pa =>
    let s ← get
    if ownedFor s phys (pa / 64) true then stallAct
    if write || unwritten s (clusterOf phys) (pa / 64) || hasPartials (pa / 64) s then awaitHost (pa / 64)

/-- Replace the COUNT of a record at its home. -/
def putCount (ag : Agent) (p : Place) (c : Int) (s : State) : State :=
  storeAt ag.phys ag.part false true false p (leBytes 4 (BitVec.ofInt 32 c).toNat) s

/-- A fresh entry of a record that is readied (R318). -/
def freshEntry (r : TaskRec) (addr : Word) (part launch : Nat) (det : Bool) (peer : Option Nat) : ReadyEntry :=
  ⟨r, addr, .fresh, part, launch, det, none, 0, 0, peer, [], none, 0, 0, addr, none⟩

/-- A dword read, or read and written, by the scheduler at its home (R323). -/
def hwDword (ag : Agent) (need : Need) (addr : Word) : Act (Place × Word) := do
  if addr.toNat % 8 ≠ 0 then trapAct 0x05 addr
  match ← openAccess ag .hw .other need true addr 8 with
  | [] => trapAct 0x07 addr
  | p :: _ =>
    awaitHome ag.phys need.w p.place
    let (b, s) := atHome ag.phys p.place 8 (← get)
    set s
    return (p.place, BitVec.ofNat 64 (leNat b))

/-- The successor of a graph node whose dword holds V, with the dword's new value if the node is a loop that goes on
(R323); none if a switch is given no range. -/
def graphTarget (ag : Agent) (r : TaskRec) (v : Word) : Act (Option Word × Bool) := do
  match r.kind with
  | 2 => return (some (if v ≠ 0 then r.arg0 else r.arg1), false)
  | 3 => return if (0#64).slt v then (some r.arg0, true) else (some r.arg1, false)
  | _ =>
    let n := r.arg1.toNat
    if n = 0 || n > 4096 then return (none, false)
    let (_, t) ← hwDword ag needR (r.arg0 + BitVec.ofNat 64 (8 * min v.toNat (n - 1)))
    return (some t, false)

/-- The cluster in whose queue the target of a graph node enters: the one that the node itself would have entered (R329), or the
readying one where no cluster can hold the node (log entry 79). -/
def nodeCluster (p : Partition) (cl : Nat) (r : TaskRec) : Nat := (queueCluster p cl r).getD cl

/-- Ready a record: a task enters the queue of R320 and its launch's population; a graph node is evaluated at once and
readies its target (R323, R325). A step of the scheduler that must wait for a page is kept as work; what is refused is
recorded (R329). The fuel bounds a chain of nodes. -/
def readyRec (cl phys : Nat) : Nat → ReadyEntry → Act Unit
  | 0, e => modify (hardwareRefused e.part e.launch 0x0C e.addr)
  | fuel + 1, e => do
    let s ← get
    let ag := hwAgent phys e.part
    match partAt s e.part with
    | none => pure ()
    | some p =>
      if e.rcd.kind = 0 then
        match queueCluster p cl e.rcd with
        | none => set (hardwareRefused e.part e.launch 0x09 e.addr s)
        | some q =>
          match readyPush q e s with
          | some s' => set (popUp e.part e.launch s')
          | none => set (hardwareRefused e.part e.launch 0x09 e.addr s)
      else
        let tcl := nodeCluster p cl e.rcd
        let work : Act (Option Word × Bool) := do
          let (pl, v) ← hwDword ag (if e.rcd.kind = 3 then needRW else needR) e.rcd.word
          let (t, again) ← graphTarget ag e.rcd v
          if again then
            let own ← openAccess ag .hw .other needRW true e.addr 64
            own.forM (fun q => awaitHome phys true q.place)
            modify (storeAt phys e.part false true false pl (leBytes 8 (v - 1).toNat))
            match own with
            | [] => pure ()
            | q :: _ => modify (putCount ag q.place 1)
          return (t, again)
        match ← attempt work with
        | .error (.stall _) => modify (fun s => { s with hwork := s.hwork ++ [.target e.part e.launch cl phys e.det e.addr] })
        | .error _ => modify (hardwareRefused e.part e.launch 0x09 e.addr)
        | .ok (none, _) => modify (hardwareRefused e.part e.launch 0x0C e.addr)
        | .ok (some t, _) =>
          if t = 0 then pure ()
          else
            match ← attempt (readRecord ag .hw t) with
            | .error (.stall _) => modify (fun s => { s with hwork := s.hwork ++ [.target e.part e.launch tcl phys e.det t] })
            | .error _ => modify (hardwareRefused e.part e.launch 0x09 t)
            | .ok b =>
              let r := parseTask b
              if !taskOk p (taskReservedOk b) r || r.kind = 1 || r.kind = 5 then
                modify (hardwareRefused e.part e.launch 0x0C t)
              else readyRec tcl phys fuel (freshEntry r t e.part e.launch e.det none)

/-- How many graph nodes one readying may pass through (log entry 28). -/
def graphFuel : Nat := 2 ^ 64

/-- Ready the record at an address as hardware does (R323, R329). -/
def readyTarget (part launch cl phys : Nat) (det : Bool) (addr : Word) : Act Unit := do
  let s ← get
  match partAt s part with
  | none => pure ()
  | some p =>
    match ← attempt (readRecord (hwAgent phys part) .hw addr) with
    | .error (.stall _) => modify (fun s => { s with hwork := s.hwork ++ [.target part launch cl phys det addr] })
    | .error _ => modify (hardwareRefused part launch 0x09 addr)
    | .ok b =>
      let r := parseTask b
      if !taskOk p (taskReservedOk b) r || r.kind = 1 || r.kind = 5 then modify (hardwareRefused part launch 0x0C addr)
      else readyRec cl phys graphFuel (freshEntry r addr part launch det none)

/-- The indivisible decrement of R326 at the record's home: true if it was performed; a count that reaches zero readies
the record by its kind. -/
def decrement (ag : Agent) (w : Waiter) (launch cl : Nat) (det : Bool) (peer : Option Nat) (addr : Word) (amount : Nat) :
    Act Bool := do
  match ← openAccess ag w .other needRW true addr 64 with
  | [] => return false
  | p :: _ =>
    awaitHome ag.phys true p.place
    let (b, s) := atHome ag.phys p.place 64 (← get)
    set s
    let r := parseTask b
    if r.count < amount then return false
    modify (putCount ag p.place (r.count - amount))
    if r.count = amount then
      readyRec cl ag.phys graphFuel (freshEntry { r with count := 0 } addr ag.part launch det (if r.gsize = 1 then peer else none))
    return true

/-- A hardware decrement by 1 (R327, R329): what R329 refuses is recorded and fails the launch. -/
def hwDecrement (part launch cl phys : Nat) (det : Bool) (addr : Word) : Act Unit := do
  let s ← get
  let ag := hwAgent phys part
  match partAt s part with
  | none => pure ()
  | some p =>
    match ← attempt (readRecord ag .hw addr) with
    | .error (.stall _) => modify (fun s => { s with hwork := s.hwork ++ [.decrement part launch cl phys det addr] })
    | .error _ => modify (hardwareRefused part launch 0x09 addr)
    | .ok b =>
      let r := parseTask b
      if !taskOk p (taskReservedOk b) r || r.kind = 1 || r.kind = 5 then modify (hardwareRefused part launch 0x0C addr)
      else
        match ← attempt (decrement ag .hw launch cl det none addr 1) with
        | .ok true => pure ()
        | .error (.stall _) => modify (fun s => { s with hwork := s.hwork ++ [.decrement part launch cl phys det addr] })
        | _ => modify (hardwareRefused part launch 0x09 addr)

/-- Run work of the scheduler on a state; it never stops. -/
def runHw (a : Act Unit) (s : State) : State :=
  match a s with
  | .ok _ s' => s'
  | .error _ s' => s'

/-! ### Launches that complete (R317) -/

/-- The completion word (R317): STATUS 2 for a rejected launch, 3 with failures, else 1. -/
def completionWord (rejected : Bool) (l : Launch) : Word :=
  let status := if rejected then 2 else if l.failed != 0 || l.code != 0 then 3 else 1
  BitVec.ofNat 64 (l.failed * 2 ^ 32 + l.code % 256 * 256 + status)

/-- The physical address of a launch window slot (R434). -/
def slotPa (tag slot : Nat) : Nat := 0x10200000000 + tag * 0x1000 + slot * 64

/-- Write a completion word as a 64-bit swap at .sys under the partition's translation at runtime privilege (R317,
R443). -/
def writeDone (phys part : Nat) (done v : Word) : Act Unit := do
  match ← openAccess (hwAgent phys part 1) .hw .other needRW true done 8 with
  | [] => trapAct 0x07 done
  | p :: _ =>
    awaitHome phys true p.place
    modify (fun s =>
      let (_, s) := atHome phys p.place 8 s
      storeAt phys part false true false p.place (leBytes 8 v.toNat) s)

/-- Complete a launch: the completion word, then the arm byte (R317), and its slots are released (R340). A word that
cannot be written is recorded. -/
def completeLaunch (tag : Nat) (rejected : Bool) (l : Launch) : Act Unit := do
  let s ← get
  let phys := (((partAt s tag).bind (fun p => p.ranks.head?)).map RankEntry.phys).getD 1
  let r ← if l.done.toNat % 8 ≠ 0 then pure (.error (.trap 0x05 l.done 0))
    else attempt (writeDone phys tag l.done (completionWord rejected l))
  match r with
  | .error (.stall _) =>
    modify (fun s => if s.hwork.contains (.complete tag l.slot) then s else { s with hwork := s.hwork ++ [.complete tag l.slot] })
  | r =>
    let failed := match r with | .ok _ => false | .error _ => true
    modify (fun s =>
      let s := if failed then record 4 0x00C tag 0x3FFF l.done (BitVec.ofNat 64 l.slot) s else s
      let decls := ((partAt s tag).map (fun p => p.decls.filter (·.launch == l.slot))).getD []
      let s := if rejected then s else decls.foldl (fun s d => releaseSlot tag d.slot s) s
      let s := onPart tag (fun p =>
        { p with launches := p.launches.filter (·.slot != l.slot), parsed := p.parsed.filter (· != l.slot) }) s
      homeWrite [(slotPa tag l.slot + 63, 0)] s)

/-- Whether a launch has slots, which its completion releases (R340). -/
def hasSlots (p : Partition) (l : Launch) : Bool := p.decls.any (·.launch == l.slot)

/-- Complete every launch of a partition that is done and not waiting to be written already (R317). Where the quantum rules
apply, one with slots completes at a quantum end (`atEnd`), since every change to a store is made there (R355). -/
def sweepLaunches (atEnd : Bool) (tag : Nat) (s : State) : State :=
  match partAt s tag with
  | none => s
  | some p => (p.launches.filter (fun l => launchDone s p l && (atEnd || !(quantumRules p && hasSlots p l)))).foldl
      (fun s l => runHw (completeLaunch tag false l) s) s

/-- Complete the launches of a partition that are done, anywhere in a quantum. -/
def sweepPart (tag : Nat) (s : State) : State := sweepLaunches false tag s

/-! ### Groups (R31 to R33) -/

/-- An allocation leaves a core: its stash lines are written back, its stash entries removed, its rings closed with their
waiting helper requests, its bytes gone (R180, R302, R329, R382). -/
def dropAlloc (phys part gid : Nat) (s : State) : State :=
  let mine := fun (l : StashLine) => l.part == part && l.gid == gid
  let s := ((coreAt s phys).stashLines.filter mine).foldl (fun s l => stashWriteBack phys l true s) s
  onCore phys (fun c =>
    { c with
      allocs := c.allocs.filter (fun a => !(a.part == part && a.gid == gid))
      stash := c.stash.filter (fun e => !(e.part == part && e.gid == gid))
      rings := c.rings.map (fun r => match r with | some r => if r.part = part ∧ r.gid = gid then none else some r | none => none)
      hreqs := c.hreqs.filter (fun q => match q.origin with | .arrival _ => !(q.part == part && q.gid == gid) | _ => true) }) s

/-- The cores of a group's members. -/
def memberCores (s : State) (part : Nat) (g : Group) : List Nat :=
  match partAt s part with
  | none => []
  | some p => (List.range g.size).filterMap (fun k => physOf p (g.base + k))

/-- The group leaves the tables: allocations, ownerships, tracking, its reserve, its arrivals at a gang (R33, R145, R271, R274). -/
def dissolveGroup (part : Nat) (g : Group) (s : State) : State :=
  let cores := memberCores s part g
  let s := cores.foldl (fun s phys => dropAlloc phys part g.gid s) s
  let s := onPart part (fun p =>
    { p with
      groups := p.groups.filter (·.gid != g.gid)
      pageOwners := p.pageOwners.filter (·.2 != g.gid)
      regions := p.regions.map (fun r => if r.owner = g.gid then { r with owner := 0 } else r) }) s
  onCluster g.cluster (fun c =>
    { c with reserves := c.reserves.filter (· != (part, g.gid)), gangs := c.gangs.filter (fun a => !cores.contains a.phys) }) s

/-- A group exits (R33): its successor is decremented by 1 (R327), at the quantum end where the quantum rules apply
(R332); `phys` is the core of the member that ended last. -/
def exitGroup (part phys : Nat) (det : Bool) (g : Group) (s : State) : State :=
  let s := dissolveGroup part g s
  if g.next = 0 then s
  else if (partAt s part).any quantumRules then
    onCore phys (fun c => { c with held := c.held ++ [(part, .tdec g.launch det g.next 1)] }) s
  else runHw (hwDecrement part g.launch g.cluster phys det g.next) s

/-- A member of a group ends (R327): the last one with no continuation left makes the group exit. -/
def memberEnds (part gid rank phys : Nat) (det : Bool) (s : State) : State :=
  let s := onGroup part gid (fun g => { g with running := g.running.filter (· != rank) }) s
  match groupAt s part gid with
  | none => s
  | some g => if g.running.isEmpty && g.conts = 0 then exitGroup part phys det g s else s

/-! ### Task start (R60, R169, R319) -/

/-- The bytes that resident allocations take on a core. -/
def allocBytes (c : Core) : Nat := (c.allocs.map Alloc.size).sum

/-- Whether a core is free for a task of a partition: it serves the partition, is in no grace period, runs no task and no
helper, and is no control core (R23, R319, R330). -/
def coreFree (tag : Nat) (c : Core) : Bool :=
  c.part == some tag && c.grace.isNone && c.run.isNone && !c.ctl.live && c.helpers.all (fun h => !h.live) &&
    c.resume.isNone && c.yield.isNone && !isControlCore c.phys

/-- Whether a fresh group of a record fits at a base in a cluster now (R319). -/
def fitsAt (s : State) (p : Partition) (cl : Nat) (blocked : List Nat) (r : TaskRec) (base : Nat) : Bool :=
  (List.range r.gsize).all (fun k =>
    match p.ranks[base + k]? with
    | none => false
    | some e =>
      let c := coreAt s e.phys
      e.valid && !e.transit && clusterOf e.phys == cl && !(clusterAt s cl).retained && !blocked.contains e.phys && coreFree p.tag c &&
        allocBytes c + r.lsize * 64 ≤ 0x20000 &&
        !(p.shadow.any (fun h => h.leaving.contains e.phys)))

/-- The bases that R319 considers in a cluster, lowest first. -/
def basesIn (p : Partition) (cl : Nat) (r : TaskRec) : List Nat :=
  if r.base ≠ 0 then [r.base - 1]
  else (List.range p.ranks.length).filter (fun b =>
    match physOf p b with
    | none => false
    | some q =>
      clusterOf q == cl && (r.gsize % 16 != 0 ||
        (q % 16 == 0 && (List.range r.gsize).all (fun k =>
          (physOf p (b + k)).any (fun x => x % 16 == k % 16 && rowOf x == rowOf ((physOf p (b + k / 16 * 16)).getD 0))))))

/-- The base at which a fresh record starts now, if any. -/
def placeBase (s : State) (p : Partition) (cl : Nat) (blocked : List Nat) (r : TaskRec) : Option Nat :=
  (basesIn p cl r).find? (fitsAt s p cl blocked r)

/-- A tracking reserve of a cluster is free (R274). -/
def reserveFree (s : State) (cl : Nat) : Bool := (clusterAt s cl).reserves.length < 6

/-- The control registers, registers and engines of a core at a task start (R60, R126, R153, R169). -/
def startCore (p : Partition) (e : ReadyEntry) (run : Running) (lcore gsize : Nat) (c : Core) : Core :=
  let x := Ctx.reset false
  let x := { x with
    pc := e.rcd.entry, live := true, status := if run.det then 0x10 else 0
    regs := ((x.regs.set 1 e.addr).set 2 e.rcd.arg0).set 3 e.rcd.arg1 }
  { c with
    ctl := x
    helpers := Vector.replicate 10 { Ctx.reset true with status := 0x40 }
    cur := none
    last := 10
    tvec := p.hbase
    task := e.task
    lcore := BitVec.ofNat 64 lcore
    grank := BitVec.ofNat 64 run.rank
    gsize := BitVec.ofNat 64 gsize
    groupid := BitVec.ofNat 64 run.gid
    wdog := 2 ^ e.rcd.limit
    bwphase := 0
    seed := 0
    nbstat := 0
    saveptr := e.rcd.save + BitVec.ofNat 64 (0x4000 * run.rank)
    run := some run
    kept := none
    frames := 0
    acc := Vector.replicate 4 (Vector.replicate 32 (Vector.replicate 16 0))
    steps := Vector.replicate 4 (Vector.replicate 32 0)
    mxq := []
    tile := none
    vcq := []
    vxq := []
    copyq := []
    chans := Vector.replicate 4 ⟨.idle, 0, 0, none, 0, none, .nothing⟩
    recs := [] }

/-- The next group number of a partition: increasing modulo 2^32, skipping 0 (R334). -/
def nextGid (p : Partition) : Nat := if (p.gids + 1) % 2 ^ 32 = 0 then 1 else (p.gids + 1) % 2 ^ 32

/-- Start a fresh group of a record at a base in a cluster (R31, R319): a group number, zeroed allocations, the members'
cores. Its one record becomes as many running tasks. -/
def startGroup (cl base : Nat) (e : ReadyEntry) (s : State) : State :=
  match partAt s e.part with
  | none => s
  | some p =>
    let gid := nextGid p
    let g := e.rcd.gsize
    let grp : Group := ⟨gid, base, g, List.range g, 0, e.rcd.next, e.launch, e.rcd.lsize, cl, none, []⟩
    let s := onPart e.part (fun p => { p with gids := gid, groups := putBy Group.gid grp p.groups }) s
    let s := if e.det then onCluster cl (fun c => { c with reserves := c.reserves ++ [(e.part, gid)] }) s else s
    let s := (List.range (g - 1)).foldl (fun s _ => popUp e.part e.launch s) s
    (List.range g).foldl (fun s k =>
      match physOf p (base + k) with
      | none => s
      | some phys =>
        let run : Running := ⟨e.rcd, e.addr, e.part, e.launch, gid, k, if g ≥ 2 then some gid else e.peer, e.det, [], e.event, []⟩
        let s := onCore phys (fun c =>
          startCore p e run (base + k) g { c with allocs := c.allocs ++ [⟨e.part, gid, k, e.rcd.lsize * 64, [], []⟩] }) s
        sampleAt phys e.part 3 0 (s.time - e.stamp) s) s

/-- The lines that a tile pins (R140). -/
def Tile.pins (t : Tile) : List Nat := t.steps.flatten

/-- The stationary tile of a core is released with its pins (R126, R140). -/
def dropTile (phys : Nat) (s : State) : State :=
  match (coreAt s phys).tile with
  | none => s
  | some t => unpinLines (clusterOf phys) t.pins (onCore phys (fun c => { c with tile := none }) s)

/-- The cores of a core's row that State holds, lowest column first. -/
def rowCores (s : State) (phys : Nat) : List Core :=
  sortBy Core.phys ((allCores s).filter (fun c => rowOf c.phys == rowOf phys))

/-- An operation of a slice's queue that serves no instruction any more has left it (R289). -/
def trimSlices (phys : Nat) (s : State) : State :=
  let l := rowCores s phys
  mapCores (fun c =>
    if rowOf c.phys = rowOf phys then
      { c with sliceq := c.sliceq.filter (fun o => l.any (fun m => m.mxq.any (fun q => q.host == some (c.phys, o.id)))) }
    else c) s

/-- A core's matrix instructions are gone, with their pins, their places in the slices' queues and their emulations at a control core
(R140, R149, R164, R168). -/
def dropOps (phys : Nat) (s : State) : State :=
  let pins := ((coreAt s phys).mxq.map MxOp.pins).flatten
  let s := { s with dies := s.dies.map (fun d => { d with emus := d.emus.filter (·.phys != phys) }) }
  trimSlices phys (unpinLines (clusterOf phys) pins (onCore phys (fun c => { c with mxq := [] }) s))

/-- The control context of a core holds no task any more; its tile and its matrix instructions have been dropped. -/
def vacate (c : Core) : Core :=
  { c with
    ctl := { c.ctl with
      live := false, stalled := false, party := false, await := .nothing, monitor := none, vres := none, deferred := []
      entering := none, saving := false }
    run := none, resume := none, kept := none, cur := none, tile := none, mxq := [], vcq := [], vxq := [], copyq := [], txn := none
    yield := none }

end Sys2Proof.Machine
end

