-- ==== Sys2Proof/Machine/Ops.lean ====
section
/-!
DEFINITION. The named operations of an instruction on its context: register reads and writes (R59 to R67), the frame of
an instruction (R58, R224, R387), taking a trap (R162), task failure (R163, R164, R331), the return of eret (R163).
-/

namespace Sys2Proof.Machine

/-! ### The context that issues -/

/-- The context that issues on the core in focus. -/
def curCtx (s : State) : Ctx := ctxOf s.core (curIdx s)

/-- Change the context that issues. -/
def onCur (f : Ctx → Ctx) (s : State) : State := { s with core := putCtx s.core (curIdx s) (f (curCtx s)) }

/-- Whether the context that issues is a helper. -/
def isHelper (s : State) : Bool := curIdx s != 0

/-- In deterministic mode: STATUS.DET = 1 (R38). -/
def detMode (s : State) : Bool := (curCtx s).status.getLsbD 4

/-- Whether a register number names a helper's view of the control context (R59). -/
def isView (s : State) (n : Reg) : Bool := isHelper s && 16 ≤ n.val

/-- The context that holds register n for the context that issues (R59). -/
def regCtx (s : State) (n : Reg) : Ctx := if isView s n then s.core.ctl else curCtx s

/-- The value of register n as the context that issues sees it; s0 reads zero. -/
def regVal (s : State) (n : Reg) : Word := if n = 0 then 0 else (regCtx s n).regs[n]

/-- The presence bit of register n as the context that issues sees it; s0 is always present. -/
def regPresent (s : State) (n : Reg) : Bool := n == 0 || (regCtx s n).pres.getLsbD n.val

/-- Pending(n): register n has an outstanding local producer (R63). -/
def regPending (s : State) (n : Reg) : Bool := (regCtx s n).prods.any (fun p => p.reg == n && !p.failed)

/-- Register n is the destination of an instruction that has not completed (R63). That a helper's view of such a register waits too is
the model's choice (log entry 98). -/
def regLocked (s : State) (n : Reg) : Bool := (regCtx s n).locks.contains n

/-- The machine error that waits on register n of the context that issues (R67). -/
def regError (s : State) (n : Reg) : Option Producer :=
  if isView s n then none else (curCtx s).prods.find? (fun p => p.reg == n && p.failed)

/-- Set register n of the context that issues and mark it present; s0 discards (R18, R59). -/
def setReg (n : Reg) (v : Word) (s : State) : State := onCur (putReg n v) s

/-- A register's number as EVAL. -/
def regIndex (n : Reg) : Word := BitVec.ofNat 64 n.val

/-- The machine errors that wait on a register of the context that issues are found: they wait no longer, and the register
stays empty (R67). -/
def dropFailed (n : Reg) (s : State) : State :=
  onCur (fun x => { x with prods := x.prods.filter (fun p => !(p.reg == n && p.failed)) }) s

/-- Take a machine error that waits on register n (R67). -/
def failedAct {α : Type} (n : Reg) (p : Producer) : Act α := do
  modify (dropFailed n)
  trapAct 0x17 p.addr (BitVec.ofNat 64 n.val)

/-- ReadS(n, w) (R64, R65). A machine error that waits on the register is taken first (R67). -/
def readS (n : Reg) (w : Bool) : Act Word := do
  let s ← get
  match regError s n with
  | some p => failedAct n p
  | none =>
    if regLocked s n then stallAct
    else if regPresent s n then return regVal s n
    else if regPending s n && (w || detMode s) then stallAct
    else if w then stallAct true
    else trapAct 0x04 (regIndex n)

/-- Wait until register n may be written: no outstanding local producer (R66), and no machine error of its own (R67). -/
def destReady (n : Reg) : Act Unit := do
  let s ← get
  if n = 0 then pure ()
  else
    match regError s n with
    | some p => failedAct n p
    | none => if regPending s n || regLocked s n then stallAct

/-- WriteS(n, v) (R66). -/
def writeS (n : Reg) (v : Word) : Act Unit := do
  destReady n
  modify (setReg n v)

/-- Mark register n as the destination of a long-latency producer (R63): empty until the value arrives. -/
def produce (n : Reg) (v addr : Word) (bad : Bool) (s : State) : State :=
  if n = 0 then s
  else onCur (fun x =>
    { x with pres := x.pres &&& ~~~(1#32 <<< n.val), prods := x.prods ++ [⟨n, v, addr, none, bad, false⟩] }) s

/-- The last producer of register n brings its value over the link to a package (R444). -/
def producedBy (n : Reg) (package : Nat) (s : State) : State :=
  onCur (fun x => { x with prods := modifyWhere (·.reg == n) (fun p => { p with package := some package }) x.prods }) s

/-- A value arrives later in register n of the context that issues (R63), over the link if it comes from another package (R444). -/
def bring (n : Reg) (v addr : Word) (bad : Bool) (package : Option Nat) (s : State) : State :=
  let s := produce n v addr bad s
  match package with
  | some k => producedBy n k s
  | none => s

/-- The registers from n whose value is on its way, s1 to s4 (R162). -/
def producersOf (s : State) (ns : List Reg) : Bool := ns.any (regPending s)

/-- PC of the context that issues goes to an address. -/
def jumpTo (a : Word) : Act Unit := modify (onCur (fun x => { x with pc := a }))

/-- PC goes to the next instruction. -/
def advance (len : Nat) : Act Unit := modify (onCur (fun x => { x with pc := x.pc + BitVec.ofNat 64 len }))

/-- Merge flags into FFLAGS of the context that issues (R108). -/
def mergeFlags (f : FlagSet) : Act Unit := modify (onCur (fun x => { x with fflags := x.fflags ||| f.zeroExtend 64 }))

/-- STATUS.PFX. -/
def hasPfx (x : Ctx) : Bool := x.status.getLsbD 0

/-- The context without a pending prefix. -/
def clearPfx (x : Ctx) : Ctx := { x with status := x.status &&& ~~~1#64 }

/-- FMT.rm (R109). -/
def fmtRm (fmt : Word) : Nat := bitsOf fmt 24 22

/-- STATUS.RM (R154). -/
def statusRm (status : Word) : Nat := bitsOf status 3 1

/-- The rounding mode of an instruction that accepts a prefix (R110). -/
def roundMode (x : Ctx) : Nat := if hasPfx x && fmtRm x.fmt != 6 then fmtRm x.fmt else statusRm x.status

/-! ### Stopping engines and failing tasks (R164, R331) -/

/-- A copy channel stops at its destination line (R298, R300): its lines are released, and it becomes idle. -/
def haltChannel (phys : Nat) (ch : Fin 4) (s : State) : State :=
  let s := { s with owned := s.owned.filter (fun o => !(o.2.1 == phys && o.2.2 == ch.val)) }
  onCore phys (fun c => { c with
    chans := c.chans.set ch { c.chans[ch] with state := .idle, cause := 0, job := none, rcd := 0, await := .nothing } }) s

/-- Stop a copy channel as cstop does (R298): DONE of a transfer record in progress is written. -/
def stopChannel (phys : Nat) (ch : Fin 4) (s : State) : State :=
  let c := coreAt s phys
  let s := haltChannel phys ch s
  match c.chans[ch].job with
  | some j =>
    match j.rcd with
    | some r => oweTransfer phys ⟨corePart c, r.addr, 48, BitVec.ofNat 64 j.done⟩ s
    | none => s
  | none => s

/-- A core's members leave the Nesting-buffer entries of its row, and its arrivals that `gone` names leave the barrier (R149,
R164, R286). -/
def leaveNest (phys : Nat) (gone : GangArrival → Bool) (c : Cluster) : Cluster :=
  { c with
    nest := (c.nest.map (fun e => { e with members := e.members.filter (·.phys != phys) })).filter (fun e => !e.members.isEmpty)
    gangs := c.gangs.filter (fun a => !(a.phys == phys && gone a)) }

/-- The members that wait at the barrier for a member that fails take cause 0x0F, reason 1 (R145, R164). -/
def failGang (phys : Nat) (s : State) : State :=
  match (coreAt s phys).run with
  | none => s
  | some r => mapCores (fun c =>
      if rowOf c.phys = rowOf phys && c.ctl.await == .gang && c.run.any (fun x => x.part == r.part && x.gid == r.gid) then
        { c with ctl := { c.ctl with await := .gangFail (BitVec.ofNat 64 (0x10 + r.rank * 65536)), stalled := false } }
      else c) s

/-- Every access that a core has issued is performed, as the fence of a rel has it (R216, R219); one that a copy channel or a packet
of its flow holds up stays pending (R263, R445). -/
def performAll (phys : Nat) (s : State) : State :=
  let (later, now) := (coreAt s phys).pend.partition (fun q => q.blocked phys s)
  now.foldl (fun s q => performPend phys q s) (onCore phys (fun c => { c with pend := later }) s)

/-- The lines of a cluster that a rel at .die or above publishes (R217, R262): the partition's dirty ones, and those of its
reductions that wait at the cluster cache. -/
def releaseLinesOf (s : State) (cl part : Nat) : List Nat :=
  let red := fun (p : Partial) => p.home == some cl && p.part == part
  ((clusterAt s cl).lines.filter (fun l => l.part == part && l.mask != 0)).map CLine.line ++
    (s.partials.filter red ++ (allCores s).flatMap (fun c => c.upd.filter red)).map (fun p => p.pa / 64)

/-- Remove held sync words from their task: each word is released at .dev at the physical place its acq translated (R216,
R218); dirty stash lines of regions bound to it, then the partition's dirty lines of the cluster with its reductions, are
written back. -/
def releaseWord (phys part : Nat) (det : Bool) (scope : Scope) (h : HeldWord) (s : State) : State :=
  let regions := ((partAt s part).map Partition.regions).getD []
  let bound := fun (va : Nat) => regions.any (fun r => r.cls == 1 && r.sync == h.va && r.base ≤ va && va < r.base + r.length)
  let c := coreAt s phys
  let lines := c.stashLines.filter (fun l =>
    c.stash.any (fun e => e.covers l.part l.gid l.lsline &&
      bound ((e.a &&& ~~~0x3F#64).toNat + (l.lsline - bitsOf e.b 10 0) * 64)))
  let s := lines.foldl (fun s l => stashWriteBack phys l false s) s
  let cl := clusterOf phys
  let s := match scope with
    | .die | .dev | .sys => (releaseLinesOf s cl part).foldl (fun s l => writeBack cl l (combineCluster cl l s)) s
    | _ => s
  (rmwAt phys part det true h.cacheable scope .add 8 1 h.place s).2

/-- Release every held word of the task on a core, in acquisition order, at .dev (R216). -/
def releaseHeld (phys : Nat) (s : State) : State :=
  match (coreAt s phys).run with
  | none => s
  | some r =>
    let s := r.held.foldl (fun s h => releaseWord phys r.part r.det .dev h s) s
    onCore phys (fun c => { c with run := c.run.map (fun r => { r with held := [] }) }) s

/-- The index of an event task of a slot in a cluster is free again (R349). -/
def freeIndex (cl part slot idx : Nat) (s : State) : State :=
  onCluster cl (fun c =>
    { c with slots := modifyWhere (fun k => k.part == part && k.slot == slot) (fun k => { k with live := k.live.filter (· != idx) }) c.slots }) s

/-- An event task ends or fails (R349): at the quantum end where the quantum rules apply (R355). -/
def endEvent (phys : Nat) (r : Running) (s : State) : State :=
  match r.event with
  | none => s
  | some (slot, idx) =>
    if (partAt s r.part).any quantumRules then onCore phys (fun c => { c with held := c.held ++ [(r.part, .eventEnd slot idx)] }) s
    else freeIndex (clusterOf phys) r.part slot idx s

/-- Everything a core does for its task stops (R164, steps 1 to 6). -/
def stopCore (phys : Nat) (s : State) : State :=
  let s := onCore phys (fun c =>
    let c := abortTxn 8 0 c
    { c with
      helpers := c.helpers.map (fun h => { h with
        live := false, await := .nothing, monitor := none, vres := none, deferred := [], stalled := false, party := false
        entering := none, saving := false })
      hreqs := c.hreqs.filter (fun q => match q.origin with | .arrival _ => true | _ => false)
      vcq := [], vxq := [], copyq := [], txn := none
      ctl := { c.ctl with monitor := none, vres := none } }) s
  let s := forgetAnswers phys (onCore phys dropStanding s)
  let s := onCluster (clusterOf phys) (leaveNest phys (fun _ => true)) (failGang phys s)
  let s := dropOps phys s
  let s := (List.finRange 4).foldl (fun s ch => stopChannel phys ch s) s
  releaseHeld phys (performAll phys s)

/-- A core whose task has ended stands at the quantum barrier where the quantum rules apply (R332). -/
def reachBarrier (phys part : Nat) (s : State) : State :=
  if (partAt s part).any quantumRules then onCore phys (fun c => { c with atBarrier := true }) s else s

/-- The entry that a held request carries. -/
def HeldReq.entry? : HeldReq → Option ReadyEntry
  | .ready e => some e
  | .push e => some e
  | .arrive _ w => some w.entry
  | .watch w => some w.entry
  | _ => none

/-- The waiting or ready continuations of a group are discarded (R331); each leaves its launch's population, and what has room now
comes back from the overflow areas (R318, R392). -/
def discardConts (part gid launch : Nat) (s : State) : State :=
  let mine := fun (e : ReadyEntry) => e.part == part && e.gid == gid && e.start != .fresh
  let heldMine := fun (q : Nat × HeldReq) => q.2.entry?.any mine
  let n := ((s.clusters.map (fun c => (c.ready.filter mine).length + (c.watches.filter (fun w => mine w.entry)).length)).sum) +
    (s.parts.map (fun p => (p.ovfReady.filter mine).length + (p.ovfWatches.filter (fun w => mine w.entry)).length)).sum +
    ((allCores s).map (fun c => (c.held.filter heldMine).length)).sum
  let s := mapCores (fun c => { c with held := c.held.filter (fun q => !heldMine q) }) { s with
    clusters := s.clusters.map (fun c =>
      { c with ready := c.ready.filter (fun e => !mine e), watches := c.watches.filter (fun w => !mine w.entry) })
    parts := s.parts.map (fun p =>
      { p with ovfReady := p.ovfReady.filter (fun e => !mine e), ovfWatches := p.ovfWatches.filter (fun w => !mine w.entry) }) }
  refillQueues ((List.range n).foldl (fun s _ => popDown part launch s) s)

/-! ### Taking a trap (R162) -/

/-- The address of the trap frame of a context (R166). -/
def frameAddr (c : Core) (i : Nat) : Word := c.saveptr + BitVec.ofNat 64 (0xC00 + 128 * i)

/-- EINFO.SAVE (R160). -/
def einfoSave : Word := 0x8000000000000000

/-- Access to the save area (R166): readable and writable, T set, under the task's translation; a fault fails the task
with EINFO.SAVE. -/
def saveAccess {α : Type} (a : Act α) : Act α := do
  match ← attempt a with
  | .ok x => return x
  | .error (.trap c v _) => throw (.fail c v einfoSave)
  | .error e => throw e

/-- The agent of hardware that reads and writes the save area for a context of a core. -/
def saveAgent (s : State) (phys i : Nat) : Agent := { agentAt s phys i with priv := 0 }

/-- Read bytes of the save area. -/
def saveRead (phys i : Nat) (a : Word) (n : Nat) : Act (List Byte) := do
  let ag := saveAgent (← get) phys i
  saveAccess (do
    let ps ← openAccess ag (.ctx phys i) .other needRW true a n
    performMeeting ag ps
    checkBad false ps
    let s := reachPieces ag ps (← get)
    set s
    return ps.flatMap (fun p => placeBytes s phys p.cacheable p.place p.len))

/-- Write bytes of the save area. -/
def saveWrite (phys i : Nat) (a : Word) (bytes : List Byte) : Act Unit := do
  let ag := saveAgent (← get) phys i
  saveAccess (do
    let ps ← openAccess ag (.ctx phys i) .other needRW true a bytes.length
    performMeeting ag ps
    checkBad true ps
    forParts ps bytes (fun _ p b => modify (storeAt phys ag.part ag.det (i == 0) p.cacheable p.place b)))

/-- The 128 bytes of a trap frame (R162): s1 to s4 with their presence bits, BUSY set, DISP 0. -/
def frameBytes (x : Ctx) (status epc cause eval einfo : Word) : List Byte :=
  let ps := bitsOf (x.pres.zeroExtend 64) 4 1
  dwBytes status ++ dwBytes epc ++ dwBytes cause ++ dwBytes eval ++ dwBytes einfo ++ dwBytes x.fmt ++
    leBytes 4 0 ++ leBytes 4 (1 + 16 * ps) ++
    dwBytes x.regs[1] ++ dwBytes x.regs[2] ++ dwBytes x.regs[3] ++ dwBytes x.regs[4] ++ List.replicate 40 0

/-- Frame(c).BUSY: a frame not written since the task start counts as not busy (R169). -/
def frameBusy (i : Nat) : Act Bool := do
  let s ← get
  if s.core.frames.getLsbD i then
    let b ← saveRead s.core.phys i (frameAddr s.core i + 52) 4
    return leNat b % 2 == 1
  else return false

/-- The context after a trap is taken (R162). -/
def enterHandler (tvec frame : Word) (cause : BitVec 8) (eval einfo epc : Word) (x : Ctx) : Ctx :=
  let x := { x with
    cause := cause.zeroExtend 64, epc := epc, eval := eval, einfo := einfo
    status := setBits (x.status &&& ~~~1#64) 9 8 1
    pc := tvec, await := .nothing, stalled := false, party := false, entering := none }
  putReg 4 einfo (putReg 3 eval (putReg 2 (cause.zeroExtend 64) (putReg 1 frame x)))

/-- An engine instruction of context i that still waits in a command queue is left unperformed (R284). -/
def leaveQueues (i : Nat) (c : Core) : Core :=
  { c with
    vcq := c.vcq.filter (· != i)
    copyq := c.copyq.filter (fun q => match q with | .cpy k .. => k != i | .cpyc k .. => k != i | .cstop .. => true) }

/-- An mma whose acceptance ends without it leaves its Nesting-buffer entry (R290). -/
def leaveUnready (phys : Nat) (c : Cluster) : Cluster :=
  { c with
    nest := (c.nest.map (fun e => { e with members := e.members.filter (fun m => m.phys != phys || m.ready) })).filter (fun e => !e.members.isEmpty) }

/-- A context begins the entry of a trap, which it holds until the frame is written: it stands in no queue any more. -/
def beginEntry (d : Deferred) (epc : Word) (s : State) : State :=
  let s := onCur (fun x => { x with entering := some ⟨d, epc⟩ }) s
  let s := { s with core := leaveQueues (curIdx s) s.core }
  if isHelper s then s else onCluster (clusterOf s.core.phys) (leaveUnready s.core.phys) s

/-- Take a trap in the context that issues (R162): wait for producers of s1 to s4, fail the task on a double trap, write
the frame, enter the handler. The saved STATUS holds PFX, but for prefix misuse (R111). A status that an fpost still awaits in
one of s1 to s4 is no local producer, and is not waited for (R63; log entry 80). -/
def takeTrap (cause : BitVec 8) (eval einfo epc : Word) : Act Unit := do
  modify (beginEntry ⟨cause, eval, einfo⟩ epc)
  let s ← get
  let i := curIdx s
  if producersOf s [1, 2, 3, 4] then stallAct
  if privOf (curCtx s).status ≠ 0 then throw (.fail cause eval einfo)
  if ← frameBusy i then throw (.fail cause eval einfo)
  let x := curCtx (← get)
  let status := if cause = 0x1A then x.status &&& ~~~1#64 else x.status
  let a := frameAddr s.core i
  saveWrite s.core.phys i a (frameBytes x status epc (cause.zeroExtend 64) eval einfo)
  modify (fun s =>
    let s := { s with core := { s.core with frames := s.core.frames ||| (1#11 <<< i) } }
    onCur (enterHandler s.core.tvec a cause eval einfo epc) s)

/-- A member of an mgang that another member's failure holds back takes its trap before it stops (R164, step 2): as far as the entry
does not wait for a page, which it does not outlive (log entry 107). -/
def gangTrap (phys : Nat) (s : State) : State :=
  match (coreAt s phys).ctl.await with
  | .gangFail e =>
    let here := s.core.phys
    let f := focusOn phys s
    let f := { f with core := { f.core with cur := none } }
    match takeTrap 0x0F 0 e (curCtx f).pc f with
    | .ok _ t => focusOn here t
    | .error _ t => focusOn here t
  | _ => s

/-! ### Members that stop -/

/-- A member stops because its task failed or its group ends with another's failure (R164, R331). -/
def stopMember (phys : Nat) (s : State) : State :=
  match (coreAt s phys).run with
  | none => s
  | some r =>
    let s := endEvent phys r (stopCore phys s)
    let s := popDown r.part r.launch s
    reachBarrier phys r.part (onCore phys vacate (dropTile phys s))

/-- A group ends with the failure of a member (R331): the other members stop, continuations are discarded, the group
exits, and its successor is not decremented. -/
def failGroup (part gid : Nat) (s : State) : State :=
  match groupAt s part gid with
  | none => s
  | some g =>
    let s := (allCores s).foldl (fun s c =>
      if c.run.any (fun r => r.part == part && r.gid == gid) then stopMember c.phys (gangTrap c.phys s) else s) s
    dissolveGroup part g (discardConts part gid g.launch s)

/-- The task on a core fails with a cause (R163, R164, R331): the launch counts it, the black box records it, its group
ends, and a launch without population completes. -/
def failTask (phys : Nat) (cause : BitVec 8) (s : State) : State :=
  match (coreAt s phys).run with
  | none => onCore phys (fun c => { c with ctl := { c.ctl with live := false } }) s
  | some r =>
    let s := record (dieOf phys) 0x001 r.part phys r.addr (cause.zeroExtend 64) s
    let s := onPart r.part (fun p => { p with failures := p.failures + 1 }) s
    let s := launchFails r.part r.launch cause.toNat 1 s
    let s := stopMember phys s
    sweepPart r.part (failGroup r.part r.gid s)

/-! ### A trap condition (R161, R162) -/

/-- Causes that are taken as traps even inside a transaction, after its abort (R161). -/
def outlivesTxn (cause : BitVec 8) : Bool := cause == 0x17 || cause == 0x18 || cause == 0x20

/-- A trap condition in the context that issues: inside a transaction the abort with reason 6 and the cause (R161, R224,
R225), else the trap. -/
def raise (cause : BitVec 8) (eval einfo : Word) : Act Unit := do
  let s ← get
  if !isHelper s && s.core.txn.isSome then
    set { s with core := abortTxn 6 cause.toNat s.core }
    if outlivesTxn cause then takeTrap cause eval einfo (curCtx (← get)).pc
  else takeTrap cause eval einfo (curCtx s).pc

/-- The task on a core fails; a failure in the save area leaves its cause, address and EINFO.SAVE in the registers of the context
whose access it was (R160, R166). -/
def failWith (phys i : Nat) (cause : BitVec 8) (eval einfo : Word) (s : State) : State :=
  failTask phys cause (if einfo.getLsbD 63 then
    onCtx phys i (fun x => { x with cause := cause.zeroExtend 64, epc := x.pc, eval := eval, einfo := einfo }) s else s)

/-- The context that issues waits. -/
def standStill (party : Bool) (s : State) : State := onCur (fun x => { x with stalled := true, party := party }) s

/-- What the end of an act on the context that issues leaves, where a stall has it wait. -/
def settleTrap (r : EStateM.Result Stop State Unit) : State :=
  match r with
  | .ok _ s => s
  | .error (.fail c v x) s => failWith s.core.phys (curIdx s) c v x s
  | .error (.stall p) s => standStill p s
  | .error _ s => s

/-- What a stop leaves (R29, R35, R162, R225): a trap entry that must itself wait leaves the context standing at its
instruction, and goes on from there (R166). -/
def stopAs (e : Stop) (s : State) : State :=
  match e with
  | .trap c v x => settleTrap (raise c v x s)
  | .stall p => standStill p s
  | .fail c v x => failWith s.core.phys (curIdx s) c v x s
  | .abort r c => { s with core := abortTxn r c s.core }
  | .done => s

/-- The context that issued last: in its class where software-started contexts go round (R27), any context where a rotation is
fixed (R333). -/
def noteTurn (s : State) : State :=
  let det := s.core.run.any (·.det)
  if det || (curCtx s).origin == .software then { s with core := { s.core with last := curIdx s } } else s

/-- What a stop of the instruction that issued leaves: it has issued if it traps or aborts, but not if it stalls (R27). -/
def halt (e : Stop) (s : State) : State :=
  match e with
  | .trap .. => stopAs e (noteTurn s)
  | .abort .. => stopAs e (noteTurn s)
  | e => stopAs e s

/-- A trap entry that has begun goes on (R166). -/
def resumeEntry (e : Entry) (s : State) : State := settleTrap (takeTrap e.trap.cause e.trap.eval e.trap.einfo e.epc s)

/-! ### The frame of an instruction (R58) -/

/-- What R51 and R55 say of an instruction: its bytes, the lowest privilege, whether a helper may execute it or only a
helper, the registers it writes (R61), its use of a prefix (0 none, 1 scalar, 2 engine), whether a transaction allows it
(R224). -/
structure InstrInfo where
  len : Nat
  priv : Nat := 0
  helper : Bool := true
  onlyHelper : Bool := false
  dests : List Reg := []
  pfx : Nat := 0
  txn : Bool := false

/-- Steps 5 to 7 of R58, then the instructions a transaction does not allow (R224, reason 5). That reason 5 comes before an
instruction's own checks, those of the fields of fmtp among them, is the model's choice (log entry 97). -/
def precheck (i : InstrInfo) : Act Unit := do
  let s ← get
  let x := curCtx s
  if hasPfx x && (i.pfx == 0 || (i.pfx == 1 && bitsOf x.fmt 21 0 != 0)) then trapAct 0x1A 0
  if privOf x.status < i.priv then trapAct 0x03 0
  if (isHelper s && (!i.helper || i.dests.any (fun d => 16 ≤ d.val))) || (!isHelper s && i.onlyHelper) then trapAct 0x01 0
  if !isHelper s && s.core.txn.isSome && !i.txn then throw (.abort 5 0)

/-- An instruction completes (R387, R388): it is counted, the quantum shrinks where the quantum rules apply, a prefix it
accepts is consumed (R55), its waits are over. -/
def retire (i : InstrInfo) (s : State) : State :=
  let s := onCur (fun x =>
    let x := if i.pfx = 0 then x else clearPfx x
    { x with await := .nothing, stalled := false, party := false }) (noteTurn s)
  { s with core := { s.core with retired := s.core.retired + 1, qnt := s.core.qnt - 1 } }

/-- Execute an instruction in the context that issues: the checks of R58, its body, and its completion or what its stop
leaves. -/
def runInstr (i : InstrInfo) (body : Act Unit) (s : State) : State :=
  match (do precheck i; body : Act Unit) s with
  | .ok _ s => retire i s
  | .error e s => halt e s

/-- An instruction whose PC goes to the next one. -/
def runSeq (i : InstrInfo) (body : Act Unit) (s : State) : Host.Outcome State Fault Refusal :=
  .next (runInstr i (do body; advance i.len) s)

/-- An instruction that sets PC itself. -/
def runJump (i : InstrInfo) (body : Act Unit) (s : State) : Host.Outcome State Fault Refusal := .next (runInstr i body s)

/-! ### Return from a trap (R163) -/

/-- Whether a STATUS value may be restored in a context (R163): PRIV 0, reserved bits 0, HLP as the context, RM legal. -/
def statusOk (helper : Bool) (v : Word) : Bool :=
  bitsOf v 9 8 == 0 && bitsOf v 63 10 == 0 && !v.getLsbD 7 && v.getLsbD 6 == helper && bitsOf v 3 1 < 6

/-- A dword of bytes as a register value. -/
def wordAt (b : List Byte) (off : Nat) : Word := BitVec.ofNat 64 (leNat (slice b off 8))

/-- Clear BUSY of a frame. -/
def clearBusy (i : Nat) (b : List Byte) : Act Unit := do
  let s ← get
  saveWrite s.core.phys i (frameAddr s.core i + 52) (leBytes 4 (leNat (slice b 52 4) / 2 * 2))

/-- The context that an eret with DISP 0 resumes (R163). -/
def resumeFrom (b : List Byte) (x : Ctx) : Ctx :=
  let ps := leNat (slice b 52 4) / 16 % 16
  let pres := (x.pres &&& ~~~0x1E#32) ||| BitVec.ofNat 32 (ps * 2)
  { x with
    status := wordAt b 0, fmt := wordAt b 40, pc := wordAt b 8 &&& ~~~1#64, pres := pres
    regs := (((x.regs.set 1 (wordAt b 56)).set 2 (wordAt b 64)).set 3 (wordAt b 72)).set 4 (wordAt b 80) }

end Sys2Proof.Machine
end

