-- ==== Sys2Proof/Machine/Alu.lean ====
section
/-!
DEFINITION. Integer instructions (R76 to R79) and the compact integer forms (R44, R86).
-/

namespace Sys2Proof.Machine

/-- The frame of an instruction of the ALU, RI or U forms: allowed in a helper and in a transaction. -/
def aluInfo (len : Nat) (d : Reg) : InstrInfo := { len := len, dests := [d], txn := true }

/-- A binary operation of major 0: ReadS a, ReadS b, WriteS d (R76). -/
def aluBody (op : AluOp) (d a b : Reg) (wa wb : Bool) : Act Unit := do
  let x ← readS a wa
  let y ← readS b wb
  writeS d (aluOp op x y)

/-- A unary operation of major 0 (R76). -/
def unaryBody (f : Word → Word) (d a : Reg) (wa : Bool) : Act Unit := do
  let x ← readS a wa
  writeS d (f x)

/-- Sext and Zext of R76 by the size field: byte, half, word. -/
def sizeBits (size : Fin 3) : Nat := 8 * 2 ^ size.val

/-- csel: d is read after a and b, under wa (R76). -/
def cselBody (d a b : Reg) (wa wb : Bool) : Act Unit := do
  let x ← readS a wa
  let y ← readS b wb
  let z ← readS d wa
  writeS d (if z ≠ 0 then x else y)

/-- add (R76). -/
def execAdd (d a b : Reg) (wa wb : Bool) (s : State) : Host.Outcome State Fault Refusal :=
  runSeq (aluInfo 4 d) (aluBody .add d a b wa wb) s

/-- sub (R76). -/
def execSub (d a b : Reg) (wa wb : Bool) (s : State) : Host.Outcome State Fault Refusal :=
  runSeq (aluInfo 4 d) (aluBody .sub d a b wa wb) s

/-- mul (R76). -/
def execMul (d a b : Reg) (wa wb : Bool) (s : State) : Host.Outcome State Fault Refusal :=
  runSeq (aluInfo 4 d) (aluBody .mul d a b wa wb) s

/-- mulh (R76). -/
def execMulh (d a b : Reg) (wa wb : Bool) (s : State) : Host.Outcome State Fault Refusal :=
  runSeq (aluInfo 4 d) (aluBody .mulh d a b wa wb) s

/-- mulhn (R76). -/
def execMulhn (d a b : Reg) (wa wb : Bool) (s : State) : Host.Outcome State Fault Refusal :=
  runSeq (aluInfo 4 d) (aluBody .mulhn d a b wa wb) s

/-- div (R76). -/
def execDiv (d a b : Reg) (wa wb : Bool) (s : State) : Host.Outcome State Fault Refusal :=
  runSeq (aluInfo 4 d) (aluBody .div d a b wa wb) s

/-- divn (R76). -/
def execDivn (d a b : Reg) (wa wb : Bool) (s : State) : Host.Outcome State Fault Refusal :=
  runSeq (aluInfo 4 d) (aluBody .divn d a b wa wb) s

/-- rem (R76). -/
def execRem (d a b : Reg) (wa wb : Bool) (s : State) : Host.Outcome State Fault Refusal :=
  runSeq (aluInfo 4 d) (aluBody .rem d a b wa wb) s

/-- remn (R76). -/
def execRemn (d a b : Reg) (wa wb : Bool) (s : State) : Host.Outcome State Fault Refusal :=
  runSeq (aluInfo 4 d) (aluBody .remn d a b wa wb) s

/-- and (R76). -/
def execAnd (d a b : Reg) (wa wb : Bool) (s : State) : Host.Outcome State Fault Refusal :=
  runSeq (aluInfo 4 d) (aluBody .and d a b wa wb) s

/-- or (R76). -/
def execOr (d a b : Reg) (wa wb : Bool) (s : State) : Host.Outcome State Fault Refusal :=
  runSeq (aluInfo 4 d) (aluBody .or d a b wa wb) s

/-- xor (R76). -/
def execXor (d a b : Reg) (wa wb : Bool) (s : State) : Host.Outcome State Fault Refusal :=
  runSeq (aluInfo 4 d) (aluBody .xor d a b wa wb) s

/-- andn (R76). -/
def execAndn (d a b : Reg) (wa wb : Bool) (s : State) : Host.Outcome State Fault Refusal :=
  runSeq (aluInfo 4 d) (aluBody .andn d a b wa wb) s

/-- sll (R76). -/
def execSll (d a b : Reg) (wa wb : Bool) (s : State) : Host.Outcome State Fault Refusal :=
  runSeq (aluInfo 4 d) (aluBody .sll d a b wa wb) s

/-- srl (R76). -/
def execSrl (d a b : Reg) (wa wb : Bool) (s : State) : Host.Outcome State Fault Refusal :=
  runSeq (aluInfo 4 d) (aluBody .srl d a b wa wb) s

/-- sra (R76). -/
def execSra (d a b : Reg) (wa wb : Bool) (s : State) : Host.Outcome State Fault Refusal :=
  runSeq (aluInfo 4 d) (aluBody .sra d a b wa wb) s

/-- ror (R76). -/
def execRor (d a b : Reg) (wa wb : Bool) (s : State) : Host.Outcome State Fault Refusal :=
  runSeq (aluInfo 4 d) (aluBody .ror d a b wa wb) s

/-- min (R76). -/
def execMin (d a b : Reg) (wa wb : Bool) (s : State) : Host.Outcome State Fault Refusal :=
  runSeq (aluInfo 4 d) (aluBody .min d a b wa wb) s

/-- max (R76). -/
def execMax (d a b : Reg) (wa wb : Bool) (s : State) : Host.Outcome State Fault Refusal :=
  runSeq (aluInfo 4 d) (aluBody .max d a b wa wb) s

/-- minn (R76). -/
def execMinn (d a b : Reg) (wa wb : Bool) (s : State) : Host.Outcome State Fault Refusal :=
  runSeq (aluInfo 4 d) (aluBody .minn d a b wa wb) s

/-- maxn (R76). -/
def execMaxn (d a b : Reg) (wa wb : Bool) (s : State) : Host.Outcome State Fault Refusal :=
  runSeq (aluInfo 4 d) (aluBody .maxn d a b wa wb) s

/-- slt (R76). -/
def execSlt (d a b : Reg) (wa wb : Bool) (s : State) : Host.Outcome State Fault Refusal :=
  runSeq (aluInfo 4 d) (aluBody .slt d a b wa wb) s

/-- sltn (R76). -/
def execSltn (d a b : Reg) (wa wb : Bool) (s : State) : Host.Outcome State Fault Refusal :=
  runSeq (aluInfo 4 d) (aluBody .sltn d a b wa wb) s

/-- seq (R76). -/
def execSeq (d a b : Reg) (wa wb : Bool) (s : State) : Host.Outcome State Fault Refusal :=
  runSeq (aluInfo 4 d) (aluBody .seq d a b wa wb) s

/-- clz (R76). -/
def execClz (d a : Reg) (wa : Bool) (s : State) : Host.Outcome State Fault Refusal :=
  runSeq (aluInfo 4 d) (unaryBody (fun x => BitVec.ofNat 64 (clz64 x)) d a wa) s

/-- ctz (R76). -/
def execCtz (d a : Reg) (wa : Bool) (s : State) : Host.Outcome State Fault Refusal :=
  runSeq (aluInfo 4 d) (unaryBody (fun x => BitVec.ofNat 64 (ctzN 64 x.toNat)) d a wa) s

/-- popc (R76). -/
def execPopc (d a : Reg) (wa : Bool) (s : State) : Host.Outcome State Fault Refusal :=
  runSeq (aluInfo 4 d) (unaryBody (fun x => BitVec.ofNat 64 (popcount 64 x.toNat)) d a wa) s

/-- sext (R76). -/
def execSext (d a : Reg) (size : Fin 3) (wa : Bool) (s : State) : Host.Outcome State Fault Refusal :=
  runSeq (aluInfo 4 d) (unaryBody (fun x => sextBits (sizeBits size) x.toNat) d a wa) s

/-- zext (R76). -/
def execZext (d a : Reg) (size : Fin 3) (wa : Bool) (s : State) : Host.Outcome State Fault Refusal :=
  runSeq (aluInfo 4 d) (unaryBody (fun x => zextBits (sizeBits size) x.toNat) d a wa) s

/-- csel (R76). -/
def execCsel (d a b : Reg) (wa wb : Bool) (s : State) : Host.Outcome State Fault Refusal :=
  runSeq (aluInfo 4 d) (cselBody d a b wa wb) s

/-- I of R77: the sign-extended immediate. -/
def immWord (imm : BitVec 14) : Word := imm.signExtend 64

/-- addi (R77). -/
def execAddi (d a : Reg) (wa : Bool) (imm : BitVec 14) (s : State) : Host.Outcome State Fault Refusal :=
  runSeq (aluInfo 4 d) (unaryBody (fun x => aluOp .add x (immWord imm)) d a wa) s

/-- andi (R77). -/
def execAndi (d a : Reg) (wa : Bool) (imm : BitVec 14) (s : State) : Host.Outcome State Fault Refusal :=
  runSeq (aluInfo 4 d) (unaryBody (fun x => aluOp .and x (immWord imm)) d a wa) s

/-- ori (R77). -/
def execOri (d a : Reg) (wa : Bool) (imm : BitVec 14) (s : State) : Host.Outcome State Fault Refusal :=
  runSeq (aluInfo 4 d) (unaryBody (fun x => aluOp .or x (immWord imm)) d a wa) s

/-- xori (R77). -/
def execXori (d a : Reg) (wa : Bool) (imm : BitVec 14) (s : State) : Host.Outcome State Fault Refusal :=
  runSeq (aluInfo 4 d) (unaryBody (fun x => aluOp .xor x (immWord imm)) d a wa) s

/-- slti (R77). -/
def execSlti (d a : Reg) (wa : Bool) (imm : BitVec 14) (s : State) : Host.Outcome State Fault Refusal :=
  runSeq (aluInfo 4 d) (unaryBody (fun x => aluOp .slt x (immWord imm)) d a wa) s

/-- sltni (R77). -/
def execSltni (d a : Reg) (wa : Bool) (imm : BitVec 14) (s : State) : Host.Outcome State Fault Refusal :=
  runSeq (aluInfo 4 d) (unaryBody (fun x => aluOp .sltn x (immWord imm)) d a wa) s

/-- slli (R78). -/
def execSlli (d a : Reg) (wa : Bool) (amt : BitVec 6) (s : State) : Host.Outcome State Fault Refusal :=
  runSeq (aluInfo 4 d) (unaryBody (fun x => aluOp .sll x (amt.zeroExtend 64)) d a wa) s

/-- srli (R78). -/
def execSrli (d a : Reg) (wa : Bool) (amt : BitVec 6) (s : State) : Host.Outcome State Fault Refusal :=
  runSeq (aluInfo 4 d) (unaryBody (fun x => aluOp .srl x (amt.zeroExtend 64)) d a wa) s

/-- srai (R78). -/
def execSrai (d a : Reg) (wa : Bool) (amt : BitVec 6) (s : State) : Host.Outcome State Fault Refusal :=
  runSeq (aluInfo 4 d) (unaryBody (fun x => aluOp .sra x (amt.zeroExtend 64)) d a wa) s

/-- rori (R78). -/
def execRori (d a : Reg) (wa : Bool) (amt : BitVec 6) (s : State) : Host.Outcome State Fault Refusal :=
  runSeq (aluInfo 4 d) (unaryBody (fun x => aluOp .ror x (amt.zeroExtend 64)) d a wa) s

/-- hi (R79). -/
def execHi (d : Reg) (imm : BitVec 20) (s : State) : Host.Outcome State Fault Refusal :=
  runSeq (aluInfo 4 d) (writeS d (hiValue imm)) s

/-- pcrel: PC is the address of the instruction (R79). -/
def execPcrel (d : Reg) (imm : BitVec 20) (s : State) : Host.Outcome State Fault Refusal :=
  runSeq (aluInfo 4 d) (do writeS d ((curCtx (← get)).pc + hiValue imm)) s

/-! ### Compact forms (R44): each performs its 32-bit instruction with both wait bits equal to its own -/

/-- c.mv d, b: or d, s0, b (R44). -/
def execCMv (d b : Reg) (w : Bool) (s : State) : Host.Outcome State Fault Refusal := runSeq (aluInfo 2 d) (aluBody .or d 0 b w w) s

/-- c.add d, b: add d, d, b (R44). -/
def execCAdd (d b : Reg) (w : Bool) (s : State) : Host.Outcome State Fault Refusal := runSeq (aluInfo 2 d) (aluBody .add d d b w w) s

/-- c.sub d, b: sub d, d, b (R44). -/
def execCSub (d b : Reg) (w : Bool) (s : State) : Host.Outcome State Fault Refusal := runSeq (aluInfo 2 d) (aluBody .sub d d b w w) s

/-- c.and d, b: and d, d, b (R44). -/
def execCAnd (d b : Reg) (w : Bool) (s : State) : Host.Outcome State Fault Refusal := runSeq (aluInfo 2 d) (aluBody .and d d b w w) s

/-- c.or d, b: or d, d, b (R44). -/
def execCOr (d b : Reg) (w : Bool) (s : State) : Host.Outcome State Fault Refusal := runSeq (aluInfo 2 d) (aluBody .or d d b w w) s

/-- c.xor d, b: xor d, d, b (R44). -/
def execCXor (d b : Reg) (w : Bool) (s : State) : Host.Outcome State Fault Refusal := runSeq (aluInfo 2 d) (aluBody .xor d d b w w) s

/-- c.sll d, b: sll d, d, b (R44). -/
def execCSll (d b : Reg) (w : Bool) (s : State) : Host.Outcome State Fault Refusal := runSeq (aluInfo 2 d) (aluBody .sll d d b w w) s

/-- c.srl d, b: srl d, d, b (R44). -/
def execCSrl (d b : Reg) (w : Bool) (s : State) : Host.Outcome State Fault Refusal := runSeq (aluInfo 2 d) (aluBody .srl d d b w w) s

/-- c.sra d, b: sra d, d, b (R44). -/
def execCSra (d b : Reg) (w : Bool) (s : State) : Host.Outcome State Fault Refusal := runSeq (aluInfo 2 d) (aluBody .sra d d b w w) s

/-- c.addi d, imm: addi d, d, Sext(b, 5) (R44). -/
def execCAddi (d : Reg) (imm : BitVec 5) (w : Bool) (s : State) : Host.Outcome State Fault Refusal :=
  runSeq (aluInfo 2 d) (unaryBody (fun x => x + imm.signExtend 64) d d w) s

end Sys2Proof.Machine
end

