-- ==== Sys2Proof/Machine/Remote.lean ====
section
/-!
DEFINITION. Presence bits and remote writes (R68 to R73, R83 to R85).
-/

namespace Sys2Proof.Machine

/-- The smallest scope that contains two cores (R24, R71). -/
def scopeOf (p q : Nat) : Scope :=
  if p = q then .core else if rowOf p = rowOf q then .row else if clusterOf p = clusterOf q then .clus
  else if dieOf p = dieOf q then .die else .dev

/-- The inbox that a core holds for a partition (R73, R433). -/
def inboxOf (c : Core) (tag : Nat) : List InboxEntry :=
  if c.part = some tag then c.inbox else ((c.setAside.find? (·.1 == tag)).map (·.2)).getD []

/-- Replace the inbox that a core holds for a partition. -/
def putInbox (tag : Nat) (l : List InboxEntry) (c : Core) : Core :=
  if c.part = some tag then { c with inbox := l }
  else { c with setAside := (tag, l) :: c.setAside.filter (·.1 != tag) }

/-- Whether the target's inbox has an entry that is neither held nor reserved (R83). -/
def inboxFree (s : State) (tag lcore phys : Nat) : Bool :=
  (inboxOf (coreAt s phys) tag).length +
    (s.remotes.filter (fun r => r.part == tag && r.target == lcore && r.idx != 0)).length < 8

/-- Hold a request of the partition that a core serves to the quantum end (R332). -/
def holdReq (phys : Nat) (q : HeldReq) (s : State) : State := onCore phys (fun c => { c with held := c.held ++ [(corePart c, q)] }) s

/-- A remote write sets out with the next number of its flow (R445). -/
def sendRemote (w : RemoteWrite) (s : State) : State :=
  flowSent w.part w.phys w.target { s with remotes := s.remotes ++ [{ w with seq := flowNext s w.part w.phys w.target }] }

/-- rwr after its operand reads (R83): the target check, the order of R71, then the send, held to the quantum end where
the quantum rules apply (R72, R332); the 64th of a quantum ends the quantum. -/
def rwrAct (n : Reg) (target value : Word) : Act Unit := do
  let s ← get
  let ag := curAgent s
  match partAt s ag.part with
  | none => trapAct 0x09 target
  | some p =>
    if target.toNat ≥ p.ranks.length then trapAct 0x09 target
    match physOf p target.toNat with
    | none => stallAct
    | some phys =>
      fenceAct ag (scopeOf ag.phys phys)
      let w : RemoteWrite := ⟨0, ag.part, ag.phys, s.core.lcore.toNat, target.toNat, n, value⟩
      if quantumRules p then
        modify (fun s =>
          let s := holdReq ag.phys (.rwr w) s
          onCore ag.phys (fun c => { c with rwrs := c.rwrs + 1, atBarrier := c.atBarrier || c.rwrs + 1 ≥ 64 }) s)
      else if n ≠ 0 && !inboxFree s ag.part target.toNat phys then stallAct true
      else modify (sendRemote w)

/-- rwr (R83). -/
def execRwr (n a b : Reg) (wa wb : Bool) (s : State) : Host.Outcome State Fault Refusal :=
  runSeq { len := 4 } (do
    let t ← readS a wa
    let v ← readS b wb
    rwrAct n t v) s

/-- Change the presence bit of register n of the context that issues (R84); nothing for register 0. -/
def presenceAct (n : Reg) (on : Bool) : Act Unit := do
  if n = 0 then pure ()
  else
    destReady n
    modify (onCur (fun x =>
      { x with pres := if on then x.pres ||| (1#32 <<< n.val) else x.pres &&& ~~~(1#32 <<< n.val) }))

/-- feclr (R84). -/
def execFeclr (n : Reg) (s : State) : Host.Outcome State Fault Refusal :=
  runSeq { len := 4, dests := [n] } (presenceAct n false) s

/-- feset (R84). -/
def execFeset (n : Reg) (s : State) : Host.Outcome State Fault Refusal :=
  runSeq { len := 4, dests := [n] } (presenceAct n true) s

/-- fetst (R85): in deterministic mode it waits for a producer of n first. A status that an fpost still awaits in n is no local
producer: the bit is the one that stands (log entry 81). -/
def fetstBody (d n : Reg) : Act Unit := do
  let s ← get
  if detMode s && regPending s n then stallAct
  writeS d (boolWord (regPresent s n))

/-- fetst (R85). -/
def execFetst (d n : Reg) (s : State) : Host.Outcome State Fault Refusal :=
  runSeq { len := 4, dests := [d] } (fetstBody d n) s

end Sys2Proof.Machine
end

