-- ==== Sys2Proof/Machine/Control.lean ====
section
/-!
DEFINITION. The control registers (R153 to R158, R292, R293, R299, R301, R386 to R389).
-/

namespace Sys2Proof.Machine

/-- Who may write a control register (R19, R153). -/
inductive CtlAccess where
  | ro | rw | rt
  deriving DecidableEq, Repr

/-- The access of an assigned control register below 0x800; none for an unassigned number (R153). -/
def ctlAccess (n : Nat) : Option CtlAccess :=
  if n = 0 || n = 7 || n = 0x13 || n = 0x14 then some .rw
  else if n = 5 || (0x100 ≤ n && n ≤ 0x103) then some .rt
  else if n ≤ 0x12 || (0x18 ≤ n && n ≤ 0x1C) || n = 0x20 || n = 0x21 then some .ro
  else none

/-- The code of a channel state (R299). -/
def ChanState.code : ChanState → Nat
  | .idle => 0 | .running => 1 | .parked => 2 | .faulted => 3

/-- The 16-bit CPST field of a channel (R299). -/
def chanField (k : Chan) : Nat := k.cause.toNat * 256 + (if k.hwait.isSome then 4 else 0) + k.state.code

/-- CPST (R299). -/
def cpst (c : Core) : Word :=
  BitVec.ofNat 64 (chanField c.chans[0] + chanField c.chans[1] * 2 ^ 16 + chanField c.chans[2] * 2 ^ 32 + chanField c.chans[3] * 2 ^ 48)

/-- HSTAT (R153): bit h set while helper h is live. -/
def hstat (c : Core) : Word :=
  (List.finRange 10).foldl (fun w (h : Fin 10) => if (c.helpers.get h).live then w ||| (1#64 <<< h.val) else w) 0

/-- A partition-wide register's value: QLEN is the length in force, which a write in a deterministic partition changes at the
quantum end (R158; log entry 92). -/
def partReg (p : Partition) (n : Nat) : Word :=
  if n = 0x101 then p.grace else if n = 0x102 then p.nhold else p.qlen

/-- The value of a control register for the context that issues (R153). -/
def ctlValue (s : State) (n : Nat) : Word :=
  let x := curCtx s
  let c := s.core
  match n with
  | 0x000 => x.status
  | 0x001 => x.cause
  | 0x002 => x.epc
  | 0x003 => x.eval
  | 0x004 => x.einfo
  | 0x005 => c.tvec
  | 0x006 => x.fmt
  | 0x007 => x.fflags
  | 0x008 => c.task
  | 0x009 => c.lcore
  | 0x00A => c.grank
  | 0x00B => c.gsize
  | 0x00C => c.groupid
  | 0x00D => BitVec.ofNat 64 (corePart c % 64)
  | 0x00E => if detMode s then 0 else c.cycle
  | 0x00F => if detMode s then 0 else c.retired
  | 0x010 => if detMode s then 0 else BitVec.ofNat 64 c.wdog
  | 0x011 => if detMode s then BitVec.ofNat 64 c.qnt else 0
  | 0x012 => if detMode s then 0 else BitVec.ofNat 64 c.duty
  | 0x013 => c.bwphase
  | 0x014 => c.seed
  | 0x018 => BitVec.ofNat 64 c.chans[0].wp
  | 0x019 => BitVec.ofNat 64 c.chans[1].wp
  | 0x01A => BitVec.ofNat 64 c.chans[2].wp
  | 0x01B => BitVec.ofNat 64 c.chans[3].wp
  | 0x01C => cpst c
  | 0x020 => hstat c
  | 0x021 => if detMode s then 0 else c.nbstat
  | 0x100 => c.saveptr
  | _ =>
    if 0x800 ≤ n then ((c.fw.find? (·.1 == n)).map (·.2)).getD 0
    else ((partAt s (corePart c)).map (fun p => partReg p n)).getD 0

/-- The channel of a copy command. -/
def CopyCmd.chan (q : CopyCmd) : Fin 4 := match q with | .cpy _ ch .. => ch | .cpyc _ ch .. => ch | .cstop _ ch => ch

/-- In deterministic mode an mfc of WPn or CPST waits for the channels it names, and for their commands that still wait in the
queue (R301). -/
def chansWait (s : State) (n : Nat) : Bool :=
  detMode s && (List.finRange 4).any (fun ch => (n == 0x1C || n == 0x18 + ch.val) &&
    (s.core.chans[ch].state == .running || s.core.copyq.any (·.chan == ch)))

/-- A control number as EVAL. -/
def ctlEval (n : BitVec 12) : Word := n.zeroExtend 64

/-- mfc (R156, R158). -/
def mfcBody (d : Reg) (n : BitVec 12) : Act Unit := do
  let s ← get
  let firmware := 0x800 ≤ n.toNat
  if firmware && privOf (curCtx s).status < 2 then trapAct 0x03 (ctlEval n)
  if !firmware && (ctlAccess n.toNat).isNone then trapAct 0x02 (ctlEval n)
  if chansWait s n.toNat then stallAct
  writeS d (ctlValue s n.toNat)

/-- mfc (R156). -/
def execMfc (d : Reg) (n : BitVec 12) (s : State) : Host.Outcome State Fault Refusal :=
  runSeq { len := 4, dests := [d], txn := true } (mfcBody d n) s

/-- Whether a value passes the range rule of its register (R157). -/
def ctlRange (s : State) (n : Nat) (v : Word) : Bool :=
  match n with
  | 0x000 => v &&& ~~~0xE#64 == (curCtx s).status &&& ~~~0xE#64 && bitsOf v 3 1 < 6
  | 0x005 => !v.getLsbD 0 && canonical v
  | 0x007 => bitsOf v 63 5 == 0
  | 0x013 => v.toNat < 4
  | 0x014 => bitsOf v 63 32 == 0
  | 0x100 => bitsOf v 5 0 == 0 && canonical v
  | 0x101 => bitsOf v 63 32 == 0
  | 0x102 => v.toNat < 4096
  | 0x103 => 64 ≤ v.toNat && v.toNat ≤ 1048576
  | _ => true

/-- Write a partition-wide register (R158): QLEN of a deterministic partition changes at the next quantum end. -/
def putPartReg (tag n : Nat) (v : Word) (s : State) : State :=
  onPart tag (fun p =>
    if n = 0x101 then { p with grace := v }
    else if n = 0x102 then { p with nhold := v }
    else if quantumRules p then { p with qlenNext := some v } else { p with qlen := v }) s

/-- Write a control register that passed its checks (R157, R158); a write of BWPHASE empties the current regions (R189), and a
partition-wide register is written at the quantum end where the quantum rules apply (R40, R332). -/
def putCtl (n : Nat) (v : Word) (s : State) : State :=
  match n with
  | 0x000 => onCur (fun x => { x with status := v }) s
  | 0x005 => { s with core := { s.core with tvec := v } }
  | 0x007 => onCur (fun x => { x with fflags := v }) s
  | 0x013 => { s with core := { s.core with bwphase := v, run := s.core.run.map (fun r => { r with regions := [] }) } }
  | 0x014 => { s with core := { s.core with seed := v } }
  | 0x100 => { s with core := { s.core with saveptr := v } }
  | _ =>
    if 0x800 ≤ n then { s with core := { s.core with fw := putBy (·.1) (n, v) s.core.fw } }
    else if (partAt s (corePart s.core)).any quantumRules then holdReq s.core.phys (.setReg n v) s
    else putPartReg (corePart s.core) n v s

/-- mtc (R156, R157). EVAL of check 1 is the register's number, as every ReadS has it (R64; log entry 99). -/
def mtcBody (n : BitVec 12) (a : Reg) (wa : Bool) : Act Unit := do
  let v ← readS a wa
  let s ← get
  let priv := privOf (curCtx s).status
  let firmware := 0x800 ≤ n.toNat
  if firmware && priv < 2 then trapAct 0x03 (ctlEval n)
  match ctlAccess n.toNat with
  | none => if !firmware then trapAct 0x02 (ctlEval n)
  | some .ro => trapAct 0x03 (ctlEval n)
  | some .rt => if priv < 1 then trapAct 0x03 (ctlEval n)
  | some .rw => pure ()
  if isHelper s && n.toNat ≠ 0 && n.toNat ≠ 7 then trapAct 0x01 (ctlEval n)
  if !ctlRange s n.toNat v then trapAct 0x02 (ctlEval n)
  modify (putCtl n.toNat v)

/-- mtc (R156). -/
def execMtc (n : BitVec 12) (a : Reg) (wa : Bool) (s : State) : Host.Outcome State Fault Refusal :=
  runSeq { len := 4 } (mtcBody n a wa) s

end Sys2Proof.Machine
end

