-- ==== Sys2Proof/Machine/Mem.lean ====
section
/-!
DEFINITION. Loads, stores and cache operations (R197 to R204) and the sample that a load gives the monitor units (R400).
-/

namespace Sys2Proof.Machine

/-- The frame of a load. -/
def loadInfo (len : Nat) (d : Reg) : InstrInfo := { len := len, dests := [d], txn := true }

/-- The frame of a store. -/
def storeInfo (len : Nat) : InstrInfo := { len := len, txn := true }

/-- The frame of a cache operation. -/
def cacheInfo : InstrInfo := { len := 4 }

/-- The latency class of a local store on another core (R172). -/
def latencyClass (phys owner : Nat) : Nat :=
  if phys = owner then 0 else if rowOf phys = rowOf owner then 1 else if clusterOf phys = clusterOf owner then 2
  else if dieOf phys = dieOf owner then 3 else 4

/-- SEL of a load by where it is served (R400): a local store by class, the L1, the cluster cache, else the memory behind
it. -/
def servedFrom (s : State) (phys : Nat) (p : Piece) : Nat :=
  match p.place with
  | .ls owner .. => latencyClass phys owner
  | .mem pa =>
    if p.cacheable && (coreAt s phys).l1d.contains (pa / 64) then 5
    else if p.cacheable && (lineAt s (clusterOf phys) (pa / 64)).isSome then 6
    else if inDieCache s (pa / 64) then (if homeDie pa = dieOf phys then 7 else 8)
    else if pa < 0x3000000000 then 9 else if isDram pa then 10 else 11

/-- The sample of a load (R400). `before` is the state in which the load found its line. -/
def sampleLoad (ag : Agent) (before : State) (addr : Word) (n : Nat) : Act Unit := do
  if (clusterAt before (clusterOf ag.phys)).mons.all (fun u => !u.config.getLsbD 0) then pure ()
  else
    match ← attempt (fun s => resolve ag (.ctx ag.phys ag.ctx) needR addr n s) with
    | .ok (p :: _) => sampleFree ag.phys ag.part 0 (servedFrom before ag.phys p)
    | _ => pure ()

/-- A load by the context that issues, into a register (R63, R67, R197): a value that is slow arrives later; without a
destination a bad line is consumed at once. -/
def loadTo (d : Reg) (addr : Word) (n : Nat) (f : Nat → Word) : Act Unit := do
  destReady d
  let ag := curAgent (← get)
  let before ← get
  let l ← loadAct ag addr n
  sampleLoad ag before addr n
  let v := f (leNat l.bytes)
  if d = 0 then
    if l.bad then trapAct 0x17 (badEval addr)
  else if l.slow then modify (bring d v addr l.bad l.package)
  else modify (setReg d v)

/-- A load instruction (R197). -/
def loadBody (d a : Reg) (wa : Bool) (off : BitVec 11) (n : Nat) (f : Nat → Word) : Act Unit := do
  let base ← readS a wa
  loadTo d (base + off.signExtend 64 * BitVec.ofNat 64 n) n f

/-- A store instruction (R197): a, then the data register, both under w. -/
def storeBody (data a : Reg) (w : Bool) (off : BitVec 11) (n : Nat) : Act Unit := do
  let base ← readS a w
  let v ← readS data w
  storeAct (curAgent (← get)) (base + off.signExtend 64 * BitVec.ofNat 64 n) (leBytes n v.toNat)

/-- What a prefetch of a level does to a line that passes the checks of R199 (R201): nothing changes but copies. A bad
line is recorded (R194). -/
def prefetchLine (ag : Agent) (level : Fin 3) (pa : Nat) (s : State) : State :=
  let line := pa / 64
  let near := (lineAt s (clusterOf ag.phys) line).isSome
  let awake := near || inDieCache s line || (bankAt s (bankOf pa)).state == .active
  if !awake then (if (bankAt s (bankOf pa)).state == .retention then preWake (bankOf pa) s else s)
  else if hasPartials line s || ownedFor s ag.phys line true then s
  else if s.badLines.contains line then errorRecorded ag.part ag.phys line s
  else
    let s := if near then s else enterDie line s
    if level = 2 then s
    else
      let s := fillLine (clusterOf ag.phys) ag.part line s
      if level = 0 then onCore ag.phys (fun c => { c with l1d := intoL1 id line c.l1d }) s else s

/-- A prefetch hint (R201, log entry 11): it acts where the TLB translates the address to a write-back page of the
partition's device memory. -/
def prefetch (ag : Agent) (level : Fin 3) (va : Word) (s : State) : State :=
  if inWindows va || !canonical va then s
  else
    match partAt s ag.part with
    | none => s
    | some p =>
      match ((coreAt s ag.phys).tlb ++ (clusterAt s (clusterOf ag.phys)).tlb).find? (fun e => e.serves ag.part p.gen (va.toNat / 4096) needR ag.priv) with
      | none => s
      | some e =>
        let pa := e.ppage * 4096 + va.toNat % 4096
        if isDram pa && mayReach s ag.part pa && e.ty == 2 then prefetchLine ag level pa s else s

/-- cflush and cinval (R202, R203). -/
def cacheBody (inval : Bool) (scope : Scope) (a : Reg) (wa : Bool) : Act Unit := do
  let va ← readS a wa
  cacheAct (curAgent (← get)) scope inval va

/-- ld.b (R197). -/
def execLdB (d a : Reg) (wa : Bool) (off : BitVec 11) (s : State) : Host.Outcome State Fault Refusal :=
  runSeq (loadInfo 4 d) (loadBody d a wa off 1 (sextBits 8)) s

/-- ld.h (R197). -/
def execLdH (d a : Reg) (wa : Bool) (off : BitVec 11) (s : State) : Host.Outcome State Fault Refusal :=
  runSeq (loadInfo 4 d) (loadBody d a wa off 2 (sextBits 16)) s

/-- ld.w (R197). -/
def execLdW (d a : Reg) (wa : Bool) (off : BitVec 11) (s : State) : Host.Outcome State Fault Refusal :=
  runSeq (loadInfo 4 d) (loadBody d a wa off 4 (sextBits 32)) s

/-- ld.d (R197). -/
def execLdD (d a : Reg) (wa : Bool) (off : BitVec 11) (s : State) : Host.Outcome State Fault Refusal :=
  runSeq (loadInfo 4 d) (loadBody d a wa off 8 (zextBits 64)) s

/-- ld.bn (R197). -/
def execLdBn (d a : Reg) (wa : Bool) (off : BitVec 11) (s : State) : Host.Outcome State Fault Refusal :=
  runSeq (loadInfo 4 d) (loadBody d a wa off 1 (zextBits 8)) s

/-- ld.hn (R197). -/
def execLdHn (d a : Reg) (wa : Bool) (off : BitVec 11) (s : State) : Host.Outcome State Fault Refusal :=
  runSeq (loadInfo 4 d) (loadBody d a wa off 2 (zextBits 16)) s

/-- ld.wn (R197). -/
def execLdWn (d a : Reg) (wa : Bool) (off : BitVec 11) (s : State) : Host.Outcome State Fault Refusal :=
  runSeq (loadInfo 4 d) (loadBody d a wa off 4 (zextBits 32)) s

/-- st.b (R197). -/
def execStB (data a : Reg) (w : Bool) (off : BitVec 11) (s : State) : Host.Outcome State Fault Refusal :=
  runSeq (storeInfo 4) (storeBody data a w off 1) s

/-- st.h (R197). -/
def execStH (data a : Reg) (w : Bool) (off : BitVec 11) (s : State) : Host.Outcome State Fault Refusal :=
  runSeq (storeInfo 4) (storeBody data a w off 2) s

/-- st.w (R197). -/
def execStW (data a : Reg) (w : Bool) (off : BitVec 11) (s : State) : Host.Outcome State Fault Refusal :=
  runSeq (storeInfo 4) (storeBody data a w off 4) s

/-- st.d (R197). -/
def execStD (data a : Reg) (w : Bool) (off : BitVec 11) (s : State) : Host.Outcome State Fault Refusal :=
  runSeq (storeInfo 4) (storeBody data a w off 8) s

/-- c.ld d, (b): ld.d with offset 0 (R44, R197). -/
def execCLd (d b : Reg) (w : Bool) (s : State) : Host.Outcome State Fault Refusal :=
  runSeq (loadInfo 2 d) (loadBody d b w 0 8 (zextBits 64)) s

/-- c.st d, (b): st.d of d with offset 0; b is read before d (R44, R197). -/
def execCSt (d b : Reg) (w : Bool) (s : State) : Host.Outcome State Fault Refusal :=
  runSeq (storeInfo 2) (storeBody d b w 0 8) s

/-- pref (R201). -/
def execPref (level : Fin 3) (a : Reg) (wa : Bool) (s : State) : Host.Outcome State Fault Refusal :=
  runSeq cacheInfo (do
    let va ← readS a wa
    modify (fun s => prefetch (curAgent s) level va s)) s

/-- cflush (R202, R204). -/
def execCflush (scope : Scope) (a : Reg) (wa : Bool) (s : State) : Host.Outcome State Fault Refusal :=
  runSeq cacheInfo (cacheBody false scope a wa) s

/-- cinval (R203, R204). -/
def execCinval (scope : Scope) (a : Reg) (wa : Bool) (s : State) : Host.Outcome State Fault Refusal :=
  runSeq cacheInfo (cacheBody true scope a wa) s

end Sys2Proof.Machine
end

