-- ==== Sys2Proof/Machine/Sync.lean ====
section
/-!
DEFINITION. Sync words, bindings, fences and monitors (R214 to R221).
-/

namespace Sys2Proof.Machine

/-- The frame of an instruction of major 22. -/
def syncInfo : InstrInfo := { len := 4 }

/-- The frame of bind and unbind: runtime privilege, not in a helper (R214, R215). -/
def bindInfo : InstrInfo := { len := 4, priv := 1, helper := false }

/-- Scopes below .clus act as .clus (R217, R218). -/
def atLeastClus (scope : Scope) : Scope := match scope with | .core | .row => .clus | x => x

/-- Whether a scope is .die or above. -/
def beyondCluster (scope : Scope) : Bool := match scope with | .die | .dev | .sys => true | _ => false

/-- Resolve a sync word: aligned, readable and writable, no register block, for a deterministic task no foreign mark, since acq
and rel read it (R199, R213). It is reached where R207 has an atomic of the scope. -/
def syncPlace (ag : Agent) (scope : Scope) (va : Word) : Act Piece := do
  if va.toNat % 8 ≠ 0 then trapAct 0x05 va
  match ← resolve ag (.ctx ag.phys ag.ctx) needRW va 8 with
  | [] => trapAct 0x07 va
  | p :: _ =>
    if p.inRegs then trapAct 0x09 va
    let s ← get
    if ag.det && p.pa?.any (fun pa => s.foreignMarks.contains (pa / 64)) then trapAct 0x11 va
    stashFill ag (.ctx ag.phys ag.ctx) p
    touchData ag { p with cacheable := rmwAtCluster scope p.cacheable }
    return p

/-- The virtual address of a stash line of a core (R179). -/
def stashVa (c : Core) (l : StashLine) : Option Nat :=
  (c.stash.find? (fun e => e.covers l.part l.gid l.lsline)).map (fun e =>
    (e.a &&& ~~~0x3F#64).toNat + (l.lsline - bitsOf e.b 10 0) * 64)

/-- Whether an address lies in a region bound to a sync word (R380). -/
def boundTo (p : Partition) (word : Word) (va : Nat) : Bool :=
  p.regions.any (fun r => r.cls == 1 && r.sync == word && r.base ≤ va && va < r.base + r.length)

/-- Step 2 of acq at .die and above (R217): the cluster's stash lines of regions bound to the word go, then every line
of the partition leaves the cluster cache and its L1s, written back first (log entry 12); a tracked line is written back and stays
(R274). -/
def acquireLines (phys part : Nat) (word : Word) (s : State) : State :=
  let cl := clusterOf phys
  let bound := fun va => (partAt s part).any (fun p => boundTo p word va)
  let s := (allCores s).foldl (fun s c =>
    if clusterOf c.phys = cl then
      (c.stashLines.filter (fun l => l.part == part && (stashVa c l).any bound)).foldl (fun s l => stashWriteBack c.phys l true s) s
    else s) s
  (((clusterAt s cl).lines.filter (·.part == part)).map CLine.line).foldl (fun s line =>
    if trackedIn s cl line then writeBack cl line (combineCluster cl line (recallStash cl line s)) else dropLine cl line s) s

/-- The held set of the running task of a core. -/
def heldSet (s : State) (phys : Nat) : List HeldWord := ((coreAt s phys).run.map Running.held).getD []

/-- Change the held set of the running task of a core. -/
def onHeld (phys : Nat) (f : List HeldWord → List HeldWord) (s : State) : State :=
  onCore phys (fun c => { c with run := c.run.map (fun r => { r with held := f r.held }) }) s

/-- Lines that are to be written back to their homes wait while a copy channel owns one (R263) or the host may hold one (R442). -/
def awaitLines (phys : Nat) (lines : List Nat) : Act Unit := do
  let s ← get
  if lines.any (fun l => ownedFor s phys l true) then stallAct
  lines.forM awaitHost

/-- The lines of a partition that an acq at .die or above writes back (R217). -/
def dirtyLinesOf (s : State) (cl part : Nat) : List Nat :=
  ((clusterAt s cl).lines.filter (fun l => l.part == part && unwritten s cl l.line)).map CLine.line

/-- Acquire a sync word by a context of a core (R216, R217); a fifth word of the task traps. The earlier accesses of the
context are performed first (R259). -/
def acqAct (ag : Agent) (scope : Scope) (va : Word) : Act Unit := do
  let p ← syncPlace ag scope va
  let held := heldSet (← get) ag.phys
  let has := held.any (·.va == va)
  if !has && held.length ≥ 4 then trapAct 0x09 va 4
  performMeeting ag [p]
  if !accessesDone (← get) ag.phys ag.ctx scope then stallAct
  let far := beyondCluster scope
  if far then awaitLines ag.phys (dirtyLinesOf (← get) (clusterOf ag.phys) ag.part)
  match p.pa? with
  | some pa =>
    if far && p.cacheable then
      if unwritten (← get) (clusterOf ag.phys) (pa / 64) then awaitLines ag.phys [pa / 64]
      modify (fun s => dropLine (clusterOf ag.phys) (pa / 64) (recallStash (clusterOf ag.phys) (pa / 64) s))
  | none => pure ()
  modify (readAt ag.phys ag.part ag.self (p.cacheable && !far) p.place)
  if anyBad (← get) [p] then trapAct 0x17 (badEval va)
  if far then modify (acquireLines ag.phys ag.part va)
  if !has then modify (onHeld ag.phys (fun l => l ++ [⟨va, p.place, p.cacheable⟩]))

/-- Release a sync word (R218): wait as a fence, write back, add 1, remove it from the held set. -/
def relAct (ag : Agent) (scope : Scope) (va : Word) : Act Unit := do
  let p ← syncPlace ag scope va
  fenceAct ag scope
  if anyBad (← get) [p] then trapAct 0x17 (badEval va)
  match p.pa? with
  | some pa => if !rmwAtCluster scope p.cacheable then awaitHost (pa / 64)
  | none => pure ()
  if beyondCluster scope then awaitLines ag.phys (releaseLinesOf (← get) (clusterOf ag.phys) ag.part)
  modify (releaseWord ag.phys ag.part ag.det scope ⟨va, p.place, p.cacheable⟩)
  modify (onHeld ag.phys (fun l => l.filter (·.va != va)))

/-- acq (R217). -/
def execAcq (scope : Scope) (a : Reg) (w : Bool) (s : State) : Host.Outcome State Fault Refusal :=
  runSeq syncInfo (do
    let va ← readS a w
    acqAct (curAgent (← get)) (atLeastClus scope) va) s

/-- rel (R218). -/
def execRel (scope : Scope) (a : Reg) (w : Bool) (s : State) : Host.Outcome State Fault Refusal :=
  runSeq syncInfo (do
    let va ← readS a w
    relAct (curAgent (← get)) (atLeastClus scope) va) s

/-- A binding descriptor that breaks no rule of R214 for a sync word address. -/
def bindOk (b : List Byte) (word : Word) : Bool :=
  let base := dwordAt b 0
  let length := dwordAt b 1
  let cls := dwordAt b 2
  base % 64 == 0 && length != 0 && length % 64 == 0 && cls < 4 && dwordAt b 3 == 0 &&
    (if cls = 1 then word != 0 && word.toNat % 8 == 0 else word == 0)

/-- Change the region bindings of a partition, and their copies where a layout change is staged (R437). -/
def onRegions (f : List Region → List Region) (p : Partition) : Partition :=
  { p with regions := f p.regions, shadow := p.shadow.map (fun h => { h with regions := f h.regions }) }

/-- bind (R214). -/
def bindAct (word desc : Word) : Act Unit := do
  let s ← get
  let ag := curAgent s
  let regions := ((partAt s ag.part).map Partition.regions).getD []
  if regions.length ≥ 1024 then trapAct 0x09 desc 1
  let b ← readMem ag (.ctx ag.phys ag.ctx) .load desc 32
  if !bindOk b word then trapAct 0x09 desc 3
  let r : Region := ⟨dwordAt b 0, dwordAt b 1, dwordAt b 2, 0, word⟩
  if regions.any (fun q => q.base < r.base + r.length && r.base < q.base + q.length) then trapAct 0x09 desc 2
  modify (onPart ag.part (onRegions (fun l => l ++ [r])))

/-- bind (R214): the sync word's address, then the descriptor's. -/
def execBind (a b : Reg) (w : Bool) (s : State) : Host.Outcome State Fault Refusal :=
  runSeq bindInfo (do
    let word ← readS a w
    let desc ← readS b w
    bindAct word desc) s

/-- unbind (R215). -/
def execUnbind (a : Reg) (w : Bool) (s : State) : Host.Outcome State Fault Refusal :=
  runSeq bindInfo (do
    let base ← readS a w
    modify (fun s => onPart (curAgent s).part (onRegions (·.filter (fun r => BitVec.ofNat 64 r.base != base))) s)) s

/-- fence (R219). -/
def execFence (scope : Scope) (s : State) : Host.Outcome State Fault Refusal :=
  runSeq syncInfo (do fenceAct (curAgent (← get)) scope) s

/-- mon (R220): load the dword and arm the monitor in one step; the register is filled later (R63). Without a register a bad line is
consumed at once (R194, R199). -/
def monBody (d a : Reg) (w : Bool) : Act Unit := do
  let va ← readS a w
  destReady d
  if va.toNat % 8 ≠ 0 then trapAct 0x05 va
  let ag := curAgent (← get)
  let ps ← openAccess ag (.ctx ag.phys ag.ctx) .load needR true va 8
  performMeeting ag ps
  modify (reachPieces ag ps)
  let s ← get
  match ps with
  | [] => pure ()
  | p :: _ =>
    if d = 0 && anyBad s ps then trapAct 0x17 (badEval va)
    modify (onCur (fun x => { x with monitor := some ⟨p.place, false⟩ }))
    modify (bring d (BitVec.ofNat 64 (leNat (piecesBytes s ag ps))) va (anyBad s ps) (p.pa?.bind packageOf))

/-- mon (R220). -/
def execMon (d a : Reg) (w : Bool) (s : State) : Host.Outcome State Fault Refusal :=
  runSeq { len := 4, dests := [d] } (monBody d a w) s

/-- mwait (R221): at once if the monitor has recorded a wake-up or is not armed; else the context waits. -/
def mwaitBody : Act Unit := do
  let s ← get
  let x := curCtx s
  if detMode s then trapAct 0x15 0
  let wakes := match x.monitor with | none => true | some m => m.woke
  if wakes || x.await == .mwaitDone then
    modify (onCur (fun x => { x with monitor := none, await := .nothing }))
  else
    modify (onCur (fun x => { x with await := .mwait }))
    stallAct true

/-- mwait (R221). -/
def execMwait (s : State) : Host.Outcome State Fault Refusal := runSeq syncInfo mwaitBody s

end Sys2Proof.Machine
end

