-- ==== Sys2Proof/Machine/Record.lean ====
section
/-!
DEFINITION. Shape records: their layout (R375), the record cache (R376), the rules of R229 to R232, where their elements
lie (R93, R230), and tsfence and tsdim (R377, R378).
-/

namespace Sys2Proof.Machine

/-! ### The record -/

/-- A 32-bit field of a record's bytes at an offset. -/
def wAt (b : List Byte) (off : Nat) : Nat := leNat (slice b off 4)

/-- A signed 64-bit field of a record's bytes. -/
def sdAt (b : List Byte) (off : Nat) : Int := (BitVec.ofNat 64 (leNat (slice b off 8))).toInt

/-- RANK of a record's bytes. -/
def rankAt (b : List Byte) : Nat := leNat (slice b 9 1)

/-- The extent of dimension k; 1 at or above RANK (R229, R375). -/
def extAt (b : List Byte) (k : Nat) : Nat := if k < rankAt b then wAt b (16 + 4 * k) else 1

/-- The byte stride of dimension k of 1 to 3; 0 for dimension 0 and at or above RANK. -/
def strideAt (b : List Byte) (k : Nat) : Int := if k = 0 || rankAt b ≤ k then 0 else sdAt b (24 + 8 * k)

/-- The fields of a shape record's 64 bytes (R375). -/
def parseShape (b : List Byte) : ShapeRec where
  base := BitVec.ofNat 64 (dwordAt b 0)
  fmt := leNat (slice b 8 1)
  rank := rankAt b
  space := leNat (slice b 10 1)
  pad := leNat (slice b 11 1) % 2 == 1
  padval := BitVec.ofNat 32 (wAt b 12)
  ext := Vector.ofFn (fun k : Fin 4 => extAt b k)
  stride := Vector.ofFn (fun k : Fin 4 => strideAt b k)

/-- The field rules of R375 on a record's bytes. -/
def shapeFieldsOk (b : List Byte) : Bool :=
  let r := parseShape b
  r.fmt < 15 && 1 ≤ r.rank && r.rank ≤ 4 && r.space < 4 && leNat (slice b 11 1) < 2 && wAt b 60 == 0 &&
    r.ext.all (· != 0)

/-- The bytes to which an element's address is aligned (R127, R230): 16 for Q4X, 1 for other formats below a byte. -/
def fmtAlign (fmt : Nat) : Nat := if fmt = 8 then 16 else max 1 (fmtBits fmt / 8)

/-- The rules of R230 and R93: base and strides aligned to the element, ext0 a multiple of the granule. -/
def shapeAddrOk (r : ShapeRec) : Bool :=
  r.base.toNat % fmtAlign r.fmt == 0 && r.stride.all (fun x => x % (fmtAlign r.fmt : Int) == 0) &&
    r.ext[0] % fmtGranule r.fmt == 0

/-- Every rule that a record must meet by itself (R230, R375). -/
def shapeOk (b : List Byte) : Bool := shapeFieldsOk b && shapeAddrOk (parseShape b)

/-! ### The record cache (R376) -/

/-- An entry becomes the one most recently read; 16 entries at most. -/
def keepRecord (phys : Nat) (addr : Word) (b : List Byte) (s : State) : State :=
  onCore phys (fun c => { c with recs := ((addr, b) :: c.recs.filter (·.1 != addr)).take 16 }) s

/-- EINFO of an engine fault: index, member, operand code (R160). -/
def mxInfo (index member code : Nat) : Word := BitVec.ofNat 64 (index % 65536 * 65536 + member * 256 + code)

/-- A fault with an operand's EINFO. -/
def withInfo {α : Type} (info : Word) (a : Act α) : Act α := do
  match ← attempt a with
  | .ok x => return x
  | .error (.trap c v e) => trapAct c v (e ||| info)
  | .error e => throw e

/-- A fault in reading a record: EVAL is the record's address, EINFO gains the operand code (R135, R234). -/
def recordFault {α : Type} (addr : Word) (code : Nat) (a : Act α) : Act α := do
  match ← attempt a with
  | .ok x => return x
  | .error (.trap c _ e) => trapAct c addr (e ||| BitVec.ofNat 64 code)
  | .error e => throw e

/-- Read a record through the cache: its bytes, and whether they pass the field rules and the reader's own. Only then does a miss fill an
entry, and only if they pass what else the reader asks of the operand, `also`, too (R376). -/
def fetchRecord (ag : Agent) (w : Waiter) (code : Nat) (addr : Word) (own : List Byte → Bool)
    (also : List Byte → Bool := fun _ => true) : Act (List Byte × Bool) := do
  let s ← get
  match (coreAt s ag.phys).recs.find? (·.1 == addr) with
  | some (_, b) =>
    set (keepRecord ag.phys addr b s)
    return (b, shapeFieldsOk b && own b)
  | none =>
    let b ← recordFault addr code (readMem ag w .load addr 64)
    let ok := shapeFieldsOk b && own b
    if ok && also b then modify (keepRecord ag.phys addr b)
    return (b, ok)

/-! ### Points, elements and their addresses -/

/-- N = e0 × e1 × e2 × e3 (R229). -/
def countOf (e : Vector Nat 4) : Nat := e[0] * e[1] * e[2] * e[3]

/-- The point of a linear index (R229). -/
def pointOf (e : Vector Nat 4) (i : Nat) : Vector Nat 4 :=
  #v[i % e[0], i / e[0] % e[1], i / (e[0] * e[1]) % e[2], i / (e[0] * e[1] * e[2])]

/-- Whether a source extent conforms to one of the iteration space (R231). -/
def conformsDim (pad : Bool) (e f : Nat) : Bool := f == e || f == 1 || (f < e && pad)

/-- Whether a source conforms to an iteration space (R231). -/
def conforms (e : Vector Nat 4) (r : ShapeRec) : Bool :=
  (List.finRange 4).all (fun k => conformsDim r.pad (e.get k) (r.ext.get k))

/-- The point of a source that a point of the iteration space reads, none for the pad value (R231). -/
def sourcePoint (e : Vector Nat 4) (r : ShapeRec) (p : Vector Nat 4) : Option (Vector Nat 4) :=
  if (List.finRange 4).all (fun k => r.ext.get k == e.get k || r.ext.get k == 1 || p.get k < r.ext.get k) then
    some (Vector.ofFn (fun k : Fin 4 => if r.ext[k] = e[k] then p[k] else if r.ext[k] = 1 then 0 else p[k]))
  else none

/-- The byte offset of a point's row from the base. -/
def rowOffset (r : ShapeRec) (p : Vector Nat 4) : Int := p[1] * r.stride[1] + p[2] * r.stride[2] + p[3] * r.stride[3]

/-- The address of the first byte of an element (R93, R230). -/
def elemAddr (r : ShapeRec) (p : Vector Nat 4) : Word :=
  r.base + BitVec.ofInt 64 (rowOffset r p + (p[0] * fmtBits r.fmt / 8 : Nat))

/-- The bit within that byte at which it starts. -/
def elemBit (r : ShapeRec) (p : Vector Nat 4) : Nat := p[0] * fmtBits r.fmt % 8

/-- How many bytes it touches. -/
def elemSpan (r : ShapeRec) (p : Vector Nat 4) : Nat := (elemBit r p + fmtBits r.fmt + 7) / 8

/-- The element's bits out of its bytes. -/
def elemOf (r : ShapeRec) (p : Vector Nat 4) (b : List Byte) : Nat := leNat b / 2 ^ elemBit r p % 2 ^ fmtBits r.fmt

/-- The bytes of an element's span with the element replaced. -/
def elemPut (r : ShapeRec) (p : Vector Nat 4) (b : List Byte) (v : Nat) : List Byte :=
  let old := elemOf r p b
  leBytes b.length (leNat b - old * 2 ^ elemBit r p + v % 2 ^ fmtBits r.fmt * 2 ^ elemBit r p)

/-- The pad value of a record's format (R231). -/
def padBits (r : ShapeRec) : Nat :=
  if r.fmt = 9 then (r.padval.signExtend 64).toNat else r.padval.toNat % 2 ^ fmtBits r.fmt

/-! ### Spaces (R232, R307) -/

/-- Whether an address lies where a record's space says: own window, peer window, anywhere for global memory. -/
def spaceHolds (space : Nat) (va : Word) : Bool :=
  match space with
  | 1 => inWindows va && va.toNat % 2 ^ 48 < 0x20000
  | 2 => inWindows va && 0x10000000000 ≤ va.toNat % 2 ^ 48
  | _ => true

/-- The ring of a core whose control block lies at an own-window address. -/
def ringAt (c : Core) (va : Word) : Option Ring :=
  ((List.finRange 4).filterMap (fun i => c.rings.get i)).find? (fun r =>
    spaceHolds 1 va && r.cb == va.toNat % 2 ^ 48 && c.run.any (fun x => x.gid == r.gid && x.part == r.part))

/-- A dword of an allocation's bytes. -/
def lsDword (m : Memory) (off : Nat) : Nat := leNat (memRead m off 8)

/-- The offset in the allocation and the body length of the message at HEAD of a ring, after any skip header; none when
the ring is empty (R307). -/
def headMessage (m : Memory) (cb : Nat) : Option (Nat × Nat) :=
  let base := lsDword m cb % 2 ^ 48
  let size := 2 ^ (lsDword m (cb + 8) % 256)
  let head := lsDword m (cb + 32) % 2 ^ 32
  let tail := lsDword m (cb + 40) % 2 ^ 32
  let skip := lsDword m (base + head % size) / 2 ^ 48 % 2 == 1
  let head := if head ≠ tail && skip then head + 8 + lsDword m (base + head % size) % 2 ^ 16 else head
  if head % 2 ^ 32 = tail then none
  else some (base + head % size + 8, lsDword m (base + head % size) % 2 ^ 16)

/-- Where the elements of a record really lie (R307): a space-3 record is moved onto the body of the message at HEAD; an
element past the body, or any of an empty or closed ring, fails with cause 0x0B. -/
def placeInSpace (ag : Agent) (r : ShapeRec) (va : Word) (n : Nat) : Act Word := do
  if r.space ≠ 3 then
    if !spaceHolds r.space va then trapAct 0x0B va
    return va
  let c := coreAt (← get) ag.phys
  match ringAt c r.base with
  | none => trapAct 0x0B va
  | some k =>
    match allocOf c k.part k.gid with
    | none => trapAct 0x0B va
    | some a =>
      match headMessage a.mem k.cb with
      | none => trapAct 0x0B va
      | some (body, len) =>
        let off := (va - r.base).toNat
        if off + n > len then trapAct 0x0B va
        return 0xFFFE000000000000 + BitVec.ofNat 64 (body + off)

/-- The bits of an element of a record, read as an access of a class (R234 orders 5 to 9). -/
def readElement (ag : Agent) (w : Waiter) (r : ShapeRec) (p : Vector Nat 4) : Act Nat := do
  let va ← placeInSpace ag r (elemAddr r p) (elemSpan r p)
  return elemOf r p (← readMem ag.onElems w .load va (elemSpan r p))

/-! ### tsfence and tsdim -/

/-- An instruction that waits for the copy engine reads records, and has not read them. -/
def CopyCmd.reads : CopyCmd → Bool
  | .cstop .. => false
  | _ => true

/-- Whether a record read of an instruction that a context of a core has issued is still to come (R377): it waits in a command
queue. -/
def recordsDue (c : Core) : Bool := !c.vcq.isEmpty || c.copyq.any CopyCmd.reads

/-- tsfence (R377): every record read of earlier instructions has been made, and records read from here on see the earlier stores of
the context. -/
def execTsfence (s : State) : Host.Outcome State Fault Refusal :=
  runSeq { len := 4 } (do
    if recordsDue (← get).core then stallAct
    performOwn (curAgent (← get))
    modify (fun s => { s with core := { s.core with recs := [] } })) s

/-- What tsdim asks of a record: the field rules and every other rule that a record must meet by itself, as each reader does
(R93, R230, R375), of which R378 names three (log entry 18). -/
def dimFieldsOk (b : List Byte) : Bool := shapeOk b

/-- tsdim (R378). -/
def tsdimBody (d a : Reg) (dim : Fin 4) (wa : Bool) : Act Unit := do
  let addr ← readS a wa
  destReady d
  if addr.toNat % 64 ≠ 0 then trapAct 0x05 addr
  let ag := curAgent (← get)
  let (b, _) ← fetchRecord ag (.ctx ag.phys ag.ctx) 0 addr dimFieldsOk
  if !dimFieldsOk b then trapAct 0x0C addr
  modify (setReg d (BitVec.ofNat 64 (extAt b dim)))

/-- tsdim (R378). -/
def execTsdim (d a : Reg) (dim : Fin 4) (wa : Bool) (s : State) : Host.Outcome State Fault Refusal :=
  runSeq { len := 4, dests := [d] } (tsdimBody d a dim wa) s

end Sys2Proof.Machine
end

