-- ==== Sys2Proof/Machine/Copy.lean ====
section
/-!
DEFINITION. The copy engine (R263 to R266, R294 to R300): pairs, transfer records, ownership of destination lines, the
line-by-line copy, the end of a record, the command queue, cpy, cpyc and cstop.
-/

namespace Sys2Proof.Machine

/-! ### Channels and jobs -/

/-- Change a channel of a core. -/
def onChan (phys : Nat) (ch : Fin 4) (f : Chan → Chan) (s : State) : State :=
  onCore phys (fun c => { c with chans := c.chans.set ch (f c.chans[ch]) }) s

/-- Bytes of a destination (R294): every element once. -/
def jobBytes (j : CopyJob) : Nat := countOf j.dst.ext * fmtBits j.dst.fmt / 8

/-- The bytes of one granule, the unit in which elements are packed (R93). -/
def unitBytes (fmt : Nat) : Nat := fmtGranule fmt * fmtBits fmt / 8

/-- The destination address of unit u of a job. -/
def unitAddr (j : CopyJob) (u : Nat) : Word := elemAddr j.dst (pointOf j.dst.ext (u * fmtGranule j.dst.fmt))

/-- A pair that meets the rules of R294, apart from those of each record. -/
def pairOk (d s : ShapeRec) : Bool := d.space < 3 && !d.pad && d.fmt == s.fmt && conforms d.ext s

/-- The accesses of a channel: of the issuing core, under its task's translation and mode; another agent than its contexts (R263). -/
def chanAgent (s : State) (phys : Nat) : Agent :=
  let c := coreAt s phys
  ⟨phys, 0, corePart c, (c.run.map Running.det).getD false, 0, false, false, true⟩

/-- The virtual addresses of the 64-byte lines that the units of a job from byte `done` on touch, each once. -/
def destLines (j : CopyJob) (done : Nat) : List Nat :=
  let n := unitBytes j.dst.fmt
  (List.range (jobBytes j / n)).foldl (fun l u =>
    if u < done / n then l
    else
      let a := (unitAddr j u).toNat
      let l := if l.contains (a / 64) then l else a / 64 :: l
      let b := (a + n - 1) / 64
      if l.contains b then l else b :: l) []

/-- Own a destination line of a record (R263): the other copies in the issuing cluster go, written back first; one that the host must
first give up (R442) goes with the write of the line. -/
def ownLine (phys : Nat) (ch : Fin 4) (line : Nat) (s : State) : State :=
  let s :=
    if s.hostLines.contains line && unwritten s (clusterOf phys) line then backInvalidate line s
    else dropLine (clusterOf phys) line (recallStash (clusterOf phys) line s)
  if s.owned.contains (line, phys, ch.val) then s else { s with owned := s.owned ++ [(line, phys, ch.val)] }

/-- Claim one destination line, by its virtual line, of a record of a space (R263): false while its page waits on a request,
or while another channel owns it. In deterministic mode the line counts as written (R273). A local store is not owned (R264), and
what is wrong with a line of it is found when it is written. -/
def claimLine (phys : Nat) (ch : Fin 4) (space l : Nat) : Act Bool := do
  let s ← get
  let ag := (chanAgent s phys).onElems
  let va := BitVec.ofNat 64 (l * 64)
  match ← attempt (resolve ag (.chan phys ch.val) needW va 64) with
  | .error (.stall _) => return false
  | .error e => if space = 0 then throw e else return true
  | .ok ps =>
    if ps.any Piece.inRegs then trapAct 0x09 va
    let s ← get
    let taken := fun (p : Piece) => p.pa?.any (fun pa => s.owned.any (fun o => o.1 == pa / 64 && o.2 != (phys, ch.val)))
    if space = 0 && ps.any taken then return false
    detCheck ag .store va ps
    if space = 0 then
      ps.forM (fun p => match p.pa? with
        | some pa => modify (ownLine phys ch (pa / 64))
        | none => pure ())
    return true

/-- Claim the destination lines of a job from byte `done` on: those that wait. -/
def ownLines (phys : Nat) (ch : Fin 4) (j : CopyJob) (done : Nat) : Act (List Nat) :=
  (destLines j done).reverse.filterM (fun l => do return !(← claimLine phys ch j.dst.space l))

/-- Claim again the lines of a job that wait, those of `now` last: only these keep a request for their page in view. What is
wrong with another line shows when its turn comes. -/
def claimAgain (phys : Nat) (ch : Fin 4) (j : CopyJob) (now : List Nat) : Act CopyJob := do
  let rest ← (j.todo.filter (fun l => !now.contains l)).filterM (fun l => do
    let s ← get
    match ← attempt (claimLine phys ch j.dst.space l) with
    | .ok true => return false
    | _ =>
      set s
      return true)
  let first ← (j.todo.filter now.contains).filterM (fun l => do return !(← claimLine phys ch j.dst.space l))
  return { j with todo := first ++ rest }

/-- The lines of a channel are no longer owned. -/
def releaseLines (phys : Nat) (ch : Fin 4) (s : State) : State :=
  { s with owned := s.owned.filter (fun o => !(o.2.1 == phys && o.2.2 == ch.val)) }

/-- A channel faults (R297, R299): its lines are released, DONE and FADDR of the record are written, OWN stays. A machine
error of a source is also taken by the issuing control context (R194). -/
def faultChannel (phys : Nat) (ch : Fin 4) (cause : BitVec 8) (addr einfo : Word) (s : State) : State :=
  let k := (coreAt s phys).chans[ch]
  let s := releaseLines phys ch s
  let s := onChan phys ch (fun k => { k with state := .faulted, cause := cause, job := none, await := .nothing }) s
  let s := if cause = 0x17 then deferTrap phys 0 ⟨0x17, addr, einfo⟩ s else s
  if k.rcd = 0 then s
  else
    let part := corePart (coreAt s phys)
    oweTransfer phys ⟨part, k.rcd, 56, addr⟩ (oweTransfer phys ⟨part, k.rcd, 48, BitVec.ofNat 64 ((k.job.map CopyJob.done).getD 0)⟩ s)

/-! ### Reading records -/

/-- Read a pair of shape records, each checked by itself (R294, R295, R297): cause 0x0C for a misaligned or an ill-formed
one. -/
def readPair (ag : Agent) (w : Waiter) (rcd : Option Transfer) (dst src : Word) : Act CopyJob := do
  if dst.toNat % 64 ≠ 0 then trapAct 0x0C dst
  let (d, dok) ← fetchRecord ag w 0 dst (fun b => shapeAddrOk (parseShape b) && (parseShape b).space < 3 && !(parseShape b).pad)
  if src.toNat % 64 ≠ 0 then trapAct 0x0C src
  let (b, sok) ← fetchRecord ag w 0 src (fun b => shapeAddrOk (parseShape b)) (fun b => dok && pairOk (parseShape d) (parseShape b))
  if !dok then trapAct 0x0C dst
  if !sok then trapAct 0x0C src
  return ⟨rcd, dst, src, parseShape d, parseShape b, 0, [], []⟩

/-- A pair whose records do not conform to each other traps with the source record's address (R294, R419). -/
def fitPair (j : CopyJob) : Act CopyJob := do
  if !pairOk j.dst j.src then trapAct 0x0C j.srcAddr
  return j

/-- Read a transfer record (R296, R297): none if its OWN is 0. One whose reserved bits are not zero is ill-formed, as one with a
misaligned address (R5; log entry 82). -/
def readTransfer (ag : Agent) (w : Waiter) (a : Word) : Act (Option CopyJob) := do
  if a.toNat % 64 ≠ 0 then trapAct 0x0C a
  let b ← recordFault a 0 (readMem ag w .other a 64)
  if bitsOf (wordAt b 8) 63 2 ≠ 0 then trapAct 0x0C a
  if !(wordAt b 8).getLsbD 0 then return none
  return some (← readPair ag w (some ⟨a, wordAt b 0, wordAt b 32, wordAt b 40, (wordAt b 8).getLsbD 1⟩) (wordAt b 16) (wordAt b 24))

/-- The pair of a transfer record, if the channel owns it, conforms. -/
def fitTransfer (x : Option CopyJob) : Act (Option CopyJob) := do
  match x with
  | none => return none
  | some j => return some (← fitPair j)

/-- A channel starts a record: it is running, and owns what it may (R263). -/
def startJob (phys : Nat) (ch : Fin 4) (j : CopyJob) : Act Unit := do
  modify (onChan phys ch (fun k => { k with state := .running, cause := 0, job := some j, rcd := (j.rcd.map Transfer.addr).getD 0, await := .nothing }))
  match ← attempt (ownLines phys ch j j.done) with
  | .error (.trap c v e) => modify (faultChannel phys ch c v e)
  | .error _ => pure ()
  | .ok l => modify (onChan phys ch (fun k => { k with job := some { j with todo := l } }))

/-- A core that a replacement takes from its partition: its channels stop at record boundaries (R437). -/
def leavingCore (s : State) (phys : Nat) : Bool :=
  (coreAt s phys).yield.isSome &&
    (partAt s (corePart (coreAt s phys))).any (fun p => p.shadow.any (fun h => !h.shrinking && h.leaving.contains phys))

/-- A channel goes on with the chain record it stands at (R297): it parks at one that it does not own. Page requests are
waited for; every other failure faults the channel. -/
def chanContinue (phys : Nat) (ch : Fin 4) : Act Unit := do
  let s ← get
  let k := (coreAt s phys).chans[ch]
  if k.state != .running || k.job.isSome || k.hwait.isSome || leavingCore s phys then pure ()
  else if k.rcd = 0 then set (onChan phys ch (fun k => { k with state := .idle, await := .nothing }) s)
  else
    match ← attempt (do fitTransfer (← readTransfer (chanAgent s phys) (.chan phys ch.val) k.rcd)) with
    | .error (.trap c v e) => modify (faultChannel phys ch c v e)
    | .error e => throw e
    | .ok none => modify (onChan phys ch (fun k => { k with state := .parked, await := .nothing }))
    | .ok (some j) => startJob phys ch j

/-! ### Copying -/

/-- The source lines read, with one more: each is read once, as a whole (R266). -/
def sourceLine (ag : Agent) (w : Waiter) (va : Word) (srcs : List (Nat × List Byte)) (l : Nat) : Act (List (Nat × List Byte)) := do
  if srcs.any (·.1 == l) then return srcs
  match ← attempt (readMem ag.onElems w .load (BitVec.ofNat 64 (l * 64)) 64) with
  | .ok b => return (l, b) :: srcs
  | .error (.trap c v e) => trapAct c (if c = 0x17 then v else va) e
  | .error e => throw e

/-- The bits of the source element for a destination point, with the source lines read so far. -/
def copyBits (ag : Agent) (w : Waiter) (j : CopyJob) (srcs : List (Nat × List Byte)) (i : Nat) : Act (Nat × List (Nat × List Byte)) :=
  match sourcePoint j.dst.ext j.src (pointOf j.dst.ext i) with
  | none => pure (padBits j.src, srcs)
  | some p => do
    let n := elemSpan j.src p
    let va ← placeInSpace ag j.src (elemAddr j.src p) n
    let l := va.toNat / 64
    let ls := if (va.toNat + n - 1) / 64 = l then [l] else [l, l + 1]
    let srcs ← ls.foldlM (sourceLine ag w va) srcs
    let b := ls.flatMap (fun l => ((srcs.find? (·.1 == l)).map (·.2)).getD [])
    return (elemOf j.src p (slice b (va.toNat % 64) n), srcs)

/-- The bytes of unit u of a job, read from the source (R294); a fault names the element in EINFO (R194). -/
def copyUnit (ag : Agent) (w : Waiter) (j : CopyJob) (srcs : List (Nat × List Byte)) (u : Nat) : Act (List Byte × List (Nat × List Byte)) := do
  let g := fmtGranule j.dst.fmt
  let (v, srcs) ← (List.range g).foldlM (fun acc k => do
    let (b, srcs) ← withInfo (mxInfo (u * g + k) 0 0) (copyBits ag w j acc.2 (u * g + k))
    return (acc.1 + b * 2 ^ (k * fmtBits j.dst.fmt), srcs)) (0, srcs)
  return (leBytes (unitBytes j.dst.fmt) v, srcs)

/-- The units of a job from byte `done` on that begin in the same destination line, one after another: the first, and how
many. -/
def lineUnits (j : CopyJob) : Nat × Nat :=
  let n := unitBytes j.dst.fmt
  let first := j.done / n
  let line := (unitAddr j first).toNat / 64
  let total := jobBytes j / n
  let rec run (fuel u : Nat) : Nat :=
    match fuel with
    | 0 => 0
    | fuel + 1 => if u < total && (unitAddr j u).toNat / 64 == line then 1 + run fuel (u + 1) else 0
  (first, run 64 first)

/-- Whether a destination line is still to be written by units from u on. -/
def lineAgain (j : CopyJob) (line u : Nat) : Bool :=
  (destLines j (u * unitBytes j.dst.fmt)).contains line

/-- A record replaces all 64 bytes of a line, by its virtual line. -/
def coversLine (j : CopyJob) (l : Nat) : Bool :=
  let n := unitBytes j.dst.fmt
  (List.range 64).all (fun i => (List.range (jobBytes j / n)).any (fun u =>
    let a := (unitAddr j u).toNat
    a ≤ l * 64 + i && l * 64 + i < a + n))

/-- A bad destination line faults the channel, unless the record replaces all of it (R194, R195). -/
def checkDest (j : CopyJob) (ps : List Piece) : Act Unit := do
  let s ← get
  match ps.find? (fun p => p.isBad s && !coversLine j (p.va.toNat / 64)) with
  | some p => trapAct 0x17 (badEval p.va)
  | none => pure ()

/-- Every byte of the line of a place has been replaced: it is bad no longer (R195). -/
def mendLine (p : Place) (s : State) : State :=
  match p with
  | .mem pa => { s with badLines := s.badLines.filter (· != pa / 64) }
  | .ls phys part gid off => onCore phys (onAlloc part gid (fun a => { a with bad := a.bad.filter (· != off / 64) })) s

/-- What the units of a destination line from the k-th on bring, with the source lines read: those before a fault, and the
fault. -/
def lineParts (ag : Agent) (w : Waiter) (j : CopyJob) (first : Nat) : Nat → List (Nat × List Byte) →
    Act (List (List Piece × List Byte) × List (Nat × List Byte) × Option Deferred)
  | 0, srcs => pure ([], srcs, none)
  | n + 1, srcs => do
    let unit : Act (List Piece × List Byte × List (Nat × List Byte)) := do
      let (b, srcs) ← copyUnit ag w j srcs first
      let a := unitAddr j first
      withInfo (mxInfo (first * fmtGranule j.dst.fmt) 0 0) (do
        if !spaceHolds j.dst.space a then trapAct 0x0B a
        let ps ← openAccess ag.onElems w .other needW true a b.length
        checkDest j ps
        ps.forM (fun p => match p.pa? with | some pa => awaitHost (pa / 64) | none => pure ())
        return (ps, b, srcs))
    match ← attempt unit with
    | .error (.trap c v e) => return ([], srcs, some ⟨c, v, e⟩)
    | .error e => throw e
    | .ok (ps, b, srcs) =>
      let (l, r) ← lineParts ag w j (first + 1) n srcs
      return ((ps, b) :: l, r)

/-- Read the sources of the next destination line and write it (R263 to R266); a line is released once no more of it is to be written. A
fault leaves the units before it written, and
WP at the first byte of the unit that faults (R297). -/
def copyLine (phys : Nat) (ch : Fin 4) (j : CopyJob) : Act Unit := do
  let s ← get
  let ag := chanAgent s phys
  let (first, count) := lineUnits j
  let n := unitBytes j.dst.fmt
  let now := (List.range count).flatMap (fun k =>
    let a := (unitAddr j (first + k)).toNat
    [a / 64, (a + n - 1) / 64])
  match ← attempt (claimAgain phys ch j now) with
  | .error (.trap c v e) => modify (faultChannel phys ch c v e)
  | .error e => throw e
  | .ok j =>
    modify (onChan phys ch (fun k => { k with job := some j }))
    if j.todo.any now.contains then stallAct
    let mine := (← get).owned
    modify (releaseLines phys ch)
    let r ← attempt (lineParts ag (.chan phys ch.val) j first count j.srcs)
    modify (fun s => { s with owned := mine })
    match r with
    | .error e => throw e
    | .ok (units, srcs, fault) =>
      units.forM (fun x => forParts x.1 x.2 (fun _ p b => modify (storeThrough phys ag.part ag.det p.place b)))
      let bytes := units.length * n
      modify (onChan phys ch (fun k => { k with
        wp := k.wp + bytes, job := some { j with done := j.done + bytes, srcs := srcs }, await := .nothing }))
      match fault with
      | some d => modify (faultChannel phys ch d.cause d.eval d.einfo)
      | none =>
        let closed := (units.flatMap (·.1)).filter (fun p => !lineAgain j (p.va.toNat / 64) (first + count))
        modify (fun s => closed.foldl (fun s p => if p.isBad s then mendLine p.place s else s) { s with owned := s.owned.filter (fun o =>
          !(o.2.1 == phys && o.2.2 == ch.val && closed.any (fun p => p.pa?.any (fun pa => pa / 64 == o.1)))) })

/-- Ask for a hardware helper on a core; requests wait in the order raised (R329). -/
def askHelper (phys : Nat) (q : HelperReq) (s : State) : State := onCore phys (fun c => { c with hreqs := c.hreqs ++ [q] }) s

/-- The end of a record (R265, R297): DONE, then OWN cleared, then the helper request, then the rest of the chain. A write into
the record may have to wait, and then both are made anew. -/
def finishRecord (phys : Nat) (ch : Fin 4) (j : CopyJob) : Act Unit := do
  modify (releaseLines phys ch)
  match j.rcd with
  | none =>
    modify (onChan phys ch (fun k => { k with state := .idle, job := none, rcd := 0 }))
    sampleFree phys (corePart (coreAt (← get) phys)) 7 0
  | some r =>
    let part := corePart (coreAt (← get) phys)
    putTransfer phys ⟨part, r.addr, 48, BitVec.ofNat 64 j.done⟩
    putTransfer phys ⟨part, r.addr, 8, if r.helper then 2 else 0⟩
    modify (onChan phys ch (fun k => { k with
      job := none, rcd := r.next, await := .nothing
      hwait := if r.helper then some (r.hpc, r.datum, r.addr) else k.hwait }))
    if r.helper then
      modify (askHelper phys ⟨r.hpc, r.datum, r.addr, .completion ch, part, 0⟩)
    sampleFree phys part 7 0
    chanContinue phys ch

/-! ### The command queue (R283) -/

/-- The frame of a copy instruction. -/
def copyInfo : InstrInfo := { len := 4 }

/-- A cstop: the engine needs nothing from its context to perform it. -/
def CopyCmd.isStop (q : CopyCmd) : Bool := match q with | .cstop .. => true | _ => false

/-- The context that a command holds at its instruction until the engine has performed it. -/
def CopyCmd.holder (q : CopyCmd) : Option Nat := match q with | .cpy i .. => some i | .cpyc i .. => some i | .cstop .. => none

/-- The engine performs the stops at the head of its queue. -/
def takeStops (phys : Nat) (s : State) : State :=
  let l := (coreAt s phys).copyq.takeWhile CopyCmd.isStop
  let s := onCore phys (fun c => { c with copyq := c.copyq.drop l.length }) s
  l.foldl (fun s q => match q with | .cstop _ ch => stopChannel phys ch s | _ => s) s

/-- A command joins the queue, unless it is there. -/
def enterCopy (q : CopyCmd) (s : State) : State :=
  if s.core.copyq.contains q then s else { s with core := { s.core with copyq := s.core.copyq ++ [q] } }

/-- A command that has been performed or refused leaves the queue, and the stops behind it are performed. -/
def leaveCopy (q : CopyCmd) (s : State) : State :=
  takeStops s.core.phys { s with core := { s.core with copyq := s.core.copyq.erase q } }

/-- A precise trap of cpy and cpyc: no address is stated for a misaligned record or one ill-formed by itself (R160, R297;
log entry 94). -/
def copyTrap {α : Type} (a : Act α) : Act α := do
  match ← attempt a with
  | .ok x => return x
  | .error (.trap c v e) => trapAct c (if c = 0x0C then 0 else v) e
  | .error e => throw e

/-- The engine performs cpy (R295): the channel stops, the pair is read and checked, the copy starts. -/
def cpyAct (ch : Fin 4) (dst src : Word) : Act Unit := do
  let s ← get
  let phys := s.core.phys
  set (stopChannel phys ch s)
  let j ← fitPair (← copyTrap (readPair (curAgent s) (.ctx phys (curIdx s)) none dst src))
  startJob phys ch j

/-- The engine performs cpyc (R297): a channel parked at the record resumes; a failed check leaves it idle. -/
def cpycAct (ch : Fin 4) (head : Word) (again : Bool) : Act Unit := do
  let s ← get
  let phys := s.core.phys
  let k := s.core.chans[ch]
  if !(again && k.state == .parked && k.rcd == head) then set (stopChannel phys ch s)
  match ← attempt (do fitTransfer (← copyTrap (readTransfer (curAgent s) (.ctx phys (curIdx s)) head))) with
  | .error (.trap c v e) =>
    modify (onChan phys ch (fun k => { k with state := .idle, rcd := 0, cause := 0 }))
    trapAct c v e
  | .error e => throw e
  | .ok none => modify (onChan phys ch (fun k => { k with state := .parked, rcd := head, cause := 0 }))
  | .ok (some j) => startJob phys ch j

/-- The engine performs a command of the context that issues. -/
def performCopy : CopyCmd → Act Unit
  | .cpy _ ch dst src => cpyAct ch dst src
  | .cpyc _ ch head again => cpycAct ch head again
  | .cstop _ ch => modify (fun s => stopChannel s.core.phys ch s)

/-- Whether the engine performs a command next: nothing but stops is before it. -/
def copyFirst (s : State) (q : CopyCmd) : Bool :=
  match s.core.copyq.head? with | none => true | some r => r == q

/-- The engine takes the commands in issue order (R284). A cpy or cpyc whose turn has come is performed; until then its context
waits, while a cstop waits alone. -/
def serveCopy (q : CopyCmd) : Act Unit := do
  modify (fun s => takeStops s.core.phys s)
  if !copyFirst (← get) q then
    modify (enterCopy q)
    if !q.isStop then stallAct
  else
    match ← attempt (performCopy q) with
    | .ok _ => modify (leaveCopy q)
    | .error (.stall p) =>
      modify (enterCopy q)
      throw (.stall p)
    | .error e =>
      modify (leaveCopy q)
      throw e

/-- What a command does at issue: WP goes to 0, unless a parked channel resumes (R295, R297). -/
def copyIssued (q : CopyCmd) (s : State) : State :=
  let zero := fun (ch : Fin 4) => onChan s.core.phys ch (fun k => { k with wp := 0 }) s
  match q with
  | .cpy _ ch _ _ => zero ch
  | .cpyc _ ch _ again => if again then s else zero ch
  | .cstop .. => s

/-- Issue a copy instruction: a context that has a command in the queue goes on with it. The queue holds two commands beside the
one that the engine performs, and a context that finds it full waits (R283, R284). An empty register leaves the channel idle (R297). -/
def issueCopy (ch : Fin 4) (operands : Act CopyCmd) : Act Unit := do
  let s ← get
  match s.core.copyq.find? (fun q => q.holder == some (curIdx s)) with
  | some q => serveCopy q
  | none =>
    match ← attempt operands with
    | .error (.trap c v e) =>
      if c = 0x04 then modify (stopChannel s.core.phys ch)
      trapAct c v e
    | .error e => throw e
    | .ok q =>
      modify (fun s => takeStops s.core.phys s)
      if (← get).core.copyq.length ≥ 3 then stallAct
      modify (copyIssued q)
      serveCopy q

/-! ### The instructions -/

/-- cpy (R295). -/
def execCpy (ch : Fin 4) (a b : Reg) (wa wb : Bool) (s : State) : Host.Outcome State Fault Refusal :=
  runSeq copyInfo (issueCopy ch (do
    let d ← readS a wa
    let x ← readS b wb
    return .cpy (curIdx s) ch d x)) s

/-- cpyc (R297): a channel parked at the record at issue resumes and keeps its count. -/
def execCpyc (ch : Fin 4) (a : Reg) (wa : Bool) (s : State) : Host.Outcome State Fault Refusal :=
  runSeq copyInfo (issueCopy ch (do
    let head ← readS a wa
    let k := (← get).core.chans[ch]
    return .cpyc (curIdx s) ch head (k.state == .parked && k.rcd == head))) s

/-- cstop (R298). -/
def execCstop (ch : Fin 4) (s : State) : Host.Outcome State Fault Refusal :=
  runSeq copyInfo (issueCopy ch (return .cstop (curIdx s) ch)) s

/-- COPY_LINE_WRITE (R263): a running channel writes its next destination line, or looks again at the record it waits
for; writes into records that waited are made. -/
def execCopyLineWrite (core ch : Nat) (s : State) : Host.Outcome State Fault Refusal :=
  if h : ch < 4 then
    let s := payOwed core s
    let k := (coreAt s core).chans[ch]
    match k.state, k.job with
    | .running, some j => .next (if j.done < jobBytes j then runHw (copyLine core ⟨ch, h⟩ j) s else s)
    | .running, none => .next (runHw (chanContinue core ⟨ch, h⟩) s)
    | _, _ => .next s
  else .next s

/-- COPY_RECORD_FINISH (R265, R297): a channel that has written its last byte finishes the record. -/
def execCopyRecordFinish (core ch : Nat) (s : State) : Host.Outcome State Fault Refusal :=
  if h : ch < 4 then
    let k := (coreAt s core).chans[ch]
    match k.state, k.job with
    | .running, some j => .next (if jobBytes j ≤ j.done then runHw (finishRecord core ⟨ch, h⟩ j) s else s)
    | _, _ => .next s
  else .next s

end Sys2Proof.Machine
end

