-- ==== Sys2Proof/Machine/Matrix.lean ====
section
/-!
DEFINITION. The matrix slice: operands and their rules (R127 to R131), acceptance (R135), the Nesting buffer (R285 to
R292), the gang (R144, R145), the K-step arithmetic (R132, R133), drains (R147), the instructions of major 29.
-/

namespace Sys2Proof.Machine

/-! ### Operands -/

/-- The elements of a K-step (R127). -/
def kstElems (fmt : Nat) : Nat := 3072 / max 1 (fmtBits fmt)

/-- Whether a pair of formats is performed, whether it is emulated, whether it is of the integer class (R128). -/
def pairClass (a b : Nat) : Option (Bool × Bool) :=
  if [3, 4].contains a && [3, 4].contains b || [1, 2].contains a && [1, 2].contains b || a = 8 && b = 8 then some (false, false)
  else if a = 6 && b = 6 then some (false, true)
  else if a = b && [0, 13, 14, 11].contains a then some (true, false)
  else if a = b && [7, 12, 5, 9, 10].contains a then some (true, true)
  else none

/-- K × bits ÷ 8 of a record is a positive multiple of 384 bytes (R127). -/
def kOk (r : ShapeRec) : Bool := 0 < r.ext[0] && r.ext[0] * fmtBits r.fmt % 3072 == 0

/-- The rules of an A record by itself (R127). -/
def aRules (b : List Byte) : Bool :=
  let r := parseShape b
  shapeAddrOk r && r.rank ≤ 2 && kOk r && r.ext[1] ≤ 32 && r.space < 3 && !r.pad

/-- The rules of a B record by itself (R127). -/
def bRules (b : List Byte) : Bool :=
  let r := parseShape b
  shapeAddrOk r && r.rank == 2 && kOk r && r.ext[1] == 16 && r.space == 0 && !r.pad

/-- The rules of a scale record for a mode, the operand's K and its rows or columns (R130). -/
def scaleRules (mode k rows : Nat) (b : List Byte) : Bool :=
  let r := parseShape b
  shapeAddrOk r && r.space < 2 && !r.pad &&
    (if mode = 1 then r.fmt == 11 && r.rank == 2 && r.ext[0] == k / 32 && r.ext[1] == rows
     else r.fmt == 0 && r.rank == 1 && r.ext[0] == rows)

/-- The rules of a D record (R147). -/
def dRules (b : List Byte) : Bool :=
  let r := parseShape b
  shapeAddrOk r && r.rank ≤ 2 && r.space == 1 && r.ext[0] == 16 && r.ext[1] ≤ 32 && !r.pad &&
    [0, 1, 2, 3, 4, 14, 13, 5, 12, 6, 7].contains r.fmt

/-- The fields of FMT that the matrix reads (R109). -/
def fmtA (f : Word) : Nat := bitsOf f 3 0
/-- FMT.bfmt. -/
def fmtB (f : Word) : Nat := bitsOf f 7 4
/-- FMT.ascale. -/
def fmtAs (f : Word) : Nat := bitsOf f 9 8
/-- FMT.bscale. -/
def fmtBs (f : Word) : Nat := bitsOf f 11 10
/-- FMT.ars. -/
def fmtArs (f : Word) : Reg := Fin.ofNat 32 (bitsOf f 16 12)
/-- FMT.brs. -/
def fmtBrs (f : Word) : Reg := Fin.ofNat 32 (bitsOf f 21 17)

/-- Read a record of a matrix instruction (R135 order 3): a misaligned one is ill-formed at order 4 and is not read. -/
def mxRecord (ag : Agent) (w : Waiter) (code : Nat) (addr : Word) (own : List Byte → Bool)
    (also : List Byte → Bool := fun _ => true) : Act (List Byte × Bool) :=
  if addr.toNat % 64 ≠ 0 then pure (List.replicate 64 0, false) else fetchRecord ag w code addr own also

/-- The rows of an operand as address and bytes, in ascending address. -/
def operandRows (r : ShapeRec) : List (Word × Nat) :=
  let n := (r.ext[0] * fmtBits r.fmt + 7) / 8
  sortBy (fun x => x.1.toNat) ((List.range r.ext[1]).map (fun i => (elemAddr r #v[0, i, 0, 0], n)))

/-- The parts of n bytes by 4 KiB page. -/
def pageParts (va : Word) (n : Nat) : Nat → List (Word × Nat)
  | 0 => []
  | fuel + 1 =>
    if n = 0 then []
    else
      let k := min n (4096 - va.toNat % 4096)
      (va, k) :: pageParts (va + BitVec.ofNat 64 k) (n - k) fuel

/-- The parts of an operand's rows by page, and whether each lies in the windows, where it is not translated (R175, R362). -/
def operandParts (r : ShapeRec) : List (Word × Nat) :=
  (operandRows r).flatMap (fun x => pageParts x.1 x.2 (x.2 / 4096 + 2))

/-- Translate and check every page of a global operand (R135 order 6). -/
def operandPages (ag : Agent) (w : Waiter) (need : Need) (r : ShapeRec) : Act (List MxPage) := do
  if r.space ≠ 0 then return []
  ((operandParts r).filter (fun x => !inWindows x.1)).foldlM (fun l x => do
    let vp := x.1.toNat / 4096
    if l.any (fun (q : MxPage) => q.vpage == vp) then return l
    let ps ← resolve { ag with elems := !need.w } w need x.1 x.2
    if ps.any Piece.inRegs then trapAct 0x09 x.1
    match ps with
    | [] => return l
    | p :: _ => return l ++ [⟨vp, p.pa?.getD 0 / 4096, p.cacheable⟩]) []

/-- Check an operand's rows in local store, of a global operand the parts of them that lie there (R135 order 7). -/
def operandWindow (ag : Agent) (r : ShapeRec) : Act Unit :=
  (if r.space != 0 then operandRows r else (operandParts r).filter (fun x => inWindows x.1)).forM (fun x => do
    if !spaceHolds r.space x.1 then trapAct 0x0B x.1
    let _ ← resolveWindow ag x.1 x.2)

/-- The deterministic-mode rules for an operand (R135 order 8, R137). -/
def operandDet (ag : Agent) (w : Waiter) (cls : AccessClass) (r : ShapeRec) : Act Unit := do
  if !ag.det then pure ()
  else (operandParts r).forM (fun y => do
    let ps ← resolve ag w (if cls == .store then needW else needR) y.1 y.2
    detCheck ag cls y.1 ps)

/-- The operands of an op with their operand codes (R135). -/
def mxOperands (q : MxOp) : List (Nat × ShapeRec) :=
  [(0, q.a), (1, q.b)] ++ (q.asRec.map (fun r => (2, r))).toList ++ (q.bsRec.map (fun r => (3, r))).toList

/-- A matrix instruction waits for an earlier vector instruction of its context that spans a line of an operand (R238), under whatever
address (R200). -/
def awaitSpans (ag : Agent) (w : Waiter) (need : Need) (r : ShapeRec) : Act Unit := do
  if !(coreAt (← get) ag.phys).vxq.any (fun q => q.passed && q.vrec.ctx == ag.ctx) then pure ()
  else (operandParts r).forM (fun x => do
    let ps ← resolve ag w need x.1 x.2
    let s ← get
    if ps.any (vectorSpans s ag.phys ag.ctx) then stallAct)

/-- Orders 6 to 8 of R135 for an op that only reads its operands. -/
def acceptOperands (ag : Agent) (w : Waiter) (q : MxOp) : Act MxOp := do
  let ops := mxOperands q
  let pages ← ops.foldlM (fun l x => do
    return l ++ (← withInfo (mxInfo 0 q.member x.1) (operandPages ag w needR x.2))) []
  ops.forM (fun x => withInfo (mxInfo 0 q.member x.1) (operandWindow ag x.2))
  ops.forM (fun x => withInfo (mxInfo 0 q.member x.1) (operandDet ag w .load x.2))
  ops.forM (fun x => awaitSpans ag w needR x.2)
  return { q with pages := pages }

/-- The priority of the task on a core. -/
def taskPrio (s : State) (phys : Nat) : Nat := ((coreAt s phys).run.map (fun r => r.rcd.prio)).getD 0

/-- Orders 3 and 4 of R135 for mma, mma.solo and mgang: the records, the prefix, the pair. -/
def readOperands (ag : Agent) (w : Waiter) (kind : MxKind) (x : Fin 4) (pfx : Bool) (fmt aAddr bAddr asAddr bsAddr : Word) :
    Act MxOp := do
  let as := if pfx then fmtAs fmt else 0
  let bs := if pfx then fmtBs fmt else 0
  let aFits := fun (b : List Byte) =>
    let r := parseShape b
    !(pfx && fmtA fmt != r.fmt) && !((pairClass r.fmt r.fmt).any (·.2) && as != 0)
  let (a, aok) ← mxRecord ag w 0 aAddr aRules aFits
  let ra := parseShape a
  let bFits := fun (b : List Byte) =>
    let r := parseShape b
    let cls := pairClass ra.fmt r.fmt
    !(pfx && fmtB fmt != r.fmt) && r.ext[0] == ra.ext[0] && cls.isSome && !(cls.any (·.2) && bs != 0)
  let (b, bok) ← mxRecord ag w 1 bAddr bRules bFits
  let rb := parseShape b
  let (sa, saok) ← if as = 0 then pure ([], true) else mxRecord ag w 2 asAddr (scaleRules as ra.ext[0] ra.ext[1])
  let (sb, sbok) ← if bs = 0 then pure ([], true) else mxRecord ag w 3 bsAddr (scaleRules bs rb.ext[0] 16)
  let cls := pairClass ra.fmt rb.fmt
  let int := cls.any (·.2)
  if !aok || (pfx && fmtA fmt != ra.fmt) || (int && as != 0) then trapAct 0x0C aAddr 0
  if !bok || (pfx && fmtB fmt != rb.fmt) || rb.ext[0] != ra.ext[0] || cls.isNone || (int && bs != 0) then trapAct 0x0C bAddr 1
  if !saok then trapAct 0x0C asAddr 2
  if !sbok then trapAct 0x0C bsAddr 3
  let s ← get
  return {
    kind := kind, acc := x, held := false, begun := false, host := none, emu := cls.any (·.1), usesFmt := pfx, pfmt := if pfx then fmt else 0
    aAddr := aAddr, bAddr := bAddr, asAddr := if as = 0 then 0 else asAddr, bsAddr := if bs = 0 then 0 else bsAddr
    a := ra, b := rb, asRec := if as = 0 then none else some (parseShape sa)
    bsRec := if bs = 0 then none else some (parseShape sb)
    pages := [], pins := [], rows := ra.ext[1], next := 0, total := ra.ext[0] / kstElems ra.fmt, released := 0, rm := 0, hpc := 0
    flags := 0, prio := taskPrio s ag.phys, member := 0 }

/-- An mld or mrel, which names no accumulator (R136). -/
def MxOp.isTile (q : MxOp) : Bool := q.kind == .load || q.kind == .release

/-- Two instructions that name one accumulator (R136). -/
def MxOp.meets (p q : MxOp) : Bool := !p.isTile && !q.isTile && p.acc == q.acc

/-- Unfinished instructions that name an accumulator (R136). -/
def accBusy (s : State) (phys : Nat) (x : Fin 4) : Bool := (coreAt s phys).mxq.any (fun q => !q.isTile && q.acc == x)

/-- Append an op to a core's unfinished instructions. -/
def mxPush (phys : Nat) (q : MxOp) (s : State) : State := onCore phys (fun c => { c with mxq := c.mxq ++ [q] }) s

/-- Queue an operation on a slice (R289): its number. -/
def sliceEnter (host prio : Nat) (s : State) : Nat × State :=
  let id := (coreAt s host).sliceIds
  (id, onCore host (fun c => { c with sliceIds := id + 1, sliceq := c.sliceq ++ [⟨id, prio⟩] }) s)

/-- An op goes to its own core's slice. -/
def mxOwn (phys : Nat) (q : MxOp) (s : State) : State :=
  let (id, s) := sliceEnter phys q.prio s
  mxPush phys { q with host := some (phys, id) } s

/-- The instructions of a core that are accepted and that its engine has not begun: they hold entries of the command queue
(R283). -/
def unbegun (s : State) (phys : Nat) : Nat := ((coreAt s phys).mxq.filter (fun q => !q.begun)).length

/-- A free entry of the command queue (R28, R283). -/
def queueFree (s : State) (phys : Nat) : Bool := unbegun s phys < 2

/-- A free place among the four unfinished instructions (R150), and a free entry of the command queue (R28, R283). -/
def mxRoom (s : State) (phys : Nat) : Bool := ((coreAt s phys).mxq.filter (fun q => !q.isTile)).length < 4 && queueFree s phys

/-! ### Elements of operands -/

/-- The elements of a Q4X block (R97); none for an ill-formed one. `skip` counts data slots still to pass. -/
def q4xSlots : List Nat → Nat → Option (List Val)
  | [], _ => some []
  | n :: rest, skip + 1 => if n < 16 then (q4xSlots rest skip).map (Val.ofInt 0 :: ·) else none
  | n :: rest, 0 =>
    if n = 8 then
      match rest with
      | lo :: hi :: _ => (q4xSlots rest 2).map (e4m3.read (lo + 16 * hi) :: ·)
      | _ => none
    else (q4xSlots rest 0).map (Val.ofInt (if n < 8 then n else (n : Int) - 16) :: ·)

/-- The 32 elements of the 16 bytes of a Q4X block (R97). -/
def q4xBlock (b : List Byte) : Option (List Val) := q4xSlots (b.flatMap (fun x => [x.toNat % 16, x.toNat / 16])) 0

/-- The elements of packed bytes of a format; the number of the ill-formed block if one is. -/
def rowValues (fmt : Nat) (b : List Byte) : Except Nat (List Val) :=
  if fmt = 8 then
    (List.range (b.length / 16)).foldl (fun acc k =>
      match acc with
      | .error e => .error e
      | .ok l =>
        match q4xBlock (slice b (16 * k) 16) with
        | some vs => .ok (l ++ vs)
        | none => .error k) (.ok [])
  else
    let w := fmtBits fmt
    let n := leNat b
    .ok ((List.range (8 * b.length / w)).map (fun i => readElem fmt (n / 2 ^ (w * i) % 2 ^ w)))

/-! ### K-step arithmetic (R132, R133) -/

/-- A value as an integer; integer-class elements are integers. -/
def Val.int : Val → Int
  | .fin n m e => let v : Int := (m * 2 ^ e.toNat : Nat); if n then -v else v
  | _ => 0

/-- The product of an A and a B element, each multiplied by its scale, and whether one of the three products is 0 × ∞ (R98, R133): an
element with a NaN scale is a NaN. -/
def mulScaled (a b : Val × Val) : Val × Bool :=
  let x := mulVal a.1 a.2
  let y := mulVal b.1 b.2
  let p := mulVal x.1 y.1
  (p.1, x.2 || y.2 || p.2)

/-- A float-class K-step sum, rounded once to FP32 (R132, R133). -/
def stepSum (products : List (Val × Bool)) : Nat × FlagSet :=
  let bad := products.any (·.2)
  let (bits, fl) := fp32.deliver rne (sumExact 0 (products.map (·.1)))
  (bits, fl ||| flagIf bad flagNV)

/-- The accumulator's addition of a rounded K-step sum (R132). -/
def accAdd (acc : W32) (t : Nat) : W32 × FlagSet :=
  let (bits, fl) := fp32.deliver rne (sumExact 0 [fp32.read acc.toNat, fp32.read t])
  (BitVec.ofNat 32 bits, fl)

/-- One element of an accumulator after a K-step: A and B elements with their scales, k by k. -/
def stepElem (int : Bool) (acc : W32) (a b sa sb : List Val) : W32 × FlagSet :=
  if int then
    let t := ((a.zip b).map (fun x => x.1.int * x.2.int)).foldl (· + ·) 0
    (BitVec.ofInt 32 (acc.toInt + t), 0)
  else
    let ps := (a.zip sa).zip (b.zip sb) |>.map (fun x => mulScaled x.1 x.2)
    let (t, fl) := stepSum ps
    let (v, fl2) := accAdd acc t
    (v, fl ||| fl2)

/-- The new rows of an accumulator after a K-step, with the flags of its own rows. -/
def stepRows (int : Bool) (acc : Vector (Vector W32 16) 32) (rows : List (List Val × List Val))
    (cols : List (List Val × List Val)) : Vector (Vector W32 16) 32 × FlagSet :=
  let cell := fun (i n : Nat) (v : W32) =>
    match rows[i]?, cols[n]? with
    | some (a, sa), some (b, sb) => stepElem int v a b sa sb
    | _, _ => (v, 0)
  let new := Vector.ofFn (fun i : Fin 32 => Vector.ofFn (fun n : Fin 16 => cell i n (acc[i])[n]))
  (new.map (fun r => r.map (·.1)), new.foldl (fun f r => r.foldl (fun f x => f ||| x.2) f) 0)

/-! ### Reading operands at a K-step (R137, R139) -/

/-- The pieces of a global operand through the translations of its acceptance. -/
def mxPieces (q : MxOp) (va : Word) (n : Nat) : List Piece :=
  (pageParts va n (n / 4096 + 2)).flatMap (fun x =>
    match q.pages.find? (fun p => p.vpage == x.1.toNat / 4096) with
    | none => []
    | some p => piecesAt (.mem (p.ppage * 4096 + x.1.toNat % 4096)) (x.1.toNat % 64) p.cacheable x.1 false x.2)

/-- Whether bytes of an operand are global and begin where they are translated. -/
def isGlobal (space : Nat) (va : Word) : Bool := space == 0 && !inWindows va

/-- The pieces of bytes of an operand: in the windows those of the local store, which trap as any later access does once a peer's group
has exited (R178), elsewhere through the translations of its acceptance. -/
def operandPieces (ag : Agent) (q : MxOp) (va : Word) (n : Nat) : Act (List Piece) :=
  (pageParts va n (n / 4096 + 2)).foldlM (fun l x => do
    if inWindows x.1 then return l ++ (← resolveWindow ag x.1 x.2) else return l ++ mxPieces q x.1 x.2) []

/-- Bytes of an operand. -/
def mxBytes (ag : Agent) (q : MxOp) (va : Word) (n : Nat) : Act (List Byte) := do
  let ps ← operandPieces ag q va n
  ps.forM (stashFill ag .hw)
  ps.forM (touchData ag)
  performMeeting ag.onElems ps
  modify (reachPieces ag ps)
  checkBad false ps
  let s ← get
  return ps.flatMap (fun p => placeBytes s ag.phys p.cacheable p.place p.len)

/-- The 384 bytes of row i of an operand at K-step k as values; cause 0x0C at an ill-formed block (R139). -/
def mxRow (ag : Agent) (q : MxOp) (code : Nat) (r : ShapeRec) (i k : Nat) : Act (List Val) := do
  let va := elemAddr r #v[0, i, 0, 0] + BitVec.ofNat 64 (384 * k)
  let b ← withInfo (mxInfo k q.member code) (mxBytes ag q va 384)
  match rowValues r.fmt b with
  | .ok vs => return vs
  | .error blk => trapAct 0x0C (va + BitVec.ofNat 64 (16 * blk)) (mxInfo k q.member code)

/-- The bytes of the scales of row i of an operand at K-step k, n elements each (R130). -/
def scaleSpan (r : ShapeRec) (n i k : Nat) : Word × Nat :=
  if r.fmt = 11 then (elemAddr r #v[k * n / 32, i, 0, 0], n / 32) else (elemAddr r #v[i, 0, 0, 0], 4)

/-- The scales of row i of an operand at K-step k, element by element (R130); 1 in mode 0. -/
def mxScales (ag : Agent) (q : MxOp) (code : Nat) (r : Option ShapeRec) (n i k : Nat) : Act (List Val) := do
  match r with
  | none => return List.replicate n (Val.ofInt 1)
  | some r =>
    let x := scaleSpan r n i k
    let b ← withInfo (mxInfo k q.member code) (mxBytes ag q x.1 x.2)
    return if r.fmt = 11 then b.flatMap (fun x => List.replicate 32 (readElem 11 x.toNat)) else List.replicate n (fp32.read (leNat b))

/-! ### Tile fetch (R140, R141) -/

/-- Whether a tile is of an op's B: base, stride, K, format and scale mode (R141). -/
def Tile.serves (t : Tile) (q : MxOp) : Bool :=
  t.rcd.base == q.b.base && t.rcd.stride[1] == q.b.stride[1] && t.rcd.ext[0] == q.b.ext[0] && t.rcd.fmt == q.b.fmt && fmtBs q.pfmt == 0

/-- Whether the slice that runs an op holds K-step k of its B, not stale, so that it is not fetched (R141). -/
def tileHolds (s : State) (phys : Nat) (q : MxOp) (k : Nat) : Bool :=
  (coreAt s ((q.host.map (·.1)).getD phys)).tile.any (fun t => t.serves q && k < t.steps.length && !t.stale.contains k)

/-- The global bytes that K-step k of an op fetches: A, B unless its slice holds it, the scales (R140). -/
def stepSpans (s : State) (phys : Nat) (q : MxOp) (k : Nat) : List (Word × Nat) :=
  let n := kstElems q.a.fmt
  let row := fun (r : ShapeRec) (i : Nat) => (r.space, elemAddr r #v[0, i, 0, 0] + BitVec.ofNat 64 (384 * k), 384)
  let scales := fun (r : Option ShapeRec) (m : Nat) =>
    (r.toList).flatMap (fun r => (List.range m).map (fun i => (r.space, scaleSpan r n i k)))
  ((List.range q.rows).map (row q.a) ++ (if tileHolds s phys q k then [] else (List.range 16).map (row q.b)) ++
    scales q.asRec q.rows ++ scales q.bsRec 16).filterMap (fun x => if isGlobal x.1 x.2.1 then some x.2 else none)

/-- The lines of cacheable pieces. -/
def cachedLines (ps : List Piece) : List Nat :=
  (ps.filterMap (fun p => if p.cacheable then p.pa?.map (· / 64) else none)).eraseDups

/-- Whether lines may be pinned beside those that a cluster pins: a quarter of each slice of its cache, 4,096 lines (R140). -/
def pinRoom (s : State) (cl : Nat) (lines : List Nat) : Bool :=
  let l := (clusterAt s cl).pins ++ lines
  l.length ≤ 4096 ||
    (let l := l.eraseDups
     (List.range 24).all (fun k => (l.filter (fun x => Config.cacheSlice x % 24 == k)).length ≤ 4096))

/-- Fetch pieces into the cluster cache and pin their lines; the fetch waits while too many are pinned (R140). -/
def pinPieces (ag : Agent) (ps : List Piece) : Act (List Nat) := do
  let cl := clusterOf ag.phys
  let lines := cachedLines ps
  if !pinRoom (← get) cl lines then stallAct
  ps.forM (touchData ag)
  modify (fun s =>
    let s := lines.foldl (fun s l => fillLine cl ag.part l s) s
    onCluster cl (fun c => { c with pins := c.pins ++ lines }) s)
  return lines

/-- The slice of an op holds K-step k of its B anew: it is stale no more (R141). -/
def freshenTile (phys : Nat) (q : MxOp) (k : Nat) (s : State) : State :=
  onCore ((q.host.map (·.1)).getD phys) (fun c =>
    { c with tile := c.tile.map (fun t => if t.serves q then { t with stale := t.stale.filter (· != k) } else t) }) s

/-- Fetch the next K-step of op n of a core (R140); lines fetched for it already stay pinned. -/
def fetchStep (phys n : Nat) : Act Unit := do
  let s ← get
  match (coreAt s phys).mxq[n]? with
  | none => pure ()
  | some q =>
    if !q.pins.isEmpty || q.total ≤ q.next then pure ()
    else
      let ps := (stepSpans s phys q q.next).flatMap (fun x => mxPieces q x.1 x.2)
      let lines ← pinPieces (chanAgent s phys) ps
      modify (fun s => freshenTile phys q q.next
        (onCore phys (fun c => { c with mxq := c.mxq.set n { q with pins := lines } }) s))

/-! ### A K-step (R132) -/

/-- The values of a K-step: the rows of A and the columns of B, each with its scales. -/
abbrev StepValues := List (List Val × List Val) × List (List Val × List Val)

/-- Read the operands of the next K-step of an op (R132, R137). -/
def readStep (phys : Nat) (q : MxOp) : Act StepValues := do
  let ag := chanAgent (← get) phys
  let n := kstElems q.a.fmt
  let k := q.next
  let rows ← (List.range q.rows).mapM (fun i => do
    return (← mxRow ag q 0 q.a i k, ← mxScales ag q 2 q.asRec n i k))
  let cols ← (List.range 16).mapM (fun i => do
    return (← mxRow ag q 1 q.b i k, ← mxScales ag q 3 q.bsRec n i k))
  return (rows, cols)

/-- The flags of a K-step of an op on a core's accumulator. -/
def stepFlags (c : Core) (q : MxOp) (v : StepValues) : FlagSet :=
  (stepRows ((pairClass q.a.fmt q.b.fmt).any (·.2)) c.acc[q.acc] v.1 v.2).2

/-- Apply a K-step of an op to the accumulator of a core: rows and step counts (R132). -/
def stepCore (q : MxOp) (v : StepValues) (c : Core) : Core :=
  { c with
    acc := c.acc.set q.acc (stepRows ((pairClass q.a.fmt q.b.fmt).any (·.2)) c.acc[q.acc] v.1 v.2).1
    steps := c.steps.set q.acc (Vector.ofFn (fun i : Fin 32 =>
      if i.val < q.rows then (c.steps[q.acc])[i] + 1 else (c.steps[q.acc])[i])) }

/-- An op after a K-step. -/
def MxOp.stepped (q : MxOp) (fl : FlagSet) : MxOp := { q with next := q.next + 1, flags := q.flags ||| fl, begun := true, pins := [] }

/-- Apply K-step op.next to the accumulator of a core. -/
def applyStep (phys : Nat) (q : MxOp) : Act MxOp := do
  let v ← readStep phys q
  let c := coreAt (← get) phys
  modify (onCore phys (stepCore q v))
  return q.stepped (stepFlags c q v)

/-! ### Completion -/

/-- Zero an accumulator and its step counts (R142). -/
def zeroAcc (x : Fin 4) (c : Core) : Core :=
  { c with
    acc := c.acc.set x (Vector.replicate 32 (Vector.replicate 16 0))
    steps := c.steps.set x (Vector.replicate 32 0) }

/-- What the command queue delivers once every entry before it has begun (R284): a zeroing that no earlier instruction of its
accumulator holds up is performed (R136, R142), an mma goes to the Nesting buffer, where it has its place. -/
def settleQueue : List MxOp → List MxOp → Core → Core
  | done, [], c => { c with mxq := done }
  | done, q :: rest, c =>
    if q.kind == .zero && done.all (fun p => p.begun && !p.meets q) then settleQueue done rest (zeroAcc q.acc c)
    else if q.kind == .mma && q.held && done.all (·.begun) then settleQueue (done ++ [{ q with begun := true }]) rest c
    else settleQueue (done ++ [q]) rest c

/-! ### The stationary tile (R140, R141, R146) -/

/-- Fetch the first four K-steps of an mld into the stationary buffer, their lines pinned, in the place of an earlier tile. -/
def loadTile (phys : Nat) (q : MxOp) : Act Unit := do
  let ag := chanAgent (← get) phys
  let steps := (List.range (min 4 q.total)).map (fun k =>
    (List.range 16).flatMap (fun i => mxPieces q (elemAddr q.b #v[0, i, 0, 0] + BitVec.ofNat 64 (384 * k)) 384))
  modify (dropTile phys)
  if !pinRoom (← get) (clusterOf phys) (cachedLines steps.flatten) then stallAct
  steps.forM (fun ps => ps.forM (touchData ag))
  let pins ← steps.mapM (pinPieces ag)
  modify (onCore phys (fun c => { c with tile := some ⟨q.bAddr, q.b, pins, []⟩ }))

/-- The first mld or mrel of a core, once every entry of the command queue before it has begun (R136, R284). -/
def tileOp (c : Core) : Option (Nat × MxOp) :=
  (c.mxq.findIdx? MxOp.isTile).bind (fun n =>
    (c.mxq[n]?).bind (fun q => if (c.mxq.take n).all (·.begun) then some (n, q) else none))

/-- The engine performs the first mld or mrel of a core. One that waits for its lines has begun. -/
def performTile (phys : Nat) : Act Unit := do
  match tileOp (coreAt (← get) phys) with
  | none => pure ()
  | some (n, q) =>
    modify (onCore phys (fun c => settleQueue [] (c.mxq.set n { q with begun := true }) c))
    if q.kind == .load then loadTile phys q
    else if (coreAt (← get) phys).tile.any (·.addr == q.bAddr) then modify (dropTile phys)
    modify (onCore phys (fun c => settleQueue [] (c.mxq.eraseIdx n) c))

/-- The engine takes what its command queue delivers. -/
def takeQueue (phys : Nat) (s : State) : State :=
  let s := onCore phys (fun c => settleQueue [] c.mxq c) s
  (List.range (coreAt s phys).mxq.length).foldl (fun s _ => if (tileOp (coreAt s phys)).isSome then runHw (performTile phys) s else s) s

/-- An accepted instruction takes an entry of the command queue. -/
def mxEnter (phys : Nat) (q : MxOp) (s : State) : State := takeQueue phys (mxPush phys q s)

/-- Replace op n of a core, or remove it once it is complete or abandoned: its pins go, and its operation leaves the slice with
its last instruction. -/
def putOp (phys n : Nat) (q : Option MxOp) (s : State) : State :=
  let old := (((coreAt s phys).mxq[n]?).map MxOp.pins).getD []
  let s := takeQueue phys (onCore phys (fun c =>
    { c with mxq := match q with | some q => c.mxq.set n q | none => c.mxq.eraseIdx n }) s)
  let s := if q.isNone then trimSlices phys s else s
  if q.all (fun q => q.pins.isEmpty) then unpinLines (clusterOf phys) old s else s

/-- An op completes: its flags reach FFLAGS of the control context (R108, R133, R147). -/
def completeOp (phys n : Nat) (flags : BitVec 5) (s : State) : State :=
  putOp phys n none (onCtx phys 0 (fun x => if x.live then { x with fflags := x.fflags ||| flags.zeroExtend 64 } else x) s)

/-- An op is abandoned by an error in its data: a trap waits for the control context's next boundary (R139). Where several wait,
they are taken one after the other, one at each boundary, in the order in which they arose (log entry 85). -/
def abandonOp (phys n : Nat) (cause : BitVec 8) (eval einfo : Word) (s : State) : State :=
  putOp phys n none (deferTrap phys 0 ⟨cause, eval, einfo⟩ s)

/-- Op n of a core, if no earlier op names its accumulator (R136), none waits in the command queue before it (R284), and it is
not held. -/
def runnableOp (s : State) (phys n : Nat) : Option MxOp :=
  let l := (coreAt s phys).mxq
  match l[n]? with
  | none => none
  | some q => if q.held || (l.take n).any (fun p => p.meets q || !p.begun) then none else some q

/-! ### The queue of a slice (R288, R289) -/

/-- The instructions that an operation of a slice serves: the core and the place among its unfinished instructions. -/
def sliceMembers (s : State) (host : Nat) (o : SliceOp) : List (Nat × Nat) :=
  (rowCores s host).flatMap (fun c =>
    (List.range c.mxq.length).filterMap (fun n => if (c.mxq[n]?).any (fun q => q.host == some (host, o.id)) then some (c.phys, n) else none))

/-- An operation of a slice that can perform a K-step now. -/
def sliceReady (s : State) (host : Nat) (o : SliceOp) : Bool :=
  let ms := sliceMembers s host o
  !ms.isEmpty && ms.all (fun m => (runnableOp s m.1 m.2).isSome)

/-- The operation that a slice continues with at a K-step boundary: the one of highest priority, of these the one queued earliest
(R289). -/
def sliceChoice (s : State) (host : Nat) : Option SliceOp :=
  ((coreAt s host).sliceq.filter (sliceReady s host)).foldl (fun best o =>
    match best with
    | none => some o
    | some b => if b.prio < o.prio then some o else some b) none

/-- What the operands of a K-step bring to a member: their values, or the error that abandons the member's instruction. -/
def readMember (m : Nat × Nat) : Act (Except Deferred (MxOp × StepValues)) := do
  match (coreAt (← get) m.1).mxq[m.2]? with
  | none => stallAct
  | some q =>
    match ← attempt (readStep m.1 q) with
    | .ok v => return .ok (q, v)
    | .error (.trap c v e) => return .error ⟨c, v, e⟩
    | .error e => throw e

/-- A K-step on one member: it is applied, and the next one fetched, or the instruction completes or is abandoned. -/
def stepMember (m : Nat × Nat) (r : Except Deferred (MxOp × StepValues)) (s : State) : State :=
  match r with
  | .error d => abandonOp m.1 m.2 d.cause d.eval d.einfo s
  | .ok (q, v) =>
    let p := q.stepped (stepFlags (coreAt s m.1) q v)
    let s := onCore m.1 (stepCore q v) s
    if p.next < p.total then
      let s := putOp m.1 m.2 (some p) s
      match fetchStep m.1 m.2 s with
      | .ok _ t => t
      | .error _ _ => s
    else completeOp m.1 m.2 p.flags s

/-- A K-step of every member of an operation (R288): all operands are read before a row changes; the rows of each member are its
own. -/
def sliceStep (ms : List (Nat × Nat)) : Act Unit := do
  ms.forM (fun m => fetchStep m.1 m.2)
  let rs ← ms.mapM readMember
  modify (fun s => (ms.zip rs).reverse.foldl (fun s x => stepMember x.1 x.2 s) s)

/-- MATRIX_K_STEP (R132, R289): a slice performs the next K-step of operation n of its queue, if that is the one it continues
with. -/
def execMatrixKStep (core n : Nat) (s : State) : Host.Outcome State Fault Refusal :=
  match (coreAt s core).sliceq[n]? with
  | none => .next s
  | some o => .next (if sliceChoice s core = some o then runHw (sliceStep (sliceMembers s core o)) s else s)

/-! ### The Nesting buffer (R285 to R292) -/

/-- The key of an entry (R285), seen from the K-steps an op still has to do (R149). -/
def nestKey (part s1 : Nat) (q : MxOp) : List Nat :=
  [part, s1, (q.b.base + BitVec.ofNat 64 (384 * q.next)).toNat, (BitVec.ofInt 64 q.b.stride[1]).toNat,
    q.a.ext[0] - q.next * kstElems q.a.fmt, q.b.fmt, fmtBs q.pfmt, (q.bsRec.map (fun r => r.base.toNat)).getD 0, q.a.fmt, fmtAs q.pfmt]

/-- The hold limit of a member by its task's priority (R287). -/
def holdLimit (prio nhold : Nat) : Nat :=
  if prio ≤ 3 then nhold else if prio ≤ 5 then nhold / 2 else if prio = 6 then nhold / 4 else 0

/-- The rows of an entry's members. -/
def NestEntry.rowsIn (e : NestEntry) : Nat := (e.members.map NestMember.rows).sum

/-- The column of the host slice (R288): the lowest member column whose slice is idle with a tile of the entry's key,
else the lowest member column. -/
def hostColumn (s : State) (e : NestEntry) (ms : List NestMember) : Nat :=
  let cols := sortBy id (ms.map (fun m => m.phys % 16))
  let row := e.row * 16
  let fits := fun col =>
    let c := coreAt s (row + col)
    c.sliceq.isEmpty && (c.tile.any (fun t => t.rcd.base.toNat == e.key.getD 2 0 && t.rcd.fmt == e.key.getD 5 0 &&
      (BitVec.ofInt 64 t.rcd.stride[1]).toNat == e.key.getD 3 0 && t.rcd.ext[0] == e.key.getD 4 0 && e.key.getD 6 0 == 0))
  ((cols.find? fits) <|> cols.head?).getD 0

/-- NBSTAT after a dispatch (R292): COUNT goes up by one. -/
def nbstatAfter (old : Word) (host member members rows : Nat) : Word :=
  BitVec.ofNat 64 ((bitsOf old 47 32 + 1) % 65536 * 2 ^ 32 + host * 65536 + member * 1024 + members * 64 + rows)

/-- An accepted mma of a member is no longer held: operation `id` of a host slice serves it (R288). -/
def releaseMember (host id : Nat) (m : NestMember) (s : State) : State :=
  onCore m.phys (fun c =>
    let mine := fun (q : MxOp) => q.held && q.kind == .mma && q.acc == m.acc
    { c with mxq := modifyWhere mine (fun q => { q with held := false, host := some (host, id) }) c.mxq }) s

/-- Dispatch entry n of a cluster (R287, R288): the members whose acceptance is complete become one operation of the host slice;
the others stay behind in a new entry with the same key, numbered anew in their order, whose NHOLD is the old entry's (log entry 106).
A core is counted as a member once, and of two numbers that it has NBSTAT shows the later (R292; log entry 105). -/
def dispatchEntry (cl n : Nat) (s : State) : State :=
  match (clusterAt s cl).nest[n]? with
  | none => s
  | some e =>
    let go := e.members.filter (·.ready)
    let stay := e.members.filter (fun m => !m.ready)
    let renumbered := (List.range stay.length).zipWith (fun i m => { m with number := i }) stay
    let s := onCluster cl (fun c =>
      { c with nest := if stay.isEmpty then c.nest.eraseIdx n
          else c.nest.set n { e with members := renumbered, given := stay.length } }) s
    if go.isEmpty then s
    else
      let col := hostColumn s e go
      let host := e.row * 16 + col
      let rows := (go.map NestMember.rows).sum
      let (id, s) := sliceEnter host ((go.map (fun m => taskPrio s m.phys)).foldl max 0) s
      let before := s
      let s := go.foldl (fun s m =>
        onCore m.phys (fun c => { c with nbstat := nbstatAfter (coreAt before m.phys).nbstat col m.number go.length rows })
          (releaseMember host id m s)) s
      runHw (sampleFree ((go.head?.map NestMember.phys).getD 0) (e.key.getD 0 0) 5 0) s

/-- Whether an entry must dispatch (R287): 32 rows, 8 numbers given out, or a member that has waited its hold limit. -/
def entryDue (time : Nat) (e : NestEntry) : Bool :=
  e.rowsIn ≥ 32 || e.given ≥ 8 || e.members.any (fun m => m.limit ≤ time)

/-- Dispatch every entry of a cluster that must go. -/
def dispatchDue (cl : Nat) (s : State) : State :=
  (List.range (clusterAt s cl).nest.length).foldl (fun s _ =>
    match (clusterAt s cl).nest.findIdx? (fun e => entryDue s.time e && e.members.any (·.ready)) with
    | none => s
    | some n => dispatchEntry cl n s) s

/-- An mma opens a free entry of its row's eight, if there is one. -/
def openEntry (cl row : Nat) (key : List Nat) (m : NestMember) (nhold : Nat) (s : State) : Option Nat × State :=
  if ((clusterAt s cl).nest.filter (·.row == row)).length < 8 then
    (some 0, onCluster cl (fun c => { c with nest := c.nest ++ [⟨row, key, [m], 1, nhold⟩] }) s)
  else (none, s)

/-- Place an mma in its row's buffer (R286): its member number, none while no entry is free because every entry that had to
dispatch leaves members behind, whose acceptance still runs (log entry 86). -/
def placeMember (phys : Nat) (key : List Nat) (q : MxOp) (nhold : Nat) (s : State) : Option Nat × State :=
  let cl := clusterOf phys
  let row := rowOf phys
  let mem := fun number hold => (⟨phys, q.acc, number, q.rows, s.time + holdLimit q.prio hold, false⟩ : NestMember)
  let nest := (clusterAt s cl).nest
  match nest.findIdx? (fun e => e.row == row && e.key == key && e.given < 8 && e.rowsIn + q.rows ≤ 32) with
  | some n =>
    match nest[n]? with
    | none => (none, s)
    | some e =>
      (some e.given, onCluster cl (fun c => { c with nest := c.nest.set n { e with members := e.members ++ [mem e.given e.nhold], given := e.given + 1 } }) s)
  | none =>
    let s := match nest.findIdx? (fun e => e.row == row && e.key == key) with
      | some n => dispatchEntry cl n s
      | none => s
    match openEntry cl row key (mem 0 nhold) nhold s with
    | (some n, s) => (some n, s)
    | (none, s) =>
      match (clusterAt s cl).nest.findIdx? (·.row == row) with
      | some n => openEntry cl row key (mem 0 nhold) nhold (dispatchEntry cl n s)
      | none => (none, s)

/-- The member that an mma of a core on an accumulator is while its acceptance runs. -/
def waitingMember (s : State) (phys : Nat) (x : Fin 4) : Option NestMember :=
  (clusterAt s (clusterOf phys)).nest.findSome? (fun e => e.members.find? (fun m => m.phys == phys && m.acc == x && !m.ready))

/-- A member leaves its entry (R290); its number stays given out. -/
def leaveEntry (phys : Nat) (x : Fin 4) (s : State) : State :=
  onCluster (clusterOf phys) (fun c =>
    { c with nest := (c.nest.map (fun e => { e with members := e.members.filter (fun m => !(m.phys == phys && m.acc == x)) })).filter (fun e => !e.members.isEmpty) }) s

/-- A member's acceptance is complete. -/
def readyMember (phys : Nat) (x : Fin 4) (s : State) : State :=
  onCluster (clusterOf phys) (fun c =>
    { c with nest := c.nest.map (fun e => { e with members := e.members.map (fun m => if m.phys = phys ∧ m.acc = x then { m with ready := true } else m) }) }) s

/-- The place of an mma in the buffer: the one that it has, or a new one once its accumulator is free (R286). -/
def takePlace (ag : Agent) (q : MxOp) : Act Unit := do
  let s ← get
  if (waitingMember s ag.phys q.acc).isNone then
    if accBusy s ag.phys q.acc then stallAct
    let part := partAt s ag.part
    let s1 := (part.map (fun p => p.s1root.toNat)).getD 0
    let nhold := (part.map (fun p => p.nhold.toNat)).getD 0
    let (n, s) := placeMember ag.phys (nestKey ag.part s1 q) q nhold s
    set s
    if n.isNone then stallAct

/-- Acceptance of an mma through the buffer (R135, R286): it is placed, then checked with its member number. An entry that must
dispatch does so at once, without a member that is still being checked. -/
def nestAccept (ag : Agent) (w : Waiter) (q : MxOp) : Act Unit := do
  takePlace ag q
  modify (dispatchDue (clusterOf ag.phys))
  let number := ((waitingMember (← get) ag.phys q.acc).map NestMember.number).getD 0
  let q ← acceptOperands ag w { q with member := number }
  modify (fun s => dispatchDue (clusterOf ag.phys)
    (readyMember ag.phys q.acc (mxEnter ag.phys { q with held := true } s)))

/-- A trap of an mma that has a place: it leaves its entry, and EINFO names its member number (R135, R290). -/
def memberTrap (phys : Nat) (x : Fin 4) (a : Act Unit) : Act Unit := do
  match ← attempt a with
  | .ok _ => pure ()
  | .error (.trap c v e) =>
    match waitingMember (← get) phys x with
    | none => trapAct c v e
    | some m =>
      modify (leaveEntry phys x)
      trapAct c v (if c = 0x04 then e else e ||| mxInfo 0 m.number 0)
  | .error e => throw e

/-- NESTING_HOLD_EXPIRY (R287): a member of entry n has waited its own hold limit. -/
def execNestingHoldExpiry (cluster n : Nat) (s : State) : Host.Outcome State Fault Refusal :=
  match (clusterAt s cluster).nest[n]? with
  | some e => .next (if e.members.any (·.ready) && e.members.any (·.limit ≤ s.time) then dispatchEntry cluster n s else s)
  | none => .next s

/-- A request joins those of the die's control core (R168). -/
def askEmulation (r : EmuReq) (s : State) : State :=
  let d := dieOf r.phys
  if h : d < 4 then { s with dies := s.dies.set d { s.dies[d] with emus := s.dies[d].emus ++ [r] } } else s

/-! ### The gang (R144, R145) -/

/-- Whether the running task of a core belongs to a row group (R34): 16 members on the cores of one row. -/
def isRowGroup (s : State) (phys : Nat) : Bool :=
  match (coreAt s phys).run with
  | none => false
  | some r =>
    match groupAt s r.part r.gid with
    | none => false
    | some g => g.size == 16 && (memberCores s r.part g).length == 16 && (memberCores s r.part g).all (fun p => rowOf p == rowOf phys)

/-- The arrivals at the barrier of a core's row. -/
def rowArrivals (s : State) (phys : Nat) : List GangArrival :=
  (clusterAt s (clusterOf phys)).gangs.filter (fun a => rowOf a.phys == rowOf phys)

/-- The reason code of a gang that fails (R145): the lowest failed rank, else the lowest that differs from rank 0. -/
def gangReason (l : List GangArrival) : Option Word :=
  let low := fun (ks : List Nat) => (sortBy id ks).head?
  match low ((l.filter (·.failed)).map GangArrival.rank) with
  | some k => some (BitVec.ofNat 64 (0x10 + k * 65536))
  | none =>
    if l.length < 16 then none
    else
      let zero := l.find? (·.rank == 0)
      match low ((l.filter (fun a => zero.any (fun z => a.aAddr != z.aAddr || a.pfmt != z.pfmt))).map GangArrival.rank) with
      | some k => some (BitVec.ofNat 64 (0x20 + k * 65536))
      | none => none

/-- The waiting members of a row get an answer. -/
def answerGang (l : List GangArrival) (a : Await) (s : State) : State :=
  l.foldl (fun s m => onCtx m.phys 0 (fun x => if x.await == .gang then { x with await := a, stalled := false } else x) s) s

/-- A gang is over: its arrivals leave the barrier, and those of the next one are in its place. -/
def closeRound (phys round : Nat) (s : State) : State :=
  onCluster (clusterOf phys) (fun c =>
    { c with gangs := (c.gangs.filter (fun g => !(rowOf g.phys == rowOf phys && g.round == round))).map (fun g =>
        if rowOf g.phys = rowOf phys ∧ round < g.round then { g with round := g.round - 1 } else g) }) s

/-- The share of a member in a gang that starts: its slice performs it (R289), or the die's control core, for an emulated pair
whose checks have passed (R131, R168). -/
def startShare (phys : Nat) (s : State) : State :=
  let c := coreAt s phys
  match c.mxq.find? (fun q => q.held && q.kind == .gang) with
  | none => s
  | some q =>
    let at_ := fun (p : MxOp) => p.held && p.kind == .gang
    if q.emu then
      let s := onCore phys (fun c => { c with mxq := c.mxq.filter (fun p => !at_ p) }) s
      askEmulation ⟨phys, q, true, false⟩ (setAwait (.ctx phys 0) .emulation s)
    else
      let (id, s) := sliceEnter phys q.prio s
      onCore phys (fun c =>
        { c with mxq := modifyWhere at_ (fun p => { p with held := false, host := some (phys, id) }) c.mxq }) s

/-- The gang of a row that stands at the barrier in a round fails or starts, if it may (R144, R145). -/
def settleGang (phys round : Nat) (s : State) : State :=
  let l := (rowArrivals s phys).filter (·.round == round)
  match gangReason l with
  | some e =>
    let s := answerGang (l.filter (fun a => !a.answered)) (.gangFail e) s
    let s := onCluster (clusterOf phys) (fun c =>
      { c with gangs := c.gangs.map (fun g => if rowOf g.phys = rowOf phys ∧ g.round = round then { g with answered := true } else g) }) s
    if l.length ≥ 16 then closeRound phys round s else s
  | none =>
    if l.length < 16 then s
    else closeRound phys round (l.foldl (fun s m => startShare m.phys s) (answerGang l .gangGo s))

/-- An arrival at the barrier (R144, R145): it belongs to the first gang there that its core has not arrived at, and may fail the
gang, or be the sixteenth and start it. -/
def gangArrive (a : GangArrival) (s : State) : State :=
  let cl := clusterOf a.phys
  let round := ((clusterAt s cl).gangs.filter (·.phys == a.phys)).length
  settleGang a.phys round (onCluster cl (fun c => { c with gangs := c.gangs ++ [{ a with round := round, answered := a.failed }] }) s)

/-- The arrival of the member that runs on a core. -/
def arrivalOf (s : State) (phys : Nat) (aAddr : Word) (pfmt : Option Word) (failed : Bool) : GangArrival :=
  ⟨phys, ((coreAt s phys).run.map Running.rank).getD 0, aAddr, pfmt, failed, 0, false⟩

/-- Take back a member's gang operation that has not started. -/
def dropGangOp (phys : Nat) (s : State) : State :=
  onCore phys (fun c => { c with mxq := c.mxq.filter (fun q => !(q.held && q.kind == .gang)) }) s

/-! ### Issue -/

/-- The frame of a matrix instruction: not in a helper; `pfx` says that it accepts a pending format (R51, R55). -/
def mxInstr (pfx : Bool) : InstrInfo := { len := 4, helper := false, pfx := if pfx then 2 else 0 }

/-- The scale registers of a pending FMT, read under wa and wb where their mode is not 0 (R129). -/
def scaleRegs (wa wb : Bool) : Act (Word × Word) := do
  let x := curCtx (← get)
  if !hasPfx x then return (0, 0)
  let a ← if fmtAs x.fmt = 0 then pure 0 else readS (fmtArs x.fmt) wa
  let b ← if fmtBs x.fmt = 0 then pure 0 else readS (fmtBrs x.fmt) wb
  return (a, b)

/-- An emulated instruction (R131, R168): the request goes to the die's control core, and the context stands at the
instruction until the answer. -/
def emulate (ag : Agent) (q : MxOp) : Act Unit := do
  modify (fun s => askEmulation ⟨ag.phys, q, false, false⟩ (setAwait (.ctx ag.phys ag.ctx) .emulation s))
  stallAct

/-- The answer of the control core to the context that issues: false if it has asked nothing. -/
def emulated (w : Waiter) : Act Bool := do
  match awaitOf (← get) w with
  | .emulation => stallAct
  | .emulationDone =>
    modify (setAwait w .nothing)
    return true
  | .emulationTrap c v e =>
    modify (setAwait w .nothing)
    trapAct c v e
  | _ => return false

/-- mma and mma.solo up to acceptance (R143). -/
def mmaAccept (solo : Bool) (x : Fin 4) (a b : Reg) (wa wb : Bool) : Act Unit := do
  let aAddr ← readS a wa
  let bAddr ← readS b wb
  let (asAddr, bsAddr) ← scaleRegs wa wb
  let s ← get
  let ag := curAgent s
  let w := Waiter.ctx ag.phys ag.ctx
  if !mxRoom s ag.phys then stallAct
  let k := curCtx s
  let q ← readOperands ag w (if solo then .solo else .mma) x (hasPfx k) k.fmt aAddr bAddr asAddr bsAddr
  if q.emu then emulate ag q
  else if solo then
    let q ← acceptOperands ag w q
    modify (mxOwn ag.phys q)
  else nestAccept ag w q

/-- mma and mma.solo (R143). -/
def mmaBody (solo : Bool) (x : Fin 4) (a b : Reg) (wa wb : Bool) : Act Unit := do
  let ag := curAgent (← get)
  if ← emulated (.ctx ag.phys ag.ctx) then pure ()
  else memberTrap ag.phys x (mmaAccept solo x a b wa wb)

/-- Acceptance of an mgang (R135): what an emulated pair still needs is checked by the control core. -/
def gangAccept (x : Fin 4) (k : Ctx) (aAddr bAddr asAddr bsAddr : Word) : Act MxOp := do
  let ag := curAgent (← get)
  let w := Waiter.ctx ag.phys ag.ctx
  let q ← readOperands ag w .gang x (hasPfx k) k.fmt aAddr bAddr asAddr bsAddr
  if q.emu then return q else acceptOperands ag w q

/-- A member of a row group that traps at its mgang arrives marked failed (R145). -/
def failedArrival {α : Type} (a : Act α) : Act α := do
  match ← attempt a with
  | .ok x => return x
  | .error (.trap c v e) =>
    modify (fun s =>
      let phys := s.core.phys
      if isRowGroup s phys then gangArrive (arrivalOf s phys 0 none true) s else s)
    trapAct c v e
  | .error e => throw e

/-- What a member does with the answer of the barrier (R144, R145). -/
def gangAnswer (w : Waiter) : Act Unit := do
  match awaitOf (← get) w with
  | .gangGo => modify (setAwait w .nothing)
  | .gangFail e =>
    modify (fun s => setAwait w .nothing (dropGangOp s.core.phys s))
    trapAct 0x0F 0 e
  | .emulation => stallAct
  | _ => stallAct true

/-- An accepted mgang waits at the barrier (R144). -/
def gangWait (phys : Nat) (q : MxOp) (s : State) : State :=
  gangArrive (arrivalOf s phys q.aAddr (if q.usesFmt then some q.pfmt else none) false)
    (setAwait (.ctx phys 0) .gang (mxPush phys { q with held := true } s))

/-- mgang (R144, R145). -/
def mgangBody (x : Fin 4) (a b : Reg) (wa wb : Bool) : Act Unit := do
  let s ← get
  let phys := s.core.phys
  let w := Waiter.ctx phys (curIdx s)
  if ← emulated w then pure ()
  else
    match awaitOf s w with
    | .gang => stallAct true
    | .gangGo => gangAnswer w
    | .gangFail _ => gangAnswer w
    | _ =>
      let k := curCtx s
      let (aAddr, bAddr, asAddr, bsAddr) ← failedArrival (do
        let aAddr ← readS a wa
        let bAddr ← readS b wb
        let (asAddr, bsAddr) ← scaleRegs wa wb
        return (aAddr, bAddr, asAddr, bsAddr))
      if !isRowGroup s phys then trapAct 0x0F 0 0x30
      if !mxRoom (← get) phys then stallAct
      let q ← failedArrival (gangAccept x k aAddr bAddr asAddr bsAddr)
      if q.emu then emulate (curAgent (← get)) q
      else
        modify (gangWait phys q)
        gangAnswer w

/-- mma (R143). -/
def execMma (x : Fin 4) (a b : Reg) (wa wb : Bool) (s : State) : Host.Outcome State Fault Refusal :=
  runSeq (mxInstr true) (mmaBody false x a b wa wb) s

/-- mma.solo (R143). -/
def execMmaSolo (x : Fin 4) (a b : Reg) (wa wb : Bool) (s : State) : Host.Outcome State Fault Refusal :=
  runSeq (mxInstr true) (mmaBody true x a b wa wb) s

/-- mgang (R144). -/
def execMgang (x : Fin 4) (a b : Reg) (wa wb : Bool) (s : State) : Host.Outcome State Fault Refusal :=
  runSeq (mxInstr true) (mgangBody x a b wa wb) s

/-- An entry of the command queue that has no operand to accept. -/
def bareOp (kind : MxKind) (x : Fin 4) : MxOp :=
  let blank : ShapeRec := parseShape (List.replicate 64 0)
  { kind := kind, acc := x, held := false, begun := false, host := none, emu := false, usesFmt := false, pfmt := 0, aAddr := 0, bAddr := 0
    asAddr := 0, bsAddr := 0, a := blank, b := blank, asRec := none, bsRec := none, pages := [], pins := [], rows := 0, next := 0
    total := 0, released := 0, rm := 0, hpc := 0, flags := 0, prio := 0, member := 0 }

/-- mzero (R142): at once, or behind the earlier instructions of its accumulator (R136). -/
def execMzero (x : Fin 4) (s : State) : Host.Outcome State Fault Refusal :=
  runSeq (mxInstr false) (do
    let s ← get
    let phys := s.core.phys
    if !accBusy s phys x && unbegun s phys = 0 then modify (onCore phys (zeroAcc x))
    else
      if !mxRoom s phys then stallAct
      modify (mxPush phys (bareOp .zero x))) s

/-! ### mld and mrel (R146) -/

/-- mld after its operand read (R146): the checks of R135 for a B operand, then an entry of the command queue (R283), which the engine
performs in its turn. An mld of an emulated format leaves an earlier tile as it is (log entry 87). -/
def mldAct (addr : Word) : Act Unit := do
  let s ← get
  let ag := curAgent s
  let w := Waiter.ctx ag.phys ag.ctx
  if !queueFree s ag.phys then stallAct
  let (b, ok) ← mxRecord ag w 1 addr bRules
  if !ok then trapAct 0x0C addr 1
  let r := parseShape b
  let pages ← withInfo (mxInfo 0 0 1) (operandPages ag w needR r)
  withInfo (mxInfo 0 0 1) (operandWindow ag r)
  withInfo (mxInfo 0 0 1) (operandDet ag w .load r)
  awaitSpans ag w needR r
  if (pairClass r.fmt r.fmt).any (·.1) then pure ()
  else modify (mxEnter ag.phys { bareOp .load 0 with bAddr := addr, b := r, pages := pages, total := r.ext[0] / kstElems r.fmt })

/-- mld (R146). -/
def execMld (a : Reg) (wa : Bool) (s : State) : Host.Outcome State Fault Refusal :=
  runSeq (mxInstr false) (do
    let addr ← readS a wa
    mldAct addr) s

/-- mrel (R146): an entry of the command queue, which the engine performs in its turn (R283). -/
def execMrel (a : Reg) (wa : Bool) (s : State) : Host.Outcome State Fault Refusal :=
  runSeq (mxInstr false) (do
    let addr ← readS a wa
    let phys := (← get).core.phys
    if !queueFree (← get) phys then stallAct
    modify (mxEnter phys { bareOp .release 0 with bAddr := addr })) s

/-! ### mdrain (R147) -/

/-- A prefix that suits the D record of a drain (R147). -/
def drainFits (pfx : Bool) (fmt : Word) (b : List Byte) : Bool :=
  !(pfx && ((fmtA fmt != 0 && fmtA fmt != 5) || fmtB fmt != (parseShape b).fmt))

/-- mdrain after its operand reads: acceptance (R135), then its place in the order of R136. -/
def mdrainAct (x : Fin 4) (dAddr hpc : Word) : Act Unit := do
  let s ← get
  let k := curCtx s
  let ag := curAgent s
  let w := Waiter.ctx ag.phys ag.ctx
  if !mxRoom s ag.phys then stallAct
  let pfx := hasPfx k
  let (b, ok) ← mxRecord ag w 4 dAddr dRules (drainFits pfx k.fmt)
  let d := parseShape b
  if !ok || !drainFits pfx k.fmt b then trapAct 0x0C dAddr 4
  withInfo (mxInfo 0 0 4) (operandWindow ag d)
  withInfo (mxInfo 0 0 4) (operandDet ag w .store d)
  awaitSpans ag w needW d
  modify (mxPush ag.phys {
    kind := .drain, acc := x, held := false, begun := false, host := none, emu := false, usesFmt := pfx, pfmt := if pfx then k.fmt else 0
    aAddr := dAddr, bAddr := 0, asAddr := 0, bsAddr := 0, a := d, b := d, asRec := none, bsRec := none, pages := []
    pins := [], rows := d.ext[1], next := 0, total := d.ext[1], released := 0, rm := roundMode k, hpc := hpc, flags := 0
    prio := taskPrio s ag.phys, member := 0 })

/-- mdrain (R147). -/
def execMdrain (x : Fin 4) (a b : Reg) (wa wb : Bool) (s : State) : Host.Outcome State Fault Refusal :=
  runSeq (mxInstr true) (do
    let d ← readS a wa
    let h ← readS b wb
    mdrainAct x d h) s

/-- The bytes of row r of a drained accumulator, with the flags of its conversions (R147). A dithered conversion takes SEED as
the row is written, while the rounding mode is that of the issue (log entry 88). -/
def drainRow (c : Core) (q : MxOp) (r : Fin 32) : List Byte × FlagSet :=
  let int := q.usesFmt && fmtA q.pfmt == 5
  let w := fmtBits q.a.fmt
  let conv := (List.finRange 16).map (fun col =>
    let v := (c.acc[q.acc][r]).get col
    let x := if int then Val.ofInt v.toInt else fp32.read v.toNat
    convertTo q.a.fmt (Rounding.at q.rm (16 * r.val + col.val) c.seed) x)
  let n := (List.range 16).zip conv |>.foldl (fun n x => n + x.2.1 * 2 ^ (w * x.1)) 0
  (leBytes (2 * w) n, conv.foldl (fun f x => f ||| x.2) 0)

/-- A row of a drain is released (R147): by its helper's hend, or when it is written if it starts none. The last one completes the
mdrain; a resumed one counts those before the row at which it goes on as released (R150). -/
def releaseRow (phys : Nat) (x : Fin 4) (s : State) : State :=
  match (coreAt s phys).mxq.findIdx? (fun q => q.kind == .drain && q.acc == x) with
  | none => s
  | some n =>
    match (coreAt s phys).mxq[n]? with
    | none => s
    | some q =>
      if q.released + 1 < q.rows then putOp phys n (some { q with released := q.released + 1 }) s
      else completeOp phys n q.flags s

/-- MDRAIN_ROW (R147): the next row of a drain is written; its helper is asked for, and the row after it waits until that
helper has started. A tile that the engine has begun to load takes the lines that it waited for. -/
def execMdrainRow (core n : Nat) (s : State) : Host.Outcome State Fault Refusal :=
  match runnableOp s core n with
  | none => .next (takeQueue core s)
  | some q =>
    let asked := (coreAt s core).hreqs.any (fun r => match r.origin with | .drain x _ => x == q.acc | _ => false)
    if q.kind != .drain || q.rows ≤ q.next || asked then .next (takeQueue core s)
    else
      let r : Fin 32 := Fin.ofNat 32 q.next
      let (bytes, fl) := drainRow (coreAt s core) q r
      let va := elemAddr q.a #v[0, q.next, 0, 0]
      match writeMem (chanAgent s core).onElems .hw .other va bytes s with
      | .error (.trap c v _) s => .next (abandonOp core n c v (mxInfo q.next 0 4) s)
      | .error _ s => .next s
      | .ok _ s =>
        let s := putOp core n (some { q with next := q.next + 1, flags := q.flags ||| fl, begun := true }) s
        .next (if q.hpc = 0 then releaseRow core q.acc s
          else askHelper core ⟨q.hpc &&& ~~~1#64, va, BitVec.ofNat 64 q.next, .drain q.acc q.next, corePart (coreAt s core), 0⟩ s)

/-! ### Format emulation (R168) -/

/-- Every K-step of an emulated op; the flags so far, or where it was abandoned (R139). -/
def emulateSteps (phys : Nat) : Nat → MxOp → Act MxOp
  | 0, q => pure q
  | fuel + 1, q => do
    if q.next < q.total then
      let q ← applyStep phys q
      emulateSteps phys fuel q
    else return q

/-- The KIND code of an instruction (R150), which mld and mrel do not have: they are in no record. -/
def MxKind.code : MxKind → Nat
  | .solo => 0
  | .mma => 1
  | .gang => 2
  | .drain => 3
  | .zero => 4
  | .load => 5
  | .release => 6

/-- The black-box record of an emulation (R168, R453): the core; PC of its control context; the formats, the kind and the
accumulator of the instruction (log entry 83). -/
def recordEmulation (phys : Nat) (q : MxOp) (s : State) : State :=
  let c := coreAt s phys
  record (dieOf phys) 0x002 (corePart c) phys c.ctl.pc (BitVec.ofNat 64 (q.a.fmt + 16 * q.b.fmt + 256 * q.kind.code + 4096 * q.acc.val)) s

/-- The place of the instruction that a request serves among its core's unfinished ones: a resumed one is there (R150). -/
def EmuReq.place (r : EmuReq) (s : State) : Option Nat :=
  if r.resumed then (coreAt s r.phys).mxq.findIdx? (fun q => q.emu && q.acc == r.op.acc && q.kind == r.op.kind) else none

/-- Whether a request has still someone who waits for it. -/
def EmuReq.stands (r : EmuReq) (s : State) : Bool :=
  if r.resumed then (r.place s).isSome else (ctxOf (coreAt s r.phys) 0).await == .emulation

/-- A request's turn on its accumulator has come (R136). -/
def EmuReq.turn (r : EmuReq) (s : State) : Bool :=
  match r.place s with
  | some n => (runnableOp s r.phys n).isSome
  | none => !accBusy s r.phys r.op.acc

/-- The answer of a control core to the context that waits. -/
def EmuReq.answer (r : EmuReq) (a : Await) (s : State) : State :=
  if r.resumed then s else onCtx r.phys 0 (fun x => { x with await := a, stalled := false }) s

/-- The end of the arithmetic of a request: the instruction is complete, or abandoned by an error in its data (R139, R168). -/
def EmuReq.finish (r : EmuReq) (q : MxOp) (fault : Option Deferred) (s : State) : State :=
  let s := recordEmulation r.phys q s
  match r.place s, fault with
  | some n, none => completeOp r.phys n q.flags s
  | some n, some d => abandonOp r.phys n d.cause d.eval d.einfo s
  | none, none => r.answer .emulationDone (onCtx r.phys 0 (fun x => { x with fflags := x.fflags ||| q.flags.zeroExtend 64 }) s)
  | none, some d => r.answer .emulationDone (deferTrap r.phys 0 d s)

/-- FORMAT_EMULATION_REQUEST (R168): the control core of a die serves its oldest request, behind the earlier
instructions on its accumulator (R136): the checks, then, for an mgang, its arrival at the barrier (R144), else the arithmetic,
the black-box record, the answer. -/
def execFormatEmulationRequest (die : Nat) (s : State) : Host.Outcome State Fault Refusal :=
  if h : die < 4 then
    match s.dies[die].emus with
    | [] => .next s
    | r :: rest =>
      let drop := fun (s : State) => { s with dies := s.dies.set die { s.dies[die] with emus := s.dies[die].emus.tail } }
      if !r.stands s then .next { s with dies := s.dies.set die { s.dies[die] with emus := rest } }
      else if !r.turn s then .next s
      else
        match (if r.checked then pure r.op else acceptOperands (chanAgent s r.phys) .hw r.op : Act MxOp) s with
        | .error (.trap c v e) s =>
          let s := r.answer (.emulationTrap c v e) (drop s)
          .next (if r.op.kind == .gang then gangArrive (arrivalOf s r.phys 0 none true) s else s)
        | .error _ s => .next s
        | .ok q s0 =>
          if q.kind == .gang && !r.checked then .next (gangWait r.phys q (drop s0))
          else
            match emulateSteps r.phys q.total q s0 with
            | .error (.stall _) s => .next { s0 with banks := s.banks, wakes := s.wakes, wakeQueue := s.wakeQueue, sleepers := s.sleepers, funcs := s.funcs }
            | .error (.trap c v i) s => .next (r.finish q (some ⟨c, v, i⟩) (drop s))
            | .error _ s => .next s
            | .ok q s => .next (r.finish q none (drop s))
  else .next s

end Sys2Proof.Machine
end

