-- ==== Sys2Proof/Machine/Vector.lean ====
section
/-!
DEFINITION. The vector engine (R229 to R255): the forms and their formats, acceptance, the walk by element groups, the
results of elements, reductions, indexed forms, and resumption after a trap (R237).
-/

namespace Sys2Proof.Machine

/-! ### The forms -/

/-- The element-wise operations of R243 and R244. -/
inductive VArith where
  | add | sub | mul | div | fma | min | max | abs | neg | sel | rcp | rsq | exp2 | log2
  deriving DecidableEq, Repr

/-- The relations of R245. -/
inductive VCmp where
  | eq | ne | lt | le
  deriving DecidableEq, Repr

/-- The bit operations of R246. -/
inductive VBit where
  | and | or | xor | shl | shr
  deriving DecidableEq, Repr

/-- What a vector instruction computes. -/
inductive VecOp where
  | arith (f : VArith)
  | cmp (c : VCmp)
  | bit (f : VBit)
  | popc
  | cvt
  | quant
  | sum (dim : Fin 4)
  | maxr (dim : Fin 4)
  | scan (dim : Fin 4)
  | gath
  | scat
  | amo (op : RmwOp)
  | hash
  | fill
  | iota
  | acc (x : Fin 4) (live : Bool)
  deriving DecidableEq, Repr

/-- A vector instruction: its operation and registers; `bs` says that b is a scalar. -/
structure VecForm where
  op : VecOp
  d : Reg
  a : Option Reg
  b : Option Reg
  bs : Bool
  w : Bool
  deriving DecidableEq, Repr

/-- The form of a vector instruction (R51). -/
def vecForm : Instr → Option VecForm
  | .vadd d a b bs w => some ⟨.arith .add, d, some a, some b, bs, w⟩
  | .vsub d a b bs w => some ⟨.arith .sub, d, some a, some b, bs, w⟩
  | .vmul d a b bs w => some ⟨.arith .mul, d, some a, some b, bs, w⟩
  | .vdiv d a b bs w => some ⟨.arith .div, d, some a, some b, bs, w⟩
  | .vfma d a b bs w => some ⟨.arith .fma, d, some a, some b, bs, w⟩
  | .vmin d a b bs w => some ⟨.arith .min, d, some a, some b, bs, w⟩
  | .vmax d a b bs w => some ⟨.arith .max, d, some a, some b, bs, w⟩
  | .vabs d a w => some ⟨.arith .abs, d, some a, none, false, w⟩
  | .vneg d a w => some ⟨.arith .neg, d, some a, none, false, w⟩
  | .vrcp d a w => some ⟨.arith .rcp, d, some a, none, false, w⟩
  | .vrsq d a w => some ⟨.arith .rsq, d, some a, none, false, w⟩
  | .vexp2 d a w => some ⟨.arith .exp2, d, some a, none, false, w⟩
  | .vlog2 d a w => some ⟨.arith .log2, d, some a, none, false, w⟩
  | .vsel d a b bs w => some ⟨.arith .sel, d, some a, some b, bs, w⟩
  | .vcmpEq d a b bs w => some ⟨.cmp .eq, d, some a, some b, bs, w⟩
  | .vcmpNe d a b bs w => some ⟨.cmp .ne, d, some a, some b, bs, w⟩
  | .vcmpLt d a b bs w => some ⟨.cmp .lt, d, some a, some b, bs, w⟩
  | .vcmpLe d a b bs w => some ⟨.cmp .le, d, some a, some b, bs, w⟩
  | .vand d a b bs w => some ⟨.bit .and, d, some a, some b, bs, w⟩
  | .vor d a b bs w => some ⟨.bit .or, d, some a, some b, bs, w⟩
  | .vxor d a b bs w => some ⟨.bit .xor, d, some a, some b, bs, w⟩
  | .vshl d a b bs w => some ⟨.bit .shl, d, some a, some b, bs, w⟩
  | .vshr d a b bs w => some ⟨.bit .shr, d, some a, some b, bs, w⟩
  | .vpopc d a w => some ⟨.popc, d, some a, none, false, w⟩
  | .vcvt d a w => some ⟨.cvt, d, some a, none, false, w⟩
  | .vquant d a w => some ⟨.quant, d, some a, none, false, w⟩
  | .vsum d a dim w => some ⟨.sum dim, d, some a, none, false, w⟩
  | .vmaxr d a dim w => some ⟨.maxr dim, d, some a, none, false, w⟩
  | .vscan d a dim w => some ⟨.scan dim, d, some a, none, false, w⟩
  | .vgath d a b w => some ⟨.gath, d, some a, some b, false, w⟩
  | .vscat d a b w => some ⟨.scat, d, some a, some b, false, w⟩
  | .vamoOr d a b w => some ⟨.amo .or, d, some a, some b, false, w⟩
  | .vamoAnd d a b w => some ⟨.amo .and, d, some a, some b, false, w⟩
  | .vamoAdd d a b w => some ⟨.amo .add, d, some a, some b, false, w⟩
  | .vamoFadd d a b w => some ⟨.amo .fadd, d, some a, some b, false, w⟩
  | .vamoMax d a b w => some ⟨.amo .max, d, some a, some b, false, w⟩
  | .vhash d a w => some ⟨.hash, d, some a, none, false, w⟩
  | .vacc d x w => some ⟨.acc x false, d, none, none, false, w⟩
  | .vfill d b w => some ⟨.fill, d, none, some b, true, w⟩
  | .viota d b w => some ⟨.iota, d, none, some b, true, w⟩
  | .vaccLive d x w => some ⟨.acc x true, d, none, none, false, w⟩
  | _ => none

/-- The forms whose elements are performed one by one (R235). -/
def VecOp.indexed : VecOp → Bool
  | .gath | .scat | .amo _ => true
  | _ => false

/-- The forms that write nothing until every group has passed its checks (R241). -/
def VecOp.atEnd : VecOp → Bool
  | .sum _ | .maxr _ | .scan _ => true
  | _ => false

/-- The forms whose table is the destination (R251). -/
def VecOp.tableDest : VecOp → Bool
  | .scat | .amo _ => true
  | _ => false

/-- The forms that accept a prefix (R55). -/
def VecOp.takesPfx : VecOp → Bool
  | .cvt | .quant => true
  | _ => false

/-! ### Records and formats -/

/-- A record of an instruction by its operand code: 0 a, 1 b, 2 the A scale, 3 the B scale, 4 d. -/
def recOf (recs : List (Nat × ShapeRec)) (code : Nat) : Option ShapeRec := (recs.find? (·.1 == code)).map (·.2)

/-- A record that an instruction may not have, as one of a single element. -/
def recOr (recs : List (Nat × ShapeRec)) (code : Nat) : ShapeRec :=
  (recOf recs code).getD ⟨0, 0, 1, 0, false, 0, Vector.replicate 4 1, Vector.replicate 4 0⟩

/-- The rules that a record of an operand meets by itself (R230 to R232): a destination is not in a ring and has no pad,
but for a table. -/
def vecOwn (op : VecOp) (code : Nat) (b : List Byte) : Bool :=
  let r := parseShape b
  shapeAddrOk r &&
    (if code = 4 then r.space < 3 && (!r.pad || op.tableDest)
     else if code = 2 then r.space < 2
     else if code = 3 then r.space < 2 && !r.pad
     else true)

/-- The shape of a scale record for the extents it belongs to (R247, R248). -/
def vecScaleOk (mode : Nat) (r k : ShapeRec) : Bool :=
  k.rank == r.rank && k.ext[1] == r.ext[1] && k.ext[2] == r.ext[2] && k.ext[3] == r.ext[3] &&
    (if mode = 1 then k.fmt == 11 && r.ext[0] % 32 == 0 && k.ext[0] == r.ext[0] / 32 else k.fmt == 0 && k.ext[0] == 1)

/-- An extent vector with the extent of a dimension 1 (R249). -/
def flatten (e : Vector Nat 4) (dim : Fin 4) : Vector Nat 4 := e.set dim 1

/-- The rules that join the records and the prefix (R231, R233, R247 to R251, R255); `fmt` is FMT under a prefix. -/
def vecJoint (op : VecOp) (fmt : Option Word) (recs : List (Nat × ShapeRec)) (code : Nat) : Bool :=
  let a := recOr recs 0
  let b := recOr recs 1
  let d := recOr recs 4
  match op, code with
  | .arith _, 0 => a.fmt == d.fmt && conforms d.ext a
  | .arith _, 1 => b.fmt == d.fmt && conforms d.ext b
  | .cmp _, 0 => conforms d.ext a
  | .cmp _, 1 => b.fmt == a.fmt && conforms d.ext b
  | .bit _, 0 => a.fmt == d.fmt && conforms d.ext a
  | .bit _, 1 => b.fmt == d.fmt && conforms d.ext b
  | .popc, 0 => conforms d.ext a
  | .hash, 0 => conforms d.ext a
  | .cvt, 0 => conforms d.ext a && fmt.all (fun f => fmtA f == a.fmt)
  | .cvt, 4 => fmt.all (fun f => fmtB f == d.fmt && fmtBs f == 0)
  | .cvt, 2 => fmt.all (fun f => vecScaleOk (fmtAs f) a (recOr recs 2))
  | .quant, 0 => conforms d.ext a && fmt.all (fun f => fmtA f == a.fmt && fmtAs f == 0)
  | .quant, 4 => fmt.all (fun f => fmtB f == d.fmt)
  | .quant, 3 => fmt.all (fun f => vecScaleOk (fmtBs f) d (recOr recs 3))
  | .sum dim, 0 => dim.val < a.rank
  | .sum dim, 4 => d.fmt == a.fmt && d.ext == flatten a.ext dim
  | .maxr dim, 0 => dim.val < a.rank
  | .maxr dim, 4 => d.fmt == a.fmt && d.ext == flatten a.ext dim
  | .scan dim, 0 => dim.val < a.rank
  | .scan _, 4 => d.fmt == a.fmt && d.ext == a.ext
  | .gath, 0 => a.rank == 1
  | .gath, 4 => d.fmt == a.fmt && d.ext == b.ext
  | .scat, 0 => a.ext == b.ext
  | .scat, 4 => d.fmt == a.fmt && d.rank == 1
  | .amo _, 0 => a.fmt == d.fmt && a.ext == b.ext
  | .amo _, 4 => d.rank == 1
  | .acc _ _, 4 => d.rank == 2 && (d.ext[0] == 16 || d.ext[0] == 17) && d.ext[1] ≤ 32
  | _, _ => true

/-- The formats that vgath moves (R233). -/
def tableFormats : List Nat := [0, 1, 2, 9, 5, 12, 6, 7, 3, 4, 11]

/-- The formats that an operand may have (R233). -/
def vecFormats (op : VecOp) (code : Nat) : List Nat :=
  match op, code with
  | .arith .rcp, _ => [0, 1]
  | .arith .rsq, _ => [0, 1]
  | .arith .exp2, _ => [0, 1]
  | .arith .log2, _ => [0, 1]
  | .arith _, _ => [0, 1, 5, 9]
  | .cmp _, 4 => [10, 5, 9]
  | .cmp _, _ => [0, 1, 5, 9]
  | .bit .shl, _ => [5, 9]
  | .bit .shr, _ => [5, 9]
  | .bit _, _ => [5, 9, 10]
  | .popc, 4 => [5, 9]
  | .popc, _ => [5, 9, 10]
  | .cvt, 4 => [0, 1, 2, 3, 4, 5, 6, 7, 9, 12, 13, 14]
  | .cvt, _ => List.range 15
  | .quant, 4 => [3, 4, 6, 8, 14, 13]
  | .quant, _ => [0, 1]
  | .sum _, _ => [0, 1, 5, 9]
  | .maxr _, _ => [0, 1, 5, 9]
  | .scan _, _ => [0, 1, 5, 9]
  | .gath, 1 => [5, 9]
  | .gath, _ => tableFormats
  | .scat, 1 => [5, 9]
  | .scat, _ => tableFormats
  | .amo _, 1 => [5, 9]
  | .amo .fadd, _ => [0, 1]
  | .amo .max, _ => [5, 9, 0]
  | .amo _, _ => [5, 9]
  | .hash, 4 => [9]
  | .hash, _ => [5, 9]
  | .fill, _ => [0, 1, 2, 3, 4, 5, 6, 7, 9, 10, 11, 12, 13, 14]
  | .iota, _ => [5, 9]
  | .acc _ _, _ => [0, 5]

/-- A record as a vector instruction has read it: its operand code, address and bytes, whether it meets the rules by itself. -/
structure VecRead where
  code : Nat
  addr : Word
  bytes : List Byte
  ok : Bool

/-- Records that passed every rule of their operand fill the cache where the read missed (R376). -/
def fillRecords (phys : Nat) (l : List VecRead) (s : State) : State :=
  l.foldl (fun s r => if (coreAt s phys).recs.any (·.1 == r.addr) then s else keepRecord phys r.addr r.bytes s) s

/-- Read the records of a vector instruction in order (R234, order 2). A record that the instruction has read already hits; what was read
before a fault fills the cache. -/
def readVecRecords (ag : Agent) (w : Waiter) (op : VecOp) (addrs : List (Nat × Word)) : Act (List VecRead) :=
  addrs.foldlM (fun l x => do
    let one : Act VecRead := do
      if x.2.toNat % 64 ≠ 0 then trapAct 0x0C x.2 (BitVec.ofNat 64 x.1)
      match l.find? (fun r => r.addr == x.2 && r.ok) with
      | some r => return ⟨x.1, x.2, r.bytes, shapeFieldsOk r.bytes && vecOwn op x.1 r.bytes⟩
      | none =>
        let (b, ok) ← fetchRecord ag w x.1 x.2 (vecOwn op x.1) (fun _ => false)
        return ⟨x.1, x.2, b, ok⟩
    match ← attempt one with
    | .ok r => return l ++ [r]
    | .error (.trap c v e) =>
      modify (fillRecords ag.phys (l.filter (·.ok)))
      trapAct c v e
    | .error e => throw e) []

/-- Whether the format of an operand is in its list; scale records have none (R233). -/
def vecFmtOk (op : VecOp) (code : Nat) (fmt : Nat) : Bool := code == 2 || code == 3 || (vecFormats op code).contains fmt

/-- The first phase of R234 after the register reads: records in order, then each record's own rules,
then how they conform, then their formats. Only what meets them all is cached (R376). -/
def vecAccept (ag : Agent) (w : Waiter) (op : VecOp) (fmt : Option Word) (addrs : List (Nat × Word)) :
    Act (List (Nat × ShapeRec)) := do
  let read ← readVecRecords ag w op addrs
  let recs := read.map (fun r => (r.code, parseShape r.bytes))
  let fits := fun (r : VecRead) => r.ok && vecJoint op fmt recs r.code && vecFmtOk op r.code (recOr recs r.code).fmt
  modify (fillRecords ag.phys (read.filter fits))
  read.forM (fun r => do if !r.ok then trapAct 0x0C r.addr (BitVec.ofNat 64 r.code))
  read.forM (fun r => do if !vecJoint op fmt recs r.code then trapAct 0x0C r.addr (BitVec.ofNat 64 r.code))
  read.forM (fun r => do
    if !vecFmtOk op r.code (recOr recs r.code).fmt then trapAct 0x0D r.addr (BitVec.ofNat 64 r.code))
  return recs

/-! ### Elements -/

/-- One access of an element: its operand code, the element's record and point, where it lies, what it needs, and whether
memory outside the device is allowed. -/
structure Spot where
  code : Nat
  r : ShapeRec
  p : Vector Nat 4
  addr : Word
  n : Nat
  need : Need
  cls : AccessClass
  outside : Bool

/-- The access of an element of a record; one of Q4X read for its value is its whole block (R97). -/
def spotOf (code : Nat) (r : ShapeRec) (p : Vector Nat 4) (write block : Bool) : Spot :=
  let q := if block then p.set 0 (p[0] - p[0] % 32) else p
  { code := code, r := r, p := p, addr := elemAddr r q, n := if block then 16 else elemSpan r p
    need := if write then needW else needR, cls := if write then .store else .load, outside := true }

/-- Checks 5 to 7 of R234 for the accesses of an element: each check over all of them in operand order. -/
def checkSpots (ag : Agent) (w : Waiter) (i : Nat) (spots : List Spot) : Act (List (Spot × List Piece)) := do
  let placed ← spots.mapM (fun sp => withInfo (mxInfo i 0 sp.code) (do
    let va ← placeInSpace ag sp.r sp.addr sp.n
    if inWindows va then
      let _ ← resolveWindow ag va sp.n
    return { sp with addr := va }))
  placed.forM (fun sp => withInfo (mxInfo i 0 sp.code) (do
    if !inWindows sp.addr then
      let _ ← translate ag w sp.need sp.addr
      if 4096 < sp.addr.toNat % 4096 + sp.n then
        let _ ← translate ag w sp.need (sp.addr + BitVec.ofNat 64 (4096 - sp.addr.toNat % 4096))))
  placed.mapM (fun sp => withInfo (mxInfo i 0 sp.code) (do
    let ps ← resolve ag w sp.need sp.addr sp.n
    if ps.any Piece.inRegs || (!sp.outside && ps.any Piece.outside) then trapAct 0x09 sp.addr
    return (sp, ps)))

/-- Check 9 of R234. -/
def detSpots (ag : Agent) (i : Nat) (l : List (Spot × List Piece)) : Act Unit :=
  l.forM (fun x => withInfo (mxInfo i 0 x.1.code) (detCheck ag x.1.cls x.1.addr x.2))

/-- The stash fills and the waits for banks and owned lines; a vamo reaches the home of its line, as an atomic of .dev does (R251). -/
def readySpots (ag : Agent) (w : Waiter) (i : Nat) (l : List (Spot × List Piece)) : Act Unit :=
  l.forM (fun x => withInfo (mxInfo i 0 x.1.code) (do
    let rmw := x.1.need.r && x.1.need.w
    x.2.forM (stashFill ag w)
    x.2.forM (fun p => touchData ag { p with cacheable := p.cacheable && !rmw })
    performMeeting ag.onElems x.2
    if x.1.need.w then awaitHosts (x.2.map (fun p => { p with cacheable := p.cacheable && !rmw }))))

/-- The vector instruction of a context that the engine performs. -/
def vxOf (s : State) (phys ctx : Nat) : Option VxOp := (coreAt s phys).vxq.find? (·.vrec.ctx == ctx)

/-- The accesses of an element that have been checked already. -/
def VxOp.placedAt (q : VxOp) (i : Nat) : Option (List (Word × List Piece)) := (q.placed.find? (·.1 == i)).map (·.2)

/-- The bytes of an access that has been opened; a bad line gives the machine error (R240). -/
def spotBytes (ag : Agent) (i : Nat) (x : Spot × List Piece) : Act (List Byte) := do
  modify (reachPieces ag x.2)
  withInfo (mxInfo i 0 x.1.code) (checkBad false x.2)
  let s ← get
  return x.2.flatMap (fun p => placeBytes s ag.phys p.cacheable p.place p.len)

/-- Write an element's bits at its place: a sub-byte element rewrites its byte (R235). -/
def writeSpot (ag : Agent) (i : Nat) (x : Spot × List Piece) (v : Nat) : Act Unit := do
  let new := elemPut x.1.r x.1.p (← spotBytes ag i x) v
  let _ ← x.2.foldlM (fun off p => do
    modify (storeAt ag.phys ag.part ag.det ag.self p.cacheable p.place (slice new off p.len))
    return off + p.len) 0

/-- The iteration space (R229, R251). -/
def vecSpace (op : VecOp) (recs : List (Nat × ShapeRec)) : Vector Nat 4 :=
  match op with
  | .sum _ => (recOr recs 0).ext
  | .maxr _ => (recOr recs 0).ext
  | .scat => (recOr recs 1).ext
  | .amo _ => (recOr recs 1).ext
  | _ => (recOr recs 4).ext

/-- The point of a scale record that belongs to a point (R247, R248). -/
def scalePoint (mode : Nat) (p : Vector Nat 4) : Vector Nat 4 := p.set 0 (if mode = 1 then p[0] / 32 else 0)

/-- FMT of a prefix that the instruction consumes, or none. -/
def vecFmt (op : VecOp) (x : Ctx) : Option Word := if op.takesPfx && hasPfx x then some x.fmt else none

/-- The mode of the scale of an operand under a prefix. -/
def vecMode (fmt : Option Word) (f : Word → Nat) : Nat := (fmt.map f).getD 0

/-- Whether a point is the last of its line or block of R248 along dimension 0. -/
def lastOfBlock (mode e0 : Nat) (p : Vector Nat 4) : Bool := if mode = 1 then p[0] % 32 == 31 else p[0] + 1 == e0

/-- The read of a source element at a point; none at a pad position. -/
def sourceSpot (code : Nat) (e : Vector Nat 4) (r : Option ShapeRec) (p : Vector Nat 4) : Option Spot :=
  r.bind (fun r => (sourcePoint e r p).map (fun q => spotOf code r q false (r.fmt == 8)))

/-- The accesses of an element of a form that is not indexed: reads first, then writes. -/
def vecSpots (op : VecOp) (fmt : Option Word) (recs : List (Nat × ShapeRec)) (p : Vector Nat 4) : List Spot :=
  let e := vecSpace op recs
  let d := recOr recs 4
  let dst := [spotOf 4 d p true false]
  let a := (sourceSpot 0 e (recOf recs 0) p).toList
  let b := (sourceSpot 1 e (recOf recs 1) p).toList
  match op with
  | .arith .fma => a ++ b ++ [spotOf 4 d p false false] ++ dst
  | .arith .sel => a ++ b ++ [spotOf 4 d p false false] ++ dst
  | .cvt =>
    let mode := vecMode fmt fmtAs
    let k := match recOf recs 2, a.head? with
      | some r, some x => [spotOf 2 r (scalePoint mode x.p) false false]
      | _, _ => []
    a ++ k ++ dst
  | .quant =>
    let mode := vecMode fmt fmtBs
    let k := match recOf recs 3 with
      | some r => if lastOfBlock mode e[0] p then [spotOf 3 r (scalePoint mode p) true false] else []
      | none => []
    a ++ dst ++ k
  | .sum dim => a ++ (if p.get dim + 1 = e.get dim then [spotOf 4 d (p.set dim 0) true false] else [])
  | .maxr dim => a ++ (if p.get dim + 1 = e.get dim then [spotOf 4 d (p.set dim 0) true false] else [])
  | _ => a ++ b ++ dst

/-- Key of a value kept in VxOp.got: element index and operand code. -/
def gotKey (i code : Nat) : Nat := 8 * i + code

/-- A value kept for an element. -/
def gotOf (got : List (Nat × Nat)) (i code : Nat) : Option Nat := (got.find? (·.1 == gotKey i code)).map (·.2)

/-- The value read at an access: the element's bits, or a Q4X block's 128 bits, which must be well formed (R240). -/
def spotValue (ag : Agent) (i : Nat) (x : Spot × List Piece) : Act Nat := do
  let b ← spotBytes ag i x
  if x.1.r.fmt = 8 then
    if (q4xBlock b).isNone then trapAct 0x0C x.1.addr (mxInfo (i - x.1.p[0] % 32) 0 x.1.code)
    return leNat b
  else return elemOf x.1.r x.1.p b

/-- Checks 5 to 9 of R234 for an element of a form that is not indexed, made once: later its accesses are those that passed (R236,
R237). -/
def placeElem (ag : Agent) (w : Waiter) (op : VecOp) (q : VxOp) (i : Nat) : Act (List (Spot × List Piece)) := do
  let spots := vecSpots op q.fmt q.recs (pointOf (vecSpace op q.recs) i)
  match (vxOf (← get) ag.phys ag.ctx).bind (·.placedAt i) with
  | some l => return spots.zipWith (fun sp x => ({ sp with addr := x.1 }, x.2)) l
  | none =>
    let l ← checkSpots ag.onElems w i spots
    detSpots ag i l
    modify (onVx ag.phys ag.ctx (fun q => { q with placed := q.placed ++ [(i, l.map (fun x => (x.1.addr, x.2)))] }))
    return l

/-- Check an element of a form that is not indexed and read its sources. -/
def readVecElem (ag : Agent) (w : Waiter) (op : VecOp) (q : VxOp) (i : Nat) : Act (List (Nat × Nat)) := do
  let l ← placeElem ag w op q i
  readySpots ag w i l
  l.forM (fun x => if x.1.need.w then withInfo (mxInfo i 0 x.1.code) (checkBad false x.2) else pure ())
  (l.filter (fun x => !x.1.need.w)).mapM (fun x => do return (gotKey i x.1.code, ← spotValue ag i x))

/-! ### Values -/

/-- The floating-point format of a vector form. -/
def vecFloat (fmt : Nat) : Option FloatFmt := if fmt = 0 then some fp32 else if fmt = 1 then some bf16 else none

/-- An element as a signed integer of its width. -/
def sgn (w x : Nat) : Int := if x < 2 ^ (w - 1) then x else (x : Int) - 2 ^ w

/-- An integer as an element of a width. -/
def unsgn (w : Nat) (v : Int) : Nat := (v % 2 ^ w).toNat

/-- R243 and R244 on floats. -/
def arithFloat (f : FloatFmt) (r : Rounding) (op : VArith) (x y z : Nat) : Nat × FlagSet :=
  let vx := f.read x
  let vy := f.read y
  match op with
  | .add => f.deliver r (sumExact r.rm [vx, vy])
  | .sub => f.deliver r (sumExact r.rm [vx, vy.neg])
  | .mul => f.deliver r (mulExact vx vy)
  | .div => f.deliver r (divExact vx vy)
  | .fma => f.deliver r (fmaExact r.rm vx vy (f.read z))
  | .min => minMaxBits f false x y
  | .max => minMaxBits f true x y
  | .abs => (x % f.signBit, 0)
  | .neg => (x ^^^ f.signBit, 0)
  | .sel => (if z % f.signBit ≠ 0 then x else y, 0)
  | .rcp => f.deliverRecip (rcpExact vx)
  | .rsq => f.deliverRecip (rsqExact vx)
  | .exp2 => f.deliver r (exp2Exact vx)
  | .log2 => f.deliver r (log2Exact vx)

/-- R243 on integers of w bits. -/
def arithInt (w : Nat) (op : VArith) (x y z : Nat) : Nat :=
  let sx := sgn w x
  let sy := sgn w y
  unsgn w (match op with
    | .add => sx + sy
    | .sub => sx - sy
    | .mul => sx * sy
    | .div => if sy = 0 then -1 else sx.tdiv sy
    | .fma => sx * sy + sgn w z
    | .min => min sx sy
    | .max => max sx sy
    | .abs => sx.natAbs
    | .neg => -sx
    | .sel => if z ≠ 0 then sx else sy
    | _ => 0)

/-- R245: 1 if the relation holds. -/
def cmpResult (fmt : Nat) (c : VCmp) (x y : Nat) : Nat × FlagSet :=
  match vecFloat fmt with
  | some f =>
    let vx := f.read x
    let vy := f.read y
    match c with
    | .eq => let (b, fl) := fcmp .eq vx vy; (b.toNat, fl)
    | .ne => let (b, fl) := fcmp .eq vx vy; ((!b).toNat, fl)
    | .lt => let (b, fl) := fcmp .lt vx vy; (b.toNat, fl)
    | .le => let (b, fl) := fcmp .le vx vy; (b.toNat, fl)
  | none =>
    let sx := sgn (fmtBits fmt) x
    let sy := sgn (fmtBits fmt) y
    match c with
    | .eq => ((sx == sy).toNat, 0)
    | .ne => ((sx != sy).toNat, 0)
    | .lt => ((decide (sx < sy)).toNat, 0)
    | .le => ((decide (sx ≤ sy)).toNat, 0)

/-- R246 on elements of w bits. -/
def bitResult (w : Nat) (op : VBit) (x y : Nat) : Nat :=
  match op with
  | .and => x &&& y
  | .or => x ||| y
  | .xor => x ^^^ y
  | .shl => x * 2 ^ (y % w) % 2 ^ w
  | .shr => x / 2 ^ (y % w)

/-- The multiplier of vhash (R253). -/
def hashFactor : Nat := 0x9E3779B97F4A7C15

/-- The part of a scalar register that stands for elements of a format (R231). -/
def scalarPart (fmt : Nat) (v : Word) : Nat := v.toNat % 2 ^ fmtBits fmt

/-- The value of a source element of vcvt or vquant from what was read: a Q4X element out of its block. -/
def sourceVal (r : ShapeRec) (p0 : Nat) (bits : Nat) : Val :=
  if r.fmt = 8 then ((q4xBlock (leBytes 16 bits)).bind (fun l => l[p0 % 32]?)).getD (Val.ofInt 0) else readElem r.fmt bits

/-- A pad element as a value. A Q4X pad nibble stands alone, so it is read as a 4-bit integer, 1000 as −8, which is no marker
here (log entry 89). -/
def padVal (r : ShapeRec) : Val := if r.fmt = 8 then Val.ofInt (sgn 4 (padBits r)) else readElem r.fmt (padBits r)

/-- A value multiplied exactly by its scale (R247). -/
def scaleVal (x k : Val) : Val := (mulVal x k).1

/-- The magnitude of a value as significand and exponent, none for NaN or infinity. -/
def Val.mag : Val → Option (Nat × Int)
  | .fin _ m e => some (m, e)
  | _ => none

/-- Lmax of a format (R248). -/
def lmax (fmt : Nat) : Nat :=
  match fmt with
  | 3 => 448 | 4 => 57344 | 6 => 127 | 8 => 7 | 14 => 28 | _ => 6

/-- ceil(log2(m × 2^e ÷ l)) for m > 0. -/
def ceilLog (m : Nat) (e : Int) (l : Nat) : Int :=
  let k0 : Int := e + m.log2 - l.log2 - 1
  let fits := fun (k : Int) => decide (scaled false m e (min e k) ≤ scaled false l k (min e k))
  if fits k0 then k0 else if fits (k0 + 1) then k0 + 1 else k0 + 2

/-- e of a block of R248 from its values. -/
def blockExp (fmt : Nat) (xs : List Val) : Nat :=
  if xs.any Val.isNan then 255
  else if xs.any (fun x => x == .inf false || x == .inf true) then 254
  else
    let ks := xs.filterMap (fun x => match x with | .fin _ m e => if m = 0 then none else some (ceilLog m e (lmax fmt)) | _ => none)
    match ks with
    | [] => 127
    | k :: rest => (max 0 (min 254 (127 + rest.foldl max k))).toNat

/-- An element of R248 divided by its scale, or the NaN of a NaN block, which raises NV where the element is a signalling
NaN (R96). -/
def unscaled (e : Nat) (x : Val) : Val :=
  if e = 255 then .nan x.isSig
  else match x with
    | .fin n m k => .fin n m (k - ((e : Int) - 127))
    | x => x

/-- The bits of the scale that vquant writes (R248). -/
def scaleBits (mode e : Nat) : Nat :=
  if mode = 1 then e else if e = 255 then fp32.nanBits else (fp32.round rne false 1 ((e : Int) - 127) false).1

/-- The rounding mode of a form (R239). -/
def vecRm (op : VecOp) (x : Ctx) : Nat := if op.takesPfx then roundMode x else statusRm x.status

/-- The bits of a source element that stands for a point: read, pad, or scalar. -/
def operandBits (q : VxOp) (form : VecForm) (i code : Nat) : Nat :=
  match gotOf q.got i code with
  | some v => v
  | none =>
    match recOf q.recs code with
    | some r => padBits r
    | none => if form.bs && code = 1 then scalarPart (recOr q.recs 0).fmt q.vrec.vb else 0

/-- The value of a's element at index i of the iteration space. -/
def operandVal (q : VxOp) (e : Vector Nat 4) (i : Nat) : Val :=
  let a := recOr q.recs 0
  match gotOf q.got i 0, sourcePoint e a (pointOf e i) with
  | some v, some p => sourceVal a p[0] v
  | _, _ => padVal a

/-- The code under which the scale exponent of a block is kept, at its first element. -/
def expCode : Nat := 7

/-- The result of element i of a form that is neither indexed nor a reduction. -/
def vecResult (q : VxOp) (form : VecForm) (fmt : Option Word) (rm : Nat) (seed : Word) (i : Nat) : Nat × FlagSet :=
  let r := Rounding.at rm i seed
  let d := recOr q.recs 4
  let a := recOr q.recs 0
  let e := d.ext
  let x := operandBits q form i 0
  let y := operandBits q form i 1
  let z := operandBits q form i 4
  match form.op with
  | .arith op =>
    match vecFloat d.fmt with
    | some f => arithFloat f r op x y z
    | none => (arithInt (fmtBits d.fmt) op x y z, 0)
  | .cmp c => cmpResult a.fmt c x y
  | .bit op => (bitResult (fmtBits d.fmt) op x y, 0)
  | .popc => (popcount (fmtBits a.fmt) x, 0)
  | .hash => (unsgn 64 (sgn (fmtBits a.fmt) x) * hashFactor % 2 ^ 64, 0)
  | .fill => (q.vrec.vb.toNat % 2 ^ fmtBits d.fmt, 0)
  | .iota => ((q.vrec.vb.toNat + i) % 2 ^ fmtBits d.fmt, 0)
  | .acc _ _ => ((gotOf q.got i 0).getD 0, 0)
  | .cvt =>
    let v := operandVal q e i
    let v := match recOf q.recs 2, gotOf q.got i 2 with
      | some k, some b => scaleVal v (readElem k.fmt b)
      | _, _ => v
    convertTo d.fmt r v
  | .quant =>
    let mode := vecMode fmt fmtBs
    let v := operandVal q e i
    if mode = 0 then convertTo d.fmt r v
    else
      let n := if mode = 1 then 32 else e[0]
      convertTo d.fmt r (unscaled ((gotOf q.got (i / n * n) expCode).getD 127) v)
  | _ => (0, 0)

/-- The linear index of a point (R229). -/
def indexOf (e p : Vector Nat 4) : Nat := p[0] + e[0] * (p[1] + e[1] * (p[2] + e[2] * p[3]))

/-- The values of the line of a reduction up to position n of the dimension, in order. -/
def lineBits (q : VxOp) (e : Vector Nat 4) (dim : Fin 4) (p : Vector Nat 4) (n : Nat) : List Nat :=
  (List.range n).map (fun k =>
    (gotOf q.got (indexOf e (p.set dim k)) 0).getD 0)

/-- A sum over a line of n elements in a format, rounded once with dither index i (R249). -/
def lineSum (fmt : Nat) (r : Rounding) (l : List Nat) : Nat × FlagSet :=
  match vecFloat fmt with
  | some f => f.deliver r (sumExact r.rm (l.map f.read))
  | none => (l.foldl (· + ·) 0 % 2 ^ fmtBits fmt, 0)

/-- The largest element of a line (R249). -/
def lineMax (fmt : Nat) (l : List Nat) : Nat × FlagSet :=
  match l with
  | [] => (0, 0)
  | x :: rest =>
    match vecFloat fmt with
    | some f => rest.foldl (fun acc y => let (b, fl) := minMaxBits f true acc.1 y; (b, acc.2 ||| fl)) (minMaxBits f true x x)
    | none => (unsgn (fmtBits fmt) (rest.foldl (fun m y => max m (sgn (fmtBits fmt) y)) (sgn (fmtBits fmt) x)), 0)

/-- The result of a reduction for element i of d (R249). -/
def reduceResult (q : VxOp) (op : VecOp) (rm : Nat) (seed : Word) (i : Nat) : Nat × FlagSet :=
  let a := recOr q.recs 0
  let d := recOr q.recs 4
  let p := pointOf d.ext i
  match op with
  | .sum dim => lineSum a.fmt (Rounding.at rm i seed) (lineBits q a.ext dim p (a.ext.get dim))
  | .scan dim => lineSum a.fmt (Rounding.at rm i seed) (lineBits q a.ext dim p (p.get dim + 1))
  | .maxr dim => lineMax a.fmt (lineBits q a.ext dim p (a.ext.get dim))
  | _ => (0, 0)

/-! ### Indexed forms (R250, R251) -/

/-- The operation and class of a vamo update of a format (R251, R252). -/
def amoOf (op : RmwOp) (fmt : Nat) : RmwOp × AccessClass :=
  match op with
  | .fadd => (if fmt = 1 then .badd else .fadd, .update false)
  | .max => (if fmt = 0 then .fmax else .max, .update true)
  | op => (op, .update true)

/-- The index that element i of an indexed form reads from b's element (R250). -/
def readIndex (ag : Agent) (w : Waiter) (i : Nat) (b : ShapeRec) (p : Vector Nat 4) (l : List (Spot × List Piece)) : Act Nat :=
  (l.filter (·.1.code == 1)).foldlM (fun _ x => do
    withInfo (mxInfo i 0 1) (do
      x.2.forM (stashFill ag w)
      x.2.forM (touchData ag)
      performMeeting ag.onElems x.2)
    return elemOf b p (← spotBytes ag i x)) 0

/-- Perform element i of an indexed form: checks 5 to 7 of the addresses known at once, the index read and its range,
the table's address, check 9, then the access. -/
def doIndexed (ag : Agent) (w : Waiter) (op : VecOp) (recs : List (Nat × ShapeRec)) (bAddr : Word) (i : Nat) :
    Act Unit := do
  let e := vecSpace op recs
  let p := pointOf e i
  let a := recOr recs 0
  let b := recOr recs 1
  let d := recOr recs 4
  let table := if op.tableDest then d else a
  let first := if op.tableDest then [spotOf 0 a p false false, spotOf 1 b p false false]
    else [spotOf 1 b p false false, spotOf 4 d p true false]
  let l ← checkSpots ag.onElems w i first
  let index ← readIndex ag w i b p l
  let k := sgn (fmtBits b.fmt) index
  let inRange := decide (0 ≤ k ∧ k < table.ext[0])
  if !inRange && !table.pad then trapAct 0x0C bAddr (mxInfo i 0 1)
  let q : Vector Nat 4 := #v[k.toNat, 0, 0, 0]
  let spot : Spot :=
    match op with
    | .amo f => { spotOf 4 d q true false with need := needRW, cls := (amoOf f d.fmt).2, outside := false }
    | .scat => spotOf 4 d q true false
    | _ => spotOf 0 a q false false
  let t ← checkSpots ag.onElems w i (if inRange then [spot] else [])
  let all := if op.tableDest then l ++ t else t ++ l
  detSpots ag i all
  readySpots ag w i all
  let vals ← (all.filter (fun x => !x.1.need.w)).mapM (fun x => do
    return (x.1.code, elemOf x.1.r x.1.p (← spotBytes ag i x)))
  let v := (vals.find? (·.1 == 0)).map (·.2)
  match op with
  | .amo f =>
    t.forM (fun x => do
      withInfo (mxInfo i 0 4) (checkBad false x.2)
      x.2.forM (fun y => do
        let (_, s) := rmwAt ag.phys ag.part ag.det ag.self y.cacheable .dev (amoOf f d.fmt).1 (fmtBits d.fmt / 8)
          (BitVec.ofNat 64 (v.getD 0)) y.place (← get)
        set s))
  | .scat => t.forM (fun x => writeSpot ag i x (v.getD 0))
  | _ => (l.filter (·.1.code == 4)).forM (fun x => writeSpot ag i x (v.getD (padBits a)))

/-! ### The walk (R235, R236) -/

/-- The vector instruction that a context stands at: one that it has not gone past (R237). -/
def standingVx (s : State) (phys ctx : Nat) : Option VxOp := (vxOf s phys ctx).filter (fun q => !q.passed)

/-- The indices of the elements of the group an instruction stands at. -/
def groupRange (q : VxOp) (n : Nat) : List Nat :=
  (List.range 64).filterMap (fun j => if q.vrec.group * 64 + j < n then some (q.vrec.group * 64 + j) else none)

/-- Whether an element waits for a page whose reply has not come. -/
def stillWaits (q : VxOp) (i : Nat) : Bool :=
  match q.waits.find? (·.1 == i) with
  | some (_, page) => q.pages.any (fun r => r.1 == page && r.2.isNone)
  | none => false

/-- An element has been performed or read. -/
def elemDone (i : Nat) (vals : List (Nat × Nat)) (q : VxOp) : VxOp :=
  { q with
    got := q.got ++ vals
    waits := q.waits.filter (·.1 != i)
    vrec := { q.vrec with done := q.vrec.done ||| (1#64 <<< (i % 64)), pend := q.vrec.pend &&& ~~~(1#64 <<< (i % 64)) } }

/-- An element waits for the page asked for last. -/
def elemWaits (i : Nat) (q : VxOp) : VxOp :=
  { q with
    waits := q.waits.filter (·.1 != i) ++ (q.pages.getLast?.map (fun r => (i, r.1))).toList
    vrec := { q.vrec with pend := q.vrec.pend ||| (1#64 <<< (i % 64)) } }

/-- The index of an element of a form whose table is the destination, where its index can be read now. -/
def tableIndex (ag : Agent) (q : VxOp) (op : VecOp) (i : Nat) : Act (Option Int) := do
  let s ← get
  let b := recOr q.recs 1
  let read : Act Nat := do
    let l ← checkSpots ag.onElems (.vec ag.phys ag.ctx) i [spotOf 1 b (pointOf (vecSpace op q.recs) i) false false]
    l.foldlM (fun _ x => do return elemOf b (pointOf (vecSpace op q.recs) i) (← spotBytes ag i x)) 0
  let r ← attempt read
  set s
  match r with
  | .ok v => return some (sgn (fmtBits b.fmt) v)
  | .error _ => return none

/-- What the elements that are pending hold up of the elements behind them, where equal indices are performed in ascending
order (R251): those of an index, or, where an index is not known yet, all. -/
structure Blocked where
  all : Bool
  keys : List Int

/-- An element is pending: those behind it with its index must wait. -/
def blockBehind (ag : Agent) (q : VxOp) (op : VecOp) (i : Nat) (b : Blocked) : Act Blocked := do
  if !op.tableDest then return b
  match ← tableIndex ag q op i with
  | some k => return { b with keys := k :: b.keys }
  | none => return { b with all := true }

/-- Whether an element must wait for one before it. -/
def isBlocked (ag : Agent) (q : VxOp) (op : VecOp) (i : Nat) (b : Blocked) : Act Bool := do
  if b.all then return true
  if b.keys.isEmpty then return false
  match ← tableIndex ag q op i with
  | some k => return b.keys.contains k
  | none => return false

/-- The elements of the group, in ascending index: one that has its turn is worked on; one that misses a page is pending; a
failing one traps once no lower element is pending. `left` is how many the engine performs before others go on (R235). -/
def walkElems (ag : Agent) (op : VecOp) (work : VxOp → Nat → Act (List (Nat × Nat))) : List Nat → Option Nat → Blocked → Act Unit
  | [], _, _ => pure ()
  | i :: rest, left, b => do
    match vxOf (← get) ag.phys ag.ctx with
    | none => pure ()
    | some q =>
      if q.vrec.done.getLsbD (i % 64) then walkElems ag op work rest left b
      else if stillWaits q i then walkElems ag op work rest left (← blockBehind ag q op i b)
      else if ← isBlocked ag q op i b then walkElems ag op work rest left b
      else if left = some 0 then stallAct
      else
        match ← attempt (work q i) with
        | .ok vals =>
          modify (onVx ag.phys ag.ctx (elemDone i vals))
          walkElems ag op work rest (left.map (· - 1)) b
        | .error (.stall true) =>
          modify (onVx ag.phys ag.ctx (elemWaits i))
          walkElems ag op work rest left (← blockBehind ag q op i b)
        | .error (.trap c v x) =>
          let q := (vxOf (← get) ag.phys ag.ctx).getD q
          if (q.vrec.pend &&& ((1#64 <<< (i % 64)) - 1)) ≠ 0 then stallAct true
          trapAct c v x
        | .error e => throw e

/-- Every element of the group has had its turn: the group waits while one is pending. -/
def walkAll (ag : Agent) (op : VecOp) (work : VxOp → Nat → Act (List (Nat × Nat))) (range : List Nat) : Act Unit := do
  let pace := (coreAt (← get) ag.phys).pace
  walkElems ag op work range (if op.indexed && pace != 0 then some pace else none) ⟨false, []⟩
  if (vxOf (← get) ag.phys ag.ctx).any (fun q => q.vrec.pend != 0) then stallAct true

/-- Perform or read the elements of a group. -/
def walkGroup (ag : Agent) (form : VecForm) (range : List Nat) : Act Unit :=
  walkAll ag form.op (fun q i => do
    let w := Waiter.vec ag.phys ag.ctx
    if form.op.indexed then
      doIndexed ag w form.op q.recs q.vrec.vb i
      return []
    else readVecElem ag w form.op q i) range

/-- Check the elements of a group, each once. -/
def checkGroup (ag : Agent) (form : VecForm) (range : List Nat) : Act Unit :=
  walkAll ag form.op (fun q i => do
    let _ ← placeElem ag (.vec ag.phys ag.ctx) form.op q i
    return []) range

/-- The scale exponents of the blocks that the group's elements belong to (R248), each found once: a block longer than
the group is read to its end. -/
def quantExps (ag : Agent) (mode : Nat) (range : List Nat) : Act Unit :=
  range.forM (fun i => do
    match vxOf (← get) ag.phys ag.ctx with
    | none => pure ()
    | some q =>
      let a := recOr q.recs 0
      let d := recOr q.recs 4
      let n := if mode = 1 then 32 else d.ext[0]
      let base := i / n * n
      if (gotOf q.got base expCode).isNone then
        let vals ← (List.range n).mapM (fun k => do
          let j := base + k
          match sourcePoint d.ext a (pointOf d.ext j), gotOf q.got j 0 with
          | none, _ => return padVal a
          | some p, some v => return sourceVal a p[0] v
          | some p, none =>
            return readElem a.fmt (← withInfo (mxInfo j 0 0) (readElement ag (.vec ag.phys ag.ctx) a p)))
        modify (onVx ag.phys ag.ctx (fun q => { q with got := q.got ++ [(gotKey base expCode, blockExp d.fmt vals)] })))

/-- The write of an operand among the accesses of walk element j, as element i of what it belongs to, with its bits. -/
def destSpot (ag : Agent) (form : VecForm) (q : VxOp) (code i j v : Nat) : Act (List (Nat × (Spot × List Piece) × Nat)) := do
  let l ← placeElem ag (.vec ag.phys ag.ctx) form.op q j
  return ((l.find? (fun x => x.1.code == code && x.1.need.w)).map (fun x => (i, x, v))).toList

/-- Write the elements of a form that is not indexed: every access is ready before the first write. -/
def writeElems (ag : Agent) (l : List (Nat × (Spot × List Piece) × Nat)) : Act Unit := do
  l.forM (fun x => readySpots ag (.vec ag.phys ag.ctx) x.1 [x.2.1])
  l.forM (fun x => writeSpot ag x.1 x.2.1 x.2.2)

/-- The elements that a group writes: vacc.live begins anew with the row that the group cuts, if it goes on from a resume state,
since a row never mixes two K-steps (R148; log entry 90). -/
def writeRange (form : VecForm) (q : VxOp) (range : List Nat) : List Nat :=
  match form.op, range.head? with
  | .acc _ true, some i =>
    let e := (recOr q.recs 4).ext[0]
    if q.vrec.group = q.first && 0 < q.first then (List.range (i % e)).map (fun k => i / e * e + k) ++ range else range
  | _, _ => range

/-- An instruction that finds scales: its blocks are known before its last group is passed. -/
def findsScales (form : VecForm) (q : VxOp) : Bool := form.op == .quant && vecMode q.fmt fmtBs != 0

/-- The end of a group: its results are written, its flags kept, and the instruction stands at the next one. The scales of the blocks
that end in the group are written behind all its elements (log entry 102). -/
def finishGroup (ag : Agent) (form : VecForm) (range : List Nat) : Act Unit := do
  let s ← get
  match vxOf s ag.phys ag.ctx with
  | none => pure ()
  | some q0 =>
    let mode := vecMode q0.fmt fmtBs
    if findsScales form q0 then quantExps ag mode range
    let q := (vxOf (← get) ag.phys ag.ctx).getD q0
    let next := fun (fl : FlagSet) (q : VxOp) =>
      { q with
        flags := q.flags ||| fl, pages := [], waits := []
        got := q.got.filter (fun g => form.op.atEnd || g.1 % 8 == expCode || (match form.op with | .acc _ _ => true | _ => false))
        placed := if form.op.atEnd then q.placed else []
        vrec := { q.vrec with group := q.vrec.group + 1, done := 0, pend := 0 } }
    if form.op.indexed || form.op.atEnd then modify (onVx ag.phys ag.ctx (next 0))
    else
      let d := recOr q.recs 4
      let res := (writeRange form q range).map (fun i => (i, vecResult q form q.fmt q.rm q.seed i))
      let elems ← res.mapM (fun r => destSpot ag form q 4 r.1 r.1 r.2.1)
      let n := if mode = 1 then 32 else d.ext[0]
      let ends := if findsScales form q then range.filter (fun i => lastOfBlock mode d.ext[0] (pointOf d.ext i)) else []
      let scales ← ends.mapM (fun i => destSpot ag form q 3 i i (scaleBits mode ((gotOf q.got (i / n * n) expCode).getD 127)))
      writeElems ag (elems ++ scales).flatten
      modify (onVx ag.phys ag.ctx (next (res.foldl (fun f r => f ||| r.2.2) 0)))

/-- The walk element that stands for element i of a reduction's destination: the last of its line (R249). -/
def lastRead (op : VecOp) (q : VxOp) (i : Nat) : Nat :=
  let e := (recOr q.recs 0).ext
  let p := pointOf (recOr q.recs 4).ext i
  match op with
  | .sum dim => indexOf e (p.set dim (e.get dim - 1))
  | .maxr dim => indexOf e (p.set dim (e.get dim - 1))
  | _ => i

/-- The writes of a reduction once every group has passed its checks (R241). -/
def finishReduction (ag : Agent) (form : VecForm) : Act Unit := do
  match vxOf (← get) ag.phys ag.ctx with
  | none => pure ()
  | some q =>
    let res := (List.range (countOf (recOr q.recs 4).ext)).map (fun i => (i, reduceResult q form.op q.rm q.seed i))
    let dests ← res.mapM (fun r => destSpot ag form q 4 r.1 (lastRead form.op q r.1) r.2.1)
    writeElems ag dests.flatten
    modify (onVx ag.phys ag.ctx (fun q => { q with flags := res.foldl (fun f r => f ||| r.2.2) q.flags }))

/-- An instruction stands at its last group. -/
def lastGroup (form : VecForm) (q : VxOp) : Bool := countOf (vecSpace form.op q.recs) ≤ (q.vrec.group + 1) * 64

/-- One group of the instruction that a context stands at: true once the last one has passed the checks of R234, or, for an
indexed form, whose checks are those of its accesses, is performed (R237). -/
def vecGroup (ag : Agent) (form : VecForm) : Act Bool := do
  match vxOf (← get) ag.phys ag.ctx with
  | none => return true
  | some q =>
    let range := groupRange q (countOf (vecSpace form.op q.recs))
    if lastGroup form q && findsScales form q then
      walkGroup ag form range
      quantExps ag (vecMode q.fmt fmtBs) range
      return true
    else if lastGroup form q && !form.op.indexed then
      checkGroup ag form range
      return true
    else
      walkGroup ag form range
      if lastGroup form q then return true
      finishGroup ag form range
      return false

/-- The last group of an instruction that its context has gone past: read and written. -/
def vecFinish (ag : Agent) (form : VecForm) : Act Unit := do
  match vxOf (← get) ag.phys ag.ctx with
  | none => pure ()
  | some q =>
    let range := groupRange q (countOf (vecSpace form.op q.recs))
    walkGroup ag form range
    if form.op.atEnd then finishReduction ag form
    finishGroup ag form range

/-! ### Acceptance and issue -/

/-- The accumulator words and step counts that vacc and vacc.live copy, one by one (R255). -/
def accWords (c : Core) (x : Fin 4) (d : ShapeRec) : List (Nat × Nat) :=
  (List.range (countOf d.ext)).map (fun i =>
    let p := pointOf d.ext i
    let r : Fin 32 := Fin.ofNat 32 p[1]
    (gotKey i 0, if h : p[0] < 16 then ((c.acc[x])[r])[p[0]].toNat else ((c.steps[x])[r]).toNat))

/-- The resume state that a vector instruction continues from (R237): same PC, word and register values. -/
def resumes (r : VRec) (pc : Word) (word : W32) (va vb vd : Word) : Bool :=
  r.pc == pc && r.word == word && r.va == va && r.vb == vb && r.vd == vd

/-- The word of an instruction. -/
def wordOf (i : Instr) : W32 := BitVec.ofNat 32 ((encode i).map (·.2) |>.getD 0)

/-- The lines from the lowest to the highest byte of a record (R238). -/
def recSpan (r : ShapeRec) (base : Word) : Nat × Nat :=
  let reach := fun (k : Fin 4) => ((r.ext.get k : Int) - 1) * r.stride.get k
  let up := ((List.finRange 4).map (fun k => max 0 (reach k))).sum
  let down := ((List.finRange 4).map (fun k => min 0 (reach k))).sum
  let row := (r.ext[0] * fmtBits r.fmt + 7) / 8
  (((base.toNat : Int) + down).toNat / 64, ((base.toNat : Int) + up + row - 1).toNat / 64)

/-- The byte envelopes of the records of an instruction (R238); a ring record's lies where its elements lie (R307). -/
def recSpans (ag : Agent) (recs : List (Nat × ShapeRec)) : Act (List (Nat × Nat)) :=
  recs.mapM (fun x => do
    match ← attempt (placeInSpace ag x.2 x.2.base 1) with
    | .ok a => return recSpan x.2 a
    | .error _ => return recSpan x.2 x.2.base)

/-- What a vector instruction reads from registers at its issue: a, b and d, and the scale records of a pending format. -/
structure VecRegs where
  va : Word
  vb : Word
  vd : Word
  ka : Option Word
  kb : Option Word

/-- The register reads of a vector instruction in the order of R234. A form without an a or a b register has the value 0 there, which
R242 does not state (log entry 103). -/
def vecRegs (form : VecForm) : Act VecRegs := do
  let va ← match form.a with | some a => readS a form.w | none => pure 0
  let vb ← match form.b with | some b => readS b form.w | none => pure 0
  let vd ← readS form.d form.w
  let fmt := vecFmt form.op (curCtx (← get))
  let ka ← if vecMode fmt fmtAs = 0 then pure none else do
    let v ← readS ((fmt.map fmtArs).getD 0) form.w
    pure (some v)
  let kb ← if vecMode fmt fmtBs = 0 then pure none else do
    let v ← readS ((fmt.map fmtBrs).getD 0) form.w
    pure (some v)
  return ⟨va, vb, vd, ka, kb⟩

/-- The records of a vector instruction by operand code, in the order of R234. -/
def vecAddrs (form : VecForm) (v : VecRegs) : List (Nat × Word) :=
  (if form.a.isSome then [(0, v.va)] else []) ++ (if form.b.isSome && !form.bs then [(1, v.vb)] else []) ++
    [(4, v.vd)] ++ (v.ka.map (fun v => (2, v))).toList ++ (v.kb.map (fun v => (3, v))).toList

/-- Whether an address lies on a page of the device type, as far as its translation is at hand. -/
def onDevice (ag : Agent) (need : Need) (va : Word) : Act Bool := do
  let s ← get
  let r ← attempt (translate { ag with hw := true } .hw need va)
  set s
  match r with
  | .ok e => return !inWindows va && e.ty == 0
  | .error _ => return false

/-- Elements on a device page trap at acceptance (R368): of an indexed form those whose addresses are known. -/
def refuseDevice (ag : Agent) (op : VecOp) (fmt : Option Word) (recs : List (Nat × ShapeRec)) : Act Unit := do
  let e := vecSpace op recs
  let spots := fun (p : Vector Nat 4) =>
    if op.tableDest then [spotOf 0 (recOr recs 0) p false false, spotOf 1 (recOr recs 1) p false false]
    else if op.indexed then [spotOf 1 (recOr recs 1) p false false, spotOf 4 (recOr recs 4) p true false]
    else vecSpots op fmt recs p
  let _ ← (List.range (countOf e)).foldlM (fun seen i =>
    (spots (pointOf e i)).foldlM (fun (seen : List Nat) sp => do
      let page := sp.addr.toNat / 4096
      if seen.contains page || sp.r.space ≠ 0 then return seen
      if ← onDevice ag sp.need sp.addr then trapAct 0x09 sp.addr (mxInfo i 0 sp.code)
      return page :: seen) seen) []

/-- The engine begins an instruction (R237): the first phase of R234, the place at which it goes on from a resume state. -/
def vecBegin (i : Instr) (form : VecForm) (v : VecRegs) : Act Unit := do
  let s ← get
  let ag := curAgent s
  let x := curCtx s
  let fmt := vecFmt form.op x
  match form.op with
  | .acc k false => if accBusy s ag.phys k then stallAct
  | _ => pure ()
  let recs ← vecAccept ag (.ctx ag.phys ag.ctx) form.op fmt (vecAddrs form v)
  refuseDevice ag form.op fmt recs
  let span ← recSpans ag recs
  let fresh : VRec := ⟨x.pc, wordOf i, ag.ctx, 0, 0, 0, v.vd, v.va, v.vb, []⟩
  let start := match x.vres with
    | some r => if resumes r x.pc (wordOf i) v.va v.vb v.vd then { fresh with group := r.group, done := r.done } else fresh
    | none => fresh
  let got := match form.op with | .acc k _ => accWords s.core k (recOr recs 4) | _ => []
  modify (fun s =>
    let s := onCur (fun x => { x with vres := none, await := .nothing }) s
    { s with core := { s.core with
        vxq := s.core.vxq ++ [⟨i, start, fmt, vecRm form.op x, s.core.seed, ag.priv, start.group, span, false, 0, recs, got, [], [], []⟩] } })

/-- A context's vector instruction waits in the command queue (R283). -/
def enterVec (ctx : Nat) (s : State) : State :=
  if s.core.vcq.contains ctx then s else { s with core := { s.core with vcq := s.core.vcq ++ [ctx] } }

/-- A context's vector instruction leaves the command queue. -/
def leaveVec (ctx : Nat) (s : State) : State := { s with core := { s.core with vcq := s.core.vcq.filter (· != ctx) } }

/-- The engine can take a context's instruction: it performs none, and none waits before it (R238, R284). -/
def vecFree (s : State) (ctx : Nat) : Bool := s.core.vxq.isEmpty && s.core.vcq.head?.all (· == ctx)

/-- An instruction that goes to the vector engine: its place among the two of the command queue, and its beginning once the engine
takes it (R283, R284). -/
def queueVec (begin' : Act Unit) : Act Unit := do
  let s ← get
  let ctx := curIdx s
  if 2 ≤ s.core.vcq.length && !s.core.vcq.contains ctx then stallAct
  if !vecFree s ctx then
    modify (enterVec ctx)
    stallAct
  match ← attempt begin' with
  | .ok _ => modify (leaveVec ctx)
  | .error (.stall p) =>
    modify (enterVec ctx)
    throw (.stall p)
  | .error e =>
    modify (leaveVec ctx)
    throw e

/-- Issue a vector instruction: its register reads, then its place and its beginning. -/
def vecTake (i : Instr) (form : VecForm) : Act Unit := do
  let v ← vecRegs form
  queueVec (vecBegin i form v)

/-- The resume state that a trap of a second phase leaves (R237, R241). What PEND holds of a form whose reads are discarded is the
model's choice: the mask that stands (log entry 101). -/
def vecResume (op : VecOp) (r : VRec) : VRec :=
  if op.atEnd then { r with group := 0, done := 0, pend := 0 }
  else if op.indexed then r
  else { r with done := 0 }

/-- The context's instruction leaves the engine. -/
def vecDrop (ctx : Nat) (s : State) : State :=
  { s with core := { s.core with vxq := s.core.vxq.filter (·.vrec.ctx != ctx) } }

/-- The context goes past an instruction whose checks are over: an indexed form is complete, of the others the engine still
performs the last group (R237). -/
def vecPass (ag : Agent) (form : VecForm) (s : State) : State :=
  if form.op.indexed then
    let fl := ((vxOf s ag.phys ag.ctx).map VxOp.flags).getD 0
    vecDrop ag.ctx (onCur (fun x => { x with fflags := x.fflags ||| fl.zeroExtend 64 }) s)
  else onVx ag.phys ag.ctx (fun q =>
    { q with passed := true, vrec := { q.vrec with done := if findsScales form q then q.vrec.done else 0, pend := 0 } }) s

/-- A vector instruction in the context that issues: accepted once, then a group at a time; at a trap the flags of the groups
performed are merged (R237, R239). -/
def vecBody (i : Instr) (form : VecForm) : Act Unit := do
  let ag := curAgent (← get)
  if (standingVx (← get) ag.phys ag.ctx).isNone then vecTake i form
  match ← attempt (vecGroup ag form) with
  | .ok done =>
    if !done then stallAct
    modify (vecPass ag form)
  | .error (.trap c v x) =>
    match vxOf (← get) ag.phys ag.ctx with
    | none => trapAct c v x
    | some q =>
      mergeFlags q.flags
      modify (fun s => onCur (fun y => { y with vres := some (vecResume form.op q.vrec) }) (vecDrop ag.ctx s))
      trapAct c v x
  | .error e => throw e

/-- A vector instruction (R229 to R255). -/
def vecInstr (i : Instr) (helper : Bool) (s : State) : Host.Outcome State Fault Refusal :=
  match vecForm i with
  | some form => runSeq { len := 4, helper := helper, pfx := if form.op.takesPfx then 2 else 0 } (vecBody i form) s
  | none => .next s

/-- An instruction leaves the engine of a core: its flags reach FFLAGS of its context (R108, R239). -/
def vecRetire (core : Nat) (q : VxOp) (s : State) : State :=
  let fl := ((vxOf s core q.vrec.ctx).map VxOp.flags).getD 0
  onCore core (fun c => { c with vxq := c.vxq.filter (·.vrec.ctx != q.vrec.ctx) })
    (onCtx core q.vrec.ctx (fun x => if x.live then { x with fflags := x.fflags ||| fl.zeroExtend 64 } else x) s)

/-- VECTOR_ELEMENT_GROUP (R235, R236): the engine of a core goes on with its instruction. A trap is taken by the context that
stands there, which looks again; an error found after the context has gone on abandons the instruction and waits for its next
boundary (R240). -/
def execVectorElementGroup (core : Nat) (s : State) : Host.Outcome State Fault Refusal :=
  match (coreAt s core).vxq with
  | [] => .next s
  | q :: _ =>
    match vecForm q.instr with
    | none => .next s
    | some form =>
      let ag := { agentAt s core q.vrec.ctx with priv := q.priv }
      if q.passed then
        match vecFinish ag form s with
        | .ok _ t => .next (vecRetire core q t)
        | .error (.trap c v x) t => .next (deferTrap core q.vrec.ctx ⟨c, v, x⟩ (vecRetire core q t))
        | .error _ t => .next t
      else
        match vecGroup ag form s with
        | .ok _ t => .next t
        | .error (.stall _) t => .next t
        | .error _ _ => .next (onCtx core q.vrec.ctx (fun x => { x with stalled := false }) s)

/-- vadd (R243). -/
def execVadd (d a b : Reg) (bs w : Bool) (s : State) : Host.Outcome State Fault Refusal :=
  vecInstr (.vadd d a b bs w) true s

/-- vsub (R243). -/
def execVsub (d a b : Reg) (bs w : Bool) (s : State) : Host.Outcome State Fault Refusal :=
  vecInstr (.vsub d a b bs w) true s

/-- vmul (R243). -/
def execVmul (d a b : Reg) (bs w : Bool) (s : State) : Host.Outcome State Fault Refusal :=
  vecInstr (.vmul d a b bs w) true s

/-- vdiv (R243). -/
def execVdiv (d a b : Reg) (bs w : Bool) (s : State) : Host.Outcome State Fault Refusal :=
  vecInstr (.vdiv d a b bs w) true s

/-- vfma (R243). -/
def execVfma (d a b : Reg) (bs w : Bool) (s : State) : Host.Outcome State Fault Refusal :=
  vecInstr (.vfma d a b bs w) true s

/-- vmin (R243). -/
def execVmin (d a b : Reg) (bs w : Bool) (s : State) : Host.Outcome State Fault Refusal :=
  vecInstr (.vmin d a b bs w) true s

/-- vmax (R243). -/
def execVmax (d a b : Reg) (bs w : Bool) (s : State) : Host.Outcome State Fault Refusal :=
  vecInstr (.vmax d a b bs w) true s

/-- vabs (R243). -/
def execVabs (d a : Reg) (w : Bool) (s : State) : Host.Outcome State Fault Refusal :=
  vecInstr (.vabs d a w) true s

/-- vneg (R243). -/
def execVneg (d a : Reg) (w : Bool) (s : State) : Host.Outcome State Fault Refusal :=
  vecInstr (.vneg d a w) true s

/-- vrcp (R244). -/
def execVrcp (d a : Reg) (w : Bool) (s : State) : Host.Outcome State Fault Refusal :=
  vecInstr (.vrcp d a w) true s

/-- vrsq (R244). -/
def execVrsq (d a : Reg) (w : Bool) (s : State) : Host.Outcome State Fault Refusal :=
  vecInstr (.vrsq d a w) true s

/-- vexp2 (R244). -/
def execVexp2 (d a : Reg) (w : Bool) (s : State) : Host.Outcome State Fault Refusal :=
  vecInstr (.vexp2 d a w) true s

/-- vlog2 (R244). -/
def execVlog2 (d a : Reg) (w : Bool) (s : State) : Host.Outcome State Fault Refusal :=
  vecInstr (.vlog2 d a w) true s

/-- vsel (R243). -/
def execVsel (d a b : Reg) (bs w : Bool) (s : State) : Host.Outcome State Fault Refusal :=
  vecInstr (.vsel d a b bs w) true s

/-- vcmp.eq (R245). -/
def execVcmpEq (d a b : Reg) (bs w : Bool) (s : State) : Host.Outcome State Fault Refusal :=
  vecInstr (.vcmpEq d a b bs w) true s

/-- vcmp.ne (R245). -/
def execVcmpNe (d a b : Reg) (bs w : Bool) (s : State) : Host.Outcome State Fault Refusal :=
  vecInstr (.vcmpNe d a b bs w) true s

/-- vcmp.lt (R245). -/
def execVcmpLt (d a b : Reg) (bs w : Bool) (s : State) : Host.Outcome State Fault Refusal :=
  vecInstr (.vcmpLt d a b bs w) true s

/-- vcmp.le (R245). -/
def execVcmpLe (d a b : Reg) (bs w : Bool) (s : State) : Host.Outcome State Fault Refusal :=
  vecInstr (.vcmpLe d a b bs w) true s

/-- vand (R246). -/
def execVand (d a b : Reg) (bs w : Bool) (s : State) : Host.Outcome State Fault Refusal :=
  vecInstr (.vand d a b bs w) true s

/-- vor (R246). -/
def execVor (d a b : Reg) (bs w : Bool) (s : State) : Host.Outcome State Fault Refusal :=
  vecInstr (.vor d a b bs w) true s

/-- vxor (R246). -/
def execVxor (d a b : Reg) (bs w : Bool) (s : State) : Host.Outcome State Fault Refusal :=
  vecInstr (.vxor d a b bs w) true s

/-- vshl (R246). -/
def execVshl (d a b : Reg) (bs w : Bool) (s : State) : Host.Outcome State Fault Refusal :=
  vecInstr (.vshl d a b bs w) true s

/-- vshr (R246). -/
def execVshr (d a b : Reg) (bs w : Bool) (s : State) : Host.Outcome State Fault Refusal :=
  vecInstr (.vshr d a b bs w) true s

/-- vpopc (R246). -/
def execVpopc (d a : Reg) (w : Bool) (s : State) : Host.Outcome State Fault Refusal :=
  vecInstr (.vpopc d a w) true s

/-- vcvt (R247). -/
def execVcvt (d a : Reg) (w : Bool) (s : State) : Host.Outcome State Fault Refusal :=
  vecInstr (.vcvt d a w) true s

/-- vquant (R248). -/
def execVquant (d a : Reg) (w : Bool) (s : State) : Host.Outcome State Fault Refusal :=
  vecInstr (.vquant d a w) true s

/-- vsum (R249). -/
def execVsum (d a : Reg) (dim : Fin 4) (w : Bool) (s : State) : Host.Outcome State Fault Refusal :=
  vecInstr (.vsum d a dim w) true s

/-- vmaxr (R249). -/
def execVmaxr (d a : Reg) (dim : Fin 4) (w : Bool) (s : State) : Host.Outcome State Fault Refusal :=
  vecInstr (.vmaxr d a dim w) true s

/-- vscan (R249). -/
def execVscan (d a : Reg) (dim : Fin 4) (w : Bool) (s : State) : Host.Outcome State Fault Refusal :=
  vecInstr (.vscan d a dim w) true s

/-- vgath (R250). -/
def execVgath (d a b : Reg) (w : Bool) (s : State) : Host.Outcome State Fault Refusal :=
  vecInstr (.vgath d a b w) true s

/-- vscat (R251). -/
def execVscat (d a b : Reg) (w : Bool) (s : State) : Host.Outcome State Fault Refusal :=
  vecInstr (.vscat d a b w) true s

/-- vamo.or (R251). -/
def execVamoOr (d a b : Reg) (w : Bool) (s : State) : Host.Outcome State Fault Refusal :=
  vecInstr (.vamoOr d a b w) true s

/-- vamo.and (R251). -/
def execVamoAnd (d a b : Reg) (w : Bool) (s : State) : Host.Outcome State Fault Refusal :=
  vecInstr (.vamoAnd d a b w) true s

/-- vamo.add (R251). -/
def execVamoAdd (d a b : Reg) (w : Bool) (s : State) : Host.Outcome State Fault Refusal :=
  vecInstr (.vamoAdd d a b w) true s

/-- vamo.fadd (R251). -/
def execVamoFadd (d a b : Reg) (w : Bool) (s : State) : Host.Outcome State Fault Refusal :=
  vecInstr (.vamoFadd d a b w) true s

/-- vamo.max (R251). -/
def execVamoMax (d a b : Reg) (w : Bool) (s : State) : Host.Outcome State Fault Refusal :=
  vecInstr (.vamoMax d a b w) true s

/-- vhash (R253). -/
def execVhash (d a : Reg) (w : Bool) (s : State) : Host.Outcome State Fault Refusal :=
  vecInstr (.vhash d a w) true s

/-- vacc (R255). -/
def execVacc (d : Reg) (x : Fin 4) (w : Bool) (s : State) : Host.Outcome State Fault Refusal :=
  vecInstr (.vacc d x w) false s

/-- vfill (R254). -/
def execVfill (d b : Reg) (w : Bool) (s : State) : Host.Outcome State Fault Refusal :=
  vecInstr (.vfill d b w) true s

/-- viota (R254). -/
def execViota (d b : Reg) (w : Bool) (s : State) : Host.Outcome State Fault Refusal :=
  vecInstr (.viota d b w) true s

/-- vacc.live (R255). -/
def execVaccLive (d : Reg) (x : Fin 4) (w : Bool) (s : State) : Host.Outcome State Fault Refusal :=
  vecInstr (.vaccLive d x w) false s

end Sys2Proof.Machine
end

