-- ==== Sys2Proof/Machine/Context.lean ====
section
/-!
DEFINITION. The save area (R166) with the records of the engines (R150, R242, R300), what a cwait, bar, tyield or forced
yield writes there, and the resumption that reads it (R149, R167, R216, R241, R300).
-/

namespace Sys2Proof.Machine

/-! ### Machine errors that wait, and producers (R67, R89) -/

/-- An instruction that ends or saves its context first takes a machine error that waits on one of its registers (R67). -/
def takeErrors : Act Unit := do
  match (curCtx (← get)).prods.find? (·.failed) with
  | some p => failedAct p.reg p
  | none => pure ()

/-- It also waits until no local producer of the context is outstanding (R89). -/
def settleRegs : Act Unit := do
  takeErrors
  let x := curCtx (← get)
  if !x.prods.isEmpty || !x.locks.isEmpty then stallAct

/-- Every copy channel of a core is idle, parked or faulted, no command waits for its engine, every completion-helper start has
been made and every completion helper has ended (R300). -/
def chansQuiet (c : Core) : Bool :=
  c.copyq.isEmpty && c.chans.all (fun k => k.state != .running && k.hwait.isNone) &&
    c.helpers.all (fun h => !(h.live && (match h.origin with | .completion _ => true | _ => false)))

/-- Every access that the contexts of a core have issued is performed. -/
def coreDone (s : State) (c : Core) : Bool :=
  c.pend.isEmpty && !(List.finRange 4).any (fun (d : Fin 4) => (s.dies.get d).proxies.any (·.phys == c.phys))

/-- A helper of a core is live. -/
def helpersLive (c : Core) : Bool := c.helpers.any (·.live)

/-- The waits of cwait, bar and tyield, then no helper may be live (R166). -/
def contWaits : Act Unit := do
  settleRegs
  let s ← get
  let c := s.core
  if !enginesDone s c.phys (curIdx s) || !chansQuiet c then stallAct (helpersLive c)
  if !coreDone s c then stallAct
  if hstat c ≠ 0 then trapAct 0x01 0

/-- The waits of tend (R300, R327): also until no helper is live. -/
def endWaits : Act Unit := do
  takeErrors
  let s ← get
  let c := s.core
  if !enginesDone s c.phys (curIdx s) || !chansQuiet c || helpersLive c then stallAct (helpersLive c)
  if !coreDone s c then stallAct

/-! ### The bytes of the save area (R166) -/

/-- Zero bytes up to a length. -/
def padTo (n : Nat) (b : List Byte) : List Byte := b ++ List.replicate (n - b.length) 0

/-- The header (R166). -/
def headerBytes (c : Core) (kind : Nat) (pc : Word) : List Byte :=
  let x := c.ctl
  padTo 256 (dwBytes (BitVec.ofNat 64 kind) ++ dwBytes pc ++ dwBytes x.status ++ dwBytes x.fmt ++ dwBytes x.fflags ++
    dwBytes c.seed ++ dwBytes c.bwphase ++ dwBytes (x.pres.zeroExtend 64) ++ dwBytes (hstat c) ++ dwBytes c.tvec)

/-- The registers of the control context, s0 as zero (R166). -/
def regBytes (n : Nat) (x : Ctx) : List Byte :=
  (List.finRange 32).flatMap (fun (i : Fin 32) => if i.val < n then dwBytes (if i = 0 then 0 else x.regs[i]) else [])

/-- A helper's block; zero for one that is not live (R166). -/
def helperBytes (x : Ctx) : List Byte :=
  if x.live then
    padTo 256 (regBytes 16 x ++ dwBytes x.pc ++ dwBytes x.status ++ dwBytes x.fmt ++ dwBytes x.fflags ++
      dwBytes (BitVec.ofNat 64 (x.pres.toNat % 2 ^ 16)))
  else List.replicate 256 0

/-- A matrix record (R150): a drain stands at its first row not released (R149). -/
def mxBytesOf (q : MxOp) : List Byte :=
  let drain := q.kind == .drain
  let next := if drain then q.released else q.next
  let flags := q.acc.val + q.kind.code * 2 ^ 8 + q.emu.toNat * 2 ^ 11 + q.usesFmt.toNat * 2 ^ 12 + 2 ^ 15
  leBytes 8 flags ++ leBytes 4 next ++ leBytes 4 (if drain then q.released else 0) ++ dwBytes q.pfmt ++ dwBytes q.aAddr ++
    dwBytes q.bAddr ++ dwBytes q.asAddr ++ dwBytes q.bsAddr ++ dwBytes q.hpc

/-- The unfinished instructions that are saved: a gang that has not started is not among them (R149), nor an mld or mrel that waits in
the command queue, since the tile is released (R126, R284). -/
def savedMx (c : Core) : List MxOp := c.mxq.filter (fun q => !(q.kind == .gang && q.held) && !q.isTile)

/-- The four matrix records of a core, in issue order (R150). -/
def mxArea (c : Core) : List Byte := padTo 256 ((savedMx c).flatMap mxBytesOf)

/-- The vector record (R242). -/
def vecBytes (r : Option VRec) : List Byte :=
  match r with
  | none => List.replicate 64 0
  | some r =>
    dwBytes r.pc ++ leBytes 4 r.word.toNat ++ leBytes 4 (r.ctx + 2 ^ 31) ++ leBytes 4 r.group ++ leBytes 4 0 ++
      dwBytes r.done ++ dwBytes r.pend ++ dwBytes r.vd ++ dwBytes r.va ++ dwBytes r.vb

/-- A copy channel's record (R300). -/
def chanBytes (k : Chan) : List Byte :=
  let (hpc, hdatum, hrec) := k.hwait.getD (0, 0, 0)
  let pair := k.job.filter (fun j => j.rcd.isNone)
  dwBytes k.rcd ++ leBytes 8 k.wp ++ leBytes 8 (((k.job.map CopyJob.done).getD 0) * 2 ^ 16 + chanField k) ++
    dwBytes ((pair.map CopyJob.dstAddr).getD 0) ++ dwBytes ((pair.map CopyJob.srcAddr).getD 0) ++ dwBytes hrec ++ dwBytes hpc ++
    dwBytes hdatum

/-- The step counts of the accumulators (R166). -/
def stepBytes (c : Core) : List Byte :=
  (List.finRange 4).flatMap (fun a => (List.finRange 32).flatMap (fun r => leBytes 4 ((c.steps[a])[r]).toNat))

/-- An accumulator, row by row (R166). -/
def accBytes (c : Core) (a : Fin 4) : List Byte :=
  (List.finRange 32).flatMap (fun r => (List.finRange 16).flatMap (fun k => leBytes 4 (((c.acc[a])[r])[k]).toNat))

/-- The position of the vector engine that a forced yield saves (R241): of the instruction a context still stands at, else
a resume state that a trap left, of the lowest context that holds one. -/
def vecPosition (c : Core) : Option VRec :=
  match c.vxq with
  | q :: _ =>
    match vecForm q.instr with
    | some form => some (vecResume form.op q.vrec)
    | none => some { q.vrec with counts := q.got }
  | [] => (List.range 11).findSome? (fun i => (ctxOf c i).vres)

/-! ### Saving -/

/-- The pages of the save area are readable and writable, and its banks are active (R166): every wait of a save comes
here, before its first write. -/
def probeArea (phys : Nat) : Act Unit := do
  let s ← get
  let ag := saveAgent s phys 0
  (pageParts (coreAt s phys).saveptr 0x4000 6).forM (fun x => saveAccess (do
    let ps ← openAccess ag (.ctx phys 0) .other needRW true x.1 x.2
    performMeeting ag ps))

/-- An instruction that saves its context probes the area; once this has begun no forced yield is taken before it (R166). -/
def probeSave (phys : Nat) : Act Unit := do
  let mark := fun (b : Bool) => onCtx phys 0 (fun x => { x with saving := b })
  match ← attempt (probeArea phys) with
  | .ok _ => modify (mark false)
  | .error (.stall p) =>
    modify (mark true)
    throw (.stall p)
  | .error e => throw e

/-- Write part of the save area. -/
def areaWrite (phys off : Nat) (b : List Byte) : Act Unit := do
  saveWrite phys 0 ((coreAt (← get) phys).saveptr + BitVec.ofNat 64 off) b

/-- Write the save area of a core (R166): all of it for a forced yield, else header, registers, step counts,
accumulators. -/
def saveContext (phys kind : Nat) (pc : Word) : Act Unit := do
  let c := coreAt (← get) phys
  areaWrite phys 0 (headerBytes c kind pc)
  areaWrite phys 0x100 (regBytes 32 c.ctl)
  if kind = 4 then
    (List.finRange 10).forM (fun (h : Fin 10) => areaWrite phys (0x200 + 256 * h.val) (helperBytes (c.helpers.get h)))
    areaWrite phys 0x1180 (mxArea c)
    areaWrite phys 0x1280 (vecBytes (vecPosition c))
    (List.finRange 4).forM (fun ch => areaWrite phys (0x12C0 + 64 * ch.val) (chanBytes c.chans[ch]))
    areaWrite phys 0x13C0 (List.replicate 64 0)
    areaWrite phys 0x1600 (List.replicate 2560 0)
  areaWrite phys 0x1400 (stepBytes c)
  (List.finRange 4).forM (fun a => areaWrite phys (0x2000 + 2048 * a.val) (accBytes c a))

/-- The release of the held words waits until the lines that it reaches at their homes, theirs and those that it writes back, are neither
owned (R263) nor held by the host (R442). -/
def awaitHeld (phys : Nat) : Act Unit := do
  let s ← get
  let held := heldSet s phys
  awaitLines phys (held.filterMap (fun h => match h.place with | .mem pa => some (pa / 64) | _ => none))
  if !held.isEmpty then awaitLines phys (releaseLinesOf s (clusterOf phys) (corePart (coreAt s phys)))

/-- The exception registers of a context. -/
def exceptionRegs (x : Ctx) : Word × Word × Word × Word := (x.cause, x.epc, x.eval, x.einfo)

/-- What a record keeps of a core for its resumption, beside the save area (R36, R167, R170). -/
def keptOf (c : Core) : Kept where
  causes := (List.range 11).map (fun i => exceptionRegs (ctxOf c i))
  nbstat := c.nbstat
  rms := (savedMx c).map MxOp.rm
  jobs := c.chans.toList.map (fun k => k.job.isSome)
  counts := ((vecPosition c).map VRec.counts).getD []

/-- The entry that continues or resumes the task on a core (R318, R390): KIND 1 and ENTRY the resume PC for a
continuation; its save area is the one that was written. -/
def nextEntry (c : Core) (r : Running) (start : StartKind) (pc : Word) : ReadyEntry :=
  let base := c.saveptr - BitVec.ofNat 64 (0x4000 * r.rank)
  let rcd := { r.rcd with save := base }
  ⟨if start = .continuation then { rcd with kind := 1, entry := pc } else rcd, r.addr, start, r.part, r.launch, r.det,
    some c.phys, r.gid, r.rank, r.peer, if start = .resumed then r.held else [],
    if start = .resumed then some (keptOf c) else none, 0, 0, c.task, r.event⟩

/-- The member leaves the running ones of its group for a continuation or resumed record (R33). -/
def leaveRunning (r : Running) (s : State) : State :=
  onGroup r.part r.gid (fun g => { g with running := g.running.filter (· != r.rank), conts := g.conts + 1 }) s

/-- The core of a task that waits or yields is free (R167, R189, R332). -/
def freeCore (phys part : Nat) (s : State) : State :=
  reachBarrier phys part (onCore phys (fun c => { vacate (dropStanding c) with
    chans := c.chans.map (fun k => { k with state := .idle, cause := 0, wp := 0, job := none, rcd := 0, hwait := none, await := .nothing }) })
    (dropTile phys (forgetAnswers phys s)))

/-! ### The forced yield (R36, R167) -/

/-- A context runs runtime code or was started by hardware: it goes on while a yield waits (R167, step 2). -/
def runsInYield (x : Ctx) : Bool := x.live && (privOf x.status != 0 || x.origin != .software)

/-- A context that still has a machine error or another trap to take (R67), or a value on its way (R89). -/
def unsettled (x : Ctx) : Bool := x.live && (!x.prods.isEmpty || !x.locks.isEmpty || !x.deferred.isEmpty)

/-- A context is in the middle of a trap entry or save (R166), or its instruction has the answer with which it ends: it goes on
while a yield waits. -/
def midway (x : Ctx) : Bool :=
  x.live && (x.entering.isSome || x.saving ||
    (match x.await with
    | .proxyDone _ | .proxyTrap .. | .messageDone _ | .emulationDone | .emulationTrap .. | .gangGo | .gangFail _ => true
    | _ => false))

/-- The instruction of a context is with a control core or the network, which answer first (R149, R209, R304). -/
def outstanding (x : Ctx) : Bool := match x.await with | .emulation | .proxy | .message => true | _ => false

/-- Steps 2 and 3 of R167 are over: no handler and no hardware helper runs, no context is in the middle of anything, producers
have delivered, accesses are performed, no vector instruction that its context has gone past is under way (R241), and no emulated
matrix instruction (R149). -/
def yieldReady (c : Core) : Bool :=
  c.pend.isEmpty && !c.vxq.any (·.passed) && !c.mxq.any (fun q => q.emu && !q.held) &&
    (List.range 11).all (fun i =>
      let x := ctxOf c i
      !runsInYield x && !unsettled x && !midway x && !outstanding x)

/-- A core begins a forced yield (R167, step 1): an open transaction aborts. -/
def beginYield (phys : Nat) (s : State) : State :=
  onCore phys (fun c =>
    if c.run.isNone || c.yield.isSome then c else { abortTxn 8 0 c with yield := some ⟨0, false⟩ }) s

/-- The engines stop for a save (R149, R241, R300): arrivals at the gang that wait and members in the Nesting buffer are taken
back, channels stop at a line boundary, requests for helpers other than of rings go with their engines. -/
def stopEngines (phys : Nat) (s : State) : State :=
  let s := onCluster (clusterOf phys) (leaveNest phys (fun a => !a.answered)) s
  let s := (List.finRange 4).foldl (fun s ch => haltChannel phys ch s) (dropOps phys s)
  onCore phys (fun c =>
    { dropStanding c with
      vcq := [], vxq := [], copyq := []
      hreqs := c.hreqs.filter (fun q => match q.origin with | .arrival _ => true | _ => false)
      helpers := c.helpers.map (fun h => { h with
        live := false, await := .nothing, monitor := none, vres := none, stalled := false, party := false }) }) s

/-- Before a forced yield saves the channels: the cstops that wait for the engine are performed (R284), and DONE of each transfer
record in progress is written, as a cstop does (R298, R300). -/
def settleChannels (phys : Nat) : Act Unit := do
  modify (fun s =>
    let l := (coreAt s phys).copyq.filter CopyCmd.isStop
    takeStops phys (onCore phys (fun c => { c with copyq := l }) s))
  let c := coreAt (← get) phys
  (List.finRange 4).forM (fun ch =>
    match (c.chans.get ch).job.bind (fun j => j.rcd.map (fun r => (r.addr, j.done))) with
    | some (a, done) => putTransfer phys ⟨corePart c, a, 48, BitVec.ofNat 64 done⟩
    | none => pure ())

/-- A yield completes the mwaits at which contexts stand, and they are counted (R221, R387). -/
def countWaits (c : Core) : Core :=
  let n := ((List.range 11).filter (fun i => (ctxOf c i).live && (ctxOf c i).await == .mwait)).length
  { c with retired := c.retired + BitVec.ofNat 64 n, qnt := c.qnt - n }

/-- Where a context stands that is saved: behind an mwait, which counts as completed (R221). -/
def yieldPc (x : Ctx) : Word := if x.await = .mwait then x.pc + 4 else x.pc

/-- Flags of the K-steps and drained rows that matrix instructions have done, and of the groups that a vector instruction has
done, reach their contexts before the save (R108). -/
def settleFlags (phys : Nat) (s : State) : State :=
  let s := (coreAt s phys).mxq.foldl (fun s q =>
    onCtx phys 0 (fun x => { x with fflags := x.fflags ||| q.flags.zeroExtend 64 }) s) s
  (coreAt s phys).vxq.foldl (fun s q =>
    onVx phys q.vrec.ctx (fun q => { q with flags := 0 })
      (onCtx phys q.vrec.ctx (fun x => { x with fflags := x.fflags ||| q.flags.zeroExtend 64 }) s)) s

/-- Steps 3 and 4 of R167 on a core that is ready: held words are released, the area written, the record queued at the
tail of its priority as resumed. -/
def finishYield (phys : Nat) : Act Unit := do
  match (coreAt (← get) phys).run with
  | none => modify (onCore phys (fun c => { c with yield := none }))
  | some r =>
    probeArea phys
    awaitHeld phys
    settleChannels phys
    let c := coreAt (← get) phys
    let e := nextEntry c r .resumed (yieldPc c.ctl)
    modify (settleFlags phys)
    modify (releaseHeld phys)
    modify (fun s => onCore phys (fun c =>
      { countWaits c with helpers := c.helpers.map (fun h => { h with pc := yieldPc h }) }) s)
    saveContext phys 4 (yieldPc c.ctl)
    modify (fun s =>
      let s := freeCore phys r.part (leaveRunning r (stopEngines phys s))
      readyContinuation e s)

/-- A forced yield goes on (R167): it finishes when it can, with every access of the core performed as the release of the held words asks
(R216); a fault in the save area fails the task. -/
def tryYield (phys : Nat) (s : State) : State :=
  let c := coreAt s phys
  if c.yield.isNone || !yieldReady c || !coreDone s c || answersDue s phys || (leavingCore s phys && c.chans.any (fun k => k.state == .running && k.job.isSome)) then s
  else
    match finishYield phys s with
    | .ok _ s => s
    | .error (.fail cause v x) s => failWith phys 0 cause v x s
    | .error _ s => s

/-! ### Resumption -/

/-- A dword of a saved block. -/
def areaRead (phys off n : Nat) : Act (List Byte) := do
  saveRead phys 0 ((coreAt (← get) phys).saveptr + BitVec.ofNat 64 off) n

/-- Stop with the failure of the task. -/
def failAct {α : Type} (cause : BitVec 8) (eval einfo : Word := 0) : Act α := throw (.fail cause eval einfo)

/-- The failure of a task whose resumption meets a trap condition. -/
def orFail {α : Type} (a : Act α) : Act α := do
  match ← attempt a with
  | .ok x => return x
  | .error (.trap c v e) => failAct c v e
  | .error e => throw e

/-- A context with its exception registers. -/
def withCauses (k : Word × Word × Word × Word) (x : Ctx) : Ctx :=
  { x with cause := k.1, epc := k.2.1, eval := k.2.2.1, einfo := k.2.2.2 }

/-- A saved helper, as a context that runs again. -/
def loadHelper (b : List Byte) : Ctx :=
  let x := Ctx.reset true
  { x with
    regs := Vector.ofFn (fun i : Fin 32 => if i.val = 0 then 0 else if i.val < 16 then wordAt b (8 * i.val) else 0)
    pres := BitVec.ofNat 32 (leNat (slice b 160 8) % 2 ^ 16 ||| 0xFFFF0001)
    pc := wordAt b 128, status := wordAt b 136, fmt := wordAt b 144, fflags := wordAt b 152, live := true }

/-- A saved control context (R166). -/
def loadControl (h regs : List Byte) : Ctx :=
  let x := Ctx.reset false
  { x with
    regs := Vector.ofFn (fun i : Fin 32 => if i.val = 0 then 0 else wordAt regs (8 * i.val))
    pres := BitVec.ofNat 32 (leNat (slice h 56 8) % 2 ^ 32) ||| 1
    pc := wordAt h 8, status := wordAt h 16, fmt := wordAt h 24, fflags := wordAt h 32, live := true }

/-- The matrix instruction that a record describes, accepted anew (R149, R150). A record has no field for the rounding mode of an
mdrain, and it keeps the one of its issue, `rm`, where PFMT does not give one (log entry 91). A drain is complete once its last row is
released, whatever RELEASED counts. -/
def loadMx (ag : Agent) (rm : Nat) (b : List Byte) : Act (Option MxOp) := do
  let f := leNat (slice b 0 8)
  let kind := nbits f 10 8
  if nbits f 63 16 ≠ 0 || nbits f 14 13 ≠ 0 || nbits f 7 2 ≠ 0 || 4 < kind then failAct 0x03
  if nbits f 15 15 = 0 then return none
  let x : Fin 4 := Fin.ofNat 4 f
  let pfx := nbits f 12 12 == 1
  let pfmt := wordAt b 16
  let next := leNat (slice b 8 4)
  let w := Waiter.ctx ag.phys 0
  let blank : ShapeRec := parseShape (List.replicate 64 0)
  let base : MxOp := {
    kind := .zero, acc := x, held := false, begun := true, host := none, emu := nbits f 11 11 == 1, usesFmt := pfx, pfmt := pfmt, aAddr := wordAt b 24
    bAddr := wordAt b 32, asAddr := wordAt b 40, bsAddr := wordAt b 48, a := blank, b := blank, asRec := none, bsRec := none
    pages := [], pins := [], rows := 0, next := next, total := 0, released := next, rm := 0, hpc := wordAt b 56
    flags := 0, prio := taskPrio (← get) ag.phys, member := 0 }
  if kind = 4 then return some base
  else if kind = 3 then
    let (d, ok) ← orFail (mxRecord ag w 4 base.aAddr dRules (drainFits pfx pfmt))
    if !ok || !drainFits pfx pfmt d then failAct 0x0C base.aAddr 4
    let r := parseShape d
    orFail (withInfo (mxInfo 0 0 4) (operandWindow ag r))
    let rm := if pfx && fmtRm pfmt != 6 then fmtRm pfmt else rm
    return some { base with kind := .drain, a := r, b := r, rows := r.ext[1], total := r.ext[1], rm := rm }
  else
    let k : MxKind := if kind = 1 then .mma else .solo
    let q ← orFail (readOperands ag w k x pfx pfmt base.aAddr base.bAddr base.asAddr base.bsAddr)
    let q ← orFail (acceptOperands ag w q)
    return some { q with next := next, begun := true }

/-- What a channel's record describes (R300): the channel, the record or pair that it goes on with, the fault of reading it. -/
structure LoadedChan where
  chan : Chan
  job : Option CopyJob
  fault : Option Deferred

/-- The state of a channel that a record describes, and the work it goes on with (R300); `inside` says that it was inside a chain
record, of which it may have written nothing yet. -/
def loadChan (ag : Agent) (ch : Nat) (inside : Bool) (b : List Byte) : Act LoadedChan := do
  let f := leNat (slice b 16 8)
  let state : ChanState := match f % 4 with | 0 => .idle | 1 => .running | 2 => .parked | _ => .faulted
  let hwait := if nbits f 2 2 = 1 then some (wordAt b 48, wordAt b 56, wordAt b 40) else none
  let k : Chan := ⟨state, BitVec.ofNat 8 (nbits f 15 8), leNat (slice b 8 8), none, wordAt b 0, hwait, .nothing⟩
  let done := f / 2 ^ 16
  let w := Waiter.chan ag.phys ch
  if state != .running then return ⟨k, none, none⟩
  let pair := wordAt b 24 != 0 || wordAt b 32 != 0
  if !pair && done = 0 && !inside then return ⟨k, none, none⟩
  let read : Act (Option CopyJob) := do
    fitTransfer (← if pair then do return some (← readPair ag w none (wordAt b 24) (wordAt b 32)) else readTransfer ag w k.rcd)
  let blank : ShapeRec := parseShape (List.replicate 64 0)
  match ← attempt read with
  | .ok (some j) => return ⟨k, some { j with done := done }, none⟩
  | .ok none => return ⟨{ k with state := .parked }, none, none⟩
  | .error (.trap c v e) => return ⟨{ k with job := some ⟨none, 0, 0, blank, blank, done, [], []⟩ }, none, some ⟨c, v, e⟩⟩
  | .error e => throw e

/-- The vector record of the area (R242), with the counts that its task's record keeps. -/
def loadVec (counts : List (Nat × Nat)) (b : List Byte) : Option VRec :=
  let f := leNat (slice b 12 4)
  if nbits f 31 31 = 0 then none
  else some ⟨wordAt b 0, BitVec.ofNat 32 (leNat (slice b 8 4)), f % 16, leNat (slice b 16 4), wordAt b 24, wordAt b 32,
    wordAt b 40, wordAt b 48, wordAt b 56, counts⟩

/-- What a resumption has read. -/
structure Restored where
  kind : Nat
  ctl : Ctx
  header : List Byte
  helpers : Vector Ctx 10
  mx : List MxOp
  vec : Option VRec
  chans : List LoadedChan
  steps : List Byte
  accs : List (List Byte)

/-- The save area of a movable continuation goes through the home (R33, R319): every cluster's copy of its lines is written
back and dropped, so that the core which resumes it, in whatever cluster, reads the registers that were saved. -/
def carryArea (phys : Nat) : Act Unit := do
  if (coreAt (← get) phys).run.any (fun r => r.rcd.movable) then
    let s ← get
    let ag := saveAgent s phys 0
    (pageParts (coreAt s phys).saveptr 0x4000 6).forM (fun x => saveAccess (do
      let ps ← openAccess ag (.ctx phys 0) .other needRW true x.1 x.2
      let lines := ps.filterMap (fun p => p.pa?.map (· / 64))
      let s ← get
      awaitLines phys (lines.filter (fun l => s.clusters.any (fun c => unwritten s c.id l)))
      modify (fun s => ps.foldl (fun s p => match p.pa? with
        | some pa => s.clusters.foldl (fun s c => dropLine c.id (pa / 64) s) s
        | none => s) s)))

/-- Read the save area of a core, with the checks of R166 and R163, and accept anew what its engine records describe. -/
def readArea (phys : Nat) : Act Restored := do
  carryArea phys
  let kept := (coreAt (← get) phys).kept
  let causes := fun (i : Nat) => ((kept.map Kept.causes).getD []).getD i (0, 0, 0, 0)
  let h ← areaRead phys 0 256
  let kind := leNat (slice h 0 8)
  if kind = 0 || 4 < kind then failAct 0x03
  let regs ← areaRead phys 0x100 256
  let ctl := withCauses (causes 0) (loadControl h regs)
  if !statusOk false ctl.status then failAct 0x03
  let steps ← areaRead phys 0x1400 512
  let accs ← (List.range 4).mapM (fun a => areaRead phys (0x2000 + 2048 * a) 2048)
  let none' : Restored := ⟨kind, ctl, h, Vector.replicate 10 { Ctx.reset true with status := 0x40 }, [], none, [], steps, accs⟩
  if kind < 4 then return none'
  else
    let live := leNat (slice h 64 8)
    let hs ← (List.range 10).mapM (fun i => do
      if live / 2 ^ i % 2 = 0 then return { Ctx.reset true with status := 0x40 }
      else
        let b ← areaRead phys (0x200 + 256 * i) 256
        let x := withCauses (causes (i + 1)) (loadHelper b)
        if !statusOk true x.status then failAct 0x03
        return x)
    let helpers := Vector.ofFn (fun i : Fin 10 => hs.getD i (Ctx.reset true))
    let vec := loadVec ((kept.map Kept.counts).getD []) (← areaRead phys 0x1280 64)
    if vec.any (fun r => r.ctx > 10 || (r.ctx ≠ 0 && !(hs.getD (r.ctx - 1) (Ctx.reset true)).live)) then failAct 0x03
    let ag := { saveAgent (← get) phys 0 with det := ctl.status.getLsbD 4 }
    let mb ← areaRead phys 0x1180 256
    let mx ← (List.range 4).mapM (fun u =>
      loadMx ag (((kept.map Kept.rms).getD []).getD u (statusRm ctl.status)) (slice mb (64 * u) 64))
    let cb ← areaRead phys 0x12C0 256
    let chans ← (List.range 4).mapM (fun ch =>
      loadChan ag ch (((kept.map Kept.jobs).getD []).getD ch false) (slice cb (64 * ch) 64))
    return { none' with helpers := helpers, mx := mx.filterMap id, vec := vec, chans := chans }

/-- An accumulator from its bytes. -/
def loadAcc (b : List Byte) : Vector (Vector W32 16) 32 :=
  Vector.ofFn (fun r : Fin 32 => Vector.ofFn (fun k : Fin 16 => BitVec.ofNat 32 (leNat (slice b (64 * r.val + 4 * k.val) 4))))

/-- The step counts from their bytes. -/
def loadSteps (b : List Byte) : Vector (Vector W32 32) 4 :=
  Vector.ofFn (fun a : Fin 4 => Vector.ofFn (fun r : Fin 32 => BitVec.ofNat 32 (leNat (slice b (128 * a.val + 4 * r.val) 4))))

/-- Place a matrix instruction of a resumption: an mma enters the Nesting buffer again (R149), an emulated one goes to the control
core; one with no K-step or row left to do is complete (R150). -/
def resumeMx (phys : Nat) (q : MxOp) : Act Unit := do
  let s ← get
  if q.kind != .zero && decide (q.total ≤ q.next) then pure ()
  else if q.kind == .zero then
    if accBusy s phys q.acc then set (mxPush phys q s) else set (onCore phys (zeroAcc q.acc) s)
  else if q.kind == .drain then set (mxPush phys q s)
  else if q.emu then set (askEmulation ⟨phys, q, true, true⟩ (mxPush phys q s))
  else if q.kind == .mma then
    let p := partAt s (corePart (coreAt s phys))
    let s1 := (p.map (fun p => p.s1root.toNat)).getD 0
    let nhold := (p.map (fun p => p.nhold.toNat)).getD 0
    match placeMember phys (nestKey (corePart (coreAt s phys)) s1 q) q nhold s with
    | (none, s) =>
      set s
      stallAct
    | (some n, s) => set (readyMember phys q.acc (mxPush phys { q with held := true, member := n } s))
  else set (mxOwn phys q s)

/-- Restore what a resumption has read (R167): registers, control registers of the header and those that the record keeps,
helpers, accumulators. -/
def restoreCore (x : Restored) (c : Core) : Core :=
  let ctl := if x.vec.any (·.ctx == 0) then { x.ctl with vres := x.vec } else x.ctl
  let helpers := Vector.ofFn (fun i : Fin 10 =>
    if x.vec.any (fun r => r.ctx == i.val + 1) then { x.helpers[i] with vres := x.vec } else x.helpers[i])
  { c with
    ctl := ctl, helpers := helpers
    seed := wordAt x.header 40, bwphase := wordAt x.header 48, tvec := wordAt x.header 72
    nbstat := (c.kept.map Kept.nbstat).getD 0
    acc := Vector.ofFn (fun a : Fin 4 => loadAcc (x.accs.getD a []))
    steps := loadSteps x.steps, frames := 0, resume := none, kept := none }

/-- A channel goes on as its record describes (R300). -/
def restoreChan (phys : Nat) (ch : Fin 4) (x : LoadedChan) : Act Unit := do
  modify (onChan phys ch (fun _ => x.chan))
  match x.job, x.fault with
  | some j, _ => startJob phys ch j
  | none, some d => modify (faultChannel phys ch d.cause d.eval d.einfo)
  | none, none => pure ()
  match x.chan.hwait with
  | some (pc, s1, s2) =>
    let part := corePart (coreAt (← get) phys)
    modify (askHelper phys ⟨pc, s1, s2, .completion ch, part, 0⟩)
  | none => pure ()

/-- Restore a core and its engines; while an mma finds no place in the Nesting buffer nothing is restored. -/
def restore (phys : Nat) (x : Restored) : Act Unit := do
  let s ← get
  let mx : Act Unit := do
    modify (onCore phys (restoreCore x))
    x.mx.forM (resumeMx phys)
  match ← attempt mx with
  | .ok _ => pure ()
  | .error e =>
    set s
    throw e
  modify (dispatchDue (clusterOf phys))
  (List.finRange 4).forM (fun ch => (x.chans[ch.val]?).forM (restoreChan phys ch))

/-- Go on with the resumption of a core: the held words are acquired again at .dev in their order (R216), then the area is
read and restored. A wait leaves it where it stands; a failure fails the task. -/
def resumeAct (phys : Nat) : Nat → Act Unit
  | 0 => pure ()
  | fuel + 1 => do
    match (coreAt (← get) phys).resume with
    | none => pure ()
    | some (h :: rest) =>
      orFail (acqAct (chanAgent (← get) phys) .dev h.va)
      modify (onCore phys (fun c => { c with resume := some rest }))
      resumeAct phys fuel
    | some [] =>
      let x ← readArea phys
      restore phys x

/-- Go on with a resumption, if one is under way on a core. -/
def tryResume (phys : Nat) (s : State) : State :=
  if (coreAt s phys).resume.isNone then s
  else
    match resumeAct phys 6 s with
    | .ok _ s => s
    | .error (.fail c v x) s => failWith phys 0 c v x s
    | .error _ s => s

/-- Start a continuation or resumed record on a core (R33, R167, R319) with its group's allocation, which lies there; a movable
group of one that resumes on another core has a fresh zeroed one instead. -/
def startResumed (phys lcore : Nat) (e : ReadyEntry) (s : State) : State :=
  match partAt s e.part, groupAt s e.part e.gid with
  | some p, some g =>
    let run : Running := ⟨{ e.rcd with kind := if e.event.isSome then 5 else 0 }, e.addr, e.part, e.launch, e.gid, e.rank, e.peer, e.det, [], e.event, []⟩
    let s := if e.phys != some phys then
        let s := match e.phys with | some q => dropAlloc q e.part e.gid s | none => s
        let s := onCluster g.cluster (fun c => { c with reserves := c.reserves.filter (· != (e.part, e.gid)) }) s
        let s := if e.det then onCluster (clusterOf phys) (fun c => { c with reserves := c.reserves ++ [(e.part, e.gid)] }) s else s
        let s := onGroup e.part e.gid (fun g => { g with base := lcore, cluster := clusterOf phys }) s
        onCore phys (fun c => { c with allocs := c.allocs ++ [⟨e.part, e.gid, e.rank, e.rcd.lsize * 64, [], []⟩] }) s
      else s
    let s := onGroup e.part e.gid (fun g => { g with running := g.running ++ [e.rank], conts := g.conts - 1 }) s
    let s := onCore phys (fun c => { startCore p e run lcore g.size c with resume := some e.held, kept := e.kept }) s
    tryResume phys (sampleAt phys e.part 3 0 (s.time - e.stamp) s)
  | _, _ => popDown e.part e.launch s

end Sys2Proof.Machine
end

