-- ==== Sys2Proof/Machine/Task.lean ====
section
/-!
DEFINITION. Tasks and helpers (R324 to R328), cwait and bar (R394 to R398), and eret (R163).
-/

namespace Sys2Proof.Machine

/-- The frame of a task instruction of the control context (R51). -/
def taskInfo : InstrInfo := { len := 4, helper := false }

/-- The partition of the core in focus. -/
def curPart : Act Partition := do
  let s ← get
  match partAt s (corePart s.core) with
  | some p => return p
  | none => trapAct 0x07 0

/-- The launch of the running task. -/
def runLaunch (s : State) : Nat := (s.core.run.map Running.launch).getD 0

/-- Whether the running task is deterministic. -/
def runDet (s : State) : Bool := (s.core.run.map Running.det).getD false

/-! ### tspawn, tfork, tdec (R324 to R326) -/

/-- Read and check the record of an instruction (R324, orders 2 and 3). -/
def instrRecord (addr : Word) (takes : TaskRec → Bool) : Act TaskRec := do
  let s ← get
  let ag := curAgent s
  let b ← readRecord ag (.ctx ag.phys ag.ctx) addr
  let r := parseTask b
  if !taskOk (← curPart) (taskReservedOk b) r || !takes r then trapAct 0x0C addr 5
  return r

/-- KIND of a record that tspawn and tdec take (R325, R326). -/
def spawnable (r : TaskRec) : Bool := r.kind == 0 || (2 ≤ r.kind && r.kind ≤ 4)

/-- Whether the queue that a task record would enter has room for it (R318). -/
def recordRoom (s : State) (p : Partition) (cl : Nat) (r : TaskRec) : Bool :=
  r.kind != 0 ||
    (match queueCluster p cl r with
    | none => false
    | some q => queueRoom s q p.tag || overflowRoom p)

/-- tspawn after its operand read (R325). -/
def spawnAct (addr : Word) : Act Unit := do
  let r ← instrRecord addr spawnable
  let p ← curPart
  let s ← get
  let ag := curAgent s
  if r.count ≠ 0 then trapAct 0x09 addr 10
  if !(ringOf p).any (fun cl => canHold p cl r.gsize) then trapAct 0x09 addr 11
  if !quantumRules p && !recordRoom s p (clusterOf ag.phys) r then trapAct 0x09 addr 6
  fenceAct ag .dev
  let peer := if r.gsize = 1 then s.core.run.bind Running.peer else none
  let e := freshEntry r addr p.tag (runLaunch s) (runDet s) peer
  if quantumRules p then modify (holdReq ag.phys (.ready e))
  else readyRec (clusterOf ag.phys) ag.phys graphFuel e

/-- tspawn (R325). -/
def execTspawn (a : Reg) (wa : Bool) (s : State) : Host.Outcome State Fault Refusal :=
  runSeq taskInfo (do
    let addr ← readS a wa
    spawnAct addr) s

/-- Push an entry onto a core's deque, or onto the cluster's ready queue when its 64 entries are full (R325). -/
def pushEntry (phys : Nat) (e : ReadyEntry) : Act Unit := do
  let s ← get
  if (coreAt s phys).deque.length < 64 then
    set (popUp e.part e.launch (onCore phys (fun c => { c with deque := c.deque ++ [{ e with stamp := s.time }] }) s))
  else readyRec (clusterOf phys) phys graphFuel e

/-- tfork after its operand read (R325). -/
def forkAct (addr : Word) : Act Unit := do
  let r ← instrRecord addr (fun r => r.kind == 0 && r.gsize == 1)
  let p ← curPart
  let s ← get
  let ag := curAgent s
  if r.count ≠ 0 then trapAct 0x09 addr 10
  if !quantumRules p && 64 ≤ s.core.deque.length && !recordRoom s p (clusterOf ag.phys) r then trapAct 0x09 addr 6
  fenceAct ag .dev
  let e := freshEntry r addr p.tag (runLaunch s) (runDet s) (s.core.run.bind Running.peer)
  if quantumRules p then modify (holdReq ag.phys (.push e)) else pushEntry ag.phys e

/-- tfork (R325). -/
def execTfork (a : Reg) (wa : Bool) (s : State) : Host.Outcome State Fault Refusal :=
  runSeq taskInfo (do
    let addr ← readS a wa
    forkAct addr) s

/-- COUNT of the record at its home (R326). -/
def countAtHome (addr : Word) : Act Int := do
  let ag := curAgent (← get)
  match ← openAccess ag (.ctx ag.phys ag.ctx) .other needRW true addr 64 with
  | [] => return 0
  | p :: _ =>
    awaitHome ag.phys false p.place
    let (b, s) := atHome ag.phys p.place 64 (← get)
    set s
    return (parseTask b).count

/-- The checks of tdec and tjoin (R324, R326): the record, the amount, the count. -/
def decChecks (addr amount : Word) : Act TaskRec := do
  let r ← instrRecord addr spawnable
  if amount.toNat = 0 || 2 ^ 31 ≤ amount.toNat then trapAct 0x09 amount 8
  let c ← countAtHome addr
  if c < amount.toNat then trapAct 0x09 addr 7
  let p ← curPart
  let s ← get
  if c = amount.toNat && !quantumRules p && !recordRoom s p (clusterOf s.core.phys) r then trapAct 0x09 addr 6
  return r

/-- The decrement itself: held to the quantum end where the quantum rules apply, else at once (R326, R332). -/
def decPerform (addr amount : Word) : Act Unit := do
  let p ← curPart
  let s ← get
  let ag := curAgent s
  if quantumRules p then modify (holdReq ag.phys (.tdec (runLaunch s) (runDet s) addr amount.toNat))
  else if !(← decrement ag (.ctx ag.phys ag.ctx) (runLaunch s) (clusterOf ag.phys) (runDet s) none addr amount.toNat) then
    trapAct 0x09 addr 7

/-- tdec (R326). -/
def execTdec (a b : Reg) (wa wb : Bool) (s : State) : Host.Outcome State Fault Refusal :=
  runSeq { len := 4 } (do
    let addr ← readS a wa
    let amount ← readS b wb
    let _ ← decChecks addr amount
    fenceAct (curAgent (← get)) .dev
    decPerform addr amount) s

/-! ### tend, tjoin, tyield (R326, R327) -/

/-- The task on a core ends (R164, R216, R327): its held words are released, its core is free, its member ends, the
launch may complete. -/
def endTask (phys : Nat) (s : State) : State :=
  match (coreAt s phys).run with
  | none => s
  | some r =>
    let s := endEvent phys r (releaseHeld phys s)
    let s := freeCore phys r.part s
    let s := memberEnds r.part r.gid r.rank phys r.det s
    sweepPart r.part (popDown r.part r.launch s)

/-- Everything that an ending task waits for (R216, R327): engines, channels, helpers, its earlier accesses, the homes of
its held words. -/
def endReady : Act Unit := do
  endWaits
  fenceAct (curAgent (← get)) .dev
  awaitHeld (← get).core.phys

/-- tend (R327). -/
def execTend (s : State) : Host.Outcome State Fault Refusal :=
  runJump taskInfo (do
    endReady
    modify (fun s => endTask s.core.phys s)) s

/-- tjoin (R326): tdec by 1, then tend, as one instruction. -/
def execTjoin (a : Reg) (wa : Bool) (s : State) : Host.Outcome State Fault Refusal :=
  runJump taskInfo (do
    let addr ← readS a wa
    let _ ← decChecks addr 1
    endReady
    decPerform addr 1
    modify (fun s => endTask s.core.phys s)) s

/-- The running task of the core in focus. -/
def curRun : Act Running := do
  match (← get).core.run with
  | some r => return r
  | none => throw .done

/-- Leave the core with a continuation or resumed record (R166, R395, R397): held words are released and the context is
saved. -/
def leaveSaved (phys kind : Nat) (pc : Word) : Act Unit := do
  let r ← curRun
  modify (releaseHeld phys)
  saveContext phys kind pc
  modify (fun s => freeCore phys r.part (leaveRunning r s))

/-- What a save waits for, before anything is performed. -/
def saveReady (scope : Scope) : Act Unit := do
  let phys := (← get).core.phys
  probeSave phys
  fenceAct (curAgent (← get)) scope
  awaitHeld phys

/-- Whether a resumed or continuation record finds room in the ready queue of a core's cluster (R318). -/
def contRoom (s : State) (p : Partition) (phys : Nat) : Bool :=
  queueRoom s (clusterOf phys) p.tag || overflowRoom p

/-- tyield (R327). -/
def execTyield (s : State) : Host.Outcome State Fault Refusal :=
  runJump taskInfo (do
    contWaits
    let p ← curPart
    let s ← get
    let phys := s.core.phys
    if !quantumRules p && !contRoom s p phys then trapAct 0x09 0 6
    saveReady .dev
    let r ← curRun
    let pc := (curCtx s).pc + 4
    let e := nextEntry s.core r .resumed pc
    leaveSaved phys 3 pc
    modify (if quantumRules p then holdReq phys (.ready e) else readyContinuation e)) s

/-! ### Helpers (R328) -/

/-- A helper context as it starts (R60, R107): HLP, the control context's RM and DET. -/
def helperCtx (c : Core) (pc s1 s2 : Word) (origin : HelperOrigin) : Ctx :=
  let x := Ctx.reset true
  { x with
    pc := pc &&& ~~~1#64, live := true, origin := origin, age := c.ages
    status := (c.ctl.status &&& 0x1E#64) ||| 0x40
    regs := (x.regs.set 1 s1).set 2 s2 }

/-- Start a helper of a core. -/
def startHelper (h : Fin 10) (pc s1 s2 : Word) (origin : HelperOrigin) (c : Core) : Core :=
  { c with helpers := c.helpers.set h (helperCtx c pc s1 s2 origin), ages := c.ages + 1 }

/-- The register after b. -/
def nextReg (b : Reg) : Reg := Fin.ofNat 32 (b.val + 1)

/-- hstart (R328). -/
def execHstart (h : Fin 10) (a b : Reg) (wa wb : Bool) (s : State) : Host.Outcome State Fault Refusal :=
  runSeq taskInfo (do
    if ((← get).core.helpers.get h).live then trapAct 0x09 (BitVec.ofNat 64 h.val) 9
    let pc ← readS a wa
    let s1 ← readS b wb
    let s2 ← readS (nextReg b) wb
    modify (fun s => { s with core := startHelper h pc s1 s2 .software s.core })) s

/-- The waits of hend (R89, R328). -/
def hendWaits : Act Unit := do
  settleRegs
  let s ← get
  if !enginesDone s s.core.phys (curIdx s) then stallAct

/-- The helper that issues ends (R328); a drain helper releases its row (R147). -/
def endHelper (s : State) : State :=
  let x := curCtx s
  let s := onCur (fun x => { x with live := false, monitor := none, vres := none, await := .nothing }) s
  match x.origin with
  | .drain acc _ => releaseRow s.core.phys acc s
  | _ => s

/-- hend (R328). -/
def execHend (s : State) : Host.Outcome State Fault Refusal :=
  runJump { len := 4, onlyHelper := true } (do
    hendWaits
    modify endHelper) s

/-! ### cwait and bar (R394 to R398) -/

/-- The access of a watched word: orders 4 to 6 of R394. -/
def watchPiece (va : Word) (n : Nat) : Act Piece := do
  if va.toNat % n ≠ 0 then trapAct 0x05 va
  let ag := curAgent (← get)
  match ← openAccess ag (.ctx ag.phys ag.ctx) .other needRW false va n with
  | [] => trapAct 0x07 va
  | p :: _ => return p

/-- The watched word at its watch point (R391). -/
def watchNow (phys : Nat) (p : Piece) (n : Nat) (s : State) : Nat × State :=
  let s := readAt phys (corePart (coreAt s phys)) true p.cacheable p.place s
  (leNat (placeBytes s phys p.cacheable p.place n), s)

/-- Whether a watch finds room in the table of a cluster or in the overflow area (R392). -/
def watchRoom (s : State) (p : Partition) (phys : Nat) : Bool :=
  (clusterAt s (clusterOf phys)).watches.length < 256 || overflowRoom p

/-- Install a watch, with the time at which it came (R390, R392). -/
def installWatch (phys : Nat) (w : Watch) (s : State) : State :=
  let cl := clusterOf phys
  let w := { w with entry := { w.entry with stamp := s.time } }
  if (clusterAt s cl).watches.length < 256 then onCluster cl (fun c => { c with watches := c.watches ++ [w] }) s
  else onPart w.entry.part (fun p => { p with ovfWatches := p.ovfWatches ++ [w] }) s

/-- cwait after its operand reads (R395). -/
def cwaitAct (va cond : Word) : Act Unit := do
  if bitsOf cond 63 33 ≠ 0 then trapAct 0x09 cond 15
  let pl ← watchPiece va 4
  let p ← curPart
  let s ← get
  let phys := s.core.phys
  let kind := if cond.getLsbD 32 then 2 else 1
  let arg : W32 := cond.truncate 32
  let (v, s) := watchNow phys pl 4 s
  set s
  let now := watchHolds kind arg v
  if !(if now then contRoom s p phys else watchRoom s p phys) then trapAct 0x09 va 6
  saveReady .dev
  let r ← curRun
  let pc := (curCtx s).pc + 4
  let e := nextEntry s.core r .continuation pc
  leaveSaved phys 1 pc
  let w : Watch := ⟨kind, arg, pl.place, e⟩
  if r.det then modify (holdReq phys (.watch w))
  else
    let (v, s) := watchNow phys pl 4 (← get)
    set s
    modify (if watchHolds kind arg v then readyContinuation e else installWatch phys w)

/-- cwait (R394, R395). -/
def execCwait (a b : Reg) (wa wb : Bool) (s : State) : Host.Outcome State Fault Refusal :=
  runJump taskInfo (do
    contWaits
    let va ← readS a wa
    let cond ← readS b wb
    cwaitAct va cond) s

/-- REMAINING as it counts: 0 means GSIZE (R396). -/
def barRemaining (v gsize : Nat) : Nat := if v % 2 ^ 32 = 0 then gsize else v % 2 ^ 32

/-- The dword that an arrival leaves (R397). -/
def barNext (v gsize : Nat) : Nat :=
  if barRemaining v gsize = 1 then (v / 2 ^ 32 + 1) % 2 ^ 32 * 2 ^ 32 else v / 2 ^ 32 * 2 ^ 32 + (barRemaining v gsize - 1)

/-- In deterministic mode the first bar of a group fixes its barrier word; any other word, or the word of another group,
is refused (R398). -/
def barWordOk (s : State) (r : Running) (p : Place) : Bool :=
  (groupAt s r.part r.gid).any (fun g => g.bar.isNone || g.bar == some p) &&
    !((partAt s r.part).any (fun q => q.groups.any (fun g => g.gid != r.gid && g.bar == some p)))

/-- The dword of an arrival is written at the watch point; a completed interval readies the arriving continuation after
those that watched, else its watch is installed (R397). -/
def barArrive (phys gsize : Nat) (cacheable : Bool) (w : Watch) (s : State) : State :=
  let part := w.entry.part
  let s := readAt phys part true cacheable w.place s
  let v := leNat (placeBytes s phys cacheable w.place 8)
  let s := storeAt phys part false true cacheable w.place (leBytes 8 (barNext v gsize)) s
  if barRemaining v gsize = 1 then readyContinuation w.entry s else installWatch phys { w with arg := BitVec.ofNat 32 (v / 2 ^ 32) } s

/-- bar after its operand read (R397, R398). -/
def barAct (va : Word) : Act Unit := do
  let pl ← watchPiece va 8
  let p ← curPart
  let s ← get
  let phys := s.core.phys
  let r ← curRun
  let gsize := s.core.gsize.toNat
  if r.det && !barWordOk s r pl.place then trapAct 0x09 va 17
  let (v, s) := watchNow phys pl 8 s
  set s
  if gsize < barRemaining v gsize then trapAct 0x09 va 16
  if !(if barRemaining v gsize = 1 then contRoom s p phys else watchRoom s p phys) then trapAct 0x09 va 6
  awaitHosts [pl]
  saveReady (if r.held.isEmpty then .clus else .dev)
  let pc := (curCtx s).pc + 4
  let e := nextEntry s.core r .continuation pc
  leaveSaved phys 2 pc
  let w : Watch := ⟨3, 0, pl.place, e⟩
  if r.det then
    modify (fun s => holdReq phys (.arrive pl.cacheable w) (onGroup r.part r.gid (fun g => { g with bar := some pl.place }) s))
  else modify (barArrive phys gsize pl.cacheable w)

/-- bar (R397). -/
def execBar (a : Reg) (wa : Bool) (s : State) : Host.Outcome State Fault Refusal :=
  runJump taskInfo (do
    contWaits
    let va ← readS a wa
    barAct va) s

/-! ### eret (R163) -/

/-- eret with DISP 1 in the control context: tend, with every stall; BUSY is cleared as the end completes. -/
def eretEnd (i : Nat) (b : List Byte) : Act Unit := do
  if i = 0 then
    endReady
    clearBusy i b
    modify (fun s => endTask s.core.phys s)
  else
    hendWaits
    clearBusy i b
    modify endHelper

/-- eret (R163). -/
def eretBody : Act Unit := do
  let s ← get
  let i := curIdx s
  if !(← frameBusy i) then trapAct 0x01 0
  let b ← saveRead s.core.phys i (frameAddr s.core i) 128
  match leNat (slice b 48 4) with
  | 0 =>
    if !statusOk (isHelper s) (wordAt b 0) then throw (.fail 0x03 0 0)
    if producersOf (← get) [1, 2, 3, 4] then stallAct
    clearBusy i b
    modify (onCur (resumeFrom b))
  | 1 => eretEnd i b
  | 2 =>
    clearBusy i b
    throw (.fail ((wordAt b 16).truncate 8) 0 0)
  | _ => throw (.fail 0x02 0 0)

/-- eret (R163). -/
def execEret (s : State) : Host.Outcome State Fault Refusal := runJump { len := 4, priv := 1 } eretBody s

end Sys2Proof.Machine
end

