-- ==== Sys2Proof/Machine/Message.lean ====
section
/-!
DEFINITION. Messages and reduction trees (R302 to R311): rings, mtake, msend, the placement of a message and its answer,
nred, the rounds of a tree and its failure.
-/

namespace Sys2Proof.Machine

/-! ### Rings (R302, R305) -/

/-- HEAD of a ring's control block. -/
def ringHead (m : Memory) (cb : Nat) : Nat := lsDword m (cb + 32) % 2 ^ 32

/-- TAIL of a ring's control block. -/
def ringTail (m : Memory) (cb : Nat) : Nat := lsDword m (cb + 40) % 2 ^ 32

/-- The bytes of a ring's data area; SIZELOG was from 10 to 16 when the ring was opened. -/
def ringSize (m : Memory) (cb : Nat) : Nat := 2 ^ (lsDword m (cb + 8) % 256)

/-- The offset of a ring's data area in the allocation. -/
def ringBase (m : Memory) (cb : Nat) : Nat := lsDword m cb % 2 ^ 48

/-- A body length rounded up to a multiple of 8. -/
def paddedLen (n : Nat) : Nat := (n + 7) / 8 * 8

/-- The ring offsets behind one skip header, if one stands there, and behind the message after it; none if the bytes left
do not hold them (R303). -/
def passMessage (m : Memory) (cb head left : Nat) : Option (Nat × Nat) :=
  let hdr := fun (h : Nat) => lsDword m (ringBase m cb + h % ringSize m cb)
  let skip := if hdr head / 2 ^ 48 % 2 = 1 then 8 + hdr head % 2 ^ 16 else 0
  let size := skip + 8 + paddedLen (hdr ((head + skip) % 2 ^ 32) % 2 ^ 16)
  if left < skip + 8 || left < size then none else some ((head + size) % 2 ^ 32, left - size)

/-- HEAD after n messages; none if fewer lie between HEAD and TAIL (R303). -/
def passMessages (m : Memory) (cb : Nat) : Nat → Nat → Nat → Option Nat
  | 0, head, _ => some head
  | n + 1, head, left =>
    match passMessage m cb head left with
    | none => none
    | some (head, left) => passMessages m cb n head left

/-- The bytes between HEAD and TAIL. -/
def ringUsed (m : Memory) (cb : Nat) : Nat := (ringTail m cb + 2 ^ 32 - ringHead m cb) % 2 ^ 32

/-- Hardware writes bytes at the banks of a ring's allocation (R174, R302). -/
def ringWrite (phys : Nat) (r : Ring) (off : Nat) (b : List Byte) (s : State) : State :=
  storeSpan phys r.part false false (.ls phys r.part r.gid off) b 8 s

/-- The bytes of the allocation that a ring lies in. -/
def ringMem (c : Core) (r : Ring) : Memory := ((allocOf c r.part r.gid).map Alloc.mem).getD []

/-! ### mtake (R303) -/

/-- A ring that the executing task's group opened. -/
def ownRing (s : State) (i : Fin 4) : Option Ring :=
  (s.core.rings.get i).filter (fun r => s.core.run.any (fun x => x.part == r.part && x.gid == r.gid))

/-- Whether a control block may open a ring (R303): aligned, in the allocation, its data area in the allocation, aligned to
its size, apart from the block. R303 states no fault for the reserved bits of R302, and they are ignored (log entry 93). -/
def ringBlockOk (a : Alloc) (va : Word) : Bool :=
  let cb := va.toNat % 2 ^ 48
  let base := BitVec.ofNat 64 (lsDword a.mem cb)
  let log := lsDword a.mem (cb + 8) % 256
  let off := ringBase a.mem cb
  spaceHolds 1 va && cb % 64 == 0 && cb + 64 ≤ a.size && spaceHolds 1 base && 10 ≤ log && log ≤ 16 && off % 2 ^ log == 0 &&
    off + 2 ^ log ≤ a.size && (off + 2 ^ log ≤ cb || cb + 64 ≤ off)

/-- Move HEAD of an open ring past n messages; nothing if they are not there. -/
def consume (phys : Nat) (i : Fin 4) (n : Nat) (s : State) : State :=
  match (coreAt s phys).rings.get i with
  | none => s
  | some r =>
    let m := ringMem (coreAt s phys) r
    match passMessages m r.cb n (ringHead m r.cb) (ringUsed m r.cb) with
    | none => s
    | some h => ringWrite phys r (r.cb + 32) (leBytes 4 h) s

/-- Messages of a ring that held consumes will take (R308). -/
def heldConsumes (c : Core) (part : Nat) (i : Fin 4) : Nat :=
  ((c.held.filter (·.1 == part)).map (fun q => match q.2 with | .mtake j n => if j = i then n else 0 | _ => 0)).sum

/-- mtake, operation 0. -/
def consumeAct (i : Fin 4) (n : Word) : Act Unit := do
  let s ← get
  match ownRing s i with
  | none => trapAct 0x09 0 2
  | some r =>
    if n = 0 ∨ 2 ^ 16 < n.toNat then trapAct 0x0B n
    let m := ringMem s.core r
    match passMessages m r.cb (n.toNat + heldConsumes s.core r.part i) (ringHead m r.cb) (ringUsed m r.cb) with
    | none => trapAct 0x0B n
    | some _ => pure ()
    if (partAt s r.part).any quantumRules then set (holdReq s.core.phys (.mtake i n.toNat) s)
    else set (consume s.core.phys i n.toNat s)

/-- mtake, operation 1. -/
def openAct (i : Fin 4) (va : Word) : Act Unit := do
  let ag := curAgent (← get)
  performOwn ag
  let s ← get
  match s.core.run.bind (fun r => allocOf s.core r.part r.gid) with
  | none => trapAct 0x0B va
  | some a =>
    if !ringBlockOk a va then trapAct 0x0B va
    if (s.core.rings.get i).isSome then trapAct 0x09 0 1
    let r : Ring := ⟨va.toNat % 2 ^ 48, a.part, a.gid, []⟩
    set ([32, 40, 48].foldl (fun s o => ringWrite s.core.phys r (r.cb + o) (leBytes 4 0) s) s)
    modify (fun s => { s with core := { s.core with rings := s.core.rings.set i (some r) } })

/-- mtake after its operand reads (R303). -/
def mtakeAct (sel v : Word) : Act Unit := do
  if bitsOf sel 63 4 ≠ 0 || bitsOf sel 3 2 = 3 then trapAct 0x09 sel 3
  let i : Fin 4 := Fin.ofNat 4 (bitsOf sel 1 0)
  match bitsOf sel 3 2 with
  | 0 => consumeAct i v
  | 1 => openAct i v
  | _ =>
    let s ← get
    match ownRing s i with
    | none => trapAct 0x09 0 2
    | some _ => set { s with core := { s.core with
        rings := s.core.rings.set i none
        hreqs := s.core.hreqs.filter (fun q => q.origin != HelperOrigin.arrival i) } }

/-- mtake (R303). -/
def execMtake (a b : Reg) (wa wb : Bool) (s : State) : Host.Outcome State Fault Refusal :=
  runSeq { len := 4 } (do
    let sel ← readS a wa
    let v ← readS b wb
    mtakeAct sel v) s

/-! ### msend (R304, R308) -/

/-- Fields of an msend selector that are in range (R304). -/
def msendSelOk (sel : Word) : Bool :=
  bitsOf sel 15 3 == 0 && bitsOf sel 63 41 == 0 && 1 ≤ bitsOf sel 40 32 && bitsOf sel 40 32 ≤ 248

/-- A message sets out with the next number of its flow (R445). -/
def sendMsg (m : Msg) (s : State) : State :=
  flowSent m.part m.phys m.target { s with msgs := s.msgs ++ [{ m with seq := flowNext s m.part m.phys m.target }] }

/-- Send the message: read the body, wait for the order of R71, then the message is on its way and the context stands
until the answer; where the quantum rules apply it is held and the quantum ends (R308). -/
def msendStart (sel body : Word) : Act Unit := do
  let p ← curPart
  let ag := curAgent (← get)
  if !msendSelOk sel || p.ranks.length ≤ bitsOf sel 31 16 then trapAct 0x09 sel 3
  match physOf p (bitsOf sel 31 16) with
  | none => stallAct
  | some phys =>
    let b ← readMem ag (.ctx ag.phys ag.ctx) .load body (bitsOf sel 40 32)
    fenceAct ag (scopeOf ag.phys phys)
    let s ← get
    let m : Msg := ⟨0, ag.part, s.core.lcore.toNat, bitsOf sel 31 16, bitsOf sel 1 0, sel.getLsbD 2, b, ag.phys, ag.ctx, none⟩
    let s := onCur (fun x => { x with await := .message }) s
    set (if quantumRules p then onCore ag.phys (fun c => { c with atBarrier := true }) (holdReq ag.phys (.msg m) s)
      else sendMsg m s)
    stallAct

/-- The answer to a message that its destination refuses because the ring belongs to another partition (R436). -/
def msgRefused : Nat := 3

/-- msend (R304). A message refused by R436 traps; that EVAL, there "the address", is s[a] is the model's choice (log entry 108). -/
def msendBody (d a b : Reg) (wa wb : Bool) : Act Unit := do
  match (curCtx (← get)).await with
  | .message => stallAct
  | .messageDone st =>
    if st = msgRefused then trapAct 0x09 (← readS a wa) 20
    writeS d (BitVec.ofNat 64 st)
  | _ =>
    let sel ← readS a wa
    let body ← readS b wb
    destReady d
    msendStart sel body

/-- msend (R304). -/
def execMsend (d a b : Reg) (wa wb : Bool) (s : State) : Host.Outcome State Fault Refusal :=
  runSeq { len := 4, dests := [d] } (msendBody d a b wa wb) s

/-! ### Placement (R305, R306) -/

/-- Where a message of S bytes goes in a ring: the bytes a skip header covers, or none if there is no room (R305). -/
def placeIn (size head tail n : Nat) : Option Nat :=
  let free := size - (tail + 2 ^ 32 - head) % 2 ^ 32
  let rest := size - tail % size
  if n ≤ rest then (if n ≤ free then some 0 else none)
  else if rest + n ≤ free then some rest
  else none

/-- The header of a message (R302). -/
def messageHeader (m : Msg) (seq : Nat) : Nat :=
  m.body.length + m.src * 2 ^ 16 + seq % 2 ^ 16 * 2 ^ 32 + m.hreq.toNat * 2 ^ 49

/-- The number of messages a sender has had placed in a ring since it was opened. -/
def seqOf (r : Ring) (src : Nat) : Nat := ((r.seqs.find? (·.1 == src)).map (·.2)).getD 0

/-- Write a skip header, the body, the header, then TAIL (R305), and ask for the arrival helper (R306). -/
def writeMessage (phys : Nat) (i : Fin 4) (r : Ring) (m : Msg) (skip : Nat) (s : State) : State :=
  let a := ringMem (coreAt s phys) r
  let tail := ringTail a r.cb
  let size := ringSize a r.cb
  let at0 := ringBase a r.cb
  let here := at0 + (tail + skip) % size
  let s := if skip = 0 then s
    else ringWrite phys r (at0 + tail % size) (leBytes 8 (2 ^ 48 + (skip - 8))) s
  let s := ringWrite phys r (here + 8) m.body s
  let s := ringWrite phys r here (leBytes 8 (messageHeader m (seqOf r m.src))) s
  let s := ringWrite phys r (r.cb + 40) (leBytes 4 ((tail + skip + 8 + paddedLen m.body.length) % 2 ^ 32)) s
  let hen := lsDword a (r.cb + 8) / 256 % 2 == 1
  onCore phys (fun c =>
    { c with
      rings := c.rings.set i (some { r with seqs := (m.src, seqOf r m.src + 1) :: r.seqs.filter (·.1 != m.src) })
      hreqs :=
        if m.hreq && hen then
          c.hreqs ++ [⟨BitVec.ofNat 64 (lsDword a (r.cb + 16)) &&& ~~~1#64, 0xFFFE000000000000 + BitVec.ofNat 64 here,
            BitVec.ofNat 64 (lsDword a (r.cb + 24)), .arrival i, r.part, r.gid⟩]
        else c.hreqs }) s

/-- Place or refuse a message at its target: the answer of R304 and the state. A ring of another partition does not take it, which is
recorded (R436). -/
def placeMessage (phys : Nat) (m : Msg) (s : State) : Nat × State :=
  let i : Fin 4 := Fin.ofNat 4 m.ring
  match (coreAt s phys).rings.get i with
  | none => (2, s)
  | some r =>
    if r.part ≠ m.part then (msgRefused, record (dieOf phys) 0x00A m.part phys (BitVec.ofNat 64 m.target) (BitVec.ofNat 64 m.ring) s)
    else
      let a := ringMem (coreAt s phys) r
      match placeIn (ringSize a r.cb) (ringHead a r.cb) (ringTail a r.cb) (8 + paddedLen m.body.length) with
      | some skip =>
        let s := writeMessage phys i r m skip s
        (0, sampleAt phys m.part 6 m.ring (ringUsed (ringMem (coreAt s phys) r) r.cb) s)
      | none => (1, ringWrite phys r (r.cb + 48) (leBytes 4 ((lsDword a (r.cb + 48) + 1) % 2 ^ 32)) s)

/-- Whether a message may be placed now: its target is there, and no earlier packet of its flow is on its way (R306, R445). -/
def messageDue (s : State) (m : Msg) : Option Nat :=
  if m.answer.isSome || !flowTurn s m.part m.phys m.target m.seq then none
  else (partAt s m.part).bind (fun p => (p.ranks[m.target]?).bind (fun r => if r.valid && !r.transit then some r.phys else none))

/-- The target places or refuses message n (R305); where the quantum rules apply, at a quantum end (R308). -/
def execMessagePlacement (n : Nat) (s : State) : Host.Outcome State Fault Refusal :=
  .next (match s.msgs[n]? with
    | none => s
    | some m =>
      match (if (partAt s m.part).any quantumRules then none else messageDue s m) with
      | none => s
      | some phys =>
        let (st, s) := placeMessage phys m s
        { s with msgs := s.msgs.set n { m with answer := some st } })

/-- The answer of a message reaches the context that waits for it (R304). -/
def answerSender (phys ctx st : Nat) (s : State) : State :=
  onCtx phys ctx (fun x => if x.await = .message then { x with await := .messageDone st, stalled := false } else x) s

/-- The answer to an msend arrives (R304). -/
def execMsendAnswer (core ctx : Nat) (s : State) : Host.Outcome State Fault Refusal :=
  .next (match takeFirst (fun m => m.phys == core && m.ctx == ctx && m.answer.isSome) s.msgs with
    | none => s
    | some (m, rest) => answerSender core ctx (m.answer.getD 0) { s with msgs := rest })

/-! ### nred (R309) -/

/-- A tree of a partition. -/
def treeAt (p : Partition) (t : Nat) : Option Tree := findBy Tree.idx t p.trees

/-- Change a tree of a partition. -/
def onTree (part t : Nat) (f : Tree → Tree) (s : State) : State :=
  onPart part (fun p => { p with trees := modifyWhere (·.idx == t) f p.trees }) s

/-- VALID of a tree. -/
def Tree.valid (t : Tree) : Bool := t.t0.getLsbD 0

/-- FAIL of a tree. -/
def Tree.fail (t : Tree) : Nat := bitsOf t.t0 15 8

/-- The rules of the record of a contribution (R309). -/
def nredRecordOk (b : List Byte) : Bool :=
  let r := parseShape b
  let n := countOf r.ext * fmtBits r.fmt / 8
  shapeAddrOk r && r.rank == 1 && r.space < 2 && [0, 1, 5].contains r.fmt && 4 ≤ n && n ≤ 8192 && n % 4 == 0

/-- The pieces of a contribution's vector, readable and writable. -/
def vectorPieces (ag : Agent) (r : ShapeRec) : Act (List Piece) := do
  let n := countOf r.ext * fmtBits r.fmt / 8
  if r.space = 1 ∧ !spaceHolds 1 r.base then trapAct 0x0B r.base
  (pageParts r.base n 4).foldlM (fun l x => do
    return l ++ (← openAccess ag (.ctx ag.phys ag.ctx) .load needRW true x.1 x.2)) []

/-- The translations that gave the places of pieces, a page's once (R370). -/
def pieceEntries (ag : Agent) (ps : List Piece) : Act (List TlbEntry) :=
  ps.foldlM (fun l p => do
    match p.place with
    | .ls .. => return l
    | .mem _ =>
      if l.any (·.vpage == p.va.toNat / 4096) then return l
      else return l ++ [← translate ag (.ctx ag.phys ag.ctx) needRW p.va]) []

/-- The elements of a vector's bytes. -/
def vectorElems (fmt : Nat) (b : List Byte) : List W32 :=
  let k := fmtBits fmt / 8
  (List.range (b.length / k)).map (fun i => BitVec.ofNat 32 (leNat (slice b (k * i) k)))

/-- How many rounds a leaf has begun on a tree. -/
def roundOf (t : Tree) (lcore : Nat) : Nat := ((t.rounds.find? (·.1 == lcore)).map (·.2)).getD 0

/-- Contribute a vector to the next round of a core on a tree; where the quantum rules apply its completion is a request
of the core (R309, R332). -/
def contribute (phys : Nat) (p : Partition) (t : Tree) (c : Contribution) (s : State) : State :=
  let s := onTree p.tag t.idx (fun t =>
    { t with rounds := (c.lcore, c.round + 1) :: t.rounds.filter (·.1 != c.lcore) }) s
  let s := onPart p.tag (fun p => { p with contribs := p.contribs ++ [c] }) s
  if quantumRules p then holdReq phys (.nred t.idx) s else s

/-- nred after its operand reads (R309, R311). -/
def nredAct (sel addr : Word) : Act Word := do
  let p ← curPart
  let s ← get
  let ag := curAgent s
  let lcore := s.core.lcore.toNat
  match treeAt p (bitsOf sel 2 0) with
  | none => trapAct 0x09 sel
  | some t =>
    if 2 < bitsOf sel 5 3 || !t.valid || !t.leaves.contains lcore then trapAct 0x09 sel
    if t.fail ≠ 0 then trapAct (BitVec.ofNat 8 t.fail) (BitVec.ofNat 64 t.idx)
    if addr = 0 then return 2
    if addr.toNat % 64 ≠ 0 then trapAct 0x0C 0
    let (b, ok) ← fetchRecord ag (.ctx ag.phys ag.ctx) 0 addr nredRecordOk
    if !ok then trapAct 0x0C 0
    let r := parseShape b
    let ps ← vectorPieces ag r
    if p.contribs.any (fun c => c.tree == t.idx && c.lcore == lcore) then
      if detMode s then
        modify (fun s => if quantumRules p then onCore ag.phys (fun c => { c with atBarrier := true }) s else s)
        stallAct true
      return 1
    performMeeting ag ps
    modify (reachPieces ag ps)
    checkBad false ps
    let es ← pieceEntries ag ps
    let s ← get
    let bytes := ps.flatMap (fun q => placeBytes s ag.phys q.cacheable q.place q.len)
    set (contribute ag.phys p t ⟨t.idx, lcore, roundOf t lcore, bitsOf sel 5 3, r.fmt, vectorElems r.fmt bytes,
      ps.map (fun q => (q.place, q.cacheable, q.len)), es, sel &&& ~~~0x3F#64, runLaunch s, runDet s⟩ s)
    return 0

/-- nred (R309). -/
def execNred (d a b : Reg) (wa wb : Bool) (s : State) : Host.Outcome State Fault Refusal :=
  runSeq { len := 4, dests := [d] } (do
    let sel ← readS a wa
    let addr ← readS b wb
    destReady d
    let v ← nredAct sel addr
    modify (setReg d v)) s

/-! ### Rounds (R310) and failure (R311) -/

/-- x op y on one element of a vector (R310). -/
def treeElem (op fmt : Nat) (x y : W32) : W32 :=
  let f := if fmt = 1 then bf16 else fp32
  match op with
  | 0 => if fmt = 5 then x + y else BitVec.ofNat 32 (f.deliver rne (sumExact 0 [f.read x.toNat, f.read y.toNat])).1
  | 1 => if fmt = 5 then (if y.slt x then y else x) else BitVec.ofNat 32 (minMaxBits f false x.toNat y.toNat).1
  | _ => if fmt = 5 then (if x.slt y then y else x) else BitVec.ofNat 32 (minMaxBits f true x.toNat y.toNat).1

/-- One router: its children's vectors in their order (R310). -/
def routerNode (op fmt : Nat) : List (List W32) → List W32
  | [] => []
  | v :: vs => vs.foldl (fun acc w => List.zipWith (treeElem op fmt) acc w) v

/-- The nodes of a level grouped by eights in their order (R383). -/
def byEights {α : Type} : Nat → List α → List (List α)
  | 0, _ => []
  | fuel + 1, l => if l.isEmpty then [] else l.take 8 :: byEights fuel (l.drop 8)

/-- The root's vector: level by level, the nodes below grouped by eights (R310, R383). -/
def treeRoot (op fmt : Nat) : Nat → List (List W32) → List W32
  | 0, vs => routerNode op fmt vs
  | fuel + 1, vs =>
    if vs.length ≤ 1 then vs.headD []
    else treeRoot op fmt fuel ((byEights vs.length vs).map (routerNode op fmt))

/-- Two contributions that agree in operation, format and length (R309). -/
def Contribution.agrees (x y : Contribution) : Bool := x.op == y.op && x.fmt == y.fmt && x.elems.length == y.elems.length

/-- The contributions to a round, one by leaf in child order; none while a leaf has not contributed. -/
def roundVectors (p : Partition) (t : Tree) (round : Nat) : Option (List Contribution) :=
  t.leaves.mapM (fun l => p.contribs.find? (fun c => c.tree == t.idx && c.round == round && c.lcore == l))

/-- The result of a round, if it is known: kept from a participant that has completed, or combined now (R310). -/
def roundResult (p : Partition) (t : Tree) (round : Nat) : Option (List W32) :=
  match t.results.find? (·.1 == round) with
  | some r => some r.2
  | none =>
    match roundVectors p t round with
    | some (c :: cs) => some (treeRoot c.op c.fmt 8 ((c :: cs).map Contribution.elems))
    | _ => none

/-- Write a result over a contribution (R309). -/
def writeResult (phys part : Nat) (c : Contribution) (v : List W32) (s : State) : State :=
  let bytes := v.flatMap (fun x => leBytes (fmtBits c.fmt / 8) x.toNat)
  (c.pieces.foldl (fun (x : Nat × State) q =>
    (x.1 + q.2.2, storeAt phys part c.det false q.2.1 q.1 (slice bytes x.1 q.2.2) x.2)) (0, s)).2

/-- The contribution of a core to a tree leaves, and its completion word is decremented (R309, R329): at the next quantum end
where the quantum rules apply, unless this is one (`now`). -/
def endContribution (now : Bool) (p : Partition) (c : Contribution) (s : State) : State :=
  let s := onPart p.tag (fun p => { p with contribs := p.contribs.filter (fun k => !(k.tree == c.tree && k.lcore == c.lcore)) }) s
  let phys := (physOf p c.lcore).getD 0
  if c.word = 0 then s
  else if quantumRules p && !now then holdReq phys (.tdec c.launch c.det c.word 1) s
  else sweepPart p.tag (runHw (hwDecrement p.tag c.launch (clusterOf phys) phys c.det c.word) s)

/-- The outstanding rounds of a tree end with their vectors unchanged (R311). -/
def endRounds (now : Bool) (part t : Nat) (s : State) : State :=
  match partAt s part with
  | none => s
  | some p => (p.contribs.filter (·.tree == t)).foldl (fun s c => endContribution now p c s) s

/-- A tree fails with a cause (R311). -/
def failTree (now : Bool) (part t cause : Nat) (s : State) : State :=
  let s := record 4 0x00E part 0x3FFF (BitVec.ofNat 64 t) (BitVec.ofNat 64 cause) s
  endRounds now part t (onTree part t (fun t => { t with t0 := setBits t.t0 15 8 cause, results := [], forwarded := false }) s)

/-- A result is kept while a leaf has still to complete its round. -/
def keepResult (p : Partition) (t round : Nat) (v : List W32) (s : State) : State :=
  let waits := p.contribs.any (fun c => c.tree == t && c.round == round)
  onTree p.tag t (fun t =>
    { t with
      results := (if waits then [(round, v)] else []) ++ t.results.filter (·.1 != round)
      forwarded := t.forwarded && waits }) s

/-- What keeps a result from its vector on a core: the core is being replaced (R379), a channel owns a line of it (R263), or the host
may hold a line that the write at the home must first see invalidated (R442). -/
def deliveryWaits (s : State) (part phys : Nat) (c : Contribution) : Bool :=
  inTransit s part phys || c.pieces.any (fun q => match q.1 with
    | .ls .. => false
    | .mem pa => ownedFor s phys (pa / 64) (!q.2.1 || (lineAt s (clusterOf phys) (pa / 64)).isNone) ||
        (!q.2.1 && s.hostLines.contains (pa / 64)))

/-- Back-invalidations for the lines of a vector that the host may hold (R442). -/
def askHosts (c : Contribution) (s : State) : State :=
  c.pieces.foldl (fun s q => match q.1 with
    | .ls .. => s
    | .mem pa => if !q.2.1 && s.hostLines.contains (pa / 64) then backInvalidate (pa / 64) s else s) s

/-- The round of a core on a tree completes, if it can; a round whose participants disagree fails the tree (R309,
R311). -/
def completeRound (part lcore tree : Nat) (s : State) : State :=
  match partAt s part with
  | none => s
  | some p =>
    match treeAt p tree, p.contribs.find? (fun c => c.tree == tree && c.lcore == lcore) with
    | some t, some c =>
      if p.contribs.any (fun k => k.tree == tree && k.round == c.round && !k.agrees c) then failTree true part tree 0x0C s
      else
        match roundResult p t c.round with
        | none => s
        | some v =>
          let phys := (physOf p lcore).getD 0
          if deliveryWaits s part phys c then askHosts c s
          else
            let s := endContribution true p c (writeResult phys part c v s)
            match partAt s part with
            | none => s
            | some p => keepResult p tree c.round v s
    | _, _ => s

/-- A tree round completes at a participant (R309); where the quantum rules apply it does so at a quantum end (R332). -/
def execNredRoundComplete (core tree : Nat) (s : State) : Host.Outcome State Fault Refusal :=
  .next (match partAt s (corePart (coreAt s core)) with
    | none => s
    | some p =>
      if quantumRules p then s
      else
        match lcoreOf p core with
        | none => s
        | some l => completeRound p.tag l tree s)

/-- A router's hold passes: it forwards its children's vectors uncombined, and the result is the same (R310). -/
def execTreeHoldExpiry (part tree : Nat) (s : State) : Host.Outcome State Fault Refusal :=
  .next (match partAt s part with
    | none => s
    | some p =>
      if p.contribs.any (·.tree == tree) then onTree part tree (fun t => { t with forwarded := true }) s else s)

end Sys2Proof.Machine
end

