-- ==== Sys2Proof/Machine/Fold.lean ====
section
/-!
DEFINITION. The Fold Store's instructions and events (R339 to R360): declarations, posts and their home, spill and replay,
takes, event tasks, the Top.
-/

namespace Sys2Proof.Machine

/-! ### Key words and reasons -/

/-- SLOT of a key word (R336). -/
def kwSlot (kw : Word) : Nat := bitsOf kw 43 40

/-- KEY of a key word (R336). -/
def kwKey (kw : Word) : Nat := bitsOf kw 39 0

/-- The key word of an entry (R336). -/
def keyWord (slot key : Nat) : Word := BitVec.ofNat 64 (slot * 2 ^ 40 + key)

/-- A trap with cause 0x13 of a reason (R341). -/
def foldError {α : Type} (eval : Word) (reason : Nat) (index : Nat := 0) : Act α :=
  trapAct 0x13 eval (BitVec.ofNat 64 (index * 65536 + reason * 16))

/-- The frame of the instructions of major 25. -/
def foldInfo (dests : List Reg) : InstrInfo := { len := 4, dests := dests }

/-- The frame of fdecl, fthr and fquiet, which no helper may issue (R341). -/
def declInfo : InstrInfo := { len := 4, helper := false }

/-- The declaration of a slot number, or reason 1 or 7 (R341). -/
def needDecl (slot : Word) : Act Decl := do
  if 15 < slot.toNat then foldError slot 1
  match declOf (← curPart) slot.toNat with
  | some d => return d
  | none => foldError slot 7

/-! ### Spill rings (R347) -/

/-- The records of a sub-ring. -/
def subRing (p : Partition) (d : Decl) : Nat := d.ringsize / (ringOf p).length

/-- The address of record k of a cluster's sub-ring. -/
def spillAddr (p : Partition) (d : Decl) (cl k : Nat) : Word :=
  let n := subRing p d
  d.ring + BitVec.ofNat 64 (16 * (n * ringIndex p cl + k % n))

/-- The agent of the store of a cluster. -/
def storeAgent (p : Partition) (cl : Nat) : Agent := hwAgent ((coresIn p cl).headD (cl * 256)) p.tag

/-- Write a spill record at .dev (R347). -/
def writeSpill (p : Partition) (d : Decl) (cl k : Nat) (key : Nat) (v : W32) : Act Unit := do
  let ag := storeAgent p cl
  let b := dwBytes (keyWord d.slot key) ++ leBytes 8 v.toNat
  let ps ← openAccess ag .hw .other needW true (spillAddr p d cl k) 16
  checkBad true ps
  ps.forM (fun q => awaitHome ag.phys true q.place)
  ps.forM (fun q => modify (fun s =>
    let (_, s) := atHome ag.phys q.place q.len s
    storeAt ag.phys p.tag false false false q.place b s))

/-- Read a spill record at .dev: its key word and value (R347). -/
def readSpill (p : Partition) (d : Decl) (cl k : Nat) : Act (Word × W32) := do
  let ag := storeAgent p cl
  let ps ← openAccess ag .hw .other needR true (spillAddr p d cl k) 16
  checkBad false ps
  ps.forM (fun q => awaitHome ag.phys false q.place)
  let b ← ps.foldlM (fun l q => do
    let (b, s) := atHome ag.phys q.place q.len (← get)
    set s
    return l ++ b) []
  return (wordAt b 0, BitVec.ofNat 32 (leNat (slice b 8 4)))

/-- The black box records a spill record that is discarded or a fault of a ring (R347). -/
def spillRecord (p : Partition) (cl : Nat) (kw : Word) (s : State) : State := record (cl / 16) 0x006 p.tag 0x3FFF kw 0 s

/-! ### Posts at their home (R342, R348) -/

/-- Fold a value into the entry of a key, if one is pending (R342). -/
def mergeEntry (part : Nat) (d : Decl) (cl key : Nat) (v : W32) (s : State) : Option State :=
  let same := fun (e : FoldEntry) => e.part == part && e.slot == d.slot && e.key == key
  if (clusterAt s cl).fold.any same then
    some (onCluster cl (fun c => { c with fold := modifyWhere same (fun e => { e with value := foldVal d.op e.value v }) c.fold }) s)
  else none

/-- Make a new entry (R342). -/
def insertEntry (part : Nat) (d : Decl) (cl key : Nat) (v : W32) (s : State) : State :=
  onCluster cl (fun c => { c with fold := c.fold ++ [⟨part, d.slot, key, v, s.time⟩] }) s

/-- A refused post (R348). -/
def refusePost (part : Nat) (d : Decl) (cl : Nat) (s : State) : State :=
  onSlot cl part d (fun k => { k with refusals := (k.refusals + 1) % 2 ^ 32 }) s

/-- Apply a post at its home store: its status (R342, R347, R348). `strict` says that the poster is in deterministic mode,
where a refusal, or a spill under DET, traps instead. -/
def applyPost (p : Partition) (d : Decl) (cl key : Nat) (v : W32) (strict : Bool) : Act Nat := do
  let s ← get
  match mergeEntry p.tag d cl key v s with
  | some s =>
    set s
    return 0
  | none =>
    let k := slotStateOf (clusterAt s cl) p.tag d
    if !storeFull s cl p.tag && k.pending = 0 then
      set (insertEntry p.tag d cl key v s)
      return 1
    else
      let kw := keyWord d.slot key
      let full := subRing p d ≤ k.pending
      if strict && (full || d.det) then trapAct 0x12 kw
      if full then
        set (refusePost p.tag d cl s)
        return 3
      match ← attempt (writeSpill p d cl k.tail key v) with
      | .ok _ =>
        modify (onSlot cl p.tag d (fun k => { k with tail := k.tail + 1 }))
        return 2
      | .error (.stall x) => stallAct x
      | .error _ =>
        modify (spillRecord p cl kw)
        if strict then trapAct 0x12 kw
        modify (refusePost p.tag d cl)
        return 3

/-! ### fdecl (R339, R340) -/

/-- A 32-bit field of a declaration record. -/
def declField (b : List Byte) (off : Nat) : Nat := leNat (slice b off 4)

/-- The fields of a declaration record (R339). -/
def parseDecl (b : List Byte) (slot launch lsize : Nat) : Decl where
  slot := slot
  op := leNat (slice b 0 1)
  dispatch := leNat (slice b 1 1) % 2 == 1
  det := leNat (slice b 1 1) / 2 % 2 == 1
  conc := leNat (slice b 1 1) / 4
  prio := leNat (slice b 2 1)
  limit := leNat (slice b 3 1)
  thr := BitVec.ofNat 32 (declField b 4)
  handler := wordAt b 8
  ring := wordAt b 16
  ringsize := declField b 24
  home := declField b 28
  datum := wordAt b 32
  launch := launch
  lsize := lsize

/-- The first of reasons 4 to 6 that a declaration record gives (R341). -/
def declReason (b : List Byte) : Option Nat :=
  let d := parseDecl b 0 0 0
  if 9 < d.op || 7 < d.prio || (d.limit != 0 && (d.limit < 12 || 32 < d.limit)) || 1 < d.home || leNat (slice b 40 24) != 0 then some 4
  else if d.ring.toNat % 64 != 0 || (d.ring == 0) != (d.ringsize == 0) || 2 ^ 24 < d.ringsize then some 5
  else if d.dispatch && (d.handler == 0 || d.handler.getLsbD 0 || d.datum == 0 || d.datum.toNat % 64 != 0) then some 6
  else none

/-- Every page of an event pool is readable and writable with T (R341). -/
def checkPool (ag : Agent) (b : List Byte) : Act Unit := do
  let d := parseDecl b 0 0 0
  if d.dispatch then
    let n := (d.conc + 1) * 0x4040
    (pageParts d.datum n (n / 4096 + 2)).forM (fun x => do
      let _ ← translate { ag with priv := 0 } (.ctx ag.phys ag.ctx) needRW x.1)

/-- What an act does, with a trap condition as an answer; a wait goes on waiting. -/
def caught {α : Type} (a : Act α) : Act (Except Deferred α) := do
  match ← attempt a with
  | .ok x => return .ok x
  | .error (.trap c v e) => return .error ⟨c, v, e⟩
  | .error e => throw e

/-- Orders 3 and 4 of R341 for fdecl. -/
def readDecl (slot rcd : Word) : Act FoldOp := do
  if rcd = 0 then return .decl slot rcd [] none
  let ag := curAgent (← get)
  match ← caught (do
      let b ← readRecord ag (.ctx ag.phys ag.ctx) rcd
      checkPool ag b
      return b) with
  | .ok b => return .decl slot rcd b none
  | .error e => return .decl slot rcd [] (some e)

/-- Whether a slot is empty (R340). -/
def slotEmpty (s : State) (p : Partition) (d : Decl) : Bool :=
  !postInFlight s p.tag d.slot && !p.tops.any (·.slot == d.slot) &&
    s.clusters.all (fun c =>
      !c.fold.any (fun e => e.part == p.tag && e.slot == d.slot) &&
        (let k := slotStateOf c p.tag d
         k.pending == 0 && k.live.isEmpty))

/-- Declare or release a slot (R340, R341). -/
def declPerform (slot rcd : Word) (b : List Byte) (fault : Option Deferred) : Act Unit := do
  match fault with
  | some e => trapAct e.cause e.eval e.einfo
  | none => pure ()
  if rcd = 0 then
    let d ← needDecl slot
    let p ← curPart
    let s ← get
    if d.launch ≠ runLaunch s then foldError slot 10
    if !slotEmpty s p d then foldError slot 3
    set (releaseSlot p.tag slot.toNat s)
  else
    if 15 < slot.toNat then foldError slot 1
    let p ← curPart
    if (declOf p slot.toNat).isSome then foldError slot 2
    match declReason b with
    | some r => foldError rcd r
    | none =>
      let s ← get
      let lsize := (s.core.run.map (fun r => r.rcd.lsize)).getD 0
      set (onPart p.tag (fun p => { p with decls := putBy Decl.slot (parseDecl b slot.toNat (runLaunch s) lsize) p.decls }) s)

/-! ### Takes (R344, R345, R353) -/

/-- VALUE as fdrain delivers it (R353). -/
def drainValue (op : Nat) (v : W32) : Word := if foldIsSigned op then v.signExtend 64 else v.zeroExtend 64

/-- The slots of a mask. -/
def maskSlots (mask : Word) : List Nat := (List.range 16).filter (fun i => mask.getLsbD i)

/-- A take of an entry by a core (R344), which monitor units sample (R400). -/
def takeEntry (phys : Nat) (e : FoldEntry) (s : State) : State :=
  sampleAt phys e.part 4 e.slot (s.time - e.born) (removeEntry (clusterOf phys) e s)

/-- fdrain and fpeek: what they deliver (R353). -/
def drainAct (mask : Word) (take : Bool) : Act (Word × Word) := do
  if mask = 0 || 2 ^ 16 ≤ mask.toNat then foldError mask 1
  let p ← curPart
  (maskSlots mask).forM (fun n => if (declOf p n).isSome then pure () else foldError mask 7)
  let s ← get
  let phys := s.core.phys
  match chooseEntry (clusterAt s (clusterOf phys)) p (maskSlots mask) with
  | none => return (BitVec.allOnes 64, 0)
  | some e =>
    if take then set (sweepPart p.tag (takeEntry phys e s))
    return (keyWord e.slot e.key, drainValue ((declOf p e.slot).map Decl.op |>.getD 0) e.value)

/-! ### fthr and fquiet (R345, R359) -/

/-- Set a slot's threshold at a store. -/
def setThreshold (part slot cl : Nat) (v : W32) (s : State) : State :=
  match (partAt s part).bind (fun p => declOf p slot) with
  | none => s
  | some d => sweepPart part (onSlot cl part d (fun k => { k with thr := v }) s)

/-- A threshold has reached every store: clusters that join later take it from the declaration. -/
def settleThreshold (part slot : Nat) (v : W32) (s : State) : State :=
  onPart part (fun p => { p with decls := modifyWhere (·.slot == slot) (fun d => { d with thr := v }) p.decls }) s

/-- fthr: the write goes to every store of the partition, or is applied at the quantum end (R345). -/
def thrPerform (atEnd : Bool) (slot v : Word) : Act Unit := do
  let d ← needDecl slot
  let p ← curPart
  let t : W32 := v.truncate 32
  if atEnd then
    modify (fun s => settleThreshold p.tag d.slot t ((ringOf p).foldl (fun s cl => setThreshold p.tag d.slot cl t s) s))
  else modify (fun s => { s with thrs := s.thrs ++ (ringOf p).map (fun cl => (p.tag, d.slot, cl, t)) })

/-- fquiet (R359): every cluster white, a white token at the initiator. -/
def quietPerform (slot rcd : Word) : Act Unit := do
  if rcd.toNat % 64 ≠ 0 then trapAct 0x05 rcd
  let d ← needDecl slot
  let p ← curPart
  if p.tops.any (·.slot == d.slot) then foldError slot 9
  modify (fun s =>
    let top : Top := ⟨d.slot, (ringOf p).headD 0, false, rcd, false, false, runLaunch s, runDet s⟩
    let s := onPart p.tag (fun p => { p with tops := p.tops ++ [top] }) s
    (ringOf p).foldl (fun s cl => onSlot cl p.tag d (fun k => { k with black := false }) s) s)

/-! ### Sending posts (R343, R351, R356, R358) -/

/-- The smallest scope that contains two clusters (R358). -/
def clusterScope (x y : Nat) : Scope := if x = y then .clus else if x / 16 = y / 16 then .die else .dev

/-- A sent post blackens its cluster for a running Top (R359). -/
def blacken (p : Partition) (d : Decl) (src home : Nat) (s : State) : State :=
  let i := ringIndex p src
  if p.tops.any (·.slot == d.slot) && (ringIndex p home < i || (i == 0 && src != home)) then
    onSlot src p.tag d (fun k => { k with black := true }) s
  else s

/-- Send a post to its home (R351). -/
def sendPost (p : Partition) (d : Decl) (q : Post) (s : State) : State :=
  blacken p d (clusterOf q.phys) q.home { s with posts := s.posts ++ [q] }

/-- The order of a post after the earlier accesses of its context (R358); `own` is a vector instruction that posts. -/
def postOrder (ag : Agent) (home : Nat) (own : Bool) : Act Unit := do
  let s ← get
  let sc := clusterScope (clusterOf ag.phys) home
  if own then
    if !accessesDone s ag.phys ag.ctx sc || (ag.ctx == 0 && !s.core.mxq.isEmpty) then stallAct
  else fenceAct ag sc

/-- Hold a post in the open transaction (R356); a ninth aborts it (R224). -/
def holdPost (ag : Agent) (q : Post) : Act Unit := do
  let s ← get
  match s.core.txn with
  | none => pure ()
  | some t =>
    if q.home ≠ clusterOf ag.phys then throw (.abort 7 0)
    if 8 ≤ t.posts.length then throw (.abort 3 0)
    set { s with core := { s.core with txn := some { t with posts := t.posts ++ [q] } } }

/-- The declaration that a key word names, or reason 7 or 8 (R341). -/
def keyDecl (p : Partition) (kw eval : Word) (index : Nat := 0) : Act Decl := do
  match declOf p (kwSlot kw) with
  | none => foldError eval 7 index
  | some d =>
    if bitsOf kw 63 44 ≠ 0 then foldError eval 8 index
    return d

/-- The post of a context. -/
def postOf (s : State) (ag : Agent) (p : Partition) (d : Decl) (kw : Word) (v : W32) (reg : Reg) : Post :=
  ⟨ag.part, d.slot, kwKey kw, v, foldHome p d (kwKey kw) (clusterOf s.core.phys), ag.phys, ag.ctx,
    if reg = 0 then none else some reg⟩

/-- fpost outside the quantum rules: held in a transaction with status 4, else sent; d is interlocked until the answer
(R351, R356). -/
def postPerform (reg : Reg) (kw v : Word) : Act Unit := do
  let p ← curPart
  let s ← get
  let ag := curAgent s
  let d ← keyDecl p kw kw
  let q := postOf s ag p d kw (v.truncate 32) reg
  if inTxn s ag then
    holdPost ag q
    modify (setReg reg 4)
  else
    postOrder ag q.home false
    modify (sendPost p d q)
    if reg ≠ 0 then modify (onCur (fun x => { x with locks := x.locks ++ [reg] }))

/-- A post at the quantum end (R355): applied at its home at once; it is a sent post to a running Top (R359). -/
def postNow (p : Partition) (d : Decl) (kw : Word) (v : W32) : Act Nat := do
  let s ← get
  let src := clusterOf s.core.phys
  let home := foldHome p d (kwKey kw) src
  let st ← applyPost p d home (kwKey kw) v (detMode s)
  modify (blacken p d src home)
  return st

/-- fpost at the quantum end (R355). -/
def postAtEnd (reg : Reg) (kw v : Word) : Act Unit := do
  let p ← curPart
  let d ← keyDecl p kw kw
  let st ← postNow p d kw (v.truncate 32)
  modify (setReg reg (BitVec.ofNat 64 st))

/-! ### fpostv (R352) -/

/-- The rules of the records of fpostv (R229 to R231, R352). -/
def postvJoint (a b : ShapeRec) (code : Nat) : Bool :=
  if code = 0 then countOf a.ext ≤ 65535 else conforms a.ext b

/-- Acceptance of fpostv: orders 2 to 4 of R234 for its two records. -/
def postvAccept (ag : Agent) (keys vals : Word) : Act (ShapeRec × ShapeRec) := do
  let w := Waiter.ctx ag.phys ag.ctx
  let read := fun (code : Nat) (addr : Word) => (do
    if addr.toNat % 64 ≠ 0 then trapAct 0x0C addr (BitVec.ofNat 64 code)
    if inTxn (← get) ag && !((coreAt (← get) ag.phys).recs.any (·.1 == addr)) then
      txnTouch ag false (← recordFault addr code (resolve ag w needR addr 64))
    let (b, ok) ← fetchRecord ag w code addr (fun b => shapeAddrOk (parseShape b))
    return (parseShape b, ok) : Act (ShapeRec × Bool))
  let (a, okA) ← read 0 keys
  let (b, okB) ← read 1 vals
  if !okA || !postvJoint a b 0 then trapAct 0x0C keys 0
  if !okB || !postvJoint a b 1 then trapAct 0x0C vals 1
  if a.fmt ≠ 9 then trapAct 0x0D keys 0
  if b.fmt ≠ 0 ∧ b.fmt ≠ 5 then trapAct 0x0D vals 1
  return (a, b)

/-- Read an element of a record for fpostv, inside a transaction as an access of it. -/
def postvRead (ag : Agent) (i : Nat) (x : Spot × List Piece) : Act Nat := do
  if inTxn (← get) ag then txnTouch ag false x.2
  modify (reachPieces ag x.2)
  withInfo (mxInfo i 0 x.1.code) (checkBad false x.2)
  return elemOf x.1.r x.1.p (piecesBytes (← get) ag x.2)

/-- Checks 5 to 7 of R234 over the two accesses of element i, made once (R236). -/
def postvPlace (ag : Agent) (w : Waiter) (a b : ShapeRec) (i : Nat) : Act (List (Spot × List Piece)) := do
  let p := pointOf a.ext i
  let spots := spotOf 0 a p false false :: (sourceSpot 1 a.ext (some b) p).toList
  match (vxOf (← get) ag.phys ag.ctx).bind (·.placedAt i) with
  | some l => return spots.zipWith (fun sp x => ({ sp with addr := x.1 }, x.2)) l
  | none =>
    let l ← checkSpots ag.onElems w i spots
    modify (onVx ag.phys ag.ctx (fun q => { q with placed := q.placed ++ [(i, l.map (fun x => (x.1.addr, x.2)))] }))
    return l

/-- The places of element i, then its key word (R231, R352). -/
def postvKey (ag : Agent) (w : Waiter) (a b : ShapeRec) (i : Nat) : Act (Word × List (Spot × List Piece)) := do
  let l ← postvPlace ag w a b i
  let kw ← (l.filter (·.1.code == 0)).foldlM (fun _ x => do
    withInfo (mxInfo i 0 0) (do
      x.2.forM (stashFill ag w)
      x.2.forM (touchData ag)
      performMeeting ag.onElems x.2)
    postvRead ag i x) 0
  return (BitVec.ofNat 64 kw, l)

/-- Check 9 of R234 over the accesses of element i, then its value. -/
def postvValue (ag : Agent) (w : Waiter) (b : ShapeRec) (i : Nat) (l : List (Spot × List Piece)) : Act W32 := do
  detSpots ag i l
  readySpots ag w i l
  let vals ← (l.filter (·.1.code == 1)).mapM (postvRead ag i)
  return BitVec.ofNat 32 (vals.headD (padBits b))

/-- The declaration that element i names; its values must be of the operator's kind (R341, R352). -/
def postvDecl (p : Partition) (keys vals : Word) (fmt i : Nat) (kw : Word) : Act Decl := do
  let d ← keyDecl p kw keys i
  if (fmt == 0) != foldIsFloat d.op then trapAct 0x0C vals (mxInfo i 0 1)
  return d

/-- The count of a status. -/
def statusCount (l : List (Nat × Nat)) (st : Nat) : Nat := ((l.find? (·.1 == st)).map (·.2)).getD 0

/-- The counts of statuses after one more post. -/
def addCount (st : Nat) (l : List (Nat × Nat)) : List (Nat × Nat) := (st, statusCount l st + 1) :: l.filter (·.1 != st)

/-- The count of a status in a vector instruction that posts. -/
def countSt (q : VxOp) (st : Nat) : Nat := statusCount q.got st

/-- One more post with a status. -/
def bumpSt (st : Nat) (q : VxOp) : VxOp := { q with got := addCount st q.got }

/-- The result of fpostv (R352). -/
def countWord (c0 c1 c2 c3 : Nat) : Word := BitVec.ofNat 64 (c0 + c1 * 2 ^ 16 + c2 * 2 ^ 32 + c3 * 2 ^ 48)

/-- The engine begins an fpostv (R237, R352), from a resume state with the counts that this carries. -/
def postvBegin (i : Instr) (d : Reg) (keys vals : Word) : Act Unit := do
  let s ← get
  let ag := curAgent s
  let x := curCtx s
  let (ra, rb) ← postvAccept ag keys vals
  let recs := [(0, ra), (1, rb)]
  let span ← recSpans ag recs
  let fresh : VRec := ⟨x.pc, wordOf i, ag.ctx, 0, 0, 0, regVal s d, keys, vals, []⟩
  let start := match x.vres with
    | some r =>
      if resumes r x.pc (wordOf i) keys vals (regVal s d) then { fresh with group := r.group, done := r.done, counts := r.counts }
      else fresh
    | none => fresh
  modify (fun s =>
    let s := onCur (fun x => { x with vres := none, await := .nothing }) s
    { s with core := { s.core with
        vxq := s.core.vxq ++ [⟨i, start, none, 0, 0, ag.priv, start.group, span, false, 0, recs, start.counts, [], [], []⟩] } })

/-- Issue fpostv to the vector engine (R283, R284, R352). -/
def postvTake (i : Instr) (d a b : Reg) (wa wb : Bool) : Act Unit := do
  let keys ← readS a wa
  let vals ← readS b wb
  destReady d
  queueVec (postvBegin i d keys vals)

/-- Post element i of the instruction a context stands at (R352, R356). -/
def postvPost (ag : Agent) (reg : Reg) (q : VxOp) (i : Nat) : Act Unit := do
  let w := Waiter.vec ag.phys ag.ctx
  let (kw, l) ← postvKey ag w (recOr q.recs 0) (recOr q.recs 1) i
  let p ← curPart
  let d ← postvDecl p q.vrec.va q.vrec.vb (recOr q.recs 1).fmt i kw
  let v ← postvValue ag w (recOr q.recs 1) i l
  let s ← get
  let k := postOf s ag p d kw v reg
  if inTxn s ag then
    holdPost ag k
    modify (onVx ag.phys ag.ctx (bumpSt 0))
  else
    postOrder ag k.home true
    modify (sendPost p d k)

/-- The elements of the group, strictly in ascending index. -/
def postvWalk (ag : Agent) (reg : Reg) : List Nat → Act Unit
  | [] => pure ()
  | i :: rest => do
    match vxOf (← get) ag.phys ag.ctx with
    | none => pure ()
    | some q =>
      if !q.vrec.done.getLsbD (i % 64) then
        postvPost ag reg q i
        modify (onVx ag.phys ag.ctx (elemDone i []))
      postvWalk ag reg rest

/-- One group of fpostv: true once every element has been posted. -/
def postvGroup (ag : Agent) (reg : Reg) : Act Bool := do
  match vxOf (← get) ag.phys ag.ctx with
  | none => return true
  | some q =>
    let n := countOf (recOr q.recs 0).ext
    let range := groupRange q n
    postvWalk ag reg range
    if !range.isEmpty then
      modify (onVx ag.phys ag.ctx (fun q => { q with pages := [], placed := [], vrec := { q.vrec with group := q.vrec.group + 1, done := 0, pend := 0 } }))
    return decide (n ≤ (q.vrec.group + 1) * 64)

/-- Answers to posts of a context for a register that are still to come. -/
def owedTo (s : State) (phys ctx : Nat) (reg : Reg) : Bool :=
  s.posts.any (fun q => q.phys == phys && q.ctx == ctx && q.answer == some reg) ||
    s.answers.any (fun a => a.phys == phys && a.ctx == ctx && a.reg == reg)

/-- fpostv outside the quantum rules: a vector instruction that posts, group by group, and completes when every home has
answered; a trap too waits for the answers of the elements before it (R352). -/
def postvEngine (i : Instr) (d a b : Reg) (wa wb : Bool) : Act Unit := do
  let ag := curAgent (← get)
  if (standingVx (← get) ag.phys ag.ctx).isNone then postvTake i d a b wa wb
  let owed : Act Unit := do
    if d ≠ 0 && owedTo (← get) ag.phys ag.ctx d then stallAct
  match ← attempt (postvGroup ag d) with
  | .ok done =>
    if !done then stallAct
    match vxOf (← get) ag.phys ag.ctx with
    | none => pure ()
    | some q =>
      owed
      modify (setReg d (countWord (countSt q 0) (countSt q 1) (countSt q 2) (countSt q 3)))
      modify (vecDrop ag.ctx)
  | .error (.trap c v x) =>
    match vxOf (← get) ag.phys ag.ctx with
    | none => trapAct c v x
    | some q =>
      owed
      modify (fun s => onCur (fun y => { y with vres := some { q.vrec with counts := q.got } }) (vecDrop ag.ctx s))
      trapAct c v x
  | .error e => throw e

/-- Where an fpostv continues: its first group and done mask. -/
def postvFrom (s : State) (i : Instr) (keys vals : Word) (d : Reg) : Option VRec :=
  (curCtx s).vres.filter (fun r => resumes r (curCtx s).pc (wordOf i) keys vals (regVal s d))

/-- The elements of fpostv, read while its context stands at it, up to the first fault (R355): where that is one of its value, the
element itself is among them, for check 8 of its key word comes first. -/
def readElems (ag : Agent) (a b : ShapeRec) : List Nat → Act (List (Nat × Word × W32) × Option Deferred)
  | [] => return ([], none)
  | i :: rest => do
    let w := Waiter.ctx ag.phys ag.ctx
    match ← caught (postvKey ag w a b i) with
    | .error e => return ([], some e)
    | .ok (kw, l) =>
      match ← caught (postvValue ag w b i l) with
      | .error e => return ([(i, kw, 0)], some e)
      | .ok v =>
        let (l, e) ← readElems ag a b rest
        return ((i, kw, v) :: l, e)

/-- What fpostv reads under the quantum rules (R355). -/
def readPostv (i : Instr) (d a b : Reg) (wa wb : Bool) : Act FoldOp := do
  let keys ← readS a wa
  let vals ← readS b wb
  destReady d
  let s ← get
  let ag := curAgent s
  if !enginesDone s ag.phys ag.ctx then stallAct
  match ← caught (postvAccept ag keys vals) with
  | .error e => return .postv (wordOf i) d keys vals 15 [] (some e) []
  | .ok (ra, rb) =>
    let from' := postvFrom s i keys vals d
    let skip := fun (k : Nat) => from'.any (fun r => k / 64 < r.group || (k / 64 == r.group && r.done.getLsbD (k % 64)))
    let (l, e) ← readElems ag ra rb ((List.range (countOf ra.ext)).filter (fun k => !skip k))
    fenceAct ag .dev
    return .postv (wordOf i) d keys vals rb.fmt l e ((from'.map VRec.counts).getD [])

/-- The done mask of the elements of a group below an index. -/
def maskBelow (i : Nat) : BitVec 64 := (1#64 <<< (i % 64)) - 1

/-- The posts of fpostv at the quantum end, in ascending index: the counts by status (R355). The element at which a read met a
fault is only judged. A trap leaves the resume state at its element. -/
def postvPosts (i : W32) (d : Reg) (keys vals : Word) (fmt : Nat) (stop : Option Nat) :
    List (Nat × Word × W32) → List (Nat × Nat) → Act (List (Nat × Nat))
  | [], counts => return counts
  | (k, kw, v) :: rest, counts => do
    let p ← curPart
    let s ← get
    match ← attempt (do
        let dd ← postvDecl p keys vals fmt k kw
        if stop = some k then return none
        match ← attempt (postNow p dd kw v) with
        | .ok st => return some st
        | .error (.trap c e _) => trapAct c e (mxInfo k 0 0)
        | .error e => throw e) with
    | .ok none => return counts
    | .ok (some st) => postvPosts i d keys vals fmt stop rest (addCount st counts)
    | .error e =>
      modify (onCur (fun x => { x with vres := some ⟨x.pc, i, curIdx s, k / 64, maskBelow k, 0, regVal s d, keys, vals, counts⟩ }))
      throw e

/-- fpostv at the quantum end (R355); format 15 marks a fault of its acceptance. -/
def postvAtEnd (w : W32) (d : Reg) (keys vals : Word) (fmt : Nat) (elems : List (Nat × Word × W32))
    (fault : Option Deferred) (counts : List (Nat × Nat)) : Act Unit := do
  let at' := fault.map (fun e => e.einfo.toNat / 65536 % 65536)
  let c ← postvPosts w d keys vals fmt (if fmt = 15 then none else at') elems counts
  match fault with
  | some e =>
    let i := at'.getD 0
    if fmt ≠ 15 then
      modify (fun s => onCur (fun x => { x with vres := some ⟨x.pc, w, curIdx s, i / 64, maskBelow i, 0, regVal s d, keys, vals, c⟩ }) s)
    trapAct e.cause e.eval e.einfo
  | none =>
    let v := countWord (statusCount c 0) (statusCount c 1) (statusCount c 2) (statusCount c 3)
    modify (fun s => onCur (fun x => { x with vres := none }) (setReg d v s))

/-! ### Performing and standing (R355) -/

/-- Perform a Fold Store instruction of the context that issues; `atEnd` at a quantum end. -/
def foldPerform (atEnd : Bool) : FoldOp → Act Unit
  | .decl slot rcd b fault => declPerform slot rcd b fault
  | .post d kw v => if atEnd then postAtEnd d kw v else postPerform d kw v
  | .postv word d keys vals fmt elems fault counts => postvAtEnd word d keys vals fmt elems fault counts
  | .thr slot v => thrPerform atEnd slot v
  | .quiet slot rcd => quietPerform slot rcd
  | .drain d mask => deliver atEnd d mask true
  | .peek d mask => deliver atEnd d mask false
where
  /-- Deliver what fdrain or fpeek found: as long-latency producers (R63), or at once at the quantum end. -/
  deliver (atEnd : Bool) (d : Reg) (mask : Word) (take : Bool) : Act Unit := do
    let (k, v) ← drainAct mask take
    if atEnd then modify (fun s => setReg (nextReg d) v (setReg d k s))
    else modify (fun s => produce (nextReg d) v 0 false (produce d k 0 false s))

/-- A context stands at a Fold Store instruction until the quantum end, and its core's quantum ends (R355). -/
def standFold (op : FoldOp) : Act Unit := do
  modify (fun s =>
    let ag := curAgent s
    let s := onCur (fun x => { x with await := .quantum }) s
    onCore ag.phys (fun c => { c with atBarrier := true }) (holdReq ag.phys (.fold ag.ctx op) s))
  stallAct

/-- Whether the quantum rules apply to the context that issues. -/
def underQuantum (s : State) : Bool := (partAt s (corePart s.core)).any quantumRules

/-- A Fold Store instruction: what it reads, then its performance, at once or at the quantum end (R341, R355). -/
def foldBody (read : Act FoldOp) : Act Unit := do
  let s ← get
  if (curCtx s).await = .quantum then stallAct
  let op ← read
  if underQuantum (← get) && !inTxn s (curAgent s) then standFold op else foldPerform false op

/-- fdecl (R340). -/
def execFdecl (a b : Reg) (wa wb : Bool) (s : State) : Host.Outcome State Fault Refusal :=
  runSeq declInfo (foldBody (do
    let slot ← readS a wa
    let rcd ← readS b wb
    readDecl slot rcd)) s

/-- fpost (R351): under the quantum rules its order is waited for before it stands. -/
def execFpost (d a b : Reg) (wa wb : Bool) (s : State) : Host.Outcome State Fault Refusal :=
  runSeq { foldInfo [d] with txn := true } (foldBody (do
    let kw ← readS a wa
    let v ← readS b wb
    destReady d
    let s ← get
    let ag := curAgent s
    if underQuantum s && !inTxn s ag then
      match (partAt s ag.part).bind (fun p => (declOf p (kwSlot kw)).map (fun d => foldHome p d (kwKey kw) (clusterOf ag.phys))) with
      | some home => postOrder ag home false
      | none => pure ()
    return .post d kw v)) s

/-- fpostv (R352). -/
def execFpostv (d a b : Reg) (wa wb : Bool) (s : State) : Host.Outcome State Fault Refusal :=
  let i : Instr := .fpostv d a b wa wb
  runSeq { foldInfo [d] with txn := true } (do
    let s ← get
    if underQuantum s && !inTxn s (curAgent s) then foldBody (readPostv i d a b wa wb)
    else postvEngine i d a b wa wb) s

/-- fdrain (R353). -/
def execFdrain (d a : Reg) (wa : Bool) (s : State) : Host.Outcome State Fault Refusal :=
  runSeq (foldInfo [d, nextReg d]) (foldBody (do
    let mask ← readS a wa
    destReady d
    destReady (nextReg d)
    return .drain d mask)) s

/-- fpeek (R353). -/
def execFpeek (d a : Reg) (wa : Bool) (s : State) : Host.Outcome State Fault Refusal :=
  runSeq (foldInfo [d, nextReg d]) (foldBody (do
    let mask ← readS a wa
    destReady d
    destReady (nextReg d)
    return .peek d mask)) s

/-- fthr (R345). -/
def execFthr (a b : Reg) (wa wb : Bool) (s : State) : Host.Outcome State Fault Refusal :=
  runSeq declInfo (foldBody (do
    let slot ← readS a wa
    let v ← readS b wb
    return .thr slot v)) s

/-- fquiet (R359). -/
def execFquiet (a b : Reg) (wa wb : Bool) (s : State) : Host.Outcome State Fault Refusal :=
  runSeq declInfo (foldBody (do
    let slot ← readS a wa
    let rcd ← readS b wb
    return .quiet slot rcd)) s

/-- An item of a store for a slot (R354). -/
def foldItem (s : State) (p : Partition) (cl : Nat) (d : Decl) (item : Nat) : Nat :=
  let c := clusterAt s cl
  let k := slotStateOf c p.tag d
  match item with
  | 0 => (c.fold.filter (fun e => e.part == p.tag && e.slot == d.slot)).length
  | 1 => (c.fold.filter (eligible c p.tag d)).length
  | 3 => k.pending
  | 4 => k.refusals
  | 5 => k.live.length
  | _ => if p.tops.any (·.slot == d.slot) then 1 else 0

/-- fcount after its operand read (R354). -/
def fcountAct (sel : Word) : Act Word := do
  if bitsOf sel 63 8 ≠ 0 || 6 < bitsOf sel 7 4 then foldError sel 1
  let p ← curPart
  let s ← get
  let cl := clusterOf s.core.phys
  if bitsOf sel 7 4 = 2 then return BitVec.ofNat 64 (foldCount s cl p.tag)
  match declOf p (bitsOf sel 3 0) with
  | none => foldError sel 7
  | some d => return BitVec.ofNat 64 (foldItem s p cl d (bitsOf sel 7 4))

/-- fcount (R354). -/
def execFcount (d a : Reg) (wa : Bool) (s : State) : Host.Outcome State Fault Refusal :=
  runSeq (foldInfo [d]) (do
    let sel ← readS a wa
    destReady d
    let v ← fcountAct sel
    modify (setReg d v)) s

/-! ### Posts and answers that arrive (R343, R351) -/

/-- Whether a post may be applied now: no earlier post of its context to its home is on its way (R343); under the quantum
rules posts are applied at quantum ends only. -/
def postDue (s : State) (n : Nat) (q : Post) : Bool :=
  !(partAt s q.part).any quantumRules &&
    !(s.posts.take n).any (fun k => k.phys == q.phys && k.ctx == q.ctx && k.home == q.home)

/-- A post that has arrived leaves its way, with the answer on its way back. -/
def postArrived (n : Nat) (q : Post) (st : Nat) (s : State) : State :=
  let s := { s with
    posts := s.posts.eraseIdx n
    answers := s.answers ++ (q.answer.map (fun r => ⟨q.part, q.phys, q.ctx, r, BitVec.ofNat 64 st⟩)).toList }
  sweepPart q.part s

/-- A post reaches its home store (R342); one that must wait for a page of its ring arrives later. -/
def execFoldPostArrival (n : Nat) (s : State) : Host.Outcome State Fault Refusal :=
  .next (match s.posts[n]? with
    | none => s
    | some q =>
      if !postDue s n q then s
      else
        match partAt s q.part with
        | none => postArrived n q 3 s
        | some p =>
          match declOf p q.slot with
          | none => postArrived n q 3 s
          | some d =>
            match applyPost p d q.home q.key q.value false s with
            | .ok st s => postArrived n q st s
            | .error _ s => s)

/-- The answer to a post reaches its context (R351): the count of an fpostv, or the register of an fpost, also in the
checkpoint of an open transaction. -/
def takeAnswer (phys ctx : Nat) (reg : Reg) (v : Word) (s : State) : State :=
  if (vxOf s phys ctx).isSome && !(ctxOf (coreAt s phys) ctx).locks.contains reg then onVx phys ctx (bumpSt v.toNat) s
  else if (ctxOf (coreAt s phys) ctx).locks.contains reg then
    let s := onCtx phys ctx (fun x => { putReg reg v x with locks := x.locks.erase reg }) s
    if ctx = 0 then onCore phys (fun c => { c with txn := c.txn.map (fun t => { t with checkpoint := putReg reg v t.checkpoint }) }) s
    else s
  else s

/-- A status answer arrives (R351). -/
def execFpostStatusAnswer (n : Nat) (s : State) : Host.Outcome State Fault Refusal :=
  .next (match s.answers[n]? with
    | none => s
    | some a => takeAnswer a.phys a.ctx a.reg a.status { s with answers := s.answers.eraseIdx n })

/-- Threshold write n reaches its store; one to a cluster that has left the partition since has none to reach (R438). -/
def landThreshold (n : Nat) (t : Nat × Nat × Nat × W32) (s : State) : State :=
  let left := { s with thrs := s.thrs.eraseIdx n }
  let s := if (partAt s t.1).any (fun p => (ringOf p).contains t.2.2.1) then setThreshold t.1 t.2.1 t.2.2.1 t.2.2.2 left else left
  if s.thrs.any (fun u => u.1 == t.1 && u.2.1 == t.2.1) then s else settleThreshold t.1 t.2.1 t.2.2.2 s

/-- A threshold write reaches a store (R345), after earlier ones of the slot to it; where the quantum rules apply it does so at a
quantum end (R355). -/
def execThresholdWriteArrival (n : Nat) (s : State) : Host.Outcome State Fault Refusal :=
  .next (match s.thrs[n]? with
    | none => s
    | some t =>
      if (partAt s t.1).any quantumRules || (s.thrs.take n).any (fun u => u.1 == t.1 && u.2.1 == t.2.1 && u.2.2.1 == t.2.2.1) then s
      else landThreshold n t s)

/-! ### Replay (R347) -/

/-- Replay the record at the head of a slot's sub-ring: false if it must wait. -/
def replayOne (p : Partition) (d : Decl) (cl : Nat) : Act Bool := do
  let k := slotStateOf (clusterAt (← get) cl) p.tag d
  let rec' ← attempt (readSpill p d cl k.head)
  let step := fun (s : State) => onSlot cl p.tag d (fun k => { k with head := k.head + 1 }) s
  match rec' with
  | .error (.stall _) => return false
  | .error _ =>
    modify (fun s => step (spillRecord p cl (keyWord d.slot 0) s))
    return true
  | .ok (kw, v) =>
    modify step
    if bitsOf kw 63 44 ≠ 0 || kwSlot kw ≠ d.slot then modify (spillRecord p cl kw)
    else
      modify (fun s => match mergeEntry p.tag d cl (kwKey kw) v s with
        | some s => s
        | none => insertEntry p.tag d cl (kwKey kw) v s)
    return true

/-- Replay a slot until its records run out or the store is full. -/
def replaySlot (p : Partition) (d : Decl) (cl : Nat) : Nat → Act Unit
  | 0 => pure ()
  | fuel + 1 => do
    let s ← get
    if (slotStateOf (clusterAt s cl) p.tag d).pending = 0 || storeFull s cl p.tag then pure ()
    else if ← replayOne p d cl then replaySlot p d cl fuel

/-- Whether every pending record of a slot can be read without a wait for a page. -/
def spillReady (p : Partition) (d : Decl) (cl : Nat) : Act Bool := do
  let k := slotStateOf (clusterAt (← get) cl) p.tag d
  (List.range k.pending).foldlM (fun ok i => do
    match ← attempt (readSpill p d cl (k.head + i)) with
    | .error (.stall _) => return false
    | _ => return ok) true

/-- The store of a cluster replays the pending records of a partition while its entries number fewer than 3Q ÷ 4
(R347). -/
def replayStore (part cl : Nat) (s : State) : State :=
  match partAt s part with
  | none => s
  | some p =>
    if 3 * quotaOf s cl part ≤ 4 * foldCount s cl part then s
    else
      sweepPart part (p.decls.foldl (fun s d =>
        runHw (replaySlot p d cl (slotStateOf (clusterAt s cl) part d).pending) s) s)

/-- FOLD_REPLAY (R347); under the quantum rules replay is performed at quantum ends only (R348). -/
def execFoldReplay (cluster part : Nat) (s : State) : Host.Outcome State Fault Refusal :=
  .next (if (partAt s part).any quantumRules then s else replayStore part cluster s)

/-! ### Event tasks (R349, R350) -/

/-- Whether entries of a slot are dispatchable in a cluster. -/
def dispatchable (s : State) (p : Partition) (cl : Nat) (d : Decl) : Bool :=
  d.dispatch && (slotStateOf (clusterAt s cl) p.tag d).live.length < d.conc + 1 &&
    (clusterAt s cl).fold.any (eligible (clusterAt s cl) p.tag d)

/-- The candidate that the store of a cluster offers (R349). -/
def candidate (s : State) (p : Partition) (cl : Nat) : Option (Decl × FoldEntry) :=
  let ds := p.decls.filter (dispatchable s p cl)
  let top := (ds.map Decl.prio).foldl max 0
  match chooseEntry (clusterAt s cl) p ((ds.filter (·.prio == top)).map Decl.slot) with
  | none => none
  | some e => (declOf p e.slot).map (fun d => (d, e))

/-- The event record of an entry at an index (R350). -/
def eventRecord (d : Decl) (det : Bool) (e : FoldEntry) (j : Nat) : TaskRec :=
  { count := 0, kind := 5, prio := d.prio, det := det, movable := false, steal := 0, entry := d.handler
    arg0 := keyWord e.slot e.key, arg1 := drainValue d.op e.value, word := 0, next := 0, gsize := 1
    limit := if d.limit = 0 then 20 else d.limit, base := 0, lsize := d.lsize
    save := d.datum + BitVec.ofNat 64 (0x4040 * j + 0x40) }

/-- The 64 bytes of a task record (R313). -/
def taskBytes (r : TaskRec) : List Byte :=
  leBytes 4 (BitVec.ofInt 32 r.count).toNat ++
    leBytes 4 (r.kind + r.prio * 2 ^ 4 + r.det.toNat * 2 ^ 7 + r.movable.toNat * 2 ^ 8 + r.steal * 2 ^ 9) ++
    dwBytes r.entry ++ dwBytes r.arg0 ++ dwBytes r.arg1 ++ dwBytes r.word ++ dwBytes r.next ++
    leBytes 8 (r.gsize + r.limit * 2 ^ 16 + r.base * 2 ^ 32 + r.lsize * 2 ^ 48) ++ dwBytes r.save

/-- The lowest index that no live event task of a slot in a cluster holds. -/
def freeEvent (k : SlotState) (conc : Nat) : Nat := ((List.range (conc + 1)).find? (fun j => !k.live.contains j)).getD 0

/-- Whether a core can start an event task of a slot. -/
def eventFits (s : State) (p : Partition) (phys : Nat) (d : Decl) (det : Bool) : Bool :=
  fitsAt s p (clusterOf phys) [] { eventRecord d det ⟨0, 0, 0, 0, 0⟩ 0 with gsize := 1 } ((lcoreOf p phys).getD p.ranks.length) &&
    (!det || reserveFree s (clusterOf phys))

/-- Start an event task for an entry on a core (R350): its record is written first; a fault fails the task, and the taken
value is lost. A wait for a page leaves the entry where it is. -/
def startEvent (p : Partition) (phys : Nat) (d : Decl) (e : FoldEntry) (s : State) : State :=
  let cl := clusterOf phys
  let k := slotStateOf (clusterAt s cl) p.tag d
  let j := freeEvent k d.conc
  let det := (p.launches.find? (·.slot == d.launch)).any (·.det)
  let rcd := eventRecord d det e j
  let addr := rcd.save - 0x40
  let entry := { freshEntry rcd addr p.tag d.launch (p.det || det) none with event := some (d.slot, j), stamp := e.born }
  let go := fun (s : State) =>
    let s := onSlot cl p.tag d (fun k => { k with live := k.live ++ [j] }) (takeEntry phys e s)
    startGroup cl ((lcoreOf p phys).getD 0) entry (popUp p.tag d.launch s)
  match writeMem (hwAgent phys p.tag) .hw .other addr (taskBytes rcd) s with
  | .ok _ s => go s
  | .error (.stall _) s => s
  | .error (.trap c v _) s => failWith phys 0 c v einfoSave (record (dieOf phys) 0x007 p.tag phys entry.rcd.arg0 entry.rcd.arg1 (go s))
  | .error _ s => s

/-! ### The Top (R359, R360) -/

/-- A post of a slot sent from a cluster's cores is not yet applied: on its way, or held to the quantum end (R332, R359). -/
def sentPost (s : State) (part slot cl : Nat) : Bool :=
  let mine := fun (q : Post) => q.part == part && q.slot == slot && clusterOf q.phys == cl
  s.posts.any mine || (allCores s).any (fun c => c.held.any (fun r => match r.2 with | .post q => mine q | _ => false))

/-- Whether a cluster is passive for a slot (R359). -/
def topPassive (s : State) (p : Partition) (d : Decl) (cl : Nat) : Bool :=
  let c := clusterAt s cl
  let k := slotStateOf c p.tag d
  !c.fold.any (eligible c p.tag d) && k.pending == 0 && k.live.isEmpty &&
    !sentPost s p.tag d.slot cl

/-- Quiescence (R359): the Top ends and the record is decremented, seen from the initiator. -/
def topEnds (p : Partition) (t : Top) (s : State) : State :=
  let cl := (ringOf p).headD 0
  let s := onPart p.tag (fun p => { p with tops := p.tops.filter (·.slot != t.slot) }) s
  sweepPart p.tag (runHw (hwDecrement p.tag t.launch cl ((coresIn p cl).headD (cl * 256)) t.det t.rcd) s)

/-- Change the Top of a slot. -/
def onTop (part slot : Nat) (f : Top → Top) (s : State) : State :=
  onPart part (fun p => { p with tops := modifyWhere (·.slot == slot) f p.tops }) s

/-- The holder, being passive, passes the token on, or the Top ends at the initiator (R359). -/
def topStep (p : Partition) (d : Decl) (t : Top) (s : State) : State :=
  let ring := ringOf p
  let i := ringIndex p t.holder
  let k := slotStateOf (clusterAt s t.holder) p.tag d
  let next := ring.getD ((i + 1) % ring.length) t.holder
  let white := onSlot t.holder p.tag d (fun k => { k with black := false })
  if ring.length ≤ 1 || (i = 0 && t.started && !t.black && !k.black) then topEnds p t s
  else if i = 0 && t.started then white (onTop p.tag t.slot (fun t => { t with holder := next, black := false }) s)
  else white (onTop p.tag t.slot (fun t => { t with holder := next, black := t.black || k.black, started := true }) s)

/-- A threshold of a slot is on its way to a store (R345). -/
def thrOnWay (s : State) (part slot : Nat) : Bool := s.thrs.any (fun t => t.1 == part && t.2.1 == slot)

/-- TOP_TOKEN_PASS (R359); not observed under the quantum rules (R360). A Top decision waits for the threshold writes of its
slot that are on their way (R345, R415). -/
def execTopTokenPass (part slot : Nat) (s : State) : Host.Outcome State Fault Refusal :=
  .next (match partAt s part with
    | none => s
    | some p =>
      if quantumRules p || thrOnWay s part slot then s
      else
        match p.tops.find? (·.slot == slot), declOf p slot with
        | some t, some d => if topPassive s p d t.holder then topStep p d t s else s
        | _, _ => s)

/-- The Tops of a partition at a quantum end (R360): a slot that is passive everywhere is quiescent, but not at the end
that applied its fquiet. -/
def topsAtEnd (p : Partition) (s : State) : State :=
  p.tops.foldl (fun s t =>
    match declOf p t.slot with
    | none => s
    | some d =>
      if t.ripe then (if (ringOf p).all (topPassive s p d) then topEnds p t s else s)
      else onTop p.tag t.slot (fun t => { t with ripe := true }) s) s

end Sys2Proof.Machine
end

