-- ==== Sys2Proof/Machine/Txn.lean ====
section
/-!
DEFINITION. Transactions: txb, txe, txa (R223, R226, R356).
-/

namespace Sys2Proof.Machine

/-- The frame of the transaction instructions: none runs in a helper. -/
def txnInfo (dests : List Reg) : InstrInfo := { len := 4, helper := false, dests := dests, txn := true }

/-- Open a transaction (R223): the checkpoint holds what an abort restores. -/
def openTxn (d : Reg) (s : State) : State :=
  let x := curCtx s
  let s := setReg d 0 s
  { s with core := { s.core with
      ctl := { s.core.ctl with status := s.core.ctl.status ||| 0x20 }
      txn := some { checkpoint := x, pc := x.pc, d := d, rd := [], wr := [], bytes := [], writes := [], posts := [] } } }

/-- txb (R223). -/
def execTxb (d : Reg) (s : State) : Host.Outcome State Fault Refusal :=
  runSeq (txnInfo [d]) (do
    let s ← get
    if s.core.txn.isSome then throw (.abort 9 0)
    if detMode s then trapAct 0x14 0
    destReady d
    modify (openTxn d)) s

/-- Apply one held post at its home; one that would be refused aborts the transaction (R356). -/
def commitPost (q : Post) : Act Unit := do
  match (partAt (← get) q.part).bind (fun p => (declOf p q.slot).map (fun d => (p, d))) with
  | none => throw (.abort 6 0x12)
  | some (p, d) =>
    if (← applyPost p d q.home q.key q.value false) = 3 then throw (.abort 6 0x12)

/-- Apply every held post, or none: a wait for a page leaves the stores as they were (R356). -/
def commitPosts (posts : List Post) : Act Unit := do
  let s0 ← get
  match ← attempt (posts.forM commitPost) with
  | .ok _ => pure ()
  | .error e =>
    modify (fun s => { s0 with funcs := s.funcs, hostWaits := s.hostWaits })
    throw e

/-- The held posts are ordered behind every earlier access of their context (R358) and behind its earlier posts to their homes that are
still on their way (R343). -/
def awaitPosts (ag : Agent) (posts : List Post) : Act Unit := do
  posts.forM (fun q => postOrder ag q.home false)
  let s ← get
  if posts.any (fun q => s.posts.any (fun k => k.phys == ag.phys && k.ctx == ag.ctx && k.home == q.home)) then stallAct

/-- txe (R226): what the context issued before the txb is performed first; the posts are judged, so that nothing takes effect if
one is refused, under the quantum rules to be applied at the quantum end; then the stores and atomics are performed in program
order, all in this one step. -/
def commitTxn : Act Unit := do
  let s ← get
  match s.core.txn with
  | none => trapAct 0x01 0
  | some t =>
    let ag := curAgent s
    performOwn ag
    awaitPosts ag t.posts
    t.writes.forM (awaitPend ag.phys)
    let before ← get
    commitPosts t.posts
    if underQuantum before then set (t.posts.foldl (fun s q => holdReq ag.phys (.post q) s) before)
    modify (fun s => { s with core := { s.core with txn := none, ctl := { s.core.ctl with status := s.core.ctl.status &&& ~~~0x20#64 } } })
    modify (fun s => sweepPart ag.part (t.writes.foldl (fun s q => performPend ag.phys q s) s))

/-- txe (R226). -/
def execTxe (s : State) : Host.Outcome State Fault Refusal := runSeq (txnInfo []) commitTxn s

/-- txa (R226): reason 4. -/
def execTxa (s : State) : Host.Outcome State Fault Refusal :=
  runJump (txnInfo []) (do
    if (← get).core.txn.isNone then trapAct 0x01 0
    throw (.abort 4 0)) s

end Sys2Proof.Machine
end

