-- ==== Sys2Proof/Machine/Arrive.lean ====
section
/-!
DEFINITION. Events of a core's own traffic: values that arrive (R63, R67), remote writes (R68 to R73), accesses performed
after their issue (R219, R259), evictions (R211, R261), proxy atomics of memory (R209), helpers started by hardware
(R329), overflow watches (R392).
-/

namespace Sys2Proof.Machine

/-! ### Values that arrive -/

/-- The place that a virtual address of a context names, if it may be read. -/
def placeOfVa (phys ctx : Nat) (va : Word) (s : State) : Option Place :=
  if va = 0 then none
  else
    match resolve (agentAt s phys ctx) .hw needR va 1 s with
    | .ok (p :: _) _ => some p.place
    | _ => none

/-- The line of a place is marked bad at its memory (R194, R195). -/
def markBad (p : Place) (s : State) : State :=
  if badAt s p then s
  else match p with
  | .mem pa => { s with badLines := s.badLines ++ [pa / 64] }
  | .ls phys part gid off => onCore phys (onAlloc part gid (fun a => { a with bad := a.bad ++ [off / 64] })) s

/-- A memory corrects an error: its counter of corrected errors advances, and nothing else changes (R193). -/
def countCorrected (m : MemUnit) (s : State) : State :=
  let n := ((s.corrected.find? (·.1 == m)).map Prod.snd).getD 0
  { s with corrected := (m, n + 1) :: s.corrected.filter (·.1 != m) }

/-- The value of an outstanding producer of a register arrives (R63), or an error is found in it (R67). -/
def arriveValue (reg : Reg) (bad : Bool) (x : Ctx) : Ctx :=
  match x.prods.find? (fun p => p.reg == reg && !p.failed) with
  | none => x
  | some p =>
    if bad || p.bad then { x with prods := x.prods.map (fun q => if q == p then { q with failed := true } else q) }
    else putReg reg p.value { x with prods := x.prods.filter (· != p) }

/-- The address of the data that an outstanding producer of a register will bring, if it is sound. -/
def soundData (reg : Reg) (x : Ctx) : Option Word := (x.prods.find? (fun p => p.reg == reg && !p.failed && !p.bad)).map Producer.addr

/-- LOAD_VALUE_ARRIVAL (R63, R67): `bad` says that this data is found uncorrectable as it arrives; its line is then marked
(R194). -/
def execLoadValueArrival (core ctx : Nat) (reg : Reg) (bad : Bool) (s : State) : Host.Outcome State Fault Refusal :=
  let found := if bad then (soundData reg (ctxOf (coreAt s core) ctx)).bind (fun va => placeOfVa core ctx va s) else none
  let s := onCtx core ctx (arriveValue reg bad) s
  .next (match found with | some p => markBad p s | none => s)

/-! ### Remote writes (R68 to R73) -/

/-- Whether a remote write to a register may be applied to a control context now; `older` holds the entries before it. -/
def remoteFits (x : Ctx) (n : Reg) (older : List InboxEntry) : Bool :=
  !x.pres.getLsbD n.val && !x.prods.any (fun p => p.reg == n && !p.failed) && !older.any (·.idx == n)

/-- A remote write is applied to a core: the register, and every mwait of the core completes (R68, R221). -/
def applyRemote (n : Reg) (v : Word) (c : Core) : Core :=
  let wake := fun (x : Ctx) => if x.await = .mwait then { x with await := .mwaitDone } else x
  { c with ctl := wake (putReg n v c.ctl), helpers := c.helpers.map wake }

/-- A context occupies a core that serves a partition (R73). -/
def occupied (tag : Nat) (c : Core) : Bool := c.part == some tag && c.run.isSome && c.ctl.live

/-- A remote write reaches a core that serves its partition: applied to the context that occupies it, or an inbox entry, of the
partition's own inbox if another one runs there (R68, R73, R433). -/
def landRemote (w : RemoteWrite) (c : Core) : Core :=
  if w.idx = 0 then c
  else if occupied w.part c && remoteFits c.ctl w.idx c.inbox then applyRemote w.idx w.value c
  else putInbox w.part (inboxOf c w.part ++ [⟨w.idx, w.value, w.src⟩]) c

/-- Whether a core serves a partition (R433). -/
def servesPart (c : Core) (tag : Nat) : Bool := c.part == some tag || c.serves.contains tag

/-- A remote write arrives at a core; one whose partition the core does not serve is discarded and recorded (R436). -/
def deliverRemote (phys : Nat) (w : RemoteWrite) (s : State) : State :=
  if servesPart (coreAt s phys) w.part then onCore phys (landRemote w) s
  else record (dieOf phys) 0x00A w.part phys (BitVec.ofNat 64 w.target) w.value s

/-- REMOTE_WRITE_ARRIVAL (R68): remote write n, after the earlier packets of its flow (R70, R445); while the target
changes it is held (R379), and under the quantum rules it is delivered at quantum ends (R72). -/
def execRemoteWriteArrival (n : Nat) (s : State) : Host.Outcome State Fault Refusal :=
  .next (match s.remotes[n]? with
    | none => s
    | some w =>
      if (partAt s w.part).any quantumRules || !flowTurn s w.part w.phys w.target w.seq then s
      else
        match (partAt s w.part).bind (fun p => p.ranks[w.target]?) with
        | none => { s with remotes := s.remotes.eraseIdx n }
        | some r =>
          if !r.valid || r.transit then s else deliverRemote r.phys w { s with remotes := s.remotes.eraseIdx n })

/-- INBOX_ENTRY_APPLY (R68, R73): entry n of the inbox of the partition a core runs, for the context that occupies it. -/
def execInboxEntryApply (core n : Nat) (s : State) : Host.Outcome State Fault Refusal :=
  .next (onCore core (fun c =>
    match c.inbox[n]? with
    | none => c
    | some e =>
      if (c.part.any (fun t => occupied t c)) && remoteFits c.ctl e.idx (c.inbox.take n) then applyRemote e.idx e.value { c with inbox := c.inbox.eraseIdx n } else c) s)

/-! ### Accesses performed after their issue (R219, R259) -/

/-- Whether two pending accesses lie in one line. -/
def sameLine (x y : PendAcc) : Bool := x.place.line == y.place.line

/-- Whether pending access n of a core may be performed now: after the earlier ones of its context to its line and the
first part of a crossing access, one to a device page after the earlier ones to device pages (R368), and while nothing holds it up
(R198, R259, R263, R379, R445). That stores to different bytes of one line keep their order is the model's choice (log entry 104). -/
def pendDue (s : State) (phys n : Nat) (q : PendAcc) : Bool :=
  !((coreAt s phys).pend.take n).any (fun k =>
    k.ctx == q.ctx && (sameLine k q || (q.tied && k.va == q.va) || (q.device && k.device))) && !q.blocked phys s

/-- ACCESS_PERFORMED (R219): an access waits while the host may hold its line (R442) and while its stash line is filled (R179). -/
def execAccessPerformed (core n : Nat) (s : State) : Host.Outcome State Fault Refusal :=
  .next (match (coreAt s core).pend[n]? with
    | none => s
    | some q =>
      if !pendDue s core n q then s
      else
        match awaitPend core q s with
        | .error _ s => s
        | .ok _ s => performPend core q (onCore core (fun c => { c with pend := c.pend.eraseIdx n }) s))

/-- CACHE_EVICTION (R261): a cluster's copy of a line is written back and dropped, unless a tile or a tracking record keeps it (R140,
R274) or a channel owns it (R263); from 64 on `cluster` names the die cache of a die, which loses the line (R183). -/
def execCacheEviction (cluster line : Nat) (s : State) : Host.Outcome State Fault Refusal :=
  .next (if 64 ≤ cluster then
      (if homeDie (line * 64) = cluster - 64 then { s with dieLines := s.dieLines.filter (·.1 != line) } else s)
    else if (lineAt s cluster line).isSome && evictable s cluster line then evictLine cluster line s
    else s)

/-- UPDATE_ONLY_EVICTION (R211): a core's update-only copy of a line is merged into its pending partial at the home. -/
def execUpdateOnlyEviction (core line : Nat) (s : State) : Host.Outcome State Fault Refusal :=
  let mine := (coreAt s core).upd.filter (·.pa / 64 == line)
  let s := onCore core (fun c => { c with upd := c.upd.filter (·.pa / 64 != line) }) s
  .next { s with partials := mine.foldl (fun l p => mergePartial p l) s.partials }

/-! ### Proxy atomics (R209) -/

/-- The first request of a lane of a die's control core that satisfies a test, with the others. -/
def takeProxy (s : State) (die : Fin 4) (test : ProxyReq → Bool) : Option (ProxyReq × List ProxyReq) :=
  let l := s.dies[die].proxies
  match (List.range l.length).find? (fun i => (l[i]?).any (fun q => test q && !(l.take i).any (·.lane == q.lane))) with
  | none => none
  | some i => takeNth i l

/-- Replace the requests of a die's control core. -/
def setProxies (die : Fin 4) (l : List ProxyReq) (s : State) : State :=
  { s with dies := s.dies.set die { s.dies[die] with proxies := l } }

/-- Answer the context of a proxy atomic. -/
def answerProxy (q : ProxyReq) (a : Await) (s : State) : State :=
  if q.returns then onCtx q.phys q.ctx (fun x => if x.await = .proxy then { x with await := a, stalled := false } else x) s else s

/-- The trap of a refused proxy atomic: precise at one that returns; at one that does not, its context has gone on, so that the trap
comes at the next instruction boundary, as R195 says of its machine error (DEDUCED, log entry 112). -/
def trapProxy (q : ProxyReq) (cause : BitVec 8) (eval einfo : Word) (s : State) : State :=
  if q.returns then answerProxy q (.proxyTrap cause eval einfo) s else deferTrap q.phys q.ctx ⟨cause, eval, einfo⟩ s

/-- Whether a request names a partition register block. -/
def ProxyReq.toRegs (q : ProxyReq) : Bool := match paKind q.pa with | .regs .. => true | _ => false

/-- Perform a proxy atomic on memory outside the device (R207, R209). -/
def serveProxy (q : ProxyReq) (s : State) : State :=
  let cl := clusterOf q.phys
  let s := dropLine cl (q.pa / 64) (recallStash cl (q.pa / 64) s)
  if s.badLines.contains (q.pa / 64) then
    trapProxy q 0x17 (q.va &&& ~~~0x3F#64) 0 s
  else
    let (old, s) := rmwAt q.phys q.part false (q.ctx == 0) false .sys q.op q.size q.v (.mem q.pa) s
    answerProxy q (.proxyDone old) s

/-! ### Helpers started by hardware (R329) -/

/-- Whether a request of a core may be started now: an arrival only while a task of the ring's group runs. -/
def helperStarts (c : Core) (q : HelperReq) : Bool :=
  match q.origin with
  | .arrival _ => c.run.any (fun r => r.part == q.part && r.gid == q.gid)
  | _ => true

/-- The highest-numbered free helper context. -/
def freeHelper (c : Core) : Option (Fin 10) := ((List.finRange 10).reverse).find? (fun h => !(c.helpers.get h).live)

/-- A completion-helper start of a copy channel has been made (R297, R300): a channel whose chain ends there is idle. -/
def completionMade (origin : HelperOrigin) (c : Core) : Core :=
  match origin with
  | .completion ch =>
    let k := { c.chans[ch] with hwait := none }
    { c with chans := c.chans.set ch (if k.state == .running && k.job.isNone && k.rcd = 0 then { k with state := .idle } else k) }
  | _ => c

/-- Start the first helper request of a core that may be started, if a context is free. -/
def startRequest (c : Core) : Option Core :=
  if c.run.isNone || !c.ctl.live || c.yield.isSome || c.resume.isSome then none
  else
    match freeHelper c, takeFirst (helperStarts c) c.hreqs with
    | some h, some (q, rest) => some (completionMade q.origin (startHelper h q.pc q.s1 q.s2 q.origin { c with hreqs := rest }))
    | _, _ => none

/-- HARDWARE_HELPER_START (R329); under the quantum rules helpers are started at quantum ends (R332). -/
def execHardwareHelperStart (core : Nat) (s : State) : Host.Outcome State Fault Refusal :=
  .next (if (partAt s (corePart (coreAt s core))).any quantumRules then s
    else match startRequest (coreAt s core) with
      | some c => setCore c s
      | none => s)

/-! ### Overflow watches (R392) -/

/-- The watch point of an overflow watch: the cluster cache of the core it left, or the home or banks. -/
def overflowHolds (s : State) (w : Watch) : Bool :=
  watchHolds w.kind w.arg (watchValue s (w.entry.phys.map clusterOf) w) || watchHolds w.kind w.arg (watchValue s none w)

/-- OVERFLOW_WATCH_SCAN (R392): the dispatcher evaluates a partition's overflow watches; those of deterministic tasks wait
for the quantum end (R393). -/
def execOverflowWatchScan (part : Nat) (s : State) : Host.Outcome State Fault Refusal :=
  .next (match partAt s part with
    | none => s
    | some p =>
      let hit := p.ovfWatches.filter (fun w => !w.entry.det && overflowHolds s w)
      let s := onPart part (fun p => { p with ovfWatches := p.ovfWatches.filter (fun w => !hit.contains w) }) s
      let s := hit.foldl (fun s w => readyContinuation w.entry s) s
      ((s.clusters.map Cluster.id).foldl (fun s cl => refillWatches cl s) s))

end Sys2Proof.Machine
end

