-- ==== Sys2Proof/Machine/Atomic.lean ====
section
/-!
DEFINITION. Atomics and reductions at memory (R205 to R211).
-/

namespace Sys2Proof.Machine

/-- The frame of an atomic. -/
def amoInfo (d : Reg) : InstrInfo := { len := 4, dests := [d], txn := true }

/-- The frame of a reduction. -/
def redInfo : InstrInfo := { len := 4 }

/-- Access width by the sz bit (R205). -/
def szBytes (sz : Bool) : Nat := if sz then 8 else 4

/-- An amo (R205): with d = s0 it returns nothing. One that is under way at a control core has read its operands (R209). -/
def amoBody (op : RmwOp) (d a b : Reg) (w sz : Bool) (scope : Scope) : Act Unit := do
  match ← proxyAnswer (curAgent (← get)) with
  | some old => modify (setReg d (rmwExt op (szBytes sz) old))
  | none =>
    let addr ← readS a w
    let v ← readS b w
    destReady d
    let old ← atomicAct (curAgent (← get)) scope op (szBytes sz) addr v (d != 0)
    modify (setReg d (rmwExt op (szBytes sz) old))

/-- A cas (R208): a, b and the expected value d, all under w; it always returns its old value. -/
def casBody (d a b : Reg) (w sz : Bool) (scope : Scope) : Act Unit := do
  match ← proxyAnswer (curAgent (← get)) with
  | some old => modify (setReg d (rmwExt (.cas 0) (szBytes sz) old))
  | none =>
    let addr ← readS a w
    let v ← readS b w
    let e ← readS d w
    destReady d
    let old ← atomicAct (curAgent (← get)) scope (.cas e) (szBytes sz) addr v true
    modify (setReg d (rmwExt (.cas e) (szBytes sz) old))

/-- A red (R211). -/
def redBody (op : RmwOp) (a b : Reg) (w sz ord : Bool) (scope : Scope) : Act Unit := do
  let addr ← readS a w
  let v ← readS b w
  redAct (curAgent (← get)) scope op (szBytes sz) ord addr v

/-- amo.add (R205, R206). -/
def execAmoAdd (d a b : Reg) (w sz : Bool) (scope : Scope) (s : State) : Host.Outcome State Fault Refusal :=
  runSeq (amoInfo d) (amoBody .add d a b w sz scope) s

/-- amo.and (R205, R206). -/
def execAmoAnd (d a b : Reg) (w sz : Bool) (scope : Scope) (s : State) : Host.Outcome State Fault Refusal :=
  runSeq (amoInfo d) (amoBody .and d a b w sz scope) s

/-- amo.or (R205, R206). -/
def execAmoOr (d a b : Reg) (w sz : Bool) (scope : Scope) (s : State) : Host.Outcome State Fault Refusal :=
  runSeq (amoInfo d) (amoBody .or d a b w sz scope) s

/-- amo.xor (R205, R206). -/
def execAmoXor (d a b : Reg) (w sz : Bool) (scope : Scope) (s : State) : Host.Outcome State Fault Refusal :=
  runSeq (amoInfo d) (amoBody .xor d a b w sz scope) s

/-- amo.min (R205, R206). -/
def execAmoMin (d a b : Reg) (w sz : Bool) (scope : Scope) (s : State) : Host.Outcome State Fault Refusal :=
  runSeq (amoInfo d) (amoBody .min d a b w sz scope) s

/-- amo.max (R205, R206). -/
def execAmoMax (d a b : Reg) (w sz : Bool) (scope : Scope) (s : State) : Host.Outcome State Fault Refusal :=
  runSeq (amoInfo d) (amoBody .max d a b w sz scope) s

/-- amo.minn (R205, R206). -/
def execAmoMinn (d a b : Reg) (w sz : Bool) (scope : Scope) (s : State) : Host.Outcome State Fault Refusal :=
  runSeq (amoInfo d) (amoBody .minn d a b w sz scope) s

/-- amo.maxn (R205, R206). -/
def execAmoMaxn (d a b : Reg) (w sz : Bool) (scope : Scope) (s : State) : Host.Outcome State Fault Refusal :=
  runSeq (amoInfo d) (amoBody .maxn d a b w sz scope) s

/-- amo.swap (R205, R206). -/
def execAmoSwap (d a b : Reg) (w sz : Bool) (scope : Scope) (s : State) : Host.Outcome State Fault Refusal :=
  runSeq (amoInfo d) (amoBody .swap d a b w sz scope) s

/-- amo.fadd (R205, R206). -/
def execAmoFadd (d a b : Reg) (w : Bool) (scope : Scope) (s : State) : Host.Outcome State Fault Refusal :=
  runSeq (amoInfo d) (amoBody .fadd d a b w false scope) s

/-- amo.fmin (R205, R206). -/
def execAmoFmin (d a b : Reg) (w : Bool) (scope : Scope) (s : State) : Host.Outcome State Fault Refusal :=
  runSeq (amoInfo d) (amoBody .fmin d a b w false scope) s

/-- amo.fmax (R205, R206). -/
def execAmoFmax (d a b : Reg) (w : Bool) (scope : Scope) (s : State) : Host.Outcome State Fault Refusal :=
  runSeq (amoInfo d) (amoBody .fmax d a b w false scope) s

/-- amo.badd (R205, R206). -/
def execAmoBadd (d a b : Reg) (w : Bool) (scope : Scope) (s : State) : Host.Outcome State Fault Refusal :=
  runSeq (amoInfo d) (amoBody .badd d a b w false scope) s

/-- cas (R208). -/
def execCas (d a b : Reg) (w sz : Bool) (scope : Scope) (s : State) : Host.Outcome State Fault Refusal :=
  runSeq (amoInfo d) (casBody d a b w sz scope) s

/-- red.add (R211). -/
def execRedAdd (a b : Reg) (w sz ord : Bool) (scope : Scope) (s : State) : Host.Outcome State Fault Refusal :=
  runSeq redInfo (redBody .add a b w sz ord scope) s

/-- red.and (R211). -/
def execRedAnd (a b : Reg) (w sz ord : Bool) (scope : Scope) (s : State) : Host.Outcome State Fault Refusal :=
  runSeq redInfo (redBody .and a b w sz ord scope) s

/-- red.or (R211). -/
def execRedOr (a b : Reg) (w sz ord : Bool) (scope : Scope) (s : State) : Host.Outcome State Fault Refusal :=
  runSeq redInfo (redBody .or a b w sz ord scope) s

/-- red.xor (R211). -/
def execRedXor (a b : Reg) (w sz ord : Bool) (scope : Scope) (s : State) : Host.Outcome State Fault Refusal :=
  runSeq redInfo (redBody .xor a b w sz ord scope) s

/-- red.min (R211). -/
def execRedMin (a b : Reg) (w sz ord : Bool) (scope : Scope) (s : State) : Host.Outcome State Fault Refusal :=
  runSeq redInfo (redBody .min a b w sz ord scope) s

/-- red.max (R211). -/
def execRedMax (a b : Reg) (w sz ord : Bool) (scope : Scope) (s : State) : Host.Outcome State Fault Refusal :=
  runSeq redInfo (redBody .max a b w sz ord scope) s

/-- red.minn (R211). -/
def execRedMinn (a b : Reg) (w sz ord : Bool) (scope : Scope) (s : State) : Host.Outcome State Fault Refusal :=
  runSeq redInfo (redBody .minn a b w sz ord scope) s

/-- red.maxn (R211). -/
def execRedMaxn (a b : Reg) (w sz ord : Bool) (scope : Scope) (s : State) : Host.Outcome State Fault Refusal :=
  runSeq redInfo (redBody .maxn a b w sz ord scope) s

/-- red.fadd (R211). -/
def execRedFadd (a b : Reg) (w ord : Bool) (scope : Scope) (s : State) : Host.Outcome State Fault Refusal :=
  runSeq redInfo (redBody .fadd a b w false ord scope) s

/-- red.fmin (R211). -/
def execRedFmin (a b : Reg) (w ord : Bool) (scope : Scope) (s : State) : Host.Outcome State Fault Refusal :=
  runSeq redInfo (redBody .fmin a b w false ord scope) s

/-- red.fmax (R211). -/
def execRedFmax (a b : Reg) (w ord : Bool) (scope : Scope) (s : State) : Host.Outcome State Fault Refusal :=
  runSeq redInfo (redBody .fmax a b w false ord scope) s

/-- red.badd (R211). -/
def execRedBadd (a b : Reg) (w ord : Bool) (scope : Scope) (s : State) : Host.Outcome State Fault Refusal :=
  runSeq redInfo (redBody .badd a b w false ord scope) s

end Sys2Proof.Machine
end

