-- ==== Sys2Proof/Machine/Work.lean ====
section
/-!
DEFINITION. Work that reaches cores: placement, taking and stealing (R319 to R322, R349), launches (R315, R316), watchdog,
slices and yields (R167, R330, R432), quanta and their ends (R72, R308, R332, R355, R360, R393, R398).
-/

namespace Sys2Proof.Machine

/-! ### Ready queues -/

/-- Remove entry i of a cluster's ready queue; what has room now comes back from the overflow area (R318). -/
def removeReady (cl i tag : Nat) (s : State) : State :=
  refillReady tag (((partAt s tag).map (fun p => p.ovfReady.length)).getD 0)
    (onCluster cl (fun c => { c with ready := c.ready.eraseIdx i }) s)

/-- The cores that an entry passed over 64 times reserves, each with the entry's priority (R319). -/
def reservedBy (p : Partition) (cl : Nat) (e : ReadyEntry) : List (Nat × Nat) :=
  if e.start != .fresh || e.passed < 64 then []
  else
    let whole := fun (b : Nat) => (List.range e.rcd.gsize).all (fun k => (physOf p (b + k)).any (fun x => clusterOf x == cl))
    match (basesIn p cl e.rcd).find? whole with
    | none => []
    | some b => (List.range e.rcd.gsize).filterMap (fun k => (physOf p (b + k)).map (fun x => (x, e.rcd.prio)))

/-- The cores that are barred from an entry of a priority. -/
def barred (blocked : List (Nat × Nat)) (prio : Nat) : List Nat := (blocked.filter (fun b => prio < b.2)).map (·.1)

/-- Whether a core is reserved, by an entry passed over 64 times in the queue of its cluster, against an entry of a priority
(R319). -/
def reservedFor (s : State) (p : Partition) (phys prio : Nat) : Bool :=
  (clusterAt s (clusterOf phys)).ready.any (fun e =>
    e.part == p.tag && (reservedBy p (clusterOf phys) e).any (fun b => b.1 == phys && prio < b.2))

/-- The base at which a fresh entry of a partition starts now in a cluster (R274, R319). -/
def freshBase (s : State) (p : Partition) (cl : Nat) (blocked : List (Nat × Nat)) (e : ReadyEntry) : Option Nat :=
  if e.part = p.tag && e.start == .fresh && (!e.det || reserveFree s cl) then placeBase s p cl (barred blocked e.rcd.prio) e.rcd
  else none

/-- The first entries of a queue that a test lets through: positions with what the test answers. -/
def scanQueue (p : Partition) (cl : Nat) (test : List (Nat × Nat) → ReadyEntry → Option Nat) :
    Nat → List (Nat × Nat) → List ReadyEntry → List (Nat × ReadyEntry × Nat)
  | _, _, [] => []
  | i, blocked, e :: rest =>
    let more := scanQueue p cl test (i + 1) (blocked ++ (if e.part = p.tag then reservedBy p cl e else [])) rest
    match test blocked e with
    | some b => (i, e, b) :: more
    | none => more

/-- The fresh entries among the first n of a queue that do not fit are passed over once more (R319). -/
def passOver (p : Partition) (cl n : Nat) (s : State) : State :=
  let fits := fun (e : ReadyEntry) => (freshBase s p cl [] e).isSome
  let pass := fun (e : ReadyEntry) =>
    if e.part = p.tag && e.start == .fresh && !fits e then { e with passed := min 64 (e.passed + 1) } else e
  onCluster cl (fun c => { c with ready := (c.ready.take n).map pass ++ c.ready.drop n }) s

/-- A core that a shrink will take away, which gets no new placement (R438). -/
def isLeaving (p : Partition) (phys : Nat) : Bool := p.shadow.any (fun h => h.leaving.contains phys)

/-! ### Taking work (R321, R322, R349) -/

/-- Whether a record that carries its allocation size finds room on a free core. -/
def roomFor (s : State) (p : Partition) (phys lsize : Nat) : Bool :=
  coreFree p.tag (coreAt s phys) && allocBytes (coreAt s phys) + lsize * 64 ≤ 0x20000

/-- A record whose group is yielded whole until the tick of a layout change (R437). -/
def heldByLayout (p : Partition) (e : ReadyEntry) : Bool :=
  p.shadow.any (fun h => !h.shrinking) && e.start != .fresh &&
    p.groups.any (fun g => g.gid == e.gid &&
      (List.range g.size).any (fun k => (p.ranks[g.base + k]?).any (·.transit)))

/-- Whether a continuation or resumed record may go on on a core (R319): one that a shrink will take away still gets those that
left it, so that it can become empty (R438; log entry 109). -/
def mayResume (s : State) (p : Partition) (phys : Nat) (e : ReadyEntry) : Bool :=
  e.part == p.tag && e.start != .fresh && !heldByLayout p e && !p.ranks.any (fun r => r.phys == phys && r.transit) && coreFree p.tag (coreAt s phys) &&
    !reservedFor s p phys e.rcd.prio &&
    (e.phys == some phys ||
      (!isLeaving p phys && e.rcd.movable && domainHas e.rcd.steal (e.phys.getD 0) phys && roomFor s p phys e.rcd.lsize &&
        (!e.det || clusterOf phys == clusterOf (e.phys.getD 0) || reserveFree s (clusterOf phys))))

/-- What the queue of a core's cluster lets it start (R319, R321): a fresh entry whose group includes it, or a record that
goes on there. -/
def takeBase (s : State) (p : Partition) (phys l : Nat) (blocked : List (Nat × Nat)) (e : ReadyEntry) : Option Nat :=
  if mayResume s p phys e then some l
  else (freshBase s p (clusterOf phys) blocked e).filter (fun b => b ≤ l && l < b + e.rcd.gsize)

/-- A record bound to the core it left. -/
def boundHere (phys : Nat) (e : ReadyEntry) : Bool := e.start != .fresh && e.phys == some phys && !e.rcd.movable

/-- The queue's candidate: the highest priority, at equal priority a bound record first (R321). -/
def queueCandidate (s : State) (p : Partition) (phys l : Nat) : Option (Nat × ReadyEntry × Nat) :=
  let cs := scanQueue p (clusterOf phys) (takeBase s p phys l) 0 [] (clusterAt s (clusterOf phys)).ready
  match cs with
  | [] => none
  | x :: _ => some ((cs.find? (fun y => y.2.1.rcd.prio == x.2.1.rcd.prio && boundHere phys y.2.1)).getD x)

/-- A record of a deque starts on a core of its own (R321, R322), its BASE if it names one (R313), which no entry of higher priority
has reserved (R319). -/
def forkFits (s : State) (p : Partition) (phys : Nat) (e : ReadyEntry) : Bool :=
  (e.rcd.base == 0 || physOf p (e.rcd.base - 1) == some phys) && roomFor s p phys e.rcd.lsize && (!e.det || reserveFree s (clusterOf phys)) && !reservedFor s p phys e.rcd.prio

/-- The newest entry of a core's deque that belongs to the partition it runs and to no other core (R313), if it may start there, with
the other entries (R321). -/
def ownNewest (s : State) (p : Partition) (phys : Nat) : Option (ReadyEntry × List ReadyEntry) :=
  let here := fun (e : ReadyEntry) => e.part == p.tag && (e.rcd.base == 0 || physOf p (e.rcd.base - 1) == some phys)
  match takeFirst here (coreAt s phys).deque.reverse with
  | some (e, rest) => if forkFits s p phys e then some (e, rest.reverse) else none
  | none => none

/-- The Fold Store's candidate, if an event task may start on a core now (R319, R349). -/
def foldFits (s : State) (p : Partition) (phys : Nat) : Option (Decl × FoldEntry) :=
  (candidate s p (clusterOf phys)).filter (fun x =>
    !isLeaving p phys && eventFits s p phys x.1 ((p.launches.find? (·.slot == x.1.launch)).any (·.det)) && !reservedFor s p phys x.1.prio)

/-! ### Placement by the dispatcher (R319) -/

/-- The cores of a cluster that have work of their own to take first (R321), with the lowest priority of a queue entry that
goes before it: a record bound to the core and the newest entry of its deque win at equal priority, an entry of the Fold
Store does not. -/
def claims (s : State) (p : Partition) (cl : Nat) : List (Nat × Nat) :=
  (coresIn p cl).flatMap (fun phys =>
    ((clusterAt s cl).ready.filter (fun e => boundHere phys e && mayResume s p phys e)).map (fun e => (phys, e.rcd.prio + 1)) ++
      ((ownNewest s p phys).map (fun x => (phys, x.1.rcd.prio + 1))).toList ++
      ((foldFits s p phys).map (fun x => (phys, x.1.prio))).toList)

/-- Place the first fresh entry of a partition that fits in a cluster; those before it that do not fit are passed over. -/
def placeFor (p : Partition) (cl : Nat) (s : State) : State :=
  let q := (clusterAt s cl).ready
  match scanQueue p cl (freshBase s p cl) 0 (claims s p cl) q with
  | (i, e, b) :: _ => startGroup cl b e (removeReady cl i p.tag (passOver p cl i s))
  | [] => passOver p cl q.length s

/-- GROUP_PLACEMENT (R319); under the quantum rules placements are made at quantum ends (R332). -/
def execGroupPlacement (cluster : Nat) (s : State) : Host.Outcome State Fault Refusal :=
  .next ((partsIn s cluster).foldl (fun s p => if quantumRules p then s else placeFor p cluster s) s)

/-! ### What a core takes -/

/-- Start the queue's candidate on a core; the entries before it that do not fit are passed over (R319). -/
def startQueued (p : Partition) (phys l : Nat) (x : Nat × ReadyEntry × Nat) (s : State) : State :=
  let s := removeReady (clusterOf phys) x.1 x.2.1.part (passOver p (clusterOf phys) x.1 s)
  if x.2.1.start = .fresh then startGroup (clusterOf phys) x.2.2 x.2.1 s else startResumed phys l x.2.1 s

/-- The logical cores of a partition in a level of R322 around a core, round-robin after the last victim. -/
def victimsAt (p : Partition) (phys level last : Nat) : List Nat :=
  let ls := (List.range p.ranks.length).filter (fun v => (physOf p v).any (fun x => x != phys && domainHas level phys x))
  ls.filter (last < ·) ++ ls.filter (· ≤ last)

/-- The oldest entry of a victim's deque that a thief may take (R322). -/
def stealFrom (s : State) (p : Partition) (phys victim : Nat) : Option (ReadyEntry × List ReadyEntry) :=
  takeFirst (fun e => e.part == p.tag && domainHas e.rcd.steal victim phys && forkFits s p phys e) (coreAt s victim).deque

/-- Steal for a core: the levels in order, from the first victim that has something (R322). -/
def steal (p : Partition) (phys l : Nat) (s : State) : Option State :=
  (List.finRange 4).findSome? (fun lv =>
    (victimsAt p phys lv.val ((coreAt s phys).victims.get lv)).findSome? (fun v =>
      (physOf p v).bind (fun vp =>
        (stealFrom s p phys vp).map (fun r =>
          let s := onCore vp (fun c => { c with deque := r.2 }) s
          let s := onCore phys (fun c => { c with victims := c.victims.set lv v }) s
          startGroup (clusterOf phys) l r.1 s))))

/-- The movable records of the other clusters' ready queues that a core may take, in ascending ring index from its own (R319). -/
def foreignRecords (s : State) (p : Partition) (phys : Nat) : List (Nat × Nat × ReadyEntry) :=
  ((ringFrom (ringOf p) (clusterOf phys)).drop 1).flatMap (fun cl =>
    let q := (clusterAt s cl).ready
    (List.range q.length).filterMap (fun i =>
      (q[i]?.filter (fun e => e.rcd.movable && 2 ≤ e.rcd.steal && mayResume s p phys e)).map (fun e => (cl, i, e))))

/-- Take the movable record of the highest priority from the ready queues of other clusters (R319). -/
def takeForeign (p : Partition) (phys l : Nat) (s : State) : Option State :=
  let xs := foreignRecords s p phys
  let top := (xs.map (fun x => x.2.2.rcd.prio)).foldl max 0
  (xs.find? (fun x => x.2.2.rcd.prio == top)).map (fun x => startResumed phys l x.2.2 (removeReady x.1 x.2.1 p.tag s))

/-- A core's control context takes its next work (R321, R322, R349). -/
def takeFor (phys : Nat) (s : State) : State :=
  let c := coreAt s phys
  match partAt s (corePart c) with
  | none => s
  | some p =>
    match lcoreOf p phys with
    | none => s
    | some l =>
      if !coreFree p.tag c || (p.ranks[l]?).any (·.transit) || (clusterAt s (clusterOf phys)).retained then s
      else
        let q := queueCandidate s p phys l
        let d := ownNewest s p phys
        let f := foldFits s p phys
        let qp : Nat := (q.map (fun x => 4 * x.2.1.rcd.prio + (if boundHere phys x.2.1 then 4 else 2))).getD 0
        let dp : Nat := (d.map (fun x => 4 * x.1.rcd.prio + 3)).getD 0
        let fp : Nat := (f.map (fun x => 4 * x.1.prio + 1)).getD 0
        if qp = 0 && dp = 0 && fp = 0 then
          (if isLeaving p phys then s else ((steal p phys l s) <|> (takeForeign p phys l s)).getD s)
        else if dp ≤ qp && fp ≤ qp then (q.map (fun x => startQueued p phys l x s)).getD s
        else if fp ≤ dp then
          (d.map (fun x => startGroup (clusterOf phys) l x.1 (onCore phys (fun c => { c with deque := x.2 }) s))).getD s
        else (f.map (fun x => startEvent p phys x.1 x.2 s)).getD s

/-- TAKE_WORK (R321); under the quantum rules work is taken at quantum ends (R332). -/
def execTakeWork (core : Nat) (s : State) : Host.Outcome State Fault Refusal :=
  .next (if (partAt s (corePart (coreAt s core))).any quantumRules then s else takeFor core s)

/-! ### Launches (R315, R316) -/

/-- The first reason for which a launch record is rejected before its root record is read (R316). -/
def launchReason (tag : Nat) (b : List Byte) : Option Nat :=
  if slice b 0 4 != [0x50, 0x4C, 0x49, 0x4C] then some 1
  else if leNat (slice b 4 4) != 1 || leNat (slice b 24 8) / 64 != 0 || leNat (slice b 16 8) % 8 != 0 then some 2
  else if leNat (slice b 24 8) % 64 != tag then some 3
  else none

/-- Clear the arm byte of a slot, which may be parsed again (R315, R317). -/
def disarm (tag slot : Nat) (s : State) : State :=
  homeWrite [(slotPa tag slot + 63, 0)] (onPart tag (fun p => { p with parsed := p.parsed.filter (· != slot) }) s)

/-- Complete a rejected launch at once (R316, R317); while its completion word waits for a page the rejection is kept as work, and
the slot counts as parsed. -/
def rejectLaunch (tag slot reason : Nat) (done : Word) (phys : Nat) (s : State) : State :=
  let clear := fun (s : State) => disarm tag slot (record 4 0x008 tag 0x3FFF (BitVec.ofNat 64 slot) (BitVec.ofNat 64 reason) s)
  let lost := fun (s : State) => clear (record 4 0x00C tag 0x3FFF done (BitVec.ofNat 64 slot) s)
  if done.toNat % 8 ≠ 0 then lost s
  else
    match writeDone phys tag done (completionWord true ⟨slot, 0, 0, reason, done, false⟩) s with
    | .ok _ s => clear s
    | .error (.stall _) s => { s with hwork := s.hwork ++ [.reject tag slot reason done] }
    | .error _ s => lost s

/-- The root record of a launch and the reasons that rest on it (R316): a partition whose core is being replaced is neither
released nor resized. -/
def rootRecord (p : Partition) (phys : Nat) (root : Word) : Act (Except Nat TaskRec) := do
  match ← attempt (readRecord (hwAgent phys p.tag 1) .hw root) with
  | .error (.stall x) => stallAct x
  | .error _ => return .error 4
  | .ok b =>
    let r := parseTask b
    if !taskOk p (taskReservedOk b) r || r.kind ≠ 0 || r.count ≠ 0 then return .error 5
    else if !(ringOf p).any (fun cl => canHold p cl r.gsize) then return .error 6
    else if p.state ≠ 1 && !(p.state = 2 && p.shadow.any (·.replace)) then return .error 7
    else return .ok r

/-- The lowest-numbered cluster of a partition, whose dispatcher watches the launch window (R315). -/
def dispatchCluster (p : Partition) : Nat := (ringOf p).foldl min ((ringOf p).headD 0)

/-- The core for which the dispatcher of a partition accesses memory. -/
def dispatchCore (p : Partition) : Nat := (coresIn p (dispatchCluster p)).headD (dispatchCluster p * 256)

/-- Judge the bytes that a parse has read from a slot (R316); while the root record waits for a page they are kept as work. -/
def judgeSlot (p : Partition) (slot : Nat) (b : List Byte) (s : State) : State :=
  let done := wordAt b 16
  let phys := dispatchCore p
  match launchReason p.tag b with
  | some r => rejectLaunch p.tag slot r done phys s
  | none =>
    match rootRecord p phys (wordAt b 8) s with
    | .error _ s => { s with hwork := s.hwork ++ [.parse p.tag slot b] }
    | .ok (.error r) s => rejectLaunch p.tag slot r done phys s
    | .ok (.ok r) s =>
      let s := onPart p.tag (fun p => { p with launches := p.launches ++ [⟨slot, 0, 0, 0, done, r.det⟩] }) s
      sweepPart p.tag (runHw (readyRec (dispatchCluster p) phys graphFuel (freshEntry r (wordAt b 8) p.tag slot (p.det || r.det) none)) s)

/-- Parse an armed slot: its whole line is read once, and it is not parsed again until its arm byte is cleared (R315). -/
def parseSlot (p : Partition) (slot : Nat) (s : State) : State :=
  judgeSlot p slot (memRead s.mem (slotPa p.tag slot) 64) (onPart p.tag (fun p => { p with parsed := p.parsed ++ [slot] }) s)

/-- The partition that work of the scheduler belongs to. -/
def HwWork.part : HwWork → Nat
  | .decrement part .. => part
  | .target part .. => part
  | .complete part _ => part
  | .parse part .. => part
  | .reject part .. => part
  | .release part => part

/-- Do work of the scheduler again that had to wait; a completion that releases slots waits for the quantum end where the
quantum rules apply (R355). What a release waits for is seen to by the release itself. -/
def redoWork (w : HwWork) (s : State) : State :=
  match w with
  | .decrement part launch cl phys det addr => runHw (hwDecrement part launch cl phys det addr) s
  | .target part launch cl phys det addr => runHw (readyTarget part launch cl phys det addr) s
  | .complete part slot =>
    match (partAt s part).bind (fun p => (p.launches.find? (·.slot == slot)).map (fun l => (p, l))) with
    | some (p, l) => if quantumRules p && hasSlots p l then s else runHw (completeLaunch part false l) s
    | none => s
  | .parse part slot b =>
    match partAt s part with
    | some p => judgeSlot p slot b s
    | none => s
  | .reject part slot reason done =>
    match partAt s part with
    | some p => rejectLaunch part slot reason done (dispatchCore p) s
    | none => s
  | .release part => { s with hwork := s.hwork ++ [.release part] }

/-- The groups of a partition that have no member running and no continuation left exit, and its launches that are done complete: what
a refusal for want of overflow room has left (R33, R317, R318). -/
def sweepGroups (tag : Nat) (s : State) : State :=
  match partAt s tag with
  | none => s
  | some p =>
    sweepPart tag ((p.groups.filter (fun g => g.running.isEmpty && g.conts == 0)).foldl (fun s g =>
      exitGroup tag ((memberCores s tag g).headD 1) (p.det || p.launches.any (fun l => l.slot == g.launch && l.det)) g s) s)

/-- The dispatcher looks again at the work of partitions that waits (R371). -/
def redoAll (tags : List Nat) (s : State) : State :=
  let mine := s.hwork.filter (fun w => tags.contains w.part)
  let s := { s with hwork := s.hwork.filter (fun w => !tags.contains w.part) }
  tags.foldl (fun s t => sweepGroups t s) (mine.foldl (fun s w => redoWork w s) s)

/-- LAUNCH_PARSE (R315): the dispatcher of a partition looks again at what waits, then at the lowest armed slot that is not parsed. -/
def execLaunchParse (part : Nat) (s : State) : Host.Outcome State Fault Refusal :=
  let s := redoAll [part] s
  .next (match partAt s part with
    | none => s
    | some p =>
      match (List.range 64).find? (fun n => !p.parsed.contains n && memGet s.mem (slotPa part n + 63) != 0) with
      | none => s
      | some n => parseSlot p n s)

/-! ### Watchdog and slices (R330, R432) -/

/-- A handler executes instructions on a core. -/
def handlerRuns (c : Core) : Bool := (List.range 11).any (fun i => (ctxOf c i).live && privOf (ctxOf c i).status != 0 && !(ctxOf c i).stalled)

/-- WATCHDOG_EXPIRY (R330): WDOG is zero and the core forces a yield, not during a resumption (R166). An expiry that a handler's own
instructions set off finds no yield to be taken, and the task fails (R167; log entry 50). -/
def execWatchdogExpiry (core : Nat) (s : State) : Host.Outcome State Fault Refusal :=
  let c := coreAt s core
  .next (if c.run.isNone || c.wdog ≠ 0 || c.resume.isSome then s
    else if c.yield.any (·.expired) then tryYield core s
    else if handlerRuns c then failTask core 0x20 s
    else tryYield core (onCore core (fun c => { c with yield := c.yield.map (fun y => { y with expired := true }) }) (beginYield core s)))

/-- Step 2 of R167 still waits on a core. -/
def yieldWaits (c : Core) : Bool := (List.range 11).any (fun i => runsInYield (ctxOf c i))

/-- YIELD_WAIT_LIMIT (R167): 65,536 cycles have passed and step 2 is not over. -/
def execYieldWaitLimit (core : Nat) (s : State) : Host.Outcome State Fault Refusal :=
  let c := coreAt s core
  .next (if c.yield.any (fun y => 65536 ≤ y.waited) && yieldWaits c then failTask core 0x20 s else s)

/-- A new quantum of a core begins (R332, R388): QNT is QLEN, or 0 where the quantum rules no longer apply. -/
def newQuantum (p : Partition) (c : Core) : Core :=
  let wake := fun (x : Ctx) => { x with stalled := false, party := false }
  { c with
    qnt := if quantumRules p then p.qlen.toNat else 0
    atBarrier := false, rwrs := 0, ctl := wake c.ctl, helpers := c.helpers.map wake }

/-- The partition that takes a core after the one that it runs: the next in their fixed rotation (R432). -/
def nextServed (c : Core) : Option Nat :=
  match c.part with
  | none => c.serves.head?
  | some t =>
    match c.serves.findIdx? (· == t) with
    | none => c.serves.head?
    | some i => c.serves[(i + 1) % c.serves.length]?

/-- The length of the slices of a partition on a shared core, in ns (R432). -/
def sliceLen (s : State) (tag phys : Nat) : Option Nat :=
  (partAt s tag).bind (fun p => (p.shares.find? (·.1 == phys)).map (·.2))

/-- The slice of the partition that runs on a core is over; a core without a partition takes the next one at once. -/
def sliceOver (s : State) (c : Core) : Bool :=
  match c.part with
  | none => true
  | some t => (sliceLen s t c.phys).any (fun n => decide (c.sliceFrom + n ≤ s.time))

/-- A core between two partitions (R432): its accesses are performed, its stash lines and L1 go, the inbox is set aside,
and it takes the next partition's tag and inbox. -/
def switchPart (phys : Nat) (s : State) : State :=
  let s := performAll phys s
  let s := (coreAt s phys).stashLines.foldl (fun s l => stashWriteBack phys l true s) s
  onCore phys (fun c =>
    let c := match c.part with
      | some t => { c with setAside := (t, c.inbox) :: c.setAside.filter (·.1 != t) }
      | none => c
    let next := (c.slice.bind (fun t => (c.setAside.find? (·.1 == t)).map (·.2))).getD []
    let c := { c with
      l1d := [], icache := [], part := c.slice, inbox := next, grace := none, slice := none, sliceFrom := s.time
      setAside := c.setAside.filter (fun x => c.slice != some x.1) }
    match c.part.bind (partAt s) with
    | some p => newQuantum p c
    | none => c) s

/-- SLICE_END (R330, R432): the slice of the partition a core runs ends, and the grace period begins; `next`, the
partition that takes the core, is the next one in the core's rotation. -/
def execSliceEnd (core : Nat) (next : Option Nat) (s : State) : Host.Outcome State Fault Refusal :=
  let c := coreAt s core
  .next (if next ≠ nextServed c || next = c.part || c.grace.isSome || !sliceOver s c then s
    else
      let g := ((partAt s (corePart c)).map (fun p => p.grace.toNat)).getD 0
      onCore core (fun c => { c with grace := some g, slice := next }) s)

/-- GRACE_EXPIRY (R330): the grace period has passed and a running task is forced to yield; once no task runs, the core
takes the next partition (R432), after accesses that a channel or a packet holds up. -/
def execGraceExpiry (core : Nat) (s : State) : Host.Outcome State Fault Refusal :=
  let c := coreAt s core
  .next (match c.grace with
    | none => s
    | some g =>
      if c.run.isNone && c.resume.isNone then (if c.pend.any (·.blocked core s) then s else switchPart core s)
      else if g = 0 && c.resume.isNone then tryYield core (beginYield core s)
      else s)

/-! ### Quanta (R332) -/

/-- QNT_EXPIRY (R388): QNT is zero and a core under the quantum rules arrives at the barrier. -/
def execQntExpiry (core : Nat) (s : State) : Host.Outcome State Fault Refusal :=
  let c := coreAt s core
  .next (if (partAt s (corePart c)).any quantumRules && c.qnt = 0 then onCore core (fun c => { c with atBarrier := true }) s else s)

/-- A core whose live contexts all wait on other parties, with nothing of its own under way (R332). -/
def coreIdle (c : Core) : Bool :=
  !c.ctl.live ||
    ((List.range 11).all (fun i =>
        let x := ctxOf c i
        !x.live || (x.stalled && x.party && x.prods.all (·.failed))) &&
      c.mxq.all (·.held) && !c.vxq.any (·.passed) && c.chans.all (·.state != .running) && c.resume.isNone && c.yield.isNone)

/-- A context still makes the reads of a Fold Store instruction that it stands at: fdecl's of its record, fpostv's of its elements
(R355). A wait for a register comes before them. -/
def readsForFold (x : Ctx) : Bool :=
  x.live && x.await != .quantum && !(x.party && (match x.await with | .page .. => false | _ => true)) &&
    (match x.standing with
    | some (_, .fdecl ..) => true
    | some (_, .fpostv ..) => true
    | _ => false)

/-- A core has arrived at the barrier (R332): not before the reads of a Fold Store instruction have been made (R355). -/
def coreArrived (c : Core) : Bool :=
  (c.atBarrier || coreIdle c) && !(List.range 11).any (fun i => readsForFold (ctxOf c i))

/-- The cores that run a partition now, in ascending logical order. -/
def coresInOrder (s : State) (p : Partition) : List (Nat × Nat) :=
  (List.range p.ranks.length).filterMap (fun l =>
    (physOf p l).bind (fun x => if (coreAt s x).part = some p.tag then some (l, x) else none))

/-- The task of an entry fails away from any core (R163, R320, R398): its launch counts it, its group ends. -/
def failEntry (e : ReadyEntry) (cause : Nat) (s : State) : State :=
  let s := record 4 0x001 e.part 0x3FFF e.addr (BitVec.ofNat 64 cause) s
  let s := onPart e.part (fun p => { p with failures := p.failures + 1 }) s
  let s := popDown e.part e.launch (launchFails e.part e.launch cause 1 s)
  let s := match e.event with
    | some (slot, idx) => freeIndex (clusterOf (e.phys.getD 0)) e.part slot idx s
    | none => s
  let s := if e.start = .fresh then s
    else failGroup e.part e.gid (onGroup e.part e.gid (fun g => { g with conts := g.conts - 1 }) s)
  sweepPart e.part s

/-- An arrival at a barrier word at the quantum end (R398): a word that has become invalid fails the continuation; an
advance empties the group's tracking records; the continuations are readied with the watches. -/
def arriveAtEnd (phys : Nat) (cacheable : Bool) (w : Watch) (s : State) : State :=
  let gsize := ((groupAt s w.entry.part w.entry.gid).map Group.size).getD 1
  let s := readAt phys w.entry.part true cacheable w.place s
  let v := leNat (placeBytes s phys cacheable w.place 8)
  if gsize < barRemaining v gsize then failEntry w.entry 0x09 s
  else
    let s := storeAt phys w.entry.part false true cacheable w.place (leBytes 8 (barNext v gsize)) s
    let s := if barRemaining v gsize = 1 then onGroup w.entry.part w.entry.gid (fun g => { g with tracks := [] }) s else s
    installWatch phys { w with arg := BitVec.ofNat 32 (v / 2 ^ 32) } s

/-- The context that a number names: none for the control context. -/
def ctxRef (i : Nat) : Option (Fin 10) := if h : 0 < i ∧ i ≤ 10 then some ⟨i - 1, by omega⟩ else none

/-- A stop at the quantum end (R355): a trap whose entry must wait goes on when its context issues next. -/
def trapAtEnd (e : Stop) (s : State) : State :=
  halt e (onCur (fun x => { x with await := .nothing, stalled := false, party := false }) s)

/-- Work done at the quantum end: true if it is done; if it must wait for a page, nothing of it but the request is. -/
def orWait (before : State) (x : Bool × State) : Bool × State :=
  if x.1 && x.2.hwork.length ≤ before.hwork.length then x
  else (false, { before with funcs := x.2.funcs, hostWaits := x.2.hostWaits })

/-- Perform a Fold Store instruction that a context stands at, at the quantum end (R355). -/
def foldAtEnd (phys ctx : Nat) (op : FoldOp) (s : State) : Bool × State :=
  if (ctxOf (coreAt s phys) ctx).await ≠ .quantum then (true, s)
  else
    let here := s.core.phys
    let f := focusOn phys s
    let cur := f.core.cur
    let f := { f with core := { f.core with cur := ctxRef ctx } }
    let back := fun (s : State) => focusOn here (onCore phys (fun c => { c with cur := if c.run.isSome then cur else c.cur }) s)
    match (do foldPerform true op; advance 4 : Act Unit) f with
    | .ok _ t => (true, back (retire { len := 4 } t))
    | .error (.stall _) t => (false, t)
    | .error e t => (true, back (trapAtEnd e t))

/-- A decrement applied at the quantum end (R326, R327): what R329 refuses is recorded and fails the launch. -/
def decrementAtEnd (part launch cl phys : Nat) (det : Bool) (addr : Word) (amount : Nat) : Act Unit := do
  match partAt (← get) part with
  | none => pure ()
  | some p =>
    let ag := hwAgent phys part
    match ← attempt (readRecord ag .hw addr) with
    | .error (.stall x) => stallAct x
    | .error _ => modify (hardwareRefused part launch 0x09 addr)
    | .ok b =>
      let r := parseTask b
      if !taskOk p (taskReservedOk b) r || r.kind = 1 || r.kind = 5 then modify (hardwareRefused part launch 0x0C addr)
      else
        match ← attempt (decrement ag .hw launch cl det none addr amount) with
        | .ok true => pure ()
        | .error (.stall x) => stallAct x
        | _ => modify (hardwareRefused part launch 0x09 addr)

/-- The answer of an act at the quantum end. -/
def actAtEnd (a : Act Unit) (s : State) : Bool × State :=
  match a s with
  | .ok _ s => (true, s)
  | .error (.stall _) s => (false, s)
  | .error _ s => (true, s)

/-- A post applied at the quantum end (R343): one that was on its way or held in a transaction. -/
def postAtEndOf (q : Post) (s : State) : Bool × State :=
  let answer := fun (st : Nat) (s : State) =>
    { s with answers := s.answers ++ (q.answer.map (fun r => ⟨q.part, q.phys, q.ctx, r, BitVec.ofNat 64 st⟩)).toList }
  match (partAt s q.part).bind (fun p => (declOf p q.slot).map (fun d => (p, d))) with
  | none => (true, answer 3 s)
  | some (p, d) =>
    match applyPost p d q.home q.key q.value false s with
    | .ok st s => (true, answer st s)
    | .error (.stall _) s => (false, s)
    | .error _ s => (true, answer 3 s)

/-- Deliver the remote writes that wait, in their order: one whose target has no inbox entry free, or changes its place,
waits, and so do the later ones to that target (R70, R72, R379). -/
def deliverAll (part : Nat) : List RemoteWrite → List Nat → State → State
  | [], _, s => s
  | w :: rest, blocked, s =>
    let keep := fun (s : State) => { s with remotes := s.remotes ++ [w] }
    if w.part ≠ part then deliverAll part rest blocked (keep s)
    else if blocked.contains w.target then deliverAll part rest blocked (keep s)
    else
      match (partAt s part).bind (fun p => p.ranks[w.target]?) with
      | none => deliverAll part rest blocked s
      | some r =>
        let c := coreAt s r.phys
        let fits := (occupied part c && remoteFits c.ctl w.idx c.inbox) || (inboxOf c part).length < 8
        if r.valid && !r.transit && (fits || w.idx == 0) then deliverAll part rest blocked (deliverRemote r.phys w s)
        else deliverAll part rest (w.target :: blocked) (keep s)

/-- The messages of a partition on their way that may be placed are placed or refused, with their answers (R308); one to a target
that changes its place, or behind an earlier packet of its flow, stays on its way (R379, R445). -/
def landMessages (part : Nat) : Nat → State → State
  | 0, s => s
  | fuel + 1, s =>
    match takeFirst (fun m => m.part == part && (messageDue s m).isSome) s.msgs with
    | none => s
    | some (m, rest) =>
      match messageDue s m with
      | none => s
      | some phys =>
        let (st, s) := placeMessage phys m { s with msgs := rest }
        landMessages part fuel (answerSender m.phys m.ctx st s)

/-- The remote writes of a partition that wait are delivered as far as they can be. -/
def landRemotes (part : Nat) (s : State) : State := { s with remotes := [] } |> deliverAll part s.remotes []

/-- Whether the completion of a core's round on a tree is known: it completes, or the tree has failed. -/
def roundKnown (s : State) (part lcore tree : Nat) : Bool :=
  match partAt s part with
  | none => true
  | some p =>
    match treeAt p tree, p.contribs.find? (fun c => c.tree == tree && c.lcore == lcore) with
    | some t, some c =>
      p.contribs.any (fun k => k.tree == tree && k.round == c.round && !k.agrees c) || (roundResult p t c.round).isSome
    | _, _ => true

/-- A core's round on a tree completes at the quantum end; a line of its vector that a channel owns or the host may hold is waited for
(R263, R442). -/
def roundAtEnd (part lcore phys tree : Nat) (s : State) : Bool × State :=
  match (partAt s part).bind (fun p => p.contribs.find? (fun c => c.tree == tree && c.lcore == lcore)) with
  | none => (true, s)
  | some c => if deliveryWaits s part phys c then (false, askHosts c s) else (true, completeRound part lcore tree s)

/-- An arrival at a barrier word on a page that is not cached is written at the home, which waits for the host (R442). -/
def awaitArrival (cacheable : Bool) (w : Watch) : Act Unit :=
  match w.place with
  | .mem pa => if cacheable then pure () else awaitHost (pa / 64)
  | .ls .. => pure ()

/-- Apply one held request of a core (R332). -/
def applyHeld (part lcore phys : Nat) (q : HeldReq) (s : State) : Bool × State :=
  let cl := clusterOf phys
  match q with
  | .ready e => if e.start = .fresh then actAtEnd (readyRec cl phys graphFuel e) s else (true, readyContinuation e s)
  | .push e => actAtEnd (pushEntry phys e) s
  | .tdec launch det addr amount => actAtEnd (decrementAtEnd part launch cl phys det addr amount) s
  | .fold ctx op => foldAtEnd phys ctx op s
  | .rwr w => (true, landRemotes part (sendRemote w s))
  | .msg m => (true, landMessages part (s.msgs.length + 1) (sendMsg m s))
  | .mtake i n => (true, consume phys i n s)
  | .nred t => roundAtEnd part lcore phys t s
  | .post k => postAtEndOf k s
  | .eventEnd slot idx => (true, freeIndex cl part slot idx s)
  | .setReg n v => (true, putPartReg part n v s)
  | .arrive cacheable w => actAtEnd (do awaitArrival cacheable w; modify (arriveAtEnd phys cacheable w)) s
  | .quota c k => (true, onCluster c (fun c => { c with quotas := putBy (·.1) (part, k) c.quotas }) s)
  | .watch w => (true, installWatch phys w s)

/-- A request of a partition that a quantum end can apply: a tree round still open stays held, and one whose core is being replaced
(R379). -/
def heldDue (s : State) (part lcore phys : Nat) (takes : Bool) (q : Nat × HeldReq) : Bool :=
  q.1 == part &&
    (match q.2 with
    | .mtake .. => takes
    | .nred t => !takes && roundKnown s part lcore t && !inTransit s part phys
    | _ => !takes)

/-- The cores of a partition with their logical numbers, whatever they run now. -/
def ranked (p : Partition) : List (Nat × Nat) :=
  (List.range p.ranks.length).filterMap (fun l => (physOf p l).map (fun x => (l, x)))

/-- The next request: consumes first (R308), then in ascending logical-core order, in issue order within a core. -/
def nextHeld (s : State) (p : Partition) : Option (Nat × Nat × Nat) :=
  let at_ := fun (takes : Bool) => (ranked p).findSome? (fun x =>
    let l := (coreAt s x.2).held
    ((List.range l.length).find? (fun i => (l[i]?).any (heldDue s p.tag x.1 x.2 takes))).map (fun i => (x.1, x.2, i)))
  (at_ true) <|> (at_ false)

/-- Apply the held requests of a partition one by one: true when none is left that can be applied. -/
def applyAll (part : Nat) : Nat → State → Bool × State
  | 0, s => (false, s)
  | fuel + 1, s =>
    match (partAt s part).bind (nextHeld s) with
    | none => (true, s)
    | some (l, phys, i) =>
      match takeNth i (coreAt s phys).held with
      | none => (true, s)
      | some (q, rest) =>
        let go := fun (s : State) => applyHeld part l phys q.2 (onCore phys (fun c => { c with held := rest }) s)
        match orWait s (go s) with
        | (true, s) => applyAll part fuel s
        | r => r

/-- An access to a peer that is held up for as long as the peer changes or a packet before it is on its way: the quantum ends without it
(R379, R445). -/
def heldUp (phys : Nat) (q : PendAcc) (s : State) : Bool :=
  match q.place with
  | .ls .. => q.blocked phys s
  | .mem _ => false

/-- Perform every access issued in the quantum (R393): true if none has to wait (R179, R263, R442). -/
def performIssued (p : Partition) (s : State) : Bool × State :=
  let all := ((coresInOrder s p).map (·.2)).flatMap (fun x => ((coreAt s x).pend.filter (fun q => !heldUp x q s)).map (fun q => (x, q)))
  match (all.forM (fun x => awaitPend x.1 x.2) : Act Unit) s with
  | .error _ s => (false, s)
  | .ok _ s => (true, ((coresInOrder s p).map (·.2)).foldl (fun s x => performAll x s) s)

/-- Posts that were on their way when the quantum rules began to apply. -/
def landPosts (part : Nat) : Nat → State → Bool × State
  | 0, s => (false, s)
  | fuel + 1, s =>
    match takeFirst (fun (q : Post) => q.part == part) s.posts with
    | none => (true, s)
    | some (q, rest) =>
      match orWait s (postAtEndOf q { s with posts := rest }) with
      | (true, s) => landPosts part fuel s
      | r => r

/-- Threshold writes that were on their way when the quantum rules began to apply (R355). -/
def landThresholds (part : Nat) : Nat → State → State
  | 0, s => s
  | fuel + 1, s =>
    match s.thrs.findIdx? (·.1 == part) with
    | none => s
    | some n =>
      match s.thrs[n]? with
      | none => s
      | some t => landThresholds part fuel (landThreshold n t s)

/-- Start the helpers that a core's requests ask for (R329, R332). -/
def startHelpers (phys : Nat) : Nat → State → State
  | 0, s => s
  | fuel + 1, s =>
    match startRequest (coreAt s phys) with
    | some c => startHelpers phys fuel (setCore c s)
    | none => s

/-- Replay of every store at a quantum end (R348): true if no record waits for a page. -/
def replayAll (p : Partition) (s : State) : Bool × State :=
  let ready : Act Bool := (ringOf p).foldlM (fun ok cl => do
    p.decls.foldlM (fun ok d => do return (← spillReady p d cl) && ok) ok) true
  match ready s with
  | .ok true s => (true, (ringOf p).foldl (fun s cl => replayStore p.tag cl s) s)
  | .ok false s => (false, s)
  | .error _ s => (false, s)

/-- Evaluate the watches of deterministic tasks at both their points (R391, R393): satisfied continuations are readied in ascending order of the
logical core they left. -/
def watchesAtEnd (p : Partition) (s : State) : State :=
  let mine := fun (w : Watch) => w.entry.det && w.entry.part == p.tag
  let inTable := s.clusters.flatMap (fun c =>
    c.watches.filter (fun w => mine w && (match w.place with
      | .mem _ => watchHolds w.kind w.arg (watchValue s (some c.id) w) || watchHolds w.kind w.arg (watchValue s none w)
      | .ls .. => watchHolds w.kind w.arg (watchValue s none w))))
  let hit := inTable ++ p.ovfWatches.filter (fun w => mine w && overflowHolds s w)
  let s := { s with clusters := s.clusters.map (fun c => { c with watches := c.watches.filter (fun w => !hit.contains w) }) }
  let s := onPart p.tag (fun p => { p with ovfWatches := p.ovfWatches.filter (fun w => !hit.contains w) }) s
  let lc := fun (w : Watch) => ((w.entry.phys.bind (lcoreOf p)).getD 0)
  let s := (sortBy lc hit).foldl (fun s w => readyContinuation w.entry s) s
  (s.clusters.map Cluster.id).foldl (fun s cl => refillWatches cl s) s

/-- The end of a quantum of a partition up to its first wait for a page or the host: what is done stays done, and the
quantum end goes on from there; true once every request has been applied. A Top that ends decrements before the watches are
looked at (R360, R393). -/
def endQuantum (p : Partition) (s : State) : Bool × State :=
  let s := landMessages p.tag (s.msgs.length + 1) (landRemotes p.tag s)
  match performIssued p s with
  | (false, s) => (false, s)
  | (true, s) =>
    match landPosts p.tag (s.posts.length + 1) (landThresholds p.tag (s.thrs.length + 1) s) with
    | (false, s) => (false, s)
    | (true, s) =>
      match applyAll p.tag 65536 s with
      | (false, s) => (false, s)
      | (true, s) =>
        match replayAll p (landRemotes p.tag s) with
        | (false, s) => (false, s)
        | (true, s) =>
          match (partAt s p.tag).map (fun p => orWait s (true, topsAtEnd p s)) with
          | none => (false, s)
          | some (false, s) => (false, s)
          | some (true, s) =>
            let s := ((coresInOrder s p).map (·.2)).foldl (fun s x => startHelpers x 11 s) s
            (true, sweepLaunches true p.tag (sweepGroups p.tag (watchesAtEnd p s)))

/-- The next quantum of a partition begins: a new QLEN counts, idle cores take work, and every core starts its quantum (R332). -/
def beginQuantum (tag : Nat) (s : State) : State :=
  let s := onPart tag (fun p => { p with qlen := p.qlenNext.getD p.qlen, qlenNext := none }) s
  match partAt s tag with
  | none => s
  | some p =>
    let cores := (coresInOrder s p).map (·.2)
    let s := cores.foldl (fun s x => takeFor x s) s
    let s := (ringOf p).foldl (fun s cl => passOver p cl (clusterAt s cl).ready.length s) s
    cores.foldl (fun s x => match partAt s tag with
      | some p => onCore x (newQuantum p) s
      | none => s) s

/-- Whether the quantum of a partition ends now (R332): every core has arrived and none waits for a proxy atomic; or the
quantum rules no longer apply and something of the last quantum is left. -/
def quantumDue (s : State) (p : Partition) : Bool :=
  let cores := (coresInOrder s p).map (fun x => coreAt s x.2)
  if quantumRules p then
    cores.all coreArrived && !(List.finRange 4).any (fun (d : Fin 4) => (s.dies.get d).proxies.any (·.part == p.tag))
  else cores.any (fun c => c.atBarrier || c.qnt != 0) || (ranked p).any (fun x => (coreAt s x.2).held.any (·.1 == p.tag))

end Sys2Proof.Machine
end

