-- ==== Sys2Proof/Machine/Bank.lean ====
section
/-!
DEFINITION. Banks and clusters that sleep (R184 to R192): retention of a bank, wake slots, wakes, power-down, and the
retention of a cluster with what it loses.
-/

namespace Sys2Proof.Machine

/-! ### Banks (R185, R187, R190) -/

/-- Units of 100 ns since a bank was last touched (R384). -/
def bankAge (s : State) (b : Nat) : Nat := (s.time / 100 + 2 ^ 32 - (bankAt s b).touch) % 2 ^ 32

/-- The bank that a virtual address of a context names, if it names device memory. -/
def bankOfVa (phys ctx : Nat) (va : Word) (s : State) : Option Nat :=
  match placeOfVa phys ctx va s with
  | some (.mem pa) => if isDram pa then some (bankOf pa) else none
  | _ => none

/-- Whether a bank lies under the pages of a span of virtual lines. -/
def spanMeets (phys ctx b : Nat) (span : Nat × Nat) (s : State) : Bool :=
  let lo := span.1 / 64
  (List.range (span.2 / 64 + 1 - lo)).any (fun k => bankOfVa phys ctx (BitVec.ofNat 64 ((lo + k) * 4096)) s == some b)

/-- Whether an accepted engine instruction of a core that has not completed has operands in a bank (R189). -/
def operandsIn (s : State) (c : Core) (b : Nat) : Bool :=
  c.mxq.any (fun q => q.pages.any (fun p => isDram (p.ppage * 4096) && bankOf (p.ppage * 4096) == b)) ||
    c.vxq.any (fun q => q.span.any (fun x => spanMeets c.phys q.vrec.ctx b x s)) ||
    c.chans.any (fun k => k.job.any (fun j =>
      spanMeets c.phys 0 b (recSpan j.dst j.dst.base) s || spanMeets c.phys 0 b (recSpan j.src j.src.base) s))

/-- A running task holds a bank active by its phase (R189): sparse for 10 µs after its own touch, stream and burst while it is among
its current regions. -/
def heldByPhase (s : State) (b : Nat) : Bool :=
  (allCores s).any (fun c =>
    c.run.any (fun r =>
      match c.bwphase.toNat with
      | 0 => false
      | 1 => r.regions.any (fun x => x.1 == b && x.2.any (fun t => decide (s.time ≤ t + 10000)))
      | _ => r.regions.any (·.1 == b) || operandsIn s c b))

/-- BANK_RETENTION_ENTRY (R187): an allocated active bank that nobody has touched for 2 µs, that no phase holds, and that need not
stay active after a hold that was abandoned. -/
def execBankRetentionEntry (bank : Nat) (s : State) : Host.Outcome State Fault Refusal :=
  let k := bankAt s bank
  .next (if k.state == .active && k.owner.isSome && 20 ≤ bankAge s bank && k.stay ≤ s.time && !heldByPhase s bank then
      onBank bank (fun k => { k with state := .retention, entered := s.time })
        { s with sleepers := s.sleepers.filter (fun x => !(isDram (x.1 * 64) && bankOf (x.1 * 64) == bank)) }
    else s)

/-- The wakes that hold a slot of an arbiter. -/
def slotsUsed (s : State) (die : Nat) : Nat := (s.wakes.filter (fun w => arbiterOf w.bank == die && w.granted)).length

/-- The wake that gets the next free slot: the oldest demand, else the oldest pre-wake (R190). -/
def nextWake (s : State) (die : Nat) : Option Wake :=
  let waiting := s.wakes.filter (fun w => arbiterOf w.bank == die && !w.granted)
  (waiting.find? (·.demand)) <|> waiting.head?

/-- WAKE_SLOT_GRANT (R190): one of the 16 slots of an arbiter goes to the next wake. -/
def execWakeSlotGrant (die : Nat) (s : State) : Host.Outcome State Fault Refusal :=
  .next (if 16 ≤ slotsUsed s die then s
    else match nextWake s die with
      | none => s
      | some w =>
        let s := { s with wakes := modifyWhere (fun x => x.bank == w.bank) (fun x => { x with granted := true }) s.wakes }
        if (bankAt s w.bank).state == .powerDown then s else onBank w.bank (fun k => { k with state := .waking }) s)

/-- BANK_WAKE_COMPLETE (R185, R190): a bank whose wake holds a slot is active, and zero if it was off; a power-down under
way ends first (R191). The access that waits next behind its front end raises its wake. -/
def execBankWakeComplete (bank : Nat) (s : State) : Host.Outcome State Fault Refusal :=
  .next (match s.wakes.find? (fun w => w.bank == bank && w.granted) with
    | none => s
    | some w =>
      if (bankAt s bank).state == .powerDown then s
      else
        let s := activate bank w.asked w.fromOff w.demand { s with wakes := s.wakes.filter (·.bank != bank) }
        if frontBusy s bank then s else nextInLine (frontEnd bank) s)

/-- BANK_POWER_DOWN_COMPLETE (R185): a bank that powers down is off; a wake that was granted meanwhile begins. -/
def execBankPowerDownComplete (bank : Nat) (s : State) : Host.Outcome State Fault Refusal :=
  .next (if (bankAt s bank).state == .powerDown then
      onBank bank (fun k => { k with state := if s.wakes.any (fun w => w.bank == bank && w.granted) then .waking else .off }) s
    else s)

/-! ### Clusters (R192) -/

/-- A core on which no task runs. -/
def coreRests (c : Core) : Bool := c.run.isNone && !c.ctl.live && c.resume.isNone && c.yield.isNone

/-- The cores of a cluster that State holds. -/
def clusterCores (s : State) (cl : Nat) : List Core := (allCores s).filter (fun c => clusterOf c.phys == cl)

/-- Everything a core of a cluster has not yet written back goes to its place: accesses, stash lines, update-only
copies. -/
def settleCore (phys : Nat) (s : State) : State :=
  let s := performAll phys s
  let s := (coreAt s phys).stashLines.foldl (fun s l => stashWriteBack phys l true s) s
  let mine := (coreAt s phys).upd
  let s := { s with partials := mine.foldl (fun l p => mergePartial p l) s.partials }
  onCore phys (fun c => { c with upd := [], l1d := [], icache := [], tlb := [], itlb := [] }) s

/-- The lines of a cluster with bytes that their homes have still to see. -/
def dirtyLines (s : State) (cl : Nat) : List Nat := ((clusterAt s cl).lines.map CLine.line).filter (unwritten s cl)

/-- CLUSTER_RETENTION_ENTRY (R192): a cluster with no running task writes back what is dirty and rests. It waits for accesses that are
held up, for lines that a channel owns (R263) and for the host to give up lines (R442). -/
def execClusterRetentionEntry (cluster : Nat) (s : State) : Host.Outcome State Fault Refusal :=
  let lines := dirtyLines s cluster
  .next (if (clusterAt s cluster).retained || !(clusterCores s cluster).all coreRests ||
        (clusterCores s cluster).any (fun c => c.pend.any (fun q => q.blocked c.phys s)) || lines.any (ownedFor s (cluster * 256) · true) then s
    else if lines.any s.hostLines.contains then (lines.filter s.hostLines.contains).foldl (fun s l => backInvalidate l s) s
    else
      let s := (clusterCores s cluster).foldl (fun s c => settleCore c.phys s) s
      let s := (clusterAt s cluster).lines.foldl (fun s l => dropLine cluster l.line s) s
      onCluster cluster (fun c => { c with retained := true }) s)

/-- The declaration slots of a partition that lose entries in a cluster: one report each, and each event task that had not
started fails (R192). -/
def loseSlots (cl : Nat) (p : Partition) (s : State) : State :=
  let c := clusterAt s cl
  p.decls.foldl (fun s d =>
    let lost := c.fold.filter (fun e => e.part == p.tag && e.slot == d.slot)
    if lost.isEmpty then s
    else
      let tasks := if d.dispatch then (lost.filter (eligible c p.tag d)).length else 0
      let s := onPart p.tag (fun p => { p with failures := p.failures + tasks }) (record (cl / 16) 0x005 p.tag 0x3FFF (BitVec.ofNat 64 cl) (BitVec.ofNat 64 d.slot) s)
      if tasks = 0 then s else launchFails p.tag d.launch 0x18 tasks s) s

/-- Everything that a cluster retained is gone: stores, queues, watches, deques, the local stores of its cores. -/
def scrubCluster (cl : Nat) (s : State) : State :=
  let s := onCluster cl (fun c => { c with fold := [], slots := [], ready := [], watches := [], tlb := [], walks := [], retained := false }) s
  let s := (clusterCores s cl).foldl (fun s c => c.allocs.foldl (fun s a => dropAlloc c.phys a.part a.gid s) s) s
  mapCores (fun c => if clusterOf c.phys = cl then { c with deque := [], recs := [], stash := [] } else c) s

/-- Entries with state in a cluster: its ready queue, watches and deques, and what waits in an overflow area for a group
that is resident there. -/
def entriesIn (s : State) (cl : Nat) : List ReadyEntry :=
  let here := fun (e : ReadyEntry) => e.start != .fresh && (e.phys.map clusterOf) == some cl
  (clusterAt s cl).ready ++ (clusterAt s cl).watches.map Watch.entry ++ (clusterCores s cl).flatMap Core.deque ++
    s.parts.flatMap (fun p => p.ovfReady.filter here ++ (p.ovfWatches.map Watch.entry).filter here)

/-- CLUSTER_RETENTION_EXIT (R192): service resumes; if a retained element has lost its contents, every task with state
there fails with cause 0x18 and the cluster returns empty. -/
def execClusterRetentionExit (cluster : Nat) (lost : Bool) (s : State) : Host.Outcome State Fault Refusal :=
  .next (if !(clusterAt s cluster).retained then s
    else if !lost then onCluster cluster (fun c => { c with retained := false }) s
    else
      let es := entriesIn s cluster
      let here := fun (e : ReadyEntry) => e.start != .fresh && (e.phys.map clusterOf) == some cluster
      let s := record (cluster / 16) 0x005 0 0x3FFF (BitVec.ofNat 64 cluster) 0 s
      let s := s.parts.foldl (fun s p => loseSlots cluster p s) s
      let s := scrubCluster cluster { s with parts := s.parts.map (fun p =>
        { p with
          ovfReady := p.ovfReady.filter (fun e => !here e)
          ovfWatches := p.ovfWatches.filter (fun w => !here w.entry) }) }
      let s := es.foldl (fun s e => failEntry e 0x18 s) s
      (s.parts.map Partition.tag).foldl (fun s t => sweepPart t s) s)

end Sys2Proof.Machine
end

