-- ==== Sys2Proof/Machine/Sys.lean ====
section
/-!
DEFINITION. The instruction traps (R165) and the invalidation of translations (R370).
-/

namespace Sys2Proof.Machine

/-- trap and svc (R165): the operand is EVAL, EPC is the next instruction. The context has issued once the trap begins (R27). -/
def trapBody (cause : BitVec 8) (a : Reg) (wa : Bool) : Act Unit := do
  let v ← readS a wa
  modify noteTurn
  takeTrap cause v 0 ((curCtx (← get)).pc + 4)
  throw .done

/-- trap (R165). -/
def execTrap (a : Reg) (wa : Bool) (s : State) : Host.Outcome State Fault Refusal :=
  runJump { len := 4 } (trapBody 0x1D a wa) s

/-- svc (R165). -/
def execSvc (a : Reg) (wa : Bool) (s : State) : Host.Outcome State Fault Refusal :=
  runJump { len := 4 } (trapBody 0x1C a wa) s

/-- brk (R165). -/
def execBrk (s : State) : Host.Outcome State Fault Refusal :=
  runJump { len := 4 } (do
    modify noteTurn
    takeTrap 0x1B 0 0 (curCtx (← get)).pc
    throw .done) s

/-- Whether a TLB entry is one that an invalidation of a kind selects (R370): for kind 2 its walk used the page, for a table or for
the result. -/
def TlbEntry.selected (e : TlbEntry) (part kind : Nat) (a : Word) : Bool :=
  e.part == part &&
    (match kind with
    | 0 => a.toNat / 2 ^ e.sh1 == e.vpage * 4096 / 2 ^ e.sh1
    | 2 => e.used.any (fun u => a.toNat / 2 ^ u.2 == u.1 * 4096 / 2 ^ u.2)
    | _ => true)

/-- The cores that serve a partition. -/
def coresOf (s : State) (part : Nat) : List Core := (allCores s).filter (fun c => c.part == some part)

/-- Remove translations of a partition with the table entries that walkers cache, write back and invalidate the stash lines of
the pages, also on a core that now serves another partition, and perform every access of its cores that is pending (R369, R370, log
entry 13). -/
def invalidateTranslations (part kind : Nat) (a : Word) (s : State) : State :=
  let keep := fun (l : List TlbEntry) => l.filter (fun e => !e.selected part kind a)
  let s := (coresOf s part).foldl (fun s c => performAll c.phys s) s
  let s := (allCores s).foldl (fun s c =>
    (c.stashLines.filter (fun l => l.part == part && l.tlb.selected part kind a)).foldl
      (fun s l => stashWriteBack c.phys l true s) s) s
  let s := mapCores (fun c => { c with tlb := keep c.tlb, itlb := keep c.itlb }) s
  { s with clusters := s.clusters.map (fun k => { k with tlb := keep k.tlb, walks := k.walks.filter (·.1 != part) }) }

/-- Whether an invalidation must still wait for accesses of a partition (R370, R374): matrix operands already translated (R138), of an
emulated gang's share too, vector elements, copy lines, accesses behind an owned line, proxy atomics, the writes of open
transactions, the results of tree rounds that it selects. -/
def operandsInFlight (s : State) (part kind : Nat) (a : Word) : Bool :=
  let cs := coresOf s part
  let mine := fun (phys : Nat) => cs.any (·.phys == phys)
  cs.any (fun c => c.mxq.any (fun q => !q.pages.isEmpty) || c.vxq.any (fun q => q.passed || !q.placed.isEmpty) ||
    c.pend.any (fun q => q.blocked c.phys s) || c.txn.any (fun t => !t.writes.isEmpty)) ||
  s.owned.any (fun o => mine o.2.1) ||
  (List.finRange 4).any (fun d => (s.dies.get d).proxies.any (·.part == part) ||
    (s.dies.get d).emus.any (fun e => mine e.phys && !e.op.pages.isEmpty)) ||
  (partAt s part).any (fun p => p.contribs.any (fun k => k.entries.any (fun e => e.selected part kind a)))

/-- The host copies that pending accesses of a partition's cores must first see invalidated (R442). -/
def pendingHomeLines (s : State) (part : Nat) : List Nat :=
  ((coresOf s part).flatMap (fun c => c.pend.filterMap PendAcc.homeLine)).filter s.hostLines.contains

/-- tlbinv after its operand reads (R370). -/
def tlbinvAct (a b : Word) : Act Unit := do
  let s ← get
  let ag := curAgent s
  if bitsOf b 63 2 ≠ 0 then trapAct 0x09 b
  let kind := bitsOf b 1 0
  if 2 ≤ kind && privOf (curCtx s).status < 2 then trapAct 0x03 b
  if ((kind = 1 || kind = 3) && a ≠ 0) || (kind = 0 && !canonical a) then trapAct 0x09 b
  fenceAct ag .dev
  if operandsInFlight s ag.part kind a then stallAct
  if !(pendingHomeLines s ag.part).isEmpty then
    set ((pendingHomeLines s ag.part).foldl (fun s l => backInvalidate l s) s)
    stallAct
  modify (invalidateTranslations ag.part kind a)

/-- tlbinv (R370). -/
def execTlbinv (a b : Reg) (wa wb : Bool) (s : State) : Host.Outcome State Fault Refusal :=
  runSeq { len := 4, priv := 1 } (do
    let x ← readS a wa
    let y ← readS b wb
    tlbinvAct x y) s

end Sys2Proof.Machine
end

