-- ==== Sys2Proof/Machine/Host.lean ====
section
/-!
DEFINITION. The host link and the other packages: replies to page requests (R371 to R373), invalidations by the host (R370),
CXL.mem and CXL.cache (R269, R442), the Bolmor link (R444).
-/

namespace Sys2Proof.Machine

/-! ### Replies to page requests (R372, R373) -/

/-- A wait for a page ends with a reply. -/
def replied (hit : Nat → Bool) (kinds : Nat) (ok : Bool) (a : Await) : Await :=
  match a with
  | .page page va => if hit page then .pageDone page kinds ok va else a
  | a => a

/-- A context whose wait a reply ends issues again. -/
def replyCtx (hit : Nat → Bool) (kinds : Nat) (ok : Bool) (x : Ctx) : Ctx :=
  let a := replied hit kinds ok x.await
  if a = x.await then x else { x with await := a, stalled := false }

/-- Every wait of a core on a page ends with a reply: contexts, copy channels, elements of vector instructions. -/
def replyCore (hit : Nat → Bool) (kinds : Nat) (ok : Bool) (c : Core) : Core :=
  { c with
    ctl := replyCtx hit kinds ok c.ctl
    helpers := c.helpers.map (replyCtx hit kinds ok)
    chans := c.chans.map (fun k => { k with await := replied hit kinds ok k.await })
    vxq := c.vxq.map (fun q =>
      { q with pages := q.pages.map (fun x => if hit x.1 && x.2.isNone then (x.1, some (kinds, ok)) else x) }) }

/-- The partitions of a virtual function. -/
def partsOfVf (s : State) (vf : Nat) : List Partition := s.parts.filter (·.vf == vf)

/-- The dispatchers look again at the work of a function's partitions. -/
def redoFunc (vf : Nat) (s : State) : State := redoAll ((partsOfVf s vf).map Partition.tag) s

/-- A reply reaches every wait of a function's partitions on some pages. -/
def replyAll (vf : Nat) (hit : Nat → Bool) (kinds : Nat) (ok : Bool) (s : State) : State :=
  let tags := (partsOfVf s vf).map Partition.tag
  mapCores (fun c => if tags.contains (corePart c) then replyCore hit kinds ok c else c) s

/-- A reply that matches no outstanding request of the function's generation is discarded and recorded (R373). -/
def staleReply (vf slot gen : Nat) (s : State) : State :=
  record 4 0x009 (((partsOfVf s vf).head?.map Partition.tag).getD 0) 0x3FFF (BitVec.ofNat 64 slot) (BitVec.ofNat 64 gen) s

/-- The outstanding request that a reply names. -/
def requestOf (s : State) (vf slot gen : Nat) : Option PageReq :=
  let f := funcAt s vf
  if gen = f.gen then f.slots.find? (fun q => q.slot == slot && q.gen == gen) else none

/-- A reply for one request (R372): its slot is free for a request that waits, every access that waits on the page goes on. -/
def replyOne (vf slot gen : Nat) (ok : Bool) (s : State) : State :=
  match requestOf s vf slot gen with
  | none => staleReply vf slot gen s
  | some q =>
    let s := onFunc vf (fun f => grantSlots { f with
        slots := f.slots.filter (·.slot != slot)
        replies := if q.hw then f.replies.filter (·.1 != q.page) ++ [(q.page, q.kinds, ok)] else f.replies }) s
    redoFunc vf (replyAll vf (· == q.page) q.kinds ok s)

/-- PAGE_REPLY_SUCCESS (R372): the accesses that wait on the page walk again. -/
def execPageReplySuccess (vf slot gen : Nat) (s : State) : Host.Outcome State Fault Refusal := .next (replyOne vf slot gen true s)

/-- PAGE_REPLY_INVALID_REQUEST (R372): the accesses that wait on the page trap with 0x08. -/
def execPageReplyInvalidRequest (vf slot gen : Nat) (s : State) : Host.Outcome State Fault Refusal :=
  .next (replyOne vf slot gen false s)

/-- Every outstanding request of a function is gone and every wait on one fails with 0x08. -/
def abandonRequests (vf : Nat) (s : State) : State :=
  let s := onFunc vf (fun f =>
    { f with slots := [], waiting := [], replies := ((f.slots ++ f.waiting).filter (·.hw)).map (fun q => (q.page, q.kinds, false)) }) s
  replyAll vf (fun _ => true) 7 false s

/-- PAGE_REPLY_RESPONSE_FAILURE (R372): every slot is free, every wait fails, and so does every later miss of the function
until it is reset. -/
def execPageReplyResponseFailure (vf slot gen : Nat) (s : State) : Host.Outcome State Fault Refusal :=
  .next (match requestOf s vf slot gen with
    | none => staleReply vf slot gen s
    | some _ => redoFunc vf (onFunc vf (fun f => { f with failed := true }) (abandonRequests vf s)))

/-- A function is reset or reassigned (R373): its generation rises, its requests are abandoned. -/
def newGeneration (vf : Nat) (s : State) : State :=
  let s := onFunc vf (fun f => { f with gen := (f.gen + 1) % 256, failed := false }) (abandonRequests vf s)
  let g := (funcAt s vf).gen
  { s with parts := s.parts.map (fun p => if p.vf = vf then { p with gen := g } else p) }

/-- FUNCTION_RESET (R373). -/
def execFunctionReset (vf : Nat) (s : State) : Host.Outcome State Fault Refusal := .next (redoFunc vf (newGeneration vf s))

/-! ### Stage-2 invalidation (R370) -/

/-- HOST_STAGE2_INVALIDATION (R370): the effect of tlbinv kind 2 for an IPA, or kind 3; it is complete only when the accesses
translated before are performed. -/
def execHostStage2Invalidation (part : Nat) (ipa : Option (BitVec 64)) (s : State) : Host.Outcome State Fault Refusal :=
  let lines := pendingHomeLines s part
  let kind := if ipa.isSome then 2 else 3
  .next (if operandsInFlight s part kind (ipa.getD 0) then s
    else if !lines.isEmpty then lines.foldl (fun s l => backInvalidate l s) s
    else invalidateTranslations part kind (ipa.getD 0) s)

/-! ### Link failures (R311, R444) -/

/-- A place in the memory of a package. -/
def Place.inPackage (n : Nat) : Place → Bool
  | .mem pa => packageOf pa == some n
  | .ls .. => false

/-- The loads of a context whose values are on their way over the link to a package fail. -/
def failProducers (n : Nat) (x : Ctx) : Ctx :=
  { x with prods := x.prods.map (fun p => if p.package = some n then { p with bad := true, failed := true } else p) }

/-- The proxy atomics of a core to a package fail. -/
def failProxies (phys n : Nat) (die : Fin 4) (s : State) : State :=
  let l := s.dies[die].proxies
  let mine := fun (q : ProxyReq) => q.phys == phys && packageOf q.pa == some n
  (l.filter mine).foldl (fun s q => trapProxy q 0x17 q.va 0 s)
    (setProxies die (l.filter (fun q => !mine q)) s)

/-- The trees of a partition that a core takes part in fail, as members of them can no longer be reached (R311). -/
def failTrees (phys : Nat) (p : Partition) (s : State) : State :=
  match lcoreOf p phys with
  | none => s
  | some l => (p.trees.filter (fun t => t.valid && t.fail == 0 && t.leaves.contains l)).foldl (fun s t => failTree false p.tag t.idx 0x19 s) s

/-- LINK_RETRY_EXHAUSTED (R444): the flow, a core and a package, has exhausted its retries; every outstanding access of the core
on it fails with 0x17. With no package the path to the members of the core's trees is lost, and those trees fail (R311; log entry
63). -/
def execLinkRetryExhausted (flow : Nat × Option Nat) (s : State) : Host.Outcome State Fault Refusal :=
  let core := flow.1
  .next (match flow.2 with
    | none => ((partAt s (corePart (coreAt s core))).map (fun p => failTrees core p s)).getD s
    | some n =>
      let lost := (coreAt s core).pend.filter (·.place.inPackage n)
      let s := onCore core (fun c => { c with
        ctl := failProducers n c.ctl, helpers := c.helpers.map (failProducers n)
        pend := c.pend.filter (fun q => !q.place.inPackage n) }) s
      let s := lost.foldl (fun s q => deferTrap core q.ctx ⟨0x17, q.va, 0⟩ s) s
      (List.finRange 4).foldl (fun s die => failProxies core n die s) s)

/-! ### The host's accesses (R269, R442) -/

/-- Whether a packet of the host with a partition's tag reaches a physical address (R436): memory of a bank that the partition owns,
or its launch window. -/
def hostReaches (s : State) (tag pa : Nat) : Bool :=
  match paKind pa with
  | .dram b => (bankAt s b).owner == some tag
  | .launch t _ => t == tag && (partAt s t).isSome
  | _ => false

/-- A packet that fails the check at ejection (R436). -/
def ejected (tag : Nat) (pa : Nat) (s : State) : State := record 4 0x00A tag 0x3FFF (BitVec.ofNat 64 pa) 0 s

/-- An access from outside goes through the home die cache (R183); it wakes the bank it reaches and waits for it inside its own
step. -/
def wakeBank (pa : Nat) (s : State) : State :=
  if isDram pa then enterDie (pa / 64) (wakeNow (bankOf pa) s) else s

/-- A copy channel owns a line, and every access to it from outside waits (R263). -/
def ownedLine (s : State) (line : Nat) : Bool := s.owned.any (·.1 == line)

/-- BACK_INVALIDATION_ACK (R442): the host holds the line no more, and the writes that wait for it are performed; what else waits,
of the dispatchers or of contexts, tries again. -/
def execBackInvalidationAck (line : Nat) (s : State) : Host.Outcome State Fault Refusal :=
  .next (if !s.hostWaits.contains line then s
    else
      let s := { s with hostWaits := s.hostWaits.filter (· != line), hostLines := s.hostLines.filter (· != line) }
      redoAll (s.parts.map Partition.tag) <| (allCores s).foldl (fun s c =>
        match (List.range (coreAt s c.phys).pend.length).find? (fun n =>
            ((coreAt s c.phys).pend[n]?).any (fun q => q.homeLine == some line && pendDue s c.phys n q)) with
        | none => s
        | some n =>
          match takeNth n (coreAt s c.phys).pend with
          | none => s
          | some (q, rest) => performPend c.phys q (onCore c.phys (fun c => { c with pend := rest }) s)) s)

/-- A line's copies leave every cluster, the bytes stored there written back first. -/
def dropCopies (line : Nat) (s : State) : State :=
  (s.clusters.map Cluster.id).foldl (fun s cl => dropLine cl line (recallStash cl line s)) s

/-- HOST_SNOOP (R442): the host writes bytes of one line of its own memory; the device's copies are invalidated first. -/
def execHostSnoop (pa : Nat) (bytes : List (BitVec 8)) (s : State) : Host.Outcome State Fault Refusal :=
  .next (if !isHost pa || 64 < pa % 64 + bytes.length || ownedLine s (pa / 64) then s
    else homeWriteBytes pa bytes (reachHome (pa / 64) (dropCopies (pa / 64) s)))

/-- CXL_MEM_WRITE (R269): a host write within one line of device memory is performed at its home; the device's copies stay.
While the host may hold the line it waits for the acknowledgement (R442), while a channel owns it for that (R263); one that
must merge into a bad line performs nothing, and the error is recorded (R194, R195). The place is the packet's tag (R436) and the address. -/
def execCxlMemWrite (place : Nat × Nat) (bytes : List (BitVec 8)) (s : State) : Host.Outcome State Fault Refusal :=
  let (tag, pa) := place
  .next (if 64 < pa % 64 + bytes.length then s
    else if !hostReaches s tag pa then ejected tag pa s
    else if ownedLine s (pa / 64) then s
    else if s.hostLines.contains (pa / 64) then backInvalidate (pa / 64) s
    else if s.badLines.contains (pa / 64) && bytes.length < 64 then errorRecorded tag 0x3FFF (pa / 64) (wakeBank pa s)
    else homeWriteBytes pa bytes (wakeBank pa s))

/-- A read from outside consumes no data in an instruction: one of a bad line is recorded (R194, R195). -/
def readOutside (tag pa : Nat) (s : State) : State :=
  if s.badLines.contains (pa / 64) then errorRecorded tag 0x3FFF (pa / 64) s else s

/-- CXL_MEM_READ (R442): the home's filter notes that the host may hold the line. Reductions that wait there are combined first, a
write for which the host gives the line up (R211). The place is the packet's tag (R436) and the address. -/
def execCxlMemRead (place : Nat × Nat) (s : State) : Host.Outcome State Fault Refusal :=
  let (tag, pa) := place
  .next (if !hostReaches s tag pa then ejected tag pa s
    else if ownedLine s (pa / 64) then s
    else if hasPartials (pa / 64) s && s.hostLines.contains (pa / 64) then backInvalidate (pa / 64) s
    else
      let s := readOutside tag pa (reachHome (pa / 64) (wakeBank pa s))
      if isDram pa && !s.hostLines.contains (pa / 64) then { s with hostLines := s.hostLines ++ [pa / 64] } else s)

/-! ### Accesses from other packages (R444) -/

/-- The atomic that a code names: the operations of R206 in their order, then cas with its expected value. -/
def remoteOp (k : Nat) (expected : Word) : RmwOp :=
  match k with
  | 0 => .add | 1 => .and | 2 => .or | 3 => .xor | 4 => .min | 5 => .max | 6 => .minn | 7 => .maxn | 8 => .swap
  | 9 => .fadd | 10 => .fmin | 11 => .fmax | 12 => .badd
  | _ => .cas expected

/-- An access of another package at this package's home: kind 0 a load, 1 a store of bytes, from 2 on an atomic, whose bytes
are its operand, for cas the expected value and the new one. No instruction of this package consumes an error that it meets
(R194). -/
def remoteAccess (tag pa kind : Nat) (bytes : List Byte) (s : State) : State :=
  let line := pa / 64
  let s := reachHome line (wakeBank pa s)
  if kind = 0 then readOutside tag pa s
  else if kind = 1 then
    (if s.badLines.contains line && bytes.length < 64 then errorRecorded tag 0x3FFF line s
     else homeWriteBytes pa bytes s)
  else
    let n := if kind = 15 then bytes.length / 2 else bytes.length
    let v := BitVec.ofNat 64 (leNat (bytes.drop (bytes.length - n)))
    let old := BitVec.ofNat 64 (homeNat s pa n)
    if s.badLines.contains line then errorRecorded tag 0x3FFF line s
    else homeWriteBytes pa (leBytes n (rmwApply (remoteOp (kind - 2) (BitVec.ofNat 64 (leNat (bytes.take n)))) n old v).toNat) s

/-- BOLMOR_REMOTE_ACCESS (R444): checked against the bank's owner (R436), then performed at the home; a write waits while
the host may hold the line (R442). -/
def execBolmorRemoteAccess (tag pa kind : Nat) (bytes : List (BitVec 8)) (s : State) : Host.Outcome State Fault Refusal :=
  .next (if 64 < pa % 64 + bytes.length || 15 < kind then s
    else if !isDram pa || (bankAt s (bankOf pa)).owner ≠ some tag then ejected tag pa s
    else if ownedLine s (pa / 64) then s
    else if (kind ≠ 0 || hasPartials (pa / 64) s) && s.hostLines.contains (pa / 64) then backInvalidate (pa / 64) s
    else remoteAccess tag pa kind bytes s)

end Sys2Proof.Machine
end

