-- ==== Sys2Proof/Machine/Regs.lean ====
section
/-!
DEFINITION. Proxy atomics at a die's control core (R209) and the partition register block they reach (R381): stash map
(R382), tree table (R383), monitor units (R399), runtime registers (R435).
-/

namespace Sys2Proof.Machine

/-! ### The block -/

/-- The offset of a request in its partition's register block. -/
def ProxyReq.off (q : ProxyReq) : Nat := match paKind q.pa with | .regs _ off => off | _ => 0

/-- A swap into the register block at offsets of a range. -/
def ProxyReq.swaps (q : ProxyReq) (lo hi : Nat) : Bool := q.toRegs && q.op == .swap && lo ≤ q.off && q.off < hi

/-- What a service of the register block ends with: the old value, a trap, or a wait. -/
inductive Served where
  | old (v : Word)
  | trap (cause : BitVec 8) (einfo : Word)
  | wait
  deriving DecidableEq, Repr

/-- Take the first request of a die that satisfies a test and perform it; one that must wait stays. -/
def serveWith (die : Nat) (test : ProxyReq → Bool) (f : ProxyReq → State → Served × State) (s : State) : State :=
  if h : die < 4 then
    match takeProxy s ⟨die, h⟩ test with
    | none => s
    | some (q, rest) =>
      match f q s with
      | (.wait, s) => s
      | (.old v, s) => answerProxy q (.proxyDone v) (setProxies ⟨die, h⟩ rest s)
      | (.trap c x, s) => trapProxy q c q.va x (setProxies ⟨die, h⟩ rest s)
  else s

/-- A trap with cause 0x09 and an EINFO. -/
def refuse (einfo : Nat) (s : State) : Served × State := (.trap 0x09 (BitVec.ofNat 64 einfo), s)

/-! ### Reads (R381) -/

/-- The group of the task that a request's core runs. -/
def ProxyReq.gid (q : ProxyReq) (s : State) : Nat := ((coreAt s q.phys).run.map Running.gid).getD 0

/-- Stash entry e of a core for its running task's allocation (R382). -/
def stashAt (s : State) (q : ProxyReq) (e : Nat) : StashEntry :=
  ((coreAt s q.phys).stash.find? (fun x => x.idx == e && x.part == q.part && x.gid == q.gid s)).getD ⟨e, q.part, q.gid s, 0, 0⟩

/-- A dword of a monitor unit (R399). -/
def monDword (u : MonUnit) (off : Nat) : Word :=
  match off / 8 with
  | 0 => u.config
  | 1 => u.count
  | 2 => u.sum
  | 3 => u.min
  | 4 => u.max
  | k => if h : 8 ≤ k ∧ k < 24 then u.bins[k - 8] else 0

/-- What a context reads of a monitor unit of its cluster: 0 in deterministic mode, and of a unit that another partition
owns (R399, R400). -/
def monRead (s : State) (q : ProxyReq) : Word :=
  let off := q.off - 0x2000
  let u := (clusterAt s (clusterOf q.phys)).mons[off / 256 % 8]
  let det := (ctxOf (coreAt s q.phys) q.ctx).status.getLsbD 4
  if det || (u.config.getLsbD 0 && bitsOf u.config 35 30 != q.part) then 0 else monDword u (off % 256)

/-- A tree of the issuing partition; an undefined one reads 0. -/
def treeOf (p : Partition) (t : Nat) : Tree := (treeAt p t).getD ⟨t, 0, 0, [], [], [], false⟩

/-- A read of the register block; an offset that names nothing traps. -/
def readBlock (q : ProxyReq) (s : State) : Served × State :=
  let off := q.off
  match partAt s q.part with
  | none => refuse 0 s
  | some p =>
    if off < 0x100 then (.old (if off % 16 = 0 then (stashAt s q (off / 16)).a else (stashAt s q (off / 16)).b), s)
    else if 0x1000 ≤ off && off < 0x1080 then
      (.old (if off % 16 = 0 then (treeOf p (off / 16 % 8)).t0 else (treeOf p (off / 16 % 8)).t1), s)
    else if 0x2000 ≤ off && off < 0x2800 then (.old (monRead s q), s)
    else
      match off with
      | 0x3000 => (.old p.s1root, s)
      | 0x3008 => (.old p.s1attr, s)
      | 0x3010 => (.old p.ovfbase, s)
      | 0x3018 => (.old p.ovfsize, s)
      | 0x3020 => (.old p.hbase, s)
      | _ => refuse 0 s

/-- PROXY_ATOMIC_SERVICE (R209): the oldest request of a lane is performed at memory outside the device, or reads the
register block; swaps into the block are steps of their own. -/
def execProxyAtomicService (die lane : Nat) (s : State) : Host.Outcome State Fault Refusal :=
  .next (if h : die < 4 then
      match takeProxy s ⟨die, h⟩ (·.lane == lane) with
      | none => s
      | some (q, rest) =>
        if s.owned.any (·.1 == q.pa / 64) then s
        else if !q.toRegs then serveProxy q (setProxies ⟨die, h⟩ rest s)
        else if q.op == .swap then s
        else serveWith die (fun x => x.lane == lane) readBlock s
    else s)

/-! ### The stash map (R382) -/

/-- Replace a stash entry of a core. -/
def putStash (phys : Nat) (e : StashEntry) (s : State) : State :=
  onCore phys (fun c =>
    { c with stash := c.stash.filter (fun x => !(x.idx == e.idx && x.part == e.part && x.gid == e.gid)) ++
        (if e.a = 0 ∧ e.b = 0 then [] else [e]) }) s

/-- The dirty lines of a stash entry are written back and all its lines invalid. -/
def emptyStash (phys : Nat) (e : StashEntry) (s : State) : State :=
  ((coreAt s phys).stashLines.filter (fun l => e.covers l.part l.gid l.lsline)).foldl (fun s l => stashWriteBack phys l true s) s

/-- First local line, lines, first global line and its end of an entry. -/
def StashEntry.lines (e : StashEntry) : Nat × Nat := (bitsOf e.b 10 0, bitsOf e.b 26 16 + 1)

/-- Whether two ranges of lines meet. -/
def meet (a n b m : Nat) : Bool := a < b + m && b < a + n

/-- Whether an entry may be installed beside the valid ones of its allocation (R382). -/
def stashOk (c : Core) (e : StashEntry) : Bool :=
  let (l, n) := e.lines
  let g := e.a.toNat / 64
  let others := c.stash.filter (fun x => x.part == e.part && x.gid == e.gid && x.idx != e.idx && x.a.getLsbD 0)
  let first := BitVec.ofNat 64 (g * 64)
  let last := BitVec.ofNat 64 ((g + n) * 64 - 1)
  bitsOf e.a 5 1 == 0 && bitsOf e.b 63 27 == 0 && bitsOf e.b 15 11 == 0 &&
    (allocOf c e.part e.gid).any (fun a => (l + n) * 64 ≤ a.size) &&
    others.all (fun x => !meet l n x.lines.1 x.lines.2 && !meet g n (x.a.toNat / 64) x.lines.2) &&
    canonical first && canonical last && (g + n) * 64 ≤ 2 ^ 64 && first.getLsbD 63 == last.getLsbD 63 &&
    !inWindows first && !inWindows last &&
    (c.stash.filter (fun x => x.a.getLsbD 0 && !(x.part == e.part && x.gid == e.gid && x.idx == e.idx))).length < 16

/-- A swap of dword A. -/
def swapStashA (q : ProxyReq) (s : State) : Served × State :=
  let old := stashAt s q (q.off / 16)
  let new := { old with a := q.v }
  if q.v.getLsbD 0 then
    (if stashOk (coreAt s q.phys) new then (.old old.a, putStash q.phys new (emptyStash q.phys old s)) else refuse 12 s)
  else (.old old.a, putStash q.phys { old with a := q.v } (emptyStash q.phys old s))

/-- STASH_ENTRY_A_SWAP (R382). -/
def execStashEntryASwap (die : Nat) (s : State) : Host.Outcome State Fault Refusal :=
  .next (serveWith die (fun q => q.swaps 0 0x100 && q.off % 16 == 0) swapStashA s)

/-- A swap of dword B. -/
def swapStashB (q : ProxyReq) (s : State) : Served × State :=
  let old := stashAt s q (q.off / 16)
  if old.a.getLsbD 0 then refuse 13 s else (.old old.b, putStash q.phys { old with b := q.v } s)

/-- STASH_ENTRY_B_SWAP (R382). -/
def execStashEntryBSwap (die : Nat) (s : State) : Host.Outcome State Fault Refusal :=
  .next (serveWith die (fun q => q.swaps 0 0x100 && q.off % 16 != 0) swapStashB s)

/-! ### The tree table (R383) -/

/-- Replace a tree of a partition. -/
def putTree (part : Nat) (t : Tree) (s : State) : State := onPart part (fun p => { p with trees := putBy Tree.idx t p.trees }) s

/-- A leaf list is legal: logical cores of the partition, none twice. -/
def leavesOk (p : Partition) (l : List Nat) : Bool := l.all (fun x => (physOf p x).isSome) && decide l.Nodup

/-- Read a leaf list (R383). -/
def readLeaves (q : ProxyReq) (list : Word) (n : Nat) : Act (List Nat) := do
  let b ← readMem (hwAgent q.phys q.part) .hw .other list (2 * n)
  return (List.range n).map (fun i => leNat (slice b (2 * i) 2))

/-- A swap of T0. R383 names no fault for bits 63:32 and 7:1 or FAIL: the model drops what a swap has there (log entry 96). -/
def swapTree (q : ProxyReq) (s : State) : Served × State :=
  match partAt s q.part with
  | none => refuse 14 s
  | some p =>
    let t := treeOf p (q.off / 16 % 8)
    let n := bitsOf q.v 31 16
    let t0 := q.v &&& 0xFFFF0001#64
    if !q.v.getLsbD 0 then (.old t.t0, putTree q.part { t with t0 := t0 } s)
    else if n < 2 || p.ranks.length < n || t.t1.toNat % 8 ≠ 0 then refuse 14 s
    else
      match readLeaves q t.t1 n s with
      | .error (.stall _) s => (.wait, s)
      | .error _ s => refuse 14 s
      | .ok l s =>
        if !leavesOk p l then refuse 14 s
        else (.old t.t0, putTree q.part ⟨t.idx, t0, t.t1, l, [], [], false⟩ (endRounds false q.part t.idx s))

/-- TREE_T0_SWAP (R383). -/
def execTreeT0Swap (die : Nat) (s : State) : Host.Outcome State Fault Refusal :=
  .next (serveWith die (fun q => q.swaps 0x1000 0x1080 && q.off % 16 == 0) swapTree s)

/-! ### Monitor units (R399) -/

/-- SEL is in the range of its source (R400). -/
def selOk (source sel : Nat) : Bool :=
  match source with
  | 0 => sel < 12
  | 2 => sel < 2
  | 4 => true
  | 6 => sel < 4
  | 1 | 3 | 5 | 7 | 8 => sel == 0
  | _ => false

/-- A configuration that a swap may write (R399). -/
def monConfigOk (v : Word) : Bool :=
  bitsOf v 63 48 == 0 && bitsOf v 29 16 == 0 && bitsOf v 11 8 == 0 && bitsOf v 3 1 == 0 && selOk (bitsOf v 7 4) (bitsOf v 15 12)

/-- A swap of a unit's configuration. -/
def swapMonitor (q : ProxyReq) (s : State) : Served × State :=
  let cl := clusterOf q.phys
  let i := (q.off - 0x2000) / 256 % 8
  let u := (clusterAt s cl).mons[i]
  let old := monRead s q
  if !monConfigOk q.v || (u.config.getLsbD 0 && bitsOf u.config 35 30 != q.part) then refuse 18 s
  else
    let config := setBits q.v 35 30 (if q.v.getLsbD 0 then q.part else 0)
    let new : MonUnit := if q.v.getLsbD 0 then { MonUnit.reset with config := config } else { u with config := config }
    (.old old, onCluster cl (fun c => { c with mons := c.mons.set i new (Nat.mod_lt _ (by decide)) }) s)

/-- MONITOR_CONFIG_SWAP (R399). -/
def execMonitorConfigSwap (die : Nat) (s : State) : Host.Outcome State Fault Refusal :=
  .next (serveWith die (fun q => q.swaps 0x2000 0x2800 && q.off % 256 == 0) swapMonitor s)

/-! ### Runtime registers (R435) -/

/-- A swap into a runtime register: below runtime privilege cause 0x03, bad alignment or a reserved bit EINFO 12. -/
def swapRuntime (ok : Word → Bool) (read : Partition → Word) (write : ProxyReq → Partition → State → Served × State) (q : ProxyReq)
    (s : State) : Served × State :=
  match partAt s q.part with
  | none => refuse 12 s
  | some p =>
    if !q.runtime then (.trap 0x03 0, s)
    else if !ok q.v then refuse 12 s
    else
      match write q p s with
      | (.old _, s) => (.old (read p), s)
      | r => r

/-- HBASE: the value TVEC starts with. -/
def putHbase (q : ProxyReq) (_ : Partition) (s : State) : Served × State :=
  (.old 0, onPart q.part (fun p => { p with hbase := q.v }) s)

/-- HBASE_SWAP (R435). -/
def execHbaseSwap (die : Nat) (s : State) : Host.Outcome State Fault Refusal :=
  .next (serveWith die (·.swaps 0x3020 0x3028) (swapRuntime (fun v => !v.getLsbD 0) Partition.hbase putHbase) s)

/-- The overflow area of a partition holds an entry. -/
def areaInUse (p : Partition) : Bool := !p.ovfReady.isEmpty || !p.ovfWatches.isEmpty

/-- OVFBASE, while the area is empty. -/
def putOvfbase (q : ProxyReq) (p : Partition) (s : State) : Served × State :=
  if areaInUse p then refuse 19 s else (.old 0, onPart q.part (fun p => { p with ovfbase := q.v }) s)

/-- OVFBASE_SWAP (R435). -/
def execOvfbaseSwap (die : Nat) (s : State) : Host.Outcome State Fault Refusal :=
  .next (serveWith die (·.swaps 0x3010 0x3018) (swapRuntime (fun v => bitsOf v 15 0 == 0) Partition.ovfbase putOvfbase) s)

/-- OVFSIZE, while the area is empty. -/
def putOvfsize (q : ProxyReq) (p : Partition) (s : State) : Served × State :=
  if areaInUse p then refuse 19 s else (.old 0, onPart q.part (fun p => { p with ovfsize := q.v }) s)

/-- OVFSIZE_SWAP (R435). -/
def execOvfsizeSwap (die : Nat) (s : State) : Host.Outcome State Fault Refusal :=
  .next (serveWith die (·.swaps 0x3018 0x3020) (swapRuntime (fun v => bitsOf v 15 0 == 0) Partition.ovfsize putOvfsize) s)

/-- A swap of a stage-1 field, which waits for the others' accesses and is waited for by none of them. -/
def ProxyReq.stage1 (q : ProxyReq) : Bool := q.swaps 0x3000 0x3010

/-- The requests that a swap of a stage-1 field does not wait for: itself and other such swaps. -/
def lessStage1 (s : State) : State :=
  { s with dies := s.dies.map (fun d => { d with proxies := d.proxies.filter (fun q => !q.stage1) }) }

/-- A change of the stage-1 fields completes after the effect of tlbinv kind 1 (R370, R435): it waits as fence.dev does for the context
that swaps, and for every access translated before. -/
def afterInvalidation (q : ProxyReq) (f : State → State) (s : State) : Served × State :=
  let part := q.part
  let lines := pendingHomeLines s part
  if !accessesDone (lessStage1 s) q.phys q.ctx .dev || !enginesDone s q.phys q.ctx || operandsInFlight (lessStage1 s) part 1 0 then (.wait, s)
  else if !lines.isEmpty then (.wait, lines.foldl (fun s l => backInvalidate l s) s)
  else (.old 0, f (invalidateTranslations part 1 0 s))

/-- S1ROOT. -/
def putS1root (q : ProxyReq) (_ : Partition) (s : State) : Served × State :=
  afterInvalidation q (onPart q.part (fun p => { p with s1root := q.v })) s

/-- S1ROOT_SWAP (R435). -/
def execS1rootSwap (die : Nat) (s : State) : Host.Outcome State Fault Refusal :=
  .next (serveWith die (·.swaps 0x3000 0x3008) (swapRuntime (fun v => bitsOf v 11 0 == 0) Partition.s1root putS1root) s)

/-- S1ATTR. -/
def putS1attr (q : ProxyReq) (_ : Partition) (s : State) : Served × State :=
  afterInvalidation q (onPart q.part (fun p => { p with s1attr := q.v })) s

/-- Bits 7:3 of every entry of an attribute table are zero (R368). -/
def attrOk (v : Word) : Bool := v &&& 0xF8F8F8F8F8F8F8F8 == 0

/-- S1ATTR_SWAP (R435). -/
def execS1attrSwap (die : Nat) (s : State) : Host.Outcome State Fault Refusal :=
  .next (serveWith die (·.swaps 0x3008 0x3010) (swapRuntime attrOk Partition.s1attr putS1attr) s)

/-! ### Every other dword (R381) -/

/-- A swap that no other step serves. -/
def otherSwap (q : ProxyReq) : Bool :=
  q.toRegs && q.op == .swap &&
    !(q.swaps 0 0x100 || (q.swaps 0x1000 0x1080 && q.off % 16 == 0) || (q.swaps 0x2000 0x2800 && q.off % 256 == 0) ||
      q.swaps 0x3000 0x3028)

/-- T1 is written; another dword of a monitor unit traps with EINFO 18 (R399), an offset that names nothing with 0. -/
def swapOther (q : ProxyReq) (s : State) : Served × State :=
  match partAt s q.part with
  | none => refuse 0 s
  | some p =>
    if q.swaps 0x1000 0x1080 then
      let t := treeOf p (q.off / 16 % 8)
      (.old t.t1, putTree q.part { t with t1 := q.v } s)
    else if q.swaps 0x2000 0x2800 then refuse 18 s
    else refuse 0 s

/-- PARTITION_REGISTER_WRITE (R381). -/
def execPartitionRegisterWrite (die : Nat) (s : State) : Host.Outcome State Fault Refusal := .next (serveWith die otherSwap swapOther s)

end Sys2Proof.Machine
end

