-- ==== Sys2Proof/Machine/Ecdsa.lean ====
section
/-!
DEFINITION. The verification of an ECDSA signature over the 384-bit Brainpool curve in its untwisted form (R449): the domain
parameters of brainpoolP384r1 are those of RFC 5639 (log entry 8). A key is its point's coordinates, a signature r and s, 48 bytes
each, big-endian (log entry 110).
-/

namespace Sys2Proof.Machine

/-- The field of brainpoolP384r1. -/
def curveP : Nat :=
  0x8CB91E82A3386D280F5D6F7E50E641DF152F7109ED5456B412B1DA197FB71123ACD3A729901D1A71874700133107EC53

/-- The coefficient A. -/
def curveA : Nat :=
  0x7BC382C63D8C150C3C72080ACE05AFA0C2BEA28E4FB22787139165EFBA91F90F8AA5814A503AD4EB04A8C7DD22CE2826

/-- The coefficient B. -/
def curveB : Nat :=
  0x04A8C7DD22CE28268B39B55416F0447C2FB77DE107DCD2A62E880EA53EEB62D57CB4390295DBC9943AB78696FA504C11

/-- The first coordinate of the base point. -/
def curveX : Nat :=
  0x1D1C64F068CF45FFA2A63A81B7C13F6B8847A3E77EF14FE3DB7FCAFE0CBD10E8E826E03436D646AAEF87B2E247D4AF1E

/-- Its second coordinate. -/
def curveY : Nat :=
  0x8ABE1D7520F9C2A45CB1EB8E95CFD55262B70B29FEEC5864E19C054FF99129280E4646217791811142820341263C5315

/-- The order of the base point. -/
def curveN : Nat :=
  0x8CB91E82A3386D280F5D6F7E50E641DF152F7109ED5456B31F166E6CAC0425A7CF3AB6AF6B7FC3103B883202E9046565

/-- The bits of a number below 2^384, the highest first. -/
def bits384 (n : Nat) : List Bool := (List.range 384).map (fun i => n.testBit (383 - i))

/-- a to the power e modulo m, for e below 2^384. -/
def powMod (m a e : Nat) : Nat :=
  (bits384 e).foldl (fun r b => if b then r * r % m * a % m else r * r % m) 1

/-- The inverse modulo a prime (Fermat). -/
def invMod (m a : Nat) : Nat := powMod m (a % m) (m - 2)

/-- a - b modulo the field. -/
def subP (a b : Nat) : Nat := (a % curveP + (curveP - b % curveP)) % curveP

/-- A point in Jacobian coordinates: (x / z², y / z³); z = 0 is the point at infinity. -/
structure CurvePoint where
  x : Nat
  y : Nat
  z : Nat
  deriving DecidableEq, Repr

/-- The double of a point. -/
def CurvePoint.double (q : CurvePoint) : CurvePoint :=
  let yy := q.y * q.y % curveP
  let s := 4 * q.x * yy % curveP
  let zz := q.z * q.z % curveP
  let m := (3 * q.x * q.x + curveA * (zz * zz % curveP)) % curveP
  let x := subP (m * m) (2 * s)
  ⟨x, subP (m * subP s x) (8 * yy * yy), 2 * q.y * q.z % curveP⟩

/-- The sum of two points. -/
def CurvePoint.add (q r : CurvePoint) : CurvePoint :=
  if q.z = 0 then r
  else if r.z = 0 then q
  else
    let qz := q.z * q.z % curveP
    let rz := r.z * r.z % curveP
    let u := q.x * rz % curveP
    let h := subP (r.x * qz) u
    let v := q.y * rz % curveP * r.z % curveP
    let w := subP (r.y * qz % curveP * q.z) v
    if h = 0 then (if w = 0 then q.double else ⟨1, 1, 0⟩)
    else
      let hh := h * h % curveP
      let hhh := h * hh % curveP
      let k := u * hh % curveP
      let x := subP (w * w) (hhh + 2 * k)
      ⟨x, subP (w * subP k x) (v * hhh), h * q.z % curveP * r.z % curveP⟩

/-- u times one point plus v times another, both multipliers below 2^384. -/
def CurvePoint.mulAdd (u v : Nat) (q r : CurvePoint) : CurvePoint :=
  let both := q.add r
  (bits384 u |>.zip (bits384 v)).foldl (fun t b =>
    let t := t.double
    match b with
    | (true, true) => t.add both
    | (true, false) => t.add q
    | (false, true) => t.add r
    | (false, false) => t) ⟨1, 1, 0⟩

/-- A number of big-endian bytes. -/
def beNat (b : List Byte) : Nat := leNat b.reverse

/-- A point of the curve. -/
def onCurve (x y : Nat) : Bool := x < curveP && y < curveP && y * y % curveP == (x * x * x + curveA * x + curveB) % curveP

/-- ECDSA verification of a signature over a message (R449), hashing with SHA-384. -/
def ecdsaOk (key sig message : List Byte) : Bool :=
  let qx := beNat (slice key 0 48)
  let qy := beNat (slice key 48 48)
  let r := beNat (slice sig 0 48)
  let s := beNat (slice sig 48 48)
  let w := invMod curveN s
  let e := beNat (sha384 message)
  let t := CurvePoint.mulAdd (e * w % curveN) (r * w % curveN) ⟨curveX, curveY, 1⟩ ⟨qx, qy, 1⟩
  key.length == 96 && sig.length == 96 && onCurve qx qy && 0 < r && r < curveN && 0 < s && s < curveN && t.z != 0 &&
    t.x * invMod curveP (t.z * t.z % curveP) % curveP % curveN == r

end Sys2Proof.Machine
end

