-- ==== Sys2Proof/Machine/Audit.lean ====
section
/-!
DEFINITION. Evidence (R446, R447, R449 to R454): measurement registers, the audit log, the black-box recorders, and the
mailbox commands that read them.
-/

namespace Sys2Proof.Machine

/-! ### Measurement and the audit log (R449, R451, R452) -/

/-- Measure an item into register i (R449). -/
def measure (i : Fin 8) (item : List Byte) (s : State) : State :=
  { s with io := { s.io with mr := s.io.mr.set i (sha384 (s.io.mr[i] ++ sha384 item)) } }

/-- The 128 bytes of an audit record (R451). -/
def AuditRec.bytes (r : AuditRec) : List Byte :=
  leBytes 8 r.seq ++ leBytes 8 r.time ++ leBytes 4 (r.event + r.part * 2 ^ 16) ++ List.replicate 12 0 ++
    (r.data ++ List.replicate 32 0).take 32 ++ r.prev ++ List.replicate 16 0

/-- PREV of the next record (R451). -/
def auditPrev (s : State) : List Byte :=
  match s.io.audit.getLast? with
  | some r => sha384 r.bytes
  | none => sha384 (s.io.mr[1])

/-- The next record of the log. -/
def nextAudit (event part : Nat) (data : List Byte) (s : State) : AuditRec :=
  ⟨s.io.auditSeq, clockOf s, event, part, data, auditPrev s⟩

/-- Append a record; a full ring of 65,536 loses its oldest (R451). -/
def auditPut (r : AuditRec) (s : State) : State :=
  { s with io := { s.io with
      audit := (s.io.audit ++ [r]).drop (s.io.audit.length + 1 - 65536)
      auditSeq := s.io.auditSeq + 1 } }

/-- 32 bytes of DATA that the spec does not state: free (log entry 3). -/
def freeData (s : State) : List Byte × State :=
  ((List.range 4).flatMap (fun i => leBytes 8 (Config.freeWord (s.freeCtr + i)).toNat), { s with freeCtr := s.freeCtr + 4 })

/-- Append a record of the hardware or the controller whose DATA the spec does not state. -/
def auditEvent (event part : Nat) (s : State) : State :=
  let (d, s) := freeData s
  auditPut (nextAudit event part d s) s

/-- Append the record of a layout command and measure it into MR5 (R449). -/
def auditLayout (event part : Nat) (s : State) : State :=
  let (d, s) := freeData s
  let r := nextAudit event part d s
  measure 5 r.bytes (auditPut r s)

/-- A request of firmware for a record, of which it supplies only EVENT and DATA; other codes are refused (R451, R452). -/
def auditAsked (event : Nat) (data : List Byte) (s : State) : State :=
  if event = 0 || 10 < event then s else auditPut (nextAudit event 0xFF data s) s

/-- AUDIT_APPEND (R452): the requests of one cycle, each with its requester, event and data, in ascending requester order: 0 the firmware of the
Relhar controller, 1 to 4 the control cores. -/
def execAuditAppend (askers events : List Nat) (data : List (List (BitVec 8))) (s : State) :
    Host.Outcome State Fault Refusal :=
  .next ((sortBy (·.1) (askers.zip (events.zip data))).foldl (fun s r => auditAsked r.2.1 r.2.2 s) s)

/-- DEBUG_UNLOCK (R449): the state of the debug unlock is measured into MR4, and audited. -/
def execDebugUnlock (state : List (BitVec 8)) (s : State) : Host.Outcome State Fault Refusal :=
  .next (auditEvent 0x0008 0xFF (measure 4 state s))

/-- A spare takes the place of a bad line of local store (R195). -/
def retireLocal (phys part gid line : Nat) (s : State) : State :=
  auditEvent 0x0009 0xFF (record (dieOf phys) 0x004 part phys (BitVec.ofNat 64 (line * 64)) 0
    (onCore phys (onAlloc part gid (fun a => { a with bad := a.bad.filter (· != line), mem := memClear a.mem (line * 64) 64 })) s))

/-- LINE_RETIREMENT (R195): a spare takes the place of a bad line, which reads as zero from then on, also where only
fetched copies of it were held; the place names the core, partition and group of an allocation if the line is one of local store. -/
def execLineRetirement (place : Option (Nat × Nat × Nat) × Nat) (s : State) : Host.Outcome State Fault Refusal :=
  let line := place.2
  .next (match place.1 with
  | some (phys, part, gid) => if badAt s (.ls phys part gid (line * 64)) then retireLocal phys part gid line s else s
  | none => if !s.badLines.contains line then s
    else
      let clean := fun (l : CLine) => { l with bytes := Vector.ofFn (fun i : Fin 64 => if l.mask.getLsbD i then l.bytes[i] else 0) }
      let s := { s with
        badLines := s.badLines.filter (· != line)
        mem := memClear s.mem (line * 64) 64
        clusters := s.clusters.map (fun c => { c with lines := modifyWhere (·.line == line) clean c.lines }) }
      auditEvent 0x0009 0xFF (record (if isDram (line * 64) then homeDie (line * 64) else 4) 0x004 0 0x3FFF (BitVec.ofNat 64 (line * 64)) 0 s))

/-! ### Black boxes (R453, R454) -/

/-- The newest 8,192 entries stay. -/
def BlackBox.append (b : BlackBox) (e : BBEntry) : BlackBox :=
  { b with entries := (b.entries ++ [e]).drop (b.entries.length + 1 - 8192), head := b.head + 1 }

/-- The staged entry that is written next: of those raised together, the one with the lowest CORE. -/
def BlackBox.pick (b : BlackBox) : Option (BBEntry × List BBEntry) :=
  match b.staged.head? with
  | none => none
  | some h =>
    let lo := ((b.staged.filter (·.time == h.time)).map BBEntry.core).foldl min h.core
    takeFirst (fun e => e.time == h.time && e.core == lo) b.staged

/-- BLACK_BOX_WRITE (R454): one staged entry is written; it counts the events dropped since the last one. -/
def execBlackBoxWrite (recorder : Nat) (s : State) : Host.Outcome State Fault Refusal :=
  .next (onRecorder recorder (fun b =>
    if b.frozen then b
    else match b.pick with
      | none => b
      | some (e, rest) => { b.append { e with dropped := b.dropped } with staged := rest, dropped := 0 }) s)

/-- A recorder writes entry 0x010 and freezes (R454). -/
def freeze (recorder : Nat) (s : State) : State :=
  onRecorder recorder (fun b =>
    if b.frozen then b else { b.append ⟨clockOf s, 0x010, 0, 0x3FFF, b.dropped, (0, 0)⟩ with dropped := 0, frozen := true }) s

/-- FATAL_ERROR (R454). -/
def execFatalError (recorder : Nat) (s : State) : Host.Outcome State Fault Refusal := .next (freeze recorder s)

/-- The 32 bytes of an entry (R453). -/
def BBEntry.bytes (e : BBEntry) : List Byte :=
  leBytes 8 e.time ++ leBytes 8 (e.code % 2 ^ 12 + e.part % 2 ^ 6 * 2 ^ 12 + e.core % 2 ^ 14 * 2 ^ 18 + e.dropped % 2 ^ 16 * 2 ^ 48) ++
    leBytes 8 e.data.1.toNat ++ leBytes 8 e.data.2.toNat

/-! ### The mailbox (R446, R450) -/

/-- A mailbox command: before the boot it is answered "not booted", and an error changes nothing (R446, R449). -/
def mailbox (f : State → Option (List Byte × State)) (s : State) : State :=
  let answer := fun (r : Response) (s : State) => { s with io := { s.io with response := r } }
  if !s.io.booted then answer .notBooted s
  else match f s with
    | some (r, s) => answer (.data r) s
    | none => answer .error s

/-- A command that only changes state. -/
def command (f : State → Option State) (s : State) : State := mailbox (fun s => (f s).map (fun t => ([], t))) s

/-- Part of an answer of a fixed size. -/
def sized (n : Nat) (b : List Byte) : List Byte := (b ++ List.replicate n 0).take n

/-- The armed launches of a partition. -/
def armedSlots (s : State) (tag : Nat) : List Nat := (List.range 64).filter (fun n => memGet s.mem (slotPa tag n + 63) != 0)

/-- A partition's entry of SUMMARY (R447). -/
def summaryPart (s : State) (tag : Nat) : List Byte :=
  match partAt s tag with
  | none => sized 16 (Config.packFields 16 [0, 0, 0, 0, 0])
  | some p => sized 16 (Config.packFields 16 [p.state, (p.ranks.filter (·.valid)).length, p.banks.length, (armedSlots s tag).length, p.vf])

/-- The number of overflow entries that belong to a cluster. -/
def overflowOf (s : State) (cl : Nat) : Nat :=
  (s.parts.map (fun p =>
    (p.ovfReady.filter (fun e => (e.phys.map clusterOf) == some cl)).length +
      (p.ovfWatches.filter (fun w => (w.entry.phys.map clusterOf) == some cl)).length)).sum

/-- A cluster's entry of SUMMARY. -/
def summaryCluster (s : State) (i : Nat) : List Byte :=
  let cl := i / 10 * 16 + i % 10
  let c := clusterAt s cl
  let deques := (((allCores s).filter (fun k => clusterOf k.phys == cl)).map (fun k => k.deque.length)).sum
  sized 32 (Config.packFields 32 [c.ready.length, overflowOf s cl, deques, c.watches.length, c.fold.length])

/-- Outstanding page requests and failed tasks of a partition. -/
def summaryFailures (s : State) (tag : Nat) : List Byte :=
  match partAt s tag with
  | none => sized 8 (Config.packFields 8 [0, 0])
  | some p => sized 8 (Config.packFields 8 [(funcAt s p.vf).slots.length, p.failures])

/-- How many banks of a memory are in a state; an unlisted bank is off. -/
def banksIn (s : State) (stacked : Bool) (st : BankState) : Nat :=
  let mine := s.banks.filter (fun b => decide (b.id < 8192) == stacked)
  let n := (mine.filter (·.state == st)).length
  if st == .off then n + ((if stacked then 8192 else 1024) - mine.length) else n

/-- The 4 KiB of SUMMARY (R447). -/
def summaryBytes (s : State) : List Byte :=
  let banks := [true, false].flatMap (fun m =>
    [banksIn s m .active, banksIn s m .retention, banksIn s m .off + banksIn s m .powerDown])
  leBytes 8 s.layout ++ leBytes 8 s.layout ++ (List.range 64).flatMap (summaryPart s) ++ (List.range 40).flatMap (summaryCluster s) ++
    (List.range 64).flatMap (summaryFailures s) ++ sized 64 (Config.packFields 64 banks) ++
    (List.finRange 4).flatMap (fun (d : Fin 4) => sized 16 (Config.packFields 16 [(s.dies.get d).bb.head % 8192, (s.dies.get d).bb.frozen.toNat])) ++
    List.replicate 1136 0

/-- SUMMARY (R447). -/
def execSummary (s : State) : Host.Outcome State Fault Refusal := .next (mailbox (fun s => some (summaryBytes s, s)) s)

/-- The report of ATTEST (R450), before its signature: MR0 to MR5, the layout version, SEQ of the newest record, nonce. -/
def reportBytes (s : State) (nonce : List Byte) : List Byte :=
  let seq := match s.io.audit.getLast? with | some r => BitVec.ofNat 64 r.seq | none => Config.freeWord s.freeCtr
  ((List.finRange 8).filter (fun i => i.val < 6)).flatMap (fun i => s.io.mr[i]) ++ leBytes 8 s.layout ++ leBytes 8 seq.toNat ++ sized 32 nonce

/-- ATTEST (R450). -/
def execAttest (nonce : List (BitVec 8)) (s : State) : Host.Outcome State Fault Refusal :=
  .next (mailbox (fun s =>
    let b := reportBytes s nonce
    some (b ++ Config.sign b, auditEvent 0x0004 0xFF { s with freeCtr := s.freeCtr + 1 })) s)

/-- LOGREAD (R452): up to 32 records from a SEQ onward. -/
def execLogread (seq count : Nat) (s : State) : Host.Outcome State Fault Refusal :=
  .next (mailbox (fun s =>
    some (((s.io.audit.filter (fun r => seq ≤ r.seq)).take (min count 32)).flatMap AuditRec.bytes, s)) s)

/-- A recorder by its number. -/
def recorderAt (s : State) (r : Nat) : BlackBox := if h : r < 4 then s.dies[r].bb else s.io.bb

/-- The entry at an index of a recorder's ring (R454). -/
def bbAt (b : BlackBox) (i : Nat) : Option BBEntry :=
  let first := b.head - b.entries.length
  (List.range b.entries.length).findSome? (fun k => if (first + k) % 8192 = i % 8192 then b.entries[k]? else none)

/-- BBREAD (R454). -/
def execBbread (recorder index count : Nat) (s : State) : Host.Outcome State Fault Refusal :=
  .next (mailbox (fun s =>
    some ((List.range (min count 8192)).flatMap (fun k => ((bbAt (recorderAt s recorder) (index + k)).map BBEntry.bytes).getD []), s)) s)

end Sys2Proof.Machine
end

