-- ==== Sys2Proof/Machine/Branch.lean ====
section
/-!
DEFINITION. Branches and jumps (R80, R81).
-/

namespace Sys2Proof.Machine

/-- The frame of a branch. -/
def branchInfo : InstrInfo := { len := 4, txn := true }

/-- PC goes to the target if the condition holds, else behind the branch (R80). -/
def branchIf (c : Bool) (off : BitVec 12) : Act Unit := do
  let pc := (curCtx (← get)).pc
  jumpTo (if c then target pc off else pc + 4)

/-- A branch with two registers (R80). -/
def branchBody (c : BrCond) (a b : Reg) (w : Bool) (off : BitVec 12) : Act Unit := do
  let x ← readS a w
  let y ← readS b w
  branchIf (brCond c x y) off

/-- bbs and bbc test a bit of a register (R80). -/
def bitBranchBody (want : Bool) (a : Reg) (bit : Fin 32) (w : Bool) (off : BitVec 12) : Act Unit := do
  let x ← readS a w
  branchIf (x.getLsbD bit.val == want) off

/-- beq (R80). -/
def execBeq (a b : Reg) (w : Bool) (off : BitVec 12) (s : State) : Host.Outcome State Fault Refusal :=
  runJump branchInfo (branchBody .eq a b w off) s

/-- bne (R80). -/
def execBne (a b : Reg) (w : Bool) (off : BitVec 12) (s : State) : Host.Outcome State Fault Refusal :=
  runJump branchInfo (branchBody .ne a b w off) s

/-- blt (R80). -/
def execBlt (a b : Reg) (w : Bool) (off : BitVec 12) (s : State) : Host.Outcome State Fault Refusal :=
  runJump branchInfo (branchBody .lt a b w off) s

/-- bge (R80). -/
def execBge (a b : Reg) (w : Bool) (off : BitVec 12) (s : State) : Host.Outcome State Fault Refusal :=
  runJump branchInfo (branchBody .ge a b w off) s

/-- bltn (R80). -/
def execBltn (a b : Reg) (w : Bool) (off : BitVec 12) (s : State) : Host.Outcome State Fault Refusal :=
  runJump branchInfo (branchBody .ltn a b w off) s

/-- bgen (R80). -/
def execBgen (a b : Reg) (w : Bool) (off : BitVec 12) (s : State) : Host.Outcome State Fault Refusal :=
  runJump branchInfo (branchBody .gen a b w off) s

/-- bbs (R80). -/
def execBbs (a : Reg) (bit : Fin 32) (w : Bool) (off : BitVec 12) (s : State) : Host.Outcome State Fault Refusal :=
  runJump branchInfo (bitBranchBody true a bit w off) s

/-- bbc (R80). -/
def execBbc (a : Reg) (bit : Fin 32) (w : Bool) (off : BitVec 12) (s : State) : Host.Outcome State Fault Refusal :=
  runJump branchInfo (bitBranchBody false a bit w off) s

/-- jal: the link register, then the target (R81). -/
def execJal (d : Reg) (off : BitVec 20) (s : State) : Host.Outcome State Fault Refusal :=
  runJump { len := 4, dests := [d], txn := true } (do
    let pc := (curCtx (← get)).pc
    writeS d (pc + 4)
    jumpTo (target pc off)) s

/-- jalr: the target uses a before the write of d (R81). -/
def execJalr (d a : Reg) (wa : Bool) (imm : BitVec 14) (s : State) : Host.Outcome State Fault Refusal :=
  runJump { len := 4, dests := [d], txn := true } (do
    let x ← readS a wa
    let pc := (curCtx (← get)).pc
    writeS d (pc + 4)
    jumpTo ((x + imm.signExtend 64) &&& ~~~1#64)) s

end Sys2Proof.Machine
end

