-- ==== Sys2Proof/Machine/Fp.lean ====
section
/-!
DEFINITION. Scalar floating point (R112 to R120), the compact FP forms, and fmtp (R54).
-/

namespace Sys2Proof.Machine

/-- The frame of a scalar floating-point instruction: it accepts a prefix that holds rm only (R55, R110). -/
def fpInfo (len : Nat) (d : Reg) : InstrInfo := { len := len, dests := [d], pfx := 1, txn := true }

/-- The low 32 bits of a register, as FP32 bits (R112). -/
def low32 (x : Word) : Nat := x.toNat % 2 ^ 32

/-- The rounding of a scalar instruction: its mode (R110), element index 0 with SEED (R101). -/
def scalarRounding (s : State) : Rounding := Rounding.at (roundMode (curCtx s)) 0 s.core.seed

/-- The result written by an FP instruction of one source, with its flags (R112). -/
def fp1Body (f : Rounding → Word → Word × FlagSet) (d a : Reg) (wa : Bool) : Act Unit := do
  let x ← readS a wa
  let (r, fl) := f (scalarRounding (← get)) x
  writeS d r
  mergeFlags fl

/-- The result written by an FP instruction of two sources, with its flags (R112). -/
def fp2Body (f : Rounding → Word → Word → Word × FlagSet) (d a b : Reg) (wa wb : Bool) : Act Unit := do
  let x ← readS a wa
  let y ← readS b wb
  let (r, fl) := f (scalarRounding (← get)) x y
  writeS d r
  mergeFlags fl

/-- The result written by a fused instruction, with its flags (R117). -/
def fp3Body (f : Rounding → Word → Word → Word → Word × FlagSet) (d a b c : Reg) (w : Bool) : Act Unit := do
  let x ← readS a w
  let y ← readS b w
  let z ← readS c w
  let (r, fl) := f (scalarRounding (← get)) x y z
  writeS d r
  mergeFlags fl

/-- A natural result, zero-extended, with its flags. -/
def natResult (p : Nat × FlagSet) : Word × FlagSet := (BitVec.ofNat 64 p.1, p.2)

/-- An exact result delivered in FP32 (R112). -/
def deliver32 (r : Rounding) (e : Exact) : Word × FlagSet := natResult (fp32.deliver r e)

/-- A register read as an FP32 value. -/
def val32 (x : Word) : Val := fp32.read (low32 x)

/-- fadd, fsub, fmul and fdiv (R113). -/
def faddOp (r : Rounding) (x y : Word) : Word × FlagSet := deliver32 r (sumExact r.rm [val32 x, val32 y])
/-- SA − SB (R113). -/
def fsubOp (r : Rounding) (x y : Word) : Word × FlagSet := deliver32 r (sumExact r.rm [val32 x, (val32 y).neg])
/-- SA × SB (R113). -/
def fmulOp (r : Rounding) (x y : Word) : Word × FlagSet := deliver32 r (mulExact (val32 x) (val32 y))
/-- SA ÷ SB (R113). -/
def fdivOp (r : Rounding) (x y : Word) : Word × FlagSet := deliver32 r (divExact (val32 x) (val32 y))
/-- √SA (R113). -/
def fsqrtOp (r : Rounding) (x : Word) : Word × FlagSet := deliver32 r (sqrtExact (val32 x))
/-- fmin and fmax (R114). -/
def fminmaxOp (isMax : Bool) (_ : Rounding) (x y : Word) : Word × FlagSet := natResult (minMaxBits fp32 isMax (low32 x) (low32 y))
/-- SA with bit 31 inverted (R115). -/
def fnegOp (_ : Rounding) (x : Word) : Word × FlagSet := (zextBits 32 (low32 x ^^^ 0x80000000), 0)
/-- SA with bit 31 cleared (R115). -/
def fabsOp (_ : Rounding) (x : Word) : Word × FlagSet := (zextBits 32 (low32 x % 0x80000000), 0)
/-- SA with bit 31 of SB (R115). -/
def fsgnjOp (_ : Rounding) (x y : Word) : Word × FlagSet :=
  (zextBits 32 (low32 x % 0x80000000 + low32 y / 0x80000000 * 0x80000000), 0)
/-- A comparison as 1 or 0 (R116). -/
def fcmpOp (c : FCmp) (_ : Rounding) (x y : Word) : Word × FlagSet :=
  let (r, fl) := fcmp c (val32 x) (val32 y)
  (boolWord r, fl)
/-- fclass (R116). -/
def fclassOp (_ : Rounding) (x : Word) : Word × FlagSet := (BitVec.ofNat 64 (fclassOf (low32 x)), 0)
/-- The estimates ignore rm (R118). -/
def frcpOp (_ : Rounding) (x : Word) : Word × FlagSet := natResult (deliverEstimate (rcpExact (val32 x)))
/-- 1/√SA on the 12-bit grid (R118). -/
def frsqOp (_ : Rounding) (x : Word) : Word × FlagSet := natResult (deliverEstimate (rsqExact (val32 x)))
/-- FP32 to an integer within limits (R103, R119). -/
def toIntOp (lo hi : Int) (r : Rounding) (x : Word) : Word × FlagSet :=
  let (v, fl) := toInt lo hi r (val32 x)
  (BitVec.ofInt 64 v, fl)
/-- An integer to FP32 (R119). -/
def ofIntOp (r : Rounding) (i : Int) : Word × FlagSet := natResult (fp32.convert r (Val.ofInt i))
/-- BF16 in bits 15:0 to FP32, exact (R119). -/
def bfToFp (r : Rounding) (x : Word) : Word × FlagSet := natResult (fp32.convert r (bf16.read (x.toNat % 2 ^ 16)))
/-- FP32 to BF16 (R119). -/
def fpToBf (r : Rounding) (x : Word) : Word × FlagSet := natResult (bf16.convert r (val32 x))
/-- The fused results: the product, negated or not, with SC, negated or not (R117). -/
def fmaOp (negC negAll : Bool) (r : Rounding) (x y z : Word) : Word × FlagSet :=
  let c := if negC then (val32 z).neg else val32 z
  let e := fmaExact r.rm (val32 x) (val32 y) c
  deliver32 r (if negAll then e.neg else e)

/-- fadd (R113). -/
def execFadd (d a b : Reg) (wa wb : Bool) (s : State) : Host.Outcome State Fault Refusal :=
  runSeq (fpInfo 4 d) (fp2Body (faddOp) d a b wa wb) s

/-- fsub (R113). -/
def execFsub (d a b : Reg) (wa wb : Bool) (s : State) : Host.Outcome State Fault Refusal :=
  runSeq (fpInfo 4 d) (fp2Body (fsubOp) d a b wa wb) s

/-- fmul (R113). -/
def execFmul (d a b : Reg) (wa wb : Bool) (s : State) : Host.Outcome State Fault Refusal :=
  runSeq (fpInfo 4 d) (fp2Body (fmulOp) d a b wa wb) s

/-- fdiv (R113). -/
def execFdiv (d a b : Reg) (wa wb : Bool) (s : State) : Host.Outcome State Fault Refusal :=
  runSeq (fpInfo 4 d) (fp2Body (fdivOp) d a b wa wb) s

/-- fmin (R114). -/
def execFmin (d a b : Reg) (wa wb : Bool) (s : State) : Host.Outcome State Fault Refusal :=
  runSeq (fpInfo 4 d) (fp2Body (fminmaxOp false) d a b wa wb) s

/-- fmax (R114). -/
def execFmax (d a b : Reg) (wa wb : Bool) (s : State) : Host.Outcome State Fault Refusal :=
  runSeq (fpInfo 4 d) (fp2Body (fminmaxOp true) d a b wa wb) s

/-- fsgnj (R115). -/
def execFsgnj (d a b : Reg) (wa wb : Bool) (s : State) : Host.Outcome State Fault Refusal :=
  runSeq (fpInfo 4 d) (fp2Body (fsgnjOp) d a b wa wb) s

/-- feq (R116). -/
def execFeq (d a b : Reg) (wa wb : Bool) (s : State) : Host.Outcome State Fault Refusal :=
  runSeq (fpInfo 4 d) (fp2Body (fcmpOp .eq) d a b wa wb) s

/-- flt (R116). -/
def execFlt (d a b : Reg) (wa wb : Bool) (s : State) : Host.Outcome State Fault Refusal :=
  runSeq (fpInfo 4 d) (fp2Body (fcmpOp .lt) d a b wa wb) s

/-- fle (R116). -/
def execFle (d a b : Reg) (wa wb : Bool) (s : State) : Host.Outcome State Fault Refusal :=
  runSeq (fpInfo 4 d) (fp2Body (fcmpOp .le) d a b wa wb) s

/-- fsqrt (R113). -/
def execFsqrt (d a : Reg) (wa : Bool) (s : State) : Host.Outcome State Fault Refusal :=
  runSeq (fpInfo 4 d) (fp1Body (fsqrtOp) d a wa) s

/-- fneg (R115). -/
def execFneg (d a : Reg) (wa : Bool) (s : State) : Host.Outcome State Fault Refusal :=
  runSeq (fpInfo 4 d) (fp1Body (fnegOp) d a wa) s

/-- fabs (R115). -/
def execFabs (d a : Reg) (wa : Bool) (s : State) : Host.Outcome State Fault Refusal :=
  runSeq (fpInfo 4 d) (fp1Body (fabsOp) d a wa) s

/-- fclass (R116). -/
def execFclass (d a : Reg) (wa : Bool) (s : State) : Host.Outcome State Fault Refusal :=
  runSeq (fpInfo 4 d) (fp1Body (fclassOp) d a wa) s

/-- frcp (R118). -/
def execFrcp (d a : Reg) (wa : Bool) (s : State) : Host.Outcome State Fault Refusal :=
  runSeq (fpInfo 4 d) (fp1Body (frcpOp) d a wa) s

/-- frsq (R118). -/
def execFrsq (d a : Reg) (wa : Bool) (s : State) : Host.Outcome State Fault Refusal :=
  runSeq (fpInfo 4 d) (fp1Body (frsqOp) d a wa) s

/-- fcvtfi (R119). -/
def execFcvtfi (d a : Reg) (wa : Bool) (s : State) : Host.Outcome State Fault Refusal :=
  runSeq (fpInfo 4 d) (fp1Body (toIntOp (-(2 ^ 63)) (2 ^ 63 - 1)) d a wa) s

/-- fcvtif (R119). -/
def execFcvtif (d a : Reg) (wa : Bool) (s : State) : Host.Outcome State Fault Refusal :=
  runSeq (fpInfo 4 d) (fp1Body (fun rm x => ofIntOp rm x.toInt) d a wa) s

/-- fcvtfn (R119). -/
def execFcvtfn (d a : Reg) (wa : Bool) (s : State) : Host.Outcome State Fault Refusal :=
  runSeq (fpInfo 4 d) (fp1Body (toIntOp 0 (2 ^ 64 - 1)) d a wa) s

/-- fcvtnf (R119). -/
def execFcvtnf (d a : Reg) (wa : Bool) (s : State) : Host.Outcome State Fault Refusal :=
  runSeq (fpInfo 4 d) (fp1Body (fun rm x => ofIntOp rm x.toNat) d a wa) s

/-- fcvtbf (R119). -/
def execFcvtbf (d a : Reg) (wa : Bool) (s : State) : Host.Outcome State Fault Refusal :=
  runSeq (fpInfo 4 d) (fp1Body (bfToFp) d a wa) s

/-- fcvtfb (R119). -/
def execFcvtfb (d a : Reg) (wa : Bool) (s : State) : Host.Outcome State Fault Refusal :=
  runSeq (fpInfo 4 d) (fp1Body (fpToBf) d a wa) s

/-- ffma (R117). -/
def execFfma (d a b c : Reg) (w : Bool) (s : State) : Host.Outcome State Fault Refusal :=
  runSeq (fpInfo 4 d) (fp3Body (fmaOp false false) d a b c w) s

/-- ffms (R117). -/
def execFfms (d a b c : Reg) (w : Bool) (s : State) : Host.Outcome State Fault Refusal :=
  runSeq (fpInfo 4 d) (fp3Body (fmaOp true false) d a b c w) s

/-- fnfma (R117). -/
def execFnfma (d a b c : Reg) (w : Bool) (s : State) : Host.Outcome State Fault Refusal :=
  runSeq (fpInfo 4 d) (fp3Body (fmaOp false true) d a b c w) s

/-- fnfms (R117). -/
def execFnfms (d a b c : Reg) (w : Bool) (s : State) : Host.Outcome State Fault Refusal :=
  runSeq (fpInfo 4 d) (fp3Body (fmaOp true true) d a b c w) s

/-- c.fadd d, b: fadd d, d, b (R120). -/
def execCFadd (d b : Reg) (w : Bool) (s : State) : Host.Outcome State Fault Refusal :=
  runSeq (fpInfo 2 d) (fp2Body (faddOp) d d b w w) s

/-- c.fmul d, b: fmul d, d, b (R120). -/
def execCFmul (d b : Reg) (w : Bool) (s : State) : Host.Outcome State Fault Refusal :=
  runSeq (fpInfo 2 d) (fp2Body (fmulOp) d d b w w) s

/-- c.fmin d, b: fmin d, d, b (R120). -/
def execCFmin (d b : Reg) (w : Bool) (s : State) : Host.Outcome State Fault Refusal :=
  runSeq (fpInfo 2 d) (fp2Body (fminmaxOp false) d d b w w) s

/-- c.fmax d, b: fmax d, d, b (R120). -/
def execCFmax (d b : Reg) (w : Bool) (s : State) : Host.Outcome State Fault Refusal :=
  runSeq (fpInfo 2 d) (fp2Body (fminmaxOp true) d d b w w) s

/-- The field checks of fmtp (R54): rm 7 or a scale mode 3 gives 0x01, a register without its scale mode 0x02. -/
def fmtpCause (fmt : Word) : Option (BitVec 8) :=
  let am := bitsOf fmt 9 8
  let bm := bitsOf fmt 11 10
  if fmtRm fmt = 7 || am = 3 || bm = 3 then some 0x01
  else if (am = 0 && bitsOf fmt 16 12 != 0) || (bm = 0 && bitsOf fmt 21 17 != 0) then some 0x02
  else none

/-- fmtp: FMT and STATUS.PFX for the next instruction of the context (R54, R109). -/
def execFmtp (pfx : BitVec 25) (s : State) : Host.Outcome State Fault Refusal :=
  runSeq { len := 4 } (do
    match fmtpCause (pfx.zeroExtend 64) with
    | some c => trapAct c 0
    | none => modify (onCur (fun x => { x with fmt := pfx.zeroExtend 64, status := x.status ||| 1 }))) s

end Sys2Proof.Machine
end

