-- ==== Sys2Proof/Machine/Layout.lean ====
section
/-!
DEFINITION. The management of partitions (R431 to R439, R446): CREATE, RESIZE, REPLACE, RELEASE, SETS2, SETQUOTA, and the
tick of a layout change.
-/

namespace Sys2Proof.Machine

/-! ### Quotas (R337, R338) -/

/-- The quota that SETQUOTA has set for a partition in a cluster, one that still waits for a quantum end counted (R338). -/
def quotaSet (s : State) (cl tag : Nat) : Option Nat :=
  let held := (allCores s).flatMap (fun c => (c.held.filter (·.1 == tag)).map (·.2))
  ((held.filterMap (fun q => match q with | .quota c k => if c = cl then some k else none | _ => none)).getLast?) <|>
    ((clusterAt s cl).quotas.find? (·.1 == tag)).map (·.2)

/-- Whether the quotas of a cluster leave each of its partitions without one at least 1,024 entries. -/
def quotasFit (s : State) (cl : Nat) : Bool :=
  let ps := partsIn s cl
  let fixed := ps.filterMap (fun p => quotaSet s cl p.tag)
  fixed.sum + 1024 * (ps.length - fixed.length) ≤ 65536

/-- The clusters that hold cores of some partition. -/
def usedClusters (s : State) : List Nat := (s.parts.flatMap ringOf).eraseDups

/-- Set a quota in clusters, at once or, where the quantum rules apply, at the next quantum end (R338); none if it does not fit. -/
def withQuota (p : Partition) (q : Nat) (cls : List Nat) (s : State) : Option State :=
  let core := ((ranked p).head?.map (·.2)).getD 1
  let t := cls.foldl (fun s cl =>
    if quantumRules p then onCore core (fun c => { c with held := c.held ++ [(p.tag, .quota cl q)] }) s
    else onCluster cl (fun c => { c with quotas := putBy (·.1) (p.tag, q) c.quotas }) s) s
  if cls.all (quotasFit t) then some t else none

/-- SETQUOTA (R338): for a cluster of the partition or all of them. -/
def setQuota (tag : Nat) (cluster : Option Nat) (q : Nat) (s : State) : Option State :=
  match partAt s tag with
  | none => none
  | some p =>
    let cls := match cluster with | some cl => [cl] | none => ringOf p
    if p.state = 3 || q % 1024 ≠ 0 || q < 1024 || 65536 < q || !cls.all (ringOf p).contains then none
    else withQuota p q cls (auditEvent 0x0007 tag s)

/-- SETQUOTA. -/
def execSetquota (tag : Nat) (cluster : Option Nat) (q : Nat) (s : State) : Host.Outcome State Fault Refusal :=
  .next (command (setQuota tag cluster q) s)

/-! ### SETS2 (R363) -/

/-- The stage-2 fields of a partition's descriptor, in the shadow of a staged layout change too (R437). -/
def Partition.withS2 (root attr : Word) (pasid : Nat) (p : Partition) : Partition :=
  { p with
    s2root := root, s2attr := attr, pasid := pasid
    shadow := p.shadow.map (fun h => { h with s2root := root, s2attr := attr, pasid := pasid }) }

/-- SETS2: the stage-2 root and attributes of a partition's descriptor, with its PASID. -/
def setS2 (tag : Nat) (root attr : Word) (pasid : Nat) (s : State) : Option State :=
  match partAt s tag with
  | none => none
  | some p =>
    if p.state = 3 || bitsOf root 11 0 ≠ 0 || !attrOk attr || 2 ^ 20 ≤ pasid then none
    else some (onPart tag (Partition.withS2 root attr pasid) (auditEvent 0x0006 tag s))

/-- SETS2. -/
def execSets2 (tag : Nat) (root attr : BitVec 64) (pasid : Nat) (s : State) : Host.Outcome State Fault Refusal :=
  .next (command (setS2 tag root attr pasid) s)

/-! ### Cores and partitions (R431 to R433) -/

/-- The partitions that a core serves. -/
def servedBy (c : Core) : List Nat := match c.part with | none => c.serves | some t => if c.serves.contains t then c.serves else t :: c.serves

/-- A core that a partition may be given (R23, R432): an assignable core that serves none, or, to be shared, at most three others
that have slices of it. -/
def assignable (s : State) (tag phys : Nat) (shared : Bool) : Bool :=
  let ts := servedBy (coreAt s phys)
  isCore phys && !isControlCore phys && !ts.contains tag && ts.length < 4 &&
    (ts.isEmpty || (shared && ts.all (fun t => (sliceLen s t phys).isSome)))

/-- A core begins to serve a partition, the last in its rotation (R432); one that serves none yet runs it. The slice of a core that
was alone begins anew. -/
def joinCore (now tag : Nat) (c : Core) : Core :=
  { c with
    part := if (servedBy c).isEmpty then some tag else c.part
    serves := servedBy c ++ [tag]
    sliceFrom := if (servedBy c).length < 2 then now else c.sliceFrom }

/-- What a core holds of a partition besides its registers is gone (R73, R439). -/
def forgetPart (tag : Nat) (c : Core) : Core :=
  { c with
    serves := (servedBy c).filter (· != tag)
    allocs := c.allocs.filter (·.part != tag)
    stash := c.stash.filter (·.part != tag)
    stashLines := c.stashLines.filter (·.part != tag)
    rings := c.rings.map (fun r => r.filter (·.part != tag))
    hreqs := c.hreqs.filter (·.part != tag)
    owes := c.owes.filter (·.part != tag)
    deque := c.deque.filter (·.part != tag)
    held := c.held.filter (·.1 != tag)
    setAside := c.setAside.filter (·.1 != tag)
    tlb := c.tlb.filter (·.part != tag)
    itlb := c.itlb.filter (·.part != tag)
    upd := c.upd.filter (·.part != tag) }

/-- A core leaves a partition (R73, R439). If it ran the partition its registers are zero, and the next partition in its rotation takes
it; what is no partition's stays: its clock and DUTY, and, but where the partition is released (`zero`), CYCLE and RETIRED (R401,
R462). -/
def leaveCore (now tag : Nat) (zero : Bool) (c : Core) : Core :=
  let next := (nextServed c).filter (· != tag)
  let k := forgetPart tag c
  if c.part ≠ some tag then k
  else
    { Core.reset c.phys with
      serves := k.serves, part := next, sliceFrom := now, allocs := k.allocs, stash := k.stash, stashLines := k.stashLines
      rings := k.rings, hreqs := k.hreqs, owes := k.owes, deque := k.deque, held := k.held, tlb := k.tlb, itlb := k.itlb, upd := k.upd
      freq := c.freq, duty := c.duty, busyPrev := c.busyPrev, demand := c.demand, pace := c.pace
      cycle := if zero then 0 else c.cycle, retired := if zero then 0 else c.retired
      inbox := (next.bind (fun t => (k.setAside.find? (·.1 == t)).map (·.2))).getD []
      setAside := k.setAside.filter (fun x => next != some x.1) }

/-- Entries of a partition's inbox on a core are discarded, each recorded and reported to the partition (R73, R438). -/
def dropInbox (tag phys : Nat) (s : State) : State :=
  let es := inboxOf (coreAt s phys) tag
  es.foldl (fun s e => record (dieOf phys) 0x00B tag phys (BitVec.ofNat 64 e.idx.val) e.value s)
    (onPart tag (fun p => { p with reports := p.reports ++ es }) (onCore phys (putInbox tag []) s))

/-! ### CREATE (R432) -/

/-- Cores in ascending physical identifier (R22). -/
def ascending (cores : List Nat) : List Nat := sortBy id cores

/-- A new partition (R432). -/
def newPartition (tag : Nat) (cores banks : List Nat) (vf gen : Nat) (det : Bool) (shares : List (Nat × Nat)) : Partition where
  tag := tag
  state := 1
  det := det
  ranks := (ascending cores).map (fun x => ⟨x, true, false⟩)
  shadow := none
  shares := shares
  reports := []
  banks := banks
  vf := vf
  gen := gen
  pasid := 0
  s1root := 0
  s1attr := 0
  s2root := 0
  s2attr := 0
  hbase := 0
  ovfbase := 0
  ovfsize := 0
  ovfReady := []
  ovfWatches := []
  grace := 65536
  nhold := 96
  qlen := 4096
  qlenNext := none
  decls := []
  tops := []
  regions := []
  pageOwners := []
  trees := []
  contribs := []
  groups := []
  gids := 0
  launches := []
  parsed := []
  failures := 0

/-- Slice shares that a CREATE may give: each for one of its cores, 10 µs to 100 ms long (R432). -/
def sharesOk (cores : List Nat) (shares : List (Nat × Nat)) : Bool :=
  decide (shares.map (·.1)).Nodup && shares.all (fun x => cores.contains x.1 && 10000 ≤ x.2 && x.2 ≤ 100000000)

/-- CREATE: a free tag, assignable cores, of which those with a share may be shared, banks that nobody owns, a function that serves no
other partition; a default quota may not fall below 1,024 (R338). -/
def create (tag : Nat) (cores banks : List Nat) (vf : Nat) (det : Bool) (shares : List (Nat × Nat)) (s : State) : Option State :=
  if 64 ≤ tag || (partAt s tag).isSome || 64 ≤ vf || !(partsOfVf s vf).isEmpty || cores.isEmpty || !decide cores.Nodup ||
      !sharesOk cores shares || !cores.all (fun x => assignable s tag x (shares.any (·.1 == x))) || !decide banks.Nodup || !banks.all (fun b => b < 9216 && (bankAt s b).owner.isNone) then none
  else
    let s := newGeneration vf (auditLayout 0x0002 tag s)
    let p := newPartition tag cores banks vf (funcAt s vf).gen det shares
    let s := cores.foldl (fun s x => onCore x (joinCore s.time tag) s) s
    let s := banks.foldl (fun s b => onBank b (fun k => { k with owner := some tag }) s) s
    let s := { s with
      parts := putBy Partition.tag p s.parts
      mem := memClear s.mem (slotPa tag 0) 4096
      layout := s.layout + 1 }
    if (ringOf p).all (quotasFit s) then some s else none

/-- CREATE (R432); with the cores come the slice shares of those that are shared. -/
def execCreate (tag : Nat) (cores : List Nat × List (Nat × Nat)) (banks : List Nat) (vf : Nat) (det : Bool) (s : State) :
    Host.Outcome State Fault Refusal :=
  .next (command (create tag cores.1 banks vf det cores.2) s)

/-! ### Staging a layout change (R437, R438) -/

/-- The cores that run a member of a group with a member at a logical core. -/
def groupCoresAt (s : State) (p : Partition) (lcore : Nat) : List Nat :=
  ((p.groups.filter (fun g => g.base ≤ lcore && lcore < g.base + g.size)).flatMap (fun g => memberCores s p.tag g)).eraseDups

/-- Whether the layout that a RESIZE stages leaves every partition of its clusters a quota (R338). -/
def layoutFits (p : Partition) (h : Shadow) (s : State) : Bool :=
  (ringOf { p with ranks := h.ranks }).all (quotasFit (onPart p.tag (fun p => { p with ranks := h.ranks }) s))

/-- The shadow of a layout change: the new rank table, and copies of the tables that the change leaves as they are (R437). -/
def shadowOf (p : Partition) (ranks : List RankEntry) (leaving : List Nat) (shrinking replace : Bool) (limit : Nat) : Shadow :=
  ⟨ranks, p.s2root, p.s2attr, p.pasid, p.banks, p.regions, leaving, shrinking, replace, limit⟩

/-- RESIZE: the highest logical cores leave, new ones are appended. -/
def resize (tag : Nat) (grow : List Nat) (shrink limit : Nat) (s : State) : Option State :=
  match partAt s tag with
  | none => none
  | some p =>
    let keep := p.ranks.take (p.ranks.length - shrink)
    let leaving := (p.ranks.drop (p.ranks.length - shrink)).map RankEntry.phys
    if p.state ≠ 1 || p.ranks.length ≤ shrink || (grow.isEmpty && shrink = 0) || !decide grow.Nodup || !grow.all (assignable s tag · false) then none
    else
      let ranks := keep ++ (ascending grow).map (fun x => ⟨x, true, false⟩)
      let h := shadowOf p ranks leaving true false (s.time + limit)
      if !layoutFits p h s then none
      else some (onPart tag (fun p => { p with shadow := some h, state := 2 }) (auditLayout 0x0005 tag s))

/-- RESIZE (R438). -/
def execResize (tag : Nat) (grow : List Nat) (shrink limit : Nat) (s : State) : Host.Outcome State Fault Refusal :=
  .next (command (resize tag grow shrink limit) s)

/-- The Nesting-buffer entries that hold a member of a core are dispatched (R437). -/
def dispatchHolding (phys : Nat) (s : State) : State :=
  let cl := clusterOf phys
  (List.range (clusterAt s cl).nest.length).foldl (fun s _ =>
    match (clusterAt s cl).nest.findIdx? (fun e => e.members.any (·.phys == phys) && e.members.any (·.ready)) with
    | some n => dispatchEntry cl n s
    | none => s) s

/-- REPLACE: the rank entry is in transit, the Nesting-buffer entries of the old core are dispatched, the groups with a member there
begin to yield (R437). -/
def replace (tag lcore phys : Nat) (s : State) : Option State :=
  match partAt s tag with
  | none => none
  | some p =>
    match physOf p lcore with
    | none => none
    | some old =>
      if p.state ≠ 1 || !assignable s tag phys (sliceLen s tag old).isSome then none
      else
        let h := shadowOf p (p.ranks.set lcore ⟨phys, true, false⟩) [old] false true 0
        let yielding := groupCoresAt s p lcore
        let s := onPart tag (fun p =>
          { p with shadow := some h, state := 2, ranks := p.ranks.modify lcore (fun r => { r with transit := true }) }) (auditLayout 0x0005 tag s)
        let s := dispatchHolding old s
        let s := yielding.foldl (fun s x => if (coreAt s x).run.any (·.part == tag) then tryYield x (beginYield x s) else s) s
        some s

/-- REPLACE (R438). -/
def execReplace (tag lcore phys : Nat) (s : State) : Host.Outcome State Fault Refusal := .next (command (replace tag lcore phys) s)

/-! ### The tick (R437) -/

/-- A core runs nothing of a partition any more, and all its accesses and transfer-record writes are performed. -/
def coreQuiet (s : State) (tag phys : Nat) : Bool :=
  let c := coreAt s phys
  !c.owes.any (·.part == tag) &&
    (c.part ≠ some tag || (c.run.isNone && !c.ctl.live && c.yield.isNone && c.resume.isNone && c.pend.isEmpty))

/-- Entries that wait for a core: in queues, watches, overflow areas and held requests. -/
def entriesFor (s : State) (tag phys : Nat) : Bool :=
  let mine := fun (e : ReadyEntry) => e.part == tag && e.start != .fresh && e.phys == some phys
  s.clusters.any (fun c => c.ready.any mine || c.watches.any (fun w => mine w.entry)) ||
    s.parts.any (fun p => p.ovfReady.any mine || p.ovfWatches.any (fun w => mine w.entry)) ||
    (allCores s).any (fun c => c.held.any (fun q => q.2.entry?.any mine))

/-- A core of a shrink holds no task, group, continuation or deque entry (R438), and nothing that waits for a quantum end. -/
def coreEmpty (s : State) (tag phys : Nat) : Bool :=
  coreQuiet s tag phys && !(coreAt s phys).allocs.any (·.part == tag) && !(coreAt s phys).deque.any (·.part == tag) &&
    !(coreAt s phys).held.any (·.1 == tag) && !entriesFor s tag phys

/-- What a partition has resident on a core finds room on the core that replaces it: its rings under their numbers, its allocations
(R32), its stash entries (R382). -/
def residentsFit (s : State) (tag old new : Nat) : Bool :=
  let o := coreAt s old
  let c := coreAt s new
  (List.finRange 4).all (fun i => !(o.rings.get i).any (·.part == tag) || (c.rings.get i).isNone) &&
    allocBytes c + ((o.allocs.filter (·.part == tag)).map Alloc.size).sum ≤ 0x20000 &&
    (c.stash.filter (·.a.getLsbD 0)).length + (o.stash.filter (fun e => e.part == tag && e.a.getLsbD 0)).length ≤ 16

/-- Whether a staged change may tick. -/
def quiesced (s : State) (p : Partition) (h : Shadow) : Bool :=
  if h.shrinking then h.leaving.all (coreEmpty s p.tag)
  else
    (List.range p.ranks.length).all (fun l =>
      match p.ranks[l]?, h.ranks[l]? with
      | some o, some n => !o.transit || residentsFit s p.tag o.phys n.phys
      | _, _ => true) &&
    (List.range p.ranks.length).all (fun l =>
      !(p.ranks[l]?).any (·.transit) || (h.leaving.all (coreQuiet s p.tag) && (groupCoresAt s p l).all (coreQuiet s p.tag)))

/-- A place of a replaced core's local store is on the new core. -/
def Place.moved (tag old new : Nat) : Place → Place
  | .ls phys part gid off => if phys = old ∧ part = tag then .ls new part gid off else .ls phys part gid off
  | p => p

/-- An entry bound to a replaced core is bound to the new one. -/
def ReadyEntry.moved (tag old new : Nat) (e : ReadyEntry) : ReadyEntry :=
  if e.part = tag then
    { e with
      phys := if e.phys = some old && e.start != .fresh then some new else e.phys
      held := e.held.map (fun h => { h with place := h.place.moved tag old new }) }
  else e

/-- A watch follows its entry and its word. -/
def Watch.moved (tag old new : Nat) (w : Watch) : Watch :=
  { w with place := w.place.moved tag old new, entry := w.entry.moved tag old new }

/-- Requests that wait for the quantum end follow too. -/
def HeldReq.moved (tag old new : Nat) : HeldReq → HeldReq
  | .ready e => .ready (e.moved tag old new)
  | .push e => .push (e.moved tag old new)
  | .arrive c w => .arrive c (w.moved tag old new)
  | .watch w => .watch (w.moved tag old new)
  | q => q

/-- The tables of a partition name the new core. -/
def Partition.moved (old new : Nat) (p : Partition) : Partition :=
  { p with
    shares := p.shares.map (fun x => if x.1 = old then (new, x.2) else x)
    ovfReady := p.ovfReady.map (·.moved p.tag old new)
    ovfWatches := p.ovfWatches.map (·.moved p.tag old new)
    contribs := p.contribs.map (fun c => { c with pieces := c.pieces.map (fun x => (x.1.moved p.tag old new, x.2)) })
    groups := p.groups.map (fun g =>
      { g with bar := g.bar.map (·.moved p.tag old new), tracks := g.tracks.map (fun t => { t with place := t.place.moved p.tag old new }) }) }

/-- A piece of an access, a pending access and a held word follow the place they name. -/
def Piece.moved (tag old new : Nat) (p : Piece) : Piece := { p with place := p.place.moved tag old new }

/-- A pending access follows its place. -/
def PendAcc.moved (tag old new : Nat) (q : PendAcc) : PendAcc := { q with place := q.place.moved tag old new }

/-- A held word follows its place. -/
def HeldWord.moved (tag old new : Nat) (h : HeldWord) : HeldWord := { h with place := h.place.moved tag old new }

/-- Accesses, elements on their way, held words and monitors of a core follow the words they name. -/
def Core.movedPlaces (tag old new : Nat) (c : Core) : Core :=
  let mon := fun (x : Ctx) => { x with monitor := x.monitor.map (fun m => { m with place := m.place.moved tag old new }) }
  { c with
    pend := c.pend.map (·.moved tag old new)
    held := c.held.map (fun q => (q.1, q.2.moved tag old new))
    txn := c.txn.map (fun t => { t with writes := t.writes.map (·.moved tag old new) })
    vxq := c.vxq.map (fun q => { q with placed := q.placed.map (fun x => (x.1, x.2.map (fun y => (y.1, y.2.map (·.moved tag old new))))) })
    run := c.run.map (fun r => { r with held := r.held.map (·.moved tag old new) })
    resume := c.resume.map (·.map (·.moved tag old new))
    deque := c.deque.map (·.moved tag old new)
    ctl := mon c.ctl, helpers := c.helpers.map mon }

/-- Packets on their way from a replaced core come from the new one (R70, R379, R445). -/
def movePackets (tag old new : Nat) (s : State) : State :=
  let at_ := fun (part phys : Nat) => if part = tag ∧ phys = old then new else phys
  { s with
    remotes := s.remotes.map (fun w => { w with phys := at_ w.part w.phys })
    msgs := s.msgs.map (fun m => { m with phys := at_ m.part m.phys })
    posts := s.posts.map (fun q => { q with phys := at_ q.part q.phys })
    flows := s.flows.map (fun f => { f with phys := at_ f.part f.phys }) }

/-- Records that wait in the old cluster for the new core go to its cluster, as they would have come there: within the limits of its
queue and table (R318, R392). -/
def moveQueues (tag new cold cnew : Nat) (s : State) : State :=
  if cold = cnew then s
  else
    let mine := fun (e : ReadyEntry) => e.part == tag && e.start != .fresh && e.phys == some new
    let es := (clusterAt s cold).ready.filter mine
    let ws := (clusterAt s cold).watches.filter (fun w => mine w.entry)
    let s := onCluster cold (fun c =>
      { c with ready := c.ready.filter (fun e => !mine e), watches := c.watches.filter (fun w => !mine w.entry) }) s
    ws.foldl (fun s w => installWatch new w s) (es.foldl (fun s e => readyContinuation e s) s)

/-- What is resident on a replaced core goes to the new one: allocations, rings with the helpers that arrivals ask for, stash maps, the
deque in its order, what waits for a quantum end. -/
def moveResidents (tag old new : Nat) (s : State) : State :=
  let s := ((coreAt s old).stashLines.filter (·.part == tag)).foldl (fun s l => stashWriteBack old l true s) s
  let o := coreAt s old
  onCore new (fun c =>
    { c with
      allocs := c.allocs ++ o.allocs.filter (·.part == tag)
      stash := c.stash ++ o.stash.filter (·.part == tag)
      deque := c.deque ++ o.deque.filter (·.part == tag)
      hreqs := c.hreqs ++ o.hreqs.filter (·.part == tag)
      held := c.held ++ o.held.filter (·.1 == tag)
      rings := Vector.ofFn (fun i : Fin 4 => (c.rings.get i) <|> (o.rings.get i).filter (·.part == tag)) }) s

/-- A replaced core hands over and leaves the partition (R437, R438). -/
def handOver (tag lcore old new : Nat) (s : State) : State :=
  let s := settleCore old s
  let s := movePackets tag old new (onCore new (joinCore s.time tag) s)
  let s := moveResidents tag old new s
  let s := mapCores (Core.movedPlaces tag old new) { s with
    clusters := s.clusters.map (fun c =>
      { c with ready := c.ready.map (·.moved tag old new), watches := c.watches.map (·.moved tag old new) }) }
  let s := onPart tag (Partition.moved old new) s
  let s := moveQueues tag new (clusterOf old) (clusterOf new) s
  let moved := ((partAt s tag).map (fun p => (p.groups.filter (fun g => g.base == lcore)).map Group.gid)).getD []
  let s := onPart tag (fun p =>
    { p with groups := p.groups.map (fun g => if g.base = lcore then { g with cluster := clusterOf new } else g) }) s
  let kept := (clusterAt s (clusterOf old)).reserves.filter (fun r => r.1 == tag && moved.contains r.2)
  let s := onCluster (clusterOf old) (fun c => { c with reserves := c.reserves.filter (fun r => !kept.contains r) }) s
  let s := onCluster (clusterOf new) (fun c => { c with reserves := c.reserves ++ kept }) s
  onCore old (leaveCore s.time tag false) (dropInbox tag old s)

/-- The pending spill records of a partition, in order of slot, cluster and place: store, slot, and what the record holds, none
for one that is discarded (R347). -/
def spilled (p : Partition) : Act (List (Nat × Nat × Option (Word × W32))) := do
  p.decls.foldlM (fun l d => do
    (ringOf p).foldlM (fun l cl => do
      let k := slotStateOf (clusterAt (← get) cl) p.tag d
      (List.range k.pending).foldlM (fun l i => do
        match ← attempt (readSpill p d cl (k.head + i)) with
        | .ok (kw, v) => return l ++ [(cl, d.slot, if bitsOf kw 63 44 ≠ 0 || kwSlot kw ≠ d.slot then none else some (kw, v))]
        | .error (.stall x) => stallAct x
        | .error _ => return l ++ [(cl, d.slot, none)]) l) l) []

/-- Posts that carry a value again to its home in the new layout (R438). -/
def repost (p : Partition) (cl : Nat) (kw : Word) (v : W32) : Option Post :=
  (declOf p (kwSlot kw)).map (fun d =>
    ⟨p.tag, d.slot, kwKey kw, v, foldHome p d (kwKey kw) ((ringOf p).headD cl), (ringOf p).headD cl * 256, 11, none⟩)

/-- A post that has still to be applied goes to its home in the new layout (R346, R438). -/
def Post.rehome (p : Partition) (q : Post) : Post :=
  let cl := if (ringOf p).contains (clusterOf q.phys) then clusterOf q.phys else (ringOf p).headD (clusterOf q.phys)
  match declOf p q.slot with
  | some d => if q.part = p.tag then { q with home := foldHome p d q.key cl } else q
  | none => q

/-- The posts of a partition, on their way, held to a quantum end or in an open transaction, go to their homes in the new layout. -/
def rehomePosts (p : Partition) (s : State) : State :=
  mapCores (fun c => { c with
    held := c.held.map (fun r => match r.2 with | .post q => (r.1, .post (q.rehome p)) | _ => r)
    txn := c.txn.map (fun t => { t with posts := t.posts.map (Post.rehome p) }) })
    { s with posts := s.posts.map (Post.rehome p) }

/-- The clusters of a partition have changed (R438): entries at a removed cluster are reposted in ascending key order, spill
records go with them, posts on their way go to their new homes, a running Top starts its round again. -/
def ringChanged (before after : Partition) (spills : List (Nat × Nat × Option (Word × W32))) (s : State) : State :=
  let gone := (ringOf before).filter (fun cl => !(ringOf after).contains cl)
  let lost := gone.flatMap (fun cl => ((clusterAt s cl).fold.filter (·.part == after.tag)).map (fun e => (cl, e)))
  let es := (sortBy (fun x => x.2.key) lost).filterMap (fun x => repost after x.1 (keyWord x.2.slot x.2.key) x.2.value)
  let rs := spills.filterMap (fun x => x.2.2.bind (fun r => repost after x.1 r.1 r.2))
  let s := (spills.filter (fun x => x.2.2.isNone)).foldl (fun s x => spillRecord after x.1 (keyWord x.2.1 0) s) s
  let s := gone.foldl (fun s cl => onCluster cl (fun c =>
    { c with fold := c.fold.filter (·.part != after.tag), slots := c.slots.filter (·.part != after.tag), quotas := c.quotas.filter (·.1 != after.tag) }) s) s
  let s := rehomePosts after s
  let s := { s with
    posts := s.posts ++ es ++ rs
    clusters := s.clusters.map (fun c => { c with slots := modifyWhere (·.part == after.tag) (fun k => { k with head := 0, tail := 0 }) c.slots }) }
  onPart after.tag (fun p =>
    { p with tops := p.tops.map (fun t => { t with holder := (ringOf after).headD t.holder, black := true, started := false }) }) s

/-- Fresh entries in the queue of a cluster that can no longer hold them, or that their BASE has left, go at the tick where R320 puts
them; where no cluster can hold one its task fails with cause 0x09. -/
def requeue (tag : Nat) (s : State) : State :=
  match partAt s tag with
  | none => s
  | some p =>
    let goes := fun (cl : Nat) (e : ReadyEntry) => e.part == tag && e.start == .fresh && queueCluster p cl e.rcd != some cl
    let late := fun (e : ReadyEntry) => goes (clusterOf (e.phys.getD 0)) e
    let out := s.clusters.flatMap (fun c => (c.ready.filter (goes c.id)).map (fun e => (c.id, e))) ++
      (p.ovfReady.filter late).map (fun e => (clusterOf (e.phys.getD 0), e))
    let s := onPart tag (fun p => { p with ovfReady := p.ovfReady.filter (fun e => !late e) })
      { s with clusters := s.clusters.map (fun c => { c with ready := c.ready.filter (fun e => !goes c.id e) }) }
    out.foldl (fun s x =>
      let e := { x.2 with phys := none }
      match queueCluster p x.1 e.rcd with
      | none => failEntry e 0x09 s
      | some cl =>
        (readyPush cl e s).getD (onCluster cl (fun c => { c with ready := insertBy (fun x => 7 - x.rcd.prio) e c.ready }) s)) s

/-- Every table of a partition swaps to its shadow (R437); a region keeps the owner that it has now. -/
def Partition.swapped (h : Shadow) (p : Partition) : Partition :=
  let owned := fun (r : Region) => { r with owner := ((p.regions.find? (fun x => x.base == r.base)).map Region.owner).getD r.owner }
  { p with
    ranks := h.ranks, s2root := h.s2root, s2attr := h.s2attr, pasid := h.pasid, banks := h.banks, regions := h.regions.map owned
    shares := if h.shrinking then p.shares.filter (fun x => !h.leaving.contains x.1) else p.shares
    shadow := none, state := 1 }

/-- The tick: every table swaps to its shadow, leaving cores leave, the layout version rises (R437). -/
def tick (p : Partition) (h : Shadow) (spills : List (Nat × Nat × Option (Word × W32))) (s : State) : State :=
  let s := if h.shrinking then
      let s := h.leaving.foldl (fun s x => onCore x (leaveCore s.time p.tag false) (dropInbox p.tag x (settleCore x s))) s
      (h.ranks.drop (p.ranks.length - h.leaving.length)).foldl (fun s r => onCore r.phys (joinCore s.time p.tag) s) s
    else
      (List.range p.ranks.length).foldl (fun s l =>
        match p.ranks[l]?, h.ranks[l]? with
        | some o, some n => if o.transit then handOver p.tag l o.phys n.phys s else s
        | _, _ => s) s
  let s := { onPart p.tag (Partition.swapped h) s with layout := s.layout + 1 }
  let s := if s.core.phys ∈ h.leaving ∧ !h.shrinking then focusOn ((h.ranks.head?.map RankEntry.phys).getD s.core.phys) s else s
  match partAt s p.tag with
  | none => s
  | some q => refillQueues (requeue p.tag (if ringOf q = ringOf p then s else ringChanged p q spills s))

/-- A layout change that does not come about leaves the layout as it is, and the request fails (R438). -/
def dropChange (tag : Nat) (s : State) : State :=
  onPart tag (fun p => { p with shadow := none, state := 1 }) { s with io := { s.io with response := .error } }

/-- Make the staged layout change of a partition, once its leaving cores are quiet and the spill records that must move can be read. A
RESIZE that would now leave some default quota below 1,024 fails with nothing changed (R338). -/
def tickDue (tag : Nat) (s : State) : State :=
  match (partAt s tag).bind (fun p => p.shadow.map (fun h => (p, h))) with
  | none => s
  | some (p, h) =>
    if !quiesced s p h then s
    else if h.shrinking && !layoutFits p h s then dropChange tag s
    else if ringOf p = ringOf { p with ranks := h.ranks } then tick p h [] s
    else
      match spilled p s with
      | .ok l s => tick p h l s
      | .error _ s => s

/-- SHRINK_LIMIT_EXPIRY (R438): the request fails and the layout is unchanged. -/
def execShrinkLimitExpiry (tag : Nat) (s : State) : Host.Outcome State Fault Refusal :=
  .next (match (partAt s tag).bind Partition.shadow with
    | none => s
    | some h => if h.shrinking && h.limit ≤ s.time && !h.leaving.isEmpty then dropChange tag s else s)

/-! ### The quantum end (R332, R355) -/

/-- QUANTUM_END (R332): what the quantum held is applied, a layout change that is due is made (R355, R437), and the next quantum
begins. -/
def execQuantumEnd (part : Nat) (s : State) : Host.Outcome State Fault Refusal :=
  .next (match partAt s part with
    | none => s
    | some p =>
      if p.state = 3 || !quantumDue s p then s
      else
        match endQuantum p s with
        | (false, s) => s
        | (true, s) => beginQuantum part (tickDue part s))

/-! ### RELEASE (R439) -/

/-- A launch that is still armed completes with STATUS 2 and CODE 7; false if its word must wait for a page. -/
def abortLaunch (p : Partition) (slot : Nat) (s : State) : Bool × State :=
  let done := ((p.launches.find? (·.slot == slot)).map Launch.done).getD (wordAt (memRead s.mem (slotPa p.tag slot) 64) 16)
  let phys := (p.ranks.head?.map RankEntry.phys).getD 1
  let clear := fun (s : State) =>
    homeWrite [(slotPa p.tag slot + 63, 0)] (onPart p.tag (fun p => { p with launches := p.launches.filter (·.slot != slot) }) s)
  let lost := fun (s : State) => (true, clear (record 4 0x00C p.tag 0x3FFF done (BitVec.ofNat 64 slot) s))
  if done.toNat % 8 ≠ 0 then lost s
  else
    match writeDone phys p.tag done (completionWord true ⟨slot, 0, 0, 7, done, false⟩) s with
    | .ok _ s => (true, clear s)
    | .error (.stall _) s => (false, s)
    | .error _ s => lost s

/-- The bank of a line of device memory. -/
def lineBank (line : Nat) : Nat := bankOf (line * 64)

/-- A cluster forgets a partition: lines of host memory are written back, then everything with its tag goes. -/
def scrubPart (tag cl : Nat) (s : State) : State :=
  let mine := (clusterAt s cl).lines.filter (·.part == tag)
  let s := (mine.filter (fun l => isHost (l.line * 64))).foldl (fun s l => writeBack cl l.line s) s
  let lines := mine.map CLine.line
  onCluster cl (fun c =>
    { c with
      lines := c.lines.filter (·.part != tag)
      pins := c.pins.filter (fun l => !lines.contains l)
      refetch := c.refetch.filter (fun l => !lines.contains l)
      tlb := c.tlb.filter (·.part != tag)
      walks := c.walks.filter (·.1 != tag)
      fold := c.fold.filter (·.part != tag)
      slots := c.slots.filter (·.part != tag)
      quotas := c.quotas.filter (·.1 != tag)
      ready := c.ready.filter (·.part != tag)
      watches := c.watches.filter (·.entry.part != tag)
      reserves := c.reserves.filter (·.1 != tag)
      mons := c.mons.map (fun u =>
        if u.config.getLsbD 0 && bitsOf u.config 35 30 == tag then { u with config := setBits (u.config &&& ~~~1#64) 35 30 0 } else u) }) s

/-- Everything under way for a partition outside its cores and clusters is discarded. -/
def scrubTraffic (tag : Nat) (s : State) : State :=
  { s with
    remotes := s.remotes.filter (·.part != tag)
    answers := s.answers.filter (·.part != tag)
    flows := s.flows.filter (·.part != tag)
    posts := s.posts.filter (·.part != tag)
    thrs := s.thrs.filter (·.1 != tag)
    msgs := s.msgs.filter (·.part != tag)
    hwork := s.hwork.filter (·.part != tag)
    partials := s.partials.filter (·.part != tag)
    dies := s.dies.map (fun d =>
      { d with
        proxies := d.proxies.filter (·.part != tag)
        emus := d.emus.filter (fun e => (coreAt s e.phys).part != some tag) }) }

/-- A bank is powered off with its contents, its host copies and the marks on its lines (R186). -/
def powerBank (b : Nat) (s : State) : State :=
  let s := clearBank b s
  let here := fun (l : Nat) => isDram (l * 64) && lineBank l == b
  onBank b (fun k => { k with owner := none, state := if k.state == .off then .off else .powerDown }) { s with
    wakes := s.wakes.filter (·.bank != b)
    wakeQueue := s.wakeQueue.filter (· != b)
    hostLines := s.hostLines.filter (fun l => !here l)
    hostWaits := s.hostWaits.filter (fun l => !here l)
    detTags := s.detTags.filter (fun l => !here l)
    foreignMarks := s.foreignMarks.filter (fun l => !here l) }

/-- The cores of a partition stop without a save, and all that they and the mesh hold of it is gone (R439). -/
def stopPartition (p : Partition) (s : State) : State :=
  let cores := ((allCores s).filter (fun c => (servedBy c).contains p.tag)).map Core.phys
  let running := cores.filter (fun x => (coreAt s x).part == some p.tag)
  let s := running.foldl (fun s x =>
    forgetAnswers x (onCluster (clusterOf x) (leaveNest x (fun _ => true)) { s with owned := s.owned.filter (·.2.1 != x) })) s
  let s := scrubTraffic p.tag s
  cores.foldl (fun s x => onCore x (leaveCore s.time p.tag true) s) (onPart p.tag (fun p => { p with state := 3, shadow := none }) s)

/-- The steps of a release after its launches are complete. -/
def finishRelease (p : Partition) (s : State) : State :=
  let s := (s.clusters.map Cluster.id).foldl (fun s cl => scrubPart p.tag cl s) (scrubTraffic p.tag s)
  let s := p.banks.foldl (fun s b => powerBank b s) s
  let s := newGeneration p.vf s
  refillQueues { s with
    mem := memClear s.mem (slotPa p.tag 0) 4096
    dieLines := s.dieLines.filter (·.2 != p.tag)
    parts := s.parts.filter (·.tag != p.tag)
    layout := s.layout + 1 }

/-- A release goes on: its armed launches complete, then the rest is done; while a completion word waits the partition stays
releasing. -/
def goOnRelease (tag : Nat) (s : State) : State :=
  match partAt s tag with
  | none => s
  | some p =>
    let (ok, s) := (armedSlots s tag).foldl (fun (x : Bool × State) n => if x.1 then abortLaunch p n x.2 else x) (true, s)
    if ok then finishRelease p s
    else if s.hwork.contains (.release tag) then s
    else { s with hwork := s.hwork ++ [.release tag] }

/-- RELEASE: it is measured before it takes effect (R449); one that is under way goes on by itself. -/
def release (tag : Nat) (s : State) : Option State :=
  match partAt s tag with
  | none => none
  | some p => if p.state = 3 then none else some (goOnRelease tag (stopPartition p (auditLayout 0x0003 tag s)))

/-- RELEASE (R439). -/
def execRelease (tag : Nat) (s : State) : Host.Outcome State Fault Refusal := .next (command (release tag) s)

/-- LAYOUT_TICK (R437): a layout change that is due is made, under the quantum rules only at quantum ends (R355). A release that had to
wait goes on (R439). -/
def execLayoutTick (tag : Nat) (s : State) : Host.Outcome State Fault Refusal :=
  .next (match partAt s tag with
    | none => s
    | some p => if p.state = 3 then goOnRelease tag s else if quantumRules p then s else tickDue tag s)

end Sys2Proof.Machine
end

