-- ==== Sys2Proof/Machine/Power.lean ====
section
/-!
DEFINITION. Power, clocks and resets (R449, R455 to R461), and the traps of a word that is no instruction or cannot be
fetched (R43, R56).
-/

namespace Sys2Proof.Machine

/-! ### Resets (R449, R461) -/

/-- Memory that is not the device's: host memory and other packages. -/
def isOutside (pa : Nat) : Bool := isHost pa || (packageOf pa).isSome

/-- What a reset does not lose of memory. -/
def outsideMemory (m : Memory) : Memory := m.filter (fun c => isOutside c.1)

/-- Clusters after a reset that keeps what the microcontroller has set: their limits (R462). -/
def limitsOnly (cs : List Cluster) : List Cluster :=
  (cs.filter (·.limit.isSome)).map (fun c => { Cluster.reset c.id with limit := c.limit })

/-- The module with every partition and all device memory lost (R461): banks off, cores and clusters as after reset. -/
def lostState (s : State) : State :=
  { State.reset with
    agenda := s.agenda, turn := s.turn, freeCtr := s.freeCtr, time := s.time, mem := outsideMemory s.mem
    badLines := s.badLines.filter (fun l => isOutside (l * 64))
    dies := s.dies.map (fun d => { d with proxies := [], emus := [] })
    io := { IODie.reset with
      audit := s.io.audit, auditSeq := s.io.auditSeq, bb := s.io.bb, poweredAt := s.io.poweredAt, fuse := s.io.fuse } }

/-- A warm reset keeps what only the governor, the microcontroller and thermal trips change: clocks, islands and limits (R461, R462). -/
def warmState (s : State) : State :=
  let t := lostState s
  (allCores s).foldl (fun t c => if c.freq = (Core.reset c.phys).freq then t else onCore c.phys (fun k => { k with freq := c.freq }) t)
    { t with clusters := limitsOnly s.clusters, io := { t.io with volts := s.io.volts, fmax := s.io.fmax, slowBelow := s.io.slowBelow, fastAbove := s.io.fastAbove } }

/-- The measurements of a boot (R449): boot ROM and fuses, the Relhar image, the firmware of each control core in die order,
the microcontroller's firmware, the debug state. -/
def measureBoot (items : List (List Byte)) (s : State) : State :=
  let item := fun (i : Nat) => items.getD i []
  let s := measure 1 (item 1) (measure 0 (item 0) s)
  let s := [2, 3, 4, 5].foldl (fun s i => measure 2 (item i) s) s
  measure 4 (item 7) (measure 3 (item 6) s)

/-- The Relhar image is genuine (R449): the key is the one that the fuses fix, and the signature over the image verifies. -/
def imageOk (key sig : List Byte) (items : List (List Byte)) (s : State) : Bool :=
  sha384 key == s.io.fuse && ecdsaOk key sig (items.getD 1 [])

/-- The boot: a bad signature leaves the module in recovery (R449). -/
def boot (key sig : List Byte) (items : List (List Byte)) (s : State) : State :=
  if imageOk key sig items s then
    let s := measureBoot items s
    { s with io := { s.io with booted := true } }
  else s

/-- The microcontroller ramps the 24 islands (R461, step 1), to voltages that the spec does not state: free (log entry 3). -/
def rampIslands (s : State) : State :=
  { s with
    io := { s.io with volts := (List.range 24).map (fun i => (Config.freeWord (s.freeCtr + i)).toNat) }
    freeCtr := s.freeCtr + 24 }

/-- COLD_RESET (R461) with the key and the signature of the image (R449): the black boxes are empty and no longer frozen (R454); the hardware clock counts from the time at which the power
has come (R451). -/
def execColdReset (signed : List (BitVec 8) × List (BitVec 8)) (items : List (List (BitVec 8))) (s : State) : Host.Outcome State Fault Refusal :=
  let t := lostState s
  .next (boot signed.1 signed.2 items (rampIslands { t with
    powered := true
    dies := t.dies.map (fun d => { d with bb := BlackBox.reset })
    io := { t.io with bb := BlackBox.reset, poweredAt := if s.powered then t.io.poweredAt else s.time } }))

/-- The record of a reset, whose DATA is the kind of reset (R452): 1 for a warm one, packed as the implementation has it (log entry
9). -/
def auditReset (s : State) : State := auditPut (nextAudit 0x0001 0xFF (Config.packFields 32 [1]) s) s

/-- WARM_RESET (R461): the audit log and the black boxes stay, and audit event 0x0001 is appended once the boot ROM has run. -/
def execWarmReset (signed : List (BitVec 8) × List (BitVec 8)) (items : List (List (BitVec 8))) (s : State) : Host.Outcome State Fault Refusal :=
  .next (if !s.powered then s else auditReset (boot signed.1 signed.2 items (warmState s)))

/-- POWER_OFF (R451): the audit log is lost with everything else but the fuses. -/
def execPowerOff (s : State) : Host.Outcome State Fault Refusal :=
  .next { State.reset with
    agenda := s.agenda, turn := s.turn, freeCtr := s.freeCtr, time := s.time, mem := outsideMemory s.mem, powered := false
    io := { IODie.reset with fuse := s.io.fuse } }

/-! ### The budget tree (R456) -/

/-- 16 × B ÷ D rounded down, at most 16; a node without demand has its whole budget. -/
def sixteenths (b d : Nat) : Nat := if d = 0 then 16 else min 16 (16 * b / d)

/-- The demand of the cores that a test selects, in mW. -/
def demandOf (demands : List (Nat × Nat)) (test : Nat → Bool) : Nat := ((demands.filter (fun x => test x.1)).map (·.2)).sum

/-- DUTY of a running core (R456): the die's budget divides by demand, a cluster's limit bounds its share; rows and cores
have no limit of their own, so their ratio is their cluster's. -/
def dutyFor (s : State) (dieBudgets : List Nat) (demands : List (Nat × Nat)) (phys : Nat) : Nat :=
  let die := sixteenths (dieBudgets.getD (dieOf phys) 0) (demandOf demands (fun x => dieOf x == dieOf phys))
  let cluster := match (clusterAt s (clusterOf phys)).limit with
    | none => 16
    | some l => sixteenths l (demandOf demands (fun x => clusterOf x == clusterOf phys))
  max 1 (min die cluster)

/-- The demand of a core in mW (R456): its counts of issued instructions, matrix K-steps, vector element groups and bytes moved, each
with its fixed weight, which the spec does not state (log entry 111). -/
def demandFrom (counts : List Nat) : Nat := ((List.range 4).map (fun i => Config.demandWeight i * counts.getD i 0)).sum

/-- A write of DUTY, which monitor units sample (R400). -/
def putDuty (phys duty : Nat) (s : State) : State :=
  sampleAt phys (corePart (coreAt s phys)) 8 0 duty (onCore phys (fun c => { c with duty := duty }) s)

/-- The budget tree runs on the demands that the cores report: every core that runs a task gets its DUTY, an idle one 16. -/
def runBudgetTree (dieBudgets : List Nat) (demands : List (Nat × Nat)) (s : State) : State :=
  let s := demands.foldl (fun s x => onCore x.1 (fun c => { c with demand := x.2 }) s) s
  (allCores s).foldl (fun s c => putDuty c.phys (if c.run.isSome then dutyFor s dieBudgets demands c.phys else 16) s) s

/-- BUDGET_TREE_UPDATE (R456): the budgets of the four compute dies and behind them the draw of the I/O die, in mW, and what each core
has counted in the last 10 µs. Budgets of more than 3,200 W less that draw are not put into force (R3, R459). -/
def execBudgetTreeUpdate (dieBudgets : List Nat) (counts : List (Nat × List Nat)) (s : State) : Host.Outcome State Fault Refusal :=
  .next (if 3200000 < (dieBudgets.take 5).sum then s
    else runBudgetTree dieBudgets (counts.map (fun x => (x.1, demandFrom x.2))) s)

/-! ### Ramp and governor (R457, R458) -/

/-- RAMP_WINDOW (R457): the busy cycles of a slice move by at most an eighth of the window's cycles, 1 µs at its clock. -/
def execRampWindow (core busy : Nat) (s : State) : Host.Outcome State Fault Refusal :=
  .next (onCore core (fun c => { c with busyPrev := max (c.busyPrev - c.freq / 8) (min (c.busyPrev + c.freq / 8) busy) }) s)

/-- The supply island of a core (R459). -/
def islandOf (phys : Nat) : Nat := dieOf phys * 5 + clusterOf phys % 16 / 2

/-- The highest frequency of a core's island, in MHz: the core clock is 1.0 to 4.0 GHz in steps of 125 MHz (R2, R455). -/
def maxFreq (s : State) (phys : Nat) : Nat := max 1000 (min 4000 (s.io.fmax.getD (islandOf phys) 4000 / 125 * 125))

/-- GOVERNOR_WINDOW (R458): a sensitivity below the lower threshold, 0.25 unless the microcontroller has written another, slows the next
window by 125 MHz, one above the upper, 0.5, speeds it up. -/
def execGovernorWindow (core cycles stalls : Nat) (s : State) : Host.Outcome State Fault Refusal :=
  .next (onCore core (fun c =>
    if 100 * (cycles - stalls) < s.io.slowBelow * cycles then { c with freq := max 1000 (c.freq - 125) }
    else if s.io.fastAbove * cycles < 100 * (cycles - stalls) then { c with freq := max c.freq (min (c.freq + 125) (maxFreq s core)) }
    else c) s)

/-! ### The microcontroller and thermal limits (R459, R460) -/

/-- The hottest of a cluster's four sensors, in °C. -/
def hottest (temps : List Nat) (i : Nat) : Nat := ((temps.drop (4 * i)).take 4).foldl max 0

/-- The limit of a cluster, in mW: above 95 °C the one that stands falls by a tenth. -/
def newLimit (old given : Option Nat) (temp : Nat) : Option Nat :=
  if 95 < temp then (old <|> given).map (fun l => l - (l + 9) / 10) else given <|> old

/-- The cores of a cluster, by physical identifier (R21). -/
def coresAt (cl : Nat) : List Nat := ((List.range 256).map (fun i => cl * 256 + i)).filter isCore

/-- No core of a cluster runs faster than its island allows (R459). -/
def holdFreq (cl : Nat) (s : State) : State :=
  let m := maxFreq s (cl * 256)
  if m = 4000 then s else (coresAt cl).foldl (fun s x => onCore x (fun c => { c with freq := min c.freq m }) s) s

/-- Compute cluster i of 40, in the order of the dies (R20). -/
def nthCluster (i : Nat) : Nat := i / 10 * 16 + i % 10

/-- MICROCONTROLLER_LOOP (R459, R460): voltages and maximum frequencies of the 24 islands, limits of the 40 clusters with the
governor's two thresholds in 1/100 (R458). -/
def execMicrocontrollerLoop (temps volts fmax : List Nat) (limits : List Nat × Nat × Nat) (s : State) :
    Host.Outcome State Fault Refusal :=
  let s := { s with io := { s.io with volts := volts.take 24, fmax := fmax.take 24, slowBelow := limits.2.1, fastAbove := limits.2.2 } }
  let s := (List.range 40).foldl (fun s i =>
    onCluster (nthCluster i) (fun c => { c with limit := newLimit c.limit limits.1[i]? (hottest temps i) }) s) s
  .next ((List.range 40).foldl (fun s i => holdFreq (nthCluster i) s) s)

/-- THERMAL_TRIP (R460): every core of a cluster at 1.0 GHz and DUTY 4; audited and recorded. -/
def execThermalTrip (cluster : Nat) (s : State) : Host.Outcome State Fault Refusal :=
  let s := (coresAt cluster).foldl (fun s x => putDuty x 4 (onCore x (fun c => { c with freq := 1000 }) s)) s
  .next (auditEvent 0x000A 0xFF (record (cluster / 16) 0x00F 0 0x3FFF (BitVec.ofNat 64 cluster) 0 s))

/-- THERMAL_SHUTDOWN (R460): the compute dies lose their power, with every core, cluster and stacked bank; the fatal error
of R454 is recorded. -/
def execThermalShutdown (s : State) : Host.Outcome State Fault Refusal :=
  let t := freeze 4 s
  .next { t with
    powered := false, core := Core.reset 1, others := [], clusters := limitsOnly t.clusters
    mem := t.mem.filter (fun c => 0x3000000000 ≤ c.1)
    banks := t.banks.map (fun b => if b.id < 8192 then { b with state := .off } else b)
    wakes := [], wakeQueue := [], remotes := [], posts := [], answers := [], thrs := [], msgs := [], flows := [], sleepers := []
    hwork := [], partials := []
    dies := t.dies.map (fun d => { d with proxies := [], emus := [] }) }

/-! ### Words that are no instruction (R43, R56) -/

/-- HOLE (R56): the word traps with its cause, EVAL = the word. -/
def execHole (word : BitVec 32) (cause : BitVec 8) (s : State) : Host.Outcome State Fault Refusal :=
  .next (halt (.trap cause (word.zeroExtend 64) 0) s)

/-- FETCH_FAULT (R43): the instruction traps with the fault of its fetch, EVAL = the address of the halfword. -/
def execFetchFault (cause : BitVec 8) (eval : BitVec 64) (s : State) : Host.Outcome State Fault Refusal :=
  .next (halt (.trap cause eval 0) s)

end Sys2Proof.Machine
end

