-- ==== Sys2Proof/Machine/Dispatch.lean ====
section
/-!
DEFINITION. Which meaning each instruction and event has: one arm for each constructor of Instr, each one direct call.
-/

namespace Sys2Proof.Machine

/-- The outcome of an instruction or event in a state. -/
def exec (i : Instr) (s : State) : Host.Outcome State Fault Refusal :=
  match i with
  | .add d a b wa wb => Sys2Proof.Machine.execAdd d a b wa wb s
  | .sub d a b wa wb => Sys2Proof.Machine.execSub d a b wa wb s
  | .mul d a b wa wb => Sys2Proof.Machine.execMul d a b wa wb s
  | .mulh d a b wa wb => Sys2Proof.Machine.execMulh d a b wa wb s
  | .mulhn d a b wa wb => Sys2Proof.Machine.execMulhn d a b wa wb s
  | .div d a b wa wb => Sys2Proof.Machine.execDiv d a b wa wb s
  | .divn d a b wa wb => Sys2Proof.Machine.execDivn d a b wa wb s
  | .rem d a b wa wb => Sys2Proof.Machine.execRem d a b wa wb s
  | .remn d a b wa wb => Sys2Proof.Machine.execRemn d a b wa wb s
  | .and d a b wa wb => Sys2Proof.Machine.execAnd d a b wa wb s
  | .or d a b wa wb => Sys2Proof.Machine.execOr d a b wa wb s
  | .xor d a b wa wb => Sys2Proof.Machine.execXor d a b wa wb s
  | .andn d a b wa wb => Sys2Proof.Machine.execAndn d a b wa wb s
  | .sll d a b wa wb => Sys2Proof.Machine.execSll d a b wa wb s
  | .srl d a b wa wb => Sys2Proof.Machine.execSrl d a b wa wb s
  | .sra d a b wa wb => Sys2Proof.Machine.execSra d a b wa wb s
  | .ror d a b wa wb => Sys2Proof.Machine.execRor d a b wa wb s
  | .min d a b wa wb => Sys2Proof.Machine.execMin d a b wa wb s
  | .max d a b wa wb => Sys2Proof.Machine.execMax d a b wa wb s
  | .minn d a b wa wb => Sys2Proof.Machine.execMinn d a b wa wb s
  | .maxn d a b wa wb => Sys2Proof.Machine.execMaxn d a b wa wb s
  | .slt d a b wa wb => Sys2Proof.Machine.execSlt d a b wa wb s
  | .sltn d a b wa wb => Sys2Proof.Machine.execSltn d a b wa wb s
  | .seq d a b wa wb => Sys2Proof.Machine.execSeq d a b wa wb s
  | .clz d a wa => Sys2Proof.Machine.execClz d a wa s
  | .ctz d a wa => Sys2Proof.Machine.execCtz d a wa s
  | .popc d a wa => Sys2Proof.Machine.execPopc d a wa s
  | .sext d a size wa => Sys2Proof.Machine.execSext d a size wa s
  | .zext d a size wa => Sys2Proof.Machine.execZext d a size wa s
  | .csel d a b wa wb => Sys2Proof.Machine.execCsel d a b wa wb s
  | .addi d a wa imm => Sys2Proof.Machine.execAddi d a wa imm s
  | .andi d a wa imm => Sys2Proof.Machine.execAndi d a wa imm s
  | .ori d a wa imm => Sys2Proof.Machine.execOri d a wa imm s
  | .xori d a wa imm => Sys2Proof.Machine.execXori d a wa imm s
  | .slli d a wa amt => Sys2Proof.Machine.execSlli d a wa amt s
  | .srli d a wa amt => Sys2Proof.Machine.execSrli d a wa amt s
  | .srai d a wa amt => Sys2Proof.Machine.execSrai d a wa amt s
  | .rori d a wa amt => Sys2Proof.Machine.execRori d a wa amt s
  | .slti d a wa imm => Sys2Proof.Machine.execSlti d a wa imm s
  | .sltni d a wa imm => Sys2Proof.Machine.execSltni d a wa imm s
  | .hi d imm => Sys2Proof.Machine.execHi d imm s
  | .pcrel d imm => Sys2Proof.Machine.execPcrel d imm s
  | .beq a b w off => Sys2Proof.Machine.execBeq a b w off s
  | .bne a b w off => Sys2Proof.Machine.execBne a b w off s
  | .blt a b w off => Sys2Proof.Machine.execBlt a b w off s
  | .bge a b w off => Sys2Proof.Machine.execBge a b w off s
  | .bltn a b w off => Sys2Proof.Machine.execBltn a b w off s
  | .bgen a b w off => Sys2Proof.Machine.execBgen a b w off s
  | .bbs a bit w off => Sys2Proof.Machine.execBbs a bit w off s
  | .bbc a bit w off => Sys2Proof.Machine.execBbc a bit w off s
  | .jal d off => Sys2Proof.Machine.execJal d off s
  | .jalr d a wa imm => Sys2Proof.Machine.execJalr d a wa imm s
  | .fadd d a b wa wb => Sys2Proof.Machine.execFadd d a b wa wb s
  | .fsub d a b wa wb => Sys2Proof.Machine.execFsub d a b wa wb s
  | .fmul d a b wa wb => Sys2Proof.Machine.execFmul d a b wa wb s
  | .fdiv d a b wa wb => Sys2Proof.Machine.execFdiv d a b wa wb s
  | .fsqrt d a wa => Sys2Proof.Machine.execFsqrt d a wa s
  | .fmin d a b wa wb => Sys2Proof.Machine.execFmin d a b wa wb s
  | .fmax d a b wa wb => Sys2Proof.Machine.execFmax d a b wa wb s
  | .fneg d a wa => Sys2Proof.Machine.execFneg d a wa s
  | .fabs d a wa => Sys2Proof.Machine.execFabs d a wa s
  | .fsgnj d a b wa wb => Sys2Proof.Machine.execFsgnj d a b wa wb s
  | .feq d a b wa wb => Sys2Proof.Machine.execFeq d a b wa wb s
  | .flt d a b wa wb => Sys2Proof.Machine.execFlt d a b wa wb s
  | .fle d a b wa wb => Sys2Proof.Machine.execFle d a b wa wb s
  | .fclass d a wa => Sys2Proof.Machine.execFclass d a wa s
  | .frcp d a wa => Sys2Proof.Machine.execFrcp d a wa s
  | .frsq d a wa => Sys2Proof.Machine.execFrsq d a wa s
  | .fcvtfi d a wa => Sys2Proof.Machine.execFcvtfi d a wa s
  | .fcvtif d a wa => Sys2Proof.Machine.execFcvtif d a wa s
  | .fcvtfn d a wa => Sys2Proof.Machine.execFcvtfn d a wa s
  | .fcvtnf d a wa => Sys2Proof.Machine.execFcvtnf d a wa s
  | .fcvtbf d a wa => Sys2Proof.Machine.execFcvtbf d a wa s
  | .fcvtfb d a wa => Sys2Proof.Machine.execFcvtfb d a wa s
  | .ffma d a b c w => Sys2Proof.Machine.execFfma d a b c w s
  | .ffms d a b c w => Sys2Proof.Machine.execFfms d a b c w s
  | .fnfma d a b c w => Sys2Proof.Machine.execFnfma d a b c w s
  | .fnfms d a b c w => Sys2Proof.Machine.execFnfms d a b c w s
  | .ldB d a wa off => Sys2Proof.Machine.execLdB d a wa off s
  | .ldH d a wa off => Sys2Proof.Machine.execLdH d a wa off s
  | .ldW d a wa off => Sys2Proof.Machine.execLdW d a wa off s
  | .ldD d a wa off => Sys2Proof.Machine.execLdD d a wa off s
  | .ldBn d a wa off => Sys2Proof.Machine.execLdBn d a wa off s
  | .ldHn d a wa off => Sys2Proof.Machine.execLdHn d a wa off s
  | .ldWn d a wa off => Sys2Proof.Machine.execLdWn d a wa off s
  | .stB data a w off => Sys2Proof.Machine.execStB data a w off s
  | .stH data a w off => Sys2Proof.Machine.execStH data a w off s
  | .stW data a w off => Sys2Proof.Machine.execStW data a w off s
  | .stD data a w off => Sys2Proof.Machine.execStD data a w off s
  | .pref level a wa => Sys2Proof.Machine.execPref level a wa s
  | .cflush scope a wa => Sys2Proof.Machine.execCflush scope a wa s
  | .cinval scope a wa => Sys2Proof.Machine.execCinval scope a wa s
  | .amoAdd d a b w sz scope => Sys2Proof.Machine.execAmoAdd d a b w sz scope s
  | .amoAnd d a b w sz scope => Sys2Proof.Machine.execAmoAnd d a b w sz scope s
  | .amoOr d a b w sz scope => Sys2Proof.Machine.execAmoOr d a b w sz scope s
  | .amoXor d a b w sz scope => Sys2Proof.Machine.execAmoXor d a b w sz scope s
  | .amoMin d a b w sz scope => Sys2Proof.Machine.execAmoMin d a b w sz scope s
  | .amoMax d a b w sz scope => Sys2Proof.Machine.execAmoMax d a b w sz scope s
  | .amoMinn d a b w sz scope => Sys2Proof.Machine.execAmoMinn d a b w sz scope s
  | .amoMaxn d a b w sz scope => Sys2Proof.Machine.execAmoMaxn d a b w sz scope s
  | .amoSwap d a b w sz scope => Sys2Proof.Machine.execAmoSwap d a b w sz scope s
  | .amoFadd d a b w scope => Sys2Proof.Machine.execAmoFadd d a b w scope s
  | .amoFmin d a b w scope => Sys2Proof.Machine.execAmoFmin d a b w scope s
  | .amoFmax d a b w scope => Sys2Proof.Machine.execAmoFmax d a b w scope s
  | .amoBadd d a b w scope => Sys2Proof.Machine.execAmoBadd d a b w scope s
  | .cas d a b w sz scope => Sys2Proof.Machine.execCas d a b w sz scope s
  | .redAdd a b w sz ord scope => Sys2Proof.Machine.execRedAdd a b w sz ord scope s
  | .redAnd a b w sz ord scope => Sys2Proof.Machine.execRedAnd a b w sz ord scope s
  | .redOr a b w sz ord scope => Sys2Proof.Machine.execRedOr a b w sz ord scope s
  | .redXor a b w sz ord scope => Sys2Proof.Machine.execRedXor a b w sz ord scope s
  | .redMin a b w sz ord scope => Sys2Proof.Machine.execRedMin a b w sz ord scope s
  | .redMax a b w sz ord scope => Sys2Proof.Machine.execRedMax a b w sz ord scope s
  | .redMinn a b w sz ord scope => Sys2Proof.Machine.execRedMinn a b w sz ord scope s
  | .redMaxn a b w sz ord scope => Sys2Proof.Machine.execRedMaxn a b w sz ord scope s
  | .redFadd a b w ord scope => Sys2Proof.Machine.execRedFadd a b w ord scope s
  | .redFmin a b w ord scope => Sys2Proof.Machine.execRedFmin a b w ord scope s
  | .redFmax a b w ord scope => Sys2Proof.Machine.execRedFmax a b w ord scope s
  | .redBadd a b w ord scope => Sys2Proof.Machine.execRedBadd a b w ord scope s
  | .acq scope a w => Sys2Proof.Machine.execAcq scope a w s
  | .rel scope a w => Sys2Proof.Machine.execRel scope a w s
  | .bind a b w => Sys2Proof.Machine.execBind a b w s
  | .unbind a w => Sys2Proof.Machine.execUnbind a w s
  | .fence scope => Sys2Proof.Machine.execFence scope s
  | .mon d a w => Sys2Proof.Machine.execMon d a w s
  | .mwait => Sys2Proof.Machine.execMwait s
  | .rwr n a b wa wb => Sys2Proof.Machine.execRwr n a b wa wb s
  | .feclr n => Sys2Proof.Machine.execFeclr n s
  | .feset n => Sys2Proof.Machine.execFeset n s
  | .fetst d n => Sys2Proof.Machine.execFetst d n s
  | .tspawn a wa => Sys2Proof.Machine.execTspawn a wa s
  | .tfork a wa => Sys2Proof.Machine.execTfork a wa s
  | .tjoin a wa => Sys2Proof.Machine.execTjoin a wa s
  | .tdec a b wa wb => Sys2Proof.Machine.execTdec a b wa wb s
  | .tend => Sys2Proof.Machine.execTend s
  | .tyield => Sys2Proof.Machine.execTyield s
  | .hstart h a b wa wb => Sys2Proof.Machine.execHstart h a b wa wb s
  | .hend => Sys2Proof.Machine.execHend s
  | .cwait a b wa wb => Sys2Proof.Machine.execCwait a b wa wb s
  | .bar a wa => Sys2Proof.Machine.execBar a wa s
  | .fdecl a b wa wb => Sys2Proof.Machine.execFdecl a b wa wb s
  | .fpost d a b wa wb => Sys2Proof.Machine.execFpost d a b wa wb s
  | .fpostv d a b wa wb => Sys2Proof.Machine.execFpostv d a b wa wb s
  | .fdrain d a wa => Sys2Proof.Machine.execFdrain d a wa s
  | .fpeek d a wa => Sys2Proof.Machine.execFpeek d a wa s
  | .fthr a b wa wb => Sys2Proof.Machine.execFthr a b wa wb s
  | .fcount d a wa => Sys2Proof.Machine.execFcount d a wa s
  | .fquiet a b wa wb => Sys2Proof.Machine.execFquiet a b wa wb s
  | .msend d a b wa wb => Sys2Proof.Machine.execMsend d a b wa wb s
  | .mtake a b wa wb => Sys2Proof.Machine.execMtake a b wa wb s
  | .nred d a b wa wb => Sys2Proof.Machine.execNred d a b wa wb s
  | .cpy ch a b wa wb => Sys2Proof.Machine.execCpy ch a b wa wb s
  | .cpyc ch a wa => Sys2Proof.Machine.execCpyc ch a wa s
  | .cstop ch => Sys2Proof.Machine.execCstop ch s
  | .tsfence => Sys2Proof.Machine.execTsfence s
  | .tsdim d a dim wa => Sys2Proof.Machine.execTsdim d a dim wa s
  | .mld a wa => Sys2Proof.Machine.execMld a wa s
  | .mma x a b wa wb => Sys2Proof.Machine.execMma x a b wa wb s
  | .mgang x a b wa wb => Sys2Proof.Machine.execMgang x a b wa wb s
  | .mzero x => Sys2Proof.Machine.execMzero x s
  | .mdrain x a b wa wb => Sys2Proof.Machine.execMdrain x a b wa wb s
  | .mrel a wa => Sys2Proof.Machine.execMrel a wa s
  | .mmaSolo x a b wa wb => Sys2Proof.Machine.execMmaSolo x a b wa wb s
  | .fmtp pfx => Sys2Proof.Machine.execFmtp pfx s
  | .trap a wa => Sys2Proof.Machine.execTrap a wa s
  | .svc a wa => Sys2Proof.Machine.execSvc a wa s
  | .eret => Sys2Proof.Machine.execEret s
  | .brk => Sys2Proof.Machine.execBrk s
  | .tlbinv a b wa wb => Sys2Proof.Machine.execTlbinv a b wa wb s
  | .txb d => Sys2Proof.Machine.execTxb d s
  | .txe => Sys2Proof.Machine.execTxe s
  | .txa => Sys2Proof.Machine.execTxa s
  | .vadd d a b bs w => Sys2Proof.Machine.execVadd d a b bs w s
  | .vsub d a b bs w => Sys2Proof.Machine.execVsub d a b bs w s
  | .vmul d a b bs w => Sys2Proof.Machine.execVmul d a b bs w s
  | .vdiv d a b bs w => Sys2Proof.Machine.execVdiv d a b bs w s
  | .vfma d a b bs w => Sys2Proof.Machine.execVfma d a b bs w s
  | .vmin d a b bs w => Sys2Proof.Machine.execVmin d a b bs w s
  | .vmax d a b bs w => Sys2Proof.Machine.execVmax d a b bs w s
  | .vabs d a w => Sys2Proof.Machine.execVabs d a w s
  | .vneg d a w => Sys2Proof.Machine.execVneg d a w s
  | .vrcp d a w => Sys2Proof.Machine.execVrcp d a w s
  | .vrsq d a w => Sys2Proof.Machine.execVrsq d a w s
  | .vexp2 d a w => Sys2Proof.Machine.execVexp2 d a w s
  | .vlog2 d a w => Sys2Proof.Machine.execVlog2 d a w s
  | .vsel d a b bs w => Sys2Proof.Machine.execVsel d a b bs w s
  | .vcmpEq d a b bs w => Sys2Proof.Machine.execVcmpEq d a b bs w s
  | .vcmpNe d a b bs w => Sys2Proof.Machine.execVcmpNe d a b bs w s
  | .vcmpLt d a b bs w => Sys2Proof.Machine.execVcmpLt d a b bs w s
  | .vcmpLe d a b bs w => Sys2Proof.Machine.execVcmpLe d a b bs w s
  | .vand d a b bs w => Sys2Proof.Machine.execVand d a b bs w s
  | .vor d a b bs w => Sys2Proof.Machine.execVor d a b bs w s
  | .vxor d a b bs w => Sys2Proof.Machine.execVxor d a b bs w s
  | .vshl d a b bs w => Sys2Proof.Machine.execVshl d a b bs w s
  | .vshr d a b bs w => Sys2Proof.Machine.execVshr d a b bs w s
  | .vpopc d a w => Sys2Proof.Machine.execVpopc d a w s
  | .vcvt d a w => Sys2Proof.Machine.execVcvt d a w s
  | .vquant d a w => Sys2Proof.Machine.execVquant d a w s
  | .vsum d a dim w => Sys2Proof.Machine.execVsum d a dim w s
  | .vmaxr d a dim w => Sys2Proof.Machine.execVmaxr d a dim w s
  | .vscan d a dim w => Sys2Proof.Machine.execVscan d a dim w s
  | .vgath d a b w => Sys2Proof.Machine.execVgath d a b w s
  | .vscat d a b w => Sys2Proof.Machine.execVscat d a b w s
  | .vamoOr d a b w => Sys2Proof.Machine.execVamoOr d a b w s
  | .vamoAnd d a b w => Sys2Proof.Machine.execVamoAnd d a b w s
  | .vamoAdd d a b w => Sys2Proof.Machine.execVamoAdd d a b w s
  | .vamoFadd d a b w => Sys2Proof.Machine.execVamoFadd d a b w s
  | .vamoMax d a b w => Sys2Proof.Machine.execVamoMax d a b w s
  | .vhash d a w => Sys2Proof.Machine.execVhash d a w s
  | .vacc d x w => Sys2Proof.Machine.execVacc d x w s
  | .vfill d b w => Sys2Proof.Machine.execVfill d b w s
  | .viota d b w => Sys2Proof.Machine.execViota d b w s
  | .vaccLive d x w => Sys2Proof.Machine.execVaccLive d x w s
  | .mfc d n => Sys2Proof.Machine.execMfc d n s
  | .mtc n a wa => Sys2Proof.Machine.execMtc n a wa s
  | .cMv d b w => Sys2Proof.Machine.execCMv d b w s
  | .cAdd d b w => Sys2Proof.Machine.execCAdd d b w s
  | .cSub d b w => Sys2Proof.Machine.execCSub d b w s
  | .cAnd d b w => Sys2Proof.Machine.execCAnd d b w s
  | .cOr d b w => Sys2Proof.Machine.execCOr d b w s
  | .cXor d b w => Sys2Proof.Machine.execCXor d b w s
  | .cSll d b w => Sys2Proof.Machine.execCSll d b w s
  | .cSrl d b w => Sys2Proof.Machine.execCSrl d b w s
  | .cSra d b w => Sys2Proof.Machine.execCSra d b w s
  | .cAddi d imm w => Sys2Proof.Machine.execCAddi d imm w s
  | .cLd d b w => Sys2Proof.Machine.execCLd d b w s
  | .cSt d b w => Sys2Proof.Machine.execCSt d b w s
  | .cFadd d b w => Sys2Proof.Machine.execCFadd d b w s
  | .cFmul d b w => Sys2Proof.Machine.execCFmul d b w s
  | .cFmin d b w => Sys2Proof.Machine.execCFmin d b w s
  | .cFmax d b w => Sys2Proof.Machine.execCFmax d b w s
  | .loadValueArrival core ctx reg bad => Sys2Proof.Machine.execLoadValueArrival core ctx reg bad s
  | .remoteWriteArrival n => Sys2Proof.Machine.execRemoteWriteArrival n s
  | .inboxEntryApply core n => Sys2Proof.Machine.execInboxEntryApply core n s
  | .watchdogExpiry core => Sys2Proof.Machine.execWatchdogExpiry core s
  | .yieldWaitLimit core => Sys2Proof.Machine.execYieldWaitLimit core s
  | .sliceEnd core next => Sys2Proof.Machine.execSliceEnd core next s
  | .graceExpiry core => Sys2Proof.Machine.execGraceExpiry core s
  | .takeWork core => Sys2Proof.Machine.execTakeWork core s
  | .groupPlacement cluster => Sys2Proof.Machine.execGroupPlacement cluster s
  | .launchParse part => Sys2Proof.Machine.execLaunchParse part s
  | .hardwareHelperStart core => Sys2Proof.Machine.execHardwareHelperStart core s
  | .qntExpiry core => Sys2Proof.Machine.execQntExpiry core s
  | .quantumEnd part => Sys2Proof.Machine.execQuantumEnd part s
  | .nestingHoldExpiry cluster n => Sys2Proof.Machine.execNestingHoldExpiry cluster n s
  | .matrixKStep core n => Sys2Proof.Machine.execMatrixKStep core n s
  | .mdrainRow core n => Sys2Proof.Machine.execMdrainRow core n s
  | .formatEmulationRequest die => Sys2Proof.Machine.execFormatEmulationRequest die s
  | .vectorElementGroup core => Sys2Proof.Machine.execVectorElementGroup core s
  | .pageReplySuccess vf slot gen => Sys2Proof.Machine.execPageReplySuccess vf slot gen s
  | .pageReplyInvalidRequest vf slot gen => Sys2Proof.Machine.execPageReplyInvalidRequest vf slot gen s
  | .pageReplyResponseFailure vf slot gen => Sys2Proof.Machine.execPageReplyResponseFailure vf slot gen s
  | .functionReset vf => Sys2Proof.Machine.execFunctionReset vf s
  | .hostStage2Invalidation part ipa => Sys2Proof.Machine.execHostStage2Invalidation part ipa s
  | .copyLineWrite core ch => Sys2Proof.Machine.execCopyLineWrite core ch s
  | .copyRecordFinish core ch => Sys2Proof.Machine.execCopyRecordFinish core ch s
  | .messagePlacement n => Sys2Proof.Machine.execMessagePlacement n s
  | .msendAnswer core ctx => Sys2Proof.Machine.execMsendAnswer core ctx s
  | .foldPostArrival n => Sys2Proof.Machine.execFoldPostArrival n s
  | .fpostStatusAnswer n => Sys2Proof.Machine.execFpostStatusAnswer n s
  | .foldReplay cluster part => Sys2Proof.Machine.execFoldReplay cluster part s
  | .topTokenPass part slot => Sys2Proof.Machine.execTopTokenPass part slot s
  | .nredRoundComplete core tree => Sys2Proof.Machine.execNredRoundComplete core tree s
  | .treeHoldExpiry part tree => Sys2Proof.Machine.execTreeHoldExpiry part tree s
  | .linkRetryExhausted flow => Sys2Proof.Machine.execLinkRetryExhausted flow s
  | .overflowWatchScan part => Sys2Proof.Machine.execOverflowWatchScan part s
  | .bankRetentionEntry bank => Sys2Proof.Machine.execBankRetentionEntry bank s
  | .wakeSlotGrant die => Sys2Proof.Machine.execWakeSlotGrant die s
  | .bankWakeComplete bank => Sys2Proof.Machine.execBankWakeComplete bank s
  | .clusterRetentionEntry cluster => Sys2Proof.Machine.execClusterRetentionEntry cluster s
  | .clusterRetentionExit cluster lost => Sys2Proof.Machine.execClusterRetentionExit cluster lost s
  | .cacheEviction cluster line => Sys2Proof.Machine.execCacheEviction cluster line s
  | .updateOnlyEviction core line => Sys2Proof.Machine.execUpdateOnlyEviction core line s
  | .proxyAtomicService die lane => Sys2Proof.Machine.execProxyAtomicService die lane s
  | .backInvalidationAck line => Sys2Proof.Machine.execBackInvalidationAck line s
  | .hostSnoop pa bytes => Sys2Proof.Machine.execHostSnoop pa bytes s
  | .cxlMemWrite place bytes => Sys2Proof.Machine.execCxlMemWrite place bytes s
  | .cxlMemRead place => Sys2Proof.Machine.execCxlMemRead place s
  | .stashEntryASwap die => Sys2Proof.Machine.execStashEntryASwap die s
  | .stashEntryBSwap die => Sys2Proof.Machine.execStashEntryBSwap die s
  | .treeT0Swap die => Sys2Proof.Machine.execTreeT0Swap die s
  | .monitorConfigSwap die => Sys2Proof.Machine.execMonitorConfigSwap die s
  | .hbaseSwap die => Sys2Proof.Machine.execHbaseSwap die s
  | .ovfbaseSwap die => Sys2Proof.Machine.execOvfbaseSwap die s
  | .ovfsizeSwap die => Sys2Proof.Machine.execOvfsizeSwap die s
  | .s1rootSwap die => Sys2Proof.Machine.execS1rootSwap die s
  | .s1attrSwap die => Sys2Proof.Machine.execS1attrSwap die s
  | .partitionRegisterWrite die => Sys2Proof.Machine.execPartitionRegisterWrite die s
  | .create tag cores banks vf det => Sys2Proof.Machine.execCreate tag cores banks vf det s
  | .resize tag grow shrink limit => Sys2Proof.Machine.execResize tag grow shrink limit s
  | .replace tag lcore phys => Sys2Proof.Machine.execReplace tag lcore phys s
  | .layoutTick tag => Sys2Proof.Machine.execLayoutTick tag s
  | .shrinkLimitExpiry tag => Sys2Proof.Machine.execShrinkLimitExpiry tag s
  | .release tag => Sys2Proof.Machine.execRelease tag s
  | .sets2 tag root attr pasid => Sys2Proof.Machine.execSets2 tag root attr pasid s
  | .setquota tag cluster q => Sys2Proof.Machine.execSetquota tag cluster q s
  | .summary => Sys2Proof.Machine.execSummary s
  | .attest nonce => Sys2Proof.Machine.execAttest nonce s
  | .logread seq count => Sys2Proof.Machine.execLogread seq count s
  | .bbread recorder index count => Sys2Proof.Machine.execBbread recorder index count s
  | .auditAppend askers events data => Sys2Proof.Machine.execAuditAppend askers events data s
  | .blackBoxWrite recorder => Sys2Proof.Machine.execBlackBoxWrite recorder s
  | .fatalError recorder => Sys2Proof.Machine.execFatalError recorder s
  | .coldReset signed items => Sys2Proof.Machine.execColdReset signed items s
  | .warmReset signed items => Sys2Proof.Machine.execWarmReset signed items s
  | .powerOff => Sys2Proof.Machine.execPowerOff s
  | .budgetTreeUpdate dieBudgets counts => Sys2Proof.Machine.execBudgetTreeUpdate dieBudgets counts s
  | .rampWindow core busy => Sys2Proof.Machine.execRampWindow core busy s
  | .governorWindow core cycles stalls => Sys2Proof.Machine.execGovernorWindow core cycles stalls s
  | .microcontrollerLoop temps volts fmax limits => Sys2Proof.Machine.execMicrocontrollerLoop temps volts fmax limits s
  | .thermalTrip cluster => Sys2Proof.Machine.execThermalTrip cluster s
  | .thermalShutdown => Sys2Proof.Machine.execThermalShutdown s
  | .hole word cause => Sys2Proof.Machine.execHole word cause s
  | .fetchFault cause eval => Sys2Proof.Machine.execFetchFault cause eval s
  | .accessPerformed core n => Sys2Proof.Machine.execAccessPerformed core n s
  | .bankPowerDownComplete bank => Sys2Proof.Machine.execBankPowerDownComplete bank s
  | .bolmorRemoteAccess tag pa kind bytes => Sys2Proof.Machine.execBolmorRemoteAccess tag pa kind bytes s
  | .lineRetirement place => Sys2Proof.Machine.execLineRetirement place s
  | .debugUnlock state => Sys2Proof.Machine.execDebugUnlock state s
  | .thresholdWriteArrival n => Sys2Proof.Machine.execThresholdWriteArrival n s

end Sys2Proof.Machine
end

