-- ==== Sys2Proof/Machine/Operands.lean ====
section
/-!
DEFINITION. What the spec's tables say of an instruction's operands and frame, apart from its meaning: its length, privilege and
destinations, the registers that it reads, and the machine error that is due at it (R67).
-/

namespace Sys2Proof.Machine

/-! ### What R51, R55, R61 and R224 say of an instruction -/

/-- The frame of an instruction: its bytes (R42, R44), the lowest privilege and whether a helper may execute it (R51), the
registers it writes (R61), its use of a pending format (R55), whether an open transaction allows it (R224, reason 5); none
for an event. -/
def frameOf : Instr → Option InstrInfo
  | .add d _ _ _ _ => some { len := 4, dests := [d], txn := true }
  | .sub d _ _ _ _ => some { len := 4, dests := [d], txn := true }
  | .mul d _ _ _ _ => some { len := 4, dests := [d], txn := true }
  | .mulh d _ _ _ _ => some { len := 4, dests := [d], txn := true }
  | .mulhn d _ _ _ _ => some { len := 4, dests := [d], txn := true }
  | .div d _ _ _ _ => some { len := 4, dests := [d], txn := true }
  | .divn d _ _ _ _ => some { len := 4, dests := [d], txn := true }
  | .rem d _ _ _ _ => some { len := 4, dests := [d], txn := true }
  | .remn d _ _ _ _ => some { len := 4, dests := [d], txn := true }
  | .and d _ _ _ _ => some { len := 4, dests := [d], txn := true }
  | .or d _ _ _ _ => some { len := 4, dests := [d], txn := true }
  | .xor d _ _ _ _ => some { len := 4, dests := [d], txn := true }
  | .andn d _ _ _ _ => some { len := 4, dests := [d], txn := true }
  | .sll d _ _ _ _ => some { len := 4, dests := [d], txn := true }
  | .srl d _ _ _ _ => some { len := 4, dests := [d], txn := true }
  | .sra d _ _ _ _ => some { len := 4, dests := [d], txn := true }
  | .ror d _ _ _ _ => some { len := 4, dests := [d], txn := true }
  | .min d _ _ _ _ => some { len := 4, dests := [d], txn := true }
  | .max d _ _ _ _ => some { len := 4, dests := [d], txn := true }
  | .minn d _ _ _ _ => some { len := 4, dests := [d], txn := true }
  | .maxn d _ _ _ _ => some { len := 4, dests := [d], txn := true }
  | .slt d _ _ _ _ => some { len := 4, dests := [d], txn := true }
  | .sltn d _ _ _ _ => some { len := 4, dests := [d], txn := true }
  | .seq d _ _ _ _ => some { len := 4, dests := [d], txn := true }
  | .clz d _ _ => some { len := 4, dests := [d], txn := true }
  | .ctz d _ _ => some { len := 4, dests := [d], txn := true }
  | .popc d _ _ => some { len := 4, dests := [d], txn := true }
  | .sext d _ _ _ => some { len := 4, dests := [d], txn := true }
  | .zext d _ _ _ => some { len := 4, dests := [d], txn := true }
  | .csel d _ _ _ _ => some { len := 4, dests := [d], txn := true }
  | .addi d _ _ _ => some { len := 4, dests := [d], txn := true }
  | .andi d _ _ _ => some { len := 4, dests := [d], txn := true }
  | .ori d _ _ _ => some { len := 4, dests := [d], txn := true }
  | .xori d _ _ _ => some { len := 4, dests := [d], txn := true }
  | .slli d _ _ _ => some { len := 4, dests := [d], txn := true }
  | .srli d _ _ _ => some { len := 4, dests := [d], txn := true }
  | .srai d _ _ _ => some { len := 4, dests := [d], txn := true }
  | .rori d _ _ _ => some { len := 4, dests := [d], txn := true }
  | .slti d _ _ _ => some { len := 4, dests := [d], txn := true }
  | .sltni d _ _ _ => some { len := 4, dests := [d], txn := true }
  | .hi d _ => some { len := 4, dests := [d], txn := true }
  | .pcrel d _ => some { len := 4, dests := [d], txn := true }
  | .beq _ _ _ _ => some { len := 4, txn := true }
  | .bne _ _ _ _ => some { len := 4, txn := true }
  | .blt _ _ _ _ => some { len := 4, txn := true }
  | .bge _ _ _ _ => some { len := 4, txn := true }
  | .bltn _ _ _ _ => some { len := 4, txn := true }
  | .bgen _ _ _ _ => some { len := 4, txn := true }
  | .bbs _ _ _ _ => some { len := 4, txn := true }
  | .bbc _ _ _ _ => some { len := 4, txn := true }
  | .jal d _ => some { len := 4, dests := [d], txn := true }
  | .jalr d _ _ _ => some { len := 4, dests := [d], txn := true }
  | .fadd d _ _ _ _ => some { len := 4, dests := [d], pfx := 1, txn := true }
  | .fsub d _ _ _ _ => some { len := 4, dests := [d], pfx := 1, txn := true }
  | .fmul d _ _ _ _ => some { len := 4, dests := [d], pfx := 1, txn := true }
  | .fdiv d _ _ _ _ => some { len := 4, dests := [d], pfx := 1, txn := true }
  | .fsqrt d _ _ => some { len := 4, dests := [d], pfx := 1, txn := true }
  | .fmin d _ _ _ _ => some { len := 4, dests := [d], pfx := 1, txn := true }
  | .fmax d _ _ _ _ => some { len := 4, dests := [d], pfx := 1, txn := true }
  | .fneg d _ _ => some { len := 4, dests := [d], pfx := 1, txn := true }
  | .fabs d _ _ => some { len := 4, dests := [d], pfx := 1, txn := true }
  | .fsgnj d _ _ _ _ => some { len := 4, dests := [d], pfx := 1, txn := true }
  | .feq d _ _ _ _ => some { len := 4, dests := [d], pfx := 1, txn := true }
  | .flt d _ _ _ _ => some { len := 4, dests := [d], pfx := 1, txn := true }
  | .fle d _ _ _ _ => some { len := 4, dests := [d], pfx := 1, txn := true }
  | .fclass d _ _ => some { len := 4, dests := [d], pfx := 1, txn := true }
  | .frcp d _ _ => some { len := 4, dests := [d], pfx := 1, txn := true }
  | .frsq d _ _ => some { len := 4, dests := [d], pfx := 1, txn := true }
  | .fcvtfi d _ _ => some { len := 4, dests := [d], pfx := 1, txn := true }
  | .fcvtif d _ _ => some { len := 4, dests := [d], pfx := 1, txn := true }
  | .fcvtfn d _ _ => some { len := 4, dests := [d], pfx := 1, txn := true }
  | .fcvtnf d _ _ => some { len := 4, dests := [d], pfx := 1, txn := true }
  | .fcvtbf d _ _ => some { len := 4, dests := [d], pfx := 1, txn := true }
  | .fcvtfb d _ _ => some { len := 4, dests := [d], pfx := 1, txn := true }
  | .ffma d _ _ _ _ => some { len := 4, dests := [d], pfx := 1, txn := true }
  | .ffms d _ _ _ _ => some { len := 4, dests := [d], pfx := 1, txn := true }
  | .fnfma d _ _ _ _ => some { len := 4, dests := [d], pfx := 1, txn := true }
  | .fnfms d _ _ _ _ => some { len := 4, dests := [d], pfx := 1, txn := true }
  | .ldB d _ _ _ => some { len := 4, dests := [d], txn := true }
  | .ldH d _ _ _ => some { len := 4, dests := [d], txn := true }
  | .ldW d _ _ _ => some { len := 4, dests := [d], txn := true }
  | .ldD d _ _ _ => some { len := 4, dests := [d], txn := true }
  | .ldBn d _ _ _ => some { len := 4, dests := [d], txn := true }
  | .ldHn d _ _ _ => some { len := 4, dests := [d], txn := true }
  | .ldWn d _ _ _ => some { len := 4, dests := [d], txn := true }
  | .stB _ _ _ _ => some { len := 4, txn := true }
  | .stH _ _ _ _ => some { len := 4, txn := true }
  | .stW _ _ _ _ => some { len := 4, txn := true }
  | .stD _ _ _ _ => some { len := 4, txn := true }
  | .pref _ _ _ => some { len := 4 }
  | .cflush _ _ _ => some { len := 4 }
  | .cinval _ _ _ => some { len := 4 }
  | .amoAdd d _ _ _ _ _ => some { len := 4, dests := [d], txn := true }
  | .amoAnd d _ _ _ _ _ => some { len := 4, dests := [d], txn := true }
  | .amoOr d _ _ _ _ _ => some { len := 4, dests := [d], txn := true }
  | .amoXor d _ _ _ _ _ => some { len := 4, dests := [d], txn := true }
  | .amoMin d _ _ _ _ _ => some { len := 4, dests := [d], txn := true }
  | .amoMax d _ _ _ _ _ => some { len := 4, dests := [d], txn := true }
  | .amoMinn d _ _ _ _ _ => some { len := 4, dests := [d], txn := true }
  | .amoMaxn d _ _ _ _ _ => some { len := 4, dests := [d], txn := true }
  | .amoSwap d _ _ _ _ _ => some { len := 4, dests := [d], txn := true }
  | .amoFadd d _ _ _ _ => some { len := 4, dests := [d], txn := true }
  | .amoFmin d _ _ _ _ => some { len := 4, dests := [d], txn := true }
  | .amoFmax d _ _ _ _ => some { len := 4, dests := [d], txn := true }
  | .amoBadd d _ _ _ _ => some { len := 4, dests := [d], txn := true }
  | .cas d _ _ _ _ _ => some { len := 4, dests := [d], txn := true }
  | .redAdd _ _ _ _ _ _ => some { len := 4 }
  | .redAnd _ _ _ _ _ _ => some { len := 4 }
  | .redOr _ _ _ _ _ _ => some { len := 4 }
  | .redXor _ _ _ _ _ _ => some { len := 4 }
  | .redMin _ _ _ _ _ _ => some { len := 4 }
  | .redMax _ _ _ _ _ _ => some { len := 4 }
  | .redMinn _ _ _ _ _ _ => some { len := 4 }
  | .redMaxn _ _ _ _ _ _ => some { len := 4 }
  | .redFadd _ _ _ _ _ => some { len := 4 }
  | .redFmin _ _ _ _ _ => some { len := 4 }
  | .redFmax _ _ _ _ _ => some { len := 4 }
  | .redBadd _ _ _ _ _ => some { len := 4 }
  | .acq _ _ _ => some { len := 4 }
  | .rel _ _ _ => some { len := 4 }
  | .bind _ _ _ => some { len := 4, priv := 1, helper := false }
  | .unbind _ _ => some { len := 4, priv := 1, helper := false }
  | .fence _ => some { len := 4 }
  | .mon d _ _ => some { len := 4, dests := [d] }
  | .mwait => some { len := 4 }
  | .rwr _ _ _ _ _ => some { len := 4 }
  | .feclr n => some { len := 4, dests := [n] }
  | .feset n => some { len := 4, dests := [n] }
  | .fetst d _ => some { len := 4, dests := [d] }
  | .tspawn _ _ => some { len := 4, helper := false }
  | .tfork _ _ => some { len := 4, helper := false }
  | .tjoin _ _ => some { len := 4, helper := false }
  | .tdec _ _ _ _ => some { len := 4 }
  | .tend => some { len := 4, helper := false }
  | .tyield => some { len := 4, helper := false }
  | .hstart _ _ _ _ _ => some { len := 4, helper := false }
  | .hend => some { len := 4, onlyHelper := true }
  | .cwait _ _ _ _ => some { len := 4, helper := false }
  | .bar _ _ => some { len := 4, helper := false }
  | .fdecl _ _ _ _ => some { len := 4, helper := false }
  | .fpost d _ _ _ _ => some { len := 4, dests := [d], txn := true }
  | .fpostv d _ _ _ _ => some { len := 4, dests := [d], txn := true }
  | .fdrain d _ _ => some { len := 4, dests := [d, nextReg d] }
  | .fpeek d _ _ => some { len := 4, dests := [d, nextReg d] }
  | .fthr _ _ _ _ => some { len := 4, helper := false }
  | .fcount d _ _ => some { len := 4, dests := [d] }
  | .fquiet _ _ _ _ => some { len := 4, helper := false }
  | .msend d _ _ _ _ => some { len := 4, dests := [d] }
  | .mtake _ _ _ _ => some { len := 4 }
  | .nred d _ _ _ _ => some { len := 4, dests := [d] }
  | .cpy _ _ _ _ _ => some { len := 4 }
  | .cpyc _ _ _ => some { len := 4 }
  | .cstop _ => some { len := 4 }
  | .tsfence => some { len := 4 }
  | .tsdim d _ _ _ => some { len := 4, dests := [d] }
  | .mld _ _ => some { len := 4, helper := false }
  | .mma _ _ _ _ _ => some { len := 4, helper := false, pfx := 2 }
  | .mgang _ _ _ _ _ => some { len := 4, helper := false, pfx := 2 }
  | .mzero _ => some { len := 4, helper := false }
  | .mdrain _ _ _ _ _ => some { len := 4, helper := false, pfx := 2 }
  | .mrel _ _ => some { len := 4, helper := false }
  | .mmaSolo _ _ _ _ _ => some { len := 4, helper := false, pfx := 2 }
  | .fmtp _ => some { len := 4 }
  | .trap _ _ => some { len := 4 }
  | .svc _ _ => some { len := 4 }
  | .eret => some { len := 4, priv := 1 }
  | .brk => some { len := 4 }
  | .tlbinv _ _ _ _ => some { len := 4, priv := 1 }
  | .txb d => some { len := 4, helper := false, dests := [d], txn := true }
  | .txe => some { len := 4, helper := false, txn := true }
  | .txa => some { len := 4, helper := false, txn := true }
  | .vadd _ _ _ _ _ => some { len := 4 }
  | .vsub _ _ _ _ _ => some { len := 4 }
  | .vmul _ _ _ _ _ => some { len := 4 }
  | .vdiv _ _ _ _ _ => some { len := 4 }
  | .vfma _ _ _ _ _ => some { len := 4 }
  | .vmin _ _ _ _ _ => some { len := 4 }
  | .vmax _ _ _ _ _ => some { len := 4 }
  | .vabs _ _ _ => some { len := 4 }
  | .vneg _ _ _ => some { len := 4 }
  | .vrcp _ _ _ => some { len := 4 }
  | .vrsq _ _ _ => some { len := 4 }
  | .vexp2 _ _ _ => some { len := 4 }
  | .vlog2 _ _ _ => some { len := 4 }
  | .vsel _ _ _ _ _ => some { len := 4 }
  | .vcmpEq _ _ _ _ _ => some { len := 4 }
  | .vcmpNe _ _ _ _ _ => some { len := 4 }
  | .vcmpLt _ _ _ _ _ => some { len := 4 }
  | .vcmpLe _ _ _ _ _ => some { len := 4 }
  | .vand _ _ _ _ _ => some { len := 4 }
  | .vor _ _ _ _ _ => some { len := 4 }
  | .vxor _ _ _ _ _ => some { len := 4 }
  | .vshl _ _ _ _ _ => some { len := 4 }
  | .vshr _ _ _ _ _ => some { len := 4 }
  | .vpopc _ _ _ => some { len := 4 }
  | .vcvt _ _ _ => some { len := 4, pfx := 2 }
  | .vquant _ _ _ => some { len := 4, pfx := 2 }
  | .vsum _ _ _ _ => some { len := 4 }
  | .vmaxr _ _ _ _ => some { len := 4 }
  | .vscan _ _ _ _ => some { len := 4 }
  | .vgath _ _ _ _ => some { len := 4 }
  | .vscat _ _ _ _ => some { len := 4 }
  | .vamoOr _ _ _ _ => some { len := 4 }
  | .vamoAnd _ _ _ _ => some { len := 4 }
  | .vamoAdd _ _ _ _ => some { len := 4 }
  | .vamoFadd _ _ _ _ => some { len := 4 }
  | .vamoMax _ _ _ _ => some { len := 4 }
  | .vhash _ _ _ => some { len := 4 }
  | .vacc _ _ _ => some { len := 4, helper := false }
  | .vfill _ _ _ => some { len := 4 }
  | .viota _ _ _ => some { len := 4 }
  | .vaccLive _ _ _ => some { len := 4, helper := false }
  | .mfc d _ => some { len := 4, dests := [d], txn := true }
  | .mtc _ _ _ => some { len := 4 }
  | .cMv d _ _ => some { len := 2, dests := [d], txn := true }
  | .cAdd d _ _ => some { len := 2, dests := [d], txn := true }
  | .cSub d _ _ => some { len := 2, dests := [d], txn := true }
  | .cAnd d _ _ => some { len := 2, dests := [d], txn := true }
  | .cOr d _ _ => some { len := 2, dests := [d], txn := true }
  | .cXor d _ _ => some { len := 2, dests := [d], txn := true }
  | .cSll d _ _ => some { len := 2, dests := [d], txn := true }
  | .cSrl d _ _ => some { len := 2, dests := [d], txn := true }
  | .cSra d _ _ => some { len := 2, dests := [d], txn := true }
  | .cAddi d _ _ => some { len := 2, dests := [d], txn := true }
  | .cLd d _ _ => some { len := 2, dests := [d], txn := true }
  | .cSt _ _ _ => some { len := 2, txn := true }
  | .cFadd d _ _ => some { len := 2, dests := [d], pfx := 1, txn := true }
  | .cFmul d _ _ => some { len := 2, dests := [d], pfx := 1, txn := true }
  | .cFmin d _ _ => some { len := 2, dests := [d], pfx := 1, txn := true }
  | .cFmax d _ _ => some { len := 2, dests := [d], pfx := 1, txn := true }
  | _ => none

/-- The registers that an instruction reads before it does anything else, in the order in which it reads them, each with the
wait bit that covers it (R64, R76 to R81, R112, R197, R205, R208, R211 and the descriptions of the others). None is listed
for the instructions that check or wait for something first, and for those of the vector engine. -/
def operandsOf : Instr → List (Reg × Bool)
  | .add _ a b wa wb => [(a, wa), (b, wb)]
  | .sub _ a b wa wb => [(a, wa), (b, wb)]
  | .mul _ a b wa wb => [(a, wa), (b, wb)]
  | .mulh _ a b wa wb => [(a, wa), (b, wb)]
  | .mulhn _ a b wa wb => [(a, wa), (b, wb)]
  | .div _ a b wa wb => [(a, wa), (b, wb)]
  | .divn _ a b wa wb => [(a, wa), (b, wb)]
  | .rem _ a b wa wb => [(a, wa), (b, wb)]
  | .remn _ a b wa wb => [(a, wa), (b, wb)]
  | .and _ a b wa wb => [(a, wa), (b, wb)]
  | .or _ a b wa wb => [(a, wa), (b, wb)]
  | .xor _ a b wa wb => [(a, wa), (b, wb)]
  | .andn _ a b wa wb => [(a, wa), (b, wb)]
  | .sll _ a b wa wb => [(a, wa), (b, wb)]
  | .srl _ a b wa wb => [(a, wa), (b, wb)]
  | .sra _ a b wa wb => [(a, wa), (b, wb)]
  | .ror _ a b wa wb => [(a, wa), (b, wb)]
  | .min _ a b wa wb => [(a, wa), (b, wb)]
  | .max _ a b wa wb => [(a, wa), (b, wb)]
  | .minn _ a b wa wb => [(a, wa), (b, wb)]
  | .maxn _ a b wa wb => [(a, wa), (b, wb)]
  | .slt _ a b wa wb => [(a, wa), (b, wb)]
  | .sltn _ a b wa wb => [(a, wa), (b, wb)]
  | .seq _ a b wa wb => [(a, wa), (b, wb)]
  | .clz _ a wa => [(a, wa)]
  | .ctz _ a wa => [(a, wa)]
  | .popc _ a wa => [(a, wa)]
  | .sext _ a _ wa => [(a, wa)]
  | .zext _ a _ wa => [(a, wa)]
  | .csel d a b wa wb => [(a, wa), (b, wb), (d, wa)]
  | .addi _ a wa _ => [(a, wa)]
  | .andi _ a wa _ => [(a, wa)]
  | .ori _ a wa _ => [(a, wa)]
  | .xori _ a wa _ => [(a, wa)]
  | .slli _ a wa _ => [(a, wa)]
  | .srli _ a wa _ => [(a, wa)]
  | .srai _ a wa _ => [(a, wa)]
  | .rori _ a wa _ => [(a, wa)]
  | .slti _ a wa _ => [(a, wa)]
  | .sltni _ a wa _ => [(a, wa)]
  | .beq a b w _ => [(a, w), (b, w)]
  | .bne a b w _ => [(a, w), (b, w)]
  | .blt a b w _ => [(a, w), (b, w)]
  | .bge a b w _ => [(a, w), (b, w)]
  | .bltn a b w _ => [(a, w), (b, w)]
  | .bgen a b w _ => [(a, w), (b, w)]
  | .bbs a _ w _ => [(a, w)]
  | .bbc a _ w _ => [(a, w)]
  | .jalr _ a wa _ => [(a, wa)]
  | .fadd _ a b wa wb => [(a, wa), (b, wb)]
  | .fsub _ a b wa wb => [(a, wa), (b, wb)]
  | .fmul _ a b wa wb => [(a, wa), (b, wb)]
  | .fdiv _ a b wa wb => [(a, wa), (b, wb)]
  | .fsqrt _ a wa => [(a, wa)]
  | .fmin _ a b wa wb => [(a, wa), (b, wb)]
  | .fmax _ a b wa wb => [(a, wa), (b, wb)]
  | .fneg _ a wa => [(a, wa)]
  | .fabs _ a wa => [(a, wa)]
  | .fsgnj _ a b wa wb => [(a, wa), (b, wb)]
  | .feq _ a b wa wb => [(a, wa), (b, wb)]
  | .flt _ a b wa wb => [(a, wa), (b, wb)]
  | .fle _ a b wa wb => [(a, wa), (b, wb)]
  | .fclass _ a wa => [(a, wa)]
  | .frcp _ a wa => [(a, wa)]
  | .frsq _ a wa => [(a, wa)]
  | .fcvtfi _ a wa => [(a, wa)]
  | .fcvtif _ a wa => [(a, wa)]
  | .fcvtfn _ a wa => [(a, wa)]
  | .fcvtnf _ a wa => [(a, wa)]
  | .fcvtbf _ a wa => [(a, wa)]
  | .fcvtfb _ a wa => [(a, wa)]
  | .ffma _ a b c w => [(a, w), (b, w), (c, w)]
  | .ffms _ a b c w => [(a, w), (b, w), (c, w)]
  | .fnfma _ a b c w => [(a, w), (b, w), (c, w)]
  | .fnfms _ a b c w => [(a, w), (b, w), (c, w)]
  | .ldB _ a wa _ => [(a, wa)]
  | .ldH _ a wa _ => [(a, wa)]
  | .ldW _ a wa _ => [(a, wa)]
  | .ldD _ a wa _ => [(a, wa)]
  | .ldBn _ a wa _ => [(a, wa)]
  | .ldHn _ a wa _ => [(a, wa)]
  | .ldWn _ a wa _ => [(a, wa)]
  | .stB data a w _ => [(a, w), (data, w)]
  | .stH data a w _ => [(a, w), (data, w)]
  | .stW data a w _ => [(a, w), (data, w)]
  | .stD data a w _ => [(a, w), (data, w)]
  | .pref _ a wa => [(a, wa)]
  | .cflush _ a wa => [(a, wa)]
  | .cinval _ a wa => [(a, wa)]
  | .amoAdd _ a b w _ _ => [(a, w), (b, w)]
  | .amoAnd _ a b w _ _ => [(a, w), (b, w)]
  | .amoOr _ a b w _ _ => [(a, w), (b, w)]
  | .amoXor _ a b w _ _ => [(a, w), (b, w)]
  | .amoMin _ a b w _ _ => [(a, w), (b, w)]
  | .amoMax _ a b w _ _ => [(a, w), (b, w)]
  | .amoMinn _ a b w _ _ => [(a, w), (b, w)]
  | .amoMaxn _ a b w _ _ => [(a, w), (b, w)]
  | .amoSwap _ a b w _ _ => [(a, w), (b, w)]
  | .amoFadd _ a b w _ => [(a, w), (b, w)]
  | .amoFmin _ a b w _ => [(a, w), (b, w)]
  | .amoFmax _ a b w _ => [(a, w), (b, w)]
  | .amoBadd _ a b w _ => [(a, w), (b, w)]
  | .cas d a b w _ _ => [(a, w), (b, w), (d, w)]
  | .redAdd a b w _ _ _ => [(a, w), (b, w)]
  | .redAnd a b w _ _ _ => [(a, w), (b, w)]
  | .redOr a b w _ _ _ => [(a, w), (b, w)]
  | .redXor a b w _ _ _ => [(a, w), (b, w)]
  | .redMin a b w _ _ _ => [(a, w), (b, w)]
  | .redMax a b w _ _ _ => [(a, w), (b, w)]
  | .redMinn a b w _ _ _ => [(a, w), (b, w)]
  | .redMaxn a b w _ _ _ => [(a, w), (b, w)]
  | .redFadd a b w _ _ => [(a, w), (b, w)]
  | .redFmin a b w _ _ => [(a, w), (b, w)]
  | .redFmax a b w _ _ => [(a, w), (b, w)]
  | .redBadd a b w _ _ => [(a, w), (b, w)]
  | .acq _ a w => [(a, w)]
  | .rel _ a w => [(a, w)]
  | .bind a b w => [(a, w), (b, w)]
  | .unbind a w => [(a, w)]
  | .mon _ a w => [(a, w)]
  | .rwr _ a b wa wb => [(a, wa), (b, wb)]
  | .tspawn a wa => [(a, wa)]
  | .tfork a wa => [(a, wa)]
  | .tjoin a wa => [(a, wa)]
  | .tdec a b wa wb => [(a, wa), (b, wb)]
  | .fdecl a b wa wb => [(a, wa), (b, wb)]
  | .fpost _ a b wa wb => [(a, wa), (b, wb)]
  | .fdrain _ a wa => [(a, wa)]
  | .fpeek _ a wa => [(a, wa)]
  | .fthr a b wa wb => [(a, wa), (b, wb)]
  | .fcount _ a wa => [(a, wa)]
  | .fquiet a b wa wb => [(a, wa), (b, wb)]
  | .msend _ a b wa wb => [(a, wa), (b, wb)]
  | .mtake a b wa wb => [(a, wa), (b, wb)]
  | .nred _ a b wa wb => [(a, wa), (b, wb)]
  | .cpy _ a b wa wb => [(a, wa), (b, wb)]
  | .cpyc _ a wa => [(a, wa)]
  | .tsdim _ a _ wa => [(a, wa)]
  | .mld a wa => [(a, wa)]
  | .mma _ a b wa wb => [(a, wa), (b, wb)]
  | .mgang _ a b wa wb => [(a, wa), (b, wb)]
  | .mdrain _ a b wa wb => [(a, wa), (b, wb)]
  | .mrel a wa => [(a, wa)]
  | .mmaSolo _ a b wa wb => [(a, wa), (b, wb)]
  | .trap a wa => [(a, wa)]
  | .svc a wa => [(a, wa)]
  | .tlbinv a b wa wb => [(a, wa), (b, wb)]
  | .mtc _ a wa => [(a, wa)]
  | .cMv _ b w => [(0, w), (b, w)]
  | .cAdd d b w => [(d, w), (b, w)]
  | .cSub d b w => [(d, w), (b, w)]
  | .cAnd d b w => [(d, w), (b, w)]
  | .cOr d b w => [(d, w), (b, w)]
  | .cXor d b w => [(d, w), (b, w)]
  | .cSll d b w => [(d, w), (b, w)]
  | .cSrl d b w => [(d, w), (b, w)]
  | .cSra d b w => [(d, w), (b, w)]
  | .cAddi d _ w => [(d, w)]
  | .cLd _ b w => [(b, w)]
  | .cSt d b w => [(b, w), (d, w)]
  | .cFadd d b w => [(d, w), (b, w)]
  | .cFmul d b w => [(d, w), (b, w)]
  | .cFmin d b w => [(d, w), (b, w)]
  | .cFmax d b w => [(d, w), (b, w)]
  | _ => []

/-- The registers that an instruction reads besides those of `operandsOf`: of the ones that check or wait for something first, s1 to s4
that eret restores (R162),
and of those of the vector engine, whose third record is read where bs marks a register operand too (R230 to R256). -/
def laterOperands : Instr → List Reg
  | .hstart _ a b _ _ => [a, b, nextReg b]
  | .eret => [1, 2, 3, 4]
  | .cwait a b _ _ => [a, b]
  | .bar a _ => [a]
  | .fpostv d a b _ _ => [d, a, b]
  | .vadd d a b _ _ => [d, a, b]
  | .vsub d a b _ _ => [d, a, b]
  | .vmul d a b _ _ => [d, a, b]
  | .vdiv d a b _ _ => [d, a, b]
  | .vfma d a b _ _ => [d, a, b]
  | .vmin d a b _ _ => [d, a, b]
  | .vmax d a b _ _ => [d, a, b]
  | .vabs d a _ => [d, a]
  | .vneg d a _ => [d, a]
  | .vrcp d a _ => [d, a]
  | .vrsq d a _ => [d, a]
  | .vexp2 d a _ => [d, a]
  | .vlog2 d a _ => [d, a]
  | .vsel d a b _ _ => [d, a, b]
  | .vcmpEq d a b _ _ => [d, a, b]
  | .vcmpNe d a b _ _ => [d, a, b]
  | .vcmpLt d a b _ _ => [d, a, b]
  | .vcmpLe d a b _ _ => [d, a, b]
  | .vand d a b _ _ => [d, a, b]
  | .vor d a b _ _ => [d, a, b]
  | .vxor d a b _ _ => [d, a, b]
  | .vshl d a b _ _ => [d, a, b]
  | .vshr d a b _ _ => [d, a, b]
  | .vpopc d a _ => [d, a]
  | .vcvt d a _ => [d, a]
  | .vquant d a _ => [d, a]
  | .vsum d a _ _ => [d, a]
  | .vmaxr d a _ _ => [d, a]
  | .vscan d a _ _ => [d, a]
  | .vgath d a b _ => [d, a, b]
  | .vscat d a b _ => [d, a, b]
  | .vamoOr d a b _ => [d, a, b]
  | .vamoAnd d a b _ => [d, a, b]
  | .vamoAdd d a b _ => [d, a, b]
  | .vamoFadd d a b _ => [d, a, b]
  | .vamoMax d a b _ => [d, a, b]
  | .vhash d a _ => [d, a]
  | .vacc d _ _ => [d]
  | .vfill d b _ => [d, b]
  | .viota d b _ => [d, b]
  | .vaccLive d _ _ => [d]
  | _ => []

/-- The scale registers that a pending format names for an instruction that reads them (R54, R129, R248). -/
def scaleOperands (i : Instr) (x : Ctx) : List Reg :=
  let named := (if fmtAs x.fmt = 0 then [] else [fmtArs x.fmt]) ++ (if fmtBs x.fmt = 0 then [] else [fmtBrs x.fmt])
  if !hasPfx x then []
  else match i with
    | .mma .. | .mmaSolo .. | .mgang .. | .vcvt .. | .vquant .. => named
    | _ => []

/-- The registers that an instruction reads, then those that it writes. -/
def namedRegs (i : Instr) (x : Ctx) : List Reg :=
  (operandsOf i).map Prod.fst ++ laterOperands i ++ scaleOperands i x ++ ((frameOf i).map InstrInfo.dests).getD []

end Sys2Proof.Machine
end

