-- ==== Sys2Proof/Machine/Cycle.lean ====
section
/-!
DEFINITION. What happens in a cycle: which context issues (R27, R333, R456), the fetch of its instruction (R42, R43, R181), the
boundary before it (R67, R167), what passes with the cycle (R330, R386), and which event is due (log entry 2).
-/

namespace Sys2Proof.Machine

/-! ### Which context issues (R27, R333) -/

/-- A context that a forced yield lets go on (R167): runtime code, hardware-started helpers, what has begun to end, and traps
still to be taken. -/
def goesOn (c : Core) (x : Ctx) : Bool :=
  c.yield.isNone || runsInYield x || midway x || !x.deferred.isEmpty || x.prods.any (·.failed)

/-- A live context that may issue. -/
def mayIssue (c : Core) (i : Nat) : Bool := (ctxOf c i).live && !(ctxOf c i).stalled && goesOn c (ctxOf c i)

/-- The contexts in turn after the one that issued last. -/
def turns (c : Core) : List Nat := (List.range 11).map (fun k => (c.last + 1 + k) % 11)

/-- The oldest hardware-started helper that may issue. -/
def oldestHelper (c : Core) : Option Nat :=
  ((List.range 11).filter (fun i => i != 0 && (ctxOf c i).origin != .software && mayIssue c i)).foldl
    (fun best i => match best with
      | none => some i
      | some b => if (ctxOf c i).age < (ctxOf c b).age then some i else some b) none

/-- The context that issues. A core at the quantum barrier only completes the reads of its Fold Store instructions (R355). Under
the quantum rules' fixed rotation it is the next live one, which keeps its turn while it waits (R333); else hardware-started helpers
come first, then the others in round-robin order (R27). -/
def pickCtx (c : Core) : Option Nat :=
  if c.atBarrier then (turns c).find? (fun i => readsForFold (ctxOf c i) && mayIssue c i)
  else if c.run.any (·.det) then
    ((turns c).find? (fun i => (ctxOf c i).live && goesOn c (ctxOf c i))).filter (mayIssue c)
  else (oldestHelper c) <|> ((turns c).find? (fun i => (i == 0 || (ctxOf c i).origin == .software) && mayIssue c i))

/-- A fetch slot that DUTY gates off, spread evenly over 16 cycles (R456). -/
def gatedOff (c : Core) : Bool :=
  let k := c.cycle.toNat % 16
  (k + 1) * c.duty / 16 == k * c.duty / 16

/-! ### What passes with a cycle (R330, R386) -/

/-- What a cycle of a core changes: CYCLE, WDOG while a task runs, a grace period, the wait of a forced yield. -/
def cycleOf (c : Core) : Core :=
  { c with
    cycle := c.cycle + 1
    wdog := if c.run.isSome then c.wdog - 1 else c.wdog
    grace := c.grace.map (· - 1)
    yield := c.yield.map (fun y => if yieldWaits c then { y with waited := y.waited + 1 } else y) }

/-- One cycle of a core passes, and a nanosecond of the module's time (log entry 2). -/
def passCycle (phys : Nat) (s : State) : State := { onCore phys cycleOf s with time := s.time + 1 }

/-- One cycle of every core passes, and a nanosecond, when nothing else happens (log entry 2). -/
def passIdle (s : State) : State := { mapCores cycleOf s with time := s.time + 1 }

/-- Every waiting context looks again. -/
def wakeAll (s : State) : State :=
  mapCores (fun c => { c with
    ctl := { c.ctl with stalled := false }
    helpers := Vector.ofFn (fun i : Fin 10 => { c.helpers[i] with stalled := false }) }) s

/-! ### Fetch (R42, R43, R181) -/

/-- The halfword at an address, through the L1 instruction cache and then as a load reads it. -/
def fetchHalf (ag : Agent) (va : Word) : Act (List Byte) := do
  if inWindows va then trapAct 0x09 va
  let e ← translate ag (.ctx ag.phys ag.ctx) needX va
  match ← resolvePage ag e va va 2 with
  | [] => trapAct 0x09 va
  | p :: _ =>
    if p.inRegs then trapAct 0x09 va
    let off := va.toNat % 64
    let line := (p.pa?.getD 0) / 64
    match (coreAt (← get) ag.phys).icache.find? (·.1 == line) with
    | some l => if p.cacheable then return slice l.2 off 2
    | none => pure ()
    touchData ag p
    if p.isBad (← get) then trapAct 0x17 (va &&& ~~~0x3F#64)
    let s := readAt ag.phys ag.part (ag.ctx == 0) p.cacheable p.place (← get)
    let bytes := placeBytes s ag.phys p.cacheable p.place.line 64
    set (if p.cacheable then onCore ag.phys (fun c => { c with icache := intoL1 Prod.fst (line, bytes) c.icache }) s else s)
    return slice bytes off 2

/-- What stands at PC: an instruction, or a word that is none (R56). -/
inductive Fetched where
  | instr (i : Instr)
  | hole (word : BitVec 32) (cause : BitVec 8)

/-- What stands at PC of the context that issues (R42): the halfword there, and the next one if its bit 0 is 1. -/
def fetchInstr : Act Fetched := do
  let s ← get
  let ag := curAgent s
  let pc := (curCtx s).pc
  let h1 ← fetchHalf ag pc
  let bytes ← if leNat h1 % 2 = 0 then pure h1 else do
    let h2 ← fetchHalf ag (pc + 2)
    pure (h1 ++ h2)
  modify (onCur (fun x => { x with await := .nothing }))
  match decode bytes with
  | .ok (i, _) => return .instr i
  | .error (.hole w c) => return .hole w c
  | .error .short => return .hole 0 0x02

/-! ### Issue -/

/-- What a core does in its cycle, in a state: an instruction of the context that issues, a trap in its place (R43, R56), or
nothing of a context. -/
inductive Prepared where
  | run (i : Instr) (s : State)
  | hole (word : BitVec 32) (cause : BitVec 8) (s : State)
  | fetchFault (cause : BitVec 8) (eval : BitVec 64) (s : State)
  | done (s : State)

/-- The vector engine performs an instruction that a context stands at. -/
def standsAtEngine (c : Core) (i : Nat) : Bool := c.vxq.any (fun q => q.vrec.ctx == i && !q.passed)

/-- A context is inside an instruction that it waits for. At a forced yield one that waits for a page, the gang barrier or a
quantum end is left unperformed, and an mwait is complete (R167, R221). -/
def insideInstr (c : Core) (i : Nat) : Bool :=
  standsAtEngine c i ||
    (match (ctxOf c i).await with
    | .nothing => false
    | .page .. | .pageDone .. | .gang | .quantum | .mwait => c.yield.isNone
    | _ => true)

/-- The context where a forced yield finds it: behind an mwait (R221). -/
def atBoundary (x : Ctx) : Ctx := if x.await = .mwait then { x with pc := x.pc + 4, monitor := none } else x

/-- The trap that a context takes at this boundary (R67), and the context without it: the oldest one that waits for it, or at a
forced yield a machine error. -/
def boundaryTrap (c : Core) (i : Nat) : Option (Deferred × Ctx) :=
  let x := atBoundary (ctxOf c i)
  if insideInstr c i then none
  else match x.deferred with
    | d :: rest => some (d, { x with deferred := rest })
    | [] =>
      if c.yield.isNone then none
      else (x.prods.find? (·.failed)).map (fun p =>
        (⟨0x17, p.addr, regIndex p.reg⟩, { x with prods := x.prods.filter (fun q => !(q.reg == p.reg && q.failed)) }))

/-- Everyone looks again after a trap was taken; one whose entry must wait keeps its context waiting (R166). -/
def afterTrap (s : State) : State := if (curCtx s).entering.isSome then s else wakeAll s

/-- The context that issues takes a trap at a boundary: what it waited for is left unperformed, and no instruction issues. -/
def takeBoundary (d : Deferred) (x : Ctx) (s : State) : State :=
  let s := onCluster (clusterOf s.core.phys) (fun k => if x.await = .gang then leaveNest s.core.phys (fun a => !a.answered) k else k)
    (onCur (fun _ => { x with standing := none, await := .nothing, stalled := false, party := false }) s)
  afterTrap (stopAs (.trap d.cause d.eval d.einfo) s)

/-- The machine error that is due at an instruction, before it is checked at all (R67, R160): of a register that it reads or writes,
of any register where it ends or saves its context. -/
def dueError (i : Instr) (s : State) : Option Producer :=
  let x := curCtx s
  if x.await != .nothing || standsAtEngine s.core (curIdx s) then none
  else match i with
    | .tend | .cwait .. | .bar .. | .tyield | .hend => x.prods.find? (·.failed)
    | _ => (namedRegs i x).findSome? (regError s)

/-- The fetch of the context that issues, unless it stands at an instruction that it has. -/
def nextInstr (s : State) : Prepared :=
  match (curCtx s).standing.filter (fun x => x.1 == (curCtx s).pc) with
  | some (_, i) => .run i s
  | none =>
    match fetchInstr s with
    | .ok (.instr i) s => .run i s
    | .ok (.hole w c) s => .hole w c s
    | .error (.trap c v _) s => .fetchFault c v s
    | .error (.stall p) s => .done (standStill p s)
    | .error _ s => .done s

/-- The instruction of the context that issues, or the machine error that is due at it. -/
def errorOr (p : Prepared) : Prepared :=
  match p with
  | .run i s =>
    match dueError i s with
    | some e => .done (takeBoundary ⟨0x17, e.addr, regIndex e.reg⟩ (curCtx (dropFailed e.reg s)) s)
    | none => p
  | _ => p

/-- The cycle of a core: a resumption or a forced yield goes on, a trap entry goes on or is taken at a boundary, or an instruction
issues. -/
def prepare (phys : Nat) (s : State) : Prepared :=
  let s := focusOn phys s
  let c := s.core
  if c.resume.isSome then .done (wakeAll (tryResume phys s))
  else
    match pickCtx c with
    | none => .done (if c.yield.isSome then tryYield phys s else s)
    | some i =>
      if gatedOff c then .done s
      else
        let s := { s with core := { c with cur := ctxRef i } }
        match (ctxOf c i).entering with
        | some e => .done (afterTrap (resumeEntry e s))
        | none =>
          match boundaryTrap c i with
          | some (d, x) => .done (takeBoundary d x s)
          | none => errorOr (nextInstr s)

/-- What stands after an instruction of a context, or a trap in its place: the context at the instruction if it waits, else
everyone looks again. -/
def afterInstr (phys ctx : Nat) (pc : Word) (i : Option Instr) (s : State) : State :=
  let x := ctxOf (coreAt s phys) ctx
  if x.live && x.stalled && x.pc == pc then onCtx phys ctx (fun x => { x with standing := i.map (fun i => (pc, i)) }) s
  else wakeAll (onCtx phys ctx (fun x => { x with standing := none }) s)

/-! ### Which event is due (log entry 2) -/

/-- An event with its operands: what it does in a state. -/
abbrev Due := State → Host.Outcome State Fault Refusal

/-- Whether anything waits that a core could take: a ready record, a forked one, an entry of a Fold Store. -/
def workWaits (s : State) : Bool :=
  s.clusters.any (fun c => !c.ready.isEmpty || !c.fold.isEmpty) || (allCores s).any (fun c => !c.deque.isEmpty)

/-- Events of a core; `work` says that it could take work. -/
def coreEvents (s : State) (work : Bool) (c : Core) : List Due :=
  let n := c.phys
  (List.range c.pend.length).map (fun k => execAccessPerformed n k) ++
    (List.range 11).flatMap (fun i =>
      ((ctxOf c i).prods.filter (fun p => !p.failed)).map (fun p => execLoadValueArrival n i p.reg false)) ++
    (List.range c.inbox.length).map (fun k => execInboxEntryApply n k) ++
    (if c.vxq.isEmpty then [] else [execVectorElementGroup n]) ++
    (List.range c.sliceq.length).map (fun k => execMatrixKStep n k) ++ (List.range c.mxq.length).map (fun k => execMdrainRow n k) ++
    ((List.finRange 4).filter (fun k => (c.chans.get k).state == .running || (k == 0 && !c.owes.isEmpty))).flatMap (fun k =>
      [execCopyLineWrite n k.val, execCopyRecordFinish n k.val]) ++
    (if c.hreqs.isEmpty then [] else [execHardwareHelperStart n]) ++
    ((List.range 11).filter (fun i => (ctxOf c i).await == .message)).map (fun i => execMsendAnswer n i) ++
    (match partAt s (corePart c) with
    | some p => (p.contribs.filter (fun k => physOf p k.lcore == some n)).map (fun k => execNredRoundComplete n k.tree)
    | none => []) ++
    (if c.run.isSome && c.wdog == 0 then [execWatchdogExpiry n] else []) ++
    (if c.run.isSome && c.qnt == 0 && !c.atBarrier then [execQntExpiry n] else []) ++
    (if c.yield.isSome then [execYieldWaitLimit n] else []) ++ (if c.grace.isSome then [execGraceExpiry n] else []) ++
    (if work && c.run.isNone && c.part.isSome then [execTakeWork n] else [])

/-- Events of the control cores of an I/O die: the accesses of a proxy's lane, and the writes that its registers take. -/
def dieEvents (s : State) (d : Fin 4) : List Due :=
  let die := s.dies.get d
  die.proxies.map (fun q => execProxyAtomicService d.val q.lane) ++
    (if die.proxies.any (·.op == .swap) then
      [execStashEntryASwap d.val, execStashEntryBSwap d.val, execTreeT0Swap d.val, execMonitorConfigSwap d.val,
        execHbaseSwap d.val, execOvfbaseSwap d.val, execOvfsizeSwap d.val, execS1rootSwap d.val, execS1attrSwap d.val,
        execPartitionRegisterWrite d.val]
    else []) ++
    (if die.emus.isEmpty then [] else [execFormatEmulationRequest d.val])

/-- Events of traffic and of the control cores. -/
def trafficEvents (s : State) : List Due :=
  (List.range s.remotes.length).map (fun k => execRemoteWriteArrival k) ++
    (List.range s.posts.length).map (fun k => execFoldPostArrival k) ++
    (List.range s.answers.length).map (fun k => execFpostStatusAnswer k) ++
    (List.range s.thrs.length).map (fun k => execThresholdWriteArrival k) ++
    (List.range s.msgs.length).map (fun k => execMessagePlacement k) ++
    (List.finRange 4).flatMap (dieEvents s) ++
    (List.range 5).map (fun d => execWakeSlotGrant d) ++ s.wakes.map (fun w => execBankWakeComplete w.bank) ++
    (s.banks.filter (·.state == .powerDown)).map (fun b => execBankPowerDownComplete b.id)

/-- Events of partitions and clusters. -/
def partEvents (s : State) : List Due :=
  s.parts.flatMap (fun p =>
    [execQuantumEnd p.tag, execLaunchParse p.tag, execLayoutTick p.tag, execShrinkLimitExpiry p.tag] ++
      (ringOf p).map (fun cl => execFoldReplay cl p.tag) ++ p.tops.map (fun t => execTopTokenPass p.tag t.slot) ++
      (if p.ovfWatches.isEmpty then [] else [execOverflowWatchScan p.tag])) ++
    s.clusters.flatMap (fun c =>
      (if c.ready.isEmpty then [] else if c.retained then [execClusterRetentionExit c.id false] else [execGroupPlacement c.id]) ++
        (List.range c.nest.length).map (fun k => execNestingHoldExpiry c.id k)) ++
    (List.range 5).map (fun r => execBlackBoxWrite r)

/-- What an event does now, if it does something. -/
def happens (s : State) (e : Due) : Option State :=
  match e s with
  | .next t => if t = s then none else some t
  | _ => none

/-- A list from its k-th place on and round. -/
def rotate {α : Type} (k : Nat) (l : List α) : List α := l.drop (k % l.length) ++ l.take (k % l.length)

/-- The events that may be due, each in its turn to be looked at first. -/
def dueEvents (s : State) : List Due :=
  let near := rotate s.turn ((allCores s).flatMap (coreEvents s (workWaits s)))
  let far := rotate (s.turn / 8) (trafficEvents s ++ partEvents s)
  if s.turn % 8 = 7 then far ++ near else near ++ far

/-- What the first event does that is due. -/
def nextEvent (s : State) : Option State :=
  ((dueEvents s).findSome? (happens s)).map (fun t => { t with turn := t.turn + 1 })

/-- A core that has something to do in its cycle. -/
def hasCycle (c : Core) : Bool := c.resume.isSome || c.yield.isSome || (pickCtx c).isSome

/-- The next core after the one in focus that has something to do. -/
def nextCore (s : State) : Option Nat :=
  let l := (s.others.filter hasCycle).map Core.phys
  (l.find? (s.core.phys < ·)) <|> l.head?

/-- What a step does when nothing is on the agenda: a core's cycle, an event, or only time passes. -/
inductive Choice where
  | issue (phys : Nat)
  | event (o : Host.Outcome State Fault Refusal)
  | idle

/-- The core in focus gives a cycle to the others: every second time to another core first. -/
def background (s : State) : Choice :=
  let e := (nextEvent s).map (fun t => Choice.event (.next t))
  let o := (nextCore s).map Choice.issue
  let first := if s.core.cycle.toNat / 4 % 2 = 1 then o <|> e else e <|> o
  first.getD (if hasCycle s.core then .issue s.core.phys else .idle)

/-- What happens next when nothing is on the agenda: an expiry on the core in focus, its cycle, or in every fourth cycle
and while it has nothing to do an event or another core. -/
def choose (s : State) : Choice :=
  let c := s.core
  if c.run.isSome && c.wdog == 0 && c.resume.isNone && c.yield.isNone then .event (execWatchdogExpiry c.phys s)
  else if c.run.isSome && c.qnt == 0 && !c.atBarrier && (partAt s (corePart c)).any quantumRules then .event (execQntExpiry c.phys s)
  else if c.cycle.toNat % 4 != 3 && hasCycle c then .issue c.phys
  else background s

end Sys2Proof.Machine
end

