-- ==== Sys2Proof/Machine/Step.lean ====
section
/-!
DEFINITION. One step of the module: what is on the agenda, else what `choose` says; and the placement of a word where the
next step fetches.
-/

namespace Sys2Proof.Machine

/-- The next state of an outcome goes on through a function. -/
def thenState (f : State → State) (o : Host.Outcome State Fault Refusal) : Host.Outcome State Fault Refusal :=
  match o with
  | .next s => .next (f s)
  | .fault r => .fault r
  | .refused r => .refused r

/-- The cycle of a core. -/
def issueOn (phys : Nat) (s : State) : Host.Outcome State Fault Refusal :=
  match prepare phys s with
  | .done t => .next (passCycle phys t)
  | .run i t => thenState (fun u => passCycle phys (afterInstr phys (curIdx t) (curCtx t).pc (some i) u)) (exec i t)
  | .hole w c t => thenState (fun u => passCycle phys (afterInstr phys (curIdx t) (curCtx t).pc none u)) (execHole w c t)
  | .fetchFault c v t => thenState (fun u => passCycle phys (afterInstr phys (curIdx t) (curCtx t).pc none u)) (execFetchFault c v t)

/-- A move. -/
def doMove (m : Move) (s : State) : Host.Outcome State Fault Refusal :=
  match m with
  | .event i => thenState wakeAll (exec i s)
  | .issue phys => issueOn phys s
  | .elapse ns => .next { s with time := s.time + ns }
  | .corrected m => .next (countCorrected m s)
  | .upset p => .next (markBad p s)
  | .pace phys n => .next (onCore phys (fun c => { c with pace := n }) s)

/-- One step: the head of the agenda; without power nothing happens of itself; else the move that is due, in a cycle of the
core in focus. -/
def step (s : State) : Host.Outcome State Fault Refusal :=
  match s.agenda with
  | m :: rest => doMove m { s with agenda := rest }
  | [] =>
    if !s.powered then .fault .deviceOff
    else
      match choose s with
      | .issue phys => issueOn phys s
      | .event o => thenState (fun t => passCycle s.core.phys (wakeAll t)) o
      | .idle => .next (passIdle s)

/-- The translation of a page of a partition to a page of stacked DRAM, with every permission. -/
def openPage (part gen vpage ppage : Nat) : TlbEntry :=
  ⟨part, gen, vpage, ppage, 0, 0, 0, true, true, true, true, true, 2, 0, 0, false, false, 12, 12, 0, 0, []⟩

/-- A running task of a partition. -/
def plainRun (tag : Nat) : Running :=
  ⟨parseTask (List.replicate 64 0), 0, tag, 0, 1, 0, none, false, [], none, []⟩

/-- A core whose control context issues next, from pages that its instruction TLB holds. -/
def readyToFetch (tag gen : Nat) (c : Core) : Core :=
  let v := c.ctl.pc.toNat / 4096
  { c with
    part := some tag
    ctl := { c.ctl with
      live := true, stalled := false, party := false, await := .nothing, deferred := [], standing := none
      entering := none, saving := false, prods := [], locks := [], vres := none }
    helpers := Vector.replicate 10 (Ctx.reset true)
    cur := none, last := 10, cycle := 0, duty := 16, wdog := 2 ^ 20, qnt := 64
    run := some (c.run.getD (plainRun tag)), resume := none, yield := none, grace := none, atBarrier := false, vxq := [], vcq := []
    itlb := [openPage tag gen v 0, openPage tag gen (v + 1) 1], icache := [] }

/-- The state with an instruction's bits where the next step fetches: the focus core's control context runs a task of a
partition and fetches at its PC, whose page is mapped to the start of stacked DRAM. -/
def State.withFetchWord (s : State) (nbits w : Nat) : State :=
  let tag := s.core.part.getD 0
  let p := (partAt s tag).getD (newPartition tag [s.core.phys] [] 0 0 false [])
  let pa := s.core.ctl.pc.toNat % 4096
  let hit := fun (line : Nat) => line == pa / 64 || line == (pa + 2) / 64
  { s with
    agenda := []
    powered := true
    core := readyToFetch tag p.gen s.core
    parts := putBy Partition.tag p s.parts
    banks := putBy Bank.id ⟨0, .active, some tag, 0, 0, 0⟩ s.banks
    mem := memWrite s.mem pa (leBytes 4 (w % 2 ^ nbits))
    badLines := s.badLines.filter (fun l => !hit l)
    partials := s.partials.filter (fun q => !hit (q.pa / 64))
    owned := s.owned.filter (fun o => !hit o.1)
    clusters := s.clusters.map (fun c => { c with lines := c.lines.filter (fun l => !hit l.line) }) }

end Sys2Proof.Machine
end

