-- ==== Sys2Proof/Safety.lean ====
section
/-!
DEFINITION. The terms in which the statements speak: when an instruction may issue and its operands are there, what an
instruction that completes leaves, which registers, memory bytes and tables it leaves alone, and the tables that the spec
gives for whole families (what R51, R55, R61 and R224 say of each instruction; the results of R76 to R81, R112 to R120).
The formulas of the integer results are the spec's own, over natural numbers and integers, and not those of the machine.
-/

namespace Sys2Proof.Safety

open Sys2Proof.Machine

/-! ### When an instruction issues and completes -/

/-- The first of the conditions of R58 (steps 5 to 7) and of R224 (reason 5) that an instruction meets in a state, as what it
stops with. -/
def firstCheck (f : InstrInfo) (s : State) : Option Stop :=
  let x := curCtx s
  if hasPfx x && (f.pfx == 0 || (f.pfx == 1 && bitsOf x.fmt 21 0 != 0)) then some (.trap 0x1A 0 0)
  else if privOf x.status < f.priv then some (.trap 0x03 0 0)
  else if isHelper s && (!f.helper || f.dests.any (fun d => 16 ≤ d.val)) then some (.trap 0x01 0 0)
  else if !isHelper s && f.onlyHelper then some (.trap 0x01 0 0)
  else if !isHelper s && s.core.txn.isSome && !f.txn then some (.abort 5 0)
  else none

/-- The instruction meets none of those conditions. -/
abbrev MayIssue (f : InstrInfo) (s : State) : Prop := firstCheck f s = none

/-- Register n can be read now: it is present, no machine error waits on it, it is no destination of an instruction that has
not completed (R63, R64, R67). -/
abbrev Readable (s : State) (n : Reg) : Prop := regError s n = none ∧ regLocked s n = false ∧ regPresent s n = true

/-- Register n can be written now: s0, or one without an outstanding local producer (R66, R67). -/
abbrev Writable (s : State) (n : Reg) : Prop :=
  n = 0 ∨ (regError s n = none ∧ regPending s n = false ∧ regLocked s n = false)

/-- The state after an instruction that completes, but for what it does itself: PC behind it, counted as retired, a pending
format that it accepts consumed (R42, R55, R386 to R388). -/
def completes (f : InstrInfo) (s : State) : State :=
  retire f (onCur (fun x => { x with pc := x.pc + BitVec.ofNat 64 f.len }) s)

/-- The same for an instruction that sets PC itself. -/
def completesAt (f : InstrInfo) (pc : Word) (s : State) : State := retire f (onCur (fun x => { x with pc := pc }) s)

/-- FFLAGS of the context that issues gains flags (R108). -/
def addFlags (f : FlagSet) (s : State) : State := onCur (fun x => { x with fflags := x.fflags ||| f.zeroExtend 64 }) s

/-- No transaction is open, the task is not deterministic, no access of the core is still to be performed, its vector engine is
empty, no stash entry of the core is there, and no monitor unit of its cluster is on. -/
structure Plain (s : State) : Prop where
  noTxn : s.core.txn = none
  notDet : detMode s = false
  noPend : s.core.pend = []
  noVec : s.core.vxq = []
  noStash : s.core.stash = []
  noMons : (clusterAt s (clusterOf s.core.phys)).mons.all (fun u => !u.config.getLsbD 0) = true

/-- Nothing of the context that issues is still on its way: its accesses are performed at every scope and its matrix and
vector instructions are complete (R219). -/
def Settled (s : State) (scope : Scope) : Prop :=
  accessesDone s s.core.phys (curIdx s) scope = true ∧ enginesDone s s.core.phys (curIdx s) = true

/-- The context that issues can read registers now, and none of what it reads is on its way. -/
def AllReadable (s : State) (l : List Reg) : Prop := ∀ n ∈ l, Readable s n

/-- The halfwords at PC of the context that issues: one, or two if bit 0 of the first is 1 (R42), and the state after their
fetch. -/
def FetchGives (s : State) (bytes : List Byte) (t : State) : Prop :=
  ∃ b1 s1, fetchHalf (curAgent s) (curCtx s).pc s = .ok b1 s1 ∧
    ((leNat b1 % 2 = 0 ∧ bytes = b1 ∧ t = s1) ∨
      (leNat b1 % 2 = 1 ∧ ∃ b2, fetchHalf (curAgent s) ((curCtx s).pc + 2) s1 = .ok b2 t ∧ bytes = b1 ++ b2))

/-- The context that issues is at the start of an instruction: it waits on nothing. -/
def atStart (s : State) : State := onCur (fun x => { x with await := .nothing }) s

/-- The context that issues has no value on its way, its engines and the copy channels of its core are at rest, and every access
of the core is performed (R89, R166, R216, R300). -/
structure Quiet (s : State) : Prop where
  noProds : (curCtx s).prods = []
  noLocks : (curCtx s).locks = []
  engines : enginesDone s s.core.phys (curIdx s) = true
  chans : chansQuiet s.core = true
  done : coreDone s s.core = true

/-- Besides, no helper of the core is live (R166, R327). -/
structure AtRest (s : State) : Prop extends Quiet s where
  noHelpers : helpersLive s.core = false

/-- What an instruction leaves besides, where one of its operands is empty: an mma leaves the Nesting buffer (R290), a member of a
row group has arrived at the gang barrier as failed (R145), a copy channel is idle (R297). -/
def trapLeaves (i : Instr) (s : State) : State :=
  let phys := s.core.phys
  let member := fun (x : Fin 4) => if (waitingMember s phys x).isSome then leaveEntry phys x s else s
  match i with
  | .mma x .. => member x
  | .mmaSolo x .. => member x
  | .mgang .. => if isRowGroup s phys then gangArrive (arrivalOf s phys 0 none true) s else s
  | .cpy ch .. => stopChannel phys ch s
  | .cpyc ch .. => stopChannel phys ch s
  | _ => s

/-! ### What an instruction leaves alone -/

/-- Every byte of memory and of every local store, as every core reads it, is what it was. -/
def SameBytes (s t : State) : Prop :=
  ∀ (phys : Nat) (cacheable : Bool) (p : Place), placeByte t phys cacheable p = placeByte s phys cacheable p

/-- Every register but those of a list is what it was, value and presence. -/
def SameRegs (ds : List Reg) (s t : State) : Prop :=
  ∀ n : Reg, n ∉ ds → regVal t n = regVal s n ∧ regPresent t n = regPresent s n

/-- Nothing outside the core in focus has changed. -/
def SameElsewhere (s t : State) : Prop := { t with core := s.core } = s

/-- The newest audit record names a layout event of a partition, and MR5 has been extended with it (R449, R451). -/
def Extended (s t : State) (event tag : Nat) : Prop :=
  ∃ r, t.io.audit.getLast? = some r ∧ r.event = event ∧ r.part = tag ∧ r.seq = s.io.auditSeq ∧
    t.io.mr[5] = sha384 (s.io.mr[5] ++ sha384 r.bytes)

/-- A proxy request has left its die's control core, and the context that stands at it, if it waits for a value, has an answer
(R209). -/
def ProxyAnswered (d : Fin 4) (q : ProxyReq) (rest : List ProxyReq) (a : Await) (s t : State) : Prop :=
  (t.dies.get d).proxies = rest ∧
    (q.returns = true → (ctxOf (coreAt s q.phys) q.ctx).await = .proxy → (ctxOf (coreAt t q.phys) q.ctx).await = a) ∧
    (q.returns = false → ∀ cause eval einfo, a = .proxyTrap cause eval einfo →
      (ctxOf (coreAt t q.phys) q.ctx).deferred = (ctxOf (coreAt s q.phys) q.ctx).deferred ++ [⟨cause, eval, einfo⟩])

/-- Memory and the bytes of every local-store allocation are in the canonical form (log entry 4). -/
abbrev MemoriesCanonical (s : State) : Prop := Memory.wf s.mem ∧ ∀ c ∈ allCores s, ∀ a ∈ c.allocs, Memory.wf a.mem

/-- Of the core in focus only its contexts, the record of who issued last, RETIRED and QNT have changed. -/
def SameCore (s t : State) : Prop :=
  { t.core with ctl := s.core.ctl, helpers := s.core.helpers, last := s.core.last, retired := s.core.retired, qnt := s.core.qnt } = s.core

/-- The other contexts of the core are what they were. -/
def SameOthers (s t : State) : Prop := ∀ k : Nat, k ≤ 10 → k ≠ curIdx s → ctxOf t.core k = ctxOf s.core k

/-- The exception registers, FMT, and what the context waits on and holds besides registers are what they were. -/
def SameSpecials (s t : State) : Prop :=
  (curCtx t).cause = (curCtx s).cause ∧ (curCtx t).epc = (curCtx s).epc ∧ (curCtx t).eval = (curCtx s).eval ∧
    (curCtx t).einfo = (curCtx s).einfo ∧ (curCtx t).fmt = (curCtx s).fmt ∧ (curCtx t).prods = (curCtx s).prods ∧
    (curCtx t).locks = (curCtx s).locks ∧ (curCtx t).monitor = (curCtx s).monitor ∧ (curCtx t).vres = (curCtx s).vres

/-- The frame of an instruction that writes at most the registers of a list: everything else is what it was but PC, the
counters of R386 and R387, and, where it accepts a pending format, STATUS.PFX. FFLAGS is stated apart. -/
structure RegisterFrame (f : InstrInfo) (s t : State) : Prop where
  regs : SameRegs f.dests s t
  specials : SameSpecials s t
  status : (curCtx t).status = if f.pfx = 0 then (curCtx s).status else (curCtx s).status &&& ~~~1#64
  others : SameOthers s t
  core : SameCore s t
  elsewhere : SameElsewhere s t
  bytes : SameBytes s t

/-! ### Integer results (R76 to R79, R44) -/

/-- 1 or 0. -/
def truth (p : Prop) [Decidable p] : Word := if p then 1 else 0

/-- An instruction that reads registers and writes one: what it reads, in order, the register, the value and the flags. -/
structure RegForm where
  reads : List Reg
  dest : Reg
  value : Word
  flags : FlagSet

/-- The results of R76 for two operands, over natural numbers and integers. -/
def aluValue (op : AluOp) (x y : Word) : Word :=
  match op with
  | .add => x + y
  | .sub => x - y
  | .mul => x * y
  | .mulh => BitVec.ofInt 64 (x.toInt * y.toInt / 2 ^ 64)
  | .mulhn => BitVec.ofNat 64 (x.toNat * y.toNat / 2 ^ 64)
  | .div => if y = 0 then 0xFFFFFFFFFFFFFFFF else BitVec.ofInt 64 (x.toInt.tdiv y.toInt)
  | .divn => if y = 0 then 0xFFFFFFFFFFFFFFFF else BitVec.ofNat 64 (x.toNat / y.toNat)
  | .rem => if y = 0 then x else BitVec.ofInt 64 (x.toInt - y.toInt * x.toInt.tdiv y.toInt)
  | .remn => if y = 0 then x else BitVec.ofNat 64 (x.toNat % y.toNat)
  | .and => x &&& y
  | .or => x ||| y
  | .xor => x ^^^ y
  | .andn => x &&& ~~~y
  | .sll => BitVec.ofNat 64 (x.toNat * 2 ^ (y.toNat % 64))
  | .srl => BitVec.ofNat 64 (x.toNat / 2 ^ (y.toNat % 64))
  | .sra => BitVec.ofInt 64 (x.toInt / 2 ^ (y.toNat % 64))
  | .ror => BitVec.ofNat 64 (x.toNat / 2 ^ (y.toNat % 64) + x.toNat % 2 ^ (y.toNat % 64) * 2 ^ (64 - y.toNat % 64))
  | .min => if x.toInt ≤ y.toInt then x else y
  | .max => if x.toInt ≤ y.toInt then y else x
  | .minn => if x.toNat ≤ y.toNat then x else y
  | .maxn => if x.toNat ≤ y.toNat then y else x
  | .slt => truth (x.toInt < y.toInt)
  | .sltn => truth (x.toNat < y.toNat)
  | .seq => truth (x = y)

/-- Leading zeros: the number of the 64 bits above the highest one (R76). -/
def leadingZeros (x : Word) : Nat := ((List.range 64).takeWhile (fun i => !x.getLsbD (63 - i))).length

/-- Trailing zeros (R76). -/
def trailingZeros (x : Word) : Nat := ((List.range 64).takeWhile (fun i => !x.getLsbD i)).length

/-- One bits (R76). -/
def oneBits (x : Word) : Nat := ((List.range 64).filter (fun i => x.getLsbD i)).length

/-- Sext of R18 of the low 8, 16 or 32 bits (R76). -/
def signExtended (size : Fin 3) (x : Word) : Word :=
  match size with
  | 0 => (x.truncate 8).signExtend 64
  | 1 => (x.truncate 16).signExtend 64
  | 2 => (x.truncate 32).signExtend 64

/-- Zext of R18 of the low 8, 16 or 32 bits (R76). -/
def zeroExtended (size : Fin 3) (x : Word) : Word := BitVec.ofNat 64 (x.toNat % 2 ^ (8 * 2 ^ size.val))

/-- The integer instructions of major 0 (R76), of the immediate forms (R77), of the shifts by a constant (R78), hi and pcrel
(R79) and the compact integer forms (R44): what each reads, in order, where its result goes, and its result in a state. -/
def intForm (s : State) : Instr → Option RegForm
  | .add d a b _ _ => some ⟨[a, b], d, aluValue .add (regVal s a) (regVal s b), 0⟩
  | .sub d a b _ _ => some ⟨[a, b], d, aluValue .sub (regVal s a) (regVal s b), 0⟩
  | .mul d a b _ _ => some ⟨[a, b], d, aluValue .mul (regVal s a) (regVal s b), 0⟩
  | .mulh d a b _ _ => some ⟨[a, b], d, aluValue .mulh (regVal s a) (regVal s b), 0⟩
  | .mulhn d a b _ _ => some ⟨[a, b], d, aluValue .mulhn (regVal s a) (regVal s b), 0⟩
  | .div d a b _ _ => some ⟨[a, b], d, aluValue .div (regVal s a) (regVal s b), 0⟩
  | .divn d a b _ _ => some ⟨[a, b], d, aluValue .divn (regVal s a) (regVal s b), 0⟩
  | .rem d a b _ _ => some ⟨[a, b], d, aluValue .rem (regVal s a) (regVal s b), 0⟩
  | .remn d a b _ _ => some ⟨[a, b], d, aluValue .remn (regVal s a) (regVal s b), 0⟩
  | .and d a b _ _ => some ⟨[a, b], d, aluValue .and (regVal s a) (regVal s b), 0⟩
  | .or d a b _ _ => some ⟨[a, b], d, aluValue .or (regVal s a) (regVal s b), 0⟩
  | .xor d a b _ _ => some ⟨[a, b], d, aluValue .xor (regVal s a) (regVal s b), 0⟩
  | .andn d a b _ _ => some ⟨[a, b], d, aluValue .andn (regVal s a) (regVal s b), 0⟩
  | .sll d a b _ _ => some ⟨[a, b], d, aluValue .sll (regVal s a) (regVal s b), 0⟩
  | .srl d a b _ _ => some ⟨[a, b], d, aluValue .srl (regVal s a) (regVal s b), 0⟩
  | .sra d a b _ _ => some ⟨[a, b], d, aluValue .sra (regVal s a) (regVal s b), 0⟩
  | .ror d a b _ _ => some ⟨[a, b], d, aluValue .ror (regVal s a) (regVal s b), 0⟩
  | .min d a b _ _ => some ⟨[a, b], d, aluValue .min (regVal s a) (regVal s b), 0⟩
  | .max d a b _ _ => some ⟨[a, b], d, aluValue .max (regVal s a) (regVal s b), 0⟩
  | .minn d a b _ _ => some ⟨[a, b], d, aluValue .minn (regVal s a) (regVal s b), 0⟩
  | .maxn d a b _ _ => some ⟨[a, b], d, aluValue .maxn (regVal s a) (regVal s b), 0⟩
  | .slt d a b _ _ => some ⟨[a, b], d, aluValue .slt (regVal s a) (regVal s b), 0⟩
  | .sltn d a b _ _ => some ⟨[a, b], d, aluValue .sltn (regVal s a) (regVal s b), 0⟩
  | .seq d a b _ _ => some ⟨[a, b], d, aluValue .seq (regVal s a) (regVal s b), 0⟩
  | .clz d a _ => some ⟨[a], d, BitVec.ofNat 64 (leadingZeros (regVal s a)), 0⟩
  | .ctz d a _ => some ⟨[a], d, BitVec.ofNat 64 (trailingZeros (regVal s a)), 0⟩
  | .popc d a _ => some ⟨[a], d, BitVec.ofNat 64 (oneBits (regVal s a)), 0⟩
  | .sext d a size _ => some ⟨[a], d, signExtended size (regVal s a), 0⟩
  | .zext d a size _ => some ⟨[a], d, zeroExtended size (regVal s a), 0⟩
  | .csel d a b _ _ => some ⟨[a, b, d], d, if regVal s d ≠ 0 then regVal s a else regVal s b, 0⟩
  | .addi d a _ imm => some ⟨[a], d, aluValue .add (regVal s a) (BitVec.ofInt 64 imm.toInt), 0⟩
  | .andi d a _ imm => some ⟨[a], d, aluValue .and (regVal s a) (BitVec.ofInt 64 imm.toInt), 0⟩
  | .ori d a _ imm => some ⟨[a], d, aluValue .or (regVal s a) (BitVec.ofInt 64 imm.toInt), 0⟩
  | .xori d a _ imm => some ⟨[a], d, aluValue .xor (regVal s a) (BitVec.ofInt 64 imm.toInt), 0⟩
  | .slti d a _ imm => some ⟨[a], d, aluValue .slt (regVal s a) (BitVec.ofInt 64 imm.toInt), 0⟩
  | .sltni d a _ imm => some ⟨[a], d, aluValue .sltn (regVal s a) (BitVec.ofInt 64 imm.toInt), 0⟩
  | .slli d a _ amt => some ⟨[a], d, aluValue .sll (regVal s a) (BitVec.ofNat 64 amt.toNat), 0⟩
  | .srli d a _ amt => some ⟨[a], d, aluValue .srl (regVal s a) (BitVec.ofNat 64 amt.toNat), 0⟩
  | .srai d a _ amt => some ⟨[a], d, aluValue .sra (regVal s a) (BitVec.ofNat 64 amt.toNat), 0⟩
  | .rori d a _ amt => some ⟨[a], d, aluValue .ror (regVal s a) (BitVec.ofNat 64 amt.toNat), 0⟩
  | .hi d imm => some ⟨[], d, BitVec.ofInt 64 (imm.toInt * 4096), 0⟩
  | .pcrel d imm => some ⟨[], d, (curCtx s).pc + BitVec.ofInt 64 (imm.toInt * 4096), 0⟩
  | .cMv d b _ => some ⟨[0, b], d, regVal s b, 0⟩
  | .cAdd d b _ => some ⟨[d, b], d, aluValue .add (regVal s d) (regVal s b), 0⟩
  | .cSub d b _ => some ⟨[d, b], d, aluValue .sub (regVal s d) (regVal s b), 0⟩
  | .cAnd d b _ => some ⟨[d, b], d, aluValue .and (regVal s d) (regVal s b), 0⟩
  | .cOr d b _ => some ⟨[d, b], d, aluValue .or (regVal s d) (regVal s b), 0⟩
  | .cXor d b _ => some ⟨[d, b], d, aluValue .xor (regVal s d) (regVal s b), 0⟩
  | .cSll d b _ => some ⟨[d, b], d, aluValue .sll (regVal s d) (regVal s b), 0⟩
  | .cSrl d b _ => some ⟨[d, b], d, aluValue .srl (regVal s d) (regVal s b), 0⟩
  | .cSra d b _ => some ⟨[d, b], d, aluValue .sra (regVal s d) (regVal s b), 0⟩
  | .cAddi d imm _ => some ⟨[d], d, regVal s d + BitVec.ofInt 64 imm.toInt, 0⟩
  | _ => none

/-! ### Floating-point results (R112 to R120) -/

/-- The rounding of a scalar instruction: rm of a pending format unless it is 6, else STATUS.RM, with SEED and element index
0 for the dithered mode (R101, R110). -/
def rounding (s : State) : Rounding := scalarRounding s

/-- A result and its flags as a form. -/
def fpResult (reads : List Reg) (d : Reg) (r : Word × FlagSet) : Option RegForm := some ⟨reads, d, r.1, r.2⟩

/-- The scalar floating-point instructions (R113 to R120). The sign operations are given here on bits; the arithmetic is that
of the number formats (R99 to R111). -/
def fpForm (s : State) : Instr → Option RegForm
  | .fadd d a b _ _ => fpResult [a, b] d (faddOp (rounding s) (regVal s a) (regVal s b))
  | .fsub d a b _ _ => fpResult [a, b] d (fsubOp (rounding s) (regVal s a) (regVal s b))
  | .fmul d a b _ _ => fpResult [a, b] d (fmulOp (rounding s) (regVal s a) (regVal s b))
  | .fdiv d a b _ _ => fpResult [a, b] d (fdivOp (rounding s) (regVal s a) (regVal s b))
  | .fmin d a b _ _ => fpResult [a, b] d (fminmaxOp false (rounding s) (regVal s a) (regVal s b))
  | .fmax d a b _ _ => fpResult [a, b] d (fminmaxOp true (rounding s) (regVal s a) (regVal s b))
  | .feq d a b _ _ => fpResult [a, b] d (fcmpOp .eq (rounding s) (regVal s a) (regVal s b))
  | .flt d a b _ _ => fpResult [a, b] d (fcmpOp .lt (rounding s) (regVal s a) (regVal s b))
  | .fle d a b _ _ => fpResult [a, b] d (fcmpOp .le (rounding s) (regVal s a) (regVal s b))
  | .fsgnj d a b _ _ => fpResult [a, b] d ((regVal s a &&& 0x7FFFFFFF) ||| (regVal s b &&& 0x80000000), 0)
  | .fneg d a _ => fpResult [a] d ((regVal s a &&& 0xFFFFFFFF) ^^^ 0x80000000, 0)
  | .fabs d a _ => fpResult [a] d (regVal s a &&& 0x7FFFFFFF, 0)
  | .fsqrt d a _ => fpResult [a] d (fsqrtOp (rounding s) (regVal s a))
  | .fclass d a _ => fpResult [a] d (fclassOp (rounding s) (regVal s a))
  | .frcp d a _ => fpResult [a] d (frcpOp (rounding s) (regVal s a))
  | .frsq d a _ => fpResult [a] d (frsqOp (rounding s) (regVal s a))
  | .fcvtfi d a _ => fpResult [a] d (toIntOp (-(2 ^ 63)) (2 ^ 63 - 1) (rounding s) (regVal s a))
  | .fcvtfn d a _ => fpResult [a] d (toIntOp 0 (2 ^ 64 - 1) (rounding s) (regVal s a))
  | .fcvtbf d a _ => fpResult [a] d (bfToFp (rounding s) (regVal s a))
  | .fcvtfb d a _ => fpResult [a] d (fpToBf (rounding s) (regVal s a))
  | .fcvtif d a _ => fpResult [a] d (ofIntOp (rounding s) (regVal s a).toInt)
  | .fcvtnf d a _ => fpResult [a] d (ofIntOp (rounding s) (regVal s a).toNat)
  | .ffma d a b c _ => fpResult [a, b, c] d (fmaOp false false (rounding s) (regVal s a) (regVal s b) (regVal s c))
  | .ffms d a b c _ => fpResult [a, b, c] d (fmaOp true false (rounding s) (regVal s a) (regVal s b) (regVal s c))
  | .fnfma d a b c _ => fpResult [a, b, c] d (fmaOp false true (rounding s) (regVal s a) (regVal s b) (regVal s c))
  | .fnfms d a b c _ => fpResult [a, b, c] d (fmaOp true true (rounding s) (regVal s a) (regVal s b) (regVal s c))
  | .cFadd d b _ => fpResult [d, b] d (faddOp (rounding s) (regVal s d) (regVal s b))
  | .cFmul d b _ => fpResult [d, b] d (fmulOp (rounding s) (regVal s d) (regVal s b))
  | .cFmin d b _ => fpResult [d, b] d (fminmaxOp false (rounding s) (regVal s d) (regVal s b))
  | .cFmax d b _ => fpResult [d, b] d (fminmaxOp true (rounding s) (regVal s d) (regVal s b))
  | _ => none

/-! ### Branches and jumps (R80, R81) -/

/-- The conditional branches: the registers read, whether the condition holds, the offset (R80). -/
def branchForm (s : State) : Instr → Option (List Reg × Bool × BitVec 12)
  | .beq a b _ off => some ([a, b], decide ((regVal s a) = (regVal s b)), off)
  | .bne a b _ off => some ([a, b], decide ((regVal s a) ≠ (regVal s b)), off)
  | .blt a b _ off => some ([a, b], decide ((regVal s a).toInt < (regVal s b).toInt), off)
  | .bge a b _ off => some ([a, b], decide ((regVal s b).toInt ≤ (regVal s a).toInt), off)
  | .bltn a b _ off => some ([a, b], decide ((regVal s a).toNat < (regVal s b).toNat), off)
  | .bgen a b _ off => some ([a, b], decide ((regVal s b).toNat ≤ (regVal s a).toNat), off)
  | .bbs a bit _ off => some ([a], (regVal s a).getLsbD bit.val, off)
  | .bbc a bit _ off => some ([a], !(regVal s a).getLsbD bit.val, off)
  | _ => none

/-- Where a branch whose condition holds or not goes: PC + Sext(off) × 2, or PC + 4 (R17, R80). -/
def branchTarget (pc : Word) (taken : Bool) (off : BitVec 12) : Word :=
  if taken then pc + BitVec.ofInt 64 (off.toInt * 2) else pc + 4

/-! ### Accesses to memory (R197, R205, R208, R211) -/

/-- A load or store: the register that gives the address, the address in a state, the bytes. -/
structure AccessForm where
  base : Reg
  addr : Word
  size : Nat

/-- The address of a load or store: the register plus the offset scaled by the size (R51, R197). -/
def scaledAddr (s : State) (a : Reg) (off : BitVec 11) (n : Nat) : Word := regVal s a + BitVec.ofInt 64 (off.toInt * n)

/-- The loads: destination, access, and the extension of the bytes read (R197). -/
def loadForm (s : State) : Instr → Option (Reg × AccessForm × (Nat → Word))
  | .ldB d a _ off => some (d, ⟨a, scaledAddr s a off 1, 1⟩, fun v => (BitVec.ofNat 8 v).signExtend 64)
  | .ldH d a _ off => some (d, ⟨a, scaledAddr s a off 2, 2⟩, fun v => (BitVec.ofNat 16 v).signExtend 64)
  | .ldW d a _ off => some (d, ⟨a, scaledAddr s a off 4, 4⟩, fun v => (BitVec.ofNat 32 v).signExtend 64)
  | .ldD d a _ off => some (d, ⟨a, scaledAddr s a off 8, 8⟩, fun v => BitVec.ofNat 64 v)
  | .ldBn d a _ off => some (d, ⟨a, scaledAddr s a off 1, 1⟩, fun v => BitVec.ofNat 64 (v % 2 ^ 8))
  | .ldHn d a _ off => some (d, ⟨a, scaledAddr s a off 2, 2⟩, fun v => BitVec.ofNat 64 (v % 2 ^ 16))
  | .ldWn d a _ off => some (d, ⟨a, scaledAddr s a off 4, 4⟩, fun v => BitVec.ofNat 64 (v % 2 ^ 32))
  | .cLd d b _ => some (d, ⟨b, regVal s b, 8⟩, fun v => BitVec.ofNat 64 v)
  | _ => none

/-- The stores: the data register and the access (R197). -/
def storeForm (s : State) : Instr → Option (Reg × AccessForm)
  | .stB data a _ off => some (data, ⟨a, scaledAddr s a off 1, 1⟩)
  | .stH data a _ off => some (data, ⟨a, scaledAddr s a off 2, 2⟩)
  | .stW data a _ off => some (data, ⟨a, scaledAddr s a off 4, 4⟩)
  | .stD data a _ off => some (data, ⟨a, scaledAddr s a off 8, 8⟩)
  | .cSt d b _ => some (d, ⟨b, regVal s b, 8⟩)
  | _ => none

/-- The atomics with one operand: operation, destination, address register, operand register, bytes, scope (R205, R206). -/
def amoForm : Instr → Option (RmwOp × Reg × Reg × Reg × Nat × Scope)
  | .amoAdd d a b _ sz scope => some (.add, d, a, b, if sz then 8 else 4, scope)
  | .amoAnd d a b _ sz scope => some (.and, d, a, b, if sz then 8 else 4, scope)
  | .amoOr d a b _ sz scope => some (.or, d, a, b, if sz then 8 else 4, scope)
  | .amoXor d a b _ sz scope => some (.xor, d, a, b, if sz then 8 else 4, scope)
  | .amoMin d a b _ sz scope => some (.min, d, a, b, if sz then 8 else 4, scope)
  | .amoMax d a b _ sz scope => some (.max, d, a, b, if sz then 8 else 4, scope)
  | .amoMinn d a b _ sz scope => some (.minn, d, a, b, if sz then 8 else 4, scope)
  | .amoMaxn d a b _ sz scope => some (.maxn, d, a, b, if sz then 8 else 4, scope)
  | .amoSwap d a b _ sz scope => some (.swap, d, a, b, if sz then 8 else 4, scope)
  | .amoFadd d a b _ scope => some (.fadd, d, a, b, 4, scope)
  | .amoFmin d a b _ scope => some (.fmin, d, a, b, 4, scope)
  | .amoFmax d a b _ scope => some (.fmax, d, a, b, 4, scope)
  | .amoBadd d a b _ scope => some (.badd, d, a, b, 4, scope)
  | _ => none

/-- The reductions: operation, address register, operand register, bytes, the order flag, scope (R211). -/
def redForm : Instr → Option (RmwOp × Reg × Reg × Nat × Bool × Scope)
  | .redAdd a b _ sz ord scope => some (.add, a, b, if sz then 8 else 4, ord, scope)
  | .redAnd a b _ sz ord scope => some (.and, a, b, if sz then 8 else 4, ord, scope)
  | .redOr a b _ sz ord scope => some (.or, a, b, if sz then 8 else 4, ord, scope)
  | .redXor a b _ sz ord scope => some (.xor, a, b, if sz then 8 else 4, ord, scope)
  | .redMin a b _ sz ord scope => some (.min, a, b, if sz then 8 else 4, ord, scope)
  | .redMax a b _ sz ord scope => some (.max, a, b, if sz then 8 else 4, ord, scope)
  | .redMinn a b _ sz ord scope => some (.minn, a, b, if sz then 8 else 4, ord, scope)
  | .redMaxn a b _ sz ord scope => some (.maxn, a, b, if sz then 8 else 4, ord, scope)
  | .redFadd a b _ ord scope => some (.fadd, a, b, 4, ord, scope)
  | .redFmin a b _ ord scope => some (.fmin, a, b, 4, ord, scope)
  | .redFmax a b _ ord scope => some (.fmax, a, b, 4, ord, scope)
  | .redBadd a b _ ord scope => some (.badd, a, b, 4, ord, scope)
  | _ => none

/-- The place of n bytes at an own-window address of the running task: they lie in its allocation and in one line, which is not
bad (R174, R177, R194). -/
def ownPlace (s : State) (va : Word) (n : Nat) : Option Place :=
  match s.core.run with
  | none => none
  | some r =>
    match allocOf s.core r.part r.gid with
    | none => none
    | some a =>
      let o := va.toNat % 2 ^ 48
      if va.toNat / 2 ^ 48 = 0xFFFE ∧ o < 0x20000 ∧ o + n ≤ a.size ∧ o % 64 + n ≤ 64 ∧ o / 64 ∉ a.bad then some (.ls s.core.phys r.part r.gid o)
      else none

/-- The bytes at a place of a local store. -/
def storeBytes (s : State) (p : Place) (n : Nat) : List Byte := placeBytes s s.core.phys false p n

/-- The n bytes at a place of a local store as a number. -/
def storeNat (s : State) (p : Place) (n : Nat) : Nat := leNat (storeBytes s p n)

/-- The waiter that the context that issues is. -/
def curWaiter (s : State) : Waiter := .ctx s.core.phys (curIdx s)

/-- An access of the context that issues is open (R199): its pieces, and the state after the checks, with its own earlier
writes to them performed (R200). -/
def Opens (s : State) (cls : AccessClass) (need : Need) (va : Word) (n : Nat) (ps : List Piece) (t : State) : Prop :=
  openAccess (curAgent s) (curWaiter s) cls need true va n s = .ok ps t

/-- An atomic or a reduction of the context that issues has passed the checks of R199 and R210 on its one piece, which is in device
memory or a local store and outside the register block; its line and bank are there (R179, R185). -/
def OpensAtomic (s : State) (cls : AccessClass) (sc : Scope) (va : Word) (n : Nat) (p : Piece) (t : State) : Prop :=
  p.inRegs = false ∧ p.outside = false ∧
    ∃ s1 s2 s3, resolve (curAgent s) (curWaiter s) needRW va n s = .ok [p] s1 ∧
      detCheck (curAgent s) cls va [p] s1 = .ok () s2 ∧ stashFill (curAgent s) (curWaiter s) p s2 = .ok () s3 ∧
      touchData (curAgent s) { p with cacheable := rmwAtCluster sc p.cacheable } s3 = .ok () t

/-- The host holds no copy of the line of a piece that a write at its home would first have to invalidate (R442). -/
def HomeFree (s : State) (p : Piece) : Prop := ∀ pa, p.pa? = some pa → s.hostLines.contains (pa / 64) = false

/-- The access of the context that issues which waits to be performed (R219, R259). -/
def pendOf (s : State) (p : Place) (va : Word) (scope : Scope) (kind : AccKind) : PendAcc :=
  ⟨curIdx s, p, false, false, false, false, va, scope, kind⟩

/-- The accesses that a store of bytes makes, one for each line that it touches, in ascending order (R197, R198). `late` says that
they are performed after the instruction: then those behind the first are tied to it. -/
def storeEntries (s : State) (va : Word) (late : Bool) : Nat → List Piece → List Byte → List PendAcc
  | _, [], _ => []
  | off, p :: ps, bytes =>
    ⟨curIdx s, p.place, p.cacheable, p.device, late && off != 0, detMode s, va, .core, .store (slice bytes off p.len)⟩ ::
      storeEntries s va late (off + p.len) ps bytes

/-- An access of a core joins those to be performed; one of a deterministic task is performed at once, where nothing is before it,
neither the host nor a copy channel holds its line, and no packet of its flow is on its way (R38, R259, R263, R442, R445). -/
def queueAccess (phys : Nat) (s : State) (q : PendAcc) : State :=
  if q.det && (coreAt s phys).pend.isEmpty && !q.homeLine.any s.hostLines.contains && !q.blocked phys s then performPend phys q s
  else onCore phys (fun c => { c with pend := c.pend ++ [q] }) s

/-- A store of an open transaction is held until the commit (R224, R226). -/
def holdStore (x : Txn) (q : PendAcc) : Txn :=
  match q.place, q.kind with
  | .mem pa, .store b => { x with bytes := (cellsOf pa b).reverse ++ x.bytes, writes := x.writes ++ [q] }
  | _, _ => x

/-- The state with one more access of the core in focus to be performed. -/
def withPend (q : PendAcc) (s : State) : State := { s with core := { s.core with pend := s.core.pend ++ [q] } }

/-! ### Number formats over the real numbers (R94, R96, R99 to R103, R113 to R118) -/

/-- The number that a finite value stands for; 0 for a value that is none. -/
def real : Val → ℚ
  | .fin neg m e => (if neg then -1 else 1) * m * (2 : ℚ) ^ e
  | _ => 0

/-- The sign of a value that is no NaN. -/
def sign : Val → Bool
  | .fin neg _ _ => neg
  | .inf neg => neg
  | .nan _ => false

/-- A finite value. -/
def IsFinite (v : Val) : Prop := ∃ neg m e, v = .fin neg m e

/-- An infinity. -/
def IsInfinite (v : Val) : Prop := ∃ neg, v = .inf neg

/-- The encoding of a sign alone. -/
def signBits (f : FloatFmt) (neg : Bool) : Nat := if neg then 2 ^ (f.e + f.m) else 0

/-- R94: an encoding with sign S, exponent field E and fraction F is (−1)^S × 2^(E − bias) × (1 + F/2^m), for E = 0
(−1)^S × 2^(1 − bias) × F/2^m; R94, R96: of all exponent bits one, an infinity or a NaN where the format has them. -/
def ReadsAs (f : FloatFmt) (S E F : Nat) (v : Val) : Prop :=
  let top := 2 ^ f.e - 1
  (f.ieee = true → E = top →
    (F = 0 → v = .inf (decide (S = 1))) ∧ (F ≠ 0 → v = .nan (decide (F < 2 ^ (f.m - 1))))) ∧
  (f.e4m3 = true → E = top → F = 2 ^ f.m - 1 → v = .nan false) ∧
  (¬ (f.ieee = true ∧ E = top) → ¬ (f.e4m3 = true ∧ E = top ∧ F = 2 ^ f.m - 1) →
    IsFinite v ∧ sign v = decide (S = 1) ∧ real v = (if S = 1 then -1 else 1) *
      (if E = 0 then (2 : ℚ) ^ (1 - (f.bias : ℤ)) * (F / (2 : ℚ) ^ f.m) else (2 : ℚ) ^ ((E : ℤ) - f.bias) * (1 + F / (2 : ℚ) ^ f.m)))

/-- R99, R101: n is the magnitude y in units of the grid's spacing, rounded: to nearest with ties to even, toward zero, toward +∞,
toward −∞, to nearest with ties away from zero, by the dither. -/
def RoundsTo (r : Rounding) (neg : Bool) (y : ℝ) (n : Nat) : Prop :=
  match r.rm with
  | 0 => |y - n| ≤ 1 / 2 ∧ (|y - n| = 1 / 2 → n % 2 = 0)
  | 1 => n ≤ y ∧ y < n + 1
  | 2 => if neg then n ≤ y ∧ y < n + 1 else y ≤ n ∧ n < y + 1
  | 3 => if neg then y ≤ n ∧ n < y + 1 else n ≤ y ∧ y < n + 1
  | 4 => n ≤ y + 1 / 2 ∧ y + 1 / 2 < n + 1
  | _ => n ≤ y + r.dither / 2 ^ 24 ∧ y + r.dither / 2 ^ 24 < n + 1

/-- R100: the magnitude of an overflow is infinite where the format has infinities and the mode leads there. -/
def OverflowsToInfinity (f : FloatFmt) (rm : Nat) (neg : Bool) : Prop :=
  f.ieee = true ∧ (rm = 0 ∨ rm = 4 ∨ (rm = 2 ∧ neg = false) ∨ (rm = 3 ∧ neg = true))

/-- R99 to R102: the outcome of rounding the magnitude x > 0 with a sign into a format: the grid of the format's precision, no finer than
the subnormal spacing; beyond the largest finite value an overflow; inexact and underflow as R102 says. -/
def Rounded (f : FloatFmt) (r : Rounding) (neg : Bool) (x : ℝ) (o : Nat × FlagSet) : Prop :=
  ∃ (k : ℤ) (n : Nat), (2 : ℝ) ^ k ≤ x ∧ x < (2 : ℝ) ^ (k + 1) ∧
    let q : ℝ := (2 : ℝ) ^ max (k - f.m) (1 - f.bias - f.m)
    let largest : ℝ := ((real (f.read f.maxFinite) : ℚ) : ℝ)
    RoundsTo r neg (x / q) n ∧
    (n * q ≤ largest → ∃ (b : Nat) (nx uf : Bool), b ≤ f.maxFinite ∧ ((real (f.read b) : ℚ) : ℝ) = n * q ∧
      (nx = true ↔ n * q ≠ x) ∧ (uf = true ↔ n * q ≠ x ∧ x < (2 : ℝ) ^ (1 - (f.bias : ℤ))) ∧
      o = (signBits f neg + b, flagIf nx flagNX ||| flagIf uf flagUF)) ∧
    (largest < n * q → ∃ b, (OverflowsToInfinity f r.rm neg → b = f.infBits) ∧
      (¬ OverflowsToInfinity f r.rm neg → b = f.maxFinite) ∧ o = (signBits f neg + b, flagOF ||| flagNX))

/-- The delivery of a number: rounded, or the zero of the sign given, with no flag. -/
def Delivered (f : FloatFmt) (r : Rounding) (x : ℝ) (zeroNeg : Bool) (o : Nat × FlagSet) : Prop :=
  (0 < x → Rounded f r false x o) ∧ (x < 0 → Rounded f r true (-x) o) ∧ (x = 0 → o = (signBits f zeroNeg, 0))

/-- R96: the canonical NaN, with flags. -/
def nanWith (f : FloatFmt) (fl : FlagSet) : Nat × FlagSet := (f.nanBits, fl)

/-- An infinity, with flags. -/
def infWith (f : FloatFmt) (neg : Bool) (fl : FlagSet) : Nat × FlagSet := (signBits f neg + f.infBits, fl)

/-- R102: invalid where one of the values is a signalling NaN. -/
def signalled (xs : List Val) : FlagSet := flagIf (xs.any Val.isSig) flagNV

/-- R113, R249: the exact sum of values, negated if flip, rounded once: a NaN for a NaN term, and with NV for infinities of both signs; an
exact zero keeps the sign that all terms, being zeros, share, else it is +0, in rdn −0. -/
def SumsTo (f : FloatFmt) (r : Rounding) (flip : Bool) (xs : List Val) (o : Nat × FlagSet) : Prop :=
  let both := Val.inf false ∈ xs ∧ Val.inf true ∈ xs
  (both → o = nanWith f flagNV) ∧
  (¬ both → (∃ v ∈ xs, v.isNan = true) → o = nanWith f (signalled xs)) ∧
  (∀ neg, ¬ both → (∀ v ∈ xs, v.isNan = false) → Val.inf neg ∈ xs → o = infWith f (neg ^^ flip) 0) ∧
  ((∀ v ∈ xs, IsFinite v) → ∃ zero : Bool,
    ((∀ v ∈ xs, real v = 0 ∧ sign v = true) → xs ≠ [] → zero = true) ∧
    ((∀ v ∈ xs, real v = 0 ∧ sign v = false) → zero = false) ∧
    ((∃ v ∈ xs, ¬ (real v = 0 ∧ sign v = true)) → (∃ v ∈ xs, ¬ (real v = 0 ∧ sign v = false)) → zero = decide (r.rm = 3)) ∧
    Delivered f r ((((xs.map real).sum : ℚ) : ℝ) * (if flip then -1 else 1)) (zero ^^ flip) o)

/-- R113: 0 × ∞. -/
def ZeroTimesInfinity (x y : Val) : Prop :=
  (IsFinite x ∧ real x = 0 ∧ IsInfinite y) ∨ (IsInfinite x ∧ IsFinite y ∧ real y = 0)

/-- The exact product of two values that are no NaNs and not 0 × ∞. -/
def ProductIs (x y p : Val) : Prop :=
  sign p = (sign x ^^ sign y) ∧ (IsFinite x → IsFinite y → IsFinite p ∧ real p = real x * real y) ∧
    (IsInfinite x ∨ IsInfinite y → IsInfinite p)

/-- R113: the product, rounded once. -/
def MultipliesTo (f : FloatFmt) (r : Rounding) (x y : Val) (o : Nat × FlagSet) : Prop :=
  ((x.isNan || y.isNan) = true → o = nanWith f (signalled [x, y])) ∧
  ((x.isNan || y.isNan) = false → ZeroTimesInfinity x y → o = nanWith f flagNV) ∧
  ((x.isNan || y.isNan) = false → ¬ ZeroTimesInfinity x y → ∃ p, ProductIs x y p ∧
    (IsInfinite p → o = infWith f (sign p) 0) ∧ (IsFinite p → Delivered f r ((real p : ℚ) : ℝ) (sign p) o))

/-- R117: the product plus the addend, negated if flip, rounded once; 0 × ∞ gives NV even with a quiet NaN as addend. -/
def FusesTo (f : FloatFmt) (r : Rounding) (flip : Bool) (x y z : Val) (o : Nat × FlagSet) : Prop :=
  (ZeroTimesInfinity x y → o = nanWith f flagNV) ∧
  (¬ ZeroTimesInfinity x y → (x.isNan || y.isNan || z.isNan) = true → o = nanWith f (signalled [x, y, z])) ∧
  (¬ ZeroTimesInfinity x y → (x.isNan || y.isNan || z.isNan) = false →
    ∃ p, ProductIs x y p ∧ p.isNan = false ∧ SumsTo f r flip [p, z] o)

/-- R113: the quotient, rounded once. -/
def DividesTo (f : FloatFmt) (r : Rounding) (x y : Val) (o : Nat × FlagSet) : Prop :=
  let neg := sign x ^^ sign y
  ((x.isNan || y.isNan) = true → o = nanWith f (signalled [x, y])) ∧
  (IsInfinite x → IsInfinite y → o = nanWith f flagNV) ∧
  (IsInfinite x → IsFinite y → o = infWith f neg 0) ∧
  (IsFinite x → IsInfinite y → o = (signBits f neg, 0)) ∧
  (IsFinite x → IsFinite y →
    (real x = 0 → real y = 0 → o = nanWith f flagNV) ∧
    (real x ≠ 0 → real y = 0 → o = infWith f neg flagDZ) ∧
    (real y ≠ 0 → Delivered f r ((real x / real y : ℚ) : ℝ) neg o))

/-- R113: the square root, rounded once. -/
def RootIs (f : FloatFmt) (r : Rounding) (x : Val) (o : Nat × FlagSet) : Prop :=
  (x.isNan = true → o = nanWith f (signalled [x])) ∧
  (x = .inf false → o = infWith f false 0) ∧ (x = .inf true → o = nanWith f flagNV) ∧
  (IsFinite x → (real x < 0 → o = nanWith f flagNV) ∧
    (0 ≤ real x → Delivered f r (Real.sqrt ((real x : ℚ) : ℝ)) (sign x) o))

/-- R118: the magnitude x > 0 to nearest even on a grid of 12 significant bits, no finer than the subnormal spacing of FP32; UF
whenever x is below the smallest normal. -/
def Estimated (neg : Bool) (x : ℝ) (o : Nat × FlagSet) : Prop :=
  ∃ (k : ℤ) (n : Nat), (2 : ℝ) ^ k ≤ x ∧ x < (2 : ℝ) ^ (k + 1) ∧
    let q : ℝ := (2 : ℝ) ^ max (k - 11) (-149)
    RoundsTo rne neg (x / q) n ∧
    (n * q < (2 : ℝ) ^ (128 : ℤ) → ∃ (b : Nat) (nx uf : Bool), ((real (fp32.read b) : ℚ) : ℝ) = n * q ∧ b ≤ fp32.maxFinite ∧
      (nx = true ↔ n * q ≠ x) ∧ (uf = true ↔ x < (2 : ℝ) ^ (-126 : ℤ)) ∧
      o = (signBits fp32 neg + b, flagIf nx flagNX ||| flagIf uf flagUF)) ∧
    ((2 : ℝ) ^ (128 : ℤ) ≤ n * q → o = infWith fp32 neg (flagOF ||| flagNX))

/-- R118, R244: an estimate, in FP32 on its grid, in BF16 rounded once to nearest even with the underflow of R118. -/
def EstimateIs (f : FloatFmt) (neg : Bool) (x : ℝ) (o : Nat × FlagSet) : Prop :=
  (f = fp32 → Estimated neg x o) ∧
  (f = bf16 → ∃ (p : Nat × FlagSet) (uf : Bool), Rounded f rne neg x p ∧ (uf = true ↔ x < (2 : ℝ) ^ (1 - (f.bias : ℤ))) ∧
    o = (p.1, p.2 ||| flagIf uf flagUF))

/-- R118, the table of frcp. -/
def ReciprocalIs (f : FloatFmt) (x : Val) (o : Nat × FlagSet) : Prop :=
  (x.isNan = true → o = nanWith f (signalled [x])) ∧ (IsInfinite x → o = (signBits f (sign x), 0)) ∧
  (IsFinite x → (real x = 0 → o = infWith f (sign x) flagDZ) ∧
    (real x ≠ 0 → EstimateIs f (sign x) |((1 / real x : ℚ) : ℝ)| o))

/-- R118, the table of frsq. -/
def RootReciprocalIs (f : FloatFmt) (x : Val) (o : Nat × FlagSet) : Prop :=
  (x.isNan = true → o = nanWith f (signalled [x])) ∧
  (x = .inf false → o = (0, 0)) ∧ (x = .inf true → o = nanWith f flagNV) ∧
  (IsFinite x → (real x = 0 → o = infWith f (sign x) flagDZ) ∧ (real x < 0 → o = nanWith f flagNV) ∧
    (0 < real x → EstimateIs f false (1 / Real.sqrt ((real x : ℚ) : ℝ)) o))

/-- R116: x before y in the order of the numbers and infinities, −0 equal to +0. -/
def Before (x y : Val) : Prop :=
  (IsFinite x ∧ IsFinite y ∧ real x < real y) ∨ (x = .inf true ∧ (IsFinite y ∨ y = .inf false)) ∨ (IsFinite x ∧ y = .inf false)

/-- R116: x equal to y, −0 equal to +0. -/
def Equal (x y : Val) : Prop := (IsFinite x ∧ IsFinite y ∧ real x = real y) ∨ (IsInfinite x ∧ x = y)

/-- R116: a comparison, false of a NaN; feq is invalid for a signalling NaN, the others for any. -/
def ComparesTo (c : FCmp) (x y : Val) (o : Bool × FlagSet) : Prop :=
  ((x.isNan || y.isNan) = true → o = (false, if c = .eq then signalled [x, y] else flagNV)) ∧
  ((x.isNan || y.isNan) = false → o.2 = 0 ∧
    (o.1 = true ↔ match c with | .eq => Equal x y | .lt => Before x y | .le => Before x y ∨ Equal x y))

/-- R114: y is to be taken over x as the greater: beyond it, or +0 beside −0. -/
def Above (x y : Val) : Prop := Before x y ∨ (Equal x y ∧ real x = 0 ∧ IsFinite x ∧ sign x = true ∧ sign y = false)

/-- R114: minimum or maximum of two encodings. -/
def SelectsMinMax (f : FloatFmt) (isMax : Bool) (x y : Nat) (o : Nat × FlagSet) : Prop :=
  let a := f.read x
  let b := f.read y
  o.2 = signalled [a, b] ∧
  (a.isNan = true → b.isNan = true → o.1 = f.nanBits) ∧
  (a.isNan = true → b.isNan = false → o.1 = y) ∧ (a.isNan = false → b.isNan = true → o.1 = x) ∧
  (a.isNan = false → b.isNan = false →
    (Above a b → o.1 = if isMax then y else x) ∧ (Above b a → o.1 = if isMax then x else y) ∧ (o.1 = x ∨ o.1 = y))

/-- R103: a conversion into a floating-point format. -/
def ConvertsTo (f : FloatFmt) (r : Rounding) (v : Val) (o : Nat × FlagSet) : Prop :=
  (v.isNan = true → o = nanWith f (if f.ieee = true ∨ f.e4m3 = true then signalled [v] else flagNV)) ∧
  (∀ neg, v = .inf neg → o = if f.ieee = true then infWith f neg 0 else (signBits f neg + f.maxFinite, flagOF ||| flagNX)) ∧
  (IsFinite v → Delivered f r ((real v : ℚ) : ℝ) (sign v) o)

/-- R103: a conversion into the integers within limits. -/
def ConvertsToInt (lo hi : Int) (r : Rounding) (v : Val) (o : Int × FlagSet) : Prop :=
  (v.isNan = true → o = (0, flagNV)) ∧ (∀ neg, v = .inf neg → o = (if neg then lo else hi, flagNV)) ∧
  (IsFinite v → ∃ (n : Nat) (nx : Bool), RoundsTo r (sign v) |((real v : ℚ) : ℝ)| n ∧ (nx = true ↔ (n : ℝ) ≠ |((real v : ℚ) : ℝ)|) ∧
    let w : Int := if sign v = true then -(n : Int) else n
    (w < lo → o = (lo, flagNV)) ∧ (hi < w → o = (hi, flagNV)) ∧ (lo ≤ w → w ≤ hi → o = (w, flagIf nx flagNX)))

/-- An outcome in FP32 as a register holds it (R112): zero-extended, with the flags. -/
def Zext (o : Nat × FlagSet) : Word × FlagSet := (BitVec.ofNat 64 o.1, o.2)

end Sys2Proof.Safety
end

