-- ==== Sys2Proof/Certificates/Slice0/Obligations.lean ====
section
/-!
DEFINITION. The statements for the provers: what the encoding, a step, each instruction and each event of the opcode table do.
-/

open Sys2Proof Sys2Proof.Machine Sys2Proof.Safety


/-- R42 to R53: the bytes of a well-formed instruction, at the head of any bytes, decode to it, with every operand at every
value that its encoding admits, and what follows them is left. -/
def Obligations.DecodeEncode : Prop :=
  ∀ (i : Instr) (n w : Nat) (rest : List Byte), wellFormed i = true → encode i = some (n, w) →
    decode (leBytes (n / 8) w ++ rest) = .ok (i, rest)

/-- R42 to R53: what decodes is well-formed, and the bytes that were taken are its encoding: no two words are one
instruction, and no bit of a word that decodes is without meaning. -/
def Obligations.EncodeDecode : Prop :=
  ∀ (bytes rest : List Byte) (i : Instr), decode bytes = .ok (i, rest) →
    wellFormed i = true ∧ ∃ n w, encode i = some (n, w) ∧ bytes = leBytes (n / 8) w ++ rest

/-- Words written out from the field tables of R46 to R53, and the worked words of R57, decode to their instructions; words
that R56 makes holes decode to none, with their cause. -/
def Obligations.WordsDecode : Prop :=
  decodeTableWord 32 0x004C904D = some (.mtc 0x013 9 false) ∧
  decodeTableWord 32 0x00088521 = some (.ldW 10 8 false 0) ∧
  decodeTableWord 32 0x0306259D = some (.fdiv 11 2 3 false false) ∧
  decodeTableWord 32 0x021EE027 = some (.amoAdd 0 14 15 false false .dev) ∧
  decodeTableWord 32 0x00080483 = some (.addi 9 0 false 2) ∧
  decodeTableWord 32 0xFFEAA495 = some (.blt 9 10 true (-2)) ∧
  decodeTableWord 32 0x1200002D = some (.fence .dev) ∧
  decodeTableWord 32 0x029663C1 = some (.vmul 7 6 11 true false) ∧
  decodeTableWord 16 0x05F2 = some (.cAddi 15 1 false) ∧
  decodeTableWord 32 0x04000031 = some .tend ∧
  decode (leBytes 4 0x0000004F) = .error (.hole 0x0000004F 0x02) ∧
  decode (leBytes 4 0x001C0021) = .error (.hole 0x001C0021 0x02) ∧
  decode (leBytes 4 0x0E00002D) = .error (.hole 0x0E00002D 0x02) ∧
  decode (leBytes 4 0x1380002D) = .error (.hole 0x1380002D 0x01)

/-- A step in which a context issues and the bytes at its PC decode to an instruction is that instruction's meaning there,
and around it what passes with the cycle: the contexts look again, unless this one waits at it, and one cycle of the core
passes (R27, R42, R58; the cycle's length and the order of what happens are the model's choice, log entry 2). Where a machine error
waits on a register that the instruction names, the step takes that trap instead, before any check (R67, R160).
The head of the agenda is what the next step does: an event of the table happens there, and every context looks again
(the agenda is the model's own, log entry 2). -/
def Obligations.StepRunsTheInstruction : Prop :=
  (∀ (s t : State) (phys ctx : Nat) (bytes rest : List Byte) (i : Instr),
     let s0 := focusOn phys s
     let s1 : State := { s0 with core := { s0.core with cur := ctxRef ctx } }
     s.agenda = [] → s.powered = true → choose s = .issue phys →
     s0.core.resume = none → pickCtx s0.core = some ctx → gatedOff s0.core = false →
     (ctxOf s0.core ctx).entering = none → boundaryTrap s0.core ctx = none → (curCtx s1).standing = none →
     FetchGives s1 bytes t → decode bytes = .ok (i, rest) →
     let u := atStart t
     (dueError i u = none →
       step s = thenState (fun v => passCycle phys (afterInstr phys (curIdx u) (curCtx u).pc (some i) v)) (exec i u)) ∧
     (∀ e, dueError i u = some e →
       step s = .next (passCycle phys (takeBoundary ⟨0x17, e.addr, regIndex e.reg⟩ (curCtx (dropFailed e.reg u)) u)))) ∧
  (∀ (s t : State) (i : Instr) (rest : List Move), s.agenda = .event i :: rest → exec i { s with agenda := rest } = .next t →
     step s = .next (wakeAll t))

/-- A step is refused nowhere, and it stops only without power, with nothing on the agenda (log entry 71): every instruction
and every event of the table runs in every state. -/
def Obligations.StepStopsOnlyWithoutPower : Prop :=
  ∀ s : State, (∃ t, step s = .next t) ∨ (step s = .fault .deviceOff ∧ s.powered = false ∧ s.agenda = [])

/-- R51, R55, R58, R224: an instruction that meets one of the conditions of steps 5 to 7 of R58, or is not allowed in an open
transaction, leaves what that stop leaves and none of its own effect, whatever its operands are. -/
def Obligations.ChecksComeFirst : Prop :=
  ∀ (i : Instr) (f : InstrInfo) (e : Stop) (s : State), frameOf i = some f → firstCheck f s = some e →
    exec i s = .next (halt e s)

/-- R64: of the registers that an instruction reads, in its order, the first that is empty, with nothing on its way to it and
no wait bit, traps with cause 0x04 and the register's number as EVAL; an mma leaves its Nesting buffer entry (R290), a member of a
row group arrives at the gang barrier as failed (R145), and a copy channel stops (R297).
R63 to R65: of the registers that an instruction reads, the first whose value is on its way stops it without any effect
if the wait bit covers it, and in deterministic mode without one: the context stands at the instruction; so does the first that is
empty with nothing on its way, if the wait bit covers it. All for a context that stands at no engine's command of its own. -/
def Obligations.OperandsAreThere : Prop :=
  (∀ (i : Instr) (f : InstrInfo) (s : State) (before after : List (Reg × Bool)) (n : Reg),
     frameOf i = some f → MayIssue f s → (curCtx s).await = .nothing → (∀ q ∈ s.core.copyq, q.holder ≠ some (curIdx s)) →
     operandsOf i = before ++ (n, false) :: after → AllReadable s (before.map Prod.fst) →
     regError s n = none → regLocked s n = false → regPresent s n = false → regPending s n = false →
     exec i s = .next (halt (.trap 0x04 (regIndex n) 0) (trapLeaves i s))) ∧
  (∀ (i : Instr) (f : InstrInfo) (s : State) (before after : List (Reg × Bool)) (n : Reg) (w : Bool),
     frameOf i = some f → MayIssue f s → (curCtx s).await = .nothing → (∀ q ∈ s.core.copyq, q.holder ≠ some (curIdx s)) →
     operandsOf i = before ++ (n, w) :: after → AllReadable s (before.map Prod.fst) →
     regError s n = none → regLocked s n = false → regPresent s n = false → regPending s n = true →
     (w = true ∨ detMode s = true) →
     exec i s = .next (standStill false s)) ∧
  (∀ (i : Instr) (f : InstrInfo) (s : State) (before after : List (Reg × Bool)) (n : Reg),
     frameOf i = some f → MayIssue f s → (curCtx s).await = .nothing → (∀ q ∈ s.core.copyq, q.holder ≠ some (curIdx s)) →
     operandsOf i = before ++ (n, true) :: after → AllReadable s (before.map Prod.fst) →
     regError s n = none → regLocked s n = false → regPresent s n = false → regPending s n = false →
     exec i s = .next (standStill true s))

/-- R44, R76 to R79: every integer instruction whose operands are there and whose destination is free completes with its
result in its destination, nothing written where that is s0, and with nothing else done.
R112 to R120, R108, R110: every scalar floating-point instruction whose operands are there and whose destination is free
completes with the result of the number formats under the rounding mode of R110 in its destination and its flags merged into
FFLAGS; one that accepts a pending format consumes it.
R94, R96, R99 to R103, R113 to R119: what those results are, over the real numbers: the value that each encoding of each format stands
for; sums, products, quotients, square roots and fused results as the exact value rounded once in the mode, with overflow, underflow,
inexact, the signs of zeros, infinities and NaNs as the rules have them; minimum and maximum, comparisons and classes; the
estimates on their grid; the conversions. -/
def Obligations.ArithmeticResults : Prop :=
  (∀ (i : Instr) (f : InstrInfo) (r : RegForm) (s : State), frameOf i = some f → intForm s i = some r → MayIssue f s →
     AllReadable s r.reads → Writable s r.dest →
     exec i s = .next (completes f (setReg r.dest r.value s))) ∧
  (∀ (i : Instr) (f : InstrInfo) (r : RegForm) (s : State), frameOf i = some f → fpForm s i = some r → MayIssue f s →
     AllReadable s r.reads → Writable s r.dest →
     exec i s = .next (completes f (addFlags r.flags (setReg r.dest r.value s)))) ∧
  ((∀ (r : Rounding) (x y z : Word), r.dither < 2 ^ 24 →
     let a := fp32.read (x.toNat % 2 ^ 32)
     let b := fp32.read (y.toNat % 2 ^ 32)
     let c := fp32.read (z.toNat % 2 ^ 32)
     (∃ o, faddOp r x y = Zext o ∧ SumsTo fp32 r false [a, b] o) ∧
     fsubOp r x y = faddOp r x (y ^^^ 0x80000000#64) ∧
     (∃ o, fmulOp r x y = Zext o ∧ MultipliesTo fp32 r a b o) ∧
     (∃ o, fdivOp r x y = Zext o ∧ DividesTo fp32 r a b o) ∧
     (∃ o, fsqrtOp r x = Zext o ∧ RootIs fp32 r a o) ∧
     (∃ o, fmaOp false false r x y z = Zext o ∧ FusesTo fp32 r false a b c o) ∧
     (∃ o, fmaOp false true r x y z = Zext o ∧ FusesTo fp32 r true a b c o) ∧
     (∀ flip, fmaOp true flip r x y z = fmaOp false flip r x y (z ^^^ 0x80000000#64)) ∧
     (∀ isMax, ∃ o, fminmaxOp isMax r x y = Zext o ∧ SelectsMinMax fp32 isMax (x.toNat % 2 ^ 32) (y.toNat % 2 ^ 32) o) ∧
     (∀ k, ∃ o, fcmpOp k r x y = (if o.1 = true then 1 else 0, o.2) ∧ ComparesTo k a b o) ∧
     (∃ o, frcpOp r x = Zext o ∧ ReciprocalIs fp32 a o) ∧
     (∃ o, frsqOp r x = Zext o ∧ RootReciprocalIs fp32 a o) ∧
     (∃ o : Int × FlagSet, toIntOp (-(2 ^ 63)) (2 ^ 63 - 1) r x = (BitVec.ofInt 64 o.1, o.2) ∧
       ConvertsToInt (-9223372036854775808) 9223372036854775807 r a o) ∧
     (∃ o : Int × FlagSet, toIntOp 0 (2 ^ 64 - 1) r x = (BitVec.ofInt 64 o.1, o.2) ∧ ConvertsToInt 0 18446744073709551615 r a o) ∧
     (∀ i : Int, -(2 ^ 63) ≤ i → i < 2 ^ 64 → ∃ o, ofIntOp r i = Zext o ∧ Delivered fp32 r (i : ℝ) false o) ∧
     (∃ o, bfToFp r x = Zext o ∧ ConvertsTo fp32 r (bf16.read (x.toNat % 2 ^ 16)) o ∧
       (IsFinite (bf16.read (x.toNat % 2 ^ 16)) → o.2 = 0 ∧ real (fp32.read o.1) = real (bf16.read (x.toNat % 2 ^ 16)))) ∧
     (∃ o, fpToBf r x = Zext o ∧ ConvertsTo bf16 r a o)) ∧
   (∀ x : Word, let E := x.toNat % 2 ^ 31 / 2 ^ 23
     let F := x.toNat % 2 ^ 23
     (fclassOp rne x).2 = 0 ∧ (fclassOp rne x).1.toNat = (if x.getLsbD 31 = true then 8 else 0) +
       (if E = 0 ∧ F = 0 then 0 else if E = 0 then 1 else if E < 255 then 2 else if F = 0 then 3 else if F < 2 ^ 22 then 5 else 4)) ∧
   (∀ f ∈ [fp32, bf16, fp16, e4m3, e5m2, e2m1, e3m2], ∀ S E F : Nat, S < 2 → E < 2 ^ f.e → F < 2 ^ f.m →
     ReadsAs f S E F (f.read (S * 2 ^ (f.e + f.m) + E * 2 ^ f.m + F))) ∧
   ([fp32, bf16, fp16, e4m3, e5m2, e2m1, e3m2].map FloatFmt.maxFinite = [0x7F7FFFFF, 0x7F7F, 0x7BFF, 0x7E, 0x7B, 0x7, 0x1F] ∧
     [fp32, bf16, fp16, e5m2].map FloatFmt.infBits = [0x7F800000, 0x7F80, 0x7C00, 0x7C] ∧
     [fp32, bf16, fp16, e4m3, e5m2].map FloatFmt.nanBits = [0x7FC00000, 0x7FC0, 0x7E00, 0x7F, 0x7E]))

/-- R80: a branch whose operands are there goes to PC + Sext(off) × 2 if its condition holds, else to PC + 4, and changes
nothing else. -/
def Obligations.BranchesGo : Prop :=
  ∀ (i : Instr) (f : InstrInfo) (reads : List Reg) (taken : Bool) (off : BitVec 12) (s : State), frameOf i = some f →
    branchForm s i = some (reads, taken, off) → MayIssue f s → AllReadable s reads →
    exec i s = .next (completesAt f (branchTarget (curCtx s).pc taken off) s)

/-- R81: jal writes PC + 4 to d and goes to PC + Sext(off) × 2; jalr writes PC + 4 to d and goes to the sum of a, read before
d is written, and its immediate, with bit 0 cleared. -/
def Obligations.JumpsLink : Prop :=
  (∀ (d : Reg) (off : BitVec 20) (f : InstrInfo) (s : State), frameOf (.jal d off) = some f → MayIssue f s → Writable s d →
    exec (.jal d off) s =
      .next (completesAt f ((curCtx s).pc + BitVec.ofInt 64 (off.toInt * 2)) (setReg d ((curCtx s).pc + 4) s))) ∧
  (∀ (d a : Reg) (wa : Bool) (imm : BitVec 14) (f : InstrInfo) (s : State), frameOf (.jalr d a wa imm) = some f →
    MayIssue f s → Readable s a → Writable s d →
    exec (.jalr d a wa imm) s =
      .next (completesAt f ((regVal s a + BitVec.ofInt 64 imm.toInt) &&& ~~~1#64) (setReg d ((curCtx s).pc + 4) s)))

/-- What the integer and floating-point instructions, the branches and the jumps leave alone (R58, R61, R108): every register
but the destination, value and presence; the exception registers, FMT and STATUS but a pending format that is consumed; the
other contexts; every byte of memory and of the local stores; everything outside the core. Of the core RETIRED, QNT and the
record of who issued last may change (R386, R387). -/
def Obligations.RegisterInstructionsFrame : Prop :=
  ∀ (i : Instr) (f : InstrInfo) (s t : State), frameOf i = some f → MayIssue f s →
    ((∃ r, (intForm s i = some r ∨ fpForm s i = some r) ∧ AllReadable s r.reads ∧ Writable s r.dest) ∨
      (∃ reads taken off, branchForm s i = some (reads, taken, off) ∧ AllReadable s reads) ∨
      (∃ d off, i = .jal d off ∧ Writable s d) ∨
      (∃ d a wa imm, i = .jalr d a wa imm ∧ Readable s a ∧ Writable s d)) →
    exec i s = .next t → RegisterFrame f s t

/-- R156, R158, R301: mfc of an assigned register, or at firmware privilege of a firmware register, writes the register's
value to d and completes; an unassigned number below 0x800 traps with cause 0x02, a firmware register below firmware
privilege with cause 0x03, EVAL the number.
R153, R156 to R158: who may write a control register, in the order of the checks: below firmware privilege a firmware
register 0x03; an unassigned number 0x02; a read-only one 0x03; a runtime one at task privilege 0x03; in a helper any but
STATUS and FFLAGS 0x01; a value against the register's rule 0x02.
R157, R188, R101, R154: a write that passes its checks sets STATUS.RM, TVEC, FFLAGS, BWPHASE, SEED or SAVEPTR to the value,
which reads back, and completes; in a helper one of STATUS or FFLAGS does so.
R158, R332: a write of GRACE, NHOLD or QLEN that passes its checks sets the partition's value, which reads back, and neither
of the other two, and completes; where the quantum rules apply it is held, with its partition, to the quantum end. What mfc reads
until then is the model's choice (log entry 92).
R54, R109: fmtp with an rm below 7, no scale mode 3 and no scale register without a scale mode sets FMT to its 25 bits
and STATUS.PFX, and completes; any other traps with cause 0x01 or 0x02. -/
def Obligations.ControlRegistersReadAndWritten : Prop :=
  (∀ (d : Reg) (n : BitVec 12) (f : InstrInfo) (s : State), frameOf (.mfc d n) = some f → MayIssue f s →
     (0x800 ≤ n.toNat ∧ privOf (curCtx s).status < 2 → exec (.mfc d n) s = .next (halt (.trap 0x03 (ctlEval n) 0) s)) ∧
     (n.toNat < 0x800 ∧ ctlAccess n.toNat = none → exec (.mfc d n) s = .next (halt (.trap 0x02 (ctlEval n) 0) s)) ∧
     ((0x800 ≤ n.toNat ∧ 2 ≤ privOf (curCtx s).status) ∨ (n.toNat < 0x800 ∧ ctlAccess n.toNat ≠ none) →
       chansWait s n.toNat = false → Writable s d →
       exec (.mfc d n) s = .next (completes f (setReg d (ctlValue s n.toNat) s)))) ∧
  (∀ (n : BitVec 12) (a : Reg) (wa : Bool) (f : InstrInfo) (s : State), frameOf (.mtc n a wa) = some f → MayIssue f s →
     Readable s a →
     let k := n.toNat
     let priv := privOf (curCtx s).status
     let refused := fun (cause : BitVec 8) => exec (.mtc n a wa) s = .next (halt (.trap cause (ctlEval n) 0) s)
     (0x800 ≤ k → priv < 2 → refused 0x03) ∧
     (k < 0x800 → ctlAccess k = none → refused 0x02) ∧
     (ctlAccess k = some .ro → refused 0x03) ∧
     (ctlAccess k = some .rt → priv = 0 → refused 0x03) ∧
     ((ctlAccess k = some .rw ∨ (ctlAccess k = some .rt ∧ 1 ≤ priv)) → isHelper s = true → k ≠ 0 → k ≠ 7 → refused 0x01) ∧
     (ctlAccess k = some .rw → isHelper s = false → ctlRange s k (regVal s a) = false → refused 0x02)) ∧
  (∀ (n : BitVec 12) (a : Reg) (wa : Bool) (f : InstrInfo) (s : State), frameOf (.mtc n a wa) = some f → MayIssue f s →
     Readable s a → (isHelper s = false ∨ n.toNat ∈ [0x000, 0x007]) → n.toNat ∈ [0x000, 0x005, 0x007, 0x013, 0x014, 0x100] →
     (n.toNat ∈ [0x005, 0x100] → 1 ≤ privOf (curCtx s).status) → ctlRange s n.toNat (regVal s a) = true →
     ∃ t, exec (.mtc n a wa) s = .next t ∧ ctlValue t n.toNat = regVal s a ∧
       (curCtx t).pc = (curCtx s).pc + 4 ∧ SameRegs [] s t ∧ SameOthers s t ∧ SameElsewhere s t ∧ SameBytes s t) ∧
  (∀ (n : BitVec 12) (a : Reg) (wa : Bool) (f : InstrInfo) (s : State) (p : Partition), frameOf (.mtc n a wa) = some f →
     MayIssue f s → Readable s a → isHelper s = false → n.toNat ∈ [0x101, 0x102, 0x103] → 1 ≤ privOf (curCtx s).status →
     ctlRange s n.toNat (regVal s a) = true → partAt s (corePart s.core) = some p →
     (quantumRules p = true → exec (.mtc n a wa) s = .next (completes f (onCore s.core.phys (fun c =>
       { c with held := c.held ++ [(corePart c, .setReg n.toNat (regVal s a))] }) s))) ∧
     (quantumRules p = false → ∃ t, exec (.mtc n a wa) s = .next t ∧ ctlValue t n.toNat = regVal s a ∧
       (∀ m ∈ [0x101, 0x102, 0x103], m ≠ n.toNat → ctlValue t m = ctlValue s m) ∧
       (curCtx t).pc = (curCtx s).pc + 4 ∧ SameRegs [] s t ∧ SameOthers s t ∧ SameBytes s t)) ∧
  (∀ (p : BitVec 25) (f : InstrInfo) (s : State), frameOf (.fmtp p) = some f → MayIssue f s →
     let v : Word := p.zeroExtend 64
     let am := p.toNat / 2 ^ 8 % 4
     let bm := p.toNat / 2 ^ 10 % 4
     exec (.fmtp p) s =
       if p.toNat / 2 ^ 22 = 7 ∨ am = 3 ∨ bm = 3 then .next (halt (.trap 0x01 0 0) s)
       else if (am = 0 ∧ p.toNat / 2 ^ 12 % 32 ≠ 0) ∨ (bm = 0 ∧ p.toNat / 2 ^ 17 % 32 ≠ 0) then .next (halt (.trap 0x02 0 0) s)
       else .next (completes f (onCur (fun x => { x with fmt := v, status := x.status ||| 1 }) s)))

/-- R84, R85: feclr empties a register, feset marks one present with its value unchanged, and neither does anything to s0;
fetst writes 1 or 0 by the presence bit. Each completes once no value is on its way to the register it changes.
R71, R83: rwr outside the quantum rules, to a logical core that the partition has and whose inbox has room, with every
earlier access of its context performed as far as the smallest scope that holds both cores, sends the register's number and
value to that core, behind the packets of its flow (R445), and completes; a target that the partition does not have traps with cause
0x09 and EVAL the number. R72, R332: under the quantum rules it is held to the quantum end and completes; the 64th of a quantum is
the core's last. -/
def Obligations.PresenceAndRemoteWrites : Prop :=
  ((∀ (n : Reg) (f : InstrInfo) (s : State), frameOf (.feclr n) = some f → MayIssue f s → Writable s n →
     ∃ t, exec (.feclr n) s = .next t ∧ regPresent t n = decide (n = 0) ∧ (∀ m, regVal t m = regVal s m) ∧
       (∀ m, m ≠ n → regPresent t m = regPresent s m) ∧ (curCtx t).pc = (curCtx s).pc + 4) ∧
   (∀ (n : Reg) (f : InstrInfo) (s : State), frameOf (.feset n) = some f → MayIssue f s → Writable s n →
     ∃ t, exec (.feset n) s = .next t ∧ regPresent t n = true ∧ (∀ m, regVal t m = regVal s m) ∧
       (∀ m, m ≠ n → regPresent t m = regPresent s m) ∧ (curCtx t).pc = (curCtx s).pc + 4) ∧
   (∀ (d n : Reg) (f : InstrInfo) (s : State), frameOf (.fetst d n) = some f → MayIssue f s → Writable s d →
     (detMode s = true → regPending s n = false) →
     exec (.fetst d n) s = .next (completes f (setReg d (truth (regPresent s n = true)) s)))) ∧
  (∀ (n a b : Reg) (wa wb : Bool) (f : InstrInfo) (s : State) (p : Partition), frameOf (.rwr n a b wa wb) = some f →
     MayIssue f s → Readable s a → Readable s b → partAt s (corePart s.core) = some p →
     (p.ranks.length ≤ (regVal s a).toNat → exec (.rwr n a b wa wb) s = .next (halt (.trap 0x09 (regVal s a) 0) s)) ∧
     (∀ phys, (regVal s a).toNat < p.ranks.length → physOf p (regVal s a).toNat = some phys →
       Settled s (Machine.scopeOf s.core.phys phys) → quantumRules p = false →
       (n = 0 ∨ inboxFree s (corePart s.core) (regVal s a).toNat phys = true) →
       exec (.rwr n a b wa wb) s = .next (completes f
         (flowSent (corePart s.core) s.core.phys (regVal s a).toNat { s with remotes := s.remotes ++
           [⟨flowNext s (corePart s.core) s.core.phys (regVal s a).toNat, corePart s.core, s.core.phys, s.core.lcore.toNat,
             (regVal s a).toNat, n, regVal s b⟩] }))) ∧
     (∀ phys, (regVal s a).toNat < p.ranks.length → physOf p (regVal s a).toNat = some phys →
       Settled s (Machine.scopeOf s.core.phys phys) → quantumRules p = true →
       exec (.rwr n a b wa wb) s = .next (completes f (onCore s.core.phys (fun c =>
         { c with
           held := c.held ++ [(corePart c, .rwr ⟨0, corePart s.core, s.core.phys, s.core.lcore.toNat, (regVal s a).toNat, n, regVal s b⟩)]
           rwrs := c.rwrs + 1
           atBarrier := c.atBarrier || 64 ≤ c.rwrs + 1 }) s))))

/-- R162: a trap condition outside a transaction, in a context at task privilege with no value on its way to s1 to s4 and a
frame that is not busy, writes the trap frame with the old STATUS, PC, FMT and s1 to s4 in the save area, and enters the
handler: PC is TVEC, PRIV is 1, PFX is 0, CAUSE, EPC, EVAL and EINFO are those of the trap, and s1 to s4 hold the frame's address, the
cause, EVAL and EINFO.
R43, R56: a word that is no instruction traps with its cause and the word as EVAL; an instruction whose fetch meets a fault traps
with the fault's cause and the address of the halfword as EVAL. In a context at task privilege, outside a transaction, the trap's entry
is R162's: PC is TVEC and the saved registers hold the trap.
R163, R331: a trap condition outside a transaction in a context above task privilege is a double trap: the task fails
with the trap's cause. -/
def Obligations.TrapsAreEntered : Prop :=
  (∀ (cause : BitVec 8) (eval einfo : Word) (s t : State), s.core.txn = none →
     producersOf s [1, 2, 3, 4] = false → privOf (curCtx s).status = 0 → s.core.frames.getLsbD (curIdx s) = false →
     let status := if cause = 0x1A then (curCtx s).status &&& ~~~1#64 else (curCtx s).status
     saveWrite s.core.phys (curIdx s) (frameAddr s.core (curIdx s))
       (frameBytes (curCtx s) status (curCtx s).pc (cause.zeroExtend 64) eval einfo)
       (beginEntry ⟨cause, eval, einfo⟩ (curCtx s).pc (noteTurn s)) = .ok () t →
     let u := halt (.trap cause eval einfo) s
     let x := curCtx u
     x.pc = t.core.tvec ∧ x.status = (((curCtx t).status &&& ~~~0x301#64) ||| 0x100) ∧ x.cause = cause.zeroExtend 64 ∧
       x.epc = (curCtx s).pc ∧ x.eval = eval ∧ x.einfo = einfo ∧ x.entering = none ∧
       x.regs[1] = frameAddr s.core (curIdx s) ∧ x.regs[2] = cause.zeroExtend 64 ∧ x.regs[3] = eval ∧ x.regs[4] = einfo ∧
       x.pres = (curCtx t).pres ||| 0x1E ∧ u.core.frames.getLsbD (curIdx s) = true ∧
       (∀ n : Reg, 4 < n.val → x.regs[n] = (curCtx t).regs[n]) ∧ SameElsewhere t u) ∧
  (∀ (e : Instr) (cause : BitVec 8) (eval : Word) (s : State),
     ((∃ w, e = .hole w cause ∧ eval = w.zeroExtend 64) ∨ e = .fetchFault cause eval) →
     exec e s = .next (halt (.trap cause eval 0) s) ∧
     (∀ t, s.core.txn = none → producersOf s [1, 2, 3, 4] = false →
       privOf (curCtx s).status = 0 → s.core.frames.getLsbD (curIdx s) = false →
       let status := if cause = 0x1A then (curCtx s).status &&& ~~~1#64 else (curCtx s).status
       saveWrite s.core.phys (curIdx s) (frameAddr s.core (curIdx s))
         (frameBytes (curCtx s) status (curCtx s).pc (cause.zeroExtend 64) eval 0)
         (beginEntry ⟨cause, eval, 0⟩ (curCtx s).pc (noteTurn s)) = .ok () t →
       ∃ u, exec e s = .next u ∧ (curCtx u).pc = t.core.tvec ∧ (curCtx u).cause = cause.zeroExtend 64 ∧
         (curCtx u).epc = (curCtx s).pc ∧ (curCtx u).eval = eval ∧ privOf (curCtx u).status = 1)) ∧
  (∀ (cause : BitVec 8) (eval einfo : Word) (s : State), s.core.txn = none → producersOf s [1, 2, 3, 4] = false →
     privOf (curCtx s).status ≠ 0 → einfo.getLsbD 63 = false →
     halt (.trap cause eval einfo) s = failTask s.core.phys cause (beginEntry ⟨cause, eval, einfo⟩ (curCtx s).pc (noteTurn s)))

/-- R165: trap and svc take a trap with cause 0x1D and 0x1C whose EVAL is the operand and whose EPC is the next instruction;
brk takes one with cause 0x1B whose EPC is its own address. That entry is what each does: PC is TVEC and the saved registers
hold what R162 says.
R163: eret of a handler whose frame is busy and holds DISP 0 and a legal STATUS clears BUSY and gives the context the
STATUS, FMT, PC and s1 to s4 of the frame, with their presence bits. -/
def Obligations.TrapInstructionsAndReturn : Prop :=
  (∀ (i : Instr) (f : InstrInfo) (cause : BitVec 8) (eval epc : Word) (s t : State), frameOf i = some f → MayIssue f s →
     ((∃ a wa, i = .trap a wa ∧ Readable s a ∧ cause = 0x1D ∧ eval = regVal s a ∧ epc = (curCtx s).pc + 4) ∨
       (∃ a wa, i = .svc a wa ∧ Readable s a ∧ cause = 0x1C ∧ eval = regVal s a ∧ epc = (curCtx s).pc + 4) ∨
       (i = .brk ∧ cause = 0x1B ∧ eval = 0 ∧ epc = (curCtx s).pc)) →
     producersOf s [1, 2, 3, 4] = false → privOf (curCtx s).status = 0 → s.core.frames.getLsbD (curIdx s) = false →
     saveWrite s.core.phys (curIdx s) (frameAddr s.core (curIdx s))
       (frameBytes (curCtx s) (curCtx s).status epc (cause.zeroExtend 64) eval 0) (beginEntry ⟨cause, eval, 0⟩ epc (noteTurn s)) = .ok () t →
     ∃ u, exec i s = .next u ∧ (curCtx u).pc = t.core.tvec ∧ (curCtx u).cause = cause.zeroExtend 64 ∧ (curCtx u).epc = epc ∧
       (curCtx u).eval = eval ∧ privOf (curCtx u).status = 1 ∧ hasPfx (curCtx u) = false ∧
       (curCtx u).regs[1] = frameAddr s.core (curIdx s) ∧ (curCtx u).regs[3] = eval) ∧
  (∀ (f : InstrInfo) (s s1 s2 t : State) (b : List Byte), frameOf .eret = some f → MayIssue f s →
     frameBusy (curIdx s) s = .ok true s1 → saveRead s.core.phys (curIdx s) (frameAddr s.core (curIdx s)) 128 s1 = .ok b s2 →
     leNat (slice b 48 4) = 0 → statusOk (isHelper s) (wordAt b 0) = true → producersOf s2 [1, 2, 3, 4] = false →
     clearBusy (curIdx s) b s2 = .ok () t →
     ∃ u, exec .eret s = .next u ∧
       (curCtx u).status = wordAt b 0 ∧ (curCtx u).fmt = wordAt b 40 ∧ (curCtx u).pc = wordAt b 8 &&& ~~~1#64 ∧
       (curCtx u).regs[1] = wordAt b 56 ∧ (curCtx u).regs[2] = wordAt b 64 ∧ (curCtx u).regs[3] = wordAt b 72 ∧
       (curCtx u).regs[4] = wordAt b 80 ∧
       (∀ k : Fin 4, (curCtx u).pres.getLsbD (k.val + 1) = (BitVec.ofNat 32 (leNat (slice b 52 4))).getLsbD (k.val + 4)) ∧
       (∀ n : Reg, 4 < n.val → (curCtx u).regs[n] = (curCtx t).regs[n]))

/-- R197, R199, R200: a load whose access passes the checks of R199, outside a transaction, brings its bytes, extended as the
instruction says, into its destination: at once, or as a value on its way where a line misses the L1 or comes through the peer window
(R63, R444); and it completes. In the own window of the local store that is at once. R194, R195: a bad line of a load that brings its value
at once, or has no destination, traps with cause 0x17 and EVAL the line (the window address for the local store); else the machine
error comes with the value. -/
def Obligations.LoadsBringBytes : Prop :=
  (∀ (i : Instr) (f : InstrInfo) (d : Reg) (a : AccessForm) (ext : Nat → Word) (p : Place) (s : State),
    frameOf i = some f → loadForm s i = some (d, a, ext) → MayIssue f s → Readable s a.base → Writable s d → Plain s →
    ownPlace s a.addr a.size = some p →
    exec i s = .next (completes f (setReg d (ext (storeNat s p a.size)) s))) ∧
  (∀ (i : Instr) (f : InstrInfo) (d : Reg) (a : AccessForm) (ext : Nat → Word) (ps : List Piece) (s s1 s2 : State),
    frameOf i = some f → loadForm s i = some (d, a, ext) → MayIssue f s → Readable s a.base → Writable s d →
    (clusterAt s (clusterOf s.core.phys)).mons.all (fun u => !u.config.getLsbD 0) = true →
    Opens s .load needR a.addr a.size ps s1 → performMeeting (curAgent s) ps s1 = .ok () s2 →
    inTxn s2 (curAgent s) = false →
    let s3 := reachPieces (curAgent s) ps s2
    let s4 := fillL1 s.core.phys ps s3
    let v := ext (leNat (piecesBytes s3 (curAgent s) ps))
    let slow := isPeer a.addr || missesL1 s3 s.core.phys ps
    (slow = true → d ≠ 0 → exec i s = .next (completes f
      (bring d v a.addr (anyBad s3 ps) (ps.findSome? (fun p => p.pa?.bind packageOf)) s4))) ∧
    (slow = true → d = 0 → exec i s =
      .next (if anyBad s3 ps then halt (.trap 0x17 (badEval a.addr) 0) s4 else completes f s4)) ∧
    (slow = false → (∀ p ∈ ps, badAt s3 p.place = false) → exec i s = .next (completes f (setReg d v s4))) ∧
    (∀ before p after, slow = false → ps = before ++ p :: after → (∀ q ∈ before, badAt s3 q.place = false) →
      badAt s3 p.place = true → exec i s = .next (halt (.trap 0x17 (badEval p.va) 0) s3)))

/-- R197, R198, R219, R259: a store to the own window of the local store waits to be performed, with the low bytes of its data
register, the least significant first, at the address that a load would read; it completes, and no byte has changed yet.
A store whose access passes the checks of R199, with none of its lines mapped by the stash and outside a transaction, makes one access
for each line that it touches, in ascending order, and completes: each waits to be performed, or in a deterministic task is performed at
once where nothing is before it (R38, R263, R442). When a waiting store is performed is the model's choice among the orders that the spec allows (log entry 2), and so
is that those of a deterministic task are performed at once (log entry 17).
R179: a store to a line that the stash maps is performed with the instruction. R224: one in a transaction, to device memory
within the limits, joins the transaction's stores and changes no byte. Both complete, with no bad line under them (R195); that the
fill and the store are one step, and when a transaction meets the line, are the model's choice (log entries 75, 76). -/
def Obligations.StoresWaitToBePerformed : Prop :=
  (∀ (i : Instr) (f : InstrInfo) (data : Reg) (a : AccessForm) (p : Place) (s : State),
    frameOf i = some f → storeForm s i = some (data, a) → MayIssue f s → Readable s a.base → Readable s data → Plain s →
    ownPlace s a.addr a.size = some p →
    exec i s = .next (completes f (withPend (pendOf s p a.addr .core (.store (leBytes a.size (regVal s data).toNat))) s))) ∧
  (∀ (i : Instr) (f : InstrInfo) (data : Reg) (a : AccessForm) (ps : List Piece) (s s1 : State),
    frameOf i = some f → storeForm s i = some (data, a) → MayIssue f s → Readable s a.base → Readable s data →
    Opens s .store needW a.addr a.size ps s1 →
    let bytes := leBytes a.size (regVal s data).toNat
    let phys := s.core.phys
    let mapped := ∃ p ∈ ps, stashEntryAt s1 p.place ≠ none
    (inTxn s1 (curAgent s) = false → ¬ mapped → awaitProxies (curAgent s) ps s1 = .ok () s1 →
      exec i s = .next (completes f ((storeEntries s a.addr true 0 ps bytes).foldl (queueAccess phys) s1))) ∧
    (∀ s2 s3, inTxn s1 (curAgent s) = false → mapped → performMeeting (curAgent s) ps s1 = .ok () s2 →
      checkBad true ps s2 = .ok () s3 →
      exec i s = .next (completes f ((storeEntries s a.addr false 0 ps bytes).foldl (fun u q =>
        match q.kind with
        | .store b => storeAt phys (corePart s.core) q.det (q.ctx == 0) q.cacheable q.place b u
        | _ => u) s3))) ∧
    (∀ s2 s3, inTxn s1 (curAgent s) = true → txnTouch (curAgent s) true ps s1 = .ok () s2 →
      awaitProxies (curAgent s) ps s2 = .ok () s2 → checkBad true ps s2 = .ok () s3 →
      exec i s = .next (completes f (onCore phys (fun c =>
        { c with txn := c.txn.map (fun x => (storeEntries s a.addr false 0 ps bytes).foldl holdStore x) }) s3))))

/-- R198, R219, R259: ACCESS_PERFORMED of a store to a local store that no stash entry maps, once no earlier access of its context to
the line waits: the bytes stored are read there, and every other byte of every local store, and of memory, is what it was. A store of
part of a bad line changes no byte, and a machine error waits for its context's next boundary (R195); one to the allocation of a
group that has exited changes none, and a trap with cause 0x0A waits there (R178). -/
def Obligations.StorePerformed : Prop :=
  ∀ (core n part gid off phys : Nat) (q : PendAcc) (bytes : List Byte) (s : State), MemoriesCanonical s →
    (coreAt s core).pend[n]? = some q → q.place = .ls phys part gid off → q.kind = .store bytes → pendDue s core n q = true →
    off % 64 + bytes.length ≤ 64 → stashEntryAt s q.place = none →
    let rest := onCore core (fun c => { c with pend := c.pend.eraseIdx n }) s
    (∀ al, allocOf (coreAt s phys) part gid = some al → off / 64 ∉ al.bad →
      (coreAt s phys).stashLines.all (fun l => !(l.part == part && l.gid == gid && l.lsline == off / 64)) = true →
      ∃ t, exec (.accessPerformed core n) s = .next t ∧
        (∀ k : Nat, k < bytes.length → placeByte t core false (.ls phys part gid (off + k)) = bytes[k]!) ∧
        (∀ (c : Nat) (b : Bool) (h p g o : Nat),
          (∀ k : Nat, k < bytes.length → Place.ls h p g o ≠ .ls phys part gid (off + k)) →
          placeByte t c b (.ls h p g o) = placeByte s c b (.ls h p g o)) ∧
        (∀ (c : Nat) (b : Bool) (pa : Nat), placeByte t c b (.mem pa) = placeByte s c b (.mem pa)) ∧
        (coreAt t core).pend = (coreAt s core).pend.eraseIdx n) ∧
    (∀ al, allocOf (coreAt s phys) part gid = some al → off / 64 ∈ al.bad → bytes.length < 64 →
      exec (.accessPerformed core n) s = .next (deferTrap core q.ctx ⟨0x17, badEval q.va, 0⟩ rest)) ∧
    (allocOf (coreAt s phys) part gid = none →
      exec (.accessPerformed core n) s = .next (deferTrap core q.ctx ⟨0x0A, q.va, 0⟩ rest))

/-- R201 to R204: a cache operation on a window address does nothing; on another address that passes its checks cflush and
cinval act on the line, in the order of R259: they wait to be performed, or in a deterministic task are performed at once where nothing
is before them (R38, R263, R442), the second by inference (log entry 17). What pref fetches is the model's choice (log entry 11). It changes
no register, whatever its address is, and nothing at all for a window address. Each
completes. -/
def Obligations.CacheOperations : Prop :=
  (∀ (sc : Scope) (a : Reg) (wa inval : Bool) (f : InstrInfo) (s : State),
    let i : Instr := if inval then .cinval sc a wa else .cflush sc a wa
    frameOf i = some f → MayIssue f s → Readable s a →
    (inWindows (regVal s a) = true → exec i s = .next (completes f s)) ∧
    (∀ (q : Piece) (s1 : State), inWindows (regVal s a) = false →
      resolve (curAgent s) (curWaiter s) needR (regVal s a) 1 s = .ok [q] s1 → q.inRegs = false →
      awaitProxies (curAgent s) [q] s1 = .ok () s1 →
      exec i s = .next (completes f (queueAccess s.core.phys s1
        ⟨curIdx s, q.place.line, q.cacheable, q.device, false, detMode s, regVal s a, sc, if inval then .inval else .flush⟩)))) ∧
  (∀ (level : Fin 3) (a : Reg) (wa : Bool) (f : InstrInfo) (s : State), frameOf (.pref level a wa) = some f → MayIssue f s →
    Readable s a →
    (∃ t, exec (.pref level a wa) s = .next t ∧ (curCtx t).pc = (curCtx s).pc + 4 ∧ SameRegs [] s t ∧ SameSpecials s t) ∧
    (inWindows (regVal s a) = true → exec (.pref level a wa) s = .next (completes f s)))

/-- R205 to R208: an atomic of the own window, aligned, whose destination is not s0, gives the old value, extended as R205
says, and its place holds Op(old, operand); with s0 as destination the operation waits to be performed and returns nothing.
cas stores its operand only where the old value is the expected one; it records a wake-up either way (R221). Each completes.
R211, R219, R259: a reduction on the own window, aligned, waits to be performed and completes without a result.
R205, R208, R211: a misaligned one of the three traps with cause 0x05.
R207, R210: one to device memory, outside a transaction, whose access passes its checks: an atomic with a destination and a cas give
their old value and change their place in this step; an atomic without a destination and a reduction wait to be performed; a bad line
traps with cause 0x17 where the old value is wanted (R194). -/
def Obligations.AtomicsAndReductions : Prop :=
  ((∀ (i : Instr) (f : InstrInfo) (op : RmwOp) (d a b : Reg) (n : Nat) (sc : Scope) (p : Place) (s : State),
     frameOf i = some f → amoForm i = some (op, d, a, b, n, sc) → MayIssue f s → (curCtx s).await = .nothing →
     Readable s a → Readable s b → Writable s d → Plain s → (regVal s a).toNat % n = 0 → ownPlace s (regVal s a) n = some p →
     let old := BitVec.ofNat 64 (storeNat s p n)
     exec i s = .next (completes f
       (if d = 0 then withPend (pendOf s p (regVal s a) sc (.rmw op n (regVal s b))) s
        else setReg d (rmwExt op n old)
         (storeAt s.core.phys (corePart s.core) false (curIdx s == 0) false p (leBytes n (rmwApply op n old (regVal s b)).toNat) s)))) ∧
   (∀ (d a b : Reg) (w sz : Bool) (sc : Scope) (f : InstrInfo) (p : Place) (s : State),
     let n := if sz then 8 else 4
     frameOf (.cas d a b w sz sc) = some f → MayIssue f s → (curCtx s).await = .nothing →
     Readable s a → Readable s b → Readable s d → Writable s d → Plain s → (regVal s a).toNat % n = 0 →
     ownPlace s (regVal s a) n = some p →
     let old := storeNat s p n
     exec (.cas d a b w sz sc) s = .next (completes f (setReg d (rmwExt (.cas 0) n (BitVec.ofNat 64 old))
       (if old = (regVal s d).toNat % 2 ^ (8 * n) then
         storeAt s.core.phys (corePart s.core) false (curIdx s == 0) false p (leBytes n (regVal s b).toNat) s
        else wakeMonitors none p n s)))) ∧
   (∀ (i : Instr) (f : InstrInfo) (op : RmwOp) (d a b : Reg) (n : Nat) (sc : Scope) (s : State), frameOf i = some f →
     (amoForm i = some (op, d, a, b, n, sc) ∨ (Readable s d ∧ ∃ w sz, i = .cas d a b w sz sc ∧ op = .cas (regVal s d) ∧ n = if sz then 8 else 4)) →
     MayIssue f s → (curCtx s).await = .nothing → Readable s a → Readable s b → Writable s d →
     let va := regVal s a
     let v := regVal s b
     (va.toNat % n ≠ 0 → exec i s = .next (halt (.trap 0x05 va 0) s)) ∧
     (∀ p t u, va.toNat % n = 0 → (d ≠ 0 ∨ ∃ e, op = .cas e) → OpensAtomic s .returning sc va n p t →
       inTxn t (curAgent s) = false → performMeeting (curAgent s) [p] t = .ok () u →
       (badAt u p.place = true → exec i s = .next (halt (.trap 0x17 (badEval va) 0) u)) ∧
       (badAt u p.place = false → (rmwAtCluster sc p.cacheable = true ∨ HomeFree u p) →
         let r := rmwAt s.core.phys (corePart s.core) (detMode s) (curIdx s == 0) p.cacheable sc op n v p.place u
         exec i s = .next (completes f (setReg d (rmwExt op n r.1) r.2)))) ∧
     (∀ p t, va.toNat % n = 0 → d = 0 → (∀ e, op ≠ .cas e) → OpensAtomic s (.update op.orderFree) sc va n p t →
       inTxn t (curAgent s) = false → stashEntryAt t p.place = none → awaitProxies (curAgent s) [p] t = .ok () t →
       exec i s = .next (completes f (queueAccess s.core.phys t
         ⟨curIdx s, p.place, p.cacheable, p.device, false, detMode s, va, sc, .rmw op n v⟩))))) ∧
  (∀ (i : Instr) (f : InstrInfo) (op : RmwOp) (a b : Reg) (n : Nat) (ord : Bool) (sc : Scope) (s : State),
     frameOf i = some f → redForm i = some (op, a, b, n, ord, sc) → MayIssue f s → Readable s a → Readable s b →
     ((regVal s a).toNat % n ≠ 0 → exec i s = .next (halt (.trap 0x05 (regVal s a) 0) s)) ∧
     (∀ p, Plain s → (regVal s a).toNat % n = 0 → ownPlace s (regVal s a) n = some p →
       exec i s = .next (completes f (withPend (pendOf s p (regVal s a) sc (.red op n (regVal s b) ord)) s))) ∧
     (∀ p t, (regVal s a).toNat % n = 0 → OpensAtomic s (.update (ord || op.orderFree)) sc (regVal s a) n p t →
       stashEntryAt t p.place = none → awaitProxies (curAgent s) [p] t = .ok () t →
       exec i s = .next (completes f (queueAccess s.core.phys t
         ⟨curIdx s, p.place, p.cacheable, p.device, false, detMode s, regVal s a, sc, .red op n (regVal s b) ord⟩))))

/-- R206: the value that an atomic or a reduction leaves for the integer operations, on 4 or 8 bytes: the low bits of the
sum, the bitwise results, the smaller or larger as signed or unsigned numbers of that width, or the operand.
R207: an atomic that is no cas, of an aligned place of device memory with no reduction waiting on its line and no stash line on any core,
reads the bytes there, in the cluster cache below .die on a write-back page that the cluster holds, else at the home, and leaves there
the bytes of its result; every other byte that is read there is what it was. -/
def Obligations.AtomicResults : Prop :=
  (∀ (phys part pa n : Nat) (det self cacheable : Bool) (sc : Scope) (op : RmwOp) (v : Word) (s : State), n = 4 ∨ n = 8 →
    MemoriesCanonical s → pa % n = 0 → (∀ e, op ≠ .cas e) → hasPartials (pa / 64) s = false →
    (∀ c ∈ allCores s, c.stashLines = []) →
    let near := rmwAtCluster sc cacheable
    let line := lineAt s (clusterOf phys) (pa / 64)
    (if near = true then line ≠ none else (cacheable = false ∨ line = none)) →
    let r := rmwAt phys part det self cacheable sc op n v (.mem pa) s
    r.1 = BitVec.ofNat 64 (leNat (placeBytes s phys near (.mem pa) n)) ∧
    (∀ k : Nat, k < n → placeByte r.2 phys near (.mem (pa + k)) = (leBytes n (rmwApply op n r.1 v).toNat)[k]!) ∧
    (∀ a : Nat, a < pa ∨ pa + n ≤ a → placeByte r.2 phys near (.mem a) = placeByte s phys near (.mem a))) ∧
  ∀ (n : Nat) (old v : Word), n = 4 ∨ n = 8 →
    let m := 2 ^ (8 * n)
    let o := old.toNat % m
    let x := v.toNat % m
    let signed := fun (k : Nat) => if k < m / 2 then (k : Int) else (k : Int) - m
    (rmwApply .add n old v).toNat = (o + x) % m ∧
    (rmwApply .and n old v).toNat = o &&& x ∧
    (rmwApply .or n old v).toNat = o ||| x ∧
    (rmwApply .xor n old v).toNat = o ^^^ x ∧
    (rmwApply .minn n old v).toNat = min o x ∧
    (rmwApply .maxn n old v).toNat = max o x ∧
    (rmwApply .min n old v).toNat = (if signed o ≤ signed x then o else x) ∧
    (rmwApply .max n old v).toNat = (if signed o ≤ signed x then x else o) ∧
    (rmwApply .swap n old v).toNat = x

/-- R216 to R218, R259: acq of a sync word of the own window that the task does not hold, with fewer than four held and the earlier
accesses of its context performed, adds it to the held set; a fifth traps with cause 0x09 and EINFO 4. rel, with everything before it performed, adds 1 to the word and removes it from
the held set. Each completes; scopes below .clus act as .clus. R214: the same for a word in device or host memory whose access passes
its checks: acq reads it in the cluster cache below .die, else at its home behind the cluster's write-back, and at .die and above the
cluster's lines of the partition go (which ones beyond the bound regions is the model's choice, log entry 12); a misaligned word traps
with cause 0x05, a bad one with 0x17.
R219 to R221: fence completes exactly when every earlier access of its context is performed at its scope and its earlier
matrix and vector instructions are complete, and else waits; mon of an aligned dword of the own window arms the monitor there, and its
value is on its way to d; mwait completes at once, disarming the monitor, where it has recorded a wake-up or is not armed,
traps with cause 0x15 in deterministic mode, and else waits. -/
def Obligations.SyncWordsFencesMonitors : Prop :=
  ((∀ (sc : Scope) (a : Reg) (w : Bool) (f : InstrInfo) (p : Place) (s : State), frameOf (.acq sc a w) = some f →
     MayIssue f s → Readable s a → Plain s → (regVal s a).toNat % 8 = 0 → ownPlace s (regVal s a) 8 = some p →
     let held := heldSet s s.core.phys
     (held.any (fun h => h.va == regVal s a) = false → 4 ≤ held.length →
       exec (.acq sc a w) s = .next (halt (.trap 0x09 (regVal s a) 4) s)) ∧
     (held.any (fun h => h.va == regVal s a) = false → held.length < 4 → beyondCluster sc = false →
       accessesDone s s.core.phys (curIdx s) (atLeastClus sc) = true →
       exec (.acq sc a w) s = .next (completes f (onHeld s.core.phys (fun l => l ++ [⟨regVal s a, p, false⟩]) s))) ∧
     (held.any (fun h => h.va == regVal s a) = true → beyondCluster sc = false →
       accessesDone s s.core.phys (curIdx s) (atLeastClus sc) = true →
       exec (.acq sc a w) s = .next (completes f s))) ∧
   (∀ (sc : Scope) (a : Reg) (w : Bool) (f : InstrInfo) (p : Place) (s : State), frameOf (.rel sc a w) = some f →
     MayIssue f s → Readable s a → Plain s → MemoriesCanonical s → Settled s (atLeastClus sc) → (regVal s a).toNat % 8 = 0 →
     ownPlace s (regVal s a) 8 = some p → beyondCluster sc = false →
     ∃ t, exec (.rel sc a w) s = .next t ∧ (curCtx t).pc = (curCtx s).pc + 4 ∧
       storeNat t p 8 = (storeNat s p 8 + 1) % 2 ^ 64 ∧
       heldSet t s.core.phys = (heldSet s s.core.phys).filter (fun h => h.va != regVal s a)) ∧
   (∀ (sc : Scope) (a : Reg) (w : Bool) (f : InstrInfo) (s : State), frameOf (.acq sc a w) = some f → MayIssue f s → Readable s a →
     let va := regVal s a
     let sc' := atLeastClus sc
     let phys := s.core.phys
     let cl := clusterOf phys
     let enter := fun (p : Piece) (l : List HeldWord) =>
       if l.any (fun h => h.va == va) then l else l ++ [⟨va, p.place, p.cacheable⟩]
     (va.toNat % 8 ≠ 0 → exec (.acq sc a w) s = .next (halt (.trap 0x05 va 0) s)) ∧
     (∀ p t u, syncPlace (curAgent s) sc' va s = .ok p t →
       ((heldSet t phys).any (fun h => h.va == va) = true ∨ (heldSet t phys).length < 4) →
       performMeeting (curAgent s) [p] t = .ok () u → accessesDone u phys (curIdx s) sc' = true →
       (beyondCluster sc' = false →
         let r := readAt phys (corePart s.core) (curIdx s == 0) p.cacheable p.place u
         (badAt r p.place = true → exec (.acq sc a w) s = .next (halt (.trap 0x17 (badEval va) 0) r)) ∧
         (badAt r p.place = false → heldSet r phys = heldSet t phys →
           exec (.acq sc a w) s = .next (completes f (onHeld phys (enter p) r)))) ∧
       (∀ pa, beyondCluster sc' = true → p.place = .mem pa → awaitLines phys (dirtyLinesOf u cl (corePart s.core)) u = .ok () u →
         (p.cacheable = true → unwritten u cl (pa / 64) = true → awaitLines phys [pa / 64] u = .ok () u) →
         let r := readAt phys (corePart s.core) (curIdx s == 0) false p.place
           (if p.cacheable then dropLine cl (pa / 64) (recallStash cl (pa / 64) u) else u)
         let v := acquireLines phys (corePart s.core) va r
         badAt r p.place = false → heldSet v phys = heldSet t phys →
         exec (.acq sc a w) s = .next (completes f (onHeld phys (enter p) v))))) ∧
   (∀ (sc : Scope) (a : Reg) (w : Bool) (f : InstrInfo) (s : State), frameOf (.rel sc a w) = some f → MayIssue f s → Readable s a →
     let va := regVal s a
     let sc' := atLeastClus sc
     let phys := s.core.phys
     (va.toNat % 8 ≠ 0 → exec (.rel sc a w) s = .next (halt (.trap 0x05 va 0) s)) ∧
     (∀ p t, syncPlace (curAgent s) sc' va s = .ok p t → accessesDone t phys (curIdx s) sc' = true → enginesDone t phys (curIdx s) = true →
       (badAt t p.place = true → exec (.rel sc a w) s = .next (halt (.trap 0x17 (badEval va) 0) t)) ∧
       (badAt t p.place = false → (rmwAtCluster sc' p.cacheable = true ∨ HomeFree t p) →
         (beyondCluster sc' = true → awaitLines phys (releaseLinesOf t (clusterOf phys) (corePart s.core)) t = .ok () t) →
         exec (.rel sc a w) s = .next (completes f (onHeld phys (fun l => l.filter (fun h => h.va != va))
           (releaseWord phys (corePart s.core) (detMode s) sc' ⟨va, p.place, p.cacheable⟩ t))))))) ∧
  ((∀ (sc : Scope) (f : InstrInfo) (s : State), frameOf (.fence sc) = some f → MayIssue f s →
     (Settled s sc → exec (.fence sc) s = .next (completes f s)) ∧
     (¬ Settled s sc → exec (.fence sc) s = .next (standStill false s))) ∧
   (∀ (d a : Reg) (w : Bool) (f : InstrInfo) (p : Place) (s : State), frameOf (.mon d a w) = some f → MayIssue f s →
     Readable s a → Writable s d → Plain s → (regVal s a).toNat % 8 = 0 → ownPlace s (regVal s a) 8 = some p →
     exec (.mon d a w) s = .next (completes f (produce d (BitVec.ofNat 64 (storeNat s p 8)) (regVal s a) false
       (onCur (fun x => { x with monitor := some ⟨p, false⟩ }) s)))) ∧
   (∀ (f : InstrInfo) (s : State), frameOf .mwait = some f → MayIssue f s →
     (detMode s = true → exec .mwait s = .next (halt (.trap 0x15 0 0) s)) ∧
     (detMode s = false → ((curCtx s).monitor = none ∨ ∃ m, (curCtx s).monitor = some m ∧ m.woke = true) →
       exec .mwait s = .next (completes f (onCur (fun x => { x with monitor := none, await := .nothing }) s))) ∧
     (∀ m, detMode s = false → (curCtx s).monitor = some m → m.woke = false → (curCtx s).await ≠ .mwaitDone →
       exec .mwait s = .next (standStill true (onCur (fun x => { x with await := .mwait }) s)))))

/-- R214, R215, R380: bind reads a descriptor of 32 bytes and, where it breaks no rule and meets no region of the partition, enters
the region; unbind removes every region with that base. Both need runtime privilege and complete.
R370: tlbinv, at runtime privilege or above, checks its operands in order (a kind above 3 or a field that must be zero 0x09, kinds
2 and 3 below firmware privilege 0x03, an address its kind does not allow 0x09), waits as fence.dev does, and completes once no
core and no cluster holds a translation of the partition that its kind selects. -/
def Obligations.BindingsAndTranslations : Prop :=
  ((∀ (a b : Reg) (w : Bool) (f : InstrInfo) (bytes : List Byte) (p : Partition) (s t : State), frameOf (.bind a b w) = some f →
     MayIssue f s → Readable s a → Readable s b → partAt s (corePart s.core) = some p → p.regions.length < 1024 →
     readMem (curAgent s) (curWaiter s) .load (regVal s b) 32 s = .ok bytes t → bindOk bytes (regVal s a) = true →
     (∀ q ∈ p.regions, q.base + q.length ≤ dwordAt bytes 0 ∨ dwordAt bytes 0 + dwordAt bytes 1 ≤ q.base) →
     exec (.bind a b w) s = .next (completes f (onPart (corePart s.core) (onRegions (fun l =>
       l ++ [⟨dwordAt bytes 0, dwordAt bytes 1, dwordAt bytes 2, 0, regVal s a⟩])) t))) ∧
   (∀ (a : Reg) (w : Bool) (f : InstrInfo) (p : Partition) (s : State), frameOf (.unbind a w) = some f → MayIssue f s →
     Readable s a → partAt s (corePart s.core) = some p →
     ∃ t q, exec (.unbind a w) s = .next t ∧ (curCtx t).pc = (curCtx s).pc + 4 ∧ partAt t (corePart s.core) = some q ∧
       q.regions = p.regions.filter (fun r => BitVec.ofNat 64 r.base != regVal s a))) ∧
  (∀ (a b : Reg) (wa wb : Bool) (f : InstrInfo) (s : State), frameOf (.tlbinv a b wa wb) = some f → MayIssue f s →
     Readable s a → Readable s b →
     let kind := (regVal s b).toNat
     (4 ≤ kind → exec (.tlbinv a b wa wb) s = .next (halt (.trap 0x09 (regVal s b) 0) s)) ∧
     ((kind = 2 ∨ kind = 3) → privOf (curCtx s).status < 2 →
       exec (.tlbinv a b wa wb) s = .next (halt (.trap 0x03 (regVal s b) 0) s)) ∧
     (((kind = 1 ∨ kind = 3) ∧ regVal s a ≠ 0) ∨ (kind = 0 ∧ canonical (regVal s a) = false) →
       (2 ≤ kind → 2 ≤ privOf (curCtx s).status) →
       exec (.tlbinv a b wa wb) s = .next (halt (.trap 0x09 (regVal s b) 0) s)) ∧
     (((kind = 1 ∨ kind = 3) ∧ regVal s a = 0) ∨ kind = 2 ∨ (kind = 0 ∧ canonical (regVal s a) = true) →
       (2 ≤ kind → 2 ≤ privOf (curCtx s).status) → kind < 4 →
       Settled s .dev → operandsInFlight s (corePart s.core) kind (regVal s a) = false → pendingHomeLines s (corePart s.core) = [] →
       ∃ t, exec (.tlbinv a b wa wb) s = .next t ∧ (curCtx t).pc = (curCtx s).pc + 4 ∧
         (∀ c ∈ allCores t, ∀ e ∈ c.tlb ++ c.itlb, e.selected (corePart s.core) kind (regVal s a) = false) ∧
         (∀ k ∈ t.clusters, ∀ e ∈ k.tlb, e.selected (corePart s.core) kind (regVal s a) = false)))

/-- R223 to R226: txb outside a transaction and outside deterministic mode opens one, with STATUS bit 5 set and d zero; a nested one
aborts with reason 9, one in deterministic mode traps with cause 0x14. txe with no post held, with no earlier access to be performed and none of
its lines owned by a channel or held by the host, closes it and performs its stores and atomics in program order, in one step. txa aborts with reason 4: registers and PC are those of the txb, d holds the code, no byte
has changed. txe and txa outside a transaction trap with cause 0x01. -/
def Obligations.Transactions : Prop :=
  (∀ (d : Reg) (f : InstrInfo) (s : State), frameOf (.txb d) = some f → MayIssue f s →
    (s.core.txn ≠ none → exec (.txb d) s = .next (halt (.abort 9 0) s)) ∧
    (s.core.txn = none → detMode s = true → exec (.txb d) s = .next (halt (.trap 0x14 0 0) s)) ∧
    (s.core.txn = none → detMode s = false → Writable s d →
      ∃ t, exec (.txb d) s = .next t ∧ t.core.txn = some ⟨curCtx s, (curCtx s).pc, d, [], [], [], [], []⟩ ∧
        (curCtx t).status = (curCtx s).status ||| 0x20 ∧ (curCtx t).pc = (curCtx s).pc + 4 ∧
        regVal t d = 0 ∧ regPresent t d = true ∧ SameRegs [d] s t ∧ SameOthers s t ∧ SameElsewhere s t)) ∧
  (∀ (f : InstrInfo) (s : State), frameOf .txe = some f → MayIssue f s →
    (s.core.txn = none → exec .txe s = .next (halt (.trap 0x01 0 0) s)) ∧
    (∀ x, s.core.txn = some x → x.posts = [] → s.core.pend = [] →
      (∀ q ∈ x.writes, (∃ pa, q.place = .mem pa) ∧ q.blocked s.core.phys s = false ∧
        ∀ line, q.homeLine = some line → line ∉ s.hostLines) →
      exec .txe s = .next (completes f (sweepPart (corePart s.core) (x.writes.foldl (fun u q => performPend s.core.phys q u)
        { s with core := { s.core with txn := none, ctl := { s.core.ctl with status := s.core.ctl.status &&& ~~~0x20#64 } } }))))) ∧
  (∀ (f : InstrInfo) (s : State), frameOf .txa = some f → MayIssue f s →
    (s.core.txn = none → exec .txa s = .next (halt (.trap 0x01 0 0) s)) ∧
    (∀ x, s.core.txn = some x → x.checkpoint.prods = [] →
      ∃ t, exec .txa s = .next t ∧ t.core.txn = none ∧ (curCtx t).pc = x.pc + 4 ∧
        (curCtx t).status = x.checkpoint.status &&& ~~~0x20#64 ∧ regVal t x.d = (if x.d = 0 then 0 else 0x41E) ∧
        (∀ n : Reg, n ≠ x.d → n ≠ 0 → regVal t n = x.checkpoint.regs[n]) ∧ SameOthers s t ∧ SameElsewhere s t ∧ SameBytes s t))

/-- R318, R325: tspawn of a record that passes its checks, with a count of 0 and every earlier access performed, readies it: a task
enters the ready queue of a cluster that can hold it behind every entry of its priority and its launch's population grows by 1; a
graph node is evaluated. A count that is not 0 traps with cause 0x09 and EINFO 10, a group that no cluster can hold with EINFO 11.
Where the quantum rules apply the record is held to the quantum end.
R325: tfork of a task record of one member, with a count of 0 and every earlier access performed, puts it at the end of the
core's deque if that has fewer than 64 entries, and its launch's population grows by 1; a full deque readies it as tspawn does. -/
def Obligations.SpawnsAndForks : Prop :=
  (∀ (a : Reg) (w : Bool) (f : InstrInfo) (r : TaskRec) (p : Partition) (s u : State), frameOf (.tspawn a w) = some f →
     MayIssue f s → Readable s a → instrRecord (regVal s a) spawnable s = .ok r u → partAt u (corePart u.core) = some p →
     let i : Instr := .tspawn a w
     let e := freshEntry r (regVal s a) p.tag (runLaunch u) (runDet u) (if r.gsize = 1 then u.core.run.bind Running.peer else none)
     let held := (ringOf p).any (fun cl => canHold p cl r.gsize)
     (r.count ≠ 0 → exec i s = .next (halt (.trap 0x09 (regVal s a) 10) u)) ∧
     (r.count = 0 → held = false → exec i s = .next (halt (.trap 0x09 (regVal s a) 11) u)) ∧
     (r.count = 0 → held = true → quantumRules p = true → Settled u .dev →
       exec i s = .next (completes f (holdReq u.core.phys (.ready e) u))) ∧
     (∀ q, r.count = 0 → held = true → quantumRules p = false → Settled u .dev → r.kind = 0 →
       queueCluster p (clusterOf u.core.phys) r = some q →
       ((clusterAt u q).ready.filter (fun x => x.part == p.tag)).length < 4096 →
       ∃ t, exec i s = .next t ∧ (curCtx t).pc = (curCtx u).pc + 4 ∧
         (clusterAt t q).ready = insertBy (fun x => 7 - x.rcd.prio) { e with stamp := u.time } (clusterAt u q).ready ∧
         partAt t p.tag = some { p with launches := modifyWhere (fun l => l.slot == e.launch) (fun l => { l with pop := l.pop + 1 }) p.launches }) ∧
     (r.count = 0 → held = true → quantumRules p = false → Settled u .dev → r.kind ≠ 0 →
       ∃ t, readyRec (clusterOf u.core.phys) u.core.phys graphFuel e u = .ok () t ∧ exec i s = .next (completes f t))) ∧
  (∀ (a : Reg) (w : Bool) (f : InstrInfo) (r : TaskRec) (p : Partition) (s u : State), frameOf (.tfork a w) = some f →
     MayIssue f s → Readable s a → instrRecord (regVal s a) (fun r => r.kind == 0 && r.gsize == 1) s = .ok r u →
     partAt u (corePart u.core) = some p →
     let i : Instr := .tfork a w
     let e := freshEntry r (regVal s a) p.tag (runLaunch u) (runDet u) (u.core.run.bind Running.peer)
     (r.count ≠ 0 → exec i s = .next (halt (.trap 0x09 (regVal s a) 10) u)) ∧
     (r.count = 0 → quantumRules p = true → Settled u .dev →
       exec i s = .next (completes f (holdReq u.core.phys (.push e) u))) ∧
     (r.count = 0 → quantumRules p = false → Settled u .dev → u.core.deque.length < 64 →
       ∃ t, exec i s = .next t ∧ (curCtx t).pc = (curCtx u).pc + 4 ∧
         t.core.deque = u.core.deque ++ [{ e with stamp := u.time }] ∧ t.clusters = u.clusters ∧
         partAt t p.tag = some { p with launches := modifyWhere (fun l => l.slot == e.launch) (fun l => { l with pop := l.pop + 1 }) p.launches }) ∧
     (r.count = 0 → quantumRules p = false → Settled u .dev → 64 ≤ u.core.deque.length → recordRoom u p (clusterOf u.core.phys) r = true →
       ∃ t, readyRec (clusterOf u.core.phys) u.core.phys graphFuel e u = .ok () t ∧ exec i s = .next (completes f t)))

/-- R324, R326: tdec of a record in the own window takes its amount off the count if the count is greater, and readies nothing; an
amount of 0 or from 2^31 on traps with cause 0x09 and EINFO 8, a count below the amount with EINFO 7. In general it completes
with what the decrement at the record's home leaves. -/
def Obligations.CountsFall : Prop :=
  ∀ (a b : Reg) (wa wb : Bool) (f : InstrInfo) (s : State), frameOf (.tdec a b wa wb) = some f → MayIssue f s →
    Readable s a → Readable s b →
    let i : Instr := .tdec a b wa wb
    let addr := regVal s a
    let n := (regVal s b).toNat
    (∀ (r : TaskRec) (u : State), instrRecord addr spawnable s = .ok r u → n = 0 ∨ 2 ^ 31 ≤ n →
      exec i s = .next (halt (.trap 0x09 (regVal s b) 8) u)) ∧
    (∀ (r : TaskRec) (u t : State), decChecks addr (regVal s b) s = .ok r u → Settled u .dev →
      decPerform addr (regVal s b) u = .ok () t → exec i s = .next (completes f t)) ∧
    (∀ (pl : Place) (p : Partition), Plain s → MemoriesCanonical s → partAt s (corePart s.core) = some p → quantumRules p = false →
      ownPlace s addr 64 = some pl → addr.toNat % 64 = 0 → Settled s .dev →
      let r := parseTask (storeBytes s pl 64)
      taskOk p (taskReservedOk (storeBytes s pl 64)) r = true → spawnable r = true → n ≠ 0 → n < 2 ^ 31 →
      (r.count < n → exec i s = .next (halt (.trap 0x09 addr 7) s)) ∧
      ((n : Int) < r.count →
        ∃ t, exec i s = .next t ∧ (curCtx t).pc = (curCtx s).pc + 4 ∧ SameRegs [] s t ∧
          (parseTask (storeBytes t pl 64)).count = r.count - n ∧
          (∀ k : Nat, 4 ≤ k → k < 64 → placeByte t s.core.phys false (pl.plus k) = placeByte s s.core.phys false (pl.plus k))))

/-- R326, R327: tend of a task with nothing on its way and no held words ends it; tjoin does so after it has taken 1 off a record's
count.
R32, R33, R327: the end of a task whose group goes on, in a launch that does: the core runs no task, its control context is not live, the
member is no longer one of its group's, the launch's population has fallen by 1; local stores and memory are untouched. -/
def Obligations.TasksEnd : Prop :=
  ((∀ (f : InstrInfo) (s : State), frameOf .tend = some f → MayIssue f s → AtRest s → Settled s .dev →
     heldSet s s.core.phys = [] → exec .tend s = .next (retire f (endTask s.core.phys s))) ∧
   (∀ (a : Reg) (w : Bool) (f : InstrInfo) (r : TaskRec) (s u t : State), frameOf (.tjoin a w) = some f → MayIssue f s →
     Readable s a → decChecks (regVal s a) 1 s = .ok r u → AtRest u → Settled u .dev → heldSet u u.core.phys = [] →
     decPerform (regVal s a) 1 u = .ok () t →
     exec (.tjoin a w) s = .next (retire f (endTask t.core.phys t)))) ∧
  (∀ (r : Running) (p : Partition) (g : Group) (s : State), s.core.run = some r → r.event = none → r.held = [] →
     s.core.tile = none → partAt s r.part = some p → findBy Group.gid r.gid p.groups = some g →
     (∃ k ∈ g.running, k ≠ r.rank) → (∀ l ∈ p.launches, 2 ≤ l.pop) →
     let t := endTask s.core.phys s
     t.core.run = none ∧ t.core.ctl.live = false ∧ t.mem = s.mem ∧ t.core.allocs = s.core.allocs ∧
       (groupAt t r.part r.gid).map Group.running = some (g.running.filter (fun k => k != r.rank)) ∧
       (partAt t r.part).map Partition.launches =
         some (modifyWhere (fun l => l.slot == r.launch) (fun l => { l with pop := l.pop - 1 }) p.launches))

/-- R166: tyield, cwait and bar with a live helper, once everything of their task is quiet, trap with cause 0x01.
R318, R327: tyield of a task at rest, in a partition with room, once its save area and the homes of its held words can be reached
and the save has been made, frees its core, and a resumed entry of it stands in the ready queue of its cluster, or is held to the
quantum end where the quantum rules apply; with no room it traps with cause 0x09 and EINFO 6.
R394 to R398: cwait of an aligned counter word frees its core in the same way; its continuation is readied if the condition holds at
the watch point, and else a watch waits there; bar counts an arrival at its barrier word. A misaligned word traps with cause 0x05, a
condition with a bit above 32 with cause 0x09 and EINFO 15, a barrier word with more REMAINING than members with EINFO 16, and one that a
deterministic task may not use with EINFO 17. What a deterministic task does to its word is held to the quantum end.
What the save writes is R166's, and is not stated here. That a yield's record is held under the quantum rules, and EVAL 0 of a full
overflow area, are by inference (log entry 49); how the save area reaches another cluster and what is kept beside it are the model's
choice (log entries 16, 20), and so is what a quantum end does that must wait (log entry 56).
R397: what an arrival leaves in a barrier word of g members: REMAINING (0 stands for g) falls by 1, or, for the last one, becomes
0 while GENERATION rises by 1 modulo 2^32. -/
def Obligations.WaitsSaveTheTask : Prop :=
  (∀ (i : Instr) (f : InstrInfo) (s : State), frameOf i = some f → MayIssue f s →
     (i = .tyield ∨ (∃ a b wa wb, i = .cwait a b wa wb) ∨ (∃ a w, i = .bar a w)) →
     Quiet s → helpersLive s.core = true → exec i s = .next (halt (.trap 0x01 0 0) s)) ∧
  (∀ (f : InstrInfo) (p : Partition) (r : Running) (s u v : State), frameOf .tyield = some f → MayIssue f s →
     AtRest s → partAt s (corePart s.core) = some p → s.core.run = some r →
     let pc := (curCtx s).pc + 4
     (quantumRules p = false → contRoom s p s.core.phys = false → exec .tyield s = .next (halt (.trap 0x09 0 6) s)) ∧
     ((quantumRules p = true ∨ contRoom s p s.core.phys = true) → saveReady .dev s = .ok () u → u.core.run = some r →
       leaveSaved s.core.phys 3 pc u = .ok () v → v.core.phys = s.core.phys →
       let e := nextEntry s.core r .resumed pc
       exec .tyield s = .next (retire f (if quantumRules p = true then holdReq s.core.phys (.ready e) v else readyContinuation e v)) ∧
       (∃ t, exec .tyield s = .next t ∧ t.core.run = none ∧ t.core.ctl.live = false))) ∧
  ((∀ (a b : Reg) (wa wb : Bool) (f : InstrInfo) (p : Partition) (r : Running) (s s1 u v : State) (pl : Piece),
     frameOf (.cwait a b wa wb) = some f → MayIssue f s → AtRest s → Readable s a → Readable s b →
     let i : Instr := .cwait a b wa wb
     let cond := regVal s b
     let kind := if cond.getLsbD 32 then 2 else 1
     let arg : BitVec 32 := cond.truncate 32
     (bitsOf cond 63 33 ≠ 0 → exec i s = .next (halt (.trap 0x09 cond 15) s)) ∧
     (bitsOf cond 63 33 = 0 → (regVal s a).toNat % 4 ≠ 0 → exec i s = .next (halt (.trap 0x05 (regVal s a) 0) s)) ∧
     (bitsOf cond 63 33 = 0 → watchPiece (regVal s a) 4 s = .ok pl s1 → partAt s1 (corePart s1.core) = some p →
       let phys := s1.core.phys
       let now := watchNow phys pl 4 s1
       let pc := (curCtx now.2).pc + 4
       let room := if watchHolds kind arg now.1 then contRoom now.2 p phys else watchRoom now.2 p phys
       (room = false → exec i s = .next (halt (.trap 0x09 (regVal s a) 6) now.2)) ∧
       (room = true → saveReady .dev now.2 = .ok () u → u.core.run = some r → leaveSaved phys 1 pc u = .ok () v →
         v.core.phys = phys →
         let e := nextEntry now.2.core r .continuation pc
         let after := watchNow phys pl 4 v
         exec i s = .next (retire f (
           if r.det = true then holdReq phys (.watch ⟨kind, arg, pl.place, e⟩) v
           else if watchHolds kind arg after.1 then readyContinuation e after.2
           else installWatch phys ⟨kind, arg, pl.place, e⟩ after.2)) ∧
         (∃ t, exec i s = .next t ∧ t.core.run = none ∧ t.core.ctl.live = false)))) ∧
   (∀ (a : Reg) (w : Bool) (f : InstrInfo) (p : Partition) (r : Running) (s s1 u v : State) (pl : Piece),
     frameOf (.bar a w) = some f → MayIssue f s → AtRest s → Readable s a →
     ((regVal s a).toNat % 8 ≠ 0 → exec (.bar a w) s = .next (halt (.trap 0x05 (regVal s a) 0) s)) ∧
     (watchPiece (regVal s a) 8 s = .ok pl s1 → partAt s1 (corePart s1.core) = some p → s1.core.run = some r →
       let phys := s1.core.phys
       let g := s1.core.gsize.toNat
       let now := watchNow phys pl 8 s1
       let pc := (curCtx now.2).pc + 4
       let rest := barRemaining now.1 g
       let room := if rest = 1 then contRoom now.2 p phys else watchRoom now.2 p phys
       let legal := r.det = true → barWordOk s1 r pl.place = true
       (¬ legal → exec (.bar a w) s = .next (halt (.trap 0x09 (regVal s a) 17) s1)) ∧
       (legal → g < rest → exec (.bar a w) s = .next (halt (.trap 0x09 (regVal s a) 16) now.2)) ∧
       (legal → rest ≤ g → room = false → exec (.bar a w) s = .next (halt (.trap 0x09 (regVal s a) 6) now.2)) ∧
       (legal → rest ≤ g → room = true → saveReady (if r.held.isEmpty then .clus else .dev) now.2 = .ok () u →
         leaveSaved phys 2 pc u = .ok () v → v.core.phys = phys →
         let x : Watch := ⟨3, 0, pl.place, nextEntry now.2.core r .continuation pc⟩
         exec (.bar a w) s = .next (retire f (
           if r.det = true then holdReq phys (.arrive pl.cacheable x) (onGroup r.part r.gid (fun g => { g with bar := some pl.place }) v)
           else barArrive phys g pl.cacheable x v)) ∧
         (∃ t, exec (.bar a w) s = .next t ∧ t.core.run = none ∧ t.core.ctl.live = false))))) ∧
  (∀ (v g : Nat), v < 2 ^ 64 → 0 < g → g < 2 ^ 32 →
     let rest := if v % 2 ^ 32 = 0 then g else v % 2 ^ 32
     barNext v g % 2 ^ 32 = rest - 1 ∧
       barNext v g / 2 ^ 32 = if rest = 1 then (v / 2 ^ 32 + 1) % 2 ^ 32 else v / 2 ^ 32)

/-- R60, R107, R328: hstart of a helper that is not live starts it at its PC with the two data in s1 and s2, every other register zero
and every register present, STATUS with HLP and the control context's RM and DET; a live one traps with cause 0x09 and EINFO 9. hend
of a helper at rest ends it.
R329: outside the quantum rules the first helper request of a core that runs a task is met where a helper context is free: the
highest-numbered free one is live at the request's PC with its two data in s1 and s2. With none free, or no task, nothing happens. -/
def Obligations.HelpersStartAndEnd : Prop :=
  ((∀ (h : Fin 10) (a b : Reg) (wa wb : Bool) (f : InstrInfo) (s : State), frameOf (.hstart h a b wa wb) = some f →
     MayIssue f s →
     ((s.core.helpers.get h).live = true →
       exec (.hstart h a b wa wb) s = .next (halt (.trap 0x09 (BitVec.ofNat 64 h.val) 9) s)) ∧
     ((s.core.helpers.get h).live = false → Readable s a → Readable s b → Readable s (nextReg b) →
       ∃ t, exec (.hstart h a b wa wb) s = .next t ∧ (curCtx t).pc = (curCtx s).pc + 4 ∧
         let x := t.core.helpers.get h
         x.live = true ∧ x.pc = regVal s a &&& ~~~1#64 ∧ x.status = ((curCtx s).status &&& 0x1E#64) ||| 0x40 ∧
           x.regs[1] = regVal s b ∧ x.regs[2] = regVal s (nextReg b) ∧ (∀ n : Reg, n ≠ 1 → n ≠ 2 → x.regs[n] = 0) ∧
           x.pres = BitVec.allOnes 32 ∧ (∀ k : Fin 10, k ≠ h → t.core.helpers.get k = s.core.helpers.get k) ∧
           SameRegs [] s t ∧ SameElsewhere s t)) ∧
   (∀ (f : InstrInfo) (s : State), frameOf .hend = some f → MayIssue f s → (curCtx s).prods = [] → (curCtx s).locks = [] →
     enginesDone s s.core.phys (curIdx s) = true →
     exec .hend s = .next (retire f (endHelper s)) ∧
     ((curCtx s).origin = .software →
       ∃ t, exec .hend s = .next t ∧ (curCtx t).live = false ∧ SameOthers s t ∧ SameElsewhere s t ∧ SameBytes s t))) ∧
  (∀ (core : Nat) (s : State), (partAt s (corePart (coreAt s core))).any quantumRules = false →
     let c := coreAt s core
     let e : Instr := .hardwareHelperStart core
     (c.run = none ∨ freeHelper c = none → exec e s = .next s) ∧
     (∀ q rest h, c.run.isSome = true → c.ctl.live = true → c.yield = none → c.resume = none → c.hreqs = q :: rest →
       (∀ i, q.origin = .arrival i → c.run.any (fun r => r.part == q.part && r.gid == q.gid) = true) → freeHelper c = some h →
       ∃ t, exec e s = .next t ∧
         let d := coreAt t core
         let x := d.helpers.get h
         d.hreqs = rest ∧ x.live = true ∧ x.origin = q.origin ∧ x.pc = q.pc &&& ~~~1#64 ∧ x.regs[1] = q.s1 ∧ x.regs[2] = q.s2 ∧
         x.status = (c.ctl.status &&& 0x1E#64) ||| 0x40 ∧ d.ctl = c.ctl ∧ t.mem = s.mem))

/-- R339 to R341: fdecl, where no quantum rules apply, of a slot from 0 to 15 that is not declared and a record that passes its checks
declares the slot for the running launch, and leaves the other slots; a declared one traps with cause 0x13 and reason 2. With a record
address of 0 it releases the slot's declaration if the slot is empty and of this launch.
R345, R359: fthr of a declared slot, where no quantum rules apply, sends the low half of its operand to every store of the
partition, which changes no store yet; fquiet of a declared slot with no Top starts one: its white token is at the first cluster of
the ring, and every cluster of the ring is white. -/
def Obligations.FoldSlotsDeclaredAndControlled : Prop :=
  ((∀ (a b : Reg) (wa wb : Bool) (f : InstrInfo) (bytes : List Byte) (p : Partition) (s u v : State),
     frameOf (.fdecl a b wa wb) = some f → MayIssue f s → Readable s a → Readable s b → (curCtx s).await ≠ .quantum →
     regVal s b ≠ 0 → readRecord (curAgent s) (curWaiter s) (regVal s b) s = .ok bytes u →
     checkPool (curAgent s) bytes u = .ok () v → partAt v (corePart v.core) = some p → quantumRules p = false →
     let n := (regVal s a).toNat
     n ≤ 15 →
     (declOf p n ≠ none → exec (.fdecl a b wa wb) s = .next (halt (.trap 0x13 (regVal s a) 0x20) v)) ∧
     (declOf p n = none → declReason bytes = none →
       ∃ t q, exec (.fdecl a b wa wb) s = .next t ∧ partAt t p.tag = some q ∧ (curCtx t).pc = (curCtx v).pc + 4 ∧
         declOf q n = some (parseDecl bytes n (runLaunch v) ((v.core.run.map (fun r => r.rcd.lsize)).getD 0)) ∧
         (∀ k, k ≠ n → declOf q k = declOf p k) ∧ t.clusters = v.clusters)) ∧
   (∀ (a b : Reg) (wa wb : Bool) (f : InstrInfo) (d : Decl) (p : Partition) (s : State),
     frameOf (.fdecl a b wa wb) = some f → MayIssue f s → Readable s a → Readable s b → (curCtx s).await ≠ .quantum →
     regVal s b = 0 → partAt s (corePart s.core) = some p → quantumRules p = false → (regVal s a).toNat ≤ 15 →
     declOf p (regVal s a).toNat = some d → d.launch = runLaunch s →
     (slotEmpty s p d = false → exec (.fdecl a b wa wb) s = .next (halt (.trap 0x13 (regVal s a) 0x30) s)) ∧
     (slotEmpty s p d = true →
       ∃ t q, exec (.fdecl a b wa wb) s = .next t ∧ partAt t p.tag = some q ∧ (curCtx t).pc = (curCtx s).pc + 4 ∧
         q.decls = p.decls.filter (fun d => d.slot != (regVal s a).toNat)))) ∧
  ((∀ (a b : Reg) (wa wb : Bool) (f : InstrInfo) (d : Decl) (p : Partition) (s : State), frameOf (.fthr a b wa wb) = some f →
     MayIssue f s → Readable s a → Readable s b → (curCtx s).await ≠ .quantum → partAt s (corePart s.core) = some p →
     quantumRules p = false → (regVal s a).toNat ≤ 15 → declOf p (regVal s a).toNat = some d →
     exec (.fthr a b wa wb) s = .next (completes f
       { s with thrs := s.thrs ++ (ringOf p).map (fun cl => (p.tag, d.slot, cl, (regVal s b).truncate 32)) })) ∧
   (∀ (a b : Reg) (wa wb : Bool) (f : InstrInfo) (d : Decl) (p : Partition) (s : State), frameOf (.fquiet a b wa wb) = some f →
     MayIssue f s → Readable s a → Readable s b → (curCtx s).await ≠ .quantum → partAt s (corePart s.core) = some p →
     quantumRules p = false → (regVal s b).toNat % 64 = 0 → (regVal s a).toNat ≤ 15 →
     declOf p (regVal s a).toNat = some d →
     (p.tops.any (fun t => t.slot == d.slot) = true → exec (.fquiet a b wa wb) s = .next (halt (.trap 0x13 (regVal s a) 0x90) s)) ∧
     (p.tops.any (fun t => t.slot == d.slot) = false →
       ∃ t, exec (.fquiet a b wa wb) s = .next t ∧ (curCtx t).pc = (curCtx s).pc + 4 ∧
         partAt t p.tag = some { p with tops := p.tops ++
           [⟨d.slot, (ringOf p).headD 0, false, regVal s b, false, false, runLaunch s, runDet s⟩] } ∧
         (∀ cl ∈ ringOf p, (slotStateOf (clusterAt t cl) p.tag d).black = false ∧ (clusterAt t cl).fold = (clusterAt s cl).fold))))

/-- R351, R356, R358: fpost of a key word of a declared slot with bits 63 to 44 zero, where no quantum rules apply: outside a
transaction, with the earlier accesses of its context performed as far as the home, the post is sent to its home, and d, unless s0,
is interlocked until the answer; inside one, to a home in the own cluster with fewer than 8 posts held, it is held and d is 4. An
undeclared slot traps with cause 0x13 and reason 7.
R352: an fpostv that heads the vector engine, has posted every element and waits for no more answers writes the counts of its
statuses to d, 16 bits each, leaves the engine and completes (the engine's stages are the model's, log entry 31). -/
def Obligations.PostsAreSent : Prop :=
  (∀ (d a b : Reg) (wa wb : Bool) (f : InstrInfo) (p : Partition) (s : State), frameOf (.fpost d a b wa wb) = some f →
     MayIssue f s → Readable s a → Readable s b → Writable s d → (curCtx s).await ≠ .quantum →
     partAt s (corePart s.core) = some p → quantumRules p = false →
     let kw := regVal s a
     (declOf p (bitsOf kw 43 40) = none → exec (.fpost d a b wa wb) s = .next (halt (.trap 0x13 kw 0x70) s)) ∧
     (∀ e, declOf p (bitsOf kw 43 40) = some e → bitsOf kw 63 44 = 0 →
       let home := foldHome p e (bitsOf kw 39 0) (clusterOf s.core.phys)
       let q : Post := ⟨corePart s.core, e.slot, bitsOf kw 39 0, (regVal s b).truncate 32, home, s.core.phys, curIdx s,
         if d = 0 then none else some d⟩
       (inTxn s (curAgent s) = false → Settled s (clusterScope (clusterOf s.core.phys) home) →
         ∃ t, exec (.fpost d a b wa wb) s = .next t ∧ t.posts = s.posts ++ [q] ∧ (curCtx t).pc = (curCtx s).pc + 4 ∧
           (d ≠ 0 → regLocked t d = true) ∧ SameRegs [] s t ∧ t.mem = s.mem ∧ t.core.allocs = s.core.allocs) ∧
       (∀ x, s.core.txn = some x → inTxn s (curAgent s) = true → home = clusterOf s.core.phys → x.posts.length < 8 →
         ∃ t, exec (.fpost d a b wa wb) s = .next t ∧ t.core.txn = some { x with posts := x.posts ++ [q] } ∧
           t.posts = s.posts ∧ regVal t d = (if d = 0 then 0 else 4) ∧ (curCtx t).pc = (curCtx s).pc + 4 ∧ SameRegs [d] s t))) ∧
  (∀ (d a b : Reg) (wa wb : Bool) (f : InstrInfo) (q : VxOp) (rest : List VxOp) (s : State),
     frameOf (.fpostv d a b wa wb) = some f → MayIssue f s → underQuantum s = false ∨ inTxn s (curAgent s) = true →
     s.core.vxq = q :: rest → q.vrec.ctx = curIdx s → q.passed = false → groupRange q (countOf (recOr q.recs 0).ext) = [] →
     countOf (recOr q.recs 0).ext ≤ (q.vrec.group + 1) * 64 → (d ≠ 0 → owedTo s s.core.phys (curIdx s) d = false) →
     let v := BitVec.ofNat 64 (countSt q 0 + countSt q 1 * 2 ^ 16 + countSt q 2 * 2 ^ 32 + countSt q 3 * 2 ^ 48)
     exec (.fpostv d a b wa wb) s = .next (completes f (vecDrop (curIdx s) (setReg d v s))))

/-- R344, R345, R353: fdrain and fpeek of a mask of declared slots, where no quantum rules apply, choose the eligible entry of the own
cluster's store that a take chooses; its key word and its value, extended as its operator says, are on their way to d and d + 1, and
fdrain removes it. With no such entry they deliver all ones and 0. A mask of 0 or from 2^16 on traps with cause 0x13 and reason 1.
R354: fcount writes the item of its selector to d: entries, eligible entries, valid entries of the partition, spill records,
refusals, live event tasks, or 1 while a Top runs; a selector with a bit above 7 or an item of 7 or more traps with cause 0x13 and
reason 1. -/
def Obligations.TakesAndCounts : Prop :=
  (∀ (d a : Reg) (w take : Bool) (f : InstrInfo) (p : Partition) (s : State),
     let i : Instr := if take then .fdrain d a w else .fpeek d a w
     frameOf i = some f → MayIssue f s → Readable s a → Writable s d → Writable s (nextReg d) → (curCtx s).await ≠ .quantum →
     partAt s (corePart s.core) = some p → quantumRules p = false →
     let mask := regVal s a
     let slots := (List.range 16).filter (fun n => mask.getLsbD n)
     let deliver := fun (k v : Word) (t : State) => produce (nextReg d) v 0 false (produce d k 0 false t)
     (mask = 0 ∨ 2 ^ 16 ≤ mask.toNat → exec i s = .next (halt (.trap 0x13 mask 0x10) s)) ∧
     (mask ≠ 0 → mask.toNat < 2 ^ 16 → (∀ n ∈ slots, declOf p n ≠ none) →
       (chooseEntry (clusterAt s (clusterOf s.core.phys)) p slots = none →
         exec i s = .next (completes f (deliver (BitVec.allOnes 64) 0 s))) ∧
       (∀ e x, chooseEntry (clusterAt s (clusterOf s.core.phys)) p slots = some e → declOf p e.slot = some x →
         let v := if [1, 4, 5, 8, 9].contains x.op then e.value.signExtend 64 else e.value.zeroExtend 64
         exec i s = .next (completes f (deliver (BitVec.ofNat 64 (e.slot * 2 ^ 40 + e.key)) v
           (if take then sweepPart p.tag (takeEntry s.core.phys e s) else s)))))) ∧
  (∀ (d a : Reg) (w : Bool) (f : InstrInfo) (p : Partition) (s : State), frameOf (.fcount d a w) = some f → MayIssue f s →
     Readable s a → Writable s d → partAt s (corePart s.core) = some p →
     let sel := regVal s a
     let item := bitsOf sel 7 4
     let c := clusterAt s (clusterOf s.core.phys)
     (sel.toNat ≥ 256 ∨ 7 ≤ item → exec (.fcount d a w) s = .next (halt (.trap 0x13 sel 0x10) s)) ∧
     (sel.toNat < 256 → item = 2 →
       exec (.fcount d a w) s = .next (completes f (setReg d (BitVec.ofNat 64 (c.fold.filter (fun e => e.part == corePart s.core)).length) s))) ∧
     (∀ x, sel.toNat < 256 → item < 7 → item ≠ 2 → declOf p (bitsOf sel 3 0) = some x →
       let k := slotStateOf c p.tag x
       let mine := c.fold.filter (fun e => e.part == p.tag && e.slot == x.slot)
       let v := match item with
         | 0 => mine.length
         | 1 => (mine.filter (fun e => thrMag x.op k.thr ≤ foldMag x.op e.value)).length
         | 3 => k.tail - k.head
         | 4 => k.refusals
         | 5 => k.live.length
         | _ => if p.tops.any (fun t => t.slot == x.slot) then 1 else 0
       exec (.fcount d a w) s = .next (completes f (setReg d (BitVec.ofNat 64 v) s))))

/-- R345: which entry a take chooses: one of the chosen slots that is eligible, and none of the eligible entries of these slots goes
before it (a greater magnitude, then a smaller key, then a lower slot); with no eligible entry there is none. -/
def Obligations.TakeChoosesGreatest : Prop :=
  ∀ (c : Cluster) (p : Partition) (slots : List Nat),
    let cand := fun (e : FoldEntry) (d : Decl) =>
      e ∈ c.fold ∧ slots.contains e.slot = true ∧ declOf p e.slot = some d ∧ eligible c p.tag d e = true
    (chooseEntry c p slots = none ↔ ∀ e d, ¬ cand e d) ∧
    (∀ e, chooseEntry c p slots = some e → ∃ d, cand e d ∧
      ∀ e' d', cand e' d' →
        foldMag d'.op e'.value < foldMag d.op e.value ∨
          (foldMag d'.op e'.value = foldMag d.op e.value ∧
            (e.key < e'.key ∨ (e.key = e'.key ∧ e.slot ≤ e'.slot))))

/-- R304, R308: msend of a selector in range, to a core that is there and outside the quantum rules, whose body can be read and whose
earlier accesses are performed as far as the target, sends the message and stands at the instruction; once its answer has come it
writes the status to d and completes.
R436: one that the target refused, because the ring is another partition's, traps with cause 0x09 and EINFO 20 (EVAL s[a] is the
model's choice, log entry 108).
R304 to R306, R436, R445: outside the quantum rules a message whose flow has nothing before it is answered 2 where its target has no ring
open under its number, refused with black-box record 0x00A where the ring is another partition's, answered 1 where there is no room,
and 0 where it is placed: then the ring's TAIL has moved behind it, past what a skip header covers, and the sender's next message has the
next sequence number. -/
def Obligations.MessagesGo : Prop :=
  ((∀ (d a b : Reg) (wa wb : Bool) (f : InstrInfo) (p : Partition) (phys : Nat) (body : List Byte) (s u : State),
     frameOf (.msend d a b wa wb) = some f → MayIssue f s → (curCtx s).await = .nothing →
     Readable s a → Readable s b → Writable s d → partAt s (corePart s.core) = some p → quantumRules p = false →
     let sel := regVal s a
     let n := bitsOf sel 40 32
     let target := bitsOf sel 31 16
     (bitsOf sel 15 3 ≠ 0 ∨ bitsOf sel 63 41 ≠ 0 ∨ n = 0 ∨ 248 < n ∨ p.ranks.length ≤ target →
       exec (.msend d a b wa wb) s = .next (halt (.trap 0x09 sel 3) s)) ∧
     (bitsOf sel 15 3 = 0 → bitsOf sel 63 41 = 0 → 1 ≤ n → n ≤ 248 → target < p.ranks.length → physOf p target = some phys →
       readMem (curAgent s) (curWaiter s) .load (regVal s b) n s = .ok body u → Settled u (Machine.scopeOf s.core.phys phys) →
       u.core.phys = s.core.phys → curIdx u = curIdx s →
       ∃ t, exec (.msend d a b wa wb) s = .next t ∧ (curCtx t).await = .message ∧ (curCtx t).pc = (curCtx u).pc ∧
         t.msgs = u.msgs ++ [⟨flowNext u (corePart s.core) s.core.phys target, corePart s.core, u.core.lcore.toNat, target,
           bitsOf sel 1 0, sel.getLsbD 2, body, s.core.phys, curIdx s, none⟩])) ∧
   (∀ (d a b : Reg) (wa wb : Bool) (f : InstrInfo) (st : Nat) (s : State), frameOf (.msend d a b wa wb) = some f →
     MayIssue f s → (curCtx s).await = .messageDone st →
     (st ≠ 3 → Writable s d → exec (.msend d a b wa wb) s = .next (completes f (setReg d (BitVec.ofNat 64 st) s))) ∧
     (st = 3 → Readable s a → exec (.msend d a b wa wb) s = .next (halt (.trap 0x09 (regVal s a) 20) s)))) ∧
  (∀ (n phys : Nat) (m : Msg) (s : State), s.msgs[n]? = some m → (partAt s m.part).any quantumRules = false →
     messageDue s m = some phys →
     let i : Fin 4 := Fin.ofNat 4 m.ring
     let answered := fun (st : Nat) => s.msgs.set n { m with answer := some st }
     ((coreAt s phys).rings.get i = none → exec (.messagePlacement n) s = .next { s with msgs := answered 2 }) ∧
     (∀ r, (coreAt s phys).rings.get i = some r → r.part ≠ m.part →
       exec (.messagePlacement n) s = .next
         { record (dieOf phys) 0x00A m.part phys (BitVec.ofNat 64 m.target) (BitVec.ofNat 64 m.ring) s with msgs := answered 3 }) ∧
     (∀ (r : Ring) (a : Alloc), (coreAt s phys).rings.get i = some r → r.part = m.part → MemoriesCanonical s →
       allocOf (coreAt s phys) r.part r.gid = some a → r.cb % 64 = 0 →
       let place := placeIn (ringSize a.mem r.cb) (ringHead a.mem r.cb) (ringTail a.mem r.cb) (8 + paddedLen m.body.length)
       (place = none → ∃ t, exec (.messagePlacement n) s = .next t ∧ t.msgs = answered 1 ∧
         ringTail (ringMem (coreAt t phys) r) r.cb = ringTail a.mem r.cb ∧
         lsDword (ringMem (coreAt t phys) r) (r.cb + 48) % 2 ^ 32 = (lsDword a.mem (r.cb + 48) + 1) % 2 ^ 32) ∧
       (∀ skip, place = some skip → ∃ t, exec (.messagePlacement n) s = .next t ∧ t.msgs = answered 0 ∧
         ringTail (ringMem (coreAt t phys) r) r.cb = (ringTail a.mem r.cb + skip + 8 + paddedLen m.body.length) % 2 ^ 32 ∧
         ∃ q, (coreAt t phys).rings.get i = some q ∧ seqOf q m.src = seqOf r m.src + 1)))

/-- R302, R303: mtake operation 1 of a control block that may open a ring opens one of the task's group, with HEAD, TAIL and the
refusals zero; one that may not traps with cause 0x0B and EVAL its address, and where the ring is open already, with cause 0x09 and
EINFO 1. Operation 0 moves HEAD of an own ring behind n messages that are there, at once outside the quantum rules and at the quantum
end under them; it traps with cause 0x0B and EVAL n for an n outside 1 to 2^16 or more than there are. Operation 2 closes an own ring,
and what its arrivals asked of helpers goes. A ring that is not open, or not of the task's group, traps in operations 0 and 2 with
cause 0x09 and EINFO 2; a selector with a bit above 3, or operation 3, with cause 0x09, EVAL the selector and EINFO 3. That a take is
checked at its issue, and EVAL n, are by inference (log entries 52, 94); that nonzero reserved bits of a control block do nothing is the
model's choice (log entry 93). -/
def Obligations.RingsAreTaken : Prop :=
  ∀ (a b : Reg) (wa wb : Bool) (f : InstrInfo) (s : State), frameOf (.mtake a b wa wb) = some f → MayIssue f s →
    Readable s a → Readable s b →
    let i : Instr := .mtake a b wa wb
    let sel := regVal s a
    let v := regVal s b
    let k : Fin 4 := Fin.ofNat 4 (bitsOf sel 1 0)
    (bitsOf sel 63 4 ≠ 0 ∨ bitsOf sel 3 2 = 3 → exec i s = .next (halt (.trap 0x09 sel 3) s)) ∧
    (bitsOf sel 63 4 = 0 → (bitsOf sel 3 2 = 0 ∨ bitsOf sel 3 2 = 2) → ownRing s k = none →
      exec i s = .next (halt (.trap 0x09 0 2) s)) ∧
    (∀ (r : Running) (al : Alloc), bitsOf sel 63 4 = 0 → bitsOf sel 3 2 = 1 → Plain s → MemoriesCanonical s →
      s.core.run = some r → allocOf s.core r.part r.gid = some al →
      (ringBlockOk al v = false → exec i s = .next (halt (.trap 0x0B v 0) s)) ∧
      (ringBlockOk al v = true → s.core.rings.get k ≠ none → exec i s = .next (halt (.trap 0x09 0 1) s)) ∧
      (ringBlockOk al v = true → s.core.rings.get k = none →
        ∃ t, exec i s = .next t ∧ (curCtx t).pc = (curCtx s).pc + 4 ∧
          ∃ g, t.core.rings.get k = some g ∧ g.cb = v.toNat % 2 ^ 48 ∧ g.part = r.part ∧ g.gid = r.gid ∧ g.seqs = [] ∧
            ringHead (ringMem t.core g) g.cb = 0 ∧ ringTail (ringMem t.core g) g.cb = 0 ∧
            lsDword (ringMem t.core g) (g.cb + 48) % 2 ^ 32 = 0)) ∧
    (∀ (r : Ring), bitsOf sel 63 4 = 0 → bitsOf sel 3 2 = 0 → ownRing s k = some r →
      let m := ringMem s.core r
      let there := passMessages m r.cb (v.toNat + heldConsumes s.core r.part k) (ringHead m r.cb) (ringUsed m r.cb)
      (v = 0 ∨ 2 ^ 16 < v.toNat ∨ there = none → exec i s = .next (halt (.trap 0x0B v 0) s)) ∧
      (v ≠ 0 → v.toNat ≤ 2 ^ 16 → there ≠ none → (partAt s r.part).any quantumRules = true →
        exec i s = .next (completes f (holdReq s.core.phys (.mtake k v.toNat) s))) ∧
      (∀ (h : Nat) (al : Alloc), v ≠ 0 → v.toNat ≤ 2 ^ 16 → there ≠ none → (partAt s r.part).any quantumRules = false →
        MemoriesCanonical s → allocOf s.core r.part r.gid = some al → (r.cb + 32) % 64 + 4 ≤ 64 →
        passMessages m r.cb v.toNat (ringHead m r.cb) (ringUsed m r.cb) = some h →
        ∃ t, exec i s = .next t ∧ (curCtx t).pc = (curCtx s).pc + 4 ∧ ringHead (ringMem t.core r) r.cb = h ∧
          ringTail (ringMem t.core r) r.cb = ringTail m r.cb)) ∧
    (∀ (r : Ring), bitsOf sel 63 4 = 0 → bitsOf sel 3 2 = 2 → ownRing s k = some r →
      ∃ t, exec i s = .next t ∧ (curCtx t).pc = (curCtx s).pc + 4 ∧ t.core.rings.get k = none ∧
        t.core.hreqs = s.core.hreqs.filter (fun q => q.origin != HelperOrigin.arrival k) ∧ SameRegs [] s t ∧ SameElsewhere s t)

/-- R309, R311: nred on a valid tree of which the core is a leaf: with an address of 0 it writes 2; with a contribution of the core
still outstanding it writes 1, but in deterministic mode it stands at the instruction, and ends the quantum where the quantum rules
apply; else it contributes its vector to the core's next round and writes 0. A tree that has failed traps with the tree's cause and
EVAL its number; a tree that is absent or not valid, an operation above 2, and a core that is no leaf with cause 0x09 and EVAL the
selector; a record that is misaligned or ill-formed with cause 0x0C.
R309, R310: outside the quantum rules a core's round on a tree completes once every leaf has contributed and all agree: the result
is written over its vector, its contribution leaves, and its completion word, if it has one, is decremented; a disagreement fails the
tree with cause 0x0C. While a leaf is missing nothing changes. A result waits while its core is being replaced (R379), a channel owns a
line of the vector (R263) or the host may hold one (R442). A hold that passes only marks that a router has forwarded.
That the vector is checked as a load that needs R and W, that the record is read before the busy check, and EVAL 0 of a bad record are by
inference (log entries 51, 94). -/
def Obligations.TreesReduce : Prop :=
  (∀ (d a b : Reg) (wa wb : Bool) (f : InstrInfo) (p : Partition) (s : State), frameOf (.nred d a b wa wb) = some f →
     MayIssue f s → Readable s a → Readable s b → Writable s d → partAt s (corePart s.core) = some p →
     let i : Instr := .nred d a b wa wb
     let sel := regVal s a
     let addr := regVal s b
     (treeAt p (bitsOf sel 2 0) = none → exec i s = .next (halt (.trap 0x09 sel 0) s)) ∧
     (∀ x, treeAt p (bitsOf sel 2 0) = some x →
       let ready := bitsOf sel 5 3 ≤ 2 ∧ x.t0.getLsbD 0 = true ∧ x.leaves.contains s.core.lcore.toNat = true
       let out := p.contribs.any (fun c => c.tree == x.idx && c.lcore == s.core.lcore.toNat)
       (¬ ready → exec i s = .next (halt (.trap 0x09 sel 0) s)) ∧
       (ready → bitsOf x.t0 15 8 ≠ 0 →
         exec i s = .next (halt (.trap (BitVec.ofNat 8 (bitsOf x.t0 15 8)) (BitVec.ofNat 64 x.idx) 0) s)) ∧
       (ready → bitsOf x.t0 15 8 = 0 → addr = 0 → exec i s = .next (completes f (setReg d 2 s))) ∧
       (ready → bitsOf x.t0 15 8 = 0 → addr.toNat % 64 ≠ 0 → exec i s = .next (halt (.trap 0x0C 0 0) s)) ∧
       (∀ bytes u, ready → bitsOf x.t0 15 8 = 0 → addr ≠ 0 → addr.toNat % 64 = 0 →
         fetchRecord (curAgent s) (curWaiter s) 0 addr nredRecordOk (fun _ => true) s = .ok (bytes, false) u →
         exec i s = .next (halt (.trap 0x0C 0 0) u)) ∧
       (∀ bytes ps u v, ready → bitsOf x.t0 15 8 = 0 → addr ≠ 0 → addr.toNat % 64 = 0 →
         fetchRecord (curAgent s) (curWaiter s) 0 addr nredRecordOk (fun _ => true) s = .ok (bytes, true) u →
         vectorPieces (curAgent s) (parseShape bytes) u = .ok ps v →
         (out = true → detMode s = false → exec i s = .next (completes f (setReg d 1 v))) ∧
         (out = true → detMode s = true → exec i s = .next (standStill true
           (if quantumRules p = true then onCore s.core.phys (fun c => { c with atBarrier := true }) v else v))) ∧
         (∀ w z es y, out = false → performMeeting (curAgent s) ps v = .ok () w →
           checkBad false ps (reachPieces (curAgent s) ps w) = .ok () z → pieceEntries (curAgent s) ps z = .ok es y →
           let data := ps.flatMap (fun q => placeBytes y s.core.phys q.cacheable q.place q.len)
           exec i s = .next (completes f (setReg d 0 (contribute s.core.phys p x
             ⟨x.idx, s.core.lcore.toNat, roundOf x s.core.lcore.toNat, bitsOf sel 5 3, (parseShape bytes).fmt,
               vectorElems (parseShape bytes).fmt data, ps.map (fun q => (q.place, q.cacheable, q.len)), es,
               sel &&& ~~~0x3F#64, runLaunch y, runDet y⟩ y))))))) ∧
  ((∀ (core l tree : Nat) (p : Partition) (x : Tree) (c : Contribution) (s : State), partAt s (corePart (coreAt s core)) = some p →
     quantumRules p = false → lcoreOf p core = some l → physOf p l = some core → treeAt p tree = some x →
     p.contribs.find? (fun k => k.tree == tree && k.lcore == l) = some c →
     let e : Instr := .nredRoundComplete core tree
     ((∃ k ∈ p.contribs, k.tree = tree ∧ k.round = c.round ∧ k.agrees c = false) →
       exec e s = .next (failTree true p.tag tree 0x0C s)) ∧
     ((∀ k ∈ p.contribs, k.tree = tree → k.round = c.round → k.agrees c = true) →
       (roundResult p x c.round = none → exec e s = .next s) ∧
       (∀ v, roundResult p x c.round = some v → deliveryWaits s p.tag core c = true → exec e s = .next (askHosts c s)) ∧
       (∀ v, roundResult p x c.round = some v → deliveryWaits s p.tag core c = false →
         let w := writeResult core p.tag c v s
         let gone := onPart p.tag (fun q => { q with contribs := q.contribs.filter (fun k => !(k.tree == tree && k.lcore == l)) }) w
         let done := if c.word = 0 then gone
           else sweepPart p.tag (runHw (hwDecrement p.tag c.launch (clusterOf core) core c.det c.word) gone)
         (∀ q, partAt done p.tag = some q → exec e s = .next (keepResult q tree c.round v done)) ∧
         (partAt done p.tag = none → exec e s = .next done)))) ∧
   (∀ (part tree : Nat) (p : Partition) (x : Tree) (s : State), partAt s part = some p → treeAt p tree = some x →
     (∃ k ∈ p.contribs, k.tree = tree) →
     ∃ t q, exec (.treeHoldExpiry part tree) s = .next t ∧ partAt t part = some q ∧
       treeAt q tree = some { x with forwarded := true } ∧ q.contribs = p.contribs ∧ t.mem = s.mem))

/-- R283, R284, R294, R295, R297: with no command in the core's copy queue the engine performs a cpy at once: the channel's count goes to
0, its work is stopped, the pair of shape records is read, and the copy starts: with its destination lines claimed the channel runs
the pair. It performs a cpyc so too: at a transfer record with OWN 0 the channel parks, and one with OWN 1 starts; a channel parked at
that record goes on with its count. A record that fails its checks traps, with EVAL 0 for cause 0x0C (log entry 94), and a pair whose
records do not conform traps with cause 0x0C and the address of the source record (R419), each in the order of log entry 36. When the
engine takes a command, and what nonzero reserved bits of a transfer record do, are the model's choice (log entries 37, 82). With three commands in the queue and none of
the context there, each waits at its instruction.
R284, R298: cstop with an empty queue stops its channel, whatever its state: it is idle with no record in progress and owns no line,
and a transfer record in progress gets its DONE (where it is written is by inference, log entry 15); behind two commands or fewer it
joins the queue. Either way it completes.
R375 to R378: tsfence waits while a command of the core has a record to read; then the earlier stores of its context are performed and no
record is left in the core's record cache; tsdim writes the extent of its dimension, 1 at or above RANK, to
d, from the record cache or from memory; a misaligned address traps with cause 0x05, a record that fails the rules that a record must
meet by itself, one with a rank, space or format that is not one among them, with cause 0x0C (log entries 18 and 94). -/
def Obligations.CopiesAndRecords : Prop :=
  ((∀ (ch : Fin 4) (a b : Reg) (wa wb : Bool) (f : InstrInfo) (s : State), frameOf (.cpy ch a b wa wb) = some f →
     MayIssue f s → Readable s a → Readable s b → s.core.copyq = [] →
     let i : Instr := .cpy ch a b wa wb
     let phys := s.core.phys
     let q : CopyCmd := .cpy (curIdx s) ch (regVal s a) (regVal s b)
     let pair := readPair (curAgent s) (curWaiter s) none (regVal s a) (regVal s b)
       (stopChannel phys ch (onChan phys ch (fun k => { k with wp := 0 }) s))
     (∀ c v e u, pair = .error (.trap c v e) u → exec i s = .next (halt (.trap c (if c = 0x0C then 0 else v) e) (leaveCopy q u))) ∧
     (∀ j u, pair = .ok j u → pairOk j.dst j.src = false →
       exec i s = .next (halt (.trap 0x0C j.srcAddr 0) (leaveCopy q u))) ∧
     (∀ j u, pair = .ok j u → pairOk j.dst j.src = true →
       (∃ t, startJob phys ch j u = .ok () t ∧ exec i s = .next (completes f (leaveCopy q t))) ∧
       (∀ l w, ownLines phys ch j j.done
           (onChan phys ch (fun k => { k with state := .running, cause := 0, job := some j, rcd := (j.rcd.map Transfer.addr).getD 0, await := .nothing }) u) = .ok l w →
         exec i s = .next (completes f (leaveCopy q (onChan phys ch (fun k => { k with job := some { j with todo := l } }) w)))))) ∧
   (∀ (ch : Fin 4) (a : Reg) (w : Bool) (f : InstrInfo) (s : State), frameOf (.cpyc ch a w) = some f →
     MayIssue f s → Readable s a → s.core.copyq = [] →
     let i : Instr := .cpyc ch a w
     let phys := s.core.phys
     let k := s.core.chans[ch]
     let head := regVal s a
     let again := k.state == .parked && k.rcd == head
     let q : CopyCmd := .cpyc (curIdx s) ch head again
     let rcd := readTransfer (curAgent s) (curWaiter s) head
       (if again = true then s else stopChannel phys ch (onChan phys ch (fun k => { k with wp := 0 }) s))
     (∀ c v e u, rcd = .error (.trap c v e) u → exec i s = .next (halt (.trap c (if c = 0x0C then 0 else v) e)
       (leaveCopy q (onChan phys ch (fun k => { k with state := .idle, rcd := 0, cause := 0 }) u)))) ∧
     (∀ u, rcd = .ok none u →
       exec i s = .next (completes f (leaveCopy q (onChan phys ch (fun k => { k with state := .parked, rcd := head, cause := 0 }) u)))) ∧
     (∀ j u, rcd = .ok (some j) u → pairOk j.dst j.src = false → exec i s = .next (halt (.trap 0x0C j.srcAddr 0)
       (leaveCopy q (onChan phys ch (fun k => { k with state := .idle, rcd := 0, cause := 0 }) u)))) ∧
     (∀ j u, rcd = .ok (some j) u → pairOk j.dst j.src = true →
       ∃ t, startJob phys ch j u = .ok () t ∧ exec i s = .next (completes f (leaveCopy q t)))) ∧
   (∀ (ch : Fin 4) (a b : Reg) (wa wb chain : Bool) (f : InstrInfo) (s : State),
     let i : Instr := if chain then .cpyc ch a wa else .cpy ch a b wa wb
     frameOf i = some f → MayIssue f s → Readable s a → Readable s b → s.core.copyq.length = 3 →
     s.core.copyq.head?.any CopyCmd.isStop = false → (∀ q ∈ s.core.copyq, q.holder ≠ some (curIdx s)) →
     exec i s = .next (standStill false s))) ∧
  (∀ (ch : Fin 4) (f : InstrInfo) (s : State), frameOf (.cstop ch) = some f → MayIssue f s →
     (s.core.copyq = [] →
       exec (.cstop ch) s = .next (completes f (leaveCopy (.cstop (curIdx s) ch) (stopChannel s.core.phys ch s))) ∧
       ((s.core.chans[ch]).job = none →
         ∃ t, exec (.cstop ch) s = .next t ∧ (curCtx t).pc = (curCtx s).pc + 4 ∧ (t.core.chans[ch]).state = .idle ∧
           (t.core.chans[ch]).job = none ∧ (t.core.chans[ch]).wp = (s.core.chans[ch]).wp ∧
           (∀ o ∈ t.owned, ¬ (o.2.1 = s.core.phys ∧ o.2.2 = ch.val)) ∧ SameRegs [] s t ∧ SameBytes s t) ∧
       (∀ j r, (s.core.chans[ch]).job = some j → j.rcd = some r →
         exec (.cstop ch) s = .next (completes f (leaveCopy (.cstop (curIdx s) ch)
           (oweTransfer s.core.phys ⟨corePart s.core, r.addr, 48, BitVec.ofNat 64 j.done⟩ (haltChannel s.core.phys ch s)))))) ∧
     (∀ q rest, s.core.copyq = q :: rest → q.isStop = false → rest.length < 2 → (∀ x ∈ s.core.copyq, x.holder ≠ some (curIdx s)) →
       .cstop (curIdx s) ch ∉ s.core.copyq →
       exec (.cstop ch) s = .next (completes f
         { s with core := { s.core with copyq := s.core.copyq ++ [.cstop (curIdx s) ch] } }))) ∧
  ((∀ (f : InstrInfo) (s : State), frameOf .tsfence = some f → MayIssue f s →
     (recordsDue s.core = true → exec .tsfence s = .next (standStill false s)) ∧
     (∀ t, recordsDue s.core = false → performOwn (curAgent s) s = .ok () t →
       exec .tsfence s = .next (completes f { t with core := { t.core with recs := [] } }))) ∧
   (∀ (d a : Reg) (dim : Fin 4) (w : Bool) (f : InstrInfo) (s : State), frameOf (.tsdim d a dim w) = some f → MayIssue f s →
     Readable s a → Writable s d →
     let i : Instr := .tsdim d a dim w
     ((regVal s a).toNat % 64 ≠ 0 → exec i s = .next (halt (.trap 0x05 (regVal s a) 0) s)) ∧
     (∀ bytes ok u, (regVal s a).toNat % 64 = 0 →
       fetchRecord (curAgent s) (curWaiter s) 0 (regVal s a) shapeOk (fun _ => true) s = .ok (bytes, ok) u →
       let rank := leNat (slice bytes 9 1)
       let legal := 1 ≤ rank ∧ rank ≤ 4 ∧ leNat (slice bytes 10 1) ≤ 3 ∧ leNat (slice bytes 8 1) < 15
       (¬ legal → exec i s = .next (halt (.trap 0x0C (regVal s a) 0) u)) ∧
       (shapeOk bytes = false → exec i s = .next (halt (.trap 0x0C (regVal s a) 0) u)) ∧
       (shapeOk bytes = true → exec i s = .next (completes f
         (setReg d (BitVec.ofNat 64 (if dim.val < rank then leNat (slice bytes (16 + 4 * dim.val) 4) else 1)) u))))))

/-- R136, R142, R283, R284: mzero of an accumulator that no unfinished instruction names, with no entry of the slice's command queue
taken, zeroes it and its step counts, and leaves the other three. Else it takes one of four places behind the unfinished instructions
and an entry of the queue, where both are free, and the accumulator is as it was; in both cases it completes. With none free its
context waits at it. When the engine takes an entry is the model's choice (log entry 37). -/
def Obligations.AccumulatorsZeroed : Prop :=
  ∀ (x : Fin 4) (f : InstrInfo) (s : State), frameOf (.mzero x) = some f → MayIssue f s →
    let now := accBusy s s.core.phys x = false ∧ unbegun s s.core.phys = 0
    (now →
      ∃ t, exec (.mzero x) s = .next t ∧ (curCtx t).pc = (curCtx s).pc + 4 ∧
        (∀ (r : Fin 32) (c : Fin 16), ((t.core.acc.get x).get r).get c = 0) ∧ (∀ r : Fin 32, (t.core.steps.get x).get r = 0) ∧
        (∀ y : Fin 4, y ≠ x → t.core.acc.get y = s.core.acc.get y ∧ t.core.steps.get y = s.core.steps.get y) ∧
        t.core.mxq = s.core.mxq ∧ SameRegs [] s t ∧ SameOthers s t ∧ SameElsewhere s t ∧ SameBytes s t) ∧
    let places := (s.core.mxq.filter (fun q => q.kind != .load && q.kind != .release)).length
    (¬ now → places < 4 → unbegun s s.core.phys < 2 →
      ∃ t q, exec (.mzero x) s = .next t ∧ (curCtx t).pc = (curCtx s).pc + 4 ∧ t.core.mxq = s.core.mxq ++ [q] ∧
        q.kind = .zero ∧ q.acc = x ∧ q.begun = false ∧ t.core.acc = s.core.acc ∧ SameRegs [] s t ∧ SameElsewhere s t) ∧
    (¬ now → (4 ≤ places ∨ 2 ≤ unbegun s s.core.phys) → exec (.mzero x) s = .next (standStill false s))

/-- R28, R140, R141, R146, R283: mld of a record that is a B operand and passes the checks takes an entry of the slice's command queue, if
one is free, and completes; with nothing before it the engine leaves an earlier tile, and fetches and pins the first four K-steps of the
operand: the slice's tile is then the record with these lines. Where the fetch must wait the engine has begun it, and the context goes on; a format
that is emulated changes nothing and completes (log entry 87). mrel takes an entry too; with nothing before it one of the tile's record
address releases it, and one of another address does nothing. With no entry free the context waits.
R135, R136, R147: mdrain of a D record that passes its checks takes one of four places in the slice's queue, and an entry of the
command queue, with all its rows still to be written, its helper's PC and its rounding mode, and completes; the accumulator is as it
was. -/
def Obligations.TilesAndDrains : Prop :=
  ((∀ (a : Reg) (w : Bool) (f : InstrInfo) (bytes : List Byte) (pages : List MxPage) (s u1 u2 v2 u3 u4 : State),
     frameOf (.mld a w) = some f → MayIssue f s → Readable s a → queueFree s s.core.phys = true →
     mxRecord (curAgent s) (curWaiter s) 1 (regVal s a) bRules (fun _ => true) s = .ok (bytes, true) u1 →
     withInfo (mxInfo 0 0 1) (operandPages (curAgent s) (curWaiter s) needR (parseShape bytes)) u1 = .ok pages u2 →
     withInfo (mxInfo 0 0 1) (operandWindow (curAgent s) (parseShape bytes)) u2 = .ok () v2 →
     withInfo (mxInfo 0 0 1) (operandDet (curAgent s) (curWaiter s) .load (parseShape bytes)) v2 = .ok () u3 →
     awaitSpans (curAgent s) (curWaiter s) needR (parseShape bytes) u3 = .ok () u4 →
     let r := parseShape bytes
     let phys := s.core.phys
     let q : MxOp := { bareOp .load 0 with bAddr := regVal s a, b := r, pages := pages, total := r.ext[0] / kstElems r.fmt }
     let alone := onCore phys (fun c => { c with mxq := [{ q with begun := true }] }) u4
     ((pairClass r.fmt r.fmt).any (fun c => c.1) = true → exec (.mld a w) s = .next (completes f u4)) ∧
     ((pairClass r.fmt r.fmt).any (fun c => c.1) = false → exec (.mld a w) s = .next (completes f (mxEnter phys q u4))) ∧
     (∀ v, (pairClass r.fmt r.fmt).any (fun c => c.1) = false → (coreAt u4 phys).mxq = [] →
       (∀ e, loadTile phys q alone = .error e v → exec (.mld a w) s = .next (completes f v)) ∧
       (loadTile phys q alone = .ok () v →
         (∃ pins, (coreAt v phys).tile = some ⟨regVal s a, r, pins, []⟩) ∧
         exec (.mld a w) s = .next (completes f (onCore phys (fun c => settleQueue [] (c.mxq.eraseIdx 0) c) v))))) ∧
   (∀ (a : Reg) (w : Bool) (f : InstrInfo) (s : State), frameOf (.mrel a w) = some f → MayIssue f s → Readable s a →
     let phys := s.core.phys
     let q : MxOp := { bareOp .release 0 with bAddr := regVal s a }
     (queueFree s phys = true → exec (.mrel a w) s = .next (completes f (mxEnter phys q s))) ∧
     (s.core.mxq = [] → s.core.tile.any (fun t => t.addr == regVal s a) = true →
       exec (.mrel a w) s = .next (completes f (onCore phys (fun c => settleQueue [] (c.mxq.eraseIdx 0) c)
         (dropTile phys (onCore phys (fun c => { c with mxq := [{ q with begun := true }] }) s)))) ∧
       ((clusterAt s (clusterOf phys)).refetch = [] →
         ∃ t, exec (.mrel a w) s = .next t ∧ (curCtx t).pc = (curCtx s).pc + 4 ∧ t.core.tile = none ∧ t.core.mxq = [] ∧ SameRegs [] s t ∧
           t.core.acc = s.core.acc ∧ SameBytes s t)) ∧
     (s.core.mxq = [] → s.core.tile.any (fun t => t.addr == regVal s a) = false →
       exec (.mrel a w) s = .next (completes f s))) ∧
   (∀ (i : Instr) (a : Reg) (w : Bool) (f : InstrInfo) (s : State), i = .mld a w ∨ i = .mrel a w → frameOf i = some f →
     MayIssue f s → Readable s a → queueFree s s.core.phys = false → exec i s = .next (standStill false s))) ∧
  (∀ (x : Fin 4) (a b : Reg) (wa wb : Bool) (f : InstrInfo) (bytes : List Byte) (s u v w z : State),
     frameOf (.mdrain x a b wa wb) = some f → MayIssue f s → Readable s a → Readable s b → mxRoom s s.core.phys = true →
     let fmt := (curCtx s).fmt
     mxRecord (curAgent s) (curWaiter s) 4 (regVal s a) dRules (drainFits (hasPfx (curCtx s)) fmt) s = .ok (bytes, true) u →
     let d := parseShape bytes
     (hasPfx (curCtx s) = true → (bitsOf fmt 3 0 = 0 ∨ bitsOf fmt 3 0 = 5) ∧ bitsOf fmt 7 4 = d.fmt) →
     withInfo (mxInfo 0 0 4) (operandWindow (curAgent s) d) u = .ok () v →
     withInfo (mxInfo 0 0 4) (operandDet (curAgent s) (curWaiter s) .store d) v = .ok () w →
     awaitSpans (curAgent s) (curWaiter s) needW d w = .ok () z → z.core.phys = s.core.phys →
     ∃ t q, exec (.mdrain x a b wa wb) s = .next t ∧ (curCtx t).pc = (curCtx z).pc + 4 ∧ t.core.mxq = z.core.mxq ++ [q] ∧
       q.kind = .drain ∧ q.acc = x ∧ q.a = d ∧ q.next = 0 ∧ q.rows = d.ext[1] ∧ q.hpc = regVal s b ∧ q.begun = false ∧
       q.rm = roundMode (curCtx s) ∧ t.core.acc = z.core.acc ∧ hasPfx (curCtx t) = false)

/-- R135, R136, R143, R168, R289: mma.solo of operands that pass the checks of acceptance, with a place and an entry of the command
queue free, is queued on its own core's slice and completes, with its accumulator as it was; an emulated pair makes a request of the
die's control core and waits for its answer; with the answer it completes, and so do mma and mgang.
R135, R285 to R290: mma of operands that are not emulated, with a place and an entry of the command queue and its accumulator free,
enters its row's Nesting buffer; with the checks of acceptance passed it is held in the slice's queue, its member is ready, an entry
that is due dispatches, and it completes.
R34, R144, R145: mgang in a task that is no member of a row group traps with cause 0x0F and EINFO 0x30; in one that is, with the checks
of acceptance passed on operands that are not emulated, it arrives at the barrier of its row and waits there, unless its arrival lets
the gang go or fails it; it completes once the barrier has let its gang go, and traps with cause 0x0F and the gang's code where the gang
has failed; a member that traps at its mgang arrives as failed.
R144, R145: an arrival that is not the sixteenth of its gang, with none marked failed, answers nobody; the sixteenth of members that agree
in the A address and the format lets every member go that waits there; one with a failed member fails every member that is
not answered yet, with 0x10 and the lowest failed rank; one whose members disagree with rank 0 fails them all with 0x20 and the lowest
rank that does. How arrivals are kept is the model's choice (log entry 39). -/
def Obligations.MatrixInstructionsAccepted : Prop :=
  ((∀ (x : Fin 4) (a b : Reg) (wa wb : Bool) (f : InstrInfo) (asa bsa : Word) (q r : MxOp) (s u v : State),
     frameOf (.mmaSolo x a b wa wb) = some f → MayIssue f s → Readable s a → Readable s b →
     scaleRegs wa wb s = .ok (asa, bsa) s → mxRoom s s.core.phys = true → (curCtx s).await = .nothing →
     readOperands (curAgent s) (curWaiter s) .solo x (hasPfx (curCtx s)) (curCtx s).fmt (regVal s a) (regVal s b) asa bsa s = .ok q u →
     (q.emu = false → acceptOperands (curAgent s) (curWaiter s) q u = .ok r v →
       exec (.mmaSolo x a b wa wb) s = .next (completes f (mxOwn s.core.phys r v)) ∧
       (v.core.phys = s.core.phys →
         ∃ t, exec (.mmaSolo x a b wa wb) s = .next t ∧
           t.core.mxq = v.core.mxq ++ [{ r with host := some (s.core.phys, v.core.sliceIds) }] ∧
           t.core.sliceq = v.core.sliceq ++ [⟨v.core.sliceIds, r.prio⟩] ∧ t.core.acc = v.core.acc ∧ hasPfx (curCtx t) = false)) ∧
     (q.emu = true →
       exec (.mmaSolo x a b wa wb) s = .next (standStill false
         (askEmulation ⟨s.core.phys, q, false, false⟩ (setAwait (curWaiter s) .emulation u))))) ∧
   (∀ (x : Fin 4) (a b : Reg) (wa wb : Bool) (f : InstrInfo) (i : Instr) (s : State),
     i = .mmaSolo x a b wa wb ∨ i = .mma x a b wa wb ∨ i = .mgang x a b wa wb →
     frameOf i = some f → MayIssue f s → (curCtx s).await = .emulationDone →
     exec i s = .next (completes f s))) ∧
  (∀ (x : Fin 4) (a b : Reg) (wa wb : Bool) (f : InstrInfo) (asa bsa : Word) (q r : MxOp) (n : Nat) (s u u1 v : State),
     frameOf (.mma x a b wa wb) = some f → MayIssue f s → Readable s a → Readable s b →
     scaleRegs wa wb s = .ok (asa, bsa) s → mxRoom s s.core.phys = true → (curCtx s).await = .nothing →
     readOperands (curAgent s) (curWaiter s) .mma x (hasPfx (curCtx s)) (curCtx s).fmt (regVal s a) (regVal s b) asa bsa s = .ok q u →
     q.emu = false → accBusy u s.core.phys q.acc = false → waitingMember u s.core.phys q.acc = none →
     placeMember s.core.phys
       (nestKey (corePart s.core) (((partAt u (corePart s.core)).map (fun p => p.s1root.toNat)).getD 0) q) q
       (((partAt u (corePart s.core)).map (fun p => p.nhold.toNat)).getD 0) u = (some n, u1) →
     let placed := dispatchDue (clusterOf s.core.phys) u1
     let number := ((waitingMember placed s.core.phys q.acc).map NestMember.number).getD 0
     acceptOperands (curAgent s) (curWaiter s) { q with member := number } placed = .ok r v →
     exec (.mma x a b wa wb) s = .next (completes f (dispatchDue (clusterOf s.core.phys)
       (readyMember s.core.phys r.acc (mxEnter s.core.phys { r with held := true } v))))) ∧
  (∀ (x : Fin 4) (a b : Reg) (wa wb : Bool) (f : InstrInfo) (asa bsa : Word) (s : State), frameOf (.mgang x a b wa wb) = some f →
     MayIssue f s →
     (isRowGroup s s.core.phys = false → (curCtx s).await = .nothing → Readable s a → Readable s b →
       scaleRegs wa wb s = .ok (asa, bsa) s → exec (.mgang x a b wa wb) s = .next (halt (.trap 0x0F 0 0x30) s)) ∧
     ((curCtx s).await = .gangGo → exec (.mgang x a b wa wb) s = .next (completes f s)) ∧
     (∀ e, (curCtx s).await = .gangFail e →
       exec (.mgang x a b wa wb) s = .next (halt (.trap 0x0F 0 e) (setAwait (curWaiter s) .nothing (dropGangOp s.core.phys s)))) ∧
     (isRowGroup s s.core.phys = true → (curCtx s).await = .nothing → Readable s a → Readable s b →
       scaleRegs wa wb s = .ok (asa, bsa) s → mxRoom s s.core.phys = true →
       (∀ c v e u, gangAccept x (curCtx s) (regVal s a) (regVal s b) asa bsa s = .error (.trap c v e) u →
         exec (.mgang x a b wa wb) s = .next (halt (.trap c v e)
           (if isRowGroup u u.core.phys then gangArrive (arrivalOf u u.core.phys 0 none true) u else u))) ∧
       (∀ q u, gangAccept x (curCtx s) (regVal s a) (regVal s b) asa bsa s = .ok q u → q.emu = false →
         let v := gangWait s.core.phys q u
         (awaitOf v (curWaiter s) = .gang → exec (.mgang x a b wa wb) s = .next (standStill true v)) ∧
         (awaitOf v (curWaiter s) = .gangGo →
           exec (.mgang x a b wa wb) s = .next (completes f (setAwait (curWaiter s) .nothing v))) ∧
         (∀ e, awaitOf v (curWaiter s) = .gangFail e → exec (.mgang x a b wa wb) s =
           .next (halt (.trap 0x0F 0 e) (setAwait (curWaiter s) .nothing (dropGangOp v.core.phys v))))))) ∧
  (∀ (a : GangArrival) (s : State),
     let gangs := (clusterAt s (clusterOf a.phys)).gangs
     let round := (gangs.filter (fun g => g.phys == a.phys)).length
     let l := gangs.filter (fun g => g.phys / 16 == a.phys / 16 && g.round == round) ++ [{ a with round := round, answered := a.failed }]
     let t := gangArrive a s
     let waits := fun (u : State) (g : GangArrival) => (ctxOf (coreAt u g.phys) 0).await
     ((∀ g ∈ l, g.failed = false) → l.length < 16 →
       (∀ g : GangArrival, waits t g = waits s g) ∧
       (clusterAt t (clusterOf a.phys)).gangs = gangs ++ [{ a with round := round, answered := a.failed }]) ∧
     ((∀ g ∈ l, g.failed = false) → l.length = 16 → (∀ g ∈ l, ∀ h ∈ l, g.aAddr = h.aAddr ∧ g.pfmt = h.pfmt) →
       ∀ g ∈ l, waits s g = .gang → (∀ q ∈ (coreAt s g.phys).mxq, q.emu = false) → waits t g = .gangGo) ∧
     (∀ x ∈ l, x.failed = true → (∀ g ∈ l, g.failed = true → x.rank ≤ g.rank) →
       ∀ g ∈ l, g.answered = false → waits s g = .gang → waits t g = .gangFail (BitVec.ofNat 64 (0x10 + x.rank * 65536))) ∧
     (∀ z ∈ l, ∀ x ∈ l, (∀ g ∈ l, g.failed = false ∧ g.answered = false) → l.length = 16 → z.rank = 0 → (∀ g ∈ l, g.rank = 0 → g = z) →
       (x.aAddr ≠ z.aAddr ∨ x.pfmt ≠ z.pfmt) →
       (∀ g ∈ l, g.aAddr ≠ z.aAddr ∨ g.pfmt ≠ z.pfmt → x.rank ≤ g.rank) →
       ∀ g ∈ l, waits s g = .gang → waits t g = .gangFail (BitVec.ofNat 64 (0x20 + x.rank * 65536))))

/-- R234 to R241: a vector instruction stands at the vector engine group by group: while a group is not its last, its context stands at
it, one group further. With its last group checked (or, for an indexed form, performed, with the flags of its elements merged into
FFLAGS) it completes: the engine performs the last group of the other forms behind it, with what its record keeps (the engine's stages
are the model's, log entry 2). -/
def Obligations.VectorsComplete : Prop :=
  ∀ (i : Instr) (f : InstrInfo) (form : VecForm) (done : Bool) (s u t : State), frameOf i = some f → vecForm i = some form →
    MayIssue f s → (((standingVx s s.core.phys (curIdx s)).isSome = true ∧ u = s) ∨
      ((standingVx s s.core.phys (curIdx s)).isSome = false ∧ vecTake i form s = .ok () u)) →
    vecGroup (curAgent s) form u = .ok done t →
    (done = false → exec i s = .next (standStill false t)) ∧
    (done = true → form.op.indexed = true → exec i s = .next (completes f (vecDrop (curIdx s)
      (addFlags (((vxOf t s.core.phys (curIdx s)).map VxOp.flags).getD 0) t)))) ∧
    (done = true → form.op.indexed = false → exec i s = .next (completes f
      (onVx s.core.phys (curIdx s) (fun q =>
        { q with passed := true, vrec := { q.vrec with done := if findsScales form q then q.vrec.done else 0, pend := 0 } }) t)))

/-- R243 to R249, R103: the elements of the vector forms in FP32 and BF16, over the real numbers: sums, differences, products, quotients and
fused results are the exact value rounded once, minimum and maximum, sign and selection as the scalar rules have them, estimates as R118
and R244 say, 2^X and log2 X in their table and where they are exact; comparisons, with the complement for vcmp.ne; a conversion into a format as R103
says, Q4X as an integer format; a scaled element is the exact product; the exponent of a block of vquant is the least whose scale brings
its largest element to Lmax or below; sums of a line are exact and rounded once, and its largest element is greater than no other.
R250, R251: an index of an indexed form is read as a signed number; one outside a table that has no pad traps with cause 0x0C; what
the vamo forms make of the old value.
R243, R246: the integer elements of the vector forms, on w bits: sums, differences and products wrap, a quotient truncates
towards zero and is all ones for a zero divisor, minimum and maximum are signed, the shifts take their amount modulo w. -/
def Obligations.VectorIntegerElements : Prop :=
  (∀ (w x y z : Nat), 0 < w → x < 2 ^ w → y < 2 ^ w → z < 2 ^ w →
    let X := BitVec.ofNat w x
    let Y := BitVec.ofNat w y
    let Z := BitVec.ofNat w z
    arithInt w .add x y z = (X + Y).toNat ∧
    arithInt w .sub x y z = (X - Y).toNat ∧
    arithInt w .mul x y z = (X * Y).toNat ∧
    arithInt w .fma x y z = (X * Y + Z).toNat ∧
    arithInt w .div x y z = (if y = 0 then BitVec.allOnes w else X.sdiv Y).toNat ∧
    arithInt w .min x y z = (if X.sle Y then X else Y).toNat ∧
    arithInt w .max x y z = (if X.sle Y then Y else X).toNat ∧
    arithInt w .abs x y z = (if X.msb then -X else X).toNat ∧
    arithInt w .neg x y z = (-X).toNat ∧
    arithInt w .sel x y z = (if z = 0 then y else x) ∧
    bitResult w .and x y = (X &&& Y).toNat ∧ bitResult w .or x y = (X ||| Y).toNat ∧ bitResult w .xor x y = (X ^^^ Y).toNat ∧
    bitResult w .shl x y = (X <<< (y % w)).toNat ∧ bitResult w .shr x y = (X >>> (y % w)).toNat ∧
    sgn w x = X.toInt) ∧
  (∀ f ∈ [fp32, bf16], ∀ (r : Rounding) (x y z : Nat), r.dither < 2 ^ 24 → x < 2 ^ (1 + f.e + f.m) → y < 2 ^ (1 + f.e + f.m) → z < 2 ^ (1 + f.e + f.m) →
    let a := f.read x
    let b := f.read y
    let el := fun (op : VArith) => arithFloat f r op x y z
    SumsTo f r false [a, b] (el .add) ∧ SumsTo f r false [a, b.neg] (el .sub) ∧ MultipliesTo f r a b (el .mul) ∧
    DividesTo f r a b (el .div) ∧ FusesTo f r false a b (f.read z) (el .fma) ∧
    SelectsMinMax f false x y (el .min) ∧ SelectsMinMax f true x y (el .max) ∧
    el .abs = (x % 2 ^ (f.e + f.m), 0) ∧ el .neg = (x ^^^ 2 ^ (f.e + f.m), 0) ∧
    el .sel = (if z = 0 ∨ z = 2 ^ (f.e + f.m) then y else x, 0) ∧
    ReciprocalIs f a (el .rcp) ∧ RootReciprocalIs f a (el .rsq) ∧
    (a.isNan = true → el .exp2 = nanWith f (signalled [a]) ∧ el .log2 = nanWith f (signalled [a])) ∧
    (a = .inf false → el .exp2 = infWith f false 0 ∧ el .log2 = infWith f false 0) ∧
    (a = .inf true → el .exp2 = (0, 0) ∧ el .log2 = nanWith f flagNV) ∧
    (∀ k : ℤ, IsFinite a → real a = k → Delivered f r ((2 : ℝ) ^ k) false (el .exp2)) ∧
    (IsFinite a → real a = 0 → el .log2 = infWith f true flagDZ) ∧ (IsFinite a → real a < 0 → el .log2 = nanWith f flagNV) ∧
    (∀ k : ℤ, IsFinite a → real a = (2 : ℚ) ^ k → Delivered f r (k : ℝ) false (el .log2))) ∧
  (∀ (fmt x y : Nat), (fmt = 0 ∨ fmt = 1) →
    let f := if fmt = 0 then fp32 else bf16
    let a := f.read x
    let b := f.read y
    (∀ (c : FCmp) (v : VCmp), (c, v) ∈ [(.eq, .eq), (.lt, .lt), (.le, .le)] → ∃ o : Bool × FlagSet,
      cmpResult fmt v x y = (o.1.toNat, o.2) ∧ ComparesTo c a b o) ∧
    (∃ o : Bool × FlagSet, cmpResult fmt .ne x y = ((!o.1).toNat, o.2) ∧ ComparesTo .eq a b o)) ∧
  (∀ (fmt x y : Nat) (c : VCmp), (fmt = 5 ∨ fmt = 9) →
    let X := (BitVec.ofNat (fmtBits fmt) x).toInt
    let Y := (BitVec.ofNat (fmtBits fmt) y).toInt
    x < 2 ^ fmtBits fmt → y < 2 ^ fmtBits fmt →
    (cmpResult fmt c x y).2 = 0 ∧ ((cmpResult fmt c x y).1 = 1 ∨ (cmpResult fmt c x y).1 = 0) ∧
    ((cmpResult fmt c x y).1 = 1 ↔ match c with | .eq => X = Y | .ne => X ≠ Y | .lt => X < Y | .le => X ≤ Y)) ∧
  (∀ (r : Rounding) (v : Val), r.dither < 2 ^ 24 →
    (∀ x ∈ [(0, fp32), (1, bf16), (2, fp16), (3, e4m3), (4, e5m2), (13, e2m1), (14, e3m2)], ConvertsTo x.2 r v (convertTo x.1 r v)) ∧
    (∀ x ∈ [((5 : Nat), (-2147483648 : Int), (2147483647 : Int)), (6, -128, 127), (7, 0, 255), (8, -7, 7),
        (9, -9223372036854775808, 9223372036854775807), (12, -32768, 32767)],
      ∃ o : Int × FlagSet, ConvertsToInt x.2.1 x.2.2 r v o ∧ convertTo x.1 r v = ((BitVec.ofInt (fmtBits x.1) o.1).toNat, o.2)) ∧
    (∀ k, IsFinite v → IsFinite k → IsFinite (scaleVal v k) ∧ real (scaleVal v k) = real v * real k) ∧
    (∀ k, k.isNan = true → (scaleVal v k).isNan = true)) ∧
  (∀ (fmt : Nat) (l : List Val), fmt ∈ [3, 4, 6, 8, 13, 14] →
    let e := blockExp fmt l
    let most : ℚ := if fmt = 3 then 448 else if fmt = 4 then 57344 else if fmt = 6 then 127 else if fmt = 8 then 7 else if fmt = 14 then 28 else 6
    let fits := fun (k : ℤ) => ∀ v ∈ l, |real v| ≤ most * (2 : ℚ) ^ (k - 127)
    ((∃ v ∈ l, v.isNan = true) → e = 255) ∧
    ((∀ v ∈ l, IsFinite v) → e ≤ 254 ∧ ((∀ v ∈ l, real v = 0) → e = 127) ∧
      ((∃ v ∈ l, real v ≠ 0) → (e < 254 → fits e) ∧ (0 < e → ¬ fits (e - 1))))) ∧
  (∀ (fmt : Nat) (r : Rounding) (l : List Nat), r.dither < 2 ^ 24 → l ≠ [] → (∀ x ∈ l, x < 2 ^ fmtBits fmt) →
    ((fmt = 5 ∨ fmt = 9) → lineSum fmt r l = (l.sum % 2 ^ fmtBits fmt, 0) ∧ (lineMax fmt l).2 = 0 ∧ (lineMax fmt l).1 ∈ l ∧
      ∀ x ∈ l, (BitVec.ofNat (fmtBits fmt) x).toInt ≤ (BitVec.ofNat (fmtBits fmt) (lineMax fmt l).1).toInt) ∧
    (∀ f, (fmt, f) ∈ [(0, fp32), (1, bf16)] → SumsTo f r false (l.map f.read) (lineSum fmt r l) ∧
      (lineMax fmt l).2 = signalled (l.map f.read) ∧
      ((∀ x ∈ l, (f.read x).isNan = true) → (lineMax fmt l).1 = f.nanBits) ∧
      ((∃ x ∈ l, (f.read x).isNan = false) → (lineMax fmt l).1 ∈ l ∧ (f.read (lineMax fmt l).1).isNan = false ∧
        ∀ x ∈ l, (f.read x).isNan = false → ¬ Above (f.read (lineMax fmt l).1) (f.read x)))) ∧
  (∀ (ag : Agent) (w : Waiter) (op : VecOp) (recs : List (Nat × ShapeRec)) (bAddr : Word) (i index : Nat) (l : List (Spot × List Piece))
      (s u v : State),
    let p := pointOf (vecSpace op recs) i
    let b := recOr recs 1
    let table := if op.tableDest = true then recOr recs 4 else recOr recs 0
    checkSpots ag.onElems w i (if op.tableDest = true then [spotOf 0 (recOr recs 0) p false false, spotOf 1 b p false false]
      else [spotOf 1 b p false false, spotOf 4 (recOr recs 4) p true false]) s = .ok l u →
    readIndex ag w i b p l u = .ok index v →
    (sgn (fmtBits b.fmt) index < 0 ∨ (table.ext[0] : Int) ≤ sgn (fmtBits b.fmt) index) → table.pad = false →
    doIndexed ag w op recs bAddr i s = .error (.trap 0x0C bAddr (mxInfo i 0 1)) v) ∧
  (∀ (w : Nat) (x y : Word), let O := x.setWidth w
    let V := y.setWidth w
    (w = 32 ∨ w = 64 →
      (rmwApply (amoOf .or 5).1 (w / 8) x y).setWidth w = O ||| V ∧ (rmwApply (amoOf .and 5).1 (w / 8) x y).setWidth w = O &&& V ∧
      (rmwApply (amoOf .add 5).1 (w / 8) x y).setWidth w = O + V ∧
      (rmwApply (amoOf .max 5).1 (w / 8) x y).setWidth w = if O.slt V = true then V else O) ∧
    (w = 32 → ∃ o q, SumsTo fp32 rne false [fp32.read O.toNat, fp32.read V.toNat] o ∧
      rmwApply (amoOf .fadd 0).1 4 x y = BitVec.ofNat 64 o.1 ∧ SelectsMinMax fp32 true O.toNat V.toNat q ∧
      rmwApply (amoOf .max 0).1 4 x y = BitVec.ofNat 64 q.1) ∧
    (w = 16 → ∃ o, SumsTo bf16 rne false [bf16.read O.toNat, bf16.read V.toNat] o ∧
      rmwApply (amoOf .fadd 1).1 2 x y = BitVec.ofNat 64 o.1))

/-- R63, R67, R194: a value that arrives goes to the register of its producer, which is present from then on, and the producer is gone;
nothing else of the context changes. If its data is found uncorrectable no register changes: the producer holds the error for the
next access of the register, and the line that it came from, of memory or of a local store, is bad.
R68, R70, R73, R445: outside the quantum rules a remote write with no earlier packet of its flow on its way reaches the core that runs its
partition: where a task's context occupies the core and the register is empty, with no value of a local producer on its way to it and no entry
for it in the inbox, it is applied, and the register is present;
else it becomes the youngest inbox entry and no register changes. An inbox entry is applied in the same way.
R304, R345, R351: the answer to a post gives the register that waits for it its value; the answer to a message reaches the context
that stands at its msend; outside the quantum rules a threshold write to a cluster of the partition, whose launches all go on, that no earlier
one of its slot to that store precedes is the slot's threshold there. -/
def Obligations.ArrivalsAtCores : Prop :=
  (∀ (core ctx : Nat) (n : Reg) (p : Producer) (s : State),
     let x := ctxOf (coreAt s core) ctx
     n ≠ 0 → x.prods.find? (fun q => q.reg == n && !q.failed) = some p → p.bad = false →
     (∃ t, exec (.loadValueArrival core ctx n false) s = .next t ∧
       let y := ctxOf (coreAt t core) ctx
       y.regs[n] = p.value ∧ y.pres.getLsbD n.val = true ∧ y.prods = x.prods.filter (· != p) ∧
       (∀ m : Reg, m ≠ n → y.regs[m] = x.regs[m] ∧ y.pres.getLsbD m.val = x.pres.getLsbD m.val) ∧
       t.mem = s.mem ∧ t.badLines = s.badLines) ∧
     (∃ t, exec (.loadValueArrival core ctx n true) s = .next t ∧
       let y := ctxOf (coreAt t core) ctx
       y.regs = x.regs ∧ y.pres = x.pres ∧ y.prods = x.prods.map (fun q => if q == p then { q with failed := true } else q) ∧
       (∀ pa, placeOfVa core ctx p.addr s = some (.mem pa) → pa / 64 ∈ t.badLines) ∧
       (∀ ph part gid off a, placeOfVa core ctx p.addr s = some (.ls ph part gid off) → allocOf (coreAt s ph) part gid = some a →
         (allocOf (coreAt t ph) part gid).any (fun b => b.bad.contains (off / 64)) = true) ∧ t.mem = s.mem)) ∧
  ((∀ (k : Nat) (w : RemoteWrite) (p : Partition) (r : RankEntry) (s : State), s.remotes[k]? = some w →
     partAt s w.part = some p → quantumRules p = false → p.ranks[w.target]? = some r → r.valid = true → r.transit = false →
     (coreAt s r.phys).part = some w.part → w.idx ≠ 0 →
     (∀ q ∈ s.remotes, q.part = w.part → q.phys = w.phys → q.target = w.target → w.seq ≤ q.seq) →
     (∀ m ∈ s.msgs, m.part = w.part → m.phys = w.phys → m.target = w.target → m.answer = none → w.seq ≤ m.seq) →
     ∃ t, exec (.remoteWriteArrival k) s = .next t ∧ t.remotes = s.remotes.eraseIdx k ∧ t.mem = s.mem ∧
       let c := coreAt s r.phys
       let d := coreAt t r.phys
       let fits := c.run.isSome = true ∧ c.ctl.live = true ∧ c.ctl.pres.getLsbD w.idx.val = false ∧ (∀ q ∈ c.ctl.prods, q.reg = w.idx → q.failed = true) ∧
         (∀ e ∈ c.inbox, e.idx ≠ w.idx)
       (fits → d.ctl.regs[w.idx] = w.value ∧ d.ctl.pres.getLsbD w.idx.val = true ∧ d.inbox = c.inbox) ∧
       (¬ fits → d.inbox = c.inbox ++ [⟨w.idx, w.value, w.src⟩] ∧ d.ctl = c.ctl)) ∧
   (∀ (core k : Nat) (e : InboxEntry) (s : State),
     let c := coreAt s core
     c.inbox[k]? = some e → e.idx ≠ 0 → c.part.isSome = true → c.run.isSome = true → c.ctl.live = true → remoteFits c.ctl e.idx (c.inbox.take k) = true →
     ∃ t, exec (.inboxEntryApply core k) s = .next t ∧
       let d := coreAt t core
       d.ctl.regs[e.idx] = e.value ∧ d.ctl.pres.getLsbD e.idx.val = true ∧ d.inbox = c.inbox.eraseIdx k)) ∧
  ((∀ (k : Nat) (a : Answer) (s : State), s.answers[k]? = some a → a.reg ≠ 0 →
     (ctxOf (coreAt s a.phys) a.ctx).locks.contains a.reg = true →
     ∃ t, exec (.fpostStatusAnswer k) s = .next t ∧ t.answers = s.answers.eraseIdx k ∧
       let y := ctxOf (coreAt t a.phys) a.ctx
       y.regs[a.reg] = a.status ∧ y.pres.getLsbD a.reg.val = true ∧ y.locks = (ctxOf (coreAt s a.phys) a.ctx).locks.erase a.reg) ∧
   (∀ (core ctx st : Nat) (before after : List Msg) (m : Msg) (s : State), s.msgs = before ++ m :: after → m.phys = core →
     m.ctx = ctx → m.answer = some st → (∀ q ∈ before, ¬ (q.phys = core ∧ q.ctx = ctx ∧ q.answer.isSome = true)) →
     (ctxOf (coreAt s core) ctx).await = .message →
     ∃ t, exec (.msendAnswer core ctx) s = .next t ∧ t.msgs = before ++ after ∧
       (ctxOf (coreAt t core) ctx).await = .messageDone st ∧ (ctxOf (coreAt t core) ctx).stalled = false) ∧
   (∀ (k part slot cl : Nat) (v : W32) (p : Partition) (d : Decl) (s : State), s.thrs[k]? = some (part, slot, cl, v) →
     (∀ q ∈ s.thrs.take k, ¬ (q.1 = part ∧ q.2.1 = slot ∧ q.2.2.1 = cl)) → partAt s part = some p → quantumRules p = false → cl ∈ ringOf p →
     (∀ l ∈ p.launches, l.pop ≠ 0) → declOf p slot = some d →
     ∃ t, exec (.thresholdWriteArrival k) s = .next t ∧ t.thrs = s.thrs.eraseIdx k ∧
       (slotStateOf (clusterAt t cl) part d).thr = v))

/-- R319 to R322: a core that is free, outside the quantum rules, starts what the queue of its cluster offers it where its deque and
the Fold Store offer nothing, and the newest entry of its own deque where the others offer nothing: then it runs that record as a new
group of one, at the record's PC with its address and arguments in s1 to s3, on a fresh local store that reads zero. A core that is
not free, and one under the quantum rules, takes nothing.
R319: of a cluster that one partition has cores in, outside the quantum rules, the first fresh entry that fits is placed, off the
queue, at its base, and every fresh entry before it that finds no room has been passed over once more, up to 64 times; where none is
placed, every entry of the queue that finds no room has.
R315, R316, R317: the lowest armed slot of a launch window that is not parsed is parsed: a record with a wrong magic, a wrong
version or shape, or another partition's, is rejected with the reason, and its arm byte is cleared even where its completion word is
misaligned; a record whose root passes its checks is a launch with no failure, and its root is readied. While its root waits for a
page it is kept as work, and the slot counts as parsed. First the dispatcher looks again at work of the partition that waits (R371).
That hardware's waits for a bank lie inside its step, how long a chain of graph nodes may be, and in whose queue a graph node's target is
readied are the model's choice (log entries 27, 28, 79); that held requests and the hardware's work count for a launch's completion, and
how a rejection whose DONE page is not there is kept, are by inference (log entries 47, 57). -/
def Obligations.WorkReachesCores : Prop :=
  (∀ (core l : Nat) (p : Partition) (s : State), partAt s (corePart (coreAt s core)) = some p → lcoreOf p core = some l →
     let c := coreAt s core
     let e : Instr := .takeWork core
     let placeable := coreFree p.tag c = true ∧ (∀ r, p.ranks[l]? = some r → r.transit = false) ∧
       (clusterAt s (clusterOf core)).retained = false ∧ candidate s p (clusterOf core) = none
     ((quantumRules p = true ∨ coreFree p.tag c = false) → exec e s = .next s) ∧
     (∀ x, quantumRules p = false → placeable → c.deque = [] → queueCandidate s p core l = some x →
       exec e s = .next (startQueued p core l x s)) ∧
     (∀ front k, quantumRules p = false → placeable → c.deque = front ++ [k] → queueCandidate s p core l = none → k.part = p.tag →
       k.rcd.gsize = 1 → forkFits s p core k = true →
       ∃ t r, exec e s = .next t ∧
         let d := coreAt t core
         d.deque = front ∧ d.run = some r ∧ r.rcd = k.rcd ∧ r.gid = nextGid p ∧ r.rank = 0 ∧ d.ctl.live = true ∧
         d.ctl.pc = k.rcd.entry ∧ d.ctl.regs[1] = k.addr ∧ d.ctl.regs[2] = k.rcd.arg0 ∧ d.ctl.regs[3] = k.rcd.arg1 ∧
         d.allocs = c.allocs ++ [⟨p.tag, nextGid p, 0, k.rcd.lsize * 64, [], []⟩] ∧ t.mem = s.mem)) ∧
  (∀ (cl : Nat) (p : Partition) (s : State), partsIn s cl = [p] → quantumRules p = false →
     let found := scanQueue p cl (freshBase s p cl) 0 (claims s p cl) (clusterAt s cl).ready
     (∀ i e b rest, found = (i, e, b) :: rest →
       exec (.groupPlacement cl) s = .next (startGroup cl b e (removeReady cl i p.tag (onCluster cl (fun c =>
         { c with ready := (c.ready.take i).map (fun e =>
             if e.part = p.tag ∧ e.start = .fresh ∧ freshBase s p cl [] e = none then { e with passed := min 64 (e.passed + 1) } else e) ++
           c.ready.drop i }) s)))) ∧
     (found = [] → ∃ t, exec (.groupPlacement cl) s = .next t ∧ t.mem = s.mem ∧ t.core = s.core ∧
       (clusterAt t cl).ready = (clusterAt s cl).ready.map (fun e =>
         if e.part = p.tag ∧ e.start = .fresh ∧ freshBase s p cl [] e = none then { e with passed := min 64 (e.passed + 1) } else e))) ∧
  (∀ (part n : Nat) (p : Partition) (s s0 : State), redoAll [part] s = s0 → partAt s0 part = some p → n < 64 → n ∉ p.parsed →
     memGet s0.mem (slotPa part n + 63) ≠ 0 → (∀ k, k < n → k ∈ p.parsed ∨ memGet s0.mem (slotPa part k + 63) = 0) →
     let b := memRead s0.mem (slotPa part n) 64
     let e : Instr := .launchParse part
     let phys := (coresIn p (dispatchCluster p)).headD (dispatchCluster p * 256)
     let s1 := onPart part (fun p => { p with parsed := p.parsed ++ [n] }) s0
     (∀ r, launchReason part b = some r → exec e s = .next (rejectLaunch part n r (wordAt b 16) phys s1)) ∧
     (∀ r, launchReason part b = some r → Memory.wf s0.mem → (wordAt b 16).toNat % 8 ≠ 0 →
       ∃ t, exec e s = .next t ∧ memGet t.mem (slotPa part n + 63) = 0) ∧
     (∀ x u, launchReason part b = none → rootRecord p phys (wordAt b 8) s1 = .error x u →
       exec e s = .next { u with hwork := u.hwork ++ [.parse part n b] }) ∧
     (∀ r u, launchReason part b = none → rootRecord p phys (wordAt b 8) s1 = .ok (.error r) u →
       exec e s = .next (rejectLaunch part n r (wordAt b 16) phys u)) ∧
     (∀ r u, launchReason part b = none → rootRecord p phys (wordAt b 8) s1 = .ok (.ok r) u →
       let v := onPart part (fun p => { p with launches := p.launches ++ [⟨n, 0, 0, 0, wordAt b 16, r.det⟩] }) u
       exec e s = .next (sweepPart part (runHw (readyRec (dispatchCluster p) phys graphFuel
         (freshEntry r (wordAt b 8) part n (p.det || r.det) none)) v))))

/-- R167, R330, R432: WDOG at zero makes the running task's core begin a forced yield, which aborts an open transaction; where a
handler's own instructions set the expiry off, the task fails with cause 0x20 (the model's reading, log entry 50); 65,536 cycles
of waiting in it fail the task with cause 0x20; the end of a slice begins the partition's grace period and names the next partition of the
core's fixed rotation, and no slice ends before its length has passed (R432; what a slice's length is counted in is log entry 58);
a grace period that is over makes the task yield, and a core with no task goes to that partition with an empty L1.
R332, R388: under the quantum rules a core whose QNT is zero arrives at the barrier; once every core has arrived, and no proxy
atomic of the partition is under way, the quantum ends, and until then it does not: once all that it held is applied a layout change that is due is
made and the next quantum begins, and where something of it must wait (log entry 56) what is done stays done.
R392: the dispatcher's scan of a partition's overflow watches readies the continuation of each one that holds, of tasks that are
not deterministic, and no such watch is left. -/
def Obligations.TasksArePreempted : Prop :=
  ((∀ (core : Nat) (r : Running) (s : State), let c := coreAt s core
     c.run = some r → c.wdog = 0 → c.resume = none → c.yield = none →
     (handlerRuns c = true → exec (.watchdogExpiry core) s = .next (failTask core 0x20 s)) ∧
     (handlerRuns c = false →
       exec (.watchdogExpiry core) s = .next (tryYield core
         (onCore core (fun c => { c with yield := c.yield.map (fun y => { y with expired := true }) }) (beginYield core s)))) ∧
     (handlerRuns c = false → yieldReady (coreAt (beginYield core s) core) = false →
       ∃ t, exec (.watchdogExpiry core) s = .next t ∧ (coreAt t core).yield = some ⟨0, true⟩ ∧ (coreAt t core).txn = none ∧
         (coreAt t core).run = some r)) ∧
   (∀ (core : Nat) (y : Yield) (s : State), (coreAt s core).yield = some y → yieldWaits (coreAt s core) = true →
     exec (.yieldWaitLimit core) s = .next (if 65536 ≤ y.waited then failTask core 0x20 s else s)) ∧
   (∀ (core : Nat) (next : Option Nat) (p : Partition) (s : State), let c := coreAt s core
     c.grace = none → next = nextServed c → next ≠ c.part → sliceOver s c = true → partAt s (corePart c) = some p →
     ∃ t, exec (.sliceEnd core next) s = .next t ∧ (coreAt t core).grace = some p.grace.toNat ∧ (coreAt t core).slice = next ∧
       (coreAt t core).run = c.run ∧ (coreAt t core).ctl = c.ctl ∧ t.mem = s.mem) ∧
   (∀ (core tag n : Nat) (next : Option Nat) (s : State), let c := coreAt s core
     c.part = some tag → sliceLen s tag c.phys = some n → s.time < c.sliceFrom + n → exec (.sliceEnd core next) s = .next s) ∧
   (∀ (core g : Nat) (s : State), let c := coreAt s core
     c.grace = some g → c.resume = none →
     (c.run.isSome = true → exec (.graceExpiry core) s = .next (if g = 0 then tryYield core (beginYield core s) else s)) ∧
     (c.run = none → c.pend = [] → c.stashLines = [] →
       ∃ t, exec (.graceExpiry core) s = .next t ∧ (coreAt t core).part = c.slice ∧ (coreAt t core).grace = none ∧
         (coreAt t core).slice = none ∧ (coreAt t core).l1d = [] ∧ (coreAt t core).icache = [] ∧ t.mem = s.mem))) ∧
  ((∀ (core : Nat) (p : Partition) (s : State), partAt s (corePart (coreAt s core)) = some p → quantumRules p = true →
     (coreAt s core).qnt = 0 →
     ∃ t, exec (.qntExpiry core) s = .next t ∧ (coreAt t core).atBarrier = true ∧ (coreAt t core).ctl = (coreAt s core).ctl ∧
       t.mem = s.mem) ∧
   (∀ (part : Nat) (p : Partition) (s : State), partAt s part = some p → quantumRules p = true →
     let arrived := (∀ x ∈ coresInOrder s p, coreArrived (coreAt s x.2) = true) ∧
       ∀ (d : Fin 4), ∀ q ∈ (s.dies.get d).proxies, q.part ≠ part
     (∀ u, arrived → p.state ≠ 3 → endQuantum p s = (true, u) → exec (.quantumEnd part) s = .next (beginQuantum part (tickDue part u))) ∧
     (∀ u, arrived → p.state ≠ 3 → endQuantum p s = (false, u) → exec (.quantumEnd part) s = .next u) ∧
     (¬ arrived ∨ p.state = 3 → exec (.quantumEnd part) s = .next s))) ∧
  (∀ (part : Nat) (p : Partition) (s : State), partAt s part = some p →
     (∃ t q, exec (.overflowWatchScan part) s = .next t ∧ partAt t part = some q ∧
       (∀ w ∈ p.ovfWatches, w.entry.det = false → overflowHolds s w = true → w ∉ q.ovfWatches)) ∧
     (∀ w, p.ovfWatches = [w] → s.parts = [p] → w.entry.det = false → overflowHolds s w = true →
       exec (.overflowWatchScan part) s = .next (readyContinuation w.entry (onPart part (fun p => { p with ovfWatches := [] }) s))))

/-- R287, R288: an entry of the Nesting buffer with a member that has waited its hold limit is dispatched, with the members whose
acceptance is complete: where all are, the entry is gone, and no member's mma is held any more. Before a limit is reached, and with no
member ready, the buffer stays as it is.
R108, R132, R136, R139, R289: at a K-step boundary a slice goes on with an operation of highest priority of those that can go on, and
with no other; an operation of one instruction does that instruction's next K-step, and completes it when that was the last one, its
flags merged into FFLAGS; an error in the data abandons the instruction, and the trap waits for the control context.
R147: a drain that no earlier operation holds up writes its next row where no helper of its is still to be started, and asks for the
row's helper; an error abandons it. One that is held up does nothing.
R131, R137, R144, R168: the control core of a die serves its oldest emulation request for someone who still waits, once its turn on
the accumulator has come: an operand check that fails is the trap that the context takes; an mgang that passes them arrives at the
barrier of its row; else every K-step is done, the black box has its record, the flags are merged into FFLAGS, and the context goes on.
An error in the data abandons the instruction. A request for which no one waits is dropped.
R235, R236, R263, R265, R297: the vector engine of a core does the next group of the instruction at its head, or the last one of an
instruction that its context has gone past, which then leaves; a running copy channel writes its next destination line, and once it has
written its last byte finishes the record: a copy of cpy leaves the channel idle, owning no line. An engine with nothing to do does
nothing, but that the tile commands at the head of the matrix queue are performed, and that what a channel still owes to the record of
a command is written first.
Clauses that are the model's choice: the form of the steps as events and which agent goes on (log entry 2), a queue of two entries and
how far behind its context the vector engine is (37), one event for each K-step and how far ahead fetch runs (38), one event for
an emulated pair (40), the order of traps that wait for one boundary (85), and the moment at which a dithered drain takes SEED (88). -/
def Obligations.EnginesStep : Prop :=
  (∀ (cl n : Nat) (e : NestEntry) (s : State), (clusterAt s cl).nest[n]? = some e →
     ((∀ m ∈ e.members, s.time < m.limit) → exec (.nestingHoldExpiry cl n) s = .next s) ∧
     ((∀ m ∈ e.members, m.ready = false) → exec (.nestingHoldExpiry cl n) s = .next s) ∧
     (e.members ≠ [] → (∀ m ∈ e.members, m.ready = true) → (∃ m ∈ e.members, m.limit ≤ s.time) →
       ∃ t, exec (.nestingHoldExpiry cl n) s = .next t ∧ (clusterAt t cl).nest = (clusterAt s cl).nest.eraseIdx n ∧ t.mem = s.mem ∧
         ∀ m ∈ e.members, (∀ q ∈ (coreAt t m.phys).mxq, q.kind = .mma → q.acc = m.acc → q.held = false))) ∧
  ((∀ (core n : Nat) (s : State), (∀ o, (coreAt s core).sliceq[n]? = some o → sliceChoice s core ≠ some o) →
     exec (.matrixKStep core n) s = .next s) ∧
   (∀ (core : Nat) (o : SliceOp) (s : State), sliceChoice s core = some o →
     o ∈ (coreAt s core).sliceq ∧ sliceReady s core o = true ∧
       ∀ p ∈ (coreAt s core).sliceq, sliceReady s core p = true → p.prio ≤ o.prio) ∧
   (∀ (core n phys k : Nat) (o : SliceOp) (q : MxOp) (s u : State), (coreAt s core).sliceq[n]? = some o → sliceChoice s core = some o →
     sliceMembers s core o = [(phys, k)] → fetchStep phys k s = .ok () u → (coreAt u phys).mxq[k]? = some q →
     (∀ x v, readStep phys q u = .ok x v →
       let w := onCore phys (stepCore q x) v
       let r := q.stepped (stepFlags (coreAt v phys) q x)
       (q.total ≤ q.next + 1 → exec (.matrixKStep core n) s = .next (completeOp phys k r.flags w)) ∧
       (∀ t, q.next + 1 < q.total → fetchStep phys k (putOp phys k (some r) w) = .ok () t →
         exec (.matrixKStep core n) s = .next t) ∧
       (∀ e t, q.next + 1 < q.total → fetchStep phys k (putOp phys k (some r) w) = .error e t →
         exec (.matrixKStep core n) s = .next (putOp phys k (some r) w))) ∧
     (∀ c v e w, readStep phys q u = .error (.trap c v e) w →
       exec (.matrixKStep core n) s = .next (abandonOp phys k c v e w))) ∧
   (∀ (core n : Nat) (s : State), runnableOp s core n = none → exec (.mdrainRow core n) s = .next (takeQueue core s)) ∧
   (∀ (core n : Nat) (q : MxOp) (s : State), runnableOp s core n = some q → q.kind = .drain → q.next < q.rows →
     (∀ r ∈ (coreAt s core).hreqs, ∀ k, r.origin ≠ .drain q.acc k) →
     let va := elemAddr q.a #v[0, q.next, 0, 0]
     let row := drainRow (coreAt s core) q (Fin.ofNat 32 q.next)
     let done : MxOp := { q with next := q.next + 1, flags := q.flags ||| row.2, begun := true }
     let write := writeMem (chanAgent s core).onElems .hw .other va row.1 s
     (∀ u, write = .ok () u →
       let w := putOp core n (some done) u
       (q.hpc = 0 → exec (.mdrainRow core n) s = .next (releaseRow core q.acc w)) ∧
       (q.hpc ≠ 0 → exec (.mdrainRow core n) s = .next (askHelper core
         ⟨q.hpc &&& ~~~1#64, va, BitVec.ofNat 64 q.next, .drain q.acc q.next, corePart (coreAt w core), 0⟩ w))) ∧
     (∀ c v e u, write = .error (.trap c v e) u →
       exec (.mdrainRow core n) s = .next (abandonOp core n c v (mxInfo q.next 0 4) u)))) ∧
  ((∀ (d : Fin 4) (r : EmuReq) (rest : List EmuReq) (s : State), (s.dies.get d).emus = r :: rest →
     let drop := fun (u : State) => { u with dies := u.dies.set d.val { u.dies.get d with emus := (u.dies.get d).emus.tail } }
     let e : Instr := .formatEmulationRequest d.val
     let checks := acceptOperands (chanAgent s r.phys) .hw r.op s
     (r.stands s = false → exec e s = .next (drop s)) ∧
     (r.stands s = true → r.turn s = false → exec e s = .next s) ∧
     (∀ c v i u, r.stands s = true → r.turn s = true → r.checked = false → checks = .error (.trap c v i) u →
       let w := r.answer (.emulationTrap c v i) (drop u)
       exec e s = .next (if r.op.kind = .gang then gangArrive (arrivalOf w r.phys 0 none true) w else w)) ∧
     (∀ q u, r.stands s = true → r.turn s = true → r.checked = false → checks = .ok q u → q.kind = .gang →
       exec e s = .next (gangWait r.phys q (drop u))) ∧
     (∀ q u, r.stands s = true → r.turn s = true →
       ((r.checked = true ∧ q = r.op ∧ u = s) ∨ (r.checked = false ∧ checks = .ok q u ∧ q.kind ≠ .gang)) →
       (∀ k v, emulateSteps r.phys q.total q u = .ok k v → exec e s = .next (r.finish k none (drop v))) ∧
       (∀ c a i v, emulateSteps r.phys q.total q u = .error (.trap c a i) v →
         exec e s = .next (r.finish q (some ⟨c, a, i⟩) (drop v))))) ∧
   (∀ (r : EmuReq) (q : MxOp) (s : State), r.resumed = false →
     let t := r.finish q none s
     (ctxOf (coreAt t r.phys) 0).await = .emulationDone ∧ (coreAt t r.phys).acc = (coreAt s r.phys).acc ∧
       (ctxOf (coreAt t r.phys) 0).fflags = (ctxOf (coreAt s r.phys) 0).fflags ||| q.flags.zeroExtend 64)) ∧
  ((∀ (core : Nat) (s : State), (coreAt s core).vxq = [] → exec (.vectorElementGroup core) s = .next s) ∧
   (∀ (core : Nat) (q : VxOp) (rest : List VxOp) (form : VecForm) (s t : State), (coreAt s core).vxq = q :: rest →
     vecForm q.instr = some form →
     let ag := { agentAt s core q.vrec.ctx with priv := q.priv }
     (∀ done, q.passed = false → vecGroup ag form s = .ok done t → exec (.vectorElementGroup core) s = .next t) ∧
     (q.passed = true → vecFinish ag form s = .ok () t → exec (.vectorElementGroup core) s = .next (vecRetire core q t)) ∧
     (∀ c v e, q.passed = true → vecFinish ag form s = .error (.trap c v e) t →
       exec (.vectorElementGroup core) s = .next (deferTrap core q.vrec.ctx ⟨c, v, e⟩ (vecRetire core q t)))) ∧
   (∀ (core : Nat) (ch : Fin 4) (s : State),
     let v := payOwed core s
     let m := (coreAt v core).chans[ch]
     ((coreAt s core).owes = [] → v = s) ∧
     (m.state ≠ .running → exec (.copyLineWrite core ch.val) s = .next v) ∧
     (∀ j u, m.state = .running → m.job = some j → j.done < jobBytes j → copyLine core ch j v = .ok () u →
       exec (.copyLineWrite core ch.val) s = .next u) ∧
     (∀ j, m.state = .running → m.job = some j → jobBytes j ≤ j.done → exec (.copyLineWrite core ch.val) s = .next v) ∧
     (∀ u, m.state = .running → m.job = none → chanContinue core ch v = .ok () u →
       exec (.copyLineWrite core ch.val) s = .next u)) ∧
   (∀ (core : Nat) (ch : Fin 4) (s : State),
     let k := (coreAt s core).chans[ch]
     (k.state ≠ .running ∨ k.job = none → exec (.copyRecordFinish core ch.val) s = .next s) ∧
     (∀ j, k.state = .running → k.job = some j → j.done < jobBytes j → exec (.copyRecordFinish core ch.val) s = .next s) ∧
     (∀ j, k.state = .running → k.job = some j → jobBytes j ≤ j.done →
       (j.rcd = none → ∃ t, exec (.copyRecordFinish core ch.val) s = .next t ∧ ((coreAt t core).chans[ch]).state = .idle ∧
         ((coreAt t core).chans[ch]).job = none ∧ ((coreAt t core).chans[ch]).wp = k.wp ∧
         (∀ o ∈ t.owned, ¬ (o.2.1 = core ∧ o.2.2 = ch.val)) ∧ t.mem = s.mem))))

/-- R342, R343, R347, R359: a post that no earlier one of its context to its home precedes reaches its home store, outside the quantum
rules, and is answered with what it came to; the store replays spilled records only while its entries number fewer than 3Q ÷ 4. A
passive holder of a Top's token passes it on, black if it or its cluster is, and an initiator that holds a white token which has
gone round, with a white cluster, ends the Top.
Clauses that are the model's choice: the status 3 of a post whose slot was released before it arrived (log entry 30), the launch for
which the Top's decrement counts (54), and that the Top waits for a threshold write on its way (73). -/
def Obligations.StoresAdvance : Prop :=
  (∀ (n : Nat) (q : Post) (p : Partition) (s : State), s.posts[n]? = some q → partAt s q.part = some p → quantumRules p = false →
    (∀ k ∈ s.posts.take n, ¬ (k.phys = q.phys ∧ k.ctx = q.ctx ∧ k.home = q.home)) →
    (declOf p q.slot = none → exec (.foldPostArrival n) s = .next (postArrived n q 3 s)) ∧
    (∀ d st u, declOf p q.slot = some d → applyPost p d q.home q.key q.value false s = .ok st u →
      exec (.foldPostArrival n) s = .next (postArrived n q st u)) ∧
    (declOf p q.slot = none → exec (.foldPostArrival n) s = .next (sweepPart q.part { s with
      posts := s.posts.eraseIdx n
      answers := s.answers ++ (q.answer.map (fun r => ⟨q.part, q.phys, q.ctx, r, 3⟩)).toList })) ∧
    ((∀ l ∈ p.launches, l.pop ≠ 0) → ∀ r, q.answer = some r → declOf p q.slot = none →
      ∃ t, exec (.foldPostArrival n) s = .next t ∧ t.posts = s.posts.eraseIdx n ∧
        t.answers = s.answers ++ [⟨q.part, q.phys, q.ctx, r, 3⟩])) ∧
  (∀ (cl part : Nat) (p : Partition) (s : State), partAt s part = some p → quantumRules p = false →
    (3 * quotaOf s cl part ≤ 4 * foldCount s cl part → exec (.foldReplay cl part) s = .next s) ∧
    (4 * foldCount s cl part < 3 * quotaOf s cl part →
      exec (.foldReplay cl part) s = .next (sweepPart part (p.decls.foldl (fun s d =>
        runHw (replaySlot p d cl (slotStateOf (clusterAt s cl) part d).pending) s) s)))) ∧
  (∀ (part slot : Nat) (p : Partition) (d : Decl) (x : Top) (s : State), partAt s part = some p → quantumRules p = false →
    thrOnWay s part slot = false → p.tops.find? (fun t => t.slot == slot) = some x → declOf p slot = some d →
    let e : Instr := .topTokenPass part slot
    let ring := ringOf p
    let i := ringIndex p x.holder
    let black := (slotStateOf (clusterAt s x.holder) part d).black
    let ends := ring.length ≤ 1 ∨ (i = 0 ∧ x.started = true ∧ x.black = false ∧ black = false)
    (topPassive s p d x.holder = false → exec e s = .next s) ∧
    (topPassive s p d x.holder = true → ends → exec e s = .next (topEnds p x s)) ∧
    (topPassive s p d x.holder = true → ¬ ends →
      ∃ t q y, exec e s = .next t ∧ partAt t part = some q ∧ q.tops.find? (fun t => t.slot == slot) = some y ∧
        y.holder = ring.getD ((i + 1) % ring.length) x.holder ∧ y.started = true ∧
        y.black = (if i = 0 ∧ x.started = true then false else x.black || black) ∧
        (slotStateOf (clusterAt t x.holder) part d).black = false ∧ t.mem = s.mem))

/-- R371, R372: a reply to an outstanding request of a function's generation frees its slot, of which the first request that waits for a
slot gets one, and every context of the function's partitions that waits on the page has its answer, with the access kinds of the
request; a reply of failure frees every slot, and the function has failed. A reply that matches no request is discarded and recorded.
R370, R373: the reset of a function gives it the next generation, modulo 256, with no request outstanding and no failure, and
every wait on a page of it ends. A host invalidation with no operand in flight and no access held for a host copy leaves no core and
no cluster with a translation of the partition that it selects; with an operand in flight it does nothing, and with an access held for
a host copy it only asks for that copy. -/
def Obligations.PagesAreAnswered : Prop :=
  (∀ (vf slot gen : Nat) (s : State),
     (requestOf s vf slot gen = none →
       exec (.pageReplySuccess vf slot gen) s = .next (staleReply vf slot gen s) ∧
       exec (.pageReplyInvalidRequest vf slot gen) s = .next (staleReply vf slot gen s) ∧
       exec (.pageReplyResponseFailure vf slot gen) s = .next (staleReply vf slot gen s)) ∧
     (∀ q, requestOf s vf slot gen = some q →
       let waits := fun (phys ctx page : Nat) (va : Word) => (ctxOf (coreAt s phys) ctx).await = .page page va ∧
         ∃ p ∈ s.parts, p.vf = vf ∧ p.tag = corePart (coreAt s phys)
       (∀ ok, ∃ u, exec (if ok = true then .pageReplySuccess vf slot gen else .pageReplyInvalidRequest vf slot gen) s =
           .next (redoFunc vf u) ∧ u.mem = s.mem ∧
         ((funcAt s vf).waiting = [] → (funcAt u vf).slots = (funcAt s vf).slots.filter (·.slot != slot)) ∧
         (∀ w rest, slot < 64 → (funcAt s vf).waiting = w :: rest →
           ∃ n, n < 64 ∧ { w with slot := n, gen := (funcAt s vf).gen } ∈ (funcAt u vf).slots) ∧
         ∀ phys ctx va, waits phys ctx q.page va → (ctxOf (coreAt u phys) ctx).await = .pageDone q.page q.kinds ok va ∧
           (ctxOf (coreAt u phys) ctx).stalled = false) ∧
       (∃ u, exec (.pageReplyResponseFailure vf slot gen) s = .next (redoFunc vf u) ∧ (funcAt u vf).slots = [] ∧ (funcAt u vf).waiting = [] ∧
         (funcAt u vf).failed = true ∧ u.mem = s.mem ∧
         ∀ phys ctx page va, waits phys ctx page va → ∃ kinds, (ctxOf (coreAt u phys) ctx).await = .pageDone page kinds false va))) ∧
  ((∀ (vf : Nat) (s : State), ∃ u, exec (.functionReset vf) s = .next (redoFunc vf u) ∧
     (funcAt u vf).gen = ((funcAt s vf).gen + 1) % 256 ∧ (funcAt u vf).slots = [] ∧ (funcAt u vf).failed = false ∧
     (∀ p ∈ u.parts, p.vf = vf → p.gen = ((funcAt s vf).gen + 1) % 256) ∧ u.mem = s.mem) ∧
   (∀ (part : Nat) (ipa : Option Word) (s : State), let e : Instr := .hostStage2Invalidation part ipa
     let busy := operandsInFlight s part (if ipa.isSome then 2 else 3) (ipa.getD 0)
     (busy = true → exec e s = .next s) ∧
     (busy = false → pendingHomeLines s part = [] →
       exec e s = .next (invalidateTranslations part (if ipa.isSome then 2 else 3) (ipa.getD 0) s)) ∧
     (busy = false → pendingHomeLines s part ≠ [] →
       exec e s = .next ((pendingHomeLines s part).foldl (fun s l => backInvalidate l s) s)) ∧
     (busy = false → pendingHomeLines s part = [] → (∀ c ∈ allCores s, c.pend = [] ∧ c.stashLines = []) →
       let gone := fun (x : TlbEntry) => x.part = part →
         ∃ a, ipa = some a ∧ ∀ u ∈ x.used, a.toNat / 2 ^ u.2 ≠ u.1 * 4096 / 2 ^ u.2
       ∃ t, exec e s = .next t ∧ t.mem = s.mem ∧ (∀ c ∈ allCores t, ∀ x ∈ c.tlb ++ c.itlb, gone x) ∧
         ∀ k ∈ t.clusters, (∀ x ∈ k.tlb, gone x) ∧ ∀ w ∈ k.walks, w.1 ≠ part)))

/-- R195, R263, R269, R442: while a copy channel owns a line no access from outside reaches it. A write of the host within one line, to
memory that it reaches, is there after it; while the host may hold the line it waits for the acknowledgement of a back-invalidation; one
that would have to merge into a bad line writes nothing and is recorded; a write anywhere else is ejected. A read of device memory notes
that the host may hold the line; one at a line whose partials wait while the host holds it waits for the acknowledgement too. An
acknowledgement that no access waits for only ends that. A snoop leaves the host's bytes in its own
memory.
R436, R444: a store of another package to a bank of the partition it names is there after it, once the host does not hold the line;
one with another tag is ejected. When the link of a flow gives up, no access of the core to that package is outstanding: each context
that made one has a machine error waiting, and no proxy atomic of the core to that package is left; when a packet of a tree is the one
given up, the trees that wait for this core fail.
Clauses that are the model's choice: what memory that nothing has written reads as (log entry 4), which writes wait for the
acknowledgement (10), the code under which each event is recorded (62), and the form in which a link's failure arrives (63). -/
def Obligations.OutsideAccesses : Prop :=
  (∀ (pa : Nat) (s : State),
     (∀ tag bytes, pa % 64 + bytes.length ≤ 64 → let e : Instr := .cxlMemWrite (tag, pa) bytes
       (hostReaches s tag pa = false → exec e s = .next (ejected tag pa s)) ∧
       (hostReaches s tag pa = true → ownedLine s (pa / 64) = true → exec e s = .next s) ∧
       (hostReaches s tag pa = true → ownedLine s (pa / 64) = false →
         (pa / 64 ∈ s.hostLines → exec e s = .next (backInvalidate (pa / 64) s)) ∧
         (pa / 64 ∉ s.hostLines → pa / 64 ∈ s.badLines → bytes.length < 64 →
           exec e s = .next (errorRecorded tag 0x3FFF (pa / 64) (wakeBank pa s))) ∧
         (pa / 64 ∉ s.hostLines → (pa / 64 ∉ s.badLines ∨ bytes.length = 64) → Memory.wf s.mem →
           ∃ t, exec e s = .next t ∧ memRead t.mem pa bytes.length = bytes))) ∧
     (∀ tag, let e : Instr := .cxlMemRead (tag, pa)
       (hostReaches s tag pa = false → exec e s = .next (ejected tag pa s)) ∧
       (hostReaches s tag pa = true → ownedLine s (pa / 64) = true → exec e s = .next s) ∧
       (hostReaches s tag pa = true → ownedLine s (pa / 64) = false →
         (hasPartials (pa / 64) s = true → pa / 64 ∈ s.hostLines → exec e s = .next (backInvalidate (pa / 64) s)) ∧
         (isDram pa = true → (hasPartials (pa / 64) s = false ∨ pa / 64 ∉ s.hostLines) →
           ∃ t, exec e s = .next t ∧ pa / 64 ∈ t.hostLines))) ∧
     (∀ bytes, isHost pa = true → pa % 64 + bytes.length ≤ 64 →
       (ownedLine s (pa / 64) = true → exec (.hostSnoop pa bytes) s = .next s) ∧
       (ownedLine s (pa / 64) = false → Memory.wf s.mem →
         ∃ t, exec (.hostSnoop pa bytes) s = .next t ∧ memRead t.mem pa bytes.length = bytes)) ∧
     (∀ line, (line ∉ s.hostWaits → exec (.backInvalidationAck line) s = .next s) ∧
       (line ∈ s.hostWaits → (∀ c ∈ allCores s, ∀ q ∈ c.pend, q.homeLine ≠ some line) →
         exec (.backInvalidationAck line) s =
           .next (redoAll (s.parts.map Partition.tag) { s with hostWaits := s.hostWaits.filter (· != line), hostLines := s.hostLines.filter (· != line) })))) ∧
  ((∀ (tag pa : Nat) (bytes : List Byte) (s : State), pa % 64 + bytes.length ≤ 64 →
     let e : Instr := .bolmorRemoteAccess tag pa 1 bytes
     (isDram pa = false ∨ (bankAt s (bankOf pa)).owner ≠ some tag → exec e s = .next (ejected tag pa s)) ∧
     (isDram pa = true → (bankAt s (bankOf pa)).owner = some tag →
       (ownedLine s (pa / 64) = true → exec e s = .next s) ∧
       (ownedLine s (pa / 64) = false → pa / 64 ∈ s.hostLines → exec e s = .next (backInvalidate (pa / 64) s)) ∧
       (ownedLine s (pa / 64) = false → pa / 64 ∉ s.hostLines → (pa / 64 ∉ s.badLines ∨ bytes.length = 64) → Memory.wf s.mem →
         ∃ t, exec e s = .next t ∧ memRead t.mem pa bytes.length = bytes))) ∧
   (∀ (core n : Nat) (s : State),
     ∃ t, exec (.linkRetryExhausted (core, some n)) s = .next t ∧ t.mem = s.mem ∧ t.parts = s.parts ∧
       (coreAt t core).pend = (coreAt s core).pend.filter (fun q => !q.place.inPackage n) ∧
       (∀ q ∈ (coreAt s core).pend, q.place.inPackage n = true → ⟨0x17, q.va, 0⟩ ∈ (ctxOf (coreAt t core) q.ctx).deferred) ∧
       (∀ (d : Fin 4), ∀ q ∈ (t.dies.get d).proxies, ¬ (q.phys = core ∧ packageOf q.pa = some n))) ∧
   (∀ (core : Nat) (s : State),
     (∀ p, partAt s (corePart (coreAt s core)) = some p →
       exec (.linkRetryExhausted (core, none)) s = .next (failTrees core p s)) ∧
     (partAt s (corePart (coreAt s core)) = none → exec (.linkRetryExhausted (core, none)) s = .next s)))

/-- R140, R183, R195, R211, R261, R263, R274: an evicted copy of a line is in no L1 and not in the cluster cache; a line that a tile pins,
that a group tracks, that a copy channel owns, or whose unwritten bytes may not reach a line that the host may hold is not evicted; a
home die cache loses only its own lines; an update-only copy joins the partials that wait at its home, and no memory changes; a retired
line of memory is bad no more, reads zero, and is recorded; one of a local store is retired likewise. -/
def Obligations.LinesLeave : Prop :=
  (∀ (cl line : Nat) (s : State), cl < 64 →
    let kept := line ∈ (clusterAt s cl).pins ∨ (∃ o ∈ s.owned, o.1 = line) ∨ (line ∈ s.hostLines ∧ unwritten s cl line = true) ∨
      ∃ p ∈ s.parts, ∃ g ∈ p.groups, g.cluster = cl ∧ ∃ k ∈ g.tracks, ∃ pa, k.place = .mem pa ∧ pa / 64 = line
    ((kept ∨ lineAt s cl line = none) → exec (.cacheEviction cl line) s = .next s) ∧
    ((lineAt s cl line).isSome = true → ¬ kept →
      ∃ t, exec (.cacheEviction cl line) s = .next t ∧ lineAt t cl line = none ∧
        (∀ c ∈ allCores t, clusterOf c.phys = cl → line ∉ c.l1d))) ∧
  (∀ (cl line : Nat) (s : State), 64 ≤ cl → ∃ t, exec (.cacheEviction cl line) s = .next t ∧ t.mem = s.mem ∧
    t.dieLines = if homeDie (line * 64) = cl - 64 then s.dieLines.filter (·.1 != line) else s.dieLines) ∧
  (∀ (core line : Nat) (s : State), ∃ t, exec (.updateOnlyEviction core line) s = .next t ∧ t.mem = s.mem ∧
    (coreAt t core).upd = (coreAt s core).upd.filter (·.pa / 64 != line) ∧
    t.partials = ((coreAt s core).upd.filter (·.pa / 64 == line)).foldl (fun l p => mergePartial p l) s.partials) ∧
  (∀ (line : Nat) (s : State), (line ∉ s.badLines → exec (.lineRetirement (none, line)) s = .next s) ∧
    (∀ phys part gid, let e : Instr := .lineRetirement (some (phys, part, gid), line)
      let at0 : Place := .ls phys part gid (line * 64)
      (badAt s at0 = false → exec e s = .next s) ∧ (badAt s at0 = true → exec e s = .next (retireLocal phys part gid line s))) ∧
    (line ∈ s.badLines → ∃ t, exec (.lineRetirement (none, line)) s = .next t ∧ line ∉ t.badLines ∧
      (∀ a, memGet t.mem a = if a / 64 = line then 0 else memGet s.mem a) ∧ t.io.auditSeq = s.io.auditSeq + 1))

/-- R185, R187, R189, R190: an active bank that a partition owns, untouched for 2 µs, held by no phase, and past the time for which an
abandoned hold keeps it, goes to retention, with its bytes; a free slot of an arbiter goes to the oldest demand, else to the oldest pre-wake, and at most 16 are held; a wake that holds a slot ends with the
bank active, and zero if it was off; a power-down ends with the bank off, or waking if a wake holds a slot by then.
R192: a cluster with no task on any of its cores and no access that must wait rests, with every copy of a line out of its cache, once no
line that it must write back may be held by the host; one with a task does not; on its exit with its contents kept nothing else changes; with contents lost its Fold Store is empty. -/
def Obligations.BanksAndClustersSleep : Prop :=
  ((∀ (b : Nat) (s : State), let k := bankAt s b
     let rests := k.state = .active ∧ k.owner.isSome = true ∧ 20 ≤ bankAge s b ∧ k.stay ≤ s.time ∧ heldByPhase s b = false
     (rests → exec (.bankRetentionEntry b) s = .next (onBank b (fun k => { k with state := .retention, entered := s.time })
       { s with sleepers := s.sleepers.filter (fun x => !(isDram (x.1 * 64) && bankOf (x.1 * 64) == b)) })) ∧
     (¬ rests → exec (.bankRetentionEntry b) s = .next s)) ∧
   (∀ (die : Nat) (s : State), (16 ≤ slotsUsed s die → exec (.wakeSlotGrant die) s = .next s) ∧
     (∀ before w after, slotsUsed s die < 16 → s.wakes = before ++ w :: after → arbiterOf w.bank = die → w.granted = false →
       (∀ x ∈ before, arbiterOf x.bank = die → x.granted = true ∨ (x.demand = false ∧ w.demand = true)) →
       (w.demand = true ∨ ∀ x ∈ after, arbiterOf x.bank = die → x.granted = false → x.demand = false) →
       ∃ t, exec (.wakeSlotGrant die) s = .next t ∧
         t.wakes = s.wakes.map (fun x => if x.bank = w.bank then { x with granted := true } else x) ∧
         (bankAt t w.bank).state = (if (bankAt s w.bank).state = .powerDown then .powerDown else .waking) ∧ t.mem = s.mem)) ∧
   (∀ (b : Nat) (w : Wake) (s : State), s.wakes.find? (fun w => w.bank == b && w.granted) = some w →
     (bankAt s b).state ≠ .powerDown →
     ∃ t, exec (.bankWakeComplete b) s = .next t ∧ (bankAt t b).state = .active ∧ (∀ x ∈ t.wakes, x.bank ≠ b) ∧
       (∀ a, memGet t.mem a =
         if w.fromOff = true ∧ (bankRange b).1 ≤ a ∧ a < (bankRange b).1 + (bankRange b).2 then 0 else memGet s.mem a)) ∧
   (∀ (b : Nat) (s : State), (bankAt s b).state = .powerDown →
     exec (.bankPowerDownComplete b) s = .next (onBank b (fun k =>
       { k with state := if s.wakes.any (fun w => w.bank == b && w.granted) = true then .waking else .off }) s))) ∧
  ((∀ (cl : Nat) (s : State), let e : Instr := .clusterRetentionEntry cl
     let rests := (clusterAt s cl).retained = false ∧
       (∀ c ∈ allCores s, clusterOf c.phys = cl → coreRests c = true ∧ ∀ q ∈ c.pend, q.blocked c.phys s = false) ∧
       ∀ l ∈ dirtyLines s cl, ownedFor s (cl * 256) l true = false
     (rests → (∀ l ∈ dirtyLines s cl, l ∉ s.hostLines) →
       ∃ t, exec e s = .next t ∧ (clusterAt t cl).retained = true ∧ (clusterAt t cl).lines = []) ∧
     (rests → (∃ l ∈ dirtyLines s cl, l ∈ s.hostLines) →
       exec e s = .next (((dirtyLines s cl).filter s.hostLines.contains).foldl (fun s l => backInvalidate l s) s)) ∧
     (¬ rests → exec e s = .next s)) ∧
   (∀ (cl : Nat) (s : State), (clusterAt s cl).retained = true →
     exec (.clusterRetentionExit cl false) s = .next (onCluster cl (fun c => { c with retained := false }) s)) ∧
   (∀ (cl : Nat) (s : State), (clusterAt s cl).retained = true →
     ∃ t, exec (.clusterRetentionExit cl true) s = .next t ∧ (clusterAt t cl).retained = false ∧ (clusterAt t cl).fold = []))

/-- R209, R381: the oldest request of a lane at a control core is served: one to memory outside the device is performed there, a read of
the register block gives the dword that it names, here HBASE or OVFBASE; its context then has the old value, and the request is gone. A swap into the
block is no part of this step. R195: one at a bad line performs nothing: cause 0x17, at the next boundary of a context that waits for no
value. R263: while a copy channel owns the line the request waits.
R435: a swap into a runtime register by runtime code gives the old value and sets the register: HBASE where bit 0 of the value is
zero, OVFBASE and OVFSIZE where bits 15:0 are and the overflow area is empty, S1ROOT where bits 11:0 are, S1ATTR where the reserved
bits are, the last two once every translation of the partition, and the table entries its walkers hold, are gone, the step waiting while an
access of its context or an operand of the partition is in flight; below runtime privilege it traps with cause 0x03, with a
bit that must be zero with cause 0x09 and EINFO 12, and with an overflow area in use with EINFO 19.
Clauses that are the model's choice: how a bank wakes for such an access (log entry 27), what is recorded (62), EINFO 0 for an offset
that names no register (64), and that a trap of a request that returns nothing comes at a later boundary of its context (112). -/
def Obligations.ProxiesAreServed : Prop :=
  (∀ (d : Fin 4) (lane : Nat) (q : ProxyReq) (rest : List ProxyReq) (p : Partition) (s : State),
     takeProxy s d (fun k => k.lane == lane) = some (q, rest) → partAt s q.part = some p →
     let e : Instr := .proxyAtomicService d.val lane
     (s.owned.any (·.1 == q.pa / 64) = true → exec e s = .next s) ∧
     (s.owned.any (·.1 == q.pa / 64) = false →
     (q.toRegs = false → exec e s = .next (serveProxy q (setProxies d rest s))) ∧
     (q.toRegs = false → q.pa / 64 ∈ s.badLines → lineAt s (clusterOf q.phys) (q.pa / 64) = none → s.partials = [] →
       (∀ c ∈ allCores s, c.upd = [] ∧ c.stashLines = []) →
       ∃ t, exec e s = .next t ∧ ProxyAnswered d q rest (.proxyTrap 0x17 (q.va &&& ~~~0x3F#64) 0) s t ∧ t.mem = s.mem ∧
         (q.returns = false → (ctxOf (coreAt t q.phys) q.ctx).deferred =
           (ctxOf (coreAt s q.phys) q.ctx).deferred ++ [⟨0x17, q.va &&& ~~~0x3F#64, 0⟩])) ∧
     (q.toRegs = true → q.op = .swap → exec e s = .next s) ∧
     (∀ v, q.toRegs = true → q.op ≠ .swap → (q.off = 0x3020 ∧ v = p.hbase) ∨ (q.off = 0x3010 ∧ v = p.ovfbase) →
       ∃ t, exec e s = .next t ∧ ProxyAnswered d q rest (.proxyDone v) s t ∧ t.parts = s.parts ∧ t.mem = s.mem))) ∧
  (∀ (d : Fin 4) (q : ProxyReq) (rest : List ProxyReq) (p : Partition) (s : State), partAt s q.part = some p →
     let taken := fun (lo : Nat) => takeProxy s d (fun k => k.swaps lo (lo + 8)) = some (q, rest)
     let regs : List (Nat × Instr × (Word → Prop) × Word × Partition) :=
       [(0x3020, .hbaseSwap d.val, fun v => v.getLsbD 0 = false, p.hbase, { p with hbase := q.v }),
        (0x3010, .ovfbaseSwap d.val, fun v => bitsOf v 15 0 = 0, p.ovfbase, { p with ovfbase := q.v }),
        (0x3018, .ovfsizeSwap d.val, fun v => bitsOf v 15 0 = 0, p.ovfsize, { p with ovfsize := q.v }),
        (0x3000, .s1rootSwap d.val, fun v => bitsOf v 11 0 = 0, p.s1root, { p with s1root := q.v }),
        (0x3008, .s1attrSwap d.val, fun v => v &&& 0xF8F8F8F8F8F8F8F8 = 0, p.s1attr, { p with s1attr := q.v })]
     ∀ x ∈ regs, taken x.1 →
       (q.runtime = false →
         ∃ t, exec x.2.1 s = .next t ∧ ProxyAnswered d q rest (.proxyTrap 0x03 q.va 0) s t ∧ t.parts = s.parts) ∧
       (q.runtime = true → ¬ x.2.2.1 q.v →
         ∃ t, exec x.2.1 s = .next t ∧ ProxyAnswered d q rest (.proxyTrap 0x09 q.va 12) s t ∧ t.parts = s.parts) ∧
       (q.runtime = true → x.2.2.1 q.v → x.1 = 0x3010 ∨ x.1 = 0x3018 → areaInUse p = true →
         ∃ t, exec x.2.1 s = .next t ∧ ProxyAnswered d q rest (.proxyTrap 0x09 q.va 19) s t ∧ t.parts = s.parts) ∧
       (q.runtime = true → x.2.2.1 q.v → (x.1 = 0x3010 ∨ x.1 = 0x3018 → areaInUse p = false) →
         (x.1 = 0x3000 ∨ x.1 = 0x3008 →
           operandsInFlight (lessStage1 s) q.part 1 0 = false ∧ accessesDone (lessStage1 s) q.phys q.ctx .dev = true ∧
            enginesDone s q.phys q.ctx = true ∧ ∀ c ∈ allCores s, c.pend = [] ∧ c.stashLines = []) →
         ∃ t, exec x.2.1 s = .next t ∧ ProxyAnswered d q rest (.proxyDone x.2.2.2.1) s t ∧ partAt t q.part = some x.2.2.2.2 ∧
           t.mem = s.mem ∧ (x.1 = 0x3000 ∨ x.1 = 0x3008 →
             (∀ c ∈ allCores t, ∀ k ∈ c.tlb ++ c.itlb, k.part ≠ q.part) ∧
             ∀ k ∈ t.clusters, (∀ x ∈ k.tlb, x.part ≠ q.part) ∧ ∀ w ∈ k.walks, w.1 ≠ q.part)) ∧
       (q.runtime = true → x.2.2.1 q.v → x.1 = 0x3000 ∨ x.1 = 0x3008 →
         operandsInFlight (lessStage1 s) q.part 1 0 = true ∨ accessesDone (lessStage1 s) q.phys q.ctx .dev = false ∨
           enginesDone s q.phys q.ctx = false →
         exec x.2.1 s = .next s))

/-- R382: a swap of dword A of a stash entry gives the old value; a valid one is installed only where the entry is legal beside the
others of its allocation, else it traps with EINFO 12; the old entry's lines are written back and invalid; dword B is written only while the entry is not valid, else EINFO 13.
R381, R383, R399: a swap of T0 of a tree without VALID keeps only its defined bits; one with VALID, fewer than 2 leaves or a list that is not
aligned traps with EINFO 14; a legal leaf list that can be read defines the tree, with no failure and its rounds ended. T1 is written as it
is. A configuration of a monitor unit with a reserved bit, or of a unit that another partition owns, traps with EINFO 18; one that enables the unit
takes it for the partition and clears what it has measured, one that does not frees it and keeps the rest. Any other dword traps. All of it holds of a swap with d = s0 too, whose context
waits for no value.
Clauses that are the model's choice: that the undefined bits of T0 are dropped (log entry 96), which accesses an invalidation waits for
(13), EINFO 0 for an offset that names no register (64), and that a trap of a request that returns nothing comes at a later boundary of
its context (112). -/
def Obligations.RegisterBlockSwaps : Prop :=
  ((∀ (d : Fin 4) (q : ProxyReq) (rest : List ProxyReq) (s : State),
     takeProxy s d (fun k => k.swaps 0 0x100 && k.off % 16 == 0) = some (q, rest) →
     let old := stashAt s q (q.off / 16)
     let new : StashEntry := { old with a := q.v }
     (q.v.getLsbD 0 = true → stashOk (coreAt s q.phys) new = false →
       ∃ t, exec (.stashEntryASwap d.val) s = .next t ∧ ProxyAnswered d q rest (.proxyTrap 0x09 q.va 12) s t ∧
         (coreAt t q.phys).stash = (coreAt s q.phys).stash) ∧
     ((q.v.getLsbD 0 = true → stashOk (coreAt s q.phys) new = true) → exec (.stashEntryASwap d.val) s =
       .next (answerProxy q (.proxyDone old.a) (setProxies d rest (putStash q.phys new (emptyStash q.phys old s))))) ∧
     ((q.v.getLsbD 0 = true → stashOk (coreAt s q.phys) new = true) → (coreAt s q.phys).stashLines = [] →
       ∃ t, exec (.stashEntryASwap d.val) s = .next t ∧ ProxyAnswered d q rest (.proxyDone old.a) s t ∧ t.mem = s.mem ∧
         (stashAt t q (q.off / 16)).a = q.v ∧ (stashAt t q (q.off / 16)).b = old.b)) ∧
   (∀ (d : Fin 4) (q : ProxyReq) (rest : List ProxyReq) (s : State),
     takeProxy s d (fun k => k.swaps 0 0x100 && k.off % 16 != 0) = some (q, rest) →
     let old := stashAt s q (q.off / 16)
     (old.a.getLsbD 0 = true → ∃ t, exec (.stashEntryBSwap d.val) s = .next t ∧
       ProxyAnswered d q rest (.proxyTrap 0x09 q.va 13) s t ∧ (coreAt t q.phys).stash = (coreAt s q.phys).stash) ∧
     (old.a.getLsbD 0 = false → ∃ t, exec (.stashEntryBSwap d.val) s = .next t ∧
       ProxyAnswered d q rest (.proxyDone old.b) s t ∧ (stashAt t q (q.off / 16)).b = q.v ∧
       (stashAt t q (q.off / 16)).a = old.a ∧ t.mem = s.mem))) ∧
  ((∀ (d : Fin 4) (q : ProxyReq) (rest : List ProxyReq) (p : Partition) (s : State), partAt s q.part = some p →
     takeProxy s d (fun k => k.swaps 0x1000 0x1080 && k.off % 16 == 0) = some (q, rest) →
     let x := treeOf p (q.off / 16 % 8)
     let n := bitsOf q.v 31 16
     let e : Instr := .treeT0Swap d.val
     (q.v.getLsbD 0 = false → ∃ t y, exec e s = .next t ∧ ProxyAnswered d q rest (.proxyDone x.t0) s t ∧ partAt t q.part = some y ∧
       treeOf y (q.off / 16 % 8) = { x with t0 := q.v &&& 0xFFFF0000#64 }) ∧
     (q.v.getLsbD 0 = true → n < 2 ∨ p.ranks.length < n ∨ x.t1.toNat % 8 ≠ 0 →
       ∃ t, exec e s = .next t ∧ ProxyAnswered d q rest (.proxyTrap 0x09 q.va 14) s t ∧ t.parts = s.parts) ∧
     (∀ l u, q.v.getLsbD 0 = true → 2 ≤ n → n ≤ p.ranks.length → x.t1.toNat % 8 = 0 → readLeaves q x.t1 n s = .ok l u →
       leavesOk p l = true → exec e s = .next (answerProxy q (.proxyDone x.t0) (setProxies d rest
         (putTree q.part ⟨x.idx, q.v &&& 0xFFFF0001#64, x.t1, l, [], [], false⟩ (endRounds false q.part x.idx u))))) ∧
     (∀ l u, q.v.getLsbD 0 = true → 2 ≤ n → n ≤ p.ranks.length → x.t1.toNat % 8 = 0 → readLeaves q x.t1 n s = .ok l u →
       leavesOk p l = true → p.contribs = [] → partAt u q.part = some p →
       ∃ t y, exec e s = .next t ∧ partAt t q.part = some y ∧
         treeOf y (q.off / 16 % 8) = ⟨x.idx, q.v &&& 0xFFFF0001#64, x.t1, l, [], [], false⟩)) ∧
   (∀ (d : Fin 4) (q : ProxyReq) (rest : List ProxyReq) (s : State),
     takeProxy s d (fun k => k.swaps 0x2000 0x2800 && k.off % 256 == 0) = some (q, rest) →
     let u := (clusterAt s (clusterOf q.phys)).mons.get (Fin.ofNat 8 ((q.off - 0x2000) / 256))
     let e : Instr := .monitorConfigSwap d.val
     let free := monConfigOk q.v = true ∧ (u.config.getLsbD 0 = true → bitsOf u.config 35 30 = q.part)
     (¬ free → ∃ t, exec e s = .next t ∧ ProxyAnswered d q rest (.proxyTrap 0x09 q.va 18) s t ∧ t.clusters = s.clusters) ∧
     (free → q.v.getLsbD 0 = true → ∃ t, exec e s = .next t ∧ ProxyAnswered d q rest (.proxyDone (monRead s q)) s t ∧
       (clusterAt t (clusterOf q.phys)).mons.get (Fin.ofNat 8 ((q.off - 0x2000) / 256)) =
         { MonUnit.reset with config := setBits q.v 35 30 q.part }) ∧
     (free → q.v.getLsbD 0 = false → ∃ t, exec e s = .next t ∧ ProxyAnswered d q rest (.proxyDone (monRead s q)) s t ∧
       (clusterAt t (clusterOf q.phys)).mons.get (Fin.ofNat 8 ((q.off - 0x2000) / 256)) =
         { u with config := setBits q.v 35 30 0 })) ∧
   (∀ (d : Fin 4) (q : ProxyReq) (rest : List ProxyReq) (p : Partition) (s : State), partAt s q.part = some p →
     takeProxy s d otherSwap = some (q, rest) →
     let e : Instr := .partitionRegisterWrite d.val
     (q.swaps 0x1000 0x1080 = true → ∃ t y, exec e s = .next t ∧
       ProxyAnswered d q rest (.proxyDone (treeOf p (q.off / 16 % 8)).t1) s t ∧ partAt t q.part = some y ∧
       (treeOf y (q.off / 16 % 8)).t1 = q.v) ∧
     (q.swaps 0x1000 0x1080 = false → ∃ t, exec e s = .next t ∧ t.parts = s.parts ∧
       ProxyAnswered d q rest (.proxyTrap 0x09 q.va (if q.swaps 0x2000 0x2800 = true then 18 else 0)) s t)))

/-- R338, R363, R432, R438, R439, R446, R449: a command of the layout mailbox before the boot, and one whose checks fail, changes nothing but the answer,
which is an error; the checks are those of each command's rule.
R22, R432, R434, R439, R451: a CREATE that is accepted makes a live partition of its cores in ascending physical order, its banks
owned, its launch window zero, its cores serving it; the layout version and the audit log have grown by one, and the audit record extends MR5. A RELEASE with no launch
armed leaves no partition with the tag, none of its cores serving it, its banks without owner and its launch window zero; one with
launches armed first rejects each with reason 7, the completion word 0x702 at DONE, or the black box's code 0x00C where DONE is not
aligned, the arm byte cleared; where such a word waits for a page the partition stands in state 3 and its release in the work of the
scheduler.
R338, R363, R364, R368: SETS2 with an aligned root, no reserved bit among the attributes and a PASID below 2^20 sets the
partition's descriptor; one that breaks a rule changes nothing but the answer. SETQUOTA outside the quantum rules sets the quota of its
cluster, a multiple of 1,024 of at least 1,024 that leaves room for the others; under them it is held to the end of the quantum. Each
appends one audit record.
Clauses that are the model's choice: how a program comes to run from reset (log entry 5), the form of time slices (58), the fields of a
descriptor that CREATE does not give and the moment of the audit record (65), and that a release goes on when a page is there (68). -/
def Obligations.PartitionsComeAndGo : Prop :=
  (∀ (i : Instr) (f : State → Option State) (s : State),
     ((∃ tag cores banks vf det shares, i = .create tag (cores, shares) banks vf det ∧ f = create tag cores banks vf det shares) ∨
       (∃ tag grow shrink limit, i = .resize tag grow shrink limit ∧ f = resize tag grow shrink limit) ∨
       (∃ tag lcore phys, i = .replace tag lcore phys ∧ f = replace tag lcore phys) ∨
       (∃ tag, i = .release tag ∧ f = release tag) ∨
       (∃ tag root attr pasid, i = .sets2 tag root attr pasid ∧ f = setS2 tag root attr pasid) ∨
       (∃ tag cl q, i = .setquota tag cl q ∧ f = setQuota tag cl q)) →
     (s.io.booted = false → exec i s = .next { s with io := { s.io with response := .notBooted } }) ∧
     (s.io.booted = true → f s = none → exec i s = .next { s with io := { s.io with response := .error } }) ∧
     (∀ u, s.io.booted = true → f s = some u → exec i s = .next { u with io := { u.io with response := .data [] } })) ∧
  ((∀ (tag : Nat) (cores banks : List Nat) (vf : Nat) (det : Bool) (shares : List (Nat × Nat)) (s u : State), s.io.booted = true →
     create tag cores banks vf det shares s = some u →
     ∃ t p, exec (.create tag (cores, shares) banks vf det) s = .next t ∧ partAt t tag = some p ∧ p.state = 1 ∧ p.det = det ∧ p.vf = vf ∧
       p.shares = shares ∧ (∀ x ∈ shares, x.1 ∈ cores) ∧ p.grace = 65536 ∧ p.nhold = 96 ∧ p.qlen = 4096 ∧ Extended s t 2 tag ∧
       p.banks = banks ∧ p.ranks.map RankEntry.phys = ascending cores ∧ (∀ r ∈ p.ranks, r.valid = true ∧ r.transit = false) ∧
       (∀ x ∈ cores, servesPart (coreAt t x) tag = true) ∧ (∀ b ∈ banks, (bankAt t b).owner = some tag) ∧
       (∀ a, slotPa tag 0 ≤ a → a < slotPa tag 0 + 4096 → memGet t.mem a = 0) ∧
       t.layout = s.layout + 1 ∧ t.io.auditSeq = s.io.auditSeq + 1) ∧
   (∀ (tag : Nat) (p : Partition) (s : State), s.io.booted = true → partAt s tag = some p → p.state ≠ 3 → armedSlots s tag = [] →
     (s.others.map Core.phys).Pairwise (· < ·) → s.core.phys ∉ s.others.map Core.phys →
     ∃ t, exec (.release tag) s = .next t ∧ partAt t tag = none ∧ Extended s t 3 tag ∧
       (∀ c ∈ allCores t, c.part ≠ some tag ∧ tag ∉ c.serves) ∧ (∀ b ∈ p.banks, (bankAt t b).owner = none) ∧
       (∀ a, slotPa tag 0 ≤ a → a < slotPa tag 0 + 4096 → memGet t.mem a = 0) ∧
       t.layout = s.layout + 1 ∧ t.io.auditSeq = s.io.auditSeq + 1) ∧
   (∀ (tag : Nat) (p : Partition) (s v u : State) (ok : Bool), s.io.booted = true → partAt s tag = some p → p.state ≠ 3 →
     v = stopPartition p (auditLayout 0x0003 tag s) →
     partAt v tag = some { p with state := 3, shadow := none } ∧ Extended s v 3 tag ∧
     ((armedSlots v tag).foldl (fun (x : Bool × State) n =>
         if x.1 = true then abortLaunch { p with state := 3, shadow := none } n x.2 else x) (true, v) = (ok, u) →
       (ok = true → exec (.release tag) s = .next (
         let w := finishRelease { p with state := 3, shadow := none } u
         { w with io := { w.io with response := .data [] } })) ∧
       (ok = false → ∃ t, exec (.release tag) s = .next t ∧ .release tag ∈ t.hwork))) ∧
   (∀ (p : Partition) (slot : Nat) (l : Launch) (s u : State), p.launches.find? (·.slot == slot) = some l →
     let clear := fun (s : State) =>
       homeWrite [(slotPa p.tag slot + 63, 0)] (onPart p.tag (fun p => { p with launches := p.launches.filter (·.slot != slot) }) s)
     let phys := (p.ranks.head?.map RankEntry.phys).getD 1
     (l.done.toNat % 8 = 0 → writeDone phys p.tag l.done 0x702 s = .ok () u → abortLaunch p slot s = (true, clear u)) ∧
     (∀ v, l.done.toNat % 8 = 0 → writeDone phys p.tag l.done 0x702 s = .error (.stall v) u → abortLaunch p slot s = (false, u)) ∧
     (l.done.toNat % 8 ≠ 0 →
       abortLaunch p slot s = (true, clear (record 4 0x00C p.tag 0x3FFF l.done (BitVec.ofNat 64 slot) s))))) ∧
  ((∀ (tag : Nat) (root attr : Word) (pasid : Nat) (p : Partition) (s : State), s.io.booted = true → partAt s tag = some p →
     let ok := p.state ≠ 3 ∧ bitsOf root 11 0 = 0 ∧ attr &&& 0xF8F8F8F8F8F8F8F8 = 0 ∧ pasid < 2 ^ 20
     (ok → ∃ t, exec (.sets2 tag root attr pasid) s = .next t ∧ t.io.response = .data [] ∧ t.io.auditSeq = s.io.auditSeq + 1 ∧
       partAt t tag = some { p with
         s2root := root, s2attr := attr, pasid := pasid
         shadow := p.shadow.map (fun h => { h with s2root := root, s2attr := attr, pasid := pasid }) } ∧ t.mem = s.mem) ∧
     (¬ ok → exec (.sets2 tag root attr pasid) s = .next { s with io := { s.io with response := .error } })) ∧
   (∀ (tag cl q : Nat) (p : Partition) (s u : State), s.io.booted = true → partAt s tag = some p →
     setQuota tag (some cl) q s = some u →
     p.state ≠ 3 ∧ q % 1024 = 0 ∧ 1024 ≤ q ∧ q ≤ 65536 ∧ cl ∈ ringOf p ∧
     ∃ t, exec (.setquota tag (some cl) q) s = .next t ∧ t.io.response = .data [] ∧
       t.io.auditSeq = s.io.auditSeq + 1 ∧ t.parts = s.parts ∧ (quantumRules p = false → quotaOf t cl tag = q) ∧
       (∀ l x, quantumRules p = true → (ranked p).head? = some (l, x) →
         (coreAt t x).held = (coreAt s x).held ++ [(tag, .quota cl q)] ∧ t.clusters = s.clusters)))

/-- R437, R438: an accepted RESIZE stages a shadow layout, its highest logical cores off and the new ones behind the rest, while the
partition is changing and its ranks stay; REPLACE puts the rank in transit; the tick, once what leaves is quiet, swaps the tables, and where
no core leaves and nothing of the partition is ready its layout is then the shadow, the partition live, the layout version the next
(R338: unless a RESIZE would leave a default quota below 1,024 by then, which fails it); a shrink past its limit ends with the layout
unchanged and the answer an error. Under the quantum rules the tick waits for the end of the quantum (R355), and while a partition is
being released the tick goes on with the release. -/
def Obligations.LayoutsChange : Prop :=
  (∀ (tag : Nat) (grow : List Nat) (shrink limit : Nat) (p : Partition) (s u : State), s.io.booted = true →
    partAt s tag = some p → resize tag grow shrink limit s = some u →
    ∃ t q h, exec (.resize tag grow shrink limit) s = .next t ∧ Extended s t 5 tag ∧ partAt t tag = some q ∧ q.state = 2 ∧ q.ranks = p.ranks ∧
      q.shadow = some h ∧ h.limit = s.time + limit ∧ h.ranks.map RankEntry.phys =
        (p.ranks.take (p.ranks.length - shrink)).map RankEntry.phys ++ ascending grow ∧ t.layout = s.layout) ∧
  (∀ (tag lcore phys : Nat) (p : Partition) (old : Nat) (s u : State), s.io.booted = true → partAt s tag = some p →
    physOf p lcore = some old → p.groups = [] → replace tag lcore phys s = some u →
    ∃ t q h, exec (.replace tag lcore phys) s = .next t ∧ partAt t tag = some q ∧ q.state = 2 ∧
      q.ranks[lcore]? = some ⟨old, true, true⟩ ∧ q.shadow = some h ∧ h.leaving = [old] ∧
      h.ranks[lcore]? = some ⟨phys, true, false⟩ ∧ t.layout = s.layout) ∧
  (∀ (tag lcore phys : Nat) (p : Partition) (old : Nat) (s u : State), s.io.booted = true → partAt s tag = some p →
    physOf p lcore = some old → replace tag lcore phys s = some u →
    ∃ v q h, partAt v tag = some q ∧ q.state = 2 ∧ q.ranks[lcore]? = some ⟨old, true, true⟩ ∧ q.shadow = some h ∧ h.leaving = [old] ∧
      h.ranks[lcore]? = some ⟨phys, true, false⟩ ∧ v.layout = s.layout ∧ v.mem = s.mem ∧ Extended s v 5 tag ∧
      exec (.replace tag lcore phys) s = .next (
        let w := (groupCoresAt s p lcore).foldl (fun s x =>
          if (coreAt s x).run.any (·.part == tag) then tryYield x (beginYield x s) else s) (dispatchHolding old v)
        { w with io := { w.io with response := .data [] } })) ∧
  (∀ (tag : Nat) (p : Partition) (s : State), partAt s tag = some p →
    (p.state = 3 → exec (.layoutTick tag) s = .next (goOnRelease tag s)) ∧
    (p.state ≠ 3 → quantumRules p = true ∨ p.shadow = none → exec (.layoutTick tag) s = .next s)) ∧
  (∀ (tag : Nat) (p : Partition) (h : Shadow) (s : State), partAt s tag = some p → p.shadow = some h → p.state ≠ 3 → quantumRules p = false →
    (quiesced s p h = false → exec (.layoutTick tag) s = .next s) ∧
    (quiesced s p h = true → h.shrinking = true → layoutFits p h s = false →
      exec (.layoutTick tag) s = .next (dropChange tag s)) ∧
    (quiesced s p h = true → (h.shrinking = true → layoutFits p h s = true) → ringOf p = ringOf { p with ranks := h.ranks } →
      exec (.layoutTick tag) s = .next (tick p h [] s)) ∧
    (h.shrinking = true → h.leaving = [] → layoutFits p h s = true → ringOf p = ringOf { p with ranks := h.ranks } →
      p.ovfReady = [] → (∀ c ∈ s.clusters, ∀ e ∈ c.ready, e.part ≠ tag) →
      ∃ t q, exec (.layoutTick tag) s = .next t ∧ partAt t tag = some q ∧ q.ranks = h.ranks ∧ q.shadow = none ∧ q.state = 1 ∧
        t.layout = s.layout + 1) ∧
    (∀ l u, quiesced s p h = true → (h.shrinking = true → layoutFits p h s = true) → ringOf p ≠ ringOf { p with ranks := h.ranks } → spilled p s = .ok l u →
      exec (.layoutTick tag) s = .next (tick p h l u))) ∧
  (∀ (tag : Nat) (p : Partition) (h : Shadow) (s : State), partAt s tag = some p → p.shadow = some h →
    exec (.shrinkLimitExpiry tag) s = .next (if h.shrinking = true ∧ h.limit ≤ s.time ∧ h.leaving ≠ [] then dropChange tag s else s) ∧
    (∃ q, partAt (dropChange tag s) tag = some q ∧ q.shadow = none ∧ q.state = 1 ∧ q.ranks = p.ranks ∧
      (dropChange tag s).layout = s.layout ∧ (dropChange tag s).io.response = .error))

/-- R446, R447, R450, R452, R454: after the boot SUMMARY answers 4 KiB, ATTEST a report that begins with MR0 to MR5 and audits itself,
LOGREAD up to 32 records from a sequence number on, BBREAD entries of a recorder; before it each answers an error. Nothing but the
answer, the audit log and the count of free values changes.
R449, R451, R453, R454: an event that firmware may audit is the newest record, with the next sequence number and the hash of the
record before it; other codes append nothing. Requests of one cycle are appended in
ascending order of their requesters. A recorder writes its oldest staged entry, of one time the one of the lowest core, as its newest,
with the count of the entries dropped before it; a fatal error is its last entry and
freezes it, and then it writes no more. A debug unlock is measured into MR4 and audited.
Clauses that are the model's choice: the signature as an opaque function (log entry 6), SHA-384 (8), the bytes of SUMMARY and the
moment at which a report is read (9), the data of the records that the hardware makes (65), and the fuses (110). -/
def Obligations.EvidenceIsKept : Prop :=
  ((∀ (i : Instr) (s : State), s.io.booted = false →
     (i = .summary ∨ (∃ n, i = .attest n) ∨ (∃ a b, i = .logread a b) ∨ (∃ r a b, i = .bbread r a b)) →
     exec i s = .next { s with io := { s.io with response := .notBooted } }) ∧
   (∀ s : State, s.io.booted = true →
     exec .summary s = .next { s with io := { s.io with response := .data (summaryBytes s) } } ∧ (summaryBytes s).length = 4096) ∧
   (∀ (nonce : List Byte) (s : State), s.io.booted = true → ∃ t b seq, exec (.attest nonce) s = .next t ∧
     t.io.response = .data (b ++ Config.sign b) ∧
     b = s.io.mr[0] ++ s.io.mr[1] ++ s.io.mr[2] ++ s.io.mr[3] ++ s.io.mr[4] ++ s.io.mr[5] ++ leBytes 8 s.layout ++ leBytes 8 seq ++
       (nonce ++ List.replicate 32 0).take 32 ∧
     (∀ r, s.io.audit.getLast? = some r → r.seq < 2 ^ 64 → seq = r.seq) ∧ t.io.auditSeq = s.io.auditSeq + 1 ∧
     (t.io.audit.getLast?).map AuditRec.event = some 0x0004 ∧ t.mem = s.mem ∧ t.core = s.core ∧ t.io.mr = s.io.mr) ∧
   (∀ (seq count : Nat) (s : State), s.io.booted = true → ∃ l : List AuditRec, l.length ≤ 32 ∧ l.length ≤ count ∧
     (∀ r ∈ l, r ∈ s.io.audit ∧ seq ≤ r.seq) ∧
     exec (.logread seq count) s = .next { s with io := { s.io with response := .data (l.flatMap AuditRec.bytes) } }) ∧
   (∀ (r index count : Nat) (s : State), s.io.booted = true →
     let b := (List.range (min count 8192)).flatMap (fun k => ((bbAt (recorderAt s r) (index + k)).map BBEntry.bytes).getD [])
     exec (.bbread r index count) s = .next { s with io := { s.io with response := .data b } })) ∧
  ((∀ (asker event : Nat) (data : List Byte) (s : State), let e : Instr := .auditAppend [asker] [event] [data]
     (event = 0 ∨ 10 < event → exec e s = .next s) ∧
     (1 ≤ event → event ≤ 10 → ∃ t, exec e s = .next t ∧ t.io.auditSeq = s.io.auditSeq + 1 ∧
       t.io.audit.getLast? = some ⟨s.io.auditSeq, s.time - s.io.poweredAt, event, 0xFF, data, auditPrev s⟩ ∧
       (s.io.audit.length < 65536 → t.io.audit.dropLast = s.io.audit) ∧ t.io.mr = s.io.mr)) ∧
   (∀ (a b : Nat × Nat × List Byte) (s t u : State), a.1 < b.1 → exec (.auditAppend [a.1] [a.2.1] [a.2.2]) s = .next t → exec (.auditAppend [b.1] [b.2.1] [b.2.2]) t = .next u →
     exec (.auditAppend [a.1, b.1] [a.2.1, b.2.1] [a.2.2, b.2.2]) s = .next u ∧ exec (.auditAppend [b.1, a.1] [b.2.1, a.2.1] [b.2.2, a.2.2]) s = .next u) ∧
   (∀ (r : Nat) (s : State), let b := recorderAt s r
     ∃ t u, exec (.blackBoxWrite r) s = .next t ∧ exec (.fatalError r) s = .next u ∧ t.mem = s.mem ∧ u.mem = s.mem ∧
       (b.frozen = true → recorderAt t r = b ∧ recorderAt u r = b) ∧
       (b.frozen = false → (recorderAt u r).frozen = true ∧ (recorderAt u r).head = b.head + 1 ∧
         (recorderAt u r).entries.getLast? = some ⟨s.time - s.io.poweredAt, 0x010, 0, 0x3FFF, b.dropped, (0, 0)⟩ ∧
         (b.staged = [] → recorderAt t r = b) ∧
         (∀ e rest, b.staged = e :: rest → (∀ x ∈ rest, x.time = e.time → e.core ≤ x.core) →
           (recorderAt t r).staged = rest ∧ (recorderAt t r).head = b.head + 1 ∧ (recorderAt t r).dropped = 0 ∧
           (recorderAt t r).entries.getLast? = some { e with dropped := b.dropped }))) ∧
   (∀ (state : List Byte) (s : State), ∃ t, exec (.debugUnlock state) s = .next t ∧
     t.io.mr[4] = sha384 (s.io.mr[4] ++ sha384 state) ∧ t.io.auditSeq = s.io.auditSeq + 1 ∧
     (t.io.audit.getLast?).map AuditRec.event = some 0x0008))

/-- R449, R451, R454, R461: after a reset no partition lives, every bank is off, and of memory only what lies outside the device is
left; an image under a key whose digest the fuses hold, with a good ECDSA signature, boots the module, each item measured into its
register, and any other does not. A cold reset empties the black boxes and ramps the islands; a warm one, which needs power,
keeps the black boxes, the supplies and the limits and appends audit event 1. Power off leaves no power and an empty audit log.
Clauses that are the model's choice: values after reset that the spec does not give (log entries 1, 4 and 95), and how a key, a signature
and the fuses are written (110).
R184, R437, R449, R451, R461: right after reset no partition lives, the layout version is zero, every bank is off, memory lists nothing, the
measurement registers are zero and the audit log is empty, and no task runs; the registers hold the values of log entry 1, which the
spec does not give. -/
def Obligations.ResetsLose : Prop :=
  (let ok := fun (key sig : List Byte) (items : List (List Byte)) (s : State) =>
     sha384 key = s.io.fuse ∧ ecdsaOk key sig (items.getD 1 []) = true
   let zeros : List Byte := List.replicate 48 0
   let extend := fun (m item : List Byte) => sha384 (m ++ sha384 item)
   let booted := fun (key sig : List Byte) (items : List (List Byte)) (s t : State) =>
     (t.io.booted = true ↔ ok key sig items s) ∧
     (ok key sig items s → t.io.mr[0] = extend zeros (items.getD 0 []) ∧ t.io.mr[1] = extend zeros (items.getD 1 []) ∧
       t.io.mr[2] = [2, 3, 4, 5].foldl (fun m i => extend m (items.getD i [])) zeros ∧ t.io.mr[3] = extend zeros (items.getD 6 []) ∧
       t.io.mr[4] = extend zeros (items.getD 7 []) ∧ t.io.mr[5] = zeros) ∧
     (¬ ok key sig items s → ∀ i : Fin 8, t.io.mr[i] = zeros)
   (∀ (key sig : List Byte) (items : List (List Byte)) (s : State), ∃ t, exec (.coldReset (key, sig) items) s = .next t ∧ t.powered = true ∧
     t.parts = [] ∧ t.banks = [] ∧ t.clusters = [] ∧ t.core = Core.reset 1 ∧ t.others = [] ∧ t.mem = outsideMemory s.mem ∧
     booted key sig items s t ∧ (∀ d : Fin 4, (t.dies.get d).bb = BlackBox.reset) ∧ t.io.bb = BlackBox.reset ∧
     t.io.volts.length = 24 ∧ t.io.fuse = s.io.fuse ∧ t.io.audit = s.io.audit) ∧
   (∀ (key sig : List Byte) (items : List (List Byte)) (s : State),
     (s.powered = false → exec (.warmReset (key, sig) items) s = .next s) ∧
     (s.powered = true → ∃ t r, exec (.warmReset (key, sig) items) s = .next t ∧ t.powered = true ∧
       t.parts = [] ∧ t.banks = [] ∧ (∀ k ∈ t.clusters, k = { Cluster.reset k.id with limit := k.limit }) ∧
       ((s.clusters.map Cluster.id).Nodup → ∀ cl, (clusterAt t cl).limit = (clusterAt s cl).limit) ∧
       (∀ x, coreAt t x = { Core.reset x with freq := (coreAt t x).freq }) ∧ t.mem = outsideMemory s.mem ∧
       booted key sig items s t ∧ (∀ d : Fin 4, (t.dies.get d).bb = (s.dies.get d).bb) ∧ t.io.bb = s.io.bb ∧
       t.io.volts = s.io.volts ∧ t.io.fmax = s.io.fmax ∧ t.io.auditSeq = s.io.auditSeq + 1 ∧
       t.io.audit.getLast? = some r ∧ r.event = 0x0001 ∧ r.part = 0xFF ∧ r.data = Config.packFields 32 [1] ∧
       r.seq = s.io.auditSeq)) ∧
   (∀ s : State, ∃ t, exec .powerOff s = .next t ∧ t.powered = false ∧ t.parts = [] ∧ t.io.audit = [] ∧ t.banks = [] ∧
     t.mem = outsideMemory s.mem ∧ t.io.fuse = s.io.fuse)) ∧
  (State.reset.parts = [] ∧ State.reset.layout = 0 ∧ (∀ b, (bankAt State.reset b).state = .off) ∧ State.reset.mem = [] ∧
     (∀ i : Fin 8, State.reset.io.mr[i] = List.replicate 48 0) ∧ State.reset.io.audit = [] ∧
     (∀ x, (coreAt State.reset x).run = none) ∧ (∀ (x i : Nat) (n : Reg), (ctxOf (coreAt State.reset x) i).regs[n] = 0))

/-- R456 to R460: die budgets that with the I/O die's draw are at most 3,200 W in all give each running core the duty of its share:
min(16, max(1, floor(16 × budget ÷ demand))), the ratio of budget to demand at a core being the least of 1, of that of its die, and of
that of its cluster where it has a limit; 16 to a core at rest, and more than that changes nothing; a ramp window moves a slice's busy
cycles by at most an eighth; a sensitivity below the lower threshold, 0.25 after reset, slows a
core by 125 MHz down to 1 GHz, one above the upper, 0.5, speeds it up within its island's limit; the microcontroller's loop sets the
supplies, the thresholds and the limits, a limit of a cluster above 95 °C a tenth lower, and no core above its
island's maximum, which is 1 to 4 GHz in steps of 125 MHz, stays there; a thermal trip leaves every core of a cluster at 1 GHz and duty 4, a
shutdown the module without power.
Clauses that are the model's choice: the form of the monitors' samples (log entry 3), what memory that lost its power reads as (67), the
frequency after reset (95), and the weights of a demand as opaque constants (111). -/
def Obligations.PowerIsManaged : Prop :=
  (∀ (budgets : List Nat) (counts : List (Nat × List Nat)) (s : State), let e : Instr := .budgetTreeUpdate budgets counts
    let watts := fun (n : List Nat) => Config.demandWeight 0 * n.getD 0 0 + Config.demandWeight 1 * n.getD 1 0 +
      Config.demandWeight 2 * n.getD 2 0 + Config.demandWeight 3 * n.getD 3 0
    let demand := fun (test : Nat → Bool) => ((counts.filter (fun x => test x.1)).map (fun x => watts x.2)).sum
    let share := fun (b d : Nat) => if d = 0 ∨ d ≤ b then 16 else 16 * b / d
    (3200000 < (budgets.take 5).sum → exec e s = .next s) ∧
    ((budgets.take 5).sum ≤ 3200000 → ((allCores s).map Core.phys).Nodup →
      ∃ t, exec e s = .next t ∧ t.mem = s.mem ∧ ∀ c ∈ allCores s,
        let ofDie := share (budgets.getD (dieOf c.phys) 0) (demand (fun x => dieOf x == dieOf c.phys))
        let ofCluster := ((clusterAt s (clusterOf c.phys)).limit.map (fun l =>
          share l (demand (fun x => clusterOf x == clusterOf c.phys)))).getD 16
        (coreAt t c.phys).duty = if c.run.isSome = true then min 16 (max 1 (min ofDie ofCluster)) else 16)) ∧
  (∀ (core busy : Nat) (s : State), let c := coreAt s core
    ∃ t, exec (.rampWindow core busy) s = .next t ∧ (coreAt t core).busyPrev ≤ c.busyPrev + c.freq / 8 ∧
      c.busyPrev ≤ (coreAt t core).busyPrev + c.freq / 8 ∧
      (c.busyPrev ≤ busy + c.freq / 8 → busy ≤ c.busyPrev + c.freq / 8 → (coreAt t core).busyPrev = busy) ∧
      (coreAt t core).ctl = c.ctl ∧ t.mem = s.mem) ∧
  (∀ (core cycles stalls : Nat) (s : State), stalls ≤ cycles → let c := coreAt s core
    ∃ t, exec (.governorWindow core cycles stalls) s = .next t ∧ t.mem = s.mem ∧
      let slow := 100 * (cycles - stalls) < s.io.slowBelow * cycles
      let fast := s.io.fastAbove * cycles < 100 * (cycles - stalls)
      (slow → (coreAt t core).freq = max 1000 (c.freq - 125)) ∧
      (¬ slow → ¬ fast → (coreAt t core).freq = c.freq) ∧
      (¬ slow → fast → c.freq ≤ maxFreq s core → (coreAt t core).freq = min (c.freq + 125) (maxFreq s core)) ∧
      (c.freq % 125 = 0 → (coreAt t core).freq % 125 = 0)) ∧
  (State.reset.io.slowBelow = 25 ∧ State.reset.io.fastAbove = 50) ∧
  (∀ (temps volts fmax limits : List Nat) (slowBelow fastAbove : Nat) (s : State),
    ∃ t, exec (.microcontrollerLoop temps volts fmax (limits, slowBelow, fastAbove)) s = .next t ∧
    t.io.volts = volts.take 24 ∧ t.io.fmax = fmax.take 24 ∧ t.io.slowBelow = slowBelow ∧ t.io.fastAbove = fastAbove ∧ t.mem = s.mem ∧
    (∀ x, 1000 ≤ maxFreq t x ∧ maxFreq t x ≤ 4000 ∧ maxFreq t x % 125 = 0) ∧
    ((∀ c ∈ allCores s, c.freq ≤ 4000) → ∀ x, isCore x = true → (coreAt t x).freq ≤ maxFreq t x) ∧
    ∀ i l, i < 40 →
      ((∀ k, k < 4 → temps.getD (4 * i + k) 0 ≤ 95) → limits[i]? = some l → (clusterAt t (nthCluster i)).limit = some l) ∧
      ((∃ k, k < 4 ∧ 95 < temps.getD (4 * i + k) 0) → (clusterAt s (nthCluster i)).limit = some l →
        (clusterAt t (nthCluster i)).limit = some (l - (l + 9) / 10))) ∧
  (∀ (cl : Nat) (s : State), ∃ t, exec (.thermalTrip cl) s = .next t ∧ t.io.auditSeq = s.io.auditSeq + 1 ∧
    (t.io.audit.getLast?).map AuditRec.event = some 0x000A ∧
    ∀ x, isCore x = true → clusterOf x = cl → (coreAt t x).freq = 1000 ∧ (coreAt t x).duty = 4) ∧
  (∀ s : State, ∃ t, exec .thermalShutdown s = .next t ∧ t.powered = false ∧ t.others = [] ∧
    (∀ k ∈ t.clusters, k = { Cluster.reset k.id with limit := k.limit }) ∧
    t.core = Core.reset 1 ∧ (∀ b ∈ t.banks, b.id < 8192 → b.state = .off) ∧ (recorderAt t 4).frozen = true)

/-- Memory and the local stores are in the canonical form right after reset (log entry 4). -/
def Obligations.MemoryCanonicalAtReset : Prop := MemoriesCanonical State.reset

/-- Every step keeps memory and every local store in the canonical form: equal memories are equal data (log entry 4). -/
def Obligations.MemoryStaysCanonical : Prop :=
  ∀ s t : State, MemoriesCanonical s → step s = .next t → MemoriesCanonical t
end

