-- ==== Sys2Proof/Laws/Act.lean ====
section
/-!
SUPPORT. How acts run: one lemma for each way in which an act is put together, so that no proof unfolds the monad.
-/

namespace Sys2Proof.Machine

variable {α β : Type} {s t : State} {x : α} {e : Stop}

@[simp] theorem pure_run (x : α) (s : State) : (pure x : Act α) s = .ok x s := rfl

@[simp] theorem get_run (s : State) : (get : Act State) s = .ok s s := rfl

@[simp] theorem set_run (t s : State) : (set t : Act Unit) s = .ok () t := rfl

@[simp] theorem modify_run (f : State → State) (s : State) : (modify f : Act Unit) s = .ok () (f s) := rfl

@[simp] theorem throw_run (e : Stop) (s : State) : (throw e : Act α) s = .error e s := rfl

@[simp] theorem trapAct_run (c : BitVec 8) (v i : Word) (s : State) :
    (trapAct c v i : Act α) s = .error (.trap c v i) s := rfl

@[simp] theorem stallAct_run (p : Bool) (s : State) : (stallAct p : Act α) s = .error (.stall p) s := rfl

theorem bind_run (a : Act α) (f : α → Act β) (s : State) :
    (a >>= f) s = match a s with | .ok x t => f x t | .error e t => .error e t := by
  change EStateM.bind a f s = _
  unfold EStateM.bind
  cases a s <;> rfl

/-- After an act that ends, the next one goes on. -/
theorem bind_ok {a : Act α} {f : α → Act β} (h : a s = .ok x t) : (a >>= f) s = f x t := by
  rw [bind_run, h]

/-- After an act that stops, nothing goes on. -/
theorem bind_error {a : Act α} {f : α → Act β} (h : a s = .error e t) : (a >>= f) s = .error e t := by
  rw [bind_run, h]

@[simp] theorem get_bind (f : State → Act β) (s : State) : ((get : Act State) >>= f) s = f s s := rfl

@[simp] theorem set_bind (t : State) (f : Unit → Act β) (s : State) : ((set t : Act Unit) >>= f) s = f () t := rfl

@[simp] theorem modify_bind (g : State → State) (f : Unit → Act β) (s : State) :
    ((modify g : Act Unit) >>= f) s = f () (g s) := rfl

@[simp] theorem pure_bind' (x : α) (f : α → Act β) (s : State) : ((pure x : Act α) >>= f) s = f x s := rfl

@[simp] theorem throw_bind (e : Stop) (f : α → Act β) (s : State) : ((throw e : Act α) >>= f) s = .error e s := rfl

@[simp] theorem trapAct_bind (c : BitVec 8) (v i : Word) (f : α → Act β) (s : State) :
    ((trapAct c v i : Act α) >>= f) s = .error (.trap c v i) s := rfl

@[simp] theorem stallAct_bind (p : Bool) (f : α → Act β) (s : State) :
    ((stallAct p : Act α) >>= f) s = .error (.stall p) s := rfl

/-- A sequence ends where its second part ends from where its first part ended. -/
theorem seq_ok {a : Act Unit} {b : Act β} (h : a s = .ok () t) : (do a; b : Act β) s = b t := bind_ok h

/-- A choice between acts runs the one that is chosen. -/
theorem ite_run (c : Prop) [Decidable c] (a b : Act α) (s : State) : (if c then a else b) s = if c then a s else b s := by
  split <;> rfl

/-- An act under a condition and then another. -/
theorem when_bind (c : Prop) [Decidable c] (a : Act Unit) (f : Unit → Act β) (s : State) :
    ((if c then a else pure ()) >>= f) s = if c then (a >>= f) s else f () s := by
  split <;> rfl

/-- Work whose stop is an answer never stops. -/
theorem attempt_ok {a : Act α} (h : a s = .ok x t) : attempt a s = .ok (.ok x) t := by
  simp [attempt, h]

theorem attempt_error {a : Act α} (h : a s = .error e t) : attempt a s = .ok (.error e) t := by
  simp [attempt, h]

end Sys2Proof.Machine
end

