-- ==== Sys2Proof/Laws/Memory.lean ====
section
/-!
SUPPORT. The contents of memory: what a read gives after each way of writing, and that each keeps the canonical form.
-/

namespace Sys2Proof.Machine

/-! ### Reads after writes -/

theorem memGet_below : ∀ {m : Memory} {a : Nat}, (∀ c ∈ m, a < c.1) → memGet m a = 0
  | [], _, _ => rfl
  | (k, v) :: m, a, h => by
    have hk : a < k := h (k, v) (by simp)
    rw [memGet, if_neg (by omega)]
    exact memGet_below (fun c hc => h c (by simp [hc]))

theorem memGet_memSet : ∀ (m : Memory) (_ : m.Pairwise (fun c d => c.1 < d.1)) (a b : Nat) (v : Byte),
    memGet (memSet m a v) b = if b = a then v else memGet m b
  | [], _, a, b, v => by
    unfold memSet
    split
    · rename_i hv; rw [hv]; simp [memGet]
    · rfl
  | (k, w) :: m, h, a, b, v => by
    have hm := (List.pairwise_cons.mp h).2
    have hlt := (List.pairwise_cons.mp h).1
    have ih := memGet_memSet m hm a b v
    unfold memSet
    by_cases h1 : a < k
    · have hz : memGet ((k, w) :: m) a = 0 := by
        refine memGet_below fun c hc => ?_
        rcases List.mem_cons.mp hc with rfl | hc
        · exact h1
        · exact lt_trans h1 (hlt c hc)
      by_cases hv : v = 0
      · rw [if_pos h1, if_pos hv]
        by_cases hb : b = a
        · rw [if_pos hb, hb, hz, hv]
        · rw [if_neg hb]
      · rw [if_pos h1, if_neg hv]; rfl
    · by_cases h2 : a = k
      · subst h2
        have hz : memGet m a = 0 := memGet_below hlt
        by_cases hv : v = 0
        · rw [if_neg h1, if_pos rfl, if_pos hv]
          by_cases hb : b = a
          · rw [if_pos hb, hb, hz, hv]
          · rw [if_neg hb, memGet, if_neg hb]
        · rw [if_neg h1, if_pos rfl, if_neg hv]
          by_cases hb : b = a <;> simp [memGet, hb]
      · rw [if_neg h1, if_neg h2]
        by_cases hb : b = k
        · subst hb; simp [memGet, Ne.symm h2]
        · rw [memGet, if_neg hb, ih, memGet, if_neg hb]

/-- A range that was cleared reads zero, and every other byte is what it was. -/
theorem memGet_memClear : ∀ (m : Memory) (lo n a : Nat),
    memGet (memClear m lo n) a = if lo ≤ a ∧ a < lo + n then 0 else memGet m a
  | [], lo, n, a => by simp [memClear, memGet]
  | (k, v) :: m, lo, n, a => by
    have ih := memGet_memClear m lo n a
    unfold memClear at ih ⊢
    rw [List.filter_cons]
    by_cases hk : (decide (k < lo) || decide (lo + n ≤ k)) = true
    · rw [if_pos hk, memGet, ih, memGet]
      by_cases ha : a = k
      · subst ha; simp only [Bool.or_eq_true, decide_eq_true_eq] at hk
        rw [if_pos rfl, if_neg (by omega), if_pos rfl]
      · rw [if_neg ha, if_neg ha]
    · rw [if_neg hk, ih, memGet]
      by_cases ha : a = k
      · subst ha; simp only [Bool.or_eq_true, decide_eq_true_eq, not_or] at hk
        rw [if_pos (by omega), if_pos (by omega)]
      · rw [if_neg ha]

/-! ### The canonical form -/

@[simp] theorem memory_nil_wf : Memory.wf [] := ⟨List.Pairwise.nil, by simp⟩

/-- Part of a memory in the canonical form is in it. -/
theorem memory_sublist_wf {m m' : Memory} (h : m'.Sublist m) (hm : Memory.wf m) : Memory.wf m' :=
  ⟨hm.1.sublist h, fun c hc => hm.2 c (h.subset hc)⟩

theorem memFilter_wf {m : Memory} (p : Nat × Byte → Bool) (h : Memory.wf m) : Memory.wf (m.filter p) :=
  memory_sublist_wf List.filter_sublist h

theorem memClear_wf {m : Memory} (lo n : Nat) (h : Memory.wf m) : Memory.wf (memClear m lo n) := memFilter_wf _ h

/-- A bound below every address of a memory is below every address after a write above it. -/
theorem memSet_above : ∀ {m : Memory} {k a : Nat} {v : Byte}, (∀ c ∈ m, k < c.1) → k < a → ∀ c ∈ memSet m a v, k < c.1
  | [], k, a, v, _, ha, c, hc => by
    unfold memSet at hc
    split at hc
    · simp at hc
    · simp only [List.mem_singleton] at hc; subst hc; exact ha
  | (j, w) :: m, k, a, v, h, ha, c, hc => by
    have hj : k < j := h (j, w) (by simp)
    have hm : ∀ c ∈ m, k < c.1 := fun c hc => h c (by simp [hc])
    unfold memSet at hc
    split at hc
    · split at hc
      · exact h c hc
      · rcases List.mem_cons.mp hc with rfl | hc
        · exact ha
        · exact h c hc
    · split at hc
      · split at hc
        · exact hm c hc
        · rcases List.mem_cons.mp hc with rfl | hc
          · exact ha
          · exact hm c hc
      · rcases List.mem_cons.mp hc with rfl | hc
        · exact hj
        · exact memSet_above hm ha c hc

theorem memSet_wf : ∀ {m : Memory} (a : Nat) (v : Byte), Memory.wf m → Memory.wf (memSet m a v)
  | [], a, v, _ => by
    unfold memSet
    split
    · exact memory_nil_wf
    · exact ⟨List.pairwise_singleton _ _, by simpa⟩
  | (k, w) :: m, a, v, h => by
    have hlt := (List.pairwise_cons.mp h.1).1
    have hm : Memory.wf m := ⟨(List.pairwise_cons.mp h.1).2, fun c hc => h.2 c (by simp [hc])⟩
    unfold memSet
    split
    · split
      · exact h
      · rename_i h1 hv
        refine ⟨List.pairwise_cons.mpr ⟨fun c hc => ?_, h.1⟩, fun c hc => ?_⟩
        · rcases List.mem_cons.mp hc with rfl | hc
          · exact h1
          · exact lt_trans h1 (hlt c hc)
        · rcases List.mem_cons.mp hc with rfl | hc
          · exact hv
          · exact h.2 c hc
    · split
      · rename_i h2
        subst h2
        split
        · exact hm
        · rename_i hv
          refine ⟨List.pairwise_cons.mpr ⟨hlt, hm.1⟩, fun c hc => ?_⟩
          rcases List.mem_cons.mp hc with rfl | hc
          · exact hv
          · exact hm.2 c hc
      · rename_i h1 h2
        have ih := memSet_wf a v hm
        refine ⟨List.pairwise_cons.mpr ⟨fun c hc => memSet_above hlt (by omega) c hc, ih.1⟩, fun c hc => ?_⟩
        rcases List.mem_cons.mp hc with rfl | hc
        · exact h.2 (k, w) (by simp)
        · exact ih.2 c hc

theorem memPut_wf : ∀ {m : Memory} (l : List (Nat × Byte)), Memory.wf m → Memory.wf (memPut m l)
  | _, [], h => h
  | m, c :: l, h => memPut_wf (m := memSet m c.1 c.2) l (memSet_wf _ _ h)

theorem memWrite_wf : ∀ {m : Memory} (a : Nat) (bs : List Byte), Memory.wf m → Memory.wf (memWrite m a bs)
  | _, _, [], h => h
  | m, a, b :: bs, h => memWrite_wf (m := memSet m a b) (a + 1) bs (memSet_wf _ _ h)

/-! ### Consecutive bytes -/

/-- Bytes that were written are read; every other byte is what it was. -/
theorem memGet_memWrite : ∀ {m : Memory} (a : Nat) (bs : List Byte) (b : Nat), Memory.wf m →
    memGet (memWrite m a bs) b = if a ≤ b ∧ b < a + bs.length then bs[b - a]! else memGet m b
  | m, a, [], b, _ => by rw [if_neg (by simp only [List.length_nil]; omega)]; rfl
  | m, a, x :: bs, b, h => by
    rw [memWrite, memGet_memWrite (a + 1) bs b (memSet_wf a x h), memGet_memSet m h.1]
    by_cases h1 : a + 1 ≤ b ∧ b < a + 1 + bs.length
    · rw [if_pos h1, if_pos (by simp only [List.length_cons]; omega)]
      obtain ⟨j, rfl⟩ : ∃ j, b = a + 1 + j := ⟨b - (a + 1), by omega⟩
      rw [show a + 1 + j - (a + 1) = j by omega, show a + 1 + j - a = j + 1 by omega]; rfl
    · rw [if_neg h1]
      by_cases h2 : b = a
      · subst h2; rw [if_pos rfl, if_pos (by simp)]; simp
      · rw [if_neg h2, if_neg (by simp; omega)]

theorem memRead_memWrite {m : Memory} (a : Nat) (bs : List Byte) (h : Memory.wf m) :
    memRead (memWrite m a bs) a bs.length = bs := by
  refine List.ext_getElem (by simp [memRead]) fun i h1 h2 => ?_
  simp only [memRead, List.getElem_map, List.getElem_range]
  rw [memGet_memWrite a bs _ h, if_pos ⟨by omega, by omega⟩, show a + i - a = i by omega, getElem!_pos bs i h2]

end Sys2Proof.Machine
end

