-- ==== Sys2Proof/Laws/PerInstr.lean ====
section
/-!
SUPPORT. What holds of each instruction as syntax: the form of its word (R42, R44, R46). An encoded instruction is a halfword
whose bit 0 is 0, or a word of 32 bits whose bit 0 is 1; an event of the opcode table has no word.
-/

namespace Sys2Proof.Laws.WordForm

/-- The word of an instruction has the form of its length (R42). -/
def Statement (i : Instr) : Prop :=
  ∀ n w, encode i = some (n, w) → (n = 16 ∧ w % 2 = 0 ∧ w < 2 ^ 16) ∨ (n = 32 ∧ w % 2 = 1 ∧ w < 2 ^ 32)

theorem bit_lt (b : Bool) : bit b < 2 := by cases b <;> decide

theorem scope_lt (s : Scope) : s.code < 6 := by cases s <;> decide

theorem of_none {i : Instr} (h : encode i = none) : Statement i := fun n w e => by rw [h] at e; cases e

theorem of_word {i : Instr} {v : Nat} (h : encode i = some (32, v)) (h1 : v % 2 = 1) (h2 : v < 2 ^ 32) : Statement i :=
  fun n w e => by rw [h] at e; cases e; exact .inr ⟨rfl, h1, h2⟩

theorem of_half {i : Instr} {v : Nat} (h : encode i = some (16, v)) (h1 : v % 2 = 0) (h2 : v < 2 ^ 16) : Statement i :=
  fun n w e => by rw [h] at e; cases e; exact .inl ⟨rfl, h1, h2⟩

theorem rr {i : Instr} {m f y x b a d : Nat} (h : encode i = some (32, packRR m f y x b a d)) (hm : m < 63) (hf : f < 256)
    (hy : y < 2) (hx : x < 2) (hb : b < 32) (ha : a < 32) (hd : d < 32) : Statement i :=
  of_word h (by unfold packRR; omega) (by unfold packRR; omega)

theorem sync {i : Instr} {f s w b a d : Nat} (h : encode i = some (32, packSync f s w b a d)) (hf : f < 64) (hs : s < 8)
    (hw : w < 2) (hb : b < 32) (ha : a < 32) (hd : d < 32) : Statement i :=
  of_word h (by unfold packSync; omega) (by unfold packSync; omega)

theorem ri {i : Instr} {m k w a d : Nat} (h : encode i = some (32, packRI m k w a d)) (hm : m < 63) (hk : k < 2 ^ 14)
    (hw : w < 2) (ha : a < 32) (hd : d < 32) : Statement i :=
  of_word h (by unfold packRI; omega) (by unfold packRI; omega)

theorem u {i : Instr} {m k d : Nat} (h : encode i = some (32, packU m k d)) (hm : m < 63) (hk : k < 2 ^ 20) (hd : d < 32) :
    Statement i :=
  of_word h (by unfold packU; omega) (by unfold packU; omega)

theorem br {i : Instr} {m k c w b a : Nat} (h : encode i = some (32, packB m k c w b a)) (hm : m < 63) (hk : k < 2 ^ 12)
    (hc : c < 4) (hw : w < 2) (hb : b < 32) (ha : a < 32) : Statement i :=
  of_word h (by unfold packB; omega) (by unfold packB; omega)

theorem mem {i : Instr} {m k z w a d : Nat} (h : encode i = some (32, packM m k z w a d)) (hm : m < 63) (hk : k < 2 ^ 11)
    (hz : z < 8) (hw : w < 2) (ha : a < 32) (hd : d < 32) : Statement i :=
  of_word h (by unfold packM; omega) (by unfold packM; omega)

theorem amo {i : Instr} {m op z s w b a d : Nat} (h : encode i = some (32, packA m op z s w b a d)) (hm : m < 63)
    (hop : op < 32) (hz : z < 2) (hs : s < 8) (hw : w < 2) (hb : b < 32) (ha : a < 32) (hd : d < 32) : Statement i :=
  of_word h (by unfold packA; omega) (by unfold packA; omega)

theorem tensor {i : Instr} {f w c b a d : Nat} (h : encode i = some (32, packT f w c b a d)) (hf : f < 16) (hw : w < 2)
    (hc : c < 32) (hb : b < 32) (ha : a < 32) (hd : d < 32) : Statement i :=
  of_word h (by unfold packT; omega) (by unfold packT; omega)

theorem compact {i : Instr} {op w b d : Nat} (h : encode i = some (16, packC op w b d)) (hop : op < 16) (hw : w < 2)
    (hb : b < 32) (hd : d < 32) : Statement i :=
  of_half h (by unfold packC; omega) (by unfold packC; omega)

theorem add (d : Reg) (a : Reg) (b : Reg) (wa : Bool) (wb : Bool) : Statement (.add d a b wa wb) :=
  rr rfl (by decide) (by decide) (bit_lt _) (bit_lt _) (lt_of_lt_of_le b.isLt (by decide)) (lt_of_lt_of_le a.isLt (by decide)) (lt_of_lt_of_le d.isLt (by decide))
theorem sub (d : Reg) (a : Reg) (b : Reg) (wa : Bool) (wb : Bool) : Statement (.sub d a b wa wb) :=
  rr rfl (by decide) (by decide) (bit_lt _) (bit_lt _) (lt_of_lt_of_le b.isLt (by decide)) (lt_of_lt_of_le a.isLt (by decide)) (lt_of_lt_of_le d.isLt (by decide))
theorem mul (d : Reg) (a : Reg) (b : Reg) (wa : Bool) (wb : Bool) : Statement (.mul d a b wa wb) :=
  rr rfl (by decide) (by decide) (bit_lt _) (bit_lt _) (lt_of_lt_of_le b.isLt (by decide)) (lt_of_lt_of_le a.isLt (by decide)) (lt_of_lt_of_le d.isLt (by decide))
theorem mulh (d : Reg) (a : Reg) (b : Reg) (wa : Bool) (wb : Bool) : Statement (.mulh d a b wa wb) :=
  rr rfl (by decide) (by decide) (bit_lt _) (bit_lt _) (lt_of_lt_of_le b.isLt (by decide)) (lt_of_lt_of_le a.isLt (by decide)) (lt_of_lt_of_le d.isLt (by decide))
theorem mulhn (d : Reg) (a : Reg) (b : Reg) (wa : Bool) (wb : Bool) : Statement (.mulhn d a b wa wb) :=
  rr rfl (by decide) (by decide) (bit_lt _) (bit_lt _) (lt_of_lt_of_le b.isLt (by decide)) (lt_of_lt_of_le a.isLt (by decide)) (lt_of_lt_of_le d.isLt (by decide))
theorem div (d : Reg) (a : Reg) (b : Reg) (wa : Bool) (wb : Bool) : Statement (.div d a b wa wb) :=
  rr rfl (by decide) (by decide) (bit_lt _) (bit_lt _) (lt_of_lt_of_le b.isLt (by decide)) (lt_of_lt_of_le a.isLt (by decide)) (lt_of_lt_of_le d.isLt (by decide))
theorem divn (d : Reg) (a : Reg) (b : Reg) (wa : Bool) (wb : Bool) : Statement (.divn d a b wa wb) :=
  rr rfl (by decide) (by decide) (bit_lt _) (bit_lt _) (lt_of_lt_of_le b.isLt (by decide)) (lt_of_lt_of_le a.isLt (by decide)) (lt_of_lt_of_le d.isLt (by decide))
theorem rem (d : Reg) (a : Reg) (b : Reg) (wa : Bool) (wb : Bool) : Statement (.rem d a b wa wb) :=
  rr rfl (by decide) (by decide) (bit_lt _) (bit_lt _) (lt_of_lt_of_le b.isLt (by decide)) (lt_of_lt_of_le a.isLt (by decide)) (lt_of_lt_of_le d.isLt (by decide))
theorem remn (d : Reg) (a : Reg) (b : Reg) (wa : Bool) (wb : Bool) : Statement (.remn d a b wa wb) :=
  rr rfl (by decide) (by decide) (bit_lt _) (bit_lt _) (lt_of_lt_of_le b.isLt (by decide)) (lt_of_lt_of_le a.isLt (by decide)) (lt_of_lt_of_le d.isLt (by decide))
theorem and (d : Reg) (a : Reg) (b : Reg) (wa : Bool) (wb : Bool) : Statement (.and d a b wa wb) :=
  rr rfl (by decide) (by decide) (bit_lt _) (bit_lt _) (lt_of_lt_of_le b.isLt (by decide)) (lt_of_lt_of_le a.isLt (by decide)) (lt_of_lt_of_le d.isLt (by decide))
theorem or (d : Reg) (a : Reg) (b : Reg) (wa : Bool) (wb : Bool) : Statement (.or d a b wa wb) :=
  rr rfl (by decide) (by decide) (bit_lt _) (bit_lt _) (lt_of_lt_of_le b.isLt (by decide)) (lt_of_lt_of_le a.isLt (by decide)) (lt_of_lt_of_le d.isLt (by decide))
theorem xor (d : Reg) (a : Reg) (b : Reg) (wa : Bool) (wb : Bool) : Statement (.xor d a b wa wb) :=
  rr rfl (by decide) (by decide) (bit_lt _) (bit_lt _) (lt_of_lt_of_le b.isLt (by decide)) (lt_of_lt_of_le a.isLt (by decide)) (lt_of_lt_of_le d.isLt (by decide))
theorem andn (d : Reg) (a : Reg) (b : Reg) (wa : Bool) (wb : Bool) : Statement (.andn d a b wa wb) :=
  rr rfl (by decide) (by decide) (bit_lt _) (bit_lt _) (lt_of_lt_of_le b.isLt (by decide)) (lt_of_lt_of_le a.isLt (by decide)) (lt_of_lt_of_le d.isLt (by decide))
theorem sll (d : Reg) (a : Reg) (b : Reg) (wa : Bool) (wb : Bool) : Statement (.sll d a b wa wb) :=
  rr rfl (by decide) (by decide) (bit_lt _) (bit_lt _) (lt_of_lt_of_le b.isLt (by decide)) (lt_of_lt_of_le a.isLt (by decide)) (lt_of_lt_of_le d.isLt (by decide))
theorem srl (d : Reg) (a : Reg) (b : Reg) (wa : Bool) (wb : Bool) : Statement (.srl d a b wa wb) :=
  rr rfl (by decide) (by decide) (bit_lt _) (bit_lt _) (lt_of_lt_of_le b.isLt (by decide)) (lt_of_lt_of_le a.isLt (by decide)) (lt_of_lt_of_le d.isLt (by decide))
theorem sra (d : Reg) (a : Reg) (b : Reg) (wa : Bool) (wb : Bool) : Statement (.sra d a b wa wb) :=
  rr rfl (by decide) (by decide) (bit_lt _) (bit_lt _) (lt_of_lt_of_le b.isLt (by decide)) (lt_of_lt_of_le a.isLt (by decide)) (lt_of_lt_of_le d.isLt (by decide))
theorem ror (d : Reg) (a : Reg) (b : Reg) (wa : Bool) (wb : Bool) : Statement (.ror d a b wa wb) :=
  rr rfl (by decide) (by decide) (bit_lt _) (bit_lt _) (lt_of_lt_of_le b.isLt (by decide)) (lt_of_lt_of_le a.isLt (by decide)) (lt_of_lt_of_le d.isLt (by decide))
theorem min (d : Reg) (a : Reg) (b : Reg) (wa : Bool) (wb : Bool) : Statement (.min d a b wa wb) :=
  rr rfl (by decide) (by decide) (bit_lt _) (bit_lt _) (lt_of_lt_of_le b.isLt (by decide)) (lt_of_lt_of_le a.isLt (by decide)) (lt_of_lt_of_le d.isLt (by decide))
theorem max (d : Reg) (a : Reg) (b : Reg) (wa : Bool) (wb : Bool) : Statement (.max d a b wa wb) :=
  rr rfl (by decide) (by decide) (bit_lt _) (bit_lt _) (lt_of_lt_of_le b.isLt (by decide)) (lt_of_lt_of_le a.isLt (by decide)) (lt_of_lt_of_le d.isLt (by decide))
theorem minn (d : Reg) (a : Reg) (b : Reg) (wa : Bool) (wb : Bool) : Statement (.minn d a b wa wb) :=
  rr rfl (by decide) (by decide) (bit_lt _) (bit_lt _) (lt_of_lt_of_le b.isLt (by decide)) (lt_of_lt_of_le a.isLt (by decide)) (lt_of_lt_of_le d.isLt (by decide))
theorem maxn (d : Reg) (a : Reg) (b : Reg) (wa : Bool) (wb : Bool) : Statement (.maxn d a b wa wb) :=
  rr rfl (by decide) (by decide) (bit_lt _) (bit_lt _) (lt_of_lt_of_le b.isLt (by decide)) (lt_of_lt_of_le a.isLt (by decide)) (lt_of_lt_of_le d.isLt (by decide))
theorem slt (d : Reg) (a : Reg) (b : Reg) (wa : Bool) (wb : Bool) : Statement (.slt d a b wa wb) :=
  rr rfl (by decide) (by decide) (bit_lt _) (bit_lt _) (lt_of_lt_of_le b.isLt (by decide)) (lt_of_lt_of_le a.isLt (by decide)) (lt_of_lt_of_le d.isLt (by decide))
theorem sltn (d : Reg) (a : Reg) (b : Reg) (wa : Bool) (wb : Bool) : Statement (.sltn d a b wa wb) :=
  rr rfl (by decide) (by decide) (bit_lt _) (bit_lt _) (lt_of_lt_of_le b.isLt (by decide)) (lt_of_lt_of_le a.isLt (by decide)) (lt_of_lt_of_le d.isLt (by decide))
theorem seq (d : Reg) (a : Reg) (b : Reg) (wa : Bool) (wb : Bool) : Statement (.seq d a b wa wb) :=
  rr rfl (by decide) (by decide) (bit_lt _) (bit_lt _) (lt_of_lt_of_le b.isLt (by decide)) (lt_of_lt_of_le a.isLt (by decide)) (lt_of_lt_of_le d.isLt (by decide))
theorem clz (d : Reg) (a : Reg) (wa : Bool) : Statement (.clz d a wa) :=
  rr rfl (by decide) (by decide) (by decide) (bit_lt _) (by decide) (lt_of_lt_of_le a.isLt (by decide)) (lt_of_lt_of_le d.isLt (by decide))
theorem ctz (d : Reg) (a : Reg) (wa : Bool) : Statement (.ctz d a wa) :=
  rr rfl (by decide) (by decide) (by decide) (bit_lt _) (by decide) (lt_of_lt_of_le a.isLt (by decide)) (lt_of_lt_of_le d.isLt (by decide))
theorem popc (d : Reg) (a : Reg) (wa : Bool) : Statement (.popc d a wa) :=
  rr rfl (by decide) (by decide) (by decide) (bit_lt _) (by decide) (lt_of_lt_of_le a.isLt (by decide)) (lt_of_lt_of_le d.isLt (by decide))
theorem sext (d : Reg) (a : Reg) (size : Fin 3) (wa : Bool) : Statement (.sext d a size wa) :=
  rr rfl (by decide) (by decide) (by decide) (bit_lt _) (lt_of_lt_of_le size.isLt (by decide)) (lt_of_lt_of_le a.isLt (by decide)) (lt_of_lt_of_le d.isLt (by decide))
theorem zext (d : Reg) (a : Reg) (size : Fin 3) (wa : Bool) : Statement (.zext d a size wa) :=
  rr rfl (by decide) (by decide) (by decide) (bit_lt _) (lt_of_lt_of_le size.isLt (by decide)) (lt_of_lt_of_le a.isLt (by decide)) (lt_of_lt_of_le d.isLt (by decide))
theorem csel (d : Reg) (a : Reg) (b : Reg) (wa : Bool) (wb : Bool) : Statement (.csel d a b wa wb) :=
  rr rfl (by decide) (by decide) (bit_lt _) (bit_lt _) (lt_of_lt_of_le b.isLt (by decide)) (lt_of_lt_of_le a.isLt (by decide)) (lt_of_lt_of_le d.isLt (by decide))
theorem addi (d : Reg) (a : Reg) (wa : Bool) (imm : BitVec 14) : Statement (.addi d a wa imm) :=
  ri rfl (by decide) (lt_of_lt_of_le imm.isLt (by decide)) (bit_lt _) (lt_of_lt_of_le a.isLt (by decide)) (lt_of_lt_of_le d.isLt (by decide))
theorem andi (d : Reg) (a : Reg) (wa : Bool) (imm : BitVec 14) : Statement (.andi d a wa imm) :=
  ri rfl (by decide) (lt_of_lt_of_le imm.isLt (by decide)) (bit_lt _) (lt_of_lt_of_le a.isLt (by decide)) (lt_of_lt_of_le d.isLt (by decide))
theorem ori (d : Reg) (a : Reg) (wa : Bool) (imm : BitVec 14) : Statement (.ori d a wa imm) :=
  ri rfl (by decide) (lt_of_lt_of_le imm.isLt (by decide)) (bit_lt _) (lt_of_lt_of_le a.isLt (by decide)) (lt_of_lt_of_le d.isLt (by decide))
theorem xori (d : Reg) (a : Reg) (wa : Bool) (imm : BitVec 14) : Statement (.xori d a wa imm) :=
  ri rfl (by decide) (lt_of_lt_of_le imm.isLt (by decide)) (bit_lt _) (lt_of_lt_of_le a.isLt (by decide)) (lt_of_lt_of_le d.isLt (by decide))
theorem slli (d : Reg) (a : Reg) (wa : Bool) (amt : BitVec 6) : Statement (.slli d a wa amt) :=
  ri rfl (by decide) (by have := amt.isLt; omega) (bit_lt _) (lt_of_lt_of_le a.isLt (by decide)) (lt_of_lt_of_le d.isLt (by decide))
theorem srli (d : Reg) (a : Reg) (wa : Bool) (amt : BitVec 6) : Statement (.srli d a wa amt) :=
  ri rfl (by decide) (by have := amt.isLt; omega) (bit_lt _) (lt_of_lt_of_le a.isLt (by decide)) (lt_of_lt_of_le d.isLt (by decide))
theorem srai (d : Reg) (a : Reg) (wa : Bool) (amt : BitVec 6) : Statement (.srai d a wa amt) :=
  ri rfl (by decide) (by have := amt.isLt; omega) (bit_lt _) (lt_of_lt_of_le a.isLt (by decide)) (lt_of_lt_of_le d.isLt (by decide))
theorem rori (d : Reg) (a : Reg) (wa : Bool) (amt : BitVec 6) : Statement (.rori d a wa amt) :=
  ri rfl (by decide) (by have := amt.isLt; omega) (bit_lt _) (lt_of_lt_of_le a.isLt (by decide)) (lt_of_lt_of_le d.isLt (by decide))
theorem slti (d : Reg) (a : Reg) (wa : Bool) (imm : BitVec 14) : Statement (.slti d a wa imm) :=
  ri rfl (by decide) (lt_of_lt_of_le imm.isLt (by decide)) (bit_lt _) (lt_of_lt_of_le a.isLt (by decide)) (lt_of_lt_of_le d.isLt (by decide))
theorem sltni (d : Reg) (a : Reg) (wa : Bool) (imm : BitVec 14) : Statement (.sltni d a wa imm) :=
  ri rfl (by decide) (lt_of_lt_of_le imm.isLt (by decide)) (bit_lt _) (lt_of_lt_of_le a.isLt (by decide)) (lt_of_lt_of_le d.isLt (by decide))
theorem hi (d : Reg) (imm : BitVec 20) : Statement (.hi d imm) :=
  u rfl (by decide) (lt_of_lt_of_le imm.isLt (by decide)) (lt_of_lt_of_le d.isLt (by decide))
theorem pcrel (d : Reg) (imm : BitVec 20) : Statement (.pcrel d imm) :=
  u rfl (by decide) (lt_of_lt_of_le imm.isLt (by decide)) (lt_of_lt_of_le d.isLt (by decide))
theorem beq (a : Reg) (b : Reg) (w : Bool) (off : BitVec 12) : Statement (.beq a b w off) :=
  br rfl (by decide) (lt_of_lt_of_le off.isLt (by decide)) (by decide) (bit_lt _) (lt_of_lt_of_le b.isLt (by decide)) (lt_of_lt_of_le a.isLt (by decide))
theorem bne (a : Reg) (b : Reg) (w : Bool) (off : BitVec 12) : Statement (.bne a b w off) :=
  br rfl (by decide) (lt_of_lt_of_le off.isLt (by decide)) (by decide) (bit_lt _) (lt_of_lt_of_le b.isLt (by decide)) (lt_of_lt_of_le a.isLt (by decide))
theorem blt (a : Reg) (b : Reg) (w : Bool) (off : BitVec 12) : Statement (.blt a b w off) :=
  br rfl (by decide) (lt_of_lt_of_le off.isLt (by decide)) (by decide) (bit_lt _) (lt_of_lt_of_le b.isLt (by decide)) (lt_of_lt_of_le a.isLt (by decide))
theorem bge (a : Reg) (b : Reg) (w : Bool) (off : BitVec 12) : Statement (.bge a b w off) :=
  br rfl (by decide) (lt_of_lt_of_le off.isLt (by decide)) (by decide) (bit_lt _) (lt_of_lt_of_le b.isLt (by decide)) (lt_of_lt_of_le a.isLt (by decide))
theorem bltn (a : Reg) (b : Reg) (w : Bool) (off : BitVec 12) : Statement (.bltn a b w off) :=
  br rfl (by decide) (lt_of_lt_of_le off.isLt (by decide)) (by decide) (bit_lt _) (lt_of_lt_of_le b.isLt (by decide)) (lt_of_lt_of_le a.isLt (by decide))
theorem bgen (a : Reg) (b : Reg) (w : Bool) (off : BitVec 12) : Statement (.bgen a b w off) :=
  br rfl (by decide) (lt_of_lt_of_le off.isLt (by decide)) (by decide) (bit_lt _) (lt_of_lt_of_le b.isLt (by decide)) (lt_of_lt_of_le a.isLt (by decide))
theorem bbs (a : Reg) (bit : Fin 32) (w : Bool) (off : BitVec 12) : Statement (.bbs a bit w off) :=
  br rfl (by decide) (lt_of_lt_of_le off.isLt (by decide)) (by decide) (bit_lt _) (lt_of_lt_of_le bit.isLt (by decide)) (lt_of_lt_of_le a.isLt (by decide))
theorem bbc (a : Reg) (bit : Fin 32) (w : Bool) (off : BitVec 12) : Statement (.bbc a bit w off) :=
  br rfl (by decide) (lt_of_lt_of_le off.isLt (by decide)) (by decide) (bit_lt _) (lt_of_lt_of_le bit.isLt (by decide)) (lt_of_lt_of_le a.isLt (by decide))
theorem jal (d : Reg) (off : BitVec 20) : Statement (.jal d off) :=
  u rfl (by decide) (lt_of_lt_of_le off.isLt (by decide)) (lt_of_lt_of_le d.isLt (by decide))
theorem jalr (d : Reg) (a : Reg) (wa : Bool) (imm : BitVec 14) : Statement (.jalr d a wa imm) :=
  ri rfl (by decide) (lt_of_lt_of_le imm.isLt (by decide)) (bit_lt _) (lt_of_lt_of_le a.isLt (by decide)) (lt_of_lt_of_le d.isLt (by decide))
theorem fadd (d : Reg) (a : Reg) (b : Reg) (wa : Bool) (wb : Bool) : Statement (.fadd d a b wa wb) :=
  rr rfl (by decide) (by decide) (bit_lt _) (bit_lt _) (lt_of_lt_of_le b.isLt (by decide)) (lt_of_lt_of_le a.isLt (by decide)) (lt_of_lt_of_le d.isLt (by decide))
theorem fsub (d : Reg) (a : Reg) (b : Reg) (wa : Bool) (wb : Bool) : Statement (.fsub d a b wa wb) :=
  rr rfl (by decide) (by decide) (bit_lt _) (bit_lt _) (lt_of_lt_of_le b.isLt (by decide)) (lt_of_lt_of_le a.isLt (by decide)) (lt_of_lt_of_le d.isLt (by decide))
theorem fmul (d : Reg) (a : Reg) (b : Reg) (wa : Bool) (wb : Bool) : Statement (.fmul d a b wa wb) :=
  rr rfl (by decide) (by decide) (bit_lt _) (bit_lt _) (lt_of_lt_of_le b.isLt (by decide)) (lt_of_lt_of_le a.isLt (by decide)) (lt_of_lt_of_le d.isLt (by decide))
theorem fdiv (d : Reg) (a : Reg) (b : Reg) (wa : Bool) (wb : Bool) : Statement (.fdiv d a b wa wb) :=
  rr rfl (by decide) (by decide) (bit_lt _) (bit_lt _) (lt_of_lt_of_le b.isLt (by decide)) (lt_of_lt_of_le a.isLt (by decide)) (lt_of_lt_of_le d.isLt (by decide))
theorem fsqrt (d : Reg) (a : Reg) (wa : Bool) : Statement (.fsqrt d a wa) :=
  rr rfl (by decide) (by decide) (by decide) (bit_lt _) (by decide) (lt_of_lt_of_le a.isLt (by decide)) (lt_of_lt_of_le d.isLt (by decide))
theorem fmin (d : Reg) (a : Reg) (b : Reg) (wa : Bool) (wb : Bool) : Statement (.fmin d a b wa wb) :=
  rr rfl (by decide) (by decide) (bit_lt _) (bit_lt _) (lt_of_lt_of_le b.isLt (by decide)) (lt_of_lt_of_le a.isLt (by decide)) (lt_of_lt_of_le d.isLt (by decide))
theorem fmax (d : Reg) (a : Reg) (b : Reg) (wa : Bool) (wb : Bool) : Statement (.fmax d a b wa wb) :=
  rr rfl (by decide) (by decide) (bit_lt _) (bit_lt _) (lt_of_lt_of_le b.isLt (by decide)) (lt_of_lt_of_le a.isLt (by decide)) (lt_of_lt_of_le d.isLt (by decide))
theorem fneg (d : Reg) (a : Reg) (wa : Bool) : Statement (.fneg d a wa) :=
  rr rfl (by decide) (by decide) (by decide) (bit_lt _) (by decide) (lt_of_lt_of_le a.isLt (by decide)) (lt_of_lt_of_le d.isLt (by decide))
theorem fabs (d : Reg) (a : Reg) (wa : Bool) : Statement (.fabs d a wa) :=
  rr rfl (by decide) (by decide) (by decide) (bit_lt _) (by decide) (lt_of_lt_of_le a.isLt (by decide)) (lt_of_lt_of_le d.isLt (by decide))
theorem fsgnj (d : Reg) (a : Reg) (b : Reg) (wa : Bool) (wb : Bool) : Statement (.fsgnj d a b wa wb) :=
  rr rfl (by decide) (by decide) (bit_lt _) (bit_lt _) (lt_of_lt_of_le b.isLt (by decide)) (lt_of_lt_of_le a.isLt (by decide)) (lt_of_lt_of_le d.isLt (by decide))
theorem feq (d : Reg) (a : Reg) (b : Reg) (wa : Bool) (wb : Bool) : Statement (.feq d a b wa wb) :=
  rr rfl (by decide) (by decide) (bit_lt _) (bit_lt _) (lt_of_lt_of_le b.isLt (by decide)) (lt_of_lt_of_le a.isLt (by decide)) (lt_of_lt_of_le d.isLt (by decide))
theorem flt (d : Reg) (a : Reg) (b : Reg) (wa : Bool) (wb : Bool) : Statement (.flt d a b wa wb) :=
  rr rfl (by decide) (by decide) (bit_lt _) (bit_lt _) (lt_of_lt_of_le b.isLt (by decide)) (lt_of_lt_of_le a.isLt (by decide)) (lt_of_lt_of_le d.isLt (by decide))
theorem fle (d : Reg) (a : Reg) (b : Reg) (wa : Bool) (wb : Bool) : Statement (.fle d a b wa wb) :=
  rr rfl (by decide) (by decide) (bit_lt _) (bit_lt _) (lt_of_lt_of_le b.isLt (by decide)) (lt_of_lt_of_le a.isLt (by decide)) (lt_of_lt_of_le d.isLt (by decide))
theorem fclass (d : Reg) (a : Reg) (wa : Bool) : Statement (.fclass d a wa) :=
  rr rfl (by decide) (by decide) (by decide) (bit_lt _) (by decide) (lt_of_lt_of_le a.isLt (by decide)) (lt_of_lt_of_le d.isLt (by decide))
theorem frcp (d : Reg) (a : Reg) (wa : Bool) : Statement (.frcp d a wa) :=
  rr rfl (by decide) (by decide) (by decide) (bit_lt _) (by decide) (lt_of_lt_of_le a.isLt (by decide)) (lt_of_lt_of_le d.isLt (by decide))
theorem frsq (d : Reg) (a : Reg) (wa : Bool) : Statement (.frsq d a wa) :=
  rr rfl (by decide) (by decide) (by decide) (bit_lt _) (by decide) (lt_of_lt_of_le a.isLt (by decide)) (lt_of_lt_of_le d.isLt (by decide))
theorem fcvtfi (d : Reg) (a : Reg) (wa : Bool) : Statement (.fcvtfi d a wa) :=
  rr rfl (by decide) (by decide) (by decide) (bit_lt _) (by decide) (lt_of_lt_of_le a.isLt (by decide)) (lt_of_lt_of_le d.isLt (by decide))
theorem fcvtif (d : Reg) (a : Reg) (wa : Bool) : Statement (.fcvtif d a wa) :=
  rr rfl (by decide) (by decide) (by decide) (bit_lt _) (by decide) (lt_of_lt_of_le a.isLt (by decide)) (lt_of_lt_of_le d.isLt (by decide))
theorem fcvtfn (d : Reg) (a : Reg) (wa : Bool) : Statement (.fcvtfn d a wa) :=
  rr rfl (by decide) (by decide) (by decide) (bit_lt _) (by decide) (lt_of_lt_of_le a.isLt (by decide)) (lt_of_lt_of_le d.isLt (by decide))
theorem fcvtnf (d : Reg) (a : Reg) (wa : Bool) : Statement (.fcvtnf d a wa) :=
  rr rfl (by decide) (by decide) (by decide) (bit_lt _) (by decide) (lt_of_lt_of_le a.isLt (by decide)) (lt_of_lt_of_le d.isLt (by decide))
theorem fcvtbf (d : Reg) (a : Reg) (wa : Bool) : Statement (.fcvtbf d a wa) :=
  rr rfl (by decide) (by decide) (by decide) (bit_lt _) (by decide) (lt_of_lt_of_le a.isLt (by decide)) (lt_of_lt_of_le d.isLt (by decide))
theorem fcvtfb (d : Reg) (a : Reg) (wa : Bool) : Statement (.fcvtfb d a wa) :=
  rr rfl (by decide) (by decide) (by decide) (bit_lt _) (by decide) (lt_of_lt_of_le a.isLt (by decide)) (lt_of_lt_of_le d.isLt (by decide))
theorem ffma (d : Reg) (a : Reg) (b : Reg) (c : Reg) (w : Bool) : Statement (.ffma d a b c w) :=
  tensor rfl (by decide) (bit_lt _) (lt_of_lt_of_le c.isLt (by decide)) (lt_of_lt_of_le b.isLt (by decide)) (lt_of_lt_of_le a.isLt (by decide)) (lt_of_lt_of_le d.isLt (by decide))
theorem ffms (d : Reg) (a : Reg) (b : Reg) (c : Reg) (w : Bool) : Statement (.ffms d a b c w) :=
  tensor rfl (by decide) (bit_lt _) (lt_of_lt_of_le c.isLt (by decide)) (lt_of_lt_of_le b.isLt (by decide)) (lt_of_lt_of_le a.isLt (by decide)) (lt_of_lt_of_le d.isLt (by decide))
theorem fnfma (d : Reg) (a : Reg) (b : Reg) (c : Reg) (w : Bool) : Statement (.fnfma d a b c w) :=
  tensor rfl (by decide) (bit_lt _) (lt_of_lt_of_le c.isLt (by decide)) (lt_of_lt_of_le b.isLt (by decide)) (lt_of_lt_of_le a.isLt (by decide)) (lt_of_lt_of_le d.isLt (by decide))
theorem fnfms (d : Reg) (a : Reg) (b : Reg) (c : Reg) (w : Bool) : Statement (.fnfms d a b c w) :=
  tensor rfl (by decide) (bit_lt _) (lt_of_lt_of_le c.isLt (by decide)) (lt_of_lt_of_le b.isLt (by decide)) (lt_of_lt_of_le a.isLt (by decide)) (lt_of_lt_of_le d.isLt (by decide))
theorem ldB (d : Reg) (a : Reg) (wa : Bool) (off : BitVec 11) : Statement (.ldB d a wa off) :=
  mem rfl (by decide) (lt_of_lt_of_le off.isLt (by decide)) (by decide) (bit_lt _) (lt_of_lt_of_le a.isLt (by decide)) (lt_of_lt_of_le d.isLt (by decide))
theorem ldH (d : Reg) (a : Reg) (wa : Bool) (off : BitVec 11) : Statement (.ldH d a wa off) :=
  mem rfl (by decide) (lt_of_lt_of_le off.isLt (by decide)) (by decide) (bit_lt _) (lt_of_lt_of_le a.isLt (by decide)) (lt_of_lt_of_le d.isLt (by decide))
theorem ldW (d : Reg) (a : Reg) (wa : Bool) (off : BitVec 11) : Statement (.ldW d a wa off) :=
  mem rfl (by decide) (lt_of_lt_of_le off.isLt (by decide)) (by decide) (bit_lt _) (lt_of_lt_of_le a.isLt (by decide)) (lt_of_lt_of_le d.isLt (by decide))
theorem ldD (d : Reg) (a : Reg) (wa : Bool) (off : BitVec 11) : Statement (.ldD d a wa off) :=
  mem rfl (by decide) (lt_of_lt_of_le off.isLt (by decide)) (by decide) (bit_lt _) (lt_of_lt_of_le a.isLt (by decide)) (lt_of_lt_of_le d.isLt (by decide))
theorem ldBn (d : Reg) (a : Reg) (wa : Bool) (off : BitVec 11) : Statement (.ldBn d a wa off) :=
  mem rfl (by decide) (lt_of_lt_of_le off.isLt (by decide)) (by decide) (bit_lt _) (lt_of_lt_of_le a.isLt (by decide)) (lt_of_lt_of_le d.isLt (by decide))
theorem ldHn (d : Reg) (a : Reg) (wa : Bool) (off : BitVec 11) : Statement (.ldHn d a wa off) :=
  mem rfl (by decide) (lt_of_lt_of_le off.isLt (by decide)) (by decide) (bit_lt _) (lt_of_lt_of_le a.isLt (by decide)) (lt_of_lt_of_le d.isLt (by decide))
theorem ldWn (d : Reg) (a : Reg) (wa : Bool) (off : BitVec 11) : Statement (.ldWn d a wa off) :=
  mem rfl (by decide) (lt_of_lt_of_le off.isLt (by decide)) (by decide) (bit_lt _) (lt_of_lt_of_le a.isLt (by decide)) (lt_of_lt_of_le d.isLt (by decide))
theorem stB (data : Reg) (a : Reg) (w : Bool) (off : BitVec 11) : Statement (.stB data a w off) :=
  mem rfl (by decide) (lt_of_lt_of_le off.isLt (by decide)) (by decide) (bit_lt _) (lt_of_lt_of_le a.isLt (by decide)) (lt_of_lt_of_le data.isLt (by decide))
theorem stH (data : Reg) (a : Reg) (w : Bool) (off : BitVec 11) : Statement (.stH data a w off) :=
  mem rfl (by decide) (lt_of_lt_of_le off.isLt (by decide)) (by decide) (bit_lt _) (lt_of_lt_of_le a.isLt (by decide)) (lt_of_lt_of_le data.isLt (by decide))
theorem stW (data : Reg) (a : Reg) (w : Bool) (off : BitVec 11) : Statement (.stW data a w off) :=
  mem rfl (by decide) (lt_of_lt_of_le off.isLt (by decide)) (by decide) (bit_lt _) (lt_of_lt_of_le a.isLt (by decide)) (lt_of_lt_of_le data.isLt (by decide))
theorem stD (data : Reg) (a : Reg) (w : Bool) (off : BitVec 11) : Statement (.stD data a w off) :=
  mem rfl (by decide) (lt_of_lt_of_le off.isLt (by decide)) (by decide) (bit_lt _) (lt_of_lt_of_le a.isLt (by decide)) (lt_of_lt_of_le data.isLt (by decide))
theorem pref (level : Fin 3) (a : Reg) (wa : Bool) : Statement (.pref level a wa) :=
  ri rfl (by decide) (by have := level.isLt; omega) (bit_lt _) (lt_of_lt_of_le a.isLt (by decide)) (by decide)
theorem cflush (scope : Scope) (a : Reg) (wa : Bool) : Statement (.cflush scope a wa) :=
  ri rfl (by decide) (by have := scope_lt scope; omega) (bit_lt _) (lt_of_lt_of_le a.isLt (by decide)) (by decide)
theorem cinval (scope : Scope) (a : Reg) (wa : Bool) : Statement (.cinval scope a wa) :=
  ri rfl (by decide) (by have := scope_lt scope; omega) (bit_lt _) (lt_of_lt_of_le a.isLt (by decide)) (by decide)
theorem amoAdd (d : Reg) (a : Reg) (b : Reg) (w : Bool) (sz : Bool) (scope : Scope) : Statement (.amoAdd d a b w sz scope) :=
  amo rfl (by decide) (by decide) (lt_of_lt_of_le (bit_lt _) (by decide)) (by have := scope_lt scope; omega) (lt_of_lt_of_le (bit_lt _) (by decide)) (lt_of_lt_of_le b.isLt (by decide)) (lt_of_lt_of_le a.isLt (by decide)) (lt_of_lt_of_le d.isLt (by decide))
theorem amoAnd (d : Reg) (a : Reg) (b : Reg) (w : Bool) (sz : Bool) (scope : Scope) : Statement (.amoAnd d a b w sz scope) :=
  amo rfl (by decide) (by decide) (lt_of_lt_of_le (bit_lt _) (by decide)) (by have := scope_lt scope; omega) (lt_of_lt_of_le (bit_lt _) (by decide)) (lt_of_lt_of_le b.isLt (by decide)) (lt_of_lt_of_le a.isLt (by decide)) (lt_of_lt_of_le d.isLt (by decide))
theorem amoOr (d : Reg) (a : Reg) (b : Reg) (w : Bool) (sz : Bool) (scope : Scope) : Statement (.amoOr d a b w sz scope) :=
  amo rfl (by decide) (by decide) (lt_of_lt_of_le (bit_lt _) (by decide)) (by have := scope_lt scope; omega) (lt_of_lt_of_le (bit_lt _) (by decide)) (lt_of_lt_of_le b.isLt (by decide)) (lt_of_lt_of_le a.isLt (by decide)) (lt_of_lt_of_le d.isLt (by decide))
theorem amoXor (d : Reg) (a : Reg) (b : Reg) (w : Bool) (sz : Bool) (scope : Scope) : Statement (.amoXor d a b w sz scope) :=
  amo rfl (by decide) (by decide) (lt_of_lt_of_le (bit_lt _) (by decide)) (by have := scope_lt scope; omega) (lt_of_lt_of_le (bit_lt _) (by decide)) (lt_of_lt_of_le b.isLt (by decide)) (lt_of_lt_of_le a.isLt (by decide)) (lt_of_lt_of_le d.isLt (by decide))
theorem amoMin (d : Reg) (a : Reg) (b : Reg) (w : Bool) (sz : Bool) (scope : Scope) : Statement (.amoMin d a b w sz scope) :=
  amo rfl (by decide) (by decide) (lt_of_lt_of_le (bit_lt _) (by decide)) (by have := scope_lt scope; omega) (lt_of_lt_of_le (bit_lt _) (by decide)) (lt_of_lt_of_le b.isLt (by decide)) (lt_of_lt_of_le a.isLt (by decide)) (lt_of_lt_of_le d.isLt (by decide))
theorem amoMax (d : Reg) (a : Reg) (b : Reg) (w : Bool) (sz : Bool) (scope : Scope) : Statement (.amoMax d a b w sz scope) :=
  amo rfl (by decide) (by decide) (lt_of_lt_of_le (bit_lt _) (by decide)) (by have := scope_lt scope; omega) (lt_of_lt_of_le (bit_lt _) (by decide)) (lt_of_lt_of_le b.isLt (by decide)) (lt_of_lt_of_le a.isLt (by decide)) (lt_of_lt_of_le d.isLt (by decide))
theorem amoMinn (d : Reg) (a : Reg) (b : Reg) (w : Bool) (sz : Bool) (scope : Scope) : Statement (.amoMinn d a b w sz scope) :=
  amo rfl (by decide) (by decide) (lt_of_lt_of_le (bit_lt _) (by decide)) (by have := scope_lt scope; omega) (lt_of_lt_of_le (bit_lt _) (by decide)) (lt_of_lt_of_le b.isLt (by decide)) (lt_of_lt_of_le a.isLt (by decide)) (lt_of_lt_of_le d.isLt (by decide))
theorem amoMaxn (d : Reg) (a : Reg) (b : Reg) (w : Bool) (sz : Bool) (scope : Scope) : Statement (.amoMaxn d a b w sz scope) :=
  amo rfl (by decide) (by decide) (lt_of_lt_of_le (bit_lt _) (by decide)) (by have := scope_lt scope; omega) (lt_of_lt_of_le (bit_lt _) (by decide)) (lt_of_lt_of_le b.isLt (by decide)) (lt_of_lt_of_le a.isLt (by decide)) (lt_of_lt_of_le d.isLt (by decide))
theorem amoSwap (d : Reg) (a : Reg) (b : Reg) (w : Bool) (sz : Bool) (scope : Scope) : Statement (.amoSwap d a b w sz scope) :=
  amo rfl (by decide) (by decide) (lt_of_lt_of_le (bit_lt _) (by decide)) (by have := scope_lt scope; omega) (lt_of_lt_of_le (bit_lt _) (by decide)) (lt_of_lt_of_le b.isLt (by decide)) (lt_of_lt_of_le a.isLt (by decide)) (lt_of_lt_of_le d.isLt (by decide))
theorem amoFadd (d : Reg) (a : Reg) (b : Reg) (w : Bool) (scope : Scope) : Statement (.amoFadd d a b w scope) :=
  amo rfl (by decide) (by decide) (by decide) (by have := scope_lt scope; omega) (lt_of_lt_of_le (bit_lt _) (by decide)) (lt_of_lt_of_le b.isLt (by decide)) (lt_of_lt_of_le a.isLt (by decide)) (lt_of_lt_of_le d.isLt (by decide))
theorem amoFmin (d : Reg) (a : Reg) (b : Reg) (w : Bool) (scope : Scope) : Statement (.amoFmin d a b w scope) :=
  amo rfl (by decide) (by decide) (by decide) (by have := scope_lt scope; omega) (lt_of_lt_of_le (bit_lt _) (by decide)) (lt_of_lt_of_le b.isLt (by decide)) (lt_of_lt_of_le a.isLt (by decide)) (lt_of_lt_of_le d.isLt (by decide))
theorem amoFmax (d : Reg) (a : Reg) (b : Reg) (w : Bool) (scope : Scope) : Statement (.amoFmax d a b w scope) :=
  amo rfl (by decide) (by decide) (by decide) (by have := scope_lt scope; omega) (lt_of_lt_of_le (bit_lt _) (by decide)) (lt_of_lt_of_le b.isLt (by decide)) (lt_of_lt_of_le a.isLt (by decide)) (lt_of_lt_of_le d.isLt (by decide))
theorem amoBadd (d : Reg) (a : Reg) (b : Reg) (w : Bool) (scope : Scope) : Statement (.amoBadd d a b w scope) :=
  amo rfl (by decide) (by decide) (by decide) (by have := scope_lt scope; omega) (lt_of_lt_of_le (bit_lt _) (by decide)) (lt_of_lt_of_le b.isLt (by decide)) (lt_of_lt_of_le a.isLt (by decide)) (lt_of_lt_of_le d.isLt (by decide))
theorem cas (d : Reg) (a : Reg) (b : Reg) (w : Bool) (sz : Bool) (scope : Scope) : Statement (.cas d a b w sz scope) :=
  amo rfl (by decide) (by decide) (lt_of_lt_of_le (bit_lt _) (by decide)) (by have := scope_lt scope; omega) (lt_of_lt_of_le (bit_lt _) (by decide)) (lt_of_lt_of_le b.isLt (by decide)) (lt_of_lt_of_le a.isLt (by decide)) (lt_of_lt_of_le d.isLt (by decide))
theorem redAdd (a : Reg) (b : Reg) (w : Bool) (sz : Bool) (ord : Bool) (scope : Scope) : Statement (.redAdd a b w sz ord scope) :=
  amo rfl (by decide) (by decide) (lt_of_lt_of_le (bit_lt _) (by decide)) (by have := scope_lt scope; omega) (lt_of_lt_of_le (bit_lt _) (by decide)) (lt_of_lt_of_le b.isLt (by decide)) (lt_of_lt_of_le a.isLt (by decide)) (lt_of_lt_of_le (bit_lt _) (by decide))
theorem redAnd (a : Reg) (b : Reg) (w : Bool) (sz : Bool) (ord : Bool) (scope : Scope) : Statement (.redAnd a b w sz ord scope) :=
  amo rfl (by decide) (by decide) (lt_of_lt_of_le (bit_lt _) (by decide)) (by have := scope_lt scope; omega) (lt_of_lt_of_le (bit_lt _) (by decide)) (lt_of_lt_of_le b.isLt (by decide)) (lt_of_lt_of_le a.isLt (by decide)) (lt_of_lt_of_le (bit_lt _) (by decide))
theorem redOr (a : Reg) (b : Reg) (w : Bool) (sz : Bool) (ord : Bool) (scope : Scope) : Statement (.redOr a b w sz ord scope) :=
  amo rfl (by decide) (by decide) (lt_of_lt_of_le (bit_lt _) (by decide)) (by have := scope_lt scope; omega) (lt_of_lt_of_le (bit_lt _) (by decide)) (lt_of_lt_of_le b.isLt (by decide)) (lt_of_lt_of_le a.isLt (by decide)) (lt_of_lt_of_le (bit_lt _) (by decide))
theorem redXor (a : Reg) (b : Reg) (w : Bool) (sz : Bool) (ord : Bool) (scope : Scope) : Statement (.redXor a b w sz ord scope) :=
  amo rfl (by decide) (by decide) (lt_of_lt_of_le (bit_lt _) (by decide)) (by have := scope_lt scope; omega) (lt_of_lt_of_le (bit_lt _) (by decide)) (lt_of_lt_of_le b.isLt (by decide)) (lt_of_lt_of_le a.isLt (by decide)) (lt_of_lt_of_le (bit_lt _) (by decide))
theorem redMin (a : Reg) (b : Reg) (w : Bool) (sz : Bool) (ord : Bool) (scope : Scope) : Statement (.redMin a b w sz ord scope) :=
  amo rfl (by decide) (by decide) (lt_of_lt_of_le (bit_lt _) (by decide)) (by have := scope_lt scope; omega) (lt_of_lt_of_le (bit_lt _) (by decide)) (lt_of_lt_of_le b.isLt (by decide)) (lt_of_lt_of_le a.isLt (by decide)) (lt_of_lt_of_le (bit_lt _) (by decide))
theorem redMax (a : Reg) (b : Reg) (w : Bool) (sz : Bool) (ord : Bool) (scope : Scope) : Statement (.redMax a b w sz ord scope) :=
  amo rfl (by decide) (by decide) (lt_of_lt_of_le (bit_lt _) (by decide)) (by have := scope_lt scope; omega) (lt_of_lt_of_le (bit_lt _) (by decide)) (lt_of_lt_of_le b.isLt (by decide)) (lt_of_lt_of_le a.isLt (by decide)) (lt_of_lt_of_le (bit_lt _) (by decide))
theorem redMinn (a : Reg) (b : Reg) (w : Bool) (sz : Bool) (ord : Bool) (scope : Scope) : Statement (.redMinn a b w sz ord scope) :=
  amo rfl (by decide) (by decide) (lt_of_lt_of_le (bit_lt _) (by decide)) (by have := scope_lt scope; omega) (lt_of_lt_of_le (bit_lt _) (by decide)) (lt_of_lt_of_le b.isLt (by decide)) (lt_of_lt_of_le a.isLt (by decide)) (lt_of_lt_of_le (bit_lt _) (by decide))
theorem redMaxn (a : Reg) (b : Reg) (w : Bool) (sz : Bool) (ord : Bool) (scope : Scope) : Statement (.redMaxn a b w sz ord scope) :=
  amo rfl (by decide) (by decide) (lt_of_lt_of_le (bit_lt _) (by decide)) (by have := scope_lt scope; omega) (lt_of_lt_of_le (bit_lt _) (by decide)) (lt_of_lt_of_le b.isLt (by decide)) (lt_of_lt_of_le a.isLt (by decide)) (lt_of_lt_of_le (bit_lt _) (by decide))
theorem redFadd (a : Reg) (b : Reg) (w : Bool) (ord : Bool) (scope : Scope) : Statement (.redFadd a b w ord scope) :=
  amo rfl (by decide) (by decide) (by decide) (by have := scope_lt scope; omega) (lt_of_lt_of_le (bit_lt _) (by decide)) (lt_of_lt_of_le b.isLt (by decide)) (lt_of_lt_of_le a.isLt (by decide)) (lt_of_lt_of_le (bit_lt _) (by decide))
theorem redFmin (a : Reg) (b : Reg) (w : Bool) (ord : Bool) (scope : Scope) : Statement (.redFmin a b w ord scope) :=
  amo rfl (by decide) (by decide) (by decide) (by have := scope_lt scope; omega) (lt_of_lt_of_le (bit_lt _) (by decide)) (lt_of_lt_of_le b.isLt (by decide)) (lt_of_lt_of_le a.isLt (by decide)) (lt_of_lt_of_le (bit_lt _) (by decide))
theorem redFmax (a : Reg) (b : Reg) (w : Bool) (ord : Bool) (scope : Scope) : Statement (.redFmax a b w ord scope) :=
  amo rfl (by decide) (by decide) (by decide) (by have := scope_lt scope; omega) (lt_of_lt_of_le (bit_lt _) (by decide)) (lt_of_lt_of_le b.isLt (by decide)) (lt_of_lt_of_le a.isLt (by decide)) (lt_of_lt_of_le (bit_lt _) (by decide))
theorem redBadd (a : Reg) (b : Reg) (w : Bool) (ord : Bool) (scope : Scope) : Statement (.redBadd a b w ord scope) :=
  amo rfl (by decide) (by decide) (by decide) (by have := scope_lt scope; omega) (lt_of_lt_of_le (bit_lt _) (by decide)) (lt_of_lt_of_le b.isLt (by decide)) (lt_of_lt_of_le a.isLt (by decide)) (lt_of_lt_of_le (bit_lt _) (by decide))
theorem acq (scope : Scope) (a : Reg) (w : Bool) : Statement (.acq scope a w) :=
  sync rfl (by decide) (by have := scope_lt scope; omega) (bit_lt _) (by decide) (lt_of_lt_of_le a.isLt (by decide)) (by decide)
theorem rel (scope : Scope) (a : Reg) (w : Bool) : Statement (.rel scope a w) :=
  sync rfl (by decide) (by have := scope_lt scope; omega) (bit_lt _) (by decide) (lt_of_lt_of_le a.isLt (by decide)) (by decide)
theorem bind (a : Reg) (b : Reg) (w : Bool) : Statement (.bind a b w) :=
  sync rfl (by decide) (by decide) (bit_lt _) (lt_of_lt_of_le b.isLt (by decide)) (lt_of_lt_of_le a.isLt (by decide)) (by decide)
theorem unbind (a : Reg) (w : Bool) : Statement (.unbind a w) :=
  sync rfl (by decide) (by decide) (bit_lt _) (by decide) (lt_of_lt_of_le a.isLt (by decide)) (by decide)
theorem fence (scope : Scope) : Statement (.fence scope) :=
  sync rfl (by decide) (by have := scope_lt scope; omega) (by decide) (by decide) (by decide) (by decide)
theorem mon (d : Reg) (a : Reg) (w : Bool) : Statement (.mon d a w) :=
  sync rfl (by decide) (by decide) (bit_lt _) (by decide) (lt_of_lt_of_le a.isLt (by decide)) (lt_of_lt_of_le d.isLt (by decide))
theorem mwait : Statement (.mwait) :=
  sync rfl (by decide) (by decide) (by decide) (by decide) (by decide) (by decide)
theorem rwr (n : Reg) (a : Reg) (b : Reg) (wa : Bool) (wb : Bool) : Statement (.rwr n a b wa wb) :=
  rr rfl (by decide) (by decide) (bit_lt _) (bit_lt _) (lt_of_lt_of_le b.isLt (by decide)) (lt_of_lt_of_le a.isLt (by decide)) (lt_of_lt_of_le n.isLt (by decide))
theorem feclr (n : Reg) : Statement (.feclr n) :=
  rr rfl (by decide) (by decide) (by decide) (by decide) (by decide) (by decide) (lt_of_lt_of_le n.isLt (by decide))
theorem feset (n : Reg) : Statement (.feset n) :=
  rr rfl (by decide) (by decide) (by decide) (by decide) (by decide) (by decide) (lt_of_lt_of_le n.isLt (by decide))
theorem fetst (d : Reg) (n : Reg) : Statement (.fetst d n) :=
  rr rfl (by decide) (by decide) (by decide) (by decide) (by decide) (lt_of_lt_of_le n.isLt (by decide)) (lt_of_lt_of_le d.isLt (by decide))
theorem tspawn (a : Reg) (wa : Bool) : Statement (.tspawn a wa) :=
  rr rfl (by decide) (by decide) (by decide) (bit_lt _) (by decide) (lt_of_lt_of_le a.isLt (by decide)) (by decide)
theorem tfork (a : Reg) (wa : Bool) : Statement (.tfork a wa) :=
  rr rfl (by decide) (by decide) (by decide) (bit_lt _) (by decide) (lt_of_lt_of_le a.isLt (by decide)) (by decide)
theorem tjoin (a : Reg) (wa : Bool) : Statement (.tjoin a wa) :=
  rr rfl (by decide) (by decide) (by decide) (bit_lt _) (by decide) (lt_of_lt_of_le a.isLt (by decide)) (by decide)
theorem tdec (a : Reg) (b : Reg) (wa : Bool) (wb : Bool) : Statement (.tdec a b wa wb) :=
  rr rfl (by decide) (by decide) (bit_lt _) (bit_lt _) (lt_of_lt_of_le b.isLt (by decide)) (lt_of_lt_of_le a.isLt (by decide)) (by decide)
theorem tend : Statement (.tend) :=
  rr rfl (by decide) (by decide) (by decide) (by decide) (by decide) (by decide) (by decide)
theorem tyield : Statement (.tyield) :=
  rr rfl (by decide) (by decide) (by decide) (by decide) (by decide) (by decide) (by decide)
theorem hstart (h : Fin 10) (a : Reg) (b : Reg) (wa : Bool) (wb : Bool) : Statement (.hstart h a b wa wb) :=
  rr rfl (by decide) (by decide) (bit_lt _) (bit_lt _) (lt_of_lt_of_le b.isLt (by decide)) (lt_of_lt_of_le a.isLt (by decide)) (lt_of_lt_of_le h.isLt (by decide))
theorem hend : Statement (.hend) :=
  rr rfl (by decide) (by decide) (by decide) (by decide) (by decide) (by decide) (by decide)
theorem cwait (a : Reg) (b : Reg) (wa : Bool) (wb : Bool) : Statement (.cwait a b wa wb) :=
  rr rfl (by decide) (by decide) (bit_lt _) (bit_lt _) (lt_of_lt_of_le b.isLt (by decide)) (lt_of_lt_of_le a.isLt (by decide)) (by decide)
theorem bar (a : Reg) (wa : Bool) : Statement (.bar a wa) :=
  rr rfl (by decide) (by decide) (by decide) (bit_lt _) (by decide) (lt_of_lt_of_le a.isLt (by decide)) (by decide)
theorem fdecl (a : Reg) (b : Reg) (wa : Bool) (wb : Bool) : Statement (.fdecl a b wa wb) :=
  rr rfl (by decide) (by decide) (bit_lt _) (bit_lt _) (lt_of_lt_of_le b.isLt (by decide)) (lt_of_lt_of_le a.isLt (by decide)) (by decide)
theorem fpost (d : Reg) (a : Reg) (b : Reg) (wa : Bool) (wb : Bool) : Statement (.fpost d a b wa wb) :=
  rr rfl (by decide) (by decide) (bit_lt _) (bit_lt _) (lt_of_lt_of_le b.isLt (by decide)) (lt_of_lt_of_le a.isLt (by decide)) (lt_of_lt_of_le d.isLt (by decide))
theorem fpostv (d : Reg) (a : Reg) (b : Reg) (wa : Bool) (wb : Bool) : Statement (.fpostv d a b wa wb) :=
  rr rfl (by decide) (by decide) (bit_lt _) (bit_lt _) (lt_of_lt_of_le b.isLt (by decide)) (lt_of_lt_of_le a.isLt (by decide)) (lt_of_lt_of_le d.isLt (by decide))
theorem fdrain (d : Reg) (a : Reg) (wa : Bool) : Statement (.fdrain d a wa) :=
  rr rfl (by decide) (by decide) (by decide) (bit_lt _) (by decide) (lt_of_lt_of_le a.isLt (by decide)) (lt_of_lt_of_le d.isLt (by decide))
theorem fpeek (d : Reg) (a : Reg) (wa : Bool) : Statement (.fpeek d a wa) :=
  rr rfl (by decide) (by decide) (by decide) (bit_lt _) (by decide) (lt_of_lt_of_le a.isLt (by decide)) (lt_of_lt_of_le d.isLt (by decide))
theorem fthr (a : Reg) (b : Reg) (wa : Bool) (wb : Bool) : Statement (.fthr a b wa wb) :=
  rr rfl (by decide) (by decide) (bit_lt _) (bit_lt _) (lt_of_lt_of_le b.isLt (by decide)) (lt_of_lt_of_le a.isLt (by decide)) (by decide)
theorem fcount (d : Reg) (a : Reg) (wa : Bool) : Statement (.fcount d a wa) :=
  rr rfl (by decide) (by decide) (by decide) (bit_lt _) (by decide) (lt_of_lt_of_le a.isLt (by decide)) (lt_of_lt_of_le d.isLt (by decide))
theorem fquiet (a : Reg) (b : Reg) (wa : Bool) (wb : Bool) : Statement (.fquiet a b wa wb) :=
  rr rfl (by decide) (by decide) (bit_lt _) (bit_lt _) (lt_of_lt_of_le b.isLt (by decide)) (lt_of_lt_of_le a.isLt (by decide)) (by decide)
theorem msend (d : Reg) (a : Reg) (b : Reg) (wa : Bool) (wb : Bool) : Statement (.msend d a b wa wb) :=
  rr rfl (by decide) (by decide) (bit_lt _) (bit_lt _) (lt_of_lt_of_le b.isLt (by decide)) (lt_of_lt_of_le a.isLt (by decide)) (lt_of_lt_of_le d.isLt (by decide))
theorem mtake (a : Reg) (b : Reg) (wa : Bool) (wb : Bool) : Statement (.mtake a b wa wb) :=
  rr rfl (by decide) (by decide) (bit_lt _) (bit_lt _) (lt_of_lt_of_le b.isLt (by decide)) (lt_of_lt_of_le a.isLt (by decide)) (by decide)
theorem nred (d : Reg) (a : Reg) (b : Reg) (wa : Bool) (wb : Bool) : Statement (.nred d a b wa wb) :=
  rr rfl (by decide) (by decide) (bit_lt _) (bit_lt _) (lt_of_lt_of_le b.isLt (by decide)) (lt_of_lt_of_le a.isLt (by decide)) (lt_of_lt_of_le d.isLt (by decide))
theorem cpy (ch : Fin 4) (a : Reg) (b : Reg) (wa : Bool) (wb : Bool) : Statement (.cpy ch a b wa wb) :=
  rr rfl (by decide) (by decide) (bit_lt _) (bit_lt _) (lt_of_lt_of_le b.isLt (by decide)) (lt_of_lt_of_le a.isLt (by decide)) (lt_of_lt_of_le ch.isLt (by decide))
theorem cpyc (ch : Fin 4) (a : Reg) (wa : Bool) : Statement (.cpyc ch a wa) :=
  rr rfl (by decide) (by decide) (by decide) (bit_lt _) (by decide) (lt_of_lt_of_le a.isLt (by decide)) (lt_of_lt_of_le ch.isLt (by decide))
theorem cstop (ch : Fin 4) : Statement (.cstop ch) :=
  rr rfl (by decide) (by decide) (by decide) (by decide) (by decide) (by decide) (lt_of_lt_of_le ch.isLt (by decide))
theorem tsfence : Statement (.tsfence) :=
  rr rfl (by decide) (by decide) (by decide) (by decide) (by decide) (by decide) (by decide)
theorem tsdim (d : Reg) (a : Reg) (dim : Fin 4) (wa : Bool) : Statement (.tsdim d a dim wa) :=
  rr rfl (by decide) (by decide) (by decide) (bit_lt _) (lt_of_lt_of_le dim.isLt (by decide)) (lt_of_lt_of_le a.isLt (by decide)) (lt_of_lt_of_le d.isLt (by decide))
theorem mld (a : Reg) (wa : Bool) : Statement (.mld a wa) :=
  rr rfl (by decide) (by decide) (by decide) (bit_lt _) (by decide) (lt_of_lt_of_le a.isLt (by decide)) (by decide)
theorem mma (x : Fin 4) (a : Reg) (b : Reg) (wa : Bool) (wb : Bool) : Statement (.mma x a b wa wb) :=
  rr rfl (by decide) (by decide) (bit_lt _) (bit_lt _) (lt_of_lt_of_le b.isLt (by decide)) (lt_of_lt_of_le a.isLt (by decide)) (lt_of_lt_of_le x.isLt (by decide))
theorem mgang (x : Fin 4) (a : Reg) (b : Reg) (wa : Bool) (wb : Bool) : Statement (.mgang x a b wa wb) :=
  rr rfl (by decide) (by decide) (bit_lt _) (bit_lt _) (lt_of_lt_of_le b.isLt (by decide)) (lt_of_lt_of_le a.isLt (by decide)) (lt_of_lt_of_le x.isLt (by decide))
theorem mzero (x : Fin 4) : Statement (.mzero x) :=
  rr rfl (by decide) (by decide) (by decide) (by decide) (by decide) (by decide) (lt_of_lt_of_le x.isLt (by decide))
theorem mdrain (x : Fin 4) (a : Reg) (b : Reg) (wa : Bool) (wb : Bool) : Statement (.mdrain x a b wa wb) :=
  rr rfl (by decide) (by decide) (bit_lt _) (bit_lt _) (lt_of_lt_of_le b.isLt (by decide)) (lt_of_lt_of_le a.isLt (by decide)) (lt_of_lt_of_le x.isLt (by decide))
theorem mrel (a : Reg) (wa : Bool) : Statement (.mrel a wa) :=
  rr rfl (by decide) (by decide) (by decide) (bit_lt _) (by decide) (lt_of_lt_of_le a.isLt (by decide)) (by decide)
theorem mmaSolo (x : Fin 4) (a : Reg) (b : Reg) (wa : Bool) (wb : Bool) : Statement (.mmaSolo x a b wa wb) :=
  rr rfl (by decide) (by decide) (bit_lt _) (bit_lt _) (lt_of_lt_of_le b.isLt (by decide)) (lt_of_lt_of_le a.isLt (by decide)) (lt_of_lt_of_le x.isLt (by decide))
theorem fmtp (pfx : BitVec 25) : Statement (.fmtp pfx) := by
  refine of_word rfl ?_ ?_ <;> have := pfx.isLt <;> omega
theorem trap (a : Reg) (wa : Bool) : Statement (.trap a wa) :=
  rr rfl (by decide) (by decide) (by decide) (bit_lt _) (by decide) (lt_of_lt_of_le a.isLt (by decide)) (by decide)
theorem svc (a : Reg) (wa : Bool) : Statement (.svc a wa) :=
  rr rfl (by decide) (by decide) (by decide) (bit_lt _) (by decide) (lt_of_lt_of_le a.isLt (by decide)) (by decide)
theorem eret : Statement (.eret) :=
  rr rfl (by decide) (by decide) (by decide) (by decide) (by decide) (by decide) (by decide)
theorem brk : Statement (.brk) :=
  rr rfl (by decide) (by decide) (by decide) (by decide) (by decide) (by decide) (by decide)
theorem tlbinv (a : Reg) (b : Reg) (wa : Bool) (wb : Bool) : Statement (.tlbinv a b wa wb) :=
  rr rfl (by decide) (by decide) (bit_lt _) (bit_lt _) (lt_of_lt_of_le b.isLt (by decide)) (lt_of_lt_of_le a.isLt (by decide)) (by decide)
theorem txb (d : Reg) : Statement (.txb d) :=
  rr rfl (by decide) (by decide) (by decide) (by decide) (by decide) (by decide) (lt_of_lt_of_le d.isLt (by decide))
theorem txe : Statement (.txe) :=
  rr rfl (by decide) (by decide) (by decide) (by decide) (by decide) (by decide) (by decide)
theorem txa : Statement (.txa) :=
  rr rfl (by decide) (by decide) (by decide) (by decide) (by decide) (by decide) (by decide)
theorem vadd (d : Reg) (a : Reg) (b : Reg) (bs : Bool) (w : Bool) : Statement (.vadd d a b bs w) :=
  rr rfl (by decide) (by decide) (bit_lt _) (bit_lt _) (lt_of_lt_of_le b.isLt (by decide)) (lt_of_lt_of_le a.isLt (by decide)) (lt_of_lt_of_le d.isLt (by decide))
theorem vsub (d : Reg) (a : Reg) (b : Reg) (bs : Bool) (w : Bool) : Statement (.vsub d a b bs w) :=
  rr rfl (by decide) (by decide) (bit_lt _) (bit_lt _) (lt_of_lt_of_le b.isLt (by decide)) (lt_of_lt_of_le a.isLt (by decide)) (lt_of_lt_of_le d.isLt (by decide))
theorem vmul (d : Reg) (a : Reg) (b : Reg) (bs : Bool) (w : Bool) : Statement (.vmul d a b bs w) :=
  rr rfl (by decide) (by decide) (bit_lt _) (bit_lt _) (lt_of_lt_of_le b.isLt (by decide)) (lt_of_lt_of_le a.isLt (by decide)) (lt_of_lt_of_le d.isLt (by decide))
theorem vdiv (d : Reg) (a : Reg) (b : Reg) (bs : Bool) (w : Bool) : Statement (.vdiv d a b bs w) :=
  rr rfl (by decide) (by decide) (bit_lt _) (bit_lt _) (lt_of_lt_of_le b.isLt (by decide)) (lt_of_lt_of_le a.isLt (by decide)) (lt_of_lt_of_le d.isLt (by decide))
theorem vfma (d : Reg) (a : Reg) (b : Reg) (bs : Bool) (w : Bool) : Statement (.vfma d a b bs w) :=
  rr rfl (by decide) (by decide) (bit_lt _) (bit_lt _) (lt_of_lt_of_le b.isLt (by decide)) (lt_of_lt_of_le a.isLt (by decide)) (lt_of_lt_of_le d.isLt (by decide))
theorem vmin (d : Reg) (a : Reg) (b : Reg) (bs : Bool) (w : Bool) : Statement (.vmin d a b bs w) :=
  rr rfl (by decide) (by decide) (bit_lt _) (bit_lt _) (lt_of_lt_of_le b.isLt (by decide)) (lt_of_lt_of_le a.isLt (by decide)) (lt_of_lt_of_le d.isLt (by decide))
theorem vmax (d : Reg) (a : Reg) (b : Reg) (bs : Bool) (w : Bool) : Statement (.vmax d a b bs w) :=
  rr rfl (by decide) (by decide) (bit_lt _) (bit_lt _) (lt_of_lt_of_le b.isLt (by decide)) (lt_of_lt_of_le a.isLt (by decide)) (lt_of_lt_of_le d.isLt (by decide))
theorem vabs (d : Reg) (a : Reg) (w : Bool) : Statement (.vabs d a w) :=
  rr rfl (by decide) (by decide) (by decide) (bit_lt _) (by decide) (lt_of_lt_of_le a.isLt (by decide)) (lt_of_lt_of_le d.isLt (by decide))
theorem vneg (d : Reg) (a : Reg) (w : Bool) : Statement (.vneg d a w) :=
  rr rfl (by decide) (by decide) (by decide) (bit_lt _) (by decide) (lt_of_lt_of_le a.isLt (by decide)) (lt_of_lt_of_le d.isLt (by decide))
theorem vrcp (d : Reg) (a : Reg) (w : Bool) : Statement (.vrcp d a w) :=
  rr rfl (by decide) (by decide) (by decide) (bit_lt _) (by decide) (lt_of_lt_of_le a.isLt (by decide)) (lt_of_lt_of_le d.isLt (by decide))
theorem vrsq (d : Reg) (a : Reg) (w : Bool) : Statement (.vrsq d a w) :=
  rr rfl (by decide) (by decide) (by decide) (bit_lt _) (by decide) (lt_of_lt_of_le a.isLt (by decide)) (lt_of_lt_of_le d.isLt (by decide))
theorem vexp2 (d : Reg) (a : Reg) (w : Bool) : Statement (.vexp2 d a w) :=
  rr rfl (by decide) (by decide) (by decide) (bit_lt _) (by decide) (lt_of_lt_of_le a.isLt (by decide)) (lt_of_lt_of_le d.isLt (by decide))
theorem vlog2 (d : Reg) (a : Reg) (w : Bool) : Statement (.vlog2 d a w) :=
  rr rfl (by decide) (by decide) (by decide) (bit_lt _) (by decide) (lt_of_lt_of_le a.isLt (by decide)) (lt_of_lt_of_le d.isLt (by decide))
theorem vsel (d : Reg) (a : Reg) (b : Reg) (bs : Bool) (w : Bool) : Statement (.vsel d a b bs w) :=
  rr rfl (by decide) (by decide) (bit_lt _) (bit_lt _) (lt_of_lt_of_le b.isLt (by decide)) (lt_of_lt_of_le a.isLt (by decide)) (lt_of_lt_of_le d.isLt (by decide))
theorem vcmpEq (d : Reg) (a : Reg) (b : Reg) (bs : Bool) (w : Bool) : Statement (.vcmpEq d a b bs w) :=
  rr rfl (by decide) (by decide) (bit_lt _) (bit_lt _) (lt_of_lt_of_le b.isLt (by decide)) (lt_of_lt_of_le a.isLt (by decide)) (lt_of_lt_of_le d.isLt (by decide))
theorem vcmpNe (d : Reg) (a : Reg) (b : Reg) (bs : Bool) (w : Bool) : Statement (.vcmpNe d a b bs w) :=
  rr rfl (by decide) (by decide) (bit_lt _) (bit_lt _) (lt_of_lt_of_le b.isLt (by decide)) (lt_of_lt_of_le a.isLt (by decide)) (lt_of_lt_of_le d.isLt (by decide))
theorem vcmpLt (d : Reg) (a : Reg) (b : Reg) (bs : Bool) (w : Bool) : Statement (.vcmpLt d a b bs w) :=
  rr rfl (by decide) (by decide) (bit_lt _) (bit_lt _) (lt_of_lt_of_le b.isLt (by decide)) (lt_of_lt_of_le a.isLt (by decide)) (lt_of_lt_of_le d.isLt (by decide))
theorem vcmpLe (d : Reg) (a : Reg) (b : Reg) (bs : Bool) (w : Bool) : Statement (.vcmpLe d a b bs w) :=
  rr rfl (by decide) (by decide) (bit_lt _) (bit_lt _) (lt_of_lt_of_le b.isLt (by decide)) (lt_of_lt_of_le a.isLt (by decide)) (lt_of_lt_of_le d.isLt (by decide))
theorem vand (d : Reg) (a : Reg) (b : Reg) (bs : Bool) (w : Bool) : Statement (.vand d a b bs w) :=
  rr rfl (by decide) (by decide) (bit_lt _) (bit_lt _) (lt_of_lt_of_le b.isLt (by decide)) (lt_of_lt_of_le a.isLt (by decide)) (lt_of_lt_of_le d.isLt (by decide))
theorem vor (d : Reg) (a : Reg) (b : Reg) (bs : Bool) (w : Bool) : Statement (.vor d a b bs w) :=
  rr rfl (by decide) (by decide) (bit_lt _) (bit_lt _) (lt_of_lt_of_le b.isLt (by decide)) (lt_of_lt_of_le a.isLt (by decide)) (lt_of_lt_of_le d.isLt (by decide))
theorem vxor (d : Reg) (a : Reg) (b : Reg) (bs : Bool) (w : Bool) : Statement (.vxor d a b bs w) :=
  rr rfl (by decide) (by decide) (bit_lt _) (bit_lt _) (lt_of_lt_of_le b.isLt (by decide)) (lt_of_lt_of_le a.isLt (by decide)) (lt_of_lt_of_le d.isLt (by decide))
theorem vshl (d : Reg) (a : Reg) (b : Reg) (bs : Bool) (w : Bool) : Statement (.vshl d a b bs w) :=
  rr rfl (by decide) (by decide) (bit_lt _) (bit_lt _) (lt_of_lt_of_le b.isLt (by decide)) (lt_of_lt_of_le a.isLt (by decide)) (lt_of_lt_of_le d.isLt (by decide))
theorem vshr (d : Reg) (a : Reg) (b : Reg) (bs : Bool) (w : Bool) : Statement (.vshr d a b bs w) :=
  rr rfl (by decide) (by decide) (bit_lt _) (bit_lt _) (lt_of_lt_of_le b.isLt (by decide)) (lt_of_lt_of_le a.isLt (by decide)) (lt_of_lt_of_le d.isLt (by decide))
theorem vpopc (d : Reg) (a : Reg) (w : Bool) : Statement (.vpopc d a w) :=
  rr rfl (by decide) (by decide) (by decide) (bit_lt _) (by decide) (lt_of_lt_of_le a.isLt (by decide)) (lt_of_lt_of_le d.isLt (by decide))
theorem vcvt (d : Reg) (a : Reg) (w : Bool) : Statement (.vcvt d a w) :=
  rr rfl (by decide) (by decide) (by decide) (bit_lt _) (by decide) (lt_of_lt_of_le a.isLt (by decide)) (lt_of_lt_of_le d.isLt (by decide))
theorem vquant (d : Reg) (a : Reg) (w : Bool) : Statement (.vquant d a w) :=
  rr rfl (by decide) (by decide) (by decide) (bit_lt _) (by decide) (lt_of_lt_of_le a.isLt (by decide)) (lt_of_lt_of_le d.isLt (by decide))
theorem vsum (d : Reg) (a : Reg) (dim : Fin 4) (w : Bool) : Statement (.vsum d a dim w) :=
  rr rfl (by decide) (by decide) (by decide) (bit_lt _) (lt_of_lt_of_le dim.isLt (by decide)) (lt_of_lt_of_le a.isLt (by decide)) (lt_of_lt_of_le d.isLt (by decide))
theorem vmaxr (d : Reg) (a : Reg) (dim : Fin 4) (w : Bool) : Statement (.vmaxr d a dim w) :=
  rr rfl (by decide) (by decide) (by decide) (bit_lt _) (lt_of_lt_of_le dim.isLt (by decide)) (lt_of_lt_of_le a.isLt (by decide)) (lt_of_lt_of_le d.isLt (by decide))
theorem vscan (d : Reg) (a : Reg) (dim : Fin 4) (w : Bool) : Statement (.vscan d a dim w) :=
  rr rfl (by decide) (by decide) (by decide) (bit_lt _) (lt_of_lt_of_le dim.isLt (by decide)) (lt_of_lt_of_le a.isLt (by decide)) (lt_of_lt_of_le d.isLt (by decide))
theorem vgath (d : Reg) (a : Reg) (b : Reg) (w : Bool) : Statement (.vgath d a b w) :=
  rr rfl (by decide) (by decide) (by decide) (bit_lt _) (lt_of_lt_of_le b.isLt (by decide)) (lt_of_lt_of_le a.isLt (by decide)) (lt_of_lt_of_le d.isLt (by decide))
theorem vscat (d : Reg) (a : Reg) (b : Reg) (w : Bool) : Statement (.vscat d a b w) :=
  rr rfl (by decide) (by decide) (by decide) (bit_lt _) (lt_of_lt_of_le b.isLt (by decide)) (lt_of_lt_of_le a.isLt (by decide)) (lt_of_lt_of_le d.isLt (by decide))
theorem vamoOr (d : Reg) (a : Reg) (b : Reg) (w : Bool) : Statement (.vamoOr d a b w) :=
  rr rfl (by decide) (by decide) (by decide) (bit_lt _) (lt_of_lt_of_le b.isLt (by decide)) (lt_of_lt_of_le a.isLt (by decide)) (lt_of_lt_of_le d.isLt (by decide))
theorem vamoAnd (d : Reg) (a : Reg) (b : Reg) (w : Bool) : Statement (.vamoAnd d a b w) :=
  rr rfl (by decide) (by decide) (by decide) (bit_lt _) (lt_of_lt_of_le b.isLt (by decide)) (lt_of_lt_of_le a.isLt (by decide)) (lt_of_lt_of_le d.isLt (by decide))
theorem vamoAdd (d : Reg) (a : Reg) (b : Reg) (w : Bool) : Statement (.vamoAdd d a b w) :=
  rr rfl (by decide) (by decide) (by decide) (bit_lt _) (lt_of_lt_of_le b.isLt (by decide)) (lt_of_lt_of_le a.isLt (by decide)) (lt_of_lt_of_le d.isLt (by decide))
theorem vamoFadd (d : Reg) (a : Reg) (b : Reg) (w : Bool) : Statement (.vamoFadd d a b w) :=
  rr rfl (by decide) (by decide) (by decide) (bit_lt _) (lt_of_lt_of_le b.isLt (by decide)) (lt_of_lt_of_le a.isLt (by decide)) (lt_of_lt_of_le d.isLt (by decide))
theorem vamoMax (d : Reg) (a : Reg) (b : Reg) (w : Bool) : Statement (.vamoMax d a b w) :=
  rr rfl (by decide) (by decide) (by decide) (bit_lt _) (lt_of_lt_of_le b.isLt (by decide)) (lt_of_lt_of_le a.isLt (by decide)) (lt_of_lt_of_le d.isLt (by decide))
theorem vhash (d : Reg) (a : Reg) (w : Bool) : Statement (.vhash d a w) :=
  rr rfl (by decide) (by decide) (by decide) (bit_lt _) (by decide) (lt_of_lt_of_le a.isLt (by decide)) (lt_of_lt_of_le d.isLt (by decide))
theorem vacc (d : Reg) (x : Fin 4) (w : Bool) : Statement (.vacc d x w) :=
  rr rfl (by decide) (by decide) (by decide) (bit_lt _) (lt_of_lt_of_le x.isLt (by decide)) (by decide) (lt_of_lt_of_le d.isLt (by decide))
theorem vfill (d : Reg) (b : Reg) (w : Bool) : Statement (.vfill d b w) :=
  rr rfl (by decide) (by decide) (by decide) (bit_lt _) (lt_of_lt_of_le b.isLt (by decide)) (by decide) (lt_of_lt_of_le d.isLt (by decide))
theorem viota (d : Reg) (b : Reg) (w : Bool) : Statement (.viota d b w) :=
  rr rfl (by decide) (by decide) (by decide) (bit_lt _) (lt_of_lt_of_le b.isLt (by decide)) (by decide) (lt_of_lt_of_le d.isLt (by decide))
theorem vaccLive (d : Reg) (x : Fin 4) (w : Bool) : Statement (.vaccLive d x w) :=
  rr rfl (by decide) (by decide) (by decide) (bit_lt _) (lt_of_lt_of_le x.isLt (by decide)) (by decide) (lt_of_lt_of_le d.isLt (by decide))
theorem mfc (d : Reg) (n : BitVec 12) : Statement (.mfc d n) :=
  ri rfl (by decide) (lt_of_lt_of_le n.isLt (by decide)) (by decide) (by decide) (lt_of_lt_of_le d.isLt (by decide))
theorem mtc (n : BitVec 12) (a : Reg) (wa : Bool) : Statement (.mtc n a wa) :=
  ri rfl (by decide) (lt_of_lt_of_le n.isLt (by decide)) (bit_lt _) (lt_of_lt_of_le a.isLt (by decide)) (by decide)
theorem cMv (d : Reg) (b : Reg) (w : Bool) : Statement (.cMv d b w) :=
  compact rfl (by decide) (bit_lt _) (lt_of_lt_of_le b.isLt (by decide)) (lt_of_lt_of_le d.isLt (by decide))
theorem cAdd (d : Reg) (b : Reg) (w : Bool) : Statement (.cAdd d b w) :=
  compact rfl (by decide) (bit_lt _) (lt_of_lt_of_le b.isLt (by decide)) (lt_of_lt_of_le d.isLt (by decide))
theorem cSub (d : Reg) (b : Reg) (w : Bool) : Statement (.cSub d b w) :=
  compact rfl (by decide) (bit_lt _) (lt_of_lt_of_le b.isLt (by decide)) (lt_of_lt_of_le d.isLt (by decide))
theorem cAnd (d : Reg) (b : Reg) (w : Bool) : Statement (.cAnd d b w) :=
  compact rfl (by decide) (bit_lt _) (lt_of_lt_of_le b.isLt (by decide)) (lt_of_lt_of_le d.isLt (by decide))
theorem cOr (d : Reg) (b : Reg) (w : Bool) : Statement (.cOr d b w) :=
  compact rfl (by decide) (bit_lt _) (lt_of_lt_of_le b.isLt (by decide)) (lt_of_lt_of_le d.isLt (by decide))
theorem cXor (d : Reg) (b : Reg) (w : Bool) : Statement (.cXor d b w) :=
  compact rfl (by decide) (bit_lt _) (lt_of_lt_of_le b.isLt (by decide)) (lt_of_lt_of_le d.isLt (by decide))
theorem cSll (d : Reg) (b : Reg) (w : Bool) : Statement (.cSll d b w) :=
  compact rfl (by decide) (bit_lt _) (lt_of_lt_of_le b.isLt (by decide)) (lt_of_lt_of_le d.isLt (by decide))
theorem cSrl (d : Reg) (b : Reg) (w : Bool) : Statement (.cSrl d b w) :=
  compact rfl (by decide) (bit_lt _) (lt_of_lt_of_le b.isLt (by decide)) (lt_of_lt_of_le d.isLt (by decide))
theorem cSra (d : Reg) (b : Reg) (w : Bool) : Statement (.cSra d b w) :=
  compact rfl (by decide) (bit_lt _) (lt_of_lt_of_le b.isLt (by decide)) (lt_of_lt_of_le d.isLt (by decide))
theorem cAddi (d : Reg) (imm : BitVec 5) (w : Bool) : Statement (.cAddi d imm w) :=
  compact rfl (by decide) (bit_lt _) (lt_of_lt_of_le imm.isLt (by decide)) (lt_of_lt_of_le d.isLt (by decide))
theorem cLd (d : Reg) (b : Reg) (w : Bool) : Statement (.cLd d b w) :=
  compact rfl (by decide) (bit_lt _) (lt_of_lt_of_le b.isLt (by decide)) (lt_of_lt_of_le d.isLt (by decide))
theorem cSt (d : Reg) (b : Reg) (w : Bool) : Statement (.cSt d b w) :=
  compact rfl (by decide) (bit_lt _) (lt_of_lt_of_le b.isLt (by decide)) (lt_of_lt_of_le d.isLt (by decide))
theorem cFadd (d : Reg) (b : Reg) (w : Bool) : Statement (.cFadd d b w) :=
  compact rfl (by decide) (bit_lt _) (lt_of_lt_of_le b.isLt (by decide)) (lt_of_lt_of_le d.isLt (by decide))
theorem cFmul (d : Reg) (b : Reg) (w : Bool) : Statement (.cFmul d b w) :=
  compact rfl (by decide) (bit_lt _) (lt_of_lt_of_le b.isLt (by decide)) (lt_of_lt_of_le d.isLt (by decide))
theorem cFmin (d : Reg) (b : Reg) (w : Bool) : Statement (.cFmin d b w) :=
  compact rfl (by decide) (bit_lt _) (lt_of_lt_of_le b.isLt (by decide)) (lt_of_lt_of_le d.isLt (by decide))
theorem cFmax (d : Reg) (b : Reg) (w : Bool) : Statement (.cFmax d b w) :=
  compact rfl (by decide) (bit_lt _) (lt_of_lt_of_le b.isLt (by decide)) (lt_of_lt_of_le d.isLt (by decide))
theorem loadValueArrival (core : Nat) (ctx : Nat) (reg : Reg) (bad : Bool) : Statement (.loadValueArrival core ctx reg bad) := of_none rfl
theorem remoteWriteArrival (n : Nat) : Statement (.remoteWriteArrival n) := of_none rfl
theorem inboxEntryApply (core : Nat) (n : Nat) : Statement (.inboxEntryApply core n) := of_none rfl
theorem watchdogExpiry (core : Nat) : Statement (.watchdogExpiry core) := of_none rfl
theorem yieldWaitLimit (core : Nat) : Statement (.yieldWaitLimit core) := of_none rfl
theorem sliceEnd (core : Nat) (next : Option Nat) : Statement (.sliceEnd core next) := of_none rfl
theorem graceExpiry (core : Nat) : Statement (.graceExpiry core) := of_none rfl
theorem takeWork (core : Nat) : Statement (.takeWork core) := of_none rfl
theorem groupPlacement (cluster : Nat) : Statement (.groupPlacement cluster) := of_none rfl
theorem launchParse (part : Nat) : Statement (.launchParse part) := of_none rfl
theorem hardwareHelperStart (core : Nat) : Statement (.hardwareHelperStart core) := of_none rfl
theorem qntExpiry (core : Nat) : Statement (.qntExpiry core) := of_none rfl
theorem quantumEnd (part : Nat) : Statement (.quantumEnd part) := of_none rfl
theorem nestingHoldExpiry (cluster : Nat) (n : Nat) : Statement (.nestingHoldExpiry cluster n) := of_none rfl
theorem matrixKStep (core : Nat) (n : Nat) : Statement (.matrixKStep core n) := of_none rfl
theorem mdrainRow (core : Nat) (n : Nat) : Statement (.mdrainRow core n) := of_none rfl
theorem formatEmulationRequest (die : Nat) : Statement (.formatEmulationRequest die) := of_none rfl
theorem vectorElementGroup (core : Nat) : Statement (.vectorElementGroup core) := of_none rfl
theorem pageReplySuccess (vf : Nat) (slot : Nat) (gen : Nat) : Statement (.pageReplySuccess vf slot gen) := of_none rfl
theorem pageReplyInvalidRequest (vf : Nat) (slot : Nat) (gen : Nat) : Statement (.pageReplyInvalidRequest vf slot gen) := of_none rfl
theorem pageReplyResponseFailure (vf : Nat) (slot : Nat) (gen : Nat) : Statement (.pageReplyResponseFailure vf slot gen) := of_none rfl
theorem functionReset (vf : Nat) : Statement (.functionReset vf) := of_none rfl
theorem hostStage2Invalidation (part : Nat) (ipa : Option (BitVec 64)) : Statement (.hostStage2Invalidation part ipa) := of_none rfl
theorem copyLineWrite (core : Nat) (ch : Nat) : Statement (.copyLineWrite core ch) := of_none rfl
theorem copyRecordFinish (core : Nat) (ch : Nat) : Statement (.copyRecordFinish core ch) := of_none rfl
theorem messagePlacement (n : Nat) : Statement (.messagePlacement n) := of_none rfl
theorem msendAnswer (core : Nat) (ctx : Nat) : Statement (.msendAnswer core ctx) := of_none rfl
theorem foldPostArrival (n : Nat) : Statement (.foldPostArrival n) := of_none rfl
theorem fpostStatusAnswer (n : Nat) : Statement (.fpostStatusAnswer n) := of_none rfl
theorem foldReplay (cluster : Nat) (part : Nat) : Statement (.foldReplay cluster part) := of_none rfl
theorem topTokenPass (part : Nat) (slot : Nat) : Statement (.topTokenPass part slot) := of_none rfl
theorem nredRoundComplete (core : Nat) (tree : Nat) : Statement (.nredRoundComplete core tree) := of_none rfl
theorem treeHoldExpiry (part : Nat) (tree : Nat) : Statement (.treeHoldExpiry part tree) := of_none rfl
theorem linkRetryExhausted (flow : Nat × Option Nat) : Statement (.linkRetryExhausted flow) := of_none rfl
theorem overflowWatchScan (part : Nat) : Statement (.overflowWatchScan part) := of_none rfl
theorem bankRetentionEntry (bank : Nat) : Statement (.bankRetentionEntry bank) := of_none rfl
theorem wakeSlotGrant (die : Nat) : Statement (.wakeSlotGrant die) := of_none rfl
theorem bankWakeComplete (bank : Nat) : Statement (.bankWakeComplete bank) := of_none rfl
theorem clusterRetentionEntry (cluster : Nat) : Statement (.clusterRetentionEntry cluster) := of_none rfl
theorem clusterRetentionExit (cluster : Nat) (lost : Bool) : Statement (.clusterRetentionExit cluster lost) := of_none rfl
theorem cacheEviction (cluster : Nat) (line : Nat) : Statement (.cacheEviction cluster line) := of_none rfl
theorem updateOnlyEviction (core : Nat) (line : Nat) : Statement (.updateOnlyEviction core line) := of_none rfl
theorem proxyAtomicService (die : Nat) (lane : Nat) : Statement (.proxyAtomicService die lane) := of_none rfl
theorem backInvalidationAck (line : Nat) : Statement (.backInvalidationAck line) := of_none rfl
theorem hostSnoop (pa : Nat) (bytes : List (BitVec 8)) : Statement (.hostSnoop pa bytes) := of_none rfl
theorem cxlMemWrite (place : Nat × Nat) (bytes : List (BitVec 8)) : Statement (.cxlMemWrite place bytes) := of_none rfl
theorem cxlMemRead (place : Nat × Nat) : Statement (.cxlMemRead place) := of_none rfl
theorem stashEntryASwap (die : Nat) : Statement (.stashEntryASwap die) := of_none rfl
theorem stashEntryBSwap (die : Nat) : Statement (.stashEntryBSwap die) := of_none rfl
theorem treeT0Swap (die : Nat) : Statement (.treeT0Swap die) := of_none rfl
theorem monitorConfigSwap (die : Nat) : Statement (.monitorConfigSwap die) := of_none rfl
theorem hbaseSwap (die : Nat) : Statement (.hbaseSwap die) := of_none rfl
theorem ovfbaseSwap (die : Nat) : Statement (.ovfbaseSwap die) := of_none rfl
theorem ovfsizeSwap (die : Nat) : Statement (.ovfsizeSwap die) := of_none rfl
theorem s1rootSwap (die : Nat) : Statement (.s1rootSwap die) := of_none rfl
theorem s1attrSwap (die : Nat) : Statement (.s1attrSwap die) := of_none rfl
theorem partitionRegisterWrite (die : Nat) : Statement (.partitionRegisterWrite die) := of_none rfl
theorem create (tag : Nat) (cores : List Nat × List (Nat × Nat)) (banks : List Nat) (vf : Nat) (det : Bool) :
    Statement (.create tag cores banks vf det) := of_none rfl
theorem resize (tag : Nat) (grow : List Nat) (shrink : Nat) (limit : Nat) : Statement (.resize tag grow shrink limit) := of_none rfl
theorem replace (tag : Nat) (lcore : Nat) (phys : Nat) : Statement (.replace tag lcore phys) := of_none rfl
theorem layoutTick (tag : Nat) : Statement (.layoutTick tag) := of_none rfl
theorem shrinkLimitExpiry (tag : Nat) : Statement (.shrinkLimitExpiry tag) := of_none rfl
theorem release (tag : Nat) : Statement (.release tag) := of_none rfl
theorem sets2 (tag : Nat) (root : BitVec 64) (attr : BitVec 64) (pasid : Nat) : Statement (.sets2 tag root attr pasid) := of_none rfl
theorem setquota (tag : Nat) (cluster : Option Nat) (q : Nat) : Statement (.setquota tag cluster q) := of_none rfl
theorem summary : Statement (.summary) := of_none rfl
theorem attest (nonce : List (BitVec 8)) : Statement (.attest nonce) := of_none rfl
theorem logread (seq : Nat) (count : Nat) : Statement (.logread seq count) := of_none rfl
theorem bbread (recorder : Nat) (index : Nat) (count : Nat) : Statement (.bbread recorder index count) := of_none rfl
theorem auditAppend (askers events : List Nat) (data : List (List (BitVec 8))) : Statement (.auditAppend askers events data) := of_none rfl
theorem blackBoxWrite (recorder : Nat) : Statement (.blackBoxWrite recorder) := of_none rfl
theorem fatalError (recorder : Nat) : Statement (.fatalError recorder) := of_none rfl
theorem coldReset (signed : List (BitVec 8) × List (BitVec 8)) (items : List (List (BitVec 8))) : Statement (.coldReset signed items) := of_none rfl
theorem warmReset (signed : List (BitVec 8) × List (BitVec 8)) (items : List (List (BitVec 8))) : Statement (.warmReset signed items) := of_none rfl
theorem powerOff : Statement (.powerOff) := of_none rfl
theorem budgetTreeUpdate (dieBudgets : List Nat) (counts : List (Nat × List Nat)) : Statement (.budgetTreeUpdate dieBudgets counts) := of_none rfl
theorem rampWindow (core : Nat) (busy : Nat) : Statement (.rampWindow core busy) := of_none rfl
theorem governorWindow (core : Nat) (cycles : Nat) (stalls : Nat) : Statement (.governorWindow core cycles stalls) := of_none rfl
theorem microcontrollerLoop (temps : List Nat) (volts : List Nat) (fmax : List Nat) (limits : List Nat × Nat × Nat) :
    Statement (.microcontrollerLoop temps volts fmax limits) := of_none rfl
theorem thermalTrip (cluster : Nat) : Statement (.thermalTrip cluster) := of_none rfl
theorem thermalShutdown : Statement (.thermalShutdown) := of_none rfl
theorem hole (word : BitVec 32) (cause : BitVec 8) : Statement (.hole word cause) := of_none rfl
theorem fetchFault (cause : BitVec 8) (eval : BitVec 64) : Statement (.fetchFault cause eval) := of_none rfl
theorem accessPerformed (core : Nat) (n : Nat) : Statement (.accessPerformed core n) := of_none rfl
theorem bankPowerDownComplete (bank : Nat) : Statement (.bankPowerDownComplete bank) := of_none rfl
theorem bolmorRemoteAccess (tag : Nat) (pa : Nat) (kind : Nat) (bytes : List (BitVec 8)) : Statement (.bolmorRemoteAccess tag pa kind bytes) := of_none rfl
theorem lineRetirement (place : Option (Nat × Nat × Nat) × Nat) : Statement (.lineRetirement place) := of_none rfl
theorem debugUnlock (state : List (BitVec 8)) : Statement (.debugUnlock state) := of_none rfl
theorem thresholdWriteArrival (n : Nat) : Statement (.thresholdWriteArrival n) := of_none rfl

end Sys2Proof.Laws.WordForm
end

