-- ==== Sys2Proof/Laws/Run.lean ====
section
/-!
SUPPORT. What the operations that every instruction is made of can do: the checks of R58, reads and writes of registers,
the completion of an instruction and what its stop leaves.
-/

namespace Sys2Proof.Machine

open Sys2Proof.Safety

variable {f : InstrInfo} {s t : State} {n : Reg} {e : Stop}

/-- The checks of R58 let an instruction through, or stop with the first that it meets. -/
theorem precheck_eq (f : InstrInfo) (s : State) :
    precheck f s = match firstCheck f s with | none => .ok () s | some e => .error e s := by
  unfold precheck firstCheck
  simp only [get_bind, ite_run, trapAct_bind, throw_run, pure_run]
  by_cases h1 : (hasPfx (curCtx s) && (f.pfx == 0 || f.pfx == 1 && bitsOf (curCtx s).fmt 21 0 != 0)) = true
  · simp [h1]
  · by_cases h2 : privOf (curCtx s).status < f.priv
    · simp [h1, h2]
    · cases isHelper s <;> cases f.onlyHelper <;> simp [h1, h2] <;> split <;> simp_all

theorem precheck_ok (h : MayIssue f s) : precheck f s = .ok () s := by
  rw [precheck_eq, show firstCheck f s = none from h]

theorem precheck_stops (h : firstCheck f s = some e) : precheck f s = .error e s := by
  rw [precheck_eq, h]

/-- An instruction that may issue and whose body ends completes. -/
theorem runInstr_ok {body : Act Unit} (h : MayIssue f s) (hb : body s = .ok () t) : runInstr f body s = retire f t := by
  unfold runInstr
  rw [bind_ok (precheck_ok h), hb]

/-- An instruction that may issue and whose body stops leaves what its stop leaves. -/
theorem runInstr_stops {body : Act Unit} (h : MayIssue f s) (hb : body s = .error e t) : runInstr f body s = halt e t := by
  unfold runInstr
  rw [bind_ok (precheck_ok h), hb]

/-- An instruction that fails a check of R58 leaves what that stop leaves, whatever its body is. -/
theorem runInstr_checked {body : Act Unit} (h : firstCheck f s = some e) : runInstr f body s = halt e s := by
  unfold runInstr
  rw [bind_error (precheck_stops h)]

theorem runSeq_ok {body : Act Unit} (h : MayIssue f s) (hb : body s = .ok () t) :
    runSeq f body s = .next (completes f t) := by
  have ha : (do body; advance f.len : Act Unit) s = .ok () (onCur (fun x => { x with pc := x.pc + BitVec.ofNat 64 f.len }) t) :=
    (seq_ok hb).trans rfl
  unfold runSeq completes
  rw [runInstr_ok h ha]

theorem runSeq_stops {body : Act Unit} (h : MayIssue f s) (hb : body s = .error e t) : runSeq f body s = .next (halt e t) := by
  unfold runSeq
  rw [runInstr_stops h (bind_error hb)]

theorem runSeq_checked {body : Act Unit} (h : firstCheck f s = some e) : runSeq f body s = .next (halt e s) := by
  unfold runSeq
  rw [runInstr_checked h]

theorem runJump_ok {body : Act Unit} (h : MayIssue f s) (hb : body s = .ok () t) : runJump f body s = .next (retire f t) := by
  unfold runJump
  rw [runInstr_ok h hb]

theorem runJump_stops {body : Act Unit} (h : MayIssue f s) (hb : body s = .error e t) : runJump f body s = .next (halt e t) := by
  unfold runJump
  rw [runInstr_stops h hb]

theorem runJump_checked {body : Act Unit} (h : firstCheck f s = some e) : runJump f body s = .next (halt e s) := by
  unfold runJump
  rw [runInstr_checked h]

/-! ### Registers -/

/-- A register that can be read gives its value and changes nothing. -/
theorem readS_ok (h : Readable s n) (w : Bool) : readS n w s = .ok (regVal s n) s := by
  obtain ⟨h1, h2, h3⟩ := h
  unfold readS
  simp [h1, h2, h3]

/-- A register that is empty, with no value on its way and no wait bit, traps with cause 0x04 (R64). -/
theorem readS_empty (h1 : regError s n = none) (h2 : regLocked s n = false) (h3 : regPresent s n = false)
    (h4 : regPending s n = false) : readS n false s = .error (.trap 0x04 (regIndex n) 0) s := by
  unfold readS
  simp [h1, h2, h3, h4]

/-- A register whose value is on its way waits if the wait bit is set, and in deterministic mode without it (R64, R65). -/
theorem readS_waits {w : Bool} (h1 : regError s n = none) (h2 : regLocked s n = false) (h3 : regPresent s n = false)
    (h4 : regPending s n = true) (h5 : w = true ∨ detMode s = true) : readS n w s = .error (.stall false) s := by
  unfold readS
  rcases h5 with h5 | h5 <;> simp [h1, h2, h3, h4, h5]

theorem destReady_ok (h : Writable s n) : destReady n s = .ok () s := by
  unfold destReady
  rcases h with h | ⟨h1, h2, h3⟩
  · simp [h]
  · by_cases h0 : n = 0 <;> simp [h0, h1, h2, h3]

/-- A destination whose value is on its way waits (R66). -/
theorem destReady_waits (h0 : n ≠ 0) (h1 : regError s n = none) (h2 : regPending s n = true) :
    destReady n s = .error (.stall false) s := by
  unfold destReady
  simp [h0, h1, h2]

theorem writeS_ok (h : Writable s n) (v : Word) : writeS n v s = .ok () (setReg n v s) := by
  unfold writeS
  rw [bind_ok (destReady_ok h)]
  rfl

end Sys2Proof.Machine
end

