-- ==== Sys2Proof/Laws/State.lean ====
section
/-!
SUPPORT. What each update of State leaves: one lemma for each field and update, so that no proof unfolds an update, and what
is read back from the sparse tables of State.
-/

namespace Sys2Proof.Machine

/-! ### Sparse tables -/

/-- What was put under a key is found under it. -/
theorem findBy_putBy {α : Type} (key : α → Nat) (x : α) : ∀ l : List α, findBy key (key x) (putBy key x l) = some x
  | [] => by simp [putBy, findBy]
  | y :: ys => by
    unfold putBy
    split
    · simp [findBy]
    · split
      · simp [findBy]
      · rename_i h _
        rw [findBy, if_neg (Ne.symm h)]
        exact findBy_putBy key x ys

/-- What was put under a key leaves every other key. -/
theorem findBy_putBy_ne {α : Type} (key : α → Nat) (x : α) {k : Nat} (h : key x ≠ k) :
    ∀ l : List α, findBy key k (putBy key x l) = findBy key k l
  | [] => by simp [putBy, findBy, h]
  | y :: ys => by
    unfold putBy
    split
    · rename_i e
      rw [findBy, if_neg h, findBy, if_neg (e ▸ h)]
    · split
      · rw [findBy, if_neg h]
      · rw [findBy, findBy, findBy_putBy_ne key x h ys]

theorem findBy_key {α : Type} {key : α → Nat} {k : Nat} {x : α} : ∀ {l : List α}, findBy key k l = some x → key x = k
  | y :: ys, h => by
    rw [findBy] at h
    split at h
    · cases h; assumption
    · exact findBy_key h

/-- A change of every element that keeps its key changes what is found. -/
theorem findBy_map {α : Type} {key : α → Nat} {f : α → α} (hf : ∀ x, key (f x) = key x) (k : Nat) :
    ∀ l : List α, findBy key k (l.map f) = (findBy key k l).map f
  | [] => rfl
  | y :: ys => by
    rw [List.map_cons, findBy, findBy, hf]
    split
    · rfl
    · exact findBy_map hf k ys

/-! ### Contexts of a core -/

@[simp] theorem ctxOf_putCtx (c : Core) (i : Nat) (x : Ctx) : ctxOf (putCtx c i x) i = x := by
  unfold ctxOf putCtx
  split <;> simp

@[simp] theorem ctxOf_zero (c : Core) : ctxOf c 0 = c.ctl := rfl

theorem ctxOf_putCtx_ne (c : Core) {i k : Nat} (x : Ctx) (hi : i ≤ 10) (hk : k ≤ 10) (h : k ≠ i) :
    ctxOf (putCtx c i x) k = ctxOf c k := by
  unfold ctxOf putCtx
  by_cases h1 : 0 < i ∧ i ≤ 10 <;> by_cases h2 : 0 < k ∧ k ≤ 10
  · simp only [h1, h2, and_self, dite_true]
    exact Vector.getElem_set_ne _ _ (by omega)
  · simp [h1, h2]
  · simp [h1, h2]
  · omega

@[simp] theorem putCtx_phys (c : Core) (i : Nat) (x : Ctx) : (putCtx c i x).phys = c.phys := by unfold putCtx; split <;> rfl
@[simp] theorem putCtx_part (c : Core) (i : Nat) (x : Ctx) : (putCtx c i x).part = c.part := by unfold putCtx; split <;> rfl
@[simp] theorem putCtx_serves (c : Core) (i : Nat) (x : Ctx) : (putCtx c i x).serves = c.serves := by unfold putCtx; split <;> rfl
@[simp] theorem putCtx_cur (c : Core) (i : Nat) (x : Ctx) : (putCtx c i x).cur = c.cur := by unfold putCtx; split <;> rfl
@[simp] theorem putCtx_last (c : Core) (i : Nat) (x : Ctx) : (putCtx c i x).last = c.last := by unfold putCtx; split <;> rfl
@[simp] theorem putCtx_ages (c : Core) (i : Nat) (x : Ctx) : (putCtx c i x).ages = c.ages := by unfold putCtx; split <;> rfl
@[simp] theorem putCtx_tvec (c : Core) (i : Nat) (x : Ctx) : (putCtx c i x).tvec = c.tvec := by unfold putCtx; split <;> rfl
@[simp] theorem putCtx_task (c : Core) (i : Nat) (x : Ctx) : (putCtx c i x).task = c.task := by unfold putCtx; split <;> rfl
@[simp] theorem putCtx_lcore (c : Core) (i : Nat) (x : Ctx) : (putCtx c i x).lcore = c.lcore := by unfold putCtx; split <;> rfl
@[simp] theorem putCtx_grank (c : Core) (i : Nat) (x : Ctx) : (putCtx c i x).grank = c.grank := by unfold putCtx; split <;> rfl
@[simp] theorem putCtx_gsize (c : Core) (i : Nat) (x : Ctx) : (putCtx c i x).gsize = c.gsize := by unfold putCtx; split <;> rfl
@[simp] theorem putCtx_groupid (c : Core) (i : Nat) (x : Ctx) : (putCtx c i x).groupid = c.groupid := by unfold putCtx; split <;> rfl
@[simp] theorem putCtx_cycle (c : Core) (i : Nat) (x : Ctx) : (putCtx c i x).cycle = c.cycle := by unfold putCtx; split <;> rfl
@[simp] theorem putCtx_retired (c : Core) (i : Nat) (x : Ctx) : (putCtx c i x).retired = c.retired := by unfold putCtx; split <;> rfl
@[simp] theorem putCtx_wdog (c : Core) (i : Nat) (x : Ctx) : (putCtx c i x).wdog = c.wdog := by unfold putCtx; split <;> rfl
@[simp] theorem putCtx_qnt (c : Core) (i : Nat) (x : Ctx) : (putCtx c i x).qnt = c.qnt := by unfold putCtx; split <;> rfl
@[simp] theorem putCtx_duty (c : Core) (i : Nat) (x : Ctx) : (putCtx c i x).duty = c.duty := by unfold putCtx; split <;> rfl
@[simp] theorem putCtx_bwphase (c : Core) (i : Nat) (x : Ctx) : (putCtx c i x).bwphase = c.bwphase := by unfold putCtx; split <;> rfl
@[simp] theorem putCtx_seed (c : Core) (i : Nat) (x : Ctx) : (putCtx c i x).seed = c.seed := by unfold putCtx; split <;> rfl
@[simp] theorem putCtx_nbstat (c : Core) (i : Nat) (x : Ctx) : (putCtx c i x).nbstat = c.nbstat := by unfold putCtx; split <;> rfl
@[simp] theorem putCtx_saveptr (c : Core) (i : Nat) (x : Ctx) : (putCtx c i x).saveptr = c.saveptr := by unfold putCtx; split <;> rfl
@[simp] theorem putCtx_fw (c : Core) (i : Nat) (x : Ctx) : (putCtx c i x).fw = c.fw := by unfold putCtx; split <;> rfl
@[simp] theorem putCtx_run (c : Core) (i : Nat) (x : Ctx) : (putCtx c i x).run = c.run := by unfold putCtx; split <;> rfl
@[simp] theorem putCtx_resume (c : Core) (i : Nat) (x : Ctx) : (putCtx c i x).resume = c.resume := by unfold putCtx; split <;> rfl
@[simp] theorem putCtx_kept (c : Core) (i : Nat) (x : Ctx) : (putCtx c i x).kept = c.kept := by unfold putCtx; split <;> rfl
@[simp] theorem putCtx_frames (c : Core) (i : Nat) (x : Ctx) : (putCtx c i x).frames = c.frames := by unfold putCtx; split <;> rfl
@[simp] theorem putCtx_victims (c : Core) (i : Nat) (x : Ctx) : (putCtx c i x).victims = c.victims := by unfold putCtx; split <;> rfl
@[simp] theorem putCtx_acc (c : Core) (i : Nat) (x : Ctx) : (putCtx c i x).acc = c.acc := by unfold putCtx; split <;> rfl
@[simp] theorem putCtx_steps (c : Core) (i : Nat) (x : Ctx) : (putCtx c i x).steps = c.steps := by unfold putCtx; split <;> rfl
@[simp] theorem putCtx_mxq (c : Core) (i : Nat) (x : Ctx) : (putCtx c i x).mxq = c.mxq := by unfold putCtx; split <;> rfl
@[simp] theorem putCtx_sliceq (c : Core) (i : Nat) (x : Ctx) : (putCtx c i x).sliceq = c.sliceq := by unfold putCtx; split <;> rfl
@[simp] theorem putCtx_sliceIds (c : Core) (i : Nat) (x : Ctx) : (putCtx c i x).sliceIds = c.sliceIds := by unfold putCtx; split <;> rfl
@[simp] theorem putCtx_tile (c : Core) (i : Nat) (x : Ctx) : (putCtx c i x).tile = c.tile := by unfold putCtx; split <;> rfl
@[simp] theorem putCtx_vcq (c : Core) (i : Nat) (x : Ctx) : (putCtx c i x).vcq = c.vcq := by unfold putCtx; split <;> rfl
@[simp] theorem putCtx_vxq (c : Core) (i : Nat) (x : Ctx) : (putCtx c i x).vxq = c.vxq := by unfold putCtx; split <;> rfl
@[simp] theorem putCtx_copyq (c : Core) (i : Nat) (x : Ctx) : (putCtx c i x).copyq = c.copyq := by unfold putCtx; split <;> rfl
@[simp] theorem putCtx_owes (c : Core) (i : Nat) (x : Ctx) : (putCtx c i x).owes = c.owes := by unfold putCtx; split <;> rfl
@[simp] theorem putCtx_chans (c : Core) (i : Nat) (x : Ctx) : (putCtx c i x).chans = c.chans := by unfold putCtx; split <;> rfl
@[simp] theorem putCtx_rings (c : Core) (i : Nat) (x : Ctx) : (putCtx c i x).rings = c.rings := by unfold putCtx; split <;> rfl
@[simp] theorem putCtx_hreqs (c : Core) (i : Nat) (x : Ctx) : (putCtx c i x).hreqs = c.hreqs := by unfold putCtx; split <;> rfl
@[simp] theorem putCtx_inbox (c : Core) (i : Nat) (x : Ctx) : (putCtx c i x).inbox = c.inbox := by unfold putCtx; split <;> rfl
@[simp] theorem putCtx_setAside (c : Core) (i : Nat) (x : Ctx) : (putCtx c i x).setAside = c.setAside := by unfold putCtx; split <;> rfl
@[simp] theorem putCtx_allocs (c : Core) (i : Nat) (x : Ctx) : (putCtx c i x).allocs = c.allocs := by unfold putCtx; split <;> rfl
@[simp] theorem putCtx_stash (c : Core) (i : Nat) (x : Ctx) : (putCtx c i x).stash = c.stash := by unfold putCtx; split <;> rfl
@[simp] theorem putCtx_stashLines (c : Core) (i : Nat) (x : Ctx) : (putCtx c i x).stashLines = c.stashLines := by unfold putCtx; split <;> rfl
@[simp] theorem putCtx_recs (c : Core) (i : Nat) (x : Ctx) : (putCtx c i x).recs = c.recs := by unfold putCtx; split <;> rfl
@[simp] theorem putCtx_tlb (c : Core) (i : Nat) (x : Ctx) : (putCtx c i x).tlb = c.tlb := by unfold putCtx; split <;> rfl
@[simp] theorem putCtx_itlb (c : Core) (i : Nat) (x : Ctx) : (putCtx c i x).itlb = c.itlb := by unfold putCtx; split <;> rfl
@[simp] theorem putCtx_l1d (c : Core) (i : Nat) (x : Ctx) : (putCtx c i x).l1d = c.l1d := by unfold putCtx; split <;> rfl
@[simp] theorem putCtx_icache (c : Core) (i : Nat) (x : Ctx) : (putCtx c i x).icache = c.icache := by unfold putCtx; split <;> rfl
@[simp] theorem putCtx_pend (c : Core) (i : Nat) (x : Ctx) : (putCtx c i x).pend = c.pend := by unfold putCtx; split <;> rfl
@[simp] theorem putCtx_upd (c : Core) (i : Nat) (x : Ctx) : (putCtx c i x).upd = c.upd := by unfold putCtx; split <;> rfl
@[simp] theorem putCtx_txn (c : Core) (i : Nat) (x : Ctx) : (putCtx c i x).txn = c.txn := by unfold putCtx; split <;> rfl
@[simp] theorem putCtx_deque (c : Core) (i : Nat) (x : Ctx) : (putCtx c i x).deque = c.deque := by unfold putCtx; split <;> rfl
@[simp] theorem putCtx_held (c : Core) (i : Nat) (x : Ctx) : (putCtx c i x).held = c.held := by unfold putCtx; split <;> rfl
@[simp] theorem putCtx_atBarrier (c : Core) (i : Nat) (x : Ctx) : (putCtx c i x).atBarrier = c.atBarrier := by unfold putCtx; split <;> rfl
@[simp] theorem putCtx_rwrs (c : Core) (i : Nat) (x : Ctx) : (putCtx c i x).rwrs = c.rwrs := by unfold putCtx; split <;> rfl
@[simp] theorem putCtx_yield (c : Core) (i : Nat) (x : Ctx) : (putCtx c i x).yield = c.yield := by unfold putCtx; split <;> rfl
@[simp] theorem putCtx_grace (c : Core) (i : Nat) (x : Ctx) : (putCtx c i x).grace = c.grace := by unfold putCtx; split <;> rfl
@[simp] theorem putCtx_slice (c : Core) (i : Nat) (x : Ctx) : (putCtx c i x).slice = c.slice := by unfold putCtx; split <;> rfl
@[simp] theorem putCtx_sliceFrom (c : Core) (i : Nat) (x : Ctx) : (putCtx c i x).sliceFrom = c.sliceFrom := by unfold putCtx; split <;> rfl
@[simp] theorem putCtx_freq (c : Core) (i : Nat) (x : Ctx) : (putCtx c i x).freq = c.freq := by unfold putCtx; split <;> rfl
@[simp] theorem putCtx_busyPrev (c : Core) (i : Nat) (x : Ctx) : (putCtx c i x).busyPrev = c.busyPrev := by unfold putCtx; split <;> rfl
@[simp] theorem putCtx_demand (c : Core) (i : Nat) (x : Ctx) : (putCtx c i x).demand = c.demand := by unfold putCtx; split <;> rfl

@[simp] theorem putCtx_pace (c : Core) (i : Nat) (x : Ctx) : (putCtx c i x).pace = c.pace := by unfold putCtx; split <;> rfl

/-! ### Cores, clusters, partitions -/

theorem coreAt_phys (s : State) (k : Nat) : (coreAt s k).phys = k := by
  unfold coreAt
  split
  · assumption
  · cases h : findBy Core.phys k s.others with
    | none => rfl
    | some c => exact findBy_key h

theorem coreAt_setCore (c : Core) (s : State) : coreAt (setCore c s) c.phys = c := by
  unfold setCore coreAt
  split
  · simp
  · simp [*, findBy_putBy]

theorem coreAt_setCore_ne (c : Core) (s : State) {k : Nat} (h : c.phys ≠ k) : coreAt (setCore c s) k = coreAt s k := by
  unfold setCore coreAt
  by_cases h1 : s.core.phys = c.phys
  · rw [if_pos h1, if_neg h, if_neg (h1 ▸ h)]
  · rw [if_neg h1]
    by_cases h2 : s.core.phys = k
    · simp [h2]
    · simp [h2, findBy_putBy_ne Core.phys c h]

/-- A core after a change that keeps its identifier. -/
theorem coreAt_onCore {f : Core → Core} (hf : ∀ c, (f c).phys = c.phys) (k : Nat) (s : State) :
    coreAt (onCore k f s) k = f (coreAt s k) := by
  have h : (f (coreAt s k)).phys = k := by rw [hf, coreAt_phys]
  have := coreAt_setCore (f (coreAt s k)) s
  rwa [h] at this

theorem coreAt_onCore_ne {f : Core → Core} (hf : ∀ c, (f c).phys = c.phys) {j k : Nat} (h : j ≠ k) (s : State) :
    coreAt (onCore j f s) k = coreAt s k :=
  coreAt_setCore_ne _ _ (by rw [hf, coreAt_phys]; exact h)

@[simp] theorem coreAt_focus (s : State) : coreAt s s.core.phys = s.core := by simp [coreAt]

/-- A context of a core after a change of it. -/
theorem ctxOf_onCtx (k i : Nat) (g : Ctx → Ctx) (s : State) :
    ctxOf (coreAt (onCtx k i g s) k) i = g (ctxOf (coreAt s k) i) := by
  unfold onCtx
  rw [coreAt_onCore (fun c => by simp)]
  simp

theorem clusterAt_id (s : State) (k : Nat) : (clusterAt s k).id = k := by
  unfold clusterAt
  cases h : findBy Cluster.id k s.clusters with
  | none => rfl
  | some c => exact findBy_key h

theorem clusterAt_onCluster {f : Cluster → Cluster} (hf : ∀ c, (f c).id = c.id) (k : Nat) (s : State) :
    clusterAt (onCluster k f s) k = f (clusterAt s k) := by
  have h : (f (clusterAt s k)).id = k := by rw [hf, clusterAt_id]
  have := findBy_putBy Cluster.id (f (clusterAt s k)) s.clusters
  rw [h] at this
  simp [clusterAt, onCluster] at this ⊢
  rw [this]; rfl

theorem clusterAt_onCluster_ne {f : Cluster → Cluster} (hf : ∀ c, (f c).id = c.id) {j k : Nat} (h : j ≠ k) (s : State) :
    clusterAt (onCluster j f s) k = clusterAt s k := by
  have hj : (f (clusterAt s j)).id ≠ k := by rw [hf, clusterAt_id]; exact h
  have := findBy_putBy_ne Cluster.id (f (clusterAt s j)) hj s.clusters
  simp [clusterAt, onCluster] at this ⊢
  rw [this]

/-- A live partition after a change that keeps its tag. -/
theorem partAt_onPart {f : Partition → Partition} (hf : ∀ p, (f p).tag = p.tag) (tag : Nat) (s : State) :
    partAt (onPart tag f s) tag = (partAt s tag).map f := by
  unfold partAt onPart
  simp only
  induction s.parts with
  | nil => rfl
  | cons p l ih =>
    unfold modifyWhere at ih ⊢
    rw [List.map_cons, findBy, findBy]
    by_cases h : p.tag = tag
    · simp [h, hf]
    · simp only [beq_iff_eq] at ih; simp [h, ih]

theorem partAt_onPart_ne {f : Partition → Partition} (hf : ∀ p, (f p).tag = p.tag) {j k : Nat} (h : j ≠ k) (s : State) :
    partAt (onPart j f s) k = partAt s k := by
  unfold partAt onPart
  simp only
  induction s.parts with
  | nil => rfl
  | cons p l ih =>
    unfold modifyWhere at ih ⊢
    rw [List.map_cons, findBy, findBy]
    by_cases hp : p.tag = j
    · simp only [beq_iff_eq] at ih; simp [hp, hf, h, ih]
    · simp only [beq_iff_eq] at ih; simp [hp, ih]

theorem partAt_tag {s : State} {tag : Nat} {p : Partition} (h : partAt s tag = some p) : p.tag = tag := findBy_key h

/-! ### Every field of State but the one that an update changes -/

@[simp] theorem onCur_others (f : Ctx → Ctx) (s : State) : (onCur f s).others = s.others := rfl
@[simp] theorem onCur_agenda (f : Ctx → Ctx) (s : State) : (onCur f s).agenda = s.agenda := rfl
@[simp] theorem onCur_turn (f : Ctx → Ctx) (s : State) : (onCur f s).turn = s.turn := rfl
@[simp] theorem onCur_freeCtr (f : Ctx → Ctx) (s : State) : (onCur f s).freeCtr = s.freeCtr := rfl
@[simp] theorem onCur_time (f : Ctx → Ctx) (s : State) : (onCur f s).time = s.time := rfl
@[simp] theorem onCur_powered (f : Ctx → Ctx) (s : State) : (onCur f s).powered = s.powered := rfl
@[simp] theorem onCur_layout (f : Ctx → Ctx) (s : State) : (onCur f s).layout = s.layout := rfl
@[simp] theorem onCur_mem (f : Ctx → Ctx) (s : State) : (onCur f s).mem = s.mem := rfl
@[simp] theorem onCur_badLines (f : Ctx → Ctx) (s : State) : (onCur f s).badLines = s.badLines := rfl
@[simp] theorem onCur_corrected (f : Ctx → Ctx) (s : State) : (onCur f s).corrected = s.corrected := rfl
@[simp] theorem onCur_dieLines (f : Ctx → Ctx) (s : State) : (onCur f s).dieLines = s.dieLines := rfl
@[simp] theorem onCur_partials (f : Ctx → Ctx) (s : State) : (onCur f s).partials = s.partials := rfl
@[simp] theorem onCur_detTags (f : Ctx → Ctx) (s : State) : (onCur f s).detTags = s.detTags := rfl
@[simp] theorem onCur_foreignMarks (f : Ctx → Ctx) (s : State) : (onCur f s).foreignMarks = s.foreignMarks := rfl
@[simp] theorem onCur_owned (f : Ctx → Ctx) (s : State) : (onCur f s).owned = s.owned := rfl
@[simp] theorem onCur_hostLines (f : Ctx → Ctx) (s : State) : (onCur f s).hostLines = s.hostLines := rfl
@[simp] theorem onCur_hostWaits (f : Ctx → Ctx) (s : State) : (onCur f s).hostWaits = s.hostWaits := rfl
@[simp] theorem onCur_clusters (f : Ctx → Ctx) (s : State) : (onCur f s).clusters = s.clusters := rfl
@[simp] theorem onCur_parts (f : Ctx → Ctx) (s : State) : (onCur f s).parts = s.parts := rfl
@[simp] theorem onCur_funcs (f : Ctx → Ctx) (s : State) : (onCur f s).funcs = s.funcs := rfl
@[simp] theorem onCur_banks (f : Ctx → Ctx) (s : State) : (onCur f s).banks = s.banks := rfl
@[simp] theorem onCur_wakes (f : Ctx → Ctx) (s : State) : (onCur f s).wakes = s.wakes := rfl
@[simp] theorem onCur_wakeQueue (f : Ctx → Ctx) (s : State) : (onCur f s).wakeQueue = s.wakeQueue := rfl
@[simp] theorem onCur_flows (f : Ctx → Ctx) (s : State) : (onCur f s).flows = s.flows := rfl
@[simp] theorem onCur_sleepers (f : Ctx → Ctx) (s : State) : (onCur f s).sleepers = s.sleepers := rfl
@[simp] theorem onCur_remotes (f : Ctx → Ctx) (s : State) : (onCur f s).remotes = s.remotes := rfl
@[simp] theorem onCur_posts (f : Ctx → Ctx) (s : State) : (onCur f s).posts = s.posts := rfl
@[simp] theorem onCur_answers (f : Ctx → Ctx) (s : State) : (onCur f s).answers = s.answers := rfl
@[simp] theorem onCur_thrs (f : Ctx → Ctx) (s : State) : (onCur f s).thrs = s.thrs := rfl
@[simp] theorem onCur_msgs (f : Ctx → Ctx) (s : State) : (onCur f s).msgs = s.msgs := rfl
@[simp] theorem onCur_hwork (f : Ctx → Ctx) (s : State) : (onCur f s).hwork = s.hwork := rfl
@[simp] theorem onCur_dies (f : Ctx → Ctx) (s : State) : (onCur f s).dies = s.dies := rfl
@[simp] theorem onCur_io (f : Ctx → Ctx) (s : State) : (onCur f s).io = s.io := rfl

@[simp] theorem setReg_others (n : Reg) (v : Word) (s : State) : (setReg n v s).others = s.others := rfl
@[simp] theorem setReg_agenda (n : Reg) (v : Word) (s : State) : (setReg n v s).agenda = s.agenda := rfl
@[simp] theorem setReg_turn (n : Reg) (v : Word) (s : State) : (setReg n v s).turn = s.turn := rfl
@[simp] theorem setReg_freeCtr (n : Reg) (v : Word) (s : State) : (setReg n v s).freeCtr = s.freeCtr := rfl
@[simp] theorem setReg_time (n : Reg) (v : Word) (s : State) : (setReg n v s).time = s.time := rfl
@[simp] theorem setReg_powered (n : Reg) (v : Word) (s : State) : (setReg n v s).powered = s.powered := rfl
@[simp] theorem setReg_layout (n : Reg) (v : Word) (s : State) : (setReg n v s).layout = s.layout := rfl
@[simp] theorem setReg_mem (n : Reg) (v : Word) (s : State) : (setReg n v s).mem = s.mem := rfl
@[simp] theorem setReg_badLines (n : Reg) (v : Word) (s : State) : (setReg n v s).badLines = s.badLines := rfl
@[simp] theorem setReg_corrected (n : Reg) (v : Word) (s : State) : (setReg n v s).corrected = s.corrected := rfl
@[simp] theorem setReg_dieLines (n : Reg) (v : Word) (s : State) : (setReg n v s).dieLines = s.dieLines := rfl
@[simp] theorem setReg_partials (n : Reg) (v : Word) (s : State) : (setReg n v s).partials = s.partials := rfl
@[simp] theorem setReg_detTags (n : Reg) (v : Word) (s : State) : (setReg n v s).detTags = s.detTags := rfl
@[simp] theorem setReg_foreignMarks (n : Reg) (v : Word) (s : State) : (setReg n v s).foreignMarks = s.foreignMarks := rfl
@[simp] theorem setReg_owned (n : Reg) (v : Word) (s : State) : (setReg n v s).owned = s.owned := rfl
@[simp] theorem setReg_hostLines (n : Reg) (v : Word) (s : State) : (setReg n v s).hostLines = s.hostLines := rfl
@[simp] theorem setReg_hostWaits (n : Reg) (v : Word) (s : State) : (setReg n v s).hostWaits = s.hostWaits := rfl
@[simp] theorem setReg_clusters (n : Reg) (v : Word) (s : State) : (setReg n v s).clusters = s.clusters := rfl
@[simp] theorem setReg_parts (n : Reg) (v : Word) (s : State) : (setReg n v s).parts = s.parts := rfl
@[simp] theorem setReg_funcs (n : Reg) (v : Word) (s : State) : (setReg n v s).funcs = s.funcs := rfl
@[simp] theorem setReg_banks (n : Reg) (v : Word) (s : State) : (setReg n v s).banks = s.banks := rfl
@[simp] theorem setReg_wakes (n : Reg) (v : Word) (s : State) : (setReg n v s).wakes = s.wakes := rfl
@[simp] theorem setReg_wakeQueue (n : Reg) (v : Word) (s : State) : (setReg n v s).wakeQueue = s.wakeQueue := rfl
@[simp] theorem setReg_flows (n : Reg) (v : Word) (s : State) : (setReg n v s).flows = s.flows := rfl
@[simp] theorem setReg_sleepers (n : Reg) (v : Word) (s : State) : (setReg n v s).sleepers = s.sleepers := rfl
@[simp] theorem setReg_remotes (n : Reg) (v : Word) (s : State) : (setReg n v s).remotes = s.remotes := rfl
@[simp] theorem setReg_posts (n : Reg) (v : Word) (s : State) : (setReg n v s).posts = s.posts := rfl
@[simp] theorem setReg_answers (n : Reg) (v : Word) (s : State) : (setReg n v s).answers = s.answers := rfl
@[simp] theorem setReg_thrs (n : Reg) (v : Word) (s : State) : (setReg n v s).thrs = s.thrs := rfl
@[simp] theorem setReg_msgs (n : Reg) (v : Word) (s : State) : (setReg n v s).msgs = s.msgs := rfl
@[simp] theorem setReg_hwork (n : Reg) (v : Word) (s : State) : (setReg n v s).hwork = s.hwork := rfl
@[simp] theorem setReg_dies (n : Reg) (v : Word) (s : State) : (setReg n v s).dies = s.dies := rfl
@[simp] theorem setReg_io (n : Reg) (v : Word) (s : State) : (setReg n v s).io = s.io := rfl

@[simp] theorem addFlags_others (f : FlagSet) (s : State) : (Safety.addFlags f s).others = s.others := rfl
@[simp] theorem addFlags_agenda (f : FlagSet) (s : State) : (Safety.addFlags f s).agenda = s.agenda := rfl
@[simp] theorem addFlags_turn (f : FlagSet) (s : State) : (Safety.addFlags f s).turn = s.turn := rfl
@[simp] theorem addFlags_freeCtr (f : FlagSet) (s : State) : (Safety.addFlags f s).freeCtr = s.freeCtr := rfl
@[simp] theorem addFlags_time (f : FlagSet) (s : State) : (Safety.addFlags f s).time = s.time := rfl
@[simp] theorem addFlags_powered (f : FlagSet) (s : State) : (Safety.addFlags f s).powered = s.powered := rfl
@[simp] theorem addFlags_layout (f : FlagSet) (s : State) : (Safety.addFlags f s).layout = s.layout := rfl
@[simp] theorem addFlags_mem (f : FlagSet) (s : State) : (Safety.addFlags f s).mem = s.mem := rfl
@[simp] theorem addFlags_badLines (f : FlagSet) (s : State) : (Safety.addFlags f s).badLines = s.badLines := rfl
@[simp] theorem addFlags_corrected (f : FlagSet) (s : State) : (Safety.addFlags f s).corrected = s.corrected := rfl
@[simp] theorem addFlags_dieLines (f : FlagSet) (s : State) : (Safety.addFlags f s).dieLines = s.dieLines := rfl
@[simp] theorem addFlags_partials (f : FlagSet) (s : State) : (Safety.addFlags f s).partials = s.partials := rfl
@[simp] theorem addFlags_detTags (f : FlagSet) (s : State) : (Safety.addFlags f s).detTags = s.detTags := rfl
@[simp] theorem addFlags_foreignMarks (f : FlagSet) (s : State) : (Safety.addFlags f s).foreignMarks = s.foreignMarks := rfl
@[simp] theorem addFlags_owned (f : FlagSet) (s : State) : (Safety.addFlags f s).owned = s.owned := rfl
@[simp] theorem addFlags_hostLines (f : FlagSet) (s : State) : (Safety.addFlags f s).hostLines = s.hostLines := rfl
@[simp] theorem addFlags_hostWaits (f : FlagSet) (s : State) : (Safety.addFlags f s).hostWaits = s.hostWaits := rfl
@[simp] theorem addFlags_clusters (f : FlagSet) (s : State) : (Safety.addFlags f s).clusters = s.clusters := rfl
@[simp] theorem addFlags_parts (f : FlagSet) (s : State) : (Safety.addFlags f s).parts = s.parts := rfl
@[simp] theorem addFlags_funcs (f : FlagSet) (s : State) : (Safety.addFlags f s).funcs = s.funcs := rfl
@[simp] theorem addFlags_banks (f : FlagSet) (s : State) : (Safety.addFlags f s).banks = s.banks := rfl
@[simp] theorem addFlags_wakes (f : FlagSet) (s : State) : (Safety.addFlags f s).wakes = s.wakes := rfl
@[simp] theorem addFlags_wakeQueue (f : FlagSet) (s : State) : (Safety.addFlags f s).wakeQueue = s.wakeQueue := rfl
@[simp] theorem addFlags_flows (f : FlagSet) (s : State) : (Safety.addFlags f s).flows = s.flows := rfl
@[simp] theorem addFlags_sleepers (f : FlagSet) (s : State) : (Safety.addFlags f s).sleepers = s.sleepers := rfl
@[simp] theorem addFlags_remotes (f : FlagSet) (s : State) : (Safety.addFlags f s).remotes = s.remotes := rfl
@[simp] theorem addFlags_posts (f : FlagSet) (s : State) : (Safety.addFlags f s).posts = s.posts := rfl
@[simp] theorem addFlags_answers (f : FlagSet) (s : State) : (Safety.addFlags f s).answers = s.answers := rfl
@[simp] theorem addFlags_thrs (f : FlagSet) (s : State) : (Safety.addFlags f s).thrs = s.thrs := rfl
@[simp] theorem addFlags_msgs (f : FlagSet) (s : State) : (Safety.addFlags f s).msgs = s.msgs := rfl
@[simp] theorem addFlags_hwork (f : FlagSet) (s : State) : (Safety.addFlags f s).hwork = s.hwork := rfl
@[simp] theorem addFlags_dies (f : FlagSet) (s : State) : (Safety.addFlags f s).dies = s.dies := rfl
@[simp] theorem addFlags_io (f : FlagSet) (s : State) : (Safety.addFlags f s).io = s.io := rfl

@[simp] theorem withPend_others (q : PendAcc) (s : State) : (Safety.withPend q s).others = s.others := rfl
@[simp] theorem withPend_agenda (q : PendAcc) (s : State) : (Safety.withPend q s).agenda = s.agenda := rfl
@[simp] theorem withPend_turn (q : PendAcc) (s : State) : (Safety.withPend q s).turn = s.turn := rfl
@[simp] theorem withPend_freeCtr (q : PendAcc) (s : State) : (Safety.withPend q s).freeCtr = s.freeCtr := rfl
@[simp] theorem withPend_time (q : PendAcc) (s : State) : (Safety.withPend q s).time = s.time := rfl
@[simp] theorem withPend_powered (q : PendAcc) (s : State) : (Safety.withPend q s).powered = s.powered := rfl
@[simp] theorem withPend_layout (q : PendAcc) (s : State) : (Safety.withPend q s).layout = s.layout := rfl
@[simp] theorem withPend_mem (q : PendAcc) (s : State) : (Safety.withPend q s).mem = s.mem := rfl
@[simp] theorem withPend_badLines (q : PendAcc) (s : State) : (Safety.withPend q s).badLines = s.badLines := rfl
@[simp] theorem withPend_corrected (q : PendAcc) (s : State) : (Safety.withPend q s).corrected = s.corrected := rfl
@[simp] theorem withPend_dieLines (q : PendAcc) (s : State) : (Safety.withPend q s).dieLines = s.dieLines := rfl
@[simp] theorem withPend_partials (q : PendAcc) (s : State) : (Safety.withPend q s).partials = s.partials := rfl
@[simp] theorem withPend_detTags (q : PendAcc) (s : State) : (Safety.withPend q s).detTags = s.detTags := rfl
@[simp] theorem withPend_foreignMarks (q : PendAcc) (s : State) : (Safety.withPend q s).foreignMarks = s.foreignMarks := rfl
@[simp] theorem withPend_owned (q : PendAcc) (s : State) : (Safety.withPend q s).owned = s.owned := rfl
@[simp] theorem withPend_hostLines (q : PendAcc) (s : State) : (Safety.withPend q s).hostLines = s.hostLines := rfl
@[simp] theorem withPend_hostWaits (q : PendAcc) (s : State) : (Safety.withPend q s).hostWaits = s.hostWaits := rfl
@[simp] theorem withPend_clusters (q : PendAcc) (s : State) : (Safety.withPend q s).clusters = s.clusters := rfl
@[simp] theorem withPend_parts (q : PendAcc) (s : State) : (Safety.withPend q s).parts = s.parts := rfl
@[simp] theorem withPend_funcs (q : PendAcc) (s : State) : (Safety.withPend q s).funcs = s.funcs := rfl
@[simp] theorem withPend_banks (q : PendAcc) (s : State) : (Safety.withPend q s).banks = s.banks := rfl
@[simp] theorem withPend_wakes (q : PendAcc) (s : State) : (Safety.withPend q s).wakes = s.wakes := rfl
@[simp] theorem withPend_wakeQueue (q : PendAcc) (s : State) : (Safety.withPend q s).wakeQueue = s.wakeQueue := rfl
@[simp] theorem withPend_flows (q : PendAcc) (s : State) : (Safety.withPend q s).flows = s.flows := rfl
@[simp] theorem withPend_sleepers (q : PendAcc) (s : State) : (Safety.withPend q s).sleepers = s.sleepers := rfl
@[simp] theorem withPend_remotes (q : PendAcc) (s : State) : (Safety.withPend q s).remotes = s.remotes := rfl
@[simp] theorem withPend_posts (q : PendAcc) (s : State) : (Safety.withPend q s).posts = s.posts := rfl
@[simp] theorem withPend_answers (q : PendAcc) (s : State) : (Safety.withPend q s).answers = s.answers := rfl
@[simp] theorem withPend_thrs (q : PendAcc) (s : State) : (Safety.withPend q s).thrs = s.thrs := rfl
@[simp] theorem withPend_msgs (q : PendAcc) (s : State) : (Safety.withPend q s).msgs = s.msgs := rfl
@[simp] theorem withPend_hwork (q : PendAcc) (s : State) : (Safety.withPend q s).hwork = s.hwork := rfl
@[simp] theorem withPend_dies (q : PendAcc) (s : State) : (Safety.withPend q s).dies = s.dies := rfl
@[simp] theorem withPend_io (q : PendAcc) (s : State) : (Safety.withPend q s).io = s.io := rfl

@[simp] theorem noteTurn_others (s : State) : (noteTurn s).others = s.others := by
  unfold noteTurn; dsimp only; split <;> rfl
@[simp] theorem retire_others (f : InstrInfo) (s : State) : (retire f s).others = s.others := noteTurn_others s
@[simp] theorem noteTurn_agenda (s : State) : (noteTurn s).agenda = s.agenda := by
  unfold noteTurn; dsimp only; split <;> rfl
@[simp] theorem retire_agenda (f : InstrInfo) (s : State) : (retire f s).agenda = s.agenda := noteTurn_agenda s
@[simp] theorem noteTurn_turn (s : State) : (noteTurn s).turn = s.turn := by
  unfold noteTurn; dsimp only; split <;> rfl
@[simp] theorem retire_turn (f : InstrInfo) (s : State) : (retire f s).turn = s.turn := noteTurn_turn s
@[simp] theorem noteTurn_freeCtr (s : State) : (noteTurn s).freeCtr = s.freeCtr := by
  unfold noteTurn; dsimp only; split <;> rfl
@[simp] theorem retire_freeCtr (f : InstrInfo) (s : State) : (retire f s).freeCtr = s.freeCtr := noteTurn_freeCtr s
@[simp] theorem noteTurn_time (s : State) : (noteTurn s).time = s.time := by
  unfold noteTurn; dsimp only; split <;> rfl
@[simp] theorem retire_time (f : InstrInfo) (s : State) : (retire f s).time = s.time := noteTurn_time s
@[simp] theorem noteTurn_powered (s : State) : (noteTurn s).powered = s.powered := by
  unfold noteTurn; dsimp only; split <;> rfl
@[simp] theorem retire_powered (f : InstrInfo) (s : State) : (retire f s).powered = s.powered := noteTurn_powered s
@[simp] theorem noteTurn_layout (s : State) : (noteTurn s).layout = s.layout := by
  unfold noteTurn; dsimp only; split <;> rfl
@[simp] theorem retire_layout (f : InstrInfo) (s : State) : (retire f s).layout = s.layout := noteTurn_layout s
@[simp] theorem noteTurn_mem (s : State) : (noteTurn s).mem = s.mem := by
  unfold noteTurn; dsimp only; split <;> rfl
@[simp] theorem retire_mem (f : InstrInfo) (s : State) : (retire f s).mem = s.mem := noteTurn_mem s
@[simp] theorem noteTurn_badLines (s : State) : (noteTurn s).badLines = s.badLines := by
  unfold noteTurn; dsimp only; split <;> rfl
@[simp] theorem noteTurn_corrected (s : State) : (noteTurn s).corrected = s.corrected := by
  unfold noteTurn; dsimp only; split <;> rfl
@[simp] theorem retire_badLines (f : InstrInfo) (s : State) : (retire f s).badLines = s.badLines := noteTurn_badLines s
@[simp] theorem retire_corrected (f : InstrInfo) (s : State) : (retire f s).corrected = s.corrected := noteTurn_corrected s
@[simp] theorem noteTurn_dieLines (s : State) : (noteTurn s).dieLines = s.dieLines := by
  unfold noteTurn; dsimp only; split <;> rfl
@[simp] theorem retire_dieLines (f : InstrInfo) (s : State) : (retire f s).dieLines = s.dieLines := noteTurn_dieLines s
@[simp] theorem noteTurn_partials (s : State) : (noteTurn s).partials = s.partials := by
  unfold noteTurn; dsimp only; split <;> rfl
@[simp] theorem retire_partials (f : InstrInfo) (s : State) : (retire f s).partials = s.partials := noteTurn_partials s
@[simp] theorem noteTurn_detTags (s : State) : (noteTurn s).detTags = s.detTags := by
  unfold noteTurn; dsimp only; split <;> rfl
@[simp] theorem retire_detTags (f : InstrInfo) (s : State) : (retire f s).detTags = s.detTags := noteTurn_detTags s
@[simp] theorem noteTurn_foreignMarks (s : State) : (noteTurn s).foreignMarks = s.foreignMarks := by
  unfold noteTurn; dsimp only; split <;> rfl
@[simp] theorem retire_foreignMarks (f : InstrInfo) (s : State) : (retire f s).foreignMarks = s.foreignMarks := noteTurn_foreignMarks s
@[simp] theorem noteTurn_owned (s : State) : (noteTurn s).owned = s.owned := by
  unfold noteTurn; dsimp only; split <;> rfl
@[simp] theorem retire_owned (f : InstrInfo) (s : State) : (retire f s).owned = s.owned := noteTurn_owned s
@[simp] theorem noteTurn_hostLines (s : State) : (noteTurn s).hostLines = s.hostLines := by
  unfold noteTurn; dsimp only; split <;> rfl
@[simp] theorem retire_hostLines (f : InstrInfo) (s : State) : (retire f s).hostLines = s.hostLines := noteTurn_hostLines s
@[simp] theorem noteTurn_hostWaits (s : State) : (noteTurn s).hostWaits = s.hostWaits := by
  unfold noteTurn; dsimp only; split <;> rfl
@[simp] theorem retire_hostWaits (f : InstrInfo) (s : State) : (retire f s).hostWaits = s.hostWaits := noteTurn_hostWaits s
@[simp] theorem noteTurn_clusters (s : State) : (noteTurn s).clusters = s.clusters := by
  unfold noteTurn; dsimp only; split <;> rfl
@[simp] theorem retire_clusters (f : InstrInfo) (s : State) : (retire f s).clusters = s.clusters := noteTurn_clusters s
@[simp] theorem noteTurn_parts (s : State) : (noteTurn s).parts = s.parts := by
  unfold noteTurn; dsimp only; split <;> rfl
@[simp] theorem retire_parts (f : InstrInfo) (s : State) : (retire f s).parts = s.parts := noteTurn_parts s
@[simp] theorem noteTurn_funcs (s : State) : (noteTurn s).funcs = s.funcs := by
  unfold noteTurn; dsimp only; split <;> rfl
@[simp] theorem retire_funcs (f : InstrInfo) (s : State) : (retire f s).funcs = s.funcs := noteTurn_funcs s
@[simp] theorem noteTurn_banks (s : State) : (noteTurn s).banks = s.banks := by
  unfold noteTurn; dsimp only; split <;> rfl
@[simp] theorem retire_banks (f : InstrInfo) (s : State) : (retire f s).banks = s.banks := noteTurn_banks s
@[simp] theorem noteTurn_wakes (s : State) : (noteTurn s).wakes = s.wakes := by
  unfold noteTurn; dsimp only; split <;> rfl
@[simp] theorem noteTurn_wakeQueue (s : State) : (noteTurn s).wakeQueue = s.wakeQueue := by
  unfold noteTurn; dsimp only; split <;> rfl
@[simp] theorem noteTurn_flows (s : State) : (noteTurn s).flows = s.flows := by
  unfold noteTurn; dsimp only; split <;> rfl
@[simp] theorem noteTurn_sleepers (s : State) : (noteTurn s).sleepers = s.sleepers := by
  unfold noteTurn; dsimp only; split <;> rfl
@[simp] theorem retire_wakes (f : InstrInfo) (s : State) : (retire f s).wakes = s.wakes := noteTurn_wakes s
@[simp] theorem retire_wakeQueue (f : InstrInfo) (s : State) : (retire f s).wakeQueue = s.wakeQueue := noteTurn_wakeQueue s
@[simp] theorem retire_flows (f : InstrInfo) (s : State) : (retire f s).flows = s.flows := noteTurn_flows s
@[simp] theorem retire_sleepers (f : InstrInfo) (s : State) : (retire f s).sleepers = s.sleepers := noteTurn_sleepers s
@[simp] theorem noteTurn_remotes (s : State) : (noteTurn s).remotes = s.remotes := by
  unfold noteTurn; dsimp only; split <;> rfl
@[simp] theorem retire_remotes (f : InstrInfo) (s : State) : (retire f s).remotes = s.remotes := noteTurn_remotes s
@[simp] theorem noteTurn_posts (s : State) : (noteTurn s).posts = s.posts := by
  unfold noteTurn; dsimp only; split <;> rfl
@[simp] theorem retire_posts (f : InstrInfo) (s : State) : (retire f s).posts = s.posts := noteTurn_posts s
@[simp] theorem noteTurn_answers (s : State) : (noteTurn s).answers = s.answers := by
  unfold noteTurn; dsimp only; split <;> rfl
@[simp] theorem retire_answers (f : InstrInfo) (s : State) : (retire f s).answers = s.answers := noteTurn_answers s
@[simp] theorem noteTurn_thrs (s : State) : (noteTurn s).thrs = s.thrs := by
  unfold noteTurn; dsimp only; split <;> rfl
@[simp] theorem retire_thrs (f : InstrInfo) (s : State) : (retire f s).thrs = s.thrs := noteTurn_thrs s
@[simp] theorem noteTurn_msgs (s : State) : (noteTurn s).msgs = s.msgs := by
  unfold noteTurn; dsimp only; split <;> rfl
@[simp] theorem retire_msgs (f : InstrInfo) (s : State) : (retire f s).msgs = s.msgs := noteTurn_msgs s
@[simp] theorem noteTurn_hwork (s : State) : (noteTurn s).hwork = s.hwork := by
  unfold noteTurn; dsimp only; split <;> rfl
@[simp] theorem retire_hwork (f : InstrInfo) (s : State) : (retire f s).hwork = s.hwork := noteTurn_hwork s
@[simp] theorem noteTurn_dies (s : State) : (noteTurn s).dies = s.dies := by
  unfold noteTurn; dsimp only; split <;> rfl
@[simp] theorem retire_dies (f : InstrInfo) (s : State) : (retire f s).dies = s.dies := noteTurn_dies s
@[simp] theorem noteTurn_io (s : State) : (noteTurn s).io = s.io := by
  unfold noteTurn; dsimp only; split <;> rfl
@[simp] theorem retire_io (f : InstrInfo) (s : State) : (retire f s).io = s.io := noteTurn_io s

@[simp] theorem completes_others (f : InstrInfo) (s : State) : (Safety.completes f s).others = s.others := retire_others _ _
@[simp] theorem completes_agenda (f : InstrInfo) (s : State) : (Safety.completes f s).agenda = s.agenda := retire_agenda _ _
@[simp] theorem completes_turn (f : InstrInfo) (s : State) : (Safety.completes f s).turn = s.turn := retire_turn _ _
@[simp] theorem completes_freeCtr (f : InstrInfo) (s : State) : (Safety.completes f s).freeCtr = s.freeCtr := retire_freeCtr _ _
@[simp] theorem completes_time (f : InstrInfo) (s : State) : (Safety.completes f s).time = s.time := retire_time _ _
@[simp] theorem completes_powered (f : InstrInfo) (s : State) : (Safety.completes f s).powered = s.powered := retire_powered _ _
@[simp] theorem completes_layout (f : InstrInfo) (s : State) : (Safety.completes f s).layout = s.layout := retire_layout _ _
@[simp] theorem completes_mem (f : InstrInfo) (s : State) : (Safety.completes f s).mem = s.mem := retire_mem _ _
@[simp] theorem completes_badLines (f : InstrInfo) (s : State) : (Safety.completes f s).badLines = s.badLines := retire_badLines _ _
@[simp] theorem completes_corrected (f : InstrInfo) (s : State) : (Safety.completes f s).corrected = s.corrected := retire_corrected _ _
@[simp] theorem completes_dieLines (f : InstrInfo) (s : State) : (Safety.completes f s).dieLines = s.dieLines := retire_dieLines _ _
@[simp] theorem completes_partials (f : InstrInfo) (s : State) : (Safety.completes f s).partials = s.partials := retire_partials _ _
@[simp] theorem completes_detTags (f : InstrInfo) (s : State) : (Safety.completes f s).detTags = s.detTags := retire_detTags _ _
@[simp] theorem completes_foreignMarks (f : InstrInfo) (s : State) : (Safety.completes f s).foreignMarks = s.foreignMarks := retire_foreignMarks _ _
@[simp] theorem completes_owned (f : InstrInfo) (s : State) : (Safety.completes f s).owned = s.owned := retire_owned _ _
@[simp] theorem completes_hostLines (f : InstrInfo) (s : State) : (Safety.completes f s).hostLines = s.hostLines := retire_hostLines _ _
@[simp] theorem completes_hostWaits (f : InstrInfo) (s : State) : (Safety.completes f s).hostWaits = s.hostWaits := retire_hostWaits _ _
@[simp] theorem completes_clusters (f : InstrInfo) (s : State) : (Safety.completes f s).clusters = s.clusters := retire_clusters _ _
@[simp] theorem completes_parts (f : InstrInfo) (s : State) : (Safety.completes f s).parts = s.parts := retire_parts _ _
@[simp] theorem completes_funcs (f : InstrInfo) (s : State) : (Safety.completes f s).funcs = s.funcs := retire_funcs _ _
@[simp] theorem completes_banks (f : InstrInfo) (s : State) : (Safety.completes f s).banks = s.banks := retire_banks _ _
@[simp] theorem completes_wakes (f : InstrInfo) (s : State) : (Safety.completes f s).wakes = s.wakes := retire_wakes _ _
@[simp] theorem completes_wakeQueue (f : InstrInfo) (s : State) : (Safety.completes f s).wakeQueue = s.wakeQueue := retire_wakeQueue _ _
@[simp] theorem completes_flows (f : InstrInfo) (s : State) : (Safety.completes f s).flows = s.flows := retire_flows _ _
@[simp] theorem completes_sleepers (f : InstrInfo) (s : State) : (Safety.completes f s).sleepers = s.sleepers := retire_sleepers _ _
@[simp] theorem completes_remotes (f : InstrInfo) (s : State) : (Safety.completes f s).remotes = s.remotes := retire_remotes _ _
@[simp] theorem completes_posts (f : InstrInfo) (s : State) : (Safety.completes f s).posts = s.posts := retire_posts _ _
@[simp] theorem completes_answers (f : InstrInfo) (s : State) : (Safety.completes f s).answers = s.answers := retire_answers _ _
@[simp] theorem completes_thrs (f : InstrInfo) (s : State) : (Safety.completes f s).thrs = s.thrs := retire_thrs _ _
@[simp] theorem completes_msgs (f : InstrInfo) (s : State) : (Safety.completes f s).msgs = s.msgs := retire_msgs _ _
@[simp] theorem completes_hwork (f : InstrInfo) (s : State) : (Safety.completes f s).hwork = s.hwork := retire_hwork _ _
@[simp] theorem completes_dies (f : InstrInfo) (s : State) : (Safety.completes f s).dies = s.dies := retire_dies _ _
@[simp] theorem completes_io (f : InstrInfo) (s : State) : (Safety.completes f s).io = s.io := retire_io _ _

@[simp] theorem completesAt_others (f : InstrInfo) (pc : Word) (s : State) : (Safety.completesAt f pc s).others = s.others := retire_others _ _
@[simp] theorem completesAt_agenda (f : InstrInfo) (pc : Word) (s : State) : (Safety.completesAt f pc s).agenda = s.agenda := retire_agenda _ _
@[simp] theorem completesAt_turn (f : InstrInfo) (pc : Word) (s : State) : (Safety.completesAt f pc s).turn = s.turn := retire_turn _ _
@[simp] theorem completesAt_freeCtr (f : InstrInfo) (pc : Word) (s : State) : (Safety.completesAt f pc s).freeCtr = s.freeCtr := retire_freeCtr _ _
@[simp] theorem completesAt_time (f : InstrInfo) (pc : Word) (s : State) : (Safety.completesAt f pc s).time = s.time := retire_time _ _
@[simp] theorem completesAt_powered (f : InstrInfo) (pc : Word) (s : State) : (Safety.completesAt f pc s).powered = s.powered := retire_powered _ _
@[simp] theorem completesAt_layout (f : InstrInfo) (pc : Word) (s : State) : (Safety.completesAt f pc s).layout = s.layout := retire_layout _ _
@[simp] theorem completesAt_mem (f : InstrInfo) (pc : Word) (s : State) : (Safety.completesAt f pc s).mem = s.mem := retire_mem _ _
@[simp] theorem completesAt_badLines (f : InstrInfo) (pc : Word) (s : State) : (Safety.completesAt f pc s).badLines = s.badLines := retire_badLines _ _
@[simp] theorem completesAt_corrected (f : InstrInfo) (pc : Word) (s : State) : (Safety.completesAt f pc s).corrected = s.corrected := retire_corrected _ _
@[simp] theorem completesAt_dieLines (f : InstrInfo) (pc : Word) (s : State) : (Safety.completesAt f pc s).dieLines = s.dieLines := retire_dieLines _ _
@[simp] theorem completesAt_partials (f : InstrInfo) (pc : Word) (s : State) : (Safety.completesAt f pc s).partials = s.partials := retire_partials _ _
@[simp] theorem completesAt_detTags (f : InstrInfo) (pc : Word) (s : State) : (Safety.completesAt f pc s).detTags = s.detTags := retire_detTags _ _
@[simp] theorem completesAt_foreignMarks (f : InstrInfo) (pc : Word) (s : State) : (Safety.completesAt f pc s).foreignMarks = s.foreignMarks := retire_foreignMarks _ _
@[simp] theorem completesAt_owned (f : InstrInfo) (pc : Word) (s : State) : (Safety.completesAt f pc s).owned = s.owned := retire_owned _ _
@[simp] theorem completesAt_hostLines (f : InstrInfo) (pc : Word) (s : State) : (Safety.completesAt f pc s).hostLines = s.hostLines := retire_hostLines _ _
@[simp] theorem completesAt_hostWaits (f : InstrInfo) (pc : Word) (s : State) : (Safety.completesAt f pc s).hostWaits = s.hostWaits := retire_hostWaits _ _
@[simp] theorem completesAt_clusters (f : InstrInfo) (pc : Word) (s : State) : (Safety.completesAt f pc s).clusters = s.clusters := retire_clusters _ _
@[simp] theorem completesAt_parts (f : InstrInfo) (pc : Word) (s : State) : (Safety.completesAt f pc s).parts = s.parts := retire_parts _ _
@[simp] theorem completesAt_funcs (f : InstrInfo) (pc : Word) (s : State) : (Safety.completesAt f pc s).funcs = s.funcs := retire_funcs _ _
@[simp] theorem completesAt_banks (f : InstrInfo) (pc : Word) (s : State) : (Safety.completesAt f pc s).banks = s.banks := retire_banks _ _
@[simp] theorem completesAt_wakes (f : InstrInfo) (pc : Word) (s : State) : (Safety.completesAt f pc s).wakes = s.wakes := retire_wakes _ _
@[simp] theorem completesAt_wakeQueue (f : InstrInfo) (pc : Word) (s : State) : (Safety.completesAt f pc s).wakeQueue = s.wakeQueue := retire_wakeQueue _ _
@[simp] theorem completesAt_flows (f : InstrInfo) (pc : Word) (s : State) : (Safety.completesAt f pc s).flows = s.flows := retire_flows _ _
@[simp] theorem completesAt_sleepers (f : InstrInfo) (pc : Word) (s : State) : (Safety.completesAt f pc s).sleepers = s.sleepers := retire_sleepers _ _
@[simp] theorem completesAt_remotes (f : InstrInfo) (pc : Word) (s : State) : (Safety.completesAt f pc s).remotes = s.remotes := retire_remotes _ _
@[simp] theorem completesAt_posts (f : InstrInfo) (pc : Word) (s : State) : (Safety.completesAt f pc s).posts = s.posts := retire_posts _ _
@[simp] theorem completesAt_answers (f : InstrInfo) (pc : Word) (s : State) : (Safety.completesAt f pc s).answers = s.answers := retire_answers _ _
@[simp] theorem completesAt_thrs (f : InstrInfo) (pc : Word) (s : State) : (Safety.completesAt f pc s).thrs = s.thrs := retire_thrs _ _
@[simp] theorem completesAt_msgs (f : InstrInfo) (pc : Word) (s : State) : (Safety.completesAt f pc s).msgs = s.msgs := retire_msgs _ _
@[simp] theorem completesAt_hwork (f : InstrInfo) (pc : Word) (s : State) : (Safety.completesAt f pc s).hwork = s.hwork := retire_hwork _ _
@[simp] theorem completesAt_dies (f : InstrInfo) (pc : Word) (s : State) : (Safety.completesAt f pc s).dies = s.dies := retire_dies _ _
@[simp] theorem completesAt_io (f : InstrInfo) (pc : Word) (s : State) : (Safety.completesAt f pc s).io = s.io := retire_io _ _

@[simp] theorem onCluster_core (k : Nat) (f : Cluster → Cluster) (s : State) : (onCluster k f s).core = s.core := rfl
@[simp] theorem onCluster_others (k : Nat) (f : Cluster → Cluster) (s : State) : (onCluster k f s).others = s.others := rfl
@[simp] theorem onCluster_agenda (k : Nat) (f : Cluster → Cluster) (s : State) : (onCluster k f s).agenda = s.agenda := rfl
@[simp] theorem onCluster_turn (k : Nat) (f : Cluster → Cluster) (s : State) : (onCluster k f s).turn = s.turn := rfl
@[simp] theorem onCluster_freeCtr (k : Nat) (f : Cluster → Cluster) (s : State) : (onCluster k f s).freeCtr = s.freeCtr := rfl
@[simp] theorem onCluster_time (k : Nat) (f : Cluster → Cluster) (s : State) : (onCluster k f s).time = s.time := rfl
@[simp] theorem onCluster_powered (k : Nat) (f : Cluster → Cluster) (s : State) : (onCluster k f s).powered = s.powered := rfl
@[simp] theorem onCluster_layout (k : Nat) (f : Cluster → Cluster) (s : State) : (onCluster k f s).layout = s.layout := rfl
@[simp] theorem onCluster_mem (k : Nat) (f : Cluster → Cluster) (s : State) : (onCluster k f s).mem = s.mem := rfl
@[simp] theorem onCluster_badLines (k : Nat) (f : Cluster → Cluster) (s : State) : (onCluster k f s).badLines = s.badLines := rfl
@[simp] theorem onCluster_corrected (k : Nat) (f : Cluster → Cluster) (s : State) : (onCluster k f s).corrected = s.corrected := rfl
@[simp] theorem onCluster_dieLines (k : Nat) (f : Cluster → Cluster) (s : State) : (onCluster k f s).dieLines = s.dieLines := rfl
@[simp] theorem onCluster_partials (k : Nat) (f : Cluster → Cluster) (s : State) : (onCluster k f s).partials = s.partials := rfl
@[simp] theorem onCluster_detTags (k : Nat) (f : Cluster → Cluster) (s : State) : (onCluster k f s).detTags = s.detTags := rfl
@[simp] theorem onCluster_foreignMarks (k : Nat) (f : Cluster → Cluster) (s : State) : (onCluster k f s).foreignMarks = s.foreignMarks := rfl
@[simp] theorem onCluster_owned (k : Nat) (f : Cluster → Cluster) (s : State) : (onCluster k f s).owned = s.owned := rfl
@[simp] theorem onCluster_hostLines (k : Nat) (f : Cluster → Cluster) (s : State) : (onCluster k f s).hostLines = s.hostLines := rfl
@[simp] theorem onCluster_hostWaits (k : Nat) (f : Cluster → Cluster) (s : State) : (onCluster k f s).hostWaits = s.hostWaits := rfl
@[simp] theorem onCluster_parts (k : Nat) (f : Cluster → Cluster) (s : State) : (onCluster k f s).parts = s.parts := rfl
@[simp] theorem onCluster_funcs (k : Nat) (f : Cluster → Cluster) (s : State) : (onCluster k f s).funcs = s.funcs := rfl
@[simp] theorem onCluster_banks (k : Nat) (f : Cluster → Cluster) (s : State) : (onCluster k f s).banks = s.banks := rfl
@[simp] theorem onCluster_wakes (k : Nat) (f : Cluster → Cluster) (s : State) : (onCluster k f s).wakes = s.wakes := rfl
@[simp] theorem onCluster_wakeQueue (k : Nat) (f : Cluster → Cluster) (s : State) : (onCluster k f s).wakeQueue = s.wakeQueue := rfl
@[simp] theorem onCluster_flows (k : Nat) (f : Cluster → Cluster) (s : State) : (onCluster k f s).flows = s.flows := rfl
@[simp] theorem onCluster_sleepers (k : Nat) (f : Cluster → Cluster) (s : State) : (onCluster k f s).sleepers = s.sleepers := rfl
@[simp] theorem onCluster_remotes (k : Nat) (f : Cluster → Cluster) (s : State) : (onCluster k f s).remotes = s.remotes := rfl
@[simp] theorem onCluster_posts (k : Nat) (f : Cluster → Cluster) (s : State) : (onCluster k f s).posts = s.posts := rfl
@[simp] theorem onCluster_answers (k : Nat) (f : Cluster → Cluster) (s : State) : (onCluster k f s).answers = s.answers := rfl
@[simp] theorem onCluster_thrs (k : Nat) (f : Cluster → Cluster) (s : State) : (onCluster k f s).thrs = s.thrs := rfl
@[simp] theorem onCluster_msgs (k : Nat) (f : Cluster → Cluster) (s : State) : (onCluster k f s).msgs = s.msgs := rfl
@[simp] theorem onCluster_hwork (k : Nat) (f : Cluster → Cluster) (s : State) : (onCluster k f s).hwork = s.hwork := rfl
@[simp] theorem onCluster_dies (k : Nat) (f : Cluster → Cluster) (s : State) : (onCluster k f s).dies = s.dies := rfl
@[simp] theorem onCluster_io (k : Nat) (f : Cluster → Cluster) (s : State) : (onCluster k f s).io = s.io := rfl

@[simp] theorem onPart_core (k : Nat) (f : Partition → Partition) (s : State) : (onPart k f s).core = s.core := rfl
@[simp] theorem onPart_others (k : Nat) (f : Partition → Partition) (s : State) : (onPart k f s).others = s.others := rfl
@[simp] theorem onPart_agenda (k : Nat) (f : Partition → Partition) (s : State) : (onPart k f s).agenda = s.agenda := rfl
@[simp] theorem onPart_turn (k : Nat) (f : Partition → Partition) (s : State) : (onPart k f s).turn = s.turn := rfl
@[simp] theorem onPart_freeCtr (k : Nat) (f : Partition → Partition) (s : State) : (onPart k f s).freeCtr = s.freeCtr := rfl
@[simp] theorem onPart_time (k : Nat) (f : Partition → Partition) (s : State) : (onPart k f s).time = s.time := rfl
@[simp] theorem onPart_powered (k : Nat) (f : Partition → Partition) (s : State) : (onPart k f s).powered = s.powered := rfl
@[simp] theorem onPart_layout (k : Nat) (f : Partition → Partition) (s : State) : (onPart k f s).layout = s.layout := rfl
@[simp] theorem onPart_mem (k : Nat) (f : Partition → Partition) (s : State) : (onPart k f s).mem = s.mem := rfl
@[simp] theorem onPart_badLines (k : Nat) (f : Partition → Partition) (s : State) : (onPart k f s).badLines = s.badLines := rfl
@[simp] theorem onPart_corrected (k : Nat) (f : Partition → Partition) (s : State) : (onPart k f s).corrected = s.corrected := rfl
@[simp] theorem onPart_dieLines (k : Nat) (f : Partition → Partition) (s : State) : (onPart k f s).dieLines = s.dieLines := rfl
@[simp] theorem onPart_partials (k : Nat) (f : Partition → Partition) (s : State) : (onPart k f s).partials = s.partials := rfl
@[simp] theorem onPart_detTags (k : Nat) (f : Partition → Partition) (s : State) : (onPart k f s).detTags = s.detTags := rfl
@[simp] theorem onPart_foreignMarks (k : Nat) (f : Partition → Partition) (s : State) : (onPart k f s).foreignMarks = s.foreignMarks := rfl
@[simp] theorem onPart_owned (k : Nat) (f : Partition → Partition) (s : State) : (onPart k f s).owned = s.owned := rfl
@[simp] theorem onPart_hostLines (k : Nat) (f : Partition → Partition) (s : State) : (onPart k f s).hostLines = s.hostLines := rfl
@[simp] theorem onPart_hostWaits (k : Nat) (f : Partition → Partition) (s : State) : (onPart k f s).hostWaits = s.hostWaits := rfl
@[simp] theorem onPart_clusters (k : Nat) (f : Partition → Partition) (s : State) : (onPart k f s).clusters = s.clusters := rfl
@[simp] theorem onPart_funcs (k : Nat) (f : Partition → Partition) (s : State) : (onPart k f s).funcs = s.funcs := rfl
@[simp] theorem onPart_banks (k : Nat) (f : Partition → Partition) (s : State) : (onPart k f s).banks = s.banks := rfl
@[simp] theorem onPart_wakes (k : Nat) (f : Partition → Partition) (s : State) : (onPart k f s).wakes = s.wakes := rfl
@[simp] theorem onPart_wakeQueue (k : Nat) (f : Partition → Partition) (s : State) : (onPart k f s).wakeQueue = s.wakeQueue := rfl
@[simp] theorem onPart_flows (k : Nat) (f : Partition → Partition) (s : State) : (onPart k f s).flows = s.flows := rfl
@[simp] theorem onPart_sleepers (k : Nat) (f : Partition → Partition) (s : State) : (onPart k f s).sleepers = s.sleepers := rfl
@[simp] theorem onPart_remotes (k : Nat) (f : Partition → Partition) (s : State) : (onPart k f s).remotes = s.remotes := rfl
@[simp] theorem onPart_posts (k : Nat) (f : Partition → Partition) (s : State) : (onPart k f s).posts = s.posts := rfl
@[simp] theorem onPart_answers (k : Nat) (f : Partition → Partition) (s : State) : (onPart k f s).answers = s.answers := rfl
@[simp] theorem onPart_thrs (k : Nat) (f : Partition → Partition) (s : State) : (onPart k f s).thrs = s.thrs := rfl
@[simp] theorem onPart_msgs (k : Nat) (f : Partition → Partition) (s : State) : (onPart k f s).msgs = s.msgs := rfl
@[simp] theorem onPart_hwork (k : Nat) (f : Partition → Partition) (s : State) : (onPart k f s).hwork = s.hwork := rfl
@[simp] theorem onPart_dies (k : Nat) (f : Partition → Partition) (s : State) : (onPart k f s).dies = s.dies := rfl
@[simp] theorem onPart_io (k : Nat) (f : Partition → Partition) (s : State) : (onPart k f s).io = s.io := rfl

@[simp] theorem onBank_core (k : Nat) (f : Bank → Bank) (s : State) : (onBank k f s).core = s.core := rfl
@[simp] theorem onBank_others (k : Nat) (f : Bank → Bank) (s : State) : (onBank k f s).others = s.others := rfl
@[simp] theorem onBank_agenda (k : Nat) (f : Bank → Bank) (s : State) : (onBank k f s).agenda = s.agenda := rfl
@[simp] theorem onBank_turn (k : Nat) (f : Bank → Bank) (s : State) : (onBank k f s).turn = s.turn := rfl
@[simp] theorem onBank_freeCtr (k : Nat) (f : Bank → Bank) (s : State) : (onBank k f s).freeCtr = s.freeCtr := rfl
@[simp] theorem onBank_time (k : Nat) (f : Bank → Bank) (s : State) : (onBank k f s).time = s.time := rfl
@[simp] theorem onBank_powered (k : Nat) (f : Bank → Bank) (s : State) : (onBank k f s).powered = s.powered := rfl
@[simp] theorem onBank_layout (k : Nat) (f : Bank → Bank) (s : State) : (onBank k f s).layout = s.layout := rfl
@[simp] theorem onBank_mem (k : Nat) (f : Bank → Bank) (s : State) : (onBank k f s).mem = s.mem := rfl
@[simp] theorem onBank_badLines (k : Nat) (f : Bank → Bank) (s : State) : (onBank k f s).badLines = s.badLines := rfl
@[simp] theorem onBank_corrected (k : Nat) (f : Bank → Bank) (s : State) : (onBank k f s).corrected = s.corrected := rfl
@[simp] theorem onBank_dieLines (k : Nat) (f : Bank → Bank) (s : State) : (onBank k f s).dieLines = s.dieLines := rfl
@[simp] theorem onBank_partials (k : Nat) (f : Bank → Bank) (s : State) : (onBank k f s).partials = s.partials := rfl
@[simp] theorem onBank_detTags (k : Nat) (f : Bank → Bank) (s : State) : (onBank k f s).detTags = s.detTags := rfl
@[simp] theorem onBank_foreignMarks (k : Nat) (f : Bank → Bank) (s : State) : (onBank k f s).foreignMarks = s.foreignMarks := rfl
@[simp] theorem onBank_owned (k : Nat) (f : Bank → Bank) (s : State) : (onBank k f s).owned = s.owned := rfl
@[simp] theorem onBank_hostLines (k : Nat) (f : Bank → Bank) (s : State) : (onBank k f s).hostLines = s.hostLines := rfl
@[simp] theorem onBank_hostWaits (k : Nat) (f : Bank → Bank) (s : State) : (onBank k f s).hostWaits = s.hostWaits := rfl
@[simp] theorem onBank_clusters (k : Nat) (f : Bank → Bank) (s : State) : (onBank k f s).clusters = s.clusters := rfl
@[simp] theorem onBank_parts (k : Nat) (f : Bank → Bank) (s : State) : (onBank k f s).parts = s.parts := rfl
@[simp] theorem onBank_funcs (k : Nat) (f : Bank → Bank) (s : State) : (onBank k f s).funcs = s.funcs := rfl
@[simp] theorem onBank_wakes (k : Nat) (f : Bank → Bank) (s : State) : (onBank k f s).wakes = s.wakes := rfl
@[simp] theorem onBank_wakeQueue (k : Nat) (f : Bank → Bank) (s : State) : (onBank k f s).wakeQueue = s.wakeQueue := rfl
@[simp] theorem onBank_flows (k : Nat) (f : Bank → Bank) (s : State) : (onBank k f s).flows = s.flows := rfl
@[simp] theorem onBank_sleepers (k : Nat) (f : Bank → Bank) (s : State) : (onBank k f s).sleepers = s.sleepers := rfl
@[simp] theorem onBank_remotes (k : Nat) (f : Bank → Bank) (s : State) : (onBank k f s).remotes = s.remotes := rfl
@[simp] theorem onBank_posts (k : Nat) (f : Bank → Bank) (s : State) : (onBank k f s).posts = s.posts := rfl
@[simp] theorem onBank_answers (k : Nat) (f : Bank → Bank) (s : State) : (onBank k f s).answers = s.answers := rfl
@[simp] theorem onBank_thrs (k : Nat) (f : Bank → Bank) (s : State) : (onBank k f s).thrs = s.thrs := rfl
@[simp] theorem onBank_msgs (k : Nat) (f : Bank → Bank) (s : State) : (onBank k f s).msgs = s.msgs := rfl
@[simp] theorem onBank_hwork (k : Nat) (f : Bank → Bank) (s : State) : (onBank k f s).hwork = s.hwork := rfl
@[simp] theorem onBank_dies (k : Nat) (f : Bank → Bank) (s : State) : (onBank k f s).dies = s.dies := rfl
@[simp] theorem onBank_io (k : Nat) (f : Bank → Bank) (s : State) : (onBank k f s).io = s.io := rfl

@[simp] theorem onFunc_core (k : Nat) (f : Function → Function) (s : State) : (onFunc k f s).core = s.core := rfl
@[simp] theorem onFunc_others (k : Nat) (f : Function → Function) (s : State) : (onFunc k f s).others = s.others := rfl
@[simp] theorem onFunc_agenda (k : Nat) (f : Function → Function) (s : State) : (onFunc k f s).agenda = s.agenda := rfl
@[simp] theorem onFunc_turn (k : Nat) (f : Function → Function) (s : State) : (onFunc k f s).turn = s.turn := rfl
@[simp] theorem onFunc_freeCtr (k : Nat) (f : Function → Function) (s : State) : (onFunc k f s).freeCtr = s.freeCtr := rfl
@[simp] theorem onFunc_time (k : Nat) (f : Function → Function) (s : State) : (onFunc k f s).time = s.time := rfl
@[simp] theorem onFunc_powered (k : Nat) (f : Function → Function) (s : State) : (onFunc k f s).powered = s.powered := rfl
@[simp] theorem onFunc_layout (k : Nat) (f : Function → Function) (s : State) : (onFunc k f s).layout = s.layout := rfl
@[simp] theorem onFunc_mem (k : Nat) (f : Function → Function) (s : State) : (onFunc k f s).mem = s.mem := rfl
@[simp] theorem onFunc_badLines (k : Nat) (f : Function → Function) (s : State) : (onFunc k f s).badLines = s.badLines := rfl
@[simp] theorem onFunc_corrected (k : Nat) (f : Function → Function) (s : State) : (onFunc k f s).corrected = s.corrected := rfl
@[simp] theorem onFunc_dieLines (k : Nat) (f : Function → Function) (s : State) : (onFunc k f s).dieLines = s.dieLines := rfl
@[simp] theorem onFunc_partials (k : Nat) (f : Function → Function) (s : State) : (onFunc k f s).partials = s.partials := rfl
@[simp] theorem onFunc_detTags (k : Nat) (f : Function → Function) (s : State) : (onFunc k f s).detTags = s.detTags := rfl
@[simp] theorem onFunc_foreignMarks (k : Nat) (f : Function → Function) (s : State) : (onFunc k f s).foreignMarks = s.foreignMarks := rfl
@[simp] theorem onFunc_owned (k : Nat) (f : Function → Function) (s : State) : (onFunc k f s).owned = s.owned := rfl
@[simp] theorem onFunc_hostLines (k : Nat) (f : Function → Function) (s : State) : (onFunc k f s).hostLines = s.hostLines := rfl
@[simp] theorem onFunc_hostWaits (k : Nat) (f : Function → Function) (s : State) : (onFunc k f s).hostWaits = s.hostWaits := rfl
@[simp] theorem onFunc_clusters (k : Nat) (f : Function → Function) (s : State) : (onFunc k f s).clusters = s.clusters := rfl
@[simp] theorem onFunc_parts (k : Nat) (f : Function → Function) (s : State) : (onFunc k f s).parts = s.parts := rfl
@[simp] theorem onFunc_banks (k : Nat) (f : Function → Function) (s : State) : (onFunc k f s).banks = s.banks := rfl
@[simp] theorem onFunc_wakes (k : Nat) (f : Function → Function) (s : State) : (onFunc k f s).wakes = s.wakes := rfl
@[simp] theorem onFunc_wakeQueue (k : Nat) (f : Function → Function) (s : State) : (onFunc k f s).wakeQueue = s.wakeQueue := rfl
@[simp] theorem onFunc_flows (k : Nat) (f : Function → Function) (s : State) : (onFunc k f s).flows = s.flows := rfl
@[simp] theorem onFunc_sleepers (k : Nat) (f : Function → Function) (s : State) : (onFunc k f s).sleepers = s.sleepers := rfl
@[simp] theorem onFunc_remotes (k : Nat) (f : Function → Function) (s : State) : (onFunc k f s).remotes = s.remotes := rfl
@[simp] theorem onFunc_posts (k : Nat) (f : Function → Function) (s : State) : (onFunc k f s).posts = s.posts := rfl
@[simp] theorem onFunc_answers (k : Nat) (f : Function → Function) (s : State) : (onFunc k f s).answers = s.answers := rfl
@[simp] theorem onFunc_thrs (k : Nat) (f : Function → Function) (s : State) : (onFunc k f s).thrs = s.thrs := rfl
@[simp] theorem onFunc_msgs (k : Nat) (f : Function → Function) (s : State) : (onFunc k f s).msgs = s.msgs := rfl
@[simp] theorem onFunc_hwork (k : Nat) (f : Function → Function) (s : State) : (onFunc k f s).hwork = s.hwork := rfl
@[simp] theorem onFunc_dies (k : Nat) (f : Function → Function) (s : State) : (onFunc k f s).dies = s.dies := rfl
@[simp] theorem onFunc_io (k : Nat) (f : Function → Function) (s : State) : (onFunc k f s).io = s.io := rfl

@[simp] theorem setCore_agenda (c : Core) (s : State) : (setCore c s).agenda = s.agenda := by unfold setCore; split <;> rfl
@[simp] theorem onCore_agenda (k : Nat) (f : Core → Core) (s : State) : (onCore k f s).agenda = s.agenda := setCore_agenda _ _
@[simp] theorem onCtx_agenda (k i : Nat) (f : Ctx → Ctx) (s : State) : (onCtx k i f s).agenda = s.agenda := setCore_agenda _ _
@[simp] theorem produce_agenda (n : Reg) (v a : Word) (b : Bool) (s : State) : (produce n v a b s).agenda = s.agenda := by unfold produce; split <;> rfl
@[simp] theorem setCore_turn (c : Core) (s : State) : (setCore c s).turn = s.turn := by unfold setCore; split <;> rfl
@[simp] theorem onCore_turn (k : Nat) (f : Core → Core) (s : State) : (onCore k f s).turn = s.turn := setCore_turn _ _
@[simp] theorem onCtx_turn (k i : Nat) (f : Ctx → Ctx) (s : State) : (onCtx k i f s).turn = s.turn := setCore_turn _ _
@[simp] theorem produce_turn (n : Reg) (v a : Word) (b : Bool) (s : State) : (produce n v a b s).turn = s.turn := by unfold produce; split <;> rfl
@[simp] theorem setCore_freeCtr (c : Core) (s : State) : (setCore c s).freeCtr = s.freeCtr := by unfold setCore; split <;> rfl
@[simp] theorem onCore_freeCtr (k : Nat) (f : Core → Core) (s : State) : (onCore k f s).freeCtr = s.freeCtr := setCore_freeCtr _ _
@[simp] theorem onCtx_freeCtr (k i : Nat) (f : Ctx → Ctx) (s : State) : (onCtx k i f s).freeCtr = s.freeCtr := setCore_freeCtr _ _
@[simp] theorem produce_freeCtr (n : Reg) (v a : Word) (b : Bool) (s : State) : (produce n v a b s).freeCtr = s.freeCtr := by unfold produce; split <;> rfl
@[simp] theorem setCore_time (c : Core) (s : State) : (setCore c s).time = s.time := by unfold setCore; split <;> rfl
@[simp] theorem onCore_time (k : Nat) (f : Core → Core) (s : State) : (onCore k f s).time = s.time := setCore_time _ _
@[simp] theorem onCtx_time (k i : Nat) (f : Ctx → Ctx) (s : State) : (onCtx k i f s).time = s.time := setCore_time _ _
@[simp] theorem produce_time (n : Reg) (v a : Word) (b : Bool) (s : State) : (produce n v a b s).time = s.time := by unfold produce; split <;> rfl
@[simp] theorem setCore_powered (c : Core) (s : State) : (setCore c s).powered = s.powered := by unfold setCore; split <;> rfl
@[simp] theorem onCore_powered (k : Nat) (f : Core → Core) (s : State) : (onCore k f s).powered = s.powered := setCore_powered _ _
@[simp] theorem onCtx_powered (k i : Nat) (f : Ctx → Ctx) (s : State) : (onCtx k i f s).powered = s.powered := setCore_powered _ _
@[simp] theorem produce_powered (n : Reg) (v a : Word) (b : Bool) (s : State) : (produce n v a b s).powered = s.powered := by unfold produce; split <;> rfl
@[simp] theorem setCore_layout (c : Core) (s : State) : (setCore c s).layout = s.layout := by unfold setCore; split <;> rfl
@[simp] theorem onCore_layout (k : Nat) (f : Core → Core) (s : State) : (onCore k f s).layout = s.layout := setCore_layout _ _
@[simp] theorem onCtx_layout (k i : Nat) (f : Ctx → Ctx) (s : State) : (onCtx k i f s).layout = s.layout := setCore_layout _ _
@[simp] theorem produce_layout (n : Reg) (v a : Word) (b : Bool) (s : State) : (produce n v a b s).layout = s.layout := by unfold produce; split <;> rfl
@[simp] theorem setCore_mem (c : Core) (s : State) : (setCore c s).mem = s.mem := by unfold setCore; split <;> rfl
@[simp] theorem onCore_mem (k : Nat) (f : Core → Core) (s : State) : (onCore k f s).mem = s.mem := setCore_mem _ _
@[simp] theorem onCtx_mem (k i : Nat) (f : Ctx → Ctx) (s : State) : (onCtx k i f s).mem = s.mem := setCore_mem _ _
@[simp] theorem produce_mem (n : Reg) (v a : Word) (b : Bool) (s : State) : (produce n v a b s).mem = s.mem := by unfold produce; split <;> rfl
@[simp] theorem setCore_badLines (c : Core) (s : State) : (setCore c s).badLines = s.badLines := by unfold setCore; split <;> rfl
@[simp] theorem setCore_corrected (c : Core) (s : State) : (setCore c s).corrected = s.corrected := by unfold setCore; split <;> rfl
@[simp] theorem onCore_badLines (k : Nat) (f : Core → Core) (s : State) : (onCore k f s).badLines = s.badLines := setCore_badLines _ _
@[simp] theorem onCore_corrected (k : Nat) (f : Core → Core) (s : State) : (onCore k f s).corrected = s.corrected := setCore_corrected _ _
@[simp] theorem onCtx_badLines (k i : Nat) (f : Ctx → Ctx) (s : State) : (onCtx k i f s).badLines = s.badLines := setCore_badLines _ _
@[simp] theorem onCtx_corrected (k i : Nat) (f : Ctx → Ctx) (s : State) : (onCtx k i f s).corrected = s.corrected := setCore_corrected _ _
@[simp] theorem produce_badLines (n : Reg) (v a : Word) (b : Bool) (s : State) : (produce n v a b s).badLines = s.badLines := by unfold produce; split <;> rfl
@[simp] theorem produce_corrected (n : Reg) (v a : Word) (b : Bool) (s : State) : (produce n v a b s).corrected = s.corrected := by unfold produce; split <;> rfl
@[simp] theorem setCore_dieLines (c : Core) (s : State) : (setCore c s).dieLines = s.dieLines := by unfold setCore; split <;> rfl
@[simp] theorem onCore_dieLines (k : Nat) (f : Core → Core) (s : State) : (onCore k f s).dieLines = s.dieLines := setCore_dieLines _ _
@[simp] theorem onCtx_dieLines (k i : Nat) (f : Ctx → Ctx) (s : State) : (onCtx k i f s).dieLines = s.dieLines := setCore_dieLines _ _
@[simp] theorem produce_dieLines (n : Reg) (v a : Word) (b : Bool) (s : State) : (produce n v a b s).dieLines = s.dieLines := by unfold produce; split <;> rfl
@[simp] theorem setCore_partials (c : Core) (s : State) : (setCore c s).partials = s.partials := by unfold setCore; split <;> rfl
@[simp] theorem onCore_partials (k : Nat) (f : Core → Core) (s : State) : (onCore k f s).partials = s.partials := setCore_partials _ _
@[simp] theorem onCtx_partials (k i : Nat) (f : Ctx → Ctx) (s : State) : (onCtx k i f s).partials = s.partials := setCore_partials _ _
@[simp] theorem produce_partials (n : Reg) (v a : Word) (b : Bool) (s : State) : (produce n v a b s).partials = s.partials := by unfold produce; split <;> rfl
@[simp] theorem setCore_detTags (c : Core) (s : State) : (setCore c s).detTags = s.detTags := by unfold setCore; split <;> rfl
@[simp] theorem onCore_detTags (k : Nat) (f : Core → Core) (s : State) : (onCore k f s).detTags = s.detTags := setCore_detTags _ _
@[simp] theorem onCtx_detTags (k i : Nat) (f : Ctx → Ctx) (s : State) : (onCtx k i f s).detTags = s.detTags := setCore_detTags _ _
@[simp] theorem produce_detTags (n : Reg) (v a : Word) (b : Bool) (s : State) : (produce n v a b s).detTags = s.detTags := by unfold produce; split <;> rfl
@[simp] theorem setCore_foreignMarks (c : Core) (s : State) : (setCore c s).foreignMarks = s.foreignMarks := by unfold setCore; split <;> rfl
@[simp] theorem onCore_foreignMarks (k : Nat) (f : Core → Core) (s : State) : (onCore k f s).foreignMarks = s.foreignMarks := setCore_foreignMarks _ _
@[simp] theorem onCtx_foreignMarks (k i : Nat) (f : Ctx → Ctx) (s : State) : (onCtx k i f s).foreignMarks = s.foreignMarks := setCore_foreignMarks _ _
@[simp] theorem produce_foreignMarks (n : Reg) (v a : Word) (b : Bool) (s : State) : (produce n v a b s).foreignMarks = s.foreignMarks := by unfold produce; split <;> rfl
@[simp] theorem setCore_owned (c : Core) (s : State) : (setCore c s).owned = s.owned := by unfold setCore; split <;> rfl
@[simp] theorem onCore_owned (k : Nat) (f : Core → Core) (s : State) : (onCore k f s).owned = s.owned := setCore_owned _ _
@[simp] theorem onCtx_owned (k i : Nat) (f : Ctx → Ctx) (s : State) : (onCtx k i f s).owned = s.owned := setCore_owned _ _
@[simp] theorem produce_owned (n : Reg) (v a : Word) (b : Bool) (s : State) : (produce n v a b s).owned = s.owned := by unfold produce; split <;> rfl
@[simp] theorem setCore_hostLines (c : Core) (s : State) : (setCore c s).hostLines = s.hostLines := by unfold setCore; split <;> rfl
@[simp] theorem onCore_hostLines (k : Nat) (f : Core → Core) (s : State) : (onCore k f s).hostLines = s.hostLines := setCore_hostLines _ _
@[simp] theorem onCtx_hostLines (k i : Nat) (f : Ctx → Ctx) (s : State) : (onCtx k i f s).hostLines = s.hostLines := setCore_hostLines _ _
@[simp] theorem produce_hostLines (n : Reg) (v a : Word) (b : Bool) (s : State) : (produce n v a b s).hostLines = s.hostLines := by unfold produce; split <;> rfl
@[simp] theorem setCore_hostWaits (c : Core) (s : State) : (setCore c s).hostWaits = s.hostWaits := by unfold setCore; split <;> rfl
@[simp] theorem onCore_hostWaits (k : Nat) (f : Core → Core) (s : State) : (onCore k f s).hostWaits = s.hostWaits := setCore_hostWaits _ _
@[simp] theorem onCtx_hostWaits (k i : Nat) (f : Ctx → Ctx) (s : State) : (onCtx k i f s).hostWaits = s.hostWaits := setCore_hostWaits _ _
@[simp] theorem produce_hostWaits (n : Reg) (v a : Word) (b : Bool) (s : State) : (produce n v a b s).hostWaits = s.hostWaits := by unfold produce; split <;> rfl
@[simp] theorem setCore_clusters (c : Core) (s : State) : (setCore c s).clusters = s.clusters := by unfold setCore; split <;> rfl
@[simp] theorem onCore_clusters (k : Nat) (f : Core → Core) (s : State) : (onCore k f s).clusters = s.clusters := setCore_clusters _ _
@[simp] theorem onCtx_clusters (k i : Nat) (f : Ctx → Ctx) (s : State) : (onCtx k i f s).clusters = s.clusters := setCore_clusters _ _
@[simp] theorem produce_clusters (n : Reg) (v a : Word) (b : Bool) (s : State) : (produce n v a b s).clusters = s.clusters := by unfold produce; split <;> rfl
@[simp] theorem setCore_parts (c : Core) (s : State) : (setCore c s).parts = s.parts := by unfold setCore; split <;> rfl
@[simp] theorem onCore_parts (k : Nat) (f : Core → Core) (s : State) : (onCore k f s).parts = s.parts := setCore_parts _ _
@[simp] theorem onCtx_parts (k i : Nat) (f : Ctx → Ctx) (s : State) : (onCtx k i f s).parts = s.parts := setCore_parts _ _
@[simp] theorem produce_parts (n : Reg) (v a : Word) (b : Bool) (s : State) : (produce n v a b s).parts = s.parts := by unfold produce; split <;> rfl
@[simp] theorem setCore_funcs (c : Core) (s : State) : (setCore c s).funcs = s.funcs := by unfold setCore; split <;> rfl
@[simp] theorem onCore_funcs (k : Nat) (f : Core → Core) (s : State) : (onCore k f s).funcs = s.funcs := setCore_funcs _ _
@[simp] theorem onCtx_funcs (k i : Nat) (f : Ctx → Ctx) (s : State) : (onCtx k i f s).funcs = s.funcs := setCore_funcs _ _
@[simp] theorem produce_funcs (n : Reg) (v a : Word) (b : Bool) (s : State) : (produce n v a b s).funcs = s.funcs := by unfold produce; split <;> rfl
@[simp] theorem setCore_banks (c : Core) (s : State) : (setCore c s).banks = s.banks := by unfold setCore; split <;> rfl
@[simp] theorem onCore_banks (k : Nat) (f : Core → Core) (s : State) : (onCore k f s).banks = s.banks := setCore_banks _ _
@[simp] theorem onCtx_banks (k i : Nat) (f : Ctx → Ctx) (s : State) : (onCtx k i f s).banks = s.banks := setCore_banks _ _
@[simp] theorem produce_banks (n : Reg) (v a : Word) (b : Bool) (s : State) : (produce n v a b s).banks = s.banks := by unfold produce; split <;> rfl
@[simp] theorem setCore_wakes (c : Core) (s : State) : (setCore c s).wakes = s.wakes := by unfold setCore; split <;> rfl
@[simp] theorem setCore_wakeQueue (c : Core) (s : State) : (setCore c s).wakeQueue = s.wakeQueue := by unfold setCore; split <;> rfl
@[simp] theorem setCore_flows (c : Core) (s : State) : (setCore c s).flows = s.flows := by unfold setCore; split <;> rfl
@[simp] theorem setCore_sleepers (c : Core) (s : State) : (setCore c s).sleepers = s.sleepers := by unfold setCore; split <;> rfl
@[simp] theorem onCore_wakes (k : Nat) (f : Core → Core) (s : State) : (onCore k f s).wakes = s.wakes := setCore_wakes _ _
@[simp] theorem onCore_wakeQueue (k : Nat) (f : Core → Core) (s : State) : (onCore k f s).wakeQueue = s.wakeQueue := setCore_wakeQueue _ _
@[simp] theorem onCore_flows (k : Nat) (f : Core → Core) (s : State) : (onCore k f s).flows = s.flows := setCore_flows _ _
@[simp] theorem onCore_sleepers (k : Nat) (f : Core → Core) (s : State) : (onCore k f s).sleepers = s.sleepers := setCore_sleepers _ _
@[simp] theorem onCtx_wakes (k i : Nat) (f : Ctx → Ctx) (s : State) : (onCtx k i f s).wakes = s.wakes := setCore_wakes _ _
@[simp] theorem onCtx_wakeQueue (k i : Nat) (f : Ctx → Ctx) (s : State) : (onCtx k i f s).wakeQueue = s.wakeQueue := setCore_wakeQueue _ _
@[simp] theorem onCtx_flows (k i : Nat) (f : Ctx → Ctx) (s : State) : (onCtx k i f s).flows = s.flows := setCore_flows _ _
@[simp] theorem onCtx_sleepers (k i : Nat) (f : Ctx → Ctx) (s : State) : (onCtx k i f s).sleepers = s.sleepers := setCore_sleepers _ _
@[simp] theorem produce_wakes (n : Reg) (v a : Word) (b : Bool) (s : State) : (produce n v a b s).wakes = s.wakes := by unfold produce; split <;> rfl
@[simp] theorem produce_wakeQueue (n : Reg) (v a : Word) (b : Bool) (s : State) : (produce n v a b s).wakeQueue = s.wakeQueue := by unfold produce; split <;> rfl
@[simp] theorem produce_flows (n : Reg) (v a : Word) (b : Bool) (s : State) : (produce n v a b s).flows = s.flows := by unfold produce; split <;> rfl
@[simp] theorem produce_sleepers (n : Reg) (v a : Word) (b : Bool) (s : State) : (produce n v a b s).sleepers = s.sleepers := by unfold produce; split <;> rfl
@[simp] theorem setCore_remotes (c : Core) (s : State) : (setCore c s).remotes = s.remotes := by unfold setCore; split <;> rfl
@[simp] theorem onCore_remotes (k : Nat) (f : Core → Core) (s : State) : (onCore k f s).remotes = s.remotes := setCore_remotes _ _
@[simp] theorem onCtx_remotes (k i : Nat) (f : Ctx → Ctx) (s : State) : (onCtx k i f s).remotes = s.remotes := setCore_remotes _ _
@[simp] theorem produce_remotes (n : Reg) (v a : Word) (b : Bool) (s : State) : (produce n v a b s).remotes = s.remotes := by unfold produce; split <;> rfl
@[simp] theorem setCore_posts (c : Core) (s : State) : (setCore c s).posts = s.posts := by unfold setCore; split <;> rfl
@[simp] theorem onCore_posts (k : Nat) (f : Core → Core) (s : State) : (onCore k f s).posts = s.posts := setCore_posts _ _
@[simp] theorem onCtx_posts (k i : Nat) (f : Ctx → Ctx) (s : State) : (onCtx k i f s).posts = s.posts := setCore_posts _ _
@[simp] theorem produce_posts (n : Reg) (v a : Word) (b : Bool) (s : State) : (produce n v a b s).posts = s.posts := by unfold produce; split <;> rfl
@[simp] theorem setCore_answers (c : Core) (s : State) : (setCore c s).answers = s.answers := by unfold setCore; split <;> rfl
@[simp] theorem onCore_answers (k : Nat) (f : Core → Core) (s : State) : (onCore k f s).answers = s.answers := setCore_answers _ _
@[simp] theorem onCtx_answers (k i : Nat) (f : Ctx → Ctx) (s : State) : (onCtx k i f s).answers = s.answers := setCore_answers _ _
@[simp] theorem produce_answers (n : Reg) (v a : Word) (b : Bool) (s : State) : (produce n v a b s).answers = s.answers := by unfold produce; split <;> rfl
@[simp] theorem setCore_thrs (c : Core) (s : State) : (setCore c s).thrs = s.thrs := by unfold setCore; split <;> rfl
@[simp] theorem onCore_thrs (k : Nat) (f : Core → Core) (s : State) : (onCore k f s).thrs = s.thrs := setCore_thrs _ _
@[simp] theorem onCtx_thrs (k i : Nat) (f : Ctx → Ctx) (s : State) : (onCtx k i f s).thrs = s.thrs := setCore_thrs _ _
@[simp] theorem produce_thrs (n : Reg) (v a : Word) (b : Bool) (s : State) : (produce n v a b s).thrs = s.thrs := by unfold produce; split <;> rfl
@[simp] theorem setCore_msgs (c : Core) (s : State) : (setCore c s).msgs = s.msgs := by unfold setCore; split <;> rfl
@[simp] theorem onCore_msgs (k : Nat) (f : Core → Core) (s : State) : (onCore k f s).msgs = s.msgs := setCore_msgs _ _
@[simp] theorem onCtx_msgs (k i : Nat) (f : Ctx → Ctx) (s : State) : (onCtx k i f s).msgs = s.msgs := setCore_msgs _ _
@[simp] theorem produce_msgs (n : Reg) (v a : Word) (b : Bool) (s : State) : (produce n v a b s).msgs = s.msgs := by unfold produce; split <;> rfl
@[simp] theorem setCore_hwork (c : Core) (s : State) : (setCore c s).hwork = s.hwork := by unfold setCore; split <;> rfl
@[simp] theorem onCore_hwork (k : Nat) (f : Core → Core) (s : State) : (onCore k f s).hwork = s.hwork := setCore_hwork _ _
@[simp] theorem onCtx_hwork (k i : Nat) (f : Ctx → Ctx) (s : State) : (onCtx k i f s).hwork = s.hwork := setCore_hwork _ _
@[simp] theorem produce_hwork (n : Reg) (v a : Word) (b : Bool) (s : State) : (produce n v a b s).hwork = s.hwork := by unfold produce; split <;> rfl
@[simp] theorem setCore_dies (c : Core) (s : State) : (setCore c s).dies = s.dies := by unfold setCore; split <;> rfl
@[simp] theorem onCore_dies (k : Nat) (f : Core → Core) (s : State) : (onCore k f s).dies = s.dies := setCore_dies _ _
@[simp] theorem onCtx_dies (k i : Nat) (f : Ctx → Ctx) (s : State) : (onCtx k i f s).dies = s.dies := setCore_dies _ _
@[simp] theorem produce_dies (n : Reg) (v a : Word) (b : Bool) (s : State) : (produce n v a b s).dies = s.dies := by unfold produce; split <;> rfl
@[simp] theorem setCore_io (c : Core) (s : State) : (setCore c s).io = s.io := by unfold setCore; split <;> rfl
@[simp] theorem onCore_io (k : Nat) (f : Core → Core) (s : State) : (onCore k f s).io = s.io := setCore_io _ _
@[simp] theorem onCtx_io (k i : Nat) (f : Ctx → Ctx) (s : State) : (onCtx k i f s).io = s.io := setCore_io _ _
@[simp] theorem produce_io (n : Reg) (v a : Word) (b : Bool) (s : State) : (produce n v a b s).io = s.io := by unfold produce; split <;> rfl
@[simp] theorem mapCores_agenda (f : Core → Core) (s : State) : (mapCores f s).agenda = s.agenda := rfl
@[simp] theorem mapCores_turn (f : Core → Core) (s : State) : (mapCores f s).turn = s.turn := rfl
@[simp] theorem mapCores_freeCtr (f : Core → Core) (s : State) : (mapCores f s).freeCtr = s.freeCtr := rfl
@[simp] theorem mapCores_time (f : Core → Core) (s : State) : (mapCores f s).time = s.time := rfl
@[simp] theorem mapCores_powered (f : Core → Core) (s : State) : (mapCores f s).powered = s.powered := rfl
@[simp] theorem mapCores_layout (f : Core → Core) (s : State) : (mapCores f s).layout = s.layout := rfl
@[simp] theorem mapCores_mem (f : Core → Core) (s : State) : (mapCores f s).mem = s.mem := rfl
@[simp] theorem mapCores_badLines (f : Core → Core) (s : State) : (mapCores f s).badLines = s.badLines := rfl
@[simp] theorem mapCores_corrected (f : Core → Core) (s : State) : (mapCores f s).corrected = s.corrected := rfl
@[simp] theorem mapCores_dieLines (f : Core → Core) (s : State) : (mapCores f s).dieLines = s.dieLines := rfl
@[simp] theorem mapCores_partials (f : Core → Core) (s : State) : (mapCores f s).partials = s.partials := rfl
@[simp] theorem mapCores_detTags (f : Core → Core) (s : State) : (mapCores f s).detTags = s.detTags := rfl
@[simp] theorem mapCores_foreignMarks (f : Core → Core) (s : State) : (mapCores f s).foreignMarks = s.foreignMarks := rfl
@[simp] theorem mapCores_owned (f : Core → Core) (s : State) : (mapCores f s).owned = s.owned := rfl
@[simp] theorem mapCores_hostLines (f : Core → Core) (s : State) : (mapCores f s).hostLines = s.hostLines := rfl
@[simp] theorem mapCores_hostWaits (f : Core → Core) (s : State) : (mapCores f s).hostWaits = s.hostWaits := rfl
@[simp] theorem mapCores_clusters (f : Core → Core) (s : State) : (mapCores f s).clusters = s.clusters := rfl
@[simp] theorem mapCores_parts (f : Core → Core) (s : State) : (mapCores f s).parts = s.parts := rfl
@[simp] theorem mapCores_funcs (f : Core → Core) (s : State) : (mapCores f s).funcs = s.funcs := rfl
@[simp] theorem mapCores_banks (f : Core → Core) (s : State) : (mapCores f s).banks = s.banks := rfl
@[simp] theorem mapCores_wakes (f : Core → Core) (s : State) : (mapCores f s).wakes = s.wakes := rfl
@[simp] theorem mapCores_wakeQueue (f : Core → Core) (s : State) : (mapCores f s).wakeQueue = s.wakeQueue := rfl
@[simp] theorem mapCores_flows (f : Core → Core) (s : State) : (mapCores f s).flows = s.flows := rfl
@[simp] theorem mapCores_sleepers (f : Core → Core) (s : State) : (mapCores f s).sleepers = s.sleepers := rfl
@[simp] theorem mapCores_remotes (f : Core → Core) (s : State) : (mapCores f s).remotes = s.remotes := rfl
@[simp] theorem mapCores_posts (f : Core → Core) (s : State) : (mapCores f s).posts = s.posts := rfl
@[simp] theorem mapCores_answers (f : Core → Core) (s : State) : (mapCores f s).answers = s.answers := rfl
@[simp] theorem mapCores_thrs (f : Core → Core) (s : State) : (mapCores f s).thrs = s.thrs := rfl
@[simp] theorem mapCores_msgs (f : Core → Core) (s : State) : (mapCores f s).msgs = s.msgs := rfl
@[simp] theorem mapCores_hwork (f : Core → Core) (s : State) : (mapCores f s).hwork = s.hwork := rfl
@[simp] theorem mapCores_dies (f : Core → Core) (s : State) : (mapCores f s).dies = s.dies := rfl
@[simp] theorem mapCores_io (f : Core → Core) (s : State) : (mapCores f s).io = s.io := rfl
@[simp] theorem record_core (r code part core : Nat) (d0 d1 : Word) (s : State) : (record r code part core d0 d1 s).core = s.core := by
  unfold record onRecorder; split <;> rfl
@[simp] theorem record_others (r code part core : Nat) (d0 d1 : Word) (s : State) : (record r code part core d0 d1 s).others = s.others := by
  unfold record onRecorder; split <;> rfl
@[simp] theorem record_agenda (r code part core : Nat) (d0 d1 : Word) (s : State) : (record r code part core d0 d1 s).agenda = s.agenda := by
  unfold record onRecorder; split <;> rfl
@[simp] theorem record_turn (r code part core : Nat) (d0 d1 : Word) (s : State) : (record r code part core d0 d1 s).turn = s.turn := by
  unfold record onRecorder; split <;> rfl
@[simp] theorem record_freeCtr (r code part core : Nat) (d0 d1 : Word) (s : State) : (record r code part core d0 d1 s).freeCtr = s.freeCtr := by
  unfold record onRecorder; split <;> rfl
@[simp] theorem record_time (r code part core : Nat) (d0 d1 : Word) (s : State) : (record r code part core d0 d1 s).time = s.time := by
  unfold record onRecorder; split <;> rfl
@[simp] theorem record_powered (r code part core : Nat) (d0 d1 : Word) (s : State) : (record r code part core d0 d1 s).powered = s.powered := by
  unfold record onRecorder; split <;> rfl
@[simp] theorem record_layout (r code part core : Nat) (d0 d1 : Word) (s : State) : (record r code part core d0 d1 s).layout = s.layout := by
  unfold record onRecorder; split <;> rfl
@[simp] theorem record_mem (r code part core : Nat) (d0 d1 : Word) (s : State) : (record r code part core d0 d1 s).mem = s.mem := by
  unfold record onRecorder; split <;> rfl
@[simp] theorem record_badLines (r code part core : Nat) (d0 d1 : Word) (s : State) : (record r code part core d0 d1 s).badLines = s.badLines := by
  unfold record onRecorder; split <;> rfl
@[simp] theorem record_corrected (r code part core : Nat) (d0 d1 : Word) (s : State) : (record r code part core d0 d1 s).corrected = s.corrected := by
  unfold record onRecorder; split <;> rfl
@[simp] theorem record_dieLines (r code part core : Nat) (d0 d1 : Word) (s : State) : (record r code part core d0 d1 s).dieLines = s.dieLines := by
  unfold record onRecorder; split <;> rfl
@[simp] theorem record_partials (r code part core : Nat) (d0 d1 : Word) (s : State) : (record r code part core d0 d1 s).partials = s.partials := by
  unfold record onRecorder; split <;> rfl
@[simp] theorem record_detTags (r code part core : Nat) (d0 d1 : Word) (s : State) : (record r code part core d0 d1 s).detTags = s.detTags := by
  unfold record onRecorder; split <;> rfl
@[simp] theorem record_foreignMarks (r code part core : Nat) (d0 d1 : Word) (s : State) : (record r code part core d0 d1 s).foreignMarks = s.foreignMarks := by
  unfold record onRecorder; split <;> rfl
@[simp] theorem record_owned (r code part core : Nat) (d0 d1 : Word) (s : State) : (record r code part core d0 d1 s).owned = s.owned := by
  unfold record onRecorder; split <;> rfl
@[simp] theorem record_hostLines (r code part core : Nat) (d0 d1 : Word) (s : State) : (record r code part core d0 d1 s).hostLines = s.hostLines := by
  unfold record onRecorder; split <;> rfl
@[simp] theorem record_hostWaits (r code part core : Nat) (d0 d1 : Word) (s : State) : (record r code part core d0 d1 s).hostWaits = s.hostWaits := by
  unfold record onRecorder; split <;> rfl
@[simp] theorem record_clusters (r code part core : Nat) (d0 d1 : Word) (s : State) : (record r code part core d0 d1 s).clusters = s.clusters := by
  unfold record onRecorder; split <;> rfl
@[simp] theorem record_parts (r code part core : Nat) (d0 d1 : Word) (s : State) : (record r code part core d0 d1 s).parts = s.parts := by
  unfold record onRecorder; split <;> rfl
@[simp] theorem record_funcs (r code part core : Nat) (d0 d1 : Word) (s : State) : (record r code part core d0 d1 s).funcs = s.funcs := by
  unfold record onRecorder; split <;> rfl
@[simp] theorem record_banks (r code part core : Nat) (d0 d1 : Word) (s : State) : (record r code part core d0 d1 s).banks = s.banks := by
  unfold record onRecorder; split <;> rfl
@[simp] theorem record_wakes (r code part core : Nat) (d0 d1 : Word) (s : State) : (record r code part core d0 d1 s).wakes = s.wakes := by
  unfold record onRecorder; split <;> rfl
@[simp] theorem record_wakeQueue (r code part core : Nat) (d0 d1 : Word) (s : State) : (record r code part core d0 d1 s).wakeQueue = s.wakeQueue := by
  unfold record onRecorder; split <;> rfl
@[simp] theorem record_flows (r code part core : Nat) (d0 d1 : Word) (s : State) : (record r code part core d0 d1 s).flows = s.flows := by
  unfold record onRecorder; split <;> rfl
@[simp] theorem record_sleepers (r code part core : Nat) (d0 d1 : Word) (s : State) : (record r code part core d0 d1 s).sleepers = s.sleepers := by
  unfold record onRecorder; split <;> rfl
@[simp] theorem record_remotes (r code part core : Nat) (d0 d1 : Word) (s : State) : (record r code part core d0 d1 s).remotes = s.remotes := by
  unfold record onRecorder; split <;> rfl
@[simp] theorem record_posts (r code part core : Nat) (d0 d1 : Word) (s : State) : (record r code part core d0 d1 s).posts = s.posts := by
  unfold record onRecorder; split <;> rfl
@[simp] theorem record_answers (r code part core : Nat) (d0 d1 : Word) (s : State) : (record r code part core d0 d1 s).answers = s.answers := by
  unfold record onRecorder; split <;> rfl
@[simp] theorem record_thrs (r code part core : Nat) (d0 d1 : Word) (s : State) : (record r code part core d0 d1 s).thrs = s.thrs := by
  unfold record onRecorder; split <;> rfl
@[simp] theorem record_msgs (r code part core : Nat) (d0 d1 : Word) (s : State) : (record r code part core d0 d1 s).msgs = s.msgs := by
  unfold record onRecorder; split <;> rfl
@[simp] theorem record_hwork (r code part core : Nat) (d0 d1 : Word) (s : State) : (record r code part core d0 d1 s).hwork = s.hwork := by
  unfold record onRecorder; split <;> rfl

/-! ### The core in focus -/

@[simp] theorem curCtx_onCur (f : Ctx → Ctx) (s : State) : curCtx (onCur f s) = f (curCtx s) := by
  have h : curIdx (onCur f s) = curIdx s := by simp [curIdx, onCur]
  rw [curCtx, h]
  simp [onCur]

@[simp] theorem curIdx_onCur (f : Ctx → Ctx) (s : State) : curIdx (onCur f s) = curIdx s := by simp [curIdx, onCur]

@[simp] theorem onCur_core_phys (f : Ctx → Ctx) (s : State) : (onCur f s).core.phys = s.core.phys := putCtx_phys _ _ _
@[simp] theorem onCur_core_part (f : Ctx → Ctx) (s : State) : (onCur f s).core.part = s.core.part := putCtx_part _ _ _
@[simp] theorem onCur_core_serves (f : Ctx → Ctx) (s : State) : (onCur f s).core.serves = s.core.serves := putCtx_serves _ _ _
@[simp] theorem onCur_core_cur (f : Ctx → Ctx) (s : State) : (onCur f s).core.cur = s.core.cur := putCtx_cur _ _ _
@[simp] theorem onCur_core_last (f : Ctx → Ctx) (s : State) : (onCur f s).core.last = s.core.last := putCtx_last _ _ _
@[simp] theorem onCur_core_ages (f : Ctx → Ctx) (s : State) : (onCur f s).core.ages = s.core.ages := putCtx_ages _ _ _
@[simp] theorem onCur_core_tvec (f : Ctx → Ctx) (s : State) : (onCur f s).core.tvec = s.core.tvec := putCtx_tvec _ _ _
@[simp] theorem onCur_core_task (f : Ctx → Ctx) (s : State) : (onCur f s).core.task = s.core.task := putCtx_task _ _ _
@[simp] theorem onCur_core_lcore (f : Ctx → Ctx) (s : State) : (onCur f s).core.lcore = s.core.lcore := putCtx_lcore _ _ _
@[simp] theorem onCur_core_grank (f : Ctx → Ctx) (s : State) : (onCur f s).core.grank = s.core.grank := putCtx_grank _ _ _
@[simp] theorem onCur_core_gsize (f : Ctx → Ctx) (s : State) : (onCur f s).core.gsize = s.core.gsize := putCtx_gsize _ _ _
@[simp] theorem onCur_core_groupid (f : Ctx → Ctx) (s : State) : (onCur f s).core.groupid = s.core.groupid := putCtx_groupid _ _ _
@[simp] theorem onCur_core_cycle (f : Ctx → Ctx) (s : State) : (onCur f s).core.cycle = s.core.cycle := putCtx_cycle _ _ _
@[simp] theorem onCur_core_retired (f : Ctx → Ctx) (s : State) : (onCur f s).core.retired = s.core.retired := putCtx_retired _ _ _
@[simp] theorem onCur_core_wdog (f : Ctx → Ctx) (s : State) : (onCur f s).core.wdog = s.core.wdog := putCtx_wdog _ _ _
@[simp] theorem onCur_core_qnt (f : Ctx → Ctx) (s : State) : (onCur f s).core.qnt = s.core.qnt := putCtx_qnt _ _ _
@[simp] theorem onCur_core_duty (f : Ctx → Ctx) (s : State) : (onCur f s).core.duty = s.core.duty := putCtx_duty _ _ _
@[simp] theorem onCur_core_bwphase (f : Ctx → Ctx) (s : State) : (onCur f s).core.bwphase = s.core.bwphase := putCtx_bwphase _ _ _
@[simp] theorem onCur_core_seed (f : Ctx → Ctx) (s : State) : (onCur f s).core.seed = s.core.seed := putCtx_seed _ _ _
@[simp] theorem onCur_core_nbstat (f : Ctx → Ctx) (s : State) : (onCur f s).core.nbstat = s.core.nbstat := putCtx_nbstat _ _ _
@[simp] theorem onCur_core_saveptr (f : Ctx → Ctx) (s : State) : (onCur f s).core.saveptr = s.core.saveptr := putCtx_saveptr _ _ _
@[simp] theorem onCur_core_fw (f : Ctx → Ctx) (s : State) : (onCur f s).core.fw = s.core.fw := putCtx_fw _ _ _
@[simp] theorem onCur_core_run (f : Ctx → Ctx) (s : State) : (onCur f s).core.run = s.core.run := putCtx_run _ _ _
@[simp] theorem onCur_core_resume (f : Ctx → Ctx) (s : State) : (onCur f s).core.resume = s.core.resume := putCtx_resume _ _ _
@[simp] theorem onCur_core_kept (f : Ctx → Ctx) (s : State) : (onCur f s).core.kept = s.core.kept := putCtx_kept _ _ _
@[simp] theorem onCur_core_frames (f : Ctx → Ctx) (s : State) : (onCur f s).core.frames = s.core.frames := putCtx_frames _ _ _
@[simp] theorem onCur_core_victims (f : Ctx → Ctx) (s : State) : (onCur f s).core.victims = s.core.victims := putCtx_victims _ _ _
@[simp] theorem onCur_core_acc (f : Ctx → Ctx) (s : State) : (onCur f s).core.acc = s.core.acc := putCtx_acc _ _ _
@[simp] theorem onCur_core_steps (f : Ctx → Ctx) (s : State) : (onCur f s).core.steps = s.core.steps := putCtx_steps _ _ _
@[simp] theorem onCur_core_mxq (f : Ctx → Ctx) (s : State) : (onCur f s).core.mxq = s.core.mxq := putCtx_mxq _ _ _
@[simp] theorem onCur_core_sliceq (f : Ctx → Ctx) (s : State) : (onCur f s).core.sliceq = s.core.sliceq := putCtx_sliceq _ _ _
@[simp] theorem onCur_core_sliceIds (f : Ctx → Ctx) (s : State) : (onCur f s).core.sliceIds = s.core.sliceIds := putCtx_sliceIds _ _ _
@[simp] theorem onCur_core_tile (f : Ctx → Ctx) (s : State) : (onCur f s).core.tile = s.core.tile := putCtx_tile _ _ _
@[simp] theorem onCur_core_vcq (f : Ctx → Ctx) (s : State) : (onCur f s).core.vcq = s.core.vcq := putCtx_vcq _ _ _
@[simp] theorem onCur_core_vxq (f : Ctx → Ctx) (s : State) : (onCur f s).core.vxq = s.core.vxq := putCtx_vxq _ _ _
@[simp] theorem onCur_core_copyq (f : Ctx → Ctx) (s : State) : (onCur f s).core.copyq = s.core.copyq := putCtx_copyq _ _ _
@[simp] theorem onCur_core_owes (f : Ctx → Ctx) (s : State) : (onCur f s).core.owes = s.core.owes := putCtx_owes _ _ _
@[simp] theorem onCur_core_chans (f : Ctx → Ctx) (s : State) : (onCur f s).core.chans = s.core.chans := putCtx_chans _ _ _
@[simp] theorem onCur_core_rings (f : Ctx → Ctx) (s : State) : (onCur f s).core.rings = s.core.rings := putCtx_rings _ _ _
@[simp] theorem onCur_core_hreqs (f : Ctx → Ctx) (s : State) : (onCur f s).core.hreqs = s.core.hreqs := putCtx_hreqs _ _ _
@[simp] theorem onCur_core_inbox (f : Ctx → Ctx) (s : State) : (onCur f s).core.inbox = s.core.inbox := putCtx_inbox _ _ _
@[simp] theorem onCur_core_setAside (f : Ctx → Ctx) (s : State) : (onCur f s).core.setAside = s.core.setAside := putCtx_setAside _ _ _
@[simp] theorem onCur_core_allocs (f : Ctx → Ctx) (s : State) : (onCur f s).core.allocs = s.core.allocs := putCtx_allocs _ _ _
@[simp] theorem onCur_core_stash (f : Ctx → Ctx) (s : State) : (onCur f s).core.stash = s.core.stash := putCtx_stash _ _ _
@[simp] theorem onCur_core_stashLines (f : Ctx → Ctx) (s : State) : (onCur f s).core.stashLines = s.core.stashLines := putCtx_stashLines _ _ _
@[simp] theorem onCur_core_recs (f : Ctx → Ctx) (s : State) : (onCur f s).core.recs = s.core.recs := putCtx_recs _ _ _
@[simp] theorem onCur_core_tlb (f : Ctx → Ctx) (s : State) : (onCur f s).core.tlb = s.core.tlb := putCtx_tlb _ _ _
@[simp] theorem onCur_core_itlb (f : Ctx → Ctx) (s : State) : (onCur f s).core.itlb = s.core.itlb := putCtx_itlb _ _ _
@[simp] theorem onCur_core_l1d (f : Ctx → Ctx) (s : State) : (onCur f s).core.l1d = s.core.l1d := putCtx_l1d _ _ _
@[simp] theorem onCur_core_icache (f : Ctx → Ctx) (s : State) : (onCur f s).core.icache = s.core.icache := putCtx_icache _ _ _
@[simp] theorem onCur_core_pend (f : Ctx → Ctx) (s : State) : (onCur f s).core.pend = s.core.pend := putCtx_pend _ _ _
@[simp] theorem onCur_core_upd (f : Ctx → Ctx) (s : State) : (onCur f s).core.upd = s.core.upd := putCtx_upd _ _ _
@[simp] theorem onCur_core_txn (f : Ctx → Ctx) (s : State) : (onCur f s).core.txn = s.core.txn := putCtx_txn _ _ _
@[simp] theorem onCur_core_deque (f : Ctx → Ctx) (s : State) : (onCur f s).core.deque = s.core.deque := putCtx_deque _ _ _
@[simp] theorem onCur_core_held (f : Ctx → Ctx) (s : State) : (onCur f s).core.held = s.core.held := putCtx_held _ _ _
@[simp] theorem onCur_core_atBarrier (f : Ctx → Ctx) (s : State) : (onCur f s).core.atBarrier = s.core.atBarrier := putCtx_atBarrier _ _ _
@[simp] theorem onCur_core_rwrs (f : Ctx → Ctx) (s : State) : (onCur f s).core.rwrs = s.core.rwrs := putCtx_rwrs _ _ _
@[simp] theorem onCur_core_yield (f : Ctx → Ctx) (s : State) : (onCur f s).core.yield = s.core.yield := putCtx_yield _ _ _
@[simp] theorem onCur_core_grace (f : Ctx → Ctx) (s : State) : (onCur f s).core.grace = s.core.grace := putCtx_grace _ _ _
@[simp] theorem onCur_core_slice (f : Ctx → Ctx) (s : State) : (onCur f s).core.slice = s.core.slice := putCtx_slice _ _ _
@[simp] theorem onCur_core_sliceFrom (f : Ctx → Ctx) (s : State) : (onCur f s).core.sliceFrom = s.core.sliceFrom := putCtx_sliceFrom _ _ _
@[simp] theorem onCur_core_freq (f : Ctx → Ctx) (s : State) : (onCur f s).core.freq = s.core.freq := putCtx_freq _ _ _
@[simp] theorem onCur_core_busyPrev (f : Ctx → Ctx) (s : State) : (onCur f s).core.busyPrev = s.core.busyPrev := putCtx_busyPrev _ _ _
@[simp] theorem onCur_core_demand (f : Ctx → Ctx) (s : State) : (onCur f s).core.demand = s.core.demand := putCtx_demand _ _ _

@[simp] theorem onCur_core_pace (f : Ctx → Ctx) (s : State) : (onCur f s).core.pace = s.core.pace := putCtx_pace _ _ _

/-! ### An instruction that completes -/

@[simp] theorem curIdx_noteTurn (s : State) : curIdx (noteTurn s) = curIdx s := by
  unfold noteTurn; dsimp only; split <;> rfl

@[simp] theorem curCtx_noteTurn (s : State) : curCtx (noteTurn s) = curCtx s := by
  unfold noteTurn; dsimp only; split <;> rfl

theorem curCtx_retire (f : InstrInfo) (s : State) : curCtx (retire f s) =
    { (if f.pfx = 0 then curCtx s else clearPfx (curCtx s)) with await := .nothing, stalled := false, party := false } := by
  have h := curCtx_onCur (fun x =>
    { (if f.pfx = 0 then x else clearPfx x) with await := .nothing, stalled := false, party := false }) (noteTurn s)
  rw [curCtx_noteTurn] at h
  rw [← h]; rfl

@[simp] theorem curIdx_retire (f : InstrInfo) (s : State) : curIdx (retire f s) = curIdx s := by
  have h := curIdx_onCur (fun x =>
    { (if f.pfx = 0 then x else clearPfx x) with await := .nothing, stalled := false, party := false }) (noteTurn s)
  rw [curIdx_noteTurn] at h
  rw [← h]; rfl

@[simp] theorem curCtx_retire_regs (f : InstrInfo) (s : State) : (curCtx (retire f s)).regs = (curCtx s).regs := by
  rw [curCtx_retire]; dsimp only; split <;> rfl

@[simp] theorem curCtx_retire_pres (f : InstrInfo) (s : State) : (curCtx (retire f s)).pres = (curCtx s).pres := by
  rw [curCtx_retire]; dsimp only; split <;> rfl

@[simp] theorem curCtx_retire_pc (f : InstrInfo) (s : State) : (curCtx (retire f s)).pc = (curCtx s).pc := by
  rw [curCtx_retire]; dsimp only; split <;> rfl

@[simp] theorem curCtx_retire_fflags (f : InstrInfo) (s : State) : (curCtx (retire f s)).fflags = (curCtx s).fflags := by
  rw [curCtx_retire]; dsimp only; split <;> rfl

@[simp] theorem retire_core_phys (i : InstrInfo) (s : State) : (retire i s).core.phys = s.core.phys := by
  refine (onCur_core_phys _ (noteTurn s)).trans ?_; unfold noteTurn; dsimp only; split <;> rfl
@[simp] theorem retire_core_part (i : InstrInfo) (s : State) : (retire i s).core.part = s.core.part := by
  refine (onCur_core_part _ (noteTurn s)).trans ?_; unfold noteTurn; dsimp only; split <;> rfl
@[simp] theorem retire_core_serves (i : InstrInfo) (s : State) : (retire i s).core.serves = s.core.serves := by
  refine (onCur_core_serves _ (noteTurn s)).trans ?_; unfold noteTurn; dsimp only; split <;> rfl
@[simp] theorem retire_core_cur (i : InstrInfo) (s : State) : (retire i s).core.cur = s.core.cur := by
  refine (onCur_core_cur _ (noteTurn s)).trans ?_; unfold noteTurn; dsimp only; split <;> rfl
@[simp] theorem retire_core_ages (i : InstrInfo) (s : State) : (retire i s).core.ages = s.core.ages := by
  refine (onCur_core_ages _ (noteTurn s)).trans ?_; unfold noteTurn; dsimp only; split <;> rfl
@[simp] theorem retire_core_tvec (i : InstrInfo) (s : State) : (retire i s).core.tvec = s.core.tvec := by
  refine (onCur_core_tvec _ (noteTurn s)).trans ?_; unfold noteTurn; dsimp only; split <;> rfl
@[simp] theorem retire_core_task (i : InstrInfo) (s : State) : (retire i s).core.task = s.core.task := by
  refine (onCur_core_task _ (noteTurn s)).trans ?_; unfold noteTurn; dsimp only; split <;> rfl
@[simp] theorem retire_core_lcore (i : InstrInfo) (s : State) : (retire i s).core.lcore = s.core.lcore := by
  refine (onCur_core_lcore _ (noteTurn s)).trans ?_; unfold noteTurn; dsimp only; split <;> rfl
@[simp] theorem retire_core_grank (i : InstrInfo) (s : State) : (retire i s).core.grank = s.core.grank := by
  refine (onCur_core_grank _ (noteTurn s)).trans ?_; unfold noteTurn; dsimp only; split <;> rfl
@[simp] theorem retire_core_gsize (i : InstrInfo) (s : State) : (retire i s).core.gsize = s.core.gsize := by
  refine (onCur_core_gsize _ (noteTurn s)).trans ?_; unfold noteTurn; dsimp only; split <;> rfl
@[simp] theorem retire_core_groupid (i : InstrInfo) (s : State) : (retire i s).core.groupid = s.core.groupid := by
  refine (onCur_core_groupid _ (noteTurn s)).trans ?_; unfold noteTurn; dsimp only; split <;> rfl
@[simp] theorem retire_core_cycle (i : InstrInfo) (s : State) : (retire i s).core.cycle = s.core.cycle := by
  refine (onCur_core_cycle _ (noteTurn s)).trans ?_; unfold noteTurn; dsimp only; split <;> rfl
@[simp] theorem retire_core_wdog (i : InstrInfo) (s : State) : (retire i s).core.wdog = s.core.wdog := by
  refine (onCur_core_wdog _ (noteTurn s)).trans ?_; unfold noteTurn; dsimp only; split <;> rfl
@[simp] theorem retire_core_duty (i : InstrInfo) (s : State) : (retire i s).core.duty = s.core.duty := by
  refine (onCur_core_duty _ (noteTurn s)).trans ?_; unfold noteTurn; dsimp only; split <;> rfl
@[simp] theorem retire_core_bwphase (i : InstrInfo) (s : State) : (retire i s).core.bwphase = s.core.bwphase := by
  refine (onCur_core_bwphase _ (noteTurn s)).trans ?_; unfold noteTurn; dsimp only; split <;> rfl
@[simp] theorem retire_core_seed (i : InstrInfo) (s : State) : (retire i s).core.seed = s.core.seed := by
  refine (onCur_core_seed _ (noteTurn s)).trans ?_; unfold noteTurn; dsimp only; split <;> rfl
@[simp] theorem retire_core_nbstat (i : InstrInfo) (s : State) : (retire i s).core.nbstat = s.core.nbstat := by
  refine (onCur_core_nbstat _ (noteTurn s)).trans ?_; unfold noteTurn; dsimp only; split <;> rfl
@[simp] theorem retire_core_saveptr (i : InstrInfo) (s : State) : (retire i s).core.saveptr = s.core.saveptr := by
  refine (onCur_core_saveptr _ (noteTurn s)).trans ?_; unfold noteTurn; dsimp only; split <;> rfl
@[simp] theorem retire_core_fw (i : InstrInfo) (s : State) : (retire i s).core.fw = s.core.fw := by
  refine (onCur_core_fw _ (noteTurn s)).trans ?_; unfold noteTurn; dsimp only; split <;> rfl
@[simp] theorem retire_core_run (i : InstrInfo) (s : State) : (retire i s).core.run = s.core.run := by
  refine (onCur_core_run _ (noteTurn s)).trans ?_; unfold noteTurn; dsimp only; split <;> rfl
@[simp] theorem retire_core_resume (i : InstrInfo) (s : State) : (retire i s).core.resume = s.core.resume := by
  refine (onCur_core_resume _ (noteTurn s)).trans ?_; unfold noteTurn; dsimp only; split <;> rfl
@[simp] theorem retire_core_kept (i : InstrInfo) (s : State) : (retire i s).core.kept = s.core.kept := by
  refine (onCur_core_kept _ (noteTurn s)).trans ?_; unfold noteTurn; dsimp only; split <;> rfl
@[simp] theorem retire_core_frames (i : InstrInfo) (s : State) : (retire i s).core.frames = s.core.frames := by
  refine (onCur_core_frames _ (noteTurn s)).trans ?_; unfold noteTurn; dsimp only; split <;> rfl
@[simp] theorem retire_core_victims (i : InstrInfo) (s : State) : (retire i s).core.victims = s.core.victims := by
  refine (onCur_core_victims _ (noteTurn s)).trans ?_; unfold noteTurn; dsimp only; split <;> rfl
@[simp] theorem retire_core_acc (i : InstrInfo) (s : State) : (retire i s).core.acc = s.core.acc := by
  refine (onCur_core_acc _ (noteTurn s)).trans ?_; unfold noteTurn; dsimp only; split <;> rfl
@[simp] theorem retire_core_steps (i : InstrInfo) (s : State) : (retire i s).core.steps = s.core.steps := by
  refine (onCur_core_steps _ (noteTurn s)).trans ?_; unfold noteTurn; dsimp only; split <;> rfl
@[simp] theorem retire_core_mxq (i : InstrInfo) (s : State) : (retire i s).core.mxq = s.core.mxq := by
  refine (onCur_core_mxq _ (noteTurn s)).trans ?_; unfold noteTurn; dsimp only; split <;> rfl
@[simp] theorem retire_core_sliceq (i : InstrInfo) (s : State) : (retire i s).core.sliceq = s.core.sliceq := by
  refine (onCur_core_sliceq _ (noteTurn s)).trans ?_; unfold noteTurn; dsimp only; split <;> rfl
@[simp] theorem retire_core_sliceIds (i : InstrInfo) (s : State) : (retire i s).core.sliceIds = s.core.sliceIds := by
  refine (onCur_core_sliceIds _ (noteTurn s)).trans ?_; unfold noteTurn; dsimp only; split <;> rfl
@[simp] theorem retire_core_tile (i : InstrInfo) (s : State) : (retire i s).core.tile = s.core.tile := by
  refine (onCur_core_tile _ (noteTurn s)).trans ?_; unfold noteTurn; dsimp only; split <;> rfl
@[simp] theorem retire_core_vcq (i : InstrInfo) (s : State) : (retire i s).core.vcq = s.core.vcq := by
  refine (onCur_core_vcq _ (noteTurn s)).trans ?_; unfold noteTurn; dsimp only; split <;> rfl
@[simp] theorem retire_core_vxq (i : InstrInfo) (s : State) : (retire i s).core.vxq = s.core.vxq := by
  refine (onCur_core_vxq _ (noteTurn s)).trans ?_; unfold noteTurn; dsimp only; split <;> rfl
@[simp] theorem retire_core_copyq (i : InstrInfo) (s : State) : (retire i s).core.copyq = s.core.copyq := by
  refine (onCur_core_copyq _ (noteTurn s)).trans ?_; unfold noteTurn; dsimp only; split <;> rfl
@[simp] theorem retire_core_owes (i : InstrInfo) (s : State) : (retire i s).core.owes = s.core.owes := by
  refine (onCur_core_owes _ (noteTurn s)).trans ?_; unfold noteTurn; dsimp only; split <;> rfl
@[simp] theorem retire_core_chans (i : InstrInfo) (s : State) : (retire i s).core.chans = s.core.chans := by
  refine (onCur_core_chans _ (noteTurn s)).trans ?_; unfold noteTurn; dsimp only; split <;> rfl
@[simp] theorem retire_core_rings (i : InstrInfo) (s : State) : (retire i s).core.rings = s.core.rings := by
  refine (onCur_core_rings _ (noteTurn s)).trans ?_; unfold noteTurn; dsimp only; split <;> rfl
@[simp] theorem retire_core_hreqs (i : InstrInfo) (s : State) : (retire i s).core.hreqs = s.core.hreqs := by
  refine (onCur_core_hreqs _ (noteTurn s)).trans ?_; unfold noteTurn; dsimp only; split <;> rfl
@[simp] theorem retire_core_inbox (i : InstrInfo) (s : State) : (retire i s).core.inbox = s.core.inbox := by
  refine (onCur_core_inbox _ (noteTurn s)).trans ?_; unfold noteTurn; dsimp only; split <;> rfl
@[simp] theorem retire_core_setAside (i : InstrInfo) (s : State) : (retire i s).core.setAside = s.core.setAside := by
  refine (onCur_core_setAside _ (noteTurn s)).trans ?_; unfold noteTurn; dsimp only; split <;> rfl
@[simp] theorem retire_core_allocs (i : InstrInfo) (s : State) : (retire i s).core.allocs = s.core.allocs := by
  refine (onCur_core_allocs _ (noteTurn s)).trans ?_; unfold noteTurn; dsimp only; split <;> rfl
@[simp] theorem retire_core_stash (i : InstrInfo) (s : State) : (retire i s).core.stash = s.core.stash := by
  refine (onCur_core_stash _ (noteTurn s)).trans ?_; unfold noteTurn; dsimp only; split <;> rfl
@[simp] theorem retire_core_stashLines (i : InstrInfo) (s : State) : (retire i s).core.stashLines = s.core.stashLines := by
  refine (onCur_core_stashLines _ (noteTurn s)).trans ?_; unfold noteTurn; dsimp only; split <;> rfl
@[simp] theorem retire_core_recs (i : InstrInfo) (s : State) : (retire i s).core.recs = s.core.recs := by
  refine (onCur_core_recs _ (noteTurn s)).trans ?_; unfold noteTurn; dsimp only; split <;> rfl
@[simp] theorem retire_core_tlb (i : InstrInfo) (s : State) : (retire i s).core.tlb = s.core.tlb := by
  refine (onCur_core_tlb _ (noteTurn s)).trans ?_; unfold noteTurn; dsimp only; split <;> rfl
@[simp] theorem retire_core_itlb (i : InstrInfo) (s : State) : (retire i s).core.itlb = s.core.itlb := by
  refine (onCur_core_itlb _ (noteTurn s)).trans ?_; unfold noteTurn; dsimp only; split <;> rfl
@[simp] theorem retire_core_l1d (i : InstrInfo) (s : State) : (retire i s).core.l1d = s.core.l1d := by
  refine (onCur_core_l1d _ (noteTurn s)).trans ?_; unfold noteTurn; dsimp only; split <;> rfl
@[simp] theorem retire_core_icache (i : InstrInfo) (s : State) : (retire i s).core.icache = s.core.icache := by
  refine (onCur_core_icache _ (noteTurn s)).trans ?_; unfold noteTurn; dsimp only; split <;> rfl
@[simp] theorem retire_core_pend (i : InstrInfo) (s : State) : (retire i s).core.pend = s.core.pend := by
  refine (onCur_core_pend _ (noteTurn s)).trans ?_; unfold noteTurn; dsimp only; split <;> rfl
@[simp] theorem retire_core_upd (i : InstrInfo) (s : State) : (retire i s).core.upd = s.core.upd := by
  refine (onCur_core_upd _ (noteTurn s)).trans ?_; unfold noteTurn; dsimp only; split <;> rfl
@[simp] theorem retire_core_txn (i : InstrInfo) (s : State) : (retire i s).core.txn = s.core.txn := by
  refine (onCur_core_txn _ (noteTurn s)).trans ?_; unfold noteTurn; dsimp only; split <;> rfl
@[simp] theorem retire_core_deque (i : InstrInfo) (s : State) : (retire i s).core.deque = s.core.deque := by
  refine (onCur_core_deque _ (noteTurn s)).trans ?_; unfold noteTurn; dsimp only; split <;> rfl
@[simp] theorem retire_core_held (i : InstrInfo) (s : State) : (retire i s).core.held = s.core.held := by
  refine (onCur_core_held _ (noteTurn s)).trans ?_; unfold noteTurn; dsimp only; split <;> rfl
@[simp] theorem retire_core_atBarrier (i : InstrInfo) (s : State) : (retire i s).core.atBarrier = s.core.atBarrier := by
  refine (onCur_core_atBarrier _ (noteTurn s)).trans ?_; unfold noteTurn; dsimp only; split <;> rfl
@[simp] theorem retire_core_rwrs (i : InstrInfo) (s : State) : (retire i s).core.rwrs = s.core.rwrs := by
  refine (onCur_core_rwrs _ (noteTurn s)).trans ?_; unfold noteTurn; dsimp only; split <;> rfl
@[simp] theorem retire_core_yield (i : InstrInfo) (s : State) : (retire i s).core.yield = s.core.yield := by
  refine (onCur_core_yield _ (noteTurn s)).trans ?_; unfold noteTurn; dsimp only; split <;> rfl
@[simp] theorem retire_core_grace (i : InstrInfo) (s : State) : (retire i s).core.grace = s.core.grace := by
  refine (onCur_core_grace _ (noteTurn s)).trans ?_; unfold noteTurn; dsimp only; split <;> rfl
@[simp] theorem retire_core_slice (i : InstrInfo) (s : State) : (retire i s).core.slice = s.core.slice := by
  refine (onCur_core_slice _ (noteTurn s)).trans ?_; unfold noteTurn; dsimp only; split <;> rfl
@[simp] theorem retire_core_sliceFrom (i : InstrInfo) (s : State) : (retire i s).core.sliceFrom = s.core.sliceFrom := by
  refine (onCur_core_sliceFrom _ (noteTurn s)).trans ?_; unfold noteTurn; dsimp only; split <;> rfl
@[simp] theorem retire_core_freq (i : InstrInfo) (s : State) : (retire i s).core.freq = s.core.freq := by
  refine (onCur_core_freq _ (noteTurn s)).trans ?_; unfold noteTurn; dsimp only; split <;> rfl
@[simp] theorem retire_core_busyPrev (i : InstrInfo) (s : State) : (retire i s).core.busyPrev = s.core.busyPrev := by
  refine (onCur_core_busyPrev _ (noteTurn s)).trans ?_; unfold noteTurn; dsimp only; split <;> rfl
@[simp] theorem retire_core_demand (i : InstrInfo) (s : State) : (retire i s).core.demand = s.core.demand := by
  refine (onCur_core_demand _ (noteTurn s)).trans ?_; unfold noteTurn; dsimp only; split <;> rfl

@[simp] theorem retire_core_pace (i : InstrInfo) (s : State) : (retire i s).core.pace = s.core.pace := by
  refine (onCur_core_pace _ (noteTurn s)).trans ?_; unfold noteTurn; dsimp only; split <;> rfl

/-! ### Registers -/

theorem putReg_self {n : Reg} (h : n ≠ 0) (v : Word) (x : Ctx) : (putReg n v x).regs[n] = v := by
  unfold putReg; rw [if_neg h]; simp

theorem putReg_other {n m : Reg} (h : m ≠ n) (v : Word) (x : Ctx) : (putReg n v x).regs[m] = x.regs[m] := by
  unfold putReg
  split
  · rfl
  · exact Vector.getElem_set_ne n.isLt m.isLt (fun e => h (Fin.ext e.symm))

@[simp] theorem putReg_pc (n : Reg) (v : Word) (x : Ctx) : (putReg n v x).pc = x.pc := by unfold putReg; split <;> rfl

@[simp] theorem putReg_status (n : Reg) (v : Word) (x : Ctx) : (putReg n v x).status = x.status := by unfold putReg; split <;> rfl

@[simp] theorem putReg_fflags (n : Reg) (v : Word) (x : Ctx) : (putReg n v x).fflags = x.fflags := by unfold putReg; split <;> rfl

@[simp] theorem putReg_prods (n : Reg) (v : Word) (x : Ctx) : (putReg n v x).prods = x.prods := by unfold putReg; split <;> rfl

theorem regVal_zero (s : State) : regVal s 0 = 0 := rfl

end Sys2Proof.Machine
end

