-- ==== Sys2Proof/Tests/Slice0.lean ====
section
/-!
SUPPORT. Tests on fixed values. The words are written out from the field tables of the spec and the worked words of R57 and
R165; the results of the instruction tests are worked by hand from the rules named. The theorems test_witness_… show, for each
statement with premises, states and operands that meet them, clause by clause, and that the instruction runs there.
-/

namespace Sys2Proof.Tests

open Sys2Proof Sys2Proof.Machine Sys2Proof.Safety

set_option maxRecDepth 100000
set_option Elab.async false

/-! ### How the tests speak -/

/-- Every one of a list of checks holds. -/
def all (l : List Bool) : Bool := l.all id

/-- An instruction gives a next state, of which a check holds. -/
def runs (i : Instr) (s : State) (p : State → Bool) : Bool :=
  match exec i s with
  | .next t => p t
  | _ => false

/-- A step gives a next state, of which a check holds. -/
def steps (s : State) (p : State → Bool) : Bool :=
  match step s with
  | .next t => p t
  | _ => false

/-- An action gives a value and a state, of which a check holds. -/
def gives {α : Type} (r : EStateM.Result Stop State α) (p : α → State → Bool) : Bool :=
  match r with
  | .ok a t => p a t
  | .error _ _ => false

/-- What gives says: there are a value and a state that meet the premise of a statement that names them. -/
theorem gives_iff {α : Type} {r : EStateM.Result Stop State α} {p : α → State → Bool} :
    gives r p = true ↔ ∃ a t, r = .ok a t ∧ p a t = true := by
  cases r <;> simp [gives]

/-- The instruction has a frame, and may issue. -/
def issues (i : Instr) (s : State) : Bool := (frameOf i).any (fun f => decide (MayIssue f s))

/-- The instruction has a frame, and stops at a check before its own effect. -/
def checked (i : Instr) (s : State) : Bool := (frameOf i).any (fun f => (firstCheck f s).isSome)

/-- Registers can be read. -/
def readable (s : State) (l : List Reg) : Bool := l.all (fun n => decide (Readable s n))

/-- Registers can be written. -/
def writable (s : State) (l : List Reg) : Bool := l.all (fun n => decide (Writable s n))

/-- The premise Plain as a check. -/
def plain (s : State) : Bool :=
  s.core.txn.isNone && !detMode s && s.core.pend.isEmpty && s.core.vxq.isEmpty && s.core.stash.isEmpty &&
    (clusterAt s (clusterOf s.core.phys)).mons.all (fun u => !u.config.getLsbD 0)

theorem plain_iff (s : State) : plain s = true ↔ Plain s := by
  constructor
  · intro h
    simp [plain] at h
    obtain ⟨⟨⟨⟨⟨h1, h2⟩, h3⟩, h4⟩, h5⟩, h6⟩ := h
    exact ⟨h1, h2, h3, h4, h5, by simpa using h6⟩
  · rintro ⟨h1, h2, h3, h4, h5, h6⟩
    simp at h6
    simp [plain, h1, h2, h3, h4, h5, h6]

/-- The premise Settled as a check. -/
def settled (s : State) (sc : Scope) : Bool := accessesDone s s.core.phys (curIdx s) sc && enginesDone s s.core.phys (curIdx s)

/-- The premise Quiet as a check. -/
def quiet (s : State) : Bool :=
  (curCtx s).prods.isEmpty && (curCtx s).locks.isEmpty && enginesDone s s.core.phys (curIdx s) && chansQuiet s.core && coreDone s s.core

/-- The premise AtRest as a check. -/
def atRest (s : State) : Bool := quiet s && !helpersLive s.core

/-- A state's pc. -/
def pcOf (s : State) : Word := (curCtx s).pc

/-- An address of the own window. -/
def own (o : Nat) : Word := 0xFFFE000000000000 + BitVec.ofNat 64 o

/-- The state with values in registers of the context that issues. -/
def withRegs (l : List (Reg × Word)) (s : State) : State := l.foldl (fun s p => setReg p.1 p.2 s) s

/-- The state with bytes in the task's local store. -/
def withBytes (o : Nat) (b : List Byte) (s : State) : State :=
  { s with core := { s.core with allocs := s.core.allocs.map (fun a => { a with mem := memWrite a.mem o b }) } }

/-- The bytes of a record: dwords in order. -/
def dwords (l : List Nat) : List Byte := l.flatMap (leBytes 8)

/-- A task of partition 0 on core 1, about to fetch a word at address 0, with a local store of 64 KiB, its save area in it; its data
accesses translate as its fetches do. -/
def taskWith (w : Nat) : State :=
  let s := State.reset.withFetchWord 32 w
  { s with core := { s.core with tlb := s.core.itlb, allocs := [⟨0, 1, 0, 0x10000, [], []⟩], saveptr := own 0x4000, tvec := 0x200, gsize := 1 } }

/-- The same with a word that no test looks at. -/
def plainTask : State := taskWith 0

/-- The same with another status, its privilege in bits 9:8. -/
def withStatus (v : Word) (s : State) : State := onCur (fun x => { x with status := v }) s

/-- The same with an empty register. -/
def withEmpty (n : Reg) (s : State) : State := onCur (fun x => { x with pres := x.pres &&& ~~~(1#32 <<< n.val) }) s

/-- The same with a value on its way to a register. -/
def withProducer (n : Reg) (s : State) : State := produce n 0x55 0 false s

/-! ### Witnesses -/

theorem test_witness_steps : all [
    (let s := taskWith 0x00080483
     s.agenda.isEmpty && s.powered && (choose s matches .issue 1) && gives (fetchHalf (curAgent s) (pcOf s) s) (fun b s1 =>
       leNat b % 2 == 1 && gives (fetchHalf (curAgent s) (pcOf s + 2) s1) (fun b2 _ =>
         decode (b ++ b2) matches .ok (.addi 9 0 false 2, _)))),
    (let s := taskWith 0x00080483
     s.core.resume.isNone && pickCtx s.core == some 0 && ctxRef 0 == s.core.cur && !gatedOff s.core && (ctxOf s.core 0).entering.isNone &&
       (boundaryTrap s.core 0).isNone && (curCtx s).standing.isNone && (dueError (.addi 9 0 false 2) (atStart s)).isNone),
    (let s := onCur (fun x => { x with prods := [⟨9, 0, 0x800, none, true, true⟩] }) (taskWith 0x00080483)
     pickCtx s.core == some 0 && !gatedOff s.core && (boundaryTrap s.core 0).isNone &&
       (dueError (.addi 9 0 false 2) (atStart s)).any (fun e => e.reg == 9 && e.addr == 0x800) &&
       steps s (fun t => (curCtx t).cause == 0x17 && (curCtx t).eval == 0x800 && (curCtx t).einfo == 9 && (curCtx t).epc == 0)),
    steps (taskWith 0x00080483) (fun t => pcOf t == 4 && regVal t 9 == 2),
    (let s := { plainTask with agenda := [.event (.fatalError 4)] }
     runs (.fatalError 4) s (fun _ => true) && steps s (fun t => t.io.bb.frozen))] = true := by decide +kernel

theorem test_witness_checks : all [
    checked .eret plainTask && runs .eret plainTask (fun t => (curCtx t).cause == 3 && pcOf t == 0x200),
    checked (.add 1 2 3 false false) (withStatus 1 (onCur (fun x => { x with fmt := 1 }) plainTask)),
    checked (.tlbinv 1 2 false false) plainTask,
    checked .tsfence { plainTask with core := { plainTask.core with txn := some ⟨curCtx plainTask, 0, 1, [], [], [], [], []⟩ } }] = true := by
  decide +kernel

theorem test_witness_operands : all [
    (let s := withEmpty 3 plainTask
     let i : Instr := .add 1 2 3 true false
     issues i s && readable s [2] && !regPresent s 3 && !regPending s 3 && operandsOf i == [(2, true), (3, false)] &&
       runs i s (fun t => (curCtx t).cause == 4 && (curCtx t).eval == 3)),
    (let s := withProducer 3 plainTask
     let i : Instr := .add 1 2 3 false true
     issues i s && readable s [2] && !regPresent s 3 && regPending s 3 && runs i s (fun t => pcOf t == 0 && (curCtx t).stalled)),
    (let s := withEmpty 3 plainTask
     let i : Instr := .add 1 2 3 false true
     issues i s && (curCtx s).await == .nothing && s.core.copyq.isEmpty && readable s [2] && !regPresent s 3 && !regPending s 3 && operandsOf i == [(2, false), (3, true)] &&
       runs i s (fun t => pcOf t == 0 && (curCtx t).stalled))] = true := by
  decide +kernel

theorem test_witness_registers : all [
    (let s := withRegs [(2, 7), (3, 0xFFFFFFFFFFFFFFFE)] plainTask
     let i : Instr := .mulh 1 2 3 false false
     issues i s && readable s [2, 3] && writable s [1, 0] && runs i s (fun t => regVal t 1 == 0xFFFFFFFFFFFFFFFF && pcOf t == 4)),
    (let s := withRegs [(2, 0x3F800000), (3, 0x40000000)] plainTask
     let i : Instr := .fadd 1 2 3 false false
     issues i s && readable s [2, 3] && writable s [1] && runs i s (fun t => regVal t 1 == 0x40400000)),
    (let s := withRegs [(2, 7), (3, 8)] plainTask
     let i : Instr := .bltn 2 3 false 0x7FF
     issues i s && readable s [2, 3] && runs i s (fun t => pcOf t == 0xFFE)),
    (let s := withRegs [(9, 0x1001)] plainTask
     issues (.jal 1 8) s && writable s [1] && runs (.jal 1 8) s (fun t => pcOf t == 0x10 && regVal t 1 == 4) &&
       readable s [9] && writable s [9] && runs (.jalr 9 9 false 0x3FFF) s (fun t => pcOf t == 0x1000 && regVal t 9 == 4))] = true := by
  decide +kernel

theorem test_witness_control_registers : all [
    issues (.mfc 1 0x801) plainTask && runs (.mfc 1 0x801) plainTask (fun t => (curCtx t).cause == 3),
    (ctlAccess 0x7FF).isNone && runs (.mfc 1 0x7FF) plainTask (fun t => (curCtx t).cause == 2),
    writable plainTask [1] && !chansWait plainTask 0 && (ctlAccess 0).isSome && runs (.mfc 1 0) (withStatus 2 plainTask) (fun t => regVal t 1 == 2),
    runs (.mfc 1 0x801) (withStatus 0x200 plainTask) (fun t => pcOf t == 4),
    readable plainTask [9] && runs (.mtc 0x801 9 false) plainTask (fun t => (curCtx t).cause == 3),
    runs (.mtc 0x7FF 9 false) plainTask (fun t => (curCtx t).cause == 2),
    decide (ctlAccess 0x006 = some .ro) && runs (.mtc 0x006 9 false) plainTask (fun t => (curCtx t).cause == 3),
    decide (ctlAccess 0x005 = some .rt) && runs (.mtc 0x005 9 false) plainTask (fun t => (curCtx t).cause == 3),
    (let s : State := { plainTask with core := { plainTask.core with cur := some 2 } }
     decide (ctlAccess 0x013 = some .rw) && isHelper s && runs (.mtc 0x013 9 false) s (fun t => t.core.bwphase == s.core.bwphase)),
    (let s := withRegs [(9, 0x1E)] plainTask
     decide (ctlAccess 0 = some .rw) && !ctlRange s 0 0x1E && runs (.mtc 0 9 false) s (fun t => (curCtx t).cause == 2)),
    (let s := withRegs [(9, 3)] plainTask
     ctlRange s 0x013 3 && runs (.mtc 0x013 9 false) s (fun t => t.core.bwphase == 3)),
    (let s := withStatus 0x100 (withRegs [(9, 0x40)] plainTask)
     ctlRange s 0x005 0x40 && runs (.mtc 0x005 9 false) s (fun t => t.core.tvec == 0x40)),
    issues (.fmtp 0x400000) plainTask && runs (.fmtp 0x400000) plainTask (fun t => (curCtx t).fmt == 0x400000 && hasPfx (curCtx t)),
    runs (.fmtp 0x1C00000) plainTask (fun t => (curCtx t).cause == 1) && runs (.fmtp 0x1000) plainTask (fun t => (curCtx t).cause == 2)]
    = true := by decide +kernel

theorem test_witness_presence : all [
    issues (.feclr 5) plainTask && writable plainTask [5, 0] && runs (.feclr 5) plainTask (fun t => !regPresent t 5) &&
      runs (.feclr 0) plainTask (fun t => regPresent t 0),
    runs (.feset 5) (withEmpty 5 plainTask) (fun t => regPresent t 5),
    runs (.fetst 1 5) (withEmpty 5 (withRegs [(1, 9)] plainTask)) (fun t => regVal t 1 == 0),
    (let s := withRegs [(1, 1), (2, 77)] plainTask
     readable s [1, 2] && (partAt s 0).any (fun p => p.ranks.length ≤ 1) && runs (.rwr 6 1 2 false false) s (fun t => (curCtx t).cause == 9)),
    (let s := withRegs [(2, 77)] plainTask
     (partAt s 0).any (fun p => physOf p 0 == some 1 && !quantumRules p) && settled s (Machine.scopeOf 1 1) && inboxFree s 0 0 1 &&
       runs (.rwr 6 1 2 false false) s (fun t => t.remotes == [⟨0, 0, 1, 0, 0, 6, 77⟩] && pcOf t == 4))] = true := by decide +kernel

/-- The task with its frame marked as written in handler mode. -/
def inHandler (status : Nat) (b : List Byte) (s : State) : State :=
  let s := withBytes 0x4C00 b (withStatus (BitVec.ofNat 64 status) s)
  { s with core := { s.core with frames := 1 } }

theorem test_witness_traps : all [
    (let s := plainTask
     s.core.txn.isNone && !producersOf s [1, 2, 3, 4] && privOf (curCtx s).status == 0 && !s.core.frames.getLsbD 0 &&
       gives (saveWrite 1 0 (frameAddr s.core 0) (frameBytes (curCtx s) 0 0 0x1D 7 0) s) (fun _ t => t.core.tvec == 0x200)),
    runs (.hole 0x0000004F 0x02) plainTask (fun t => (curCtx t).eval == 0x4F && pcOf t == 0x200),
    runs (.fetchFault 0x06 0x1000) plainTask (fun t => (curCtx t).cause == 6 && (curCtx t).epc == 0),
    (let s := withStatus 0x100 plainTask
     s.core.txn.isNone && !producersOf s [1, 2, 3, 4] && privOf (curCtx s).status == 1 && (halt (.trap 4 3 0) s).core.run.isNone)] = true := by
  decide +kernel

theorem test_witness_instruction_traps : all [
    issues (.trap 9 false) plainTask && readable plainTask [9] &&
      runs (.trap 9 false) plainTask (fun t => (curCtx t).cause == 0x1D && (curCtx t).epc == 4),
    issues (.svc 9 false) plainTask && runs (.svc 9 false) plainTask (fun t => (curCtx t).cause == 0x1C && (curCtx t).epc == 4),
    issues .brk plainTask && runs .brk plainTask (fun t => (curCtx t).cause == 0x1B && (curCtx t).epc == 0),
    (let s := inHandler 0x100 (frameBytes (curCtx plainTask) 2 0x40 0x1C 7 0) plainTask
     issues .eret s && gives (frameBusy 0 s) (fun y s1 => y && gives (saveRead 1 0 (frameAddr s.core 0) 128 s1) (fun b s2 =>
       leNat (slice b 48 4) == 0 && statusOk false (wordAt b 0) && !producersOf s2 [1, 2, 3, 4] && gives (clearBusy 0 b s2) (fun _ _ => true))) &&
       runs .eret s (fun t => pcOf t == 0x40 && (curCtx t).status == 2))] = true := by decide +kernel

/-- The task with addresses in s5 (its own window) and s6 (memory), and a value in s7. -/
def ready : State := withRegs [(5, own 0x100), (6, 0x800), (7, 0x8877665544332211)] (withBytes 0x100 (leBytes 8 0xFFFFFFFF00000003) plainTask)

theorem test_witness_loads : all [
    issues (.ldW 1 5 false 1) ready && readable ready [5, 6, 7] && writable ready [1, 0] && plain ready && (ownPlace ready (own 0x104) 4).isSome &&
      runs (.ldW 1 5 false 1) ready (fun t => regVal t 1 == 0xFFFFFFFFFFFFFFFF && pcOf t == 4) && runs (.ldW 0 5 false 1) ready (fun t => pcOf t == 4),
    gives (openAccess (curAgent ready) (curWaiter ready) .load needR true 0x808 8 ready) (fun ps s1 =>
      ps.length == 1 && gives (performMeeting (curAgent ready) ps s1) (fun _ s2 => !inTxn s2 (curAgent ready))) &&
      runs (.ldD 1 6 false 1) ready (fun t => (pcOf t == 4) && (regPending t 1 || regPresent t 1)),
    gives (openAccess (curAgent ready) (curWaiter ready) .load needR true 0x83C 8 ready) (fun ps _ => ps.length == 2)] = true := by decide +kernel

/-- The task with a line of its local store that the stash maps to memory at 0x1000. -/
def stashed (s : State) : State := { s with core := { s.core with stash := [⟨0, 0, 1, 0x1001, 4⟩] } }

/-- The task in a transaction that its txb at address 0 opened. -/
def inTransaction (s : State) : State :=
  { s with core := { s.core with txn := some ⟨curCtx s, 0, 1, [], [], [], [], []⟩, ctl := { s.core.ctl with status := 0x20, pc := 8 } } }

theorem test_witness_stores : all [
    issues (.stH 7 5 false 1) ready && plain ready && (ownPlace ready (own 0x102) 2).isSome &&
      runs (.stH 7 5 false 1) ready (fun t => t.core.pend.map PendAcc.kind == [.store [0x11, 0x22]] && pcOf t == 4),
    gives (openAccess (curAgent ready) (curWaiter ready) .store needW true 0x800 8 ready) (fun ps s1 =>
      ps.length == 1 && ps.all (fun q => q.len == 8) && !inTxn s1 (curAgent ready)) && !detMode ready &&
       gives (openAccess (curAgent ready) (curWaiter ready) .store needW true 0x800 8 ready) (fun ps s1 =>
         ps.all (fun q => (stashEntryAt s1 q.place).isNone) && gives (awaitProxies (curAgent ready) ps s1) (fun _ _ => true)) &&
       runs (.stD 7 6 false 0) ready (fun t => t.core.pend.length == 1 && pcOf t == 4),
    (let s := stashed ready
     gives (openAccess (curAgent s) (curWaiter s) .store needW true (own 0x102) 2 s) (fun ps s1 => ps.any (fun q => (stashEntryAt s1 q.place).isSome) &&
       !inTxn s1 (curAgent s) && gives (performMeeting (curAgent s) ps s1) (fun _ s2 => gives (checkBad true ps s2) (fun _ _ => true))) &&
       runs (.stH 7 5 false 1) s (fun t => t.core.pend.isEmpty && t.core.stashLines.any (fun l => l.mask == 12) && storeNat t (.ls 1 0 1 0x102) 2 == 0x2211 && pcOf t == 4)),
    (let s := inTransaction ready
     issues (.stD 7 6 false 0) s && gives (openAccess (curAgent s) (curWaiter s) .store needW true 0x800 8 s) (fun ps s1 => inTxn s1 (curAgent s) &&
       gives (txnTouch (curAgent s) true ps s1) (fun _ s2 => gives (checkBad true ps s2) (fun _ _ => true))) &&
       runs (.stD 7 6 false 0) s (fun t => t.core.txn.any (fun x => x.writes.length == 1 && x.bytes.length == 8) && memGet t.mem 0x800 == 0 && pcOf t == 12))] = true := by decide +kernel

/-- A store that waits, of two bytes at offset 0x102 of the local store. -/
def storing : State := withPend (pendOf ready (.ls 1 0 1 0x102) (own 0x102) .core (.store [0x11, 0x22])) ready

theorem test_witness_store_performed :
    (storing.core.pend.all (fun q => (stashEntryAt storing q.place).isNone) && decide (MemoriesCanonical storing) && (allocOf (coreAt storing 1) 0 1).isSome && storing.core.pend.any (fun q => pendDue storing 1 0 q) &&
      runs (.accessPerformed 1 0) storing (fun t => placeByte t 1 false (.ls 1 0 1 0x102) == 0x11 && placeByte t 1 false (.ls 1 0 1 0x103) == 0x22 &&
        placeByte t 1 false (.ls 1 0 1 0x101) == 0 && t.core.pend.isEmpty)) = true := by decide +kernel

theorem test_witness_store_refused : all [
    (let s : State := { storing with core := { storing.core with allocs := storing.core.allocs.map (fun a => { a with bad := [4] }) } }
     decide (MemoriesCanonical s) && s.core.pend.any (fun q => pendDue s 1 0 q && (stashEntryAt s q.place).isNone) &&
       runs (.accessPerformed 1 0) s (fun t => (curCtx t).deferred == [⟨0x17, own 0x102, 0⟩] && t.core.pend.isEmpty)),
    (let s : State := { storing with core := { storing.core with allocs := [] } }
     s.core.pend.any (fun q => pendDue s 1 0 q) && runs (.accessPerformed 1 0) s (fun t => (curCtx t).deferred == [⟨0x0A, own 0x102, 0⟩]))] = true := by decide +kernel

theorem test_witness_cache_operations : all [
    issues (.cflush .dev 5 false) ready && inWindows (own 0x100) && runs (.cflush .dev 5 false) ready (fun t => t.core.pend.isEmpty && pcOf t == 4),
    issues (.cinval .dev 6 false) ready && !inWindows 0x800 && gives (resolve (curAgent ready) (curWaiter ready) needR 0x800 1 ready) (fun ps _ =>
      ps.length == 1 && ps.all (fun q => !q.inRegs) && gives (awaitProxies (curAgent ready) ps ready) (fun _ _ => true)) && !detMode ready,
    runs (.cinval .dev 6 false) ready (fun t => t.core.pend.map PendAcc.kind == [.inval]) &&
      runs (.cflush .dev 6 false) ready (fun t => t.core.pend.map PendAcc.kind == [.flush]),
    issues (.pref 2 6 false) ready && runs (.pref 2 6 false) ready (fun t => pcOf t == 4 && (curCtx t).regs == (curCtx ready).regs) &&
      runs (.pref 1 5 false) ready (fun t => pcOf t == 4 && t.core.l1d.isEmpty)] = true := by
  decide +kernel

theorem test_witness_atomics : all [
    issues (.amoMin 1 5 7 false true .dev) ready && (regVal ready 5).toNat % 8 == 0 && (ownPlace ready (own 0x100) 8).isSome &&
      (curCtx ready).await == .nothing &&
      runs (.amoMin 1 5 7 false true .dev) ready (fun t => regVal t 1 == 0xFFFFFFFF00000003 && storeNat t (.ls 1 0 1 0x100) 8 == 0x8877665544332211),
    runs (.amoAdd 0 5 7 false false .dev) ready (fun t => t.core.pend.length == 1),
    (let s := withRegs [(1, 3)] ready
     issues (.cas 1 5 7 false false .clus) s && writable s [1] &&
       runs (.cas 1 5 7 false false .clus) s (fun t => regVal t 1 == 3 && storeNat t (.ls 1 0 1 0x100) 8 == 0xFFFFFFFF44332211)),
    runs (.cas 1 5 7 false false .clus) (withRegs [(1, 4)] ready) (fun t => regVal t 1 == 3 && storeNat t (.ls 1 0 1 0x100) 8 == 0xFFFFFFFF00000003 && pcOf t == 4),
    issues (.redAdd 5 7 false false false .dev) ready && runs (.redAdd 5 7 false false false .dev) ready (fun t => t.core.pend.length == 1 && pcOf t == 4),
    (let s := withRegs [(5, own 0x102)] ready
     runs (.redFadd 5 7 false false .dev) s (fun t => (curCtx t).cause == 5 && (curCtx t).eval == own 0x102))] = true := by decide +kernel

/-- A sync word that the task holds. -/
def heldWord (o : Nat) : HeldWord := ⟨own o, .ls 1 0 1 o, false⟩

/-- The task with a held set. -/
def holding (l : List HeldWord) (s : State) : State := { s with core := { s.core with run := s.core.run.map (fun r => { r with held := l }) } }

theorem test_witness_sync : all [
    (let s := holding [heldWord 0, heldWord 8, heldWord 16, heldWord 24] ready
     issues (.acq .clus 5 false) s && plain s && (heldSet s 1).length == 4 && runs (.acq .clus 5 false) s (fun t => (curCtx t).einfo == 4)),
    !beyondCluster .clus && accessesDone ready 1 0 (atLeastClus .clus) && runs (.acq .clus 5 false) (holding [heldWord 0, heldWord 8, heldWord 16] ready) (fun t => (heldSet t 1).length == 4 && pcOf t == 4),
    runs (.acq .clus 5 false) (holding [heldWord 0x100] ready) (fun t => (heldSet t 1).length == 1 && pcOf t == 4),
    (let s := holding [heldWord 0x100] ready
     issues (.rel .clus 5 false) s && decide (MemoriesCanonical s) && settled s (atLeastClus .clus) &&
       runs (.rel .clus 5 false) s (fun t => storeNat t (.ls 1 0 1 0x100) 8 == 0xFFFFFFFF00000004 && (heldSet t 1).isEmpty)),
    issues (.fence .dev) ready && settled ready .dev && runs (.fence .dev) ready (fun t => pcOf t == 4),
    !settled storing .core && runs (.fence .core) storing (fun t => pcOf t == 0),
    issues (.mon 1 5 false) ready && runs (.mon 1 5 false) ready (fun t => regPending t 1 && (curCtx t).monitor.isSome && pcOf t == 4),
    issues .mwait ready && (curCtx ready).monitor.isNone && runs .mwait ready (fun t => pcOf t == 4),
    (let s := onCur (fun x => { x with monitor := some ⟨.ls 1 0 1 0x100, true⟩ }) ready
     runs .mwait s (fun t => pcOf t == 4 && (curCtx t).monitor.isNone)),
    (let s := onCur (fun x => { x with monitor := some ⟨.ls 1 0 1 0x100, false⟩ }) ready
     (curCtx s).await == .nothing && runs .mwait s (fun t => pcOf t == 0 && (curCtx t).await == .mwait)),
    (let s := withStatus 0x10 ready
     detMode s && runs .mwait s (fun t => (curCtx t).cause == 0x15))] = true := by decide +kernel

theorem test_witness_bindings : all [
    (let s := withStatus 0x100 (withRegs [(8, own 0x200), (9, 0x1000)] (withBytes 0x200 (dwords [0x4000, 0x80, 1, 0]) ready))
     issues (.bind 9 8 false) s && readable s [8, 9] && (partAt s 0).any (fun p => p.regions.isEmpty) &&
       gives (readMem (curAgent s) (curWaiter s) .load (own 0x200) 32 s) (fun b _ => bindOk b 0x1000) &&
       runs (.bind 9 8 false) s (fun t => (partAt t 0).any (fun p => p.regions.length == 1) && pcOf t == 4)),
    (let s := onPart 0 (fun p => { p with regions := [⟨0x4000, 0x80, 1, 0, 0x1000⟩, ⟨0x8000, 0x80, 0, 0, 0⟩] }) (withStatus 0x100 (withRegs [(9, 0x4000)] ready))
     issues (.unbind 9 false) s && runs (.unbind 9 false) s (fun t => (partAt t 0).any (fun p => p.regions.map Region.base == [0x8000]))),
    (let s := withStatus 0x100 (withRegs [(9, 4)] ready)
     issues (.tlbinv 0 9 false false) s && runs (.tlbinv 0 9 false false) s (fun t => t.core.run.isNone)),
    runs (.tlbinv 0 9 false false) (withStatus 0x100 (withRegs [(9, 2)] ready)) (fun t => t.core.run.isNone),
    runs (.tlbinv 8 9 false false) (withStatus 0x100 (withRegs [(8, 1), (9, 1)] ready)) (fun t => t.core.run.isNone),
    (let s := withStatus 0x100 (withRegs [(8, 0x8000000000000000), (9, 0)] ready)
     !canonical (regVal s 8) && runs (.tlbinv 8 9 false false) s (fun t => t.core.run.isNone)),
    (let s := withStatus 0x100 (withRegs [(9, 0)] ready)
     canonical 0 && settled s .dev && !operandsInFlight s 0 0 0 && (pendingHomeLines s 0).isEmpty &&
       runs (.tlbinv 0 9 false false) s (fun t => pcOf t == 4 && (t.core.tlb ++ t.core.itlb).all (fun e => !e.selected 0 0 0))),
    runs (.tlbinv 0 9 false false) (withStatus 0x200 (withRegs [(9, 3)] ready)) (fun t => t.core.tlb.isEmpty && t.core.itlb.isEmpty && t.clusters.all (fun k => k.tlb.isEmpty) && pcOf t == 4)] = true := by decide +kernel

theorem test_witness_transactions : all [
    issues (.txb 1) ready && writable ready [1] && runs (.txb 1) ready (fun t => t.core.txn.isSome && (curCtx t).status == 0x20 && pcOf t == 4),
    issues (.txb 1) (inTransaction ready) && runs (.txb 1) (inTransaction ready) (fun t => t.core.txn.isNone),
    (let s := withStatus 0x10 ready
     detMode s && runs (.txb 1) s (fun t => (curCtx t).cause == 0x14)),
    issues .txe ready && runs .txe ready (fun t => (curCtx t).cause == 1) && runs .txa ready (fun t => (curCtx t).cause == 1),
    issues .txe (inTransaction ready) && runs .txe (inTransaction ready) (fun t => t.core.txn.isNone && pcOf t == 12 && (curCtx t).status == 0),
    (let q : PendAcc := ⟨0, .mem 0x800, true, false, false, false, 0x800, .core, .store [1, 2]⟩
     let s0 := inTransaction ready
     let s : State := { s0 with core := { s0.core with txn := s0.core.txn.map (fun x => { x with writes := [q] }) } }
     s.core.pend.isEmpty && !q.blocked 1 s && q.homeLine.all (fun l => !s.hostLines.contains l) &&
       runs .txe s (fun t => t.core.txn.isNone && placeByte t 1 true (.mem 0x801) == 2 && pcOf t == 12)),
    issues .txa (inTransaction ready) && runs .txa (inTransaction ready) (fun t => t.core.txn.isNone && pcOf t == 4 && regVal t 1 == 0x41E)] = true := by decide +kernel

/-- The bytes of a task record: COUNT, KIND, group size; entry 0x40, arguments 11 and 22, class limit 12. -/
def taskBytes (count kind gsize : Nat) : List Byte := dwords [count + kind * 2 ^ 32, 0x40, 11, 22, 0, 0, gsize + 12 * 2 ^ 16, 0]

/-- A partition with the group and the launch of the task. -/
def withGroup (running : List Nat) (pop : Nat) (s : State) : State :=
  onPart 0 (fun p => { p with
    launches := [⟨0, pop, 0, 0, 0, false⟩], groups := [⟨1, 0, 2, running, 0, 0, 0, 0, 0, none, []⟩], gids := 1 }) s

/-- The task with a record at offset 0x400 of its local store, whose address is in s8. -/
def withTaskRec (count kind gsize : Nat) (s : State) : State := withRegs [(8, own 0x400)] (withBytes 0x400 (taskBytes count kind gsize) (withGroup [0, 1] 2 s))

/-- The partition under the quantum rules. -/
def quantum (s : State) : State := onPart 0 (fun p => { p with det := true }) s

/-- A record may be taken by an instruction. -/
def recordOk (s : State) (takes : TaskRec → Bool) : Bool := gives (instrRecord (regVal s 8) takes s) (fun _ u => settled u .dev)

/-- An entry of a ready queue for the record at offset 0x400. -/
def queueEntry : ReadyEntry := freshEntry (parseTask (taskBytes 0 0 1)) (own 0x400) 0 0 false none

/-- A cluster whose ready queue is full. -/
def fullQueue (s : State) : State := onCluster 0 (fun c => { c with ready := List.replicate 4096 queueEntry }) s

theorem test_witness_spawns : all [
    (let s := withTaskRec 0 0 1 ready
     issues (.tspawn 8 false) s && recordOk s spawnable && (partAt s 0).any (fun p => (ringOf p).any (fun cl => canHold p cl 1) &&
       queueCluster p 0 (parseTask (taskBytes 0 0 1)) == some 0 && !quantumRules p) &&
       runs (.tspawn 8 false) s (fun t => (clusterAt t 0).ready.length == 1 && pcOf t == 4 && (partAt t 0).any (fun p => p.launches.map Launch.pop == [3]))),
    runs (.tspawn 8 false) (withTaskRec 1 0 1 ready) (fun t => (curCtx t).einfo == 10),
    runs (.tspawn 8 false) (withTaskRec 0 0 2 ready) (fun t => (curCtx t).einfo == 11),
    (let s := quantum (withTaskRec 0 0 1 ready)
     recordOk s spawnable && (partAt s 0).any quantumRules && runs (.tspawn 8 false) s (fun t => t.core.held.length == 1 && pcOf t == 4)),
    (let s := withTaskRec 0 2 1 ready
     recordOk s spawnable && gives (instrRecord (regVal s 8) spawnable s) (fun r u =>
       gives (readyRec 0 1 graphFuel (freshEntry r (regVal s 8) 0 0 false (some 1)) u) (fun _ _ => true)) &&
       runs (.tspawn 8 false) s (fun t => pcOf t == 4))] = true := by decide +kernel

theorem test_witness_forks : all [
    (let s := withTaskRec 0 0 1 ready
     issues (.tfork 8 false) s && recordOk s (fun r => r.kind == 0 && r.gsize == 1) &&
       runs (.tfork 8 false) s (fun t => t.core.deque.length == 1 && pcOf t == 4)),
    runs (.tfork 8 false) (withTaskRec 1 0 1 ready) (fun t => (curCtx t).einfo == 10),
    (let s := quantum (withTaskRec 0 0 1 ready)
     recordOk s spawnable && runs (.tfork 8 false) s (fun t => t.core.held.length == 1 && pcOf t == 4)),
    (let s0 := withTaskRec 0 0 1 ready
     let s : State := { s0 with core := { s0.core with deque := List.replicate 64 queueEntry } }
     (partAt s 0).any (fun p => recordRoom s p 0 (parseTask (taskBytes 0 0 1))) && runs (.tfork 8 false) s (fun t => (clusterAt t 0).ready.length == 1 && pcOf t == 4))]
    = true := by decide +kernel

theorem test_witness_counts : all [
    (let s := withRegs [(9, 0)] (withTaskRec 5 0 1 ready)
     issues (.tdec 8 9 false false) s && recordOk s spawnable && runs (.tdec 8 9 false false) s (fun t => (curCtx t).einfo == 8)),
    runs (.tdec 8 9 false false) (withRegs [(9, 0x80000000)] (withTaskRec 5 0 1 ready)) (fun t => (curCtx t).einfo == 8),
    (let s := withRegs [(9, 5)] (withTaskRec 5 0 1 ready)
     gives (decChecks (own 0x400) 5 s) (fun _ u => settled u .dev && gives (decPerform (own 0x400) 5 u) (fun _ _ => true)) &&
       runs (.tdec 8 9 false false) s (fun t => pcOf t == 4 && (clusterAt t 0).ready.length == 1)),
    (let s := withRegs [(9, 4)] (withTaskRec 5 0 1 ready)
     plain s && decide (MemoriesCanonical s) && (ownPlace s (own 0x400) 64).isSome && settled s .dev && (partAt s 0).any (fun p =>
       !quantumRules p && taskOk p (taskReservedOk (taskBytes 5 0 1)) (parseTask (taskBytes 5 0 1))) && spawnable (parseTask (taskBytes 5 0 1)) &&
       runs (.tdec 8 9 false false) s (fun t => pcOf t == 4 && storeNat t (.ls 1 0 1 0x400) 4 == 1)),
    runs (.tdec 8 9 false false) (withRegs [(9, 6)] (withTaskRec 5 0 1 ready)) (fun t => (curCtx t).einfo == 7)] = true := by decide +kernel

theorem test_witness_task_ends : all [
    (let s := withGroup [0, 1] 2 ready
     issues .tend s && atRest s && settled s .dev && (heldSet s 1).isEmpty && s.core.tile.isNone && s.core.run.any (fun r => r.rank == 0 && r.event.isNone) &&
       runs .tend s (fun t => t.core.run.isNone && (groupAt t 0 1).any (fun g => g.running == [1]) && (partAt t 0).any (fun p => p.launches.map Launch.pop == [1]))),
    (let s := withTaskRec 5 0 1 ready
     issues (.tjoin 8 false) s && gives (decChecks (own 0x400) 1 s) (fun _ u => atRest u && settled u .dev && (heldSet u 1).isEmpty &&
       gives (decPerform (own 0x400) 1 u) (fun _ _ => true)) && runs (.tjoin 8 false) s (fun t => t.core.run.isNone))] = true := by decide +kernel

/-- The task with a live helper that does nothing. -/
def withHelper (s : State) : State :=
  { s with core := { s.core with helpers := s.core.helpers.set 3 { Ctx.reset true with live := true } } }

theorem test_witness_yields : all [
    (let s := withHelper (withGroup [0, 1] 2 ready)
     quiet s && helpersLive s.core && issues .tyield s && runs .tyield s (fun t => (curCtx t).cause == 1) &&
       runs (.cwait 5 9 false false) s (fun t => (curCtx t).cause == 1) && runs (.bar 5 false) s (fun t => (curCtx t).cause == 1)),
    (let s := withGroup [0, 1] 2 ready
     issues .tyield s && atRest s && (partAt s 0).any (fun p => contRoom s p 1) && gives (saveReady .dev s) (fun _ u => u.core.run == s.core.run &&
       gives (leaveSaved 1 3 4 u) (fun _ _ => true))),
    (partAt (quantum ready) 0).any quantumRules,
    (let s := fullQueue (withGroup [0, 1] 2 ready)
     (partAt s 0).any (fun p => !quantumRules p && !contRoom s p 1) && runs .tyield s (fun t => (curCtx t).einfo == 6))] = true := by decide +kernel

/-- What the premises of cwait and bar say up to the save, at a word of n bytes. -/
def waitOk (s : State) (n kind : Nat) (sc : Scope) (va : Word) : Bool :=
  atRest s && gives (watchPiece va n s) (fun pl s1 =>
    match watchNow 1 pl n s1 with
    | (_, now) => (partAt s1 0).any (fun p => contRoom now p 1 && watchRoom now p 1) && s1.core.phys == 1 &&
        gives (saveReady sc now) (fun _ u => u.core.run.any (fun r => !r.det) && gives (leaveSaved 1 kind (pcOf now + 4) u) (fun _ _ => true)))

theorem test_witness_waits : all [
    (let s := withRegs [(9, 2 ^ 33)] ready
     issues (.cwait 5 9 false false) s && runs (.cwait 5 9 false false) s (fun t => (curCtx t).einfo == 15)),
    runs (.cwait 5 9 false false) (withRegs [(5, own 0x102), (9, 0)] ready) (fun t => (curCtx t).cause == 5),
    waitOk (withGroup [0, 1] 2 ready) 4 1 .dev (own 0x100) && watchHolds 1 3 3 && !watchHolds 1 2 3,
    issues (.bar 5 false) ready && runs (.bar 5 false) (withRegs [(5, own 0x104)] ready) (fun t => (curCtx t).cause == 5),
    (let s := withBytes 0x100 (leBytes 8 5) (withGroup [0, 1] 2 ready)
     barRemaining 5 1 == 5 && gives (watchPiece (own 0x100) 8 s) (fun _ u => u.core.run.any (fun r => !r.det)) && runs (.bar 5 false) s (fun t => (curCtx t).einfo == 16)),
    (let s0 := onGroup 0 1 (fun g => { g with bar := some (.ls 1 0 1 0x108) }) (quantum (withStatus 0x10 (withGroup [0, 1] 2 ready)))
     let s : State := { s0 with core := { s0.core with run := s0.core.run.map (fun r => { r with det := true }) } }
     atRest s && gives (watchPiece (own 0x100) 8 s) (fun pl u => u.core.run.any (fun r => r.det && !barWordOk u r pl.place)) &&
       runs (.bar 5 false) s (fun t => (curCtx t).einfo == 17)),
    waitOk (withGroup [0, 1] 2 ready) 8 2 .clus (own 0x100) && barRemaining 1 1 == 1 && barRemaining 0 2 == 2,
    barNext 0 1 == 2 ^ 32 && barNext 1 1 == 2 ^ 32 && barNext (2 ^ 64 - 2 ^ 32 + 1) 7 == 0 && barNext 0 3 == 2 && barNext (5 * 2 ^ 32 + 3) 3 == 5 * 2 ^ 32 + 2]
    = true := by decide +kernel

/-- Helper h is live and issues. -/
def asHelper (h : Fin 10) (s : State) : State :=
  { s with core := { s.core with cur := some h, helpers := s.core.helpers.set h { Ctx.reset true with live := true, pc := 0x40 } } }

theorem test_witness_helpers : all [
    (let s := withRegs [(5, 0x81), (6, 66), (7, 77)] plainTask
     issues (.hstart 3 5 6 false false) s && readable s [5, 6, 7] &&
       runs (.hstart 3 5 6 false false) s (fun t => (ctxOf t.core 4).live && (ctxOf t.core 4).pc == 0x80 && (ctxOf t.core 4).regs[2] == 77 && pcOf t == 4)),
    (let s : State := { asHelper 3 plainTask with core := { (asHelper 3 plainTask).core with cur := none } }
     runs (.hstart 3 5 6 false false) s (fun t => (curCtx t).einfo == 9 && (curCtx t).eval == 3)),
    (let s := asHelper 3 plainTask
     issues .hend s && (curCtx s).prods.isEmpty && (curCtx s).locks.isEmpty && enginesDone s 1 (curIdx s) && (curCtx s).origin == .software &&
       runs .hend s (fun t => !(ctxOf t.core 4).live)),
    (let s : State := { plainTask with core := { plainTask.core with run := none } }
     runs (.hardwareHelperStart 1) s (fun t => t == s)),
    (let s : State := { plainTask with core := { plainTask.core with hreqs := [⟨0x81, 5, 6, .arrival 2, 0, 1⟩] } }
     (partAt s 0).any (fun p => !quantumRules p) && freeHelper s.core == some 9 && s.core.run.any (fun r => r.gid == 1) &&
       runs (.hardwareHelperStart 1) s (fun t => (ctxOf t.core 10).live && (ctxOf t.core 10).pc == 0x80 && t.core.hreqs.isEmpty))] = true := by decide +kernel

/-- The bytes of a declaration record: operator 1, everything else zero. -/
def declBytes : List Byte := dwords [1, 0, 0, 0, 0, 0, 0, 0]

/-- The declaration of slot n that it makes for launch 0. -/
def decl (n : Nat) : Decl := parseDecl declBytes n 0 0

/-- The task with slots 0 and 15 declared, slot 15's Top running. -/
def withDecls (s : State) : State :=
  onPart 0 (fun p => { p with decls := [decl 0, decl 15], tops := [⟨15, 0, false, own 0x400, false, false, 0, false⟩] }) s

/-- An entry of the own cluster's store. -/
def foldEntry (slot key : Nat) (v : W32) : FoldEntry := ⟨0, slot, key, v, 0⟩

/-- The own cluster's store. -/
def withFold (l : List FoldEntry) (s : State) : State := onCluster 0 (fun c => { c with fold := l }) s

/-- Where no quantum rules apply, and no wait of a Fold Store instruction is on. -/
def noQuantum (s : State) : Bool := (partAt s 0).any (fun p => !quantumRules p) && (curCtx s).await == .nothing

theorem test_witness_declarations : all [
    (let s := withRegs [(8, 1), (9, own 0x300)] (withBytes 0x300 declBytes (withDecls ready))
     issues (.fdecl 8 9 false false) s && readable s [8, 9] && noQuantum s && gives (readRecord (curAgent s) (curWaiter s) (own 0x300) s) (fun b u =>
       declReason b == none && gives (checkPool (curAgent s) b u) (fun _ _ => true)) && (partAt s 0).any (fun p => (declOf p 1).isNone) &&
       runs (.fdecl 8 9 false false) s (fun t => (partAt t 0).any (fun p => p.decls.length == 3) && pcOf t == 4)),
    runs (.fdecl 8 9 false false) (withRegs [(8, 15), (9, own 0x300)] (withBytes 0x300 declBytes (withDecls ready))) (fun t => (curCtx t).einfo == 0x20),
    (let s := withRegs [(8, 0), (9, 0)] (withDecls ready)
     (partAt s 0).any (fun p => slotEmpty s p (decl 0)) && runLaunch s == 0 &&
       runs (.fdecl 8 9 false false) s (fun t => (partAt t 0).any (fun p => p.decls.length == 1))),
    (let s := withRegs [(8, 15), (9, 0)] (withDecls ready)
     (partAt s 0).any (fun p => !slotEmpty s p (decl 15)) && runs (.fdecl 8 9 false false) s (fun t => (curCtx t).einfo == 0x30)),
    (let s := withRegs [(8, 15), (9, 7)] (withDecls ready)
     issues (.fthr 8 9 false false) s && noQuantum s && runs (.fthr 8 9 false false) s (fun t => t.thrs == [(0, 15, 0, 7)] && pcOf t == 4)),
    (let s := withRegs [(8, 0), (9, own 0x400)] (withDecls ready)
     issues (.fquiet 8 9 false false) s && runs (.fquiet 8 9 false false) s (fun t => (partAt t 0).any (fun p => p.tops.length == 2) && pcOf t == 4)),
    runs (.fquiet 8 9 false false) (withRegs [(8, 15), (9, own 0x400)] (withDecls ready)) (fun t => (curCtx t).einfo == 0x90)] = true := by decide +kernel

theorem test_witness_posts : all [
    (let s := withRegs [(8, 2 ^ 40 * 2)] (withDecls ready)
     issues (.fpost 1 8 7 false false) s && writable s [1] && noQuantum s && (partAt s 0).any (fun p => (declOf p 2).isNone) &&
       runs (.fpost 1 8 7 false false) s (fun t => (curCtx t).einfo == 0x70)),
    (let s := withRegs [(8, 2 ^ 44 - 1)] (withDecls ready)
     !inTxn s (curAgent s) && settled s (clusterScope 0 0) && runs (.fpost 1 8 7 false false) s (fun t => t.posts.length == 1 && regLocked t 1 && pcOf t == 4)),
    (let s := inTransaction (withRegs [(8, 5)] (withDecls ready))
     inTxn s (curAgent s) && (partAt s 0).any (fun p => foldHome p (decl 0) 5 0 == 0) &&
       runs (.fpost 1 8 7 false false) s (fun t => t.core.txn.any (fun x => x.posts.length == 1) && regVal t 1 == 4)),
    (let r := parseShape (dwords [0x800, 9 + 256, 3, 0, 0, 0, 0, 0])
     let s : State := { withDecls ready with core := { (withDecls ready).core with
       vxq := [⟨.fpostv 1 8 7 false false, ⟨0, 0, 0, 1, 0, 0, 0, 0, 0, []⟩, none, 0, 0, 0, 0, [], false, 0, [(0, r), (1, r)], [(2, 2), (1, 2)], [], [], []⟩] } }
     issues (.fpostv 1 8 7 false false) s && !underQuantum s && s.core.vxq.any (fun q => (groupRange q (countOf (recOr q.recs 0).ext)).isEmpty &&
       decide (countOf (recOr q.recs 0).ext ≤ (q.vrec.group + 1) * 64) && !q.passed && q.vrec.ctx == curIdx s) && !owedTo s 1 0 1 &&
       runs (.fpostv 1 8 7 false false) s (fun t => t.core.vxq.isEmpty && pcOf t == 4 && regVal t 1 == 2 ^ 33 + 2 ^ 16 * 2))] = true := by decide +kernel

theorem test_witness_takes : all [
    (let s := withRegs [(8, 0x8001)] (withFold [foldEntry 0 9 5, foldEntry 15 3 7, foldEntry 15 2 7] (withDecls ready))
     issues (.fdrain 1 8 false) s && writable s [1, 2] && noQuantum s && runs (.fdrain 1 8 false) s (fun t =>
       (curCtx t).prods.map Producer.value == [BitVec.ofNat 64 (15 * 2 ^ 40 + 2), 7] && (clusterAt t 0).fold.length == 2 && pcOf t == 4)),
    (let s := withRegs [(8, 1)] (withFold [foldEntry 0 9 5] (withDecls ready))
     issues (.fpeek 1 8 false) s && runs (.fpeek 1 8 false) s (fun t => (clusterAt t 0).fold.length == 1 && pcOf t == 4)),
    runs (.fpeek 1 8 false) (withRegs [(8, 1)] (withDecls ready)) (fun t => (curCtx t).prods.map Producer.value == [BitVec.allOnes 64, 0]),
    runs (.fdrain 1 8 false) (withRegs [(8, 0)] (withDecls ready)) (fun t => (curCtx t).einfo == 0x10),
    runs (.fdrain 1 8 false) (withRegs [(8, 0x10000)] (withDecls ready)) (fun t => (curCtx t).einfo == 0x10),
    (let s := withRegs [(8, 0x60)] (withDecls ready)
     issues (.fcount 1 8 false) s && runs (.fcount 1 8 false) s (fun t => regVal t 1 == 0 && pcOf t == 4) &&
       runs (.fcount 1 8 false) (withRegs [(8, 0x6F)] (withDecls ready)) (fun t => regVal t 1 == 1)),
    runs (.fcount 1 8 false) (withRegs [(8, 0x20)] (withFold [foldEntry 0 9 5] (withDecls ready))) (fun t => regVal t 1 == 1),
    runs (.fcount 1 8 false) (withRegs [(8, 0x70)] (withDecls ready)) (fun t => (curCtx t).einfo == 0x10) &&
      runs (.fcount 1 8 false) (withRegs [(8, 0x100)] (withDecls ready)) (fun t => (curCtx t).einfo == 0x10)] = true := by decide +kernel

/-- A control block at offset 0x800: data area at 0x1000, 1 KiB. -/
def ringBlock (tail : Nat) : List Byte := dwords [0xFFFE000000001000, 10, 0, 0, 0, tail, 0, 0]

/-- The task with that block, and a ring open on it under number 1. -/
def withRing (tail : Nat) (s : State) : State :=
  let s := withBytes 0x800 (ringBlock tail) s
  { s with core := { s.core with rings := s.core.rings.set 1 (some ⟨0x800, 0, 1, []⟩) } }

theorem test_witness_messages : all [
    (let s := withRegs [(8, 2 ^ 32 * 248), (9, 0x800)] ready
     issues (.msend 1 8 9 false false) s && readable s [8, 9] && noQuantum s && (partAt s 0).any (fun p => physOf p 0 == some 1) &&
       gives (readMem (curAgent s) (curWaiter s) .load 0x800 248 s) (fun _ u => settled u (Machine.scopeOf 1 1) && u.core.phys == 1 && curIdx u == 0) &&
       runs (.msend 1 8 9 false false) s (fun t => t.msgs.length == 1 && (curCtx t).await == .message && pcOf t == 0)),
    runs (.msend 1 8 9 false false) (withRegs [(8, 2 ^ 32 * 249), (9, 0x800)] ready) (fun t => (curCtx t).einfo == 3) &&
      runs (.msend 1 8 9 false false) (withRegs [(8, 2 ^ 32 + 2 ^ 16), (9, 0x800)] ready) (fun t => (curCtx t).einfo == 3),
    (let s := onCur (fun x => { x with await := .messageDone 2 }) ready
     issues (.msend 1 8 9 false false) s && runs (.msend 1 8 9 false false) s (fun t => regVal t 1 == 2 && pcOf t == 4)),
    (let m : Msg := ⟨0, 0, 0, 0, 1, false, [1, 2, 3], 1, 0, none⟩
     let s : State := { withRing 1020 ready with msgs := [m] }
     messageDue s m == some 1 && decide (MemoriesCanonical s) && (allocOf (coreAt s 1) 0 1).any (fun a =>
       placeIn (ringSize a.mem 0x800) (ringHead a.mem 0x800) (ringTail a.mem 0x800) 16 == none) &&
       runs (.messagePlacement 0) s (fun t => t.msgs.map Msg.answer == [some 1])),
    (let m : Msg := ⟨0, 0, 0, 0, 1, false, [1, 2, 3], 1, 0, none⟩
     let s : State := { withRing 1008 ready with msgs := [m] }
     runs (.messagePlacement 0) s (fun t => t.msgs.map Msg.answer == [some 0] && (allocOf (coreAt t 1) 0 1).any (fun a => ringTail a.mem 0x800 == 1024))),
    (let m : Msg := ⟨0, 0, 0, 0, 2, false, [1, 2, 3], 1, 0, none⟩
     runs (.messagePlacement 0) { withRing 0 ready with msgs := [m] } (fun t => t.msgs.map Msg.answer == [some 2]))] = true := by decide +kernel

theorem test_witness_rings : all [
    issues (.mtake 8 9 false false) ready && runs (.mtake 8 9 false false) (withRegs [(8, 16)] ready) (fun t => (curCtx t).einfo == 3) &&
      runs (.mtake 8 9 false false) (withRegs [(8, 12)] ready) (fun t => (curCtx t).einfo == 3),
    (ownRing ready 1).isNone && runs (.mtake 8 9 false false) (withRegs [(8, 9)] ready) (fun t => (curCtx t).einfo == 2),
    (let s := withRegs [(8, 5), (9, own 0x800)] (withBytes 0x800 (ringBlock 64) ready)
     plain s && decide (MemoriesCanonical s) && s.core.allocs.all (fun a => ringBlockOk a (own 0x800)) && (s.core.rings.get 1).isNone &&
       runs (.mtake 8 9 false false) s (fun t => (t.core.rings.get 1).isSome && t.core.allocs.all (fun a => ringTail a.mem 0x800 == 0) && pcOf t == 4)),
    (let s := withRegs [(8, 1), (9, 1)] (withBytes 0x1000 (leBytes 8 3) (withRing 16 ready))
     (ownRing s 1).isSome && noQuantum s && heldConsumes s.core 1 == 0 && decide (MemoriesCanonical s) && s.core.allocs.all (fun a =>
       passMessages a.mem 0x800 1 (ringHead a.mem 0x800) (ringUsed a.mem 0x800) == some 16) &&
       runs (.mtake 8 9 false false) s (fun t => t.core.allocs.all (fun a => ringHead a.mem 0x800 == 16) && pcOf t == 4)),
    runs (.mtake 8 9 false false) (withRegs [(8, 9)] (withRing 16 ready)) (fun t => (t.core.rings.get 1).isNone && pcOf t == 4)] = true := by decide +kernel

/-- The bytes of a shape record. -/
def shapeBytes (base fmt rank space e0 e1 s1 : Nat) : List Byte :=
  dwords [base, fmt + rank * 256 + space * 65536, e0 + e1 * 2 ^ 32, 1 + 2 ^ 32, s1, 0, 0, 0]

/-- Tree 0 of the task's partition, with leaves 0 and others. -/
def withTree (t0 : Word) (leaves : List Nat) (contribs : List Contribution) (s : State) : State :=
  onPart 0 (fun p => { p with trees := [⟨0, t0, 0, leaves, [], [], false⟩], contribs := contribs }) s

/-- A contribution of one element. -/
def contribution (lcore op : Nat) (v : W32) : Contribution := ⟨0, lcore, 0, op, 5, [v], [(.ls 1 0 1 0x500, false, 4)], [], 0, 0, false⟩

theorem test_witness_trees : all [
    (let s := withRegs [(8, 0), (9, 0)] (withTree 1 [0, 1] [] ready)
     issues (.nred 1 8 9 false false) s && readable s [8, 9] && writable s [1] && runs (.nred 1 8 9 false false) s (fun t => regVal t 1 == 2 && pcOf t == 4)),
    runs (.nred 1 8 9 false false) (withRegs [(8, 1), (9, 0)] (withTree 1 [0, 1] [] ready)) (fun t => (curCtx t).cause == 9),
    runs (.nred 1 8 9 false false) (withRegs [(8, 24), (9, 0)] (withTree 1 [0, 1] [] ready)) (fun t => (curCtx t).cause == 9),
    runs (.nred 1 8 9 false false) (withRegs [(8, 0), (9, 0)] (withTree 0x1901 [0, 1] [] ready)) (fun t => (curCtx t).cause == 0x19),
    (let s := withRegs [(8, 0), (9, own 0x300)] (withBytes 0x300 (shapeBytes 0xFFFE000000000500 5 1 1 1 1 0) (withTree 1 [0, 1] [] ready))
     noQuantum s && gives (fetchRecord (curAgent s) (curWaiter s) 0 (own 0x300) nredRecordOk (fun _ => true) s) (fun b u => b.2 &&
       gives (vectorPieces (curAgent s) (parseShape b.1) u) (fun ps v => gives (performMeeting (curAgent s) ps v) (fun _ w =>
         gives (checkBad false ps (reachPieces (curAgent s) ps w)) (fun _ z => gives (pieceEntries (curAgent s) ps z) (fun _ _ => true))))) &&
       runs (.nred 1 8 9 false false) s (fun t => regVal t 1 == 0 && pcOf t == 4 && (partAt t 0).any (fun p => p.contribs.length == 1))),
    (let s := withRegs [(8, 0), (9, own 0x300)] (withBytes 0x300 (shapeBytes 0xFFFE000000000500 5 1 1 1 1 0) (withTree 1 [0, 1] [contribution 0 0 3] ready))
     runs (.nred 1 8 9 false false) s (fun t => regVal t 1 == 1) &&
       detMode (withStatus 0x10 s) && runs (.nred 1 8 9 false false) (withStatus 0x10 s) (fun t => pcOf t == 0 && (curCtx t).stalled)),
    (let s := withRegs [(8, 0), (9, own 0x320)] (withTree 1 [0, 1] [] ready)
     runs (.nred 1 8 9 false false) s (fun t => (curCtx t).cause == 0xC && (curCtx t).eval == 0)),
    (let s := withRegs [(8, 0), (9, own 0x300)] (withBytes 0x300 (shapeBytes 0xFFFE000000000500 5 1 1 0 1 0) (withTree 1 [0, 1] [] ready))
     gives (fetchRecord (curAgent s) (curWaiter s) 0 (own 0x300) nredRecordOk (fun _ => true) s) (fun b _ => !b.2) &&
       runs (.nred 1 8 9 false false) s (fun t => (curCtx t).cause == 0xC && (curCtx t).eval == 0)),
    (let s := withTree 1 [0, 1] [contribution 0 0 3, contribution 1 1 4] ready
     noQuantum s && runs (.nredRoundComplete 1 0) s (fun t => (partAt t 0).any (fun p => p.trees.map (fun x => x.t0) == [0xC01]))),
    (let s := withTree 1 [0, 1] [contribution 0 0 3] ready
     (partAt s 0).any (fun p => p.trees.all (fun x => (roundResult p x 0).isNone)) && runs (.nredRoundComplete 1 0) s (fun t => t == s) &&
       runs (.treeHoldExpiry 0 0) s (fun t => (partAt t 0).any (fun p => p.trees.all Tree.forwarded))),
    (let s := withTree 1 [0, 1] [contribution 0 0 3, contribution 1 0 4] ready
     (partAt s 0).any (fun p => p.trees.all (fun x => roundResult p x 0 == some [7]) && p.contribs.all (fun c => !deliveryWaits s 0 1 c)) &&
       runs (.nredRoundComplete 1 0) s (fun t => storeNat t (.ls 1 0 1 0x500) 4 == 7 && (partAt t 0).any (fun p => p.contribs.length == 1))),
    (let s := onPart 0 (fun p => { p with ranks := p.ranks.map (fun r => { r with transit := true }) }) (withTree 1 [0, 1] [contribution 0 0 3, contribution 1 0 4] ready)
     noQuantum s && (partAt s 0).any (fun p => p.contribs.all (fun c => deliveryWaits s 0 1 c) && physOf p 0 == some 1) &&
       runs (.nredRoundComplete 1 0) s (fun t => (partAt t 0).any (fun p => p.contribs.length == 2)))] = true := by
  decide +kernel

/-- Shape records at 0x300 and 0x340 of the local store: a destination of four words there, a source of the same shape in memory; a transfer
record of them at 0x380. -/
def withPair (ctl : Nat) (s : State) : State :=
  withRegs [(8, own 0x300), (9, own 0x340), (10, own 0x380)] (withBytes 0x380 (dwords [0, ctl, 0xFFFE000000000300, 0xFFFE000000000340, 0, 0, 0, 0])
    (withBytes 0x340 (shapeBytes 0x800 5 1 0 4 1 0) (withBytes 0x300 (shapeBytes 0xFFFE000000000500 5 1 1 4 1 0) s)))

theorem test_witness_copies : all [
    (let s := withPair 0 ready
     let s0 := onChan 1 2 (fun k => { k with wp := 0 }) (stopChannel 1 2 s)
     issues (.cpy 2 8 9 false false) s && readable s [8, 9] && gives (readPair (curAgent s) (curWaiter s) none (own 0x300) (own 0x340) s0) (fun j u =>
       j.dst.space == 1 && pairOk j.dst j.src && gives (startJob 1 2 j u) (fun _ _ => true)) && runs (.cpy 2 8 9 false false) s (fun t => (t.core.chans[2]).state == .running && pcOf t == 4)),
    (let s := withRegs [(8, own 0x310)] (withPair 0 ready)
     runs (.cpy 2 8 9 false false) s (fun t => (curCtx t).cause == 0xC && (curCtx t).eval == 0 && (t.core.chans[2]).state == .idle)),
    (let s : State := { withPair 0 ready with core := { (withPair 0 ready).core with copyq := [.cpy 1 0 0 0, .cpy 2 0 0 0, .cpyc 3 1 0 false] } }
     s.core.copyq.all (fun q => q.holder != some 0) && runs (.cpy 2 8 9 false false) s (fun t => pcOf t == 0 && (curCtx t).stalled) &&
       runs (.cpyc 2 10 false) s (fun t => pcOf t == 0 && (curCtx t).stalled)),
    (let s : State := { withPair 0 ready with core := { (withPair 0 ready).core with copyq := [.cpy 1 0 0 0] } }
     issues (.cstop 2) s && runs (.cstop 2) s (fun t => t.core.copyq.length == 2 && pcOf t == 4)),
    runs (.cpyc 2 10 false) (withRegs [(10, own 0x388)] (withPair 0 ready)) (fun t => (curCtx t).cause == 0xC),
    (let s := withPair 0 ready
     issues (.cpyc 2 10 false) s && runs (.cpyc 2 10 false) s (fun t => (t.core.chans[2]).state == .parked && pcOf t == 4)),
    runs (.cpyc 2 10 false) (withPair 1 ready) (fun t => (t.core.chans[2]).state == .running && pcOf t == 4),
    (let s := withBytes 0x340 (shapeBytes 0x800 4 1 0 4 1 0) (withPair 1 ready)
     let s0 := onChan 1 2 (fun k => { k with wp := 0 }) (stopChannel 1 2 s)
     issues (.cpy 2 8 9 false false) s && readable s [8, 9, 10] &&
       gives (readPair (curAgent s) (curWaiter s) none (own 0x300) (own 0x340) s0) (fun j _ => !pairOk j.dst j.src) &&
       gives (readTransfer (curAgent s) (curWaiter s) (own 0x380) s0) (fun x _ => x.any (fun j => !pairOk j.dst j.src)) &&
       runs (.cpy 2 8 9 false false) s (fun t => (curCtx t).cause == 0xC && (curCtx t).eval == own 0x340) &&
       runs (.cpyc 2 10 false) s (fun t => (curCtx t).cause == 0xC && (curCtx t).eval == own 0x340)),
    (let s0 := withPair 1 ready
     gives (readTransfer (curAgent s0) (curWaiter s0) (own 0x380) s0) (fun x u => x.any (fun j =>
       let s := onChan 1 2 (fun k => { k with state := .running, job := some j, rcd := own 0x380 }) u
       j.rcd.isSome && s.core.copyq.isEmpty && runs (.cstop 2) s (fun t => (t.core.chans[2]).state == .idle && (t.core.chans[2]).job.isNone && pcOf t == 4)))),
    (let s0 := withPair 0 ready
     let s := { s0 with core := { s0.core with chans := s0.core.chans.set 2 ⟨.parked, 0, 3, none, own 0x380, none, .nothing⟩ } }
     issues (.cstop 2) s && runs (.cstop 2) s (fun t => (t.core.chans[2]).state == .idle && (t.core.chans[2]).wp == 3) &&
       gives (readTransfer (curAgent s) (curWaiter s) (own 0x380) s) (fun j u => j.isNone && u.core.phys == 1)),
    issues .tsfence ready && runs .tsfence { ready with core := { ready.core with recs := [(own 0x300, [])] } } (fun t => t.core.recs.isEmpty && pcOf t == 4) &&
      !recordsDue ready.core && gives (performOwn (curAgent ready) ready) (fun _ _ => true),
    (let s : State := { ready with core := { ready.core with copyq := [.cpy 1 0 0 0] } }
     recordsDue s.core && runs .tsfence s (fun t => pcOf t == 0 && (curCtx t).stalled)),
    (let s := withPair 0 ready
     issues (.tsdim 1 8 0 false) s && gives (fetchRecord (curAgent s) (curWaiter s) 0 (own 0x300) shapeOk (fun _ => true) s) (fun _ _ => true) &&
       runs (.tsdim 1 8 0 false) s (fun t => regVal t 1 == 4) && runs (.tsdim 1 8 3 false) s (fun t => regVal t 1 == 1)),
    runs (.tsdim 1 8 0 false) (withRegs [(8, own 0x301)] ready) (fun t => (curCtx t).cause == 5) &&
      runs (.tsdim 1 8 0 false) (withRegs [(8, own 0x600)] ready) (fun t => (curCtx t).cause == 0xC)] = true := by decide +kernel

/-- The task with A, B and D records of a matrix instruction, one row of 8-bit elements (B has sixteen rows at one place), in s8, s9 and s10, and A and B records of FP32, which
are emulated, in s11 and s12. -/
def withMatrix (s : State) : State :=
  withRegs [(8, own 0x600), (9, own 0x640), (10, own 0x680), (11, own 0x6C0), (12, own 0x700)]
    (withBytes 0x700 (shapeBytes 0x200 0 2 0 96 16 384) (withBytes 0x6C0 (shapeBytes 0xFFFE000000002000 0 2 1 96 1 384)
      (withBytes 0x680 (shapeBytes 0xFFFE000000003000 0 2 1 16 1 64) (withBytes 0x640 (shapeBytes 0x200 3 2 0 384 16 0)
        (withBytes 0x600 (shapeBytes 0xFFFE000000002000 3 2 1 384 1 384) s)))))

/-- An unfinished matrix instruction on accumulator x. -/
def matrixOp (kind : MxKind) (x : Fin 4) (held : Bool) : MxOp :=
  let a := parseShape (shapeBytes 0xFFFE000000002000 3 2 1 384 1 384)
  let b := parseShape (shapeBytes 0x200 3 2 0 384 16 0)
  ⟨kind, x, held, true, none, false, false, 0, own 0x600, own 0x640, 0, 0, a, b, none, none, [⟨0, 0, true⟩, ⟨1, 1, true⟩], [], 1, 0, 1, 0, 0, 0, 0, 0, 0⟩

/-- The task with a queue of matrix instructions. -/
def withQueue (l : List MxOp) (s : State) : State := { s with core := { s.core with mxq := l } }

theorem test_witness_accumulators : all [
    issues (.mzero 1) ready && !accBusy ready 1 1 && unbegun ready 1 == 0 && runs (.mzero 1) ready (fun t => ((t.core.acc.get 1).get 31).get 15 == 0 && pcOf t == 4),
    (let s := withQueue [matrixOp .solo 1 false] ready
     accBusy s 1 1 && s.core.mxq.length < 4 && decide (unbegun s 1 < 2) && runs (.mzero 1) s (fun t => t.core.mxq.length == 2 && pcOf t == 4)),
    (let s := withQueue (List.replicate 4 (matrixOp .solo 1 false)) ready
     accBusy s 1 1 && runs (.mzero 1) s (fun t => pcOf t == 0 && (curCtx t).stalled)),
    (let s := withQueue (List.replicate 2 { matrixOp .solo 1 false with begun := false }) ready
     unbegun s 1 == 2 && runs (.mzero 0) s (fun t => pcOf t == 0 && t.core.mxq.length == 2))] = true := by decide +kernel

/-- What mld reads and checks before it takes its entry. -/
def tileOk (s : State) (addr : Word) : Bool :=
  gives (mxRecord (curAgent s) (curWaiter s) 1 addr bRules (fun _ => true) s) (fun b u1 => b.2 &&
    gives (withInfo (mxInfo 0 0 1) (operandPages (curAgent s) (curWaiter s) needR (parseShape b.1)) u1) (fun _ u2 =>
      gives (withInfo (mxInfo 0 0 1) (operandWindow (curAgent s) (parseShape b.1)) u2) (fun _ v2 =>
        gives (withInfo (mxInfo 0 0 1) (operandDet (curAgent s) (curWaiter s) .load (parseShape b.1)) v2) (fun _ u3 =>
          gives (awaitSpans (curAgent s) (curWaiter s) needR (parseShape b.1) u3) (fun _ u4 => (coreAt u4 1).mxq == s.core.mxq)))))

theorem test_witness_tiles : all [
    (let s := withMatrix ready
     issues (.mld 9 false) s && readable s [9] && queueFree s 1 && tileOk s (own 0x640) && (pairClass 3 3).any (fun c => !c.1) && s.core.mxq.isEmpty &&
       runs (.mld 9 false) s (fun t => t.core.mxq.isEmpty && t.core.tile.any (fun x => x.addr == own 0x640) && pcOf t == 4)),
    (let s := withQueue [{ matrixOp .solo 1 false with begun := false }] (withMatrix ready)
     queueFree s 1 && tileOk s (own 0x640) && runs (.mld 9 false) s (fun t => t.core.mxq.map MxOp.kind == [.solo, .load] && pcOf t == 4)),
    (let s := withMatrix ready
     (pairClass 0 0).any (fun c => c.1) && tileOk s (own 0x700) && runs (.mld 12 false) s (fun t => t.core.tile.isNone && t.core.mxq.isEmpty && pcOf t == 4)),
    (let s : State := { withMatrix ready with core := { (withMatrix ready).core with tile := some ⟨own 0x640, parseShape (shapeBytes 0x200 3 2 0 384 16 384), [], []⟩ } }
     issues (.mrel 9 false) s && queueFree s 1 && s.core.mxq.isEmpty && (clusterAt s 0).refetch.isEmpty && runs (.mrel 9 false) s (fun t => t.core.tile.isNone && pcOf t == 4) &&
       runs (.mrel 8 false) s (fun t => t.core.tile.isSome && t.core.mxq.isEmpty && pcOf t == 4)),
    (let s := withQueue (List.replicate 2 { matrixOp .solo 1 false with begun := false }) (withMatrix ready)
     issues (.mld 9 false) s && !queueFree s 1 && runs (.mld 9 false) s (fun t => pcOf t == 0) && runs (.mrel 9 false) s (fun t => pcOf t == 0)),
    (let s := withMatrix ready
     issues (.mdrain 1 10 0 false false) s && gives (mxRecord (curAgent s) (curWaiter s) 4 (own 0x680) dRules (drainFits (hasPfx (curCtx s)) 0) s) (fun b u => b.2 && !hasPfx (curCtx s) &&
       gives (withInfo (mxInfo 0 0 4) (operandWindow (curAgent s) (parseShape b.1)) u) (fun _ v =>
         gives (withInfo (mxInfo 0 0 4) (operandDet (curAgent s) (curWaiter s) .store (parseShape b.1)) v) (fun _ w => mxRoom s 1 &&
           gives (awaitSpans (curAgent s) (curWaiter s) needW (parseShape b.1) w) (fun _ z => z.core.phys == 1)))) &&
       runs (.mdrain 1 10 0 false false) s (fun t => t.core.mxq.map MxOp.kind == [.drain] && pcOf t == 4))] = true := by decide +kernel

/-- Sixteen cores of the task's row in its partition, and its group of sixteen. -/
def rowGroup (s : State) : State :=
  onPart 0 (fun p => { p with
    ranks := (List.range 16).map (fun k => ⟨k, true, false⟩), groups := [⟨1, 0, 16, List.range 16, 0, 0, 0, 0, 0, none, []⟩] }) s

theorem test_witness_matrix : all [
    (let s := withMatrix ready
     issues (.mmaSolo 0 8 9 false false) s && gives (scaleRegs false false s) (fun x _ =>
       gives (readOperands (curAgent s) (curWaiter s) .solo 0 (hasPfx (curCtx s)) (curCtx s).fmt (own 0x600) (own 0x640) x.1 x.2 s) (fun q u =>
         !q.emu && mxRoom s 1 && (curCtx s).await == .nothing && gives (acceptOperands (curAgent s) (curWaiter s) q u) (fun _ v => v.core.phys == 1))) &&
       runs (.mmaSolo 0 8 9 false false) s (fun t => t.core.mxq.length == 1 && t.core.sliceq.length == 1 && pcOf t == 4)),
    (let s := withMatrix ready
     gives (readOperands (curAgent s) (curWaiter s) .solo 0 false 0 (own 0x6C0) (own 0x700) 0 0 s) (fun q u =>
       q.emu && (curCtx u).await == .nothing && curIdx u == 0 && u.core.phys == 1) &&
       runs (.mmaSolo 0 11 12 false false) s (fun t => (curCtx t).await == .emulation && pcOf t == 0)),
    (let s := onCur (fun x => { x with await := .emulationDone }) (withMatrix ready)
     issues (.mma 0 11 12 false false) s && runs (.mma 0 11 12 false false) s (fun t => pcOf t == 4) && runs (.mmaSolo 0 11 12 false false) s (fun t => pcOf t == 4) &&
       runs (.mgang 0 11 12 false false) s (fun t => pcOf t == 4)),
    (let s := withMatrix ready
     issues (.mma 0 8 9 false false) s && gives (readOperands (curAgent s) (curWaiter s) .mma 0 false 0 (own 0x600) (own 0x640) 0 0 s) (fun q u =>
       !q.emu && !accBusy u 1 0 && unbegun u 1 == 0 && mxRoom s 1 && (waitingMember u 1 0).isNone &&
         (match placeMember 1 (nestKey 0 (((partAt u 0).map (fun p => p.s1root.toNat)).getD 0) q) q (((partAt u 0).map (fun p => p.nhold.toNat)).getD 0) u with
          | (some _, u1) =>
            let placed := dispatchDue 0 u1
            gives (acceptOperands (curAgent s) (curWaiter s) { q with member := ((waitingMember placed 1 0).map NestMember.number).getD 0 } placed) (fun _ _ => true)
          | (none, _) => false))),
    runs (.mma 0 8 9 false false) (withMatrix ready) (fun t => t.core.mxq.map MxOp.held == [true] && pcOf t == 4),
    (let s := withMatrix ready
     issues (.mgang 0 8 9 false false) s && !isRowGroup s 1 && runs (.mgang 0 8 9 false false) s (fun t => (curCtx t).einfo == 0x30)),
    (let s := onCur (fun x => { x with await := .gangGo }) (rowGroup (withMatrix ready))
     isRowGroup s 1 && runs (.mgang 0 8 9 false false) s (fun t => pcOf t == 4)),
    (let s := onCur (fun x => { x with await := .gangFail 0x30010 }) (rowGroup (withMatrix ready))
     runs (.mgang 0 8 9 false false) s (fun t => (curCtx t).cause == 0xF && (curCtx t).einfo == 0x30010))] = true := by decide +kernel

/-- The task with a record of one INT32 element at offset 0x500 of its local store, in s8 to s10. -/
def withVector (s : State) : State :=
  withRegs [(8, own 0x600), (9, own 0x600), (10, own 0x600)] (withBytes 0x600 (shapeBytes 0xFFFE000000000500 5 1 1 1 1 0) (withBytes 0x500 (leBytes 4 21) s))

/-- A vector instruction that the engine takes now, whose next group passes its checks, or, for an indexed form, is performed. -/
def vecOk (i : Instr) (s : State) (last : Bool) : Bool :=
  issues i s && (standingVx s 1 0).isNone && (vecForm i).any (fun form => gives (vecTake i form s) (fun _ u => gives (vecGroup (curAgent s) form u) (fun done _ => done == last)))

theorem test_witness_vectors : all [
    vecOk (.vadd 10 8 9 false false) (withVector ready) true && runs (.vadd 10 8 9 false false) (withVector ready) (fun t =>
      pcOf t == 4 && t.core.vxq.map VxOp.passed == [true] && runs (.vectorElementGroup 1) t (fun u => storeNat u (.ls 1 0 1 0x500) 4 == 42 && u.core.vxq.isEmpty)),
    (let s := withBytes 0x500 (leBytes 4 0) (withVector ready)
     vecOk (.vgath 10 8 9 false) s true && runs (.vgath 10 8 9 false) s (fun t => pcOf t == 4 && t.core.vxq.isEmpty)),
    (let s := withBytes 0x600 (shapeBytes 0xFFFE000000000500 5 1 1 65 1 0) (withVector ready)
     vecOk (.vadd 10 8 9 false false) s false && runs (.vadd 10 8 9 false false) s (fun t => pcOf t == 0 && t.core.vxq.map (fun q => q.vrec.group) == [1]))] = true := by decide +kernel

/-- The task with a value on its way to s7, of data in memory. -/
def loading : State := produce 7 0x55 0x800 false ready

/-- A remote write to s6 of logical core 0. -/
def remote : RemoteWrite := ⟨0, 0, 1, 0, 0, 6, 77⟩

theorem test_witness_arrivals : all [
    ((curCtx loading).prods.any (fun q => q.reg == 7 && !q.failed && !q.bad)) && runs (.loadValueArrival 1 0 7 false) loading (fun t => regVal t 7 == 0x55 && regPresent t 7) &&
      runs (.loadValueArrival 1 0 7 true) loading (fun t => !regPresent t 7 && t.badLines.length == 1),
    (let s := produce 7 0x55 (own 0x100) false ready
     runs (.loadValueArrival 1 0 7 true) s (fun t => !regPresent t 7 && (curCtx t).prods.all (·.failed) && t.core.allocs.map Alloc.bad == [[4]])),
    (let s : State := { withEmpty 6 ready with remotes := [remote] }
     noQuantum s && s.core.part == some 0 && s.core.inbox.isEmpty && runs (.remoteWriteArrival 0) s (fun t => regVal t 6 == 77 && t.core.inbox.isEmpty)),
    runs (.remoteWriteArrival 0) { ready with remotes := [remote] } (fun t => t.core.inbox.length == 1 && t.remotes.isEmpty),
    (let s : State := { withEmpty 6 ready with core := { (withEmpty 6 ready).core with inbox := [⟨6, 77, 0⟩] } }
     remoteFits s.core.ctl 6 [] && runs (.inboxEntryApply 1 0) s (fun t => regVal t 6 == 77 && t.core.inbox.isEmpty)),
    (let s := { onCur (fun x => { x with locks := [7] }) ready with answers := [⟨0, 1, 0, 7, 3⟩] }
     runs (.fpostStatusAnswer 0) s (fun t => regVal t 7 == 3 && !regLocked t 7)),
    (let s := { onCur (fun x => { x with await := .message }) ready with msgs := [⟨0, 0, 0, 0, 1, false, [], 1, 0, some 2⟩] }
     runs (.msendAnswer 1 0) s (fun t => (curCtx t).await == .messageDone 2 && t.msgs.isEmpty)),
    (let s := { withDecls (withGroup [0, 1] 2 ready) with thrs := [(0, 15, 0, 9)] }
     noQuantum s && (partAt s 0).any (fun p => (ringOf p).contains 0 && p.launches.all (fun l => l.pop != 0)) && runs (.thresholdWriteArrival 0) s (fun t => (slotStateOf (clusterAt t 0) 0 (decl 15)).thr == 9))] = true := by
  decide +kernel

/-- A partition whose core runs no task. -/
def idle : State := { withGroup [] 1 ready with core := { (withGroup [] 1 ready).core with run := none, ctl := { ready.core.ctl with live := false } } }

/-- An armed slot 63 of the launch window, with its root at 0x800. -/
def armed (done : Nat) (s : State) (root : Nat := 0x800) : State :=
  { s with mem := memWrite (memWrite s.mem (slotPa 0 63) (dwords [0x100000000 + 0x4C494C50, root, done, 0, 0, 0, 0, 2 ^ 56])) 0x800 (taskBytes 0 0 1) }

theorem test_witness_work : all [
    (let s0 := onCluster 0 (fun c => { c with ready := [queueEntry] }) idle
     noQuantum s0 && (partAt s0 0).any (fun p => coreFree 0 s0.core && (candidate s0 p 0).isNone && lcoreOf p 1 == some 0 && (queueCandidate s0 p 1 0).isSome) &&
       s0.core.deque.isEmpty && runs (.takeWork 1) s0 (fun t => t.core.run.isSome && pcOf t == 0x40)),
    (let s : State := { idle with core := { idle.core with deque := [queueEntry] } }
     (partAt s 0).any (fun p => (queueCandidate s p 1 0).isNone && forkFits s p 1 queueEntry) &&
       runs (.takeWork 1) s (fun t => pcOf t == 0x40 && regVal t 2 == 11 && t.core.deque.isEmpty)),
    !coreFree 0 ready.core && runs (.takeWork 1) ready (fun t => t == ready) && runs (.takeWork 1) (quantum idle) (fun t => t == quantum idle),
    (let s := onCluster 0 (fun c => { c with ready := [queueEntry] }) idle
     (partsIn s 0).length == 1 && (partAt s 0).any (fun p => (scanQueue p 0 (freshBase s p 0) 0 (claims s p 0) [queueEntry]).length == 1) &&
       runs (.groupPlacement 0) s (fun t => t.core.run.isSome && (clusterAt t 0).ready.isEmpty)),
    (let s := onCluster 0 (fun c => { c with ready := [{ queueEntry with passed := 64 }, { queueEntry with passed := 0 }] }) ready
     (partAt s 0).any (fun p => (scanQueue p 0 (freshBase s p 0) 0 (claims s p 0) (clusterAt s 0).ready).isEmpty) &&
       runs (.groupPlacement 0) s (fun t => (clusterAt t 0).ready.map ReadyEntry.passed == [64, 1])),
    (let s := armed 0 ready
     memGet s.mem (slotPa 0 63 + 63) == 1 && (partAt s 0).any (fun p => p.parsed.isEmpty && (List.range 63).all (fun k => memGet s.mem (slotPa 0 k + 63) == 0) &&
       (launchReason 0 (memRead s.mem (slotPa 0 63) 64)).isNone && gives (rootRecord p 1 0x800 s) (fun x _ => x matches .ok _)) &&
       runs (.launchParse 0) s (fun t => (partAt t 0).any (fun p => p.parsed == [63] && p.launches.map Launch.pop == [1]))),
    launchReason 0 (memRead (armed 4 ready).mem (slotPa 0 63) 64) == some 2 && decide (Memory.wf (armed 4 ready).mem) &&
      runs (.launchParse 0) (armed 4 ready) (fun t => memGet t.mem (slotPa 0 63 + 63) == 0),
    runs (.launchParse 0) (armed 0 ready 0x100000) (fun t => t.hwork.length == 1 && (partAt t 0).any (fun p => p.parsed == [63] && p.launches.isEmpty)),
    (partAt ready 0).any (fun p => gives (rootRecord p 1 0x840 ready) (fun x _ => x matches .error 5))] = true := by decide +kernel

/-- The task's core shared with partition 3, the task's partition for a time of it. -/
def shared (n : Nat) (s : State) : State :=
  onPart 0 (fun p => { p with shares := [(1, n)] }) { s with core := { s.core with serves := [0, 3] } }

theorem test_witness_preemption : all [
    (let s := { ready with core := { ready.core with wdog := 0 } }
     s.core.run.isSome && s.core.resume.isNone && s.core.yield.isNone && !handlerRuns s.core),
    (let s : State := { storing with core := { storing.core with wdog := 0 } }
     !handlerRuns s.core && !yieldReady (coreAt (beginYield 1 s) 1) && runs (.watchdogExpiry 1) s (fun t => t.core.yield == some ⟨0, true⟩ && t.core.run.isSome)),
    (let s0 := withStatus 0x100 ready
     let s : State := { s0 with core := { s0.core with wdog := 0 } }
     handlerRuns s.core && runs (.watchdogExpiry 1) s (fun t => t.core.run.isNone && t.core.yield.isNone)),
    (let s0 := withStatus 0x100 ready
     let s : State := { s0 with core := { s0.core with yield := some ⟨65536, false⟩ } }
     yieldWaits s.core && runs (.yieldWaitLimit 1) s (fun t => t.core.run.isNone) &&
       runs (.yieldWaitLimit 1) { s with core := { s.core with yield := some ⟨65535, false⟩ } } (fun t => t.core.run.isSome)),
    (let s := shared 100 ready
     s.core.grace.isNone && nextServed s.core == some 3 && !sliceOver s s.core && runs (.sliceEnd 1 (some 3)) s (fun t => t == s) &&
       sliceOver { s with time := 100 } s.core && runs (.sliceEnd 1 (some 3)) { s with time := 100 } (fun t => t.core.grace == some 65536 && t.core.slice == some 3)),
    runs (.graceExpiry 1) { ready with core := { ready.core with grace := some 5 } } (fun t => t.core.run.isSome),
    (let s : State := { idle with core := { idle.core with grace := some 5, slice := some 3, l1d := [1] } }
     s.core.pend.isEmpty && s.core.stashLines.isEmpty && runs (.graceExpiry 1) s (fun t => t.core.part == some 3 && t.core.l1d.isEmpty)),
    (let s := quantum { ready with core := { ready.core with qnt := 0 } }
     (partAt s 0).any quantumRules && runs (.qntExpiry 1) s (fun t => t.core.atBarrier)),
    (let s := quantum { ready with core := { ready.core with atBarrier := true } }
     (partAt s 0).any (fun p => (coresInOrder s p).all (fun x => coreArrived (coreAt s x.2)) && p.state == 1 && (endQuantum p s).1) && s.dies.toList.all (fun d => d.proxies.isEmpty) && runs (.quantumEnd 0) s (fun t => !t.core.atBarrier)),
    (let s := quantum ready
     (partAt s 0).any (fun p => !(coresInOrder s p).all (fun x => coreArrived (coreAt s x.2))) && runs (.quantumEnd 0) s (fun t => t == s)),
    (let w : Watch := ⟨1, 0, .ls 1 0 1 0x700, { queueEntry with start := .continuation, phys := some 1 }⟩
     let s := onPart 0 (fun p => { p with ovfWatches := [w] }) ready
     overflowHolds s w && runs (.overflowWatchScan 0) s (fun t => (partAt t 0).any (fun p => p.ovfWatches.isEmpty) && (clusterAt t 0).ready.length == 1))]
    = true := by decide +kernel

/-- An entry of the row's Nesting buffer with the task's member, whose hold limit is at a time. -/
def nesting (limit : Nat) (s : State) : State :=
  onCluster 0 (fun c => { c with nest := [⟨0, [], [⟨1, 0, 0, 1, limit, true⟩], 1, 96⟩] }) (withQueue [matrixOp .mma 0 true] s)

/-- A request for the control core of die 0 to emulate an instruction of the task. -/
def emulating (a : Await) (s : State) : State :=
  onCur (fun x => { x with await := a })
    { s with dies := s.dies.set 0 ⟨[], [⟨1, { matrixOp .solo 0 false with total := 0 }, false, false⟩], BlackBox.reset⟩ }

/-- The operation of the task's slice for its first unfinished instruction, of priority 3. -/
def sliced (l : List MxOp) (s : State) : State := { s with core := { s.core with mxq := l, sliceq := [⟨0, 3⟩], sliceIds := 1 } }

/-- An mma.solo on the task's own slice. -/
def slicedOp (total : Nat) : MxOp := { matrixOp .solo 0 false with host := some (1, 0), total }

/-- Channel 2 of the task's core with a copy of four words, some bytes done. -/
def copying (done : Nat) (s : State) : State :=
  let j : CopyJob := ⟨none, own 0x300, own 0x340, parseShape (shapeBytes 0xFFFE000000000500 5 1 1 4 1 0), parseShape (shapeBytes 0x800 5 1 0 4 1 0), done, [], []⟩
  { s with core := { s.core with chans := s.core.chans.set 2 ⟨.running, 0, 0, some j, 0, none, .nothing⟩ } }

theorem test_witness_engines : all [
    runs (.nestingHoldExpiry 0 0) (nesting 5 (withMatrix ready)) (fun t => (clusterAt t 0).nest.length == 1) &&
      runs (.nestingHoldExpiry 0 0) (nesting 0 (withMatrix ready)) (fun t => (clusterAt t 0).nest.isEmpty && t.core.mxq.all (fun q => !q.held)),
    runs (.nestingHoldExpiry 0 0) (onCluster 0 (fun c => { c with nest := c.nest.map (fun e => { e with members := e.members.map (fun m => { m with ready := false }) }) })
      (nesting 0 (withMatrix ready))) (fun t => (clusterAt t 0).nest.length == 1),
    (runnableOp (withQueue [matrixOp .mma 0 true] ready) 1 0).isNone && runs (.mdrainRow 1 0) (withQueue [matrixOp .mma 0 true] ready) (fun t => t.core.mxq.length == 1),
    (sliceChoice ready 1).isNone && runs (.matrixKStep 1 0) ready (fun t => t == ready),
    (let s := sliced [slicedOp 1] (withMatrix ready)
     sliceChoice s 1 == some ⟨0, 3⟩ && sliceMembers s 1 ⟨0, 3⟩ == [(1, 0)] && gives (fetchStep 1 0 s) (fun _ u => u.core.mxq.any (fun q => gives (readStep 1 q u) (fun _ _ => true))) &&
       runs (.matrixKStep 1 0) s (fun t => t.core.mxq.isEmpty && (t.core.steps.get 0).get 0 == 1)),
    (let s := sliced [slicedOp 2] (withMatrix ready)
     gives (fetchStep 1 0 s) (fun _ u => u.core.mxq.any (fun q => gives (readStep 1 q u) (fun x v =>
       gives (fetchStep 1 0 (putOp 1 0 (some (q.stepped (stepFlags (coreAt v 1) q x))) (onCore 1 (stepCore q x) v))) (fun _ _ => true))))),
    (let s := { sliced [slicedOp 1] (withMatrix ready) with badLines := [8] }
     gives (fetchStep 1 0 s) (fun _ u => u.core.mxq.any (fun q => readStep 1 q u matches .error (.trap 0x17 _ _) _))),
    (let d := parseShape (shapeBytes 0xFFFE000000003000 0 2 1 16 1 64)
     let q : MxOp := { matrixOp .drain 0 false with a := d, hpc := 0x40 }
     let s := withQueue [q] ready
     (runnableOp s 1 0).isSome && s.core.hreqs.isEmpty && gives (writeMem (chanAgent s 1).onElems .hw .other (elemAddr d #v[0, 0, 0, 0]) (drainRow s.core q 0).1 s) (fun _ _ => true) &&
       runs (.mdrainRow 1 0) s (fun t => t.core.hreqs.length == 1) && runs (.mdrainRow 1 0) (withQueue [{ q with hpc := 0 }] ready) (fun t => t.core.hreqs.isEmpty)),
    (let d := parseShape (shapeBytes 0xFFFE000000018000 0 2 1 16 1 64)
     let q : MxOp := { matrixOp .drain 0 false with a := d, hpc := 0x40 }
     let s := withQueue [q] ready
     (writeMem (chanAgent s 1).onElems .hw .other (elemAddr d #v[0, 0, 0, 0]) (drainRow s.core q 0).1 s matches .error (.trap ..) _) &&
       runs (.mdrainRow 1 0) s (fun t => t.core.mxq.isEmpty && (curCtx t).deferred.length == 1)),
    runs (.formatEmulationRequest 0) (emulating .nothing ready) (fun t => (t.dies.get 0).emus.isEmpty),
    (let s := emulating .emulation (withMatrix ready)
     (s.dies.get 0).emus.all (fun r => r.stands s && r.turn s) && gives (acceptOperands (chanAgent s 1) .hw { matrixOp .solo 0 false with total := 0 } s) (fun q u =>
       gives (emulateSteps 1 q.total q u) (fun _ v => (v.dies.get 0).emus.length == 1)) &&
       runs (.formatEmulationRequest 0) s (fun t => (curCtx t).await == .emulationDone)),
    (let s := withQueue [matrixOp .mma 0 true] (emulating .emulation ready)
     (s.dies.get 0).emus.all (fun r => r.stands s && !r.turn s) && runs (.formatEmulationRequest 0) s (fun t => (t.dies.get 0).emus.length == 1)),
    (let s0 := emulating .emulation ready
     let bad := parseShape (shapeBytes 0xFFFE000000018000 3 2 1 384 1 384)
     let put := fun (q : MxOp) => { s0 with dies := s0.dies.set 0 ⟨[], [⟨1, q, false, false⟩], BlackBox.reset⟩ }
     let s := put { matrixOp .solo 0 false with total := 0, a := bad }
     (acceptOperands (chanAgent s 1) .hw { matrixOp .solo 0 false with total := 0, a := bad } s matches .error (.trap ..) _) &&
       runs (.formatEmulationRequest 0) s (fun t => (curCtx t).await matches .emulationTrap ..) &&
       runs (.formatEmulationRequest 0) (put { matrixOp .gang 0 false with total := 0, a := bad }) (fun t => (clusterAt t 0).gangs.length == 1)),
    (let s0 := emulating .emulation (withMatrix ready)
     let q : MxOp := { matrixOp .gang 0 false with total := 0 }
     let s := { s0 with dies := s0.dies.set 0 ⟨[], [⟨1, q, false, false⟩], BlackBox.reset⟩ }
     gives (acceptOperands (chanAgent s 1) .hw q s) (fun r _ => r.kind == .gang) && runs (.formatEmulationRequest 0) s (fun t => (clusterAt t 0).gangs.length == 1)),
    (let s0 := emulating .emulation { withMatrix ready with badLines := [8] }
     let q := matrixOp .solo 0 false
     let s := { s0 with dies := s0.dies.set 0 ⟨[], [⟨1, q, true, false⟩], BlackBox.reset⟩ }
     (emulateSteps 1 1 q s matches .error (.trap ..) _) && runs (.formatEmulationRequest 0) s (fun t => (curCtx t).await == .emulationDone && (curCtx t).deferred.length == 1)),
    runs (.vectorElementGroup 1) ready (fun t => t == ready),
    (let s := withVector ready
     let i : Instr := .vadd 10 8 9 false false
     (vecForm i).any (fun form => gives (vecTake i form s) (fun _ u => gives (vecGroup (agentAt u 1 0) form u) (fun done _ => done) &&
       u.core.vxq.all (fun q => !q.passed) && runs (.vectorElementGroup 1) u (fun t => t.core.vxq.length == 1)))),
    runs (.vadd 10 8 9 false false) (withVector ready) (fun u => u.core.vxq.all (·.passed) && (vecForm (.vadd 10 8 9 false false)).any (fun form =>
      gives (vecFinish (agentAt u 1 0) form u) (fun _ _ => true)) && runs (.vectorElementGroup 1) u (fun t => t.core.vxq.isEmpty)),
    runs (.vadd 10 8 9 false false) (withVector ready) (fun u0 =>
      let u : State := { u0 with core := { u0.core with allocs := u0.core.allocs.map (fun a => { a with bad := [20] }) } }
      runs (.vectorElementGroup 1) u (fun t => t.core.vxq.isEmpty && (curCtx t).deferred.length == 1)),
    runs (.copyLineWrite 1 2) ready (fun t => t == ready) && runs (.copyRecordFinish 1 2) ready (fun t => t == ready),
    (let s := copying 0 ready
     s.core.owes.isEmpty && ((s.core.chans[2]).job).any (fun j => decide (j.done < jobBytes j) && gives (copyLine 1 2 j s) (fun _ _ => true))),
    (let s := copying 16 ready
     ((s.core.chans[2]).job).any (fun j => decide (jobBytes j ≤ j.done)) && runs (.copyRecordFinish 1 2) s (fun t => (t.core.chans[2]).state == .idle)),
    (let s := onChan 1 2 (fun k => { k with state := .running, rcd := own 0x380 }) (withPair 1 ready)
     gives (chanContinue 1 2 s) (fun _ _ => true) && runs (.copyLineWrite 1 2) s (fun t => (t.core.chans[2]).job.isSome))] = true := by
  decide +kernel

/-- A post of the task to slot n of its own cluster. -/
def post (n : Nat) : Post := ⟨0, n, 9, 5, 0, 1, 0, some 7⟩

theorem test_witness_stores_advance : all [
    (let s := { withDecls ready with posts := [post 3] }
     noQuantum s && (partAt s 0).any (fun p => (declOf p 3).isNone && p.launches.isEmpty) && runs (.foldPostArrival 0) s (fun t => t.answers == [⟨0, 1, 0, 7, 3⟩])),
    (let s := { withDecls ready with posts := [post 15] }
     (partAt s 0).any (fun p => gives (applyPost p (decl 15) 0 9 5 false s) (fun st _ => st == 1)) &&
       runs (.foldPostArrival 0) s (fun t => (clusterAt t 0).fold.length == 1 && t.answers.length == 1)),
    (let s := onCluster 0 (fun c => { c with quotas := [(0, 1)] }) (withFold [foldEntry 15 9 5] (withDecls ready))
     decide (3 * quotaOf s 0 0 ≤ 4 * foldCount s 0 0) && runs (.foldReplay 0 0) s (fun t => t == s)),
    (let s := withDecls ready
     decide (4 * foldCount s 0 0 < 3 * quotaOf s 0 0) && runs (.foldReplay 0 0) s (fun _ => true)),
    (let s := withFold [foldEntry 15 9 5] (withDecls ready)
     !thrOnWay s 0 15 && (partAt s 0).any (fun p => !topPassive s p (decl 15) 0) && runs (.topTokenPass 0 15) s (fun t => t == s)),
    (let s := withDecls ready
     (partAt s 0).any (fun p => topPassive s p (decl 15) 0 && (ringOf p).length == 1) && runs (.topTokenPass 0 15) s (fun t => (partAt t 0).any (fun p => p.tops.isEmpty))),
    (let s := onPart 0 (fun p => { p with ranks := [⟨1, true, false⟩, ⟨257, true, false⟩] }) (withDecls ready)
     (partAt s 0).any (fun p => topPassive s p (decl 15) 0 && (ringOf p).length == 2) &&
       runs (.topTokenPass 0 15) s (fun t => (partAt t 0).any (fun p => p.tops.map Top.holder == [1])))] = true := by decide +kernel

/-- The task waits for page 9 of function 0, whose request is in slot 3. -/
def paging (s : State) : State :=
  onFunc 0 (fun f => { f with slots := [⟨3, 9, f.gen, 1, false⟩] }) (onCur (fun x => { x with await := .page 9 0x9000 }) s)

theorem test_witness_pages : all [
    (requestOf ready 0 3 0).isNone && (requestOf (paging ready) 0 3 0).isSome && (partAt ready 0).any (fun p => p.vf == 0),
    runs (.pageReplySuccess 0 3 0) (paging ready) (fun t => (curCtx t).await == .pageDone 9 1 true 0x9000) &&
      runs (.pageReplyInvalidRequest 0 3 0) (paging ready) (fun t => (curCtx t).await == .pageDone 9 1 false 0x9000) &&
      runs (.pageReplyResponseFailure 0 3 0) (paging ready) (fun t => (funcAt t 0).failed),
    (let s := onFunc 0 (fun f => { f with waiting := [⟨0, 12, 0, 2, false⟩] }) (paging ready)
     runs (.pageReplySuccess 0 3 0) s (fun t => (funcAt t 0).waiting.isEmpty && (funcAt t 0).slots.map PageReq.page == [12])),
    (let q : PendAcc := ⟨0, .mem 0x100, false, false, false, false, 0x100, .core, .store [1]⟩
     let s := { withPend q ready with hostLines := [4] }
     !operandsInFlight s 0 3 0 && pendingHomeLines s 0 == [4] && runs (.hostStage2Invalidation 0 none) s (fun t => t.hostWaits == [4] && !t.core.tlb.isEmpty)),
    runs (.functionReset 0) (paging ready) (fun t => (funcAt t 0).gen == 1 && (funcAt t 0).slots.isEmpty),
    !operandsInFlight ready 0 3 0 && (pendingHomeLines ready 0).isEmpty && (allCores ready).all (fun c => c.pend.isEmpty && c.stashLines.isEmpty) &&
      runs (.hostStage2Invalidation 0 none) ready (fun t => t.core.tlb.isEmpty),
    (let s := withQueue [matrixOp .solo 0 false] ready
     operandsInFlight s 0 3 0 && runs (.hostStage2Invalidation 0 none) s (fun t => t == s))] = true := by decide +kernel

theorem test_witness_outside : all [
    !hostReaches ready 0 0x3000000000 && runs (.cxlMemWrite (0, 0x3000000000) [1]) ready (fun _ => true) && runs (.cxlMemRead (0, 0x3000000000)) ready (fun _ => true),
    hostReaches ready 0 0x13F && isDram 0x13F && decide (Memory.wf ready.mem) && runs (.cxlMemWrite (0, 0x13F) [7]) ready (fun t => memRead t.mem 0x13F 1 == [7]) &&
      runs (.cxlMemRead (0, 0x13F)) ready (fun t => t.hostLines == [4]),
    runs (.cxlMemWrite (0, 0x13F) [7]) { ready with hostLines := [4] } (fun t => t.hostWaits == [4]),
    (let s := { ready with owned := [(4, 1, 0)] }
     ownedLine s 4 && runs (.cxlMemWrite (0, 0x13F) [7]) s (fun t => t == s) && runs (.cxlMemRead (0, 0x13F)) s (fun t => t == s) &&
       runs (.bolmorRemoteAccess 0 0x13E 1 [8, 9]) s (fun t => t == s)),
    runs (.hostSnoop 0xC00000000003E [1, 2]) { ready with owned := [(0x300000000000, 1, 0)] } (fun t => memRead t.mem 0xC00000000003E 2 == [0, 0]),
    runs (.cxlMemWrite (0, 0x13F) [7]) { ready with badLines := [4] } (fun t => memGet t.mem 0x13F == 0 && t.badLines == [4]),
    isHost 0xC000000000000 && runs (.hostSnoop 0xC00000000003E [1, 2]) ready (fun t => memRead t.mem 0xC00000000003E 2 == [1, 2]),
    runs (.backInvalidationAck 4) ready (fun t => t == ready) && runs (.backInvalidationAck 4) { ready with hostWaits := [4], hostLines := [4] } (fun t => t.hostLines.isEmpty),
    (bankAt ready 0).owner == some 0 && runs (.bolmorRemoteAccess 0 0x13E 1 [8, 9]) ready (fun t => memRead t.mem 0x13E 2 == [8, 9]) &&
      runs (.bolmorRemoteAccess 1 0x13E 1 [8, 9]) ready (fun t => memRead t.mem 0x13E 2 == [0, 0]),
    runs (.bolmorRemoteAccess 0 0x13E 1 [8]) { ready with hostLines := [4] } (fun t => t.hostWaits == [4]),
    (let s := withPend (pendOf ready (.mem 0x8000000000100) 0x800 .sys (.store [1])) ready
     s.core.pend.all (fun q => q.place.inPackage 0) && packageOf 0x8000000000100 == some 0 &&
       runs (.linkRetryExhausted (1, some 0)) s (fun t => t.core.pend.isEmpty && (curCtx t).deferred == [⟨0x17, 0x800, 0⟩]) &&
       runs (.linkRetryExhausted (1, some 1)) s (fun t => t.core.pend.length == 1)),
    runs (.linkRetryExhausted (1, none)) (withTree 1 [0, 1] [] ready) (fun t => (partAt t 0).any (fun p => p.trees.map (fun x => x.t0) == [0x1901])),
    (let s := { ready with partials := [⟨0x138, none, 0, 0, .add, 8, false, none, 5⟩], hostLines := [4] }
     hasPartials 4 s && runs (.cxlMemRead (0, 0x13F)) s (fun t => t.hostWaits == [4]))] = true := by decide +kernel

/-- A line in the own cluster's cache. -/
def cached (line : Nat) (s : State) : State := onCluster 0 (fun c => { c with lines := [⟨line, 0, Vector.replicate 64 0, 0⟩] }) s

theorem test_witness_lines : all [
    (let s := cached 4 ready
     (lineAt s 0 4).isSome && (clusterAt s 0).pins.isEmpty && runs (.cacheEviction 0 4) s (fun t => (lineAt t 0 4).isNone)),
    (let s := onCluster 0 (fun c => { c with pins := [4] }) (cached 4 ready)
     runs (.cacheEviction 0 4) s (fun t => t == s)),
    (let s := { cached 4 ready with owned := [(4, 1, 0)] }
     runs (.cacheEviction 0 4) s (fun t => t == s)),
    runs (.cacheEviction 64 4) { ready with dieLines := [(4, 0)] } (fun t => t.dieLines.isEmpty) && homeDie 256 == 0,
    runs (.updateOnlyEviction 1 4) ready (fun t => t.partials.isEmpty),
    runs (.lineRetirement (none, 4)) { ready with badLines := [4] } (fun t => t.badLines.isEmpty && t.io.auditSeq == 1)] = true := by decide +kernel

/-- The state at a time. -/
def atTime (t : Nat) (s : State) : State := { s with time := t }

theorem test_witness_banks : all [
    (let s := atTime 2000 ready
     (bankAt s 0).state == .active && bankAge s 0 == 20 && !heldByPhase s 0 && runs (.bankRetentionEntry 0) s (fun t => (bankAt t 0).state == .retention)),
    bankAge (atTime 1999 ready) 0 == 19 && runs (.bankRetentionEntry 0) (atTime 1999 ready) (fun t => (bankAt t 0).state == .active),
    (let s := { ready with wakes := [⟨1, 0, false, false, true⟩, ⟨2, 0, true, false, false⟩] }
     arbiterOf 1 == 0 && arbiterOf 2 == 0 && slotsUsed s 0 == 0 && runs (.wakeSlotGrant 0) s (fun t => t.wakes.map Wake.granted == [false, true])),
    (let s := { ready with wakes := (List.range 16).map (fun k => ⟨k, 0, true, true, false⟩) ++ [⟨16, 0, true, false, false⟩] }
     slotsUsed s 0 == 16 && runs (.wakeSlotGrant 0) s (fun t => t == s)),
    (let s := { ready with wakes := [⟨0, 0, true, true, true⟩], banks := [⟨0, .waking, some 0, 0, 0, 0⟩] }
     runs (.bankWakeComplete 0) s (fun t => (bankAt t 0).state == .active && t.wakes.isEmpty && memGet t.mem 0x13F == 0)),
    (let s := { ready with banks := [⟨1, .powerDown, some 0, 0, 0, 0⟩], wakes := [⟨1, 0, true, false, false⟩] }
     runs (.wakeSlotGrant 0) s (fun t => (bankAt t 1).state == .powerDown && t.wakes.all (·.granted) &&
       runs (.bankPowerDownComplete 1) t (fun u => (bankAt u 1).state == .waking))),
    (let s := atTime 2000 (onBank 0 (fun k => { k with stay := 2001 }) ready)
     runs (.bankRetentionEntry 0) s (fun t => (bankAt t 0).state == .active)),
    runs (.bankPowerDownComplete 0) { ready with banks := [⟨0, .powerDown, none, 0, 0, 0⟩] } (fun t => (bankAt t 0).state == .off),
    (let s := cached 4 idle
     (allCores s).all coreRests && runs (.clusterRetentionEntry 0) s (fun t => (clusterAt t 0).retained && (clusterAt t 0).lines.isEmpty)),
    runs (.clusterRetentionEntry 0) ready (fun t => t == ready),
    (let s := onCluster 0 (fun c => { c with retained := true }) (withFold [foldEntry 15 9 5] idle)
     runs (.clusterRetentionExit 0 false) s (fun t => (clusterAt t 0).fold.length == 1) && runs (.clusterRetentionExit 0 true) s (fun t => (clusterAt t 0).fold.isEmpty))]
    = true := by decide +kernel

/-- A request of the task at the control core of die 0: a swap at an offset of the register block of partition 0. -/
def request (runtime : Bool) (off : Nat) (v : Word) : ProxyReq := ⟨1, 1, 0, 0, runtime, 0x900, 0x10100000000 + off, .swap, 8, v, true⟩

/-- The task waits for that request. -/
def asking (q : ProxyReq) (s : State) : State :=
  onCur (fun x => { x with await := .proxy }) { s with dies := s.dies.set 0 ⟨[q], [], BlackBox.reset⟩ }

/-- The answer that the task has. -/
def answered (i : Instr) (q : ProxyReq) (s : State) (a : Await) : Bool :=
  runs i (asking q s) (fun t => (curCtx t).await == a && (t.dies.get 0).proxies.isEmpty)

theorem test_witness_proxies : all [
    (let q : ProxyReq := { request false 0 5 with pa := 0xC000000000000, op := .add }
     !q.toRegs && (takeProxy (asking q ready) 0 (fun k => k.lane == 1)).isSome && answered (.proxyAtomicService 0 1) q ready (.proxyDone 0) &&
       answered (.proxyAtomicService 0 1) q { ready with badLines := [0x300000000000] } (.proxyTrap 0x17 0x900 0) &&
       runs (.proxyAtomicService 0 1) (asking { q with returns := false, va := 0x908 } { ready with badLines := [0x300000000000] })
         (fun t => (curCtx t).deferred == [⟨0x17, 0x900, 0⟩])),
    (let s := asking { request false 0 5 with pa := 0xC000000000000, op := .add } { ready with owned := [(0x300000000000, 1, 0)] }
     runs (.proxyAtomicService 0 1) s (fun t => t == s)),
    (let s := withQueue [matrixOp .solo 0 false] (asking (request true 0x3000 0x1000) ready)
     operandsInFlight (lessStage1 s) 0 1 0 && runs (.s1rootSwap 0) s (fun t => t == s)),
    (request false 0x3020 5).toRegs && runs (.proxyAtomicService 0 1) (asking (request false 0x3020 5) ready) (fun t => t == asking (request false 0x3020 5) ready),
    answered (.proxyAtomicService 0 1) { request false 0x3020 0 with op := .add } ready (.proxyDone 0) &&
      answered (.proxyAtomicService 0 1) { request false 0x3010 0 with op := .or } ready (.proxyDone 0),
    (takeProxy (asking (request true 0x3020 2) ready) 0 (fun k => k.swaps 0x3020 0x3028)).isSome,
    answered (.hbaseSwap 0) (request true 0x3020 2) ready (.proxyDone 0) && answered (.hbaseSwap 0) (request false 0x3020 2) ready (.proxyTrap 0x03 0x900 0) &&
      answered (.hbaseSwap 0) (request true 0x3020 1) ready (.proxyTrap 0x09 0x900 12),
    answered (.ovfbaseSwap 0) (request true 0x3010 0x10000) ready (.proxyDone 0) && answered (.ovfsizeSwap 0) (request true 0x3018 0x8000) ready (.proxyTrap 0x09 0x900 12) &&
      answered (.ovfsizeSwap 0) (request true 0x3018 0x10000) (onPart 0 (fun p => { p with ovfReady := [queueEntry] }) ready) (.proxyTrap 0x09 0x900 19),
    !operandsInFlight (lessStage1 (asking (request true 0x3000 0x1000) ready)) 0 1 0 && answered (.s1rootSwap 0) (request true 0x3000 0x1000) ready (.proxyDone 0) &&
      answered (.s1attrSwap 0) (request true 0x3008 0x0707070707070707) ready (.proxyDone 0)] = true := by decide +kernel

/-- A stash entry of the task: global line 32 (0x800) to local line 2, one line. -/
def mapped (s : State) : State := { s with core := { s.core with stash := [⟨3, 0, 1, 0x801, 0x10002⟩] } }

theorem test_witness_register_block : all [
    (let q := request false 0 0x801
     let s := asking q { ready with core := { ready.core with stash := [⟨0, 0, 1, 0, 0x10002⟩] } }
     (takeProxy s 0 (fun k => k.swaps 0 0x100 && k.off % 16 == 0)).isSome && stashOk s.core { stashAt s q 0 with a := 0x801 } && s.core.stashLines.isEmpty &&
       runs (.stashEntryASwap 0) s (fun t => (curCtx t).await == .proxyDone 0 && (stashAt t q 0).a == 0x801)),
    answered (.stashEntryASwap 0) (request false 0 0x803) ready (.proxyTrap 0x09 0x900 12),
    answered (.stashEntryBSwap 0) (request false 0x38 5) (mapped ready) (.proxyTrap 0x09 0x900 13) &&
      answered (.stashEntryBSwap 0) (request false 0x28 5) (mapped ready) (.proxyDone 0),
    answered (.treeT0Swap 0) (request true 0x1070 0x30000) ready (.proxyDone 0) && answered (.treeT0Swap 0) (request true 0x1070 0x10001) ready (.proxyTrap 0x09 0x900 14),
    (let s := withTree 0 [] [] (onPart 0 (fun p => { p with ranks := [⟨1, true, false⟩, ⟨2, true, false⟩] }) { ready with mem := memWrite ready.mem 0x800 [0, 0, 1, 0] })
     let s := onPart 0 (fun p => { p with trees := [⟨0, 0, 0x800, [], [], [], false⟩] }) s
     let q := request true 0x1000 0x20001
     gives (readLeaves q 0x800 2 (asking q s)) (fun l u => (partAt u 0).any (fun p => leavesOk p l && p.contribs.isEmpty)) &&
       runs (.treeT0Swap 0) (asking q s) (fun t => (partAt t 0).any (fun p => p.trees.map Tree.leaves == [[0, 1]]))),
    !monConfigOk 2 && answered (.monitorConfigSwap 0) (request true 0x2700 2) ready (.proxyTrap 0x09 0x900 18),
    monConfigOk 1 && runs (.monitorConfigSwap 0) (asking (request true 0x2700 1) ready) (fun t => ((clusterAt t 0).mons.get 7).config == 1),
    monConfigOk 0 && runs (.monitorConfigSwap 0) (asking (request true 0x2700 0) ready) (fun t => ((clusterAt t 0).mons.get 7).config == 0),
    otherSwap (request true 0x1078 9) && runs (.partitionRegisterWrite 0) (asking (request true 0x1078 9) ready) (fun t => (partAt t 0).any (fun p => (treeOf p 7).t1 == 9)),
    otherSwap (request true 0x2008 9) && answered (.partitionRegisterWrite 0) (request true 0x2008 9) ready (.proxyTrap 0x09 0x900 18) &&
      answered (.partitionRegisterWrite 0) (request true 0x3030 9) ready (.proxyTrap 0x09 0x900 0)] = true := by decide +kernel

/-- The module after its boot. -/
def booted (s : State) : State := { s with io := { s.io with booted := true } }

theorem test_witness_partitions : all [
    !ready.io.booted && runs (.release 0) ready (fun t => t.io.response == .notBooted),
    (create 5 [5, 4] [7] 3 true [(4, 10000)] (booted ready)).isSome && runs (.create 5 ([5, 4], [(4, 10000)]) [7] 3 true) (booted ready) (fun t =>
      (partAt t 5).any (fun p => p.ranks.map RankEntry.phys == [4, 5]) && t.layout == 1),
    (create 0 [5, 4] [7] 3 true [] (booted ready)).isNone,
    (armedSlots ready 0).isEmpty && decide ((ready.others.map Core.phys).Pairwise (· < ·)) && decide (ready.core.phys ∉ ready.others.map Core.phys) &&
      runs (.release 0) (booted ready) (fun t => (partAt t 0).isNone && t.layout == 1 && t.core.part.isNone),
    runs (.sets2 0 0x1000 7 0xFFFFF) (booted ready) (fun t => (partAt t 0).any (fun p => p.pasid == 0xFFFFF)) &&
      runs (.sets2 0 0x1000 7 0x100000) (booted ready) (fun t => t.io.response == .error),
    (setQuota 0 (some 0) 65536 (booted ready)).isSome && noQuantum ready && runs (.setquota 0 (some 0) 65536) (booted ready) (fun t => quotaOf t 0 0 == 65536)] = true := by
  decide +kernel

/-- A staged change of the layout. -/
def changing (h : Shadow) (s : State) : State := onPart 0 (fun p => { p with shadow := some h, state := 2 }) s

theorem test_witness_layouts : all [
    (resize 0 [5] 0 100 (booted ready)).isSome && runs (.resize 0 [5] 0 100) (booted ready) (fun t => (partAt t 0).any (fun p => p.state == 2)),
    (partAt ready 0).any (fun p => physOf p 0 == some 1 && p.groups.isEmpty) && (replace 0 0 5 (booted ready)).isSome &&
      runs (.replace 0 0 5) (booted ready) (fun t => (partAt t 0).any (fun p => p.ranks == [⟨1, true, true⟩])),
    (let h : Shadow := ⟨[⟨1, true, false⟩, ⟨5, true, false⟩], 0, 0, 0, [], [], [], true, false, 100⟩
     let s := changing h ready
     (partAt s 0).any (fun p => quiesced s p h && layoutFits p h s && p.ovfReady.isEmpty && ringOf p == ringOf { p with ranks := h.ranks }) && s.clusters.all (fun c => c.ready.isEmpty) && runs (.layoutTick 0) s (fun t => t.layout == 1)),
    (let h : Shadow := ⟨[⟨1, true, false⟩, ⟨257, true, false⟩], 0, 0, 0, [], [], [], true, false, 100⟩
     let s := onCluster 1 (fun c => { c with quotas := [(9, 65000)] }) (changing h { ready with parts := ready.parts ++ [newPartition 9 [258] [] 0 0 false []] })
     (partAt s 0).any (fun p => quiesced s p h && !layoutFits p h s) && runs (.layoutTick 0) s (fun t => t.layout == 0 && (partAt t 0).any (fun p => p.shadow.isNone && p.state == 1))),
    (let h : Shadow := ⟨[⟨1, true, false⟩, ⟨257, true, false⟩], 0, 0, 0, [], [], [], true, false, 100⟩
     let s := changing h (withDecls ready)
     (partAt s 0).any (fun p => quiesced s p h && layoutFits p h s && ringOf p != ringOf { p with ranks := h.ranks } && gives (spilled p s) (fun _ _ => true)) &&
       runs (.layoutTick 0) s (fun t => t.layout == 1)),
    (let h : Shadow := ⟨[⟨5, true, false⟩], 0, 0, 0, [], [], [1], true, false, 100⟩
     let s := changing h ready
     (partAt s 0).any (fun p => !quiesced s p h) && runs (.layoutTick 0) s (fun t => t == s) && runs (.shrinkLimitExpiry 0) s (fun t => t == s) &&
       runs (.shrinkLimitExpiry 0) (atTime 100 s) (fun t => (partAt t 0).any (fun p => p.shadow.isNone && p.state == 1)))] = true := by decide +kernel

theorem test_witness_evidence : all [
    runs .summary ready (fun t => t.io.response == .notBooted),
    runs (.logread 0 9) (booted ready) (fun t => t.io.response == .data []) && runs (.bbread 0 0 1) (booted ready) (fun t => t.io.response == .data []),
    runs (.auditAppend [0] [10] [[1]]) ready (fun t => t.io.auditSeq == 1) && runs (.auditAppend [0] [11] [[1]]) ready (fun t => t == ready),
    (let s := record 4 0x001 0 0 1 2 ready
     (recorderAt s 4).staged.length == 1 && !(recorderAt s 4).frozen && runs (.blackBoxWrite 4) s (fun t => (recorderAt t 4).head == 1) &&
       runs (.blackBoxWrite 4) { s with io := { s.io with bb := { s.io.bb with dropped := 3 } } } (fun t => (recorderAt t 4).dropped == 0 && (recorderAt t 4).entries.map BBEntry.dropped == [3]) &&
       runs (.fatalError 4) s (fun t => (recorderAt t 4).frozen))] = true := by decide +kernel

theorem test_witness_power : all [
    runs (.budgetTreeUpdate [3200001] []) ready (fun t => t == ready) && decide (((allCores ready).map Core.phys).Nodup) &&
      runs (.budgetTreeUpdate [3100000, 0, 0, 0, 100001] []) ready (fun t => t == ready) &&
      runs (.budgetTreeUpdate [3100000, 0, 0, 0, 100000] [(1, [5, 1, 0, 64])]) ready (fun _ => true) &&
      runs (.budgetTreeUpdate [3100000, 0, 0, 0, 100000] []) { idle with core := { idle.core with duty := 4 } } (fun t => t.core.duty == 16),
    runs (.rampWindow 1 4000) ready (fun t => t.core.busyPrev == 500),
    runs (.governorWindow 1 8 7) ready (fun t => t.core.freq == 3875) && runs (.governorWindow 1 8 6) ready (fun t => t.core.freq == 4000) &&
      runs (.governorWindow 1 8 2) { ready with core := { ready.core with freq := 3950 } } (fun t => t.core.freq == 4000),
    runs (.microcontrollerLoop [] [] [] ([900], 30, 60)) ready (fun t => (clusterAt t (nthCluster 0)).limit == some 900 && t.io.slowBelow == 30),
    (let s := onCluster (nthCluster 0) (fun c => { c with limit := some 15 }) ready
     runs (.microcontrollerLoop [96] [] [] ([900], 30, 60)) s (fun t => (clusterAt t (nthCluster 0)).limit == some 13))] = true := by decide +kernel

/-- The key whose secret is 1 (RFC 5639: the base point), and its signature of the empty message with the number 1. -/
def testKey : List Byte := (leBytes 48 curveX).reverse ++ (leBytes 48 curveY).reverse

def testSig : List Byte :=
  (leBytes 48 (curveX % curveN)).reverse ++
    (leBytes 48 0x55ccc597ba7bdc37ef7f6d00697322d5aa455af893af5727278c92bd70b3f2c30f75bef41e45aca6c4a285d3906d6879).reverse

theorem test_witness_signature : ecdsaOk testKey testSig [] = true := by decide +kernel

theorem test_witness_resets : all [
    (let s := { ready with io := { ready.io with fuse := sha384 testKey } }
     sha384 testKey == s.io.fuse && runs (.coldReset (testKey, testSig) []) s (fun t => t.io.booted && t.parts.isEmpty)),
    runs (.coldReset (testKey, testSig) []) ready (fun t => !t.io.booted) && runs (.warmReset (testKey, testSig) [[], [1]]) { ready with io := { ready.io with fuse := sha384 testKey } } (fun t => !t.io.booted && t.powered),
    runs (.warmReset ([], []) []) { ready with powered := false } (fun t => !t.powered) && runs .powerOff ready (fun t => !t.powered)] = true := by decide +kernel

theorem test_witness_memory : (decide (MemoriesCanonical State.reset) && decide (MemoriesCanonical ready) && steps ready (fun _ => true)) = true := by decide +kernel

/-- The task with bytes in memory at 0x800. -/
def inMemory (b : List Byte) (s : State) : State := { s with mem := memWrite s.mem 0x800 b }

/-- Lines of the task's local store, or of memory, that hold errors. -/
def withBad (own mem : List Nat) (s : State) : State :=
  { s with badLines := mem, core := { s.core with allocs := s.core.allocs.map (fun a => { a with bad := own }) } }

theorem test_witness_held_writes : all [
    (let s := withStatus 0x100 (withRegs [(9, 0x80)] ready)
     issues (.mtc 0x101 9 false) s && ctlRange s 0x101 0x80 && noQuantum s &&
       runs (.mtc 0x101 9 false) s (fun t => ctlValue t 0x101 == 0x80 && ctlValue t 0x102 == 96 && ctlValue t 0x103 == 4096 && pcOf t == 4) &&
       runs (.mtc 0x102 9 false) s (fun t => ctlValue t 0x102 == 0x80 && ctlValue t 0x101 == 65536 && pcOf t == 4) &&
       runs (.mtc 0x103 9 false) s (fun t => ctlValue t 0x103 == 0x80 && ctlValue t 0x101 == 65536 && pcOf t == 4)),
    (let s := quantum (withStatus 0x100 (withRegs [(9, 0x80)] ready))
     (partAt s 0).any quantumRules && runs (.mtc 0x103 9 false) s (fun t => t.core.held == [(0, .setReg 0x103 0x80)] && pcOf t == 4)),
    (let s := withRegs [(9, 5)] (asHelper 3 plainTask)
     isHelper s && issues (.mtc 7 9 false) s && ctlRange s 7 5 && runs (.mtc 7 9 false) s (fun t => ctlValue t 7 == 5 && pcOf t == 0x44)),
    (let s := quantum (withRegs [(1, 0), (2, 77)] plainTask)
     settled s (Machine.scopeOf 1 1) && (partAt s 0).any (fun p => quantumRules p && physOf p 0 == some 1) &&
       runs (.rwr 6 1 2 false false) s (fun t => t.core.held.length == 1 && t.core.rwrs == 1 && pcOf t == 4))] = true := by decide +kernel

theorem test_witness_bad_loads : all [
    (let s := withBad [4] [] ready
     gives (openAccess (curAgent s) (curWaiter s) .load needR true (own 0x104) 4 s) (fun ps s1 => ps.all (fun p => badAt s1 p.place) && !missesL1 s1 1 ps && !isPeer (own 0x104)) &&
       runs (.ldW 1 5 false 1) s (fun t => (curCtx t).cause == 0x17 && (curCtx t).eval == own 0x104)),
    (let s := withBad [] [32] ready
     gives (openAccess (curAgent s) (curWaiter s) .load needR true 0x808 8 s) (fun ps s1 => anyBad s1 ps && missesL1 s1 1 ps) &&
       runs (.ldD 0 6 false 1) s (fun t => (curCtx t).cause == 0x17 && (curCtx t).eval == 0x800) &&
       runs (.ldD 1 6 false 1) s (fun t => regPending t 1 && pcOf t == 4))] = true := by decide +kernel

/-- An atomic or a reduction at 0x800 has passed its checks. -/
def atomicOpens (s : State) (cls : AccessClass) (sc : Scope) : Bool :=
  gives (resolve (curAgent s) (curWaiter s) needRW 0x800 8 s) (fun ps s1 => ps.length == 1 && ps.all (fun p => !p.inRegs && !p.outside &&
    gives (detCheck (curAgent s) cls 0x800 [p] s1) (fun _ s2 => gives (stashFill (curAgent s) (curWaiter s) p s2) (fun _ s3 =>
      gives (touchData (curAgent s) { p with cacheable := rmwAtCluster sc p.cacheable } s3) (fun _ t => !inTxn t (curAgent s) && (stashEntryAt t p.place).isNone &&
        gives (performMeeting (curAgent s) [p] t) (fun _ u => !u.hostLines.contains 32) && gives (awaitProxies (curAgent s) [p] t) (fun _ _ => true))))))

theorem test_witness_device_atomics : all [
    (let s := withRegs [(5, own 0x104)] ready
     runs (.amoMin 1 5 7 false true .dev) s (fun t => (curCtx t).cause == 5 && (curCtx t).eval == own 0x104) &&
       runs (.cas 1 5 7 false true .dev) s (fun t => (curCtx t).cause == 5 && (curCtx t).eval == own 0x104)),
    (let s := inMemory (leBytes 8 5) ready
     atomicOpens s .returning .dev && issues (.amoAdd 1 6 7 false true .dev) s &&
       runs (.amoAdd 1 6 7 false true .dev) s (fun t => regVal t 1 == 5 && leNat (memRead t.mem 0x800 8) == 0x8877665544332216 && pcOf t == 4)),
    (let s := withRegs [(1, 5)] (inMemory (leBytes 8 5) ready)
     atomicOpens s .returning .clus && runs (.cas 1 6 7 false true .clus) s (fun t => regVal t 1 == 5 && storeNat t (.mem 0x800) 8 == 5 && placeByte t 1 true (.mem 0x800) == 0x11 && pcOf t == 4)),
    runs (.amoAdd 1 6 7 false true .dev) (withBad [] [32] ready) (fun t => (curCtx t).cause == 0x17 && (curCtx t).eval == 0x800),
    atomicOpens ready (.update true) .dev && issues (.amoAdd 0 6 7 false true .dev) ready && runs (.amoAdd 0 6 7 false true .dev) ready (fun t => t.core.pend.length == 1 && pcOf t == 4),
    runs (.redAdd 6 7 false true false .dev) ready (fun t => t.core.pend.map PendAcc.kind == [.red .add 8 0x8877665544332211 false] && pcOf t == 4),
    decide (MemoriesCanonical ready) && !hasPartials 32 ready && (lineAt ready 0 32).isNone && (allCores ready).all (fun c => c.stashLines.isEmpty) &&
      ((rmwAt 1 0 false true false .dev .add 4 3 (.mem 0x800) (inMemory [5] ready)).1 == 5)] = true := by decide +kernel

theorem test_witness_device_sync : all [
    runs (.acq .clus 5 false) (withRegs [(5, own 0x104)] ready) (fun t => (curCtx t).cause == 5) && runs (.rel .clus 5 false) (withRegs [(5, own 0x104)] ready) (fun t => (curCtx t).cause == 5),
    (let s := ready
     gives (syncPlace (curAgent s) .clus 0x800 s) (fun p t => gives (performMeeting (curAgent s) [p] t) (fun _ u => accessesDone u 1 0 .clus && (heldSet t 1).isEmpty)) &&
       runs (.acq .clus 6 false) s (fun t => (heldSet t 1).map (fun h => h.va) == [0x800] && pcOf t == 4)),
    runs (.acq .clus 6 false) (withBad [] [32] ready) (fun t => (curCtx t).cause == 0x17 && (curCtx t).eval == 0x800),
    (let s := cached 9 ready
     gives (syncPlace (curAgent s) .dev 0x800 s) (fun p t => p.place == .mem 0x800 && gives (performMeeting (curAgent s) [p] t) (fun _ u => accessesDone u 1 0 .dev &&
       gives (awaitLines 1 (dirtyLinesOf u 0 0) u) (fun _ _ => true) && gives (awaitLines 1 [32] u) (fun _ _ => true))) &&
       runs (.acq .dev 6 false) s (fun t => (heldSet t 1).length == 1 && (lineAt t 0 9).isNone && pcOf t == 4)),
    (let s := holding [⟨0x800, .mem 0x800, true⟩] (inMemory (leBytes 8 7) ready)
     gives (syncPlace (curAgent s) .dev 0x800 s) (fun _ t => settled t .dev && gives (awaitLines 1 (releaseLinesOf t 0 0) t) (fun _ _ => true)) &&
       runs (.rel .dev 6 false) s (fun t => leNat (memRead t.mem 0x800 8) == 8 && (heldSet t 1).isEmpty && pcOf t == 4)),
    runs (.rel .dev 6 false) (withBad [] [32] ready) (fun t => (curCtx t).cause == 0x17)] = true := by decide +kernel

theorem test_witness_refused_messages : all [
    (let s := onCur (fun x => { x with await := .messageDone 3 }) ready
     issues (.msend 1 8 9 false false) s && runs (.msend 1 8 9 false false) s (fun t => (curCtx t).cause == 9 && (curCtx t).einfo == 20)),
    (let m : Msg := ⟨0, 0, 0, 0, 1, false, [1, 2, 3], 1, 0, none⟩
     let s0 := withRing 0 ready
     let s : State := { s0 with core := { s0.core with rings := s0.core.rings.set 1 (some ⟨0x800, 5, 1, []⟩) }, msgs := [m] }
     messageDue s m == some 1 && runs (.messagePlacement 0) s (fun t => t.msgs.map Msg.answer == [some 3])),
    runs (.mtake 8 9 false false) (withRegs [(8, 1), (9, 0)] (withRing 16 ready)) (fun t => (curCtx t).cause == 0xB && (curCtx t).eval == 0) &&
      runs (.mtake 8 9 false false) (withRegs [(8, 1), (9, 2)] (withBytes 0x1000 (leBytes 8 3) (withRing 16 ready))) (fun t => (curCtx t).cause == 0xB && (curCtx t).eval == 2),
    (let s := quantum (withRegs [(8, 1), (9, 1)] (withBytes 0x1000 (leBytes 8 3) (withRing 16 ready)))
     (partAt s 0).any quantumRules && runs (.mtake 8 9 false false) s (fun t => t.core.held == [(0, .mtake 1 1)] && pcOf t == 4)),
    runs (.mtake 8 9 false false) (withRegs [(8, 5), (9, own 0x801)] ready) (fun t => (curCtx t).cause == 0xB) &&
      runs (.mtake 8 9 false false) (withRegs [(8, 5), (9, own 0x800)] (withBytes 0x800 (ringBlock 64) (withRing 0 ready))) (fun t => (curCtx t).einfo == 1)] = true := by decide +kernel

/-- The other fifteen members of the task's gang, at its barrier with an A record. -/
def gangMates (a : Word) (failed : Nat) (s : State) : State :=
  onCluster 0 (fun c => { c with gangs := ((List.range 16).filter (· != 1)).map (fun k => ⟨k, if k = 0 then 1 else k, a, none, k == failed, 0, k == failed⟩) }) s

theorem test_witness_gangs : all [
    (let s := rowGroup (withMatrix ready)
     isRowGroup s 1 && issues (.mgang 0 8 9 false false) s && mxRoom s 1 && gives (scaleRegs false false s) (fun x _ =>
       gives (gangAccept 0 (curCtx s) (own 0x600) (own 0x640) x.1 x.2 s) (fun q u => !q.emu && awaitOf (gangWait 1 q u) (curWaiter s) == .gang)) &&
       runs (.mgang 0 8 9 false false) s (fun t => (curCtx t).await == .gang && pcOf t == 0)),
    runs (.mgang 0 8 9 false false) (gangMates (own 0x600) 99 (rowGroup (withMatrix ready))) (fun t => pcOf t == 4 && (curCtx t).await == .nothing),
    runs (.mgang 0 8 9 false false) (gangMates (own 0x600) 4 (rowGroup (withMatrix ready))) (fun t => (curCtx t).cause == 0xF && (curCtx t).einfo == 0x40010),
    runs (.mgang 0 8 9 false false) (gangMates (own 0x6C0) 99 (rowGroup (withMatrix ready))) (fun t => (curCtx t).cause == 0xF && (curCtx t).einfo == 0x10020),
    runs (.mgang 0 13 9 false false) (withRegs [(13, own 0x608)] (rowGroup (withMatrix ready))) (fun t => (curCtx t).cause == 0xC && (clusterAt t 0).gangs.any (fun g => g.failed))] = true := by decide +kernel

theorem test_witness_queues : all [
    (let s := onCluster 0 (fun c => { c with ready := [{ queueEntry with rcd := { queueEntry.rcd with gsize := 300 } }, queueEntry] }) idle
     (partAt s 0).any (fun p => (scanQueue p 0 (freshBase s p 0) 0 (claims s p 0) (clusterAt s 0).ready).map (·.1) == [1]) &&
       runs (.groupPlacement 0) s (fun t => t.core.run.isSome && (clusterAt t 0).ready.map ReadyEntry.passed == [1])),
    (let s := sliced [slicedOp 2] { withMatrix ready with owned := [(14, 9, 0)] }
     gives (fetchStep 1 0 s) (fun _ u => u.core.mxq.any (fun q => gives (readStep 1 q u) (fun x v =>
       (fetchStep 1 0 (putOp 1 0 (some (q.stepped (stepFlags (coreAt v 1) q x))) (onCore 1 (stepCore q x) v)) matches .error ..)))) &&
       runs (.matrixKStep 1 0) s (fun t => t.core.mxq.map MxOp.next == [1])),
    (let s0 := copying 0 (withPair 1 ready)
     let s : State := { s0 with core := { s0.core with owes := [⟨0, own 0x380, 48, 16⟩] } }
     runs (.copyLineWrite 1 1) s (fun t => t.core.owes.isEmpty && storeNat t (.ls 1 0 1 0x3B0) 8 == 16)),
    (let s := { withDecls (withGroup [0, 1] 2 ready) with posts := [post 3] }
     noQuantum s && (partAt s 0).any (fun p => (declOf p 3).isNone && p.launches.all (fun l => l.pop != 0)) && runs (.foldPostArrival 0) s (fun t => t.answers == [⟨0, 1, 0, 7, 3⟩] && t.posts.isEmpty))] = true := by decide +kernel

theorem test_witness_waiting_lines : all [
    (let s := withBad [4] [] ready
     badAt s (.ls 1 0 1 0x100) && runs (.lineRetirement (some (1, 0, 1), 4)) s (fun t => !badAt t (.ls 1 0 1 0x100) && t.io.auditSeq == 1)),
    runs (.lineRetirement (some (1, 0, 1), 5)) ready (fun t => t == ready),
    (let s := { onCluster 0 (fun c => { c with lines := [⟨4, 0, Vector.replicate 64 0, 1⟩] }) idle with hostLines := [4] }
     dirtyLines s 0 == [4] && !ownedFor s 0 4 true && (allCores s).all coreRests && runs (.clusterRetentionEntry 0) s (fun t => t.hostWaits == [4] && !(clusterAt t 0).retained)),
    (let q := { request true 0x3020 2 with returns := false }
     runs (.hbaseSwap 0) (asking q ready) (fun t => (t.dies.get 0).proxies.isEmpty && (partAt t 0).any (fun p => p.hbase == 2)) &&
       runs (.hbaseSwap 0) (asking { q with runtime := false } ready) (fun t => (curCtx t).deferred == [⟨0x03, 0x900, 0⟩] && (t.dies.get 0).proxies.isEmpty)),
    (let s := onCur (fun x => { x with await := .page 9 0x9000 }) (onFunc 0 (fun f => { f with slots := [⟨3, 9, f.gen, 1, false⟩] }) ready)
     runs (.functionReset 0) s (fun t => (curCtx t).await == .pageDone 9 7 false 0x9000))] = true := by decide +kernel

/-- Slot 63 of the launch window armed, and parsed as a launch. -/
def launched (done : Nat) : State :=
  onPart 0 (fun p => { p with launches := [⟨63, 1, 0, 0, BitVec.ofNat 64 done, false⟩], parsed := [63] }) (armed done (booted ready))

theorem test_witness_releases : all [
    runs (.release 0) (launched 4) (fun t => (partAt t 0).isNone && memGet t.mem (slotPa 0 63 + 63) == 0),
    (partAt (launched 0x900) 0).any (fun p => gives (writeDone 1 0 0x900 0x702 (launched 0x900)) (fun _ _ => true) && (p.launches.find? (·.slot == 63)).isSome),
    (partAt (launched 0x900) 0).any (fun p => (abortLaunch p 63 (launched 0x900)).1 && leNat (memRead (abortLaunch p 63 (launched 0x900)).2.mem 0x900 8) == 0x702),
    (partAt (launched 0x100000) 0).any (fun p => (writeDone 1 0 0x100000 0x702 (launched 0x100000) matches .error (.stall _) _) && (p.launches.find? (·.slot == 63)).isSome),
    runs (.release 0) (launched 0x100000) (fun t => t.hwork == [.release 0] && (partAt t 0).any (fun p => p.state == 3)),
    runs (.layoutTick 0) (onPart 0 (fun p => { p with state := 3 }) ready) (fun t => (partAt t 0).isNone),
    (let s := booted (quantum ready)
     (setQuota 0 (some 0) 4096 s).isSome && runs (.setquota 0 (some 0) 4096) s (fun t => t.core.held == [(0, .quota 0 4096)] && quotaOf t 0 0 == quotaOf s 0 0))] = true := by decide +kernel

theorem test_witness_moves : all [
    (let s := withGroup [0, 1] 2 (booted ready)
     (replace 0 0 5 s).isSome && runs (.replace 0 0 5) s (fun t => t.core.run.isNone && (partAt t 0).any (fun p => p.ranks == [⟨1, true, true⟩] && p.state == 2))),
    (let h : Shadow := ⟨[⟨1, true, false⟩, ⟨5, true, false⟩], 0, 0, 0, [], [], [], true, false, 100⟩
     (partAt (quantum (changing h ready)) 0).any quantumRules && runs (.layoutTick 0) (quantum (changing h ready)) (fun t => t == quantum (changing h ready))),
    runs (.layoutTick 0) ready (fun t => t == ready),
    runs (.auditAppend [2, 1] [3, 10] [[9], [8]]) ready (fun t => t.io.audit.map AuditRec.event == [10, 3])] = true := by decide +kernel

/-! ### Encoding -/

/-- A word decodes to an instruction, which is well-formed and encodes to it again. -/
def reads (nbits w : Nat) (i : Instr) : Bool := decodeTableWord nbits w == some i && wellFormed i && encode i == some (nbits, w)

/-- A word is a hole with a cause. -/
def isHole (w cause : Nat) : Bool := decode (leBytes 4 w) matches .error _ && (decode (leBytes 4 w) == .error (.hole (BitVec.ofNat 32 w) (BitVec.ofNat 8 cause)))

/-- Terms that the checks of wellFormed refuse, and what stands at their bounds. -/
theorem test_well_formed : all [
    !wellFormed (.hstart 2 10 13 false false), wellFormed (.hstart 2 10 12 false false), wellFormed (.hstart 9 31 30 true true),
    !wellFormed (.fdrain 0 10 false), !wellFormed (.fdrain 9 10 false), wellFormed (.fdrain 30 10 false),
    !wellFormed (.fpeek 0 10 false), !wellFormed (.fpeek 31 10 false), wellFormed (.fpeek 2 10 false),
    !wellFormed (.hole 0x4F 0x03), wellFormed (.hole 0x4F 0x02)] = true := by decide +kernel

/-- The worked words of R57, R145, R151, R165, R199, R217, R312, R333, R361, R376, R397 and the sections they stand in. -/
theorem test_decode_scalar : all [
    reads 32 0x00080483 (.addi 9 0 false 2), reads 32 0xFFEAA495 (.blt 9 10 true 0xFFE), reads 16 0x05F2 (.cAddi 15 1 false), reads 16 0 (.cMv 0 0 false),
    reads 32 0x0306259D (.fdiv 11 2 3 false false), reads 32 0x2000003D (.fmtp 0x400000), reads 32 0x006004CB (.mfc 9 0x018),
    reads 32 0x000404CB (.mfc 9 0x001), reads 32 0x040002CB (.mfc 5 0x100), reads 32 0x0014A04D (.mtc 0x005 10 false), reads 32 0x0016A04D (.mtc 0x005 10 true),
    reads 32 0x0000903F (.trap 9 false), reads 32 0x0100903F (.svc 9 false), reads 32 0x0300003F .brk, reads 32 0x0200003F .eret,
    reads 32 0x0416A03F (.tlbinv 10 11 false false), reads 32 0x050004BF (.txb 9), reads 32 0x029663C1 (.vmul 7 6 11 true false),
    reads 32 0x0102A4B9 (.tsdim 9 10 1 false)] = true := by decide +kernel

theorem test_decode_memory : all [
    reads 32 0x00088521 (.ldW 10 8 false 0), reads 32 0xFFF084A1 (.ldBn 9 8 false 0x7FF), reads 32 0x002C83A3 (.stD 7 8 false 1),
    reads 32 0x04008025 (.pref 1 8 false), reads 32 0x4C008025 (.cinval .die 8 false), reads 32 0x3000D025 (.cflush .dev 13 false),
    reads 32 0x495484A7 (.amoFadd 9 8 10 true .clus), reads 32 0x051484A9 (.cas 9 8 10 false true .clus), reads 32 0x4A1480AB (.redFadd 8 10 false true .dev),
    reads 32 0x021EE027 (.amoAdd 0 14 15 false false .dev),
    reads 32 0x0200802D (.acq .dev 8 false), reads 32 0x0600802D (.rel .dev 8 false), reads 32 0x0814802D (.bind 8 10 false), reads 32 0x0C00802D (.unbind 8 false),
    reads 32 0x140084AD (.mon 9 8 false), reads 32 0x1200002D (.fence .dev)] = true := by decide +kernel

theorem test_decode_engines : all [
    reads 32 0x0001503B (.mld 21 false), reads 32 0x012B40BB (.mma 1 20 21 false false), reads 32 0x026B403B (.mgang 0 20 21 true false),
    reads 32 0x030001BB (.mzero 3), reads 32 0x040080BB (.mdrain 1 8 0 false false), reads 32 0x0501503B (.mrel 21 false), reads 32 0x062B40BB (.mmaSolo 1 20 21 false false),
    reads 32 0x002B4037 (.cpy 0 20 21 false false), reads 32 0x01005137 (.cpyc 2 5 false), reads 32 0x020001B7 (.cstop 3),
    reads 32 0x0016A4B5 (.msend 9 10 11 false false), reads 32 0x0116A035 (.mtake 10 11 false false), reads 32 0x0216A4B5 (.nred 9 10 11 false false),
    reads 32 0x0016A033 (.fdecl 10 11 false false), reads 32 0x0116A4B3 (.fpost 9 10 11 false false), reads 32 0x0216A4B3 (.fpostv 9 10 11 false false),
    reads 32 0x0300A433 (.fdrain 8 10 false), reads 32 0x0400A433 (.fpeek 8 10 false), reads 32 0x0516A033 (.fthr 10 11 false false),
    reads 32 0x0600A4B3 (.fcount 9 10 false), reads 32 0x0716A033 (.fquiet 10 11 false false)] = true := by decide +kernel

theorem test_decode_tasks : all [
    reads 32 0x0000C031 (.tspawn 12 false), reads 32 0x0100C031 (.tfork 12 false), reads 32 0x0200C031 (.tjoin 12 false), reads 32 0x031AC031 (.tdec 12 13 false false),
    reads 32 0x04000031 .tend, reads 32 0x0618A131 (.hstart 2 10 12 false false), reads 32 0x081AC031 (.cwait 12 13 false false), reads 32 0x089AC031 (.cwait 12 13 false true),
    reads 32 0x0900E031 (.bar 14 false), reads 32 0x0940E031 (.bar 14 true)] = true := by decide +kernel

/-- Words that R56 and R57 make holes, with their causes. -/
theorem test_decode_holes : all [
    isHole 0x0000004F 0x02, isHole 0x001C0021 0x02, isHole 0x00100025 0x02, isHole 0x0E00002D 0x02, isHole 0x1380002D 0x01, isHole 0xFF80002D 0x02,
    isHole 0xFFFFFFFF 0x02, isHole 0x002B4237 0x02, isHole 0x0116A0B5 0x02, isHole 0x03000035 0x02] = true := by decide +kernel

/-! ### Instructions -/

/-- The result in s1 of an instruction on two operands in s2 and s3. -/
def result (i : Instr) (x y : Word) (v : Word) : Bool :=
  runs i (withRegs [(1, 0x99), (2, x), (3, y)] plainTask) (fun t => regVal t 1 == v && regPresent t 1 && pcOf t == 4)

/-- The same with the flags. -/
def flagged (i : Instr) (x y : Word) (v flags : Word) : Bool :=
  runs i (withRegs [(2, x), (3, y)] plainTask) (fun t => regVal t 1 == v && (curCtx t).fflags == flags)

/-- R76 to R79: the corners of the integer results. -/
theorem test_integer : all [
    result (.div 1 2 3 false false) 0x8000000000000000 0xFFFFFFFFFFFFFFFF 0x8000000000000000, result (.div 1 2 3 false false) 7 0 0xFFFFFFFFFFFFFFFF,
    result (.div 1 2 3 false false) 0xFFFFFFFFFFFFFFF9 2 0xFFFFFFFFFFFFFFFD, result (.rem 1 2 3 false false) 0xFFFFFFFFFFFFFFF9 2 0xFFFFFFFFFFFFFFFF,
    result (.rem 1 2 3 false false) 0x8000000000000000 0xFFFFFFFFFFFFFFFF 0, result (.remn 1 2 3 false false) 7 0 7, result (.divn 1 2 3 false false) 0xFFFFFFFFFFFFFFF8 2 0x7FFFFFFFFFFFFFFC,
    result (.mulhn 1 2 3 false false) 0xFFFFFFFFFFFFFFFF 2 1, result (.andn 1 2 3 false false) 0xFF 0x0F 0xF0, result (.sll 1 2 3 false false) 1 65 2,
    result (.sra 1 2 3 false false) 0x8000000000000000 63 0xFFFFFFFFFFFFFFFF, result (.ror 1 2 3 false false) 1 1 0x8000000000000000,
    result (.min 1 2 3 false false) 0xFFFFFFFFFFFFFFFF 1 0xFFFFFFFFFFFFFFFF, result (.minn 1 2 3 false false) 0xFFFFFFFFFFFFFFFF 1 1,
    result (.slt 1 2 3 false false) 0xFFFFFFFFFFFFFFFF 0 1, result (.sltn 1 2 3 false false) 0xFFFFFFFFFFFFFFFF 0 0, result (.seq 1 2 2 false false) 5 0 1,
    result (.clz 1 2 false) 0 0 64, result (.ctz 1 2 false) 0x100 0 8, result (.popc 1 2 false) 0xF0F0 0 8,
    result (.sext 1 2 1 false) 0x18000 0 0xFFFFFFFFFFFF8000, result (.zext 1 2 0 false) 0x1FF 0 0xFF, result (.csel 1 2 3 false false) 5 6 5,
    result (.srai 1 2 false 4) 0x8000000000000000 0 0xF800000000000000, result (.hi 1 0x80000) 0 0 0xFFFFFFFF80000000] = true := by decide +kernel

/-- R96, R102, R113 to R119: the special cases, and the worked values of R118 and R119; flags OF 1, UF 2, NX 4, NV 8, DZ 16 (R104). -/
theorem test_floating_point : all [
    flagged (.fdiv 1 2 3 false false) 0xBF800000 0 0xFF800000 16, flagged (.fadd 1 2 3 false false) 0x7F800000 0xFF800000 0x7FC00000 8,
    flagged (.fsub 1 2 2 false false) 0x3F800000 0 0 0, flagged (.fsqrt 1 2 false) 0x80000000 0 0x80000000 0, flagged (.fsqrt 1 2 false) 0xBF800000 0 0x7FC00000 8,
    flagged (.feq 1 2 3 false false) 0x80000000 0 1 0, flagged (.flt 1 2 2 false false) 0x7FC00000 0 0 8,
    flagged (.fclass 1 2 false) 0xFF800000 0 0xB 0, flagged (.fclass 1 2 false) 1 0 1 0, flagged (.fneg 1 2 false) 0x7F800001 0 0xFF800001 0,
    flagged (.frcp 1 2 false) 0x40400000 0 0x3EAAB000 4, flagged (.frcp 1 2 false) 0x00200101 0 0x7F7FF000 4, flagged (.frcp 1 2 false) 0x7F400000 0 0x002AAC00 6,
    flagged (.frcp 1 2 false) 0x00100000 0 0x7F800000 5, flagged (.frsq 1 2 false) 1 0 0x64B50000 4, flagged (.frsq 1 2 false) 0x40800000 0 0x3F000000 0,
    flagged (.fcvtfb 1 2 false) 0x7F7FFFFF 0 0x7F80 5, flagged (.fcvtfi 1 2 false) 0xBE99999A 0 0 4, flagged (.fcvtfn 1 2 false) 0xBF800000 0 0 8,
    flagged (.ffma 1 2 3 2 false) 0x40000000 0x40400000 0x41000000 0] = true := by decide +kernel

/-- The worked example of R165: svc s9, then eret. -/
theorem test_svc_round_trip :
    (let s0 := withRegs [(1, own 0x3F80), (2, 0x2A), (3, 0), (4, 5), (9, 7)] plainTask
     let s := onCur (fun x => { x with pc := 0x40 }) s0
     runs (.svc 9 false) s (fun t =>
       pcOf t == 0x200 && (curCtx t).status == 0x100 && regVal t 1 == own 0x4C00 && regVal t 2 == 0x1C && regVal t 3 == 7 && regVal t 4 == 0 &&
         storeNat t (.ls 1 0 1 0x4C08) 8 == 0x44 && storeNat t (.ls 1 0 1 0x4C34) 4 == 0xF1 &&
         runs .eret t (fun u => pcOf u == 0x44 && (curCtx u).status == 0 && regVal u 1 == own 0x3F80 && regVal u 2 == 0x2A && regVal u 4 == 5 &&
           storeNat u (.ls 1 0 1 0x4C34) 4 == 0xF0))) = true := by decide +kernel


end Sys2Proof.Tests
end

section
/-!
SUPPORT. How a step comes to the instruction at the PC (R42, R58, R67).
-/

namespace Sys2Proof.Machine

open Sys2Proof.Safety

variable {s t : State} {i : Instr} {bytes rest : List Byte}

/-- What the bytes at PC decode to is what the context issues; it is then at the start of that instruction. -/
theorem fetchInstr_of_gives (h : FetchGives s bytes t) (hd : decode bytes = .ok (i, rest)) :
    fetchInstr s = .ok (.instr i) (atStart t) := by
  obtain ⟨b1, s1, h1, hlen⟩ := h
  unfold fetchInstr
  rw [get_bind, bind_ok h1]
  rcases hlen with ⟨heven, rfl, rfl⟩ | ⟨hodd, b2, h2, rfl⟩
  · simp [heven, hd, atStart]
  · rw [if_neg (by omega)]
    refine (bind_ok h2).trans ?_
    simp [hd, atStart]

/-- A context that stands at no instruction issues the one that it fetches. -/
theorem nextInstr_of_fetch (hst : (curCtx s).standing = none) (hf : fetchInstr s = .ok (.instr i) t) :
    nextInstr s = .run i t := by
  simp [nextInstr, hst, hf]

/-- An instruction at which no machine error is due runs (R67). -/
theorem errorOr_run (h : dueError i s = none) : errorOr (.run i s) = .run i s := by
  simp [errorOr, h]

/-- A machine error that is due is taken in place of the instruction (R67, R160). -/
theorem errorOr_due {e : Producer} (h : dueError i s = some e) :
    errorOr (.run i s) = .done (takeBoundary ⟨0x17, e.addr, regIndex e.reg⟩ (curCtx (dropFailed e.reg s)) s) := by
  simp [errorOr, h]

/-- The core in a cycle in which a context issues: neither a resumption nor a trap comes before the fetch. -/
theorem prepare_issues {phys ctx : Nat} (hres : (focusOn phys s).core.resume = none)
    (hpick : pickCtx (focusOn phys s).core = some ctx) (hgate : gatedOff (focusOn phys s).core = false)
    (hent : (ctxOf (focusOn phys s).core ctx).entering = none) (hb : boundaryTrap (focusOn phys s).core ctx = none) :
    prepare phys s = errorOr (nextInstr { focusOn phys s with core := { (focusOn phys s).core with cur := ctxRef ctx } }) := by
  simp [prepare, hres, hpick, hgate, hent, hb]

/-- A step of a powered module with nothing on its agenda is the cycle of the core that is due. -/
theorem step_of_issue {phys : Nat} (hag : s.agenda = []) (hpow : s.powered = true) (hch : choose s = .issue phys) :
    step s = issueOn phys s := by
  simp [step, hag, hpow, hch]

/-- A step with an event at the head of the agenda is that event, and every context looks again. -/
theorem step_of_event {moves : List Move} (hag : s.agenda = .event i :: moves) :
    step s = thenState wakeAll (exec i { s with agenda := moves }) := by
  simp [step, hag, doMove]

/-- Settles O4: the step is the cycle of the core, which comes to the fetch, and the fetch gives the instruction. -/
theorem stepRunsTheInstruction : Obligations.StepRunsTheInstruction := by
  unfold Obligations.StepRunsTheInstruction
  refine ⟨?_, ?_⟩
  · intro s t phys ctx bytes rest i s0 s1 hag hpow hch hres hpick hgate hent hb hst hf hd u
    have hprep : prepare phys s = errorOr (.run i u) := by
      rw [prepare_issues hres hpick hgate hent hb, nextInstr_of_fetch hst (fetchInstr_of_gives hf hd)]
    rw [step_of_issue hag hpow hch]
    constructor
    · intro hdue
      simp only [issueOn, hprep, errorOr_run hdue]
    · intro e hdue
      simp only [issueOn, hprep, errorOr_due hdue]
  · intro s t i moves hag hex
    rw [step_of_event hag, hex]
    rfl

end Sys2Proof.Machine
end

section
/-!
SUPPORT. More on how acts run: what an act that ends has gone through, and acts over lists.
-/

namespace Sys2Proof.Machine

variable {α β : Type} {s t : State}

/-- An act that ends has gone through the end of its first part. -/
theorem bind_eq_ok {a : Act α} {f : α → Act β} {y : β} (h : (a >>= f) s = .ok y t) :
    ∃ x u, a s = .ok x u ∧ f x u = .ok y t := by
  rw [bind_run] at h
  cases ha : a s with
  | ok x u => exact ⟨x, u, rfl, by simpa [ha] using h⟩
  | error e u => simp [ha] at h

@[simp] theorem forM_nil_run (f : α → Act Unit) (s : State) : ([] : List α).forM f s = .ok () s := rfl

@[simp] theorem forM_cons_run (f : α → Act Unit) (x : α) (l : List α) (s : State) :
    (x :: l).forM f s = (f x >>= fun _ => l.forM f) s := rfl

/-- Acts over a list of which each leaves the state as it is leave it as it is. -/
theorem forM_same {f : α → Act Unit} : ∀ {l : List α}, (∀ x ∈ l, f x s = .ok () s) → l.forM f s = .ok () s
  | [], _ => rfl
  | x :: l, h => by
    rw [forM_cons_run, bind_ok (h x (by simp))]
    exact forM_same fun y hy => h y (by simp [hy])

/-- What every result of an act satisfies. -/
def Yields (a : Act α) (P : α → Prop) : Prop := ∀ s x t, a s = .ok x t → P x

theorem yields_pure {P : α → Prop} {x : α} (h : P x) : Yields (pure x : Act α) P := by
  rintro s y t ⟨⟩; exact h

theorem yields_trap {P : α → Prop} (c : BitVec 8) (v i : Word) : Yields (trapAct c v i : Act α) P := by
  rintro s y t ⟨⟩

theorem yields_trap_bind {P : β → Prop} (c : BitVec 8) (v i : Word) (f : α → Act β) :
    Yields ((trapAct c v i : Act α) >>= f) P := by
  rintro s y t ⟨⟩

theorem yields_stall_bind {P : β → Prop} (b : Bool) (f : α → Act β) : Yields ((stallAct b : Act α) >>= f) P := by
  rintro s y t ⟨⟩

/-- What follows a first part may use what every result of it satisfies. -/
theorem yields_bind_of {a : Act α} {f : α → Act β} {P : α → Prop} {Q : β → Prop} (ha : Yields a P)
    (h : ∀ x, P x → Yields (f x) Q) : Yields (a >>= f) Q := by
  intro s y t hy
  obtain ⟨x, u, hx, hf⟩ := bind_eq_ok hy
  exact h x (ha s x u hx) u y t hf

theorem yields_bind {a : Act α} {f : α → Act β} {P : β → Prop} (h : ∀ x, Yields (f x) P) : Yields (a >>= f) P :=
  yields_bind_of (P := fun _ => True) (fun _ _ _ _ => trivial) fun x _ => h x

theorem yields_ite {c : Prop} [Decidable c] {a b : Act α} {P : α → Prop} (ha : c → Yields a P) (hb : ¬ c → Yields b P) :
    Yields (if c then a else b) P := by
  split
  · exact ha ‹_›
  · exact hb ‹_›

end Sys2Proof.Machine
end

section
/-!
SUPPORT. Two changes of one core, and what a change of the core in focus is.
-/

namespace Sys2Proof.Machine

open Sys2Proof.Safety

variable {s : State} {k : Nat}

/-- What was put under a key and then put again leaves only the second. -/
theorem putBy_putBy {α : Type} {key : α → Nat} {x y : α} (h : key x = key y) : ∀ l : List α,
    putBy key x (putBy key y l) = putBy key x l
  | [] => by simp [putBy, h]
  | z :: zs => by
    by_cases h1 : key y = key z
    · simp [putBy, h, h1]
    · by_cases h2 : key y < key z
      · simp [putBy, h, h1, h2]
      · simp [putBy, h, h1, h2, putBy_putBy h zs]

/-- Two changes of one core are one change. -/
theorem onCore_onCore {f g : Core → Core} (hg : ∀ c, (g c).phys = c.phys) (hf : ∀ c, (f c).phys = c.phys) (k : Nat)
    (s : State) : onCore k f (onCore k g s) = onCore k (fun c => f (g c)) s := by
  have hk : (g (coreAt s k)).phys = k := by rw [hg, coreAt_phys]
  have hk' : (f (g (coreAt s k))).phys = k := by rw [hf, hk]
  rw [onCore, coreAt_onCore hg]
  unfold onCore setCore
  by_cases h : s.core.phys = k
  · simp [h, hk, hk']
  · simp [h, hk, hk', putBy_putBy (key := Core.phys) (hk'.trans hk.symm)]

/-- A change of the core in focus. -/
theorem onCore_focus {f : Core → Core} (hf : ∀ c, (f c).phys = c.phys) (s : State) :
    onCore s.core.phys f s = { s with core := f s.core } := by
  simp [onCore, setCore, hf]

@[simp] theorem curAgent_phys (s : State) : (curAgent s).phys = s.core.phys := rfl
@[simp] theorem curAgent_ctx (s : State) : (curAgent s).ctx = curIdx s := rfl
@[simp] theorem curAgent_hw (s : State) : (curAgent s).hw = false := rfl
@[simp] theorem curAgent_elems (s : State) : (curAgent s).elems = false := rfl
@[simp] theorem curAgent_self (s : State) : (curAgent s).self = (curIdx s == 0) := by simp [Agent.self, curAgent, agentAt]
@[simp] theorem curAgent_det (s : State) : (curAgent s).det = detMode s := by simp [curAgent, agentAt, detMode, curCtx]
@[simp] theorem curAgent_part (s : State) : (curAgent s).part = corePart s.core := by simp [curAgent, agentAt]

end Sys2Proof.Machine
end

section
/-!
SUPPORT. The pieces of an access, and an access to the own window of the local store (R174, R177, R199).
-/

namespace Sys2Proof.Machine

open Sys2Proof.Safety

variable {s t u : State} {ag : Agent} {va : Word} {n : Nat} {p : Place} {q : Piece} {ps : List Piece}

/-- An access of at least one byte has a piece. -/
theorem piecesAt_ne_nil (h : 0 < n) (p : Place) (off : Nat) (cacheable : Bool) (va : Word) (detp : Bool) :
    piecesAt p off cacheable va detp n ≠ [] := by
  simp [piecesAt, linePieces, show n ≠ 0 by omega]

/-- The piece of an access within one line. -/
def wholePiece (p : Place) (cacheable : Bool) (va : Word) (detp : Bool) (n : Nat) : Piece :=
  ⟨p, cacheable, n, va, detp, false, 12⟩

/-- An access within one line is one piece. -/
theorem piecesAt_of_fits {off : Nat} (h0 : 0 < n) (h : off % 64 + n ≤ 64) (p : Place) (cacheable : Bool) (va : Word)
    (detp : Bool) : piecesAt p off cacheable va detp n = [wholePiece p cacheable va detp n] := by
  have hmin : min n (64 - off % 64) = n := by omega
  have hplus : p.plus 0 = p := by cases p <;> rfl
  simp [piecesAt, linePieces, wholePiece, show n ≠ 0 by omega, hmin, hplus]

theorem resolvePage_pieces (h : 0 < n) (e : TlbEntry) (eval : Word) :
    Yields (resolvePage ag e eval va n) (fun ps => ps ≠ []) := by
  unfold resolvePage
  refine yields_bind fun s => yields_ite (fun _ => yields_trap_bind _ _ _ _) (fun _ => yields_pure ?_)
  simp [piecesAt_ne_nil h]

theorem resolveWindow_pieces (h : 0 < n) : Yields (resolveWindow ag va n) (fun ps => ps ≠ []) := by
  have found := fun (q : Place) (off : Nat) => piecesAt_ne_nil h q off false va false
  unfold resolveWindow
  refine yields_bind fun s => ?_
  dsimp only
  split
  · exact yields_trap _ _ _
  · refine yields_ite (fun _ => ?_) (fun _ => yields_ite (fun _ => ?_) (fun _ => yields_trap _ _ _))
    · split
      · exact yields_trap _ _ _
      · exact yields_ite (fun _ => yields_trap _ _ _) (fun _ => yields_pure (found _ _))
    · split
      · exact yields_trap _ _ _
      · split
        · refine yields_ite (fun _ => yields_trap_bind _ _ _ _) (fun _ => ?_)
          refine yields_ite (fun _ => yields_trap_bind _ _ _ _) (fun _ => ?_)
          split
          · exact yields_trap _ _ _
          · exact yields_ite (fun _ => yields_stall_bind _ _) (fun _ => yields_pure (found _ _))
        · exact yields_trap _ _ _

/-- An access of at least one byte resolves to at least one piece. -/
theorem resolve_pieces (h : 0 < n) (w : Waiter) (need : Need) : Yields (resolve ag w need va n) (fun ps => ps ≠ []) := by
  unfold resolve
  refine yields_ite (fun _ => resolveWindow_pieces h) (fun _ => yields_ite (fun hlow => ?_) (fun _ => ?_))
  · have hup : 0 < n - (4096 - va.toNat % 4096) := by
      simp only [Bool.and_eq_true, decide_eq_true_eq] at hlow; omega
    intro s x t hx
    obtain ⟨up, s1, hup', hx⟩ := bind_eq_ok hx
    obtain ⟨e, s2, -, hx⟩ := bind_eq_ok hx
    obtain ⟨l, s3, -, hx⟩ := bind_eq_ok hx
    cases hx
    simp [resolveWindow_pieces hup _ _ _ hup']
  · refine yields_bind fun e => yields_ite (fun _ => resolvePage_pieces h e va) (fun _ => ?_)
    refine yields_bind fun e2 => yields_ite (fun _ => yields_trap_bind _ _ _ _) (fun _ => ?_)
    intro s x t hx
    obtain ⟨l, s1, hl, hx⟩ := bind_eq_ok hx
    obtain ⟨r, s2, -, hx⟩ := bind_eq_ok hx
    cases hx
    have := resolvePage_pieces (n := 4096 - va.toNat % 4096) (by omega) e va _ _ _ hl
    simp [this]

/-- An access of at least one byte that opens has at least one piece. -/
theorem openAccess_pieces (h : 0 < n) (w : Waiter) (cls : AccessClass) (need : Need) (outside : Bool) :
    Yields (openAccess ag w cls need outside va n) (fun ps => ps ≠ []) := by
  unfold openAccess
  refine yields_bind_of (resolve_pieces h w need) fun ps hps => ?_
  refine yields_ite (fun _ => yields_trap_bind _ _ _ _) (fun _ => yields_ite (fun _ => yields_trap_bind _ _ _ _) (fun _ => ?_))
  exact yields_bind fun _ => yields_bind fun _ => yields_bind fun _ => yields_pure hps

end Sys2Proof.Machine
end

section
/-!
SUPPORT. Accesses that wait to be performed, and accesses to the own window of the local store (R177, R199, R219, R259).
-/

namespace Sys2Proof.Machine

open Sys2Proof.Safety

variable {s t u : State} {ag : Agent} {va : Word} {n : Nat} {p : Place} {q : Piece} {ps : List Piece}

/-! ### The own window -/

/-- What an own-window address that has its place is: the running task has an allocation, the bytes lie in it, within one line. -/
theorem ownPlace_eq_some (h : ownPlace s va n = some p) : ∃ r al, s.core.run = some r ∧
    allocOf s.core r.part r.gid = some al ∧ va.toNat / 2 ^ 48 = 0xFFFE ∧ va.toNat % 2 ^ 48 < 0x20000 ∧
    va.toNat % 2 ^ 48 + n ≤ al.size ∧ va.toNat % 2 ^ 48 % 64 + n ≤ 64 ∧ va.toNat % 2 ^ 48 / 64 ∉ al.bad ∧
    p = .ls s.core.phys r.part r.gid (va.toNat % 2 ^ 48) := by
  unfold ownPlace at h
  split at h
  · cases h
  · rename_i r hr
    split at h
    · cases h
    · rename_i al hal
      dsimp only at h
      split at h
      · rename_i hc
        obtain ⟨h1, h2, h3, h4, h5⟩ := hc
        exact ⟨r, al, hr, hal, h1, h2, h3, h4, h5, by cases h; rfl⟩
      · cases h

theorem inWindows_of_top (h : va.toNat / 2 ^ 48 = 0xFFFE) : inWindows va = true := by
  simp only [inWindows, bitsOf, beq_iff_eq]; omega

/-- An own-window access of the context that issues is one piece, at its place (R177). -/
theorem resolve_own (h0 : 0 < n) (h : ownPlace s va n = some p) (w : Waiter) (need : Need) :
    resolve (curAgent s) w need va n s = .ok [wholePiece p false va false n] s := by
  obtain ⟨r, al, hr, hal, htop, hlow, hsize, hline, -, rfl⟩ := ownPlace_eq_some h
  unfold resolve resolveWindow
  simp only [inWindows_of_top htop, if_true, get_bind, curAgent_phys, coreAt_focus, hr, hlow, hal]
  rw [if_neg (by omega), piecesAt_of_fits h0 (by omega)]
  rfl

@[simp] theorem inRegs_local (phys part gid off : Nat) (c : Bool) (n : Nat) (va : Word) (d v : Bool) (k : Nat) :
    Piece.inRegs ⟨.ls phys part gid off, c, n, va, d, v, k⟩ = false := rfl

@[simp] theorem outside_local (phys part gid off : Nat) (c : Bool) (n : Nat) (va : Word) (d v : Bool) (k : Nat) :
    Piece.outside ⟨.ls phys part gid off, c, n, va, d, v, k⟩ = false := rfl

theorem detCheck_free (h : ag.det = false) (cls : AccessClass) (va : Word) (ps : List Piece) (s : State) :
    detCheck ag cls va ps s = .ok () s := by
  simp [detCheck, h]

/-- No stash line is filled for a place that no stash entry maps (R179). -/
theorem stashFill_unmapped (h : stashEntryAt s q.place = none) (w : Waiter) : stashFill ag w q s = .ok () s := by
  unfold stashFill
  cases hq : q.place with
  | mem pa => rfl
  | ls phys part gid off => rw [hq] at h; simp [h]

/-- The own local store is reached at once (R445). -/
theorem touchData_own {part gid off : Nat} (h : q.place = .ls ag.phys part gid off) : touchData ag q s = .ok () s := by
  simp [touchData, h, flowBusy]

theorem stashEntryAt_own (hs : s.core.stash = []) (part gid off : Nat) :
    stashEntryAt s (.ls s.core.phys part gid off) = none := by
  simp [stashEntryAt, hs]

/-- An access whose pieces pass the checks, need no fill and are there opens (R199). -/
theorem openAccess_free {w : Waiter} {cls : AccessClass} {need : Need} {outside : Bool}
    (hres : resolve ag w need va n s = .ok ps s) (hregs : ps.any Piece.inRegs = false)
    (hout : (!outside && ps.any Piece.outside) = false) (hdet : detCheck ag cls va ps s = .ok () s)
    (hfill : ∀ q ∈ ps, stashFill ag w q s = .ok () s) (htouch : ∀ q ∈ ps, touchData ag q s = .ok () s) :
    openAccess ag w cls need outside va n s = .ok ps s := by
  unfold openAccess
  rw [bind_ok hres]
  simp only [hregs, hout, Bool.false_eq_true, if_false]
  rw [bind_ok hdet, bind_ok (forM_same hfill), bind_ok (forM_same htouch), pure_run]

/-- An own-window access of a task that is plain opens, and leaves the state as it is. -/
theorem openAccess_own (hpl : Plain s) (h0 : 0 < n) (h : ownPlace s va n = some p) (w : Waiter) (cls : AccessClass)
    (need : Need) (outside : Bool) :
    openAccess (curAgent s) w cls need outside va n s = .ok [wholePiece p false va false n] s := by
  have hres := resolve_own h0 h w need
  obtain ⟨r, al, -, -, -, -, -, -, -, rfl⟩ := ownPlace_eq_some h
  have hdet : (curAgent s).det = false := by rw [curAgent_det, hpl.notDet]
  refine openAccess_free hres rfl (by simp [wholePiece]) (detCheck_free hdet cls va _ s) ?_ ?_ <;>
    simp only [List.mem_singleton, forall_eq]
  · exact stashFill_unmapped (stashEntryAt_own hpl.noStash _ _ _) w
  · exact touchData_own rfl

/-- An access to a local store waits for no proxy atomic and, with the vector engine empty, for no vector instruction. -/
theorem awaitProxies_own (hv : s.core.vxq = []) (phys part gid off : Nat) :
    awaitProxies (curAgent s) [wholePiece (.ls phys part gid off) false va false n] s = .ok () s := by
  have hp : proxyWaits s (curAgent s) (wholePiece (.ls phys part gid off) false va false n) = false := by
    simp [proxyWaits, wholePiece, Place.meets]
  have hvec : vectorSpans s s.core.phys (curIdx s) (wholePiece (.ls phys part gid off) false va false n) = false := by
    simp [vectorSpans, hv]
  simp [awaitProxies, hp, hvec]

/-! ### Accesses that join those to be performed (R219, R259) -/

theorem pendPush_run (s t : State) (scope : Scope) (kind : AccKind) (tied : Bool) (va : Word) (q : Piece) :
    pendPush (curAgent s) scope kind tied va q t = .ok () (queueAccess s.core.phys t
      ⟨curIdx s, q.place, q.cacheable, q.device, tied, detMode s, va, scope, kind⟩) := by
  simp only [pendPush, modify_run, queueAccess, curAgent_det, curAgent_phys, curAgent_ctx]

/-- An access of a task that is not deterministic joins those of the core in focus. -/
theorem queueAccess_waits {a : PendAcc} (h : a.det = false) : queueAccess s.core.phys s a = withPend a s := by
  simp only [queueAccess, h, Bool.false_and, Bool.false_eq_true, if_false]
  exact onCore_focus (f := fun c => { c with pend := c.pend ++ [a] }) (fun _ => rfl) s

/-! ### Stores -/

/-- The access that a store makes to the line of one piece. -/
def storeEntry (s : State) (va : Word) (late : Bool) (off : Nat) (q : Piece) (bytes : List Byte) : PendAcc :=
  ⟨curIdx s, q.place, q.cacheable, q.device, late && off != 0, detMode s, va, .core, .store (slice bytes off q.len)⟩

@[simp] theorem storeEntries_nil (s : State) (va : Word) (late : Bool) (off : Nat) (bytes : List Byte) :
    storeEntries s va late off [] bytes = [] := rfl

@[simp] theorem storeEntries_cons (s : State) (va : Word) (late : Bool) (off : Nat) (q : Piece) (ps : List Piece)
    (bytes : List Byte) : storeEntries s va late off (q :: ps) bytes =
      storeEntry s va late off q bytes :: storeEntries s va late (off + q.len) ps bytes := rfl

/-- Parts of bytes whose act for one piece is a change of the state by that piece's access run as those changes in order. -/
theorem forParts_run {late : Bool} {bytes : List Byte} {f : Nat → Piece → List Byte → Act Unit} {h : State → PendAcc → State}
    {ps : List Piece} (hf : ∀ off, ∀ q ∈ ps, ∀ u, f off q (slice bytes off q.len) u = .ok () (h u (storeEntry s va late off q bytes)))
    (t : State) : forParts ps bytes f t = .ok () ((storeEntries s va late 0 ps bytes).foldl h t) := by
  suffices hgo : ∀ (ps' : List Piece) (off : Nat) (u : State), (∀ q ∈ ps', q ∈ ps) →
      ∃ k, (ps'.foldlM (fun off q => do
        f off q (slice bytes off q.len)
        return off + q.len) off : Act Nat) u = .ok k ((storeEntries s va late off ps' bytes).foldl h u) by
    obtain ⟨k, hk⟩ := hgo ps 0 t fun _ hq => hq
    exact bind_ok hk
  intro ps'
  induction ps' with
  | nil => exact fun off u _ => ⟨off, rfl⟩
  | cons q qs ih =>
    intro off u hmem
    obtain ⟨k, hk⟩ := ih (off + q.len) (h u (storeEntry s va late off q bytes)) fun r hr => hmem r (by simp [hr])
    refine ⟨k, ?_⟩
    rw [List.foldlM_cons, storeEntries_cons, List.foldl_cons]
    have hstep : (do f off q (slice bytes off q.len); return off + q.len : Act Nat) u =
        .ok (off + q.len) (h u (storeEntry s va late off q bytes)) := bind_ok (hf off q (hmem q (by simp)) u)
    exact (bind_ok hstep).trans hk

@[simp] theorem leBytes_length : ∀ n v : Nat, (leBytes n v).length = n
  | 0, _ => rfl
  | n + 1, v => by simp [leBytes, leBytes_length n]

/-- What a store that is performed with its instruction does to the line of one of its accesses. -/
def performStore (phys part : Nat) (t : State) (a : PendAcc) : State :=
  match a.kind with
  | .store b => storeAt phys part a.det (a.ctx == 0) a.cacheable a.place b t
  | _ => t

/-- The core after a change of its open transaction. -/
def mapTxn (g : Txn → Txn) (c : Core) : Core := { c with txn := c.txn.map g }

@[simp] theorem mapTxn_phys (g : Txn → Txn) (c : Core) : (mapTxn g c).phys = c.phys := rfl

@[simp] theorem mapTxn_mapTxn (g h : Txn → Txn) (c : Core) : mapTxn h (mapTxn g c) = mapTxn (fun x => h (g x)) c := by
  simp [mapTxn, Function.comp_def]

/-- A store of an open transaction joins the transaction of its core. -/
def joinTxn (phys : Nat) (t : State) (a : PendAcc) : State := onCore phys (mapTxn (fun x => holdStore x a)) t

/-- Stores that join a transaction one after the other join it as a list. -/
theorem foldl_joinTxn (phys : Nat) : ∀ (l : List PendAcc) (g : Txn → Txn) (t : State),
    l.foldl (joinTxn phys) (onCore phys (mapTxn g) t) = onCore phys (mapTxn (fun x => l.foldl holdStore (g x))) t
  | [], _, _ => rfl
  | a :: l, g, t => by
    rw [List.foldl_cons, joinTxn, onCore_onCore (mapTxn_phys g) (mapTxn_phys _)]
    simp only [mapTxn_mapTxn]
    exact foldl_joinTxn phys l _ t

/-- Every piece that a transaction has taken into its sets lies in memory (R224). -/
theorem txnTouch_mem {write : Bool} : ∀ {ps : List Piece} {s : State}, txnTouch ag write ps s = .ok () t →
    ∀ q ∈ ps, ∃ pa, q.place = .mem pa
  | [], _, _, q, hq => by simp at hq
  | p :: ps, s, h, q, hq => by
    obtain ⟨x, u, hp, hrest⟩ := bind_eq_ok h
    rcases List.mem_cons.mp hq with rfl | hq
    · cases hplace : q.place with
      | mem pa => exact ⟨pa, rfl⟩
      | ls phys part gid off => simp [hplace] at hp
    · exact txnTouch_mem hrest q hq

section
variable {bytes : List Byte} {s1 s2 s3 : State} (hopen : openAccess (curAgent s) (curWaiter s) .store needW true va bytes.length s = .ok ps s1)
include hopen

/-- A store outside a transaction to lines that the stash does not map joins the accesses to be performed, a line at a time
(R197, R198, R259). -/
theorem storeAct_waits (htxn : inTxn s1 (curAgent s) = false) (hmap : ¬ ∃ q ∈ ps, stashEntryAt s1 q.place ≠ none)
    (hprox : awaitProxies (curAgent s) ps s1 = .ok () s1) :
    storeAct (curAgent s) va bytes s = .ok () ((storeEntries s va true 0 ps bytes).foldl (queueAccess s.core.phys) s1) := by
  have hany : ps.any (fun q => (stashEntryAt s1 q.place).isSome) = false := by
    simpa using hmap
  unfold storeAct
  refine (bind_ok hopen).trans ?_
  simp only [get_bind, htxn, hany, Bool.false_eq_true, if_false]
  exact (bind_ok hprox).trans (forParts_run (fun off q _ u => pendPush_run s u _ _ _ _ _) s1)

/-- A store to a line that the stash maps is performed with the instruction (R179). -/
theorem storeAct_mapped (htxn : inTxn s1 (curAgent s) = false) (hmap : ∃ q ∈ ps, stashEntryAt s1 q.place ≠ none)
    (hmeet : performMeeting (curAgent s) ps s1 = .ok () s2) (hbad : checkBad true ps s2 = .ok () s3) :
    storeAct (curAgent s) va bytes s =
      .ok () ((storeEntries s va false 0 ps bytes).foldl (performStore s.core.phys (corePart s.core)) s3) := by
  have hany : ps.any (fun q => (stashEntryAt s1 q.place).isSome) = true := by
    simpa [List.any_eq_true, Option.isSome_iff_ne_none] using hmap
  unfold storeAct
  refine (bind_ok hopen).trans ?_
  simp only [get_bind, htxn, hany, Bool.false_eq_true, if_false, if_true]
  refine (bind_ok hmeet).trans ((bind_ok hbad).trans (forParts_run (fun off q _ u => ?_) s3))
  simp [performStore, storeEntry]

/-- A store in a transaction, within its limits, joins the transaction's stores (R224). -/
theorem storeAct_inTxn (hlen : 0 < bytes.length) (htxn : inTxn s1 (curAgent s) = true)
    (htouch : txnTouch (curAgent s) true ps s1 = .ok () s2) (hprox : awaitProxies (curAgent s) ps s2 = .ok () s2)
    (hbad : checkBad true ps s2 = .ok () s3) :
    storeAct (curAgent s) va bytes s = .ok ()
      (onCore s.core.phys (mapTxn (fun x => (storeEntries s va false 0 ps bytes).foldl holdStore x)) s3) := by
  have hput : ∀ off, ∀ q ∈ ps, ∀ u, txnPut (curAgent s) .core (.store (slice bytes off q.len)) va q (slice bytes off q.len) u =
      .ok () (joinTxn s.core.phys u (storeEntry s va false off q bytes)) := by
    intro off q hq u
    obtain ⟨pa, hpa⟩ := txnTouch_mem htouch q hq
    simp only [txnPut, hpa, modify_run, joinTxn, storeEntry, holdStore, Bool.false_and, curAgent_phys, curAgent_ctx, curAgent_det]
    rfl
  unfold storeAct
  refine (bind_ok hopen).trans ?_
  simp only [get_bind, htxn, if_true]
  refine (bind_ok htouch).trans ((bind_ok hprox).trans ((bind_ok hbad).trans ((forParts_run hput s3).trans ?_)))
  cases hps : ps with
  | nil => exact absurd hps (openAccess_pieces hlen _ _ _ _ _ _ _ hopen)
  | cons q qs => rw [storeEntries_cons, List.foldl_cons, joinTxn, foldl_joinTxn]; rfl

end

/-- The form of every store: its frame, its registers in the order in which they are read, its address (R197). -/
theorem exec_store {i : Instr} {f : InstrInfo} {data : Reg} {a : AccessForm} (hf : frameOf i = some f)
    (hi : storeForm s i = some (data, a)) : 0 < a.size ∧ ∃ (w : Bool) (off : BitVec 11),
      a.addr = scaledAddr s a.base off a.size ∧ exec i s = runSeq f (storeBody data a.base w off a.size) s := by
  cases i <;> simp only [storeForm, Option.some.injEq, Prod.mk.injEq, reduceCtorEq] at hi <;> obtain ⟨rfl, rfl⟩ := hi <;>
    cases hf
  case stB w off => exact ⟨Nat.succ_pos _, w, off, rfl, rfl⟩
  case stH w off => exact ⟨Nat.succ_pos _, w, off, rfl, rfl⟩
  case stW w off => exact ⟨Nat.succ_pos _, w, off, rfl, rfl⟩
  case stD w off => exact ⟨Nat.succ_pos _, w, off, rfl, rfl⟩
  case cSt d b w => exact ⟨Nat.succ_pos _, w, 0, by simp [scaledAddr], rfl⟩

/-- The body of a store whose registers can be read is its access. -/
theorem storeBody_run {data base : Reg} (hb : Readable s base) (hd : Readable s data) (w : Bool) {off : BitVec 11} {n : Nat}
    (hva : va = scaledAddr s base off n) :
    storeBody data base w off n s = storeAct (curAgent s) va (leBytes n (regVal s data).toNat) s := by
  have haddr : off.signExtend 64 * BitVec.ofNat 64 n = BitVec.ofInt 64 (off.toInt * n) := by
    rw [BitVec.ofInt_mul]; rfl
  unfold storeBody
  rw [bind_ok (readS_ok hb w), bind_ok (readS_ok hd w), get_bind, haddr, hva]
  rfl

/-- Settles O17: a store is its access, and the access is one of the three kinds. -/
theorem storesWaitToBePerformed : Obligations.StoresWaitToBePerformed := by
  unfold Obligations.StoresWaitToBePerformed
  refine ⟨?_, ?_⟩
  · intro i f data a p s hf hi hmay hbase hdata hpl hown
    obtain ⟨hsize, w, off, haddr, hexec⟩ := exec_store hf hi
    have hopen := openAccess_own hpl hsize hown (curWaiter s) .store needW true
    obtain ⟨r, al, -, -, -, -, -, -, -, rfl⟩ := ownPlace_eq_some hown
    have hmap : ¬ ∃ q ∈ [wholePiece (.ls s.core.phys r.part r.gid (a.addr.toNat % 2 ^ 48)) false a.addr false a.size],
        stashEntryAt s q.place ≠ none := by
      simp [wholePiece, stashEntryAt_own hpl.noStash]
    have htxn : inTxn s (curAgent s) = false := by simp [inTxn, hpl.noTxn]
    have hrun := storeAct_waits (bytes := leBytes a.size (regVal s data).toNat) (by simpa using hopen) htxn hmap
      (awaitProxies_own hpl.noVec _ _ _ _)
    rw [hexec, runSeq_ok hmay ((storeBody_run hbase hdata w haddr).trans hrun)]
    congr 2
    have hslice : slice (leBytes a.size (regVal s data).toNat) 0 a.size = leBytes a.size (regVal s data).toNat := by
      simp [slice, List.take_of_length_le]
    rw [storeEntries_cons, storeEntries_nil, List.foldl_cons, List.foldl_nil, queueAccess_waits hpl.notDet]
    simp [storeEntry, wholePiece, pendOf, hslice, hpl.notDet]
  · intro i f data a ps s s1 hf hi hmay hbase hdata hopens bytes phys mapped
    obtain ⟨hsize, w, off, haddr, hexec⟩ := exec_store hf hi
    have hlen : bytes.length = a.size := leBytes_length _ _
    have hopen : openAccess (curAgent s) (curWaiter s) .store needW true a.addr bytes.length s = .ok ps s1 := hlen ▸ hopens
    have hdone : ∀ t, storeAct (curAgent s) a.addr bytes s = .ok () t → exec i s = .next (completes f t) := by
      intro t ht
      rw [hexec, runSeq_ok hmay ((storeBody_run hbase hdata w haddr).trans ht)]
    exact ⟨fun htxn hmap hprox => hdone _ (storeAct_waits hopen htxn hmap hprox),
      fun s2 s3 htxn hmap hmeet hbad => hdone _ (storeAct_mapped hopen htxn hmap hmeet hbad),
      fun s2 s3 htxn htouch hprox hbad => hdone _ (storeAct_inTxn hopen (by omega) htxn htouch hprox hbad)⟩

end Sys2Proof.Machine
end

section
/-!
SUPPORT. How a task ends (R32, R33, R326, R327).
-/

namespace Sys2Proof.Machine

open Sys2Proof.Safety

variable {s t u : State} {r : Running} {p : Partition} {g : Group}

theorem takeErrors_none (h : (curCtx s).prods = []) : takeErrors s = .ok () s := by
  simp [takeErrors, h]

theorem fenceAct_settled {scope : Scope} (h : Settled s scope) : fenceAct (curAgent s) scope s = .ok () s := by
  obtain ⟨hacc, heng⟩ := h
  simp [fenceAct, hacc, heng]

/-- A task at rest waits for nothing before its end. -/
theorem endWaits_rest (h : AtRest s) : endWaits s = .ok () s := by
  unfold endWaits
  rw [bind_ok (takeErrors_none h.noProds)]
  simp [h.engines, h.chans, h.noHelpers, h.done]

/-- A task that holds no word waits for no home. -/
theorem awaitHeld_none (h : heldSet s s.core.phys = []) : awaitHeld s.core.phys s = .ok () s := by
  simp [awaitHeld, h, awaitLines]

theorem endReady_run (hrest : AtRest s) (hset : Settled s .dev) (hheld : heldSet s s.core.phys = []) :
    endReady s = .ok () s := by
  unfold endReady
  rw [bind_ok (endWaits_rest hrest), get_bind, bind_ok (fenceAct_settled hset), get_bind, awaitHeld_none hheld]

/-! ### The end of one member of a group that goes on -/

/-- A task that holds no word releases none. -/
theorem releaseHeld_none (hrun : s.core.run = some r) (hheld : r.held = []) : releaseHeld s.core.phys s = s := by
  have hr : ({ r with held := [] } : Running) = r := by rw [← hheld]
  unfold releaseHeld
  rw [coreAt_focus, hrun]
  simp only [hheld, List.foldl_nil]
  rw [onCore_focus (f := fun c => { c with run := c.run.map (fun r => { r with held := [] }) }) (fun _ => rfl)]
  simp only [hrun, Option.map_some, hr]
  rw [← hrun]

/-- The core of a task without a tile, once it is free: it runs no task, its control context is not live, its local store is as it
was. -/
theorem freeCore_untiled (htile : s.core.tile = none) (part : Nat) :
    ∃ c, freeCore s.core.phys part s = { forgetAnswers s.core.phys s with core := c } ∧
      c.phys = s.core.phys ∧ c.run = none ∧ c.ctl.live = false ∧ c.allocs = s.core.allocs := by
  have hdrop : dropTile s.core.phys (forgetAnswers s.core.phys s) = forgetAnswers s.core.phys s := by
    have hcore : coreAt (forgetAnswers s.core.phys s) s.core.phys = s.core := coreAt_focus (forgetAnswers s.core.phys s)
    simp [dropTile, hcore, htile]
  have hfocus := onCore_focus (f := fun c => { vacate (dropStanding c) with chans := c.chans.map (fun k =>
    { k with state := .idle, cause := 0, wp := 0, job := none, rcd := 0, hwait := none, await := .nothing }) })
    (fun _ => rfl) (forgetAnswers s.core.phys s)
  unfold freeCore reachBarrier
  rw [hdrop]
  split
  · refine ⟨_, (congrArg _ hfocus).trans (onCore_focus (f := fun c => { c with atBarrier := true }) (fun _ => rfl) _), rfl, rfl, rfl, rfl⟩
  · exact ⟨_, hfocus, rfl, rfl, rfl, rfl⟩

theorem groupAt_onGroup {f : Group → Group} (hf : ∀ g, (f g).gid = g.gid) (tag gid : Nat) (s : State) :
    groupAt (onGroup tag gid f s) tag gid = (groupAt s tag gid).map f := by
  have hmod : ∀ l : List Group, findBy Group.gid gid (modifyWhere (·.gid == gid) f l) = (findBy Group.gid gid l).map f := by
    intro l
    rw [modifyWhere, findBy_map (fun g => by split <;> simp [hf])]
    cases h : findBy Group.gid gid l with
    | none => rfl
    | some g => simp [findBy_key h]
  unfold groupAt onGroup
  rw [partAt_onPart (f := fun p => { p with groups := modifyWhere (·.gid == gid) f p.groups }) (fun _ => rfl)]
  cases partAt s tag <;> simp [hmod]

/-- A member of a group in which another still runs ends, and the group goes on (R32). -/
theorem memberEnds_goesOn {part gid rank : Nat} (hg : groupAt s part gid = some g) (hk : ∃ k ∈ g.running, k ≠ rank)
    (phys : Nat) (det : Bool) : memberEnds part gid rank phys det s =
      onGroup part gid (fun g => { g with running := g.running.filter (· != rank) }) s := by
  have hleft : (g.running.filter (· != rank)).isEmpty = false := by
    obtain ⟨k, hmem, hne⟩ := hk
    rw [List.isEmpty_eq_false_iff_exists_mem]
    exact ⟨k, List.mem_filter.mpr ⟨hmem, by simpa using hne⟩⟩
  unfold memberEnds
  simp only
  rw [groupAt_onGroup (f := fun g => { g with running := g.running.filter (· != rank) }) (fun _ => rfl), hg]
  simp [hleft]

/-- No launch of a partition completes while each has a population. -/
theorem sweepPart_none {tag : Nat} (hp : partAt s tag = some p) (hpop : ∀ l ∈ p.launches, l.pop ≠ 0) : sweepPart tag s = s := by
  have hdone : p.launches.filter (fun l => launchDone s p l && (false || !(quantumRules p && hasSlots p l))) = [] := by
    rw [List.filter_eq_nil_iff]
    intro l hl
    simp [launchDone, hpop l hl]
  simp only [sweepPart, sweepLaunches, hp, hdone, List.foldl_nil]

theorem partAt_onLaunch (tag slot : Nat) (f : Launch → Launch) (s : State) : partAt (onLaunch tag slot f s) tag =
    (partAt s tag).map (fun p => { p with launches := modifyWhere (·.slot == slot) f p.launches }) :=
  partAt_onPart (f := fun p => { p with launches := modifyWhere (·.slot == slot) f p.launches }) (fun _ => rfl) tag s

theorem partAt_onGroup (tag gid : Nat) (f : Group → Group) (s : State) : partAt (onGroup tag gid f s) tag =
    (partAt s tag).map (fun p => { p with groups := modifyWhere (·.gid == gid) f p.groups }) :=
  partAt_onPart (f := fun p => { p with groups := modifyWhere (·.gid == gid) f p.groups }) (fun _ => rfl) tag s

/-- A launch of two members or more still has one when one ends. -/
theorem pop_ne_zero {slot : Nat} {ls : List Launch} (hpop : ∀ l ∈ ls, 2 ≤ l.pop) :
    ∀ l ∈ modifyWhere (fun l => l.slot == slot) (fun l => { l with pop := l.pop - 1 }) ls, l.pop ≠ 0 := by
  intro l hl
  obtain ⟨l0, hl0, rfl⟩ := List.mem_map.mp hl
  have := hpop l0 hl0
  split
  · simp only; omega
  · omega

/-- No launch completes when one of two members or more loses one. -/
theorem popDown_sweep {tag : Nat} (hp : partAt s tag = some p) (hpop : ∀ l ∈ p.launches, 2 ≤ l.pop) (slot : Nat) :
    sweepPart tag (popDown tag slot s) = popDown tag slot s :=
  sweepPart_none ((partAt_onLaunch ..).trans (congrArg _ hp)) (pop_ne_zero hpop)

/-- The end of a task whose group and launch go on (R32, R33, R327). -/
theorem endTask_goesOn (hrun : s.core.run = some r) (hevent : r.event = none) (hheld : r.held = []) (htile : s.core.tile = none)
    (hp : partAt s r.part = some p) (hg : findBy Group.gid r.gid p.groups = some g) (hk : ∃ k ∈ g.running, k ≠ r.rank)
    (hpop : ∀ l ∈ p.launches, 2 ≤ l.pop) :
    ∃ c, c.phys = s.core.phys ∧ c.run = none ∧ c.ctl.live = false ∧ c.allocs = s.core.allocs ∧
      endTask s.core.phys s = popDown r.part r.launch (onGroup r.part r.gid
        (fun g => { g with running := g.running.filter (· != r.rank) }) { forgetAnswers s.core.phys s with core := c }) := by
  obtain ⟨c, hfree, hphys, hcrun, hlive, hallocs⟩ := freeCore_untiled htile r.part
  refine ⟨c, hphys, hcrun, hlive, hallocs, ?_⟩
  have hp' : partAt { forgetAnswers s.core.phys s with core := c } r.part = some p := hp
  have hg' : groupAt { forgetAnswers s.core.phys s with core := c } r.part r.gid = some g := by simp [groupAt, hp', hg]
  unfold endTask
  rw [coreAt_focus, hrun]
  simp only
  rw [releaseHeld_none hrun hheld, show endEvent s.core.phys r s = s by simp [endEvent, hevent], hfree,
    memberEnds_goesOn hg' hk]
  exact popDown_sweep ((partAt_onGroup ..).trans (congrArg _ hp')) hpop r.launch

/-! ### tend and tjoin (R326, R327) -/

theorem endBody_run (hrest : AtRest s) (hset : Settled s .dev) (hheld : heldSet s s.core.phys = []) :
    (do endReady; modify (fun s => endTask s.core.phys s) : Act Unit) s = .ok () (endTask s.core.phys s) := by
  rw [bind_ok (endReady_run hrest hset hheld)]; rfl

/-- Settles O27. -/
theorem tasksEnd : Obligations.TasksEnd := by
  unfold Obligations.TasksEnd
  refine ⟨⟨?_, ?_⟩, ?_⟩
  · rintro f s hf hi hrest hset hheld
    cases hf
    exact runJump_ok hi (endBody_run hrest hset hheld)
  · rintro a w f rec s u t hf hi ha hchecks hrest hset hheld hdec
    cases hf
    refine runJump_ok hi ?_
    rw [bind_ok (readS_ok ha w), bind_ok hchecks, bind_ok (endReady_run hrest hset hheld), bind_ok hdec]
    rfl
  · intro r p g s hrun hevent hheld htile hp hg hk hpop
    obtain ⟨c, -, hcrun, hlive, hallocs, hend⟩ := endTask_goesOn hrun hevent hheld htile hp hg hk hpop
    have hp' : partAt { forgetAnswers s.core.phys s with core := c } r.part = some p := hp
    simp only [hend]
    refine ⟨hcrun, hlive, rfl, hallocs, ?_, ?_⟩
    · have hlaunch : ∀ v, groupAt (popDown r.part r.launch v) r.part r.gid = groupAt v r.part r.gid := by
        intro v
        simp [groupAt, popDown, partAt_onLaunch, Option.bind_map]
      rw [hlaunch, groupAt_onGroup (f := fun g => { g with running := g.running.filter (· != r.rank) }) (fun _ => rfl)]
      simp [groupAt, hp', hg]
    · rw [popDown, partAt_onLaunch, partAt_onGroup, hp']
      rfl

end Sys2Proof.Machine
end

section
/-!
SUPPORT. What an instruction that completes leaves of its context, its core and every byte (R42, R387, R388).
-/

namespace Sys2Proof.Machine

open Sys2Proof.Safety

variable {s t : State} {f : InstrInfo}

theorem if_run {α : Type} {c : Prop} [Decidable c] (hc : c) (x y : Act α) (s : State) : (if c then x else y) s = x s := by
  rw [if_pos hc]

theorem else_run {α : Type} {c : Prop} [Decidable c] (hc : ¬ c) (x y : Act α) (s : State) : (if c then x else y) s = y s := by
  rw [if_neg hc]

@[simp] theorem curIdx_completes (f : InstrInfo) (s : State) : curIdx (completes f s) = curIdx s := by simp [completes]

/-- The context of an instruction that completes: its PC is behind it, it waits for nothing, and where it accepts a pending
format it has none any more. -/
theorem curCtx_completes (f : InstrInfo) (s : State) : curCtx (completes f s) =
    let x := { curCtx s with pc := (curCtx s).pc + BitVec.ofNat 64 f.len }
    { (if f.pfx = 0 then x else clearPfx x) with await := .nothing, stalled := false, party := false } := by
  refine (curCtx_onCur _ _).trans ?_
  simp only [curCtx_noteTurn, curCtx_onCur]

@[simp] theorem pc_completes (f : InstrInfo) (s : State) :
    (curCtx (completes f s)).pc = (curCtx s).pc + BitVec.ofNat 64 f.len := by
  rw [curCtx_completes]; dsimp only; split <;> rfl

@[simp] theorem hasPfx_clearPfx (x : Ctx) : hasPfx (clearPfx x) = false := by
  simp [hasPfx, clearPfx]

/-- An instruction that accepts a pending format leaves none (R55). -/
theorem hasPfx_completes (h : f.pfx ≠ 0) (s : State) : hasPfx (curCtx (completes f s)) = false := by
  rw [curCtx_completes]
  simp only [h, if_false]
  exact hasPfx_clearPfx { curCtx s with pc := (curCtx s).pc + BitVec.ofNat 64 f.len }

/-! ### Registers -/

theorem regCtx_of_helper (h : curIdx t = curIdx s) (n : Reg) :
    regCtx t n = if isView s n then t.core.ctl else curCtx t := by
  simp [regCtx, isView, isHelper, h]

/-- States whose contexts have the same registers and presence bits have the same registers. -/
theorem sameRegs_of (hidx : curIdx t = curIdx s)
    (hcur : (curCtx t).regs = (curCtx s).regs ∧ (curCtx t).pres = (curCtx s).pres)
    (hctl : t.core.ctl.regs = s.core.ctl.regs ∧ t.core.ctl.pres = s.core.ctl.pres) (ds : List Reg) : SameRegs ds s t := by
  intro n _
  have hregs : (regCtx t n).regs = (regCtx s n).regs ∧ (regCtx t n).pres = (regCtx s n).pres := by
    rw [regCtx_of_helper hidx, regCtx]
    cases isView s n
    · exact hcur
    · exact hctl
  simp [regVal, regPresent, hregs]

theorem ctl_putCtx (c : Core) (i : Nat) (x : Ctx) : (putCtx c i x).ctl = c.ctl ∨ ctxOf c i = c.ctl ∧ (putCtx c i x).ctl = x := by
  unfold putCtx ctxOf
  split <;> simp

/-- A change of the context that issues keeps the registers if it keeps those of its context. -/
theorem sameRegs_onCur {g : Ctx → Ctx} (hregs : (g (curCtx s)).regs = (curCtx s).regs) (hpres : (g (curCtx s)).pres = (curCtx s).pres)
    (ds : List Reg) : SameRegs ds s (onCur g s) := by
  refine sameRegs_of (curIdx_onCur g s) (by rw [curCtx_onCur]; exact ⟨hregs, hpres⟩) ?_ ds
  rcases ctl_putCtx s.core (curIdx s) (g (curCtx s)) with h | ⟨h, h'⟩
  · exact ⟨congrArg Ctx.regs h, congrArg Ctx.pres h⟩
  · have hctl : (onCur g s).core.ctl = g (curCtx s) := h'
    rw [hctl, hregs, hpres, curCtx, h]
    exact ⟨rfl, rfl⟩

theorem sameRegs_trans {ds : List Reg} {u : State} (h : SameRegs ds s t) (h' : SameRegs ds t u) : SameRegs ds s u := by
  intro n hn
  obtain ⟨hv, hp⟩ := h n hn
  obtain ⟨hv', hp'⟩ := h' n hn
  exact ⟨hv'.trans hv, hp'.trans hp⟩

/-- A core that differs from the one in focus in no context has the same context that issues. -/
theorem curCtx_core {c : Core} (hctl : c.ctl = s.core.ctl) (hhelpers : c.helpers = s.core.helpers) (hcur : c.cur = s.core.cur)
    (hcore : t.core = c) : curCtx t = curCtx s := by
  have hidx : curIdx t = curIdx s := by simp [curIdx, hcore, hcur]
  simp [curCtx, hidx, ctxOf, hcore, hctl, hhelpers]

/-- A core that differs from the one in focus in no context has the same registers. -/
theorem sameRegs_core {c : Core} (hctl : c.ctl = s.core.ctl) (hhelpers : c.helpers = s.core.helpers) (hcur : c.cur = s.core.cur)
    (hcore : t.core = c) (ds : List Reg) : SameRegs ds s t := by
  have hidx : curIdx t = curIdx s := by simp [curIdx, hcore, hcur]
  have hctx : curCtx t = curCtx s := curCtx_core hctl hhelpers hcur hcore
  exact sameRegs_of hidx (by rw [hctx]; exact ⟨rfl, rfl⟩) (by rw [hcore, hctl]; exact ⟨rfl, rfl⟩) ds

/-- An instruction that completes leaves the registers to what it does itself. -/
theorem sameRegs_completes (f : InstrInfo) (s : State) (ds : List Reg) : SameRegs ds s (completes f s) := by
  have hpc : SameRegs ds s (onCur (fun x => { x with pc := x.pc + BitVec.ofNat 64 f.len }) s) := sameRegs_onCur rfl rfl ds
  refine sameRegs_trans hpc ?_
  unfold completes
  generalize onCur (fun x => { x with pc := x.pc + BitVec.ofNat 64 f.len }) s = u
  have hturn : SameRegs ds u (noteTurn u) := by
    unfold noteTurn
    dsimp only
    split
    · exact sameRegs_core (c := { u.core with last := curIdx u }) rfl rfl rfl rfl ds
    · exact sameRegs_core rfl rfl rfl rfl ds
  refine sameRegs_trans hturn (sameRegs_trans (sameRegs_onCur (g := fun x =>
    { (if f.pfx = 0 then x else clearPfx x) with await := .nothing, stalled := false, party := false }) ?_ ?_ ds)
    (sameRegs_core (t := retire f u) (c := (retire f u).core) rfl rfl rfl rfl ds)) <;> dsimp only <;> split <;> rfl

/-! ### Bytes -/

theorem stashByte_congr {c d : Core} (hstash : d.stashLines = c.stashLines) (hallocs : d.allocs = c.allocs) (pa : Nat) :
    stashByte d pa = stashByte c pa := by
  simp [stashByte, allocOf, hstash, hallocs]

/-- States of the same memory, cached lines, local stores and stash lines have the same bytes. -/
theorem sameBytes_of (hmem : t.mem = s.mem) (hlines : ∀ cl line, lineAt t cl line = lineAt s cl line) (hothers : t.others = s.others)
    (hphys : t.core.phys = s.core.phys) (hstash : t.core.stashLines = s.core.stashLines) (hallocs : t.core.allocs = s.core.allocs) :
    SameBytes s t := by
  intro phys cacheable p
  cases p with
  | mem pa =>
    simp [placeByte, clusterByte, allCores, List.findSome?_cons, hlines, hmem, hothers, hphys, stashByte_congr hstash hallocs]
  | ls q part gid off =>
    have halloc : allocOf (coreAt t q) part gid = allocOf (coreAt s q) part gid := by
      unfold coreAt
      rw [hphys, hothers]
      split
      · simp [allocOf, hallocs]
      · rfl
    simp [placeByte, halloc]

theorem sameBytes_trans {u : State} (h : SameBytes s t) (h' : SameBytes t u) : SameBytes s u :=
  fun phys cacheable p => (h' phys cacheable p).trans (h phys cacheable p)

theorem sameBytes_completes (f : InstrInfo) (s : State) : SameBytes s (completes f s) :=
  sameBytes_of (completes_mem f s) (fun cl line => by simp [lineAt, clusterAt]) (completes_others f s) (by simp [completes])
    (by simp [completes]) (by simp [completes])

end Sys2Proof.Machine
end

section
/-!
SUPPORT. The command queue of a tensor engine, and its tiles (R28, R136, R140, R146, R283).
-/

namespace Sys2Proof.Machine

open Sys2Proof.Safety

variable {s t u v : State} {k phys : Nat} {q : MxOp} {f : InstrInfo} {a : Reg} {w : Bool}

/-- Changes that do the same to what a core is are the same. -/
theorem onCore_congr {g h : Core → Core} (he : g (coreAt s k) = h (coreAt s k)) : onCore k g s = onCore k h s := by
  unfold onCore; rw [he]

/-! ### The queue -/

theorem settleQueue_phys : ∀ (done rest : List MxOp) (c : Core), (settleQueue done rest c).phys = c.phys
  | _, [], _ => rfl
  | done, q :: rest, c => by
    unfold settleQueue
    split
    · exact settleQueue_phys done rest _
    · split
      · exact settleQueue_phys _ rest c
      · exact settleQueue_phys _ rest c

/-- A queue of one mld or mrel stays as it is (R284). -/
theorem settleQueue_tile (htile : q.isTile = true) (c : Core) : settleQueue [] [q] c = { c with mxq := [q] } := by
  have hkind : (q.kind == .zero) = false ∧ (q.kind == .mma) = false := by
    cases hk : q.kind <;> simp_all [MxOp.isTile]
  simp [settleQueue, hkind]

/-- The core whose command queue is this one. -/
def withQueue (ops : List MxOp) (c : Core) : Core := { c with mxq := ops }

@[simp] theorem withQueue_phys (ops : List MxOp) (c : Core) : (withQueue ops c).phys = c.phys := rfl

/-- What the engine leaves of its queue when an entry leaves it. -/
def leaveQueue (n : Nat) (c : Core) : Core := settleQueue [] (c.mxq.eraseIdx n) c

@[simp] theorem leaveQueue_phys (n : Nat) (c : Core) : (leaveQueue n c).phys = c.phys := settleQueue_phys _ _ c

theorem tileOp_single {c : Core} (htile : q.isTile = true) (hq : c.mxq = [q]) : tileOp c = some (0, q) := by
  simp [tileOp, hq, List.findIdx?_cons, htile]

/-- What the engine does with an mld or mrel that it performs. -/
def tileWork (phys : Nat) (q : MxOp) : Act Unit := do
  if q.kind == .load then loadTile phys q
  else if (coreAt (← get) phys).tile.any (·.addr == q.bAddr) then modify (dropTile phys)

theorem tileWork_load (h : q.kind = .load) : tileWork phys q = loadTile phys q := by
  simp [tileWork, h]

/-- The work of an mrel drops the tile of its record address (R146). -/
theorem tileWork_release (h : q.kind ≠ .load) (s : State) : tileWork phys q s =
    .ok () (if (coreAt s phys).tile.any (·.addr == q.bAddr) then dropTile phys s else s) := by
  simp only [tileWork, beq_iff_eq, h, if_false, get_bind, ite_run]
  split <;> rfl

/-- An mld or mrel alone in its queue is begun, its work is made, and it leaves the queue. -/
theorem performTile_run (htile : q.isTile = true) (s : State) :
    performTile phys (onCore phys (withQueue [q]) s) =
      (do tileWork phys q; modify (onCore phys (leaveQueue 0)) : Act Unit) (onCore phys (withQueue [{ q with begun := true }]) s) := by
  have hbegin : onCore phys (fun c => settleQueue [] (c.mxq.set 0 { q with begun := true }) c) (onCore phys (withQueue [q]) s) =
      onCore phys (withQueue [{ q with begun := true }]) s := by
    rw [onCore_onCore (withQueue_phys _) (fun c => settleQueue_phys _ _ c)]
    exact onCore_congr (settleQueue_tile (q := { q with begun := true }) htile _)
  have hcore := coreAt_onCore (withQueue_phys [q]) phys s
  unfold performTile
  rw [get_bind, tileOp_single htile (q := q) (by rw [hcore]; rfl)]
  simp only [modify_bind]
  rw [hbegin]
  by_cases hload : q.kind = .load
  · rw [tileWork_load hload]
    simp only [hload, beq_self_eq_true, if_true]
    rfl
  · rw [bind_ok (tileWork_release hload _)]
    simp only [beq_iff_eq, hload, if_false, get_bind, ite_run, modify_bind, modify_run]
    split <;> rfl

/-- An mld or mrel that takes an entry of an empty queue is performed by the engine. -/
theorem mxEnter_tile (htile : q.isTile = true) (hempty : (coreAt s phys).mxq = []) :
    mxEnter phys q s = runHw (performTile phys) (onCore phys (withQueue [q]) s) := by
  have hpush : mxPush phys q s = onCore phys (withQueue [q]) s :=
    onCore_congr (by simp [withQueue, hempty])
  have hsettle : onCore phys (fun c => settleQueue [] c.mxq c) (onCore phys (withQueue [q]) s) = onCore phys (withQueue [q]) s := by
    rw [onCore_onCore (withQueue_phys _) (fun c => settleQueue_phys _ _ c)]
    exact onCore_congr (settleQueue_tile htile _)
  have hcore : (coreAt (onCore phys (withQueue [q]) s) phys).mxq = [q] := by
    rw [coreAt_onCore (withQueue_phys _)]; rfl
  unfold mxEnter takeQueue
  simp only [hpush, hsettle, hcore, List.length_singleton, List.range_one, List.foldl_cons, List.foldl_nil,
    tileOp_single htile hcore, Option.isSome_some, if_true]

theorem mxEnter_tile_ok (htile : q.isTile = true) (hempty : (coreAt s phys).mxq = [])
    (hwork : tileWork phys q (onCore phys (withQueue [{ q with begun := true }]) s) = .ok () v) :
    mxEnter phys q s = onCore phys (leaveQueue 0) v := by
  rw [mxEnter_tile htile hempty, runHw, performTile_run htile, bind_ok hwork]
  rfl

theorem mxEnter_tile_stops {e : Stop} (htile : q.isTile = true) (hempty : (coreAt s phys).mxq = [])
    (hwork : tileWork phys q (onCore phys (withQueue [{ q with begun := true }]) s) = .error e v) : mxEnter phys q s = v := by
  rw [mxEnter_tile htile hempty, runHw, performTile_run htile, bind_error hwork]

/-! ### mld -/

/-- The core whose tile is this one. -/
def withTile (tile : Option Tile) (c : Core) : Core := { c with tile := tile }

/-- A tile that has been loaded is the record with the lines that were pinned for it. -/
theorem loadTile_tile (h : loadTile phys q s = .ok () v) : ∃ pins, (coreAt v phys).tile = some ⟨q.bAddr, q.b, pins, []⟩ := by
  unfold loadTile at h
  rw [get_bind] at h
  simp only [modify_bind, get_bind] at h
  rw [ite_run] at h
  split at h
  · cases h
  · obtain ⟨_, s1, -, h⟩ := bind_eq_ok h
    obtain ⟨pins, s2, -, h⟩ := bind_eq_ok h
    cases h
    exact ⟨_, congrArg Core.tile (coreAt_onCore (f := withTile (some ⟨q.bAddr, q.b, pins, []⟩)) (fun _ => rfl) phys s2)⟩

/-- The entry of an mld in the command queue. -/
def loadOp (addr : Word) (bytes : List Byte) (pages : List MxPage) : MxOp :=
  let r := parseShape bytes
  { bareOp .load 0 with bAddr := addr, b := r, pages := pages, total := r.ext[0] / kstElems r.fmt }

/-- An mld whose record passes the checks enters the queue, but for a format that is emulated (log entry 87). -/
theorem mldAct_run {addr : Word} {bytes : List Byte} {pages : List MxPage} {u1 u2 v2 u3 u4 : State}
    (hfree : queueFree s s.core.phys = true)
    (hrecord : mxRecord (curAgent s) (curWaiter s) 1 addr bRules (fun _ => true) s = .ok (bytes, true) u1)
    (hpages : withInfo (mxInfo 0 0 1) (operandPages (curAgent s) (curWaiter s) needR (parseShape bytes)) u1 = .ok pages u2)
    (hwindow : withInfo (mxInfo 0 0 1) (operandWindow (curAgent s) (parseShape bytes)) u2 = .ok () v2)
    (hdet : withInfo (mxInfo 0 0 1) (operandDet (curAgent s) (curWaiter s) .load (parseShape bytes)) v2 = .ok () u3)
    (hspans : awaitSpans (curAgent s) (curWaiter s) needR (parseShape bytes) u3 = .ok () u4) :
    mldAct addr s = .ok () (if (pairClass (parseShape bytes).fmt (parseShape bytes).fmt).any (fun c => c.1) = true then u4
      else mxEnter s.core.phys (loadOp addr bytes pages) u4) := by
  unfold mldAct
  rw [get_bind]
  refine (else_run (by simp [hfree]) _ _ _).trans ((bind_ok hrecord).trans ((else_run (by simp) _ _ _).trans ?_))
  refine (bind_ok hpages).trans ((bind_ok hwindow).trans ((bind_ok hdet).trans ((bind_ok hspans).trans ?_)))
  rw [ite_run]
  split <;> rfl

/-- With no entry of the command queue free, mld waits (R28, R283). -/
theorem mldAct_full (hfull : queueFree s s.core.phys = false) (addr : Word) : mldAct addr s = .error (.stall false) s := by
  unfold mldAct
  rw [get_bind]
  exact if_run (by simp [hfull]) _ _ _

/-! ### mrel -/

/-- The entry of an mrel in the command queue. -/
def releaseOp (addr : Word) : MxOp := { bareOp .release 0 with bAddr := addr }

theorem exec_mrel (hmay : MayIssue f s) (hf : frameOf (.mrel a w) = some f) (ha : Readable s a)
    (hfree : queueFree s s.core.phys = true) :
    exec (.mrel a w) s = .next (completes f (mxEnter s.core.phys (releaseOp (regVal s a)) s)) := by
  cases hf
  refine runSeq_ok hmay ((bind_ok (readS_ok ha w)).trans ?_)
  simp only [get_bind, hfree, Bool.not_true, Bool.false_eq_true, if_false]
  rfl

theorem exec_mrel_full (hmay : MayIssue f s) (hf : frameOf (.mrel a w) = some f) (ha : Readable s a)
    (hfull : queueFree s s.core.phys = false) : exec (.mrel a w) s = .next (standStill false s) := by
  cases hf
  have hstop : (do
      let addr ← readS a w
      let phys := (← get).core.phys
      if !queueFree (← get) phys then stallAct
      modify (mxEnter phys { bareOp .release 0 with bAddr := addr }) : Act Unit) s = .error (.stall false) s := by
    refine (bind_ok (readS_ok ha w)).trans ?_
    simp only [get_bind]
    exact if_run (by simp [hfull]) _ _ _
  exact runSeq_stops hmay hstop

theorem queueFree_of_empty (hempty : s.core.mxq = []) : queueFree s s.core.phys = true := by
  simp [queueFree, unbegun, hempty]

/-- An mrel of the tile's record drops it; one of another record does nothing (R146). -/
theorem mxEnter_release (hempty : s.core.mxq = []) (addr : Word) :
    mxEnter s.core.phys (releaseOp addr) s = onCore s.core.phys (leaveQueue 0)
      (let t := onCore s.core.phys (withQueue [{ releaseOp addr with begun := true }]) s
       if s.core.tile.any (·.addr == addr) then dropTile s.core.phys t else t) := by
  have htile : (coreAt (onCore s.core.phys (withQueue [{ releaseOp addr with begun := true }]) s) s.core.phys).tile = s.core.tile := by
    rw [coreAt_onCore (withQueue_phys _), coreAt_focus]; rfl
  have hwork := tileWork_release (q := releaseOp addr) (phys := s.core.phys) (by simp [releaseOp, bareOp])
    (onCore s.core.phys (withQueue [{ releaseOp addr with begun := true }]) s)
  rw [htile] at hwork
  exact mxEnter_tile_ok rfl (by rw [coreAt_focus, hempty]) hwork

/-- The queue of a core in focus that has begun one mrel and drops it is empty. -/
theorem leaveQueue_single (c : Core) : leaveQueue 0 (withQueue [q] c) = withQueue [] c := rfl

theorem mxEnter_release_other (hempty : s.core.mxq = []) {addr : Word} (hother : s.core.tile.any (·.addr == addr) = false) :
    mxEnter s.core.phys (releaseOp addr) s = s := by
  have hself : withQueue [] s.core = s.core := by rw [withQueue, ← hempty]
  rw [mxEnter_release hempty]
  simp only [hother, Bool.false_eq_true, if_false]
  rw [onCore_onCore (withQueue_phys _) (leaveQueue_phys 0)]
  refine (onCore_focus (f := fun c => leaveQueue 0 (withQueue _ c)) (fun c => by simp) s).trans ?_
  rw [leaveQueue_single, hself]

/-! ### A tile that no cinval waits for is dropped -/

/-- The cluster without pins of these lines. -/
def withoutPins (lines : List Nat) (c : Cluster) : Cluster := { c with pins := lines.foldl (fun l x => l.erase x) c.pins }

/-- Where no cinval waits for a pinned line, unpinning changes the pins alone (R203). -/
theorem unpinLines_free {cl : Nat} (hfree : (clusterAt s cl).refetch = []) (lines : List Nat) :
    unpinLines cl lines s = onCluster cl (withoutPins lines) s := by
  have hrefetch : (clusterAt (onCluster cl (withoutPins lines) s) cl).refetch = [] := by
    rw [clusterAt_onCluster (f := withoutPins lines) (fun _ => rfl)]; exact hfree
  have hkeep : ∀ l : List Nat, l.foldl (fun s line =>
      if (clusterAt s cl).refetch.contains line && !(clusterAt s cl).pins.contains line then dropLine cl line s else s)
        (onCluster cl (withoutPins lines) s) = onCluster cl (withoutPins lines) s := by
    intro l
    induction l with
    | nil => rfl
    | cons line l ih => simpa [hrefetch] using ih
  exact hkeep lines

theorem dropTile_free {tile : Tile} (htile : s.core.tile = some tile) (hfree : (clusterAt s (clusterOf s.core.phys)).refetch = []) :
    dropTile s.core.phys s = onCluster (clusterOf s.core.phys) (withoutPins tile.pins) { s with core := withTile none s.core } := by
  unfold dropTile
  rw [coreAt_focus, htile]
  have hfocus := onCore_focus (f := withTile none) (fun _ => rfl) s
  exact (congrArg (unpinLines _ _) hfocus).trans (unpinLines_free (s := { s with core := withTile none s.core }) hfree tile.pins)

theorem lineAt_withoutPins (k : Nat) (lines : List Nat) (s : State) (cl line : Nat) :
    lineAt (onCluster k (withoutPins lines) s) cl line = lineAt s cl line := by
  unfold lineAt
  by_cases h : k = cl
  · subst h
    rw [clusterAt_onCluster (f := withoutPins lines) (fun _ => rfl)]
    rfl
  · rw [clusterAt_onCluster_ne (f := withoutPins lines) (fun _ => rfl) h]

/-- The state of a core that has given up its tile and its queue. -/
def tileless (lines : List Nat) (s : State) : State :=
  onCluster (clusterOf s.core.phys) (withoutPins lines) { s with core := withQueue [] (withTile none s.core) }

/-- An mrel of the tile of an engine with an empty queue, no line of the tile waited for by a cinval: the core has no tile and no
queue, and the cluster fewer pins. -/
theorem mxEnter_release_tile {tile : Tile} (hempty : s.core.mxq = []) (htile : s.core.tile = some tile)
    (hfree : (clusterAt s (clusterOf s.core.phys)).refetch = []) :
    mxEnter s.core.phys (releaseOp tile.addr) s = tileless tile.pins s := by
  have hq := onCore_focus (f := withQueue [{ releaseOp tile.addr with begun := true }]) (fun _ => rfl) s
  have hdrop := dropTile_free (s := { s with core := withQueue [{ releaseOp tile.addr with begun := true }] s.core }) htile hfree
  have hleave := onCore_focus (f := leaveQueue 0) (leaveQueue_phys 0) (onCluster (clusterOf s.core.phys) (withoutPins tile.pins)
    { s with core := withTile none (withQueue [{ releaseOp tile.addr with begun := true }] s.core) })
  rw [mxEnter_release hempty]
  simp only [htile, Option.any_some, beq_self_eq_true, if_true, hq]
  exact (congrArg (onCore s.core.phys (leaveQueue 0)) hdrop).trans hleave

theorem tileless_core (lines : List Nat) (s : State) : (tileless lines s).core = withQueue [] (withTile none s.core) := rfl

theorem sameRegs_tileless (lines : List Nat) (s : State) : SameRegs [] s (tileless lines s) :=
  sameRegs_core (c := withQueue [] (withTile none s.core)) rfl rfl rfl (tileless_core lines s) []

theorem sameBytes_tileless (lines : List Nat) (s : State) : SameBytes s (tileless lines s) := by
  have hlines : ∀ cl line, lineAt (tileless lines s) cl line = lineAt s cl line :=
    lineAt_withoutPins (clusterOf s.core.phys) lines { s with core := withQueue [] (withTile none s.core) }
  exact sameBytes_of rfl hlines rfl (by rw [tileless_core]; rfl) (by rw [tileless_core]; rfl) (by rw [tileless_core]; rfl)

/-! ### mdrain (R147) -/

/-- The entry of an mdrain in the command queue. -/
def drainOp (s : State) (x : Fin 4) (dAddr hpc : Word) (d : ShapeRec) : MxOp :=
  { kind := .drain, acc := x, held := false, begun := false, host := none, emu := false, usesFmt := hasPfx (curCtx s)
    pfmt := if hasPfx (curCtx s) then (curCtx s).fmt else 0
    aAddr := dAddr, bAddr := 0, asAddr := 0, bsAddr := 0, a := d, b := d, asRec := none, bsRec := none, pages := []
    pins := [], rows := d.ext[1], next := 0, total := d.ext[1], released := 0, rm := roundMode (curCtx s), hpc := hpc, flags := 0
    prio := taskPrio s s.core.phys, member := 0 }

theorem drainFits_of {pfx : Bool} {fmt : Word} {bytes : List Byte}
    (h : pfx = true → (bitsOf fmt 3 0 = 0 ∨ bitsOf fmt 3 0 = 5) ∧ bitsOf fmt 7 4 = (parseShape bytes).fmt) :
    drainFits pfx fmt bytes = true := by
  cases pfx with
  | false => simp [drainFits]
  | true =>
    obtain ⟨ha, hb⟩ := h rfl
    rcases ha with ha | ha <;> simp [drainFits, fmtA, fmtB, ha, hb]

/-- An mdrain whose record passes the checks takes its place and its entry (R135, R136). -/
theorem mdrainAct_run {x : Fin 4} {dAddr hpc : Word} {bytes : List Byte} {u v w z : State} (hroom : mxRoom s s.core.phys = true)
    (hrecord : mxRecord (curAgent s) (curWaiter s) 4 dAddr dRules (drainFits (hasPfx (curCtx s)) (curCtx s).fmt) s =
      .ok (bytes, true) u)
    (hfits : drainFits (hasPfx (curCtx s)) (curCtx s).fmt bytes = true)
    (hwindow : withInfo (mxInfo 0 0 4) (operandWindow (curAgent s) (parseShape bytes)) u = .ok () v)
    (hdet : withInfo (mxInfo 0 0 4) (operandDet (curAgent s) (curWaiter s) .store (parseShape bytes)) v = .ok () w)
    (hspans : awaitSpans (curAgent s) (curWaiter s) needW (parseShape bytes) w = .ok () z) :
    mdrainAct x dAddr hpc s = .ok () (mxPush s.core.phys (drainOp s x dAddr hpc (parseShape bytes)) z) := by
  unfold mdrainAct
  rw [get_bind]
  refine (else_run (by simp [hroom]) _ _ _).trans ((bind_ok hrecord).trans ((else_run (by simp [hfits]) _ _ _).trans ?_))
  exact (bind_ok hwindow).trans ((bind_ok hdet).trans (bind_ok hspans))

theorem mxPush_focus {phys : Nat} (h : s.core.phys = phys) (q : MxOp) :
    mxPush phys q s = { s with core := withQueue (s.core.mxq ++ [q]) s.core } := by
  subst h
  exact onCore_focus (f := fun c => withQueue (c.mxq ++ [q]) c) (fun _ => rfl) s

/-! ### The statements -/

theorem exec_mld_of {addr : Word} (hmay : MayIssue f s) (hf : frameOf (.mld a w) = some f) (ha : Readable s a)
    (haddr : addr = regVal s a) (hrun : mldAct addr s = .ok () t) : exec (.mld a w) s = .next (completes f t) := by
  cases hf
  subst haddr
  exact runSeq_ok hmay ((bind_ok (readS_ok ha w)).trans hrun)

/-- Settles O39. -/
theorem tilesAndDrains : Obligations.TilesAndDrains := by
  unfold Obligations.TilesAndDrains
  refine ⟨⟨?_, ?_, ?_⟩, ?_⟩
  · intro a w f bytes pages s u1 u2 v2 u3 u4 hf hmay ha hfree hrecord hpages hwindow hdet hspans r phys q alone
    have hrun := mldAct_run hfree hrecord hpages hwindow hdet hspans
    have henter : (pairClass r.fmt r.fmt).any (fun c => c.1) = false → exec (.mld a w) s = .next (completes f (mxEnter phys q u4)) := by
      intro hemu
      refine exec_mld_of hmay hf ha rfl (hrun.trans ?_)
      rw [if_neg (by simpa [r] using hemu)]
      rfl
    refine ⟨fun hemu => exec_mld_of hmay hf ha rfl (hrun.trans (by rw [if_pos hemu])), henter, fun v hemu hempty => ⟨?_, ?_⟩⟩
    · intro e hload
      rw [henter hemu, mxEnter_tile_stops (q := q) rfl hempty ((congrFun (tileWork_load rfl) _).trans hload)]
    · intro hload
      refine ⟨loadTile_tile hload, ?_⟩
      rw [henter hemu, mxEnter_tile_ok (q := q) rfl hempty ((congrFun (tileWork_load rfl) _).trans hload)]
      rfl
  · intro a w f s hf hmay ha phys q
    refine ⟨fun hfree => exec_mrel hmay hf ha hfree, ?_, ?_⟩
    · intro hempty htile
      have hexec := exec_mrel hmay hf ha (queueFree_of_empty hempty)
      refine ⟨?_, fun hrefetch => ?_⟩
      · rw [hexec, mxEnter_release hempty]
        simp only [htile, if_true]
        rfl
      · obtain ⟨tile, hsome, haddr⟩ : ∃ tile, s.core.tile = some tile ∧ tile.addr = regVal s a := by
          cases hsome : s.core.tile <;> simp_all
        have hq := mxEnter_release_tile hempty hsome hrefetch
        rw [haddr] at hq
        refine ⟨_, hexec, ?_⟩
        rw [hq]
        cases hf
        refine ⟨pc_completes _ _, by simp [completes, tileless_core, withQueue, withTile],
          by simp [completes, tileless_core, withQueue], ?_, by simp [completes, tileless_core, withQueue, withTile], ?_⟩
        · exact sameRegs_trans (sameRegs_tileless tile.pins s) (sameRegs_completes _ _ _)
        · exact sameBytes_trans (sameBytes_tileless tile.pins s) (sameBytes_completes _ _)
    · intro hempty hother
      rw [exec_mrel hmay hf ha (queueFree_of_empty hempty), mxEnter_release_other hempty hother]
  · rintro i a w f s (rfl | rfl) hf hmay ha hfull
    · cases hf
      have hstop : (do let addr ← readS a w; mldAct addr : Act Unit) s = .error (.stall false) s :=
        (bind_ok (readS_ok ha w)).trans (mldAct_full hfull _)
      exact runSeq_stops hmay hstop
    · exact exec_mrel_full hmay hf ha hfull
  · intro x a b wa wb f bytes s u v w z hf hmay ha hb hroom fmt hrecord d hfmt hwindow hdet hspans hphys
    cases hf
    have hrun := mdrainAct_run (x := x) (hpc := regVal s b) hroom hrecord (drainFits_of hfmt) hwindow hdet hspans
    rw [mxPush_focus hphys] at hrun
    refine ⟨_, drainOp s x (regVal s a) (regVal s b) d, runSeq_ok hmay ((bind_ok (readS_ok ha wa)).trans
      ((bind_ok (readS_ok hb wb)).trans hrun)), ?_⟩
    refine ⟨pc_completes _ _, ?_, rfl, rfl, rfl, rfl, rfl, rfl, rfl, rfl, ?_, hasPfx_completes (by decide) _⟩
    · simp [completes, withQueue, d]
    · simp [completes, withQueue]

end Sys2Proof.Machine
end

section
/-!
SUPPORT. How a matrix instruction issues, and how its context waits (R135, R136, R143, R168).
-/

namespace Sys2Proof.Machine

open Sys2Proof.Safety

variable {s t u v : State} {f : InstrInfo} {a b : Reg} {wa wb : Bool} {x : Fin 4} {q r : MxOp} {asa bsa : Word} {e : Stop}

/-! ### What the context that issues waits for -/

theorem putCtx_putCtx (c : Core) (i : Nat) (x y : Ctx) : putCtx (putCtx c i x) i y = putCtx c i y := by
  unfold putCtx
  split
  · simp
  · rfl

theorem onCur_eq (f : Ctx → Ctx) (s : State) : onCur f s = { s with core := putCtx s.core (curIdx s) (f (curCtx s)) } := rfl

theorem onCur_onCur (f g : Ctx → Ctx) (s : State) : onCur f (onCur g s) = onCur (fun x => f (g x)) s := by
  rw [onCur_eq f (onCur g s), curIdx_onCur, curCtx_onCur, onCur_eq g s, putCtx_putCtx]
  rfl

/-- The context with another thing that it waits for. -/
def awaiting (a : Await) (x : Ctx) : Ctx := { x with await := a }

theorem setAwait_cur (a : Await) (s : State) : setAwait (curWaiter s) a s = onCur (awaiting a) s :=
  onCore_focus (f := fun c => putCtx c (curIdx s) (awaiting a (ctxOf c (curIdx s)))) (fun c => by simp) s

theorem awaitOf_cur (s : State) : awaitOf s (curWaiter s) = (curCtx s).await := by
  simp [awaitOf, curWaiter, curCtx]

/-- The state whose core notes the context that issues as the last one. -/
def turned (s : State) : State := { s with core := { s.core with last := curIdx s } }

theorem noteTurn_eq (s : State) :
    noteTurn s = if s.core.run.any (·.det) || (curCtx s).origin == .software then turned s else s := rfl

theorem turned_onCur (g : Ctx → Ctx) (s : State) : turned (onCur g s) = onCur g (turned s) := by
  have hlast : ∀ (c : Core) (k : Nat) (y : Ctx),
      ({ putCtx c k y with last := k } : Core) = putCtx { c with last := k } k y := by
    intro c k y
    unfold putCtx
    split <;> rfl
  rw [turned, curIdx_onCur, onCur_eq g s]
  exact congrArg (fun c => ({ s with core := c } : State)) (hlast s.core (curIdx s) (g (curCtx s)))

theorem noteTurn_onCur {g : Ctx → Ctx} (hg : ∀ x, (g x).origin = x.origin) (s : State) :
    noteTurn (onCur g s) = onCur g (noteTurn s) := by
  rw [noteTurn_eq, noteTurn_eq, curCtx_onCur, onCur_core_run, hg]
  split
  · exact turned_onCur g s
  · rfl

/-- The state in which one instruction more of the core in focus is counted. -/
def counted (s : State) : State := { s with core := { s.core with retired := s.core.retired + 1, qnt := s.core.qnt - 1 } }

/-- The context of an instruction that completes, its prefix consumed if it accepts one. -/
def settled (f : InstrInfo) (x : Ctx) : Ctx :=
  { (if f.pfx = 0 then x else clearPfx x) with await := .nothing, stalled := false, party := false }

theorem retire_eq (f : InstrInfo) (s : State) : retire f s = counted (onCur (settled f) (noteTurn s)) := rfl

theorem retire_onCur {g : Ctx → Ctx} (hg : ∀ x, (g x).origin = x.origin) (f : InstrInfo) (s : State) :
    retire f (onCur g s) = counted (onCur (fun x => settled f (g x)) (noteTurn s)) := by
  rw [retire_eq, noteTurn_onCur hg, onCur_onCur]

/-- An instruction that completes waits for nothing, whatever it waited for. -/
theorem completes_setAwait (f : InstrInfo) (a : Await) (s : State) : completes f (setAwait (curWaiter s) a s) = completes f s := by
  let pc := fun x : Ctx => { x with pc := x.pc + BitVec.ofNat 64 f.len }
  have hpc := retire_onCur (g := pc) (fun _ => rfl) f s
  have hboth := retire_onCur (g := fun x => pc (awaiting a x)) (fun _ => rfl) f s
  rw [setAwait_cur, completes, completes, onCur_onCur]
  refine hboth.trans (Eq.trans ?_ hpc.symm)
  refine congrArg (fun h => counted (onCur h (noteTurn s))) (funext fun x => ?_)
  unfold settled
  split <;> rfl

/-! ### The answer of the control core (R168) -/

/-- A context that waits for nothing, or has the answer of a gang, has asked the control core nothing. -/
theorem emulated_no (h : (curCtx s).await = .nothing ∨ (curCtx s).await = .gangGo ∨ ∃ e, (curCtx s).await = .gangFail e) :
    emulated (curWaiter s) s = .ok false s := by
  unfold emulated
  rw [get_bind, awaitOf_cur]
  rcases h with h | h | ⟨e, h⟩ <;> · rw [h]; rfl

theorem emulated_done (h : (curCtx s).await = .emulationDone) :
    emulated (curWaiter s) s = .ok true (setAwait (curWaiter s) .nothing s) := by
  unfold emulated
  rw [get_bind, awaitOf_cur, h]
  rfl

/-- An emulated instruction asks the control core of its die, and waits (R168). -/
theorem emulate_run (q : MxOp) (s u : State) : emulate (curAgent s) q u =
    .error (.stall false) (askEmulation ⟨s.core.phys, q, false, false⟩ (setAwait (curWaiter s) .emulation u)) := rfl

/-! ### mma and mma.solo -/

theorem memberTrap_ok {phys : Nat} {x : Fin 4} {act : Act Unit} (h : act s = .ok () t) : memberTrap phys x act s = .ok () t := by
  unfold memberTrap
  rw [bind_ok (attempt_ok h)]
  rfl

theorem memberTrap_stall {phys : Nat} {x : Fin 4} {act : Act Unit} {p : Bool} (h : act s = .error (.stall p) t) :
    memberTrap phys x act s = .error (.stall p) t := by
  unfold memberTrap
  rw [bind_ok (attempt_error h)]
  rfl

section
variable {solo : Bool} (hawait : (curCtx s).await = .nothing)
include hawait

theorem mmaBody_ok (h : mmaAccept solo x a b wa wb s = .ok () t) : mmaBody solo x a b wa wb s = .ok () t := by
  unfold mmaBody
  rw [get_bind]
  exact (bind_ok (emulated_no (.inl hawait))).trans (memberTrap_ok h)

theorem mmaBody_stall {p : Bool} (h : mmaAccept solo x a b wa wb s = .error (.stall p) t) :
    mmaBody solo x a b wa wb s = .error (.stall p) t := by
  unfold mmaBody
  rw [get_bind]
  exact (bind_ok (emulated_no (.inl hawait))).trans (memberTrap_stall h)

end

theorem mmaBody_done (solo : Bool) (h : (curCtx s).await = .emulationDone) :
    mmaBody solo x a b wa wb s = .ok () (setAwait (curWaiter s) .nothing s) := by
  unfold mmaBody
  rw [get_bind]
  exact bind_ok (emulated_done h)

/-- The instruction that an mma is while it is accepted. -/
def mmaKind (solo : Bool) : MxKind := if solo then .solo else .mma

section
variable {solo : Bool} (ha : Readable s a) (hb : Readable s b) (hscale : scaleRegs wa wb s = .ok (asa, bsa) s)
  (hroom : mxRoom s s.core.phys = true)
  (hread : readOperands (curAgent s) (curWaiter s) (mmaKind solo) x (hasPfx (curCtx s)) (curCtx s).fmt (regVal s a) (regVal s b) asa bsa s =
    .ok q u)
include ha hb hscale hroom hread

/-- Acceptance of an mma up to its operands (R135, R143). -/
theorem mmaAccept_run : mmaAccept solo x a b wa wb s =
    (if q.emu then emulate (curAgent s) q
      else if solo then (do let q ← acceptOperands (curAgent s) (curWaiter s) q; modify (mxOwn s.core.phys q))
      else nestAccept (curAgent s) (curWaiter s) q : Act Unit) u := by
  unfold mmaAccept
  refine (bind_ok (readS_ok ha wa)).trans ((bind_ok (readS_ok hb wb)).trans ((bind_ok hscale).trans ?_))
  simp only [get_bind]
  refine (else_run (by simp [hroom]) _ _ _).trans ((bind_ok hread).trans ?_)
  rfl

theorem mmaAccept_emulated (hemu : q.emu = true) : mmaAccept solo x a b wa wb s =
    .error (.stall false) (askEmulation ⟨s.core.phys, q, false, false⟩ (setAwait (curWaiter s) .emulation u)) := by
  rw [mmaAccept_run ha hb hscale hroom hread]
  exact (if_run hemu _ _ _).trans (emulate_run q s u)

end

theorem mmaAccept_solo (ha : Readable s a) (hb : Readable s b) (hscale : scaleRegs wa wb s = .ok (asa, bsa) s)
    (hroom : mxRoom s s.core.phys = true)
    (hread : readOperands (curAgent s) (curWaiter s) .solo x (hasPfx (curCtx s)) (curCtx s).fmt (regVal s a) (regVal s b) asa bsa s =
      .ok q u)
    (hemu : q.emu = false) (haccept : acceptOperands (curAgent s) (curWaiter s) q u = .ok r v) :
    mmaAccept true x a b wa wb s = .ok () (mxOwn s.core.phys r v) := by
  rw [mmaAccept_run (solo := true) ha hb hscale hroom hread]
  exact (else_run (by simp [hemu]) _ _ _).trans ((if_run rfl _ _ _).trans (bind_ok haccept))

/-- An mma takes a new place in its row's buffer once its accumulator is free (R286). -/
theorem takePlace_run {n : Nat} {u1 : State} (hmember : waitingMember u s.core.phys q.acc = none)
    (hbusy : accBusy u s.core.phys q.acc = false)
    (hplace : placeMember s.core.phys
      (nestKey (corePart s.core) (((partAt u (corePart s.core)).map (fun p => p.s1root.toNat)).getD 0) q) q
      (((partAt u (corePart s.core)).map (fun p => p.nhold.toNat)).getD 0) u = (some n, u1)) :
    takePlace (curAgent s) q u = .ok () u1 := by
  unfold takePlace
  rw [get_bind]
  refine (if_run (by simp [hmember]) _ _ _).trans ((else_run (by simp [hbusy]) _ _ _).trans ?_)
  simp only [curAgent_part, curAgent_phys, hplace]
  rfl

/-- An mma with a place whose operands pass the checks is held in the queue, its member ready (R286, R287, R289). -/
theorem nestAccept_run {u1 : State} (hplace : takePlace (curAgent s) q u = .ok () u1)
    (haccept : acceptOperands (curAgent s) (curWaiter s) { q with member :=
      ((waitingMember (dispatchDue (clusterOf s.core.phys) u1) s.core.phys q.acc).map NestMember.number).getD 0 }
      (dispatchDue (clusterOf s.core.phys) u1) = .ok r v) :
    nestAccept (curAgent s) (curWaiter s) q u = .ok () (dispatchDue (clusterOf s.core.phys)
      (readyMember s.core.phys r.acc (mxEnter s.core.phys { r with held := true } v))) := by
  unfold nestAccept
  refine (bind_ok hplace).trans ?_
  simp only [modify_bind, get_bind, curAgent_phys]
  exact bind_ok haccept

/-- An operation of the core in focus on its own slice (R289). -/
theorem mxOwn_focus {phys : Nat} (h : s.core.phys = phys) (q : MxOp) : mxOwn phys q s =
    { s with core := { s.core with
      sliceIds := s.core.sliceIds + 1, sliceq := s.core.sliceq ++ [⟨s.core.sliceIds, q.prio⟩]
      mxq := s.core.mxq ++ [{ q with host := some (phys, s.core.sliceIds) }] } } := by
  subst h
  simp only [mxOwn, sliceEnter, coreAt_focus]
  rw [onCore_focus (f := fun c => { c with sliceIds := s.core.sliceIds + 1, sliceq := c.sliceq ++ [⟨s.core.sliceIds, q.prio⟩] })
    (fun _ => rfl) s]
  exact mxPush_focus (s := { s with core := { s.core with
      sliceIds := s.core.sliceIds + 1, sliceq := s.core.sliceq ++ [⟨s.core.sliceIds, q.prio⟩] } }) rfl _

/-! ### mgang (R144, R145) -/

theorem gangAnswer_fail {e : Word} (h : awaitOf s (curWaiter u) = .gangFail e) : gangAnswer (curWaiter u) s =
    .error (.trap 0x0F 0 e) (setAwait (curWaiter u) .nothing (dropGangOp s.core.phys s)) := by
  unfold gangAnswer
  rw [get_bind, h]
  rfl

theorem gangAnswer_go (h : awaitOf s (curWaiter u) = .gangGo) :
    gangAnswer (curWaiter u) s = .ok () (setAwait (curWaiter u) .nothing s) := by
  unfold gangAnswer
  rw [get_bind, h]
  rfl

theorem gangAnswer_wait (h : awaitOf s (curWaiter u) = .gang) : gangAnswer (curWaiter u) s = .error (.stall true) s := by
  unfold gangAnswer
  rw [get_bind, h]
  rfl

theorem mgangBody_go (h : (curCtx s).await = .gangGo) :
    mgangBody x a b wa wb s = .ok () (setAwait (curWaiter s) .nothing s) := by
  have hw : awaitOf s (.ctx s.core.phys (curIdx s)) = .gangGo := (awaitOf_cur s).trans h
  unfold mgangBody
  rw [get_bind]
  refine (bind_ok (emulated_no (.inr (.inl h)))).trans ?_
  simp only [hw, Bool.false_eq_true, if_false]
  exact gangAnswer_go hw

theorem mgangBody_fail {e : Word} (h : (curCtx s).await = .gangFail e) : mgangBody x a b wa wb s =
    .error (.trap 0x0F 0 e) (setAwait (curWaiter s) .nothing (dropGangOp s.core.phys s)) := by
  have hw : awaitOf s (.ctx s.core.phys (curIdx s)) = .gangFail e := (awaitOf_cur s).trans h
  unfold mgangBody
  rw [get_bind]
  refine (bind_ok (emulated_no (.inr (.inr ⟨e, h⟩)))).trans ?_
  simp only [hw, Bool.false_eq_true, if_false]
  exact gangAnswer_fail hw

/-- What mgang does with its operand addresses. -/
def gangIssue (s : State) (x : Fin 4) (aAddr bAddr asAddr bsAddr : Word) : Act Unit := do
  if !isRowGroup s s.core.phys then trapAct 0x0F 0 0x30
  if !mxRoom (← get) s.core.phys then stallAct
  let q ← failedArrival (gangAccept x (curCtx s) aAddr bAddr asAddr bsAddr)
  if q.emu then emulate (curAgent (← get)) q
  else
    modify (gangWait s.core.phys q)
    gangAnswer (curWaiter s)

theorem failedArrival_ok {α : Type} {act : Act α} {y : α} (h : act s = .ok y t) : failedArrival act s = .ok y t := by
  unfold failedArrival
  rw [bind_ok (attempt_ok h)]
  rfl

/-- A member that traps at its mgang arrives as failed (R145). -/
theorem failedArrival_trap {α : Type} {act : Act α} {c : BitVec 8} {v e : Word} (h : act s = .error (.trap c v e) u) :
    failedArrival act s = .error (.trap c v e)
      (if isRowGroup u u.core.phys then gangArrive (arrivalOf u u.core.phys 0 none true) u else u) := by
  unfold failedArrival
  rw [bind_ok (attempt_error h)]
  rfl

theorem mgangBody_issue (hawait : (curCtx s).await = .nothing) (ha : Readable s a) (hb : Readable s b)
    (hscale : scaleRegs wa wb s = .ok (asa, bsa) s) :
    mgangBody x a b wa wb s = gangIssue s x (regVal s a) (regVal s b) asa bsa s := by
  have hw : awaitOf s (.ctx s.core.phys (curIdx s)) = .nothing := (awaitOf_cur s).trans hawait
  have hregs : (do
      let aAddr ← readS a wa
      let bAddr ← readS b wb
      let (asAddr, bsAddr) ← scaleRegs wa wb
      return (aAddr, bAddr, asAddr, bsAddr) : Act (Word × Word × Word × Word)) s = .ok (regVal s a, regVal s b, asa, bsa) s :=
    (bind_ok (readS_ok ha wa)).trans ((bind_ok (readS_ok hb wb)).trans (bind_ok hscale))
  unfold mgangBody
  rw [get_bind]
  refine (bind_ok (emulated_no (.inl hawait))).trans ?_
  simp only [hw, Bool.false_eq_true, if_false]
  refine (bind_ok (failedArrival_ok hregs)).trans ?_
  unfold gangIssue
  rfl

theorem gangIssue_alone (h : isRowGroup s s.core.phys = false) (x : Fin 4) (aAddr bAddr asAddr bsAddr : Word) :
    gangIssue s x aAddr bAddr asAddr bsAddr s = .error (.trap 0x0F 0 0x30) s :=
  if_run (by simp [h]) _ _ _

section
variable {aAddr bAddr asAddr bsAddr : Word} (hgroup : isRowGroup s s.core.phys = true) (hroom : mxRoom s s.core.phys = true)
include hgroup hroom

theorem gangIssue_trap {c : BitVec 8} {v e : Word}
    (h : gangAccept x (curCtx s) aAddr bAddr asAddr bsAddr s = .error (.trap c v e) u) :
    gangIssue s x aAddr bAddr asAddr bsAddr s = .error (.trap c v e)
      (if isRowGroup u u.core.phys then gangArrive (arrivalOf u u.core.phys 0 none true) u else u) := by
  refine (else_run (by simp [hgroup]) _ _ _).trans ?_
  rw [get_bind]
  exact (else_run (by simp [hroom]) _ _ _).trans (bind_error (failedArrival_trap h))

theorem gangIssue_arrives (h : gangAccept x (curCtx s) aAddr bAddr asAddr bsAddr s = .ok q u) (hemu : q.emu = false) :
    gangIssue s x aAddr bAddr asAddr bsAddr s = gangAnswer (curWaiter s) (gangWait s.core.phys q u) := by
  refine (else_run (by simp [hgroup]) _ _ _).trans ?_
  rw [get_bind]
  refine (else_run (by simp [hroom]) _ _ _).trans ((bind_ok (failedArrival_ok h)).trans ?_)
  rw [else_run (by simp [hemu])]
  rfl

end

end Sys2Proof.Machine
end

section
/-!
SUPPORT. The barrier of a row's gangs (R144, R145).
-/

namespace Sys2Proof.Machine

open Sys2Proof.Safety

variable {s t u : State} {p : Nat} {g x z : GangArrival} {l : List GangArrival} {w : Await}

/-! ### The least of a list -/

theorem head?_insertByFront {α : Type} (key : α → Nat) (x : α) : ∀ l : List α,
    (sortBy.insertByFront key x l).head? = some (match l.head? with | none => x | some y => if key x ≤ key y then x else y)
  | [] => rfl
  | y :: ys => by
    rw [sortBy.insertByFront]
    split <;> simp_all

theorem sortBy_cons {α : Type} (key : α → Nat) (x : α) (l : List α) :
    sortBy key (x :: l) = sortBy.insertByFront key x (sortBy key l) := rfl

theorem mem_insertByFront {α : Type} {key : α → Nat} {x y : α} : ∀ {l : List α}, y ∈ sortBy.insertByFront key x l → y = x ∨ y ∈ l
  | [], h => by simpa [sortBy.insertByFront] using h
  | z :: l, h => by
    rw [sortBy.insertByFront] at h
    split at h
    · simpa using h
    · rcases List.mem_cons.mp h with rfl | h
      · simp
      · rcases mem_insertByFront h with h | h <;> simp [h]

theorem mem_sortBy {α : Type} {key : α → Nat} {y : α} : ∀ {l : List α}, y ∈ sortBy key l → y ∈ l
  | [], h => by simp [sortBy] at h
  | x :: l, h => by
    rcases mem_insertByFront (sortBy_cons key x l ▸ h) with rfl | h
    · simp
    · simp [mem_sortBy h]

/-- The first of a sorted list of numbers is the least of them. -/
theorem head?_sortBy_least {k : Nat} : ∀ {l : List Nat}, k ∈ l → (∀ n ∈ l, k ≤ n) → (sortBy id l).head? = some k
  | [], h, _ => by simp at h
  | n :: l, hk, hle => by
    rw [sortBy_cons, head?_insertByFront]
    have hn := hle n (by simp)
    by_cases hl : k ∈ l
    · rw [head?_sortBy_least hl fun m hm => hle m (by simp [hm])]
      simp only [id]
      split <;> simp; omega
    · have hkn : k = n := by simpa [hl] using hk
      subst hkn
      cases hfirst : (sortBy id l).head? with
      | none => rfl
      | some y => simp [hle y (by simp [mem_sortBy (List.mem_of_mem_head? hfirst)])]

theorem sortBy_nil {α : Type} (key : α → Nat) : sortBy key ([] : List α) = [] := rfl

/-! ### Why a gang fails -/

/-- A gang with a failed member fails, with the lowest failed rank. -/
theorem gangReason_failed (hx : x ∈ l) (hfail : x.failed = true) (hleast : ∀ g ∈ l, g.failed = true → x.rank ≤ g.rank) :
    gangReason l = some (BitVec.ofNat 64 (0x10 + x.rank * 65536)) := by
  have hlow : (sortBy id ((l.filter (·.failed)).map GangArrival.rank)).head? = some x.rank := by
    refine head?_sortBy_least (List.mem_map.mpr ⟨x, by simp [hx, hfail], rfl⟩) ?_
    simp only [List.mem_map, List.mem_filter, forall_exists_index, and_imp]
    rintro _ g hg hf rfl
    exact hleast g hg hf
  simp only [gangReason, hlow]

section
variable (hnone : ∀ g ∈ l, g.failed = false)
include hnone

theorem filter_failed_nil : l.filter (·.failed) = [] := by
  rw [List.filter_eq_nil_iff]
  intro g hg
  simp [hnone g hg]

/-- A gang that is not whole, none of it failed, fails for no reason yet. -/
theorem gangReason_partial (hlen : l.length < 16) : gangReason l = none := by
  simp [gangReason, filter_failed_nil hnone, sortBy_nil, hlen]

/-- A whole gang whose members agree does not fail. -/
theorem gangReason_agree (hlen : l.length = 16) (hagree : ∀ g ∈ l, ∀ h ∈ l, g.aAddr = h.aAddr ∧ g.pfmt = h.pfmt) :
    gangReason l = none := by
  have hdiffer : l.filter (fun a => (l.find? (·.rank == 0)).any (fun z => a.aAddr != z.aAddr || a.pfmt != z.pfmt)) = [] := by
    rw [List.filter_eq_nil_iff]
    intro g hg
    cases hz : l.find? (·.rank == 0) with
    | none => simp
    | some z => simp [hagree g hg z (List.mem_of_find?_eq_some hz)]
  simp [gangReason, filter_failed_nil hnone, sortBy_nil, hlen, hdiffer]

/-- A whole gang whose members disagree with rank 0 fails, with the lowest rank that does. -/
theorem gangReason_differ (hlen : l.length = 16) (hz : z ∈ l) (hzero : z.rank = 0) (hone : ∀ g ∈ l, g.rank = 0 → g = z)
    (hx : x ∈ l) (hdiffer : x.aAddr ≠ z.aAddr ∨ x.pfmt ≠ z.pfmt)
    (hleast : ∀ g ∈ l, g.aAddr ≠ z.aAddr ∨ g.pfmt ≠ z.pfmt → x.rank ≤ g.rank) :
    gangReason l = some (BitVec.ofNat 64 (0x20 + x.rank * 65536)) := by
  have hfind : l.find? (·.rank == 0) = some z := by
    cases hfind : l.find? (·.rank == 0) with
    | none => exact absurd hzero (by simpa using List.find?_eq_none.mp hfind z hz)
    | some y => rw [hone y (List.mem_of_find?_eq_some hfind) (by simpa using List.find?_some hfind)]
  have hlow : (sortBy id ((l.filter (fun a => (l.find? (·.rank == 0)).any (fun z => a.aAddr != z.aAddr || a.pfmt != z.pfmt))).map
      GangArrival.rank)).head? = some x.rank := by
    rw [hfind]
    refine head?_sortBy_least (List.mem_map.mpr ⟨x, by simpa [hx] using hdiffer, rfl⟩) ?_
    simp only [List.mem_map, List.mem_filter, forall_exists_index, and_imp]
    rintro _ g hg hd rfl
    exact hleast g hg (by simpa using hd)
  simp [gangReason, filter_failed_nil hnone, sortBy_nil, hlen, hlow]

end

/-! ### What an answer leaves -/

/-- A context that waits for its gang, with its answer. -/
def answered (w : Await) (x : Ctx) : Ctx := if x.await == .gang then { x with await := w, stalled := false } else x

theorem answered_await {w : Await} {x : Ctx} (h : x.await = .gang ∨ x.await = w) : (answered w x).await = w := by
  unfold answered
  rcases h with h | h
  · simp [h]
  · split <;> simp [h]

theorem answerGang_cons (g : GangArrival) (l : List GangArrival) (w : Await) (s : State) :
    answerGang (g :: l) w s = answerGang l w (onCtx g.phys 0 (answered w) s) := rfl

theorem coreAt_onCtx (p i : Nat) (f : Ctx → Ctx) (s : State) :
    coreAt (onCtx p i f s) p = putCtx (coreAt s p) i (f (ctxOf (coreAt s p) i)) :=
  coreAt_onCore (f := fun c => putCtx c i (f (ctxOf c i))) (fun c => by simp) p s

theorem coreAt_onCtx_ne {p k : Nat} (h : k ≠ p) (i : Nat) (f : Ctx → Ctx) (s : State) : coreAt (onCtx k i f s) p = coreAt s p :=
  coreAt_onCore_ne (f := fun c => putCtx c i (f (ctxOf c i))) (fun c => by simp) h s

theorem answerGang_mxq (w : Await) (p : Nat) : ∀ (l : List GangArrival) (s : State),
    (coreAt (answerGang l w s) p).mxq = (coreAt s p).mxq
  | [], _ => rfl
  | g :: l, s => by
    rw [answerGang_cons, answerGang_mxq w p l]
    by_cases h : g.phys = p
    · subst h
      rw [coreAt_onCtx, putCtx_mxq]
    · rw [coreAt_onCtx_ne h]

/-- Once answered, a context has the answer. -/
theorem answerGang_keeps : ∀ {l : List GangArrival} {s : State}, (ctxOf (coreAt s p) 0).await = w →
    (ctxOf (coreAt (answerGang l w s) p) 0).await = w
  | [], _, h => h
  | g :: l, s, h => by
    rw [answerGang_cons]
    refine answerGang_keeps ?_
    by_cases hp : g.phys = p
    · subst hp
      rw [coreAt_onCtx, ctxOf_putCtx]
      exact answered_await (.inr h)
    · rw [coreAt_onCtx_ne hp, h]

/-- A context that waits for its gang gets the answer to one of its members. -/
theorem answerGang_waiting : ∀ {l : List GangArrival} {s : State}, (∃ g ∈ l, g.phys = p) →
    (ctxOf (coreAt s p) 0).await = .gang → (ctxOf (coreAt (answerGang l w s) p) 0).await = w
  | [], _, h, _ => by simp at h
  | g :: l, s, h, hwait => by
    rw [answerGang_cons]
    by_cases hp : g.phys = p
    · refine answerGang_keeps ?_
      subst hp
      rw [coreAt_onCtx, ctxOf_putCtx]
      exact answered_await (.inl hwait)
    · refine answerGang_waiting (by simpa [hp] using h) ?_
      rw [coreAt_onCtx_ne hp, hwait]

/-! ### The shares of a gang that starts -/

theorem coreAt_askEmulation (r : EmuReq) (p : Nat) (s : State) : coreAt (askEmulation r s) p = coreAt s p := by
  unfold askEmulation
  dsimp only
  split <;> rfl

/-- A core whose slice has taken an operation (R289). -/
def enterSlice (prio : Nat) (c : Core) : Core :=
  { c with sliceIds := c.sliceIds + 1, sliceq := c.sliceq ++ [⟨c.sliceIds, prio⟩] }

theorem sliceEnter_eq (host prio : Nat) (s : State) :
    sliceEnter host prio s = ((coreAt s host).sliceIds, onCore host (enterSlice prio) s) :=
  congrArg (Prod.mk _) (onCore_congr rfl)

/-- An operation of a gang that has not started. -/
def heldGang (q : MxOp) : Bool := q.held && q.kind == .gang

/-- A core whose gang operation its slice performs. -/
def startOps (host id : Nat) (c : Core) : Core :=
  { c with mxq := modifyWhere heldGang (fun p => { p with held := false, host := some (host, id) }) c.mxq }

/-- A core without its gang operation. -/
def withoutGangOp (c : Core) : Core := { c with mxq := c.mxq.filter (fun p => !heldGang p) }

/-- The share of a member: none, one of the control core, or one of its slice. -/
theorem startShare_cases (k : Nat) (s : State) :
    startShare k s = s ∨
    (∃ q ∈ (coreAt s k).mxq, q.emu = true ∧
      startShare k s = askEmulation ⟨k, q, true, false⟩ (setAwait (.ctx k 0) .emulation (onCore k withoutGangOp s))) ∨
    ∃ prio, startShare k s = onCore k (startOps k (coreAt s k).sliceIds) (onCore k (enterSlice prio) s) := by
  unfold startShare
  simp only [sliceEnter_eq]
  split
  · exact .inl rfl
  · rename_i q hq
    split
    · exact .inr (.inl ⟨q, List.mem_of_find?_eq_some hq, ‹_›, rfl⟩)
    · exact .inr (.inr ⟨q.prio, rfl⟩)

/-- The share of another member's core leaves a core as it is. -/
theorem startShare_other {k : Nat} (h : k ≠ p) (s : State) : coreAt (startShare k s) p = coreAt s p := by
  rcases startShare_cases k s with hs | ⟨q, -, -, hs⟩ | ⟨prio, hs⟩ <;> rw [hs]
  · rw [coreAt_askEmulation]
    exact (coreAt_onCtx_ne h 0 _ _).trans (coreAt_onCore_ne (f := withoutGangOp) (fun _ => rfl) h s)
  · exact (coreAt_onCore_ne (f := startOps k _) (fun _ => rfl) h _).trans
      (coreAt_onCore_ne (f := enterSlice prio) (fun _ => rfl) h s)

/-- A core with no emulated instruction, whose control context waits for this. -/
def Starts (p : Nat) (w : Await) (s : State) : Prop :=
  (ctxOf (coreAt s p) 0).await = w ∧ ∀ q ∈ (coreAt s p).mxq, q.emu = false

/-- The share of a member leaves what a core with no emulated instruction waits for. -/
theorem startShare_starts {k : Nat} (h : Starts p w s) : Starts p w (startShare k s) := by
  by_cases hk : k = p
  · subst hk
    rcases startShare_cases k s with hs | ⟨q, hq, hemu, -⟩ | ⟨prio, hs⟩
    · rwa [hs]
    · exact absurd hemu (by simp [h.2 q hq])
    · have hcore : coreAt (startShare k s) k = startOps k (coreAt s k).sliceIds (enterSlice prio (coreAt s k)) := by
        rw [hs, coreAt_onCore (f := startOps k _) (fun _ => rfl), coreAt_onCore (f := enterSlice prio) (fun _ => rfl)]
      refine ⟨by rw [hcore]; exact h.1, ?_⟩
      intro q hq
      rw [hcore] at hq
      obtain ⟨q0, hq0, rfl⟩ := List.mem_map.mp hq
      have := h.2 q0 hq0
      split <;> exact this
  · rw [Starts, startShare_other hk]
    exact h

theorem foldl_startShare_starts : ∀ {l : List GangArrival} {s : State}, Starts p w s →
    Starts p w (l.foldl (fun s m => startShare m.phys s) s)
  | [], _, h => h
  | g :: l, s, h => by
    rw [List.foldl_cons]
    exact foldl_startShare_starts (startShare_starts h)

/-! ### An arrival -/

/-- The arrivals at the barrier of a core's row in a round. -/
def rowRound (s : State) (phys round : Nat) : List GangArrival := (rowArrivals s phys).filter (·.round == round)

theorem coreAt_closeRound (phys round p : Nat) (s : State) : coreAt (closeRound phys round s) p = coreAt s p := rfl

/-- A gang that fails gives its members the reason. -/
theorem settleGang_fails {phys round : Nat} {e : Word} (h : gangReason (rowRound s phys round) = some e) (p : Nat) :
    coreAt (settleGang phys round s) p =
      coreAt (answerGang ((rowRound s phys round).filter (fun a => !a.answered)) (.gangFail e) s) p := by
  simp only [rowRound] at h ⊢
  simp only [settleGang, h]
  split <;> rfl

theorem settleGang_waits {phys round : Nat} (h : gangReason (rowRound s phys round) = none) (hlen : (rowRound s phys round).length < 16) :
    settleGang phys round s = s := by
  simp only [rowRound] at h hlen ⊢
  simp only [settleGang, h, hlen, if_true]

/-- A whole gang that does not fail starts. -/
theorem settleGang_starts {phys round : Nat} (h : gangReason (rowRound s phys round) = none)
    (hlen : (rowRound s phys round).length = 16) (p : Nat) : coreAt (settleGang phys round s) p =
      coreAt ((rowRound s phys round).foldl (fun s m => startShare m.phys s) (answerGang (rowRound s phys round) .gangGo s)) p := by
  simp only [rowRound] at h hlen ⊢
  simp only [settleGang, h, hlen, Nat.lt_irrefl, if_false, coreAt_closeRound]

/-- The cluster with one arrival more at its barriers. -/
def arrive (a : GangArrival) (c : Cluster) : Cluster := { c with gangs := c.gangs ++ [a] }

/-- The gangs that a core has arrived at. -/
def arrivedAt (s : State) (phys : Nat) : Nat := ((clusterAt s (clusterOf phys)).gangs.filter (fun g => g.phys == phys)).length

/-- The arrival with its round. -/
def inRound (s : State) (a : GangArrival) : GangArrival := { a with round := arrivedAt s a.phys, answered := a.failed }

theorem gangArrive_eq (a : GangArrival) (s : State) : gangArrive a s =
    settleGang a.phys (arrivedAt s a.phys) (onCluster (clusterOf a.phys) (arrive (inRound s a)) s) := rfl

theorem gangs_arrive (a : GangArrival) (s : State) (k : Nat) :
    (clusterAt (onCluster k (arrive a) s) k).gangs = (clusterAt s k).gangs ++ [a] := by
  rw [clusterAt_onCluster (f := arrive a) (fun _ => rfl)]
  rfl

/-- The gang that an arrival belongs to: those who arrived before it, and the arrival itself. -/
theorem rowRound_arrive (a : GangArrival) (s : State) :
    rowRound (onCluster (clusterOf a.phys) (arrive (inRound s a)) s) a.phys (arrivedAt s a.phys) =
      (clusterAt s (clusterOf a.phys)).gangs.filter (fun g => g.phys / 16 == a.phys / 16 && g.round == arrivedAt s a.phys) ++
        [inRound s a] := by
  rw [rowRound, rowArrivals, gangs_arrive, List.filter_append, List.filter_append, List.filter_filter]
  simp [inRound, rowOf, Bool.and_comm]

section
variable {a : GangArrival} (hl : l = rowRound (onCluster (clusterOf a.phys) (arrive (inRound s a)) s) a.phys (arrivedAt s a.phys))
include hl

/-- A member that is not answered yet learns why its gang fails. -/
theorem gangArrive_fails {e : Word} (hreason : gangReason l = some e) (hg : g ∈ l) (hopen : g.answered = false)
    (hwait : (ctxOf (coreAt s g.phys) 0).await = .gang) : (ctxOf (coreAt (gangArrive a s) g.phys) 0).await = .gangFail e := by
  subst hl
  rw [gangArrive_eq, settleGang_fails hreason]
  exact answerGang_waiting ⟨g, by simp [hg, hopen], rfl⟩ hwait

/-- A member of a whole gang that starts goes on. -/
theorem gangArrive_starts (hreason : gangReason l = none) (hlen : l.length = 16) (hg : g ∈ l)
    (hwait : (ctxOf (coreAt s g.phys) 0).await = .gang) (hemu : ∀ q ∈ (coreAt s g.phys).mxq, q.emu = false) :
    (ctxOf (coreAt (gangArrive a s) g.phys) 0).await = .gangGo := by
  have hanswer : Starts g.phys .gangGo
      (answerGang l .gangGo (onCluster (clusterOf a.phys) (arrive (inRound s a)) s)) := by
    refine ⟨answerGang_waiting ⟨g, hg, rfl⟩ hwait, fun q hq => hemu q ?_⟩
    rwa [answerGang_mxq] at hq
  have hgo := (foldl_startShare_starts (l := l) hanswer).1
  subst hl
  rw [gangArrive_eq, settleGang_starts hreason hlen]
  exact hgo

theorem gangArrive_waits (hreason : gangReason l = none) (hlen : l.length < 16) :
    gangArrive a s = onCluster (clusterOf a.phys) (arrive (inRound s a)) s := by
  subst hl
  rw [gangArrive_eq, settleGang_waits hreason hlen]

end

/-! ### The statements -/

theorem mmaSolo_accepted {f : InstrInfo} {x : Fin 4} {a b : Reg} {wa wb : Bool} {asa bsa : Word} {q r : MxOp} {u v : State}
    (hf : frameOf (.mmaSolo x a b wa wb) = some f) (hmay : MayIssue f s) (ha : Readable s a) (hb : Readable s b)
    (hscale : scaleRegs wa wb s = .ok (asa, bsa) s) (hroom : mxRoom s s.core.phys = true) (hawait : (curCtx s).await = .nothing)
    (hread : readOperands (curAgent s) (curWaiter s) .solo x (hasPfx (curCtx s)) (curCtx s).fmt (regVal s a) (regVal s b) asa bsa s =
      .ok q u)
    (hemu : q.emu = false) (haccept : acceptOperands (curAgent s) (curWaiter s) q u = .ok r v) :
    exec (.mmaSolo x a b wa wb) s = .next (completes f (mxOwn s.core.phys r v)) := by
  cases hf
  exact runSeq_ok hmay (mmaBody_ok hawait (mmaAccept_solo ha hb hscale hroom hread hemu haccept))

/-- A matrix instruction with the answer of the control core completes (R168). -/
theorem emulation_completes {f : InstrInfo} {x : Fin 4} {a b : Reg} {wa wb : Bool} {i : Instr}
    (hi : i = .mmaSolo x a b wa wb ∨ i = .mma x a b wa wb ∨ i = .mgang x a b wa wb) (hf : frameOf i = some f) (hmay : MayIssue f s)
    (hdone : (curCtx s).await = .emulationDone) : exec i s = .next (completes f s) := by
  rw [← completes_setAwait f .nothing s]
  have hgang : mgangBody x a b wa wb s = .ok () (setAwait (curWaiter s) .nothing s) := by
    unfold mgangBody
    rw [get_bind]
    exact bind_ok (emulated_done hdone)
  rcases hi with rfl | rfl | rfl <;> cases hf
  · exact runSeq_ok hmay (mmaBody_done true hdone)
  · exact runSeq_ok hmay (mmaBody_done false hdone)
  · exact runSeq_ok hmay hgang

/-- Settles O40. -/
theorem matrixInstructionsAccepted : Obligations.MatrixInstructionsAccepted := by
  unfold Obligations.MatrixInstructionsAccepted
  refine ⟨⟨?_, fun x a b wa wb f i s hi hf hmay hdone => emulation_completes hi hf hmay hdone⟩, ?_, ?_, ?_⟩
  · intro x a b wa wb f asa bsa q r s u v hf hmay ha hb hscale hroom hawait hread
    refine ⟨fun hemu haccept => ?_, fun hemu => ?_⟩
    · have hexec := mmaSolo_accepted hf hmay ha hb hscale hroom hawait hread hemu haccept
      refine ⟨hexec, fun hphys => ⟨_, hexec, ?_⟩⟩
      cases hf
      rw [mxOwn_focus hphys]
      exact ⟨by simp [completes], by simp [completes], by simp [completes], hasPfx_completes (by decide) _⟩
    · cases hf
      exact runSeq_stops hmay (mmaBody_stall hawait (mmaAccept_emulated (solo := true) ha hb hscale hroom hread hemu))
  · intro x a b wa wb f asa bsa q r n s u u1 v hf hmay ha hb hscale hroom hawait hread hemu hbusy hmember hplace placed number haccept
    cases hf
    refine runSeq_ok hmay (mmaBody_ok hawait ?_)
    rw [mmaAccept_run (solo := false) ha hb hscale hroom hread, else_run (by simp [hemu]), else_run (by simp)]
    exact nestAccept_run (takePlace_run hmember hbusy hplace) haccept
  · intro x a b wa wb f asa bsa s hf hmay
    cases hf
    refine ⟨fun halone hawait ha hb hscale => ?_, fun hgo => ?_, fun e hfail => runSeq_stops hmay (mgangBody_fail hfail),
      fun hgroup hawait ha hb hscale hroom => ⟨fun c v e u herr => ?_, fun q u haccept hemu => ?_⟩⟩
    · exact runSeq_stops hmay ((mgangBody_issue hawait ha hb hscale).trans (gangIssue_alone halone _ _ _ _ _))
    · rw [← completes_setAwait _ .nothing s]
      exact runSeq_ok hmay (mgangBody_go hgo)
    · exact runSeq_stops hmay ((mgangBody_issue hawait ha hb hscale).trans (gangIssue_trap hgroup hroom herr))
    · have hrun := (mgangBody_issue (x := x) hawait ha hb hscale).trans (gangIssue_arrives hgroup hroom haccept hemu)
      exact ⟨fun h => runSeq_stops hmay (hrun.trans (gangAnswer_wait h)), fun h => runSeq_ok hmay (hrun.trans (gangAnswer_go h)),
        fun e h => runSeq_stops hmay (hrun.trans (gangAnswer_fail h))⟩
  · intro a s gangs round l t waits
    have hl : l = rowRound (onCluster (clusterOf a.phys) (arrive (inRound s a)) s) a.phys (arrivedAt s a.phys) :=
      (rowRound_arrive a s).symm
    refine ⟨fun hnone hlen => ?_, fun hnone hlen hagree g hg hwait hemu => ?_, fun x hx hfail hleast g hg hopen hwait => ?_,
      fun z hz x hx hnone hlen hzero hone hdiffer hleast g hg hwait => ?_⟩
    · have hstays := gangArrive_waits hl (gangReason_partial hnone hlen) hlen
      refine ⟨fun g => by rw [show t = _ from hstays]; rfl, ?_⟩
      rw [show t = _ from hstays, gangs_arrive]
      rfl
    · exact gangArrive_starts hl (gangReason_agree hnone hlen hagree) hlen hg hwait hemu
    · exact gangArrive_fails hl (gangReason_failed hx hfail hleast) hg hopen hwait
    · exact gangArrive_fails hl (gangReason_differ (fun g hg => (hnone g hg).1) hlen hz hzero hone hx hdiffer hleast) hg
        (hnone g hg).2 hwait

end Sys2Proof.Machine
end

section
/-!
SUPPORT. A pref whose line finds its set of the cluster cache full (R171, R201): the line that it displaces is written back, and that
write wakes the monitor of the context that issues.
-/

namespace Sys2Proof.Machine

open Sys2Proof.Safety

variable {s t : State} {cl line : Nat}

/-! ### Acts on a memory where no reduction, stash line or watch waits -/

/-- No reduction, stash line, watch, bad line or host's copy is there. -/
structure Calm (s : State) : Prop where
  partials : s.partials = []
  badLines : s.badLines = []
  hostLines : s.hostLines = []
  owned : s.owned = []
  cores : ∀ c ∈ allCores s, c.upd = [] ∧ c.stashLines = []
  watches : ∀ k, (clusterAt s k).watches = []
  overflow : ∀ p ∈ s.parts, p.ovfWatches = [] ∧ p.groups = []

theorem hasPartials_calm (h : Calm s) (line : Nat) : hasPartials line s = false := by
  have hcores : ((allCores s).any fun c => c.upd.any fun p => p.pa / 64 == line) = false := by
    rw [List.any_eq_false]
    intro c hc
    simp [(h.cores c hc).1]
  simp [hasPartials, h.partials, hcores]

theorem reachHome_calm (h : Calm s) (line : Nat) : reachHome line s = s := by
  simp [reachHome, hasPartials_calm h]

theorem partialOwner_calm (h : Calm s) (cl line : Nat) : partialOwner cl line s = none := by
  have hcores : ((allCores s).flatMap fun c => c.upd.filter fun p => p.home == some cl && p.pa / 64 == line) = [] := by
    rw [List.flatMap_eq_nil_iff]
    intro c hc
    simp [(h.cores c hc).1]
  simp [partialOwner, h.partials, hcores]

theorem recallStash_calm (h : Calm s) (cl line : Nat) : recallStash cl line s = s := by
  have hfold : ∀ cs : List Core, (∀ c ∈ cs, c.stashLines = []) → cs.foldl (fun s c =>
      if clusterOf c.phys = cl then (c.stashLines.filter (·.line == line)).foldl (fun s l => stashWriteBack c.phys l true s) s
      else s) s = s := by
    intro cs
    induction cs with
    | nil => exact fun _ => rfl
    | cons c cs ih =>
      intro hcs
      rw [List.foldl_cons, hcs c (by simp)]
      simpa using ih fun d hd => hcs d (by simp [hd])
  exact hfold _ fun c hc => (h.cores c hc).2

theorem evalWatchesOf_calm (h : Calm s) (point : Option Nat) (p : Place) (n cl : Nat) : evalWatchesOf point p n cl s = s := by
  simp [evalWatchesOf, h.watches]

theorem evalOverflow_calm (h : Calm s) (p : Place) (n : Nat) : evalOverflow p n s = s := by
  have hnone : (s.parts.flatMap fun q => q.ovfWatches.filter fun w => !w.entry.det && w.place.meets (watchWidth w) p n &&
      watchHolds w.kind w.arg (watchValue s none w)) = [] := by
    rw [List.flatMap_eq_nil_iff]
    intro q hq
    simp [(h.overflow q hq).1]
  simp only [evalOverflow, hnone, List.isEmpty_nil, if_true]

/-! ### What keeps such a memory -/

theorem calm_mapCores {f : Core → Core} (hf : ∀ c, (f c).upd = c.upd ∧ (f c).stashLines = c.stashLines) (h : Calm s) :
    Calm (mapCores f s) := by
  obtain ⟨h1, h2, h3, h4, h5, h6, h7⟩ := h
  refine ⟨h1, h2, h3, h4, ?_, h6, h7⟩
  intro c hc
  obtain ⟨d, hd, rfl⟩ := List.mem_map.mp (show c ∈ (allCores s).map f from hc)
  rw [(hf d).1, (hf d).2]
  exact h5 d hd

theorem calm_onCluster {f : Cluster → Cluster} (hid : ∀ c, (f c).id = c.id) (hf : ∀ c, (f c).watches = c.watches) (h : Calm s)
    (cl : Nat) : Calm (onCluster cl f s) := by
  obtain ⟨h1, h2, h3, h4, h5, h6, h7⟩ := h
  refine ⟨h1, h2, h3, h4, h5, ?_, h7⟩
  intro k
  by_cases hk : cl = k
  · subst hk
    rw [clusterAt_onCluster hid, hf, h6]
  · rw [clusterAt_onCluster_ne hid hk, h6]

/-- A line that enters a die cache changes the die caches alone. -/
theorem enterDie_eq (line : Nat) (s : State) : ∃ d k, enterDie line s = { s with dieLines := d, freeCtr := k } := by
  unfold enterDie
  dsimp only
  repeat' split
  all_goals exact ⟨_, _, rfl⟩

/-- A die cache with room chooses no line to give up. -/
theorem enterDie_room (hroom : s.dieLines = []) (line : Nat) : ∃ d, enterDie line s = { s with dieLines := d } := by
  unfold enterDie
  simp only [hroom, List.length_nil, dieSliceLines, Nat.zero_lt_succ, if_true]
  split
  · exact ⟨[], by rw [← hroom]⟩
  · exact ⟨_, rfl⟩

/-! ### A write at a home wakes the monitors of its line -/

theorem wakeMonitors_calm (h : Calm s) (p : Place) (n : Nat) : Calm (wakeMonitors none p n s) :=
  calm_mapCores (f := wakeCore (fun q => q.line.meets 64 p n)) (fun _ => ⟨rfl, rfl⟩) h

/-- Where no watch waits, a write at a home wakes monitors, and does nothing else. -/
theorem written_calm (h : Calm s) (p : Place) (n : Nat) : written none p n s = wakeMonitors none p n s := by
  have hw := wakeMonitors_calm h p n
  have hfold : ∀ ks : List Nat, ks.foldl (fun s cl => evalWatchesOf none p n cl s) (wakeMonitors none p n s) = wakeMonitors none p n s := by
    intro ks
    induction ks with
    | nil => rfl
    | cons k ks ih => rw [List.foldl_cons, evalWatchesOf_calm hw, ih]
  simp only [written]
  rw [hfold, evalOverflow_calm hw]

theorem ctxOf_wakeCore (hit : Place → Bool) (c : Core) (i : Nat) : ctxOf (wakeCore hit c) i = wakeCtx hit (ctxOf c i) := by
  unfold ctxOf wakeCore
  split <;> simp

theorem curCtx_wakeMonitors (p : Place) (n : Nat) (s : State) :
    curCtx (wakeMonitors none p n s) = wakeCtx (fun q => q.line.meets 64 p n) (curCtx s) := ctxOf_wakeCore _ _ _

/-- A cell written at the device memory's home wakes the monitor on its line. -/
theorem homePut_wakes {pa : Nat} {v : Byte} (h : Calm s) (hhost : isHost pa = false)
    (hmon : (curCtx s).monitor = some ⟨.mem pa, false⟩) (hpa : pa % 64 = 0) :
    Calm (homePut [(pa, v)] s) ∧ (curCtx (homePut [(pa, v)] s)).monitor = some ⟨.mem pa, true⟩ ∧
      (homePut [(pa, v)] s).clusters = s.clusters := by
  obtain ⟨d, k, hdie⟩ := enterDie_eq (pa / 64) { s with
    mem := memPut s.mem [(pa, v)], badLines := s.badLines, hostLines := s.hostLines.filter (· != pa / 64) }
  have hput : homePut [(pa, v)] s = written none (.mem pa) 1 { s with
      mem := memPut s.mem [(pa, v)], hostLines := s.hostLines.filter (· != pa / 64), dieLines := d, freeCtr := k } := by
    unfold homePut
    simp only [List.length_singleton, show ¬ (1 ≥ 64) by decide, if_false, hdie, hhost, Bool.false_eq_true]
    rfl
  have hcalm : Calm { s with
      mem := memPut s.mem [(pa, v)], hostLines := s.hostLines.filter (· != pa / 64), dieLines := d, freeCtr := k } := by
    obtain ⟨h1, h2, h3, h4, h5, h6, h7⟩ := h
    exact ⟨h1, h2, by simp [h3], h4, h5, h6, h7⟩
  rw [hput, written_calm hcalm]
  refine ⟨wakeMonitors_calm hcalm _ _, ?_, rfl⟩
  rw [curCtx_wakeMonitors]
  have hmon' : (curCtx { s with
      mem := memPut s.mem [(pa, v)], hostLines := s.hostLines.filter (· != pa / 64), dieLines := d, freeCtr := k }).monitor =
      some ⟨.mem pa, false⟩ := hmon
  have hmeets : (Place.mem pa).line.meets 64 (.mem pa) 1 = true := by
    simp only [Place.line, Place.meets, Bool.and_eq_true, decide_eq_true_eq]
    omega
  simp only [wakeCtx, hmon', hmeets, if_true]

/-- The one byte of a line that was stored, as a cell. -/
theorem dirtyCells_one {l : CLine} (h : l.mask = 1) : l.dirtyCells = [(l.line * 64, l.bytes.get 0)] := by
  have hrest : ∀ i : Fin 63, (1#64).getLsbD (i.succ : Fin 64).val = false := by
    intro i
    simp
  have hnone : ((List.finRange 63).map Fin.succ).filterMap
      (fun (i : Fin 64) => if l.mask.getLsbD i then some (l.line * 64 + i.val, l.bytes.get i) else none) = [] := by
    rw [List.filterMap_eq_nil_iff]
    intro i hi
    obtain ⟨j, -, rfl⟩ := List.mem_map.mp hi
    rw [h, show (1 : BitVec 64) = 1#64 from rfl, hrest j]
    rfl
  rw [CLine.dirtyCells, List.finRange_succ, List.filterMap_cons, hnone]
  simp [h]

/-- The cluster with its copy of a line clean. -/
def cleanLine (line : Nat) (c : Cluster) : Cluster :=
  { c with lines := modifyWhere (·.line == line) (fun l => { l with mask := 0 }) c.lines }

/-- The cluster without its copy of a line. -/
def withoutLine (line : Nat) (c : Cluster) : Cluster :=
  { c with lines := c.lines.filter (·.line != line), refetch := c.refetch.filter (· != line) }

/-- A core of a cluster from which a line has gone. -/
def lineGone (cl line : Nat) (c : Core) : Core :=
  if clusterOf c.phys = cl then { c with tile := c.tile.map (Tile.spoil line), l1d := c.l1d.filter (· != line) } else c

theorem forgetLine_eq (cl line : Nat) (s : State) :
    forgetLine cl line s = mapCores (lineGone cl line) (onCluster cl (withoutLine line) s) := by
  have hcore : ∀ c : Core,
      (fun c : Core => if clusterOf c.phys = cl then { c with l1d := c.l1d.filter (· != line) } else c)
        (if clusterOf c.phys = cl then { c with tile := c.tile.map (Tile.spoil line) } else c) = lineGone cl line c := by
    intro c
    by_cases hc : clusterOf c.phys = cl <;> simp [lineGone, hc]
  unfold forgetLine spoilTiles mapCores
  simp only [List.map_map, Function.comp_def, hcore]
  rfl

theorem lineGone_keeps (cl line : Nat) (c : Core) : (lineGone cl line c).upd = c.upd ∧ (lineGone cl line c).stashLines = c.stashLines := by
  unfold lineGone
  split <;> exact ⟨rfl, rfl⟩

theorem curCtx_lineGone (cl line : Nat) (s : State) : curCtx (mapCores (lineGone cl line) s) = curCtx s := by
  have hcore : (lineGone cl line s.core).ctl = s.core.ctl ∧ (lineGone cl line s.core).helpers = s.core.helpers ∧
      (lineGone cl line s.core).cur = s.core.cur := by
    unfold lineGone
    split <;> exact ⟨rfl, rfl, rfl⟩
  obtain ⟨hctl, hhelpers, hcur⟩ := hcore
  exact curCtx_core hctl hhelpers hcur rfl

theorem forgetLine_calm (h : Calm s) (cl line : Nat) : Calm (forgetLine cl line s) := by
  rw [forgetLine_eq]
  exact calm_mapCores (lineGone_keeps cl line) (calm_onCluster (f := withoutLine line) (fun _ => rfl) (fun _ => rfl) h cl)

/-- A dirty line that leaves a cluster cache is written back, and wakes the monitor on it. -/
theorem evictLine_wakes {l : CLine} (h : Calm s) (hline : lineAt s cl line = some l) (hmask : l.mask = 1)
    (hhost : isHost (line * 64) = false) (hmon : (curCtx s).monitor = some ⟨.mem (line * 64), false⟩) :
    Calm (evictLine cl line s) ∧ (curCtx (evictLine cl line s)).monitor = some ⟨.mem (line * 64), true⟩ := by
  have hclean : Calm (onCluster cl (cleanLine line) s) := calm_onCluster (f := cleanLine line) (fun _ => rfl) (fun _ => rfl) h cl
  have hcells : l.dirtyCells = [(line * 64, l.bytes.get 0)] := by
    rw [dirtyCells_one hmask, findBy_key hline]
  have hback : writeBack cl line s = homePut [(line * 64, l.bytes.get 0)] (onCluster cl (cleanLine line) s) := by
    unfold writeBack
    simp only [hline, hmask, show ¬ ((1 : BitVec 64) = 0) by decide, if_false, onCluster_badLines, h.badLines, List.contains_nil, Bool.false_and, Bool.false_eq_true, hcells]
    exact congrArg (homePut [(line * 64, l.bytes.get 0)]) (reachHome_calm hclean (line * 64 / 64))
  obtain ⟨hput, hwoke, -⟩ := homePut_wakes (v := l.bytes.get 0) hclean hhost hmon (by omega)
  have hevict : evictLine cl line s = forgetLine cl line (writeBack cl line s) := by
    simp only [evictLine, recallStash_calm h, partialOwner_calm h, Option.isSome_none, Bool.and_false, Bool.false_eq_true, if_false]
  rw [hevict, hback]
  exact ⟨forgetLine_calm hput cl line, by rw [forgetLine_eq, curCtx_lineGone]; exact hwoke⟩

/-- A line that a cache with a full set of dirty lines fetches takes the place of one of them, and the monitor on that one wakes. -/
theorem fillLine_wakes {part out : Nat} {ways : List Nat} {l : CLine} (h : Calm s) (habsent : lineAt s cl line = none)
    (hset : fullSet 16 line ((clusterAt s cl).lines.map CLine.line) = ways) (hpins : (clusterAt s cl).pins = [])
    (hways : ways ≠ []) (hout : freePick ways s = out) (hline : lineAt s cl out = some l) (hmask : l.mask = 1)
    (hhost : isHost (out * 64) = false) (hmon : (curCtx s).monitor = some ⟨.mem (out * 64), false⟩) :
    (curCtx (fillLine cl part line s)).monitor = some ⟨.mem (out * 64), true⟩ := by
  have hmay : ways.filter (evictable s cl) = ways := by
    have htracked : ∀ k, trackedIn s cl k = false := by
      intro k
      rw [trackedIn, List.any_eq_false]
      intro p hp
      simp [(h.overflow p hp).2]
    rw [List.filter_eq_self]
    intro k _
    simp [evictable, hpins, htracked, h.owned, h.hostLines]
  have hroom : makeRoom cl line s = evictLine cl out { s with freeCtr := s.freeCtr + 1 } := by
    simp only [makeRoom, hset, hmay, List.isEmpty_eq_false_iff.mpr hways, Bool.false_eq_true, if_false, hout]
  obtain ⟨hcalm, hwoke⟩ := evictLine_wakes (s := { s with freeCtr := s.freeCtr + 1 })
    ⟨h.partials, h.badLines, h.hostLines, h.owned, h.cores, h.watches, h.overflow⟩ hline hmask hhost hmon
  unfold fillLine
  simp only [habsent]
  rw [hroom, reachHome_calm hcalm]
  exact hwoke

/-! ### The counterexample -/

/-- The set of a cluster cache that a line belongs to: its slice of 24, and its set of 1,024 (R171). -/
def setOf (line : Nat) : Fin 24 × Fin 1024 :=
  (Fin.ofNat 24 (Config.cacheSlice line), Fin.ofNat 1024 (Config.cacheSet line))

/-- Whatever the hashes are, 17 lines of the first 393,217 share a set. -/
theorem exists_crowded_set : ∃ (line : Nat) (ways : List Nat), ways.length = 16 ∧ (line :: ways).Pairwise (· < ·) ∧
    line < 393217 ∧ ∀ m ∈ ways, m < 393217 ∧ setOf m = setOf line := by
  obtain ⟨y, hy⟩ := Fintype.exists_lt_card_fiber_of_mul_lt_card (n := 16) (fun k : Fin 393217 => setOf k) (by simp)
  have hlen := Finset.length_sort (s := ({k : Fin 393217 | setOf k = y} : Finset _)) (· ≤ ·)
  have hsorted := (Finset.sortedLT_sort ({k : Fin 393217 | setOf k = y} : Finset _)).pairwise
  have hmem := fun k => Finset.mem_sort (s := ({k : Fin 393217 | setOf k = y} : Finset _)) (a := k) (· ≤ ·)
  generalize Finset.sort ({k : Fin 393217 | setOf k = y} : Finset _) (· ≤ ·) = l at hlen hsorted hmem
  cases l with
  | nil => simp at hlen; omega
  | cons k l =>
    have hset : ∀ m ∈ k :: l, setOf m = y := fun m hm => by simpa using (hmem m).mp hm
    have hle : 16 ≤ l.length := by rw [← hlen, List.length_cons] at hy; omega
    refine ⟨k, (l.take 16).map Fin.val, by simp [hle], ?_, k.isLt, ?_⟩
    · have hsub : (k :: l.take 16).Sublist (k :: l) := (List.take_sublist 16 l).cons_cons k
      exact (List.pairwise_map (f := Fin.val)).mpr (hsorted.sublist hsub)
    · intro m hm
      obtain ⟨j, hj, rfl⟩ := List.mem_map.mp hm
      exact ⟨j.isLt, by rw [hset j (by simp [List.mem_of_mem_take hj]), hset k (by simp)]⟩

/-- The translation of the page of a line, which maps it to itself, write-back. -/
def lineTlb (line : Nat) : TlbEntry :=
  { part := 0, gen := 0, vpage := line * 64 / 4096, ppage := line * 64 / 4096, s1bits := 0, ipa := line * 64, s2bits := 0
    r := true, w := true, x := false, t := true, d := true, ty := 2, attr1 := 0, attr2 := 0, nostash := false, detp := false
    sh1 := 12, sh2 := 12, at1 := 0, at2 := 0, used := [] }

/-- A context whose register 1 holds the address of a line and whose monitor is on another line. -/
def watchingCtx (line watched : Nat) : Ctx :=
  { Ctx.reset false with
    live := true
    regs := (Vector.replicate 32 0).set 1 (BitVec.ofNat 64 (line * 64))
    monitor := some ⟨.mem (watched * 64), false⟩ }

/-- A line of the cluster cache of which one byte was stored. -/
def dirtyLine (line : Nat) : CLine := ⟨line, 0, Vector.replicate 64 0, 1⟩

/-- A task whose register 1 holds the address of a line of its device memory and whose monitor is on another line, in a cluster whose
cache holds a set of lines, one byte of each stored. -/
def crowdedState (line : Nat) (ways : List Nat) (watched : Nat) : State :=
  { State.reset with
    core := { Core.reset 1 with
      part := some 0
      ctl := watchingCtx line watched
      tlb := [lineTlb line] }
    clusters := [{ Cluster.reset 0 with lines := ways.map dirtyLine }]
    parts := [newPartition 0 [1] [bankOf (line * 64)] 0 0 false []]
    banks := [⟨bankOf (line * 64), .active, some 0, 0, 0, 0⟩] }

section
variable {line watched : Nat} {ways : List Nat}

theorem crowded_calm : Calm (crowdedState line ways watched) := by
  refine ⟨rfl, rfl, rfl, rfl, ?_, ?_, ?_⟩
  · simp [crowdedState, allCores, State.reset, Core.reset]
  · intro k
    by_cases hk : k = 0
    · subst hk; rfl
    · have hnone : clusterAt (crowdedState line ways watched) k = Cluster.reset k := by
        simp [clusterAt, crowdedState, findBy, Cluster.reset, Ne.symm hk]
      rw [hnone]; rfl
  · simp [crowdedState, newPartition]

theorem crowded_idx : curIdx (crowdedState line ways watched) = 0 := rfl

theorem crowded_ctx : curCtx (crowdedState line ways watched) = watchingCtx line watched := rfl

theorem crowded_mayIssue : MayIssue cacheInfo (crowdedState line ways watched) := by
  have hstatus : (watchingCtx line watched).status = 0 := rfl
  have htxn : (crowdedState line ways watched).core.txn = none := rfl
  simp [MayIssue, firstCheck, crowded_ctx, isHelper, crowded_idx, hasPfx, hstatus, htxn, cacheInfo]

theorem crowded_readable : Readable (crowdedState line ways watched) 1 := by
  have hpres : (watchingCtx line watched).pres = BitVec.allOnes 32 := rfl
  refine ⟨rfl, rfl, ?_⟩
  simp [regPresent, regCtx, isView, isHelper, crowded_idx, crowded_ctx, hpres]

theorem crowded_register : regVal (crowdedState line ways watched) 1 = BitVec.ofNat 64 (line * 64) := rfl

theorem crowded_monitor : (curCtx (crowdedState line ways watched)).monitor = some ⟨.mem (watched * 64), false⟩ := rfl

theorem findBy_dirtyLine (line : Nat) : ∀ ways : List Nat,
    findBy CLine.line line (ways.map dirtyLine) = if line ∈ ways then some (dirtyLine line) else none
  | [] => rfl
  | m :: ways => by
    rw [List.map_cons, findBy, findBy_dirtyLine line ways]
    by_cases h : m = line
    · simp [dirtyLine, h]
    · simp [dirtyLine, h, Ne.symm h]

theorem lineAt_crowded (k : Nat) : lineAt (crowdedState line ways watched) 0 k = if k ∈ ways then some (dirtyLine k) else none :=
  findBy_dirtyLine k ways

/-- The prefetch of the line fetches it into the cluster cache. -/
theorem prefetch_crowded (hline : line < 393217) (hnot : line ∉ ways) :
    prefetch (curAgent (crowdedState line ways watched)) 1 (BitVec.ofNat 64 (line * 64)) (crowdedState line ways watched) =
      fillLine 0 0 line (enterDie line (crowdedState line ways watched)) := by
  have hva : (BitVec.ofNat 64 (line * 64)).toNat = line * 64 := by
    rw [BitVec.toNat_ofNat]; omega
  have hwin : (inWindows (BitVec.ofNat 64 (line * 64)) || !canonical (BitVec.ofNat 64 (line * 64))) = false := by
    simp [inWindows, canonical, bitsOf, hva]; omega
  have hserves : (lineTlb line).serves 0 0 (line * 64 / 4096) needR 0 = true := by
    simp [TlbEntry.serves, lineTlb, needR]
  have hdram : isDram (line * 64) = true := by simp [isDram]; omega
  have hreach : mayReach (crowdedState line ways watched) 0 (line * 64) = true := by
    simp [mayReach, paKind, hdram, bankAt, crowdedState, findBy]
  have hpage : line * 64 / 4096 * 4096 + line * 64 % 4096 = line * 64 := by omega
  have hbank : (bankAt (crowdedState line ways watched) (bankOf (line * 64))).state = .active := by
    simp [bankAt, crowdedState, findBy]
  have hpart : partAt (crowdedState line ways watched) 0 = some (newPartition 0 [1] [bankOf (line * 64)] 0 0 false []) := rfl
  have htlb : ((coreAt (crowdedState line ways watched) 1).tlb ++ (clusterAt (crowdedState line ways watched) 0).tlb) = [lineTlb line] :=
    rfl
  have hagent : curAgent (crowdedState line ways watched) = ⟨1, 0, 0, false, 0, false, false, false⟩ := by
    have hstatus : (watchingCtx line watched).status = 0 := rfl
    rw [curAgent, agentAt, show ctxOf (coreAt (crowdedState line ways watched) _) _ = watchingCtx line watched from rfl, hstatus]
    rfl
  have hcl : clusterOf 1 = 0 := rfl
  have hgen : (newPartition 0 [1] [bankOf (line * 64)] 0 0 false []).gen = 0 := rfl
  have hnear : (lineAt (crowdedState line ways watched) 0 line).isSome = false := by
    simp [lineAt_crowded, hnot]
  have hppage : (lineTlb line).ppage = line * 64 / 4096 := rfl
  have hty : (lineTlb line).ty = 2 := rfl
  rw [hagent]
  unfold prefetch
  simp only [hwin, Bool.false_eq_true, if_false, hpart, hva, hcl, htlb, hgen, List.find?_cons, hserves, hppage, hty, hpage, hdram, hreach,
    beq_self_eq_true, Bool.and_self, if_true]
  unfold prefetchLine
  simp only [hcl, hnear, Nat.mul_div_cancel line (show 0 < 64 by decide), hbank, beq_self_eq_true, Bool.or_true, Bool.not_true, Bool.false_eq_true, if_false, hasPartials_calm crowded_calm, ownedFor, crowded_calm.owned, List.any_nil, Bool.or_false, crowded_calm.badLines, List.contains_nil]
  rfl

end

/-- The line of a full set that a state of which no free value was taken yet gives up. -/
def firstPick (ways : List Nat) : Nat := ways[(Config.freeWord 0).toNat % ways.length]?.getD 0

theorem firstPick_mem {ways : List Nat} (h : ways ≠ []) : firstPick ways ∈ ways := by
  have hlt : (Config.freeWord 0).toNat % ways.length < ways.length := Nat.mod_lt _ (List.length_pos_iff.mpr h)
  rw [firstPick, List.getElem?_eq_getElem hlt]
  exact List.getElem_mem hlt

/-- A full set of a cluster cache whose lines are all those that it holds. -/
theorem fullSet_of {line : Nat} {ways : List Nat} (hlen : ways.length = 16) (hset : ∀ m ∈ ways, setOf m = setOf line) :
    fullSet 16 line ways = ways := by
  have hmates : ways.filter (fun l => Config.cacheSlice l % 24 == Config.cacheSlice line % 24 &&
      Config.cacheSet l % 1024 == Config.cacheSet line % 1024) = ways := by
    rw [List.filter_eq_self]
    intro m hm
    obtain ⟨hslice, hindex⟩ := Prod.mk.inj (hset m hm)
    simpa using And.intro (congrArg Fin.val hslice) (congrArg Fin.val hindex)
  simp [fullSet, hmates, hlen]

/-- The prefetch wakes the monitor. -/
theorem prefetch_wakes {line : Nat} {ways : List Nat} (hlen : ways.length = 16) (hline : line < 393217) (hnot : line ∉ ways)
    (hset : ∀ m ∈ ways, m < 393217 ∧ setOf m = setOf line) :
    (curCtx (prefetch (curAgent (crowdedState line ways (firstPick ways))) 1 (BitVec.ofNat 64 (line * 64))
      (crowdedState line ways (firstPick ways)))).monitor = some ⟨.mem (firstPick ways * 64), true⟩ := by
  have hne : ways ≠ [] := by rintro rfl; simp at hlen
  have hout := firstPick_mem hne
  obtain ⟨hsmall, -⟩ := hset _ hout
  obtain ⟨d, hdie⟩ := enterDie_room (s := crowdedState line ways (firstPick ways)) rfl line
  obtain ⟨h1, h2, h3, h4, h5, h6, h7⟩ := crowded_calm (line := line) (ways := ways) (watched := firstPick ways)
  have hlines : (clusterAt (crowdedState line ways (firstPick ways)) 0).lines.map CLine.line = ways := by
    have hmap : (ways.map dirtyLine).map CLine.line = ways := by simp [Function.comp_def, dirtyLine]
    exact hmap
  have habsent : lineAt (crowdedState line ways (firstPick ways)) 0 line = none := (lineAt_crowded line).trans (if_neg hnot)
  have hheld : lineAt (crowdedState line ways (firstPick ways)) 0 (firstPick ways) = some (dirtyLine (firstPick ways)) :=
    (lineAt_crowded (firstPick ways)).trans (if_pos hout)
  have hmon := crowded_monitor (line := line) (ways := ways) (watched := firstPick ways)
  rw [prefetch_crowded hline hnot, hdie]
  refine fillLine_wakes (l := dirtyLine (firstPick ways)) ⟨h1, h2, h3, h4, h5, h6, h7⟩ habsent
    ((congrArg (fullSet 16 line) hlines).trans (fullSet_of hlen fun m hm => (hset m hm).2)) rfl hne rfl hheld rfl ?_ hmon
  simp [isHost]
  omega

/-- Refutes O19: pref of a line whose set of the cluster cache is full of dirty lines has one of them written back, and that write
wakes the monitor that the context has on it. -/
theorem not_cacheOperations : ¬ Obligations.CacheOperations := by
  unfold Obligations.CacheOperations
  rintro ⟨-, hpref⟩
  obtain ⟨line, ways, hlen, hsorted, hline, hset⟩ := exists_crowded_set
  have hnot : line ∉ ways := fun hmem => Nat.lt_irrefl _ ((List.pairwise_cons.mp hsorted).1 line hmem)
  obtain ⟨⟨t, hexec, -, -, hspecials⟩, -⟩ :=
    hpref 1 1 false cacheInfo (crowdedState line ways (firstPick ways)) rfl crowded_mayIssue crowded_readable
  have hrun : exec (.pref 1 1 false) (crowdedState line ways (firstPick ways)) = .next (completes cacheInfo
      (prefetch (curAgent (crowdedState line ways (firstPick ways))) 1 (BitVec.ofNat 64 (line * 64))
        (crowdedState line ways (firstPick ways)))) :=
    runSeq_ok crowded_mayIssue (bind_ok (readS_ok crowded_readable false))
  obtain rfl := Host.Outcome.next.inj (hexec.symm.trans hrun)
  obtain ⟨-, -, -, -, -, -, -, hmonitor, -⟩ := hspecials
  rw [crowded_monitor, curCtx_completes] at hmonitor
  have hwoke := (prefetch_wakes hlen hline hnot hset).symm.trans hmonitor
  simp at hwoke

end Sys2Proof.Machine
end

section
/-!
SUPPORT. Mailbox commands and their audit records (R446, R449, R451).
-/

namespace Sys2Proof.Machine

open Sys2Proof.Safety

variable {s t u : State} {tag event part : Nat} {c : State → Option State}

/-- The state with an answer of the mailbox. -/
def answeredWith (r : Response) (s : State) : State := { s with io := { s.io with response := r } }

theorem command_unbooted (h : s.io.booted = false) (c : State → Option State) : command c s = answeredWith .notBooted s := by
  simp [command, mailbox, answeredWith, h]

theorem command_refused (h : s.io.booted = true) (hc : c s = none) : command c s = answeredWith .error s := by
  simp [command, mailbox, answeredWith, h, hc]

theorem command_accepted (h : s.io.booted = true) (hc : c s = some u) : command c s = answeredWith (.data []) u := by
  simp [command, mailbox, answeredWith, h, hc]

/-! ### Audit records -/

/-- The newest record of a log that has been appended to. -/
theorem auditPut_last (r : AuditRec) (s : State) : (auditPut r s).io.audit.getLast? = some r := by
  have hlast : (s.io.audit ++ [r]).drop (s.io.audit.length + 1 - 65536) =
      s.io.audit.drop (s.io.audit.length + 1 - 65536) ++ [r] :=
    List.drop_append_of_le_length (by omega)
  rw [auditPut, hlast, List.getLast?_append]
  rfl

theorem measure_same (item : List Byte) (s : State) : (measure 5 item s).io.mr[5] = sha384 (s.io.mr[5] ++ sha384 item) :=
  Vector.getElem_set_self _

theorem measure_audit (i : Fin 8) (item : List Byte) (s : State) : (measure i item s).io.audit = s.io.audit := rfl

/-- A record appended to the log changes the log and its next sequence number alone. -/
theorem auditPut_frame (r : AuditRec) (s : State) : ∃ l,
    auditPut r s = { s with io := { s.io with audit := l, auditSeq := s.io.auditSeq + 1 } } := ⟨_, rfl⟩

theorem auditPut_mr (r : AuditRec) (s : State) : (auditPut r s).io.mr = s.io.mr := by
  obtain ⟨l, h⟩ := auditPut_frame r s
  rw [h]

theorem freeData_mr (s : State) : (freeData s).2.io.mr = s.io.mr := rfl

/-- The record of a layout command. -/
def layoutRecord (event tag : Nat) (s : State) : AuditRec := nextAudit event tag (freeData s).1 (freeData s).2

theorem auditLayout_eq (event tag : Nat) (s : State) : auditLayout event tag s =
    measure 5 (layoutRecord event tag s).bytes (auditPut (layoutRecord event tag s) (freeData s).2) := rfl

/-- A layout command is audited and measured (R449). -/
theorem auditLayout_extended (event tag : Nat) (s : State) : Extended s (auditLayout event tag s) event tag := by
  refine ⟨layoutRecord event tag s, ?_, rfl, rfl, rfl, ?_⟩
  · rw [auditLayout_eq, measure_audit, auditPut_last]
  · rw [auditLayout_eq, measure_same, auditPut_mr, freeData_mr]

/-- A layout command's record changes the log, MR5 and the count of free values alone. -/
theorem auditLayout_frame (event tag : Nat) (s : State) : ∃ l k m, auditLayout event tag s =
    { s with freeCtr := k, io := { s.io with audit := l, auditSeq := s.io.auditSeq + 1, mr := m } } := by
  obtain ⟨l, h⟩ := auditPut_frame (layoutRecord event tag s) (freeData s).2
  rw [auditLayout_eq, h]
  exact ⟨l, _, _, rfl⟩

/-- A record of the controller changes the log and the count of free values alone. -/
theorem auditEvent_frame (event tag : Nat) (s : State) : ∃ l k, auditEvent event tag s =
    { s with freeCtr := k, io := { s.io with audit := l, auditSeq := s.io.auditSeq + 1 } } := by
  obtain ⟨l, h⟩ := auditPut_frame (layoutRecord event tag s) (freeData s).2
  exact ⟨l, _, h⟩

end Sys2Proof.Machine
end

section
/-!
SUPPORT. What the work of the memory and of the scheduler leaves as it is: the audit log, MR5, the layout version, the banks, the
partitions' tags and what the cores serve.
-/

namespace Sys2Proof.Machine

open Sys2Proof.Safety

variable {s t u : State} {tag cl : Nat}

/-! ### The relation -/

/-- A core that has nothing of a partition. -/
def Free (tag : Nat) (c : Core) : Prop := c.part ≠ some tag ∧ tag ∉ c.serves

/-- A step that keeps the evidence, the layout and what the cores serve. -/
structure Keeps (s t : State) : Prop where
  audit : t.io.audit = s.io.audit
  auditSeq : t.io.auditSeq = s.io.auditSeq
  mr : t.io.mr = s.io.mr
  layout : t.layout = s.layout
  banks : t.banks = s.banks
  tags : t.parts.map Partition.tag = s.parts.map Partition.tag
  cores : ∀ tag, (∀ c ∈ allCores s, Free tag c) → ∀ c ∈ allCores t, Free tag c

/-- Such a step that leaves the memory too. -/
structure KeepsMem (s t : State) : Prop extends Keeps s t where
  mem : t.mem = s.mem

theorem Keeps.refl (s : State) : Keeps s s := ⟨rfl, rfl, rfl, rfl, rfl, rfl, fun _ h => h⟩

theorem Keeps.trans (h : Keeps s t) (h' : Keeps t u) : Keeps s u :=
  ⟨h'.audit.trans h.audit, h'.auditSeq.trans h.auditSeq, h'.mr.trans h.mr, h'.layout.trans h.layout, h'.banks.trans h.banks,
    h'.tags.trans h.tags, fun tag hs => h'.cores tag (h.cores tag hs)⟩

theorem KeepsMem.refl (s : State) : KeepsMem s s := ⟨Keeps.refl s, rfl⟩

theorem KeepsMem.trans (h : KeepsMem s t) (h' : KeepsMem t u) : KeepsMem s u :=
  ⟨h.toKeeps.trans h'.toKeeps, h'.mem.trans h.mem⟩

theorem Keeps.foldl {α : Type} {f : State → α → State} (hf : ∀ s x, Keeps s (f s x)) : ∀ (l : List α) (s : State),
    Keeps s (l.foldl f s)
  | [], s => Keeps.refl s
  | x :: l, s => (hf s x).trans (Keeps.foldl hf l (f s x))

theorem KeepsMem.foldl {α : Type} {f : State → α → State} (hf : ∀ s x, KeepsMem s (f s x)) : ∀ (l : List α) (s : State),
    KeepsMem s (l.foldl f s)
  | [], s => KeepsMem.refl s
  | x :: l, s => (hf s x).trans (KeepsMem.foldl hf l (f s x))

/-! ### Changes of one part of the state -/

theorem keepsMem_onRecorder (r : Nat) (f : BlackBox → BlackBox) (s : State) : KeepsMem s (onRecorder r f s) := by
  unfold onRecorder
  split <;> exact ⟨⟨rfl, rfl, rfl, rfl, rfl, rfl, fun _ h => h⟩, rfl⟩

theorem keepsMem_onCluster (cl : Nat) (f : Cluster → Cluster) (s : State) : KeepsMem s (onCluster cl f s) :=
  ⟨⟨rfl, rfl, rfl, rfl, rfl, rfl, fun _ h => h⟩, rfl⟩

theorem keepsMem_onFunc (vf : Nat) (f : Function → Function) (s : State) : KeepsMem s (onFunc vf f s) :=
  ⟨⟨rfl, rfl, rfl, rfl, rfl, rfl, fun _ h => h⟩, rfl⟩

theorem keepsMem_parts {f : Partition → Partition} (hf : ∀ p, (f p).tag = p.tag) (s : State) :
    KeepsMem s { s with parts := s.parts.map f } := by
  refine ⟨⟨rfl, rfl, rfl, rfl, rfl, ?_, fun _ h => h⟩, rfl⟩
  simp [Function.comp_def, hf]

theorem keepsMem_onPart {f : Partition → Partition} (hf : ∀ p, (f p).tag = p.tag) (tag : Nat) (s : State) :
    KeepsMem s (onPart tag f s) :=
  keepsMem_parts (f := fun p => if p.tag == tag then f p else p) (fun p => by split <;> simp [hf]) s

theorem keepsMem_onLaunch (tag slot : Nat) (f : Launch → Launch) (s : State) : KeepsMem s (onLaunch tag slot f s) :=
  keepsMem_onPart (f := fun p => { p with launches := modifyWhere (·.slot == slot) f p.launches }) (fun _ => rfl) tag s

theorem keepsMem_onGroup (tag gid : Nat) (f : Group → Group) (s : State) : KeepsMem s (onGroup tag gid f s) :=
  keepsMem_onPart (f := fun p => { p with groups := modifyWhere (·.gid == gid) f p.groups }) (fun _ => rfl) tag s

/-- A change of every core that keeps what each serves. -/
theorem keepsMem_mapCores {f : Core → Core} (hpart : ∀ c, (f c).part = c.part) (hserves : ∀ c, (f c).serves = c.serves) (s : State) :
    KeepsMem s (mapCores f s) := by
  refine ⟨⟨rfl, rfl, rfl, rfl, rfl, rfl, ?_⟩, rfl⟩
  intro tag h c hc
  obtain ⟨d, hd, rfl⟩ := List.mem_map.mp (show c ∈ (allCores s).map f from hc)
  rw [Free, hpart, hserves]
  exact h d hd

/-! ### The scheduler's queues -/

theorem keepsMem_readyPush {cl : Nat} {e : ReadyEntry} (h : readyPush cl e s = some t) : KeepsMem s t := by
  unfold readyPush at h
  split at h
  · cases h
    exact keepsMem_onCluster _ _ _
  · split at h
    · cases h
    · split at h
      · cases h
        exact keepsMem_onPart (f := fun p => { p with ovfReady := p.ovfReady ++ _ }) (fun _ => rfl) _ _
      · cases h

theorem keepsMem_readyContinuation (e : ReadyEntry) (s : State) : KeepsMem s (readyContinuation e s) := by
  unfold readyContinuation
  split
  · exact keepsMem_readyPush ‹_›
  · exact ((keepsMem_onRecorder _ _ _).trans (keepsMem_onLaunch _ _ _ _)).trans
      ((keepsMem_onLaunch _ _ _ _).trans (keepsMem_onGroup _ _ _ _))

theorem keepsMem_refillReady (tag : Nat) : ∀ (fuel : Nat) (s : State), KeepsMem s (refillReady tag fuel s)
  | 0, s => KeepsMem.refl s
  | fuel + 1, s => by
    unfold refillReady
    split
    · exact KeepsMem.refl s
    · split
      · exact KeepsMem.refl s
      · rename_i e rest _
        exact ((keepsMem_onPart (f := fun p => { p with ovfReady := rest }) (fun _ => rfl) tag s).trans
          (keepsMem_onCluster _ _ _)).trans (keepsMem_refillReady tag fuel _)

theorem keepsMem_refillWatches (cl : Nat) (s : State) : KeepsMem s (refillWatches cl s) := by
  unfold refillWatches
  refine KeepsMem.foldl (fun u w => ?_) _ s
  dsimp only
  split
  · exact KeepsMem.refl u
  · have hdrop := keepsMem_onPart (f := fun p => { p with ovfWatches := p.ovfWatches.erase w }) (fun _ => rfl) w.entry.part u
    split
    · exact hdrop.trans (keepsMem_readyContinuation _ _)
    · exact hdrop.trans (keepsMem_onCluster _ _ _)

theorem keepsMem_refillQueues (s : State) : KeepsMem s (refillQueues s) :=
  (KeepsMem.foldl (fun u (p : Partition) => keepsMem_refillReady p.tag p.ovfReady.length u) _ s).trans
    (KeepsMem.foldl (fun u k => keepsMem_refillWatches k u) _ _)

/-! ### Writes at a home -/

theorem keepsMem_evalWatchesOf (point : Option Nat) (p : Place) (n cl : Nat) (s : State) : KeepsMem s (evalWatchesOf point p n cl s) := by
  unfold evalWatchesOf
  dsimp only
  split
  · exact ((keepsMem_onCluster _ _ _).trans (KeepsMem.foldl (fun u (w : Watch) => keepsMem_readyContinuation w.entry u) _ _)).trans
      (keepsMem_refillWatches _ _)
  · exact KeepsMem.refl s

/-- The overflow watches that a write satisfies. -/
def overflowDue (p : Place) (n : Nat) (s : State) (w : Watch) : Bool :=
  !w.entry.det && w.place.meets (watchWidth w) p n && watchHolds w.kind w.arg (watchValue s none w)

theorem keepsMem_evalOverflow (p : Place) (n : Nat) (s : State) : KeepsMem s (evalOverflow p n s) := by
  unfold evalOverflow
  dsimp only
  split
  · exact KeepsMem.refl s
  · refine KeepsMem.trans ?_ (KeepsMem.foldl (fun u (w : Watch) => keepsMem_readyContinuation w.entry u) _ _)
    exact keepsMem_parts (f := fun q => { q with ovfWatches := q.ovfWatches.filter (fun w => !overflowDue p n s w) }) (fun _ => rfl) s

theorem keepsMem_wakeMonitors (point : Option Nat) (p : Place) (n : Nat) (s : State) : KeepsMem s (wakeMonitors point p n s) :=
  keepsMem_mapCores (fun c => by split <;> rfl) (fun c => by split <;> rfl) s

theorem keepsMem_written (point : Option Nat) (p : Place) (n : Nat) (s : State) : KeepsMem s (written point p n s) := by
  unfold written
  cases point with
  | some cl => exact (keepsMem_wakeMonitors _ _ _ s).trans (keepsMem_evalWatchesOf _ _ _ _ _)
  | none =>
    exact ((keepsMem_wakeMonitors _ _ _ s).trans (KeepsMem.foldl (fun u k => keepsMem_evalWatchesOf _ _ _ k u) _ _)).trans
      (keepsMem_evalOverflow _ _ _)

theorem keepsMem_writtenCells (point : Option Nat) (cells : List (Nat × Byte)) (s : State) : KeepsMem s (writtenCells point cells s) :=
  KeepsMem.foldl (fun u (r : Nat × Nat) => keepsMem_written point (.mem r.1) r.2 u) _ s

theorem keepsMem_enterDie (line : Nat) (s : State) : KeepsMem s (enterDie line s) := by
  unfold enterDie
  dsimp only
  repeat' split
  all_goals exact ⟨⟨rfl, rfl, rfl, rfl, rfl, rfl, fun _ h => h⟩, rfl⟩

theorem keeps_homePut (cells : List (Nat × Byte)) (s : State) : Keeps s (homePut cells s) := by
  unfold homePut
  split
  · exact Keeps.refl s
  · rename_i pa v rest
    have hput : Keeps s { s with
        mem := memPut s.mem ((pa, v) :: rest)
        badLines := if ((pa, v) :: rest).length ≥ 64 then s.badLines.filter (· != pa / 64) else s.badLines
        hostLines := s.hostLines.filter (· != pa / 64) } := ⟨rfl, rfl, rfl, rfl, rfl, rfl, fun _ h => h⟩
    have hdie := hput.trans (keepsMem_enterDie (pa / 64) _).toKeeps
    dsimp only
    split
    · exact hdie
    · exact hdie.trans (keepsMem_writtenCells none _ _).toKeeps

theorem keepsMem_errorRecorded (part phys line : Nat) (s : State) : KeepsMem s (errorRecorded part phys line s) := by
  unfold errorRecorded record
  exact keepsMem_onRecorder _ _ s

theorem keepsMem_takePartials (home : Option Nat) (line : Nat) (s : State) : KeepsMem s (takePartials home line s).2 := by
  unfold takePartials
  dsimp only
  split
  · exact KeepsMem.refl s
  · have hdrop : KeepsMem s { s with partials := s.partials.filter (fun p => !(p.home == home && p.pa / 64 == line)) } :=
      ⟨⟨rfl, rfl, rfl, rfl, rfl, rfl, fun _ h => h⟩, rfl⟩
    exact hdrop.trans (keepsMem_mapCores
      (f := fun c => { c with upd := c.upd.filter (fun p => !(p.home == home && p.pa / 64 == line)) }) (fun _ => rfl) (fun _ => rfl) _)

theorem keeps_combineHome (line : Nat) (s : State) : Keeps s (combineAt none line s) := by
  have htake := (keepsMem_takePartials none line s).toKeeps
  unfold combineAt
  generalize takePartials none line s = r at htake
  obtain ⟨ps, u⟩ := r
  have htags : Keeps s { u with detTags := u.detTags.filter (· != line) } :=
    htake.trans ⟨rfl, rfl, rfl, rfl, rfl, rfl, fun _ h => h⟩
  cases ps with
  | nil => exact Keeps.refl s
  | cons p ps =>
    refine Keeps.trans ?_ (Keeps.foldl (fun v q => keeps_homePut _ v) _ _)
    dsimp only
    split
    · exact htags.trans (keepsMem_errorRecorded _ _ _ _).toKeeps
    · exact htags

theorem keeps_reachHome (line : Nat) (s : State) : Keeps s (reachHome line s) := by
  unfold reachHome
  split
  · exact keeps_combineHome line s
  · exact Keeps.refl s

theorem keeps_homeWrite (cells : List (Nat × Byte)) (s : State) : Keeps s (homeWrite cells s) := by
  unfold homeWrite
  cases cells with
  | nil => exact Keeps.refl s
  | cons x xs => exact (keeps_reachHome _ s).trans (keeps_homePut _ _)

theorem keeps_writeBack (cl line : Nat) (s : State) : Keeps s (writeBack cl line s) := by
  unfold writeBack
  split
  · exact Keeps.refl s
  · split
    · exact Keeps.refl s
    · refine Keeps.trans ?_ (keeps_homeWrite _ _)
      have hclean (f : Cluster → Cluster) : Keeps s (onCluster cl f s) := (keepsMem_onCluster cl f s).toKeeps
      split
      · exact (hclean _).trans (keepsMem_errorRecorded _ _ _ _).toKeeps
      · exact hclean _

/-! ### A partition's traces go -/

theorem keeps_scrubPart (tag cl : Nat) (s : State) : Keeps s (scrubPart tag cl s) := by
  unfold scrubPart
  exact (Keeps.foldl (fun u (l : CLine) => keeps_writeBack cl l.line u) _ s).trans (keepsMem_onCluster _ _ _).toKeeps

theorem keepsMem_scrubTraffic (tag : Nat) (s : State) : KeepsMem s (scrubTraffic tag s) :=
  ⟨⟨rfl, rfl, rfl, rfl, rfl, rfl, fun _ h => h⟩, rfl⟩

theorem keepsMem_replyAll (vf : Nat) (hit : Nat → Bool) (kinds : Nat) (ok : Bool) (s : State) :
    KeepsMem s (replyAll vf hit kinds ok s) := by
  unfold replyAll
  exact keepsMem_mapCores (fun c => by split <;> rfl) (fun c => by split <;> rfl) s

theorem keepsMem_abandonRequests (vf : Nat) (s : State) : KeepsMem s (abandonRequests vf s) :=
  (keepsMem_onFunc vf _ s).trans (keepsMem_replyAll vf _ 7 false _)

/-- The state with a partition function's generation in the descriptors that name the function. -/
def withGen (vf g : Nat) (s : State) : State := { s with parts := s.parts.map (fun p => if p.vf = vf then { p with gen := g } else p) }

theorem keepsMem_withGen (vf g : Nat) (s : State) : KeepsMem s (withGen vf g s) :=
  keepsMem_parts (f := fun p => if p.vf = vf then { p with gen := g } else p) (fun p => by split <;> rfl) s

theorem keepsMem_newGeneration (vf : Nat) (s : State) : KeepsMem s (newGeneration vf s) :=
  ((keepsMem_abandonRequests vf s).trans (keepsMem_onFunc vf _ _)).trans (keepsMem_withGen vf _ _)

end Sys2Proof.Machine
end

section
/-!
SUPPORT for O54. The mailbox commands, SETS2 and SETQUOTA (R338, R363, R368, R432).
-/

namespace Sys2Proof.Machine

open Sys2Proof.Safety

variable {s t u : State} {tag cl q : Nat} {root attr : Word} {pasid : Nat} {p : Partition}

/-! ### The answers of the layout mailbox -/

/-- An instruction that is a command of the layout mailbox. -/
def IsCommand (i : Instr) (f : State → Option State) : Prop :=
  (∃ tag cores banks vf det shares, i = .create tag (cores, shares) banks vf det ∧ f = create tag cores banks vf det shares) ∨
    (∃ tag grow shrink limit, i = .resize tag grow shrink limit ∧ f = resize tag grow shrink limit) ∨
    (∃ tag lcore phys, i = .replace tag lcore phys ∧ f = replace tag lcore phys) ∨
    (∃ tag, i = .release tag ∧ f = release tag) ∨
    (∃ tag root attr pasid, i = .sets2 tag root attr pasid ∧ f = setS2 tag root attr pasid) ∨
    (∃ tag cl q, i = .setquota tag cl q ∧ f = setQuota tag cl q)

theorem exec_command {i : Instr} {f : State → Option State} (h : IsCommand i f) (s : State) : exec i s = .next (command f s) := by
  rcases h with ⟨_, _, _, _, _, _, rfl, rfl⟩ | ⟨_, _, _, _, rfl, rfl⟩ | ⟨_, _, _, rfl, rfl⟩ | ⟨_, rfl, rfl⟩ | ⟨_, _, _, _, rfl, rfl⟩ |
    ⟨_, _, _, rfl, rfl⟩ <;> rfl

/-! ### SETS2 -/

theorem attrOk_iff (attr : Word) : attrOk attr = true ↔ attr &&& 0xF8F8F8F8F8F8F8F8 = 0 := by
  simp [attrOk]

theorem setS2_accepted (hp : partAt s tag = some p) (hlive : p.state ≠ 3) (hroot : bitsOf root 11 0 = 0)
    (hattr : attr &&& 0xF8F8F8F8F8F8F8F8 = 0) (hpasid : pasid < 2 ^ 20) :
    setS2 tag root attr pasid s = some (onPart tag (Partition.withS2 root attr pasid) (auditEvent 0x0006 tag s)) := by
  have hok := (attrOk_iff attr).mpr hattr
  simp only [setS2, hp]
  rw [if_neg]
  simp only [Bool.or_eq_true, decide_eq_true_eq, Bool.not_eq_true', not_or, Bool.not_eq_false, hok]
  exact ⟨⟨⟨hlive, not_not.mpr hroot⟩, trivial⟩, by omega⟩

theorem setS2_refused (hp : partAt s tag = some p)
    (h : ¬ (p.state ≠ 3 ∧ bitsOf root 11 0 = 0 ∧ attr &&& 0xF8F8F8F8F8F8F8F8 = 0 ∧ pasid < 2 ^ 20)) : setS2 tag root attr pasid s = none := by
  rw [← attrOk_iff] at h
  simp only [setS2, hp]
  rw [if_pos]
  by_contra hc
  simp only [Bool.or_eq_true, decide_eq_true_eq, Bool.not_eq_true', not_or, Bool.not_eq_false] at hc
  obtain ⟨⟨⟨hlive, hroot⟩, hattr⟩, hpasid⟩ := hc
  exact h ⟨hlive, not_not.mp hroot, hattr, by omega⟩

theorem partAt_auditEvent (event tag k : Nat) (s : State) : partAt (auditEvent event tag s) k = partAt s k := by
  obtain ⟨l, n, h⟩ := auditEvent_frame event tag s
  rw [h]
  rfl

theorem partAt_setS2 (hp : partAt s tag = some p) :
    partAt (onPart tag (Partition.withS2 root attr pasid) (auditEvent 0x0006 tag s)) tag = some (p.withS2 root attr pasid) := by
  rw [partAt_onPart (f := Partition.withS2 root attr pasid) (fun _ => rfl), partAt_auditEvent, hp]
  rfl

theorem sets2_settles (hboot : s.io.booted = true) (hp : partAt s tag = some p) (hlive : p.state ≠ 3) (hroot : bitsOf root 11 0 = 0)
    (hattr : attr &&& 0xF8F8F8F8F8F8F8F8 = 0) (hpasid : pasid < 2 ^ 20) :
    ∃ t, exec (.sets2 tag root attr pasid) s = .next t ∧ t.io.response = .data [] ∧ t.io.auditSeq = s.io.auditSeq + 1 ∧
      partAt t tag = some (p.withS2 root attr pasid) ∧ t.mem = s.mem := by
  have hset := setS2_accepted hp hlive hroot hattr hpasid
  have hpart := partAt_setS2 (root := root) (attr := attr) (pasid := pasid) hp
  obtain ⟨l, k, haudit⟩ := auditEvent_frame 0x0006 tag s
  generalize auditEvent 0x0006 tag s = v at hset hpart haudit
  subst haudit
  exact ⟨_, congrArg Host.Outcome.next (command_accepted hboot hset), rfl, rfl, hpart, rfl⟩

/-! ### SETQUOTA -/

theorem find?_putBy {α : Type} (key : α → Nat) (x : α) : ∀ l : List α, (putBy key x l).find? (fun y => key y == key x) = some x
  | [] => by simp [putBy]
  | y :: l => by
    unfold putBy
    split
    · simp
    · rename_i hne
      split
      · simp
      · rw [List.find?_cons_of_neg (by simpa using fun h => hne h.symm)]
        exact find?_putBy key x l

/-- The core that holds a partition's changes to the end of a quantum. -/
def holder (p : Partition) : Nat := ((ranked p).head?.map (·.2)).getD 1

/-- A core with one change more held to the end of a quantum. -/
def holding (x : Nat × HeldReq) (c : Core) : Core := { c with held := c.held ++ [x] }

/-- A cluster with a quota set. -/
def quoted (x : Nat × Nat) (c : Cluster) : Cluster := { c with quotas := putBy (·.1) x c.quotas }

theorem setQuota_checked (hp : partAt s tag = some p) (h : setQuota tag (some cl) q s = some u) :
    p.state ≠ 3 ∧ q % 1024 = 0 ∧ 1024 ≤ q ∧ q ≤ 65536 ∧ cl ∈ ringOf p ∧ withQuota p q [cl] (auditEvent 0x0007 tag s) = some u := by
  simp only [setQuota, hp] at h
  split at h
  · cases h
  · rename_i hc
    simp only [Bool.or_eq_true, decide_eq_true_eq, Bool.not_eq_true', not_or, Bool.not_eq_false, List.all_cons, List.all_nil,
      Bool.and_true, List.contains_iff_mem] at hc
    obtain ⟨⟨⟨⟨hlive, hmul⟩, hlow⟩, hhigh⟩, hcl⟩ := hc
    exact ⟨hlive, not_not.mp hmul, by omega, by omega, hcl, h⟩

theorem withQuota_one (h : withQuota p q [cl] s = some u) : u =
    if quantumRules p then onCore (holder p) (holding (p.tag, .quota cl q)) s else onCluster cl (quoted (p.tag, q)) s := by
  unfold withQuota at h
  obtain ⟨_, hu⟩ := Option.ite_none_right_eq_some.mp h
  exact (Option.some.inj hu).symm

theorem quotaOf_quoted (cl tag q : Nat) (s : State) : quotaOf (onCluster cl (quoted (tag, q)) s) cl tag = q := by
  have hat := clusterAt_onCluster (f := quoted (tag, q)) (fun _ => rfl) cl s
  have hfind := find?_putBy (·.1) (tag, q) (clusterAt s cl).quotas
  simp only [quotaOf, hat, quoted, hfind, Option.map_some, Option.getD_some]

/-- What SETQUOTA leaves outside the cluster or core that it changes. -/
theorem withQuota_frame (h : withQuota p q [cl] s = some u) : u.io = s.io ∧ u.parts = s.parts := by
  rw [withQuota_one h]
  split
  · exact ⟨onCore_io _ _ s, onCore_parts _ _ s⟩
  · exact ⟨rfl, rfl⟩

/-- A quota under the quantum rules is held by the core that holds the partition's changes. -/
theorem withQuota_held (h : withQuota p q [cl] s = some u) (hquantum : quantumRules p = true) :
    (coreAt u (holder p)).held = (coreAt s (holder p)).held ++ [(p.tag, .quota cl q)] ∧ u.clusters = s.clusters := by
  rw [withQuota_one h, if_pos hquantum, coreAt_onCore (f := holding (p.tag, .quota cl q)) (fun _ => rfl)]
  exact ⟨rfl, onCore_clusters _ _ s⟩

theorem setquota_settles (hboot : s.io.booted = true) (hp : partAt s tag = some p) (h : setQuota tag (some cl) q s = some u) :
    ∃ t, exec (.setquota tag (some cl) q) s = .next t ∧ t.io.response = .data [] ∧ t.io.auditSeq = s.io.auditSeq + 1 ∧
      t.parts = s.parts ∧ (quantumRules p = false → quotaOf t cl tag = q) ∧
      (quantumRules p = true → (coreAt t (holder p)).held = (coreAt s (holder p)).held ++ [(tag, .quota cl q)] ∧
        t.clusters = s.clusters) := by
  obtain ⟨_, _, _, _, _, hset⟩ := setQuota_checked hp h
  have htag := partAt_tag hp
  obtain ⟨l, k, haudit⟩ := auditEvent_frame 0x0007 tag s
  generalize auditEvent 0x0007 tag s = v at hset haudit
  subst haudit
  obtain ⟨hio, hparts⟩ := withQuota_frame hset
  refine ⟨answeredWith (.data []) u, congrArg Host.Outcome.next (command_accepted hboot h), rfl, ?_, hparts, fun hq => ?_, fun hq => ?_⟩
  · exact congrArg IODie.auditSeq hio
  · change quotaOf u cl tag = q
    rw [withQuota_one hset, hq, htag]
    exact quotaOf_quoted cl tag q _
  · have hheld := withQuota_held hset hq
    rw [htag] at hheld
    exact hheld

end Sys2Proof.Machine
end

section
/-!
SUPPORT for O54. CREATE (R22, R432).
-/

namespace Sys2Proof.Machine

open Sys2Proof.Safety

variable {s t u : State} {tag x b : Nat} {cores banks : List Nat} {vf : Nat} {det : Bool} {shares : List (Nat × Nat)}

/-! ### Evidence -/

theorem extended_of {event : Nat} (h : Extended s t event tag) (haudit : u.io.audit = t.io.audit) (hmr : u.io.mr = t.io.mr) :
    Extended s u event tag := by
  obtain ⟨r, hlast, hevent, hpart, hseq, hmeasured⟩ := h
  exact ⟨r, haudit ▸ hlast, hevent, hpart, hseq, hmr ▸ hmeasured⟩

/-- What a layout command's record leaves as it is, and its sequence number. -/
theorem auditLayout_keeps (event tag : Nat) (s : State) : (auditLayout event tag s).io.auditSeq = s.io.auditSeq + 1 ∧
    (auditLayout event tag s).layout = s.layout ∧ (auditLayout event tag s).parts = s.parts ∧ (auditLayout event tag s).mem = s.mem ∧
    (auditLayout event tag s).core = s.core ∧ (auditLayout event tag s).others = s.others := by
  obtain ⟨l, k, m, h⟩ := auditLayout_frame event tag s
  generalize auditLayout event tag s = v at h
  subst h
  exact ⟨rfl, rfl, rfl, rfl, rfl, rfl⟩

/-! ### What a run over a list does -/

section
variable {α : Type} {f : State → α → State}

/-- A value that every step of a run keeps, the run keeps. -/
theorem foldl_same {β : Type} {g : State → β} (hf : ∀ s x, g (f s x) = g s) : ∀ (l : List α) (s : State), g (l.foldl f s) = g s
  | [], _ => rfl
  | x :: l, s => (foldl_same hf l (f s x)).trans (hf s x)

/-- A property that every step of a run keeps, the run keeps. -/
theorem foldl_keeps {P : State → Prop} (hkeep : ∀ s x, P s → P (f s x)) : ∀ (l : List α) (s : State), P s → P (l.foldl f s)
  | [], _, h => h
  | x :: l, s, h => foldl_keeps hkeep l (f s x) (hkeep s x h)

/-- What every step keeps and the step of one element brings about holds after a run with the element. -/
theorem foldl_reaches {P : State → Prop} {x : α} (hset : ∀ s, P (f s x)) (hkeep : ∀ s y, P s → P (f s y)) (l : List α) (s : State)
    (hx : x ∈ l) : P (l.foldl f s) := by
  induction l generalizing s with
  | nil => cases hx
  | cons y l ih =>
    rcases List.mem_cons.mp hx with rfl | hl
    · exact foldl_keeps hkeep l _ (hset s)
    · exact ih (f s y) hl

end

/-! ### Banks -/

theorem bankAt_id (s : State) (b : Nat) : (bankAt s b).id = b := by
  unfold bankAt
  cases h : findBy Bank.id b s.banks with
  | none => rfl
  | some k => exact findBy_key h

theorem bankAt_onBank {f : Bank → Bank} (hf : ∀ k, (f k).id = k.id) (b : Nat) (s : State) : bankAt (onBank b f s) b = f (bankAt s b) := by
  have h := findBy_putBy Bank.id (f (bankAt s b)) s.banks
  rw [hf, bankAt_id] at h
  exact congrArg (fun o : Option Bank => o.getD ⟨b, .off, none, 0, 0, 0⟩) h

theorem bankAt_onBank_ne {f : Bank → Bank} (hf : ∀ k, (f k).id = k.id) {b c : Nat} (h : b ≠ c) (s : State) :
    bankAt (onBank b f s) c = bankAt s c :=
  congrArg (fun o : Option Bank => o.getD ⟨c, .off, none, 0, 0, 0⟩) (findBy_putBy_ne Bank.id (f (bankAt s b)) (by rw [hf, bankAt_id]; exact h) s.banks)

/-- A bank's owner after a change that sets the owner of one bank. -/
theorem owner_onBank {f : Bank → Bank} {o : Option Nat} (hid : ∀ k, (f k).id = k.id) (ho : ∀ k, (f k).owner = o) (b c : Nat)
    (h : (bankAt s c).owner = o) : (bankAt (onBank b f s) c).owner = o := by
  by_cases hbc : b = c
  · rw [hbc, bankAt_onBank hid, ho]
  · rw [bankAt_onBank_ne hid hbc, h]

/-! ### The steps of CREATE -/

/-- Cores begin to serve a partition. -/
def joined (tag : Nat) (cores : List Nat) (s : State) : State := cores.foldl (fun s x => onCore x (joinCore s.time tag) s) s

/-- A bank with an owner. -/
def ownedBy (tag : Nat) (k : Bank) : Bank := { k with owner := some tag }

/-- Banks get an owner. -/
def givenTo (tag : Nat) (banks : List Nat) (s : State) : State := banks.foldl (fun s b => onBank b (ownedBy tag) s) s

/-- A partition stands in its descriptor, its launch window zero. -/
def placed (p : Partition) (s : State) : State :=
  { s with parts := putBy Partition.tag p s.parts, mem := memClear s.mem (slotPa p.tag 0) 4096, layout := s.layout + 1 }

theorem create_eq (h : create tag cores banks vf det shares s = some u) : sharesOk cores shares = true ∧
    ∃ gen, u = placed (newPartition tag cores banks vf gen det shares)
      (givenTo tag banks (joined tag cores (newGeneration vf (auditLayout 0x0002 tag s)))) := by
  unfold create at h
  split at h
  · cases h
  · rename_i hc
    simp only [Bool.or_eq_true, not_or, Bool.not_eq_true', Bool.not_eq_false] at hc
    obtain ⟨⟨⟨⟨_, hshares⟩, _⟩, _⟩, _⟩ := hc
    obtain ⟨_, hu⟩ := Option.ite_none_right_eq_some.mp h
    exact ⟨hshares, _, (Option.some.inj hu).symm⟩

theorem shares_of_cores (h : sharesOk cores shares = true) : ∀ y ∈ shares, y.1 ∈ cores := by
  simp only [sharesOk, Bool.and_eq_true, List.all_eq_true, List.contains_iff_mem] at h
  exact fun y hy => (h.2 y hy).1.1

/-! ### What each step does -/

theorem servesPart_joinCore (now tag : Nat) (c : Core) : servesPart (joinCore now tag c) tag = true := by
  simp [servesPart, joinCore]

theorem servesPart_joined (hx : x ∈ cores) (s : State) : servesPart (coreAt (joined tag cores s) x) tag = true := by
  refine foldl_reaches (P := fun u => servesPart (coreAt u x) tag = true) (fun v => ?_) (fun v y hv => ?_) cores s hx
  · rw [coreAt_onCore (f := joinCore v.time tag) (fun _ => rfl)]
    exact servesPart_joinCore _ _ _
  · by_cases hy : y = x
    · rw [hy, coreAt_onCore (f := joinCore v.time tag) (fun _ => rfl)]
      exact servesPart_joinCore _ _ _
    · rw [coreAt_onCore_ne (f := joinCore v.time tag) (fun _ => rfl) hy, hv]

theorem joined_frame (tag : Nat) (cores : List Nat) (s : State) : (joined tag cores s).io = s.io ∧ (joined tag cores s).layout = s.layout :=
  ⟨foldl_same (g := State.io) (fun _ _ => onCore_io _ _ _) cores s,
    foldl_same (g := State.layout) (fun _ _ => onCore_layout _ _ _) cores s⟩

theorem owner_givenTo (hb : b ∈ banks) (s : State) : (bankAt (givenTo tag banks s) b).owner = some tag := by
  refine foldl_reaches (P := fun u => (bankAt u b).owner = some tag) (fun v => ?_) (fun v y hv => ?_) banks s hb
  · rw [bankAt_onBank (f := ownedBy tag) (fun _ => rfl)]
    rfl
  · exact owner_onBank (f := ownedBy tag) (fun _ => rfl) (fun _ => rfl) y b hv

theorem coreAt_congr (hcore : t.core = s.core) (hothers : t.others = s.others) (x : Nat) : coreAt t x = coreAt s x := by
  simp only [coreAt, hcore, hothers]

theorem givenTo_frame (tag : Nat) (banks : List Nat) (s : State) : (givenTo tag banks s).io = s.io ∧
    (givenTo tag banks s).layout = s.layout ∧ (givenTo tag banks s).core = s.core ∧ (givenTo tag banks s).others = s.others := by
  have hsame {β : Type} (g : State → β) (hg : ∀ b s, g (onBank b (ownedBy tag) s) = g s) : g (givenTo tag banks s) = g s :=
    foldl_same (fun s b => hg b s) banks s
  exact ⟨hsame State.io fun _ _ => rfl, hsame State.layout fun _ _ => rfl, hsame State.core fun _ _ => rfl,
    hsame State.others fun _ _ => rfl⟩

theorem partAt_placed (p : Partition) (s : State) : partAt (placed p s) p.tag = some p := findBy_putBy Partition.tag p s.parts

theorem ranks_newPartition (gen : Nat) :
    (newPartition tag cores banks vf gen det shares).ranks.map RankEntry.phys = ascending cores := by
  simp [newPartition, Function.comp_def]

theorem valid_newPartition (gen : Nat) : ∀ r ∈ (newPartition tag cores banks vf gen det shares).ranks, r.valid = true ∧ r.transit = false := by
  simp [newPartition]

/-- A page that was cleared reads zero. -/
theorem memGet_cleared (m : Memory) {lo n a : Nat} (hlo : lo ≤ a) (hhi : a < lo + n) : memGet (memClear m lo n) a = 0 := by
  rw [memGet_memClear, if_pos ⟨hlo, hhi⟩]

/-- The record and the layout version after CREATE. -/
theorem create_evidence (h : create tag cores banks vf det shares s = some u) : Extended s u 2 tag ∧ u.layout = s.layout + 1 ∧
    u.io.auditSeq = s.io.auditSeq + 1 := by
  obtain ⟨_, gen, rfl⟩ := create_eq h
  obtain ⟨hseq, hlayout, _, _, _, _⟩ := auditLayout_keeps 0x0002 tag s
  have hgen := keepsMem_newGeneration vf (auditLayout 0x0002 tag s)
  have hext := auditLayout_extended 0x0002 tag s
  generalize auditLayout 0x0002 tag s = v at hgen hext hseq hlayout
  generalize newGeneration vf v = w at hgen
  obtain ⟨hjio, hjlayout⟩ := joined_frame tag cores w
  obtain ⟨hgio, hglayout, _, _⟩ := givenTo_frame tag banks (joined tag cores w)
  have hio := hgio.trans hjio
  refine ⟨extended_of hext ?_ ?_, ?_, ?_⟩
  · exact (congrArg IODie.audit hio).trans hgen.audit
  · exact (congrArg IODie.mr hio).trans hgen.mr
  · exact congrArg (· + 1) ((hglayout.trans hjlayout).trans (hgen.layout.trans hlayout))
  · exact ((congrArg IODie.auditSeq hio).trans hgen.auditSeq).trans hseq

theorem create_settles (hboot : s.io.booted = true) (h : create tag cores banks vf det shares s = some u) :
    ∃ t p, exec (.create tag (cores, shares) banks vf det) s = .next t ∧ partAt t tag = some p ∧ p.state = 1 ∧ p.det = det ∧ p.vf = vf ∧
       p.shares = shares ∧ (∀ x ∈ shares, x.1 ∈ cores) ∧ p.grace = 65536 ∧ p.nhold = 96 ∧ p.qlen = 4096 ∧ Extended s t 2 tag ∧
       p.banks = banks ∧ p.ranks.map RankEntry.phys = ascending cores ∧ (∀ r ∈ p.ranks, r.valid = true ∧ r.transit = false) ∧
       (∀ x ∈ cores, servesPart (coreAt t x) tag = true) ∧ (∀ b ∈ banks, (bankAt t b).owner = some tag) ∧
       (∀ a, slotPa tag 0 ≤ a → a < slotPa tag 0 + 4096 → memGet t.mem a = 0) ∧
       t.layout = s.layout + 1 ∧ t.io.auditSeq = s.io.auditSeq + 1 := by
  obtain ⟨hext, hlayout, hseq⟩ := create_evidence h
  obtain ⟨hshares, gen, hu⟩ := create_eq h
  generalize newGeneration vf (auditLayout 0x0002 tag s) = v at hu
  obtain ⟨_, _, hcore, hothers⟩ := givenTo_frame tag banks (joined tag cores v)
  refine ⟨answeredWith (.data []) u, newPartition tag cores banks vf gen det shares,
    congrArg Host.Outcome.next (command_accepted hboot h), ?_, rfl, rfl, rfl, rfl, shares_of_cores hshares, rfl, rfl, rfl,
    extended_of hext rfl rfl, rfl, ranks_newPartition gen, valid_newPartition gen, fun x hx => ?_, fun b hb => ?_, fun a hlo hhi => ?_,
    hlayout, hseq⟩
  · rw [hu]
    exact partAt_placed (newPartition tag cores banks vf gen det shares) _
  · have hjoined := coreAt_congr (s := joined tag cores v) (t := answeredWith (.data []) u) (hu ▸ hcore) (hu ▸ hothers) x
    rw [hjoined]
    exact servesPart_joined hx v
  · rw [hu]
    exact owner_givenTo hb _
  · rw [hu]
    exact memGet_cleared _ hlo hhi

end Sys2Proof.Machine
end

section
/-!
SUPPORT for O54. What the cores hold of a partition that is released (R73, R439).
-/

namespace Sys2Proof.Machine

open Sys2Proof.Safety

variable {s t u : State} {tag k : Nat} {c : Core} {p : Partition}

/-! ### Tables in ascending order -/

section
variable {α : Type} {key : α → Nat} {x : α}

theorem mem_putBy {y : α} : ∀ {l : List α}, y ∈ putBy key x l → y = x ∨ y ∈ l
  | [], h => by simpa [putBy] using h
  | z :: l, h => by
    unfold putBy at h
    split at h
    · exact (List.mem_cons.mp h).imp_right (List.mem_cons_of_mem z)
    · split at h
      · exact List.mem_cons.mp h
      · rcases List.mem_cons.mp h with rfl | hl
        · exact .inr List.mem_cons_self
        · exact (mem_putBy hl).imp_right (List.mem_cons_of_mem z)

theorem pairwise_putBy : ∀ {l : List α}, l.Pairwise (fun y z => key y < key z) → (putBy key x l).Pairwise (fun y z => key y < key z)
  | [], _ => by simp [putBy]
  | y :: l, h => by
    obtain ⟨hy, hl⟩ := List.pairwise_cons.mp h
    unfold putBy
    split
    · rename_i heq
      exact List.pairwise_cons.mpr ⟨fun z hz => heq ▸ hy z hz, hl⟩
    · split
      · rename_i hlt
        refine List.pairwise_cons.mpr ⟨fun z hz => ?_, h⟩
        rcases List.mem_cons.mp hz with rfl | hz
        · exact hlt
        · exact lt_trans hlt (hy z hz)
      · refine List.pairwise_cons.mpr ⟨fun z hz => ?_, pairwise_putBy hl⟩
        rcases mem_putBy hz with rfl | hz
        · omega
        · exact hy z hz

theorem findBy_of_mem : ∀ {l : List α}, l.Pairwise (fun y z => key y < key z) → x ∈ l → findBy key (key x) l = some x
  | y :: l, h, hx => by
    obtain ⟨hy, hl⟩ := List.pairwise_cons.mp h
    rcases List.mem_cons.mp hx with rfl | hx
    · rw [findBy, if_pos rfl]
    · rw [findBy, if_neg (Nat.ne_of_lt (hy x hx)), findBy_of_mem hl hx]

theorem mem_of_findBy {k : Nat} : ∀ {l : List α}, findBy key k l = some x → x ∈ l
  | y :: l, h => by
    rw [findBy] at h
    split at h
    · cases h
      exact List.mem_cons_self
    · exact List.mem_cons_of_mem y (mem_of_findBy h)

theorem findBy_none {k : Nat} {l : List α} (h : ∀ y ∈ l, key y ≠ k) : findBy key k l = none := by
  cases hf : findBy key k l with
  | none => rfl
  | some x => exact absurd (findBy_key hf) (h x (mem_of_findBy hf))

end

/-! ### A state with every core once -/

/-- The other cores stand in ascending order, and the core in focus is none of them. -/
def EachOnce (s : State) : Prop := s.others.Pairwise (fun c d => c.phys < d.phys) ∧ ∀ c ∈ s.others, c.phys ≠ s.core.phys

theorem eachOnce_iff : EachOnce s ↔ (s.others.map Core.phys).Pairwise (· < ·) ∧ s.core.phys ∉ s.others.map Core.phys := by
  simp [EachOnce, List.pairwise_map]

theorem eachOnce_onCore {f : Core → Core} (hf : ∀ c, (f c).phys = c.phys) (k : Nat) (h : EachOnce s) : EachOnce (onCore k f s) := by
  obtain ⟨hsorted, hfocus⟩ := h
  have hk : (f (coreAt s k)).phys = k := by rw [hf, coreAt_phys]
  unfold onCore setCore
  split
  · rename_i heq
    exact ⟨hsorted, fun c hc => heq ▸ hfocus c hc⟩
  · rename_i hne
    refine ⟨pairwise_putBy hsorted, fun c hc => ?_⟩
    rcases mem_putBy hc with rfl | hc
    · exact fun heq => hne heq.symm
    · exact hfocus c hc

theorem coreAt_of_mem (h : EachOnce s) (hc : c ∈ allCores s) : coreAt s c.phys = c := by
  unfold coreAt
  rcases List.mem_cons.mp hc with rfl | hc
  · rw [if_pos rfl]
  · rw [if_neg (fun heq => h.2 c hc heq.symm), findBy_of_mem h.1 hc]
    rfl

theorem coreAt_mem_or (s : State) (k : Nat) : coreAt s k ∈ allCores s ∨ coreAt s k = Core.reset k := by
  unfold coreAt
  split
  · exact .inl List.mem_cons_self
  · cases h : findBy Core.phys k s.others with
    | none => exact .inr rfl
    | some c => exact .inl (List.mem_cons_of_mem _ (mem_of_findBy h))

/-! ### Leaving a partition -/

theorem free_of_not_served (h : (servedBy c).contains tag = false) : Free tag c := by
  unfold servedBy at h
  cases hpart : c.part with
  | none =>
    rw [hpart] at h
    exact ⟨by simp [hpart], by simpa using h⟩
  | some t =>
    rw [hpart] at h
    dsimp only at h
    split at h
    · rename_i ht
      refine ⟨fun heq => ?_, by simpa using h⟩
      cases hpart.symm.trans heq
      exact absurd (ht.symm.trans h) (by decide)
    · simp only [List.contains_cons, Bool.or_eq_false_iff, beq_eq_false_iff_ne] at h
      exact ⟨fun heq => h.1 (Option.some.inj (heq.symm.trans hpart)), by simpa using h.2⟩

theorem leaveCore_phys (now tag : Nat) (zero : Bool) (c : Core) : (leaveCore now tag zero c).phys = c.phys := by
  unfold leaveCore
  dsimp only
  split <;> rfl

theorem forgetPart_serves (tag : Nat) (c : Core) : tag ∉ (forgetPart tag c).serves := by
  simp [forgetPart]

theorem free_leaveCore (now tag : Nat) (zero : Bool) (c : Core) : Free tag (leaveCore now tag zero c) := by
  unfold leaveCore
  dsimp only
  split
  · rename_i hpart
    exact ⟨hpart, forgetPart_serves tag c⟩
  · refine ⟨fun h => ?_, forgetPart_serves tag c⟩
    simpa using (Option.filter_eq_some_iff.mp h).2

/-- Cores leave a partition. -/
def departed (tag : Nat) (cores : List Nat) (s : State) : State := cores.foldl (fun s x => onCore x (leaveCore s.time tag true) s) s

theorem departed_frame (tag : Nat) (cores : List Nat) (s : State) : (departed tag cores s).io = s.io ∧
    (departed tag cores s).layout = s.layout ∧ (departed tag cores s).parts = s.parts ∧ (departed tag cores s).mem = s.mem :=
  ⟨foldl_same (g := State.io) (fun _ _ => onCore_io _ _ _) cores s, foldl_same (g := State.layout) (fun _ _ => onCore_layout _ _ _) cores s,
    foldl_same (g := State.parts) (fun _ _ => onCore_parts _ _ _) cores s, foldl_same (g := State.mem) (fun _ _ => onCore_mem _ _ _) cores s⟩

theorem eachOnce_departed (cores : List Nat) (h : EachOnce s) : EachOnce (departed tag cores s) :=
  foldl_keeps (fun _ x hu => eachOnce_onCore (leaveCore_phys _ _ _) x hu) cores s h

theorem free_onCore_leaveCore (now x : Nat) (h : x = k ∨ Free tag (coreAt s k)) :
    Free tag (coreAt (onCore x (leaveCore now tag true) s) k) := by
  by_cases hx : x = k
  · rw [hx, coreAt_onCore (leaveCore_phys now tag true)]
    exact free_leaveCore _ _ _ _
  · rw [coreAt_onCore_ne (leaveCore_phys now tag true) hx]
    exact h.resolve_left hx

theorem free_departed_core {cores : List Nat} (hk : k ∈ cores) (s : State) : Free tag (coreAt (departed tag cores s) k) :=
  foldl_reaches (f := fun s x => onCore x (leaveCore s.time tag true) s) (P := fun u => Free tag (coreAt u k))
    (fun u => free_onCore_leaveCore u.time k (.inl rfl)) (fun u x hu => free_onCore_leaveCore u.time x (.inr hu)) cores s hk

/-- Every core of a partition that has left it has nothing of it. -/
theorem free_departed {cores : List Nat} (hcores : ∀ c ∈ allCores s, (servedBy c).contains tag = true → c.phys ∈ cores) (k : Nat) :
    Free tag (coreAt (departed tag cores s) k) := by
  by_cases hk : k ∈ cores
  · exact free_departed_core hk s
  · refine foldl_keeps (P := fun u => Free tag (coreAt u k)) (fun u x hu => free_onCore_leaveCore u.time x (.inr hu)) cores s ?_
    rcases coreAt_mem_or s k with hmem | hreset
    · refine free_of_not_served (Bool.eq_false_iff.mpr fun hserved => hk ?_)
      have := hcores _ hmem hserved
      rwa [coreAt_phys] at this
    · rw [hreset]
      exact ⟨by simp [Core.reset], by simp [Core.reset]⟩

/-! ### A partition's cores stop -/

/-- The cores that serve a partition. -/
def coresServing (tag : Nat) (s : State) : List Nat := ((allCores s).filter (fun c => (servedBy c).contains tag)).map Core.phys

/-- A core's traces in the mesh and in its row's Nesting buffer go. -/
def withdrawn (s : State) (x : Nat) : State :=
  forgetAnswers x (onCluster (clusterOf x) (leaveNest x (fun _ => true)) { s with owned := s.owned.filter (·.2.1 != x) })

/-- The descriptor of a partition that is being released. -/
def releasing (p : Partition) : Partition := { p with state := 3, shadow := none }

theorem stopPartition_eq (p : Partition) (s : State) : stopPartition p s = departed p.tag (coresServing p.tag s) (onPart p.tag releasing
    (scrubTraffic p.tag (((coresServing p.tag s).filter (fun x => (coreAt s x).part == some p.tag)).foldl withdrawn s))) := rfl

/-- What the mesh's cleaning for some cores leaves. -/
theorem withdrawn_frame (l : List Nat) (s : State) : (l.foldl withdrawn s).io = s.io ∧ (l.foldl withdrawn s).layout = s.layout ∧
    (l.foldl withdrawn s).parts = s.parts ∧ (l.foldl withdrawn s).mem = s.mem ∧ (l.foldl withdrawn s).core = s.core ∧
    (l.foldl withdrawn s).others = s.others := by
  have hsame {β : Type} (g : State → β) (hg : ∀ s x, g (withdrawn s x) = g s) : g (l.foldl withdrawn s) = g s := foldl_same hg l s
  exact ⟨hsame State.io fun _ _ => rfl, hsame State.layout fun _ _ => rfl, hsame State.parts fun _ _ => rfl,
    hsame State.mem fun _ _ => rfl, hsame State.core fun _ _ => rfl, hsame State.others fun _ _ => rfl⟩

/-- A partition that stops leaves the evidence, the layout version and the memory. -/
theorem stopPartition_frame (p : Partition) (s : State) : (stopPartition p s).io = s.io ∧ (stopPartition p s).layout = s.layout ∧
    (stopPartition p s).mem = s.mem := by
  rw [stopPartition_eq]
  generalize (coresServing p.tag s).filter (fun x => (coreAt s x).part == some p.tag) = l
  obtain ⟨hio, hlayout, _, hmem, _, _⟩ := withdrawn_frame l s
  obtain ⟨hio', hlayout', _, hmem'⟩ := departed_frame p.tag (coresServing p.tag s) (onPart p.tag releasing (scrubTraffic p.tag (l.foldl withdrawn s)))
  exact ⟨hio'.trans hio, hlayout'.trans hlayout, hmem'.trans hmem⟩

theorem partAt_stopPartition (hp : partAt s tag = some p) : partAt (stopPartition p s) tag = some (releasing p) := by
  have htag := partAt_tag hp
  rw [stopPartition_eq, htag]
  generalize (coresServing tag s).filter (fun x => (coreAt s x).part == some tag) = l
  obtain ⟨_, _, hparts, _, _, _⟩ := withdrawn_frame l s
  obtain ⟨_, _, hparts', _⟩ := departed_frame tag (coresServing tag s) (onPart tag releasing (scrubTraffic tag (l.foldl withdrawn s)))
  have hpart := partAt_onPart (f := releasing) (fun _ => rfl) tag (scrubTraffic tag (l.foldl withdrawn s))
  have hsame : partAt (scrubTraffic tag (l.foldl withdrawn s)) tag = partAt s tag := congrArg (findBy Partition.tag tag) hparts
  rw [hsame, hp] at hpart
  exact (congrArg (findBy Partition.tag tag) hparts').trans hpart

theorem free_stopPartition (hcores : EachOnce s) (p : Partition) : ∀ c ∈ allCores (stopPartition p s), Free p.tag c := by
  rw [stopPartition_eq]
  generalize (coresServing p.tag s).filter (fun x => (coreAt s x).part == some p.tag) = l
  obtain ⟨_, _, _, _, hcore, hothers⟩ := withdrawn_frame l s
  generalize hv : onPart p.tag releasing (scrubTraffic p.tag (l.foldl withdrawn s)) = v
  have hvcore : v.core = s.core := hv ▸ hcore
  have hvothers : v.others = s.others := hv ▸ hothers
  have hall : allCores v = allCores s := by simp only [allCores, hvcore, hvothers]
  have hvonce : EachOnce v := by simpa only [EachOnce, hvcore, hvothers] using hcores
  intro c hc
  have hfree := free_departed (tag := p.tag) (s := v) (cores := coresServing p.tag s) (fun d hd hserved => by
    rw [hall] at hd
    exact List.mem_map_of_mem (List.mem_filter.mpr ⟨hd, hserved⟩)) c.phys
  rwa [coreAt_of_mem (eachOnce_departed _ hvonce) hc] at hfree

end Sys2Proof.Machine
end

section
/-!
O54. Partitions come and go: RELEASE (R432, R439), and the obligation.
-/

namespace Sys2Proof.Machine

open Sys2Proof.Safety

variable {s t u v : State} {tag k b : Nat} {p : Partition} {banks : List Nat}

/-! ### The steps of a release -/

/-- A bank without owner. -/
def unowned (k : Bank) : Bank := { k with owner := none, state := if k.state == .off then .off else .powerDown }

theorem bankAt_congr (h : t.banks = s.banks) (b : Nat) : bankAt t b = bankAt s b := by
  rw [bankAt, h, bankAt]

/-- The banks after one is powered off are those of a change of its entry alone. -/
theorem powerBank_banks (b : Nat) (s : State) : (powerBank b s).banks = (onBank b unowned s).banks := rfl

theorem keeps_ofBanks (banks : List Nat) (s : State) : (banks.foldl (fun s b => powerBank b s) s).io = s.io ∧
    (banks.foldl (fun s b => powerBank b s) s).layout = s.layout ∧ (banks.foldl (fun s b => powerBank b s) s).parts = s.parts ∧
    (banks.foldl (fun s b => powerBank b s) s).core = s.core ∧ (banks.foldl (fun s b => powerBank b s) s).others = s.others := by
  have hsame {β : Type} (g : State → β) (hg : ∀ s b, g (powerBank b s) = g s) : g (banks.foldl (fun s b => powerBank b s) s) = g s :=
    foldl_same hg banks s
  exact ⟨hsame State.io fun _ _ => rfl, hsame State.layout fun _ _ => rfl, hsame State.parts fun _ _ => rfl,
    hsame State.core fun _ _ => rfl, hsame State.others fun _ _ => rfl⟩

theorem owner_powered (hb : b ∈ banks) (s : State) : (bankAt (banks.foldl (fun s b => powerBank b s) s) b).owner = none := by
  refine foldl_reaches (f := fun s b => powerBank b s) (P := fun u => (bankAt u b).owner = none) (fun u => ?_) (fun u c hu => ?_) banks s hb
  · rw [bankAt_congr (powerBank_banks b u), bankAt_onBank (f := unowned) (fun _ => rfl)]
    rfl
  · rw [bankAt_congr (powerBank_banks c u)]
    exact owner_onBank (f := unowned) (fun _ => rfl) (fun _ => rfl) c b hu

/-- A partition is gone from the descriptors, its launch window zero. -/
def removed (tag : Nat) (s : State) : State :=
  { s with
    mem := memClear s.mem (slotPa tag 0) 4096
    dieLines := s.dieLines.filter (·.2 != tag)
    parts := s.parts.filter (·.tag != tag)
    layout := s.layout + 1 }

/-- Every cluster forgets a partition. -/
def scrubbed (tag : Nat) (s : State) : State :=
  (s.clusters.map Cluster.id).foldl (fun s cl => scrubPart tag cl s) (scrubTraffic tag s)

theorem finishRelease_eq (p : Partition) (s : State) : finishRelease p s =
    refillQueues (removed p.tag (newGeneration p.vf (p.banks.foldl (fun s b => powerBank b s) (scrubbed p.tag s)))) := rfl

theorem keeps_scrubbed (tag : Nat) (s : State) : Keeps s (scrubbed tag s) :=
  (keepsMem_scrubTraffic tag s).toKeeps.trans (Keeps.foldl (fun u cl => keeps_scrubPart tag cl u) _ _)

theorem partAt_removed (hmap : t.parts.map Partition.tag = (removed tag s).parts.map Partition.tag) : partAt t tag = none := by
  refine findBy_none fun p hp heq => ?_
  have hmem : p.tag ∈ (removed tag s).parts.map Partition.tag := hmap ▸ List.mem_map_of_mem hp
  obtain ⟨r, hr, hrtag⟩ := List.mem_map.mp hmem
  have hne : r.tag ≠ tag := by simpa using (List.mem_filter.mp hr).2
  exact hne (hrtag.trans heq)

/-- What the end of a release comes to. -/
structure Released (p : Partition) (s t : State) : Prop where
  part : partAt t p.tag = none
  audit : t.io.audit = s.io.audit
  auditSeq : t.io.auditSeq = s.io.auditSeq
  mr : t.io.mr = s.io.mr
  cores : (∀ c ∈ allCores s, Free p.tag c) → ∀ c ∈ allCores t, Free p.tag c
  banks : ∀ b ∈ p.banks, (bankAt t b).owner = none
  window : ∀ a, slotPa p.tag 0 ≤ a → a < slotPa p.tag 0 + 4096 → memGet t.mem a = 0
  layout : t.layout = s.layout + 1

theorem finishRelease_released (p : Partition) (s : State) : Released p s (finishRelease p s) := by
  rw [finishRelease_eq]
  have hscrub := keeps_scrubbed p.tag s
  generalize scrubbed p.tag s = u at hscrub
  obtain ⟨hio, hlayout, _, hcore, hothers⟩ := keeps_ofBanks p.banks u
  have howner : ∀ b ∈ p.banks, _ := fun b hb => owner_powered hb u
  generalize p.banks.foldl (fun s b => powerBank b s) u = v at hio hlayout hcore hothers howner
  have hgen := keepsMem_newGeneration p.vf v
  generalize newGeneration p.vf v = w at hgen
  have hfill := keepsMem_refillQueues (removed p.tag w)
  generalize refillQueues (removed p.tag w) = t at hfill
  have hall : allCores v = allCores u := by simp only [allCores, hcore, hothers]
  exact {
    part := partAt_removed hfill.tags
    audit := hfill.audit.trans (hgen.audit.trans ((congrArg IODie.audit hio).trans hscrub.audit))
    auditSeq := hfill.auditSeq.trans (hgen.auditSeq.trans ((congrArg IODie.auditSeq hio).trans hscrub.auditSeq))
    mr := hfill.mr.trans (hgen.mr.trans ((congrArg IODie.mr hio).trans hscrub.mr))
    cores := fun h => hfill.cores p.tag (hgen.cores p.tag (hall ▸ hscrub.cores p.tag h))
    banks := fun b hb => by rw [bankAt_congr (hfill.banks.trans hgen.banks), howner b hb]
    window := fun a hlo hhi => by
      rw [hfill.mem]
      exact memGet_cleared w.mem hlo hhi
    layout := hfill.layout.trans (congrArg (· + 1) (hgen.layout.trans (hlayout.trans hscrub.layout))) }

/-! ### RELEASE -/

/-- One launch of a partition after another completes, until one must wait. -/
def abortNext (p : Partition) (x : Bool × State) (n : Nat) : Bool × State := if x.1 = true then abortLaunch p n x.2 else x

/-- The state in which a release has stopped its partition. -/
def stopped (p : Partition) (s : State) : State := stopPartition p (auditLayout 0x0003 p.tag s)

theorem release_accepted (hp : partAt s tag = some p) (hlive : p.state ≠ 3) : release tag s = some (goOnRelease tag (stopped p s)) := by
  rw [stopped, partAt_tag hp]
  simp only [release, hp, if_neg hlive]

theorem partAt_auditLayout (event tag k : Nat) (s : State) : partAt (auditLayout event tag s) k = partAt s k :=
  congrArg (findBy Partition.tag k) (auditLayout_keeps event tag s).2.2.1

theorem partAt_stopped (hp : partAt s tag = some p) : partAt (stopped p s) tag = some (releasing p) :=
  partAt_stopPartition ((partAt_auditLayout _ _ _ s).trans hp)

theorem stopped_evidence (p : Partition) (s : State) : Extended s (stopped p s) 3 p.tag ∧ (stopped p s).layout = s.layout ∧
    (stopped p s).io.auditSeq = s.io.auditSeq + 1 ∧ (stopped p s).mem = s.mem := by
  obtain ⟨hio, hlayout, hmem⟩ := stopPartition_frame p (auditLayout 0x0003 p.tag s)
  obtain ⟨hseq, hlayout', _, hmem', _, _⟩ := auditLayout_keeps 0x0003 p.tag s
  exact ⟨extended_of (auditLayout_extended 0x0003 p.tag s) (congrArg IODie.audit hio) (congrArg IODie.mr hio), hlayout.trans hlayout',
    (congrArg IODie.auditSeq hio).trans hseq, hmem.trans hmem'⟩

theorem free_stopped (hcores : EachOnce s) (p : Partition) : ∀ c ∈ allCores (stopped p s), Free p.tag c := by
  obtain ⟨_, _, _, _, hcore, hothers⟩ := auditLayout_keeps 0x0003 p.tag s
  exact free_stopPartition (by simpa only [EachOnce, hcore, hothers] using hcores) p

theorem goOnRelease_done {ok : Bool} (hp : partAt s tag = some p) (h : (armedSlots s tag).foldl (abortNext p) (true, s) = (ok, u)) :
    goOnRelease tag s = if ok then finishRelease p u
      else if u.hwork.contains (.release tag) then u else { u with hwork := u.hwork ++ [.release tag] } := by
  have hfold : (armedSlots s tag).foldl (fun (x : Bool × State) n => if x.1 then abortLaunch p n x.2 else x) (true, s) = (ok, u) := h
  simp only [goOnRelease, hp, hfold]

theorem armedSlots_congr (h : t.mem = s.mem) (tag : Nat) : armedSlots t tag = armedSlots s tag := by
  simp only [armedSlots, h]

/-- A release of a partition with no launch armed is done with the command. -/
theorem release_settles (hboot : s.io.booted = true) (hp : partAt s tag = some p) (hlive : p.state ≠ 3) (harmed : armedSlots s tag = [])
    (hcores : EachOnce s) : ∃ t, exec (.release tag) s = .next t ∧ partAt t tag = none ∧ Extended s t 3 tag ∧
      (∀ c ∈ allCores t, c.part ≠ some tag ∧ tag ∉ c.serves) ∧ (∀ b ∈ p.banks, (bankAt t b).owner = none) ∧
      (∀ a, slotPa tag 0 ≤ a → a < slotPa tag 0 + 4096 → memGet t.mem a = 0) ∧
      t.layout = s.layout + 1 ∧ t.io.auditSeq = s.io.auditSeq + 1 := by
  have htag := partAt_tag hp
  have hrelease := release_accepted hp hlive
  have hpart := partAt_stopped hp
  have hfree := free_stopped hcores p
  obtain ⟨hext, hlayout, hseq, hmem⟩ := stopped_evidence p s
  generalize stopped p s = v at hrelease hpart hfree hext hlayout hseq hmem
  have hnone : (armedSlots v tag).foldl (abortNext (releasing p)) (true, v) = (true, v) := by
    rw [armedSlots_congr hmem, harmed]
    rfl
  rw [goOnRelease_done hpart hnone, if_pos rfl] at hrelease
  obtain ⟨hgone, haudit, hseq', hmr, hleft, hbanks, hwindow, hlayout'⟩ := finishRelease_released (releasing p) v
  generalize finishRelease (releasing p) v = w at *
  subst htag
  exact ⟨answeredWith (.data []) w, congrArg Host.Outcome.next (command_accepted hboot hrelease), hgone, extended_of hext haudit hmr,
    hleft hfree, hbanks, hwindow, hlayout'.trans (congrArg (· + 1) hlayout), hseq'.trans hseq⟩

/-- What a release comes to after its armed launches. -/
theorem release_goesOn {ok : Bool} (hboot : s.io.booted = true) (hp : partAt s tag = some p) (hlive : p.state ≠ 3)
    (h : (armedSlots (stopped p s) tag).foldl (abortNext (releasing p)) (true, stopped p s) = (ok, u)) :
    (ok = true → exec (.release tag) s = .next (answeredWith (.data []) (finishRelease (releasing p) u))) ∧
    (ok = false → ∃ t, exec (.release tag) s = .next t ∧ .release tag ∈ t.hwork) := by
  have hrelease := (release_accepted hp hlive).trans (congrArg some (goOnRelease_done (partAt_stopped hp) h))
  refine ⟨fun hok => ?_, fun hok => ⟨_, congrArg Host.Outcome.next (command_accepted hboot hrelease), ?_⟩⟩
  · rw [hok, if_pos rfl] at hrelease
    exact congrArg Host.Outcome.next (command_accepted hboot hrelease)
  · rw [hok, if_neg (by decide)]
    split
    · rename_i hwork
      exact List.contains_iff_mem.mp hwork
    · exact List.mem_append_right _ List.mem_cons_self

/-! ### Launches that are still armed -/

/-- The completion word of a rejected launch with reason 7 (R317). -/
theorem completionWord_rejected (slot : Nat) (done : Word) : completionWord true ⟨slot, 0, 0, 7, done, false⟩ = 0x702 := by
  simp [completionWord]

section
variable {slot : Nat} {l : Launch} (hl : p.launches.find? (·.slot == slot) = some l)
include hl

/-- A launch's slot is disarmed and its descriptor gone. -/
def disarmed (p : Partition) (slot : Nat) (s : State) : State :=
  homeWrite [(slotPa p.tag slot + 63, 0)] (onPart p.tag (fun p => { p with launches := p.launches.filter (·.slot != slot) }) s)

/-- The core that writes a partition's completion words. -/
def writer (p : Partition) : Nat := (p.ranks.head?.map RankEntry.phys).getD 1

theorem abortLaunch_writes (halign : l.done.toNat % 8 = 0) : abortLaunch p slot s =
    match writeDone (writer p) p.tag l.done 0x702 s with
    | .ok _ s => (true, disarmed p slot s)
    | .error (.stall _) s => (false, s)
    | .error _ s => (true, disarmed p slot (record 4 0x00C p.tag 0x3FFF l.done (BitVec.ofNat 64 slot) s)) := by
  unfold abortLaunch
  simp only [hl, Option.map_some, Option.getD_some, completionWord_rejected]
  rw [if_neg (not_not.mpr halign)]
  rfl

theorem abortLaunch_loses (halign : l.done.toNat % 8 ≠ 0) : abortLaunch p slot s =
    (true, disarmed p slot (record 4 0x00C p.tag 0x3FFF l.done (BitVec.ofNat 64 slot) s)) := by
  unfold abortLaunch
  simp only [hl, Option.map_some, Option.getD_some]
  rw [if_pos halign]
  rfl

end

/-! ### The obligation -/

/-- Settles O54, by the frames of the steps of each command: of CREATE's and RELEASE's runs over cores and banks, what a later
step keeps of what an earlier one brought about. -/
theorem partitionsComeAndGo : Obligations.PartitionsComeAndGo := by
  unfold Obligations.PartitionsComeAndGo
  refine ⟨fun i f s hi => ?_, ⟨?_, ?_, ?_, ?_⟩, ?_, ?_⟩
  · rw [exec_command hi]
    exact ⟨fun h => congrArg Host.Outcome.next (command_unbooted h f), fun h hf => congrArg Host.Outcome.next (command_refused h hf),
      fun u h hf => congrArg Host.Outcome.next (command_accepted h hf)⟩
  · intro tag cores banks vf det shares s u hboot h
    exact create_settles hboot h
  · intro tag p s hboot hp hlive harmed hsorted hfocus
    exact release_settles hboot hp hlive harmed (eachOnce_iff.mpr ⟨hsorted, hfocus⟩)
  · intro tag p s v u ok hboot hp hlive hv
    have htag := partAt_tag hp
    subst htag hv
    exact ⟨partAt_stopped hp, (stopped_evidence p s).1, fun h => release_goesOn hboot hp hlive h⟩
  · intro p slot l s u hl clear phys
    refine ⟨fun halign hdone => ?_, fun w halign hdone => ?_, fun halign => abortLaunch_loses hl halign⟩
    · rw [abortLaunch_writes hl halign, writer, hdone]
      rfl
    · rw [abortLaunch_writes hl halign, writer, hdone]
  · intro tag root attr pasid p s hboot hp ok
    refine ⟨fun ⟨hlive, hroot, hattr, hpasid⟩ => sets2_settles hboot hp hlive hroot hattr hpasid, fun h => ?_⟩
    exact congrArg Host.Outcome.next (command_refused hboot (setS2_refused hp h))
  · intro tag cl q p s u hboot hp h
    obtain ⟨hlive, hmul, hlow, hhigh, hcl, _⟩ := setQuota_checked hp h
    obtain ⟨t, hexec, hresponse, hseq, hparts, hquota, hheld⟩ := setquota_settles hboot hp h
    refine ⟨hlive, hmul, hlow, hhigh, hcl, t, hexec, hresponse, hseq, hparts, hquota, fun k x hq hx => ?_⟩
    have hholder : holder p = x := by rw [holder, hx]; rfl
    exact hholder ▸ hheld hq

end Sys2Proof.Machine
end

section
/-!
SUPPORT. The fields of a word (R46): when a word is the packing of given fields, for each layout, and what each form of the decoder
reads, as an equivalence with the encoder's packing.
-/

namespace Sys2Proof.Encoding

open Sys2Proof.Laws.WordForm (bit_lt scope_lt)

variable {w M f : Nat} {i : Instr}

/-- A word of 32 bits whose bit 0 is 1 (R42). -/
def IsWord (w : Nat) : Prop := w % 2 = 1 ∧ w < 2 ^ 32

/-! ### Fields -/

theorem fld_lt (w lo n : Nat) : fld w lo n < 2 ^ n := Nat.mod_lt _ (by positivity)

theorem eq_bit_iff (w lo : Nat) (b : Bool) : fld w lo 1 = bit b ↔ bfld w lo = b := by
  have h : fld w lo 1 < 2 := fld_lt w lo 1
  unfold bfld bit
  cases b
  · simp; omega
  · simp

theorem eq_reg_iff (w lo : Nat) (r : Reg) : fld w lo 5 = r.val ↔ rfld w lo = r := by
  have h : fld w lo 5 < 32 := fld_lt w lo 5
  simp [rfld, Fin.ext_iff, Fin.ofNat, Nat.mod_eq_of_lt h]

theorem rfld_val (w lo : Nat) : (rfld w lo).val = fld w lo 5 := ((eq_reg_iff w lo (rfld w lo)).mpr rfl).symm

/-- A number is that of an element of Fin n: it is below n, and it names the element. -/
theorem eq_fin_iff {n : Nat} [NeZero n] (k : Nat) (c : Fin n) : k = c.val ↔ k < n ∧ Fin.ofNat n k = c := by
  constructor
  · rintro rfl; simp
  · rintro ⟨h, rfl⟩; simp [Fin.ofNat, Nat.mod_eq_of_lt h]

theorem eq_toNat_iff {n : Nat} (w lo : Nat) (v : BitVec n) : fld w lo n = v.toNat ↔ BitVec.ofNat n (fld w lo n) = v := by
  rw [← BitVec.toNat_inj, BitVec.toNat_ofNat, Nat.mod_eq_of_lt (fld_lt w lo n)]

theorem eq_code_iff (k : Nat) (sc : Scope) : k = sc.code ↔ scopeOf k = some sc := by
  constructor
  · rintro rfl; cases sc <;> rfl
  · intro h; unfold scopeOf at h; split at h <;> simp at h <;> subst h <;> rfl

@[simp] theorem bit_le_one (b : Bool) : bit b ≤ 1 := Nat.lt_succ_iff.mp (bit_lt b)

@[simp] theorem bit_lt_32 (b : Bool) : bit b < 32 := (bit_lt b).trans (by decide)

theorem val_lt {n : Nat} (c : Fin n) (h : n ≤ 32) : c.val < 32 := c.isLt.trans_le h

@[simp] theorem code_lt (sc : Scope) : sc.code < 8 := (scope_lt sc).trans (by decide)

theorem toNat_lt {n m : Nat} (v : BitVec n) (h : n ≤ m) : v.toNat < 2 ^ m :=
  v.isLt.trans_le (Nat.pow_le_pow_right (by decide) h)

@[simp] theorem must0_ok_iff (c : Bool) (j : Instr) : must0 c j = .ok i ↔ c = true ∧ j = i := by
  unfold must0; cases c <;> simp

/-! ### Fields of several parts -/

theorem fld_7_17 (w : Nat) : fld w 7 17 = 0 ↔ fld w 7 5 = 0 ∧ fld w 12 12 = 0 := by unfold fld; omega
theorem fld_12_12 (w : Nat) : fld w 12 12 = 0 ↔ fld w 12 5 = 0 ∧ fld w 17 7 = 0 := by unfold fld; omega
theorem fld_17_7 (w : Nat) : fld w 17 7 = 0 ↔ fld w 17 5 = 0 ∧ fld w 22 1 = 0 ∧ fld w 23 1 = 0 := by unfold fld; omega
theorem fld_7_16 (w : Nat) : fld w 7 16 = 0 ↔ fld w 7 5 = 0 ∧ fld w 12 5 = 0 ∧ fld w 17 5 = 0 ∧ fld w 22 1 = 0 := by
  unfold fld; omega
theorem fld_7_19 (w : Nat) : fld w 7 19 = 0 ↔ fld w 7 16 = 0 ∧ fld w 23 3 = 0 := by unfold fld; omega

/-- The order flag is the low bit of the field that other forms use for d (R50). -/
theorem eq_ord_iff (w : Nat) (b : Bool) : fld w 7 5 = bit b ↔ fld w 8 4 = 0 ∧ bfld w 7 = b := by
  rw [← eq_bit_iff]
  have := bit_lt b
  unfold fld
  omega

/-- The low bit of a register field is its number's parity. -/
theorem fld_even_iff (w lo : Nat) : fld w lo 1 = 0 ↔ (rfld w lo).val % 2 = 0 := by
  rw [rfld_val]
  unfold fld
  omega

theorem imm_shift_iff {g k : Nat} (hk : fld w 30 2 = k) (hg : g = 4096 * k) (v : BitVec 6) :
    fld w 18 14 = v.toNat + g ↔ fld w 24 6 = 0 ∧ BitVec.ofNat 6 (fld w 18 6) = v := by
  rw [← eq_toNat_iff]
  have := v.isLt
  unfold fld at *
  omega

theorem imm_cache_iff {g k c : Nat} (hk : fld w 29 3 = k) (hg : g = 2048 * k) (hc : c < 8) :
    fld w 18 14 = g + 256 * c ↔ fld w 18 8 = 0 ∧ fld w 26 3 = c := by
  unfold fld at *
  omega

theorem imm_control_iff (w : Nat) (n : BitVec 12) :
    fld w 18 14 = n.toNat ↔ fld w 30 2 = 0 ∧ BitVec.ofNat 12 (fld w 18 12) = n := by
  rw [← eq_toNat_iff]
  have := n.isLt
  unfold fld at *
  omega

/-! ### Layouts (R46) -/

section
variable {y x b a d k s z c : Nat} (hw : IsWord w)
include hw

theorem eq_packRR_iff (hm : fld w 1 6 = M) (hf : fld w 24 8 = f) (hy : y < 2) (hx : x < 2) (hb : b < 32) (ha : a < 32)
    (hd : d < 32) : w = packRR M f y x b a d ↔
      fld w 23 1 = y ∧ fld w 22 1 = x ∧ fld w 17 5 = b ∧ fld w 12 5 = a ∧ fld w 7 5 = d := by
  obtain ⟨hodd, hlt⟩ := hw
  unfold fld at *; unfold packRR; omega

theorem eq_packSync_iff (hm : fld w 1 6 = 22) (hf : fld w 26 6 = f) (hs : s < 8) (hx : x < 2) (hb : b < 32) (ha : a < 32)
    (hd : d < 32) : w = packSync f s x b a d ↔
      fld w 23 3 = s ∧ fld w 22 1 = x ∧ fld w 17 5 = b ∧ fld w 12 5 = a ∧ fld w 7 5 = d := by
  obtain ⟨hodd, hlt⟩ := hw
  unfold fld at *; unfold packSync; omega

theorem eq_packRI_iff (hm : fld w 1 6 = M) (hk : k < 2 ^ 14) (hx : x < 2) (ha : a < 32) (hd : d < 32) :
    w = packRI M k x a d ↔ fld w 18 14 = k ∧ fld w 17 1 = x ∧ fld w 12 5 = a ∧ fld w 7 5 = d := by
  obtain ⟨hodd, hlt⟩ := hw
  unfold fld at *; unfold packRI; omega

theorem eq_packU_iff (hm : fld w 1 6 = M) (hk : k < 2 ^ 20) (hd : d < 32) :
    w = packU M k d ↔ fld w 12 20 = k ∧ fld w 7 5 = d := by
  obtain ⟨hodd, hlt⟩ := hw
  unfold fld at *; unfold packU; omega

theorem eq_packB_iff (hm : fld w 1 6 = M) (hf : fld w 18 2 = f) (hk : k < 2 ^ 12) (hx : x < 2) (hb : b < 32) (ha : a < 32) :
    w = packB M k f x b a ↔ fld w 20 12 = k ∧ fld w 17 1 = x ∧ fld w 12 5 = b ∧ fld w 7 5 = a := by
  obtain ⟨hodd, hlt⟩ := hw
  unfold fld at *; unfold packB; omega

theorem eq_packM_iff (hm : fld w 1 6 = M) (hf : fld w 18 3 = f) (hk : k < 2 ^ 11) (hx : x < 2) (ha : a < 32) (hd : d < 32) :
    w = packM M k f x a d ↔ fld w 21 11 = k ∧ fld w 17 1 = x ∧ fld w 12 5 = a ∧ fld w 7 5 = d := by
  obtain ⟨hodd, hlt⟩ := hw
  unfold fld at *; unfold packM; omega

theorem eq_packA_iff (hm : fld w 1 6 = M) (hf : fld w 27 5 = f) (hz : z < 2) (hs : s < 8) (hx : x < 2) (hb : b < 32)
    (ha : a < 32) (hd : d < 32) : w = packA M f z s x b a d ↔
      fld w 26 1 = z ∧ fld w 23 3 = s ∧ fld w 22 1 = x ∧ fld w 17 5 = b ∧ fld w 12 5 = a ∧ fld w 7 5 = d := by
  obtain ⟨hodd, hlt⟩ := hw
  have htop : w / 2 ^ 23 = s + 8 * z + 16 * f ↔ fld w 26 1 = z ∧ fld w 23 3 = s := by
    unfold fld at *; omega
  have hlow : w = packA M f z s x b a d ↔
      w / 2 ^ 23 = s + 8 * z + 16 * f ∧ fld w 22 1 = x ∧ fld w 17 5 = b ∧ fld w 12 5 = a ∧ fld w 7 5 = d := by
    have hpack : packA M f z s x b a d = 1 + 2 * M + 128 * d + 4096 * a + 131072 * b + 4194304 * x + 2 ^ 23 * (s + 8 * z + 16 * f) := by
      unfold packA; omega
    rw [hpack]
    clear htop hf
    generalize s + 8 * z + 16 * f = t
    unfold fld at *; omega
  rw [hlow, htop, and_assoc]

theorem eq_packT_iff (hm : fld w 1 6 = 15) (hf : fld w 28 4 = f) (hx : x < 2) (hc : c < 32) (hb : b < 32) (ha : a < 32)
    (hd : d < 32) : w = packT f x c b a d ↔
      fld w 27 1 = x ∧ fld w 22 5 = c ∧ fld w 17 5 = b ∧ fld w 12 5 = a ∧ fld w 7 5 = d := by
  obtain ⟨hodd, hlt⟩ := hw
  unfold fld at *; unfold packT; omega

end

/-! ### Forms RR and V -/

section
variable (hw : IsWord w) (hm : fld w 1 6 = M) (hf : fld w 24 8 = f)
include hw hm hf

theorem dRR3_ok_iff (mk : Reg → Reg → Reg → Bool → Bool → Instr) :
    dRR3 w mk = .ok i ↔ ∃ d a b x y, mk d a b x y = i ∧ w = packRR M f (bit y) (bit x) b a d := by
  simp only [dRR3, eq_packRR_iff hw hm hf, bit_lt, Fin.is_lt, eq_bit_iff, eq_reg_iff]
  simp [-Bool.exists_bool]

theorem dRR2_ok_iff (mk : Reg → Reg → Bool → Instr) :
    dRR2 w mk = .ok i ↔ ∃ d a x, mk d a x = i ∧ w = packRR M f 0 (bit x) 0 a d := by
  simp only [dRR2, eq_packRR_iff hw hm hf, bit_lt, Fin.is_lt, Nat.ofNat_pos, eq_bit_iff, eq_reg_iff]
  simp [-Bool.exists_bool]
  tauto

theorem dExt_ok_iff (mk : Reg → Reg → Fin 3 → Bool → Instr) :
    dExt w mk = .ok i ↔ ∃ d a k x, mk d a k x = i ∧ w = packRR M f 0 (bit x) k a d := by
  simp only [dExt, eq_packRR_iff hw hm hf, bit_lt, Fin.is_lt, val_lt, Nat.reduceLeDiff, Nat.ofNat_pos,
    eq_bit_iff, eq_reg_iff, eq_fin_iff _ (_ : Fin 3)]
  simp [-Bool.exists_bool]
  tauto

theorem dTsdim_ok_iff (mk : Reg → Reg → Fin 4 → Bool → Instr) :
    dTsdim w mk = .ok i ↔ ∃ d a k x, mk d a k x = i ∧ w = packRR M f 0 (bit x) k a d := by
  simp only [dTsdim, eq_packRR_iff hw hm hf, bit_lt, Fin.is_lt, val_lt, Nat.reduceLeDiff, Nat.ofNat_pos,
    eq_bit_iff, eq_reg_iff, eq_fin_iff _ (_ : Fin 4)]
  simp [-Bool.exists_bool]
  tauto

theorem dNone_ok_iff (mk : Instr) : dNone w mk = .ok i ↔ mk = i ∧ w = packRR M f 0 0 0 0 0 := by
  simp only [dNone, eq_packRR_iff hw hm hf, Nat.ofNat_pos]
  simp [fld_7_17, fld_12_12, fld_17_7]
  tauto

theorem dN_ok_iff (mk : Reg → Instr) : dN w mk = .ok i ↔ ∃ d, mk d = i ∧ w = packRR M f 0 0 0 0 d := by
  simp only [dN, eq_packRR_iff hw hm hf, Fin.is_lt, Nat.ofNat_pos, eq_reg_iff]
  simp [fld_12_12, fld_17_7]
  tauto

theorem dFetst_ok_iff (mk : Reg → Reg → Instr) : dFetst w mk = .ok i ↔ ∃ d n, mk d n = i ∧ w = packRR M f 0 0 0 n d := by
  simp only [dFetst, eq_packRR_iff hw hm hf, Fin.is_lt, Nat.ofNat_pos, eq_reg_iff]
  simp [fld_17_7]
  tauto

theorem dA1_ok_iff (mk : Reg → Bool → Instr) : dA1 w mk = .ok i ↔ ∃ a x, mk a x = i ∧ w = packRR M f 0 (bit x) 0 a 0 := by
  simp only [dA1, eq_packRR_iff hw hm hf, bit_lt, Fin.is_lt, Nat.ofNat_pos, eq_bit_iff, eq_reg_iff]
  simp [-Bool.exists_bool]
  tauto

theorem dAB_ok_iff (mk : Reg → Reg → Bool → Bool → Instr) :
    dAB w mk = .ok i ↔ ∃ a b x y, mk a b x y = i ∧ w = packRR M f (bit y) (bit x) b a 0 := by
  simp only [dAB, eq_packRR_iff hw hm hf, bit_lt, Fin.is_lt, Nat.ofNat_pos, eq_bit_iff, eq_reg_iff]
  simp [-Bool.exists_bool]
  tauto

theorem dHstart_ok_iff (mk : Fin 10 → Reg → Reg → Bool → Bool → Instr) : dHstart w mk = .ok i ↔
    ∃ h a b x y, b.val % 2 = 0 ∧ mk h a b x y = i ∧ w = packRR M f (bit y) (bit x) b a h := by
  simp only [dHstart, eq_packRR_iff hw hm hf, bit_lt, Fin.is_lt, val_lt, Nat.reduceLeDiff,
    eq_bit_iff, eq_reg_iff, eq_fin_iff _ (_ : Fin 10)]
  simp [-Bool.exists_bool, fld_even_iff]
  tauto

theorem dDA_ok_iff (mk : Reg → Reg → Bool → Instr) : dDA w mk = .ok i ↔
    ∃ d a x, (d.val ≠ 0 ∧ d.val % 2 = 0) ∧ mk d a x = i ∧ w = packRR M f 0 (bit x) 0 a d := by
  simp only [dDA, eq_packRR_iff hw hm hf, bit_lt, Fin.is_lt, Nat.ofNat_pos, eq_bit_iff, eq_reg_iff]
  simp [-Bool.exists_bool, -Fin.val_eq_zero_iff, fld_even_iff, rfld_val]
  tauto

theorem dCh3_ok_iff (mk : Fin 4 → Reg → Reg → Bool → Bool → Instr) :
    dCh3 w mk = .ok i ↔ ∃ c a b x y, mk c a b x y = i ∧ w = packRR M f (bit y) (bit x) b a c := by
  simp only [dCh3, eq_packRR_iff hw hm hf, bit_lt, Fin.is_lt, val_lt, Nat.reduceLeDiff,
    eq_bit_iff, eq_reg_iff, eq_fin_iff _ (_ : Fin 4)]
  simp [-Bool.exists_bool]
  tauto

theorem dCh2_ok_iff (mk : Fin 4 → Reg → Bool → Instr) :
    dCh2 w mk = .ok i ↔ ∃ c a x, mk c a x = i ∧ w = packRR M f 0 (bit x) 0 a c := by
  simp only [dCh2, eq_packRR_iff hw hm hf, bit_lt, Fin.is_lt, val_lt, Nat.reduceLeDiff, Nat.ofNat_pos,
    eq_bit_iff, eq_reg_iff, eq_fin_iff _ (_ : Fin 4)]
  simp [-Bool.exists_bool]
  tauto

theorem dCh1_ok_iff (mk : Fin 4 → Instr) : dCh1 w mk = .ok i ↔ ∃ c, mk c = i ∧ w = packRR M f 0 0 0 0 c := by
  simp only [dCh1, eq_packRR_iff hw hm hf, val_lt, Nat.reduceLeDiff, Nat.ofNat_pos, eq_fin_iff _ (_ : Fin 4)]
  simp [fld_12_12, fld_17_7]
  tauto

theorem dV3_ok_iff (mk : Reg → Reg → Reg → Bool → Bool → Instr) :
    dV3 w mk = .ok i ↔ ∃ d a b y x, mk d a b y x = i ∧ w = packRR M f (bit y) (bit x) b a d := by
  simp only [dV3, eq_packRR_iff hw hm hf, bit_lt, Fin.is_lt, eq_bit_iff, eq_reg_iff]
  simp [-Bool.exists_bool]

theorem dV3n_ok_iff (mk : Reg → Reg → Reg → Bool → Instr) :
    dV3n w mk = .ok i ↔ ∃ d a b x, mk d a b x = i ∧ w = packRR M f 0 (bit x) b a d := by
  simp only [dV3n, eq_packRR_iff hw hm hf, bit_lt, Fin.is_lt, Nat.ofNat_pos, eq_bit_iff, eq_reg_iff]
  simp [-Bool.exists_bool]
  tauto

theorem dV2_ok_iff (mk : Reg → Reg → Bool → Instr) :
    dV2 w mk = .ok i ↔ ∃ d a x, mk d a x = i ∧ w = packRR M f 0 (bit x) 0 a d := dRR2_ok_iff hw hm hf mk

theorem dVred_ok_iff (mk : Reg → Reg → Fin 4 → Bool → Instr) :
    dVred w mk = .ok i ↔ ∃ d a k x, mk d a k x = i ∧ w = packRR M f 1 (bit x) k a d := by
  simp only [dVred, eq_packRR_iff hw hm hf, bit_lt, Fin.is_lt, val_lt, Nat.reduceLeDiff, Nat.one_lt_ofNat,
    eq_bit_iff, eq_reg_iff, eq_fin_iff _ (_ : Fin 4)]
  simp [-Bool.exists_bool]
  tauto

theorem dVacc_ok_iff (mk : Reg → Fin 4 → Bool → Instr) :
    dVacc w mk = .ok i ↔ ∃ d k x, mk d k x = i ∧ w = packRR M f 1 (bit x) k 0 d := by
  simp only [dVacc, eq_packRR_iff hw hm hf, bit_lt, Fin.is_lt, val_lt, Nat.reduceLeDiff, Nat.ofNat_pos, Nat.one_lt_ofNat,
    eq_bit_iff, eq_reg_iff, eq_fin_iff _ (_ : Fin 4)]
  simp [-Bool.exists_bool]
  tauto

theorem dVfill_ok_iff (mk : Reg → Reg → Bool → Instr) :
    dVfill w mk = .ok i ↔ ∃ d b x, mk d b x = i ∧ w = packRR M f 1 (bit x) b 0 d := by
  simp only [dVfill, eq_packRR_iff hw hm hf, bit_lt, Fin.is_lt, Nat.ofNat_pos, Nat.one_lt_ofNat, eq_bit_iff, eq_reg_iff]
  simp [-Bool.exists_bool]
  tauto

end

/-! ### Forms RI, U, J, B, M and S -/

section
variable (hw : IsWord w) (hm : fld w 1 6 = M)
include hw hm

theorem dRI_ok_iff (mk : Reg → Reg → Bool → BitVec 14 → Instr) :
    dRI w mk = .ok i ↔ ∃ d a x k, mk d a x k = i ∧ w = packRI M k.toNat (bit x) a d := by
  simp only [dRI, eq_packRI_iff hw hm, BitVec.isLt, bit_lt, Fin.is_lt, eq_bit_iff, eq_reg_iff, eq_toNat_iff]
  simp [-Bool.exists_bool]

theorem dSh_ok_iff {g k : Nat} (hk : fld w 30 2 = k) (hg : g = 4096 * k) (mk : Reg → Reg → Bool → BitVec 6 → Instr) :
    dSh w mk = .ok i ↔ ∃ d a x v, mk d a x v = i ∧ w = packRI M (v.toNat + g) (bit x) a d := by
  have hlt (v : BitVec 6) : v.toNat + g < 2 ^ 14 := by
    have := v.isLt
    have : fld w 30 2 < 2 ^ 2 := fld_lt w 30 2
    omega
  simp only [dSh, eq_packRI_iff hw hm, hlt, bit_lt, Fin.is_lt, eq_bit_iff, eq_reg_iff, imm_shift_iff hk hg]
  simp [-Bool.exists_bool]
  tauto

theorem dPref_ok_iff (hk : fld w 29 3 = 0) (mk : Fin 3 → Reg → Bool → Instr) :
    dPref w mk = .ok i ↔ ∃ l a x, mk l a x = i ∧ w = packRI M (256 * l.val) (bit x) a 0 := by
  have hlt (l : Fin 3) : 256 * l.val < 2 ^ 14 := by omega
  have himm (l : Fin 3) := imm_cache_iff (c := l.val) hk (mul_zero 2048).symm (by omega)
  simp only [zero_add] at himm
  simp only [dPref, eq_packRI_iff hw hm, hlt, bit_lt, Fin.is_lt, Nat.ofNat_pos,
    eq_bit_iff, eq_reg_iff, himm, eq_fin_iff _ (_ : Fin 3)]
  simp [-Bool.exists_bool]
  tauto

theorem dCop_ok_iff {g k : Nat} (hk : fld w 29 3 = k) (hg : g = 2048 * k) (mk : Scope → Reg → Bool → Instr) :
    dCop w mk = .ok i ↔ ∃ sc a x, mk sc a x = i ∧ w = packRI M (g + 256 * sc.code) (bit x) a 0 := by
  have hlt (sc : Scope) : g + 256 * sc.code < 2 ^ 14 := by
    have := code_lt sc
    have : fld w 29 3 < 2 ^ 3 := fld_lt w 29 3
    omega
  simp only [dCop, eq_packRI_iff hw hm, hlt, bit_lt, Fin.is_lt, Nat.ofNat_pos, eq_bit_iff, eq_reg_iff,
    imm_cache_iff hk hg (code_lt _), eq_code_iff]
  cases scopeOf (fld w 26 3)
  · simp
  · simp [-Bool.exists_bool]
    tauto

theorem decMFC_ok_iff : decMFC w = .ok i ↔ ∃ d n, .mfc d n = i ∧ w = packRI M n.toNat 0 0 d := by
  simp only [decMFC, eq_packRI_iff hw hm, toNat_lt, Nat.reduceLeDiff, Fin.is_lt, Nat.ofNat_pos, eq_reg_iff, imm_control_iff]
  have : fld w 12 6 = 0 ↔ fld w 12 5 = 0 ∧ fld w 17 1 = 0 := by unfold fld; omega
  simp [this]
  tauto

theorem decMTC_ok_iff : decMTC w = .ok i ↔ ∃ n a x, .mtc n a x = i ∧ w = packRI M n.toNat (bit x) a 0 := by
  simp only [decMTC, eq_packRI_iff hw hm, toNat_lt, Nat.reduceLeDiff, bit_lt, Fin.is_lt, Nat.ofNat_pos,
    eq_bit_iff, eq_reg_iff, imm_control_iff]
  simp [-Bool.exists_bool]
  tauto

theorem dU_ok_iff (mk : Reg → BitVec 20 → Instr) : dU w mk = .ok i ↔ ∃ d k, mk d k = i ∧ w = packU M k.toNat d := by
  simp only [dU, eq_packU_iff hw hm, BitVec.isLt, Fin.is_lt, eq_reg_iff, eq_toNat_iff]
  simp

theorem dJ_ok_iff (mk : Reg → BitVec 20 → Instr) : dJ w mk = .ok i ↔ ∃ d k, mk d k = i ∧ w = packU M k.toNat d :=
  dU_ok_iff hw hm mk

theorem dBr_ok_iff (hf : fld w 18 2 = f) (mk : Reg → Reg → Bool → BitVec 12 → Instr) :
    dBr w mk = .ok i ↔ ∃ a b x k, mk a b x k = i ∧ w = packB M k.toNat f (bit x) b a := by
  simp only [dBr, eq_packB_iff hw hm hf, BitVec.isLt, bit_lt, Fin.is_lt, eq_bit_iff, eq_reg_iff, eq_toNat_iff]
  simp [-Bool.exists_bool]

theorem dBbit_ok_iff (hf : fld w 18 2 = f) (mk : Reg → Fin 32 → Bool → BitVec 12 → Instr) :
    dBbit w mk = .ok i ↔ ∃ a b x k, mk a b x k = i ∧ w = packB M k.toNat f (bit x) b a := dBr_ok_iff hw hm hf mk

theorem dLd_ok_iff (hf : fld w 18 3 = f) (mk : Reg → Reg → Bool → BitVec 11 → Instr) :
    dLd w mk = .ok i ↔ ∃ d a x k, mk d a x k = i ∧ w = packM M k.toNat f (bit x) a d := by
  simp only [dLd, eq_packM_iff hw hm hf, BitVec.isLt, bit_lt, Fin.is_lt, eq_bit_iff, eq_reg_iff, eq_toNat_iff]
  simp [-Bool.exists_bool]

theorem dSt_ok_iff (hf : fld w 18 3 = f) (mk : Reg → Reg → Bool → BitVec 11 → Instr) :
    dSt w mk = .ok i ↔ ∃ d a x k, mk d a x k = i ∧ w = packM M k.toNat f (bit x) a d := dLd_ok_iff hw hm hf mk

end

/-! ### Forms A, SYNC and T -/

section
variable (hw : IsWord w) (hm : fld w 1 6 = M) (hf : fld w 27 5 = f)
include hw hm hf

theorem dAmo_ok_iff (mk : Reg → Reg → Reg → Bool → Bool → Scope → Instr) : dAmo w mk = .ok i ↔
    ∃ d a b x z sc, mk d a b x z sc = i ∧ w = packA M f (bit z) sc.code (bit x) b a d := by
  simp only [dAmo, eq_packA_iff hw hm hf, bit_lt, code_lt, Fin.is_lt, eq_bit_iff, eq_reg_iff, eq_code_iff]
  cases scopeOf (fld w 23 3)
  · simp
  · simp [-Bool.exists_bool]

theorem dAmoF_ok_iff (mk : Reg → Reg → Reg → Bool → Scope → Instr) : dAmoF w mk = .ok i ↔
    ∃ d a b x sc, mk d a b x sc = i ∧ w = packA M f 0 sc.code (bit x) b a d := by
  simp only [dAmoF, eq_packA_iff hw hm hf, bit_lt, code_lt, Fin.is_lt, Nat.ofNat_pos, eq_bit_iff, eq_reg_iff, eq_code_iff]
  have hbit : fld w 26 1 < 2 := fld_lt w 26 1
  rcases (by omega : fld w 26 1 = 0 ∨ fld w 26 1 = 1) with hz | hz
  · cases scopeOf (fld w 23 3)
    · simp [hz]
    · simp [-Bool.exists_bool, hz]
  · simp [hz]

theorem dRed_ok_iff (mk : Reg → Reg → Bool → Bool → Bool → Scope → Instr) : dRed w mk = .ok i ↔
    ∃ a b x z o sc, mk a b x z o sc = i ∧ w = packA M f (bit z) sc.code (bit x) b a (bit o) := by
  simp only [dRed, eq_packA_iff hw hm hf, bit_lt, bit_lt_32, code_lt, Fin.is_lt, eq_ord_iff, eq_bit_iff, eq_reg_iff, eq_code_iff]
  cases scopeOf (fld w 23 3)
  · simp
  · simp [-Bool.exists_bool]
    tauto

theorem dRedF_ok_iff (mk : Reg → Reg → Bool → Bool → Scope → Instr) : dRedF w mk = .ok i ↔
    ∃ a b x o sc, mk a b x o sc = i ∧ w = packA M f 0 sc.code (bit x) b a (bit o) := by
  simp only [dRedF, eq_packA_iff hw hm hf, bit_lt, bit_lt_32, code_lt, Fin.is_lt, Nat.ofNat_pos, eq_ord_iff,
    eq_bit_iff, eq_reg_iff, eq_code_iff]
  have hz : fld w 26 1 < 2 := fld_lt w 26 1
  rcases (by omega : fld w 26 1 = 0 ∨ fld w 26 1 = 1) with hz | hz
  · cases scopeOf (fld w 23 3)
    · simp [hz]
    · simp [-Bool.exists_bool, hz]
      tauto
  · simp [hz]

end

section
variable (hw : IsWord w) (hm : fld w 1 6 = 22) (hf : fld w 26 6 = f)
include hw hm hf

theorem dSync1_ok_iff (mk : Scope → Reg → Bool → Instr) :
    dSync1 w mk = .ok i ↔ ∃ sc a x, mk sc a x = i ∧ w = packSync f sc.code (bit x) 0 a 0 := by
  simp only [dSync1, eq_packSync_iff hw hm hf, bit_lt, code_lt, Fin.is_lt, Nat.ofNat_pos, eq_bit_iff, eq_reg_iff, eq_code_iff]
  cases scopeOf (fld w 23 3)
  · simp
  · simp [-Bool.exists_bool]
    tauto

theorem dBind_ok_iff (mk : Reg → Reg → Bool → Instr) :
    dBind w mk = .ok i ↔ ∃ a b x, mk a b x = i ∧ w = packSync f 0 (bit x) b a 0 := by
  simp only [dBind, eq_packSync_iff hw hm hf, bit_lt, Fin.is_lt, Nat.ofNat_pos, eq_bit_iff, eq_reg_iff]
  simp [-Bool.exists_bool]
  tauto

theorem dUnbind_ok_iff (mk : Reg → Bool → Instr) :
    dUnbind w mk = .ok i ↔ ∃ a x, mk a x = i ∧ w = packSync f 0 (bit x) 0 a 0 := by
  simp only [dUnbind, eq_packSync_iff hw hm hf, bit_lt, Fin.is_lt, Nat.ofNat_pos, eq_bit_iff, eq_reg_iff]
  simp [-Bool.exists_bool]
  tauto

theorem dFence_ok_iff (mk : Scope → Instr) : dFence w mk = .ok i ↔ ∃ sc, mk sc = i ∧ w = packSync f sc.code 0 0 0 0 := by
  simp only [dFence, eq_packSync_iff hw hm hf, code_lt, Nat.ofNat_pos, eq_code_iff]
  cases scopeOf (fld w 23 3)
  · simp
  · simp [fld_7_16]
    tauto

theorem dMon_ok_iff (mk : Reg → Reg → Bool → Instr) :
    dMon w mk = .ok i ↔ ∃ d a x, mk d a x = i ∧ w = packSync f 0 (bit x) 0 a d := by
  simp only [dMon, eq_packSync_iff hw hm hf, bit_lt, Fin.is_lt, Nat.ofNat_pos, eq_bit_iff, eq_reg_iff]
  simp [-Bool.exists_bool]
  tauto

theorem dSyncNone_ok_iff (mk : Instr) : dSyncNone w mk = .ok i ↔ mk = i ∧ w = packSync f 0 0 0 0 0 := by
  simp only [dSyncNone, eq_packSync_iff hw hm hf, Nat.ofNat_pos]
  simp [fld_7_19, fld_7_16]
  tauto

end

theorem dT_ok_iff (hw : IsWord w) (hm : fld w 1 6 = 15) (hf : fld w 28 4 = f) (mk : Reg → Reg → Reg → Reg → Bool → Instr) :
    dT w mk = .ok i ↔ ∃ d a b c x, mk d a b c x = i ∧ w = packT f (bit x) c b a d := by
  simp only [dT, eq_packT_iff hw hm hf, bit_lt, Fin.is_lt, eq_bit_iff, eq_reg_iff]
  simp [-Bool.exists_bool]

end Sys2Proof.Encoding
end

section
/-!
SUPPORT. What decodes is the encoding of a well-formed instruction (R42 to R53): the decoder of each major opcode.
-/

namespace Sys2Proof.Encoding

open Sys2Proof.Laws.WordForm (bit_lt)

variable {w : Nat} {i : Instr}

/-- A word of 32 bits is the encoding of a well-formed instruction. -/
def EncodesTo (i : Instr) (w : Nat) : Prop := wellFormed i = true ∧ encode i = some (32, w)

theorem decALU_encodes (hw : IsWord w) (hm : fld w 1 6 = 0) (h : decALU w = .ok i) : EncodesTo i w := by
  unfold decALU at h
  split at h
  case h_31 => cases h
  case h_28 | h_29 =>
    obtain ⟨d, a, k, x, rfl, rfl⟩ := (dExt_ok_iff hw hm ‹_› _).mp h
    exact ⟨rfl, rfl⟩
  case h_25 | h_26 | h_27 =>
    obtain ⟨d, a, x, rfl, rfl⟩ := (dRR2_ok_iff hw hm ‹_› _).mp h
    exact ⟨rfl, rfl⟩
  all_goals
    obtain ⟨d, a, b, x, y, rfl, rfl⟩ := (dRR3_ok_iff hw hm ‹_› _).mp h
    exact ⟨rfl, rfl⟩

theorem decFP_encodes (hw : IsWord w) (hm : fld w 1 6 = 14) (h : decFP w = .ok i) : EncodesTo i w := by
  unfold decFP at h
  split at h
  case h_23 => cases h
  case h_1 | h_2 | h_3 | h_4 | h_6 | h_7 | h_10 | h_11 | h_12 | h_13 =>
    obtain ⟨d, a, b, x, y, rfl, rfl⟩ := (dRR3_ok_iff hw hm ‹_› _).mp h
    exact ⟨rfl, rfl⟩
  all_goals
    obtain ⟨d, a, x, rfl, rfl⟩ := (dRR2_ok_iff hw hm ‹_› _).mp h
    exact ⟨rfl, rfl⟩

theorem decREG_encodes (hw : IsWord w) (hm : fld w 1 6 = 23) (h : decREG w = .ok i) : EncodesTo i w := by
  unfold decREG at h
  split at h
  case h_5 => cases h
  case h_1 =>
    obtain ⟨d, a, b, x, y, rfl, rfl⟩ := (dRR3_ok_iff hw hm ‹_› _).mp h
    exact ⟨rfl, rfl⟩
  case h_4 =>
    obtain ⟨d, n, rfl, rfl⟩ := (dFetst_ok_iff hw hm ‹_› _).mp h
    exact ⟨rfl, rfl⟩
  all_goals
    obtain ⟨d, rfl, rfl⟩ := (dN_ok_iff hw hm ‹_› _).mp h
    exact ⟨rfl, rfl⟩

theorem decTASK_encodes (hw : IsWord w) (hm : fld w 1 6 = 24) (h : decTASK w = .ok i) : EncodesTo i w := by
  unfold decTASK at h
  split at h
  case h_11 => cases h
  case h_7 =>
    obtain ⟨h, a, b, x, y, hb, rfl, rfl⟩ := (dHstart_ok_iff hw hm ‹_› _).mp h
    exact ⟨by simpa [wellFormed] using hb, rfl⟩
  case h_4 | h_9 =>
    obtain ⟨a, b, x, y, rfl, rfl⟩ := (dAB_ok_iff hw hm ‹_› _).mp h
    exact ⟨rfl, rfl⟩
  case h_5 | h_6 | h_8 =>
    obtain ⟨rfl, rfl⟩ := (dNone_ok_iff hw hm ‹_› _).mp h
    exact ⟨rfl, rfl⟩
  all_goals
    obtain ⟨a, x, rfl, rfl⟩ := (dA1_ok_iff hw hm ‹_› _).mp h
    exact ⟨rfl, rfl⟩

theorem decFOLD_encodes (hw : IsWord w) (hm : fld w 1 6 = 25) (h : decFOLD w = .ok i) : EncodesTo i w := by
  unfold decFOLD at h
  split at h
  case h_9 => cases h
  case h_7 =>
    obtain ⟨d, a, x, rfl, rfl⟩ := (dRR2_ok_iff hw hm ‹_› _).mp h
    exact ⟨rfl, rfl⟩
  case h_2 | h_3 =>
    obtain ⟨d, a, b, x, y, rfl, rfl⟩ := (dRR3_ok_iff hw hm ‹_› _).mp h
    exact ⟨rfl, rfl⟩
  case h_4 | h_5 =>
    obtain ⟨d, a, x, hd, rfl, rfl⟩ := (dDA_ok_iff hw hm ‹_› _).mp h
    exact ⟨by simpa [wellFormed] using hd, rfl⟩
  all_goals
    obtain ⟨a, b, x, y, rfl, rfl⟩ := (dAB_ok_iff hw hm ‹_› _).mp h
    exact ⟨rfl, rfl⟩

theorem decMSG_encodes (hw : IsWord w) (hm : fld w 1 6 = 26) (h : decMSG w = .ok i) : EncodesTo i w := by
  unfold decMSG at h
  split at h
  case h_4 => cases h
  case h_2 =>
    obtain ⟨a, b, x, y, rfl, rfl⟩ := (dAB_ok_iff hw hm ‹_› _).mp h
    exact ⟨rfl, rfl⟩
  all_goals
    obtain ⟨d, a, b, x, y, rfl, rfl⟩ := (dRR3_ok_iff hw hm ‹_› _).mp h
    exact ⟨rfl, rfl⟩

theorem decCOPY_encodes (hw : IsWord w) (hm : fld w 1 6 = 27) (h : decCOPY w = .ok i) : EncodesTo i w := by
  unfold decCOPY at h
  split at h
  case h_4 => cases h
  case h_1 =>
    obtain ⟨c, a, b, x, y, rfl, rfl⟩ := (dCh3_ok_iff hw hm ‹_› _).mp h
    exact ⟨rfl, rfl⟩
  case h_2 =>
    obtain ⟨c, a, x, rfl, rfl⟩ := (dCh2_ok_iff hw hm ‹_› _).mp h
    exact ⟨rfl, rfl⟩
  all_goals
    obtain ⟨c, rfl, rfl⟩ := (dCh1_ok_iff hw hm ‹_› _).mp h
    exact ⟨rfl, rfl⟩

theorem decTS_encodes (hw : IsWord w) (hm : fld w 1 6 = 28) (h : decTS w = .ok i) : EncodesTo i w := by
  unfold decTS at h
  split at h
  case h_3 => cases h
  case h_1 =>
    obtain ⟨rfl, rfl⟩ := (dNone_ok_iff hw hm ‹_› _).mp h
    exact ⟨rfl, rfl⟩
  all_goals
    obtain ⟨d, a, k, x, rfl, rfl⟩ := (dTsdim_ok_iff hw hm ‹_› _).mp h
    exact ⟨rfl, rfl⟩

theorem decMX_encodes (hw : IsWord w) (hm : fld w 1 6 = 29) (h : decMX w = .ok i) : EncodesTo i w := by
  unfold decMX at h
  split at h
  case h_8 => cases h
  case h_4 =>
    obtain ⟨c, rfl, rfl⟩ := (dCh1_ok_iff hw hm ‹_› _).mp h
    exact ⟨rfl, rfl⟩
  case h_1 | h_6 =>
    obtain ⟨a, x, rfl, rfl⟩ := (dA1_ok_iff hw hm ‹_› _).mp h
    exact ⟨rfl, rfl⟩
  all_goals
    obtain ⟨c, a, b, x, y, rfl, rfl⟩ := (dCh3_ok_iff hw hm ‹_› _).mp h
    exact ⟨rfl, rfl⟩

theorem decSYS_encodes (hw : IsWord w) (hm : fld w 1 6 = 31) (h : decSYS w = .ok i) : EncodesTo i w := by
  unfold decSYS at h
  split at h
  case h_9 => cases h
  case h_5 =>
    obtain ⟨a, b, x, y, rfl, rfl⟩ := (dAB_ok_iff hw hm ‹_› _).mp h
    exact ⟨rfl, rfl⟩
  case h_6 =>
    obtain ⟨d, rfl, rfl⟩ := (dN_ok_iff hw hm ‹_› _).mp h
    exact ⟨rfl, rfl⟩
  case h_1 | h_2 =>
    obtain ⟨a, x, rfl, rfl⟩ := (dA1_ok_iff hw hm ‹_› _).mp h
    exact ⟨rfl, rfl⟩
  all_goals
    obtain ⟨rfl, rfl⟩ := (dNone_ok_iff hw hm ‹_› _).mp h
    exact ⟨rfl, rfl⟩

theorem decVARITH_encodes (hw : IsWord w) (hm : fld w 1 6 = 32) (h : decVARITH w = .ok i) : EncodesTo i w := by
  unfold decVARITH at h
  split at h
  case h_15 => cases h
  case h_8 | h_9 | h_10 | h_11 | h_12 | h_13 =>
    obtain ⟨d, a, x, rfl, rfl⟩ := (dV2_ok_iff hw hm ‹_› _).mp h
    exact ⟨rfl, rfl⟩
  all_goals
    obtain ⟨d, a, b, y, x, rfl, rfl⟩ := (dV3_ok_iff hw hm ‹_› _).mp h
    exact ⟨rfl, rfl⟩

theorem decVBIT_encodes (hw : IsWord w) (hm : fld w 1 6 = 33) (h : decVBIT w = .ok i) : EncodesTo i w := by
  unfold decVBIT at h
  split at h
  case h_11 => cases h
  case h_10 =>
    obtain ⟨d, a, x, rfl, rfl⟩ := (dV2_ok_iff hw hm ‹_› _).mp h
    exact ⟨rfl, rfl⟩
  all_goals
    obtain ⟨d, a, b, y, x, rfl, rfl⟩ := (dV3_ok_iff hw hm ‹_› _).mp h
    exact ⟨rfl, rfl⟩

theorem decVCONV_encodes (hw : IsWord w) (hm : fld w 1 6 = 34) (h : decVCONV w = .ok i) : EncodesTo i w := by
  unfold decVCONV at h
  split at h
  case h_3 => cases h
  all_goals
    obtain ⟨d, a, x, rfl, rfl⟩ := (dV2_ok_iff hw hm ‹_› _).mp h
    exact ⟨rfl, rfl⟩

theorem decVRED_encodes (hw : IsWord w) (hm : fld w 1 6 = 35) (h : decVRED w = .ok i) : EncodesTo i w := by
  unfold decVRED at h
  split at h
  case h_4 => cases h
  all_goals
    obtain ⟨d, a, k, x, rfl, rfl⟩ := (dVred_ok_iff hw hm ‹_› _).mp h
    exact ⟨rfl, rfl⟩

theorem decVMEM_encodes (hw : IsWord w) (hm : fld w 1 6 = 36) (h : decVMEM w = .ok i) : EncodesTo i w := by
  unfold decVMEM at h
  split at h
  case h_13 => cases h
  case h_8 =>
    obtain ⟨d, a, x, rfl, rfl⟩ := (dV2_ok_iff hw hm ‹_› _).mp h
    exact ⟨rfl, rfl⟩
  case h_9 | h_12 =>
    obtain ⟨d, k, x, rfl, rfl⟩ := (dVacc_ok_iff hw hm ‹_› _).mp h
    exact ⟨rfl, rfl⟩
  case h_10 | h_11 =>
    obtain ⟨d, b, x, rfl, rfl⟩ := (dVfill_ok_iff hw hm ‹_› _).mp h
    exact ⟨rfl, rfl⟩
  all_goals
    obtain ⟨d, a, b, x, rfl, rfl⟩ := (dV3n_ok_iff hw hm ‹_› _).mp h
    exact ⟨rfl, rfl⟩

theorem decFMA_encodes (hw : IsWord w) (hm : fld w 1 6 = 15) (h : decFMA w = .ok i) : EncodesTo i w := by
  unfold decFMA at h
  split at h
  case h_5 => cases h
  all_goals
    obtain ⟨d, a, b, c, x, rfl, rfl⟩ := (dT_ok_iff hw hm ‹_› _).mp h
    exact ⟨rfl, rfl⟩

theorem decBR1_encodes (hw : IsWord w) (hm : fld w 1 6 = 10) (h : decBR1 w = .ok i) : EncodesTo i w := by
  unfold decBR1 at h
  split at h
  case h_5 => cases h
  all_goals
    obtain ⟨a, b, x, k, rfl, rfl⟩ := (dBr_ok_iff hw hm ‹_› _).mp h
    exact ⟨rfl, rfl⟩

theorem decBR2_encodes (hw : IsWord w) (hm : fld w 1 6 = 11) (h : decBR2 w = .ok i) : EncodesTo i w := by
  unfold decBR2 at h
  split at h
  case h_5 => cases h
  case h_1 | h_2 =>
    obtain ⟨a, b, x, k, rfl, rfl⟩ := (dBr_ok_iff hw hm ‹_› _).mp h
    exact ⟨rfl, rfl⟩
  all_goals
    obtain ⟨a, b, x, k, rfl, rfl⟩ := (dBbit_ok_iff hw hm ‹_› _).mp h
    exact ⟨rfl, rfl⟩

theorem decLD_encodes (hw : IsWord w) (hm : fld w 1 6 = 16) (h : decLD w = .ok i) : EncodesTo i w := by
  unfold decLD at h
  split at h
  case h_8 => cases h
  all_goals
    obtain ⟨d, a, x, k, rfl, rfl⟩ := (dLd_ok_iff hw hm ‹_› _).mp h
    exact ⟨rfl, rfl⟩

theorem decST_encodes (hw : IsWord w) (hm : fld w 1 6 = 17) (h : decST w = .ok i) : EncodesTo i w := by
  unfold decST at h
  split at h
  case h_5 => cases h
  all_goals
    obtain ⟨d, a, x, k, rfl, rfl⟩ := (dSt_ok_iff hw hm ‹_› _).mp h
    exact ⟨rfl, rfl⟩

theorem decAMO_encodes (hw : IsWord w) (hm : fld w 1 6 = 19) (h : decAMO w = .ok i) : EncodesTo i w := by
  unfold decAMO at h
  split at h
  case h_14 => cases h
  case h_10 | h_11 | h_12 | h_13 =>
    obtain ⟨d, a, b, x, sc, rfl, rfl⟩ := (dAmoF_ok_iff hw hm ‹_› _).mp h
    exact ⟨rfl, rfl⟩
  all_goals
    obtain ⟨d, a, b, x, z, sc, rfl, rfl⟩ := (dAmo_ok_iff hw hm ‹_› _).mp h
    exact ⟨rfl, rfl⟩

theorem decCAS_encodes (hw : IsWord w) (hm : fld w 1 6 = 20) (h : decCAS w = .ok i) : EncodesTo i w := by
  unfold decCAS at h
  split at h
  case h_2 => cases h
  all_goals
    obtain ⟨d, a, b, x, z, sc, rfl, rfl⟩ := (dAmo_ok_iff hw hm ‹_› _).mp h
    exact ⟨rfl, rfl⟩

theorem decRED_encodes (hw : IsWord w) (hm : fld w 1 6 = 21) (h : decRED w = .ok i) : EncodesTo i w := by
  unfold decRED at h
  split at h
  case h_13 => cases h
  case h_9 | h_10 | h_11 | h_12 =>
    obtain ⟨a, b, x, o, sc, rfl, rfl⟩ := (dRedF_ok_iff hw hm ‹_› _).mp h
    exact ⟨rfl, rfl⟩
  all_goals
    obtain ⟨a, b, x, z, o, sc, rfl, rfl⟩ := (dRed_ok_iff hw hm ‹_› _).mp h
    exact ⟨rfl, rfl⟩

theorem decSYNC_encodes (hw : IsWord w) (hm : fld w 1 6 = 22) (h : decSYNC w = .ok i) : EncodesTo i w := by
  unfold decSYNC at h
  split at h
  case h_8 => cases h
  case h_3 =>
    obtain ⟨a, b, x, rfl, rfl⟩ := (dBind_ok_iff hw hm ‹_› _).mp h
    exact ⟨rfl, rfl⟩
  case h_4 =>
    obtain ⟨a, x, rfl, rfl⟩ := (dUnbind_ok_iff hw hm ‹_› _).mp h
    exact ⟨rfl, rfl⟩
  case h_5 =>
    obtain ⟨sc, rfl, rfl⟩ := (dFence_ok_iff hw hm ‹_› _).mp h
    exact ⟨rfl, rfl⟩
  case h_6 =>
    obtain ⟨d, a, x, rfl, rfl⟩ := (dMon_ok_iff hw hm ‹_› _).mp h
    exact ⟨rfl, rfl⟩
  case h_7 =>
    obtain ⟨rfl, rfl⟩ := (dSyncNone_ok_iff hw hm ‹_› _).mp h
    exact ⟨rfl, rfl⟩
  all_goals
    obtain ⟨sc, a, x, rfl, rfl⟩ := (dSync1_ok_iff hw hm ‹_› _).mp h
    exact ⟨rfl, rfl⟩

theorem decSHI_encodes (hw : IsWord w) (hm : fld w 1 6 = 5) (h : decSHI w = .ok i) : EncodesTo i w := by
  unfold decSHI at h
  split at h
  case h_5 => cases h
  case h_1 | h_2 | h_3 | h_4 =>
    obtain ⟨d, a, x, v, rfl, rfl⟩ := (dSh_ok_iff hw hm ‹_› rfl _).mp h
    exact ⟨rfl, rfl⟩

theorem decCACHE_encodes (hw : IsWord w) (hm : fld w 1 6 = 18) (h : decCACHE w = .ok i) : EncodesTo i w := by
  unfold decCACHE at h
  split at h
  case h_1 =>
    obtain ⟨l, a, x, rfl, rfl⟩ := (dPref_ok_iff hw hm ‹_› _).mp h
    exact ⟨rfl, rfl⟩
  case h_4 => cases h
  case h_2 | h_3 =>
    obtain ⟨sc, a, x, rfl, rfl⟩ := (dCop_ok_iff hw hm ‹_› rfl _).mp h
    exact ⟨rfl, rfl⟩

theorem fmtp_encodes (hw : IsWord w) (hm : fld w 1 6 = 30) : EncodesTo (.fmtp (BitVec.ofNat 25 (fld w 7 25))) w := by
  refine ⟨rfl, congrArg (fun v => some (32, v)) ?_⟩
  obtain ⟨hodd, hlt⟩ := hw
  simp only [BitVec.toNat_ofNat]
  unfold fld at *
  omega

/-- A word that decodes is the encoding of what it decodes to, which is well-formed. -/
theorem decode32_encodes (hw : IsWord w) (h : decode32 w = .ok i) : EncodesTo i w := by
  unfold decode32 at h
  split at h
  case h_1 hm => exact decALU_encodes hw hm h
  case h_6 hm => exact decSHI_encodes hw hm h
  case h_9 | h_10 =>
    obtain ⟨d, k, rfl, rfl⟩ := (dU_ok_iff hw ‹_› _).mp h
    exact ⟨rfl, rfl⟩
  case h_11 hm => exact decBR1_encodes hw hm h
  case h_12 hm => exact decBR2_encodes hw hm h
  case h_13 hm =>
    obtain ⟨d, k, rfl, rfl⟩ := (dJ_ok_iff hw hm _).mp h
    exact ⟨rfl, rfl⟩
  case h_15 hm => exact decFP_encodes hw hm h
  case h_16 hm => exact decFMA_encodes hw hm h
  case h_17 hm => exact decLD_encodes hw hm h
  case h_18 hm => exact decST_encodes hw hm h
  case h_19 hm => exact decCACHE_encodes hw hm h
  case h_20 hm => exact decAMO_encodes hw hm h
  case h_21 hm => exact decCAS_encodes hw hm h
  case h_22 hm => exact decRED_encodes hw hm h
  case h_23 hm => exact decSYNC_encodes hw hm h
  case h_24 hm => exact decREG_encodes hw hm h
  case h_25 hm => exact decTASK_encodes hw hm h
  case h_26 hm => exact decFOLD_encodes hw hm h
  case h_27 hm => exact decMSG_encodes hw hm h
  case h_28 hm => exact decCOPY_encodes hw hm h
  case h_29 hm => exact decTS_encodes hw hm h
  case h_30 hm => exact decMX_encodes hw hm h
  case h_31 hm => cases h; exact fmtp_encodes hw hm
  case h_32 hm => exact decSYS_encodes hw hm h
  case h_33 hm => exact decVARITH_encodes hw hm h
  case h_34 hm => exact decVBIT_encodes hw hm h
  case h_35 hm => exact decVCONV_encodes hw hm h
  case h_36 hm => exact decVRED_encodes hw hm h
  case h_37 hm => exact decVMEM_encodes hw hm h
  case h_38 hm =>
    obtain ⟨d, n, rfl, rfl⟩ := (decMFC_ok_iff hw hm).mp h
    exact ⟨rfl, rfl⟩
  case h_39 hm =>
    obtain ⟨n, a, x, rfl, rfl⟩ := (decMTC_ok_iff hw hm).mp h
    exact ⟨rfl, rfl⟩
  case h_40 => cases h
  case h_2 | h_3 | h_4 | h_5 | h_7 | h_8 | h_14 =>
    obtain ⟨d, a, x, k, rfl, rfl⟩ := (dRI_ok_iff hw ‹_› _).mp h
    exact ⟨rfl, rfl⟩

theorem eq_packC {x : Bool} {f b d : Nat} (heven : w % 2 = 0) (hlt : w < 2 ^ 16) (hf : fld w 1 4 = f) (hb : fld w 10 5 = b)
    (hd : fld w 5 5 = d) (hx : fld w 15 1 = bit x) : w = packC f (bit x) b d := by
  unfold fld at *
  unfold packC
  omega

/-- Every halfword is the encoding of what it decodes to, which is well-formed (R44). -/
theorem decode16_encodes (heven : w % 2 = 0) (hlt : w < 2 ^ 16) :
    wellFormed (decode16 w) = true ∧ encode (decode16 w) = some (16, w) := by
  have hx := (eq_bit_iff w 15 _).mpr rfl
  have hd := (rfld_val w 5).symm
  have hb := (rfld_val w 10).symm
  have hf := fld_lt w 1 4
  have hpack {f : Nat} (hf : fld w 1 4 = f) := congrArg (fun v => some (16, v)) (eq_packC heven hlt hf hb hd hx).symm
  unfold decode16
  dsimp only
  split
  case h_10 hf =>
    have himm := (eq_toNat_iff w 10 (BitVec.ofNat 5 (fld w 10 5))).mpr rfl
    exact ⟨rfl, congrArg (fun v => some (16, v)) (eq_packC heven hlt hf himm hd hx).symm⟩
  case h_16 =>
    exact ⟨rfl, hpack (f := 15) (by simp only [imp_false] at *; omega)⟩
  all_goals exact ⟨rfl, hpack ‹_›⟩

end Sys2Proof.Encoding
end

section
/-!
SUPPORT. The encoding of every instruction decodes to it (R42 to R53), form by form.
-/

namespace Sys2Proof.Encoding

open Sys2Proof.Laws.WordForm (bit_lt)

variable {i : Instr} {M f y x b a d k s z c : Nat}

/-- The encoding of an instruction, where it has one, decodes to it: a word of 32 bits or a halfword. -/
def Decodes (i : Instr) : Prop :=
  ∀ n w, encode i = some (n, w) → (n = 32 ∧ IsWord w ∧ decode32 w = .ok i) ∨ (n = 16 ∧ w % 2 = 0 ∧ w < 2 ^ 16 ∧ decode16 w = i)

theorem decodes_of_none (h : encode i = none) : Decodes i := fun n w e => by rw [h] at e; cases e

theorem decodes_of_word {v : Nat} (henc : encode i = some (32, v)) (hform : Laws.WordForm.Statement i)
    (h : IsWord v → decode32 v = .ok i) : Decodes i := by
  intro n w e
  rw [henc] at e
  cases e
  rcases hform 32 v henc with ⟨h16, -⟩ | ⟨-, hodd, hlt⟩
  · cases h16
  · exact .inl ⟨rfl, ⟨hodd, hlt⟩, h ⟨hodd, hlt⟩⟩

theorem decodes_RR (henc : encode i = some (32, packRR M f y x b a d))
    (hlt : M < 63 ∧ f < 256 ∧ y < 2 ∧ x < 2 ∧ b < 32 ∧ a < 32 ∧ d < 32)
    (h : ∀ w, IsWord w → fld w 1 6 = M → fld w 24 8 = f → w = packRR M f y x b a d → decode32 w = .ok i) : Decodes i := by
  obtain ⟨hM, hf, hy, hx, hb, ha, hd⟩ := hlt
  exact decodes_of_word henc (Laws.WordForm.rr henc hM hf hy hx hb ha hd) fun hw =>
    h _ hw (by unfold fld packRR; omega) (by unfold fld packRR; omega) rfl

theorem decodes_Sync (henc : encode i = some (32, packSync f s x b a d))
    (hlt : f < 64 ∧ s < 8 ∧ x < 2 ∧ b < 32 ∧ a < 32 ∧ d < 32)
    (h : ∀ w, IsWord w → fld w 1 6 = 22 → fld w 26 6 = f → w = packSync f s x b a d → decode32 w = .ok i) : Decodes i := by
  obtain ⟨hf, hs, hx, hb, ha, hd⟩ := hlt
  exact decodes_of_word henc (Laws.WordForm.sync henc hf hs hx hb ha hd) fun hw =>
    h _ hw (by unfold fld packSync; omega) (by unfold fld packSync; omega) rfl

theorem decodes_RI (henc : encode i = some (32, packRI M k x a d)) (hlt : M < 63 ∧ k < 2 ^ 14 ∧ x < 2 ∧ a < 32 ∧ d < 32)
    (h : ∀ w, IsWord w → fld w 1 6 = M → fld w 18 14 = k → w = packRI M k x a d → decode32 w = .ok i) : Decodes i := by
  obtain ⟨hM, hk, hx, ha, hd⟩ := hlt
  exact decodes_of_word henc (Laws.WordForm.ri henc hM hk hx ha hd) fun hw =>
    h _ hw (by unfold fld packRI; omega) (by unfold fld packRI; omega) rfl

theorem decodes_U (henc : encode i = some (32, packU M k d)) (hlt : M < 63 ∧ k < 2 ^ 20 ∧ d < 32)
    (h : ∀ w, IsWord w → fld w 1 6 = M → w = packU M k d → decode32 w = .ok i) : Decodes i := by
  obtain ⟨hM, hk, hd⟩ := hlt
  exact decodes_of_word henc (Laws.WordForm.u henc hM hk hd) fun hw => h _ hw (by unfold fld packU; omega) rfl

theorem decodes_B (henc : encode i = some (32, packB M k f x b a)) (hlt : M < 63 ∧ k < 2 ^ 12 ∧ f < 4 ∧ x < 2 ∧ b < 32 ∧ a < 32)
    (h : ∀ w, IsWord w → fld w 1 6 = M → fld w 18 2 = f → w = packB M k f x b a → decode32 w = .ok i) : Decodes i := by
  obtain ⟨hM, hk, hf, hx, hb, ha⟩ := hlt
  exact decodes_of_word henc (Laws.WordForm.br henc hM hk hf hx hb ha) fun hw =>
    h _ hw (by unfold fld packB; omega) (by unfold fld packB; omega) rfl

theorem decodes_M (henc : encode i = some (32, packM M k f x a d)) (hlt : M < 63 ∧ k < 2 ^ 11 ∧ f < 8 ∧ x < 2 ∧ a < 32 ∧ d < 32)
    (h : ∀ w, IsWord w → fld w 1 6 = M → fld w 18 3 = f → w = packM M k f x a d → decode32 w = .ok i) : Decodes i := by
  obtain ⟨hM, hk, hf, hx, ha, hd⟩ := hlt
  exact decodes_of_word henc (Laws.WordForm.mem henc hM hk hf hx ha hd) fun hw =>
    h _ hw (by unfold fld packM; omega) (by unfold fld packM; omega) rfl

theorem decodes_A (henc : encode i = some (32, packA M f z s x b a d))
    (hlt : M < 63 ∧ f < 32 ∧ z < 2 ∧ s < 8 ∧ x < 2 ∧ b < 32 ∧ a < 32 ∧ d < 32)
    (h : ∀ w, IsWord w → fld w 1 6 = M → fld w 27 5 = f → w = packA M f z s x b a d → decode32 w = .ok i) : Decodes i := by
  obtain ⟨hM, hf, hz, hs, hx, hb, ha, hd⟩ := hlt
  exact decodes_of_word henc (Laws.WordForm.amo henc hM hf hz hs hx hb ha hd) fun hw =>
    h _ hw (by unfold fld packA; omega) (by unfold fld packA; omega) rfl

theorem decodes_T (henc : encode i = some (32, packT f x c b a d)) (hlt : f < 16 ∧ x < 2 ∧ c < 32 ∧ b < 32 ∧ a < 32 ∧ d < 32)
    (h : ∀ w, IsWord w → fld w 1 6 = 15 → fld w 28 4 = f → w = packT f x c b a d → decode32 w = .ok i) : Decodes i := by
  obtain ⟨hf, hx, hc, hb, ha, hd⟩ := hlt
  exact decodes_of_word henc (Laws.WordForm.tensor henc hf hx hc hb ha hd) fun hw =>
    h _ hw (by unfold fld packT; omega) (by unfold fld packT; omega) rfl

theorem decodes_C (henc : encode i = some (16, packC f x b d)) (hlt : f < 16 ∧ x < 2 ∧ b < 32 ∧ d < 32)
    (h : ∀ w, fld w 1 4 = f → fld w 15 1 = x → fld w 10 5 = b → fld w 5 5 = d → decode16 w = i) : Decodes i := by
  intro n w e
  obtain ⟨hf, hx, hb, hd⟩ := hlt
  rcases Laws.WordForm.compact henc hf hx hb hd n w e with ⟨rfl, heven, hlt⟩ | ⟨rfl, -⟩
  · rw [henc] at e
    cases e
    refine .inr ⟨rfl, heven, hlt, h _ ?_ ?_ ?_ ?_⟩ <;> unfold fld packC <;> omega
  · rw [henc] at e; cases e

/-- The operation of a shift by a constant (R78). -/
theorem decodes_shift {g : Nat} {mk : Reg → Reg → Bool → BitVec 6 → Instr} {d a : Reg} {x : Bool} {v : BitVec 6}
    (henc : encode (mk d a x v) = some (32, packRI 5 (v.toNat + g) (bit x) a d)) (hg : g = 4096 * k) (hk : k < 4)
    (h : ∀ w, fld w 30 2 = k → decSHI w = dSh w mk) : Decodes (mk d a x v) := by
  have hv := v.isLt
  refine decodes_RI henc ⟨by decide, by omega, bit_lt _, Fin.is_lt _, Fin.is_lt _⟩ fun w hw hm himm hpack => ?_
  have hop : fld w 30 2 = k := by unfold fld at *; omega
  simp only [decode32, hm, h w hop, dSh_ok_iff hw hm hop hg]
  exact ⟨_, _, _, _, rfl, hpack⟩

/-- The function of a cache operation with a scope (R51). -/
theorem decodes_cop {g : Nat} {mk : Scope → Reg → Bool → Instr} {sc : Scope} {a : Reg} {x : Bool}
    (henc : encode (mk sc a x) = some (32, packRI 18 (g + 256 * sc.code) (bit x) a 0)) (hg : g = 2048 * k) (hk : k < 8)
    (h : ∀ w, fld w 29 3 = k → decCACHE w = dCop w mk) : Decodes (mk sc a x) := by
  have hsc := code_lt sc
  refine decodes_RI henc ⟨by decide, by omega, bit_lt _, Fin.is_lt _, by decide⟩ fun w hw hm himm hpack => ?_
  have hfn : fld w 29 3 = k := by unfold fld at *; omega
  simp only [decode32, hm, h w hfn, dCop_ok_iff hw hm hfn hg]
  exact ⟨_, _, _, rfl, hpack⟩

theorem decodes_pref (l : Fin 3) (a : Reg) (x : Bool) : Decodes (.pref l a x) := by
  refine decodes_RI rfl ⟨by decide, by omega, bit_lt _, Fin.is_lt _, by decide⟩ fun w hw hm himm hpack => ?_
  have hfn : fld w 29 3 = 0 := by unfold fld at *; omega
  simp only [decode32, hm, decCACHE, hfn, dPref_ok_iff hw hm hfn]
  exact ⟨_, _, _, rfl, hpack⟩

theorem decodes_fmtp (p : BitVec 25) : Decodes (.fmtp p) := by
  have hp := p.isLt
  refine decodes_of_word rfl (Laws.WordForm.fmtp p) fun _ => ?_
  have hm : fld (1 + 2 * 30 + 128 * p.toNat) 1 6 = 30 := by unfold fld; omega
  have hv : fld (1 + 2 * 30 + 128 * p.toNat) 7 25 = p.toNat := by unfold fld; omega
  simp [decode32, hm, hv]

/-- The encoding of every well-formed instruction decodes to it. -/
theorem decodes_of_wellFormed (hwf : wellFormed i = true) : Decodes i := by
  cases i
  case add | sub | mul | mulh | mulhn | div | divn | rem | remn | and | or | xor | andn | sll | srl | sra | ror | min | max | minn |
      maxn | slt | sltn | seq | csel =>
    refine decodes_RR rfl (by simp) fun w hw hm hf h => ?_
    rw [decode32, hm, decALU, hf]
    exact (dRR3_ok_iff hw hm hf _).mpr ⟨_, _, _, _, _, rfl, h⟩
  case clz | ctz | popc =>
    refine decodes_RR rfl (by simp) fun w hw hm hf h => ?_
    rw [decode32, hm, decALU, hf]
    exact (dRR2_ok_iff hw hm hf _).mpr ⟨_, _, _, rfl, h⟩
  case sext | zext =>
    refine decodes_RR rfl (by simp; omega) fun w hw hm hf h => ?_
    rw [decode32, hm, decALU, hf]
    exact (dExt_ok_iff hw hm hf _).mpr ⟨_, _, _, _, rfl, h⟩
  case addi | andi | ori | xori | slti | sltni | jalr =>
    refine decodes_RI rfl (by simp; omega) fun w hw hm _ h => ?_
    rw [decode32, hm]
    exact (dRI_ok_iff hw hm _).mpr ⟨_, _, _, _, rfl, h⟩
  case hi | pcrel =>
    refine decodes_U rfl (by simp; omega) fun w hw hm h => ?_
    rw [decode32, hm]
    exact (dU_ok_iff hw hm _).mpr ⟨_, _, rfl, h⟩
  case beq | bne | blt | bge =>
    refine decodes_B rfl (by simp; omega) fun w hw hm hf h => ?_
    rw [decode32, hm, decBR1, hf]
    exact (dBr_ok_iff hw hm hf _).mpr ⟨_, _, _, _, rfl, h⟩
  case bltn | bgen =>
    refine decodes_B rfl (by simp; omega) fun w hw hm hf h => ?_
    rw [decode32, hm, decBR2, hf]
    exact (dBr_ok_iff hw hm hf _).mpr ⟨_, _, _, _, rfl, h⟩
  case bbs | bbc =>
    refine decodes_B rfl (by simp; omega) fun w hw hm hf h => ?_
    rw [decode32, hm, decBR2, hf]
    exact (dBbit_ok_iff hw hm hf _).mpr ⟨_, _, _, _, rfl, h⟩
  case jal =>
    refine decodes_U rfl (by simp; omega) fun w hw hm h => ?_
    rw [decode32, hm]
    exact (dJ_ok_iff hw hm _).mpr ⟨_, _, rfl, h⟩
  case fadd | fsub | fmul | fdiv | fmin | fmax | fsgnj | feq | flt | fle =>
    refine decodes_RR rfl (by simp) fun w hw hm hf h => ?_
    rw [decode32, hm, decFP, hf]
    exact (dRR3_ok_iff hw hm hf _).mpr ⟨_, _, _, _, _, rfl, h⟩
  case fsqrt | fneg | fabs | fclass | frcp | frsq | fcvtfi | fcvtif | fcvtfn | fcvtnf | fcvtbf | fcvtfb =>
    refine decodes_RR rfl (by simp) fun w hw hm hf h => ?_
    rw [decode32, hm, decFP, hf]
    exact (dRR2_ok_iff hw hm hf _).mpr ⟨_, _, _, rfl, h⟩
  case ffma | ffms | fnfma | fnfms =>
    refine decodes_T rfl (by simp) fun w hw hm hf h => ?_
    rw [decode32, hm, decFMA, hf]
    exact (dT_ok_iff hw hm hf _).mpr ⟨_, _, _, _, _, rfl, h⟩
  case ldB | ldH | ldW | ldD | ldBn | ldHn | ldWn =>
    refine decodes_M rfl (by simp; omega) fun w hw hm hf h => ?_
    rw [decode32, hm, decLD, hf]
    exact (dLd_ok_iff hw hm hf _).mpr ⟨_, _, _, _, rfl, h⟩
  case stB | stH | stW | stD =>
    refine decodes_M rfl (by simp; omega) fun w hw hm hf h => ?_
    rw [decode32, hm, decST, hf]
    exact (dSt_ok_iff hw hm hf _).mpr ⟨_, _, _, _, rfl, h⟩
  case amoAdd | amoAnd | amoOr | amoXor | amoMin | amoMax | amoMinn | amoMaxn | amoSwap =>
    refine decodes_A rfl (by simp) fun w hw hm hf h => ?_
    rw [decode32, hm, decAMO, hf]
    exact (dAmo_ok_iff hw hm hf _).mpr ⟨_, _, _, _, _, _, rfl, h⟩
  case amoFadd | amoFmin | amoFmax | amoBadd =>
    refine decodes_A rfl (by simp) fun w hw hm hf h => ?_
    rw [decode32, hm, decAMO, hf]
    exact (dAmoF_ok_iff hw hm hf _).mpr ⟨_, _, _, _, _, rfl, h⟩
  case cas =>
    refine decodes_A rfl (by simp) fun w hw hm hf h => ?_
    rw [decode32, hm, decCAS, hf]
    exact (dAmo_ok_iff hw hm hf _).mpr ⟨_, _, _, _, _, _, rfl, h⟩
  case redAdd | redAnd | redOr | redXor | redMin | redMax | redMinn | redMaxn =>
    refine decodes_A rfl (by simp) fun w hw hm hf h => ?_
    rw [decode32, hm, decRED, hf]
    exact (dRed_ok_iff hw hm hf _).mpr ⟨_, _, _, _, _, _, rfl, h⟩
  case redFadd | redFmin | redFmax | redBadd =>
    refine decodes_A rfl (by simp) fun w hw hm hf h => ?_
    rw [decode32, hm, decRED, hf]
    exact (dRedF_ok_iff hw hm hf _).mpr ⟨_, _, _, _, _, rfl, h⟩
  case acq | rel =>
    refine decodes_Sync rfl (by simp) fun w hw hm hf h => ?_
    rw [decode32, hm, decSYNC, hf]
    exact (dSync1_ok_iff hw hm hf _).mpr ⟨_, _, _, rfl, h⟩
  case bind =>
    refine decodes_Sync rfl (by simp) fun w hw hm hf h => ?_
    rw [decode32, hm, decSYNC, hf]
    exact (dBind_ok_iff hw hm hf _).mpr ⟨_, _, _, rfl, h⟩
  case unbind =>
    refine decodes_Sync rfl (by simp) fun w hw hm hf h => ?_
    rw [decode32, hm, decSYNC, hf]
    exact (dUnbind_ok_iff hw hm hf _).mpr ⟨_, _, rfl, h⟩
  case fence =>
    refine decodes_Sync rfl (by simp) fun w hw hm hf h => ?_
    rw [decode32, hm, decSYNC, hf]
    exact (dFence_ok_iff hw hm hf _).mpr ⟨_, rfl, h⟩
  case mon =>
    refine decodes_Sync rfl (by simp) fun w hw hm hf h => ?_
    rw [decode32, hm, decSYNC, hf]
    exact (dMon_ok_iff hw hm hf _).mpr ⟨_, _, _, rfl, h⟩
  case mwait =>
    refine decodes_Sync rfl (by simp) fun w hw hm hf h => ?_
    rw [decode32, hm, decSYNC, hf]
    exact (dSyncNone_ok_iff hw hm hf _).mpr ⟨rfl, h⟩
  case rwr =>
    refine decodes_RR rfl (by simp) fun w hw hm hf h => ?_
    rw [decode32, hm, decREG, hf]
    exact (dRR3_ok_iff hw hm hf _).mpr ⟨_, _, _, _, _, rfl, h⟩
  case feclr | feset =>
    refine decodes_RR rfl (by simp) fun w hw hm hf h => ?_
    rw [decode32, hm, decREG, hf]
    exact (dN_ok_iff hw hm hf _).mpr ⟨_, rfl, h⟩
  case fetst =>
    refine decodes_RR rfl (by simp) fun w hw hm hf h => ?_
    rw [decode32, hm, decREG, hf]
    exact (dFetst_ok_iff hw hm hf _).mpr ⟨_, _, rfl, h⟩
  case tspawn | tfork | tjoin | bar =>
    refine decodes_RR rfl (by simp) fun w hw hm hf h => ?_
    rw [decode32, hm, decTASK, hf]
    exact (dA1_ok_iff hw hm hf _).mpr ⟨_, _, rfl, h⟩
  case tdec | cwait =>
    refine decodes_RR rfl (by simp) fun w hw hm hf h => ?_
    rw [decode32, hm, decTASK, hf]
    exact (dAB_ok_iff hw hm hf _).mpr ⟨_, _, _, _, rfl, h⟩
  case tend | tyield | hend =>
    refine decodes_RR rfl (by simp) fun w hw hm hf h => ?_
    rw [decode32, hm, decTASK, hf]
    exact (dNone_ok_iff hw hm hf _).mpr ⟨rfl, h⟩
  case hstart =>
    refine decodes_RR rfl (by simp; omega) fun w hw hm hf h => ?_
    rw [decode32, hm, decTASK, hf]
    exact (dHstart_ok_iff hw hm hf _).mpr ⟨_, _, _, _, _, by simpa [wellFormed] using hwf, rfl, h⟩
  case fdecl | fthr | fquiet =>
    refine decodes_RR rfl (by simp) fun w hw hm hf h => ?_
    rw [decode32, hm, decFOLD, hf]
    exact (dAB_ok_iff hw hm hf _).mpr ⟨_, _, _, _, rfl, h⟩
  case fpost | fpostv =>
    refine decodes_RR rfl (by simp) fun w hw hm hf h => ?_
    rw [decode32, hm, decFOLD, hf]
    exact (dRR3_ok_iff hw hm hf _).mpr ⟨_, _, _, _, _, rfl, h⟩
  case fdrain | fpeek =>
    refine decodes_RR rfl (by simp) fun w hw hm hf h => ?_
    rw [decode32, hm, decFOLD, hf]
    exact (dDA_ok_iff hw hm hf _).mpr ⟨_, _, _, by simpa [wellFormed] using hwf, rfl, h⟩
  case fcount =>
    refine decodes_RR rfl (by simp) fun w hw hm hf h => ?_
    rw [decode32, hm, decFOLD, hf]
    exact (dRR2_ok_iff hw hm hf _).mpr ⟨_, _, _, rfl, h⟩
  case msend | nred =>
    refine decodes_RR rfl (by simp) fun w hw hm hf h => ?_
    rw [decode32, hm, decMSG, hf]
    exact (dRR3_ok_iff hw hm hf _).mpr ⟨_, _, _, _, _, rfl, h⟩
  case mtake =>
    refine decodes_RR rfl (by simp) fun w hw hm hf h => ?_
    rw [decode32, hm, decMSG, hf]
    exact (dAB_ok_iff hw hm hf _).mpr ⟨_, _, _, _, rfl, h⟩
  case cpy =>
    refine decodes_RR rfl (by simp; omega) fun w hw hm hf h => ?_
    rw [decode32, hm, decCOPY, hf]
    exact (dCh3_ok_iff hw hm hf _).mpr ⟨_, _, _, _, _, rfl, h⟩
  case cpyc =>
    refine decodes_RR rfl (by simp; omega) fun w hw hm hf h => ?_
    rw [decode32, hm, decCOPY, hf]
    exact (dCh2_ok_iff hw hm hf _).mpr ⟨_, _, _, rfl, h⟩
  case cstop =>
    refine decodes_RR rfl (by simp; omega) fun w hw hm hf h => ?_
    rw [decode32, hm, decCOPY, hf]
    exact (dCh1_ok_iff hw hm hf _).mpr ⟨_, rfl, h⟩
  case tsfence =>
    refine decodes_RR rfl (by simp) fun w hw hm hf h => ?_
    rw [decode32, hm, decTS, hf]
    exact (dNone_ok_iff hw hm hf _).mpr ⟨rfl, h⟩
  case tsdim =>
    refine decodes_RR rfl (by simp; omega) fun w hw hm hf h => ?_
    rw [decode32, hm, decTS, hf]
    exact (dTsdim_ok_iff hw hm hf _).mpr ⟨_, _, _, _, rfl, h⟩
  case mld | mrel =>
    refine decodes_RR rfl (by simp) fun w hw hm hf h => ?_
    rw [decode32, hm, decMX, hf]
    exact (dA1_ok_iff hw hm hf _).mpr ⟨_, _, rfl, h⟩
  case mma | mgang | mdrain | mmaSolo =>
    refine decodes_RR rfl (by simp; omega) fun w hw hm hf h => ?_
    rw [decode32, hm, decMX, hf]
    exact (dCh3_ok_iff hw hm hf _).mpr ⟨_, _, _, _, _, rfl, h⟩
  case mzero =>
    refine decodes_RR rfl (by simp; omega) fun w hw hm hf h => ?_
    rw [decode32, hm, decMX, hf]
    exact (dCh1_ok_iff hw hm hf _).mpr ⟨_, rfl, h⟩
  case trap | svc =>
    refine decodes_RR rfl (by simp) fun w hw hm hf h => ?_
    rw [decode32, hm, decSYS, hf]
    exact (dA1_ok_iff hw hm hf _).mpr ⟨_, _, rfl, h⟩
  case eret | brk | txe | txa =>
    refine decodes_RR rfl (by simp) fun w hw hm hf h => ?_
    rw [decode32, hm, decSYS, hf]
    exact (dNone_ok_iff hw hm hf _).mpr ⟨rfl, h⟩
  case tlbinv =>
    refine decodes_RR rfl (by simp) fun w hw hm hf h => ?_
    rw [decode32, hm, decSYS, hf]
    exact (dAB_ok_iff hw hm hf _).mpr ⟨_, _, _, _, rfl, h⟩
  case txb =>
    refine decodes_RR rfl (by simp) fun w hw hm hf h => ?_
    rw [decode32, hm, decSYS, hf]
    exact (dN_ok_iff hw hm hf _).mpr ⟨_, rfl, h⟩
  case vadd | vsub | vmul | vdiv | vfma | vmin | vmax | vsel =>
    refine decodes_RR rfl (by simp) fun w hw hm hf h => ?_
    rw [decode32, hm, decVARITH, hf]
    exact (dV3_ok_iff hw hm hf _).mpr ⟨_, _, _, _, _, rfl, h⟩
  case vabs | vneg | vrcp | vrsq | vexp2 | vlog2 =>
    refine decodes_RR rfl (by simp) fun w hw hm hf h => ?_
    rw [decode32, hm, decVARITH, hf]
    exact (dV2_ok_iff hw hm hf _).mpr ⟨_, _, _, rfl, h⟩
  case vcmpEq | vcmpNe | vcmpLt | vcmpLe | vand | vor | vxor | vshl | vshr =>
    refine decodes_RR rfl (by simp) fun w hw hm hf h => ?_
    rw [decode32, hm, decVBIT, hf]
    exact (dV3_ok_iff hw hm hf _).mpr ⟨_, _, _, _, _, rfl, h⟩
  case vpopc =>
    refine decodes_RR rfl (by simp) fun w hw hm hf h => ?_
    rw [decode32, hm, decVBIT, hf]
    exact (dV2_ok_iff hw hm hf _).mpr ⟨_, _, _, rfl, h⟩
  case vcvt | vquant =>
    refine decodes_RR rfl (by simp) fun w hw hm hf h => ?_
    rw [decode32, hm, decVCONV, hf]
    exact (dV2_ok_iff hw hm hf _).mpr ⟨_, _, _, rfl, h⟩
  case vsum | vmaxr | vscan =>
    refine decodes_RR rfl (by simp; omega) fun w hw hm hf h => ?_
    rw [decode32, hm, decVRED, hf]
    exact (dVred_ok_iff hw hm hf _).mpr ⟨_, _, _, _, rfl, h⟩
  case vgath | vscat | vamoOr | vamoAnd | vamoAdd | vamoFadd | vamoMax =>
    refine decodes_RR rfl (by simp) fun w hw hm hf h => ?_
    rw [decode32, hm, decVMEM, hf]
    exact (dV3n_ok_iff hw hm hf _).mpr ⟨_, _, _, _, rfl, h⟩
  case vhash =>
    refine decodes_RR rfl (by simp) fun w hw hm hf h => ?_
    rw [decode32, hm, decVMEM, hf]
    exact (dV2_ok_iff hw hm hf _).mpr ⟨_, _, _, rfl, h⟩
  case vacc | vaccLive =>
    refine decodes_RR rfl (by simp; omega) fun w hw hm hf h => ?_
    rw [decode32, hm, decVMEM, hf]
    exact (dVacc_ok_iff hw hm hf _).mpr ⟨_, _, _, rfl, h⟩
  case vfill | viota =>
    refine decodes_RR rfl (by simp) fun w hw hm hf h => ?_
    rw [decode32, hm, decVMEM, hf]
    exact (dVfill_ok_iff hw hm hf _).mpr ⟨_, _, _, rfl, h⟩
  case slli => exact decodes_shift (k := 0) rfl rfl (by decide) fun w hk => by simp only [decSHI, hk]
  case srli => exact decodes_shift (k := 1) rfl rfl (by decide) fun w hk => by simp only [decSHI, hk]
  case srai => exact decodes_shift (k := 2) rfl rfl (by decide) fun w hk => by simp only [decSHI, hk]
  case rori => exact decodes_shift (k := 3) rfl rfl (by decide) fun w hk => by simp only [decSHI, hk]
  case pref l a x => exact decodes_pref l a x
  case cflush => exact decodes_cop (k := 1) rfl rfl (by decide) fun w hk => by simp only [decCACHE, hk]
  case cinval => exact decodes_cop (k := 2) rfl rfl (by decide) fun w hk => by simp only [decCACHE, hk]
  case mfc =>
    refine decodes_RI rfl (by simp; omega) fun w hw hm _ h => ?_
    rw [decode32, hm]
    exact (decMFC_ok_iff hw hm).mpr ⟨_, _, rfl, h⟩
  case mtc =>
    refine decodes_RI rfl (by simp; omega) fun w hw hm _ h => ?_
    rw [decode32, hm]
    exact (decMTC_ok_iff hw hm).mpr ⟨_, _, _, rfl, h⟩
  case fmtp p => exact decodes_fmtp p
  case cAddi =>
    refine decodes_C rfl (by simp; omega) fun w hf hx hb hd => ?_
    rw [decode16, hf, (eq_bit_iff _ _ _).mp hx, (eq_toNat_iff _ _ _).mp hb, (eq_reg_iff _ _ _).mp hd]
    rfl
  case cMv | cAdd | cSub | cAnd | cOr | cXor | cSll | cSrl | cSra | cLd | cSt | cFadd | cFmul | cFmin | cFmax =>
    refine decodes_C rfl (by simp) fun w hf hx hb hd => ?_
    rw [decode16, hf, (eq_bit_iff _ _ _).mp hx, (eq_reg_iff _ _ _).mp hb, (eq_reg_iff _ _ _).mp hd]
    rfl
  all_goals exact decodes_of_none rfl

end Sys2Proof.Encoding
end

section
/-!
SUPPORT. The decoder over byte strings (R42, R43): what the first bytes are, and the obligations on the encoding.
-/

namespace Sys2Proof.Encoding

variable {w n : Nat} {i : Instr} {bytes rest : List Byte}

theorem decode_halfword (heven : w % 2 = 0) (hlt : w < 2 ^ 16) (rest : List Byte) :
    decode (leBytes 2 w ++ rest) = .ok (decode16 w, rest) := by
  have hh : w % 256 + 256 * (w / 256 % 256) = w := by omega
  simp [leBytes, decode, hh, heven]

theorem decode_word (hw : IsWord w) (h : decode32 w = .ok i) (rest : List Byte) :
    decode (leBytes 4 w ++ rest) = .ok (i, rest) := by
  obtain ⟨hodd, hlt⟩ := hw
  have hlow : (w % 256 + 256 * (w / 256 % 256)) % 2 = 1 := by omega
  have hall : w % 256 + 256 * (w / 256 % 256) + 65536 * (w / 256 / 256 % 256) + 16777216 * (w / 256 / 256 / 256 % 256) = w := by omega
  simp [leBytes, decode, hlow, hall, h]

/-- A byte in front of the bytes of a number. -/
theorem leBytes_byte (b : Byte) (n v : Nat) : leBytes (n + 1) (b.toNat + 256 * v) = b :: leBytes n v := by
  have hb := b.isLt
  have hv : (b.toNat + 256 * v) / 256 = v := by omega
  have hlow : BitVec.ofNat 8 (b.toNat + 256 * v) = b := by
    apply BitVec.eq_of_toNat_eq
    rw [BitVec.toNat_ofNat]
    omega
  rw [leBytes, hlow, hv]

/-- What decodes is a halfword, or a word of 32 bits that the decoder of words reads. -/
theorem decode_ok_cases (h : decode bytes = .ok (i, rest)) :
    (∃ w, w % 2 = 0 ∧ w < 2 ^ 16 ∧ i = decode16 w ∧ bytes = leBytes 2 w ++ rest) ∨
      ∃ w, IsWord w ∧ decode32 w = .ok i ∧ bytes = leBytes 4 w ++ rest := by
  unfold decode at h
  split at h
  case h_2 => cases h
  case h_1 b0 b1 tail =>
    have h0 := b0.isLt
    have h1 := b1.isLt
    dsimp only at h
    split at h
    case isTrue heven =>
      cases h
      refine .inl ⟨b0.toNat + 256 * b1.toNat, heven, by omega, rfl, ?_⟩
      rw [show b0.toNat + 256 * b1.toNat = b0.toNat + 256 * (b1.toNat + 256 * 0) by omega]
      simp only [leBytes_byte]
      rfl
    case isFalse hodd =>
      split at h
      case h_2 => cases h
      case h_1 b2 b3 tail =>
        have h2 := b2.isLt
        have h3 := b3.isLt
        split at h
        case h_2 => cases h
        case h_1 hdec =>
          cases h
          refine .inr ⟨_, ⟨?_, ?_⟩, hdec, ?_⟩
          · omega
          · omega
          · rw [show b0.toNat + 256 * b1.toNat + 65536 * b2.toNat + 16777216 * b3.toNat =
              b0.toNat + 256 * (b1.toNat + 256 * (b2.toNat + 256 * (b3.toNat + 256 * 0))) by omega]
            simp only [leBytes_byte]
            rfl

/-- Settles O1: the decoder of words or of halfwords reads back the encoding of each form. -/
theorem decodeEncode : Obligations.DecodeEncode := by
  unfold Obligations.DecodeEncode
  intro i n w rest hwf henc
  rcases decodes_of_wellFormed hwf n w henc with ⟨rfl, hw, hdec⟩ | ⟨rfl, heven, hlt, rfl⟩
  · exact decode_word hw hdec rest
  · exact decode_halfword heven hlt rest

/-- Settles O2: what the decoder of words or of halfwords reads is the encoding of what it gives. -/
theorem encodeDecode : Obligations.EncodeDecode := by
  unfold Obligations.EncodeDecode
  intro bytes rest i h
  rcases decode_ok_cases h with ⟨w, heven, hlt, rfl, rfl⟩ | ⟨w, hw, hdec, rfl⟩
  · obtain ⟨hwf, henc⟩ := decode16_encodes heven hlt
    exact ⟨hwf, 16, w, henc, rfl⟩
  · obtain ⟨hwf, henc⟩ := decode32_encodes hw hdec
    exact ⟨hwf, 32, w, henc, rfl⟩

/-- A table word is read as the instruction whose encoding it is. -/
theorem decodeTableWord_of_encode (hwf : wellFormed i = true) (henc : encode i = some (n, w)) : decodeTableWord n w = some i := by
  rcases decodes_of_wellFormed hwf n w henc with ⟨rfl, hw, hdec⟩ | ⟨rfl, heven, hlt, rfl⟩
  · have h := decode_word hw hdec []
    rw [List.append_nil] at h
    rw [decodeTableWord, Nat.mod_eq_of_lt hw.2, h]
  · have hbytes : leBytes 4 w = leBytes 2 w ++ [0, 0] := by
      have : w / 256 / 256 = 0 := by omega
      simp [leBytes, this]
    rw [decodeTableWord, Nat.mod_eq_of_lt hlt, hbytes, decode_halfword heven hlt]

/-- Settles O3: each word is the encoding of its instruction; the holes are decoded. -/
theorem wordsDecode : Obligations.WordsDecode := by
  unfold Obligations.WordsDecode
  have reads {n w : Nat} {i : Instr} (hwf : wellFormed i = true) (henc : encode i = some (n, w)) : decodeTableWord n w = some i :=
    decodeTableWord_of_encode hwf henc
  refine ⟨reads rfl rfl, reads rfl rfl, reads rfl rfl, reads rfl rfl, reads rfl rfl, reads rfl rfl, reads rfl rfl, reads rfl rfl,
    reads rfl rfl, reads rfl rfl, ?_, ?_, ?_, ?_⟩ <;> rfl

end Sys2Proof.Encoding
end

section
/-!
SUPPORT. Every instruction and every event runs in every state, and so does a step, but without power (log entry 71).
-/

namespace Sys2Proof.Machine

variable {s t : State} {i : Instr}

/-- The outcome is a next state. -/
def Advances (o : Host.Outcome State Fault Refusal) : Prop := ∃ t, o = .next t

theorem advances_next (t : State) : Advances (.next t) := ⟨t, rfl⟩

theorem advances_thenState {o : Host.Outcome State Fault Refusal} (f : State → State) (h : Advances o) : Advances (thenState f o) := by
  obtain ⟨t, rfl⟩ := h
  exact advances_next (f t)

/-! ### The events of the engines, which look first at what waits -/

theorem advances_copyLineWrite (core ch : Nat) (s : State) : Advances (execCopyLineWrite core ch s) := by
  unfold execCopyLineWrite
  split
  · dsimp only
    split <;> exact advances_next _
  · exact advances_next _

theorem advances_copyRecordFinish (core ch : Nat) (s : State) : Advances (execCopyRecordFinish core ch s) := by
  unfold execCopyRecordFinish
  split
  · dsimp only
    split <;> exact advances_next _
  · exact advances_next _

theorem advances_matrixKStep (core n : Nat) (s : State) : Advances (execMatrixKStep core n s) := by
  unfold execMatrixKStep
  split <;> exact advances_next _

theorem advances_nestingHoldExpiry (cluster n : Nat) (s : State) : Advances (execNestingHoldExpiry cluster n s) := by
  unfold execNestingHoldExpiry
  split <;> exact advances_next _

theorem advances_mdrainRow (core n : Nat) (s : State) : Advances (execMdrainRow core n s) := by
  unfold execMdrainRow
  split
  · exact advances_next _
  · dsimp only
    split
    · exact advances_next _
    · split <;> exact advances_next _

theorem advances_formatEmulationRequest (die : Nat) (s : State) : Advances (execFormatEmulationRequest die s) := by
  unfold execFormatEmulationRequest
  split
  · split
    · exact advances_next _
    · dsimp only
      repeat' split
      all_goals exact advances_next _
  · exact advances_next _

theorem advances_vectorElementGroup (core : Nat) (s : State) : Advances (execVectorElementGroup core s) := by
  unfold execVectorElementGroup
  split
  · exact advances_next _
  · split
    · exact advances_next _
    · dsimp only
      split
      · split <;> exact advances_next _
      · split <;> exact advances_next _

/-- Every instruction and every event has a next state: the meaning of each is one, but of the events above it is one in each of
their cases. -/
theorem exec_advances (i : Instr) (s : State) : Advances (exec i s) := by
  cases i
  case copyLineWrite core ch => exact advances_copyLineWrite core ch s
  case copyRecordFinish core ch => exact advances_copyRecordFinish core ch s
  case matrixKStep core n => exact advances_matrixKStep core n s
  case nestingHoldExpiry cluster n => exact advances_nestingHoldExpiry cluster n s
  case mdrainRow core n => exact advances_mdrainRow core n s
  case formatEmulationRequest die => exact advances_formatEmulationRequest die s
  case vectorElementGroup core => exact advances_vectorElementGroup core s
  all_goals exact ⟨_, rfl⟩

/-! ### A step -/

theorem issueOn_advances (phys : Nat) (s : State) : Advances (issueOn phys s) := by
  unfold issueOn
  split
  · exact advances_next _
  · exact advances_thenState _ (exec_advances _ _)
  · exact advances_thenState _ (advances_next _)
  · exact advances_thenState _ (advances_next _)

theorem doMove_advances (m : Move) (s : State) : Advances (doMove m s) := by
  cases m
  case event i => exact advances_thenState _ (exec_advances i s)
  case issue phys => exact issueOn_advances phys s
  all_goals exact advances_next _

/-- A choice that, if it is an event, is one that runs. -/
def Runs (c : Choice) : Prop := ∀ o, c = .event o → Advances o

theorem runs_getD {x : Option Choice} {c : Choice} (hx : ∀ d ∈ x, Runs d) (hc : Runs c) : Runs (x.getD c) := by
  cases x with
  | none => exact hc
  | some d => exact hx d rfl

theorem runs_orElse {x y : Option Choice} (hx : ∀ d ∈ x, Runs d) (hy : ∀ d ∈ y, Runs d) : ∀ d ∈ (x <|> y), Runs d := by
  cases x with
  | none => simpa using hy
  | some c => simpa using hx

theorem runs_issue (phys : Nat) : Runs (.issue phys) := by rintro o ⟨⟩

theorem runs_background (s : State) : Runs (background s) := by
  have hevent : ∀ d ∈ (nextEvent s).map (fun t => Choice.event (.next t)), Runs d := by
    intro d hd o ho
    obtain ⟨t, -, rfl⟩ := Option.map_eq_some_iff.mp hd
    cases ho
    exact advances_next t
  have hcore : ∀ d ∈ (nextCore s).map Choice.issue, Runs d := by
    intro d hd
    obtain ⟨phys, -, rfl⟩ := Option.map_eq_some_iff.mp hd
    exact runs_issue phys
  unfold background
  refine runs_getD ?_ ?_
  · split
    · exact runs_orElse hcore hevent
    · exact runs_orElse hevent hcore
  · split
    · exact runs_issue _
    · rintro o ⟨⟩

/-- What is chosen when nothing is on the agenda runs, if it is an event. -/
theorem runs_choose (s : State) : Runs (choose s) := by
  unfold choose
  dsimp only
  split
  · rintro o ⟨⟩; exact advances_next _
  · split
    · rintro o ⟨⟩; exact advances_next _
    · split
      · exact runs_issue _
      · exact runs_background s

/-- Settles O5: every instruction and event runs, so a step stops only where it runs none. -/
theorem stepStopsOnlyWithoutPower : Obligations.StepStopsOnlyWithoutPower := by
  unfold Obligations.StepStopsOnlyWithoutPower
  intro s
  unfold step
  cases hag : s.agenda with
  | cons m rest => exact .inl (doMove_advances m _)
  | nil =>
    cases hpow : s.powered with
    | false => exact .inr ⟨by simp, rfl, rfl⟩
    | true =>
      refine .inl ?_
      simp only [Bool.not_true]
      cases hch : choose s with
      | issue phys => exact issueOn_advances phys s
      | event o => exact advances_thenState _ (runs_choose s o hch)
      | idle => exact advances_next _

end Sys2Proof.Machine
end

section
/-!
SUPPORT. The checks of R58 before an instruction's own effect.
-/

namespace Sys2Proof.Machine

open Sys2Proof.Safety

/-- What an instruction is under its frame: a body that goes on to the next instruction, or one that sets PC itself (R58). -/
inductive FramedBy (f : InstrInfo) (s : State) : Host.Outcome State Fault Refusal → Prop
  | seq (body : Act Unit) : FramedBy f s (runSeq f body s)
  | jump (body : Act Unit) : FramedBy f s (runJump f body s)

/-- The meaning of every instruction stands under the frame that the spec gives it (R51, R55, R61, R224). -/
theorem exec_framedBy {i : Instr} {f : InstrInfo} (hf : frameOf i = some f) (s : State) : FramedBy f s (exec i s) := by
  cases i <;> cases hf
  case beq | bne | blt | bge | bltn | bgen | bbs | bbc | jal | jalr | tend | tjoin | tyield | hend | cwait | bar | trap | svc | eret |
      brk | txa => exact .jump _
  all_goals exact .seq _

/-- What stands under a frame is checked before its body. -/
theorem FramedBy.checked {f : InstrInfo} {s : State} {e : Stop} {o : Host.Outcome State Fault Refusal} (h : FramedBy f s o)
    (hstop : firstCheck f s = some e) : o = .next (halt e s) := by
  cases h with
  | seq body => exact runSeq_checked hstop
  | jump body => exact runJump_checked hstop

/-- Settles O6: every instruction stands under its frame. -/
theorem checksComeFirst : Obligations.ChecksComeFirst := by
  unfold Obligations.ChecksComeFirst
  exact fun i f e s hf hstop => (exec_framedBy hf s).checked hstop

end Sys2Proof.Machine
end

section
/-!
SUPPORT. The frame of the instructions that write at most a register, the flags and PC (R58, R61, R108, R386, R387).
-/

namespace Sys2Proof.Machine

open Sys2Proof.Safety

theorem curIdx_le (s : State) : curIdx s ≤ 10 := by
  unfold curIdx
  split
  · decide
  · omega

variable {s t u : State} {f : InstrInfo} {ds : List Reg}

/-! ### Contexts -/

/-- A context that differs from another at most in registers of a list, PC, FFLAGS and what it waits for as it stands. -/
structure CtxFrame (ds : List Reg) (x y : Ctx) : Prop where
  regs : ∀ n : Reg, n ∉ ds → y.regs[n] = x.regs[n] ∧ y.pres.getLsbD n.val = x.pres.getLsbD n.val
  specials : y.cause = x.cause ∧ y.epc = x.epc ∧ y.eval = x.eval ∧ y.einfo = x.einfo ∧ y.fmt = x.fmt ∧ y.prods = x.prods ∧
    y.locks = x.locks ∧ y.monitor = x.monitor ∧ y.vres = x.vres
  status : y.status = x.status

theorem CtxFrame.trans {x y z : Ctx} (h : CtxFrame ds x y) (h' : CtxFrame ds y z) : CtxFrame ds x z := by
  obtain ⟨hregs, ⟨h1, h2, h3, h4, h5, h6, h7, h8, h9⟩, hstatus⟩ := h
  obtain ⟨hregs', ⟨h1', h2', h3', h4', h5', h6', h7', h8', h9'⟩, hstatus'⟩ := h'
  refine ⟨fun n hn => ?_, ⟨h1'.trans h1, h2'.trans h2, h3'.trans h3, h4'.trans h4, h5'.trans h5, h6'.trans h6, h7'.trans h7,
    h8'.trans h8, h9'.trans h9⟩, hstatus'.trans hstatus⟩
  obtain ⟨hv, hp⟩ := hregs n hn
  obtain ⟨hv', hp'⟩ := hregs' n hn
  exact ⟨hv'.trans hv, hp'.trans hp⟩

theorem CtxFrame.pc (a : Word) (x : Ctx) : CtxFrame ds x { x with pc := a } :=
  ⟨fun _ _ => ⟨rfl, rfl⟩, ⟨rfl, rfl, rfl, rfl, rfl, rfl, rfl, rfl, rfl⟩, rfl⟩

theorem CtxFrame.fflags (v : Word) (x : Ctx) : CtxFrame ds x { x with fflags := v } :=
  ⟨fun _ _ => ⟨rfl, rfl⟩, ⟨rfl, rfl, rfl, rfl, rfl, rfl, rfl, rfl, rfl⟩, rfl⟩

theorem putReg_pres_other {n m : Reg} (h : m ≠ n) (v : Word) (x : Ctx) :
    (putReg n v x).pres.getLsbD m.val = x.pres.getLsbD m.val := by
  have hne : m.val ≠ n.val := fun e => h (Fin.ext e)
  unfold putReg
  split
  · rfl
  · simp; omega

theorem CtxFrame.putReg {d : Reg} (hd : d ∈ ds) (v : Word) (x : Ctx) : CtxFrame ds x (Machine.putReg d v x) := by
  refine ⟨fun n hn => ?_, ?_, putReg_status d v x⟩
  · have hne : n ≠ d := fun e => hn (e ▸ hd)
    exact ⟨putReg_other hne v x, putReg_pres_other hne v x⟩
  · unfold Machine.putReg
    split
    · exact ⟨rfl, rfl, rfl, rfl, rfl, rfl, rfl, rfl, rfl⟩
    · exact ⟨rfl, rfl, rfl, rfl, rfl, rfl, rfl, rfl, rfl⟩

/-! ### States -/

/-- A state that differs from another only in the context that issues, and there only within the frame. -/
def OnlyCtx (ds : List Reg) (s t : State) : Prop := ∃ g : Ctx → Ctx, t = onCur g s ∧ CtxFrame ds (curCtx s) (g (curCtx s))

theorem onlyCtx_onCur {g : Ctx → Ctx} (hg : ∀ x, CtxFrame ds x (g x)) (s : State) : OnlyCtx ds s (onCur g s) := ⟨g, rfl, hg _⟩

theorem OnlyCtx.onCur (h : OnlyCtx ds s t) {g : Ctx → Ctx} (hg : ∀ x, CtxFrame ds x (g x)) : OnlyCtx ds s (onCur g t) := by
  obtain ⟨k, rfl, hk⟩ := h
  exact ⟨fun x => g (k x), onCur_onCur g k s, hk.trans (hg _)⟩

theorem onlyCtx_setReg {d : Reg} (hd : d ∈ ds) (v : Word) (s : State) : OnlyCtx ds s (setReg d v s) :=
  onlyCtx_onCur (fun x => .putReg hd v x) s

theorem OnlyCtx.addFlags (h : OnlyCtx ds s t) (fl : FlagSet) : OnlyCtx ds s (addFlags fl t) := h.onCur fun x => .fflags _ x

theorem OnlyCtx.pc (h : OnlyCtx ds s t) (g : Ctx → Word) : OnlyCtx ds s (Machine.onCur (fun x => { x with pc := g x }) t) :=
  h.onCur fun x => .pc _ x

/-! ### Completion -/

/-- The state with another record of who issued last. -/
def lasting (k : Nat) (s : State) : State := { s with core := { s.core with last := k } }

theorem noteTurn_lasting (s : State) : ∃ k, noteTurn s = lasting k s := by
  rw [noteTurn_eq]
  split
  · exact ⟨curIdx s, rfl⟩
  · exact ⟨s.core.last, rfl⟩

theorem lasting_onCur (k : Nat) (g : Ctx → Ctx) (s : State) : lasting k (onCur g s) = onCur g (lasting k s) := by
  have hlast : ∀ (c : Core) (j : Nat) (y : Ctx), ({ putCtx c j y with last := k } : Core) = putCtx { c with last := k } j y := by
    intro c j y
    unfold putCtx
    split <;> rfl
  exact congrArg (fun c => ({ s with core := c } : State)) (hlast s.core (curIdx s) (g (curCtx s)))

/-- What completes has changed its context, the record of who issued last and the two counters. -/
theorem retire_lasting (f : InstrInfo) (g : Ctx → Ctx) (s : State) :
    ∃ k, retire f (onCur g s) = counted (lasting k (onCur (fun x => settled f (g x)) s)) := by
  obtain ⟨k, hk⟩ := noteTurn_lasting (onCur g s)
  exact ⟨k, by rw [retire_eq, hk, ← lasting_onCur, onCur_onCur]⟩

section
variable (k : Nat) (h : Ctx → Ctx) (s : State)

theorem curCtx_counted : curCtx (counted (lasting k (onCur h s))) = h (curCtx s) := curCtx_onCur h s

theorem sameElsewhere_counted : SameElsewhere s (counted (lasting k (onCur h s))) := rfl

theorem sameCore_counted : SameCore s (counted (lasting k (onCur h s))) := by
  have hput : ∀ (c : Core) (i : Nat) (x : Ctx), { putCtx c i x with
      ctl := c.ctl, helpers := c.helpers, last := c.last, retired := c.retired, qnt := c.qnt } = c := by
    intro c i x
    unfold putCtx
    split <;> rfl
  exact hput s.core (curIdx s) (h (curCtx s))

theorem sameOthers_counted : SameOthers s (counted (lasting k (onCur h s))) :=
  fun _ hj hne => ctxOf_putCtx_ne s.core (h (curCtx s)) (curIdx_le s) hj hne

/-- The control context is left alone by a helper, which reads registers of it. -/
theorem ctl_counted_of_view {n : Reg} (hview : isView s n = true) : (counted (lasting k (onCur h s))).core.ctl = s.core.ctl := by
  have hidx : 0 < curIdx s ∧ curIdx s ≤ 10 := by
    refine ⟨Nat.pos_of_ne_zero fun h0 => ?_, curIdx_le s⟩
    simp [isView, isHelper, h0] at hview
  change (putCtx s.core (curIdx s) (h (curCtx s))).ctl = s.core.ctl
  simp [putCtx, hidx]

theorem sameRegs_counted (hregs : ∀ n : Reg, n ∉ ds → (h (curCtx s)).regs[n] = (curCtx s).regs[n] ∧
    (h (curCtx s)).pres.getLsbD n.val = (curCtx s).pres.getLsbD n.val) : SameRegs ds s (counted (lasting k (onCur h s))) := by
  intro n hn
  have hctx : (regCtx (counted (lasting k (onCur h s))) n).regs[n] = (regCtx s n).regs[n] ∧
      (regCtx (counted (lasting k (onCur h s))) n).pres.getLsbD n.val = (regCtx s n).pres.getLsbD n.val := by
    rw [regCtx_of_helper (t := counted (lasting k (onCur h s))) (curIdx_onCur h s), curCtx_counted, regCtx]
    cases hview : isView s n with
    | true => rw [if_pos rfl, if_pos rfl, ctl_counted_of_view k h s hview]; exact ⟨rfl, rfl⟩
    | false => exact hregs n hn
  obtain ⟨hv, hp⟩ := hctx
  simp only [regVal, regPresent, hv, hp, and_self]

end

/-- What changes nothing outside the core, and of the core no stash line and no local store, changes no byte. -/
theorem sameBytes_of_core (hcore : SameCore s t) (helse : SameElsewhere s t) : SameBytes s t := by
  have helse : { t with core := s.core } = s := helse
  have hcore : { t.core with
      ctl := s.core.ctl, helpers := s.core.helpers, last := s.core.last, retired := s.core.retired, qnt := s.core.qnt } = s.core := hcore
  have hclusters : t.clusters = s.clusters := (congrArg State.clusters helse :)
  exact sameBytes_of (congrArg State.mem helse :) (fun cl line => by simp [lineAt, clusterAt, hclusters])
    (congrArg State.others helse :) (congrArg Core.phys hcore :) (congrArg Core.stashLines hcore :) (congrArg Core.allocs hcore :)

@[simp] theorem settled_regs (f : InstrInfo) (x : Ctx) : (settled f x).regs = x.regs := by
  unfold settled; dsimp only; split <;> rfl

@[simp] theorem settled_pres (f : InstrInfo) (x : Ctx) : (settled f x).pres = x.pres := by
  unfold settled; dsimp only; split <;> rfl

theorem settled_status (f : InstrInfo) (x : Ctx) :
    (settled f x).status = if f.pfx = 0 then x.status else x.status &&& ~~~1#64 := by
  unfold settled; dsimp only; split <;> rfl

theorem settled_specials (f : InstrInfo) (x : Ctx) :
    (settled f x).cause = x.cause ∧ (settled f x).epc = x.epc ∧ (settled f x).eval = x.eval ∧ (settled f x).einfo = x.einfo ∧
    (settled f x).fmt = x.fmt ∧ (settled f x).prods = x.prods ∧ (settled f x).locks = x.locks ∧
    (settled f x).monitor = x.monitor ∧ (settled f x).vres = x.vres := by
  unfold settled
  dsimp only
  split <;> exact ⟨rfl, rfl, rfl, rfl, rfl, rfl, rfl, rfl, rfl⟩

/-- An instruction that completes with a change of its context within the frame leaves the rest as it was. -/
theorem registerFrame_retire (h : OnlyCtx f.dests s t) : RegisterFrame f s (retire f t) := by
  obtain ⟨g, rfl, hregs, ⟨h1, h2, h3, h4, h5, h6, h7, h8, h9⟩, hstatus⟩ := h
  obtain ⟨k, hk⟩ := retire_lasting f g s
  obtain ⟨s1, s2, s3, s4, s5, s6, s7, s8, s9⟩ := settled_specials f (g (curCtx s))
  have hcore := sameCore_counted k (fun x => settled f (g x)) s
  have helse := sameElsewhere_counted k (fun x => settled f (g x)) s
  rw [hk]
  exact {
    regs := sameRegs_counted k _ s fun n hn => by simpa using hregs n hn
    specials := by
      rw [SameSpecials, curCtx_counted]
      exact ⟨s1.trans h1, s2.trans h2, s3.trans h3, s4.trans h4, s5.trans h5, s6.trans h6, s7.trans h7, s8.trans h8, s9.trans h9⟩
    status := by rw [curCtx_counted, settled_status, hstatus]
    others := sameOthers_counted k _ s
    core := hcore
    elsewhere := helse
    bytes := sameBytes_of_core hcore helse }

theorem runJump_frame {body : Act Unit} (hi : MayIssue f s) (hb : body s = .ok () u) (hu : OnlyCtx f.dests s u)
    (ht : runJump f body s = .next t) : RegisterFrame f s t := by
  rw [runJump_ok hi hb] at ht
  cases ht
  exact registerFrame_retire hu

theorem runSeq_frame {body : Act Unit} (hi : MayIssue f s) (hb : body s = .ok () u) (hu : OnlyCtx f.dests s u)
    (ht : runSeq f body s = .next t) : RegisterFrame f s t := by
  rw [runSeq_ok hi hb] at ht
  cases ht
  exact registerFrame_retire (hu.pc _)

/-! ### Bodies -/

section
variable {d a b c : Reg} {wa wb w : Bool} {off : BitVec 12}

theorem aluBody_ok (op : AluOp) (hr : AllReadable s [a, b]) (hw : Writable s d) :
    aluBody op d a b wa wb s = .ok () (setReg d (aluOp op (regVal s a) (regVal s b)) s) := by
  rw [aluBody, bind_ok (readS_ok (hr a (by simp)) wa), bind_ok (readS_ok (hr b (by simp)) wb)]
  exact writeS_ok hw _

theorem unaryBody_ok (g : Word → Word) (hr : AllReadable s [a]) (hw : Writable s d) :
    unaryBody g d a wa s = .ok () (setReg d (g (regVal s a)) s) := by
  rw [unaryBody, bind_ok (readS_ok (hr a (by simp)) wa)]
  exact writeS_ok hw _

theorem cselBody_ok (hr : AllReadable s [a, b, d]) (hw : Writable s d) :
    cselBody d a b wa wb s = .ok () (setReg d (if regVal s d ≠ 0 then regVal s a else regVal s b) s) := by
  rw [cselBody, bind_ok (readS_ok (hr a (by simp)) wa), bind_ok (readS_ok (hr b (by simp)) wb),
    bind_ok (readS_ok (hr d (by simp)) wa)]
  exact writeS_ok hw _

theorem fp1Body_ok (g : Rounding → Word → Word × FlagSet) (hr : AllReadable s [a]) (hw : Writable s d) :
    ∃ v fl, fp1Body g d a wa s = .ok () (addFlags fl (setReg d v s)) := by
  rw [fp1Body, bind_ok (readS_ok (hr a (by simp)) wa)]
  exact ⟨_, _, bind_ok (writeS_ok hw _)⟩

theorem fp2Body_ok (g : Rounding → Word → Word → Word × FlagSet) (hr : AllReadable s [a, b]) (hw : Writable s d) :
    ∃ v fl, fp2Body g d a b wa wb s = .ok () (addFlags fl (setReg d v s)) := by
  rw [fp2Body, bind_ok (readS_ok (hr a (by simp)) wa), bind_ok (readS_ok (hr b (by simp)) wb)]
  exact ⟨_, _, bind_ok (writeS_ok hw _)⟩

theorem fp3Body_ok (g : Rounding → Word → Word → Word → Word × FlagSet) (hr : AllReadable s [a, b, c]) (hw : Writable s d) :
    ∃ v fl, fp3Body g d a b c w s = .ok () (addFlags fl (setReg d v s)) := by
  rw [fp3Body, bind_ok (readS_ok (hr a (by simp)) w), bind_ok (readS_ok (hr b (by simp)) w),
    bind_ok (readS_ok (hr c (by simp)) w)]
  exact ⟨_, _, bind_ok (writeS_ok hw _)⟩

theorem branchIf_ok (taken : Bool) (off : BitVec 12) (s : State) :
    ∃ a, branchIf taken off s = .ok () (onCur (fun x => { x with pc := a }) s) := ⟨_, rfl⟩

theorem branchBody_ok (cond : BrCond) (hr : AllReadable s [a, b]) :
    ∃ pc, branchBody cond a b w off s = .ok () (onCur (fun x => { x with pc := pc }) s) := by
  rw [branchBody, bind_ok (readS_ok (hr a (by simp)) w), bind_ok (readS_ok (hr b (by simp)) w)]
  exact branchIf_ok ..

theorem bitBranchBody_ok (want : Bool) (bit : Fin 32) (hr : AllReadable s [a]) :
    ∃ pc, bitBranchBody want a bit w off s = .ok () (onCur (fun x => { x with pc := pc }) s) := by
  rw [bitBranchBody, bind_ok (readS_ok (hr a (by simp)) w)]
  exact branchIf_ok ..

end

/-! ### Instructions -/

/-- The integer instructions by what their bodies are. -/
inductive IntBody (f : InstrInfo) (s : State) : RegForm → Host.Outcome State Fault Refusal → Prop
  | alu (op : AluOp) (d a b : Reg) (wa wb : Bool) (v : Word) : f.dests = [d] →
    IntBody f s ⟨[a, b], d, v, 0⟩ (runSeq f (aluBody op d a b wa wb) s)
  | unary (g : Word → Word) (d a : Reg) (wa : Bool) (v : Word) : f.dests = [d] →
    IntBody f s ⟨[a], d, v, 0⟩ (runSeq f (unaryBody g d a wa) s)
  | csel (d a b : Reg) (wa wb : Bool) (v : Word) : f.dests = [d] →
    IntBody f s ⟨[a, b, d], d, v, 0⟩ (runSeq f (cselBody d a b wa wb) s)
  | upper (g : State → Word) (d : Reg) (v : Word) : f.dests = [d] →
    IntBody f s ⟨[], d, v, 0⟩ (runSeq f (do writeS d (g (← get))) s)

theorem intForm_body {i : Instr} {r : RegForm} (hf : frameOf i = some f) (h : intForm s i = some r) : IntBody f s r (exec i s) := by
  cases i <;> cases h <;> cases hf
  case csel => exact .csel _ _ _ _ _ _ rfl
  case hi | pcrel => exact .upper _ _ _ rfl
  case clz | ctz | popc | sext | zext | addi | andi | ori | xori | slti | sltni | slli | srli | srai | rori | cAddi =>
    exact .unary _ _ _ _ _ rfl
  all_goals exact .alu _ _ _ _ _ _ _ rfl

theorem IntBody.frame {r : RegForm} {o : Host.Outcome State Fault Refusal} (hi : MayIssue f s) (hb : IntBody f s r o)
    (hr : AllReadable s r.reads) (hw : Writable s r.dest) (ht : o = .next t) : RegisterFrame f s t := by
  have one (d : Reg) (v : Word) (hd : f.dests = [d]) : OnlyCtx f.dests s (setReg d v s) := onlyCtx_setReg (by simp [hd]) v s
  cases hb with
  | alu op d a b wa wb v hd => exact runSeq_frame hi (aluBody_ok op hr hw) (one d _ hd) ht
  | unary g d a wa v hd => exact runSeq_frame hi (unaryBody_ok g hr hw) (one d _ hd) ht
  | csel d a b wa wb v hd => exact runSeq_frame hi (cselBody_ok hr hw) (one d _ hd) ht
  | upper g d v hd => exact runSeq_frame hi ((get_bind _ s).trans (writeS_ok hw (g s))) (one d _ hd) ht

/-- The scalar floating-point instructions by what their bodies are. -/
inductive FpBody (f : InstrInfo) (s : State) : RegForm → Host.Outcome State Fault Refusal → Prop
  | one (g : Rounding → Word → Word × FlagSet) (d a : Reg) (wa : Bool) (v : Word) (fl : FlagSet) : f.dests = [d] →
    FpBody f s ⟨[a], d, v, fl⟩ (runSeq f (fp1Body g d a wa) s)
  | two (g : Rounding → Word → Word → Word × FlagSet) (d a b : Reg) (wa wb : Bool) (v : Word) (fl : FlagSet) : f.dests = [d] →
    FpBody f s ⟨[a, b], d, v, fl⟩ (runSeq f (fp2Body g d a b wa wb) s)
  | three (g : Rounding → Word → Word → Word → Word × FlagSet) (d a b c : Reg) (w : Bool) (v : Word) (fl : FlagSet) :
    f.dests = [d] → FpBody f s ⟨[a, b, c], d, v, fl⟩ (runSeq f (fp3Body g d a b c w) s)

theorem fpForm_body {i : Instr} {r : RegForm} (hf : frameOf i = some f) (h : fpForm s i = some r) : FpBody f s r (exec i s) := by
  cases i <;> cases h <;> cases hf
  case ffma | ffms | fnfma | fnfms => exact .three _ _ _ _ _ _ _ _ rfl
  case fneg | fabs | fsqrt | fclass | frcp | frsq | fcvtfi | fcvtfn | fcvtbf | fcvtfb | fcvtif | fcvtnf =>
    exact .one _ _ _ _ _ _ rfl
  all_goals exact .two _ _ _ _ _ _ _ _ rfl

theorem FpBody.frame {r : RegForm} {o : Host.Outcome State Fault Refusal} (hi : MayIssue f s) (hb : FpBody f s r o)
    (hr : AllReadable s r.reads) (hw : Writable s r.dest) (ht : o = .next t) : RegisterFrame f s t := by
  have one (d : Reg) (v : Word) (fl : FlagSet) (hd : f.dests = [d]) : OnlyCtx f.dests s (addFlags fl (setReg d v s)) :=
    (onlyCtx_setReg (by simp [hd]) v s).addFlags fl
  cases hb with
  | one g d a wa _ _ hd =>
    obtain ⟨v, fl, hbody⟩ := fp1Body_ok g hr hw
    exact runSeq_frame hi hbody (one d v fl hd) ht
  | two g d a b wa wb _ _ hd =>
    obtain ⟨v, fl, hbody⟩ := fp2Body_ok g hr hw
    exact runSeq_frame hi hbody (one d v fl hd) ht
  | three g d a b c w _ _ hd =>
    obtain ⟨v, fl, hbody⟩ := fp3Body_ok g hr hw
    exact runSeq_frame hi hbody (one d v fl hd) ht

/-- The branches by what their bodies are. -/
inductive BranchBody (f : InstrInfo) (s : State) : List Reg → Host.Outcome State Fault Refusal → Prop
  | compare (c : BrCond) (a b : Reg) (w : Bool) (off : BitVec 12) : BranchBody f s [a, b] (runJump f (branchBody c a b w off) s)
  | bit (want : Bool) (a : Reg) (bit : Fin 32) (w : Bool) (off : BitVec 12) :
    BranchBody f s [a] (runJump f (bitBranchBody want a bit w off) s)

theorem branchForm_body {i : Instr} {reads : List Reg} {taken : Bool} {off : BitVec 12} (hf : frameOf i = some f)
    (h : branchForm s i = some (reads, taken, off)) : BranchBody f s reads (exec i s) := by
  cases i <;> cases h <;> cases hf
  case bbs | bbc => exact .bit _ _ _ _ _
  all_goals exact .compare _ _ _ _ _

theorem BranchBody.frame {reads : List Reg} {o : Host.Outcome State Fault Refusal} (hi : MayIssue f s)
    (hb : BranchBody f s reads o) (hr : AllReadable s reads) (ht : o = .next t) : RegisterFrame f s t := by
  have one (pc : Word) : OnlyCtx f.dests s (onCur (fun x => { x with pc := pc }) s) := onlyCtx_onCur (fun x => .pc pc x) s
  cases hb with
  | compare c a b w off =>
    obtain ⟨pc, hbody⟩ := branchBody_ok c hr
    exact runJump_frame hi hbody (one pc) ht
  | bit want a bit w off =>
    obtain ⟨pc, hbody⟩ := bitBranchBody_ok want bit hr
    exact runJump_frame hi hbody (one pc) ht

theorem link_ok {d : Reg} (hw : Writable s d) (v pc : Word) : (do writeS d v; jumpTo pc : Act Unit) s =
    .ok () (onCur (fun x => { x with pc := pc }) (setReg d v s)) := bind_ok (writeS_ok hw v)

theorem onlyCtx_link (d : Reg) (v pc : Word) (s : State) : OnlyCtx [d] s (onCur (fun x => { x with pc := pc }) (setReg d v s)) :=
  (onlyCtx_setReg (List.mem_singleton_self d) v s).pc fun _ => pc

theorem jal_frame {d : Reg} {off : BitVec 20} (hf : frameOf (.jal d off) = some f) (hi : MayIssue f s) (hw : Writable s d)
    (ht : exec (.jal d off) s = .next t) : RegisterFrame f s t := by
  cases hf
  exact runJump_frame hi ((get_bind _ s).trans (link_ok hw _ _)) (onlyCtx_link d _ _ s) ht

theorem jalr_frame {d a : Reg} {wa : Bool} {imm : BitVec 14} (hf : frameOf (.jalr d a wa imm) = some f) (hi : MayIssue f s)
    (hr : Readable s a) (hw : Writable s d) (ht : exec (.jalr d a wa imm) s = .next t) : RegisterFrame f s t := by
  cases hf
  exact runJump_frame hi ((bind_ok (readS_ok hr wa)).trans ((get_bind _ s).trans (link_ok hw _ _))) (onlyCtx_link d _ _ s) ht

/-- Settles O11: each of these instructions changes its context within the frame and completes. -/
theorem registerInstructionsFrame : Obligations.RegisterInstructionsFrame := by
  unfold Obligations.RegisterInstructionsFrame
  intro i f s t hf hi hform ht
  rcases hform with ⟨r, hint | hfp, hr, hw⟩ | ⟨reads, taken, off, hbr, hr⟩ | ⟨d, off, rfl, hw⟩ | ⟨d, a, wa, imm, rfl, hr, hw⟩
  · exact (intForm_body hf hint).frame hi hr hw ht
  · exact (fpForm_body hf hfp).frame hi hr hw ht
  · exact (branchForm_body hf hbr).frame hi hr ht
  · exact jal_frame hf hi hw ht
  · exact jalr_frame hf hi hr hw ht

end Sys2Proof.Machine
end

section
/-!
SUPPORT. Trap entry (R162): its beginning, the write of the frame, the handler, and a double trap.
-/

namespace Sys2Proof.Machine

open Sys2Proof.Safety

variable {s t : State} {d : Deferred} {cause : BitVec 8} {eval einfo epc : Word}

/-! ### STATUS in a handler -/

/-- Bits 9:8 set to 1 and the others kept. -/
theorem getLsbD_setBits_priv (w : Word) (k : Nat) :
    (setBits w 9 8 1).getLsbD k = (decide (k = 8) || (decide (k ≠ 9) && w.getLsbD k)) := by
  have hval : (setBits w 9 8 1).toNat = 2 ^ 8 * (2 ^ 2 * (w.toNat / 2 ^ 10) + 1) + w.toNat % 2 ^ 8 := by
    have hw := w.isLt
    unfold setBits bitsOf
    rw [BitVec.toNat_ofNat]
    omega
  rw [BitVec.getLsbD, BitVec.getLsbD, hval, Nat.testBit_two_pow_mul_add _ (Nat.mod_lt _ (by decide)),
    Nat.testBit_two_pow_mul_add _ (by decide : 1 < 2 ^ 2), Nat.testBit_mod_two_pow, Nat.testBit_div_two_pow]
  by_cases h8 : k < 8
  · simp [h8, show k ≠ 8 by omega, show k ≠ 9 by omega]
  by_cases h10 : 10 ≤ k
  · simp [h8, show ¬ k - 8 < 2 by omega, show k ≠ 8 by omega, show k ≠ 9 by omega, show k - 8 - 2 + 10 = k by omega]
  · obtain rfl | rfl : k = 8 ∨ k = 9 := by omega
    · rfl
    · rfl

/-- PRIV set to 1 and PFX cleared (R162). -/
theorem setBits_priv (v : Word) : setBits (v &&& ~~~1#64) 9 8 1 = (v &&& ~~~0x301#64) ||| 0x100#64 := by
  refine BitVec.eq_of_getLsbD_eq fun k hk => ?_
  rw [getLsbD_setBits_priv]
  simp only [BitVec.getLsbD_or, BitVec.getLsbD_and, BitVec.getLsbD_not, hk, decide_true, Bool.true_and]
  have hmask : ∀ k < 64, (0x301#64).getLsbD k = (decide (k = 8) || decide (k = 9) || (1#64).getLsbD k) ∧
      (0x100#64).getLsbD k = decide (k = 8) := by decide
  obtain ⟨h301, h100⟩ := hmask k hk
  rw [h301, h100]
  by_cases h8 : k = 8 <;> by_cases h9 : k = 9 <;> simp [h8, h9]
theorem privOf_handler (v : Word) : privOf (setBits v 9 8 1) = 1 := by
  have hv := v.isLt
  unfold privOf setBits bitsOf
  rw [BitVec.toNat_ofNat]
  omega

/-! ### The beginning of an entry -/

/-- Noting the turn changes only who issued last. -/
theorem noteTurn_core (s : State) : ∃ k, (noteTurn s).core = { s.core with last := k } := by
  obtain ⟨k, hk⟩ := noteTurn_lasting s
  exact ⟨k, congrArg State.core hk⟩

theorem core_beginEntry (d : Deferred) (epc : Word) (s : State) : (beginEntry d epc s).core =
    leaveQueues (curIdx s) (putCtx s.core (curIdx s) { curCtx s with entering := some ⟨d, epc⟩ }) := by
  unfold beginEntry
  dsimp only
  rw [curIdx_onCur]
  split <;> rfl

@[simp] theorem curIdx_beginEntry (d : Deferred) (epc : Word) (s : State) : curIdx (beginEntry d epc s) = curIdx s := by
  simp [curIdx, core_beginEntry, leaveQueues]

@[simp] theorem curCtx_beginEntry (d : Deferred) (epc : Word) (s : State) :
    curCtx (beginEntry d epc s) = { curCtx s with entering := some ⟨d, epc⟩ } := by
  rw [curCtx, curIdx_beginEntry, core_beginEntry]
  exact ctxOf_putCtx _ _ _

@[simp] theorem phys_beginEntry (d : Deferred) (epc : Word) (s : State) : (beginEntry d epc s).core.phys = s.core.phys := by
  simp [core_beginEntry, leaveQueues]

@[simp] theorem frames_beginEntry (d : Deferred) (epc : Word) (s : State) : (beginEntry d epc s).core.frames = s.core.frames := by
  simp [core_beginEntry, leaveQueues]

@[simp] theorem frameAddr_beginEntry (d : Deferred) (epc : Word) (s : State) (i : Nat) :
    frameAddr (beginEntry d epc s).core i = frameAddr s.core i := by
  simp [frameAddr, core_beginEntry, leaveQueues]

/-- The registers s1 to s4 are those of the context itself, in a helper too (R59). -/
theorem producersOf_congr (h : (curCtx t).prods = (curCtx s).prods) : producersOf t [1, 2, 3, 4] = producersOf s [1, 2, 3, 4] := by
  simp [producersOf, regPending, regCtx, isView, h]

/-! ### Entry -/

/-- The handler's state: the frame is noted as written, and the context is in the handler (R162, R169). -/
def inHandler (i : Nat) (frame : Word) (cause : BitVec 8) (eval einfo epc : Word) (t : State) : State :=
  let t := { t with core := { t.core with frames := t.core.frames ||| (1#11 <<< i) } }
  onCur (enterHandler t.core.tvec frame cause eval einfo epc) t

/-- The STATUS that a trap saves: without PFX for prefix misuse (R111). -/
def savedStatus (cause : BitVec 8) (x : Ctx) : Word := if cause = 0x1A then x.status &&& ~~~1#64 else x.status

theorem takeTrap_enters (hprods : producersOf s [1, 2, 3, 4] = false) (hpriv : privOf (curCtx s).status = 0)
    (hframe : s.core.frames.getLsbD (curIdx s) = false)
    (hsave : saveWrite s.core.phys (curIdx s) (frameAddr s.core (curIdx s))
      (frameBytes (curCtx s) (savedStatus cause (curCtx s)) epc (cause.zeroExtend 64) eval einfo)
      (beginEntry ⟨cause, eval, einfo⟩ epc s) = .ok () t) :
    takeTrap cause eval einfo epc s = .ok () (inHandler (curIdx s) (frameAddr s.core (curIdx s)) cause eval einfo epc t) := by
  have hp := (producersOf_congr (t := beginEntry ⟨cause, eval, einfo⟩ epc s) (by simp)).trans hprods
  have hbusy : frameBusy (curIdx s) (beginEntry ⟨cause, eval, einfo⟩ epc s) = .ok false (beginEntry ⟨cause, eval, einfo⟩ epc s) := by
    simp [frameBusy, hframe]
  unfold takeTrap
  simp [hp, hpriv]
  rw [bind_ok hbusy]
  simp
  exact bind_ok hsave

/-- A trap in a context above task privilege is a double trap (R163). -/
theorem takeTrap_double (hprods : producersOf s [1, 2, 3, 4] = false) (hpriv : privOf (curCtx s).status ≠ 0) :
    takeTrap cause eval einfo epc s = .error (.fail cause eval einfo) (beginEntry ⟨cause, eval, einfo⟩ epc s) := by
  have hp := (producersOf_congr (t := beginEntry ⟨cause, eval, einfo⟩ epc s) (by simp)).trans hprods
  unfold takeTrap
  simp [hp, hpriv]

/-- A trap condition outside a transaction is the trap, at the instruction that has issued. -/
theorem halt_trap (htxn : s.core.txn = none) :
    halt (.trap cause eval einfo) s = settleTrap (takeTrap cause eval einfo (curCtx s).pc (noteTurn s)) := by
  obtain ⟨k, hk⟩ := noteTurn_core s
  have ht : (noteTurn s).core.txn = none := by rw [hk]; exact htxn
  simp [halt, stopAs, raise, ht]

/-- The entry of a trap condition outside a transaction, at task privilege (R162). -/
theorem halt_enters (htxn : s.core.txn = none) (hprods : producersOf s [1, 2, 3, 4] = false)
    (hpriv : privOf (curCtx s).status = 0) (hframe : s.core.frames.getLsbD (curIdx s) = false)
    (hsave : saveWrite s.core.phys (curIdx s) (frameAddr s.core (curIdx s))
      (frameBytes (curCtx s) (savedStatus cause (curCtx s)) (curCtx s).pc (cause.zeroExtend 64) eval einfo)
      (beginEntry ⟨cause, eval, einfo⟩ (curCtx s).pc (noteTurn s)) = .ok () t) :
    halt (.trap cause eval einfo) s =
      inHandler (curIdx s) (frameAddr s.core (curIdx s)) cause eval einfo (curCtx s).pc t := by
  obtain ⟨k, hk⟩ := noteTurn_core s
  have hfa : frameAddr (noteTurn s).core (curIdx s) = frameAddr s.core (curIdx s) := by rw [hk]; rfl
  have hsave' : saveWrite (noteTurn s).core.phys (curIdx (noteTurn s)) (frameAddr (noteTurn s).core (curIdx (noteTurn s)))
      (frameBytes (curCtx (noteTurn s)) (savedStatus cause (curCtx (noteTurn s))) (curCtx s).pc (cause.zeroExtend 64) eval einfo)
      (beginEntry ⟨cause, eval, einfo⟩ (curCtx s).pc (noteTurn s)) = .ok () t := by
    rw [curIdx_noteTurn, curCtx_noteTurn, hfa, hk]
    exact hsave
  rw [halt_trap htxn, takeTrap_enters ((producersOf_congr (by simp)).trans hprods) (by simpa using hpriv)
    (by rw [curIdx_noteTurn, hk]; exact hframe) hsave', curIdx_noteTurn, hfa]
  rfl

/-! ### The handler's state -/

@[simp] theorem curCtx_inHandler (i : Nat) (frame : Word) (cause : BitVec 8) (eval einfo epc : Word) (t : State) :
    curCtx (inHandler i frame cause eval einfo epc t) = enterHandler t.core.tvec frame cause eval einfo epc (curCtx t) :=
  curCtx_onCur _ _

/-- Only the core changes. -/
theorem sameElsewhere_inHandler (i : Nat) (frame : Word) (cause : BitVec 8) (eval einfo epc : Word) (t : State) :
    SameElsewhere t (inHandler i frame cause eval einfo epc t) := rfl

theorem frames_inHandler (frame : Word) (cause : BitVec 8) (eval einfo epc : Word) (s t : State) :
    (inHandler (curIdx s) frame cause eval einfo epc t).core.frames.getLsbD (curIdx s) = true := by
  have hi : curIdx s < 11 := Nat.lt_succ_of_le (curIdx_le s)
  simp [inHandler, hi]

@[simp] theorem putReg_cause (n : Reg) (v : Word) (x : Ctx) : (putReg n v x).cause = x.cause := by unfold putReg; split <;> rfl
@[simp] theorem putReg_epc (n : Reg) (v : Word) (x : Ctx) : (putReg n v x).epc = x.epc := by unfold putReg; split <;> rfl
@[simp] theorem putReg_eval (n : Reg) (v : Word) (x : Ctx) : (putReg n v x).eval = x.eval := by unfold putReg; split <;> rfl
@[simp] theorem putReg_einfo (n : Reg) (v : Word) (x : Ctx) : (putReg n v x).einfo = x.einfo := by unfold putReg; split <;> rfl
@[simp] theorem putReg_entering (n : Reg) (v : Word) (x : Ctx) : (putReg n v x).entering = x.entering := by
  unfold putReg; split <;> rfl

section
variable (tvec frame : Word) (x : Ctx)

@[simp] theorem enterHandler_pc : (enterHandler tvec frame cause eval einfo epc x).pc = tvec := by simp [enterHandler]
@[simp] theorem enterHandler_cause : (enterHandler tvec frame cause eval einfo epc x).cause = cause.zeroExtend 64 := by
  simp [enterHandler]
@[simp] theorem enterHandler_epc : (enterHandler tvec frame cause eval einfo epc x).epc = epc := by simp [enterHandler]
@[simp] theorem enterHandler_eval : (enterHandler tvec frame cause eval einfo epc x).eval = eval := by simp [enterHandler]
@[simp] theorem enterHandler_einfo : (enterHandler tvec frame cause eval einfo epc x).einfo = einfo := by simp [enterHandler]
@[simp] theorem enterHandler_entering : (enterHandler tvec frame cause eval einfo epc x).entering = none := by
  simp [enterHandler]

theorem enterHandler_status :
    (enterHandler tvec frame cause eval einfo epc x).status = (x.status &&& ~~~0x301#64) ||| 0x100 := by
  simpa [enterHandler] using setBits_priv x.status

theorem enterHandler_priv : privOf (enterHandler tvec frame cause eval einfo epc x).status = 1 := by
  simpa [enterHandler] using privOf_handler _

theorem enterHandler_pres : (enterHandler tvec frame cause eval einfo epc x).pres = x.pres ||| 0x1E := by
  simp [enterHandler, putReg, BitVec.or_assoc]

theorem enterHandler_regs_saved :
    (enterHandler tvec frame cause eval einfo epc x).regs[(1 : Reg)] = frame ∧
    (enterHandler tvec frame cause eval einfo epc x).regs[(2 : Reg)] = cause.zeroExtend 64 ∧
    (enterHandler tvec frame cause eval einfo epc x).regs[(3 : Reg)] = eval ∧
    (enterHandler tvec frame cause eval einfo epc x).regs[(4 : Reg)] = einfo := by
  unfold enterHandler
  dsimp only
  refine ⟨?_, ?_, ?_, putReg_self (by decide) _ _⟩
  · rw [putReg_other (by decide), putReg_other (by decide), putReg_other (by decide), putReg_self (by decide)]
  · rw [putReg_other (by decide), putReg_other (by decide), putReg_self (by decide)]
  · rw [putReg_other (by decide), putReg_self (by decide)]

theorem enterHandler_regs_above (n : Reg) (hn : 4 < n.val) :
    (enterHandler tvec frame cause eval einfo epc x).regs[n] = x.regs[n] := by
  have hne (m : Reg) (hm : m.val ≤ 4) : n ≠ m := by
    rintro rfl
    exact absurd hn (by omega)
  unfold enterHandler
  dsimp only
  rw [putReg_other (hne 4 (by decide)), putReg_other (hne 3 (by decide)), putReg_other (hne 2 (by decide)),
    putReg_other (hne 1 (by decide))]

end

/-- A double trap outside the save area fails the task with the trap's cause (R163, R331). -/
theorem halt_double (htxn : s.core.txn = none) (hprods : producersOf s [1, 2, 3, 4] = false)
    (hpriv : privOf (curCtx s).status ≠ 0) (hsave : einfo.getLsbD 63 = false) :
    halt (.trap cause eval einfo) s = failTask s.core.phys cause (beginEntry ⟨cause, eval, einfo⟩ (curCtx s).pc (noteTurn s)) := by
  obtain ⟨k, hk⟩ := noteTurn_core s
  have hphys : (noteTurn s).core.phys = s.core.phys := by rw [hk]
  rw [halt_trap htxn, takeTrap_double ((producersOf_congr (by simp)).trans hprods) (by simpa using hpriv)]
  rw [settleTrap, failWith, if_neg (by rw [hsave]; decide), phys_beginEntry, hphys]

/-- Settles O14, by the state of the handler that a trap condition leaves. -/
theorem trapsAreEntered : Obligations.TrapsAreEntered := by
  unfold Obligations.TrapsAreEntered
  refine ⟨fun cause eval einfo s t htxn hprods hpriv hframe hsave => ?_,
    fun e cause eval s he => ⟨?_, fun t htxn hprods hpriv hframe hsave => ?_⟩,
    fun cause eval einfo s htxn hprods hpriv hsave => halt_double htxn hprods hpriv hsave⟩
  · have hu := halt_enters htxn hprods hpriv hframe hsave
    dsimp only
    rw [hu, curCtx_inHandler]
    obtain ⟨h1, h2, h3, h4⟩ := enterHandler_regs_saved (cause := cause) (eval := eval) (einfo := einfo)
      (epc := (curCtx s).pc) t.core.tvec (frameAddr s.core (curIdx s)) (curCtx t)
    exact ⟨enterHandler_pc .., enterHandler_status .., enterHandler_cause .., enterHandler_epc .., enterHandler_eval ..,
      enterHandler_einfo .., enterHandler_entering .., h1, h2, h3, h4, enterHandler_pres ..,
      frames_inHandler .., enterHandler_regs_above _ _ _, sameElsewhere_inHandler ..⟩
  · rcases he with ⟨w, rfl, rfl⟩ | rfl
    · rfl
    · rfl
  · have hu := halt_enters htxn hprods hpriv hframe hsave
    have hexec : exec e s = .next (halt (.trap cause eval 0) s) := by
      rcases he with ⟨w, rfl, rfl⟩ | rfl
      · rfl
      · rfl
    refine ⟨_, hexec, ?_⟩
    rw [hu, curCtx_inHandler]
    exact ⟨enterHandler_pc .., enterHandler_cause .., enterHandler_epc .., enterHandler_eval .., enterHandler_priv ..⟩

end Sys2Proof.Machine
end

section
/-!
SUPPORT. Control registers and fmtp (R54, R109, R153 to R158): who may read and write, and what a write leaves.
-/

namespace Sys2Proof.Machine

open Sys2Proof.Safety

variable {s t u : State} {f : InstrInfo} {n : BitVec 12} {a d : Reg} {wa : Bool} {k : Nat} {v : Word}

/-! ### Who may read and write -/

/-- Every register with an access stands below the firmware registers. -/
theorem ctlAccess_lt {x : CtlAccess} (h : ctlAccess k = some x) : k < 0x800 := by
  by_contra hk
  have hnone : ctlAccess k = none := by
    have hne : ∀ j < 0x800, k ≠ j := fun j hj e => by omega
    simp [ctlAccess, hne, show ¬ k ≤ 259 by omega, show ¬ k ≤ 18 by omega, show ¬ k ≤ 28 by omega]
  rw [hnone] at h
  cases h

/-- The privilege of the context that issues lets it write a register (R153). -/
def MayWrite (s : State) (k : Nat) : Prop := ctlAccess k = some .rw ∨ (ctlAccess k = some .rt ∧ 1 ≤ privOf (curCtx s).status)

theorem mfcBody_firmware (hk : 0x800 ≤ n.toNat) (hpriv : privOf (curCtx s).status < 2) :
    mfcBody d n s = .error (.trap 0x03 (ctlEval n) 0) s := by
  simp [mfcBody, hk, Nat.le_of_lt_succ hpriv]

theorem mfcBody_unassigned (hk : n.toNat < 0x800) (hacc : ctlAccess n.toNat = none) :
    mfcBody d n s = .error (.trap 0x02 (ctlEval n) 0) s := by
  simp [mfcBody, Nat.not_le.mpr hk, hacc]

theorem mfcBody_ok (h : (0x800 ≤ n.toNat ∧ 2 ≤ privOf (curCtx s).status) ∨ (n.toNat < 0x800 ∧ ctlAccess n.toNat ≠ none))
    (hchans : chansWait s n.toNat = false) (hw : Writable s d) :
    mfcBody d n s = .ok () (setReg d (ctlValue s n.toNat) s) := by
  refine Eq.trans ?_ (writeS_ok hw _)
  rcases h with ⟨hk, hpriv⟩ | ⟨hk, hacc⟩
  · simp [mfcBody, hk, Nat.not_le.mpr hpriv, hchans]
  · simp [mfcBody, Nat.not_le.mpr hk, hacc, hchans]

theorem mtcBody_firmware (hr : Readable s a) (hk : 0x800 ≤ n.toNat) (hpriv : privOf (curCtx s).status < 2) :
    mtcBody n a wa s = .error (.trap 0x03 (ctlEval n) 0) s := by
  rw [mtcBody, bind_ok (readS_ok hr wa)]
  simp [hk, Nat.le_of_lt_succ hpriv]

theorem mtcBody_unassigned (hr : Readable s a) (hk : n.toNat < 0x800) (hacc : ctlAccess n.toNat = none) :
    mtcBody n a wa s = .error (.trap 0x02 (ctlEval n) 0) s := by
  rw [mtcBody, bind_ok (readS_ok hr wa)]
  simp [Nat.not_le.mpr hk, hacc]

theorem mtcBody_readOnly (hr : Readable s a) (hacc : ctlAccess n.toNat = some .ro) :
    mtcBody n a wa s = .error (.trap 0x03 (ctlEval n) 0) s := by
  rw [mtcBody, bind_ok (readS_ok hr wa)]
  simp [Nat.not_le.mpr (ctlAccess_lt hacc), hacc]

theorem mtcBody_runtime (hr : Readable s a) (hacc : ctlAccess n.toNat = some .rt) (hpriv : privOf (curCtx s).status = 0) :
    mtcBody n a wa s = .error (.trap 0x03 (ctlEval n) 0) s := by
  rw [mtcBody, bind_ok (readS_ok hr wa)]
  simp [Nat.not_le.mpr (ctlAccess_lt hacc), hacc, hpriv]

/-- What is left of mtc where the privilege allows the write: the helper's registers, the value, the write. -/
theorem mtcBody_mayWrite (hr : Readable s a) (hmay : MayWrite s n.toNat) : mtcBody n a wa s =
    (do if isHelper s && n.toNat ≠ 0 && n.toNat ≠ 7 then trapAct 0x01 (ctlEval n)
        if !ctlRange s n.toNat (regVal s a) then trapAct 0x02 (ctlEval n)
        modify (putCtl n.toNat (regVal s a)) : Act Unit) s := by
  rw [mtcBody, bind_ok (readS_ok hr wa)]
  rcases hmay with hacc | ⟨hacc, hpriv⟩
  · simp [Nat.not_le.mpr (ctlAccess_lt hacc), hacc]
  · simp [Nat.not_le.mpr (ctlAccess_lt hacc), hacc, Nat.ne_of_gt hpriv]

theorem mtcBody_helper (hr : Readable s a) (hmay : MayWrite s n.toNat) (hh : isHelper s = true) (h0 : n.toNat ≠ 0)
    (h7 : n.toNat ≠ 7) : mtcBody n a wa s = .error (.trap 0x01 (ctlEval n) 0) s := by
  rw [mtcBody_mayWrite hr hmay]
  simp [hh, h0, h7]

/-- A helper may write STATUS and FFLAGS, the control context every register (R157). -/
def WritesHere (s : State) (k : Nat) : Prop := isHelper s = false ∨ k = 0 ∨ k = 7

theorem WritesHere.check (h : WritesHere s k) : ¬ (isHelper s && k ≠ 0 && k ≠ 7) = true := by
  rcases h with h | h | h <;> simp [h]

theorem mtcBody_value (hr : Readable s a) (hmay : MayWrite s n.toNat) (hh : WritesHere s n.toNat)
    (hrange : ctlRange s n.toNat (regVal s a) = false) : mtcBody n a wa s = .error (.trap 0x02 (ctlEval n) 0) s := by
  rw [mtcBody_mayWrite hr hmay, else_run hh.check, hrange]
  rfl

theorem mtcBody_ok (hr : Readable s a) (hmay : MayWrite s n.toNat) (hh : WritesHere s n.toNat)
    (hrange : ctlRange s n.toNat (regVal s a) = true) : mtcBody n a wa s = .ok () (putCtl n.toNat (regVal s a) s) := by
  rw [mtcBody_mayWrite hr hmay, else_run hh.check, hrange]
  rfl

/-! ### Fmtp -/

/-- The fields that fmtp checks, as bits of FMT (R54, R109). -/
theorem fmtpCause_eq (p : BitVec 25) : fmtpCause (p.zeroExtend 64) =
    if p.toNat / 2 ^ 22 = 7 ∨ p.toNat / 2 ^ 8 % 4 = 3 ∨ p.toNat / 2 ^ 10 % 4 = 3 then some 0x01
    else if (p.toNat / 2 ^ 8 % 4 = 0 ∧ p.toNat / 2 ^ 12 % 32 ≠ 0) ∨ (p.toNat / 2 ^ 10 % 4 = 0 ∧ p.toNat / 2 ^ 17 % 32 ≠ 0) then
      some 0x02
    else none := by
  have hp := p.isLt
  have hv : (p.zeroExtend 64).toNat = p.toNat := by simp; omega
  have hrm : p.toNat / 4194304 % 8 = p.toNat / 4194304 := by omega
  simp [fmtpCause, fmtRm, bitsOf, hv, hrm, or_assoc]

/-! ### What a write leaves -/

/-- What the write of a control register keeps: the registers, the other contexts, PC, every byte. -/
structure CtlKeeps (s t : State) : Prop where
  regs : SameRegs [] s t
  others : SameOthers s t
  bytes : SameBytes s t
  pc : (curCtx t).pc = (curCtx s).pc
  idx : curIdx t = curIdx s

/-- A change of the context that issues, but of its registers and PC. -/
theorem ctlKeeps_onCur {g : Ctx → Ctx} (hregs : ∀ x, (g x).regs = x.regs) (hpres : ∀ x, (g x).pres = x.pres)
    (hpc : ∀ x, (g x).pc = x.pc) (s : State) : CtlKeeps s (onCur g s) where
  regs := sameRegs_onCur (hregs _) (hpres _) []
  others := fun _ hk hne => ctxOf_putCtx_ne s.core (g (curCtx s)) (curIdx_le s) hk hne
  bytes := sameBytes_of rfl (fun _ _ => rfl) rfl (by simp) (by simp) (by simp)
  pc := by rw [curCtx_onCur, hpc]
  idx := curIdx_onCur g s

/-- A change of the core, but of its contexts, its number, its local store and its stash. -/
theorem ctlKeeps_core {c : Core} (hctl : c.ctl = s.core.ctl) (hhelpers : c.helpers = s.core.helpers) (hcur : c.cur = s.core.cur)
    (hphys : c.phys = s.core.phys) (hstash : c.stashLines = s.core.stashLines) (hallocs : c.allocs = s.core.allocs) :
    CtlKeeps s { s with core := c } where
  regs := sameRegs_core hctl hhelpers hcur rfl []
  others := fun k _ _ => by simp [ctxOf, hctl, hhelpers]
  bytes := sameBytes_of rfl (fun _ _ => rfl) rfl hphys hstash hallocs
  pc := by rw [curCtx_core hctl hhelpers hcur rfl]
  idx := by simp [curIdx, hcur]

/-- A change of a partition. -/
theorem ctlKeeps_onPart (tag : Nat) (g : Partition → Partition) (s : State) : CtlKeeps s (onPart tag g s) where
  regs := sameRegs_core (c := s.core) rfl rfl rfl rfl []
  others := fun _ _ _ => rfl
  bytes := sameBytes_of rfl (fun _ _ => rfl) rfl rfl rfl rfl
  pc := rfl
  idx := rfl

/-- Completion, as a change of the context that issues within the frame. -/
theorem completes_frame (f : InstrInfo) (s : State) : RegisterFrame f s (completes f s) :=
  registerFrame_retire (onlyCtx_onCur (g := fun x => { x with pc := x.pc + BitVec.ofNat 64 f.len }) (fun x => .pc _ x) s)

theorem sameElsewhere_trans (h : SameElsewhere s t) (h' : SameElsewhere t u) : SameElsewhere s u :=
  (congrArg (fun x : State => { x with core := s.core }) (h' : { u with core := t.core } = t) :).trans h

theorem fflags_completes (f : InstrInfo) (s : State) : (curCtx (completes f s)).fflags = (curCtx s).fflags := by
  rw [curCtx_completes]; dsimp only; split <;> rfl

/-- The registers that mtc writes, but the firmware's. -/
def ownRegisters : List Nat := [0x000, 0x005, 0x007, 0x013, 0x014, 0x100]

/-- The registers of a partition. -/
def partRegisters : List Nat := [0x101, 0x102, 0x103]

theorem ctlValue_partReg (hk : k ∈ partRegisters) (s : State) :
    ctlValue s k = ((partAt s (corePart s.core)).map (fun p => partReg p k)).getD 0 := by
  simp only [partRegisters, List.mem_cons, List.not_mem_nil, or_false] at hk
  rcases hk with rfl | rfl | rfl
  · rfl
  · rfl
  · rfl

theorem partAt_completes (f : InstrInfo) (s : State) (tag : Nat) : partAt (completes f s) tag = partAt s tag := by
  simp [partAt]

/-- An instruction that completes and accepts no pending format changes none of these registers. -/
theorem ctlValue_completes (hpfx : f.pfx = 0) (hk : k ∈ ownRegisters ∨ k ∈ partRegisters) (s : State) :
    ctlValue (completes f s) k = ctlValue s k := by
  rcases hk with hk | hk
  · simp only [ownRegisters, List.mem_cons, List.not_mem_nil, or_false] at hk
    rcases hk with rfl | rfl | rfl | rfl | rfl | rfl
    · exact (completes_frame f s).status.trans (if_pos hpfx)
    · simp [ctlValue, completes]
    · exact fflags_completes f s
    · simp [ctlValue, completes]
    · simp [ctlValue, completes]
    · simp [ctlValue, completes]
  · have hpart : corePart (completes f s).core = corePart s.core := by simp [corePart, completes]
    rw [ctlValue_partReg hk, ctlValue_partReg hk, hpart, partAt_completes]

/-! ### The write itself -/

/-- A register of a context or a core takes the value, and the rest is kept. -/
theorem putCtl_own (hk : k ∈ ownRegisters) (v : Word) (s : State) :
    CtlKeeps s (putCtl k v s) ∧ SameElsewhere s (putCtl k v s) ∧ ctlValue (putCtl k v s) k = v := by
  simp only [ownRegisters, List.mem_cons, List.not_mem_nil, or_false] at hk
  rcases hk with rfl | rfl | rfl | rfl | rfl | rfl
  · exact ⟨ctlKeeps_onCur (g := fun x => { x with status := v }) (fun _ => rfl) (fun _ => rfl) (fun _ => rfl) s, rfl,
      congrArg Ctx.status (curCtx_onCur _ s)⟩
  · exact ⟨ctlKeeps_core rfl rfl rfl rfl rfl rfl, rfl, rfl⟩
  · exact ⟨ctlKeeps_onCur (g := fun x => { x with fflags := v }) (fun _ => rfl) (fun _ => rfl) (fun _ => rfl) s, rfl,
      congrArg Ctx.fflags (curCtx_onCur _ s)⟩
  · exact ⟨ctlKeeps_core rfl rfl rfl rfl rfl rfl, rfl, rfl⟩
  · exact ⟨ctlKeeps_core rfl rfl rfl rfl rfl rfl, rfl, rfl⟩
  · exact ⟨ctlKeeps_core rfl rfl rfl rfl rfl rfl, rfl, rfl⟩

theorem putCtl_part (hk : k ∈ partRegisters) (v : Word) (s : State) : putCtl k v s =
    if (partAt s (corePart s.core)).any quantumRules then holdReq s.core.phys (.setReg k v) s
    else putPartReg (corePart s.core) k v s := by
  simp only [partRegisters, List.mem_cons, List.not_mem_nil, or_false] at hk
  rcases hk with rfl | rfl | rfl
  · rfl
  · rfl
  · rfl

/-- A partition with another value of a register, where no quantum rules apply. -/
def withPartReg (k : Nat) (v : Word) (p : Partition) : Partition :=
  if k = 0x101 then { p with grace := v }
  else if k = 0x102 then { p with nhold := v }
  else if quantumRules p then { p with qlenNext := some v } else { p with qlen := v }

@[simp] theorem withPartReg_tag (k : Nat) (v : Word) (p : Partition) : (withPartReg k v p).tag = p.tag := by
  unfold withPartReg
  split
  · rfl
  · split
    · rfl
    · split <;> rfl

/-- The register written holds the value and the two others theirs. -/
theorem partReg_withPartReg {p : Partition} (hq : quantumRules p = false) {m : Nat} (hk : k ∈ partRegisters)
    (hm : m ∈ partRegisters) (v : Word) : partReg (withPartReg k v p) m = if m = k then v else partReg p m := by
  simp only [partRegisters, List.mem_cons, List.not_mem_nil, or_false] at hk hm
  rcases hk with rfl | rfl | rfl
  · rcases hm with rfl | rfl | rfl <;> rfl
  · rcases hm with rfl | rfl | rfl <;> rfl
  · rcases hm with rfl | rfl | rfl <;> simp [withPartReg, partReg, hq]

theorem ctlValue_putPartReg {p : Partition} (hp : partAt s (corePart s.core) = some p) (hq : quantumRules p = false) {m : Nat}
    (hk : k ∈ partRegisters) (hm : m ∈ partRegisters) (v : Word) :
    ctlValue (putPartReg (corePart s.core) k v s) m = if m = k then v else ctlValue s m := by
  have hput : partAt (putPartReg (corePart s.core) k v s) (corePart s.core) = some (withPartReg k v p) :=
    (partAt_onPart (f := withPartReg k v) (withPartReg_tag k v) (corePart s.core) s).trans (by rw [hp]; rfl)
  have hcore : (putPartReg (corePart s.core) k v s).core = s.core := rfl
  rw [ctlValue_partReg hm, ctlValue_partReg hm, hcore, hput, hp]
  exact partReg_withPartReg hq hk hm v

/-! ### mtc -/

/-- What a write leaves, when the instruction completes. -/
theorem ctlKeeps_completes (f : InstrInfo) (h : CtlKeeps s t) : SameRegs [] s (completes f t) ∧ SameOthers s (completes f t) ∧
    SameBytes s (completes f t) ∧ (curCtx (completes f t)).pc = (curCtx s).pc + BitVec.ofNat 64 f.len := by
  have hframe := completes_frame f t
  refine ⟨sameRegs_trans h.regs (sameRegs_completes f t []), fun k hk hne => ?_, sameBytes_trans h.bytes hframe.bytes, ?_⟩
  · exact (hframe.others k hk (by rw [h.idx]; exact hne)).trans (h.others k hk hne)
  · rw [pc_completes, h.pc]

theorem mayWrite_own (hk : k ∈ ownRegisters) (hpriv : k ∈ [0x005, 0x100] → 1 ≤ privOf (curCtx s).status) : MayWrite s k := by
  simp only [ownRegisters, List.mem_cons, List.not_mem_nil, or_false] at hk
  rcases hk with rfl | rfl | rfl | rfl | rfl | rfl
  · exact .inl rfl
  · exact .inr ⟨rfl, hpriv (by decide)⟩
  · exact .inl rfl
  · exact .inl rfl
  · exact .inl rfl
  · exact .inr ⟨rfl, hpriv (by decide)⟩

theorem ctlAccess_part (hk : k ∈ partRegisters) : ctlAccess k = some .rt := by
  simp only [partRegisters, List.mem_cons, List.not_mem_nil, or_false] at hk
  rcases hk with rfl | rfl | rfl <;> rfl

/-- mfc: the firmware's registers, an unassigned number, and the value (R156, R158). -/
theorem exec_mfc (hf : frameOf (.mfc d n) = some f) (hi : MayIssue f s) :
    (0x800 ≤ n.toNat ∧ privOf (curCtx s).status < 2 → exec (.mfc d n) s = .next (halt (.trap 0x03 (ctlEval n) 0) s)) ∧
    (n.toNat < 0x800 ∧ ctlAccess n.toNat = none → exec (.mfc d n) s = .next (halt (.trap 0x02 (ctlEval n) 0) s)) ∧
    ((0x800 ≤ n.toNat ∧ 2 ≤ privOf (curCtx s).status) ∨ (n.toNat < 0x800 ∧ ctlAccess n.toNat ≠ none) →
      chansWait s n.toNat = false → Writable s d →
      exec (.mfc d n) s = .next (completes f (setReg d (ctlValue s n.toNat) s))) := by
  cases hf
  exact ⟨fun ⟨hk, hpriv⟩ => runSeq_stops hi (mfcBody_firmware hk hpriv), fun ⟨hk, hacc⟩ => runSeq_stops hi (mfcBody_unassigned hk hacc),
    fun h hchans hw => runSeq_ok hi (mfcBody_ok h hchans hw)⟩

theorem exec_mtc_stops {c : BitVec 8} (hf : frameOf (.mtc n a wa) = some f) (hi : MayIssue f s)
    (hb : mtcBody n a wa s = .error (.trap c (ctlEval n) 0) s) :
    exec (.mtc n a wa) s = .next (halt (.trap c (ctlEval n) 0) s) := by
  cases hf
  exact runSeq_stops hi hb

theorem exec_mtc_writes (hf : frameOf (.mtc n a wa) = some f) (hi : MayIssue f s) (hr : Readable s a)
    (hmay : MayWrite s n.toNat) (hh : WritesHere s n.toNat) (hrange : ctlRange s n.toNat (regVal s a) = true) :
    exec (.mtc n a wa) s = .next (completes f (putCtl n.toNat (regVal s a) s)) := by
  cases hf
  exact runSeq_ok hi (mtcBody_ok hr hmay hh hrange)

/-- A format with a bad field traps (R109). -/
theorem exec_fmtp_stops {p : BitVec 25} {c : BitVec 8} (hf : frameOf (.fmtp p) = some f) (hi : MayIssue f s)
    (hc : fmtpCause (p.zeroExtend 64) = some c) : exec (.fmtp p) s = .next (halt (.trap c 0 0) s) := by
  cases hf
  refine runSeq_stops hi ?_
  rw [hc]
  rfl

/-- Any other is set and completes (R54). -/
theorem exec_fmtp_sets {p : BitVec 25} (hf : frameOf (.fmtp p) = some f) (hi : MayIssue f s)
    (hc : fmtpCause (p.zeroExtend 64) = none) : exec (.fmtp p) s =
      .next (completes f (onCur (fun x => { x with fmt := p.zeroExtend 64, status := x.status ||| 1 }) s)) := by
  cases hf
  refine runSeq_ok hi ?_
  rw [hc]
  rfl

theorem writesHere_of (h : isHelper s = false ∨ k ∈ [0x000, 0x007]) : WritesHere s k := by
  rcases h with h | h
  · exact .inl h
  · exact .inr (by simpa using h)

/-- Settles O12, by the checks of the bodies, the write and what completing keeps. -/
theorem controlRegistersReadAndWritten : Obligations.ControlRegistersReadAndWritten := by
  unfold Obligations.ControlRegistersReadAndWritten
  refine ⟨fun d n f s hf hi => exec_mfc hf hi, fun n a wa f s hf hi hr => ?_, fun n a wa f s hf hi hr hh hk hpriv hrange => ?_,
    fun n a wa f s p hf hi hr hh hk hpriv hrange hp => ?_, fun p f s hf hi => ?_⟩
  · have stops {c : BitVec 8} := exec_mtc_stops (c := c) (a := a) (wa := wa) hf hi
    refine ⟨fun hk hpriv => stops (mtcBody_firmware hr hk hpriv), fun hk hacc => stops (mtcBody_unassigned hr hk hacc),
      fun hacc => stops (mtcBody_readOnly hr hacc), fun hacc hpriv => stops (mtcBody_runtime hr hacc hpriv),
      fun hmay hh h0 h7 => stops (mtcBody_helper hr hmay hh h0 h7),
      fun hacc hh hrange => stops (mtcBody_value hr (.inl hacc) (.inl hh) hrange)⟩
  · obtain ⟨hkeeps, helse, hvalue⟩ := putCtl_own hk (regVal s a) s
    have hexec := exec_mtc_writes hf hi hr (mayWrite_own hk hpriv) (writesHere_of hh) hrange
    cases hf
    obtain ⟨hregs, hothers, hbytes, hpc⟩ := ctlKeeps_completes { len := 4 } hkeeps
    exact ⟨_, hexec, (ctlValue_completes rfl (.inl hk) _).trans hvalue, hpc, hregs, hothers,
      sameElsewhere_trans helse (completes_frame _ _).elsewhere, hbytes⟩
  · have hexec := exec_mtc_writes hf hi hr (.inr ⟨ctlAccess_part hk, hpriv⟩) (.inl hh) hrange
    rw [putCtl_part hk, hp, Option.any_some] at hexec
    refine ⟨fun hq => ?_, fun hq => ?_⟩
    · rwa [hq, if_pos rfl] at hexec
    · rw [hq, if_neg Bool.false_ne_true] at hexec
      cases hf
      obtain ⟨hregs, hothers, hbytes, hpc⟩ := ctlKeeps_completes (s := s) { len := 4 } (ctlKeeps_onPart _ _ s)
      refine ⟨_, hexec, ?_, fun m hm hne => ?_, hpc, hregs, hothers, hbytes⟩
      · rw [ctlValue_completes rfl (.inr hk), ctlValue_putPartReg hp hq hk hk, if_pos rfl]
      · rw [ctlValue_completes rfl (.inr hm), ctlValue_putPartReg hp hq hk hm, if_neg hne]
  · dsimp only
    split
    · next hbad => exact exec_fmtp_stops hf hi (by rw [fmtpCause_eq, if_pos hbad])
    · next hfields =>
      split
      · next hbad => exact exec_fmtp_stops hf hi (by rw [fmtpCause_eq, if_neg hfields, if_pos hbad])
      · next hscales => exact exec_fmtp_sets hf hi (by rw [fmtpCause_eq, if_neg hfields, if_neg hscales])

end Sys2Proof.Machine
end

section
/-!
SUPPORT. Branches and jumps: where they go (R17, R80, R81).
-/

namespace Sys2Proof.Machine

open Sys2Proof.Safety

variable {s : State} {f : InstrInfo} {a b d : Reg} {w : Bool} {off : BitVec 12}

/-- PC + Sext(off) × 2 as a sum of an integer (R17). -/
theorem target_eq {n : Nat} (pc : Word) (off : BitVec n) : target pc off = pc + BitVec.ofInt 64 (off.toInt * 2) := by
  rw [target, BitVec.ofInt_mul]
  rfl

/-- Where a branch goes is the target of R80. -/
theorem branchTarget_eq (pc : Word) (taken : Bool) (off : BitVec 12) :
    branchTarget pc taken off = if taken then target pc off else pc + 4 := by
  rw [target_eq]; rfl

theorem branchIf_run (taken : Bool) (off : BitVec 12) (s : State) :
    branchIf taken off s = .ok () (onCur (fun x => { x with pc := branchTarget (curCtx s).pc taken off }) s) := by
  rw [branchTarget_eq]; rfl

/-! ### The conditions over numbers (R80) -/

theorem brCond_eq (x y : Word) : brCond .eq x y = decide (x = y) := by rw [Bool.eq_iff_iff]; simp [brCond]

theorem brCond_ne (x y : Word) : brCond .ne x y = decide (x ≠ y) := by rw [Bool.eq_iff_iff]; simp [brCond]

theorem brCond_lt (x y : Word) : brCond .lt x y = decide (x.toInt < y.toInt) := rfl

theorem brCond_ge (x y : Word) : brCond .ge x y = decide (y.toInt ≤ x.toInt) := by
  rw [Bool.eq_iff_iff]; simp [brCond, BitVec.slt]

theorem brCond_ltn (x y : Word) : brCond .ltn x y = decide (x.toNat < y.toNat) := rfl

theorem brCond_gen (x y : Word) : brCond .gen x y = decide (y.toNat ≤ x.toNat) := by
  rw [Bool.eq_iff_iff]; simp [brCond, BitVec.ult]

/-! ### Branches -/

/-- The branches by the condition that they test. -/
inductive BranchGoes (f : InstrInfo) (s : State) : List Reg → Bool → BitVec 12 → Host.Outcome State Fault Refusal → Prop
  | compare (c : BrCond) (a b : Reg) (w : Bool) {taken : Bool} (off : BitVec 12) :
    brCond c (regVal s a) (regVal s b) = taken → BranchGoes f s [a, b] taken off (runJump f (branchBody c a b w off) s)
  | bit (want : Bool) (a : Reg) (bit : Fin 32) (w : Bool) {taken : Bool} (off : BitVec 12) :
    ((regVal s a).getLsbD bit.val == want) = taken → BranchGoes f s [a] taken off (runJump f (bitBranchBody want a bit w off) s)

theorem branchForm_goes {i : Instr} {reads : List Reg} {taken : Bool} (hf : frameOf i = some f)
    (h : branchForm s i = some (reads, taken, off)) : BranchGoes f s reads taken off (exec i s) := by
  cases i <;> cases hf <;> cases h
  case beq => exact .compare .eq _ _ _ _ (brCond_eq _ _)
  case bne => exact .compare .ne _ _ _ _ (brCond_ne _ _)
  case blt => exact .compare .lt _ _ _ _ (brCond_lt _ _)
  case bge => exact .compare .ge _ _ _ _ (brCond_ge _ _)
  case bltn => exact .compare .ltn _ _ _ _ (brCond_ltn _ _)
  case bgen => exact .compare .gen _ _ _ _ (brCond_gen _ _)
  case bbs => exact .bit true _ _ _ _ (beq_true _)
  case bbc => exact .bit false _ _ _ _ (beq_false _)

theorem BranchGoes.completes {reads : List Reg} {taken : Bool} {o : Host.Outcome State Fault Refusal}
    (h : BranchGoes f s reads taken off o) (hi : MayIssue f s) (hr : AllReadable s reads) :
    o = .next (completesAt f (branchTarget (curCtx s).pc taken off) s) := by
  cases h with
  | compare c a b w _ hc =>
    subst hc
    exact runJump_ok hi <| (bind_ok (readS_ok (hr a (by simp)) w)).trans <|
      (bind_ok (readS_ok (hr b (by simp)) w)).trans (branchIf_run _ off s)
  | bit want a bit w _ hc =>
    subst hc
    exact runJump_ok hi <| (bind_ok (readS_ok (hr a (by simp)) w)).trans (branchIf_run _ off s)

/-- Settles O9: every branch tests its condition and goes to the target of R80. -/
theorem branchesGo : Obligations.BranchesGo := by
  unfold Obligations.BranchesGo
  intro i f reads taken off s hf hform hi hr
  exact (branchForm_goes hf hform).completes hi hr

/-- Settles O10: the link is written, then PC goes to the target, which was read before (R81). -/
theorem jumpsLink : Obligations.JumpsLink := by
  unfold Obligations.JumpsLink
  refine ⟨fun d off f s hf hi hw => ?_, fun d a wa imm f s hf hi hr hw => ?_⟩
  · cases hf
    rw [← target_eq]
    exact runJump_ok hi ((get_bind _ s).trans (link_ok hw _ _))
  · cases hf
    exact runJump_ok hi ((bind_ok (readS_ok hr wa)).trans ((get_bind _ s).trans (link_ok hw _ _)))

end Sys2Proof.Machine
end

section
/-!
SUPPORT. An instruction stops at the first of its operands that is not there (R63 to R65, R145, R290, R297).
-/

namespace Sys2Proof.Machine

open Sys2Proof.Safety

variable {s : State} {f : InstrInfo} {e : Stop} {l : List (Reg × Bool)} {n a b c : Reg} {w wa wb wc : Bool} {α : Type}

/-! ### The first operand that is not there -/

/-- Reads of registers in order, each with its wait bit, stop with e at the first of them that cannot be read now. -/
inductive FirstStop (s : State) (e : Stop) : List (Reg × Bool) → Prop
  | here {n : Reg} {w : Bool} (l : List (Reg × Bool)) : readS n w s = .error e s → FirstStop s e ((n, w) :: l)
  | later {n : Reg} (w : Bool) {l : List (Reg × Bool)} : Readable s n → FirstStop s e l → FirstStop s e ((n, w) :: l)

theorem firstStop_append {after : List (Reg × Bool)} (hstop : readS n w s = .error e s) :
    ∀ before : List (Reg × Bool), AllReadable s (before.map Prod.fst) → FirstStop s e (before ++ (n, w) :: after)
  | [], _ => .here after hstop
  | (m, v) :: before, h =>
    .later v (h m (by simp)) (firstStop_append hstop before fun k hk => h k (by simp only [List.map_cons, List.mem_cons, hk, or_true]))

theorem not_firstStop_nil : ¬ FirstStop s e [] := by rintro ⟨⟩

/-- An act that begins with a read stops at it, or goes on to the rest, which stops. -/
theorem FirstStop.read {k : Word → Act α} (h : FirstStop s e ((n, w) :: l)) (hk : ∀ x, FirstStop s e l → k x s = .error e s) :
    (readS n w >>= k) s = .error e s := by
  cases h with
  | here _ hstop => exact bind_error hstop
  | later _ hr hl => exact (bind_ok (readS_ok hr w)).trans (hk _ hl)

theorem FirstStop.one {k : Word → Act α} (h : FirstStop s e [(a, wa)]) : (readS a wa >>= k) s = .error e s :=
  h.read fun _ h => absurd h not_firstStop_nil

theorem FirstStop.two {k : Word → Word → Act α} (h : FirstStop s e [(a, wa), (b, wb)]) :
    (readS a wa >>= fun x => readS b wb >>= k x) s = .error e s :=
  h.read fun _ h => h.one

theorem FirstStop.three {k : Word → Word → Word → Act α} (h : FirstStop s e [(a, wa), (b, wb), (c, wc)]) :
    (readS a wa >>= fun x => readS b wb >>= fun y => readS c wc >>= k x y) s = .error e s :=
  h.read fun _ h => h.two

/-! ### Bodies that read after they have looked at what their context waits for -/

section
variable (hawait : (curCtx s).await = .nothing)
include hawait

theorem awaitOf_nothing : awaitOf s (.ctx s.core.phys (curIdx s)) = .nothing := (awaitOf_cur s).trans hawait

theorem proxyAnswer_none : proxyAnswer (curAgent s) s = .ok none s := by
  unfold proxyAnswer
  rw [get_bind, curAgent_phys, curAgent_ctx]
  simp only [awaitOf_nothing hawait]
  rfl

theorem amoBody_stops {d : Reg} {sz : Bool} {scope : Scope} (op : RmwOp) (h : FirstStop s e [(a, w), (b, w)]) :
    amoBody op d a b w sz scope s = .error e s := by
  unfold amoBody
  rw [get_bind, bind_ok (proxyAnswer_none hawait)]
  exact h.two

theorem casBody_stops {d : Reg} {sz : Bool} {scope : Scope} (h : FirstStop s e [(a, w), (b, w), (d, w)]) :
    casBody d a b w sz scope s = .error e s := by
  unfold casBody
  rw [get_bind, bind_ok (proxyAnswer_none hawait)]
  exact h.three

theorem foldBody_stops {read : Act FoldOp} (h : read s = .error e s) : foldBody read s = .error e s := by
  unfold foldBody
  rw [get_bind, hawait]
  exact bind_error h

theorem msendBody_stops {d : Reg} (h : FirstStop s e [(a, wa), (b, wb)]) : msendBody d a b wa wb s = .error e s := by
  unfold msendBody
  rw [get_bind, hawait]
  exact h.two

end

/-! ### Instructions that leave more than their stop -/

/-- The first of two states where the stop is a trap, else the second. -/
def ifTrap (e : Stop) (t s : State) : State :=
  match e with
  | .trap .. => t
  | _ => s

/-- What a stop at an operand leaves before it is taken: with a trap what R145, R290 and R297 say of the instruction. -/
def leftAt (e : Stop) (i : Instr) (s : State) : State := ifTrap e (trapLeaves i s) s

theorem leftAt_same {i : Instr} (h : trapLeaves i s = s) (e : Stop) : leftAt e i s = s := by
  unfold leftAt ifTrap
  cases e
  case trap => exact h
  all_goals rfl

/-- A stop that an operand which is not there makes: a trap with cause 0x04, or a wait (R64). -/
def OperandStop (e : Stop) : Prop := (∃ v x, e = .trap 0x04 v x) ∨ ∃ p, e = .stall p

/-- An mma that stops at an operand leaves its entry of the Nesting buffer with a trap, and nothing with a wait (R290). -/
theorem memberTrap_stops {act : Act Unit} {x : Fin 4} (he : OperandStop e) (h : act s = .error e s) :
    memberTrap s.core.phys x act s =
      .error e (ifTrap e (if (waitingMember s s.core.phys x).isSome then leaveEntry s.core.phys x s else s) s) := by
  rcases he with ⟨v, y, rfl⟩ | ⟨p, rfl⟩
  · unfold memberTrap
    rw [bind_ok (attempt_error h)]
    simp only [get_bind]
    cases hm : waitingMember s s.core.phys x <;> rfl
  · exact memberTrap_stall h

theorem mmaBody_stops {solo : Bool} {x : Fin 4} (hawait : (curCtx s).await = .nothing) (he : OperandStop e)
    (h : FirstStop s e [(a, wa), (b, wb)]) : mmaBody solo x a b wa wb s =
      .error e (ifTrap e (if (waitingMember s s.core.phys x).isSome then leaveEntry s.core.phys x s else s) s) := by
  unfold mmaBody
  rw [get_bind]
  exact (bind_ok (emulated_no (.inl hawait))).trans (memberTrap_stops (act := mmaAccept solo x a b wa wb) he h.two)

theorem mgangBody_stops {x : Fin 4} (hawait : (curCtx s).await = .nothing) (he : OperandStop e)
    (h : FirstStop s e [(a, wa), (b, wb)]) : mgangBody x a b wa wb s = .error e (leftAt e (.mgang x a b wa wb) s) := by
  unfold mgangBody
  rw [get_bind]
  refine (bind_ok (emulated_no (.inl hawait))).trans ?_
  simp only [awaitOf_nothing hawait, Bool.false_eq_true, if_false]
  refine bind_error ?_
  rcases he with ⟨v, y, rfl⟩ | ⟨p, rfl⟩
  · exact failedArrival_trap h.two
  · unfold failedArrival
    rw [bind_ok (attempt_error h.two)]
    rfl

/-- A copy instruction that stops at an operand stops its channel with a trap, and does nothing with a wait (R297). -/
theorem issueCopy_stops {ch : Fin 4} {operands : Act CopyCmd} (hq : ∀ q ∈ s.core.copyq, q.holder ≠ some (curIdx s))
    (he : OperandStop e) (h : operands s = .error e s) : issueCopy ch operands s =
      .error e (ifTrap e (stopChannel s.core.phys ch s) s) := by
  have hnone : s.core.copyq.find? (fun q => q.holder == some (curIdx s)) = none := by simpa using hq
  unfold issueCopy
  simp only [get_bind, hnone]
  rw [bind_ok (attempt_error h)]
  rcases he with ⟨v, y, rfl⟩ | ⟨p, rfl⟩
  · simp only [if_true, modify_bind, trapAct_run, ifTrap]
  · rfl

/-! ### Every instruction -/

section
variable (hi : MayIssue f s)
include hi

theorem runSeq_one {k : Word → Act Unit} (h : FirstStop s e [(a, wa)]) : runSeq f (readS a wa >>= k) s = .next (halt e s) :=
  runSeq_stops hi h.one

theorem runSeq_two {k : Word → Word → Act Unit} (h : FirstStop s e [(a, wa), (b, wb)]) :
    runSeq f (readS a wa >>= fun x => readS b wb >>= k x) s = .next (halt e s) :=
  runSeq_stops hi h.two

theorem runSeq_three {k : Word → Word → Word → Act Unit} (h : FirstStop s e [(a, wa), (b, wb), (c, wc)]) :
    runSeq f (readS a wa >>= fun x => readS b wb >>= fun y => readS c wc >>= k x y) s = .next (halt e s) :=
  runSeq_stops hi h.three

theorem runJump_one {k : Word → Act Unit} (h : FirstStop s e [(a, wa)]) : runJump f (readS a wa >>= k) s = .next (halt e s) :=
  runJump_stops hi h.one

theorem runJump_two {k : Word → Word → Act Unit} (h : FirstStop s e [(a, wa), (b, wb)]) :
    runJump f (readS a wa >>= fun x => readS b wb >>= k x) s = .next (halt e s) :=
  runJump_stops hi h.two

end

/-- An instruction that may issue, in a context that stands at no engine's command of its own, stops at its first operand that is
not there. -/
theorem exec_stops {i : Instr} (hf : frameOf i = some f) (hi : MayIssue f s) (hawait : (curCtx s).await = .nothing)
    (hq : ∀ q ∈ s.core.copyq, q.holder ≠ some (curIdx s)) (he : OperandStop e) (h : FirstStop s e (operandsOf i)) :
    exec i s = .next (halt e (leftAt e i s)) := by
  cases i <;> cases hf
  case mma => exact runSeq_stops hi (mmaBody_stops hawait he h)
  case mmaSolo => exact runSeq_stops hi (mmaBody_stops hawait he h)
  case mgang => exact runSeq_stops hi (mgangBody_stops hawait he h)
  case cpy => exact runSeq_stops hi (issueCopy_stops hq he h.two)
  case cpyc => exact runSeq_stops hi (issueCopy_stops hq he h.one)
  all_goals rw [leftAt_same rfl]
  case amoAdd | amoAnd | amoOr | amoXor | amoMin | amoMax | amoMinn | amoMaxn | amoSwap | amoFadd | amoFmin | amoFmax | amoBadd =>
    exact runSeq_stops hi (amoBody_stops hawait _ h)
  case cas => exact runSeq_stops hi (casBody_stops hawait h)
  case fdecl | fpost | fthr | fquiet => exact runSeq_stops hi (foldBody_stops hawait h.two)
  case fdrain | fpeek => exact runSeq_stops hi (foldBody_stops hawait h.one)
  case msend => exact runSeq_stops hi (msendBody_stops hawait h)
  case beq | bne | blt | bge | bltn | bgen => exact runJump_two hi h
  case bbs | bbc | jalr | tjoin | trap | svc => exact runJump_one hi h
  case csel | ffma | ffms | fnfma | fnfms => exact runSeq_three hi h
  case clz | ctz | popc | sext | zext | addi | andi | ori | xori | slti | sltni | slli | srli | srai | rori | cAddi | fsqrt | fneg |
      fabs | fclass | frcp | frsq | fcvtfi | fcvtif | fcvtfn | fcvtnf | fcvtbf | fcvtfb | ldB | ldH | ldW | ldD | ldBn | ldHn |
      ldWn | cLd | pref | cflush | cinval | acq | rel | unbind | mon | tspawn | tfork | fcount | tsdim | mld | mrel | mtc =>
    exact runSeq_one hi h
  case add | sub | mul | mulh | mulhn | div | divn | rem | remn | and | or | xor | andn | sll | srl | sra | ror | min | max | minn |
      maxn | slt | sltn | seq | cMv | cAdd | cSub | cAnd | cOr | cXor | cSll | cSrl | cSra | fadd | fsub | fmul | fdiv | fmin | fmax |
      fsgnj | feq | flt | fle | cFadd | cFmul | cFmin | cFmax | stB | stH | stW | stD | cSt | redAdd | redAnd | redOr | redXor |
      redMin | redMax | redMinn | redMaxn | redFadd | redFmin | redFmax | redBadd | bind | rwr | tdec | mtake | nred | mdrain |
      tlbinv =>
    exact runSeq_two hi h
  all_goals exact absurd h not_firstStop_nil

/-- Settles O7: the read of the first register that is not there stops, and the instruction with it. -/
theorem operandsAreThere : Obligations.OperandsAreThere := by
  unfold Obligations.OperandsAreThere
  refine ⟨fun i f s before after n hf hi hawait hq hops hbefore h1 h2 h3 h4 => ?_,
    fun i f s before after n w hf hi hawait hq hops hbefore h1 h2 h3 h4 hw => ?_,
    fun i f s before after n hf hi hawait hq hops hbefore h1 h2 h3 h4 => ?_⟩
  · have hstop := firstStop_append (after := after) (readS_empty h1 h2 h3 h4) before hbefore
    exact exec_stops hf hi hawait hq (.inl ⟨_, _, rfl⟩) (hops ▸ hstop)
  · have hstop := firstStop_append (after := after) (readS_waits h1 h2 h3 h4 hw) before hbefore
    exact exec_stops hf hi hawait hq (.inr ⟨_, rfl⟩) (hops ▸ hstop)
  · have hread : readS n true s = .error (.stall true) s := by
      unfold readS
      simp [h1, h2, h3, h4]
    have hstop := firstStop_append (after := after) hread before hbefore
    exact exec_stops hf hi hawait hq (.inr ⟨_, rfl⟩) (hops ▸ hstop)

end Sys2Proof.Machine
end

section
/-!
SUPPORT. Presence bits and remote writes (R71, R72, R83 to R85, R332).
-/

namespace Sys2Proof.Machine

open Sys2Proof.Safety

variable {s t : State} {f : InstrInfo} {n m d a b : Reg} {on wa wb : Bool} {g : Ctx → Ctx} {p : Partition} {phys : Nat} {v x : Word}

/-! ### Registers after a change of the context that issues -/

/-- What a helper issues is allowed in a helper, and writes none of the registers that view the control context (R51, R61). -/
theorem mayIssue_helper (hi : MayIssue f s) (hh : isHelper s = true) : f.helper = true ∧ ∀ d ∈ f.dests, d.val < 16 := by
  by_contra hbad
  have hcheck : (!f.helper || f.dests.any (fun d => 16 ≤ d.val)) = true := by
    rw [Bool.or_eq_true, List.any_eq_true]
    by_cases hf : f.helper = true
    · simpa [hf] using hbad
    · exact .inl (by simpa using hf)
  unfold MayIssue firstCheck at hi
  simp only [hh, hcheck, Bool.and_true, if_true] at hi
  split at hi
  · cases hi
  · split at hi <;> cases hi

/-- The registers that a helper may name as destinations are its own (R59, R61). -/
theorem isView_dest (hi : MayIssue f s) (hd : n ∈ f.dests) : isView s n = false := by
  unfold isView
  cases hh : isHelper s with
  | false => rfl
  | true => simpa using (mayIssue_helper hi hh).2 n hd

theorem regCtx_onCur_own (h : isView s n = false) : regCtx (onCur g s) n = g (curCtx s) := by
  rw [regCtx_of_helper (curIdx_onCur g s), h, curCtx_onCur]
  rfl

/-- A helper's view of the control context is not changed by what it does to its own. -/
theorem regCtx_onCur_view (h : isView s n = true) : regCtx (onCur g s) n = regCtx s n := by
  have hctl : (onCur g s).core.ctl = s.core.ctl := ctl_counted_of_view s.core.last g s h
  rw [regCtx_of_helper (curIdx_onCur g s), h, if_pos rfl, regCtx, h, if_pos rfl, hctl]

/-! ### Presence bits (R84, R85) -/

/-- The context with the presence bit of a register set or cleared. -/
def withPresence (n : Reg) (on : Bool) (x : Ctx) : Ctx :=
  { x with pres := if on then x.pres ||| (1#32 <<< n.val) else x.pres &&& ~~~(1#32 <<< n.val) }

theorem withPresence_self (n : Reg) (on : Bool) (x : Ctx) : (withPresence n on x).pres.getLsbD n.val = on := by
  have hn : n.val < 32 := n.isLt
  cases on <;> simp [withPresence, hn]

theorem withPresence_other (h : m ≠ n) (on : Bool) (x : Ctx) :
    (withPresence n on x).pres.getLsbD m.val = x.pres.getLsbD m.val := by
  have hm : m.val < 32 := m.isLt
  have hne : m.val ≠ n.val := fun e => h (Fin.ext e)
  cases on <;> by_cases hlt : m.val < n.val <;> simp [withPresence, hm, hlt] <;> omega

theorem presenceAct_ok (h0 : n ≠ 0) (hw : Writable s n) (on : Bool) : presenceAct n on s = .ok () (onCur (withPresence n on) s) := by
  unfold presenceAct
  rw [if_neg h0, bind_ok (destReady_ok hw)]
  rfl

/-- A register whose presence bit is changed has it, and keeps its value; every other register is what it was. -/
theorem regs_withPresence (h0 : n ≠ 0) (hview : isView s n = false) (on : Bool) : let u := onCur (withPresence n on) s
    regPresent u n = on ∧ (∀ m, regVal u m = regVal s m) ∧ ∀ m, m ≠ n → regPresent u m = regPresent s m := by
  have hregs : ∀ m : Reg, (regCtx (onCur (withPresence n on) s) m).regs = (regCtx s m).regs := by
    intro m
    cases hm : isView s m with
    | true => rw [regCtx_onCur_view hm]
    | false => rw [regCtx_onCur_own hm, regCtx, hm]; rfl
  refine ⟨?_, fun m => by simp only [regVal, hregs], fun m hne => ?_⟩
  · rw [regPresent, regCtx_onCur_own hview, withPresence_self]
    simp [h0]
  · cases hm : isView s m with
    | true => simp only [regPresent, regCtx_onCur_view hm]
    | false => rw [regPresent, regCtx_onCur_own hm, withPresence_other hne, regPresent, regCtx, hm]; rfl

/-- feclr and feset by the bit that they leave: nothing happens to s0, which is present (R18, R84). -/
theorem presence_completes {o : Host.Outcome State Fault Refusal} (hdest : n ∈ f.dests) (hlen : f.len = 4) (hi : MayIssue f s)
    (hw : Writable s n) (ho : o = runSeq f (presenceAct n on) s) :
    ∃ t, o = .next t ∧ regPresent t n = (on || decide (n = 0)) ∧ (∀ m, regVal t m = regVal s m) ∧
      (∀ m, m ≠ n → regPresent t m = regPresent s m) ∧ (curCtx t).pc = (curCtx s).pc + 4 := by
  have hdone : ∀ u, presenceAct n on s = .ok () u → o = .next (completes f u) := fun u hu => by rw [ho, runSeq_ok hi hu]
  have hsame : ∀ u, SameRegs [] u (completes f u) := fun u => sameRegs_completes f u []
  by_cases h0 : n = 0
  · subst h0
    refine ⟨_, hdone s rfl, by simp [regPresent], fun m => (hsame s m (by simp)).1, fun m _ => (hsame s m (by simp)).2, ?_⟩
    rw [pc_completes, hlen]
    rfl
  · obtain ⟨hpres, hval, hother⟩ := regs_withPresence h0 (isView_dest hi hdest) on
    refine ⟨_, hdone _ (presenceAct_ok h0 hw on), ?_, fun m => (hsame _ m (by simp)).1.trans (hval m),
      fun m hm => (hsame _ m (by simp)).2.trans (hother m hm), ?_⟩
    · rw [(hsame _ n (by simp)).2, hpres]
      simp [h0]
    · rw [pc_completes, hlen, curCtx_onCur]
      rfl

theorem fetstBody_ok (hw : Writable s d) (hpend : detMode s = true → regPending s n = false) :
    fetstBody d n s = .ok () (setReg d (truth (regPresent s n = true)) s) := by
  have hwait : (detMode s && regPending s n) = false := by
    cases hdet : detMode s
    · rfl
    · exact hpend hdet
  unfold fetstBody
  rw [get_bind, hwait]
  exact writeS_ok hw _

/-! ### Remote writes (R71, R72, R83, R332) -/

section
variable (hp : partAt s (corePart s.core) = some p)
include hp

/-- A logical core that the partition does not have is refused (R83). -/
theorem rwrAct_noCore (n : Reg) (h : p.ranks.length ≤ x.toNat) : rwrAct n x v s = .error (.trap 0x09 x 0) s := by
  unfold rwrAct
  simp [hp, h]

variable (hx : x.toNat < p.ranks.length) (hphys : physOf p x.toNat = some phys)
  (hset : Settled s (Machine.scopeOf s.core.phys phys))
include hx hphys hset

/-- Outside the quantum rules the write sets out behind the packets of its flow (R83, R445). -/
theorem rwrAct_sends (hq : quantumRules p = false) (hroom : n = 0 ∨ inboxFree s (corePart s.core) x.toNat phys = true) :
    rwrAct n x v s = .ok () (sendRemote ⟨0, corePart s.core, s.core.phys, s.core.lcore.toNat, x.toNat, n, v⟩ s) := by
  have hfull : ¬ (n ≠ 0 && !inboxFree s (corePart s.core) x.toNat phys) = true := by
    rcases hroom with h | h <;> simp [h]
  unfold rwrAct
  simp only [get_bind, curAgent_part, curAgent_phys, hp, ge_iff_le, Nat.not_le.mpr hx, if_false, hphys]
  refine (bind_ok (fenceAct_settled hset)).trans ?_
  simp only [hq, Bool.false_eq_true, if_false]
  exact else_run hfull _ _ _

/-- Under the quantum rules the write is held to the quantum end, and the 64th of a quantum is the core's last (R72, R332). -/
theorem rwrAct_held (n : Reg) (hq : quantumRules p = true) : rwrAct n x v s = .ok () (onCore s.core.phys (fun c =>
      { c with
        held := c.held ++ [(corePart c, .rwr ⟨0, corePart s.core, s.core.phys, s.core.lcore.toNat, x.toNat, n, v⟩)]
        rwrs := c.rwrs + 1
        atBarrier := c.atBarrier || 64 ≤ c.rwrs + 1 }) s) := by
  unfold rwrAct
  simp only [get_bind, curAgent_part, curAgent_phys, hp, ge_iff_le, Nat.not_le.mpr hx, if_false, hphys]
  refine (bind_ok (fenceAct_settled hset)).trans ?_
  simp only [hq, if_true, modify_run]
  rw [holdReq, onCore_onCore] <;> exact fun _ => rfl

end

theorem rwr_body (ha : Readable s a) (hb : Readable s b) : (do
      let t ← readS a wa
      let v ← readS b wb
      rwrAct n t v : Act Unit) s = rwrAct n (regVal s a) (regVal s b) s :=
  (bind_ok (readS_ok ha wa)).trans (bind_ok (readS_ok hb wb))

/-- Settles O13: the presence bits, and the three outcomes of a remote write. -/
theorem presenceAndRemoteWrites : Obligations.PresenceAndRemoteWrites := by
  unfold Obligations.PresenceAndRemoteWrites
  refine ⟨⟨fun n f s hf hi hw => ?_, fun n f s hf hi hw => ?_, fun d n f s hf hi hw hpend => ?_⟩,
    fun n a b wa wb f s p hf hi ha hb hp => ⟨fun h => ?_, fun phys hx hphys hset hq hroom => ?_, fun phys hx hphys hset hq => ?_⟩⟩
  · cases hf
    exact presence_completes (on := false) (List.mem_singleton_self n) rfl hi hw rfl
  · cases hf
    exact presence_completes (on := true) (List.mem_singleton_self n) rfl hi hw rfl
  · cases hf
    exact runSeq_ok hi (fetstBody_ok hw hpend)
  · cases hf
    exact runSeq_stops hi ((rwr_body ha hb).trans (rwrAct_noCore hp n h))
  · cases hf
    exact runSeq_ok hi ((rwr_body ha hb).trans (rwrAct_sends hp hx hphys hset hq hroom))
  · cases hf
    exact runSeq_ok hi ((rwr_body ha hb).trans (rwrAct_held hp hx hphys hset n hq))

end Sys2Proof.Machine
end

section
/-!
SUPPORT. Helpers: how instructions and the hardware start one, and how it ends (R60, R107, R328, R329).
-/

namespace Sys2Proof.Machine

open Sys2Proof.Safety

variable {s t : State} {f : InstrInfo} {h k : Fin 10} {pc x y : Word} {o : HelperOrigin} {c : Core} {a b : Reg} {wa wb : Bool}

/-! ### The context of a helper that starts -/

/-- What a helper starts with (R60, R107): its PC, the two data in s1 and s2, every other register zero and every register present,
and of the control context's STATUS RM and DET. -/
structure StartsAs (pc x y : Word) (o : HelperOrigin) (c : Core) (u : Ctx) : Prop where
  live : u.live = true
  origin : u.origin = o
  pc : u.pc = pc &&& ~~~1#64
  status : u.status = (c.ctl.status &&& 0x1E#64) ||| 0x40
  first : u.regs[1] = x
  second : u.regs[2] = y
  others : ∀ n : Reg, n ≠ 1 → n ≠ 2 → u.regs[n] = 0
  pres : u.pres = BitVec.allOnes 32

theorem helperCtx_startsAs (c : Core) (pc x y : Word) (o : HelperOrigin) : StartsAs pc x y o c (helperCtx c pc x y o) where
  live := rfl
  origin := rfl
  pc := rfl
  status := rfl
  first := rfl
  second := rfl
  others n h1 h2 := by
    have hn1 : 1 ≠ n.val := fun e => h1 (Fin.ext e.symm)
    have hn2 : 2 ≠ n.val := fun e => h2 (Fin.ext e.symm)
    have hset : ((((Vector.replicate 32 0).set 1 x).set 2 y : Vector Word 32))[n.val] = 0 := by
      rw [Vector.getElem_set_ne _ _ hn2, Vector.getElem_set_ne _ _ hn1, Vector.getElem_replicate]
    exact hset
  pres := rfl

theorem startHelper_self (h : Fin 10) (pc x y : Word) (o : HelperOrigin) (c : Core) :
    (startHelper h pc x y o c).helpers.get h = helperCtx c pc x y o :=
  Vector.getElem_set_self h.isLt

theorem startHelper_other (hk : k ≠ h) (pc x y : Word) (o : HelperOrigin) (c : Core) :
    (startHelper h pc x y o c).helpers.get k = c.helpers.get k :=
  Vector.getElem_set_ne h.isLt k.isLt fun e => hk (Fin.ext e.symm)

/-! ### hstart (R328) -/

theorem ctxOf_helper (c : Core) (h : Fin 10) : ctxOf c (h.val + 1) = c.helpers.get h := by
  have hle : h.val + 1 ≤ 10 := h.isLt
  simp [ctxOf, hle, Vector.get]

theorem curIdx_control (hh : isHelper s = false) : curIdx s = 0 := by simpa [isHelper] using hh

theorem hstart_live (hlive : (s.core.helpers.get h).live = true) (body : Act Unit) : (do
      if ((← get).core.helpers.get h).live then trapAct 0x09 (BitVec.ofNat 64 h.val) 9
      body : Act Unit) s = .error (.trap 0x09 (BitVec.ofNat 64 h.val) 9) s := by
  simp [hlive]

/-- The state in which a helper of the core in focus has started. -/
def helperStarted (h : Fin 10) (pc x y : Word) (o : HelperOrigin) (s : State) : State :=
  { s with core := startHelper h pc x y o s.core }

theorem hstart_free (hlive : (s.core.helpers.get h).live = false) (ha : Readable s a) (hb : Readable s b)
    (hb' : Readable s (nextReg b)) : (do
      if ((← get).core.helpers.get h).live then trapAct 0x09 (BitVec.ofNat 64 h.val) 9
      let pc ← readS a wa
      let s1 ← readS b wb
      let s2 ← readS (nextReg b) wb
      modify (fun s => { s with core := startHelper h pc s1 s2 .software s.core }) : Act Unit) s =
    .ok () (helperStarted h (regVal s a) (regVal s b) (regVal s (nextReg b)) .software s) := by
  rw [get_bind, hlive, else_run Bool.false_ne_true]
  exact (bind_ok (readS_ok ha wa)).trans ((bind_ok (readS_ok hb wb)).trans (bind_ok (readS_ok hb' wb)))

section
variable (hh : isHelper s = false)
include hh

/-- The start of a helper changes nothing of the control context, which goes on. -/
theorem curCtx_helperStarted : curCtx (helperStarted h pc x y o s) = curCtx s := by
  have hidx : curIdx (helperStarted h pc x y o s) = curIdx s := rfl
  rw [curCtx, curCtx, hidx, curIdx_control hh]
  rfl

theorem sameRegs_helperStarted : SameRegs [] s (helperStarted h pc x y o s) := by
  have hctx : curCtx (helperStarted h pc x y o s) = curCtx s := curCtx_helperStarted hh
  exact sameRegs_of (s := s) (t := helperStarted h pc x y o s) rfl ⟨congrArg Ctx.regs hctx, congrArg Ctx.pres hctx⟩ ⟨rfl, rfl⟩ []

/-- An instruction of the control context that completes leaves every helper. -/
theorem helpers_completes (f : InstrInfo) (k : Fin 10) :
    (completes f s).core.helpers.get k = s.core.helpers.get k := by
  have hk := (completes_frame f s).others (k.val + 1) k.isLt (by rw [curIdx_control hh]; exact Nat.succ_ne_zero _)
  rwa [ctxOf_helper, ctxOf_helper] at hk

end

/-! ### hend -/

theorem settleRegs_rest (hprods : (curCtx s).prods = []) (hlocks : (curCtx s).locks = []) : settleRegs s = .ok () s := by
  unfold settleRegs
  rw [bind_ok (takeErrors_none hprods)]
  simp [hprods, hlocks]

theorem hendWaits_rest (hprods : (curCtx s).prods = []) (hlocks : (curCtx s).locks = [])
    (heng : enginesDone s s.core.phys (curIdx s) = true) : hendWaits s = .ok () s := by
  unfold hendWaits
  rw [bind_ok (settleRegs_rest hprods hlocks)]
  simp [heng]

/-- The context of a helper that has ended. -/
def ended (x : Ctx) : Ctx := { x with live := false, monitor := none, vres := none, await := .nothing }

/-- A helper that an instruction started ends and leaves nothing else. -/
theorem endHelper_software (ho : (curCtx s).origin = .software) : endHelper s = onCur ended s := by
  unfold endHelper
  simp only [ho]
  rfl

/-- What an instruction that completes with a change of its context leaves of the rest. -/
theorem retire_onCur_frame (f : InstrInfo) (g : Ctx → Ctx) (s : State) : let t := retire f (onCur g s)
    curCtx t = settled f (g (curCtx s)) ∧ SameOthers s t ∧ SameElsewhere s t ∧ SameBytes s t := by
  obtain ⟨k, hk⟩ := retire_lasting f g s
  have hcore := sameCore_counted k (fun x => settled f (g x)) s
  have helse := sameElsewhere_counted k (fun x => settled f (g x)) s
  simp only [hk]
  exact ⟨curCtx_counted k _ s, sameOthers_counted k _ s, helse, sameBytes_of_core hcore helse⟩

/-! ### Helpers that the hardware starts (R329) -/

@[simp] theorem completionMade_phys (o : HelperOrigin) (c : Core) : (completionMade o c).phys = c.phys := by
  unfold completionMade; split <;> rfl
@[simp] theorem completionMade_helpers (o : HelperOrigin) (c : Core) : (completionMade o c).helpers = c.helpers := by
  unfold completionMade; split <;> rfl
@[simp] theorem completionMade_hreqs (o : HelperOrigin) (c : Core) : (completionMade o c).hreqs = c.hreqs := by
  unfold completionMade; split <;> rfl
@[simp] theorem completionMade_ctl (o : HelperOrigin) (c : Core) : (completionMade o c).ctl = c.ctl := by
  unfold completionMade; split <;> rfl

theorem startRequest_none (hno : c.run = none ∨ freeHelper c = none) : startRequest c = none := by
  unfold startRequest
  rcases hno with hrun | hfree
  · simp [hrun]
  · split
    · rfl
    · rw [hfree]

/-- The core after the start of its first helper request. -/
def requestStarted (h : Fin 10) (q : HelperReq) (rest : List HelperReq) (c : Core) : Core :=
  completionMade q.origin (startHelper h q.pc q.s1 q.s2 q.origin { c with hreqs := rest })

theorem startRequest_first {q : HelperReq} {rest : List HelperReq} (hrun : c.run.isSome = true) (hlive : c.ctl.live = true)
    (hyield : c.yield = none) (hresume : c.resume = none) (hreqs : c.hreqs = q :: rest) (hmay : helperStarts c q = true)
    (hfree : freeHelper c = some h) : startRequest c = some (requestStarted h q rest c) := by
  have hrun' : c.run.isNone = false := by simpa [Option.isSome_iff_ne_none] using hrun
  simp [startRequest, hrun', hlive, hyield, hresume, hreqs, takeFirst, hmay, hfree, requestStarted]

theorem helperStarts_of {q : HelperReq}
    (hring : ∀ i, q.origin = .arrival i → c.run.any (fun r => r.part == q.part && r.gid == q.gid) = true) :
    helperStarts c q = true := by
  unfold helperStarts
  split
  · rename_i i hi
    exact hring i hi
  · rfl

theorem execHardwareHelperStart_run {core : Nat} (hq : (partAt s (corePart (coreAt s core))).any quantumRules = false) :
    exec (.hardwareHelperStart core) s = .next ((startRequest (coreAt s core)).elim s (fun c => setCore c s)) := by
  change execHardwareHelperStart core s = _
  unfold execHardwareHelperStart
  rw [hq]
  cases startRequest (coreAt s core) <;> rfl

/-- The start of its first helper request, as an event of a core, leaves the request's helper live and the others' requests. -/
theorem requestStarted_core (h : Fin 10) (q : HelperReq) (rest : List HelperReq) (c : Core) : let d := requestStarted h q rest c
    d.phys = c.phys ∧ d.hreqs = rest ∧ d.ctl = c.ctl ∧ StartsAs q.pc q.s1 q.s2 q.origin c (d.helpers.get h) := by
  have hstart := helperCtx_startsAs { c with hreqs := rest } q.pc q.s1 q.s2 q.origin
  rw [← startHelper_self h] at hstart
  refine ⟨completionMade_phys _ _, completionMade_hreqs _ _, completionMade_ctl _ _, ?_⟩
  rw [requestStarted, completionMade_helpers]
  exact ⟨hstart.live, hstart.origin, hstart.pc, hstart.status, hstart.first, hstart.second, hstart.others, hstart.pres⟩

/-- What hstart of a helper that is not live leaves (R328). -/
theorem hstart_completes (hh : isHelper s = false) (h : Fin 10) (pc x y : Word) (f : InstrInfo) :
    let t := completes f (helperStarted h pc x y .software s)
    StartsAs pc x y .software s.core (t.core.helpers.get h) ∧ (∀ k : Fin 10, k ≠ h → t.core.helpers.get k = s.core.helpers.get k) ∧
      (curCtx t).pc = (curCtx s).pc + BitVec.ofNat 64 f.len ∧ SameRegs [] s t ∧ SameElsewhere s t := by
  have hhelpers := helpers_completes (s := helperStarted h pc x y .software s) hh f
  have hframe := completes_frame f (helperStarted h pc x y .software s)
  have helse : SameElsewhere s (helperStarted h pc x y .software s) := rfl
  refine ⟨?_, fun k hk => ?_, ?_, ?_, ?_⟩
  · rw [hhelpers h, helperStarted, startHelper_self]
    exact helperCtx_startsAs s.core pc x y .software
  · rw [hhelpers k]
    exact startHelper_other hk pc x y .software s.core
  · rw [pc_completes, curCtx_helperStarted hh]
  · exact sameRegs_trans (sameRegs_helperStarted hh) (sameRegs_completes f _ [])
  · exact sameElsewhere_trans helse hframe.elsewhere

/-- Settles O29: what a helper starts with is one context, whoever starts it. -/
theorem helpersStartAndEnd : Obligations.HelpersStartAndEnd := by
  unfold Obligations.HelpersStartAndEnd
  refine ⟨⟨fun h a b wa wb f s hf hi => ⟨fun hlive => ?_, fun hlive ha hb hb' => ?_⟩, fun f s hf hi hprods hlocks heng => ?_⟩,
    fun core s hq => ⟨fun hno => ?_, fun q rest h hrun hlive hyield hresume hreqs hring hfree => ?_⟩⟩
  · cases hf
    exact runSeq_stops hi (hstart_live hlive _)
  · cases hf
    have hh : isHelper s = false := by
      by_contra hh
      exact Bool.false_ne_true (mayIssue_helper hi (by simpa using hh)).1
    have hctl : curCtx s = s.core.ctl := by rw [curCtx, curIdx_control hh, ctxOf_zero]
    obtain ⟨hstart, hothers, hpc, hregs, helse⟩ :=
      hstart_completes hh h (regVal s a) (regVal s b) (regVal s (nextReg b)) taskInfo
    exact ⟨_, runSeq_ok hi (hstart_free hlive ha hb hb'), hpc, hstart.live, hstart.pc, hctl ▸ hstart.status, hstart.first,
      hstart.second, hstart.others, hstart.pres, hothers, hregs, helse⟩
  · cases hf
    have hend := runJump_ok hi (bind_ok (f := fun _ => modify endHelper) (hendWaits_rest hprods hlocks heng))
    refine ⟨hend, fun ho => ⟨_, hend, ?_⟩⟩
    rw [endHelper_software ho]
    obtain ⟨hctx, hothers, helse, hbytes⟩ := retire_onCur_frame { len := 4, onlyHelper := true } ended s
    exact ⟨by rw [hctx]; rfl, hothers, helse, hbytes⟩
  · rw [execHardwareHelperStart_run hq, startRequest_none hno]
    rfl
  · have hfirst := startRequest_first hrun hlive hyield hresume hreqs (helperStarts_of hring) hfree
    obtain ⟨hphys, hreqs', hctl, hstart⟩ := requestStarted_core h q rest (coreAt s core)
    have hcore := coreAt_setCore (requestStarted h q rest (coreAt s core)) s
    rw [hphys, coreAt_phys] at hcore
    refine ⟨setCore (requestStarted h q rest (coreAt s core)) s, by rw [execHardwareHelperStart_run hq, hfirst]; rfl, ?_⟩
    rw [hcore]
    exact ⟨hreqs', hstart.live, hstart.origin, hstart.pc, hstart.first, hstart.second, hstart.status, hctl, setCore_mem _ _⟩

end Sys2Proof.Machine
end

section
/-!
SUPPORT. What arrives at a core: values, remote writes, answers, thresholds (R63, R67, R68, R73, R194, R304, R345, R351, R445).
-/

namespace Sys2Proof.Machine

open Sys2Proof.Safety

variable {s : State} {core ctx : Nat} {n m : Reg} {p q : Producer} {x : Ctx} {c : Core} {v : Word} {w : RemoteWrite}

/-! ### A register that is written -/

theorem putReg_present (h : n ≠ 0) (v : Word) (x : Ctx) : (putReg n v x).pres.getLsbD n.val = true := by
  have hn : n.val < 32 := n.isLt
  unfold putReg
  rw [if_neg h]
  simp [hn]

/-! ### Values (R63, R67, R194) -/

section
variable (hp : x.prods.find? (fun q => q.reg == n && !q.failed) = some p)
include hp

theorem arriveValue_sound (hbad : p.bad = false) :
    arriveValue n false x = putReg n p.value { x with prods := x.prods.filter (· != p) } := by
  simp [arriveValue, hp, hbad]

theorem arriveValue_bad :
    arriveValue n true x = { x with prods := x.prods.map (fun q => if q == p then { q with failed := true } else q) } := by
  simp [arriveValue, hp]

/-- The address of the data that is found bad as it arrives is that of the producer, if it brought sound data. -/
theorem soundData_first (hbad : p.bad = false) : soundData n x = some p.addr := by
  obtain ⟨htest, as, bs, hsplit, hbefore⟩ := List.find?_eq_some_iff_append.mp hp
  have hfind : x.prods.find? (fun q => q.reg == n && !q.failed && !q.bad) = some p := by
    refine List.find?_eq_some_iff_append.mpr ⟨by simpa [hbad] using htest, as, bs, hsplit, fun a ha => ?_⟩
    have := hbefore a ha
    simp_all
  rw [soundData, hfind]
  rfl

end

/-- A line that is marked bad is bad (R194, R195). -/
theorem badAt_markBad_mem (pa : Nat) (s : State) : pa / 64 ∈ (markBad (.mem pa) s).badLines := by
  by_cases h : badAt s (.mem pa) = true
  · rw [markBad, if_pos h]
    simpa [badAt] using h
  · rw [markBad, if_neg h]
    simp

@[simp] theorem onAlloc_phys (part gid : Nat) (f : Alloc → Alloc) (c : Core) : (onAlloc part gid f c).phys = c.phys := rfl

theorem allocOf_onAlloc {part gid : Nat} {f : Alloc → Alloc} (hf : ∀ a, (f a).part = a.part ∧ (f a).gid = a.gid) (c : Core) :
    allocOf (onAlloc part gid f c) part gid = (allocOf c part gid).map f := by
  unfold allocOf onAlloc modifyWhere
  simp only
  induction c.allocs with
  | nil => rfl
  | cons a l ih =>
    obtain ⟨hpart, hgid⟩ := hf a
    rw [List.map_cons, List.find?_cons, List.find?_cons, ih]
    by_cases ha : (a.part == part && a.gid == gid) = true
    · rw [if_pos ha, hpart, hgid, ha]
      rfl
    · rw [if_neg ha, Bool.not_eq_true _ |>.mp ha]

theorem badAt_markBad_local {ph part gid off : Nat} {a : Alloc} (ha : allocOf (coreAt s ph) part gid = some a) :
    (allocOf (coreAt (markBad (.ls ph part gid off) s) ph) part gid).any (fun b => b.bad.contains (off / 64)) = true := by
  by_cases h : badAt s (.ls ph part gid off) = true
  · rw [markBad, if_pos h]
    exact h
  · rw [markBad, if_neg h, coreAt_onCore (onAlloc_phys part gid _), allocOf_onAlloc (fun _ => by exact ⟨rfl, rfl⟩), ha]
    simp

@[simp] theorem markBad_mem (pl : Place) (s : State) : (markBad pl s).mem = s.mem := by
  unfold markBad
  split
  · rfl
  · cases pl <;> simp

/-- Marking a line leaves every context. -/
theorem ctxOf_markBad (pl : Place) (s : State) (core ctx : Nat) : ctxOf (coreAt (markBad pl s) core) ctx = ctxOf (coreAt s core) ctx := by
  unfold markBad
  split
  · rfl
  · cases pl with
    | mem pa => rfl
    | ls ph part gid off =>
      by_cases h : ph = core
      · subst h
        rw [coreAt_onCore (onAlloc_phys part gid _)]
        rfl
      · rw [coreAt_onCore_ne (onAlloc_phys part gid _) h]

/-- The line that a value came from, if its data is found bad, is marked. -/
def markFound (found : Option Place) (s : State) : State :=
  match found with
  | some pl => markBad pl s
  | none => s

theorem markFound_frame (found : Option Place) (s : State) : (markFound found s).mem = s.mem ∧
    ∀ core ctx, ctxOf (coreAt (markFound found s) core) ctx = ctxOf (coreAt s core) ctx := by
  cases found with
  | none => exact ⟨rfl, fun _ _ => rfl⟩
  | some pl => exact ⟨markBad_mem pl s, ctxOf_markBad pl s⟩

/-! ### Remote writes (R68, R73, R445) -/

/-- A remote write fits: the register is empty, no value of a local producer is on its way to it, no older entry names it. -/
theorem remoteFits_iff {older : List InboxEntry} : remoteFits x n older = true ↔
    x.pres.getLsbD n.val = false ∧ (∀ q ∈ x.prods, q.reg = n → q.failed = true) ∧ ∀ e ∈ older, e.idx ≠ n := by
  simp [remoteFits, and_assoc]

theorem occupied_iff {tag : Nat} (hpart : c.part = some tag) : occupied tag c = true ↔ c.run.isSome = true ∧ c.ctl.live = true := by
  simp [occupied, hpart]

/-- What a remote write that is applied leaves of the control context and the inbox. -/
theorem applyRemote_frame (h : n ≠ 0) (v : Word) (c : Core) : (applyRemote n v c).ctl.regs[n] = v ∧
    (applyRemote n v c).ctl.pres.getLsbD n.val = true ∧ (applyRemote n v c).inbox = c.inbox := by
  unfold applyRemote
  dsimp only
  split
  · exact ⟨putReg_self h v c.ctl, putReg_present h v c.ctl, rfl⟩
  · exact ⟨putReg_self h v c.ctl, putReg_present h v c.ctl, rfl⟩

@[simp] theorem applyRemote_phys (n : Reg) (v : Word) (c : Core) : (applyRemote n v c).phys = c.phys := rfl

@[simp] theorem putInbox_phys (tag : Nat) (l : List InboxEntry) (c : Core) : (putInbox tag l c).phys = c.phys := by
  unfold putInbox; split <;> rfl

@[simp] theorem landRemote_phys (w : RemoteWrite) (c : Core) : (landRemote w c).phys = c.phys := by
  unfold landRemote
  split
  · rfl
  · split <;> simp

theorem landRemote_applied (h0 : w.idx ≠ 0) (hocc : occupied w.part c = true) (hfits : remoteFits c.ctl w.idx c.inbox = true) :
    landRemote w c = applyRemote w.idx w.value c := by
  simp [landRemote, h0, hocc, hfits]

/-- A remote write that may not be applied becomes the youngest entry of the inbox (R73). -/
theorem landRemote_kept (h0 : w.idx ≠ 0) (hpart : c.part = some w.part)
    (hnot : ¬ (occupied w.part c = true ∧ remoteFits c.ctl w.idx c.inbox = true)) :
    landRemote w c = { c with inbox := c.inbox ++ [⟨w.idx, w.value, w.src⟩] } := by
  have hcond : (occupied w.part c && remoteFits c.ctl w.idx c.inbox) = false := by simpa using hnot
  simp [landRemote, h0, hcond, putInbox, inboxOf, hpart]

/-- What the entry of an inbox that may be applied does to its core. -/
def applyEntry (k : Nat) (c : Core) : Core :=
  match c.inbox[k]? with
  | none => c
  | some e =>
    if (c.part.any (fun t => occupied t c)) && remoteFits c.ctl e.idx (c.inbox.take k) then
      applyRemote e.idx e.value { c with inbox := c.inbox.eraseIdx k }
    else c

theorem applyEntry_phys (k : Nat) (c : Core) : (applyEntry k c).phys = c.phys := by
  unfold applyEntry
  split
  · rfl
  · split <;> rfl

theorem applyEntry_fits {k : Nat} {e : InboxEntry} (he : c.inbox[k]? = some e) (hocc : c.part.any (fun t => occupied t c) = true)
    (hfits : remoteFits c.ctl e.idx (c.inbox.take k) = true) :
    applyEntry k c = applyRemote e.idx e.value { c with inbox := c.inbox.eraseIdx k } := by
  simp [applyEntry, he, hocc, hfits]

theorem flowTurn_of (hrem : ∀ q ∈ s.remotes, q.part = w.part → q.phys = w.phys → q.target = w.target → w.seq ≤ q.seq)
    (hmsg : ∀ m ∈ s.msgs, m.part = w.part → m.phys = w.phys → m.target = w.target → m.answer = none → w.seq ≤ m.seq) :
    flowTurn s w.part w.phys w.target w.seq = true := by
  simpa [flowTurn] using ⟨hrem, hmsg⟩

/-- A remote write whose turn it is reaches the core that its target runs on. -/
theorem execRemoteWriteArrival_lands {k : Nat} {pt : Partition} {r : RankEntry} (hw : s.remotes[k]? = some w)
    (hp : partAt s w.part = some pt) (hq : quantumRules pt = false) (hr : pt.ranks[w.target]? = some r) (hvalid : r.valid = true)
    (htransit : r.transit = false) (hpart : (coreAt s r.phys).part = some w.part)
    (hturn : flowTurn s w.part w.phys w.target w.seq = true) :
    exec (.remoteWriteArrival k) s = .next (onCore r.phys (landRemote w) { s with remotes := s.remotes.eraseIdx k }) := by
  have hserves : servesPart (coreAt { s with remotes := s.remotes.eraseIdx k } r.phys) w.part = true := by
    have : (coreAt { s with remotes := s.remotes.eraseIdx k } r.phys).part = some w.part := hpart
    simp [servesPart, this]
  change execRemoteWriteArrival k s = _
  simp [execRemoteWriteArrival, hw, hp, hq, hturn, hr, hvalid, htransit, deliverRemote, hserves]

/-! ### Answers (R304, R351) -/

theorem takeFirst_append {α : Type} {t : α → Bool} {m : α} {after : List α} (hm : t m = true) :
    ∀ {before : List α}, (∀ q ∈ before, t q = false) → takeFirst t (before ++ m :: after) = some (m, before ++ after)
  | [], _ => by simp [takeFirst, hm]
  | q :: before, h => by
    have ih := takeFirst_append (after := after) hm fun q hq => h q (List.mem_cons_of_mem _ hq)
    simp [takeFirst, h q, ih]

/-- The answer to a post gives the register that waits for it its value; an open transaction's checkpoint has it too. -/
theorem takeAnswer_locked {phys : Nat} (h0 : n ≠ 0) (hlock : (ctxOf (coreAt s phys) ctx).locks.contains n = true) :
    let y := ctxOf (coreAt (takeAnswer phys ctx n v s) phys) ctx
    y.regs[n] = v ∧ y.pres.getLsbD n.val = true ∧ y.locks = (ctxOf (coreAt s phys) ctx).locks.erase n := by
  have hctx : ctxOf (coreAt (takeAnswer phys ctx n v s) phys) ctx =
      { putReg n v (ctxOf (coreAt s phys) ctx) with locks := (ctxOf (coreAt s phys) ctx).locks.erase n } := by
    unfold takeAnswer
    rw [hlock, Bool.not_true, Bool.and_false, if_neg Bool.false_ne_true, if_pos rfl]
    split
    · rename_i hzero
      subst hzero
      dsimp only
      rw [coreAt_onCore (fun _ => by rfl)]
      exact ctxOf_onCtx phys 0 _ s
    · exact ctxOf_onCtx phys ctx _ s
  rw [hctx]
  exact ⟨putReg_self h0 v _, putReg_present h0 v _, rfl⟩

theorem takeAnswer_answers (phys ctx : Nat) (n : Reg) (v : Word) (s : State) (hlock : (ctxOf (coreAt s phys) ctx).locks.contains n = true) :
    (takeAnswer phys ctx n v s).answers = s.answers := by
  unfold takeAnswer
  rw [hlock, Bool.not_true, Bool.and_false, if_neg Bool.false_ne_true, if_pos rfl]
  split <;> simp

/-- The answer to a message reaches the context that stands at its msend (R304). -/
theorem answerSender_await {st : Nat} {l : List Msg} (hawait : (ctxOf (coreAt s core) ctx).await = .message) :
    let y := ctxOf (coreAt (answerSender core ctx st { s with msgs := l }) core) ctx
    y.await = .messageDone st ∧ y.stalled = false := by
  have hawait' : (ctxOf (coreAt { s with msgs := l } core) ctx).await = .message := hawait
  simp only [answerSender, ctxOf_onCtx, hawait', if_true, and_self]

/-! ### Thresholds (R345) -/

theorem slotStateOf_key (c : Cluster) (part : Nat) (d : Decl) : (slotStateOf c part d).part = part ∧ (slotStateOf c part d).slot = d.slot := by
  unfold slotStateOf
  cases h : c.slots.find? (fun k => k.part == part && k.slot == d.slot) with
  | none => exact ⟨rfl, rfl⟩
  | some k => simpa using List.find?_some h

theorem slotStateOf_onSlot {f : SlotState → SlotState} (hf : ∀ k, (f k).part = k.part ∧ (f k).slot = k.slot) (cl part : Nat) (d : Decl)
    (s : State) : slotStateOf (clusterAt (onSlot cl part d f s) cl) part d = f (slotStateOf (clusterAt s cl) part d) := by
  obtain ⟨hpart, hslot⟩ := slotStateOf_key (clusterAt s cl) part d
  obtain ⟨hfp, hfs⟩ := hf (slotStateOf (clusterAt s cl) part d)
  rw [onSlot, clusterAt_onCluster (fun _ => by rfl)]
  rw [slotStateOf, List.find?_cons, hfp, hfs, hpart, hslot]
  simp

/-- A threshold write that no launch's completion follows is the slot's threshold at its store. -/
theorem setThreshold_run {pt : Partition} {d : Decl} {part slot cl : Nat} {x : W32} (hp : partAt s part = some pt)
    (hpop : ∀ l ∈ pt.launches, l.pop ≠ 0) (hd : declOf pt slot = some d) :
    setThreshold part slot cl x s = onSlot cl part d (fun k => { k with thr := x }) s := by
  have hsweep := sweepPart_none (s := onSlot cl part d (fun k => { k with thr := x }) s) (tag := part) hp hpop
  simp [setThreshold, hp, hd, hsweep]

theorem landThreshold_frame {pt : Partition} {d : Decl} {k part slot cl : Nat} {x : W32} (hp : partAt s part = some pt)
    (hcl : cl ∈ ringOf pt) (hpop : ∀ l ∈ pt.launches, l.pop ≠ 0) (hd : declOf pt slot = some d) :
    let t := landThreshold k (part, slot, cl, x) s
    t.thrs = s.thrs.eraseIdx k ∧ (slotStateOf (clusterAt t cl) part d).thr = x := by
  let left : State := { s with thrs := s.thrs.eraseIdx k }
  let set := onSlot cl part d (fun k => { k with thr := x }) left
  have hset : setThreshold part slot cl x left = set := setThreshold_run (s := left) hp hpop hd
  have hthr : (slotStateOf (clusterAt set cl) part d).thr = x := by
    rw [slotStateOf_onSlot (fun _ => by exact ⟨rfl, rfl⟩)]
  have hcl' : (ringOf pt).contains cl = true := by simpa using hcl
  simp only [landThreshold, hp, Option.any_some, hcl', if_true]
  rw [show setThreshold part slot cl x { s with thrs := s.thrs.eraseIdx k } = set from hset]
  split
  · exact ⟨rfl, hthr⟩
  · exact ⟨rfl, hthr⟩

/-! ### The events -/

theorem execLoadValueArrival_bad (hp : (ctxOf (coreAt s core) ctx).prods.find? (fun q => q.reg == n && !q.failed) = some p)
    (hbad : p.bad = false) : exec (.loadValueArrival core ctx n true) s =
      .next (markFound (placeOfVa core ctx p.addr s) (onCtx core ctx (arriveValue n true) s)) := by
  change execLoadValueArrival core ctx n true s = _
  simp only [execLoadValueArrival, if_true, soundData_first hp hbad, Option.bind_some]
  rfl

theorem allocOf_onCtx (g : Ctx → Ctx) (s : State) (ph part gid : Nat) :
    allocOf (coreAt (onCtx core ctx g s) ph) part gid = allocOf (coreAt s ph) part gid := by
  by_cases hph : core = ph
  · subst hph
    rw [onCtx, coreAt_onCore (fun c => by simp)]
    simp [allocOf]
  · rw [onCtx, coreAt_onCore_ne (fun c => by simp) hph]

/-- Where the data that is found bad came from: its line is bad (R194). -/
theorem markFound_marks (found : Option Place) (s : State) : (∀ pa, found = some (.mem pa) → pa / 64 ∈ (markFound found s).badLines) ∧
    ∀ ph part gid off a, found = some (.ls ph part gid off) → allocOf (coreAt s ph) part gid = some a →
      (allocOf (coreAt (markFound found s) ph) part gid).any (fun b => b.bad.contains (off / 64)) = true := by
  refine ⟨?_, ?_⟩
  · rintro pa rfl
    exact badAt_markBad_mem pa s
  · rintro ph part gid off a rfl ha
    exact badAt_markBad_local ha

/-- What a remote write that lands leaves of its core, whether it fits or not (R68, R73). -/
theorem landRemote_frame (h0 : w.idx ≠ 0) (hpart : c.part = some w.part) :
    let fits := c.run.isSome = true ∧ c.ctl.live = true ∧ c.ctl.pres.getLsbD w.idx.val = false ∧
      (∀ q ∈ c.ctl.prods, q.reg = w.idx → q.failed = true) ∧ ∀ e ∈ c.inbox, e.idx ≠ w.idx
    let d := landRemote w c
    (fits → d.ctl.regs[w.idx] = w.value ∧ d.ctl.pres.getLsbD w.idx.val = true ∧ d.inbox = c.inbox) ∧
      (¬ fits → d.inbox = c.inbox ++ [⟨w.idx, w.value, w.src⟩] ∧ d.ctl = c.ctl) := by
  intro fits d
  have hfits : fits ↔ occupied w.part c = true ∧ remoteFits c.ctl w.idx c.inbox = true := by
    rw [occupied_iff hpart, remoteFits_iff, and_assoc]
  refine ⟨fun h => ?_, fun h => ?_⟩
  · obtain ⟨hocc, hfit⟩ := hfits.mp h
    simp only [d, landRemote_applied h0 hocc hfit]
    exact applyRemote_frame h0 _ _
  · simp only [d, landRemote_kept h0 hpart (fun hboth => h (hfits.mpr hboth)), and_self]

/-- Settles O43: each arrival changes the register, the inbox or the slot that it is for. -/
theorem arrivalsAtCores : Obligations.ArrivalsAtCores := by
  unfold Obligations.ArrivalsAtCores
  refine ⟨?_, ⟨?_, ?_⟩, ?_, ?_, ?_⟩
  · intro core ctx n p s x h0 hp hbad
    refine ⟨⟨onCtx core ctx (arriveValue n false) s, rfl, ?_⟩, ⟨_, execLoadValueArrival_bad hp hbad, ?_⟩⟩
    · rw [ctxOf_onCtx, arriveValue_sound hp hbad]
      exact ⟨putReg_self h0 _ _, putReg_present h0 _ _, putReg_prods _ _ _,
        fun m hm => ⟨putReg_other hm _ _, putReg_pres_other hm _ _⟩, onCtx_mem _ _ _ _, onCtx_badLines _ _ _ _⟩
    · obtain ⟨hmem, hctx⟩ := markFound_frame (placeOfVa core ctx p.addr s) (onCtx core ctx (arriveValue n true) s)
      obtain ⟨hmarkMem, hmarkLocal⟩ := markFound_marks (placeOfVa core ctx p.addr s) (onCtx core ctx (arriveValue n true) s)
      rw [hctx, ctxOf_onCtx, arriveValue_bad hp]
      exact ⟨rfl, rfl, rfl, hmarkMem, fun ph part gid off a hpl ha => hmarkLocal ph part gid off a hpl ((allocOf_onCtx _ s _ _ _).trans ha),
        hmem.trans (onCtx_mem _ _ _ _)⟩
  · intro k w pt r s hw hp hq hr hvalid htransit hpart h0 hrem hmsg
    have hcore : coreAt (onCore r.phys (landRemote w) { s with remotes := s.remotes.eraseIdx k }) r.phys =
        landRemote w (coreAt s r.phys) := coreAt_onCore (landRemote_phys w) _ _
    refine ⟨_, execRemoteWriteArrival_lands hw hp hq hr hvalid htransit hpart (flowTurn_of hrem hmsg), onCore_remotes _ _ _,
      onCore_mem _ _ _, ?_⟩
    rw [hcore]
    exact landRemote_frame h0 hpart
  · intro core k e s c he h0 hpart hrun hlive hfits
    obtain ⟨tag, htag⟩ := Option.isSome_iff_exists.mp hpart
    have hocc : c.part.any (fun t => occupied t c) = true := by
      rw [htag]
      exact (occupied_iff htag).mpr ⟨hrun, hlive⟩
    have hcore : coreAt (onCore core (applyEntry k) s) core = applyEntry k (coreAt s core) := coreAt_onCore (applyEntry_phys k) core s
    refine ⟨onCore core (applyEntry k) s, rfl, ?_⟩
    rw [hcore, applyEntry_fits he hocc hfits]
    exact applyRemote_frame h0 e.value { c with inbox := c.inbox.eraseIdx k }
  · intro k a s ha h0 hlock
    have hlock' : (ctxOf (coreAt { s with answers := s.answers.eraseIdx k } a.phys) a.ctx).locks.contains a.reg = true := hlock
    refine ⟨takeAnswer a.phys a.ctx a.reg a.status { s with answers := s.answers.eraseIdx k }, ?_,
      takeAnswer_answers _ _ _ _ _ hlock', takeAnswer_locked h0 hlock'⟩
    change execFpostStatusAnswer k s = _
    simp [execFpostStatusAnswer, ha]
  · intro core ctx st before after m s hmsgs hphys hctx hans hbefore hawait
    have htake : takeFirst (fun m => m.phys == core && m.ctx == ctx && m.answer.isSome) s.msgs = some (m, before ++ after) := by
      rw [hmsgs]
      refine takeFirst_append (by simp [hphys, hctx, hans]) fun q hq => ?_
      rw [← Bool.not_eq_true]
      simpa [and_assoc] using hbefore q hq
    refine ⟨answerSender core ctx st { s with msgs := before ++ after }, ?_, onCtx_msgs _ _ _ _, answerSender_await hawait⟩
    change execMsendAnswer core ctx s = _
    simp [execMsendAnswer, htake, hans]
  · intro k part slot cl x pt d s hk hfirst hp hq hcl hpop hd
    have hnone : (s.thrs.take k).any (fun u => u.1 == part && u.2.1 == slot && u.2.2.1 == cl) = false := by
      rw [List.any_eq_false]
      intro q hq' htest
      exact hfirst q hq' (by simpa [and_assoc] using htest)
    refine ⟨landThreshold k (part, slot, cl, x) s, ?_, landThreshold_frame hp hcl hpop hd⟩
    change execThresholdWriteArrival k s = _
    simp [execThresholdWriteArrival, hk, hp, hq, hnone]

end Sys2Proof.Machine
end

section
/-!
SUPPORT. Loads: the access, what it brings, and when (R63, R177, R194, R195, R197, R199, R200).
-/

namespace Sys2Proof.Machine

open Sys2Proof.Safety

variable {s t u s1 s2 s3 : State} {f : InstrInfo} {d base : Reg} {va : Word} {n : Nat} {g : Nat → Word} {ps : List Piece} {p : Place}
  {q : Piece} {l : Loaded}

/-! ### A change that changes nothing -/

theorem putCtx_ctxOf (c : Core) (i : Nat) : putCtx c i (ctxOf c i) = c := by
  unfold putCtx ctxOf
  split
  · rw [Vector.set_getElem_self]
  · rfl

/-- A write to s0 is discarded (R18). -/
theorem setReg_zero (v : Word) (s : State) : setReg 0 v s = s := by
  have hput : putReg 0 v (curCtx s) = curCtx s := if_pos rfl
  rw [setReg, onCur_eq, hput, curCtx, putCtx_ctxOf]

/-! ### The bytes of a load (R194, R199, R200) -/

/-- What a load of the pieces gives, once their accesses are made. -/
def loadedOf (s : State) (va : Word) (ps : List Piece) (s3 : State) : Loaded :=
  ⟨piecesBytes s3 (curAgent s) ps, isPeer va || missesL1 s3 s.core.phys ps, anyBad s3 ps, ps.findSome? (fun q => q.pa?.bind packageOf)⟩

theorem checkBad_sound (h : ∀ q ∈ ps, badAt s q.place = false) : checkBad false ps s = .ok () s := by
  have hnone : ps.find? (fun q => q.isBad s && !(false && q.len == 64)) = none := by
    rw [List.find?_eq_none]
    intro q hq
    simp [Piece.isBad, h q hq]
  unfold checkBad
  rw [get_bind, hnone]
  rfl

theorem checkBad_first {before after : List Piece} (hbefore : ∀ r ∈ before, badAt s r.place = false)
    (hbad : badAt s q.place = true) : checkBad false (before ++ q :: after) s = .error (.trap 0x17 (badEval q.va) 0) s := by
  have hfind : (before ++ q :: after).find? (fun q => q.isBad s && !(false && q.len == 64)) = some q := by
    refine List.find?_eq_some_iff_append.mpr ⟨by simp [Piece.isBad, hbad], before, after, rfl, fun r hr => ?_⟩
    simp [Piece.isBad, hbefore r hr]
  unfold checkBad
  rw [get_bind, hfind]
  rfl

section
variable (hopen : Opens s .load needR va n ps s1) (hmeet : performMeeting (curAgent s) ps s1 = .ok () s2)
  (htxn : inTxn s2 (curAgent s) = false)
include hopen hmeet htxn

/-- A load outside a transaction makes its accesses, then its bytes are there, or it finds a bad line (R194, R199). -/
theorem loadAct_run : loadAct (curAgent s) va n s =
    (do if !(loadedOf s va ps (reachPieces (curAgent s) ps s2)).slow then checkBad false ps
        set (fillL1 s.core.phys ps (reachPieces (curAgent s) ps s2))
        return loadedOf s va ps (reachPieces (curAgent s) ps s2) : Act Loaded) (reachPieces (curAgent s) ps s2) := by
  unfold loadAct
  refine (bind_ok hopen).trans ((bind_ok hmeet).trans ?_)
  simp only [get_bind, htxn, Bool.false_eq_true, if_false, set_bind]
  rfl

theorem loadAct_ok (h : (loadedOf s va ps (reachPieces (curAgent s) ps s2)).slow = true ∨
    ∀ q ∈ ps, badAt (reachPieces (curAgent s) ps s2) q.place = false) :
    loadAct (curAgent s) va n s = .ok (loadedOf s va ps (reachPieces (curAgent s) ps s2))
      (fillL1 s.core.phys ps (reachPieces (curAgent s) ps s2)) := by
  rw [loadAct_run hopen hmeet htxn]
  rcases h with hslow | hsound
  · simp only [hslow, Bool.not_true, Bool.false_eq_true, if_false]
    rfl
  · by_cases hslow : (loadedOf s va ps (reachPieces (curAgent s) ps s2)).slow = true
    · simp only [hslow, Bool.not_true, Bool.false_eq_true, if_false]
      rfl
    · rw [Bool.not_eq_true] at hslow
      simp only [hslow, Bool.not_false, if_true]
      exact bind_ok (checkBad_sound hsound)

/-- A bad line of a load that brings its value at once is found at the instruction (R194, R195). -/
theorem loadAct_bad {before after : List Piece} (hslow : (loadedOf s va ps (reachPieces (curAgent s) ps s2)).slow = false)
    (hps : ps = before ++ q :: after) (hbefore : ∀ r ∈ before, badAt (reachPieces (curAgent s) ps s2) r.place = false)
    (hbad : badAt (reachPieces (curAgent s) ps s2) q.place = true) :
    loadAct (curAgent s) va n s = .error (.trap 0x17 (badEval q.va) 0) (reachPieces (curAgent s) ps s2) := by
  have hcheck : checkBad false ps (reachPieces (curAgent s) ps s2) =
      .error (.trap 0x17 (badEval q.va) 0) (reachPieces (curAgent s) ps s2) := by
    subst hps
    exact checkBad_first hbefore hbad
  rw [loadAct_run hopen hmeet htxn]
  simp only [hslow, Bool.not_false, if_true]
  exact bind_error hcheck

end

/-! ### Into the destination (R63, R197) -/

/-- No monitor unit of the cluster of the core in focus is on (R400). -/
def MonitorsOff (s : State) : Prop := (clusterAt s (clusterOf s.core.phys)).mons.all (fun u => !u.config.getLsbD 0) = true

theorem sampleLoad_off (h : MonitorsOff s) (addr : Word) (n : Nat) (t : State) : sampleLoad (curAgent s) s addr n t = .ok () t := by
  have h : (clusterAt s (clusterOf (curAgent s).phys)).mons.all (fun u => !u.config.getLsbD 0) = true := h
  unfold sampleLoad
  rw [h]
  rfl

section
variable (hw : Writable s d) (hmon : MonitorsOff s)
include hw

theorem loadTo_bad {e : Stop} (h : loadAct (curAgent s) va n s = .error e t) : loadTo d va n g s = .error e t := by
  unfold loadTo
  rw [bind_ok (destReady_ok hw), get_bind, get_bind]
  exact bind_error h

include hmon

/-- What a load does with what its access gave: nothing without a destination, unless a line is bad; else the value comes at once, or
later. -/
theorem loadTo_run (h : loadAct (curAgent s) va n s = .ok l t) : loadTo d va n g s =
    (if d = 0 then (if l.bad then trapAct 0x17 (badEval va) else pure ())
      else if l.slow then modify (bring d (g (leNat l.bytes)) va l.bad l.package)
      else modify (setReg d (g (leNat l.bytes))) : Act Unit) t := by
  unfold loadTo
  rw [bind_ok (destReady_ok hw)]
  exact (bind_ok h).trans (bind_ok (sampleLoad_off hmon va n t))

theorem loadTo_later (h : loadAct (curAgent s) va n s = .ok l t) (hslow : l.slow = true) (hd : d ≠ 0) :
    loadTo d va n g s = .ok () (bring d (g (leNat l.bytes)) va l.bad l.package t) := by
  rw [loadTo_run hw hmon h, if_neg hd, if_pos hslow]
  rfl

theorem loadTo_now (h : loadAct (curAgent s) va n s = .ok l t) (hslow : l.slow = false) (hbad : l.bad = false) :
    loadTo d va n g s = .ok () (setReg d (g (leNat l.bytes)) t) := by
  rw [loadTo_run hw hmon h, hslow, hbad]
  split
  · rename_i hd
    rw [hd, setReg_zero]
    rfl
  · rfl

end

theorem loadTo_discarded (hmon : MonitorsOff s) (h : loadAct (curAgent s) va n s = .ok l t) : loadTo 0 va n g s =
    if l.bad then .error (.trap 0x17 (badEval va) 0) t else .ok () t := by
  rw [loadTo_run (.inl rfl) hmon h, if_pos rfl]
  split <;> rfl

/-! ### The instructions -/

/-- Every load is its access, into its destination (R197). -/
theorem exec_load {i : Instr} {a : AccessForm} (hf : frameOf i = some f) (hi : loadForm s i = some (d, a, g)) :
    0 < a.size ∧ ∃ (w : Bool) (off : BitVec 11), a.addr = scaledAddr s a.base off a.size ∧
      exec i s = runSeq f (loadBody d a.base w off a.size g) s := by
  have hdword : zextBits 64 = fun v => BitVec.ofNat 64 v := by
    funext v
    exact BitVec.eq_of_toNat_eq (by simp [zextBits])
  cases i <;> simp only [loadForm, Option.some.injEq, Prod.mk.injEq, reduceCtorEq] at hi <;> obtain ⟨rfl, rfl, rfl⟩ := hi <;>
    cases hf <;> refine ⟨by simp only [Nat.lt_add_one, Nat.ofNat_pos], ?_⟩
  case ldB w off => exact ⟨w, off, rfl, rfl⟩
  case ldH w off => exact ⟨w, off, rfl, rfl⟩
  case ldW w off => exact ⟨w, off, rfl, rfl⟩
  case ldD w off => exact ⟨w, off, rfl, by rw [← hdword]; rfl⟩
  case ldBn w off => exact ⟨w, off, rfl, rfl⟩
  case ldHn w off => exact ⟨w, off, rfl, rfl⟩
  case ldWn w off => exact ⟨w, off, rfl, rfl⟩
  case cLd b w => exact ⟨w, 0, by simp [scaledAddr], by rw [← hdword]; rfl⟩

theorem loadBody_run (hb : Readable s base) (w : Bool) {off : BitVec 11} (hva : va = scaledAddr s base off n) :
    loadBody d base w off n g s = loadTo d va n g s := by
  have haddr : off.signExtend 64 * BitVec.ofNat 64 n = BitVec.ofInt 64 (off.toInt * n) := by
    rw [BitVec.ofInt_mul]; rfl
  unfold loadBody
  rw [bind_ok (readS_ok hb w), haddr, hva]
  rfl

section
variable {i : Instr} {a : AccessForm} (hf : frameOf i = some f) (hi : loadForm s i = some (d, a, g)) (hmay : MayIssue f s)
  (hb : Readable s a.base)
include hf hi hmay hb

theorem load_completes (h : loadTo d a.addr a.size g s = .ok () t) : exec i s = .next (completes f t) := by
  obtain ⟨-, w, off, haddr, hexec⟩ := exec_load hf hi
  rw [hexec, runSeq_ok hmay ((loadBody_run hb w haddr).trans h)]

theorem load_stops {e : Stop} (h : loadTo d a.addr a.size g s = .error e t) : exec i s = .next (halt e t) := by
  obtain ⟨-, w, off, haddr, hexec⟩ := exec_load hf hi
  rw [hexec, runSeq_stops hmay ((loadBody_run hb w haddr).trans h)]

end

/-! ### The own window of the local store (R177) -/

theorem performMeeting_own (hpl : Plain s) (phys part gid off : Nat) :
    performMeeting (curAgent s) [wholePiece (.ls phys part gid off) false va false n] s = .ok () s := by
  unfold performMeeting
  rw [bind_ok (awaitProxies_own hpl.noVec phys part gid off)]
  simp [hpl.noPend]

theorem isPeer_own (hlow : va.toNat % 2 ^ 48 < 0x20000) : isPeer va = false := by
  have hnot : ¬ 0x20000 ≤ va.toNat % 2 ^ 48 := by omega
  exact Bool.and_eq_false_iff.mpr (.inr (decide_eq_false hnot))

/-- A load from the own window has its bytes at once (R177, R199). -/
theorem loadAct_own (hpl : Plain s) (h0 : 0 < n) (hown : ownPlace s va n = some p) :
    ∃ l, loadAct (curAgent s) va n s = .ok l s ∧ l.slow = false ∧ l.bad = false ∧ l.bytes = storeBytes s p n := by
  have hopen := openAccess_own hpl h0 hown (curWaiter s) .load needR true
  obtain ⟨r, al, -, hal, -, hlow, -, -, hsound, rfl⟩ := ownPlace_eq_some hown
  have htxn : inTxn s (curAgent s) = false := by simp [inTxn, hpl.noTxn]
  have hbad : badAt s (.ls s.core.phys r.part r.gid (va.toNat % 2 ^ 48)) = false := by
    simpa [badAt, hal] using hsound
  have hrun := loadAct_ok hopen (performMeeting_own hpl _ _ _ _) htxn (.inr (by simpa [wholePiece, reachPieces, readAt] using hbad))
  refine ⟨_, hrun, ?_, ?_, ?_⟩
  · simp [loadedOf, isPeer_own hlow, missesL1, wholePiece]
  · simpa [loadedOf, anyBad, Piece.isBad, wholePiece, reachPieces, readAt] using hbad
  · simp [loadedOf, piecesBytes, htxn, wholePiece, storeBytes, reachPieces, readAt]

/-- Settles O16: a load is its access, and what that gives goes to the destination at once or later. -/
theorem loadsBringBytes : Obligations.LoadsBringBytes := by
  unfold Obligations.LoadsBringBytes
  refine ⟨?_, ?_⟩
  · intro i f d a g p s hf hi hmay hb hw hpl hown
    obtain ⟨hsize, -⟩ := exec_load hf hi
    obtain ⟨l, hload, hslow, hbad, hbytes⟩ := loadAct_own hpl hsize hown
    rw [load_completes hf hi hmay hb (loadTo_now hw hpl.noMons hload hslow hbad), hbytes]
    rfl
  · intro i f d a g ps s s1 s2 hf hi hmay hb hw hmon hopen hmeet htxn s3 s4 v slow
    refine ⟨fun hslow hd => ?_, fun hslow hd => ?_, fun hslow hsound => ?_, fun before p after hslow hps hbefore hbad => ?_⟩
    · exact load_completes hf hi hmay hb (loadTo_later hw hmon (loadAct_ok hopen hmeet htxn (.inl hslow)) hslow hd)
    · subst hd
      have hto := loadTo_discarded (g := g) hmon (loadAct_ok hopen hmeet htxn (.inl hslow))
      split
      · next hbad => exact load_stops hf hi hmay hb (hto.trans (if_pos hbad))
      · next hsound => exact load_completes hf hi hmay hb (hto.trans (if_neg hsound))
    · have hbad : (loadedOf s a.addr ps s3).bad = false := by
        simpa [loadedOf, anyBad, Piece.isBad] using hsound
      exact load_completes hf hi hmay hb (loadTo_now hw hmon (loadAct_ok hopen hmeet htxn (.inr hsound)) hslow hbad)
    · exact load_stops hf hi hmay hb (loadTo_bad hw (loadAct_bad hopen hmeet htxn hslow hps hbefore hbad))

end Sys2Proof.Machine
end

section
/-!
SUPPORT. The integer results over natural numbers and integers (R44, R76 to R79).
-/

namespace Sys2Proof.Machine

open Sys2Proof.Safety

variable {s : State} {f : InstrInfo}

/-! ### The operations of two operands (R76) -/

theorem boolWord_eq_truth {b : Bool} {p : Prop} [Decidable p] (h : b = true ↔ p) : boolWord b = truth p := by
  by_cases hp : p
  · rw [truth, if_pos hp, h.mpr hp]; rfl
  · rw [truth, if_neg hp, Bool.eq_false_iff.mpr (fun hb => hp (h.mp hb))]; rfl

theorem remSigned_eq (x y : Word) : remSigned x y = aluValue .rem x y := by
  rw [remSigned, Int.tmod_def]
  rfl

theorem divNat_eq (x y : Word) : divNat x y = aluValue .divn x y := by
  unfold divNat aluValue
  split
  · rfl
  · exact BitVec.eq_of_toNat_eq (by
      rw [BitVec.toNat_udiv, BitVec.toNat_ofNat, Nat.mod_eq_of_lt (Nat.lt_of_le_of_lt (Nat.div_le_self ..) x.isLt)])

theorem remNat_eq (x y : Word) : remNat x y = aluValue .remn x y := by
  unfold remNat aluValue
  split
  · rfl
  · exact BitVec.eq_of_toNat_eq (by
      rw [BitVec.toNat_umod, BitVec.toNat_ofNat, Nat.mod_eq_of_lt (Nat.lt_of_le_of_lt (Nat.mod_le ..) x.isLt)])

theorem shiftLeft_eq_ofNat (x : Word) (k : Nat) : x <<< k = BitVec.ofNat 64 (x.toNat * 2 ^ k) :=
  BitVec.eq_of_toNat_eq (by rw [BitVec.toNat_shiftLeft, BitVec.toNat_ofNat, Nat.shiftLeft_eq])

theorem shiftRight_eq_ofNat (x : Word) (k : Nat) : x >>> k = BitVec.ofNat 64 (x.toNat / 2 ^ k) :=
  BitVec.eq_of_toNat_eq (by
    rw [BitVec.toNat_ushiftRight, BitVec.toNat_ofNat, Nat.shiftRight_eq_div_pow,
      Nat.mod_eq_of_lt (Nat.lt_of_le_of_lt (Nat.div_le_self ..) x.isLt)])

theorem sshiftRight_eq_ofInt (x : Word) (k : Nat) : x.sshiftRight k = BitVec.ofInt 64 (x.toInt / 2 ^ k) := by
  rw [BitVec.sshiftRight, Int.shiftRight_eq_div_pow]
  norm_cast

/-- A rotation to the right: the upper bits move down, the lower ones come above them. -/
theorem rotateRight_eq_ofNat (x : Word) {k : Nat} (hk : k < 64) :
    x.rotateRight k = BitVec.ofNat 64 (x.toNat / 2 ^ k + x.toNat % 2 ^ k * 2 ^ (64 - k)) := by
  have hsplit : 2 ^ k * 2 ^ (64 - k) = 2 ^ 64 := by rw [← pow_add]; congr 1; omega
  have hupper : x.toNat / 2 ^ k < 2 ^ (64 - k) := Nat.div_lt_of_lt_mul (by rw [hsplit]; exact x.isLt)
  have hlower : x.toNat * 2 ^ (64 - k) % 2 ^ 64 = x.toNat % 2 ^ k * 2 ^ (64 - k) := by
    rw [← hsplit, Nat.mul_mod_mul_right]
  have hfits : x.toNat / 2 ^ k + x.toNat % 2 ^ k * 2 ^ (64 - k) < 2 ^ 64 := by
    have hmod : x.toNat % 2 ^ k + 1 ≤ 2 ^ k := Nat.mod_lt _ (Nat.two_pow_pos k)
    calc _ < (x.toNat % 2 ^ k + 1) * 2 ^ (64 - k) := by rw [Nat.add_mul]; omega
      _ ≤ 2 ^ k * 2 ^ (64 - k) := Nat.mul_le_mul_right _ hmod
      _ = 2 ^ 64 := hsplit
  refine BitVec.eq_of_toNat_eq ?_
  rw [BitVec.toNat_rotateRight, Nat.mod_eq_of_lt hk, BitVec.toNat_ofNat, Nat.mod_eq_of_lt hfits, Nat.shiftRight_eq_div_pow,
    Nat.shiftLeft_eq, hlower, Nat.or_comm, ← Nat.shiftLeft_eq, ← Nat.shiftLeft_add_eq_or_of_lt hupper, Nat.add_comm]

theorem minSigned_eq (x y : Word) : (if x.slt y then x else y) = if x.toInt ≤ y.toInt then x else y := by
  rcases lt_trichotomy x.toInt y.toInt with h | h | h
  · rw [if_pos (BitVec.slt_iff_toInt_lt.mpr h), if_pos h.le]
  · rw [BitVec.eq_of_toInt_eq h]; simp
  · rw [if_neg (fun hs => absurd (BitVec.slt_iff_toInt_lt.mp hs) h.not_gt), if_neg h.not_ge]

theorem maxSigned_eq (x y : Word) : (if x.slt y then y else x) = if x.toInt ≤ y.toInt then y else x := by
  rcases lt_trichotomy x.toInt y.toInt with h | h | h
  · rw [if_pos (BitVec.slt_iff_toInt_lt.mpr h), if_pos h.le]
  · rw [BitVec.eq_of_toInt_eq h]; simp
  · rw [if_neg (fun hs => absurd (BitVec.slt_iff_toInt_lt.mp hs) h.not_gt), if_neg h.not_ge]

theorem minNat_eq (x y : Word) : (if x.ult y then x else y) = if x.toNat ≤ y.toNat then x else y := by
  rcases lt_trichotomy x.toNat y.toNat with h | h | h
  · rw [if_pos (BitVec.ult_iff_toNat_lt.mpr h), if_pos h.le]
  · rw [BitVec.eq_of_toNat_eq h]; simp
  · rw [if_neg (fun hs => absurd (BitVec.ult_iff_toNat_lt.mp hs) h.not_gt), if_neg h.not_ge]

theorem maxNat_eq (x y : Word) : (if x.ult y then y else x) = if x.toNat ≤ y.toNat then y else x := by
  rcases lt_trichotomy x.toNat y.toNat with h | h | h
  · rw [if_pos (BitVec.ult_iff_toNat_lt.mpr h), if_pos h.le]
  · rw [BitVec.eq_of_toNat_eq h]; simp
  · rw [if_neg (fun hs => absurd (BitVec.ult_iff_toNat_lt.mp hs) h.not_gt), if_neg h.not_ge]

/-- What the ALU gives is the result over natural numbers and integers (R76). -/
theorem aluOp_eq_aluValue (op : AluOp) (x y : Word) : aluOp op x y = aluValue op x y := by
  cases op
  case rem => exact remSigned_eq x y
  case divn => exact divNat_eq x y
  case remn => exact remNat_eq x y
  case sll => exact shiftLeft_eq_ofNat x _
  case srl => exact shiftRight_eq_ofNat x _
  case sra => exact sshiftRight_eq_ofInt x _
  case ror => exact rotateRight_eq_ofNat x (Nat.mod_lt _ (by decide))
  case min => exact minSigned_eq x y
  case max => exact maxSigned_eq x y
  case minn => exact minNat_eq x y
  case maxn => exact maxNat_eq x y
  case slt => exact boolWord_eq_truth BitVec.slt_iff_toInt_lt
  case sltn => exact boolWord_eq_truth BitVec.ult_iff_toNat_lt
  case seq => exact boolWord_eq_truth beq_iff_eq
  all_goals rfl

/-! ### Counting bits (R76) -/

theorem length_takeWhile_range {p : Nat → Bool} {n k : Nat} (hbefore : ∀ i < k, p i = true) (hk : k = n ∨ k < n ∧ p k = false) :
    ((List.range n).takeWhile p).length = k := by
  have hall : ∀ x ∈ List.range k, p x = true := fun i hi => hbefore i (List.mem_range.mp hi)
  rcases hk with rfl | ⟨hlt, hstop⟩
  · rw [List.takeWhile_eq_self_iff.mpr hall, List.length_range]
  · obtain ⟨r, rfl⟩ : ∃ r, n = k + (r + 1) := ⟨n - k - 1, by omega⟩
    rw [List.range_add, List.takeWhile_append_of_pos hall, List.range_succ_eq_map]
    simp [hstop]

/-- The highest one bit is the binary logarithm. -/
theorem leadingZeros_eq (x : Word) : leadingZeros x = clz64 x := by
  unfold leadingZeros clz64
  split
  · next h0 => exact length_takeWhile_range (fun i _ => by simp [h0]) (.inl rfl)
  · next h0 =>
    have hne : x.toNat ≠ 0 := fun h => h0 (BitVec.eq_of_toNat_eq h)
    have hlog : x.toNat.log2 < 64 := (Nat.log2_lt hne).mpr x.isLt
    refine length_takeWhile_range (fun i hi => ?_) (.inr ⟨by omega, ?_⟩)
    · have hclear : x.toNat.testBit (63 - i) = false := Nat.testBit_lt_two_pow ((Nat.log2_lt hne).mp (by omega))
      rw [← BitVec.testBit_toNat, hclear]
      rfl
    · have hset : x.toNat.testBit x.toNat.log2 = true := Nat.testBit_log2 hne
      rw [← BitVec.testBit_toNat, show 63 - (63 - x.toNat.log2) = x.toNat.log2 by omega, hset]
      rfl

theorem length_takeWhile_testBit (n x : Nat) : ((List.range n).takeWhile (fun i => !x.testBit i)).length = ctzN n x := by
  induction n generalizing x with
  | zero => rfl
  | succ n ih =>
    rw [List.range_succ_eq_map, List.takeWhile_cons, ctzN, Nat.testBit_zero]
    by_cases h : x % 2 = 1
    · simp [h]
    · rw [List.takeWhile_map]
      simp only [h, decide_false, Bool.not_false, if_true, if_false, List.length_cons, List.length_map]
      rw [← ih (x / 2), Nat.add_comm]
      simp only [Function.comp_def, Nat.succ_eq_add_one, Nat.testBit_add_one]

theorem length_filter_testBit (n x : Nat) : ((List.range n).filter (fun i => x.testBit i)).length = popcount n x := by
  induction n generalizing x with
  | zero => rfl
  | succ n ih =>
    rw [List.range_succ_eq_map, List.filter_cons, popcount, List.filter_map, ← ih (x / 2), Nat.testBit_zero]
    simp only [Function.comp_def, Nat.succ_eq_add_one, Nat.testBit_add_one]
    rcases Nat.mod_two_eq_zero_or_one x with h | h
    · simp [h]
    · simp [h, Nat.add_comm]

theorem trailingZeros_eq (x : Word) : trailingZeros x = ctzN 64 x.toNat := by
  rw [← length_takeWhile_testBit]
  rfl

theorem oneBits_eq (x : Word) : oneBits x = popcount 64 x.toNat := by
  rw [← length_filter_testBit]
  rfl

/-! ### Extensions and immediates (R18, R77 to R79) -/

theorem signExtended_eq (size : Fin 3) (x : Word) : signExtended size x = sextBits (sizeBits size) x.toNat := by
  match size with
  | 0 => rfl
  | 1 => rfl
  | 2 => rfl

theorem hiValue_eq (imm : BitVec 20) : hiValue imm = BitVec.ofInt 64 (imm.toInt * 4096) := by
  rw [hiValue, BitVec.shiftLeft_eq_mul_twoPow, BitVec.ofInt_mul]
  rfl

theorem zeroExtend_eq_ofNat (amt : BitVec 6) : amt.zeroExtend 64 = BitVec.ofNat 64 amt.toNat :=
  BitVec.eq_of_toNat_eq (by simp)

/-! ### The instructions -/

/-- An instruction that completes with a result in its destination and does nothing else. -/
def Computes (f : InstrInfo) (s : State) (r : RegForm) (o : Host.Outcome State Fault Refusal) : Prop :=
  MayIssue f s → AllReadable s r.reads → Writable s r.dest → o = .next (completes f (setReg r.dest r.value s))

section
variable {d a b : Reg} {wa wb : Bool} {g : Word → Word} {v : Word}

theorem computes_alu (op : AluOp) (h : v = aluValue op (regVal s a) (regVal s b)) :
    Computes f s ⟨[a, b], d, v, 0⟩ (runSeq f (aluBody op d a b wa wb) s) := by
  subst h
  intro hi hr hw
  rw [runSeq_ok hi (aluBody_ok op hr hw), aluOp_eq_aluValue]

theorem computes_unary (h : v = g (regVal s a)) : Computes f s ⟨[a], d, v, 0⟩ (runSeq f (unaryBody g d a wa) s) := by
  subst h
  intro hi hr hw
  rw [runSeq_ok hi (unaryBody_ok g hr hw)]

/-- An operation with a constant (R77, R78). -/
theorem computes_constant (op : AluOp) {k : Word} (h : v = aluValue op (regVal s a) k) :
    Computes f s ⟨[a], d, v, 0⟩ (runSeq f (unaryBody (fun x => aluOp op x k) d a wa) s) :=
  computes_unary (h.trans (aluOp_eq_aluValue op _ k).symm)

theorem computes_csel : Computes f s ⟨[a, b, d], d, if regVal s d ≠ 0 then regVal s a else regVal s b, 0⟩
    (runSeq f (cselBody d a b wa wb) s) := by
  intro hi hr hw
  rw [runSeq_ok hi (cselBody_ok hr hw)]

theorem computes_written (g : State → Word) (h : v = g s) : Computes f s ⟨[], d, v, 0⟩ (runSeq f (do writeS d (g (← get))) s) := by
  subst h
  intro hi _ hw
  exact runSeq_ok hi ((get_bind _ s).trans (writeS_ok hw (g s)))

end

/-- c.mv is or with s0, which reads as 0 (R44). -/
theorem regVal_or_zero (s : State) (b : Reg) : regVal s b = aluValue .or (regVal s 0) (regVal s b) :=
  (BitVec.zero_or).symm

theorem intForm_computes {i : Instr} {r : RegForm} (hf : frameOf i = some f) (h : intForm s i = some r) :
    Computes f s r (exec i s) := by
  cases i <;> cases h <;> cases hf
  case clz => exact computes_unary (by rw [leadingZeros_eq])
  case ctz => exact computes_unary (by rw [trailingZeros_eq])
  case popc => exact computes_unary (by rw [oneBits_eq])
  case sext => exact computes_unary (signExtended_eq ..)
  case zext => exact computes_unary rfl
  case csel => exact computes_csel
  case addi | andi | ori | xori | slti | sltni => exact computes_constant _ rfl
  case slli | srli | srai | rori => exact computes_constant _ (by rw [zeroExtend_eq_ofNat])
  case cAddi => exact computes_unary rfl
  case hi imm => exact computes_written (fun _ => hiValue imm) (hiValue_eq _).symm
  case pcrel imm => exact computes_written (fun s => (curCtx s).pc + hiValue imm) (by rw [hiValue_eq])
  case cMv => exact computes_alu _ (regVal_or_zero ..)
  all_goals exact computes_alu _ rfl

end Sys2Proof.Machine
end

section
/-!
SUPPORT. The scalar floating-point instructions complete with the results of the number formats (R112 to R120).
-/

namespace Sys2Proof.Machine

open Sys2Proof.Safety

variable {s : State} {f : InstrInfo}

/-! ### The sign operations on bits (R115) -/

theorem zextBits_eq_of_toNat {n : Nat} {v : Word} (hn : n < 2 ^ 32) (h : v.toNat = n) : zextBits 32 n = v := by
  rw [zextBits, Nat.mod_eq_of_lt hn, ← h, BitVec.ofNat_toNat, BitVec.setWidth_eq]

theorem low32_eq_and (x : Word) : low32 x = (x &&& 0xFFFFFFFF).toNat := (Nat.and_two_pow_sub_one_eq_mod x.toNat 32).symm

theorem low32_mod_eq_and (x : Word) : low32 x % 0x80000000 = (x &&& 0x7FFFFFFF).toNat := by
  have hmod : low32 x % 0x80000000 = x.toNat % 2 ^ 31 := Nat.mod_mod_of_dvd x.toNat (by decide : 2 ^ 31 ∣ 2 ^ 32)
  exact hmod.trans (Nat.and_two_pow_sub_one_eq_mod x.toNat 31).symm

/-- The sign bit of the low 32 bits, in its place. -/
theorem low32_sign_eq_and (y : Word) : low32 y / 0x80000000 * 0x80000000 = (y &&& 0x80000000).toNat := by
  have hbit : (y &&& 0x80000000).toNat = (y.toNat.testBit 31).toNat * 2 ^ 31 := Nat.and_two_pow y.toNat 31
  rw [hbit, Nat.toNat_testBit, low32]
  omega

theorem fnegOp_eq (r : Rounding) (x : Word) : fnegOp r x = ((x &&& 0xFFFFFFFF) ^^^ 0x80000000, 0) := by
  have hlow : low32 x < 2 ^ 32 := Nat.mod_lt _ (by decide)
  refine Prod.ext (zextBits_eq_of_toNat (Nat.xor_lt_two_pow hlow (by decide)) ?_) rfl
  rw [low32_eq_and]
  rfl

theorem fabsOp_eq (r : Rounding) (x : Word) : fabsOp r x = (x &&& 0x7FFFFFFF, 0) := by
  have hlow : low32 x % 0x80000000 < 2 ^ 31 := Nat.mod_lt _ (by decide)
  exact Prod.ext (zextBits_eq_of_toNat (by omega) (low32_mod_eq_and x).symm) rfl

theorem fsgnjOp_eq (r : Rounding) (x y : Word) : fsgnjOp r x y = ((x &&& 0x7FFFFFFF) ||| (y &&& 0x80000000), 0) := by
  have hmag : low32 x % 0x80000000 < 2 ^ 31 := Nat.mod_lt _ (by decide)
  have hsign : low32 y / 0x80000000 < 2 := Nat.div_lt_of_lt_mul (Nat.mod_lt _ (by decide))
  refine Prod.ext (zextBits_eq_of_toNat (by omega) ?_) rfl
  rw [BitVec.toNat_or, ← low32_mod_eq_and, ← low32_sign_eq_and, Nat.or_comm, Nat.add_comm]
  exact ((Nat.shiftLeft_eq _ 31) ▸ Nat.shiftLeft_add_eq_or_of_lt hmag (low32 y / 0x80000000)).symm

/-! ### The instructions -/

/-- An instruction that completes with a result in its destination and its flags merged into FFLAGS, and does nothing else. -/
def ComputesFlagged (f : InstrInfo) (s : State) (r : RegForm) (o : Host.Outcome State Fault Refusal) : Prop :=
  MayIssue f s → AllReadable s r.reads → Writable s r.dest → o = .next (completes f (addFlags r.flags (setReg r.dest r.value s)))

section
variable {d a b c : Reg} {wa wb w : Bool} {p : Word × FlagSet}

theorem computes_fp1 {g : Rounding → Word → Word × FlagSet} (h : p = g (scalarRounding s) (regVal s a)) :
    ComputesFlagged f s ⟨[a], d, p.1, p.2⟩ (runSeq f (fp1Body g d a wa) s) := by
  subst h
  intro hi hr hw
  refine runSeq_ok hi ?_
  rw [fp1Body, bind_ok (readS_ok (hr a (by simp)) wa)]
  exact bind_ok (writeS_ok hw _)

theorem computes_fp2 {g : Rounding → Word → Word → Word × FlagSet} (h : p = g (scalarRounding s) (regVal s a) (regVal s b)) :
    ComputesFlagged f s ⟨[a, b], d, p.1, p.2⟩ (runSeq f (fp2Body g d a b wa wb) s) := by
  subst h
  intro hi hr hw
  refine runSeq_ok hi ?_
  rw [fp2Body, bind_ok (readS_ok (hr a (by simp)) wa), bind_ok (readS_ok (hr b (by simp)) wb)]
  exact bind_ok (writeS_ok hw _)

theorem computes_fp3 {g : Rounding → Word → Word → Word → Word × FlagSet}
    (h : p = g (scalarRounding s) (regVal s a) (regVal s b) (regVal s c)) :
    ComputesFlagged f s ⟨[a, b, c], d, p.1, p.2⟩ (runSeq f (fp3Body g d a b c w) s) := by
  subst h
  intro hi hr hw
  refine runSeq_ok hi ?_
  rw [fp3Body, bind_ok (readS_ok (hr a (by simp)) w), bind_ok (readS_ok (hr b (by simp)) w),
    bind_ok (readS_ok (hr c (by simp)) w)]
  exact bind_ok (writeS_ok hw _)

end

theorem fpForm_computes {i : Instr} {r : RegForm} (hf : frameOf i = some f) (h : fpForm s i = some r) :
    ComputesFlagged f s r (exec i s) := by
  cases i <;> cases h <;> cases hf
  case fneg => exact computes_fp1 (fnegOp_eq ..).symm
  case fabs => exact computes_fp1 (fabsOp_eq ..).symm
  case fsgnj => exact computes_fp2 (fsgnjOp_eq ..).symm
  case ffma | ffms | fnfma | fnfms => exact computes_fp3 rfl
  case fsqrt | fclass | frcp | frsq | fcvtfi | fcvtfn | fcvtbf | fcvtfb | fcvtif | fcvtnf => exact computes_fp1 rfl
  all_goals exact computes_fp2 rfl

end Sys2Proof.Machine
end

section
/-!
SUPPORT. Rounding over the real numbers (R99 to R102): a magnitude given by a significand, a power of two and whether a rest remains, its
place on a format's grid, and the outcome of rounding it into the format.
-/

namespace Sys2Proof.Machine

open Sys2Proof.Safety

variable {f : FloatFmt} {r : Rounding} {neg st : Bool} {m : Nat} {e : ℤ} {x : ℝ}

/-! ### A magnitude by its significand -/

/-- x is m × 2^e, or lies above it by less than its last place, which `st` says. -/
def Shows (m : Nat) (e : ℤ) (st : Bool) (x : ℝ) : Prop :=
  m * (2 : ℝ) ^ e ≤ x ∧ x < (m + 1) * (2 : ℝ) ^ e ∧ (st = true ↔ x ≠ m * (2 : ℝ) ^ e)

theorem two_zpow_pos (e : ℤ) : (0 : ℝ) < 2 ^ e := zpow_pos (by norm_num) e

theorem two_zpow_add (a b : ℤ) : (2 : ℝ) ^ (a + b) = 2 ^ a * 2 ^ b := zpow_add₀ (by norm_num) a b

theorem two_zpow_lt {a b : ℤ} : (2 : ℝ) ^ a < 2 ^ b ↔ a < b := zpow_lt_zpow_iff_right₀ (by norm_num)

theorem two_zpow_le {a b : ℤ} : (2 : ℝ) ^ a ≤ 2 ^ b ↔ a ≤ b := zpow_le_zpow_iff_right₀ (by norm_num)

theorem shows_exact (m : Nat) (e : ℤ) : Shows m e false (m * (2 : ℝ) ^ e) := by
  refine ⟨le_refl _, ?_, by simp⟩
  have := two_zpow_pos e
  nlinarith

/-- The same significand at another power of two. -/
theorem Shows.scale {d : ℤ} (h : Shows m d st x) (e : ℤ) : Shows m (d + e) st (x * (2 : ℝ) ^ e) := by
  obtain ⟨hle, hlt, hst⟩ := h
  have hpos := two_zpow_pos e
  rw [Shows, two_zpow_add, ← mul_assoc, ← mul_assoc]
  exact ⟨mul_le_mul_of_nonneg_right hle hpos.le, mul_lt_mul_of_pos_right hlt hpos,
    hst.trans (not_congr (mul_left_inj' hpos.ne').symm)⟩

theorem Shows.exact (h : Shows m e false x) : x = m * (2 : ℝ) ^ e := by
  by_contra hne
  exact Bool.false_ne_true (h.2.2.mpr hne)

theorem two_pow_log2_le (hm : m ≠ 0) : (2 : ℝ) ^ m.log2 ≤ m := by exact_mod_cast Nat.log2_self_le hm

theorem lt_two_pow_log2 (m : Nat) : (m + 1 : ℝ) ≤ 2 ^ (m.log2 + 1) := by exact_mod_cast Nat.lt_log2_self (n := m)

/-- The binary exponent of what a significand shows. -/
theorem Shows.exponent (h : Shows m e st x) (hm : m ≠ 0) :
    (2 : ℝ) ^ (e + m.log2) ≤ x ∧ x < (2 : ℝ) ^ (e + m.log2 + 1) := by
  obtain ⟨hle, hlt, -⟩ := h
  have hpos := two_zpow_pos e
  have hsucc : (2 : ℝ) ^ (e + m.log2 + 1) = 2 ^ (m.log2 + 1) * 2 ^ e := by
    rw [add_assoc, two_zpow_add, mul_comm]
    norm_cast
  rw [hsucc, two_zpow_add, mul_comm, zpow_natCast]
  exact ⟨(mul_le_mul_of_nonneg_right (two_pow_log2_le hm) hpos.le).trans hle,
    hlt.trans_le (mul_le_mul_of_nonneg_right (lt_two_pow_log2 m) hpos.le)⟩

theorem Shows.pos (h : Shows m e st x) (hm : m ≠ 0) : 0 < x := (two_zpow_pos _).trans_le (h.exponent hm).1

theorem Shows.lt_zpow_iff (h : Shows m e st x) (hm : m ≠ 0) (c : ℤ) : x < (2 : ℝ) ^ c ↔ e + m.log2 < c := by
  obtain ⟨hle, hlt⟩ := h.exponent hm
  refine ⟨fun hx => two_zpow_lt.mp (hle.trans_lt hx), fun hc => hlt.trans_le (two_zpow_le.mpr hc)⟩

/-! ### One step of rounding (R99, R101) -/

theorem roundsTo_nat (hd : r.dither < 2 ^ 24) (neg : Bool) (n : Nat) : RoundsTo r neg n n := by
  have hdither : (r.dither : ℝ) / 2 ^ 24 < 1 := (div_lt_one (by norm_num)).mpr (by exact_mod_cast hd)
  have hnonneg : (0 : ℝ) ≤ r.dither / 2 ^ 24 := by positivity
  unfold RoundsTo
  split
  · norm_num
  · exact ⟨le_refl _, by linarith⟩
  · split <;> exact ⟨le_refl _, by linarith⟩
  · split <;> exact ⟨le_refl _, by linarith⟩
  · exact ⟨by linarith, by linarith⟩
  · exact ⟨by linarith, by linarith⟩

/-- The bits that rounding leaves over: `rest` of 2^sh, and δ < 1 more, of which `st` says whether there is any. -/
structure Rest (sh rest : Nat) (st : Bool) (δ : ℝ) : Prop where
  pos : 0 < sh
  lt : rest < 2 ^ sh
  nonneg : 0 ≤ δ
  below : δ < 1
  sticky : st = true ↔ δ ≠ 0
  deep : st = true → 24 ≤ sh

section
variable {sh rest q : Nat} {δ : ℝ}

namespace Rest

theorem exact_iff (h : Rest sh rest st δ) : (rest != 0 || st) = false ↔ rest + δ = 0 := by
  have hcast : (0 : ℝ) ≤ rest := Nat.cast_nonneg rest
  have hnonneg := h.nonneg
  rw [Bool.or_eq_false_iff, bne_eq_false_iff_eq]
  constructor
  · rintro ⟨rfl, hst⟩
    have hzero : δ = 0 := not_not.mp (fun hne => by simp [h.sticky.mpr hne] at hst)
    simp [hzero]
  · intro hsum
    have hzero : δ = 0 := by linarith
    refine ⟨by exact_mod_cast (by linarith : (rest : ℝ) = 0), ?_⟩
    rw [Bool.eq_false_iff]
    exact fun hst => h.sticky.mp hst hzero

/-- A whole number of units beyond the rest is beyond what lies above it too. -/
theorem lt_of_nat_lt (h : Rest sh rest st δ) {k : Nat} (hk : rest < k) : (rest : ℝ) + δ < k := by
  have hcast : (rest : ℝ) + 1 ≤ k := by exact_mod_cast hk
  linarith [h.below]

theorem half (h : Rest sh rest st δ) : ∃ k : Nat, 2 ^ sh = 2 * k ∧ 1 ≤ k := by
  obtain ⟨k, rfl⟩ : ∃ k, sh = k + 1 := ⟨sh - 1, by have := h.pos; omega⟩
  exact ⟨2 ^ k, by rw [pow_succ, mul_comm], Nat.one_le_two_pow⟩

end Rest

/-- To nearest, ties to even, in units of the last bit left over. -/
theorem roundUp_nearest (hr : r.rm = 0) (h : Rest sh rest st δ) :
    (roundUp r neg q rest sh st = true → (2 : ℝ) ^ sh ≤ 2 * (rest + δ) ∧ (2 * (rest + δ) = (2 : ℝ) ^ sh → q % 2 = 1)) ∧
    (roundUp r neg q rest sh st = false → 2 * (rest + δ) ≤ (2 : ℝ) ^ sh ∧ (2 * (rest + δ) = (2 : ℝ) ^ sh → q % 2 = 0)) := by
  obtain ⟨k, hk, -⟩ := h.half
  have hreal : (2 : ℝ) ^ sh = 2 * k := by exact_mod_cast hk
  have hnonneg := h.nonneg
  have hval : roundUp r neg q rest sh st = (decide (k < rest) || (rest == k && (st || q % 2 == 1))) := by
    simp only [roundUp, hr, hk]
    congr 1
    · exact decide_eq_decide.mpr (by omega)
    · congr 1
      rw [Bool.eq_iff_iff, beq_iff_eq, beq_iff_eq]
      omega
  rw [hval, hreal]
  rcases lt_trichotomy k rest with hlt | rfl | hlt
  · have hcast : (k : ℝ) + 1 ≤ rest := by exact_mod_cast hlt
    simp only [hlt, decide_true, Bool.true_or, true_implies, Bool.true_eq_false, false_implies, and_true]
    exact ⟨by linarith, fun he => by linarith⟩
  · simp only [lt_irrefl, decide_false, Bool.false_or, beq_self_eq_true, Bool.true_and, Bool.or_eq_true, Bool.or_eq_false_iff,
      beq_iff_eq, beq_eq_false_iff_ne]
    refine ⟨fun hup => ⟨by linarith, fun he => ?_⟩, fun hdown => ?_⟩
    · have hzero : δ = 0 := by linarith
      exact hup.resolve_left (fun hst => h.sticky.mp hst hzero)
    · have hzero : δ = 0 := not_not.mp (fun hne => by simp [h.sticky.mpr hne] at hdown)
      exact ⟨by linarith, fun _ => by omega⟩
  · have hsum := h.lt_of_nat_lt hlt
    have hne : ¬ k < rest ∧ rest ≠ k := by omega
    simp only [hne.1, hne.2, decide_false, Bool.false_or, beq_iff_eq, Bool.and_eq_true, Bool.and_eq_false_iff, false_and,
      false_implies, true_and, beq_eq_false_iff_ne, ne_eq, not_false_eq_true, true_or, true_implies]
    exact ⟨by linarith, fun he => by linarith⟩

/-- To nearest, ties away from zero. -/
theorem roundUp_away (hr : r.rm = 4) (h : Rest sh rest st δ) :
    roundUp r neg q rest sh st = true ↔ (2 : ℝ) ^ sh ≤ 2 * (rest + δ) := by
  obtain ⟨k, hk, -⟩ := h.half
  have hreal : (2 : ℝ) ^ sh = 2 * k := by exact_mod_cast hk
  have hnonneg := h.nonneg
  simp only [roundUp, hr, hk, hreal, ge_iff_le, decide_eq_true_eq]
  constructor
  · intro hle
    have hcast : (k : ℝ) ≤ rest := by exact_mod_cast (by omega : k ≤ rest)
    linarith
  · intro hle
    by_contra hnot
    have hsum := h.lt_of_nat_lt (by omega : rest < k)
    linarith

/-- By the dither: what is left over with its share added reaches a unit. -/
theorem roundUp_dither (hr : ∀ k ≤ 4, r.rm ≠ k) (h : Rest sh rest st δ) :
    roundUp r neg q rest sh st = true ↔ (2 : ℝ) ^ sh * 2 ^ 24 ≤ (rest + δ) * 2 ^ 24 + r.dither * 2 ^ sh := by
  have hval : roundUp r neg q rest sh st = decide (rest * 2 ^ 24 + r.dither * 2 ^ sh ≥ 2 ^ (24 + sh)) := by
    unfold roundUp
    split
    · next he => exact absurd he (hr 0 (by decide))
    · next he => exact absurd he (hr 1 (by decide))
    · next he => exact absurd he (hr 2 (by decide))
    · next he => exact absurd he (hr 3 (by decide))
    · next he => exact absurd he (hr 4 (by decide))
    · rfl
  have hcastIff : (rest * 2 ^ 24 + r.dither * 2 ^ sh ≥ 2 ^ (24 + sh)) ↔
      (2 : ℝ) ^ sh * 2 ^ 24 ≤ rest * 2 ^ 24 + r.dither * 2 ^ sh := by
    rw [ge_iff_le, pow_add, mul_comm (2 ^ 24) (2 ^ sh)]
    exact_mod_cast Iff.rfl
  rw [hval, decide_eq_true_eq]
  by_cases hst : st = true
  · obtain ⟨d, rfl⟩ : ∃ d, sh = 24 + d := ⟨sh - 24, by have := h.deep hst; omega⟩
    have hfactor : rest * 2 ^ 24 + r.dither * 2 ^ (24 + d) = (rest + r.dither * 2 ^ d) * 2 ^ 24 := by ring
    have hreal : ((rest : ℝ) + δ) * 2 ^ 24 + r.dither * 2 ^ (24 + d) = (rest + δ + r.dither * 2 ^ d) * 2 ^ 24 := by ring
    rw [hfactor, hreal, ge_iff_le, pow_add 2 24, mul_comm (2 ^ 24) (2 ^ (24 + d)), mul_le_mul_iff_of_pos_right (by positivity),
      mul_le_mul_iff_of_pos_right (by positivity)]
    constructor
    · intro hle
      have hcast : (2 : ℝ) ^ (24 + d) ≤ rest + r.dither * 2 ^ d := by exact_mod_cast hle
      linarith [h.nonneg]
    · intro hle
      by_contra hnot
      have hcast : (rest : ℝ) + r.dither * 2 ^ d + 1 ≤ 2 ^ (24 + d) := by exact_mod_cast Nat.lt_of_not_le hnot
      linarith [h.below]
  · have hzero : δ = 0 := not_not.mp (fun hne => hst (h.sticky.mpr hne))
    rw [hcastIff, hzero, add_zero]

/-- Rounding away from zero for one sign: up by one unit if anything is left over. -/
theorem roundsTo_directed {φ : ℝ} {ix : Bool} (hlow : 0 ≤ φ) (hhigh : φ < 1) (hexact : ix = false ↔ φ = 0) :
    let n : ℝ := ((if ix && !neg then q + 1 else q : Nat) : ℝ)
    if neg then n ≤ q + φ ∧ q + φ < n + 1 else q + φ ≤ n ∧ n < q + φ + 1 := by
  cases neg
  · cases hix : ix
    · have hzero := hexact.mp hix
      simp [hzero]
    · have hpos : 0 < φ := hlow.lt_of_ne' (fun he => by simp [hexact.mpr he] at hix)
      simp only [Bool.not_false, Bool.and_self, if_true, Bool.false_eq_true, if_false]
      push_cast
      exact ⟨by linarith, by linarith⟩
  · simp only [Bool.not_true, Bool.and_false, Bool.false_eq_true, if_false, if_true]
    exact ⟨by linarith, by linarith⟩

/-- Rounding up from a half on, and ties to even. -/
theorem roundsTo_nearest {φ : ℝ} {up : Bool} (hlow : 0 ≤ φ) (hhigh : φ < 1)
    (hup : up = true → 1 / 2 ≤ φ ∧ (φ = 1 / 2 → q % 2 = 1)) (hdown : up = false → φ ≤ 1 / 2 ∧ (φ = 1 / 2 → q % 2 = 0)) :
    let n : Nat := if up then q + 1 else q
    |(q : ℝ) + φ - n| ≤ 1 / 2 ∧ (|(q : ℝ) + φ - n| = 1 / 2 → n % 2 = 0) := by
  cases up
  · simp only [Bool.false_eq_true, if_false, add_sub_cancel_left, abs_of_nonneg hlow]
    exact hdown rfl
  · obtain ⟨hle, hodd⟩ := hup rfl
    have habs : |(q : ℝ) + φ - ((q + 1 : Nat) : ℝ)| = 1 - φ := by
      push_cast
      rw [abs_of_nonpos (by linarith)]
      ring
    simp only [if_true, habs]
    exact ⟨by linarith, fun he => by have := hodd (by linarith); omega⟩

/-- Rounding down of what is left over with a share added. -/
theorem roundsTo_shifted {φ c : ℝ} {up : Bool} (hlow : 0 ≤ φ + c) (hhigh : φ + c < 2) (hup : up = true ↔ 1 ≤ φ + c) :
    let n : ℝ := ((if up then q + 1 else q : Nat) : ℝ)
    n ≤ q + φ + c ∧ q + φ + c < n + 1 := by
  cases up
  · have hlt : φ + c < 1 := not_le.mp (fun hle => Bool.false_ne_true (hup.mpr hle))
    simp only [Bool.false_eq_true, if_false]
    exact ⟨by linarith, by linarith⟩
  · have hle := hup.mp rfl
    simp only [if_true]
    push_cast
    exact ⟨by linarith, by linarith⟩

/-- Rounding by the bits left over is rounding of the quotient (R99, R101). -/
theorem roundUp_roundsTo (hd : r.dither < 2 ^ 24) (h : Rest sh rest st δ) {y : ℝ} (hy : y * 2 ^ sh = q * 2 ^ sh + rest + δ) :
    RoundsTo r neg y ((if roundUp r neg q rest sh st then q + 1 else q : Nat)) := by
  have hpos : (0 : ℝ) < 2 ^ sh := by positivity
  obtain ⟨φ, rfl⟩ : ∃ φ, y = q + φ := ⟨y - q, by ring⟩
  have hφ : φ * 2 ^ sh = rest + δ := by linarith
  have hlow : 0 ≤ φ := by
    have hsum : (0 : ℝ) ≤ rest + δ := add_nonneg (Nat.cast_nonneg _) h.nonneg
    by_contra hneg
    nlinarith
  have hhigh : φ < 1 := by
    have hsum := h.lt_of_nat_lt h.lt
    push_cast at hsum
    by_contra hge
    nlinarith
  have hexact : (rest != 0 || st) = false ↔ φ = 0 := by
    rw [h.exact_iff, ← hφ]
    simp [hpos.ne']
  have hhalf : (2 : ℝ) ^ sh ≤ 2 * (rest + δ) ↔ 1 / 2 ≤ φ := by
    rw [← hφ]
    constructor <;> intro hle <;> nlinarith
  unfold RoundsTo
  split
  · next hrm =>
    have htie : 2 * (rest + δ) = (2 : ℝ) ^ sh ↔ φ = 1 / 2 := by
      rw [← hφ, ← mul_assoc, mul_eq_right₀ hpos.ne']
      constructor <;> intro he <;> linarith
    have hhalf' : 2 * (rest + δ) ≤ (2 : ℝ) ^ sh ↔ φ ≤ 1 / 2 := by
      rw [← hφ]
      constructor <;> intro hle <;> nlinarith
    obtain ⟨hup, hdown⟩ := roundUp_nearest (neg := neg) (q := q) hrm h
    rw [hhalf, htie] at hup
    rw [hhalf', htie] at hdown
    exact roundsTo_nearest hlow hhigh hup hdown
  · next hrm =>
    have hc : roundUp r neg q rest sh st = false := by simp only [roundUp, hrm]
    simp only [hc, Bool.false_eq_true, if_false]
    exact ⟨by linarith, by linarith⟩
  · next hrm =>
    have hc : roundUp r neg q rest sh st = ((rest != 0 || st) && !neg) := by simp only [roundUp, hrm]
    rw [hc]
    exact roundsTo_directed hlow hhigh hexact
  · next hrm =>
    have hc : roundUp r neg q rest sh st = ((rest != 0 || st) && neg) := by simp only [roundUp, hrm]
    have hdir := roundsTo_directed (q := q) (neg := !neg) hlow hhigh hexact
    rw [hc]
    cases neg <;> exact hdir
  · next hrm =>
    have hc : roundUp r neg q rest sh st = true ↔ 1 ≤ φ + 1 / 2 := by
      rw [roundUp_away hrm h, hhalf]
      constructor <;> intro hle <;> linarith
    exact roundsTo_shifted (by linarith) (by linarith) hc
  · next h0 h1 h2 h3 h4 =>
    have hshare : (0 : ℝ) ≤ r.dither / 2 ^ 24 := by positivity
    have hsmall : (r.dither : ℝ) / 2 ^ 24 < 1 := (div_lt_one (by norm_num)).mpr (by exact_mod_cast hd)
    have hc : roundUp r neg q rest sh st = true ↔ 1 ≤ φ + r.dither / 2 ^ 24 := by
      rw [roundUp_dither (fun k hk => by interval_cases k <;> assumption) h, ← hφ]
      have hfactor : φ * 2 ^ sh * 2 ^ 24 + r.dither * 2 ^ sh = 2 ^ sh * 2 ^ 24 * (φ + r.dither / 2 ^ 24) := by field_simp
      rw [hfactor]
      exact le_mul_iff_one_le_right (by positivity)
    exact roundsTo_shifted (by linarith) (by linarith) hc

end

end Sys2Proof.Machine
end

section
/-!
SUPPORT. The grid of a format and the outcome of rounding into it (R94, R99 to R102).
-/

namespace Sys2Proof.Machine

open Sys2Proof.Safety

variable {f : FloatFmt} {r : Rounding} {neg st : Bool} {m : Nat} {e : ℤ} {x : ℝ}

/-! ### The grid (R99) -/

theorem roundUp_exact (hd : r.dither < 2 ^ 24) (neg : Bool) (q sh : Nat) : roundUp r neg q 0 sh false = false := by
  have hpos : 0 < 2 ^ sh := Nat.two_pow_pos sh
  have hshare : r.dither * 2 ^ sh < 2 ^ (24 + sh) := by
    rw [pow_add]
    exact Nat.mul_lt_mul_of_pos_right hd hpos
  unfold roundUp
  split
  · simp [hpos.ne]
  · rfl
  · rfl
  · rfl
  · simp
  · simpa using hshare

/-- A point of the grid with `mb` fraction bits above the exponent `minE`, taken for the magnitude x whose binary exponent is k. -/
structure OnGrid (mb : Nat) (minE : ℤ) (r : Rounding) (neg : Bool) (k : ℤ) (x : ℝ) (g : Nat × ℤ × Bool) : Prop where
  exponent : g.2.1 = max (k - mb) minE
  rounds : RoundsTo r neg (x / 2 ^ g.2.1) g.1
  inexact : g.2.2 = true ↔ g.1 * (2 : ℝ) ^ g.2.1 ≠ x
  below : g.1 ≤ 2 ^ (mb + 1)
  normal : minE ≤ k - mb → 2 ^ mb ≤ g.1

section
variable {mb : Nat} {minE : ℤ}

/-- A magnitude that is a point of the grid stays. -/
theorem roundGrid_fine (hm : m ≠ 0) (hqe : max (e + m.log2 - mb) minE ≤ e) :
    roundGrid mb minE r neg m e st = (m * 2 ^ (e - max (e + m.log2 - mb) minE).toNat, max (e + m.log2 - mb) minE, st) := by
  unfold roundGrid
  rw [if_neg hm]
  exact if_pos hqe

theorem roundGrid_coarse (hm : m ≠ 0) (hqe : ¬ max (e + m.log2 - mb) minE ≤ e) :
    roundGrid mb minE r neg m e st =
      (let sh := (max (e + m.log2 - mb) minE - e).toNat
      (if roundUp r neg (m / 2 ^ sh) (m % 2 ^ sh) sh st then m / 2 ^ sh + 1 else m / 2 ^ sh, max (e + m.log2 - mb) minE,
        m % 2 ^ sh != 0 || st)) := by
  unfold roundGrid
  rw [if_neg hm]
  exact if_neg hqe

theorem two_pow_toNat {d : ℤ} (h : 0 ≤ d) : (2 : ℝ) ^ d.toNat = 2 ^ d := by
  rw [← zpow_natCast, Int.toNat_of_nonneg h]

theorem onGrid_fine (hd : r.dither < 2 ^ 24) (h : Shows m e st x) (hm : m ≠ 0) (hdeep : st = true → mb + 24 ≤ m.log2)
    (hqe : max (e + m.log2 - mb) minE ≤ e) : OnGrid mb minE r neg (e + m.log2) x (roundGrid mb minE r neg m e st) := by
  have hst : st = false := by
    rw [Bool.eq_false_iff]
    intro hst
    have := hdeep hst
    omega
  subst hst
  rw [roundGrid_fine hm hqe]
  have hlow : e + m.log2 - mb ≤ max (e + m.log2 - mb) minE := le_max_left ..
  have hmax : minE ≤ e + m.log2 - mb → max (e + m.log2 - mb) minE = e + m.log2 - mb := by omega
  generalize hdef : max (e + m.log2 - mb) minE = qe at hqe hlow hmax
  have hx : ((m * 2 ^ (e - qe).toNat : Nat) : ℝ) * 2 ^ qe = x := by
    rw [h.exact]
    push_cast
    rw [two_pow_toNat (by omega), mul_assoc, ← two_zpow_add]
    congr 2
    omega
  refine ⟨?_, ?_, ?_, ?_, ?_⟩
  · exact hdef.symm
  · simp only [← hx, mul_div_assoc, div_self (two_zpow_pos qe).ne', mul_one]
    exact roundsTo_nat hd neg _
  · simp only [hx, ne_eq, not_true_eq_false, Bool.false_eq_true]
  · calc m * 2 ^ (e - qe).toNat ≤ 2 ^ (m.log2 + 1) * 2 ^ (e - qe).toNat := Nat.mul_le_mul_right _ Nat.lt_log2_self.le
      _ = 2 ^ (m.log2 + 1 + (e - qe).toNat) := (pow_add ..).symm
      _ ≤ 2 ^ (mb + 1) := Nat.pow_le_pow_right (by decide) (by omega)
  · intro hlt
    calc 2 ^ mb = 2 ^ (m.log2 + (e - qe).toNat) := by congr 1; have := hmax hlt; omega
      _ = 2 ^ m.log2 * 2 ^ (e - qe).toNat := pow_add ..
      _ ≤ m * 2 ^ (e - qe).toNat := Nat.mul_le_mul_right _ (Nat.log2_self_le hm)

/-- Rounding changes the magnitude if anything is left over. -/
theorem coarse_inexact {sh rest q : Nat} {δ : ℝ} {qe : ℤ} (hd : r.dither < 2 ^ 24) (h : Rest sh rest st δ)
    (hy : x / 2 ^ qe * 2 ^ sh = q * 2 ^ sh + rest + δ) :
    (rest != 0 || st) = true ↔ ((if roundUp r neg q rest sh st then q + 1 else q : Nat) : ℝ) * (2 : ℝ) ^ qe ≠ x := by
  have hpos : (0 : ℝ) < 2 ^ sh := by positivity
  have heq (n : Nat) : (n : ℝ) * (2 : ℝ) ^ qe = x ↔ n * (2 : ℝ) ^ sh = q * 2 ^ sh + rest + δ := by
    rw [← hy, mul_left_inj' hpos.ne', eq_div_iff (two_zpow_pos qe).ne']
  rw [← not_iff_not, not_not, Bool.not_eq_true, heq]
  constructor
  · intro hix
    have hzero := h.exact_iff.mp hix
    obtain ⟨hrest, rfl⟩ := Bool.or_eq_false_iff.mp hix
    obtain rfl : rest = 0 := by simpa using hrest
    rw [roundUp_exact hd, if_neg Bool.false_ne_true]
    linarith
  · intro hsame
    have hlow : (0 : ℝ) ≤ rest + δ := add_nonneg (Nat.cast_nonneg _) h.nonneg
    have hhigh : (rest : ℝ) + δ < 2 ^ sh := by exact_mod_cast h.lt_of_nat_lt h.lt
    rw [h.exact_iff]
    split at hsame
    · push_cast at hsame
      linarith
    · linarith

theorem onGrid_coarse (hd : r.dither < 2 ^ 24) (h : Shows m e st x) (hm : m ≠ 0) (hdeep : st = true → mb + 24 ≤ m.log2)
    (hqe : ¬ max (e + m.log2 - mb) minE ≤ e) : OnGrid mb minE r neg (e + m.log2) x (roundGrid mb minE r neg m e st) := by
  rw [roundGrid_coarse hm hqe]
  have hlow : e + m.log2 - mb ≤ max (e + m.log2 - mb) minE := le_max_left ..
  have hmax : minE ≤ e + m.log2 - mb → max (e + m.log2 - mb) minE = e + m.log2 - mb := by omega
  obtain ⟨sh, hsh⟩ : ∃ sh : Nat, max (e + m.log2 - mb) minE = e + sh := ⟨(max (e + m.log2 - mb) minE - e).toNat, by omega⟩
  have hto : (e + (sh : ℤ) - e).toNat = sh := by omega
  simp only [hsh, hto]
  rw [hsh] at hlow hmax hqe
  obtain ⟨δ, hδ⟩ : ∃ δ, x = (m + δ) * 2 ^ e := ⟨x / 2 ^ e - m, by field_simp [(two_zpow_pos e).ne']; ring⟩
  have hpos := two_zpow_pos e
  obtain ⟨hle, hlt, hst⟩ := h
  have hrest : Rest sh (m % 2 ^ sh) st δ := by
    refine ⟨by omega, Nat.mod_lt _ (Nat.two_pow_pos sh), ?_, ?_, ?_, fun hs => by have := hdeep hs; omega⟩
    · by_contra hneg
      rw [hδ] at hle
      nlinarith
    · by_contra hge
      rw [hδ] at hlt
      nlinarith
    · rw [hst, hδ, Ne, mul_left_inj' hpos.ne']
      simp
  have hdiv : (m : ℝ) = (m / 2 ^ sh : Nat) * 2 ^ sh + (m % 2 ^ sh : Nat) := by exact_mod_cast (Nat.div_add_mod' m (2 ^ sh)).symm
  have hunit : (2 : ℝ) ^ (e + (sh : ℤ)) = 2 ^ e * 2 ^ sh := by rw [two_zpow_add, zpow_natCast]
  have hy : x / 2 ^ (e + (sh : ℤ)) * 2 ^ sh = (m / 2 ^ sh : Nat) * 2 ^ sh + (m % 2 ^ sh : Nat) + δ := by
    rw [← hdiv, hunit, hδ]
    field_simp
  have hrounds := roundUp_roundsTo (neg := neg) hd hrest hy
  have hq : m / 2 ^ sh + 1 ≤ 2 ^ (mb + 1) := by
    refine Nat.succ_le_of_lt (Nat.div_lt_of_lt_mul ?_)
    calc m < 2 ^ (m.log2 + 1) := Nat.lt_log2_self
      _ ≤ 2 ^ (sh + (mb + 1)) := Nat.pow_le_pow_right (by decide) (by omega)
      _ = 2 ^ sh * 2 ^ (mb + 1) := pow_add ..
  refine ⟨hsh.symm, hrounds, ?_, ?_, fun hlt => ?_⟩
  · exact coarse_inexact hd hrest hy
  · split <;> omega
  · have hq : 2 ^ mb ≤ m / 2 ^ sh := by
      rw [Nat.le_div_iff_mul_le (Nat.two_pow_pos sh), ← pow_add]
      exact (Nat.pow_le_pow_right (by decide) (by have := hmax hlt; omega)).trans (Nat.log2_self_le hm)
    split <;> omega

/-- R99: a magnitude on the grid. -/
theorem onGrid_roundGrid (hd : r.dither < 2 ^ 24) (h : Shows m e st x) (hm : m ≠ 0) (hdeep : st = true → mb + 24 ≤ m.log2) :
    OnGrid mb minE r neg (e + m.log2) x (roundGrid mb minE r neg m e st) := by
  by_cases hqe : max (e + m.log2 - mb) minE ≤ e
  · exact onGrid_fine hd h hm hdeep hqe
  · exact onGrid_coarse hd h hm hdeep hqe

end

/-! ### The magnitude of an encoding (R94) -/

/-- The magnitude that the bits of an exponent and a fraction stand for, of any exponent. -/
noncomputable def magnitude (f : FloatFmt) (b : Nat) : ℝ :=
  if b / 2 ^ f.m = 0 then b * (2 : ℝ) ^ f.minExp
  else (2 ^ f.m + b % 2 ^ f.m : Nat) * (2 : ℝ) ^ (f.minExp + (b / 2 ^ f.m - 1 : Nat))

/-- The bits of a significand at an exponent of the grid; one of 2^(m+1) carries into the next exponent. -/
theorem magnitude_bits {f : FloatFmt} {d q : Nat} (hq : q ≤ 2 ^ (f.m + 1)) (hnormal : 0 < d → 2 ^ f.m ≤ q) :
    magnitude f (d * 2 ^ f.m + q) = q * (2 : ℝ) ^ (f.minExp + d) := by
  have hpos : 0 < 2 ^ f.m := Nat.two_pow_pos f.m
  have hdiv : (d * 2 ^ f.m + q) / 2 ^ f.m = d + q / 2 ^ f.m := by rw [Nat.add_comm, Nat.add_mul_div_right _ _ hpos, Nat.add_comm]
  have hmod : (d * 2 ^ f.m + q) % 2 ^ f.m = q % 2 ^ f.m := by rw [Nat.add_comm, Nat.add_mul_mod_self_right]
  rw [pow_succ] at hq
  unfold magnitude
  rw [hdiv, hmod]
  rcases lt_trichotomy q (2 ^ f.m) with hlt | rfl | hgt
  · have hd : d = 0 := by
      by_contra hne
      exact absurd (hnormal (by omega)) (by omega)
    subst hd
    simp [Nat.div_eq_of_lt hlt]
  · simp [Nat.div_self hpos]
  · by_cases htop : q = 2 ^ f.m * 2
    · subst htop
      have hdiv2 : 2 ^ f.m * 2 / 2 ^ f.m = 2 := Nat.mul_div_cancel_left 2 hpos
      rw [hdiv2, if_neg (by omega), Nat.mul_mod_right, show d + 2 - 1 = d + 1 by omega]
      push_cast
      rw [← add_assoc, two_zpow_add _ 1]
      norm_num
      ring
    · have hdiv1 : q / 2 ^ f.m = 1 := Nat.div_eq_of_lt_le (by omega) (by omega)
      have hmod1 : 2 ^ f.m + q % 2 ^ f.m = q := by
        have := Nat.div_add_mod q (2 ^ f.m)
        rw [hdiv1] at this
        omega
      rw [hdiv1, if_neg (by omega), hmod1, Nat.add_sub_cancel]

theorem magnitude_lt_succ (f : FloatFmt) (b : Nat) : magnitude f b < magnitude f (b + 1) := by
  have hmod : b % 2 ^ f.m + 1 ≤ 2 ^ f.m := Nat.mod_lt _ (Nat.two_pow_pos f.m)
  obtain ⟨d, q, hb, hq, hnormal⟩ : ∃ d q, b = d * 2 ^ f.m + q ∧ q + 1 ≤ 2 ^ (f.m + 1) ∧ (0 < d → 2 ^ f.m ≤ q) := by
    have hsplit := Nat.div_add_mod' b (2 ^ f.m)
    rw [pow_succ]
    rcases Nat.eq_zero_or_pos (b / 2 ^ f.m) with h0 | hpos
    · exact ⟨0, b % 2 ^ f.m, by rw [h0] at hsplit; omega, by omega, fun h => absurd h (by omega)⟩
    · obtain ⟨k, hk⟩ : ∃ k, b / 2 ^ f.m = k + 1 := ⟨b / 2 ^ f.m - 1, by omega⟩
      rw [hk, Nat.add_mul, Nat.one_mul] at hsplit
      exact ⟨k, 2 ^ f.m + b % 2 ^ f.m, by omega, by omega, fun _ => by omega⟩
  rw [hb, add_assoc, magnitude_bits (by omega) hnormal, magnitude_bits hq (fun h => by have := hnormal h; omega)]
  have := two_zpow_pos (f.minExp + d)
  push_cast
  nlinarith

theorem magnitude_strictMono (f : FloatFmt) : StrictMono (magnitude f) := strictMono_nat_of_lt_succ (magnitude_lt_succ f)

/-- The value of the fields of an encoding (R94, R96). -/
def fieldsVal (f : FloatFmt) (neg : Bool) (E F : Nat) : Val :=
  if f.ieee && E == f.emax then (if F == 0 then .inf neg else .nan (F < 2 ^ (f.m - 1)))
  else if f.e4m3 && E == f.emax && F == 2 ^ f.m - 1 then .nan false
  else if E == 0 then .fin neg F f.minExp
  else .fin neg (2 ^ f.m + F) (f.minExp + (E - 1 : Nat))

theorem read_fields {S E F : Nat} (hS : S < 2) (hE : E < 2 ^ f.e) (hF : F < 2 ^ f.m) :
    f.read (S * 2 ^ (f.e + f.m) + E * 2 ^ f.m + F) = fieldsVal f (S == 1) E F := by
  have hpos : 0 < 2 ^ f.m := Nat.two_pow_pos f.m
  have hbits : S * 2 ^ (f.e + f.m) + E * 2 ^ f.m + F = (S * 2 ^ f.e + E) * 2 ^ f.m + F := by ring
  have hF' : (S * 2 ^ (f.e + f.m) + E * 2 ^ f.m + F) % 2 ^ f.m = F := by
    rw [hbits, Nat.mul_add_mod', Nat.mod_eq_of_lt hF]
  have hdiv : (S * 2 ^ (f.e + f.m) + E * 2 ^ f.m + F) / 2 ^ f.m = S * 2 ^ f.e + E := by
    rw [hbits, Nat.add_comm, Nat.add_mul_div_right _ _ hpos, Nat.div_eq_of_lt hF, Nat.zero_add]
  have hE' : (S * 2 ^ (f.e + f.m) + E * 2 ^ f.m + F) / 2 ^ f.m % 2 ^ f.e = E := by
    rw [hdiv, Nat.mul_add_mod', Nat.mod_eq_of_lt hE]
  have hS' : (S * 2 ^ (f.e + f.m) + E * 2 ^ f.m + F) / f.signBit % 2 = S := by
    rw [FloatFmt.signBit, Nat.add_comm f.e, pow_add, ← Nat.div_div_eq_div_mul, ← pow_add, Nat.add_comm f.m, hdiv, Nat.add_comm,
      Nat.add_mul_div_right _ _ (Nat.two_pow_pos f.e), Nat.div_eq_of_lt hE, Nat.zero_add, Nat.mod_eq_of_lt hS]
  unfold FloatFmt.read fieldsVal
  simp only [hF', hE', hS']

/-- A format whose encodings up to the largest finite one are finite numbers of the magnitude of their bits. -/
def ReadsPlainly (f : FloatFmt) : Prop :=
  ∀ neg, ∀ b ≤ f.maxFinite, f.read (signBits f neg + b) =
    if b / 2 ^ f.m = 0 then .fin neg b f.minExp else .fin neg (2 ^ f.m + b % 2 ^ f.m) (f.minExp + (b / 2 ^ f.m - 1 : Nat))

theorem readsPlainly_of_ieee (hieee : f.ieee = true) (he4m3 : f.e4m3 = false) (he : 0 < f.emax) : ReadsPlainly f := by
  intro neg b hb
  have hpos : 0 < 2 ^ f.m := Nat.two_pow_pos f.m
  have hlt : b < f.emax * 2 ^ f.m := by
    have := Nat.mul_pos he hpos
    rw [FloatFmt.maxFinite, if_pos hieee] at hb
    omega
  have hE : b / 2 ^ f.m < f.emax := Nat.div_lt_of_lt_mul (by rwa [Nat.mul_comm])
  have hbits : signBits f neg + b = neg.toNat * 2 ^ (f.e + f.m) + b / 2 ^ f.m * 2 ^ f.m + b % 2 ^ f.m := by
    rw [Nat.add_assoc, Nat.div_add_mod']
    cases neg <;> simp [signBits]
  have htop : f.emax < 2 ^ f.e := Nat.sub_lt (Nat.two_pow_pos f.e) (by decide)
  have hneg : (neg.toNat == 1) = neg := by cases neg <;> rfl
  have hne : (b / 2 ^ f.m == f.emax) = false := beq_eq_false_iff_ne.mpr hE.ne
  rw [hbits, read_fields (by cases neg <;> decide) (hE.trans htop) (Nat.mod_lt _ hpos), fieldsVal]
  simp only [hne, he4m3, hneg, Bool.and_false, Bool.false_and, Bool.false_eq_true, if_false, beq_iff_eq]
  split
  · next h0 =>
    congr 1
    exact Nat.mod_eq_of_lt ((Nat.div_eq_zero_iff_lt hpos).mp h0)
  · rfl

/-- The real number of an encoding of a finite magnitude. -/
theorem real_read_signed (hf : ReadsPlainly f) (neg : Bool) {b : Nat} (hb : b ≤ f.maxFinite) :
    ((real (f.read (signBits f neg + b)) : ℚ) : ℝ) = (if neg then -1 else 1) * magnitude f b := by
  rw [hf neg b hb, magnitude]
  by_cases h0 : b / 2 ^ f.m = 0
  · rw [if_pos h0, if_pos h0, real]
    cases neg <;> simp
  · rw [if_neg h0, if_neg h0, real]
    cases neg
    · simp
    · simp
      ring

theorem real_read (hf : ReadsPlainly f) {b : Nat} (hb : b ≤ f.maxFinite) : ((real (f.read b) : ℚ) : ℝ) = magnitude f b := by
  simpa [signBits] using real_read_signed hf false hb

/-! ### Rounding into a format (R99 to R102) -/

theorem overflowBits_eq (f : FloatFmt) (rm : Nat) (neg : Bool) :
    (OverflowsToInfinity f rm neg → overflowBits f rm neg = f.infBits) ∧
    (¬ OverflowsToInfinity f rm neg → overflowBits f rm neg = f.maxFinite) := by
  unfold OverflowsToInfinity overflowBits
  cases hieee : f.ieee
  · simp
  · cases neg <;> (simp; split <;> simp_all)

theorem signBits_eq (f : FloatFmt) (neg : Bool) : (if neg then f.signBit else 0) = signBits f neg := rfl

/-- The outcome of rounding a magnitude that is not zero into a format. -/
theorem rounded_round (hf : ReadsPlainly f) (hd : r.dither < 2 ^ 24) (h : Shows m e st x) (hm : m ≠ 0)
    (hdeep : st = true → f.m + 24 ≤ m.log2) : Rounded f r neg x (f.round r neg m e st) := by
  have hgrid := onGrid_roundGrid (minE := f.minExp) (neg := neg) hd h hm hdeep
  unfold FloatFmt.round
  generalize roundGrid f.m f.minExp r neg m e st = g at hgrid
  obtain ⟨q, qe, ix⟩ := g
  obtain ⟨hexp, hrounds, hix, hbelow, hnormal⟩ := hgrid
  dsimp only at hexp hrounds hix hbelow hnormal ⊢
  obtain ⟨hlow, hhigh⟩ := h.exponent hm
  obtain ⟨d, rfl⟩ : ∃ d : Nat, qe = f.minExp + d := ⟨(qe - f.minExp).toNat, by omega⟩
  have hto : (f.minExp + (d : ℤ) - f.minExp).toNat = d := by omega
  have hmag : magnitude f (d * 2 ^ f.m + q) = q * (2 : ℝ) ^ (f.minExp + (d : ℤ)) :=
    magnitude_bits hbelow (fun h => hnormal (by omega))
  have hzero : q = 0 → d = 0 ∧ e + m.log2 < 1 - f.bias := by
    rintro rfl
    have hlt : ¬ f.minExp ≤ e + m.log2 - f.m := fun h => absurd (hnormal h) (Nat.not_le.mpr (Nat.two_pow_pos f.m))
    have hminExp : f.minExp = 1 - f.bias - f.m := rfl
    omega
  refine ⟨e + m.log2, q, hlow, hhigh, ?_⟩
  have hspacing : max (e + m.log2 - f.m) (1 - f.bias - f.m : ℤ) = f.minExp + d := hexp.symm
  dsimp only
  rw [hspacing, real_read hf le_rfl, ← hmag, hto, signBits_eq, (magnitude_strictMono f).le_iff_le, (magnitude_strictMono f).lt_iff_lt]
  refine ⟨hrounds, fun hle => ?_, fun hgt => ?_⟩
  · rw [← hmag] at hix
    by_cases hq : q = 0
    · obtain ⟨rfl, hsmall⟩ := hzero hq
      subst hq
      have hne : magnitude f (0 * 2 ^ f.m + 0) ≠ x := by
        rw [hmag, Nat.cast_zero, zero_mul]
        exact (h.pos hm).ne
      rw [if_pos rfl, hix.mpr hne]
      exact ⟨_, true, true, hle, real_read hf hle, iff_of_true rfl hne, iff_of_true rfl ⟨hne, (h.lt_zpow_iff hm _).mpr hsmall⟩,
        by rw [Nat.zero_mul]; rfl⟩
    · rw [if_neg hq, if_neg (Nat.not_lt.mpr hle)]
      refine ⟨_, ix, ix && decide (e + m.log2 < 1 - f.bias), hle, real_read hf hle, hix, ?_, rfl⟩
      rw [Bool.and_eq_true, hix, decide_eq_true_eq, h.lt_zpow_iff hm]
  · have hq : q ≠ 0 := by
      intro hq
      rw [(hzero hq).1, hq] at hgt
      omega
    rw [if_neg hq, if_pos hgt]
    exact ⟨_, (overflowBits_eq f r.rm neg).1, (overflowBits_eq f r.rm neg).2, rfl⟩

theorem round_zero (f : FloatFmt) (r : Rounding) (neg : Bool) (e : ℤ) : f.round r neg 0 e false = (signBits f neg, 0) := rfl

/-- Delivery of a number by its sign and what shows its magnitude (R99, R113). -/
theorem delivered_round (hf : ReadsPlainly f) (hd : r.dither < 2 ^ 24) {y : ℝ} (hx : x = (if neg then -1 else 1) * y)
    (h : Shows m e st y) (hdeep : st = true → f.m + 24 ≤ m.log2) {zeroNeg : Bool} (hzero : x = 0 → zeroNeg = neg) :
    Delivered f r x zeroNeg (f.round r neg m e st) := by
  by_cases hm : m = 0
  · subst hm
    have hst : st = false := by
      rw [Bool.eq_false_iff]
      exact fun hst => absurd (hdeep hst) (by simp)
    subst hst
    have hx0 : x = 0 := by
      rw [hx, h.exact]
      simp
    exact ⟨fun hp => absurd hx0 hp.ne', fun hp => absurd hx0 hp.ne, fun _ => by rw [round_zero, hzero hx0]⟩
  · have hpos := h.pos hm
    have hrounded := rounded_round (neg := neg) hf hd h hm hdeep
    cases neg
    · obtain rfl : x = y := by simpa using hx
      exact ⟨fun _ => hrounded, fun hn => absurd hpos hn.not_gt, fun h0 => absurd h0 hpos.ne'⟩
    · obtain rfl : y = -x := by rw [hx]; simp
      exact ⟨fun hp => absurd hp (by linarith), fun _ => hrounded, fun h0 => absurd h0 (by linarith)⟩

/-- A number of the format stays, with no flag. -/
theorem round_exact (hd : r.dither < 2 ^ 24) (neg : Bool) {q : Nat} {qe : ℤ} (hq : q < 2 ^ (f.m + 1)) (hqe : f.minExp ≤ qe)
    (hle : q * (2 : ℝ) ^ qe ≤ magnitude f f.maxFinite) : ∃ b ≤ f.maxFinite, magnitude f b = q * (2 : ℝ) ^ qe ∧
      f.round r neg q qe false = (signBits f neg + b, 0) := by
  by_cases hq0 : q = 0
  · subst hq0
    exact ⟨0, Nat.zero_le _, by simp [magnitude], round_zero ..⟩
  · have hlog : q.log2 < f.m + 1 := (Nat.log2_lt hq0).mpr hq
    have hfine : max (qe + q.log2 - f.m) f.minExp ≤ qe := by omega
    have hgrid := onGrid_fine (neg := neg) hd (shows_exact q qe) hq0 (by simp) hfine
    unfold FloatFmt.round
    rw [roundGrid_fine hq0 hfine] at hgrid ⊢
    generalize hn : q * 2 ^ (qe - max (qe + q.log2 - f.m) f.minExp).toNat = n at hgrid ⊢
    obtain ⟨d, hd⟩ : ∃ d : Nat, max (qe + q.log2 - f.m) f.minExp = f.minExp + d :=
      ⟨(max (qe + q.log2 - f.m) f.minExp - f.minExp).toNat, by omega⟩
    obtain ⟨-, -, hix, hbelow, hnormal⟩ := hgrid
    simp only [hd] at hix hbelow hnormal ⊢
    have hto : (f.minExp + (d : ℤ) - f.minExp).toNat = d := by omega
    have hsame : n * (2 : ℝ) ^ (f.minExp + (d : ℤ)) = q * 2 ^ qe := by simpa using hix
    have hmag : magnitude f (d * 2 ^ f.m + n) = q * (2 : ℝ) ^ qe := (magnitude_bits hbelow (fun h => hnormal (by omega))).trans hsame
    have hbits : d * 2 ^ f.m + n ≤ f.maxFinite := (magnitude_strictMono f).le_iff_le.mp (hmag ▸ hle)
    have hn0 : n ≠ 0 := by
      subst hn
      exact Nat.mul_ne_zero hq0 (Nat.two_pow_pos _).ne'
    rw [hto, if_neg hn0, if_neg (Nat.not_lt.mpr hbits)]
    exact ⟨_, hbits, hmag, by simp [signBits_eq, flagIf]⟩

end Sys2Proof.Machine
end

section
/-!
SUPPORT. Quotients and square roots by their significands (R113, R118).
-/

namespace Sys2Proof.Machine

open Sys2Proof.Safety

variable {m : Nat} {e : ℤ}

/-! ### Integer square roots -/

/-- The bit by bit root, once the root is known down to bit k + 1. -/
theorem isqrt_eq_sqrt {k n r : Nat} (hlow : r * r ≤ n) (hhigh : n < (r + 2 ^ (k + 1)) * (r + 2 ^ (k + 1))) :
    isqrt k n r = Nat.sqrt n := by
  induction k generalizing r with
  | zero =>
    unfold isqrt
    split
    · next h => exact Nat.eq_sqrt.mpr ⟨h, hhigh⟩
    · next h => exact Nat.eq_sqrt.mpr ⟨hlow, Nat.lt_of_not_le h⟩
  | succ k ih =>
    unfold isqrt
    dsimp only
    split
    · next h => exact ih h (by rwa [pow_succ 2 (k + 1), Nat.mul_two, ← Nat.add_assoc] at hhigh)
    · next h => exact ih hlow (Nat.lt_of_not_le h)

theorem isqrt_from_log2 (n : Nat) : isqrt (n.log2 / 2 + 1) n 0 = Nat.sqrt n := by
  refine isqrt_eq_sqrt (Nat.zero_le n) ?_
  rw [Nat.zero_add, ← pow_add]
  exact Nat.lt_log2_self.trans_le (Nat.pow_le_pow_right (by decide) (by omega))

theorem two_pow_le_sqrt {n k : Nat} (h : 2 ^ (k + k) ≤ n) : 2 ^ k ≤ Nat.sqrt n := by
  rwa [Nat.le_sqrt, ← pow_add]

theorem le_log2_of_two_pow_le {n k : Nat} (h : 2 ^ k ≤ n) : k ≤ n.log2 :=
  (Nat.le_log2 (by have := Nat.two_pow_pos k; omega)).mpr h

/-- The integer square root of a quotient shows its square root. -/
theorem shows_sqrt_div {n M : Nat} (hM : 0 < M) :
    Shows (Nat.sqrt (n / M)) 0 (decide (Nat.sqrt (n / M) * Nat.sqrt (n / M) * M ≠ n)) (Real.sqrt (n / M)) := by
  have hMr : (0 : ℝ) < M := by exact_mod_cast hM
  have hlow : Nat.sqrt (n / M) * Nat.sqrt (n / M) * M ≤ n := (Nat.le_div_iff_mul_le hM).mp (Nat.sqrt_le _)
  have hhigh : n < (Nat.sqrt (n / M) + 1) * (Nat.sqrt (n / M) + 1) * M := (Nat.div_lt_iff_lt_mul hM).mp (Nat.lt_succ_sqrt _)
  generalize Nat.sqrt (n / M) = r at hlow hhigh
  have hr : (0 : ℝ) ≤ r := Nat.cast_nonneg r
  simp only [Shows, zpow_zero, mul_one]
  refine ⟨Real.le_sqrt_of_sq_le ?_, (Real.sqrt_lt' (by linarith)).mpr ?_, ?_⟩
  · rw [le_div_iff₀ hMr, sq]
    exact_mod_cast hlow
  · rw [div_lt_iff₀ hMr, sq]
    exact_mod_cast hhigh
  · rw [decide_eq_true_eq, not_iff_not, eq_comm (b := (r : ℝ)), ← Real.sqrt_sq hr, Real.sqrt_inj (sq_nonneg _) (by positivity),
      eq_div_iff hMr.ne', sq]
    exact_mod_cast Iff.rfl

theorem shows_sqrt (n : Nat) : Shows (Nat.sqrt n) 0 (decide (Nat.sqrt n * Nat.sqrt n ≠ n)) (Real.sqrt n) := by
  simpa using shows_sqrt_div (n := n) (M := 1) Nat.one_pos

/-! ### Quotients -/

theorem shows_div {n M : Nat} (hM : 0 < M) : Shows (n / M) 0 (decide (n % M ≠ 0)) ((n : ℝ) / M) := by
  have hMr : (0 : ℝ) < M := by exact_mod_cast hM
  have hsplit : (n : ℝ) = (n / M : Nat) * M + (n % M : Nat) := by exact_mod_cast (Nat.div_add_mod' n M).symm
  have hmod : ((n % M : Nat) : ℝ) < M := by exact_mod_cast Nat.mod_lt n hM
  have hnonneg : (0 : ℝ) ≤ (n % M : Nat) := Nat.cast_nonneg _
  simp only [Shows, zpow_zero, mul_one]
  refine ⟨?_, ?_, ?_⟩
  · rw [le_div_iff₀ hMr]
    linarith
  · rw [div_lt_iff₀ hMr]
    linarith
  · rw [decide_eq_true_eq, not_iff_not, div_eq_iff hMr.ne']
    constructor
    · intro h0
      rw [hsplit, h0]
      simp
    · intro he
      exact_mod_cast (by linarith : ((n % M : Nat) : ℝ) = 0)

/-- The significand of a quotient, with 128 bits more than the divisor's. -/
theorem shows_quotient {m' : Nat} (e e' : ℤ) (hm' : m' ≠ 0) :
    Shows (m * 2 ^ (128 + m'.log2) / m') (e - e' - (128 + m'.log2 : Nat)) (decide (m * 2 ^ (128 + m'.log2) % m' ≠ 0))
      (m * (2 : ℝ) ^ e / (m' * 2 ^ e')) := by
  have h := (shows_div (n := m * 2 ^ (128 + m'.log2)) (Nat.pos_of_ne_zero hm')).scale (e - e' - (128 + m'.log2 : Nat))
  rw [zero_add] at h
  convert h using 1
  rw [sub_sub, zpow_sub₀ (by norm_num), zpow_add₀ (by norm_num), zpow_natCast]
  push_cast
  field_simp

theorem quotient_log2 {m' : Nat} (hm : m ≠ 0) (hm' : m' ≠ 0) : 127 ≤ (m * 2 ^ (128 + m'.log2) / m').log2 := by
  refine le_log2_of_two_pow_le ((Nat.le_div_iff_mul_le (Nat.pos_of_ne_zero hm')).mpr ?_)
  calc 2 ^ 127 * m' ≤ 2 ^ 127 * 2 ^ (m'.log2 + 1) := Nat.mul_le_mul_left _ Nat.lt_log2_self.le
    _ = 2 ^ (128 + m'.log2) := by rw [← pow_add]; congr 1; omega
    _ ≤ m * 2 ^ (128 + m'.log2) := Nat.le_mul_of_pos_left _ (Nat.pos_of_ne_zero hm)

/-! ### Square roots -/

/-- An exponent made even. -/
theorem sqrt_mul_zpow {y : ℝ} (hy : 0 ≤ y) (h : ℤ) : Real.sqrt (y * 2 ^ (h + h)) = Real.sqrt y * 2 ^ h := by
  rw [Real.sqrt_mul hy, two_zpow_add, Real.sqrt_mul_self (two_zpow_pos h).le]

/-- The square root of a significand with k + k bits more, and one for an odd exponent. -/
theorem shows_sqrt_scaled (m odd k : Nat) (h : ℤ) :
    Shows (Nat.sqrt (m * 2 ^ (odd + (k + k)))) (h - k)
      (decide (Nat.sqrt (m * 2 ^ (odd + (k + k))) * Nat.sqrt (m * 2 ^ (odd + (k + k))) ≠ m * 2 ^ (odd + (k + k))))
      (Real.sqrt (m * 2 ^ (h + h + odd))) := by
  have hshow := (shows_sqrt (m * 2 ^ (odd + (k + k)))).scale (h - k)
  rw [zero_add, ← sqrt_mul_zpow (Nat.cast_nonneg _)] at hshow
  have hvalue : ((m * 2 ^ (odd + (k + k)) : Nat) : ℝ) * 2 ^ (h - k + (h - k)) = m * 2 ^ (h + h + odd) := by
    push_cast
    rw [mul_assoc, ← zpow_natCast, ← two_zpow_add]
    congr 2
    push_cast
    ring
  rwa [hvalue] at hshow

theorem two_pow_le_sqrt_scaled (hm : m ≠ 0) (odd k : Nat) : 2 ^ k ≤ Nat.sqrt (m * 2 ^ (odd + (k + k))) := by
  refine two_pow_le_sqrt ?_
  calc 2 ^ (k + k) ≤ 2 ^ (odd + (k + k)) := Nat.pow_le_pow_right Nat.two_pos (Nat.le_add_left ..)
    _ ≤ m * 2 ^ (odd + (k + k)) := Nat.le_mul_of_pos_left _ (Nat.pos_of_ne_zero hm)

theorem sqrtParts_eq {odd : Nat} (h : ℤ) (hodd : ((h + h + odd) % 2).toNat = odd) : sqrtParts m (h + h + odd) =
    (Nat.sqrt (m * 2 ^ (odd + (128 + 128))), h - (128 : Nat),
      decide (Nat.sqrt (m * 2 ^ (odd + (128 + 128))) * Nat.sqrt (m * 2 ^ (odd + (128 + 128))) ≠ m * 2 ^ (odd + (128 + 128)))) := by
  have hhalf : (h + h + odd - odd) / 2 - 128 = h - (128 : Nat) := by omega
  unfold sqrtParts
  simp only [isqrt_from_log2, hodd, hhalf]

/-- The square root, and how many bits its significand has. -/
theorem shows_sqrtParts (m : Nat) (e : ℤ) : Shows (sqrtParts m e).1 (sqrtParts m e).2.1 (sqrtParts m e).2.2 (Real.sqrt (m * 2 ^ e)) ∧
    (m ≠ 0 → 128 ≤ (sqrtParts m e).1.log2) := by
  obtain ⟨odd, hodd⟩ : ∃ odd, (e % 2).toNat = odd := ⟨_, rfl⟩
  obtain ⟨h, rfl⟩ : ∃ h, e = h + h + odd := ⟨(e - odd) / 2, by omega⟩
  rw [sqrtParts_eq h hodd]
  dsimp only
  exact ⟨shows_sqrt_scaled m odd 128 h, fun hm => le_log2_of_two_pow_le (two_pow_le_sqrt_scaled hm odd 128)⟩

/-- The reciprocal square root, by the root of a power of two over the significand. -/
theorem shows_rsqrt_scaled (hm : m ≠ 0) (odd T : Nat) (h : ℤ) :
    Shows (Nat.sqrt (2 ^ (T + T) / (m * 2 ^ odd))) (-h - T)
      (decide (Nat.sqrt (2 ^ (T + T) / (m * 2 ^ odd)) * Nat.sqrt (2 ^ (T + T) / (m * 2 ^ odd)) * (m * 2 ^ odd) ≠ 2 ^ (T + T)))
      (1 / Real.sqrt (m * 2 ^ (h + h + odd))) := by
  have hM : 0 < m * 2 ^ odd := Nat.mul_pos (Nat.pos_of_ne_zero hm) (Nat.two_pow_pos _)
  have hMr : (0 : ℝ) < (m * 2 ^ odd : Nat) := by exact_mod_cast hM
  have hshow := (shows_sqrt_div (n := 2 ^ (T + T)) hM).scale (-h - T)
  have hvalue : ((2 ^ (T + T) : Nat) : ℝ) / (m * 2 ^ odd : Nat) * 2 ^ (-h - T + (-h - T) : ℤ) = 1 / (m * 2 ^ (h + h + odd)) := by
    have hpow : ((2 ^ (T + T) : Nat) : ℝ) = 2 ^ ((T : ℤ) + T) := by
      push_cast
      rw [← zpow_natCast]
      push_cast
      rfl
    have hcancel : (2 : ℝ) ^ ((T : ℤ) + T) * 2 ^ (-h - T + (-h - T) : ℤ) * 2 ^ (h + h) = 1 := by
      rw [← two_zpow_add, ← two_zpow_add, show (T : ℤ) + T + (-h - T + (-h - T)) + (h + h) = 0 by ring, zpow_zero]
    rw [hpow, two_zpow_add (h + h), zpow_natCast]
    have := two_zpow_pos (h + h)
    push_cast at hMr ⊢
    rw [div_mul_eq_mul_div, div_eq_div_iff hMr.ne' (by positivity)]
    linear_combination (m * 2 ^ odd : ℝ) * hcancel
  rw [zero_add, ← sqrt_mul_zpow (by positivity), hvalue, Real.sqrt_div' _ (by positivity), Real.sqrt_one] at hshow
  exact hshow

theorem two_pow_le_rsqrt_scaled {T k odd : Nat} (hm : m ≠ 0) (hk : m.log2 + 1 + odd + (k + k) ≤ T + T) :
    2 ^ k ≤ Nat.sqrt (2 ^ (T + T) / (m * 2 ^ odd)) := by
  refine two_pow_le_sqrt ((Nat.le_div_iff_mul_le (Nat.mul_pos (Nat.pos_of_ne_zero hm) (Nat.two_pow_pos _))).mpr ?_)
  calc 2 ^ (k + k) * (m * 2 ^ odd) ≤ 2 ^ (k + k) * (2 ^ (m.log2 + 1) * 2 ^ odd) :=
        Nat.mul_le_mul_left _ (Nat.mul_le_mul_right _ Nat.lt_log2_self.le)
    _ = 2 ^ (m.log2 + 1 + odd + (k + k)) := by rw [← pow_add, ← pow_add]; congr 1; omega
    _ ≤ 2 ^ (T + T) := Nat.pow_le_pow_right Nat.two_pos hk

/-- The number of a finite value above zero under a reciprocal square root. -/
theorem rsqExact_fin (hm : m ≠ 0) (e : ℤ) : ∃ (q : Nat) (qe : ℤ) (st : Bool), rsqExact (.fin false m e) = .num false q qe st ∧
    Shows q qe st (1 / Real.sqrt (m * 2 ^ e)) ∧ 100 ≤ q.log2 := by
  obtain ⟨odd, hodd⟩ : ∃ odd, (e % 2).toNat = odd := ⟨_, rfl⟩
  obtain ⟨h, rfl⟩ : ∃ h, e = h + h + odd := ⟨(e - odd) / 2, by omega⟩
  have hhalf : -(h + h + odd - odd) / 2 = -h := by omega
  unfold rsqExact
  simp only [isqrt_from_log2, hodd, hhalf, if_neg hm, Bool.false_eq_true, if_false]
  split
  · next heven =>
    obtain ⟨T, hT⟩ : ∃ T, m.log2 + 400 = T + T := ⟨(m.log2 + 400) / 2, by omega⟩
    have hTz : ((m.log2 + 400 : Nat) : ℤ) / 2 = T := by omega
    rw [hTz, hT]
    exact ⟨_, _, _, rfl, shows_rsqrt_scaled hm odd T h, le_log2_of_two_pow_le (two_pow_le_rsqrt_scaled hm (by omega))⟩
  · next hodd2 =>
    obtain ⟨T, hT⟩ : ∃ T, m.log2 + 401 = T + T := ⟨(m.log2 + 401) / 2, by omega⟩
    have hTz : (((m.log2 + 400 : Nat) : ℤ) + 1) / 2 = T := by omega
    rw [hTz, hT]
    exact ⟨_, _, _, rfl, shows_rsqrt_scaled hm odd T h, le_log2_of_two_pow_le (two_pow_le_rsqrt_scaled hm (by omega))⟩

end Sys2Proof.Machine
end

section
/-!
SUPPORT. Sums, products, quotients, square roots, fused results and conversions, delivered (R103, R113, R117).
-/

namespace Sys2Proof.Machine

open Sys2Proof.Safety

variable {f : FloatFmt} {r : Rounding} {x y z : Val}

/-! ### Values -/

section
variable {neg s : Bool} {m : Nat} {e : ℤ}

@[simp] theorem isFinite_fin : IsFinite (.fin neg m e) := ⟨neg, m, e, rfl⟩
@[simp] theorem not_isFinite_inf : ¬ IsFinite (.inf neg) := by simp [IsFinite]
@[simp] theorem not_isFinite_nan : ¬ IsFinite (.nan s) := by simp [IsFinite]
@[simp] theorem isInfinite_inf : IsInfinite (.inf neg) := ⟨neg, rfl⟩
@[simp] theorem not_isInfinite_fin : ¬ IsInfinite (.fin neg m e) := by simp [IsInfinite]
@[simp] theorem not_isInfinite_nan : ¬ IsInfinite (.nan s) := by simp [IsInfinite]
@[simp] theorem sign_fin : sign (.fin neg m e) = neg := rfl
@[simp] theorem sign_inf : sign (.inf neg) = neg := rfl
@[simp] theorem isNan_fin : (Val.fin neg m e).isNan = false := rfl
@[simp] theorem isNan_inf : (Val.inf neg).isNan = false := rfl
@[simp] theorem isNan_nan : (Val.nan s).isNan = true := rfl
@[simp] theorem isSig_fin : (Val.fin neg m e).isSig = false := rfl
@[simp] theorem isSig_inf : (Val.inf neg).isSig = false := rfl
@[simp] theorem isSig_nan : (Val.nan s).isSig = s := rfl

@[simp] theorem real_fin_eq_zero : real (.fin neg m e) = 0 ↔ m = 0 := by
  have hpow : (2 : ℚ) ^ e ≠ 0 := (zpow_pos (by norm_num) e).ne'
  cases neg <;> simp [real, hpow]

theorem real_fin_neg : real (.fin neg m e) < 0 ↔ neg = true ∧ m ≠ 0 := by
  have hpow : (0 : ℚ) < (2 : ℚ) ^ e := zpow_pos (by norm_num) e
  cases neg
  · have : (0 : ℚ) ≤ m * 2 ^ e := by positivity
    simp [real, this]
  · simp [real, hpow, Nat.pos_iff_ne_zero]

/-- The real number of a finite value: its sign and its magnitude. -/
theorem real_fin (neg : Bool) (m : Nat) (e : ℤ) : ((real (.fin neg m e) : ℚ) : ℝ) = (if neg then -1 else 1) * (m * (2 : ℝ) ^ e) := by
  cases neg <;> simp [real]

end

theorem real_mul_fin (n n' : Bool) (m m' : Nat) (e e' : ℤ) :
    real (.fin (n ^^ n') (m * m') (e + e')) = real (.fin n m e) * real (.fin n' m' e') := by
  have hpow : (2 : ℚ) ^ (e + e') = 2 ^ e * 2 ^ e' := zpow_add₀ (by norm_num) e e'
  cases n <;> cases n' <;> simp only [real, hpow, Nat.cast_mul] <;> simp <;> ring

/-! ### Delivery -/

/-- What the laws of a format need: its encodings read plainly, and its fraction leaves room for the rest that the exact results carry. -/
structure Regular (f : FloatFmt) : Prop where
  plain : ReadsPlainly f
  short : f.m ≤ 75

theorem regular_fp32 : Regular fp32 := ⟨readsPlainly_of_ieee rfl rfl (by decide), by decide⟩

theorem regular_bf16 : Regular bf16 := ⟨readsPlainly_of_ieee rfl rfl (by decide), by decide⟩

section
variable (hf : Regular f) (hd : r.dither < 2 ^ 24)
include hf hd

theorem delivered_fin (neg : Bool) (m : Nat) (e : ℤ) :
    Delivered f r ((real (.fin neg m e) : ℚ) : ℝ) neg (f.round r neg m e false) :=
  delivered_round hf.plain hd (real_fin neg m e) (shows_exact m e) (by simp) (fun _ => rfl)

/-! ### Conversions into a format (R103) -/

theorem convertsTo_convert (v : Val) : ConvertsTo f r v (f.convert r v) := by
  cases v with
  | nan s =>
    refine ⟨fun _ => ?_, by simp, by simp⟩
    simp [FloatFmt.convert, nanWith, signalled]
  | inf neg =>
    refine ⟨by simp, fun n hn => ?_, by simp⟩
    cases hn
    simp only [FloatFmt.convert, infWith, signBits_eq]
  | fin neg m e => exact ⟨by simp, by simp, fun _ => delivered_fin hf hd neg m e⟩

end

/-! ### Products (R113) -/

theorem mulVal_nan (h : (x.isNan || y.isNan) = true) : mulVal x y = (.nan (x.isSig || y.isSig), false) := by
  cases x <;> cases y <;> simp_all [mulVal]

theorem mulVal_invalid (h : ZeroTimesInfinity x y) : mulVal x y = (.nan false, true) := by
  cases x <;> cases y <;> simp_all [mulVal, ZeroTimesInfinity]

theorem mulVal_product (hnan : (x.isNan || y.isNan) = false) (hinv : ¬ ZeroTimesInfinity x y) :
    ∃ p, mulVal x y = (p, false) ∧ ProductIs x y p ∧ p.isNan = false := by
  cases x with
  | nan s => simp at hnan
  | inf n =>
    cases y with
    | nan s => simp at hnan
    | inf n' => exact ⟨.inf (n ^^ n'), rfl, by simp [ProductIs], rfl⟩
    | fin n' m' e' =>
      have hm : m' ≠ 0 := by simpa [ZeroTimesInfinity] using hinv
      exact ⟨.inf (n ^^ n'), by simp [mulVal, hm], by simp [ProductIs], rfl⟩
  | fin n m e =>
    cases y with
    | nan s => simp at hnan
    | inf n' =>
      have hm : m ≠ 0 := by simpa [ZeroTimesInfinity] using hinv
      exact ⟨.inf (n ^^ n'), by simp [mulVal, hm], by simp [ProductIs], rfl⟩
    | fin n' m' e' => exact ⟨.fin (n ^^ n') (m * m') (e + e'), rfl, by simp [ProductIs, real_mul_fin], rfl⟩

theorem multipliesTo_deliver (hf : Regular f) (hd : r.dither < 2 ^ 24) (x y : Val) : MultipliesTo f r x y (f.deliver r (mulExact x y)) := by
  refine ⟨fun hnan => ?_, fun _ hinv => ?_, fun hnan hinv => ?_⟩
  · simp [mulExact, mulVal_nan hnan, Val.exact, FloatFmt.deliver, nanWith, signalled]
  · simp [mulExact, mulVal_invalid hinv, FloatFmt.deliver, nanWith]
  · obtain ⟨p, hp, hprod, -⟩ := mulVal_product hnan hinv
    rw [mulExact, hp]
    refine ⟨p, hprod, fun hinf => ?_, fun hfin => ?_⟩
    · obtain ⟨n, rfl⟩ := hinf
      simp [Val.exact, FloatFmt.deliver, infWith, signBits_eq]
    · obtain ⟨n, m, e, rfl⟩ := hfin
      exact delivered_fin hf hd n m e

/-! ### Sums (R113, R249) -/

/-- The lesser of an exponent and that of a term. -/
def lowerExp (acc : ℤ) : Val → ℤ
  | .fin _ _ e => min acc e
  | _ => acc

/-- A sum over 2^b with one more term. -/
def addScaled (b acc : ℤ) : Val → ℤ
  | .fin n m e => acc + scaled n m e b
  | _ => acc

theorem minExpOf_eq (xs : List Val) : minExpOf xs = xs.foldl lowerExp 0 := rfl

theorem sumScaled_eq (b : ℤ) (xs : List Val) : sumScaled b xs = xs.foldl (addScaled b) 0 := rfl

theorem foldl_lowerExp_le (xs : List Val) (acc : ℤ) :
    xs.foldl lowerExp acc ≤ acc ∧ ∀ n m e, Val.fin n m e ∈ xs → xs.foldl lowerExp acc ≤ e := by
  induction xs generalizing acc with
  | nil => simp
  | cons v vs ih =>
    cases v with
    | nan s => simpa [lowerExp] using ih acc
    | inf n => simpa [lowerExp] using ih acc
    | fin n m e =>
      obtain ⟨hacc, hmem⟩ := ih (min acc e)
      refine ⟨hacc.trans (min_le_left ..), fun n' m' e' h => ?_⟩
      rcases List.mem_cons.mp h with he | he
      · cases he
        exact hacc.trans (min_le_right ..)
      · exact hmem n' m' e' he

theorem minExpOf_le {xs : List Val} {n : Bool} {m : Nat} {e : ℤ} (h : Val.fin n m e ∈ xs) : minExpOf xs ≤ e :=
  minExpOf_eq xs ▸ (foldl_lowerExp_le xs 0).2 n m e h

theorem scaled_mul_zpow {b e : ℤ} (h : b ≤ e) (n : Bool) (m : Nat) : ((scaled n m e b : ℤ) : ℚ) * 2 ^ b = real (.fin n m e) := by
  have hpow : (2 : ℚ) ^ (e - b).toNat * 2 ^ b = 2 ^ e := by
    rw [← zpow_natCast, Int.toNat_of_nonneg (by omega), ← zpow_add₀ (by norm_num)]
    congr 1
    omega
  cases n <;> simp [scaled, real, ← hpow, mul_assoc]

theorem foldl_addScaled_mul_zpow {b : ℤ} {xs : List Val} (hb : ∀ n m e, Val.fin n m e ∈ xs → b ≤ e) (acc : ℤ) :
    ((xs.foldl (addScaled b) acc : ℤ) : ℚ) * 2 ^ b = acc * 2 ^ b + (xs.map real).sum := by
  induction xs generalizing acc with
  | nil => simp
  | cons v vs ih =>
    have ih := ih (fun n m e h => hb n m e (List.mem_cons_of_mem _ h))
    cases v with
    | nan s => simpa [addScaled, real] using ih acc
    | inf n => simpa [addScaled, real] using ih acc
    | fin n m e =>
      have hv := scaled_mul_zpow (hb n m e List.mem_cons_self) n m
      rw [List.foldl_cons, ih, List.map_cons, List.sum_cons, ← hv, addScaled]
      push_cast
      ring

theorem sumScaled_mul_zpow (xs : List Val) :
    ((sumScaled (minExpOf xs) xs : ℤ) : ℚ) * 2 ^ minExpOf xs = (xs.map real).sum := by
  rw [sumScaled_eq, foldl_addScaled_mul_zpow (fun n m e h => minExpOf_le h) 0]
  simp

/-- The sign of an exact zero sum. -/
def zeroSign (rm : Nat) (xs : List Val) : Bool :=
  if xs.all (·.isZero true) && !xs.isEmpty then true else if xs.all (·.isZero false) then false else rm == 3

section
variable {rm : Nat} {xs : List Val}

theorem any_eq_true_iff {v : Val} : xs.any (· == v) = true ↔ v ∈ xs := by
  simp [List.any_eq_true]

theorem sumExact_both (hp : Val.inf false ∈ xs) (hn : Val.inf true ∈ xs) : sumExact rm xs = .nan flagNV := by
  have hp := any_eq_true_iff.mpr hp
  have hn := any_eq_true_iff.mpr hn
  simp only [sumExact, hp, hn, Bool.and_self, Bool.or_true, if_true, flagIf]

theorem sumExact_nan (hboth : ¬ (Val.inf false ∈ xs ∧ Val.inf true ∈ xs)) (h : ∃ v ∈ xs, v.isNan = true) :
    sumExact rm xs = .nan (signalled xs) := by
  have hboth : (xs.any (· == .inf false) && xs.any (· == .inf true)) = false := by
    rw [Bool.eq_false_iff, Ne, Bool.and_eq_true, any_eq_true_iff, any_eq_true_iff]
    exact hboth
  have hnan : xs.any Val.isNan = true := List.any_eq_true.mpr h
  simp only [sumExact, hboth, hnan, Bool.or_false, if_true, signalled]

theorem sumExact_inf {neg : Bool} (hboth : ¬ (Val.inf false ∈ xs ∧ Val.inf true ∈ xs)) (hnan : ∀ v ∈ xs, v.isNan = false)
    (h : Val.inf neg ∈ xs) : sumExact rm xs = .inf neg 0 := by
  have hnan : xs.any Val.isNan = false := by simpa using hnan
  cases neg
  · have hn : xs.any (· == .inf true) = false := Bool.eq_false_iff.mpr (fun hn => hboth ⟨h, any_eq_true_iff.mp hn⟩)
    simp only [sumExact, hnan, any_eq_true_iff.mpr h, hn, Bool.and_false, Bool.or_false, Bool.false_eq_true, if_false, if_true]
  · have hp : xs.any (· == .inf false) = false := Bool.eq_false_iff.mpr (fun hp => hboth ⟨any_eq_true_iff.mp hp, h⟩)
    simp only [sumExact, hnan, any_eq_true_iff.mpr h, hp, Bool.false_and, Bool.or_false, Bool.false_eq_true, if_false, if_true]

theorem sumExact_fin (h : ∀ v ∈ xs, IsFinite v) : sumExact rm xs =
    if sumScaled (minExpOf xs) xs = 0 then .num (zeroSign rm xs) 0 0 false
    else .num (decide (sumScaled (minExpOf xs) xs < 0)) (sumScaled (minExpOf xs) xs).natAbs (minExpOf xs) false := by
  have hinf (n : Bool) : xs.any (· == .inf n) = false :=
    Bool.eq_false_iff.mpr (fun hn => not_isFinite_inf (h _ (any_eq_true_iff.mp hn)))
  have hnan : xs.any Val.isNan = false := by
    rw [List.any_eq_false]
    intro v hv
    obtain ⟨n, m, e, rfl⟩ := h v hv
    simp
  simp only [sumExact, hinf, hnan, Bool.and_false, Bool.or_false, Bool.false_eq_true, if_false, zeroSign]

theorem isZero_iff {v : Val} {neg : Bool} (h : IsFinite v) : v.isZero neg = true ↔ real v = 0 ∧ sign v = neg := by
  obtain ⟨n, m, e, rfl⟩ := h
  simp [Val.isZero]

theorem all_isZero_iff {neg : Bool} (h : ∀ v ∈ xs, IsFinite v) :
    xs.all (·.isZero neg) = true ↔ ∀ v ∈ xs, real v = 0 ∧ sign v = neg := by
  rw [List.all_eq_true]
  exact forall₂_congr (fun v hv => isZero_iff (h v hv))

end

theorem deliver_num_flip (f : FloatFmt) (r : Rounding) (flip n : Bool) (m : Nat) (e : ℤ) (st : Bool) :
    f.deliver r (if flip then (Exact.num n m e st).neg else .num n m e st) = f.round r (n ^^ flip) m e st := by
  cases flip
  · rw [Bool.xor_false]; rfl
  · rw [Bool.xor_true]; rfl

/-- A sum that is t × 2^b, negated if flip, or a zero of its own sign. -/
theorem delivered_sum (hf : Regular f) (hd : r.dither < 2 ^ 24) (flip zero : Bool) (t b : ℤ) :
    Delivered f r (((t * 2 ^ b : ℚ) : ℝ) * (if flip then -1 else 1)) (zero ^^ flip)
      (f.deliver r (if flip then (if t = 0 then Exact.num zero 0 0 false else .num (decide (t < 0)) t.natAbs b false).neg
        else if t = 0 then .num zero 0 0 false else .num (decide (t < 0)) t.natAbs b false)) := by
  by_cases h0 : t = 0
  · rw [if_pos h0, deliver_num_flip, h0]
    exact delivered_round (y := (0 : Nat) * 2 ^ (0 : ℤ)) hf.plain hd (by simp) (shows_exact 0 0) (by simp) (fun _ => rfl)
  · rw [if_neg h0, deliver_num_flip]
    refine delivered_round (y := t.natAbs * 2 ^ b) hf.plain hd ?_ (shows_exact _ _) (by simp) (fun hx => absurd hx ?_)
    · have hsign : (t : ℝ) = (if decide (t < 0) then -1 else 1) * (t.natAbs : ℝ) := by
        rw [Nat.cast_natAbs]
        rcases lt_or_ge t 0 with hneg | hpos
        · simp [hneg, abs_of_neg hneg]
        · simp [hpos.not_gt, abs_of_nonneg hpos]
      push_cast
      rw [hsign]
      cases decide (t < 0) <;> cases flip <;> simp
    · have ht : (t : ℝ) ≠ 0 := by exact_mod_cast h0
      push_cast
      exact mul_ne_zero (mul_ne_zero ht (two_zpow_pos b).ne') (by split <;> norm_num)

theorem sumsTo_deliver (hf : Regular f) (hd : r.dither < 2 ^ 24) (flip : Bool) (xs : List Val) :
    SumsTo f r flip xs (f.deliver r (if flip then (sumExact r.rm xs).neg else sumExact r.rm xs)) := by
  refine ⟨fun hboth => ?_, fun hboth hnan => ?_, fun neg hboth hnan hinf => ?_, fun hfin => ⟨zeroSign r.rm xs, ?_, ?_, ?_, ?_⟩⟩
  · rw [sumExact_both hboth.1 hboth.2]
    cases flip <;> rfl
  · rw [sumExact_nan hboth hnan]
    cases flip <;> rfl
  · rw [sumExact_inf hboth hnan hinf]
    cases flip <;> cases neg <;> rfl
  · intro hneg hne
    have hall := (all_isZero_iff hfin).mpr hneg
    have hempty : xs.isEmpty = false := by simpa using hne
    simp [zeroSign, hall, hempty]
  · intro hpos
    have hall := (all_isZero_iff hfin).mpr hpos
    cases xs with
    | nil => rfl
    | cons v vs =>
      have hnot : ((v :: vs).all (·.isZero true)) = false := by
        have hv := (isZero_iff (hfin v List.mem_cons_self)).not (b := real v = 0 ∧ sign v = true)
        have hs := (hpos v List.mem_cons_self).2
        rw [List.all_cons, Bool.and_eq_false_iff]
        exact .inl (Bool.eq_false_iff.mpr (hv.mpr (by simp [hs])))
      simp only [zeroSign, hnot, hall, Bool.false_and, Bool.false_eq_true, if_false, if_true]
  · rintro ⟨v, hv, hnv⟩ ⟨w, hw, hnw⟩
    have hneg : xs.all (·.isZero true) = false := Bool.eq_false_iff.mpr (fun h => hnv ((all_isZero_iff hfin).mp h v hv))
    have hpos : xs.all (·.isZero false) = false := Bool.eq_false_iff.mpr (fun h => hnw ((all_isZero_iff hfin).mp h w hw))
    simp only [zeroSign, hneg, hpos, Bool.false_and, Bool.false_eq_true, if_false]
    rfl
  · have hsum := sumScaled_mul_zpow xs
    rw [sumExact_fin hfin, ← hsum]
    exact delivered_sum hf hd flip _ _ _

/-! ### Fused results (R117) -/

theorem sumExact_pair_nan {rm : Nat} {p : Val} (h : (p.isNan || z.isNan) = true) : sumExact rm [p, z] = .nan (signalled [p, z]) := by
  refine sumExact_nan (fun hboth => ?_) (by simpa using h)
  cases p <;> cases z <;> simp_all

theorem isSig_of_isNan (h : x.isNan = false) : x.isSig = false := by
  cases x <;> simp_all

theorem fmaExact_nan {rm : Nat} (hinv : ¬ ZeroTimesInfinity x y) (hnan : (x.isNan || y.isNan || z.isNan) = true) :
    fmaExact rm x y z = .nan (signalled [x, y, z]) := by
  cases hxy : x.isNan || y.isNan
  · obtain ⟨p, hp, -, hpn⟩ := mulVal_product hxy hinv
    obtain ⟨hx, hy⟩ := Bool.or_eq_false_iff.mp hxy
    have hz : z.isNan = true := by simpa [hxy] using hnan
    rw [fmaExact, hp]
    refine (sumExact_pair_nan (by simp [hz])).trans ?_
    simp [signalled, isSig_of_isNan hx, isSig_of_isNan hy, isSig_of_isNan hpn]
  · rw [fmaExact, mulVal_nan hxy]
    have hpair : sumExact rm [.nan (x.isSig || y.isSig), z] = .nan (signalled [.nan (x.isSig || y.isSig), z]) := sumExact_pair_nan rfl
    exact hpair.trans (by simp [signalled, Bool.or_assoc])

theorem fusesTo_deliver (hf : Regular f) (hd : r.dither < 2 ^ 24) (flip : Bool) (x y z : Val) :
    FusesTo f r flip x y z (f.deliver r (if flip then (fmaExact r.rm x y z).neg else fmaExact r.rm x y z)) := by
  refine ⟨fun hinv => ?_, fun hinv hnan => ?_, fun hinv hnan => ?_⟩
  · rw [fmaExact, mulVal_invalid hinv]
    cases flip <;> rfl
  · rw [fmaExact_nan hinv hnan]
    cases flip <;> rfl
  · obtain ⟨hxy, hz⟩ := Bool.or_eq_false_iff.mp hnan
    obtain ⟨p, hp, hprod, hpn⟩ := mulVal_product hxy hinv
    rw [fmaExact, hp]
    exact ⟨p, hprod, hpn, sumsTo_deliver hf hd flip [p, z]⟩

/-! ### Quotients (R113) -/

theorem real_div_fin (n n' : Bool) (m m' : Nat) (e e' : ℤ) : ((real (.fin n m e) / real (.fin n' m' e') : ℚ) : ℝ) =
    (if n ^^ n' then -1 else 1) * (m * (2 : ℝ) ^ e / (m' * 2 ^ e')) := by
  rw [Rat.cast_div, real_fin, real_fin]
  cases n <;> cases n' <;> simp [neg_div, div_neg]

theorem quotient_deep (hf : Regular f) {m m' : Nat} (hm' : m' ≠ 0) (hst : decide (m * 2 ^ (128 + m'.log2) % m' ≠ 0) = true) :
    f.m + 24 ≤ (m * 2 ^ (128 + m'.log2) / m').log2 := by
  have hm : m ≠ 0 := by
    rintro rfl
    simp at hst
  have := quotient_log2 hm hm'
  have := hf.short
  omega

theorem dividesTo_deliver (hf : Regular f) (hd : r.dither < 2 ^ 24) (x y : Val) : DividesTo f r x y (f.deliver r (divExact x y)) := by
  cases x with
  | nan s =>
    refine ⟨fun _ => ?_, by simp, by simp, by simp, by simp⟩
    cases y <;> simp [divExact, FloatFmt.deliver, nanWith, signalled]
  | inf n =>
    cases y with
    | nan s => exact ⟨fun _ => by simp [divExact, FloatFmt.deliver, nanWith, signalled], by simp, by simp, by simp, by simp⟩
    | inf n' => exact ⟨by simp, fun _ _ => rfl, by simp, by simp, by simp⟩
    | fin n' m' e' => exact ⟨by simp, by simp, fun _ _ => rfl, by simp, by simp⟩
  | fin n m e =>
    cases y with
    | nan s => exact ⟨fun _ => by simp [divExact, FloatFmt.deliver, nanWith, signalled], by simp, by simp, by simp, by simp⟩
    | inf n' => exact ⟨by simp, by simp, by simp, fun _ _ => rfl, by simp⟩
    | fin n' m' e' =>
      refine ⟨by simp, by simp, by simp, by simp, fun _ _ => ⟨fun hx hy => ?_, fun hx hy => ?_, fun hy => ?_⟩⟩
      · rw [divExact, if_pos (real_fin_eq_zero.mp hy), if_pos (real_fin_eq_zero.mp hx)]
        rfl
      · rw [divExact, if_pos (real_fin_eq_zero.mp hy), if_neg (real_fin_eq_zero.not.mp hx)]
        rfl
      · have hm' := real_fin_eq_zero.not.mp hy
        rw [divExact, if_neg hm']
        exact delivered_round hf.plain hd (real_div_fin ..) (shows_quotient e e' hm') (quotient_deep hf hm') (fun _ => rfl)

/-! ### Square roots (R113) -/

theorem rootIs_deliver (hf : Regular f) (hd : r.dither < 2 ^ 24) (x : Val) : RootIs f r x (f.deliver r (sqrtExact x)) := by
  cases x with
  | nan s => exact ⟨fun _ => by simp [sqrtExact, FloatFmt.deliver, nanWith, signalled], by simp, by simp, by simp⟩
  | inf n =>
    exact ⟨by simp, fun h => by rw [h]; rfl, fun h => by rw [h]; rfl, by simp⟩
  | fin n m e =>
    refine ⟨by simp, by simp, by simp, fun _ => ⟨fun hneg => ?_, fun hpos => ?_⟩⟩
    · obtain ⟨rfl, hm⟩ := real_fin_neg.mp hneg
      simp [sqrtExact, hm, FloatFmt.deliver, nanWith]
    · by_cases hm : m = 0
      · subst hm
        exact delivered_round (y := (0 : Nat) * 2 ^ (0 : ℤ)) hf.plain hd (by simp [real]) (shows_exact 0 0) (by simp) (fun _ => rfl)
      · obtain rfl : n = false := Bool.eq_false_iff.mpr (fun hn => absurd (real_fin_neg.mpr ⟨hn, hm⟩) hpos.not_gt)
        obtain ⟨hshow, hlog⟩ := shows_sqrtParts m e
        have hlog := hlog hm
        have hshort := hf.short
        simp only [sqrtExact, if_neg hm, Bool.false_eq_true, if_false]
        exact delivered_round hf.plain hd (by simp [real]) hshow (fun _ => by omega) (fun _ => rfl)

end Sys2Proof.Machine
end

section
/-!
SUPPORT. The order of values, minimum and maximum, conversions to integers, and the estimates (R103, R114, R116, R118).
-/

namespace Sys2Proof.Machine

open Sys2Proof.Safety

variable {x y : Val} {r : Rounding}

/-! ### The order of the numbers and infinities (R116) -/

theorem compare_scaled (n n' : Bool) (m m' : Nat) (e e' : ℤ) :
    compare (scaled n m e (min e e')) (scaled n' m' e' (min e e')) = compare (real (.fin n m e)) (real (.fin n' m' e')) := by
  have hpow : (0 : ℚ) < 2 ^ min e e' := zpow_pos (by norm_num) _
  have hx := scaled_mul_zpow (min_le_left e e') n m
  have hy := scaled_mul_zpow (min_le_right e e') n' m'
  generalize scaled n m e (min e e') = a at hx
  generalize scaled n' m' e' (min e e') = b at hy
  rcases lt_trichotomy a b with h | h | h
  · rw [compare_lt_iff_lt.mpr h, compare_lt_iff_lt.mpr (by rw [← hx, ← hy]; exact mul_lt_mul_of_pos_right (by exact_mod_cast h) hpow)]
  · rw [compare_eq_iff_eq.mpr h, compare_eq_iff_eq.mpr (by rw [← hx, ← hy, h])]
  · rw [compare_gt_iff_gt.mpr h, compare_gt_iff_gt.mpr (by rw [← hx, ← hy]; exact mul_lt_mul_of_pos_right (by exact_mod_cast h) hpow)]

theorem cmp_fin (n n' : Bool) (m m' : Nat) (e e' : ℤ) :
    (Val.fin n m e).cmp (.fin n' m' e') = compare (real (.fin n m e)) (real (.fin n' m' e')) :=
  compare_scaled n n' m m' e e'

/-- The order of two values that are no NaNs. -/
theorem cmp_spec (hx : x.isNan = false) (hy : y.isNan = false) :
    (x.cmp y = .lt ↔ Before x y) ∧ (x.cmp y = .eq ↔ Equal x y) ∧ (x.cmp y = .gt ↔ Before y x) := by
  cases x with
  | nan s => simp at hx
  | inf n =>
    cases y with
    | nan s => simp at hy
    | inf n' => cases n <;> cases n' <;> simp [Val.cmp, Before, Equal]
    | fin n' m' e' => cases n <;> simp [Val.cmp, Before, Equal]
  | fin n m e =>
    cases y with
    | nan s => simp at hy
    | inf n' => cases n' <;> simp [Val.cmp, Before, Equal]
    | fin n' m' e' =>
      rw [cmp_fin, compare_lt_iff_lt, compare_eq_iff_eq, compare_gt_iff_gt]
      simp [Before, Equal]

/-- What a comparison asks of the order. -/
def FCmp.holds (c : FCmp) (o : Ordering) : Bool :=
  match c with
  | .eq => o == .eq
  | .lt => o == .lt
  | .le => o != .gt

theorem fcmp_nan {c : FCmp} (h : (x.isNan || y.isNan) = true) : fcmp c x y = (false, flagIf (x.isSig || y.isSig || c != .eq) flagNV) :=
  if_pos h

theorem fcmp_ordered {c : FCmp} (h : (x.isNan || y.isNan) = false) : fcmp c x y = (c.holds (x.cmp y), 0) := by
  refine (if_neg (Bool.eq_false_iff.mp h)).trans ?_
  cases c <;> cases x.cmp y <;> rfl

theorem comparesTo_fcmp (c : FCmp) (x y : Val) : ComparesTo c x y (fcmp c x y) := by
  refine ⟨fun hnan => ?_, fun hnan => ?_⟩
  · rw [fcmp_nan hnan]
    cases c <;> simp [signalled, flagIf]
  · obtain ⟨hx, hy⟩ := Bool.or_eq_false_iff.mp hnan
    obtain ⟨hlt, heq, hgt⟩ := cmp_spec hx hy
    rw [fcmp_ordered hnan]
    refine ⟨rfl, ?_⟩
    cases c
    · exact beq_iff_eq.trans heq
    · exact beq_iff_eq.trans hlt
    · rw [← hlt, ← heq]
      cases x.cmp y <;> simp [FCmp.holds]

/-! ### Minimum and maximum (R114) -/

theorem below_iff (hx : x.isNan = false) (hy : y.isNan = false) : x.below y = true ↔ Above x y := by
  obtain ⟨hlt, heq, hgt⟩ := cmp_spec hx hy
  unfold Val.below Above
  cases hc : x.cmp y
  · simp [hlt.mp hc]
  · have hbefore : ¬ Before x y := fun h => by simp [hlt.mpr h] at hc
    have hequal := heq.mp hc
    simp only [hbefore, hequal, true_and, false_or, Bool.and_eq_true]
    rcases hequal with ⟨hfx, hfy, hreal⟩ | ⟨⟨n, rfl⟩, -⟩
    · rw [isZero_iff hfx, isZero_iff hfy, ← hreal]
      tauto
    · simp [Val.isZero]
  · have hbefore : ¬ Before x y := fun h => by simp [hlt.mpr h] at hc
    have hequal : ¬ Equal x y := fun h => by simp [heq.mpr h] at hc
    simp [hbefore, hequal]

theorem above_asymm (hx : x.isNan = false) (hy : y.isNan = false) (h : Above x y) : ¬ Above y x := by
  obtain ⟨hlt, heq, hgt⟩ := cmp_spec hx hy
  rintro (hback | ⟨heq', -, -, hsy, hsx⟩) <;> rcases h with hfwd | ⟨hequal, -, -, hsx', hsy'⟩
  · have := (hlt.mpr hfwd).symm.trans (hgt.mpr hback)
    simp at this
  · have := (heq.mpr hequal).symm.trans (hgt.mpr hback)
    simp at this
  · have := (cmp_spec hy hx).2.2.mpr hfwd
    rw [(cmp_spec hy hx).2.1.mpr heq'] at this
    simp at this
  · rw [hsy] at hsy'
    simp at hsy'

theorem selectsMinMax_bits (f : FloatFmt) (isMax : Bool) (x y : Nat) : SelectsMinMax f isMax x y (minMaxBits f isMax x y) := by
  unfold SelectsMinMax minMaxBits
  generalize f.read x = a
  generalize f.read y = b
  have hflags : flagIf (a.isSig || b.isSig) flagNV = signalled [a, b] := by simp [signalled]
  dsimp only
  rw [hflags]
  cases ha : a.isNan
  · cases hb : b.isNan
    · have hab : a.below b = true ↔ Above a b := below_iff ha hb
      have hba : b.below a = true ↔ Above b a := below_iff hb ha
      have hasymm : Above a b → ¬ Above b a := above_asymm ha hb
      cases isMax
      · by_cases h : Above b a
        · have hnot : ¬ Above a b := fun h' => hasymm h' h
          simp [hba.mpr h, h, hnot]
        · simp [Bool.eq_false_iff.mpr (fun h' => h (hba.mp h')), h]
      · by_cases h : Above a b
        · simp [hab.mpr h, h, hasymm h]
        · simp [Bool.eq_false_iff.mpr (fun h' => h (hab.mp h')), h]
    · simp
  · cases hb : b.isNan <;> simp

/-! ### Conversions to integers (R103) -/

theorem abs_real_fin (neg : Bool) (m : Nat) (e : ℤ) : |((real (.fin neg m e) : ℚ) : ℝ)| = m * 2 ^ e := by
  have hpos : (0 : ℝ) ≤ m * 2 ^ e := mul_nonneg (Nat.cast_nonneg _) (two_zpow_pos e).le
  rw [real_fin]
  cases neg <;> simp [abs_of_nonneg hpos]

theorem toInt_far {lo hi : Int} {neg : Bool} {m : Nat} {e : ℤ} (h : 80 < e ∧ m ≠ 0) :
    toInt lo hi r (.fin neg m e) = (if neg then lo else hi, flagNV) :=
  if_pos (by simpa using h)

/-- An integer by its sign and magnitude. -/
def signedInt (neg : Bool) (n : Nat) : Int := if neg then -(n : Int) else n

theorem limited_spec {lo hi : Int} (hle : lo ≤ hi) (w : Int) (fl : FlagSet) :
    let o := if w < lo then (lo, flagNV) else if hi < w then (hi, flagNV) else (w, fl)
    (w < lo → o = (lo, flagNV)) ∧ (hi < w → o = (hi, flagNV)) ∧ (lo ≤ w → w ≤ hi → o = (w, fl)) := by
  refine ⟨fun h => if_pos h, fun h => ?_, fun h h' => ?_⟩
  · rw [if_neg (by omega), if_pos h]
  · rw [if_neg (by omega), if_neg (by omega)]

theorem toInt_near {lo hi : Int} {neg : Bool} {m : Nat} {e : ℤ} (h : ¬ (80 < e ∧ m ≠ 0)) : toInt lo hi r (.fin neg m e) =
    if signedInt neg (roundInt r neg m e false).1 < lo then (lo, flagNV)
    else if hi < signedInt neg (roundInt r neg m e false).1 then (hi, flagNV)
    else (signedInt neg (roundInt r neg m e false).1, flagIf (roundInt r neg m e false).2 flagNX) :=
  if_neg (by simpa using h)

section
variable (hd : r.dither < 2 ^ 24)
include hd

theorem roundInt_spec (neg : Bool) (m : Nat) (e : ℤ) : RoundsTo r neg (m * 2 ^ e) (roundInt r neg m e false).1 ∧
    ((roundInt r neg m e false).2 = true ↔ ((roundInt r neg m e false).1 : ℝ) ≠ m * 2 ^ e) := by
  unfold roundInt
  split
  · next he =>
    have hvalue : ((m * 2 ^ e.toNat : Nat) : ℝ) = m * 2 ^ e := by
      push_cast
      rw [two_pow_toNat he]
    rw [← hvalue]
    exact ⟨roundsTo_nat hd neg _, by simp⟩
  · next he =>
    obtain ⟨sh, rfl⟩ : ∃ sh : Nat, e = -sh := ⟨(-e).toNat, by omega⟩
    have hto : (-(-(sh : ℤ))).toNat = sh := by omega
    have hrest : Rest sh (m % 2 ^ sh) false 0 := ⟨by omega, Nat.mod_lt _ (Nat.two_pow_pos sh), le_rfl, one_pos, by simp, by simp⟩
    have hdiv : (m : ℝ) = (m / 2 ^ sh : Nat) * 2 ^ sh + (m % 2 ^ sh : Nat) := by exact_mod_cast (Nat.div_add_mod' m (2 ^ sh)).symm
    have hy : (m : ℝ) * 2 ^ (-sh : ℤ) * 2 ^ sh = (m / 2 ^ sh : Nat) * 2 ^ sh + (m % 2 ^ sh : Nat) + 0 := by
      rw [add_zero, ← hdiv, ← zpow_natCast, mul_assoc, ← two_zpow_add, neg_add_cancel, zpow_zero, mul_one]
    have hix := coarse_inexact (neg := neg) (qe := 0) hd hrest (by rw [zpow_zero, div_one]; exact hy)
    rw [zpow_zero, mul_one] at hix
    simp only [hto]
    exact ⟨roundUp_roundsTo hd hrest hy, hix⟩

/-- A finite magnitude of 2^81 and more is beyond the limits. -/
theorem convertsToInt_far {lo hi : Int} (hlo : -(2 ^ 81) < lo) (hhi : hi < 2 ^ 81) (hle : lo ≤ hi) (neg : Bool) {m : Nat} {e : ℤ}
    (he : 80 < e) (hm : m ≠ 0) : ConvertsToInt lo hi r (.fin neg m e) (if neg then lo else hi, flagNV) := by
  have hvalue : ((m * 2 ^ e.toNat : Nat) : ℝ) = m * 2 ^ e := by
    push_cast
    rw [two_pow_toNat (by omega)]
  have hbig : 2 ^ 81 ≤ m * 2 ^ e.toNat :=
    (Nat.pow_le_pow_right Nat.two_pos (by omega)).trans (Nat.le_mul_of_pos_left _ (Nat.pos_of_ne_zero hm))
  refine ⟨by simp, by simp, fun _ => ⟨m * 2 ^ e.toNat, false, ?_, ?_, ?_⟩⟩
  · rw [abs_real_fin, ← hvalue]
    exact roundsTo_nat hd _ _
  · simp only [abs_real_fin, ← hvalue, ne_eq, not_true_eq_false, Bool.false_eq_true]
  · generalize m * 2 ^ e.toNat = n at hbig
    have hbig : (2 : ℤ) ^ 81 ≤ n := by exact_mod_cast hbig
    cases neg
    · exact ⟨fun h => absurd (show (n : ℤ) < lo from h) (by omega), fun _ => rfl,
        fun _ h => absurd (show (n : ℤ) ≤ hi from h) (by omega)⟩
    · exact ⟨fun _ => rfl, fun h => absurd (show hi < -(n : ℤ) from h) (by omega),
        fun h _ => absurd (show lo ≤ -(n : ℤ) from h) (by omega)⟩

theorem convertsToInt_toInt {lo hi : Int} (hlo : -(2 ^ 81) < lo) (hhi : hi < 2 ^ 81) (hle : lo ≤ hi) (v : Val) :
    ConvertsToInt lo hi r v (toInt lo hi r v) := by
  cases v with
  | nan s => exact ⟨fun _ => rfl, by simp, by simp⟩
  | inf neg => exact ⟨by simp, fun n hn => by cases hn; rfl, by simp⟩
  | fin neg m e =>
    by_cases hfar : 80 < e ∧ m ≠ 0
    · rw [toInt_far hfar]
      exact convertsToInt_far hd hlo hhi hle neg hfar.1 hfar.2
    · obtain ⟨hrounds, hix⟩ := roundInt_spec hd neg m e
      rw [toInt_near hfar]
      generalize roundInt r neg m e false = g at hrounds hix
      refine ⟨by simp, by simp, fun _ => ⟨g.1, g.2, ?_, ?_, ?_⟩⟩
      · rw [abs_real_fin]
        exact hrounds
      · rw [abs_real_fin]
        exact hix
      · exact limited_spec hle (signedInt neg g.1) _

end

/-! ### Estimates (R118) -/

theorem magnitude_fp32_largest : magnitude fp32 fp32.maxFinite = (2 ^ 24 - 1 : Nat) * (2 : ℝ) ^ (104 : ℤ) := by
  have h := magnitude_bits (f := fp32) (d := 253) (q := 2 ^ 24 - 1) (by decide) (by decide)
  exact h

/-- A number of 12 significant bits below 2^128 is one of FP32. -/
theorem short_le_largest {q : Nat} {qe : ℤ} (hq : q ≤ 2 ^ 12) (hlt : q * (2 : ℝ) ^ qe < 2 ^ (128 : ℤ)) :
    q * (2 : ℝ) ^ qe ≤ magnitude fp32 fp32.maxFinite := by
  rw [magnitude_fp32_largest]
  have hpos := two_zpow_pos 104
  rcases le_total qe 104 with hsmall | hlarge
  · have hcast : (q : ℝ) ≤ (2 ^ 24 - 1 : Nat) := by exact_mod_cast hq.trans (by decide)
    exact mul_le_mul hcast (two_zpow_le.mpr hsmall) (two_zpow_pos qe).le (Nat.cast_nonneg _)
  · obtain ⟨d, rfl⟩ : ∃ d : Nat, qe = d + 104 := ⟨(qe - 104).toNat, by omega⟩
    have hsplit : (q : ℝ) * 2 ^ ((d : ℤ) + 104) = (q * 2 ^ d : Nat) * 2 ^ (104 : ℤ) := by
      rw [two_zpow_add, zpow_natCast, ← mul_assoc]
      push_cast
      rfl
    have htop : (2 : ℝ) ^ (128 : ℤ) = (2 ^ 24 : Nat) * 2 ^ (104 : ℤ) := by norm_num
    rw [hsplit, htop] at hlt
    rw [hsplit]
    have hnat : q * 2 ^ d < 2 ^ 24 := by exact_mod_cast lt_of_mul_lt_mul_right hlt hpos.le
    exact mul_le_mul_of_nonneg_right (by exact_mod_cast Nat.le_sub_one_of_lt hnat) hpos.le

theorem estimated_deliver (neg : Bool) {m : Nat} {e : ℤ} {st : Bool} {x : ℝ} (h : Shows m e st x) (hm : m ≠ 0)
    (hdeep : st = true → 35 ≤ m.log2) : Estimated neg x (deliverEstimate (.num neg m e st)) := by
  have hgrid := onGrid_roundGrid (mb := 11) (minE := -149) (r := rne) (neg := neg) (by decide) h hm hdeep
  obtain ⟨hlow, hhigh⟩ := h.exponent hm
  have hsmall := h.lt_zpow_iff hm (-126)
  simp only [deliverEstimate, if_neg hm]
  generalize roundGrid 11 (-149) rne neg m e st = g at hgrid
  obtain ⟨q, qe, ix⟩ := g
  obtain ⟨hexp, hrounds, hix, hbelow, hnormal⟩ := hgrid
  dsimp only at hexp hrounds hix hbelow hnormal ⊢
  have hover : qe + q.log2 ≥ 128 ↔ (2 : ℝ) ^ (128 : ℤ) ≤ q * 2 ^ qe := by
    by_cases hq : q = 0
    · have hqe : qe = -149 := by
        have : ¬ (-149 : ℤ) ≤ e + m.log2 - 11 := fun hle => absurd (hnormal hle) (by rw [hq]; decide)
        push_cast at hexp
        omega
      subst hq hqe
      simp
    · rw [ge_iff_le, ← not_lt, ← not_lt, (shows_exact q qe).lt_zpow_iff hq]
  refine ⟨e + m.log2, q, hlow, hhigh, ?_⟩
  have hspacing : max (e + m.log2 - 11 : ℤ) (-149) = qe := hexp.symm
  dsimp only
  rw [hspacing]
  refine ⟨hrounds, fun hlt => ?_, fun hge => by rw [if_pos (hover.mpr hge)]; rfl⟩
  have hle := short_le_largest hbelow hlt
  obtain ⟨b, hb, hmag, hround⟩ := round_exact (r := rne) (f := fp32) (by decide) neg (Nat.lt_of_le_of_lt hbelow (by decide))
    (show fp32.minExp ≤ qe from (le_max_right ..).trans hexp.ge) hle
  rw [if_neg (fun hge => absurd (hover.mp hge) hlt.not_ge), hround]
  exact ⟨b, ix, _, (real_read regular_fp32.plain hb).trans hmag, hb, hix, decide_eq_true_iff.trans hsmall.symm, rfl⟩

theorem estimateIs_deliver (neg : Bool) {m : Nat} {e : ℤ} {st : Bool} {x : ℝ} (h : Shows m e st x) (hlog : 100 ≤ m.log2) :
    EstimateIs fp32 neg x (deliverEstimate (.num neg m e st)) := by
  have hm : m ≠ 0 := by
    rintro rfl
    simp at hlog
  exact ⟨fun _ => estimated_deliver neg h hm (fun _ => by omega), fun h => absurd h (by decide)⟩

theorem reciprocalIs_deliver (v : Val) : ReciprocalIs fp32 v (deliverEstimate (rcpExact v)) := by
  cases v with
  | nan s => exact ⟨fun _ => by simp [rcpExact, deliverEstimate, FloatFmt.deliver, nanWith, signalled], by simp, by simp⟩
  | inf n => exact ⟨by simp, fun _ => rfl, by simp⟩
  | fin n m e =>
    refine ⟨by simp, by simp, fun _ => ⟨fun h0 => ?_, fun h0 => ?_⟩⟩
    · rw [rcpExact, if_pos (real_fin_eq_zero.mp h0)]
      rfl
    · have hm := real_fin_eq_zero.not.mp h0
      have hshow := shows_quotient (m := 1) 0 e hm
      have habs : |((1 / real (.fin n m e) : ℚ) : ℝ)| = (1 : Nat) * (2 : ℝ) ^ (0 : ℤ) / (m * 2 ^ e) := by
        rw [Rat.cast_div, abs_div, abs_real_fin]
        simp
      rw [rcpExact, if_neg hm, divExact, if_neg hm, habs, Bool.false_xor]
      exact estimateIs_deliver n hshow ((by decide : 100 ≤ 127).trans (quotient_log2 one_ne_zero hm))

theorem rootReciprocalIs_deliver (v : Val) : RootReciprocalIs fp32 v (deliverEstimate (rsqExact v)) := by
  cases v with
  | nan s => exact ⟨fun _ => by simp [rsqExact, deliverEstimate, FloatFmt.deliver, nanWith, signalled], by simp, by simp, by simp⟩
  | inf n => exact ⟨by simp, fun h => by rw [h]; rfl, fun h => by rw [h]; rfl, by simp⟩
  | fin n m e =>
    refine ⟨by simp, by simp, by simp, fun _ => ⟨fun h0 => ?_, fun hneg => ?_, fun hpos => ?_⟩⟩
    · rw [rsqExact, if_pos (real_fin_eq_zero.mp h0)]
      rfl
    · obtain ⟨rfl, hm⟩ := real_fin_neg.mp hneg
      rw [rsqExact, if_neg hm]
      rfl
    · have hm := real_fin_eq_zero.not.mp hpos.ne'
      obtain rfl : n = false := Bool.eq_false_iff.mpr (fun hn => absurd (real_fin_neg.mpr ⟨hn, hm⟩) hpos.not_gt)
      obtain ⟨q, qe, st, hrsq, hshow, hlog⟩ := rsqExact_fin hm e
      rw [hrsq, real_fin, if_neg Bool.false_ne_true, one_mul]
      exact estimateIs_deliver false hshow hlog

end Sys2Proof.Machine
end

section
/-!
SUPPORT. The encodings of the formats, and the operations of the scalar floating-point instructions (R94, R96, R103, R113 to R119).
-/

namespace Sys2Proof.Machine

open Sys2Proof.Safety

variable {f : FloatFmt} {r : Rounding}

/-! ### Encodings (R94, R96) -/

theorem subnormal_value (f : FloatFmt) (F : Nat) : (F : ℚ) * 2 ^ f.minExp = 2 ^ (1 - (f.bias : ℤ)) * (F / (2 : ℚ) ^ f.m) := by
  rw [FloatFmt.minExp, zpow_sub₀ (by norm_num), zpow_natCast]
  ring

theorem normal_value (f : FloatFmt) {E : Nat} (F : Nat) (hE : E ≠ 0) :
    ((2 ^ f.m + F : Nat) : ℚ) * 2 ^ (f.minExp + (E - 1 : Nat)) = 2 ^ ((E : ℤ) - f.bias) * (1 + F / (2 : ℚ) ^ f.m) := by
  have hexp : f.minExp + ((E - 1 : Nat) : ℤ) = E - f.bias - f.m := by
    rw [FloatFmt.minExp]
    omega
  rw [hexp, zpow_sub₀ (by norm_num), zpow_natCast]
  push_cast
  field_simp

/-- What the fields of an encoding stand for. -/
theorem readsAs_fieldsVal (hkind : f.ieee = true → f.e4m3 = false) {S : Nat} (E F : Nat) :
    ReadsAs f S E F (fieldsVal f (S == 1) E F) := by
  have hsign : (S == 1) = decide (S = 1) := by
    by_cases h : S = 1 <;> simp [h]
  rw [hsign]
  refine ⟨fun hieee hE => ⟨fun hF => ?_, fun hF => ?_⟩, fun he4m3 hE hF => ?_, fun hni hne => ?_⟩
  · simp [fieldsVal, hieee, hE, FloatFmt.emax, hF]
  · simp [fieldsVal, hieee, hE, FloatFmt.emax, hF]
  · have hieee : f.ieee = false := by
      by_contra h
      simp [hkind (by simpa using h)] at he4m3
    simp [fieldsVal, hieee, hE, he4m3, FloatFmt.emax, hF]
  · have hni : (f.ieee && E == f.emax) = false := by
      rw [Bool.eq_false_iff, Ne, Bool.and_eq_true, beq_iff_eq]
      exact hni
    have hne : (f.e4m3 && E == f.emax && F == 2 ^ f.m - 1) = false := by
      rw [Bool.eq_false_iff, Ne, Bool.and_eq_true, Bool.and_eq_true, beq_iff_eq, beq_iff_eq, and_assoc]
      exact hne
    rw [fieldsVal, hni, hne, if_neg Bool.false_ne_true, if_neg Bool.false_ne_true]
    by_cases hE : E = 0
    · rw [if_pos (beq_iff_eq.mpr hE), if_pos hE, ← subnormal_value]
      exact ⟨isFinite_fin, rfl, by simp [real]⟩
    · rw [if_neg (fun h => hE (beq_iff_eq.mp h)), if_neg hE, ← normal_value f F hE]
      exact ⟨isFinite_fin, rfl, by simp only [real, decide_eq_true_eq, mul_assoc]⟩

/-- The formats of R94. -/
def formats : List FloatFmt := [fp32, bf16, fp16, e4m3, e5m2, e2m1, e3m2]

theorem readsAs_read : ∀ f ∈ formats, ∀ S E F : Nat, S < 2 → E < 2 ^ f.e → F < 2 ^ f.m →
    ReadsAs f S E F (f.read (S * 2 ^ (f.e + f.m) + E * 2 ^ f.m + F)) := by
  intro f hf S E F hS hE hF
  have hkind : ∀ f ∈ formats, f.ieee = true → f.e4m3 = false := by decide
  rw [read_fields hS hE hF]
  exact readsAs_fieldsVal (hkind f hf) E F

/-! ### Registers as FP32 values (R112) -/

theorem read_eq_fieldsVal (f : FloatFmt) (b : Nat) :
    f.read b = fieldsVal f (b / f.signBit % 2 == 1) (b / 2 ^ f.m % 2 ^ f.e) (b % 2 ^ f.m) := rfl

theorem fieldsVal_not (f : FloatFmt) (neg : Bool) (E F : Nat) : fieldsVal f (!neg) E F = (fieldsVal f neg E F).neg := by
  unfold fieldsVal
  split
  · split <;> rfl
  · split
    · rfl
    · split <;> rfl

/-- Bit 31 inverted is the sign inverted. -/
theorem read_flip_sign (b : Nat) : fp32.read (b ^^^ 2 ^ 31) = (fp32.read b).neg := by
  have hsign : ((b ^^^ 2 ^ 31) / 2 ^ 31 % 2 == 1) = !(b / 2 ^ 31 % 2 == 1) := by
    have hxor : (b ^^^ 2 ^ 31) / 2 ^ 31 % 2 ^ 1 = b / 2 ^ 31 % 2 ^ 1 ^^^ 1 := by
      rw [Nat.xor_div_two_pow, Nat.xor_mod_two_pow]
      rfl
    rw [pow_one] at hxor
    rw [hxor]
    rcases Nat.mod_two_eq_zero_or_one (b / 2 ^ 31) with h | h <;> rw [h] <;> rfl
  have hexp : (b ^^^ 2 ^ 31) / 2 ^ 23 % 2 ^ 8 = b / 2 ^ 23 % 2 ^ 8 := by
    rw [Nat.xor_div_two_pow, Nat.xor_mod_two_pow]
    exact Nat.xor_zero _
  have hfrac : (b ^^^ 2 ^ 31) % 2 ^ 23 = b % 2 ^ 23 := by
    rw [Nat.xor_mod_two_pow]
    exact Nat.xor_zero _
  calc fp32.read (b ^^^ 2 ^ 31)
      = fieldsVal fp32 ((b ^^^ 2 ^ 31) / 2 ^ 31 % 2 == 1) ((b ^^^ 2 ^ 31) / 2 ^ 23 % 2 ^ 8) ((b ^^^ 2 ^ 31) % 2 ^ 23) :=
        read_eq_fieldsVal ..
    _ = fieldsVal fp32 (!(b / 2 ^ 31 % 2 == 1)) (b / 2 ^ 23 % 2 ^ 8) (b % 2 ^ 23) := by rw [hsign, hexp, hfrac]
    _ = (fp32.read b).neg := fieldsVal_not ..

theorem val32_flip_sign (y : Word) : val32 (y ^^^ 0x80000000#64) = (val32 y).neg := by
  have hlow : low32 (y ^^^ 0x80000000#64) = low32 y ^^^ 2 ^ 31 := by
    rw [low32, BitVec.toNat_xor, Nat.xor_mod_two_pow]
    rfl
  rw [val32, hlow, read_flip_sign]
  rfl

/-- The class of the fields of an encoding (R116). -/
def classCode (E F : Nat) : Nat :=
  if E = 0 ∧ F = 0 then 0 else if E = 0 then 1 else if E < 255 then 2 else if F = 0 then 3 else if F < 2 ^ 22 then 5 else 4

theorem fclassOf_eq (b : Nat) : fclassOf b = b / 2 ^ 31 % 2 * 8 + classCode (b / 2 ^ 23 % 2 ^ 8) (b % 2 ^ 23) := by
  have hread : fp32.read b = fieldsVal fp32 (b / 2 ^ 31 % 2 == 1) (b / 2 ^ 23 % 2 ^ 8) (b % 2 ^ 23) := read_eq_fieldsVal fp32 b
  have hE : b / 2 ^ 23 % 2 ^ 8 < 256 := Nat.mod_lt _ (by decide)
  have hF : b % 2 ^ 23 < 2 ^ 23 := Nat.mod_lt _ (by decide)
  have hbit : fp32.signBit = 2 ^ 31 := rfl
  unfold fclassOf
  rw [hread, hbit]
  generalize b / 2 ^ 23 % 2 ^ 8 = E at hE
  generalize b % 2 ^ 23 = F at hF
  unfold fieldsVal classCode
  by_cases htop : E = 255
  · subst htop
    by_cases hF0 : F = 0
    · simp [fp32, FloatFmt.emax, hF0]
    · by_cases hquiet : F < 4194304 <;> simp [fp32, FloatFmt.emax, hF0, hquiet]
  · have hlt : E < 255 := by omega
    by_cases hE0 : E = 0
    · subst hE0
      by_cases hF0 : F = 0
      · simp [fp32, FloatFmt.emax, hF0]
      · have hF : F < 8388608 := hF
        simp [fp32, FloatFmt.emax, hF0, hF]
    · simp [fp32, FloatFmt.emax, hE0, htop, hlt]

theorem classCode_le (E F : Nat) : classCode E F ≤ 5 := by
  unfold classCode
  split_ifs <;> decide

theorem fclassOp_spec (x : Word) : (fclassOp rne x).2 = 0 ∧ (fclassOp rne x).1.toNat = (if x.getLsbD 31 = true then 8 else 0) +
    classCode (x.toNat % 2 ^ 31 / 2 ^ 23) (x.toNat % 2 ^ 23) := by
  have hE : low32 x / 2 ^ 23 % 2 ^ 8 = x.toNat % 2 ^ 31 / 2 ^ 23 := by
    unfold low32
    omega
  have hF : low32 x % 2 ^ 23 = x.toNat % 2 ^ 23 := Nat.mod_mod_of_dvd _ (by decide)
  have hS : low32 x / 2 ^ 31 % 2 * 8 = if x.getLsbD 31 = true then 8 else 0 := by
    have hbit : x.getLsbD 31 = decide (x.toNat / 2 ^ 31 % 2 = 1) := Nat.testBit_eq_decide_div_mod_eq
    have hlow : low32 x / 2 ^ 31 % 2 = x.toNat / 2 ^ 31 % 2 := by
      unfold low32
      omega
    rw [hlow, hbit]
    rcases Nat.mod_two_eq_zero_or_one (x.toNat / 2 ^ 31) with h | h <;> rw [h] <;> rfl
  have hcode := classCode_le (x.toNat % 2 ^ 31 / 2 ^ 23) (x.toNat % 2 ^ 23)
  refine ⟨rfl, ?_⟩
  rw [fclassOp, BitVec.toNat_ofNat, fclassOf_eq, hE, hF, hS]
  refine Nat.mod_eq_of_lt ?_
  split <;> omega

/-! ### Integers and BF16 to FP32 (R119) -/

theorem ofInt_delivered (hd : r.dither < 2 ^ 24) (i : Int) : Delivered fp32 r (i : ℝ) false (fp32.convert r (Val.ofInt i)) := by
  have hvalue : (i : ℝ) = (if decide (i < 0) then -1 else 1) * (i.natAbs * 2 ^ (0 : ℤ)) := by
    rw [zpow_zero, mul_one, Nat.cast_natAbs]
    rcases lt_or_ge i 0 with hneg | hpos
    · simp [hneg, abs_of_neg hneg]
    · simp [hpos.not_gt, abs_of_nonneg hpos]
  refine delivered_round regular_fp32.plain hd hvalue (shows_exact _ 0) (by simp) (fun h0 => ?_)
  have h0 : i = 0 := by exact_mod_cast h0
  subst h0
  rfl

theorem bf16_fin_bounds {b m : Nat} {neg : Bool} {e : ℤ} (h : bf16.read b = .fin neg m e) : m < 2 ^ 8 ∧ -149 ≤ e ∧ e ≤ 120 := by
  have hread : bf16.read b = fieldsVal bf16 (b / 2 ^ 15 % 2 == 1) (b / 2 ^ 7 % 2 ^ 8) (b % 2 ^ 7) := read_eq_fieldsVal bf16 b
  have hE : b / 2 ^ 7 % 2 ^ 8 < 2 ^ 8 := Nat.mod_lt _ (by decide)
  have hF : b % 2 ^ 7 < 2 ^ 7 := Nat.mod_lt _ (by decide)
  rw [hread] at h
  generalize b / 2 ^ 7 % 2 ^ 8 = E at hE h
  generalize b % 2 ^ 7 = F at hF h
  have hmin : bf16.minExp = -133 := rfl
  have hm : bf16.m = 7 := rfl
  unfold fieldsVal at h
  rw [hmin, hm] at h
  split at h
  · split at h <;> simp at h
  · next htop =>
    have htop : E ≠ 255 := fun hE => htop (by simp [hE, bf16, FloatFmt.emax])
    split at h
    · simp at h
    · split at h <;> (cases h; omega)

/-- A finite value of BF16 is one of FP32. -/
theorem bf16_exact (hd : r.dither < 2 ^ 24) {b : Nat} (h : IsFinite (bf16.read b)) :
    (fp32.convert r (bf16.read b)).2 = 0 ∧ real (fp32.read (fp32.convert r (bf16.read b)).1) = real (bf16.read b) := by
  obtain ⟨neg, m, e, hv⟩ := h
  obtain ⟨hm, hlow, hhigh⟩ := bf16_fin_bounds hv
  have hpos := two_zpow_pos e
  have hle : m * (2 : ℝ) ^ e ≤ magnitude fp32 fp32.maxFinite := by
    rw [magnitude_fp32_largest]
    have hcast : (m : ℝ) ≤ (2 ^ 8 - 1 : Nat) := by exact_mod_cast Nat.le_sub_one_of_lt hm
    calc m * (2 : ℝ) ^ e ≤ (2 ^ 8 - 1 : Nat) * 2 ^ (120 : ℤ) :=
          mul_le_mul hcast (two_zpow_le.mpr hhigh) hpos.le (Nat.cast_nonneg _)
      _ ≤ (2 ^ 24 - 1 : Nat) * (2 : ℝ) ^ (104 : ℤ) := by norm_num
  obtain ⟨n, hn, hmag, hround⟩ := round_exact (f := fp32) hd neg (hm.trans (by decide)) hlow hle
  rw [hv]
  have hconvert : fp32.convert r (.fin neg m e) = (signBits fp32 neg + n, 0) := hround
  rw [hconvert]
  refine ⟨rfl, ?_⟩
  have hreal : ((real (fp32.read (signBits fp32 neg + n)) : ℚ) : ℝ) = ((real (.fin neg m e) : ℚ) : ℝ) := by
    rw [real_read_signed regular_fp32.plain neg hn, hmag, real_fin]
  exact_mod_cast hreal

/-! ### The operations (R113 to R119) -/

/-- Settles O8: integer and floating-point instructions complete with their results, which are those of the numbers they stand for. -/
theorem arithmeticResults : Obligations.ArithmeticResults := by
  unfold Obligations.ArithmeticResults
  refine ⟨fun i f r s hf h => intForm_computes hf h, fun i f r s hf h => fpForm_computes hf h, ⟨fun r x y z hd => ?_, fun x => ?_,
    readsAs_read, by decide⟩⟩
  · refine ⟨⟨_, rfl, ?_⟩, ?_, ⟨_, rfl, ?_⟩, ⟨_, rfl, ?_⟩, ⟨_, rfl, ?_⟩, ⟨_, rfl, ?_⟩, ⟨_, rfl, ?_⟩, ?_, ?_, ?_, ⟨_, rfl, ?_⟩,
      ⟨_, rfl, ?_⟩, ⟨_, rfl, ?_⟩, ⟨_, rfl, ?_⟩, ?_, ⟨_, rfl, ?_⟩, ⟨_, rfl, ?_⟩⟩
    · exact sumsTo_deliver regular_fp32 hd false _
    · rw [fsubOp, faddOp, val32_flip_sign]
    · exact multipliesTo_deliver regular_fp32 hd _ _
    · exact dividesTo_deliver regular_fp32 hd _ _
    · exact rootIs_deliver regular_fp32 hd _
    · exact fusesTo_deliver regular_fp32 hd false _ _ _
    · exact fusesTo_deliver regular_fp32 hd true _ _ _
    · intro flip
      rw [fmaOp, fmaOp, val32_flip_sign]
      rfl
    · exact fun isMax => ⟨_, rfl, selectsMinMax_bits fp32 isMax _ _⟩
    · exact fun k => ⟨_, rfl, comparesTo_fcmp k _ _⟩
    · exact reciprocalIs_deliver _
    · exact rootReciprocalIs_deliver _
    · exact convertsToInt_toInt hd (by decide) (by decide) (by decide) _
    · exact convertsToInt_toInt hd (by decide) (by decide) (by decide) _
    · exact fun i _ _ => ⟨_, rfl, ofInt_delivered hd i⟩
    · exact ⟨convertsTo_convert regular_fp32 hd _, bf16_exact hd⟩
    · exact convertsTo_convert regular_bf16 hd _
  · exact fclassOp_spec x

end Sys2Proof.Machine
end

section
/-!
SUPPORT. The integer elements of the vector forms, on w bits (R243, R245, R246).
-/

namespace Sys2Proof.Machine

variable {w x y z : Nat}

/-! ### Elements as integers -/

theorem sgn_eq_toInt (hw : 0 < w) (hx : x < 2 ^ w) : sgn w x = (BitVec.ofNat w x).toInt := by
  obtain ⟨k, rfl⟩ : ∃ k, w = k + 1 := ⟨w - 1, by omega⟩
  rw [sgn, BitVec.toInt_eq_toNat_cond, BitVec.toNat_ofNat, Nat.mod_eq_of_lt hx, Nat.add_sub_cancel]
  have hhalf : 2 ^ (k + 1) = 2 * 2 ^ k := by rw [pow_succ, mul_comm]
  by_cases h : x < 2 ^ k
  · rw [if_pos h, if_pos (by omega)]
  · rw [if_neg h, if_neg (by omega)]
    push_cast
    rfl

theorem unsgn_eq_ofInt (w : Nat) (v : Int) : unsgn w v = (BitVec.ofInt w v).toNat := by
  rw [unsgn, BitVec.toNat_ofInt]
  push_cast
  rfl

theorem unsgn_sgn (hw : 0 < w) (hx : x < 2 ^ w) : unsgn w (sgn w x) = x := by
  rw [unsgn_eq_ofInt, sgn_eq_toInt hw hx, BitVec.ofInt_toInt, BitVec.toNat_ofNat, Nat.mod_eq_of_lt hx]

theorem sgn_eq_zero_iff (hy : y < 2 ^ w) : sgn w y = 0 ↔ y = 0 := by
  have hpow := Nat.two_pow_pos (w - 1)
  unfold sgn
  split
  · omega
  · have : (y : Int) < 2 ^ w := by exact_mod_cast hy
    omega

theorem ofInt_tdiv (X Y : BitVec w) : BitVec.ofInt w (X.toInt.tdiv Y.toInt) = X.sdiv Y :=
  BitVec.eq_of_toInt_eq (by rw [BitVec.toInt_ofInt, BitVec.toInt_sdiv])

theorem min_toInt (X Y : BitVec w) : min X.toInt Y.toInt = (if X.sle Y then X else Y).toInt := by
  rw [min_def, apply_ite BitVec.toInt]
  simp only [BitVec.sle_iff_toInt_le]

theorem max_toInt (X Y : BitVec w) : max X.toInt Y.toInt = (if X.sle Y then Y else X).toInt := by
  rw [max_def, apply_ite BitVec.toInt]
  simp only [BitVec.sle_iff_toInt_le]

theorem ofInt_natAbs (X : BitVec w) : BitVec.ofInt w (X.toInt.natAbs : Int) = if X.msb then -X else X := by
  rw [BitVec.msb_eq_toInt, Int.natCast_natAbs]
  by_cases h : X.toInt < 0
  · rw [decide_eq_true h, if_pos rfl, abs_of_neg h, BitVec.ofInt_neg, BitVec.ofInt_toInt]
  · rw [decide_eq_false h, if_neg Bool.false_ne_true, abs_of_nonneg (by omega), BitVec.ofInt_toInt]

/-! ### Results (R243, R246) -/

/-- The result of an operation is the element of an integer, given by the operands as integers. -/
theorem arithInt_eq {op : VArith} {v : Int} {R : BitVec w} (h : arithInt w op x y z = unsgn w v) (hv : BitVec.ofInt w v = R) :
    arithInt w op x y z = R.toNat := by
  rw [h, unsgn_eq_ofInt, hv]

section
variable (hw : 0 < w) (hx : x < 2 ^ w) (hy : y < 2 ^ w)
include hw hx

theorem arithInt_abs : arithInt w .abs x y z = (if (BitVec.ofNat w x).msb then -BitVec.ofNat w x else BitVec.ofNat w x).toNat :=
  arithInt_eq (v := (sgn w x).natAbs) rfl (by rw [sgn_eq_toInt hw hx, ofInt_natAbs])

theorem arithInt_neg : arithInt w .neg x y z = (-BitVec.ofNat w x).toNat :=
  arithInt_eq (v := -sgn w x) rfl (by rw [sgn_eq_toInt hw hx, BitVec.ofInt_neg, BitVec.ofInt_toInt])

include hy

theorem arithInt_add : arithInt w .add x y z = (BitVec.ofNat w x + BitVec.ofNat w y).toNat :=
  arithInt_eq (v := sgn w x + sgn w y) rfl (by
    rw [sgn_eq_toInt hw hx, sgn_eq_toInt hw hy, BitVec.ofInt_add, BitVec.ofInt_toInt, BitVec.ofInt_toInt])

theorem arithInt_sub : arithInt w .sub x y z = (BitVec.ofNat w x - BitVec.ofNat w y).toNat :=
  arithInt_eq (v := sgn w x - sgn w y) rfl (by
    rw [sgn_eq_toInt hw hx, sgn_eq_toInt hw hy, sub_eq_add_neg, BitVec.ofInt_add, BitVec.ofInt_neg, BitVec.ofInt_toInt,
      BitVec.ofInt_toInt, BitVec.sub_eq_add_neg])

theorem arithInt_mul : arithInt w .mul x y z = (BitVec.ofNat w x * BitVec.ofNat w y).toNat :=
  arithInt_eq (v := sgn w x * sgn w y) rfl (by
    rw [sgn_eq_toInt hw hx, sgn_eq_toInt hw hy, BitVec.ofInt_mul, BitVec.ofInt_toInt, BitVec.ofInt_toInt])

theorem arithInt_fma (hz : z < 2 ^ w) :
    arithInt w .fma x y z = (BitVec.ofNat w x * BitVec.ofNat w y + BitVec.ofNat w z).toNat :=
  arithInt_eq (v := sgn w x * sgn w y + sgn w z) rfl (by
    rw [sgn_eq_toInt hw hx, sgn_eq_toInt hw hy, sgn_eq_toInt hw hz, BitVec.ofInt_add, BitVec.ofInt_mul, BitVec.ofInt_toInt,
      BitVec.ofInt_toInt, BitVec.ofInt_toInt])

theorem arithInt_div :
    arithInt w .div x y z = (if y = 0 then BitVec.allOnes w else (BitVec.ofNat w x).sdiv (BitVec.ofNat w y)).toNat := by
  refine arithInt_eq (v := if sgn w y = 0 then -1 else (sgn w x).tdiv (sgn w y)) rfl ?_
  by_cases h0 : y = 0
  · rw [if_pos h0, if_pos ((sgn_eq_zero_iff hy).mpr h0), BitVec.ofInt_neg]
    exact BitVec.neg_one_eq_allOnes
  · rw [if_neg h0, if_neg ((sgn_eq_zero_iff hy).not.mpr h0), sgn_eq_toInt hw hx, sgn_eq_toInt hw hy, ofInt_tdiv]

theorem arithInt_min : arithInt w .min x y z =
    (if (BitVec.ofNat w x).sle (BitVec.ofNat w y) then BitVec.ofNat w x else BitVec.ofNat w y).toNat :=
  arithInt_eq (v := min (sgn w x) (sgn w y)) rfl (by
    rw [sgn_eq_toInt hw hx, sgn_eq_toInt hw hy, min_toInt, BitVec.ofInt_toInt])

theorem arithInt_max : arithInt w .max x y z =
    (if (BitVec.ofNat w x).sle (BitVec.ofNat w y) then BitVec.ofNat w y else BitVec.ofNat w x).toNat :=
  arithInt_eq (v := max (sgn w x) (sgn w y)) rfl (by
    rw [sgn_eq_toInt hw hx, sgn_eq_toInt hw hy, max_toInt, BitVec.ofInt_toInt])

theorem arithInt_sel : arithInt w .sel x y z = if z = 0 then y else x := by
  have h : arithInt w .sel x y z = unsgn w (if z ≠ 0 then sgn w x else sgn w y) := rfl
  rw [h]
  by_cases h0 : z = 0
  · rw [if_neg (not_not.mpr h0), if_pos h0, unsgn_sgn hw hy]
  · rw [if_pos h0, if_neg h0, unsgn_sgn hw hx]

end

section
variable (hx : x < 2 ^ w)
include hx

theorem bitResult_shl : bitResult w .shl x y = (BitVec.ofNat w x <<< (y % w)).toNat := by
  rw [BitVec.toNat_shiftLeft, BitVec.toNat_ofNat, Nat.mod_eq_of_lt hx, Nat.shiftLeft_eq]
  rfl

theorem bitResult_shr : bitResult w .shr x y = (BitVec.ofNat w x >>> (y % w)).toNat := by
  rw [BitVec.toNat_ushiftRight, BitVec.toNat_ofNat, Nat.mod_eq_of_lt hx, Nat.shiftRight_eq_div_pow]
  rfl

theorem bitResult_and (hy : y < 2 ^ w) : bitResult w .and x y = (BitVec.ofNat w x &&& BitVec.ofNat w y).toNat := by
  rw [BitVec.toNat_and, BitVec.toNat_ofNat, BitVec.toNat_ofNat, Nat.mod_eq_of_lt hx, Nat.mod_eq_of_lt hy]
  rfl

theorem bitResult_or (hy : y < 2 ^ w) : bitResult w .or x y = (BitVec.ofNat w x ||| BitVec.ofNat w y).toNat := by
  rw [BitVec.toNat_or, BitVec.toNat_ofNat, BitVec.toNat_ofNat, Nat.mod_eq_of_lt hx, Nat.mod_eq_of_lt hy]
  rfl

theorem bitResult_xor (hy : y < 2 ^ w) : bitResult w .xor x y = (BitVec.ofNat w x ^^^ BitVec.ofNat w y).toNat := by
  rw [BitVec.toNat_xor, BitVec.toNat_ofNat, BitVec.toNat_ofNat, Nat.mod_eq_of_lt hx, Nat.mod_eq_of_lt hy]
  rfl

end

/-! ### Comparisons (R245) -/

/-- What a comparison asks of two integers. -/
def VCmp.ofInts (c : VCmp) (X Y : Int) : Prop :=
  match c with
  | .eq => X = Y
  | .ne => X ≠ Y
  | .lt => X < Y
  | .le => X ≤ Y

theorem cmpResult_int {fmt : Nat} (hfmt : vecFloat fmt = none) (c : VCmp) (x y : Nat) :
    ∃ b : Bool, cmpResult fmt c x y = (b.toNat, 0) ∧ (b = true ↔ VCmp.ofInts c (sgn (fmtBits fmt) x) (sgn (fmtBits fmt) y)) := by
  unfold cmpResult
  rw [hfmt]
  cases c with
  | eq => exact ⟨_, rfl, beq_iff_eq⟩
  | ne => exact ⟨_, rfl, bne_iff_ne⟩
  | lt => exact ⟨_, rfl, decide_eq_true_iff⟩
  | le => exact ⟨_, rfl, decide_eq_true_iff⟩

end Sys2Proof.Machine
end

section
/-!
SUPPORT. The floating-point elements of the vector forms in FP32 and BF16: estimates, powers and logarithms (R118, R243, R244).
-/

namespace Sys2Proof.Machine

open Sys2Proof.Safety

variable {f : FloatFmt} {r : Rounding}

/-! ### Estimates in FP32 and BF16 (R118, R244) -/

theorem deliverRecip_fp32 (x : Exact) : fp32.deliverRecip x = deliverEstimate x := if_pos rfl

theorem deliverRecip_nan (f : FloatFmt) (fl : FlagSet) : f.deliverRecip (.nan fl) = nanWith f fl := by
  unfold FloatFmt.deliverRecip
  split
  · next h => subst h; rfl
  · rfl

theorem deliverRecip_inf (f : FloatFmt) (neg : Bool) (fl : FlagSet) : f.deliverRecip (.inf neg fl) = infWith f neg fl := by
  unfold FloatFmt.deliverRecip
  split
  · next h => subst h; rfl
  · rfl

theorem deliverRecip_zero (f : FloatFmt) (neg : Bool) : f.deliverRecip (.num neg 0 0 false) = (signBits f neg, 0) := by
  unfold FloatFmt.deliverRecip
  split
  · next h => subst h; rfl
  · simp [FloatFmt.deliver, round_zero, flagIf]

section
variable {neg st : Bool} {m : Nat} {e : ℤ} {x : ℝ}

theorem estimateIs_bf16 (h : Shows m e st x) (hlog : 100 ≤ m.log2) : EstimateIs bf16 neg x (bf16.deliverRecip (.num neg m e st)) := by
  have hm : m ≠ 0 := by
    rintro rfl
    simp at hlog
  have hdeep : bf16.m + 24 ≤ m.log2 := (by decide : bf16.m + 24 ≤ 100).trans hlog
  refine ⟨fun h => absurd h (by decide), fun _ => ⟨bf16.round rne neg m e st, m != 0 && decide (e + m.log2 < 1 - bf16.bias),
    rounded_round regular_bf16.plain (by decide) h hm (fun _ => hdeep), ?_, rfl⟩⟩
  rw [h.lt_zpow_iff hm, Bool.and_eq_true, decide_eq_true_eq]
  exact and_iff_right (bne_iff_ne.mpr hm)

theorem estimateIs_deliverRecip (hf : f = fp32 ∨ f = bf16) (h : Shows m e st x) (hlog : 100 ≤ m.log2) :
    EstimateIs f neg x (f.deliverRecip (.num neg m e st)) := by
  rcases hf with rfl | rfl
  · exact deliverRecip_fp32 _ ▸ estimateIs_deliver neg h hlog
  · exact estimateIs_bf16 h hlog

end

section
variable (hf : f = fp32 ∨ f = bf16)
include hf

theorem reciprocalIs_deliverRecip (v : Val) : ReciprocalIs f v (f.deliverRecip (rcpExact v)) := by
  cases v with
  | nan s => exact ⟨fun _ => by simp [rcpExact, deliverRecip_nan, signalled], by simp, by simp⟩
  | inf n => exact ⟨by simp, fun _ => deliverRecip_zero f n, by simp⟩
  | fin n m e =>
    refine ⟨by simp, by simp, fun _ => ⟨fun h0 => ?_, fun h0 => ?_⟩⟩
    · rw [rcpExact, if_pos (real_fin_eq_zero.mp h0), deliverRecip_inf, sign_fin]
    · have hm := real_fin_eq_zero.not.mp h0
      have habs : |((1 / real (.fin n m e) : ℚ) : ℝ)| = (1 : Nat) * (2 : ℝ) ^ (0 : ℤ) / (m * 2 ^ e) := by
        rw [Rat.cast_div, abs_div, abs_real_fin]
        simp
      rw [rcpExact, if_neg hm, divExact, if_neg hm, habs, Bool.false_xor]
      exact estimateIs_deliverRecip hf (shows_quotient 0 e hm) ((by decide : 100 ≤ 127).trans (quotient_log2 one_ne_zero hm))

theorem rootReciprocalIs_deliverRecip (v : Val) : RootReciprocalIs f v (f.deliverRecip (rsqExact v)) := by
  cases v with
  | nan s => exact ⟨fun _ => by simp [rsqExact, deliverRecip_nan, signalled], by simp, by simp, by simp⟩
  | inf n =>
    exact ⟨by simp, fun h => by rw [h]; exact deliverRecip_zero f false, fun h => by rw [h]; exact deliverRecip_nan f flagNV, by simp⟩
  | fin n m e =>
    refine ⟨by simp, by simp, by simp, fun _ => ⟨fun h0 => ?_, fun hneg => ?_, fun hpos => ?_⟩⟩
    · rw [rsqExact, if_pos (real_fin_eq_zero.mp h0), deliverRecip_inf, sign_fin]
    · obtain ⟨rfl, hm⟩ := real_fin_neg.mp hneg
      rw [rsqExact, if_neg hm, if_pos rfl, deliverRecip_nan]
    · have hm := real_fin_eq_zero.not.mp hpos.ne'
      obtain rfl : n = false := Bool.eq_false_iff.mpr (fun hn => absurd (real_fin_neg.mpr ⟨hn, hm⟩) hpos.not_gt)
      obtain ⟨q, qe, st, hrsq, hshow, hlog⟩ := rsqExact_fin hm e
      rw [hrsq, real_fin, if_neg Bool.false_ne_true, one_mul]
      exact estimateIs_deliverRecip hf hshow hlog

end

/-! ### Powers of two (R244) -/

/-- What is left over of 2^K so far below the spacing rounds up toward +∞ only. -/
theorem roundUp_tiny (hd : r.dither < 2 ^ 24) {sh : Nat} (hsh : 26 ≤ sh) : roundUp r false 0 1 sh false = decide (r.rm = 2) := by
  have hbig : 2 ^ 26 ≤ 2 ^ sh := Nat.pow_le_pow_right Nat.two_pos hsh
  have hshare : 1 * 2 ^ 24 + r.dither * 2 ^ sh < 2 ^ (24 + sh) := by
    calc 1 * 2 ^ 24 + r.dither * 2 ^ sh < 2 ^ sh + r.dither * 2 ^ sh := by omega
      _ = (r.dither + 1) * 2 ^ sh := by ring
      _ ≤ 2 ^ 24 * 2 ^ sh := Nat.mul_le_mul_right _ hd
      _ = 2 ^ (24 + sh) := (pow_add ..).symm
  unfold roundUp
  split
  · next h =>
    have hne : 1 * 2 ≠ 2 ^ sh := by omega
    rw [h, beq_false_of_ne hne, decide_eq_false (by omega)]
    rfl
  · next h => rw [h]; rfl
  · next h => rw [h]; rfl
  · next h => rw [h]; rfl
  · next h =>
    rw [h, decide_eq_false (by omega)]
    rfl
  · next _ _ h2 _ _ => rw [decide_eq_false (by omega), decide_eq_false h2]

theorem roundGrid_tiny (hd : r.dither < 2 ^ 24) {mb : Nat} {minE K : ℤ} (hK : K + 26 ≤ minE) :
    roundGrid mb minE r false 1 K false = (if r.rm = 2 then 1 else 0, minE, true) := by
  have hlog : Nat.log2 1 = 0 := rfl
  have hmax : max (K + (Nat.log2 1 : ℤ) - mb) minE = minE := by omega
  have hone : 1 < 2 ^ (minE - K).toNat := Nat.one_lt_two_pow (by omega)
  rw [roundGrid_coarse one_ne_zero (by omega), hmax]
  dsimp only
  rw [Nat.div_eq_of_lt hone, Nat.mod_eq_of_lt hone, roundUp_tiny hd (by omega)]
  simp only [decide_eq_true_eq]
  rfl

/-- Far below the spacing of a format one power of two rounds as another. -/
theorem round_two_zpow_tiny (hd : r.dither < 2 ^ 24) {K L : ℤ} (hK : K + 26 ≤ f.minExp) (hL : L + 26 ≤ f.minExp) :
    f.round r false 1 K false = f.round r false 1 L false := by
  have hlog : Nat.log2 1 = 0 := rfl
  have hmin : f.minExp = 1 - f.bias - f.m := rfl
  have hsmall {e : ℤ} (he : e + 26 ≤ f.minExp) : decide (e + (Nat.log2 1 : ℤ) < 1 - f.bias) = true := decide_eq_true (by omega)
  unfold FloatFmt.round
  rw [roundGrid_tiny hd hK, roundGrid_tiny hd hL, hsmall hK, hsmall hL]

/-- Beyond the largest finite value a power of two overflows. -/
theorem round_two_zpow_huge (hieee : f.ieee = true) {K : ℤ} (hK : f.minExp + f.m + f.emax ≤ K) :
    f.round r false 1 K false = (overflowBits f r.rm false, flagOF ||| flagNX) := by
  have hlog : Nat.log2 1 = 0 := rfl
  have hmax : max (K + (Nat.log2 1 : ℤ) - f.m) f.minExp = K - f.m := by omega
  have hbits : (K - f.m - f.minExp).toNat * 2 ^ f.m + 2 ^ f.m > f.maxFinite := by
    have hle : f.emax * 2 ^ f.m ≤ (K - f.m - f.minExp).toNat * 2 ^ f.m := Nat.mul_le_mul_right _ (by omega)
    have hpos := Nat.two_pow_pos f.m
    rw [FloatFmt.maxFinite, if_pos hieee]
    omega
  have hq : 1 * 2 ^ (K - (K - (f.m : ℤ))).toNat = 2 ^ f.m := by
    rw [one_mul]
    congr 1
    omega
  unfold FloatFmt.round
  rw [roundGrid_fine one_ne_zero (by omega), hmax, hq]
  dsimp only
  rw [if_neg (Nat.two_pow_pos f.m).ne', if_pos hbits, if_neg Bool.false_ne_true, Nat.zero_add]

/-- Cutting short an exponent beyond the range of FP32 and BF16 does not change what is delivered. -/
theorem round_clampExp (hf : f = fp32 ∨ f = bf16) (hd : r.dither < 2 ^ 24) (K : ℤ) :
    f.round r false 1 (clampExp K) false = f.round r false 1 K false := by
  have hieee : f.ieee = true := by rcases hf with rfl | rfl <;> rfl
  have hlow : -4096 + 26 ≤ f.minExp := by rcases hf with rfl | rfl <;> decide
  have hhigh : f.minExp + f.m + f.emax ≤ 4096 := by rcases hf with rfl | rfl <;> decide
  unfold clampExp
  rcases lt_or_ge K (-4096) with hK | hK
  · rw [show max (-4096) (min 4096 K) = -4096 by omega]
    exact round_two_zpow_tiny hd hlow (by omega)
  · rcases le_or_gt K 4096 with hK' | hK'
    · rw [show max (-4096) (min 4096 K) = K by omega]
    · rw [show max (-4096) (min 4096 K) = 4096 by omega, round_two_zpow_huge hieee hhigh, round_two_zpow_huge hieee (by omega)]

theorem scaled_eq {n : Bool} {m : Nat} {e b k : ℤ} (hb : b ≤ e) (hreal : real (.fin n m e) = k) :
    ((scaled n m e b : ℤ) : ℚ) = k * 2 ^ (-b) := by
  have hpos : (2 : ℚ) ^ b ≠ 0 := (zpow_pos (by norm_num) b).ne'
  rw [zpow_neg, ← hreal, ← scaled_mul_zpow hb, mul_inv_cancel_right₀ hpos]

/-- A significand of at most 24 bits of exponent tells enough of an integer that is cut short to 4096. -/
theorem clampExp_far {m : Nat} {e : ℤ} (hm : m ≠ 0) (he : 24 ≤ e) (n : Bool) :
    clampExp (signedInt n (m * 2 ^ (min e 24).toNat)) = clampExp (signedInt n (m * 2 ^ e.toNat)) := by
  have hpos := Nat.pos_of_ne_zero hm
  have hbig {d : Nat} (hd : 24 ≤ d) : 4096 ≤ m * 2 ^ d :=
    ((by decide : 4096 ≤ 2 ^ 24).trans (Nat.pow_le_pow_right Nat.two_pos hd)).trans (Nat.le_mul_of_pos_left _ hpos)
  have h1 := hbig (d := (min e 24).toNat) (by omega)
  have h2 := hbig (d := e.toNat) (by omega)
  generalize m * 2 ^ (min e 24).toNat = a at h1
  generalize m * 2 ^ e.toNat = b at h2
  cases n <;> simp only [clampExp, signedInt, Bool.false_eq_true, if_true, if_false] <;> omega

theorem exp2Exact_int {n : Bool} {m : Nat} {e k : ℤ} (hreal : real (.fin n m e) = k) :
    exp2Exact (.fin n m e) = .num false 1 (clampExp k) false := by
  by_cases hm : m = 0
  · have hk : k = 0 := by exact_mod_cast hreal.symm.trans (real_fin_eq_zero.mpr hm)
    rw [exp2Exact, if_pos hm, hk]
    rfl
  · rcases le_or_gt 0 e with he | he
    · have hk : k = signedInt n (m * 2 ^ e.toNat) := by
        have h := scaled_eq he hreal
        rw [neg_zero, zpow_zero, mul_one] at h
        rw [← (Int.cast_injective h : scaled n m e 0 = k)]
        simp [scaled, signedInt]
      have hcut : clampExp (signedInt n (m * 2 ^ (min e 24).toNat)) = clampExp k := by
        rw [hk]
        rcases le_total e 24 with h24 | h24
        · rw [min_eq_left h24]
        · exact clampExp_far hm h24 n
      rw [exp2Exact, if_neg hm, if_pos he, ← hcut]
      rfl
    · have hv : scaled n m e e = k * 2 ^ (-e).toNat := by
        have h := scaled_eq le_rfl hreal
        rw [← Int.toNat_of_nonneg (by omega : 0 ≤ -e), zpow_natCast] at h
        exact_mod_cast h
      have hpos : (2 : ℤ) ^ (-e).toNat ≠ 0 := by positivity
      have hquot : (scaled n m e e).fdiv (2 ^ (-e).toNat) = k := by rw [hv, Int.mul_fdiv_cancel _ hpos]
      rw [exp2Exact, if_neg hm, if_neg (by omega)]
      dsimp only
      rw [hquot, hv, sub_self, Int.toNat_zero, if_pos rfl]

theorem delivered_two_zpow (hf : f = fp32 ∨ f = bf16) (hreg : Regular f) (hd : r.dither < 2 ^ 24) {v : Val} {k : ℤ} (hfin : IsFinite v)
    (hreal : real v = k) : Delivered f r ((2 : ℝ) ^ k) false (f.deliver r (exp2Exact v)) := by
  obtain ⟨n, m, e, rfl⟩ := hfin
  rw [exp2Exact_int hreal]
  change Delivered f r ((2 : ℝ) ^ k) false (f.round r false 1 (clampExp k) false)
  rw [round_clampExp hf hd]
  exact delivered_round hreg.plain hd (by simp) (shows_exact 1 k) (by simp) (fun _ => rfl)

/-! ### Logarithms (R244) -/

theorem log2Exact_two_pow (l : Nat) (e : ℤ) :
    log2Exact (.fin false (2 ^ l) e) = .num (decide (e + l < 0)) (e + l).natAbs 0 false := by
  have hlog : (2 ^ l).log2 = l := Nat.log2_two_pow
  simp only [log2Exact, hlog, if_neg (Nat.two_pow_pos l).ne', Bool.false_eq_true, if_false, if_true]

theorem fin_of_real_two_zpow {n : Bool} {m : Nat} {e k : ℤ} (hreal : real (.fin n m e) = (2 : ℚ) ^ k) :
    n = false ∧ ∃ l : Nat, m = 2 ^ l ∧ e + l = k := by
  have hpos : (0 : ℚ) < 2 ^ k := zpow_pos (by norm_num) k
  have hm : m ≠ 0 := fun h0 => hpos.ne' (hreal ▸ real_fin_eq_zero.mpr h0)
  have hn : n = false := Bool.eq_false_iff.mpr (fun hn => absurd (real_fin_neg.mpr ⟨hn, hm⟩) (by rw [hreal]; exact hpos.not_gt))
  subst hn
  have hvalue : (m : ℚ) = 2 ^ (k - e) := by
    rw [zpow_sub₀ (by norm_num), eq_div_iff (zpow_pos (by norm_num) e).ne', ← hreal]
    simp [real]
  refine ⟨rfl, (k - e).toNat, ?_, ?_⟩
  all_goals
    have hnonneg : 0 ≤ k - e := by
      by_contra hneg
      have hlt : (2 : ℚ) ^ (k - e) < 1 := zpow_lt_one_of_neg₀ (by norm_num) (by omega)
      have hge : (1 : ℚ) ≤ m := by exact_mod_cast Nat.one_le_iff_ne_zero.mpr hm
      linarith
  · rw [← Int.toNat_of_nonneg hnonneg, zpow_natCast] at hvalue
    exact_mod_cast hvalue
  · omega

theorem delivered_int (hreg : Regular f) (hd : r.dither < 2 ^ 24) (k : ℤ) :
    Delivered f r (k : ℝ) false (f.deliver r (.num (decide (k < 0)) k.natAbs 0 false)) := by
  have h := delivered_sum hreg hd false false k 0
  by_cases h0 : k = 0
  · simpa [h0] using h
  · simpa [h0] using h

theorem delivered_log2 (hreg : Regular f) (hd : r.dither < 2 ^ 24) {v : Val} {k : ℤ} (hfin : IsFinite v) (hreal : real v = (2 : ℚ) ^ k) :
    Delivered f r (k : ℝ) false (f.deliver r (log2Exact v)) := by
  obtain ⟨n, m, e, rfl⟩ := hfin
  obtain ⟨rfl, l, rfl, rfl⟩ := fin_of_real_two_zpow hreal
  rw [log2Exact_two_pow]
  exact delivered_int hreg hd _

theorem log2_zero {v : Val} (hfin : IsFinite v) (hreal : real v = 0) : f.deliver r (log2Exact v) = infWith f true flagDZ := by
  obtain ⟨n, m, e, rfl⟩ := hfin
  rw [log2Exact, if_pos (real_fin_eq_zero.mp hreal)]
  rfl

theorem log2_negative {v : Val} (hfin : IsFinite v) (hreal : real v < 0) : f.deliver r (log2Exact v) = nanWith f flagNV := by
  obtain ⟨n, m, e, rfl⟩ := hfin
  obtain ⟨rfl, hm⟩ := real_fin_neg.mp hreal
  rw [log2Exact, if_neg hm, if_pos rfl]
  rfl

theorem exp2_log2_nan {v : Val} (h : v.isNan = true) :
    f.deliver r (exp2Exact v) = nanWith f (signalled [v]) ∧ f.deliver r (log2Exact v) = nanWith f (signalled [v]) := by
  cases v with
  | nan s => simp [exp2Exact, log2Exact, FloatFmt.deliver, nanWith, signalled]
  | inf n => simp at h
  | fin n m e => simp at h

/-! ### Selection (R243) -/

theorem mod_signBit_eq_zero {z : Nat} (hz : z < 2 ^ (1 + f.e + f.m)) : z % f.signBit = 0 ↔ z = 0 ∨ z = 2 ^ (f.e + f.m) := by
  have hpos := Nat.two_pow_pos (f.e + f.m)
  have htwo : 2 ^ (1 + f.e + f.m) = 2 * 2 ^ (f.e + f.m) := by rw [add_assoc, pow_add, pow_one]
  rw [FloatFmt.signBit]
  rcases lt_or_ge z (2 ^ (f.e + f.m)) with h | h
  · rw [Nat.mod_eq_of_lt h]
    omega
  · rw [Nat.mod_eq_sub_mod h, Nat.mod_eq_of_lt (by omega)]
    omega

theorem arithFloat_sel {x y z : Nat} (hz : z < 2 ^ (1 + f.e + f.m)) :
    arithFloat f r .sel x y z = (if z = 0 ∨ z = 2 ^ (f.e + f.m) then y else x, 0) := by
  change (if z % f.signBit ≠ 0 then x else y, (0 : FlagSet)) = _
  rw [ite_not]
  simp only [mod_signBit_eq_zero hz]

end Sys2Proof.Machine
end

section
/-!
SUPPORT. Conversions into every format, and exact scales (R94, R103, R247, R248).
-/

namespace Sys2Proof.Machine

open Sys2Proof.Safety

variable {f : FloatFmt} {r : Rounding}

/-! ### Formats without infinities (R94) -/

/-- The encodings of a format without infinities are finite numbers up to the largest one, which lies below the NaN of E4M3. -/
theorem readsPlainly_of_not_ieee (hieee : f.ieee = false) (hm : 0 < f.m) : ReadsPlainly f := by
  intro neg b hb
  have hpos : 0 < 2 ^ f.m := Nat.two_pow_pos f.m
  have hsplit : 2 ^ (f.e + f.m) = 2 ^ f.e * 2 ^ f.m := pow_add ..
  have hpos' : 0 < 2 ^ (f.e + f.m) := Nat.two_pow_pos _
  have htop : b < 2 ^ (f.e + f.m) ∧ (f.e4m3 = true → b ≤ 2 ^ (f.e + f.m) - 2) := by
    rw [FloatFmt.maxFinite, hieee, FloatFmt.signBit, if_neg Bool.false_ne_true] at hb
    split at hb
    · exact ⟨by omega, fun _ => hb⟩
    · next he4m3 => exact ⟨by omega, fun h => absurd h he4m3⟩
  have hE : b / 2 ^ f.m < 2 ^ f.e := Nat.div_lt_of_lt_mul (by rw [mul_comm, ← hsplit]; exact htop.1)
  have hnan : ¬ (f.e4m3 = true ∧ b / 2 ^ f.m = f.emax ∧ b % 2 ^ f.m = 2 ^ f.m - 1) := by
    rintro ⟨he4m3, hEtop, hFtop⟩
    have hb' := htop.2 he4m3
    have hval := Nat.div_add_mod' b (2 ^ f.m)
    rw [hEtop, hFtop, FloatFmt.emax, Nat.sub_mul, Nat.one_mul, ← hsplit] at hval
    have hle : 2 ^ f.m ≤ 2 ^ (f.e + f.m) := Nat.pow_le_pow_right Nat.two_pos (by omega)
    have hbelow := htop.1
    have htwo : 2 ≤ 2 ^ f.m := Nat.le_pow hm
    generalize 2 ^ (f.e + f.m) = top at hval hle hbelow hb'
    omega
  have hbits : signBits f neg + b = neg.toNat * 2 ^ (f.e + f.m) + b / 2 ^ f.m * 2 ^ f.m + b % 2 ^ f.m := by
    rw [Nat.add_assoc, Nat.div_add_mod']
    cases neg <;> simp [signBits]
  have hneg : (neg.toNat == 1) = neg := by cases neg <;> rfl
  rw [hbits, read_fields (by cases neg <;> decide) hE (Nat.mod_lt _ hpos), fieldsVal]
  simp only [hieee, hneg, Bool.false_and, Bool.false_eq_true, if_false, beq_iff_eq, Bool.and_eq_true, and_assoc, hnan]
  split
  · next h0 =>
    congr 1
    exact Nat.mod_eq_of_lt ((Nat.div_eq_zero_iff_lt hpos).mp h0)
  · rfl

theorem regular_of_mem_formats : ∀ f ∈ formats, Regular f := by
  intro f hf
  have hshort : ∀ f ∈ formats, 0 < f.m ∧ f.m ≤ 75 := by decide
  have hieee : ∀ f ∈ formats, f.ieee = true → f.e4m3 = false ∧ 0 < f.emax := by decide
  refine ⟨?_, (hshort f hf).2⟩
  cases h : f.ieee
  · exact readsPlainly_of_not_ieee h (hshort f hf).1
  · exact readsPlainly_of_ieee h (hieee f hf h).1 (hieee f hf h).2

/-! ### Conversions by format code (R103) -/

theorem convertTo_float {fmt : Nat} (hf : floatFmt fmt = some f) (v : Val) : convertTo fmt r v = f.convert r v := by
  rw [convertTo, hf]

theorem convertsTo_convertTo {fmt : Nat} (hf : floatFmt fmt = some f) (hmem : f ∈ formats) (hd : r.dither < 2 ^ 24) (v : Val) :
    ConvertsTo f r v (convertTo fmt r v) := by
  rw [convertTo_float hf]
  exact convertsTo_convert (regular_of_mem_formats f hmem) hd v

/-- The limits of a conversion into an integer format; Q4X counts as one (R93, R248). -/
def convertLimits (fmt : Nat) : Int × Int := if fmt = 8 then (-7, 7) else (intLimits fmt).getD (0, 1)

theorem convertTo_int {fmt : Nat} (hf : floatFmt fmt = none) (v : Val) : convertTo fmt r v =
    ((BitVec.ofInt (fmtBits fmt) (toInt (convertLimits fmt).1 (convertLimits fmt).2 r v).1).toNat,
      (toInt (convertLimits fmt).1 (convertLimits fmt).2 r v).2) := by
  rw [← unsgn_eq_ofInt, convertTo, hf]
  rfl

theorem convertsToInt_convertTo {fmt : Nat} {lo hi : Int} (hf : floatFmt fmt = none) (hlim : convertLimits fmt = (lo, hi))
    (hlo : -(2 ^ 81) < lo) (hhi : hi < 2 ^ 81) (hle : lo ≤ hi) (hd : r.dither < 2 ^ 24) (v : Val) :
    ∃ o : Int × FlagSet, ConvertsToInt lo hi r v o ∧ convertTo fmt r v = ((BitVec.ofInt (fmtBits fmt) o.1).toNat, o.2) :=
  ⟨_, convertsToInt_toInt hd hlo hhi hle v, by rw [convertTo_int hf, hlim]⟩

/-! ### Scales (R247) -/

theorem scaleVal_fin {v k : Val} (hv : IsFinite v) (hk : IsFinite k) :
    IsFinite (scaleVal v k) ∧ real (scaleVal v k) = real v * real k := by
  obtain ⟨n, m, e, rfl⟩ := hv
  obtain ⟨n', m', e', rfl⟩ := hk
  exact ⟨isFinite_fin, real_mul_fin n n' m m' e e'⟩

theorem scaleVal_nan {v k : Val} (hk : k.isNan = true) : (scaleVal v k).isNan = true := by
  rw [scaleVal, mulVal_nan (by simp [hk])]
  rfl

end Sys2Proof.Machine
end

section
/-!
SUPPORT. The exponent of a block of vquant (R248).
-/

namespace Sys2Proof.Machine

open Sys2Proof.Safety

/-! ### The least exponent that fits -/

theorem scaled_le_iff {m l : Nat} {e k : ℤ} : scaled false m e (min e k) ≤ scaled false l k (min e k) ↔
    (m : ℝ) * 2 ^ e ≤ l * 2 ^ k := by
  have hpow : (0 : ℚ) < 2 ^ min e k := zpow_pos (by norm_num) _
  have hm := scaled_mul_zpow (min_le_left e k) false m
  have hl := scaled_mul_zpow (min_le_right e k) false l
  simp only [real, Bool.false_eq_true, if_false, one_mul] at hm hl
  have hcast : ((m : ℝ) * 2 ^ e ≤ l * 2 ^ k) ↔ ((m : ℚ) * 2 ^ e ≤ l * 2 ^ k) := by
    rw [← Rat.cast_le (K := ℝ)]
    push_cast
    rfl
  rw [hcast, ← hm, ← hl, mul_le_mul_iff_of_pos_right hpow]
  exact_mod_cast Iff.rfl

theorem ceilLog_eq (m : Nat) (e : ℤ) (l : Nat) : ceilLog m e l =
    if (m : ℝ) * 2 ^ e ≤ l * 2 ^ (e + m.log2 - l.log2 - 1) then e + m.log2 - l.log2 - 1
    else if (m : ℝ) * 2 ^ e ≤ l * 2 ^ (e + m.log2 - l.log2 - 1 + 1) then e + m.log2 - l.log2 - 1 + 1
    else e + m.log2 - l.log2 - 1 + 2 := by
  simp only [ceilLog, decide_eq_true_eq, scaled_le_iff]

theorem exponent_le_of_le_scale {m l : Nat} {e k : ℤ} (hm : m ≠ 0) (hl : l ≠ 0) (h : (m : ℝ) * 2 ^ e ≤ l * 2 ^ k) :
    e + m.log2 ≤ k + l.log2 := by
  have hlt := (((shows_exact m e).exponent hm).1.trans h).trans_lt ((shows_exact l k).exponent hl).2
  have := two_zpow_lt.mp hlt
  omega

theorem le_scale_of_exponent_lt {m l : Nat} {e k : ℤ} (hm : m ≠ 0) (hl : l ≠ 0) (h : e + m.log2 < k + l.log2) :
    (m : ℝ) * 2 ^ e ≤ l * 2 ^ k :=
  (((shows_exact m e).exponent hm).2.le.trans (two_zpow_le.mpr (by omega))).trans ((shows_exact l k).exponent hl).1

/-- The ceiling of the logarithm is the least exponent whose scale is enough. -/
theorem le_scale_iff {m l : Nat} (hm : m ≠ 0) (hl : l ≠ 0) (e k : ℤ) : (m : ℝ) * 2 ^ e ≤ l * 2 ^ k ↔ ceilLog m e l ≤ k := by
  have hlow {k : ℤ} (h : (m : ℝ) * 2 ^ e ≤ l * 2 ^ k) := exponent_le_of_le_scale hm hl h
  have hhigh {k : ℤ} (h : e + m.log2 < k + l.log2) : (m : ℝ) * 2 ^ e ≤ l * 2 ^ k := le_scale_of_exponent_lt hm hl h
  obtain ⟨k1, hk1⟩ : ∃ k1 : ℤ, k1 = e + m.log2 - l.log2 := ⟨_, rfl⟩
  have hnext : e + m.log2 - l.log2 - 1 + 1 = k1 := by omega
  rw [ceilLog_eq, if_neg (fun h => by have := hlow h; omega), hnext]
  split
  · next hfits =>
    refine ⟨fun h => by have := hlow h; omega, fun h => ?_⟩
    rcases h.eq_or_lt with rfl | hlt
    · exact hfits
    · exact hhigh (by omega)
  · next hfits =>
    refine ⟨fun h => ?_, fun h => hhigh (by omega)⟩
    have hne : k ≠ k1 := fun he => hfits (he ▸ h)
    have := hlow h
    omega

/-! ### The exponent of a block -/

/-- The exponent that a value of a block asks for, if it is not zero. -/
def valueExp (l : Nat) : Val → Option ℤ
  | .fin _ m e => if m = 0 then none else some (ceilLog m e l)
  | _ => none

theorem valueExp_eq_some {l : Nat} {v : Val} {k : ℤ} (h : valueExp l v = some k) :
    ∃ n m e, v = .fin n m e ∧ m ≠ 0 ∧ k = ceilLog m e l := by
  cases v with
  | nan s => simp [valueExp] at h
  | inf n => simp [valueExp] at h
  | fin n m e =>
    by_cases hm : m = 0
    · simp [valueExp, hm] at h
    · exact ⟨n, m, e, rfl, hm, by simpa [valueExp, hm] using h.symm⟩

theorem abs_real_le_iff {n : Bool} {m l : Nat} {e k : ℤ} (hm : m ≠ 0) (hl : l ≠ 0) :
    |real (.fin n m e)| ≤ (l : ℚ) * 2 ^ k ↔ ceilLog m e l ≤ k := by
  have hcast : ((|real (.fin n m e)| : ℚ) : ℝ) = m * 2 ^ e := by rw [Rat.cast_abs, abs_real_fin]
  rw [← le_scale_iff hm hl, ← hcast, ← Rat.cast_le (K := ℝ)]
  push_cast
  rfl

/-- A finite value fits an exponent that is no less than the one it asks for. -/
theorem abs_real_le_of_valueExp {l : Nat} {v : Val} {k : ℤ} (hl : l ≠ 0) (hv : IsFinite v) (h : ∀ a, valueExp l v = some a → a ≤ k) :
    |real v| ≤ (l : ℚ) * 2 ^ k := by
  obtain ⟨n, m, e, rfl⟩ := hv
  by_cases hm : m = 0
  · rw [real_fin_eq_zero.mpr hm, abs_zero]
    positivity
  · exact (abs_real_le_iff hm hl).mpr (h _ (by simp [valueExp, hm]))

theorem blockExp_nan {fmt : Nat} {xs : List Val} (h : ∃ v ∈ xs, v.isNan = true) : blockExp fmt xs = 255 :=
  if_pos (List.any_eq_true.mpr h)

/-- An exponent with the bias of E8, cut short to its range. -/
def biased (k : ℤ) : Nat := (max 0 (min 254 (127 + k))).toNat

theorem biased_spec (k : ℤ) : biased k ≤ 254 ∧ (biased k < 254 → k ≤ biased k - 127) ∧ (0 < biased k → biased k - 127 ≤ k) := by
  unfold biased
  omega

theorem blockExp_fin {fmt : Nat} {xs : List Val} (h : ∀ v ∈ xs, IsFinite v) : blockExp fmt xs =
    match xs.filterMap (valueExp (lmax fmt)) with
    | [] => 127
    | k :: rest => biased (rest.foldl max k) := by
  have hnan : xs.any Val.isNan = false := by
    rw [List.any_eq_false]
    intro v hv
    obtain ⟨n, m, e, rfl⟩ := h v hv
    simp
  have hinf : xs.any (fun x => x == .inf false || x == .inf true) = false := by
    rw [List.any_eq_false]
    intro v hv
    obtain ⟨n, m, e, rfl⟩ := h v hv
    simp
  unfold blockExp
  rw [if_neg (Bool.eq_false_iff.mp hnan), if_neg (Bool.eq_false_iff.mp hinf)]
  rfl

/-- The largest of a list is one of its numbers, and no number of it is larger. -/
theorem foldl_max_spec (rest : List ℤ) (k : ℤ) : rest.foldl max k ∈ k :: rest ∧ ∀ a ∈ k :: rest, a ≤ rest.foldl max k := by
  induction rest generalizing k with
  | nil => simp
  | cons b bs ih =>
    obtain ⟨hmem, hle⟩ := ih (max k b)
    have hfirst := hle _ List.mem_cons_self
    refine ⟨?_, fun a ha => ?_⟩
    · rcases List.mem_cons.mp hmem with he | he
      · rw [List.foldl_cons, he]
        rcases max_choice k b with h | h <;> rw [h] <;> simp
      · exact List.mem_cons_of_mem _ (List.mem_cons_of_mem _ he)
    · rcases List.mem_cons.mp ha with rfl | ha
      · exact (le_max_left ..).trans hfirst
      · rcases List.mem_cons.mp ha with rfl | ha
        · exact (le_max_right ..).trans hfirst
        · exact hle a (List.mem_cons_of_mem _ ha)

/-- Every number of a block fits a scale. -/
def FitsScale (l : Nat) (xs : List Val) (k : ℤ) : Prop := ∀ v ∈ xs, |real v| ≤ (l : ℚ) * (2 : ℚ) ^ (k - 127)

/-- R248: the exponent of a block of finite values. -/
theorem blockExp_spec {fmt : Nat} {xs : List Val} (hl : lmax fmt ≠ 0) (h : ∀ v ∈ xs, IsFinite v) :
    blockExp fmt xs ≤ 254 ∧ ((∀ v ∈ xs, real v = 0) → blockExp fmt xs = 127) ∧
    ((∃ v ∈ xs, real v ≠ 0) → (blockExp fmt xs < 254 → FitsScale (lmax fmt) xs (blockExp fmt xs)) ∧
      (0 < blockExp fmt xs → ¬ FitsScale (lmax fmt) xs (blockExp fmt xs - 1))) := by
  have hnone {v : Val} (hv : v ∈ xs) (hks : xs.filterMap (valueExp (lmax fmt)) = []) : real v = 0 := by
    obtain ⟨n, m, e, rfl⟩ := h v hv
    have hval := List.filterMap_eq_nil_iff.mp hks _ hv
    rw [real_fin_eq_zero]
    by_contra hm
    simp [valueExp, hm] at hval
  rw [blockExp_fin h]
  rcases hks : xs.filterMap (valueExp (lmax fmt)) with _ | ⟨k, rest⟩
  · exact ⟨by decide, fun _ => rfl, fun ⟨v, hv, hne⟩ => absurd (hnone hv hks) hne⟩
  · obtain ⟨hmem, hle⟩ := foldl_max_spec rest k
    dsimp only
    generalize rest.foldl max k = top at hmem hle
    rw [← hks, List.mem_filterMap] at hmem
    obtain ⟨w, hw, htop⟩ := hmem
    obtain ⟨n, m, e, rfl, hm, rfl⟩ := valueExp_eq_some htop
    obtain ⟨hbound, hcover, hleast⟩ := biased_spec (ceilLog m e (lmax fmt))
    refine ⟨hbound, fun hzero => absurd (hzero _ hw) (real_fin_eq_zero.not.mpr hm), fun _ => ⟨fun hlt v hv => ?_, fun hpos hfits => ?_⟩⟩
    · exact abs_real_le_of_valueExp hl (h v hv)
        (fun a ha => (hle a (hks ▸ List.mem_filterMap.mpr ⟨v, hv, ha⟩)).trans (hcover hlt))
    · have hless := (abs_real_le_iff hm hl).mp (hfits _ hw)
      have hmore := hleast hpos
      linarith

end Sys2Proof.Machine
end

section
/-!
SUPPORT. Sums of a line and its largest element (R249).
-/

namespace Sys2Proof.Machine

open Sys2Proof.Safety

variable {f : FloatFmt} {r : Rounding}

/-! ### Integer formats -/

theorem lineSum_int {fmt : Nat} (hfmt : vecFloat fmt = none) (l : List Nat) : lineSum fmt r l = (l.sum % 2 ^ fmtBits fmt, 0) := by
  rw [lineSum, hfmt, ← List.sum_eq_foldl]

theorem lineMax_int {fmt : Nat} (hfmt : vecFloat fmt = none) (hw : 0 < fmtBits fmt) {l : List Nat} (hne : l ≠ [])
    (hl : ∀ x ∈ l, x < 2 ^ fmtBits fmt) : (lineMax fmt l).2 = 0 ∧ (lineMax fmt l).1 ∈ l ∧
      ∀ x ∈ l, sgn (fmtBits fmt) x ≤ sgn (fmtBits fmt) (lineMax fmt l).1 := by
  obtain ⟨x, rest, rfl⟩ := List.exists_cons_of_ne_nil hne
  obtain ⟨hmem, hle⟩ := foldl_max_spec (rest.map (sgn (fmtBits fmt))) (sgn (fmtBits fmt) x)
  rw [← List.map_cons, List.mem_map] at hmem
  obtain ⟨y, hy, htop⟩ := hmem
  have hmax : lineMax fmt (x :: rest) = (y, 0) := by
    rw [List.foldl_map] at htop
    rw [lineMax, hfmt, ← unsgn_sgn hw (hl y hy), htop]
  rw [hmax]
  exact ⟨rfl, hy, fun z hz => htop ▸ hle _ (List.mem_map_of_mem hz)⟩

/-! ### The order of numbers is transitive (R114) -/

theorem before_trans {x y z : Val} (h : Before x y) (h' : Before y z) : Before x z := by
  rcases h with ⟨hx, hy, hlt⟩ | ⟨rfl, hy⟩ | ⟨hx, rfl⟩
  · rcases h' with ⟨-, hz, hlt'⟩ | ⟨rfl, -⟩ | ⟨-, rfl⟩
    · exact .inl ⟨hx, hz, hlt.trans hlt'⟩
    · exact absurd hy not_isFinite_inf
    · exact .inr (.inr ⟨hx, rfl⟩)
  · rcases h' with ⟨-, hz, -⟩ | ⟨-, hz⟩ | ⟨-, rfl⟩
    · exact .inr (.inl ⟨rfl, .inl hz⟩)
    · exact .inr (.inl ⟨rfl, hz⟩)
    · exact .inr (.inl ⟨rfl, .inr rfl⟩)
  · rcases h' with ⟨hy, -⟩ | ⟨hy, -⟩ | ⟨hy, -⟩
    · exact absurd hy not_isFinite_inf
    · cases hy
    · exact absurd hy not_isFinite_inf

/-- A finite number equal to another stands in its place in the order. -/
theorem before_of_real_eq {x y : Val} (hx : IsFinite x) (hy : IsFinite y) (heq : real x = real y) (z : Val) :
    (Before y z → Before x z) ∧ (Before z x → Before z y) := by
  refine ⟨?_, ?_⟩
  · rintro (⟨-, hz, hlt⟩ | ⟨rfl, -⟩ | ⟨-, rfl⟩)
    · exact .inl ⟨hx, hz, heq ▸ hlt⟩
    · exact absurd hy not_isFinite_inf
    · exact .inr (.inr ⟨hx, rfl⟩)
  · rintro (⟨hz, -, hlt⟩ | ⟨rfl, -⟩ | ⟨-, rfl⟩)
    · exact .inl ⟨hz, hy, heq ▸ hlt⟩
    · exact .inr (.inl ⟨rfl, .inl hy⟩)
    · exact absurd hx not_isFinite_inf

theorem equal_finite {x y : Val} (hx : IsFinite x) (h : Equal x y) : IsFinite y ∧ real x = real y := by
  rcases h with ⟨-, hy, heq⟩ | ⟨⟨n, rfl⟩, -⟩
  · exact ⟨hy, heq⟩
  · exact absurd hx not_isFinite_inf

theorem above_trans {x y z : Val} (h : Above x y) (h' : Above y z) : Above x z := by
  rcases h with h | ⟨heq, h0, hx, hsx, hsy⟩ <;> rcases h' with h' | ⟨heq', h0', hy, hsy', hsz⟩
  · exact .inl (before_trans h h')
  · obtain ⟨hz, hreal⟩ := equal_finite hy heq'
    exact .inl ((before_of_real_eq hy hz hreal x).2 h)
  · obtain ⟨hy, hreal⟩ := equal_finite hx heq
    exact .inl ((before_of_real_eq hx hy hreal z).1 h')
  · rw [hsy] at hsy'
    cases hsy'

theorem not_above_self {x : Val} (hx : x.isNan = false) : ¬ Above x x := fun h => above_asymm hx hx h h

/-! ### The largest element over the numbers -/

/-- A line's largest element with one more element, and the flags of all comparisons. -/
def maxStep (f : FloatFmt) (acc : Nat × FlagSet) (y : Nat) : Nat × FlagSet :=
  ((minMaxBits f true acc.1 y).1, acc.2 ||| (minMaxBits f true acc.1 y).2)

/-- o is the largest element of a line, a NaN only if all are, with the flags of the line. -/
structure LineTop (f : FloatFmt) (l : List Nat) (o : Nat × FlagSet) : Prop where
  flags : o.2 = signalled (l.map f.read)
  quiet : (f.read o.1).isSig = false
  nan : (∀ x ∈ l, (f.read x).isNan = true) → o.1 = f.nanBits
  num : (∃ x ∈ l, (f.read x).isNan = false) → o.1 ∈ l ∧ (f.read o.1).isNan = false ∧
    ∀ x ∈ l, (f.read x).isNan = false → ¬ Above (f.read o.1) (f.read x)

section
variable {l : List Nat} {o : Nat × FlagSet}

/-- An element that is a number and has none above it is the largest. -/
theorem lineTop_of_num (hflags : o.2 = signalled (l.map f.read)) (hmem : o.1 ∈ l) (hnum : (f.read o.1).isNan = false)
    (hmax : ∀ x ∈ l, (f.read x).isNan = false → ¬ Above (f.read o.1) (f.read x)) : LineTop f l o :=
  ⟨hflags, isSig_of_isNan hnum, fun hall => absurd (hall _ hmem) (by simp [hnum]), fun _ => ⟨hmem, hnum, hmax⟩⟩

/-- Of NaNs alone the largest is the canonical one. -/
theorem lineTop_of_nan (hnan : f.read f.nanBits = .nan false) (hflags : o.2 = signalled (l.map f.read))
    (hall : ∀ x ∈ l, (f.read x).isNan = true) (hval : o.1 = f.nanBits) : LineTop f l o :=
  ⟨hflags, by rw [hval, hnan]; rfl, fun _ => hval, fun ⟨x, hx, hnum⟩ => by simp [hall x hx] at hnum⟩

end

theorem signalled_append (xs ys : List Val) : signalled (xs ++ ys) = signalled xs ||| signalled ys := by
  unfold signalled
  rw [List.any_append]
  cases xs.any Val.isSig <;> cases ys.any Val.isSig <;> rfl

theorem minMaxBits_flags (f : FloatFmt) (x y : Nat) : (minMaxBits f true x y).2 = signalled [f.read x, f.read y] :=
  (selectsMinMax_bits f true x y).1

theorem maxBits_ordered {x y : Nat} (hx : (f.read x).isNan = false) (hy : (f.read y).isNan = false) :
    (minMaxBits f true x y).1 = if (f.read x).below (f.read y) then y else x := by
  simp [minMaxBits, hx, hy]

section
variable (hnan : f.read f.nanBits = .nan false)
include hnan

theorem lineTop_single (x : Nat) : LineTop f [x] (minMaxBits f true x x) := by
  have hflags : (minMaxBits f true x x).2 = signalled [f.read x] := by
    rw [minMaxBits_flags]
    simp [signalled]
  obtain ⟨-, hboth, -⟩ := selectsMinMax_bits f true x x
  cases hx : (f.read x).isNan
  · have hval : (minMaxBits f true x x).1 = x := by rw [maxBits_ordered hx hx, ite_self]
    refine lineTop_of_num hflags (by simp [hval]) (hval.symm ▸ hx) (fun y hy _ => ?_)
    rw [hval, List.mem_singleton.mp hy]
    exact not_above_self hx
  · exact lineTop_of_nan hnan hflags (by simp [hx]) (hboth hx hx)

theorem LineTop.step {l : List Nat} {o : Nat × FlagSet} (h : LineTop f l o) (y : Nat) : LineTop f (l ++ [y]) (maxStep f o y) := by
  obtain ⟨hflags, hquiet, hallNan, hnum⟩ := h
  obtain ⟨-, hboth, honlyFirst, honlySecond, -⟩ := selectsMinMax_bits f true o.1 y
  have hfl : (maxStep f o y).2 = signalled ((l ++ [y]).map f.read) := by
    rw [List.map_append, signalled_append, ← hflags, maxStep, minMaxBits_flags]
    simp [signalled, hquiet]
  have hmem {x : Nat} : x ∈ l ++ [y] ↔ x ∈ l ∨ x = y := by simp
  by_cases hex : ∃ x ∈ l, (f.read x).isNan = false
  · obtain ⟨hin, hon, hmax⟩ := hnum hex
    cases hy : (f.read y).isNan
    · have hval : (maxStep f o y).1 = if (f.read o.1).below (f.read y) then y else o.1 := maxBits_ordered hon hy
      have hbelow := below_iff hon hy
      by_cases hab : Above (f.read o.1) (f.read y)
      · rw [if_pos (hbelow.mpr hab)] at hval
        refine lineTop_of_num hfl (hmem.mpr (.inr hval)) (hval.symm ▸ hy) (fun x hx hxn habove => ?_)
        rw [hval] at habove
        rcases hmem.mp hx with hx | rfl
        · exact hmax x hx hxn (above_trans hab habove)
        · exact not_above_self hy habove
      · rw [if_neg (fun hb => hab (hbelow.mp hb))] at hval
        refine lineTop_of_num hfl (hmem.mpr (.inl (hval.symm ▸ hin))) (hval.symm ▸ hon) (fun x hx hxn => ?_)
        rw [hval]
        rcases hmem.mp hx with hx | rfl
        · exact hmax x hx hxn
        · exact hab
    · have hval : (maxStep f o y).1 = o.1 := honlySecond hon hy
      refine lineTop_of_num hfl (hmem.mpr (.inl (hval.symm ▸ hin))) (hval.symm ▸ hon) (fun x hx hxn => ?_)
      rw [hval]
      rcases hmem.mp hx with hx | rfl
      · exact hmax x hx hxn
      · simp [hy] at hxn
  · have hall : ∀ x ∈ l, (f.read x).isNan = true := fun x hx => Bool.eq_true_of_not_eq_false (fun hxn => hex ⟨x, hx, hxn⟩)
    have ho : (f.read o.1).isNan = true := by rw [hallNan hall, hnan]; rfl
    cases hy : (f.read y).isNan
    · have hval : (maxStep f o y).1 = y := honlyFirst ho hy
      refine lineTop_of_num hfl (hmem.mpr (.inr hval)) (hval.symm ▸ hy) (fun x hx hxn => ?_)
      rcases hmem.mp hx with hx | rfl
      · simp [hall x hx] at hxn
      · rw [hval]
        exact not_above_self hy
    · refine lineTop_of_nan hnan hfl (fun x hx => ?_) (hboth ho hy)
      rcases hmem.mp hx with hx | rfl
      · exact hall x hx
      · exact hy

theorem LineTop.foldl {l : List Nat} {o : Nat × FlagSet} (h : LineTop f l o) (rest : List Nat) :
    LineTop f (l ++ rest) (rest.foldl (maxStep f) o) := by
  induction rest generalizing l o with
  | nil => rwa [List.append_nil]
  | cons y ys ih =>
    rw [List.append_cons]
    exact ih (h.step hnan y)

theorem lineTop_lineMax {fmt : Nat} (hfmt : vecFloat fmt = some f) {l : List Nat} (hne : l ≠ []) : LineTop f l (lineMax fmt l) := by
  obtain ⟨x, rest, rfl⟩ := List.exists_cons_of_ne_nil hne
  have hmax : lineMax fmt (x :: rest) = rest.foldl (maxStep f) (minMaxBits f true x x) := by
    rw [lineMax, hfmt]
    rfl
  rw [hmax]
  exact (lineTop_single hnan x).foldl hnan rest

end

theorem lineSum_float {fmt : Nat} (hfmt : vecFloat fmt = some f) (hreg : Regular f) (hd : r.dither < 2 ^ 24) (l : List Nat) :
    SumsTo f r false (l.map f.read) (lineSum fmt r l) := by
  rw [lineSum, hfmt]
  exact sumsTo_deliver hreg hd false _

end Sys2Proof.Machine
end

section
/-!
SUPPORT. Indexed forms: an index out of range, and what the updates make of the old value (R250, R251).
-/

namespace Sys2Proof.Machine

open Sys2Proof.Safety

/-! ### An index out of range (R250) -/

theorem doIndexed_out_of_range {ag : Agent} {w : Waiter} {op : VecOp} {recs : List (Nat × ShapeRec)} {bAddr : Word} {i index : Nat}
    {l : List (Spot × List Piece)} {s u v : State}
    (hspots : checkSpots ag.onElems w i (if op.tableDest = true then
        [spotOf 0 (recOr recs 0) (pointOf (vecSpace op recs) i) false false, spotOf 1 (recOr recs 1) (pointOf (vecSpace op recs) i) false false]
      else [spotOf 1 (recOr recs 1) (pointOf (vecSpace op recs) i) false false,
        spotOf 4 (recOr recs 4) (pointOf (vecSpace op recs) i) true false]) s = .ok l u)
    (hindex : readIndex ag w i (recOr recs 1) (pointOf (vecSpace op recs) i) l u = .ok index v)
    (hout : sgn (fmtBits (recOr recs 1).fmt) index < 0 ∨
      ((if op.tableDest = true then recOr recs 4 else recOr recs 0).ext[0] : Int) ≤ sgn (fmtBits (recOr recs 1).fmt) index)
    (hpad : (if op.tableDest = true then recOr recs 4 else recOr recs 0).pad = false) :
    doIndexed ag w op recs bAddr i s = .error (.trap 0x0C bAddr (mxInfo i 0 1)) v := by
  have hrange : ¬ (0 ≤ sgn (fmtBits (recOr recs 1).fmt) index ∧
      sgn (fmtBits (recOr recs 1).fmt) index < ((if op.tableDest = true then recOr recs 4 else recOr recs 0).ext[0] : Int)) := by
    omega
  unfold doIndexed
  dsimp only
  rw [bind_ok hspots, bind_ok hindex, decide_eq_false hrange, hpad]
  rfl

/-! ### Results within their width -/

/-- What is delivered into a format has no bit above its sign. -/
theorem deliver_lt {f : FloatFmt} {r : Rounding} (hmax : f.maxFinite < f.signBit) (hinf : f.infBits < f.signBit)
    (hnan : f.nanBits < f.signBit) (x : Exact) : (f.deliver r x).1 < 2 * f.signBit := by
  have hsign (neg : Bool) : (if neg then f.signBit else 0) ≤ f.signBit := by split <;> omega
  cases x with
  | nan fl => exact hnan.trans_le (by omega)
  | inf neg fl =>
    have h : (f.deliver r (.inf neg fl)).1 = (if neg then f.signBit else 0) + f.infBits := rfl
    have := hsign neg
    omega
  | num neg m e st =>
    have hover : overflowBits f r.rm neg < f.signBit := by
      obtain ⟨hyes, hno⟩ := overflowBits_eq f r.rm neg
      by_cases h : OverflowsToInfinity f r.rm neg
      · rwa [hyes h]
      · rwa [hno h]
    have := hsign neg
    change (f.round r neg m e st).1 < 2 * f.signBit
    unfold FloatFmt.round
    generalize roundGrid f.m f.minExp r neg m e st = g
    obtain ⟨q, qe, ix⟩ := g
    dsimp only
    split
    · dsimp only
      omega
    · split <;> dsimp only <;> omega

theorem deliver_fp32_lt (r : Rounding) (x : Exact) : (fp32.deliver r x).1 < 2 ^ 32 :=
  deliver_lt (f := fp32) (by decide) (by decide) (by decide) x

theorem deliver_bf16_lt (r : Rounding) (x : Exact) : (bf16.deliver r x).1 < 2 ^ 16 :=
  deliver_lt (f := bf16) (by decide) (by decide) (by decide) x

theorem minMaxBits_lt {f : FloatFmt} {isMax : Bool} {x y b : Nat} (hx : x < b) (hy : y < b) (hnan : f.nanBits < b) :
    (minMaxBits f isMax x y).1 < b := by
  unfold minMaxBits
  dsimp only
  split_ifs <;> assumption

/-! ### The operations of the vamo forms on w bits (R206, R251) -/

theorem zextBits_toNat (n : Nat) (x : Word) : zextBits n x.toNat = (x.setWidth n).setWidth 64 := by
  rw [zextBits, ← BitVec.toNat_setWidth]
  exact BitVec.eq_of_toNat_eq (by simp)

theorem zextBits_setWidth {w : Nat} (hw : w ≤ 64) (x : Word) : (zextBits w x.toNat).setWidth w = x.setWidth w := by
  rw [zextBits_toNat, BitVec.setWidth_setWidth_of_le _ hw, BitVec.setWidth_eq]

theorem toNat_zextBits {w : Nat} (hw : w ≤ 64) (x : Word) : (zextBits w x.toNat).toNat = (x.setWidth w).toNat := by
  rw [zextBits_toNat, BitVec.toNat_setWidth_of_le hw]

theorem zextBits_ofNat {n b : Nat} (hb : b ≤ 64) (h : n < 2 ^ b) : zextBits b (BitVec.ofNat 64 n).toNat = BitVec.ofNat 64 n := by
  have hn : n < 2 ^ 64 := h.trans_le (Nat.pow_le_pow_right Nat.two_pos hb)
  rw [zextBits, BitVec.toNat_ofNat, Nat.mod_eq_of_lt hn, Nat.mod_eq_of_lt h]

theorem sextBits_slt {w : Nat} (hw : w ≤ 64) (x y : Word) :
    (sextBits w x.toNat).slt (sextBits w y.toNat) = (x.setWidth w).slt (y.setWidth w) := by
  have h (z : Word) : (sextBits w z.toNat).toInt = (z.setWidth w).toInt := by
    rw [sextBits, BitVec.toInt_signExtend_of_le hw, ← BitVec.setWidth_ofNat_of_le hw]
    simp
  rw [BitVec.slt, BitVec.slt, h, h]

section
variable {w : Nat} (hw : w = 32 ∨ w = 64) (x y : Word)
include hw

theorem rmwApply_or_setWidth : (rmwApply .or (w / 8) x y).setWidth w = x.setWidth w ||| y.setWidth w := by
  have hle : w ≤ 64 := by omega
  rw [rmwApply, show 8 * (w / 8) = w by omega]
  rw [zextBits_setWidth hle, BitVec.setWidth_or, zextBits_setWidth hle, zextBits_setWidth hle]

theorem rmwApply_and_setWidth : (rmwApply .and (w / 8) x y).setWidth w = x.setWidth w &&& y.setWidth w := by
  have hle : w ≤ 64 := by omega
  rw [rmwApply, show 8 * (w / 8) = w by omega]
  rw [zextBits_setWidth hle, BitVec.setWidth_and, zextBits_setWidth hle, zextBits_setWidth hle]

theorem rmwApply_add_setWidth : (rmwApply .add (w / 8) x y).setWidth w = x.setWidth w + y.setWidth w := by
  have hle : w ≤ 64 := by omega
  rw [rmwApply, show 8 * (w / 8) = w by omega]
  rw [zextBits_setWidth hle, BitVec.setWidth_add _ _ hle, zextBits_setWidth hle, zextBits_setWidth hle]

theorem rmwApply_max_setWidth :
    (rmwApply .max (w / 8) x y).setWidth w = if (x.setWidth w).slt (y.setWidth w) = true then y.setWidth w else x.setWidth w := by
  have hle : w ≤ 64 := by omega
  rw [rmwApply, show 8 * (w / 8) = w by omega]
  rw [zextBits_setWidth hle, sextBits_slt hle, apply_ite (BitVec.setWidth w), zextBits_setWidth hle, zextBits_setWidth hle]

end

theorem rmwApply_fadd (x y : Word) : rmwApply .fadd 4 x y = BitVec.ofNat 64
    (fp32.deliver rne (sumExact 0 [fp32.read (x.setWidth 32).toNat, fp32.read (y.setWidth 32).toNat])).1 := by
  rw [rmwApply]
  rw [toNat_zextBits (by decide), toNat_zextBits (by decide)]
  exact zextBits_ofNat (by decide) (deliver_fp32_lt ..)

theorem rmwApply_fmax (x y : Word) :
    rmwApply .fmax 4 x y = BitVec.ofNat 64 (minMaxBits fp32 true (x.setWidth 32).toNat (y.setWidth 32).toNat).1 := by
  rw [rmwApply]
  rw [toNat_zextBits (by decide), toNat_zextBits (by decide)]
  exact zextBits_ofNat (by decide) (minMaxBits_lt (x.setWidth 32).isLt (y.setWidth 32).isLt (by decide))

/-- badd of one lane: the upper lanes are zeros, whose sum is zero. -/
theorem rmwApply_badd (x y : Word) : rmwApply .badd 2 x y = BitVec.ofNat 64
    (bf16.deliver rne (sumExact 0 [bf16.read (x.setWidth 16).toNat, bf16.read (y.setWidth 16).toNat])).1 := by
  have hx : (x.setWidth 16).toNat < 65536 := (x.setWidth 16).isLt
  have hy : (y.setWidth 16).toNat < 65536 := (y.setWidth 16).isLt
  have hzero : baddLane 0 0 = 0 := by decide
  rw [rmwApply]
  rw [toNat_zextBits (by decide), toNat_zextBits (by decide), Nat.mod_eq_of_lt hx, Nat.mod_eq_of_lt hy, Nat.div_eq_of_lt hx,
    Nat.div_eq_of_lt hy, hzero, Nat.mul_zero, Nat.add_zero]
  exact zextBits_ofNat (by decide) (deliver_bf16_lt ..)

end Sys2Proof.Machine
end

section
/-!
SUPPORT. The elements of the vector forms (R243 to R251).
-/

namespace Sys2Proof.Machine

open Sys2Proof.Safety

theorem vamoResults (w : Nat) (x y : Word) : let O := x.setWidth w
    let V := y.setWidth w
    (w = 32 ∨ w = 64 →
      (rmwApply (amoOf .or 5).1 (w / 8) x y).setWidth w = O ||| V ∧ (rmwApply (amoOf .and 5).1 (w / 8) x y).setWidth w = O &&& V ∧
      (rmwApply (amoOf .add 5).1 (w / 8) x y).setWidth w = O + V ∧
      (rmwApply (amoOf .max 5).1 (w / 8) x y).setWidth w = if O.slt V = true then V else O) ∧
    (w = 32 → ∃ o q, SumsTo fp32 rne false [fp32.read O.toNat, fp32.read V.toNat] o ∧
      rmwApply (amoOf .fadd 0).1 4 x y = BitVec.ofNat 64 o.1 ∧ SelectsMinMax fp32 true O.toNat V.toNat q ∧
      rmwApply (amoOf .max 0).1 4 x y = BitVec.ofNat 64 q.1) ∧
    (w = 16 → ∃ o, SumsTo bf16 rne false [bf16.read O.toNat, bf16.read V.toNat] o ∧
      rmwApply (amoOf .fadd 1).1 2 x y = BitVec.ofNat 64 o.1) := by
  refine ⟨fun hw => ⟨rmwApply_or_setWidth hw x y, rmwApply_and_setWidth hw x y, rmwApply_add_setWidth hw x y,
    rmwApply_max_setWidth hw x y⟩, ?_, ?_⟩
  · rintro rfl
    exact ⟨_, _, sumsTo_deliver regular_fp32 (by decide) false _, rmwApply_fadd x y, selectsMinMax_bits fp32 true _ _, rmwApply_fmax x y⟩
  · rintro rfl
    exact ⟨_, sumsTo_deliver regular_bf16 (by decide) false _, rmwApply_badd x y⟩

/-- The elements of the forms of R243 and R244 in a floating-point format. -/
theorem arithFloat_elements {f : FloatFmt} (hf : f = fp32 ∨ f = bf16) {r : Rounding} (hd : r.dither < 2 ^ 24) (x y : Nat) {z : Nat}
    (hz : z < 2 ^ (1 + f.e + f.m)) :
    let a := f.read x
    let b := f.read y
    let el := fun (op : VArith) => arithFloat f r op x y z
    SumsTo f r false [a, b] (el .add) ∧ SumsTo f r false [a, b.neg] (el .sub) ∧ MultipliesTo f r a b (el .mul) ∧
    DividesTo f r a b (el .div) ∧ FusesTo f r false a b (f.read z) (el .fma) ∧
    SelectsMinMax f false x y (el .min) ∧ SelectsMinMax f true x y (el .max) ∧
    el .abs = (x % 2 ^ (f.e + f.m), 0) ∧ el .neg = (x ^^^ 2 ^ (f.e + f.m), 0) ∧
    el .sel = (if z = 0 ∨ z = 2 ^ (f.e + f.m) then y else x, 0) ∧
    ReciprocalIs f a (el .rcp) ∧ RootReciprocalIs f a (el .rsq) ∧
    (a.isNan = true → el .exp2 = nanWith f (signalled [a]) ∧ el .log2 = nanWith f (signalled [a])) ∧
    (a = .inf false → el .exp2 = infWith f false 0 ∧ el .log2 = infWith f false 0) ∧
    (a = .inf true → el .exp2 = (0, 0) ∧ el .log2 = nanWith f flagNV) ∧
    (∀ k : ℤ, IsFinite a → real a = k → Delivered f r ((2 : ℝ) ^ k) false (el .exp2)) ∧
    (IsFinite a → real a = 0 → el .log2 = infWith f true flagDZ) ∧ (IsFinite a → real a < 0 → el .log2 = nanWith f flagNV) ∧
    (∀ k : ℤ, IsFinite a → real a = (2 : ℚ) ^ k → Delivered f r (k : ℝ) false (el .log2)) := by
  have hreg : Regular f := by
    rcases hf with rfl | rfl
    · exact regular_fp32
    · exact regular_bf16
  have hexp2 : arithFloat f r .exp2 x y z = f.deliver r (exp2Exact (f.read x)) := rfl
  have hlog2 : arithFloat f r .log2 x y z = f.deliver r (log2Exact (f.read x)) := rfl
  dsimp only
  rw [hexp2, hlog2]
  refine ⟨sumsTo_deliver hreg hd false _, sumsTo_deliver hreg hd false _, multipliesTo_deliver hreg hd _ _,
    dividesTo_deliver hreg hd _ _, fusesTo_deliver hreg hd false _ _ _, selectsMinMax_bits f false x y, selectsMinMax_bits f true x y,
    rfl, rfl, arithFloat_sel hz, reciprocalIs_deliverRecip hf _, rootReciprocalIs_deliverRecip hf _, exp2_log2_nan,
    fun h => ?_, fun h => ?_, fun k => delivered_two_zpow hf hreg hd, log2_zero, log2_negative, fun k => delivered_log2 hreg hd⟩
  · rw [h]
    exact ⟨rfl, rfl⟩
  · rw [h]
    exact ⟨rfl, rfl⟩

/-- The comparisons of R245 in a floating-point format. -/
theorem cmpResult_float {fmt : Nat} {f : FloatFmt} (hfmt : vecFloat fmt = some f) (x y : Nat) :
    (∀ (c : FCmp) (v : VCmp), (c, v) ∈ [(.eq, .eq), (.lt, .lt), (.le, .le)] → ∃ o : Bool × FlagSet,
      cmpResult fmt v x y = (o.1.toNat, o.2) ∧ ComparesTo c (f.read x) (f.read y) o) ∧
    (∃ o : Bool × FlagSet, cmpResult fmt .ne x y = ((!o.1).toNat, o.2) ∧ ComparesTo .eq (f.read x) (f.read y) o) := by
  have hcmp (c : FCmp) := comparesTo_fcmp c (f.read x) (f.read y)
  unfold cmpResult
  rw [hfmt]
  refine ⟨fun c v hcv => ?_, _, rfl, hcmp .eq⟩
  simp only [List.mem_cons, Prod.mk.injEq, List.not_mem_nil, or_false] at hcv
  rcases hcv with ⟨rfl, rfl⟩ | ⟨rfl, rfl⟩ | ⟨rfl, rfl⟩
  · exact ⟨_, rfl, hcmp .eq⟩
  · exact ⟨_, rfl, hcmp .lt⟩
  · exact ⟨_, rfl, hcmp .le⟩

/-- The comparisons of R245 in an integer format. -/
theorem cmpResult_bits {fmt x y : Nat} (hfmt : vecFloat fmt = none) (hw : 0 < fmtBits fmt) (hx : x < 2 ^ fmtBits fmt)
    (hy : y < 2 ^ fmtBits fmt) (c : VCmp) :
    (cmpResult fmt c x y).2 = 0 ∧ ((cmpResult fmt c x y).1 = 1 ∨ (cmpResult fmt c x y).1 = 0) ∧
    ((cmpResult fmt c x y).1 = 1 ↔ VCmp.ofInts c (BitVec.ofNat (fmtBits fmt) x).toInt (BitVec.ofNat (fmtBits fmt) y).toInt) := by
  obtain ⟨b, hb, hiff⟩ := cmpResult_int hfmt c x y
  rw [hb, ← sgn_eq_toInt hw hx, ← sgn_eq_toInt hw hy, ← hiff]
  cases b <;> simp

/-- Settles O42: each element of the vector forms is the result of its rule over the integers or the real numbers. -/
theorem vectorIntegerElements : Obligations.VectorIntegerElements := by
  unfold Obligations.VectorIntegerElements
  refine ⟨fun w x y z hw hx hy hz => ?_, fun f hf r x y z hd _ _ hz => ?_, fun fmt x y hfmt => ?_, fun fmt x y c hfmt => ?_,
    fun r v hd => ⟨?_, ?_, fun k hv hk => scaleVal_fin hv hk, fun k hk => scaleVal_nan hk⟩, fun fmt l hfmt => ?_,
    fun fmt r l hd hne hl => ⟨fun hfmt => ?_, fun f hf => ?_⟩, fun ag w op recs bAddr i index l s u v => ?_, vamoResults⟩
  · exact ⟨arithInt_add hw hx hy, arithInt_sub hw hx hy, arithInt_mul hw hx hy, arithInt_fma hw hx hy hz, arithInt_div hw hx hy,
      arithInt_min hw hx hy, arithInt_max hw hx hy, arithInt_abs hw hx, arithInt_neg hw hx, arithInt_sel hw hx hy,
      bitResult_and hx hy, bitResult_or hx hy, bitResult_xor hx hy, bitResult_shl hx, bitResult_shr hx, sgn_eq_toInt hw hx⟩
  · exact arithFloat_elements (by simpa using hf) hd x y hz
  · rcases hfmt with rfl | rfl
    · exact cmpResult_float (fmt := 0) rfl x y
    · exact cmpResult_float (fmt := 1) rfl x y
  · rcases hfmt with rfl | rfl
    · intro X Y hx hy
      exact cmpResult_bits (fmt := 5) rfl (by decide) hx hy c
    · intro X Y hx hy
      exact cmpResult_bits (fmt := 9) rfl (by decide) hx hy c
  · intro x hx
    have hfmt : ∀ x ∈ [(0, fp32), (1, bf16), (2, fp16), (3, e4m3), (4, e5m2), (13, e2m1), (14, e3m2)],
        floatFmt x.1 = some x.2 ∧ x.2 ∈ formats := by decide
    exact convertsTo_convertTo (hfmt x hx).1 (hfmt x hx).2 hd v
  · intro x hx
    have hlim : ∀ x ∈ [((5 : Nat), (-2147483648 : Int), (2147483647 : Int)), (6, -128, 127), (7, 0, 255), (8, -7, 7),
        (9, -9223372036854775808, 9223372036854775807), (12, -32768, 32767)],
        floatFmt x.1 = none ∧ convertLimits x.1 = x.2 ∧ -(2 ^ 81) < x.2.1 ∧ x.2.2 < 2 ^ 81 ∧ x.2.1 ≤ x.2.2 := by decide
    obtain ⟨hint, hlimits, hlo, hhi, hle⟩ := hlim x hx
    exact convertsToInt_convertTo hint hlimits hlo hhi hle hd v
  · have hmost : (if fmt = 3 then 448 else if fmt = 4 then 57344 else if fmt = 6 then 127 else if fmt = 8 then 7
        else if fmt = 14 then 28 else 6 : ℚ) = lmax fmt ∧ lmax fmt ≠ 0 := by
      fin_cases hfmt <;> norm_num [lmax]
    dsimp only
    rw [hmost.1]
    exact ⟨blockExp_nan, blockExp_spec hmost.2⟩
  · have hints : vecFloat fmt = none ∧ 0 < fmtBits fmt := by rcases hfmt with rfl | rfl <;> decide
    obtain ⟨hflags, hmem, hmax⟩ := lineMax_int hints.1 hints.2 hne hl
    refine ⟨lineSum_int hints.1 l, hflags, hmem, fun x hx => ?_⟩
    rw [← sgn_eq_toInt hints.2 (hl x hx), ← sgn_eq_toInt hints.2 (hl _ hmem)]
    exact hmax x hx
  · have hfloat : vecFloat fmt = some f ∧ Regular f ∧ f.read f.nanBits = .nan false := by
      simp only [List.mem_cons, Prod.mk.injEq, List.not_mem_nil, or_false] at hf
      rcases hf with ⟨rfl, rfl⟩ | ⟨rfl, rfl⟩
      · exact ⟨rfl, regular_fp32, by decide⟩
      · exact ⟨rfl, regular_bf16, by decide⟩
    obtain ⟨hfmt, hreg, hnan⟩ := hfloat
    have htop := lineTop_lineMax hnan hfmt hne
    exact ⟨lineSum_float hfmt hreg hd l, htop.flags, htop.nan, htop.num⟩
  · exact fun hspots hindex hout hpad => doIndexed_out_of_range hspots hindex hout hpad

end Sys2Proof.Machine
end

section
/-!
SUPPORT. Samples leave memories, cores and Nesting buffers alone (R399, R400).
-/

namespace Sys2Proof.Machine

variable {s t : State}

/-- What a sample leaves as it was. -/
structure Sampled (s t : State) : Prop where
  core : t.core = s.core
  others : t.others = s.others
  mem : t.mem = s.mem
  owned : t.owned = s.owned
  nest : ∀ cl, (clusterAt t cl).nest = (clusterAt s cl).nest

theorem Sampled.coreAt (h : Sampled s t) (k : Nat) : coreAt t k = coreAt s k := coreAt_congr h.core h.others k

theorem sampled_self (s : State) : Sampled s s := ⟨rfl, rfl, rfl, rfl, fun _ => rfl⟩

/-- A cluster after a change that leaves its Nesting buffers. -/
theorem nest_onCluster {f : Cluster → Cluster} (hid : ∀ c, (f c).id = c.id) (hnest : ∀ c, (f c).nest = c.nest) (k cl : Nat) (s : State) :
    (clusterAt (onCluster k f s) cl).nest = (clusterAt s cl).nest := by
  by_cases h : k = cl
  · subst h
    rw [clusterAt_onCluster hid, hnest]
  · rw [clusterAt_onCluster_ne hid h]

/-- A cluster whose monitor units are changed. -/
def withMons (f : MonUnit → MonUnit) (c : Cluster) : Cluster := { c with mons := c.mons.map f }

theorem sampled_withMons (f : MonUnit → MonUnit) (k : Nat) (s : State) : Sampled s (onCluster k (withMons f) s) :=
  ⟨rfl, rfl, rfl, rfl, fun cl => nest_onCluster (f := withMons f) (fun _ => rfl) (fun _ => rfl) k cl s⟩

theorem sampled_sampleAt (phys part source sel x : Nat) (s : State) : Sampled s (sampleAt phys part source sel x s) := by
  unfold sampleAt
  dsimp only
  split
  · exact sampled_self s
  · exact sampled_withMons _ _ s

/-- A free sample draws its value only if a unit of the cluster is on. -/
theorem sampleFree_run (phys part source sel : Nat) (s : State) : sampleFree phys part source sel s = .ok ()
    (if (clusterAt s (clusterOf phys)).mons.all (fun u => !u.config.getLsbD 0) then s
      else sampleAt phys part source sel (Config.freeWord s.freeCtr).toNat { s with freeCtr := s.freeCtr + 1 }) := by
  unfold sampleFree
  rw [get_bind, ite_run]
  split <;> rfl

theorem sampled_sampleFree (phys part source sel : Nat) (s : State) : Sampled s (runHw (sampleFree phys part source sel) s) := by
  rw [runHw, sampleFree_run]
  dsimp only
  split
  · exact sampled_self s
  · obtain ⟨hcore, hothers, hmem, howned, hnest⟩ := sampled_sampleAt phys part source sel (Config.freeWord s.freeCtr).toNat
      { s with freeCtr := s.freeCtr + 1 }
    exact ⟨hcore, hothers, hmem, howned, hnest⟩

end Sys2Proof.Machine
end

section
/-!
SUPPORT. An entry of the Nesting buffer whose hold limit has passed is dispatched (R287, R288).
-/

namespace Sys2Proof.Machine

variable {s : State} {cl n : Nat} {e : NestEntry}

/-! ### The members of a dispatch -/

/-- The held mma of a core on an accumulator. -/
def heldMma (x : Fin 4) (q : MxOp) : Bool := q.held && q.kind == .mma && q.acc == x

/-- A core whose mma on an accumulator an operation of a slice serves. -/
def serveMma (host id : Nat) (x : Fin 4) (c : Core) : Core :=
  { c with mxq := modifyWhere (heldMma x) (fun q => { q with held := false, host := some (host, id) }) c.mxq }

/-- A core with its NBSTAT. -/
def withNbstat (v : Word) (c : Core) : Core := { c with nbstat := v }

/-- A member of a dispatch: its mma is no longer held, and NBSTAT shows the dispatch (R288, R292). -/
def dispatchMember (host id : Nat) (stat : NestMember → Word) (s : State) (m : NestMember) : State :=
  onCore m.phys (withNbstat (stat m)) (onCore m.phys (serveMma host id m.acc) s)

/-- No mma of a member's core on its accumulator is held. -/
def Unheld (m : NestMember) (s : State) : Prop := ∀ q ∈ (coreAt s m.phys).mxq, q.kind = .mma → q.acc = m.acc → q.held = false

theorem mxq_dispatchMember_self (host id : Nat) (stat : NestMember → Word) (m : NestMember) (s : State) :
    (coreAt (dispatchMember host id stat s m) m.phys).mxq = (serveMma host id m.acc (coreAt s m.phys)).mxq := by
  unfold dispatchMember
  rw [coreAt_onCore (f := withNbstat (stat m)) (fun _ => rfl), coreAt_onCore (f := serveMma host id m.acc) (fun _ => rfl)]
  rfl

theorem coreAt_dispatchMember_ne {k : Nat} (host id : Nat) (stat : NestMember → Word) {m : NestMember} (h : m.phys ≠ k) (s : State) :
    coreAt (dispatchMember host id stat s m) k = coreAt s k := by
  unfold dispatchMember
  rw [coreAt_onCore_ne (f := withNbstat (stat m)) (fun _ => rfl) h, coreAt_onCore_ne (f := serveMma host id m.acc) (fun _ => rfl) h]

theorem mem_serveMma {host id : Nat} {x : Fin 4} {c : Core} {q : MxOp} (h : q ∈ (serveMma host id x c).mxq) :
    ∃ p ∈ c.mxq, (heldMma x p = true ∧ q.held = false) ∨ (heldMma x p = false ∧ q = p) := by
  obtain ⟨p, hp, rfl⟩ := List.mem_map.mp h
  refine ⟨p, hp, ?_⟩
  cases hheld : heldMma x p
  · exact .inr ⟨rfl, by simp⟩
  · exact .inl ⟨rfl, by simp⟩

theorem unheld_dispatchMember (host id : Nat) (stat : NestMember → Word) (m : NestMember) (s : State) :
    Unheld m (dispatchMember host id stat s m) := by
  intro q hq hkind hacc
  rw [mxq_dispatchMember_self] at hq
  obtain ⟨p, -, ⟨-, hheld⟩ | ⟨hheld, rfl⟩⟩ := mem_serveMma hq
  · exact hheld
  · simpa [heldMma, hkind, hacc] using hheld

theorem Unheld.dispatchMember {m : NestMember} (h : Unheld m s) (host id : Nat) (stat : NestMember → Word) (k : NestMember) :
    Unheld m (dispatchMember host id stat s k) := by
  intro q hq hkind hacc
  by_cases hphys : k.phys = m.phys
  · rw [← hphys, mxq_dispatchMember_self] at hq
    obtain ⟨p, hp, ⟨-, hheld⟩ | ⟨-, rfl⟩⟩ := mem_serveMma hq
    · exact hheld
    · exact h q (hphys ▸ hp) hkind hacc
  · rw [coreAt_dispatchMember_ne host id stat hphys] at hq
    exact h q hq hkind hacc

theorem dispatchMember_clusters (host id : Nat) (stat : NestMember → Word) (s : State) (m : NestMember) :
    (dispatchMember host id stat s m).clusters = s.clusters := by simp [dispatchMember]

theorem dispatchMember_mem (host id : Nat) (stat : NestMember → Word) (s : State) (m : NestMember) :
    (dispatchMember host id stat s m).mem = s.mem := by simp [dispatchMember]

/-! ### The dispatch -/

/-- A cluster without an entry of its Nesting buffers. -/
def withoutEntry (n : Nat) (c : Cluster) : Cluster := { c with nest := c.nest.eraseIdx n }

/-- An entry all of whose members are ready leaves the buffer; then its members are served and the host column is sampled. -/
theorem dispatchEntry_all (he : (clusterAt s cl).nest[n]? = some e) (hne : e.members ≠ []) (hready : ∀ m ∈ e.members, m.ready = true) :
    ∃ host prio id stat phys part, dispatchEntry cl n s = runHw (sampleFree phys part 5 0)
      (e.members.foldl (dispatchMember host id stat) (onCore host (enterSlice prio) (onCluster cl (withoutEntry n) s))) := by
  have hgo : e.members.filter (·.ready) = e.members := List.filter_eq_self.mpr hready
  have hstay : e.members.filter (fun m => !m.ready) = [] := by
    rw [List.filter_eq_nil_iff]
    intro m hm
    simp [hready m hm]
  have hempty : e.members.isEmpty = false := by simpa using hne
  unfold dispatchEntry
  simp only [he, hgo, hstay, hempty, List.isEmpty_nil, sliceEnter_eq, Bool.false_eq_true, if_true, if_false]
  exact ⟨_, _, _, fun m => nbstatAfter _ _ m.number _ _, _, _, rfl⟩

/-- R287, R288: the entry is gone, its members' mma are held no more, and memory is as it was. -/
theorem dispatchEntry_spec (he : (clusterAt s cl).nest[n]? = some e) (hne : e.members ≠ []) (hready : ∀ m ∈ e.members, m.ready = true) :
    (clusterAt (dispatchEntry cl n s) cl).nest = (clusterAt s cl).nest.eraseIdx n ∧ (dispatchEntry cl n s).mem = s.mem ∧
      ∀ m ∈ e.members, Unheld m (dispatchEntry cl n s) := by
  obtain ⟨host, prio, id, stat, phys, part, heq⟩ := dispatchEntry_all he hne hready
  obtain ⟨s0, hs0⟩ : ∃ s0, s0 = onCore host (enterSlice prio) (onCluster cl (withoutEntry n) s) := ⟨_, rfl⟩
  have hsampled := sampled_sampleFree phys part 5 0 (e.members.foldl (dispatchMember host id stat) s0)
  rw [heq, ← hs0]
  refine ⟨?_, ?_, fun m hm q hq => ?_⟩
  · have hclusters := foldl_same (g := State.clusters) (dispatchMember_clusters host id stat) e.members s0
    have hstart : (clusterAt s0 cl).nest = (clusterAt s cl).nest.eraseIdx n := by
      have hcl : clusterAt s0 cl = clusterAt (onCluster cl (withoutEntry n) s) cl := by simp [hs0, clusterAt]
      rw [hcl, clusterAt_onCluster (f := withoutEntry n) (fun _ => rfl)]
      rfl
    rw [hsampled.nest, ← hstart]
    simp only [clusterAt, hclusters]
  · rw [hsampled.mem, foldl_same (g := State.mem) (dispatchMember_mem host id stat) e.members s0, hs0]
    simp
  · rw [hsampled.coreAt] at hq
    exact foldl_reaches (P := Unheld m) (fun s => unheld_dispatchMember host id stat m s)
      (fun s k h => h.dispatchMember host id stat k) e.members s0 hm q hq

theorem exec_nestingHoldExpiry (he : (clusterAt s cl).nest[n]? = some e) : exec (.nestingHoldExpiry cl n) s =
    .next (if e.members.any (·.ready) && e.members.any (·.limit ≤ s.time) then dispatchEntry cl n s else s) := by
  change execNestingHoldExpiry cl n s = _
  rw [execNestingHoldExpiry, he]

theorem nestingHoldExpiry_waits (he : (clusterAt s cl).nest[n]? = some e)
    (h : (∀ m ∈ e.members, s.time < m.limit) ∨ ∀ m ∈ e.members, m.ready = false) : exec (.nestingHoldExpiry cl n) s = .next s := by
  rw [exec_nestingHoldExpiry he, if_neg]
  rw [Bool.and_eq_true, List.any_eq_true, List.any_eq_true]
  rintro ⟨⟨m, hm, hready⟩, ⟨k, hk, hlimit⟩⟩
  rcases h with h | h
  · exact absurd (h k hk) (by simpa using hlimit)
  · simp [h m hm] at hready

theorem nestingHoldExpiry_dispatches (he : (clusterAt s cl).nest[n]? = some e)
    (hready : ∀ m ∈ e.members, m.ready = true) (hlimit : ∃ m ∈ e.members, m.limit ≤ s.time) :
    exec (.nestingHoldExpiry cl n) s = .next (dispatchEntry cl n s) := by
  obtain ⟨m, hm, hle⟩ := hlimit
  rw [exec_nestingHoldExpiry he, if_pos]
  rw [Bool.and_eq_true, List.any_eq_true, List.any_eq_true]
  exact ⟨⟨m, hm, hready m hm⟩, ⟨m, hm, by simpa using hle⟩⟩

end Sys2Proof.Machine
end

section
/-!
SUPPORT. K-steps of a slice and rows of a drain (R108, R132, R136, R139, R147, R289).
-/

namespace Sys2Proof.Machine

open Sys2Proof.Safety

variable {s u v w t : State} {core n phys k : Nat} {o : SliceOp} {q : MxOp} {x : StepValues}

/-! ### The operation that a slice continues with (R289) -/

/-- The better of the operations seen so far and one more: a later one only by its priority. -/
def betterOp (best : Option SliceOp) (o : SliceOp) : Option SliceOp :=
  match best with
  | none => some o
  | some b => if b.prio < o.prio then some o else some b

theorem betterOp_spec (best : Option SliceOp) (o : SliceOp) : ∃ c, betterOp best o = some c ∧ (best = some c ∨ c = o) ∧ o.prio ≤ c.prio ∧
    ∀ b, best = some b → b.prio ≤ c.prio := by
  cases best with
  | none => exact ⟨o, rfl, .inr rfl, le_rfl, by simp⟩
  | some b =>
    by_cases h : b.prio < o.prio
    · exact ⟨o, if_pos h, .inr rfl, le_rfl, fun c hc => by cases hc; exact h.le⟩
    · exact ⟨b, if_neg h, .inl rfl, by omega, fun c hc => by cases hc; exact le_rfl⟩

theorem foldl_betterOp : ∀ (l : List SliceOp) (best : Option SliceOp) (c : SliceOp), l.foldl betterOp best = some c →
    (best = some c ∨ c ∈ l) ∧ (∀ b, best = some b → b.prio ≤ c.prio) ∧ ∀ p ∈ l, p.prio ≤ c.prio
  | [], best, c, h => by
    cases h
    exact ⟨.inl rfl, fun b hb => by cases hb; exact le_rfl, by simp⟩
  | o :: l, best, c, h => by
    obtain ⟨d, hd, hfrom, hle, hbest⟩ := betterOp_spec best o
    obtain ⟨hmem, hprio, hrest⟩ := foldl_betterOp l (betterOp best o) c h
    have hdc := hprio d hd
    refine ⟨?_, fun b hb => (hbest b hb).trans hdc, fun p hp => ?_⟩
    · rcases hmem with hc | hc
      · obtain rfl : d = c := Option.some.inj (hd.symm.trans hc)
        rcases hfrom with hb | rfl
        · exact .inl hb
        · exact .inr List.mem_cons_self
      · exact .inr (List.mem_cons_of_mem _ hc)
    · rcases List.mem_cons.mp hp with rfl | hp
      · exact hle.trans hdc
      · exact hrest p hp

theorem sliceChoice_spec (h : sliceChoice s core = some o) : o ∈ (coreAt s core).sliceq ∧ sliceReady s core o = true ∧
    ∀ p ∈ (coreAt s core).sliceq, sliceReady s core p = true → p.prio ≤ o.prio := by
  obtain ⟨hmem, -, hprio⟩ := foldl_betterOp _ none o h
  obtain ⟨hin, hready⟩ := List.mem_filter.mp (hmem.resolve_left (by simp))
  exact ⟨hin, hready, fun p hp hpr => hprio p (List.mem_filter.mpr ⟨hp, hpr⟩)⟩

theorem exec_matrixKStep_other (h : ∀ o, (coreAt s core).sliceq[n]? = some o → sliceChoice s core ≠ some o) :
    exec (.matrixKStep core n) s = .next s := by
  change execMatrixKStep core n s = _
  unfold execMatrixKStep
  split
  · rfl
  · next o ho => rw [if_neg (h o ho)]

theorem exec_matrixKStep (hn : (coreAt s core).sliceq[n]? = some o) (ho : sliceChoice s core = some o) :
    exec (.matrixKStep core n) s = .next (runHw (sliceStep (sliceMembers s core o)) s) := by
  change execMatrixKStep core n s = _
  rw [execMatrixKStep, hn]
  dsimp only
  rw [if_pos ho]

/-! ### A K-step of one instruction (R132, R139) -/

theorem readMember_ok (hq : (coreAt u phys).mxq[k]? = some q) (hread : readStep phys q u = .ok x v) :
    readMember (phys, k) u = .ok (.ok (q, x)) v := by
  unfold readMember
  rw [get_bind]
  dsimp only
  rw [hq]
  exact (bind_ok (attempt_ok hread)).trans rfl

theorem readMember_trap {c : BitVec 8} {a e : Word} (hq : (coreAt u phys).mxq[k]? = some q)
    (hread : readStep phys q u = .error (.trap c a e) w) : readMember (phys, k) u = .ok (.error ⟨c, a, e⟩) w := by
  unfold readMember
  rw [get_bind]
  dsimp only
  rw [hq]
  exact (bind_ok (attempt_error hread)).trans rfl

/-- The K-step of an operation of one instruction: its operands are fetched and read, and it is applied. -/
theorem sliceStep_single {r : Except Deferred (MxOp × StepValues)} (hfetch : fetchStep phys k s = .ok () u)
    (hread : readMember (phys, k) u = .ok r v) : runHw (sliceStep [(phys, k)]) s = stepMember (phys, k) r v := by
  have hrun : sliceStep [(phys, k)] s = .ok () (stepMember (phys, k) r v) := by
    simp [sliceStep, bind_run, hfetch, hread]
  rw [runHw, hrun]

theorem stepMember_last (h : q.total ≤ q.next + 1) : stepMember (phys, k) (.ok (q, x)) v =
    completeOp phys k (q.stepped (stepFlags (coreAt v phys) q x)).flags (onCore phys (stepCore q x) v) :=
  if_neg (Nat.not_lt.mpr h)

/-- The state after a K-step that was not the last, before the next one is fetched. -/
def steppedState (phys k : Nat) (q : MxOp) (x : StepValues) (v : State) : State :=
  putOp phys k (some (q.stepped (stepFlags (coreAt v phys) q x))) (onCore phys (stepCore q x) v)

theorem stepMember_next (h : q.next + 1 < q.total) : stepMember (phys, k) (.ok (q, x)) v =
    match fetchStep phys k (steppedState phys k q x v) with
    | .ok _ t => t
    | .error _ _ => steppedState phys k q x v :=
  (if_pos h).trans rfl

/-! ### Rows of a drain (R147) -/

theorem exec_mdrainRow_idle (h : runnableOp s core n = none) : exec (.mdrainRow core n) s = .next (takeQueue core s) := by
  change execMdrainRow core n s = _
  rw [execMdrainRow, h]

/-- A drain after its next row. -/
def drained (q : MxOp) (fl : FlagSet) : MxOp := { q with next := q.next + 1, flags := q.flags ||| fl, begun := true }

/-- The write of the next row of a drain. -/
def rowWrite (core : Nat) (q : MxOp) (s : State) : Act Unit :=
  writeMem (chanAgent s core).onElems .hw .other (elemAddr q.a #v[0, q.next, 0, 0])
    (drainRow (coreAt s core) q (Fin.ofNat 32 q.next)).1

/-- A drain whose turn it is, with rows to write and no helper of its own to be started, writes its next row. -/
theorem exec_mdrainRow (h : runnableOp s core n = some q) (hkind : q.kind = .drain) (hrows : q.next < q.rows)
    (hasked : ∀ r ∈ (coreAt s core).hreqs, ∀ k, r.origin ≠ .drain q.acc k) :
    exec (.mdrainRow core n) s = match rowWrite core q s s with
      | .error (.trap c v _) u => .next (abandonOp core n c v (mxInfo q.next 0 4) u)
      | .error _ u => .next u
      | .ok _ u =>
        let w := putOp core n (some (drained q (drainRow (coreAt s core) q (Fin.ofNat 32 q.next)).2)) u
        .next (if q.hpc = 0 then releaseRow core q.acc w else askHelper core
          ⟨q.hpc &&& ~~~1#64, elemAddr q.a #v[0, q.next, 0, 0], BitVec.ofNat 64 q.next, .drain q.acc q.next,
            corePart (coreAt w core), 0⟩ w) := by
  have hnone : (coreAt s core).hreqs.any (fun r => match r.origin with | .drain x _ => x == q.acc | _ => false) = false := by
    rw [List.any_eq_false]
    intro r hr
    cases horigin : r.origin with
    | drain y k =>
      have hne : y ≠ q.acc := fun hy => hasked r hr k (by rw [horigin, hy])
      simpa using hne
    | software => simp
    | completion ch => simp
    | arrival => simp
  change execMdrainRow core n s = _
  rw [execMdrainRow, h]
  dsimp only
  refine (if_neg fun hidle => ?_).trans rfl
  rw [Bool.or_eq_true, Bool.or_eq_true] at hidle
  obtain (hother | hpast) | hask := hidle
  · simp [hkind] at hother
  · exact absurd hrows (by simpa using hpast)
  · exact absurd (hnone.symm.trans hask) Bool.false_ne_true

end Sys2Proof.Machine
end

section
/-!
SUPPORT. The control core of a die serves emulation requests (R131, R137, R144, R168).
-/

namespace Sys2Proof.Machine

variable {s u v : State} {d : Fin 4} {r : EmuReq} {rest : List EmuReq} {q k : MxOp} {c : BitVec 8} {a i : Word}

/-- A die's first emulation request leaves its queue. -/
def dropRequest (d : Fin 4) (s : State) : State :=
  { s with dies := s.dies.set d.val { s.dies.get d with emus := (s.dies.get d).emus.tail } }

/-- What the operand checks of a request come to; a request that passed them before is not checked again (R144). -/
def requestChecks (r : EmuReq) (s : State) : EStateM.Result Stop State MxOp :=
  (if r.checked then pure r.op else acceptOperands (chanAgent s r.phys) .hw r.op : Act MxOp) s

theorem requestChecks_unchecked (h : r.checked = false) : requestChecks r s = acceptOperands (chanAgent s r.phys) .hw r.op s := by
  rw [requestChecks, h]
  rfl

theorem requestChecks_checked (h : r.checked = true) : requestChecks r s = .ok r.op s := by
  rw [requestChecks, h]
  rfl

theorem exec_formatEmulationRequest (d : Nat) (s : State) : exec (.formatEmulationRequest d) s = execFormatEmulationRequest d s := rfl

section
variable (he : s.dies[d.val].emus = r :: rest)
include he

theorem emulation_dropped (hstands : r.stands s = false) : exec (.formatEmulationRequest d.val) s = .next (dropRequest d s) := by
  simp only [exec_formatEmulationRequest, execFormatEmulationRequest, dif_pos d.isLt, he, hstands, Bool.not_false, if_true]
  rw [dropRequest, show (s.dies.get d).emus = r :: rest from he]
  rfl

theorem emulation_waits (hstands : r.stands s = true) (hturn : r.turn s = false) : exec (.formatEmulationRequest d.val) s = .next s := by
  simp only [exec_formatEmulationRequest, execFormatEmulationRequest, dif_pos d.isLt, he, hstands, hturn,
    Bool.not_false, Bool.not_true, if_true, Bool.false_eq_true, if_false]

variable (hstands : r.stands s = true) (hturn : r.turn s = true)
include hstands hturn

theorem emulation_refused (hchecks : requestChecks r s = .error (.trap c a i) u) : exec (.formatEmulationRequest d.val) s = .next
    (let w := r.answer (.emulationTrap c a i) (dropRequest d u)
     if r.op.kind = .gang then gangArrive (arrivalOf w r.phys 0 none true) w else w) := by
  rw [requestChecks] at hchecks
  simp only [exec_formatEmulationRequest, execFormatEmulationRequest, dif_pos d.isLt, he, hstands, hturn,
    Bool.not_true, Bool.false_eq_true, if_false, hchecks, beq_iff_eq]
  rfl

theorem emulation_arrives (hchecked : r.checked = false) (hchecks : requestChecks r s = .ok q u) (hkind : q.kind = .gang) :
    exec (.formatEmulationRequest d.val) s = .next (gangWait r.phys q (dropRequest d u)) := by
  rw [requestChecks_unchecked hchecked] at hchecks
  simp only [exec_formatEmulationRequest, execFormatEmulationRequest, dif_pos d.isLt, he, hstands, hturn,
    Bool.not_true, Bool.false_eq_true, if_false, hchecked, hchecks, hkind, beq_self_eq_true, Bool.not_false, Bool.and_self, if_true]
  rfl

section
variable (hchecks : requestChecks r s = .ok q u) (hgoes : ¬ (q.kind == .gang && !r.checked) = true)
include hchecks hgoes

theorem emulation_finishes (hsteps : emulateSteps r.phys q.total q u = .ok k v) :
    exec (.formatEmulationRequest d.val) s = .next (r.finish k none (dropRequest d v)) := by
  rw [requestChecks] at hchecks
  simp only [exec_formatEmulationRequest, execFormatEmulationRequest, dif_pos d.isLt, he, hstands, hturn,
    Bool.not_true, Bool.false_eq_true, if_false, hchecks, if_neg hgoes, hsteps]
  rfl

theorem emulation_abandons (hsteps : emulateSteps r.phys q.total q u = .error (.trap c a i) v) :
    exec (.formatEmulationRequest d.val) s = .next (r.finish q (some ⟨c, a, i⟩) (dropRequest d v)) := by
  rw [requestChecks] at hchecks
  simp only [exec_formatEmulationRequest, execFormatEmulationRequest, dif_pos d.isLt, he, hstands, hturn,
    Bool.not_true, Bool.false_eq_true, if_false, hchecks, if_neg hgoes, hsteps]
  rfl
end
end

/-! ### The end of a request whose context waits for it -/

/-- The flags of an operation merged into a context's FFLAGS. -/
def withMergedFlags (q : MxOp) (x : Ctx) : Ctx := { x with fflags := x.fflags ||| q.flags.zeroExtend 64 }

/-- A context that has its answer, and is no longer stalled. -/
def withAnswer (w : Await) (x : Ctx) : Ctx := { x with await := w, stalled := false }

theorem finish_unresumed (h : r.resumed = false) (q : MxOp) (s : State) : r.finish q none s =
    onCtx r.phys 0 (withAnswer .emulationDone) (onCtx r.phys 0 (withMergedFlags q) (recordEmulation r.phys q s)) := by
  have hplace : r.place (recordEmulation r.phys q s) = none := by simp [EmuReq.place, h]
  unfold EmuReq.finish
  dsimp only
  rw [hplace]
  dsimp only
  rw [EmuReq.answer, h]
  rfl

theorem coreAt_recordEmulation (phys : Nat) (q : MxOp) (s : State) : coreAt (recordEmulation phys q s) phys = coreAt s phys :=
  coreAt_congr (record_core ..) (record_others ..) phys

theorem finish_unresumed_spec (h : r.resumed = false) (q : MxOp) (s : State) :
    (ctxOf (coreAt (r.finish q none s) r.phys) 0).await = .emulationDone ∧
      (coreAt (r.finish q none s) r.phys).acc = (coreAt s r.phys).acc ∧
      (ctxOf (coreAt (r.finish q none s) r.phys) 0).fflags = (ctxOf (coreAt s r.phys) 0).fflags ||| q.flags.zeroExtend 64 := by
  rw [finish_unresumed h, ctxOf_onCtx, ctxOf_onCtx, coreAt_onCtx, coreAt_onCtx, putCtx_acc, putCtx_acc, coreAt_recordEmulation]
  exact ⟨rfl, rfl, rfl⟩

end Sys2Proof.Machine
end

section
/-!
SUPPORT. The vector engine and the copy channels (R235, R236, R263, R265, R297).
-/

namespace Sys2Proof.Machine

variable {s t u v : State} {core phys : Nat} {ch : Fin 4} {q : VxOp} {rest : List VxOp} {form : VecForm} {c : BitVec 8} {a e : Word}
  {j : CopyJob} {done : Bool}

/-! ### The instruction at the head of the vector engine -/

/-- The agent of an instruction of the vector engine. -/
def vecAgent (core : Nat) (q : VxOp) (s : State) : Agent := { agentAt s core q.vrec.ctx with priv := q.priv }

theorem vectorElementGroup_idle (hq : (coreAt s core).vxq = []) : exec (.vectorElementGroup core) s = .next s := by
  change execVectorElementGroup core s = _
  rw [execVectorElementGroup, hq]

section
variable (hq : (coreAt s core).vxq = q :: rest) (hform : vecForm q.instr = some form)
include hq hform

theorem vectorElementGroup_next (hpassed : q.passed = false) (hgroup : vecGroup (vecAgent core q s) form s = .ok done t) :
    exec (.vectorElementGroup core) s = .next t := by
  change execVectorElementGroup core s = _
  rw [vecAgent] at hgroup
  simp only [execVectorElementGroup, hq, hform, hpassed, Bool.false_eq_true, if_false, hgroup]

theorem vectorElementGroup_leaves (hpassed : q.passed = true) (hfinish : vecFinish (vecAgent core q s) form s = .ok () t) :
    exec (.vectorElementGroup core) s = .next (vecRetire core q t) := by
  change execVectorElementGroup core s = _
  rw [vecAgent] at hfinish
  simp only [execVectorElementGroup, hq, hform, hpassed, if_true, hfinish]

theorem vectorElementGroup_traps (hpassed : q.passed = true) (hfinish : vecFinish (vecAgent core q s) form s = .error (.trap c a e) t) :
    exec (.vectorElementGroup core) s = .next (deferTrap core q.vrec.ctx ⟨c, a, e⟩ (vecRetire core q t)) := by
  change execVectorElementGroup core s = _
  rw [vecAgent] at hfinish
  simp only [execVectorElementGroup, hq, hform, hpassed, if_true, hfinish]

end

/-! ### The next line of a copy -/

theorem payOwed_none (h : (coreAt s core).owes = []) : payOwed core s = s := by
  rw [payOwed, h, List.foldl_nil]

theorem copyLineWrite_stopped (h : (coreAt (payOwed core s) core).chans[ch].state ≠ .running) :
    exec (.copyLineWrite core ch.val) s = .next (payOwed core s) := by
  change execCopyLineWrite core ch.val s = _
  unfold execCopyLineWrite
  rw [dif_pos ch.isLt]
  dsimp only
  split
  · next hstate _ => exact absurd hstate h
  · next hstate _ => exact absurd hstate h
  · rfl

theorem copyLineWrite_job (hrun : (coreAt (payOwed core s) core).chans[ch].state = .running)
    (hjob : (coreAt (payOwed core s) core).chans[ch].job = some j) : exec (.copyLineWrite core ch.val) s = .next
      (if j.done < jobBytes j then runHw (copyLine core ch j) (payOwed core s) else payOwed core s) := by
  change execCopyLineWrite core ch.val s = _
  have hrun' : (coreAt (payOwed core s) core).chans[ch.val].state = .running := hrun
  have hjob' : (coreAt (payOwed core s) core).chans[ch.val].job = some j := hjob
  simp only [execCopyLineWrite, dif_pos ch.isLt, hrun', hjob']

theorem copyLineWrite_next (hrun : (coreAt (payOwed core s) core).chans[ch].state = .running)
    (hjob : (coreAt (payOwed core s) core).chans[ch].job = none) (hnext : chanContinue core ch (payOwed core s) = .ok () u) :
    exec (.copyLineWrite core ch.val) s = .next u := by
  change execCopyLineWrite core ch.val s = _
  have hrun' : (coreAt (payOwed core s) core).chans[ch.val].state = .running := hrun
  have hjob' : (coreAt (payOwed core s) core).chans[ch.val].job = none := hjob
  simp only [execCopyLineWrite, dif_pos ch.isLt, hrun', hjob', runHw, Fin.eta, hnext]

/-! ### The end of a copy -/

theorem copyRecordFinish_stopped (h : (coreAt s core).chans[ch].state ≠ .running ∨ (coreAt s core).chans[ch].job = none) :
    exec (.copyRecordFinish core ch.val) s = .next s := by
  change execCopyRecordFinish core ch.val s = _
  unfold execCopyRecordFinish
  rw [dif_pos ch.isLt]
  dsimp only
  split
  · next hstate hjob => exact absurd hstate (h.resolve_right fun hnone => by cases hnone.symm.trans hjob)
  · rfl

theorem copyRecordFinish_job (hrun : (coreAt s core).chans[ch].state = .running) (hjob : (coreAt s core).chans[ch].job = some j) :
    exec (.copyRecordFinish core ch.val) s = .next (if jobBytes j ≤ j.done then runHw (finishRecord core ch j) s else s) := by
  change execCopyRecordFinish core ch.val s = _
  have hrun' : (coreAt s core).chans[ch.val].state = .running := hrun
  have hjob' : (coreAt s core).chans[ch.val].job = some j := hjob
  simp only [execCopyRecordFinish, dif_pos ch.isLt, hrun', hjob']

/-- A channel with nothing more to copy. -/
def emptied (k : Chan) : Chan := { k with state := .idle, job := none, rcd := 0 }

/-- A core with one of its channels changed. -/
def withChan (ch : Fin 4) (f : Chan → Chan) (c : Core) : Core := { c with chans := c.chans.set ch (f c.chans[ch]) }

theorem onChan_eq (f : Chan → Chan) (phys : Nat) (ch : Fin 4) (s : State) : onChan phys ch f s = onCore phys (withChan ch f) s := rfl

theorem chans_onChan_same (f : Chan → Chan) (phys : Nat) (ch : Fin 4) (s : State) :
    (coreAt (onChan phys ch f s) phys).chans[ch] = f (coreAt s phys).chans[ch] := by
  rw [onChan_eq, coreAt_onCore (f := withChan ch f) fun _ => rfl]
  simp [withChan]

theorem not_owned_releaseLines {o : Nat × Nat × Nat} (h : o ∈ (releaseLines phys ch s).owned) : ¬ (o.2.1 = phys ∧ o.2.2 = ch.val) := by
  rw [not_and_or]
  simpa using (List.mem_filter.mp h).2

/-- R265: after its last byte a copy of cpy gives its lines back, its channel is idle, and a sample is taken. -/
theorem finishRecord_cpy (h : j.rcd = none) : ∃ part, runHw (finishRecord phys ch j) s =
    runHw (sampleFree phys part 7 0) (onChan phys ch emptied (releaseLines phys ch s)) := by
  unfold runHw finishRecord
  rw [modify_bind, h]
  exact ⟨_, rfl⟩

theorem finishRecord_cpy_spec (h : j.rcd = none) :
    ∃ t, runHw (finishRecord phys ch j) s = t ∧ (coreAt t phys).chans[ch] = emptied (coreAt s phys).chans[ch] ∧
      (∀ o ∈ t.owned, ¬ (o.2.1 = phys ∧ o.2.2 = ch.val)) ∧ t.mem = s.mem := by
  obtain ⟨part, hrun⟩ := finishRecord_cpy (phys := phys) (ch := ch) (s := s) h
  have hsampled := sampled_sampleFree phys part 7 0 (onChan phys ch emptied (releaseLines phys ch s))
  refine ⟨_, hrun, ?_, fun o ho => ?_, ?_⟩
  · rw [hsampled.coreAt, chans_onChan_same]
    rfl
  · rw [hsampled.owned, onChan_eq, onCore_owned] at ho
    exact not_owned_releaseLines ho
  · rw [hsampled.mem, onChan_eq, onCore_mem]
    rfl

end Sys2Proof.Machine
end

section
/-!
SUPPORT. The clauses of a K-step, a drain's row, an emulation request and a copy (R132, R147, R168, R263, R265).
-/

namespace Sys2Proof.Machine

open Sys2Proof.Safety

variable {s u v : State} {core n phys k : Nat} {o : SliceOp} {q : MxOp}

/-- A K-step of the operation of one instruction, its operands read or refused. -/
theorem matrixKStep_single {r : Except Deferred (MxOp × StepValues)} (hn : (coreAt s core).sliceq[n]? = some o)
    (ho : sliceChoice s core = some o) (hmembers : sliceMembers s core o = [(phys, k)]) (hfetch : fetchStep phys k s = .ok () u)
    (hread : readMember (phys, k) u = .ok r v) : exec (.matrixKStep core n) s = .next (stepMember (phys, k) r v) := by
  rw [exec_matrixKStep hn ho, hmembers, sliceStep_single hfetch hread]

theorem emulation_asked {d : Fin 4} {r : EmuReq} {rest : List EmuReq} (he : (s.dies.get d).emus = r :: rest)
    (hstands : r.stands s = true) (hturn : r.turn s = true)
    (h : (r.checked = true ∧ q = r.op ∧ u = s) ∨
      (r.checked = false ∧ acceptOperands (chanAgent s r.phys) .hw r.op s = .ok q u ∧ q.kind ≠ .gang)) :
    (∀ k v, emulateSteps r.phys q.total q u = .ok k v →
      exec (.formatEmulationRequest d.val) s = .next (r.finish k none (dropRequest d v))) ∧
    ∀ c a i v, emulateSteps r.phys q.total q u = .error (.trap c a i) v →
      exec (.formatEmulationRequest d.val) s = .next (r.finish q (some ⟨c, a, i⟩) (dropRequest d v)) := by
  have hchecks : requestChecks r s = .ok q u := by
    rcases h with ⟨hchecked, rfl, rfl⟩ | ⟨hchecked, hok, -⟩
    · exact requestChecks_checked hchecked
    · rw [requestChecks_unchecked hchecked, hok]
  have hgoes : ¬ (q.kind == .gang && !r.checked) = true := by
    rcases h with ⟨hchecked, -, -⟩ | ⟨-, -, hkind⟩
    · simp [hchecked]
    · simp [hkind]
  exact ⟨fun k v => emulation_finishes he hstands hturn hchecks hgoes, fun c a i v => emulation_abandons he hstands hturn hchecks hgoes⟩

/-- Settles O46: the Nesting buffer, K-steps, drains, emulation, the vector engine and copy channels, clause by clause; an entry's
members are served one by one (`dispatchEntry_spec`), and the slice's choice is the first of highest priority (`sliceChoice_spec`). -/
theorem enginesStep : Obligations.EnginesStep := by
  unfold Obligations.EnginesStep
  refine ⟨fun cl n e s he => ⟨fun h => nestingHoldExpiry_waits he (.inl h), fun h => nestingHoldExpiry_waits he (.inr h),
      fun hne hready hlimit => ⟨_, nestingHoldExpiry_dispatches he hready hlimit, dispatchEntry_spec he hne hready⟩⟩,
    ⟨fun core n s h => exec_matrixKStep_other h, fun core o s h => sliceChoice_spec h,
      fun core n phys k o q s u hn ho hmembers hfetch hq => ⟨fun x v hread => ?kstep, fun c v e w hread => ?abandoned⟩,
      fun core n s h => exec_mdrainRow_idle h, fun core n q s h hkind hrows hasked => ?drain⟩,
    ⟨fun d r rest s he => ?emulation, fun r q s h => finish_unresumed_spec h q s⟩,
    ⟨fun core s h => vectorElementGroup_idle h, fun core q rest form s t hq hform =>
      ⟨fun done hpassed hgroup => vectorElementGroup_next hq hform hpassed hgroup,
        fun hpassed hfinish => vectorElementGroup_leaves hq hform hpassed hfinish,
        fun c v e hpassed hfinish => vectorElementGroup_traps hq hform hpassed hfinish⟩,
      fun core ch s => ?copy, fun core ch s => ?finish⟩⟩
  case kstep =>
    have hstep := matrixKStep_single hn ho hmembers hfetch (readMember_ok hq hread)
    refine ⟨fun hlast => ?_, fun t hmore hnext => ?_, fun e t hmore hnext => ?_⟩
    · rw [hstep, stepMember_last hlast]
    · rw [hstep, stepMember_next hmore, steppedState, hnext]
    · rw [hstep, stepMember_next hmore, steppedState, hnext]
  case abandoned => exact matrixKStep_single hn ho hmembers hfetch (readMember_trap hq hread)
  case drain =>
    have hrow := exec_mdrainRow h hkind hrows hasked
    refine ⟨fun u hwrite => ⟨fun hpc => ?_, fun hpc => ?_⟩, fun c v e u hwrite => ?_⟩ <;> rw [hrow, rowWrite, hwrite]
    · exact congrArg _ (if_pos hpc)
    · exact congrArg _ (if_neg hpc)
  case emulation =>
    refine ⟨emulation_dropped he, emulation_waits he, fun c v i u hstands hturn hchecked hchecks => ?_,
      fun q u hstands hturn hchecked hchecks hkind => ?_, fun q u hstands hturn h => emulation_asked he hstands hturn h⟩
    · exact emulation_refused he hstands hturn ((requestChecks_unchecked hchecked).trans hchecks)
    · exact emulation_arrives he hstands hturn hchecked ((requestChecks_unchecked hchecked).trans hchecks) hkind
  case copy =>
    refine ⟨payOwed_none, copyLineWrite_stopped, fun j u hrun hjob hmore hline => ?_, fun j hrun hjob hall => ?_,
      fun u hrun hjob hnext => copyLineWrite_next hrun hjob hnext⟩
    · rw [copyLineWrite_job hrun hjob, if_pos hmore, runHw, hline]
    · rw [copyLineWrite_job hrun hjob, if_neg (Nat.not_lt.mpr hall)]
  case finish =>
    refine ⟨copyRecordFinish_stopped, fun j hrun hjob hmore => ?_, fun j hrun hjob hall hrcd => ?_⟩
    · rw [copyRecordFinish_job hrun hjob, if_neg (Nat.not_le.mpr hmore)]
    · obtain ⟨t, hrecord, hchan, howned, hmem⟩ := finishRecord_cpy_spec (phys := core) (ch := ch) (s := s) hrcd
      rw [copyRecordFinish_job hrun hjob, if_pos hall, hrecord]
      refine ⟨t, rfl, ?_, ?_, ?_, howned, hmem⟩ <;> rw [hchan] <;> rfl

end Sys2Proof.Machine
end

section
/-!
SUPPORT. The three outcomes of mzero: at once, behind the earlier instructions of the slice, and with no place or entry free (R136,
R142, R283, R284).
-/

namespace Sys2Proof.Machine

open Sys2Proof.Safety

variable {s : State} {f : InstrInfo} {x y : Fin 4}

/-! ### An accumulator that is zeroed -/

theorem zeroAcc_acc_self (x : Fin 4) (c : Core) (r : Fin 32) (k : Fin 16) : (((zeroAcc x c).acc.get x).get r).get k = 0 := by
  have hacc : (zeroAcc x c).acc.get x = Vector.replicate 32 (Vector.replicate 16 0) := Vector.getElem_set_self x.isLt
  simp [hacc, Vector.get_eq_getElem]

theorem zeroAcc_steps_self (x : Fin 4) (c : Core) (r : Fin 32) : ((zeroAcc x c).steps.get x).get r = 0 := by
  have hsteps : (zeroAcc x c).steps.get x = Vector.replicate 32 0 := Vector.getElem_set_self x.isLt
  simp [hsteps, Vector.get_eq_getElem]

theorem zeroAcc_other (h : y ≠ x) (c : Core) :
    (zeroAcc x c).acc.get y = c.acc.get y ∧ (zeroAcc x c).steps.get y = c.steps.get y := by
  have hne : x.val ≠ y.val := fun e => h (Fin.ext e.symm)
  exact ⟨Vector.getElem_set_ne x.isLt y.isLt hne, Vector.getElem_set_ne x.isLt y.isLt hne⟩

theorem ctlKeeps_zeroAcc (x : Fin 4) (s : State) : CtlKeeps s { s with core := zeroAcc x s.core } :=
  ctlKeeps_core rfl rfl rfl rfl rfl rfl

theorem ctlKeeps_withQueue (ops : List MxOp) (s : State) : CtlKeeps s { s with core := withQueue ops s.core } :=
  ctlKeeps_core rfl rfl rfl rfl rfl rfl

/-- An instruction that completes with a change of its core changes nothing outside it. -/
theorem sameElsewhere_completes_core (f : InstrInfo) (c : Core) (s : State) :
    SameElsewhere s (completes f { s with core := c }) :=
  sameElsewhere_trans (t := { s with core := c }) rfl (completes_frame f _).elsewhere

/-! ### The instruction -/

/-- A free place and a free entry, as numbers (R28, R150, R283). -/
theorem mxRoom_iff : mxRoom s s.core.phys = true ↔
    (s.core.mxq.filter (fun q => q.kind != .load && q.kind != .release)).length < 4 ∧ unbegun s s.core.phys < 2 := by
  have htile : (fun q : MxOp => !q.isTile) = fun q => q.kind != .load && q.kind != .release := by
    funext q
    simp [MxOp.isTile, bne]
  simp [mxRoom, queueFree, htile]

/-- What mzero leaves (R142): the zeroed accumulator, or one more entry of the queue, or a context that waits. -/
theorem exec_mzero (hf : frameOf (.mzero x) = some f) (hi : MayIssue f s) : exec (.mzero x) s = .next (
    if accBusy s s.core.phys x = false ∧ unbegun s s.core.phys = 0 then completes f { s with core := zeroAcc x s.core }
    else if mxRoom s s.core.phys = true then
      completes f { s with core := withQueue (s.core.mxq ++ [bareOp .zero x]) s.core }
    else standStill false s) := by
  cases hf
  by_cases hnow : accBusy s s.core.phys x = false ∧ unbegun s s.core.phys = 0
  · rw [if_pos hnow, ← onCore_focus (f := zeroAcc x) (fun _ => rfl)]
    exact runSeq_ok hi (by simp [hnow])
  · have hcond : ¬ (!accBusy s s.core.phys x && decide (unbegun s s.core.phys = 0)) = true := by simpa using hnow
    rw [if_neg hnow]
    by_cases hroom : mxRoom s s.core.phys = true
    · rw [if_pos hroom, ← mxPush_focus rfl]
      refine runSeq_ok hi ?_
      rw [get_bind, else_run hcond]
      exact else_run (by simp [hroom]) _ _ _
    · rw [if_neg hroom]
      refine runSeq_stops hi (e := .stall false) ?_
      rw [get_bind, else_run hcond]
      exact if_run (by simp [hroom]) _ _ _

/-- Settles O38: the frame of completion around the zeroed accumulator, and around the longer queue. -/
theorem accumulatorsZeroed : Obligations.AccumulatorsZeroed := by
  unfold Obligations.AccumulatorsZeroed
  intro x f s hf hi now
  have hexec := exec_mzero hf hi
  have hlen : f.len = 4 := by cases hf; rfl
  refine ⟨fun hnow => ?_, fun hnow hplaces hentries => ?_, fun hnow hfull => ?_⟩
  · rw [if_pos hnow] at hexec
    have hacc : (completes f { s with core := zeroAcc x s.core }).core.acc = (zeroAcc x s.core).acc := by simp [completes]
    have hsteps : (completes f { s with core := zeroAcc x s.core }).core.steps = (zeroAcc x s.core).steps := by simp [completes]
    obtain ⟨hregs, hothers, hbytes, hpc⟩ := ctlKeeps_completes f (ctlKeeps_zeroAcc x s)
    refine ⟨_, hexec, by rw [hpc, hlen]; rfl, fun r k => ?_, fun r => ?_, fun y hy => ?_, by simp [completes, zeroAcc], hregs,
      hothers, sameElsewhere_completes_core f _ s, hbytes⟩
    · rw [hacc, zeroAcc_acc_self]
    · rw [hsteps, zeroAcc_steps_self]
    · rw [hacc, hsteps]
      exact zeroAcc_other hy s.core
  · rw [if_neg hnow, if_pos (mxRoom_iff.mpr ⟨hplaces, hentries⟩)] at hexec
    obtain ⟨hregs, -, -, hpc⟩ := ctlKeeps_completes f (ctlKeeps_withQueue (s.core.mxq ++ [bareOp .zero x]) s)
    exact ⟨_, bareOp .zero x, hexec, by rw [hpc, hlen]; rfl, by simp [completes, withQueue], rfl, rfl, rfl,
      by simp [completes, withQueue], hregs, sameElsewhere_completes_core f _ s⟩
  · have hroom : ¬ mxRoom s s.core.phys = true := by
      rw [mxRoom_iff]
      omega
    rw [hexec, if_neg hnow, if_neg hroom]

end Sys2Proof.Machine
end

section
/-!
SUPPORT. Lines that leave a cluster cache, a home die cache or a core, and lines that a spare replaces (R140, R183, R195, R211, R261,
R263, R274).
-/

namespace Sys2Proof.Machine

open Sys2Proof.Safety

variable {s : State} {cl line : Nat}

/-! ### Lines that stay (R140, R263, R274, R442) -/

/-- A line that a cluster cache keeps: a tile pins it, a copy channel owns it, the host may hold a copy that its unwritten bytes would
have to reach, or a group of the cluster tracks it. -/
def Stays (s : State) (cl line : Nat) : Prop :=
  line ∈ (clusterAt s cl).pins ∨ (∃ o ∈ s.owned, o.1 = line) ∨ (line ∈ s.hostLines ∧ unwritten s cl line = true) ∨
    ∃ p ∈ s.parts, ∃ g ∈ p.groups, g.cluster = cl ∧ ∃ k ∈ g.tracks, ∃ pa, k.place = .mem pa ∧ pa / 64 = line

theorem trackedIn_iff : trackedIn s cl line = true ↔
    ∃ p ∈ s.parts, ∃ g ∈ p.groups, g.cluster = cl ∧ ∃ k ∈ g.tracks, ∃ pa, k.place = .mem pa ∧ pa / 64 = line := by
  simp only [trackedIn, List.any_eq_true, Bool.and_eq_true, beq_iff_eq]
  refine exists_congr fun p => and_congr_right fun _ => exists_congr fun g => and_congr_right fun _ => and_congr_right fun _ =>
    exists_congr fun k => and_congr_right fun _ => ?_
  cases k.place with
  | mem pa => simp
  | ls phys part gid off => simp

theorem evictable_iff : evictable s cl line = true ↔ ¬ Stays s cl line := by
  rw [Stays, ← trackedIn_iff]
  simp only [evictable, Bool.and_eq_true, Bool.not_eq_true', ← Bool.not_eq_true, List.contains_iff_mem, List.any_eq_true, beq_iff_eq,
    not_or]
  exact ⟨fun ⟨⟨⟨hpin, htrack⟩, hown⟩, hhost⟩ => ⟨hpin, hown, hhost, htrack⟩,
    fun ⟨hpin, hown, hhost, htrack⟩ => ⟨⟨⟨hpin, htrack⟩, hown⟩, hhost⟩⟩

/-! ### Lines that leave -/

theorem lineAt_forgetLine (cl line : Nat) (s : State) : lineAt (forgetLine cl line s) cl line = none := by
  have hcluster : clusterAt (forgetLine cl line s) cl = withoutLine line (clusterAt s cl) := by
    rw [forgetLine_eq]
    exact clusterAt_onCluster (f := withoutLine line) (fun _ => rfl) cl s
  rw [lineAt, hcluster]
  exact findBy_none fun l hl => by simpa using (List.mem_filter.mp hl).2

theorem lineGone_phys (cl line : Nat) (c : Core) : (lineGone cl line c).phys = c.phys := by
  unfold lineGone
  split <;> rfl

theorem not_mem_l1d_forgetLine {c : Core} (hc : c ∈ allCores (forgetLine cl line s)) (hcl : clusterOf c.phys = cl) :
    line ∉ c.l1d := by
  rw [forgetLine_eq] at hc
  obtain ⟨d, -, rfl⟩ : ∃ d ∈ allCores s, lineGone cl line d = c := List.mem_map.mp hc
  rw [lineGone_phys] at hcl
  simp [lineGone, hcl]

theorem exec_cacheEviction_cluster (hcl : cl < 64) : exec (.cacheEviction cl line) s =
    .next (if (lineAt s cl line).isSome && evictable s cl line then evictLine cl line s else s) :=
  congrArg Host.Outcome.next (if_neg (Nat.not_le.mpr hcl))

/-- CACHE_EVICTION of a die cache (R183). -/
theorem exec_cacheEviction_die (hcl : 64 ≤ cl) : exec (.cacheEviction cl line) s =
    .next (if homeDie (line * 64) = cl - 64 then { s with dieLines := s.dieLines.filter (·.1 != line) } else s) :=
  congrArg Host.Outcome.next (if_pos hcl)

/-! ### Update-only copies (R211) -/

/-- The core without its update-only copies of a line. -/
def withoutUpdates (line : Nat) (c : Core) : Core := { c with upd := c.upd.filter (·.pa / 64 != line) }

theorem exec_updateOnlyEviction (core line : Nat) (s : State) : exec (.updateOnlyEviction core line) s =
    .next { onCore core (withoutUpdates line) s with
      partials := ((coreAt s core).upd.filter (·.pa / 64 == line)).foldl (fun l p => mergePartial p l)
        (onCore core (withoutUpdates line) s).partials } := rfl

theorem upd_withoutUpdates (core line : Nat) (s : State) :
    (coreAt (onCore core (withoutUpdates line) s) core).upd = (coreAt s core).upd.filter (·.pa / 64 != line) := by
  rw [coreAt_onCore (f := withoutUpdates line) (fun _ => rfl)]
  rfl

/-! ### Lines that are retired (R195) -/

/-- A copy of a line in a cluster cache when a spare has taken the line's place: bytes that were fetched read zero, stored ones stay. -/
def fetchedZero (l : CLine) : CLine := { l with bytes := Vector.ofFn (fun i : Fin 64 => if l.mask.getLsbD i then l.bytes[i] else 0) }

/-- The state in which a spare has taken the place of a line of memory. -/
def spared (line : Nat) (s : State) : State :=
  { s with
    badLines := s.badLines.filter (· != line)
    mem := memClear s.mem (line * 64) 64
    clusters := s.clusters.map (fun c => { c with lines := modifyWhere (·.line == line) fetchedZero c.lines }) }

theorem exec_lineRetirement_sound (h : line ∉ s.badLines) : exec (.lineRetirement (none, line)) s = .next s :=
  congrArg Host.Outcome.next (if_pos (by simpa using h))

theorem exec_lineRetirement_bad (h : line ∈ s.badLines) : exec (.lineRetirement (none, line)) s =
    .next (auditEvent 0x0009 0xFF (record (if isDram (line * 64) then homeDie (line * 64) else 4) 0x004 0 0x3FFF
      (BitVec.ofNat 64 (line * 64)) 0 (spared line s))) :=
  congrArg Host.Outcome.next (if_neg (by simpa using h))

/-- LINE_RETIREMENT of a line of local store. -/
theorem exec_lineRetirement_local (phys part gid line : Nat) (s : State) : exec (.lineRetirement (some (phys, part, gid), line)) s =
    .next (if badAt s (.ls phys part gid (line * 64)) then retireLocal phys part gid line s else s) := rfl

theorem not_mem_badLines_spared (line : Nat) (s : State) : line ∉ (spared line s).badLines := by
  simp [spared]

/-- The retired line reads zero, and every other byte is what it was. -/
theorem memGet_spared (line a : Nat) (s : State) : memGet (spared line s).mem a = if a / 64 = line then 0 else memGet s.mem a := by
  have hline : line * 64 ≤ a ∧ a < line * 64 + 64 ↔ a / 64 = line := by omega
  simp only [spared, memGet_memClear, hline]

/-- An event that is recorded and audited leaves memory and its bad lines, and adds one audit record. -/
theorem auditEvent_record (event tag r code part core : Nat) (d0 d1 : Word) (s : State) :
    let t := auditEvent event tag (record r code part core d0 d1 s)
    t.badLines = s.badLines ∧ t.mem = s.mem ∧ t.io.auditSeq = s.io.auditSeq + 1 := by
  intro t
  obtain ⟨l, k, ht⟩ := auditEvent_frame event tag (record r code part core d0 d1 s)
  have hseq : (record r code part core d0 d1 s).io.auditSeq = s.io.auditSeq := (keepsMem_onRecorder r _ s).auditSeq
  simp only [t, ht, record_badLines, record_mem, hseq, and_self]

/-- Settles O50, event by event: what keeps a line in a cluster cache is `evictable_iff`, and an eviction ends by forgetting the line. -/
theorem linesLeave : Obligations.LinesLeave := by
  unfold Obligations.LinesLeave
  refine ⟨fun cl line s hcl => ?cluster, fun cl line s hcl => ?die, fun core line s => ?updates, fun line s => ?retired⟩
  case cluster =>
    rw [exec_cacheEviction_cluster hcl]
    refine ⟨fun hstays => congrArg _ (if_neg ?_), fun hline hgoes => ?_⟩
    · rw [Bool.and_eq_true, evictable_iff]
      rintro ⟨hline, hgoes⟩
      rcases hstays with hkept | hnone
      · exact hgoes hkept
      · simp [hnone] at hline
    · rw [if_pos (Bool.and_eq_true_iff.mpr ⟨hline, evictable_iff.mpr hgoes⟩)]
      exact ⟨_, rfl, lineAt_forgetLine cl line _, fun c => not_mem_l1d_forgetLine⟩
  case die =>
    refine ⟨_, exec_cacheEviction_die hcl, ?_⟩
    split
    · exact ⟨rfl, rfl⟩
    · exact ⟨rfl, rfl⟩
  case updates =>
    refine ⟨_, exec_updateOnlyEviction core line s, onCore_mem _ _ _, upd_withoutUpdates core line s, ?_⟩
    rw [onCore_partials]
  case retired =>
    refine ⟨exec_lineRetirement_sound, fun phys part gid => ⟨fun hsound => ?_, fun hbad => ?_⟩, fun hbad => ?_⟩
    · rw [exec_lineRetirement_local, hsound]
      rfl
    · rw [exec_lineRetirement_local, hbad]
      rfl
    · obtain ⟨hlines, hmem, hseq⟩ := auditEvent_record 0x0009 0xFF (if isDram (line * 64) then homeDie (line * 64) else 4) 0x004 0
        0x3FFF (BitVec.ofNat 64 (line * 64)) 0 (spared line s)
      refine ⟨_, exec_lineRetirement_bad hbad, ?_, fun a => ?_, hseq⟩
      · rw [hlines]
        exact not_mem_badLines_spared line s
      · rw [hmem, memGet_spared]

end Sys2Proof.Machine
end

section
/-!
SUPPORT. The instruction traps and the return from a trap (R163, R165).
-/

namespace Sys2Proof.Machine

open Sys2Proof.Safety

variable {f : InstrInfo} {s t s1 s2 : State} {a : Reg} {wa : Bool} {cause : BitVec 8} {eval epc : Word} {b : List Byte}

/-! ### trap, svc and brk -/

/-- What the entry of an instruction trap asks for (R162): a task's context with no value on its way to s1 to s4, whose frame is not
busy and can be written once the context has issued. -/
structure TrapEnters (s : State) (cause : BitVec 8) (eval epc : Word) (t : State) : Prop where
  noProds : producersOf s [1, 2, 3, 4] = false
  task : privOf (curCtx s).status = 0
  notBusy : s.core.frames.getLsbD (curIdx s) = false
  saved : saveWrite s.core.phys (curIdx s) (frameAddr s.core (curIdx s))
    (frameBytes (curCtx s) (curCtx s).status epc (cause.zeroExtend 64) eval 0) (beginEntry ⟨cause, eval, 0⟩ epc (noteTurn s)) = .ok () t

/-- The handler's state after an instruction trap. -/
def trapped (s : State) (cause : BitVec 8) (eval epc : Word) (t : State) : State :=
  inHandler (curIdx s) (frameAddr s.core (curIdx s)) cause eval 0 epc t

/-- A trap for another cause than 0x1A, taken by a context that has issued, saves STATUS as it is. -/
theorem takeTrap_issued (h : TrapEnters s cause eval epc t) (hcause : cause ≠ 0x1A) :
    takeTrap cause eval 0 epc (noteTurn s) = .ok () (trapped s cause eval epc t) := by
  obtain ⟨k, hk⟩ := noteTurn_core s
  have hfa : frameAddr (noteTurn s).core (curIdx s) = frameAddr s.core (curIdx s) := by rw [hk]; rfl
  have hsaved : saveWrite (noteTurn s).core.phys (curIdx (noteTurn s)) (frameAddr (noteTurn s).core (curIdx (noteTurn s)))
      (frameBytes (curCtx (noteTurn s)) (savedStatus cause (curCtx (noteTurn s))) epc (cause.zeroExtend 64) eval 0)
      (beginEntry ⟨cause, eval, 0⟩ epc (noteTurn s)) = .ok () t := by
    rw [curIdx_noteTurn, curCtx_noteTurn, hfa, hk, savedStatus, if_neg hcause]
    exact h.saved
  rw [takeTrap_enters ((producersOf_congr (by simp)).trans h.noProds) (by simpa using h.task)
    (by rw [curIdx_noteTurn, hk]; exact h.notBusy) hsaved, curIdx_noteTurn, hfa]
  rfl

/-- trap and svc end with the entry of their trap, whose EPC is the next instruction (R165). -/
theorem trapBody_enters (ha : Readable s a) (hcause : cause ≠ 0x1A)
    (h : TrapEnters s cause (regVal s a) ((curCtx s).pc + 4) t) :
    trapBody cause a wa s = .error .done (trapped s cause (regVal s a) ((curCtx s).pc + 4) t) := by
  unfold trapBody
  rw [bind_ok (readS_ok ha wa), modify_bind, get_bind, curCtx_noteTurn, bind_ok (takeTrap_issued h hcause)]
  rfl

/-- An instruction whose body has set the state itself leaves that state. -/
theorem runJump_done {body : Act Unit} (hi : MayIssue f s) (hb : body s = .error .done t) : runJump f body s = .next t :=
  runJump_stops hi hb

theorem exec_trap (hf : frameOf (.trap a wa) = some f) (hi : MayIssue f s) (ha : Readable s a)
    (h : TrapEnters s 0x1D (regVal s a) ((curCtx s).pc + 4) t) :
    exec (.trap a wa) s = .next (trapped s 0x1D (regVal s a) ((curCtx s).pc + 4) t) := by
  cases hf
  exact runJump_done hi (trapBody_enters ha (by decide) h)

theorem exec_svc (hf : frameOf (.svc a wa) = some f) (hi : MayIssue f s) (ha : Readable s a)
    (h : TrapEnters s 0x1C (regVal s a) ((curCtx s).pc + 4) t) :
    exec (.svc a wa) s = .next (trapped s 0x1C (regVal s a) ((curCtx s).pc + 4) t) := by
  cases hf
  exact runJump_done hi (trapBody_enters ha (by decide) h)

/-- brk ends with the entry of its trap, whose EPC is its own address (R165). -/
theorem exec_brk (hf : frameOf .brk = some f) (hi : MayIssue f s) (h : TrapEnters s 0x1B 0 (curCtx s).pc t) :
    exec .brk s = .next (trapped s 0x1B 0 (curCtx s).pc t) := by
  cases hf
  refine runJump_done hi ?_
  rw [modify_bind, get_bind, curCtx_noteTurn, bind_ok (takeTrap_issued h (by decide))]
  rfl

/-- A handler begins without a pending format (R162). -/
theorem enterHandler_noPfx (tvec frame einfo : Word) (x : Ctx) :
    hasPfx (enterHandler tvec frame cause eval einfo epc x) = false := by
  simp [hasPfx, enterHandler_status]

/-- What the saved registers of an instruction trap hold (R162). -/
theorem trapped_saved (s : State) (cause : BitVec 8) (eval epc : Word) (t : State) : let x := curCtx (trapped s cause eval epc t)
    x.pc = t.core.tvec ∧ x.cause = cause.zeroExtend 64 ∧ x.epc = epc ∧ x.eval = eval ∧ privOf x.status = 1 ∧ hasPfx x = false ∧
      x.regs[1] = frameAddr s.core (curIdx s) ∧ x.regs[3] = eval := by
  intro x
  have hx : x = enterHandler t.core.tvec (frameAddr s.core (curIdx s)) cause eval 0 epc (curCtx t) := curCtx_inHandler ..
  obtain ⟨hframe, -, heval, -⟩ := enterHandler_regs_saved (cause := cause) (eval := eval) (einfo := 0) (epc := epc) t.core.tvec
    (frameAddr s.core (curIdx s)) (curCtx t)
  rw [hx]
  exact ⟨enterHandler_pc .., enterHandler_cause .., enterHandler_epc .., enterHandler_eval .., enterHandler_priv ..,
    enterHandler_noPfx .., hframe, heval⟩

/-! ### eret -/

/-- What an eret that resumes asks for (R163): a busy frame that can be read and holds DISP 0 and a legal STATUS, no value on its way
to s1 to s4, and a write of BUSY that can be made. -/
structure Resumes (s s1 : State) (b : List Byte) (s2 t : State) : Prop where
  busy : frameBusy (curIdx s) s = .ok true s1
  frame : saveRead s.core.phys (curIdx s) (frameAddr s.core (curIdx s)) 128 s1 = .ok b s2
  disp : leNat (slice b 48 4) = 0
  legal : statusOk (isHelper s) (wordAt b 0) = true
  noProds : producersOf s2 [1, 2, 3, 4] = false
  cleared : clearBusy (curIdx s) b s2 = .ok () t

theorem eretBody_resumes (h : Resumes s s1 b s2 t) : eretBody s = .ok () (onCur (resumeFrom b) t) := by
  obtain ⟨hbusy, hframe, hdisp, hlegal, hprods, hcleared⟩ := h
  unfold eretBody
  rw [get_bind, bind_ok hbusy]
  simp only [Bool.not_true, Bool.false_eq_true, if_false, bind_ok hframe, hdisp, hlegal, get_bind, hprods, bind_ok hcleared]
  rfl

/-- eret leaves what its frame holds, but for what an instruction that completes clears (R163). -/
theorem exec_eret_resumes (hf : frameOf .eret = some f) (hi : MayIssue f s) (h : Resumes s s1 b s2 t) :
    exec .eret s = .next (retire { len := 4, priv := 1 } (onCur (resumeFrom b) t)) := by
  cases hf
  exact runJump_ok hi (eretBody_resumes h)

/-- The presence bits of s1 to s4 are bits 7:4 of the frame's second word of control (R162). -/
theorem resumeFrom_pres (b : List Byte) (x : Ctx) (k : Fin 4) : (resumeFrom b x).pres.getLsbD (k.val + 1) =
    (BitVec.ofNat 32 (leNat (slice b 52 4))).getLsbD (k.val + 4) := by
  have hmask : ∀ k : Fin 4, (~~~0x1E#32).getLsbD (k.val + 1) = false := by decide
  have hbit : ∀ w : Nat, (w / 16 % 16 * 2).testBit (k.val + 1) = w.testBit (k.val + 4) := by
    intro w
    rw [Nat.testBit_succ, Nat.mul_div_cancel _ (by decide), show 16 = 2 ^ 4 from rfl, Nat.testBit_mod_two_pow,
      Nat.testBit_div_two_pow]
    simp
  have h1 : k.val + 1 < 32 := by omega
  have h4 : k.val + 4 < 32 := by omega
  simp only [resumeFrom, BitVec.getLsbD_or, BitVec.getLsbD_and, hmask, Bool.and_false, Bool.false_or, BitVec.getLsbD_ofNat, h1, h4,
    decide_true, Bool.true_and, hbit]

theorem resumeFrom_regs (b : List Byte) (x : Ctx) : (resumeFrom b x).regs[1] = wordAt b 56 ∧ (resumeFrom b x).regs[2] = wordAt b 64 ∧
    (resumeFrom b x).regs[3] = wordAt b 72 ∧ (resumeFrom b x).regs[4] = wordAt b 80 ∧
    ∀ n : Reg, 4 < n.val → (resumeFrom b x).regs[n] = x.regs[n] := by
  refine ⟨by simp [resumeFrom], by simp [resumeFrom], by simp [resumeFrom], by simp [resumeFrom], fun n hn => ?_⟩
  have hother : ∀ m : Nat, m ≤ 4 → m ≠ n.val := fun m hm => by omega
  simp [resumeFrom, Fin.getElem_fin, hother]

/-- What a resumed context holds (R163). -/
theorem resumed_holds (b : List Byte) (t : State) :
    let x := curCtx (retire { len := 4, priv := 1 } (onCur (resumeFrom b) t))
    x.status = wordAt b 0 ∧ x.fmt = wordAt b 40 ∧ x.pc = wordAt b 8 &&& ~~~1#64 ∧ x.regs[1] = wordAt b 56 ∧ x.regs[2] = wordAt b 64 ∧
      x.regs[3] = wordAt b 72 ∧ x.regs[4] = wordAt b 80 ∧
      (∀ k : Fin 4, x.pres.getLsbD (k.val + 1) = (BitVec.ofNat 32 (leNat (slice b 52 4))).getLsbD (k.val + 4)) ∧
      (∀ n : Reg, 4 < n.val → x.regs[n] = (curCtx t).regs[n]) := by
  intro x
  have hx : x = { resumeFrom b (curCtx t) with await := .nothing, stalled := false, party := false } := by
    simp only [x, curCtx_retire, curCtx_onCur, if_true]
  obtain ⟨h1, h2, h3, h4, hrest⟩ := resumeFrom_regs b (curCtx t)
  rw [hx]
  exact ⟨rfl, rfl, rfl, h1, h2, h3, h4, resumeFrom_pres b (curCtx t), hrest⟩

/-- Settles O15: each of the three traps ends with the entry of its trap, and eret with the context of its frame. -/
theorem trapInstructionsAndReturn : Obligations.TrapInstructionsAndReturn := by
  unfold Obligations.TrapInstructionsAndReturn
  refine ⟨fun i f cause eval epc s t hf hi hinstr hprods htask hbusy hsaved => ?_,
    fun f s s1 s2 t b hf hi hbusy hframe hdisp hlegal hprods hcleared => ?_⟩
  · have henter : TrapEnters s cause eval epc t := ⟨hprods, htask, hbusy, hsaved⟩
    have hexec : exec i s = .next (trapped s cause eval epc t) := by
      obtain ⟨a, wa, rfl, ha, rfl, rfl, rfl⟩ | ⟨a, wa, rfl, ha, rfl, rfl, rfl⟩ | ⟨rfl, rfl, rfl, rfl⟩ := hinstr
      · exact exec_trap hf hi ha henter
      · exact exec_svc hf hi ha henter
      · exact exec_brk hf hi henter
    exact ⟨_, hexec, trapped_saved s cause eval epc t⟩
  · exact ⟨_, exec_eret_resumes hf hi ⟨hbusy, hframe, hdisp, hlegal, hprods, hcleared⟩, resumed_holds b t⟩

end Sys2Proof.Machine
end

section
/-!
SUPPORT. The watchdog, slices and grace periods (R167, R330, R432), and the quantum barrier (R332, R388).
-/

namespace Sys2Proof.Machine

open Sys2Proof.Safety

variable {s : State} {core tag n : Nat} {r : Running} {p : Partition} {next : Option Nat}

/-! ### The watchdog and the forced yield -/

@[simp] theorem abortTxn_phys (reason cause : Nat) (c : Core) : (abortTxn reason cause c).phys = c.phys := by
  unfold abortTxn; split <;> rfl

@[simp] theorem abortTxn_run (reason cause : Nat) (c : Core) : (abortTxn reason cause c).run = c.run := by
  unfold abortTxn; split <;> rfl

/-- After an abort no transaction is open. -/
@[simp] theorem abortTxn_txn (reason cause : Nat) (c : Core) : (abortTxn reason cause c).txn = none := by
  unfold abortTxn; split <;> simp_all

/-- The forced yield of a core was begun by the watchdog. -/
def yieldExpired (c : Core) : Core := { c with yield := c.yield.map (fun y => { y with expired := true }) }

theorem exec_watchdogExpiry (hrun : (coreAt s core).run = some r) (hwdog : (coreAt s core).wdog = 0)
    (hres : (coreAt s core).resume = none) (hyield : (coreAt s core).yield = none) : exec (.watchdogExpiry core) s =
      .next (if handlerRuns (coreAt s core) then failTask core 0x20 s
        else tryYield core (onCore core yieldExpired (beginYield core s))) := by
  refine (show exec (.watchdogExpiry core) s = execWatchdogExpiry core s from rfl).trans ?_
  simp only [execWatchdogExpiry, hrun, hwdog, hres, hyield, Option.isNone_some, Option.isSome_none, ne_eq, not_true_eq_false,
    decide_false, Bool.or_false, Bool.false_eq_true, if_false, Option.any_none]
  rfl

/-- The beginning of a forced yield by a core that runs a task (R167, step 1). -/
theorem coreAt_beginYield (hrun : (coreAt s core).run = some r) (hyield : (coreAt s core).yield = none) :
    coreAt (beginYield core s) core = { abortTxn 8 0 (coreAt s core) with yield := some ⟨0, false⟩ } := by
  unfold beginYield
  rw [coreAt_onCore fun c => by split <;> simp]
  simp [hrun, hyield]

/-- A forced yield that is not ready waits (R167, steps 2 and 3). -/
theorem tryYield_waits (h : yieldReady (coreAt s core) = false) : tryYield core s = s := by
  simp [tryYield, h]

/-- What the expiry of the watchdog leaves while the yield that it begins must wait. -/
theorem watchdog_yield_waits (hrun : (coreAt s core).run = some r) (hyield : (coreAt s core).yield = none)
    (hwait : yieldReady (coreAt (beginYield core s) core) = false) :
    let t := tryYield core (onCore core yieldExpired (beginYield core s))
    (coreAt t core).yield = some ⟨0, true⟩ ∧ (coreAt t core).txn = none ∧ (coreAt t core).run = some r := by
  have hcore : coreAt (onCore core yieldExpired (beginYield core s)) core = yieldExpired (coreAt (beginYield core s) core) :=
    coreAt_onCore (f := yieldExpired) (fun _ => rfl) core _
  intro t
  have ht : t = onCore core yieldExpired (beginYield core s) := tryYield_waits (by rw [hcore]; exact hwait)
  rw [ht, hcore, coreAt_beginYield hrun hyield]
  exact ⟨rfl, abortTxn_txn .., (abortTxn_run ..).trans hrun⟩

theorem exec_yieldWaitLimit {y : Yield} (hyield : (coreAt s core).yield = some y) (hwaits : yieldWaits (coreAt s core) = true) :
    exec (.yieldWaitLimit core) s = .next (if 65536 ≤ y.waited then failTask core 0x20 s else s) := by
  refine (show exec (.yieldWaitLimit core) s = execYieldWaitLimit core s from rfl).trans ?_
  simp [execYieldWaitLimit, hyield, hwaits]

/-! ### Slices and grace periods -/

/-- The grace period of a core has begun, and it goes to a partition next (R330). -/
def inGrace (g : Nat) (next : Option Nat) (c : Core) : Core := { c with grace := some g, slice := next }

theorem exec_sliceEnd (hgrace : (coreAt s core).grace = none) (hnext : next = nextServed (coreAt s core))
    (hother : next ≠ (coreAt s core).part) (hover : sliceOver s (coreAt s core) = true)
    (hp : partAt s (corePart (coreAt s core)) = some p) :
    exec (.sliceEnd core next) s = .next (onCore core (inGrace p.grace.toNat next) s) := by
  refine (show exec (.sliceEnd core next) s = execSliceEnd core next s from rfl).trans ?_
  simp only [execSliceEnd, ← hnext, ne_eq, not_true_eq_false, hother, hgrace, hover, hp, decide_false, Option.isSome_none, Bool.not_true,
    Bool.or_self, Bool.false_eq_true, if_false]
  rfl

/-- A slice of which some is left is not over. -/
theorem sliceOver_early (htag : (coreAt s core).part = some tag) (hlen : sliceLen s tag (coreAt s core).phys = some n)
    (hearly : s.time < (coreAt s core).sliceFrom + n) : sliceOver s (coreAt s core) = false := by
  simp [sliceOver, htag, hlen, hearly]

theorem exec_sliceEnd_early (h : sliceOver s (coreAt s core) = false) : exec (.sliceEnd core next) s = .next s := by
  refine (show exec (.sliceEnd core next) s = execSliceEnd core next s from rfl).trans ?_
  simp [execSliceEnd, h]

theorem exec_graceExpiry {g : Nat} (hgrace : (coreAt s core).grace = some g) (hres : (coreAt s core).resume = none) :
    exec (.graceExpiry core) s = .next (
      if (coreAt s core).run.isNone then (if (coreAt s core).pend.any (·.blocked core s) then s else switchPart core s)
      else if g = 0 then tryYield core (beginYield core s) else s) := by
  refine (show exec (.graceExpiry core) s = execGraceExpiry core s from rfl).trans ?_
  simp only [execGraceExpiry, hgrace, hres, Option.isNone_none, Bool.and_true, decide_eq_true_eq]

/-- No access waits on a core. -/
def withoutPend (c : Core) : Core := { c with pend := [] }

theorem performAll_nothing (hpend : (coreAt s core).pend = []) : performAll core s = onCore core withoutPend s := by
  simp only [performAll, hpend]
  rfl

/-- A core that holds nothing back goes to its next partition with an empty L1 (R432). -/
theorem switchPart_quiet (hpend : (coreAt s core).pend = []) (hstash : (coreAt s core).stashLines = []) :
    let d := coreAt (switchPart core s) core
    d.part = (coreAt s core).slice ∧ d.grace = none ∧ d.slice = none ∧ d.l1d = [] ∧ d.icache = [] ∧
      (switchPart core s).mem = s.mem := by
  have hcore : coreAt (onCore core withoutPend s) core = withoutPend (coreAt s core) :=
    coreAt_onCore (f := withoutPend) (fun _ => rfl) core s
  have hlines : (coreAt (onCore core withoutPend s) core).stashLines = [] := by rw [hcore]; exact hstash
  unfold switchPart
  simp only [performAll_nothing hpend, hlines, List.foldl_nil, onCore_mem, and_true]
  rw [coreAt_onCore (by intro c; split <;> split <;> rfl), hcore]
  split <;> split <;> exact ⟨rfl, rfl, rfl, rfl, rfl⟩

/-! ### The quantum barrier -/

/-- A core has arrived at the quantum barrier (R332). -/
def withBarrier (c : Core) : Core := { c with atBarrier := true }

theorem exec_qntExpiry (hp : partAt s (corePart (coreAt s core)) = some p) (hq : quantumRules p = true)
    (hqnt : (coreAt s core).qnt = 0) : exec (.qntExpiry core) s = .next (onCore core withBarrier s) := by
  refine (show exec (.qntExpiry core) s = execQntExpiry core s from rfl).trans ?_
  simp only [execQntExpiry, hp, Option.any_some, hq, hqnt, decide_true, Bool.and_self, if_true]
  rfl

theorem quantumDue_iff (hq : quantumRules p = true) : quantumDue s p = true ↔
    (∀ x ∈ coresInOrder s p, coreArrived (coreAt s x.2) = true) ∧ ∀ (d : Fin 4), ∀ q ∈ (s.dies.get d).proxies, q.part ≠ p.tag := by
  simp [quantumDue, hq]

/-- A quantum end that is due applies what the quantum held, up to the first of it that must wait (R332). -/
theorem exec_quantumEnd_due {ok : Bool} {u : State} (hp : partAt s tag = some p) (hlive : p.state ≠ 3) (hdue : quantumDue s p = true)
    (hend : endQuantum p s = (ok, u)) :
    exec (.quantumEnd tag) s = .next (if ok then beginQuantum tag (tickDue tag u) else u) := by
  refine (show exec (.quantumEnd tag) s = execQuantumEnd tag s from rfl).trans ?_
  cases ok <;> simp [execQuantumEnd, hp, hlive, hdue, hend]

theorem exec_quantumEnd_early (hp : partAt s tag = some p) (h : p.state = 3 ∨ quantumDue s p = false) :
    exec (.quantumEnd tag) s = .next s := by
  refine (show exec (.quantumEnd tag) s = execQuantumEnd tag s from rfl).trans ?_
  rcases h with h | h <;> simp [execQuantumEnd, hp, h]

end Sys2Proof.Machine
end

section
/-!
SUPPORT. The dispatcher's scan of the overflow watches of a partition (R392).
-/

namespace Sys2Proof.Machine

open Sys2Proof.Safety

variable {s t u : State} {tag : Nat} {p : Partition}

/-- A partition keeps its tag, and its overflow area holds no watch that it did not hold before. -/
def FewerWatches (p q : Partition) : Prop := q.tag = p.tag ∧ q.ovfWatches ⊆ p.ovfWatches

/-- Every partition is still there, with no more overflow watches than before. -/
def WatchesShrink (s t : State) : Prop := ∃ f : Partition → Partition, (∀ p, FewerWatches p (f p)) ∧ t.parts = s.parts.map f

theorem fewerWatches_of_eq {p q : Partition} (htag : q.tag = p.tag) (hw : q.ovfWatches = p.ovfWatches) : FewerWatches p q :=
  ⟨htag, hw ▸ List.Subset.refl _⟩

theorem watchesShrink_of_parts (h : t.parts = s.parts) : WatchesShrink s t :=
  ⟨id, fun _ => fewerWatches_of_eq rfl rfl, by rw [h, List.map_id]⟩

theorem WatchesShrink.trans (h : WatchesShrink s t) (h' : WatchesShrink t u) : WatchesShrink s u := by
  obtain ⟨f, hf, hparts⟩ := h
  obtain ⟨g, hg, hparts'⟩ := h'
  exact ⟨g ∘ f, fun p => ⟨(hg _).1.trans (hf p).1, List.Subset.trans (hg _).2 (hf p).2⟩, by rw [hparts', hparts, List.map_map]⟩

theorem WatchesShrink.foldl {α : Type} {f : State → α → State} (hf : ∀ s x, WatchesShrink s (f s x)) :
    ∀ (l : List α) (s : State), WatchesShrink s (l.foldl f s)
  | [], _ => watchesShrink_of_parts rfl
  | x :: l, s => (hf s x).trans (WatchesShrink.foldl hf l (f s x))

theorem watchesShrink_onPart {f : Partition → Partition} (hf : ∀ p, FewerWatches p (f p)) (tag : Nat) (s : State) :
    WatchesShrink s (onPart tag f s) := by
  refine ⟨fun p => if p.tag == tag then f p else p, fun p => ?_, rfl⟩
  dsimp only
  split
  · exact hf p
  · exact fewerWatches_of_eq rfl rfl

/-- A partition is found again, with no more overflow watches than before. -/
theorem WatchesShrink.found (h : WatchesShrink s t) (hp : partAt s tag = some p) :
    ∃ q, partAt t tag = some q ∧ q.ovfWatches ⊆ p.ovfWatches := by
  obtain ⟨f, hf, hparts⟩ := h
  refine ⟨f p, ?_, (hf p).2⟩
  rw [partAt, hparts, findBy_map fun q => (hf q).1]
  exact congrArg (Option.map f) hp

/-- Where no overflow watch is left there is none afterwards. -/
theorem WatchesShrink.none_left (h : WatchesShrink s t) (hs : ∀ p ∈ s.parts, p.ovfWatches = []) :
    ∀ q ∈ t.parts, q.ovfWatches = [] := by
  obtain ⟨f, hf, hparts⟩ := h
  intro q hq
  rw [hparts] at hq
  obtain ⟨p, hp, rfl⟩ := List.mem_map.mp hq
  exact List.subset_nil.mp (hs p hp ▸ (hf p).2)

/-! ### A continuation is readied, and the tables are filled -/

theorem watchesShrink_readyPush {cl : Nat} {e : ReadyEntry} (h : readyPush cl e s = some t) : WatchesShrink s t := by
  unfold readyPush at h
  split at h
  · cases h
    exact watchesShrink_of_parts rfl
  · split at h
    · cases h
    · split at h
      · cases h
        exact watchesShrink_onPart (fun _ => by exact fewerWatches_of_eq rfl rfl) _ _
      · cases h

theorem watchesShrink_readyContinuation (e : ReadyEntry) (s : State) : WatchesShrink s (readyContinuation e s) := by
  unfold readyContinuation
  split
  · exact watchesShrink_readyPush ‹_›
  · have hrefused : WatchesShrink s (hardwareRefused e.part e.launch 0x09 e.addr s) :=
      (watchesShrink_of_parts (record_parts ..)).trans (watchesShrink_onPart (fun _ => by exact fewerWatches_of_eq rfl rfl) _ _)
    have hdown (u : State) : WatchesShrink u (popDown e.part e.launch u) :=
      watchesShrink_onPart (fun _ => by exact fewerWatches_of_eq rfl rfl) _ _
    exact (hrefused.trans (hdown _)).trans (watchesShrink_onPart (fun _ => by exact fewerWatches_of_eq rfl rfl) _ _)

theorem watchesShrink_refillWatches (cl : Nat) (s : State) : WatchesShrink s (refillWatches cl s) := by
  unfold refillWatches
  refine WatchesShrink.foldl (fun u w => ?_) _ s
  have herase : WatchesShrink u (onPart w.entry.part (fun p => { p with ovfWatches := p.ovfWatches.erase w }) u) :=
    watchesShrink_onPart (fun _ => by exact ⟨rfl, List.erase_subset⟩) _ _
  dsimp only
  split
  · exact watchesShrink_of_parts rfl
  · split
    · exact herase.trans (watchesShrink_readyContinuation _ _)
    · exact herase.trans (watchesShrink_of_parts rfl)

/-- Where no overflow watch is left a table takes none (R392). -/
theorem refillWatches_none (h : ∀ p ∈ s.parts, p.ovfWatches = []) (cl : Nat) : refillWatches cl s = s := by
  have hall : (s.parts.flatMap fun p => p.ovfWatches.filter fun w => clusterOf (w.entry.phys.getD 0) == cl) = [] := by
    rw [List.flatMap_eq_nil_iff]
    intro p hp
    rw [h p hp, List.filter_nil]
  simp only [refillWatches, hall]
  rfl

theorem refillAll_none (h : ∀ p ∈ s.parts, p.ovfWatches = []) : ∀ l : List Nat, l.foldl (fun s cl => refillWatches cl s) s = s
  | [] => rfl
  | cl :: l => by rw [List.foldl_cons, refillWatches_none h, refillAll_none h l]

/-! ### The scan -/

/-- The overflow watches of a partition that the scan finds to hold. -/
def watchesHit (s : State) (p : Partition) : List Watch := p.ovfWatches.filter (fun w => !w.entry.det && overflowHolds s w)

theorem mem_watchesHit {w : Watch} : w ∈ watchesHit s p ↔ w ∈ p.ovfWatches ∧ w.entry.det = false ∧ overflowHolds s w = true := by
  simp [watchesHit]

/-- The partition without watches. -/
def dropWatches (hit : List Watch) (p : Partition) : Partition :=
  { p with ovfWatches := p.ovfWatches.filter (fun w => !hit.contains w) }

theorem exec_overflowWatchScan (hp : partAt s tag = some p) : exec (.overflowWatchScan tag) s = .next (
    let t := (watchesHit s p).foldl (fun s w => readyContinuation w.entry s) (onPart tag (dropWatches (watchesHit s p)) s)
    (t.clusters.map Cluster.id).foldl (fun s cl => refillWatches cl s) t) := by
  refine (show exec (.overflowWatchScan tag) s = execOverflowWatchScan tag s from rfl).trans ?_
  simp only [execOverflowWatchScan, hp]
  rfl

/-- The watches that hold have left the overflow area, and none comes back. -/
theorem overflowWatchScan_leaves (hp : partAt s tag = some p) : ∃ t q, exec (.overflowWatchScan tag) s = .next t ∧
    partAt t tag = some q ∧ ∀ w ∈ watchesHit s p, w ∉ q.ovfWatches := by
  have hdrop : partAt (onPart tag (dropWatches (watchesHit s p)) s) tag = some (dropWatches (watchesHit s p) p) := by
    rw [partAt_onPart (f := dropWatches (watchesHit s p)) (fun _ => rfl), hp]
    rfl
  have hready := WatchesShrink.foldl (fun u (w : Watch) => watchesShrink_readyContinuation w.entry u) (watchesHit s p)
    (onPart tag (dropWatches (watchesHit s p)) s)
  obtain ⟨q, hq, hsub⟩ := (hready.trans (WatchesShrink.foldl (fun u cl => watchesShrink_refillWatches cl u) _ _)).found hdrop
  refine ⟨_, q, exec_overflowWatchScan hp, hq, fun w hw hmem => ?_⟩
  have := hsub hmem
  simp [dropWatches, hw] at this

/-- The scan of the only partition, whose one overflow watch holds, readies its continuation and does nothing else. -/
theorem overflowWatchScan_single {w : Watch} (hp : partAt s tag = some p) (hone : p.ovfWatches = [w]) (hparts : s.parts = [p])
    (hdet : w.entry.det = false) (hholds : overflowHolds s w = true) : exec (.overflowWatchScan tag) s =
      .next (readyContinuation w.entry (onPart tag (fun p => { p with ovfWatches := [] }) s)) := by
  have hhit : watchesHit s p = [w] := by simp [watchesHit, hone, hdet, hholds]
  have hdrop : onPart tag (dropWatches [w]) s = onPart tag (fun p => { p with ovfWatches := [] }) s := by
    simp [onPart, modifyWhere, hparts, dropWatches, hone]
  have hempty : ∀ q ∈ (onPart tag (fun p => { p with ovfWatches := [] }) s).parts, q.ovfWatches = [] := by
    simp [onPart, modifyWhere, hparts, partAt_tag hp]
  have hnone := (watchesShrink_readyContinuation w.entry _).none_left hempty
  rw [exec_overflowWatchScan hp, hhit, hdrop]
  exact congrArg Host.Outcome.next (refillAll_none hnone _)

/-- Settles O45, event by event. -/
theorem tasksArePreempted : Obligations.TasksArePreempted := by
  unfold Obligations.TasksArePreempted
  refine ⟨⟨fun core r s => ?watchdog, fun core y s => exec_yieldWaitLimit, fun core next p s => ?slice, fun core tag n next s => ?early,
    fun core g s => ?grace⟩, ⟨fun core p s => ?qnt, fun part p s => ?quantum⟩, fun part p s => ?overflow⟩
  case watchdog =>
    intro c hrun hwdog hres hyield
    have hexec := exec_watchdogExpiry hrun hwdog hres hyield
    refine ⟨fun h => by rw [hexec, if_pos h], fun h => by rw [hexec, h]; rfl, fun h hwait => ⟨_, hexec, ?_⟩⟩
    rw [h]
    exact watchdog_yield_waits hrun hyield hwait
  case slice =>
    intro c hgrace hnext hother hover hp
    refine ⟨_, exec_sliceEnd hgrace hnext hother hover hp, ?_⟩
    rw [coreAt_onCore (f := inGrace p.grace.toNat next) (fun _ => rfl)]
    exact ⟨rfl, rfl, rfl, rfl, onCore_mem _ _ _⟩
  case early =>
    intro c htag hlen hearly
    exact exec_sliceEnd_early (sliceOver_early htag hlen hearly)
  case grace =>
    intro c hgrace hres
    have hexec := exec_graceExpiry hgrace hres
    refine ⟨fun hrun => ?_, fun hrun hpend hstash => ⟨_, hexec, ?_⟩⟩
    · rw [hexec, Option.isNone_eq_false_iff.mpr hrun]
      rfl
    · rw [if_pos (Option.isNone_iff_eq_none.mpr hrun), show (coreAt s core).pend = [] from hpend, if_neg (by simp)]
      exact switchPart_quiet hpend hstash
  case qnt =>
    intro hp hq hqnt
    refine ⟨_, exec_qntExpiry hp hq hqnt, ?_⟩
    rw [coreAt_onCore (f := withBarrier) (fun _ => rfl)]
    exact ⟨rfl, rfl, onCore_mem _ _ _⟩
  case quantum =>
    intro hp hq arrived
    have hdue : quantumDue s p = true ↔ arrived := by rw [quantumDue_iff hq, partAt_tag hp]
    refine ⟨fun u harr hlive hend => ?_, fun u harr hlive hend => ?_, fun h => ?_⟩
    · exact exec_quantumEnd_due hp hlive (hdue.mpr harr) hend
    · exact exec_quantumEnd_due hp hlive (hdue.mpr harr) hend
    · refine exec_quantumEnd_early hp (h.symm.imp_right fun hnot => ?_)
      rw [← Bool.not_eq_true, hdue]
      exact hnot
  case overflow =>
    intro hp
    refine ⟨?_, fun w => overflowWatchScan_single hp⟩
    obtain ⟨t, q, hexec, hq, hleft⟩ := overflowWatchScan_leaves hp
    exact ⟨t, q, hexec, hq, fun w hw hdet hholds => hleft w (mem_watchesHit.mpr ⟨hw, hdet, hholds⟩)⟩

end Sys2Proof.Machine
end

section
/-!
SUPPORT. bar on a word of an uncached page whose line the host may hold (R391, R397, R442).
-/

namespace Sys2Proof.Machine

open Sys2Proof.Safety

variable {s s1 : State} {p : Partition} {r : Running} {pl : Piece} {va : Word} {pa g : Nat}

/-! ### What bar waits for -/

theorem curPart_ok (hp : partAt s (corePart s.core) = some p) : curPart s = .ok p s := by
  unfold curPart
  rw [get_bind, hp]
  rfl

theorem curRun_ok (hrun : s.core.run = some r) : curRun s = .ok r s := by
  unfold curRun
  rw [get_bind, hrun]
  rfl

/-- No helper is live where HSTAT is read as 0 (R166). -/
theorem hstat_of_not_live {c : Core} (h : helpersLive c = false) : hstat c = 0 := by
  have hnone : ∀ k : Fin 10, (c.helpers.get k).live = false := by
    intro k
    exact Bool.eq_false_of_not_eq_true (Vector.any_eq_false.mp h k.val k.isLt)
  unfold hstat
  simp [hnone]

theorem contWaits_rest (h : AtRest s) : contWaits s = .ok () s := by
  obtain ⟨⟨hprods, hlocks, hengines, hchans, hdone⟩, hhelpers⟩ := h
  unfold contWaits
  rw [bind_ok (settleRegs_rest hprods hlocks)]
  simp [hengines, hchans, hdone, hstat_of_not_live hhelpers]

/-- A write at the home of a line that the host may hold asks for it and waits (R442). -/
theorem awaitHost_held {line : Nat} (h : line ∈ s.hostLines) : awaitHost line s = .error (.stall false) (backInvalidate line s) := by
  unfold awaitHost
  rw [get_bind, if_pos (List.contains_iff_mem.mpr h)]
  rfl

theorem awaitHosts_held (hplace : pl.place = .mem pa) (hc : pl.cacheable = false) (h : pa / 64 ∈ s.hostLines) :
    awaitHosts [pl] s = .error (.stall false) (backInvalidate (pa / 64) s) := by
  refine bind_error ?_
  simp only [hplace, hc, Bool.false_eq_true, if_false]
  exact awaitHost_held h

/-- The last arrival at a barrier word of an uncached page whose line the host may hold waits for the host, with nothing saved. -/
theorem barAct_awaitsHost {now : Nat × State} (hpiece : watchPiece va 8 s = .ok pl s1) (hp : partAt s1 (corePart s1.core) = some p)
    (hrun : s1.core.run = some r) (hdet : r.det = false) (hnow : watchNow s1.core.phys pl 8 s1 = now)
    (hsize : s1.core.gsize.toNat = g) (hpos : 0 < g) (hrest : barRemaining now.1 g = 1) (hroom : contRoom now.2 p s1.core.phys = true)
    (hplace : pl.place = .mem pa) (hc : pl.cacheable = false) (hhost : pa / 64 ∈ now.2.hostLines) :
    barAct va s = .error (.stall false) (backInvalidate (pa / 64) now.2) := by
  have hfew : ¬ g < 1 := by omega
  unfold barAct
  rw [bind_ok hpiece, bind_ok (curPart_ok hp), get_bind, bind_ok (curRun_ok hrun)]
  simp only [hdet, hnow, hsize, hrest, hfew, hroom, if_false, if_true, Bool.false_and, Bool.false_eq_true, Bool.not_true, set_bind]
  exact bind_error (awaitHosts_held hplace hc hhost)

theorem exec_bar_stops (hf : frameOf (.bar a w) = some f) (hi : MayIssue f s) (hs : AtRest s) (ha : Readable s a)
    (hbar : barAct (regVal s a) s = .error e t) : exec (.bar a w) s = .next (halt e t) := by
  cases hf
  refine runJump_stops hi ?_
  rw [bind_ok (contWaits_rest hs), bind_ok (readS_ok ha w)]
  exact hbar

theorem halt_stall_run (party : Bool) (s : State) : (halt (.stall party) s).core.run = s.core.run := onCur_core_run _ s

theorem backInvalidate_core (line : Nat) (s : State) : (backInvalidate line s).core = s.core := by
  unfold backInvalidate
  split <;> rfl

/-! ### The counterexample -/

/-- A member of a group of one, about to execute bar on the word at 0x1000: its page is uncached, the host may hold its line, and the
save area lies in the task's own local store. -/
def hostHeldBarrier : State :=
  let s := State.reset.withFetchWord 32 0
  { s with
    core := { s.core with
      ctl := { s.core.ctl with regs := s.core.ctl.regs.set 1 0x1000 }
      tlb := [{ openPage 0 0 1 1 with ty := 1 }]
      allocs := [⟨0, 1, 0, 0x10000, [], []⟩]
      saveptr := 0xFFFE000000000000
      gsize := 1 }
    hostLines := [0x40] }

/-- The piece of its barrier word. -/
def heldWord : Piece := ⟨.mem 0x1000, false, 8, 0x1000, false, false, 12⟩

/-- Its task, whose access of the word is noted in a region (R272). -/
def barMember : Running := { plainRun 0 with regions := [(0, some 0)] }

/-- The state that an act leaves, completed or stopped. -/
def leftBy (r : EStateM.Result Stop State α) : State :=
  match r with
  | .ok _ s => s
  | .error _ s => s

/-- The act completes with a value. -/
def gaveValue [DecidableEq α] (x : α) (r : EStateM.Result Stop State α) : Bool :=
  match r with
  | .ok y _ => y == x
  | .error .. => false

theorem ok_of_gaveValue [DecidableEq α] {x : α} {r : EStateM.Result Stop State α} (h : gaveValue x r = true) : r = .ok x (leftBy r) := by
  cases r with
  | ok y s => exact congrArg (EStateM.Result.ok · s) (eq_of_beq h)
  | error e s => cases h

/-- The state once the word's place is known. -/
def wordFound : State := leftBy (watchPiece 0x1000 8 hostHeldBarrier)

/-- The word as bar finds it, and the state then. -/
def wordSeen : Nat × State := watchNow 1 heldWord 8 wordFound

/-- The state once all is ready for the save. -/
def saveMayBegin : State := leftBy (saveReady .clus wordSeen.2)

/-- The place of the word is found, and the task goes on with it noted. -/
theorem wordFound_facts : gaveValue heldWord (watchPiece 0x1000 8 hostHeldBarrier) = true ∧ wordFound.core.phys = 1 ∧
    wordFound.core.gsize.toNat = 1 ∧ partAt wordFound (corePart wordFound.core) = some (newPartition 0 [1] [] 0 0 false []) ∧
    wordFound.core.run = some barMember := by decide +kernel

/-- The arrival is the last one, its continuation has room, and the host may hold the line. -/
theorem wordSeen_facts : barRemaining wordSeen.1 1 = 1 ∧ contRoom wordSeen.2 (newPartition 0 [1] [] 0 0 false []) 1 = true ∧
    0x1000 / 64 ∈ wordSeen.2.hostLines ∧ wordSeen.2.core.run = some barMember ∧ (curCtx wordSeen.2).pc + 4 = 4 := by decide +kernel

/-- The save can be made. -/
theorem saveMayBegin_facts : gaveValue () (saveReady .clus wordSeen.2) = true ∧ gaveValue () (leaveSaved 1 2 4 saveMayBegin) = true ∧
    (leftBy (leaveSaved 1 2 4 saveMayBegin)).core.phys = 1 := by decide +kernel

theorem wordFound_piece : watchPiece 0x1000 8 hostHeldBarrier = .ok heldWord wordFound := ok_of_gaveValue wordFound_facts.1

theorem wordSeen_eq : watchNow 1 heldWord 8 wordFound = wordSeen := rfl

theorem hostHeldBarrier_mayIssue : MayIssue taskInfo hostHeldBarrier := rfl

theorem hostHeldBarrier_readable : Readable hostHeldBarrier 1 := ⟨rfl, rfl, rfl⟩

theorem hostHeldBarrier_register : regVal hostHeldBarrier 1 = 0x1000 := rfl

/-- No copy channel is at work there, and no helper is live. -/
theorem hostHeldBarrier_alone : chansQuiet hostHeldBarrier.core = true ∧ helpersLive hostHeldBarrier.core = false := by decide +kernel

theorem hostHeldBarrier_atRest : AtRest hostHeldBarrier := by
  obtain ⟨hchans, hhelpers⟩ := hostHeldBarrier_alone
  exact ⟨⟨rfl, rfl, rfl, hchans, rfl⟩, hhelpers⟩

/-- bar there waits for the host, and its task keeps the core. -/
theorem hostHeldBarrier_bar : exec (.bar 1 false) hostHeldBarrier =
    .next (halt (.stall false) (backInvalidate (0x1000 / 64) wordSeen.2)) := by
  obtain ⟨-, hphys, hsize, hpart, hrun⟩ := wordFound_facts
  obtain ⟨hrest, hroom, hhost, -⟩ := wordSeen_facts
  refine exec_bar_stops rfl hostHeldBarrier_mayIssue hostHeldBarrier_atRest hostHeldBarrier_readable ?_
  rw [hostHeldBarrier_register]
  exact barAct_awaitsHost wordFound_piece hpart hrun rfl (hphys ▸ wordSeen_eq) hsize Nat.one_pos hrest (hphys ▸ hroom) rfl rfl hhost

/-- Refutes O28: bar on a word of an uncached page whose line the host may hold waits for the host (R442) before its task is saved;
the premises of its clause hold, and its task still has the core. -/
theorem not_waitsSaveTheTask : ¬ Obligations.WaitsSaveTheTask := by
  unfold Obligations.WaitsSaveTheTask
  rintro ⟨-, -, ⟨-, hbar⟩, -⟩
  obtain ⟨-, hphys, hsize, hpart, hrun⟩ := wordFound_facts
  obtain ⟨hrest, hroom, -, hkept, hpc⟩ := wordSeen_facts
  obtain ⟨hready, hsaved, hsavedPhys⟩ := saveMayBegin_facts
  obtain ⟨-, hclause⟩ := hbar 1 false taskInfo _ barMember hostHeldBarrier wordFound saveMayBegin _ heldWord rfl
    hostHeldBarrier_mayIssue hostHeldBarrier_atRest hostHeldBarrier_readable
  rw [hostHeldBarrier_register] at hclause
  obtain ⟨-, -, -, hsaves⟩ := hclause wordFound_piece hpart hrun
  simp only [hphys, wordSeen_eq, hsize, hrest, hpc] at hsaves
  obtain ⟨-, t, hexec, hfree, -⟩ := hsaves (fun hdet => by cases hdet) (Nat.le_refl 1) hroom (ok_of_gaveValue hready)
    (ok_of_gaveValue hsaved) hsavedPhys
  rw [hostHeldBarrier_bar] at hexec
  cases hexec
  rw [halt_stall_run, backInvalidate_core, hkept] at hfree
  cases hfree

end Sys2Proof.Machine
end

section
/-!
SUPPORT. Resets: what the boot measures, what a cold reset, a warm one and the loss of power leave, and the state after reset.
-/

namespace Sys2Proof.Machine
open Sys2Proof.Safety

/-! ### The boot (R449) -/

variable {key sig : List Byte} {items : List (List Byte)} {s : State}

/-- Item i of a boot, measured into a register (R449). -/
def extended (m item : List Byte) : List Byte := sha384 (m ++ sha384 item)

/-- The outcome of a boot from registers of zeros: the image is genuine or it is not, and the registers say what was measured (R449). -/
structure BootOutcome (key sig : List Byte) (items : List (List Byte)) (fuse : List Byte) (t : State) : Prop where
  booted : t.io.booted = true ↔ sha384 key = fuse ∧ ecdsaOk key sig (items.getD 1 []) = true
  measured : sha384 key = fuse ∧ ecdsaOk key sig (items.getD 1 []) = true →
    t.io.mr[0] = extended (List.replicate 48 0) (items.getD 0 []) ∧ t.io.mr[1] = extended (List.replicate 48 0) (items.getD 1 []) ∧
      t.io.mr[2] = [2, 3, 4, 5].foldl (fun m i => extended m (items.getD i [])) (List.replicate 48 0) ∧
      t.io.mr[3] = extended (List.replicate 48 0) (items.getD 6 []) ∧ t.io.mr[4] = extended (List.replicate 48 0) (items.getD 7 []) ∧
      t.io.mr[5] = List.replicate 48 0
  empty : ¬ (sha384 key = fuse ∧ ecdsaOk key sig (items.getD 1 []) = true) → ∀ i : Fin 8, t.io.mr[i] = List.replicate 48 0

/-- An item enters register i. -/
def enterItem (e : List Byte → List Byte → List Byte) (m : Vector (List Byte) 8) (i : Fin 8) (item : List Byte) : Vector (List Byte) 8 :=
  m.set i (e m[i] item)

/-- The items of a boot enter the registers (R449). -/
def enterItems (e : List Byte → List Byte → List Byte) (items : List (List Byte)) (m : Vector (List Byte) 8) : Vector (List Byte) 8 :=
  let m := enterItem e (enterItem e m 0 (items.getD 0 [])) 1 (items.getD 1 [])
  let m := [2, 3, 4, 5].foldl (fun m i => enterItem e m 2 (items.getD i [])) m
  enterItem e (enterItem e m 3 (items.getD 6 [])) 4 (items.getD 7 [])

theorem enterItems_zeros (e : List Byte → List Byte → List Byte) (items : List (List Byte)) (z : List Byte) :
    let m := enterItems e items (Vector.replicate 8 z)
    m[0] = e z (items.getD 0 []) ∧ m[1] = e z (items.getD 1 []) ∧ m[2] = [2, 3, 4, 5].foldl (fun m i => e m (items.getD i [])) z ∧
      m[3] = e z (items.getD 6 []) ∧ m[4] = e z (items.getD 7 []) ∧ m[5] = z := by
  simp [enterItems, enterItem]

theorem measure_eq (i : Fin 8) (item : List Byte) (s : State) :
    measure i item s = { s with io := { s.io with mr := enterItem extended s.io.mr i item } } := by
  unfold measure enterItem extended
  with_reducible rfl

theorem measureBoot_eq (items : List (List Byte)) (s : State) :
    measureBoot items s = { s with io := { s.io with mr := enterItems extended items s.io.mr } } := by
  unfold measureBoot enterItems
  simp only [measure_eq, List.foldl]

/-- A boot changes the measurement registers and whether the module is booted. -/
theorem boot_frame (key sig : List Byte) (items : List (List Byte)) (s : State) :
    ∃ m b, boot key sig items s = { s with io := { s.io with mr := m, booted := b } } := by
  unfold boot
  split
  · exact ⟨_, true, by rw [measureBoot_eq]⟩
  · exact ⟨s.io.mr, s.io.booted, rfl⟩

theorem imageOk_iff : imageOk key sig items s = true ↔ sha384 key = s.io.fuse ∧ ecdsaOk key sig (items.getD 1 []) = true := by
  simp [imageOk]

theorem reset_mr (i : Fin 8) : IODie.reset.mr[i] = List.replicate 48 0 := Vector.getElem_replicate _

theorem boot_outcome (hmr : s.io.mr = IODie.reset.mr) (hnot : s.io.booted = false) :
    BootOutcome key sig items s.io.fuse (boot key sig items s) := by
  by_cases hok : imageOk key sig items s = true
  · have hgood := imageOk_iff.mp hok
    rw [boot, if_pos hok]
    refine ⟨iff_of_true rfl hgood, fun _ => ?_, fun h => absurd hgood h⟩
    rw [measureBoot_eq, hmr]
    exact enterItems_zeros extended items _
  · rw [boot, if_neg hok]
    have hbad := fun h => hok (imageOk_iff.mpr h)
    exact ⟨iff_of_false (by simp [hnot]) hbad, fun h => absurd h hbad, fun _ i => by rw [hmr, reset_mr]⟩

/-! ### What a warm reset keeps of clocks and limits (R461, R462) -/

/-- A core whose clock has been set. -/
def withClock (f : Nat) (c : Core) : Core := { c with freq := f }

/-- Every core is as after reset but for its clock. -/
def AllReset (t : State) : Prop := ∀ x, coreAt t x = withClock (coreAt t x).freq (Core.reset x)

theorem allReset_lost {t : State} (hcore : t.core = Core.reset 1) (hothers : t.others = []) : AllReset t := by
  intro x
  have h : coreAt t x = Core.reset x := by
    unfold coreAt
    rw [hcore, hothers]
    split
    case isTrue h => exact congrArg Core.reset h
    case isFalse => rfl
  rw [h]
  rfl

/-- A change of one core's clock leaves the cores as after reset. -/
theorem allReset_clock {t : State} (h : AllReset t) (k f : Nat) : AllReset (onCore k (withClock f) t) := by
  intro x
  by_cases hx : k = x
  · subst hx
    rw [coreAt_onCore (f := withClock f) (fun _ => rfl), h k]
    rfl
  · rw [coreAt_onCore_ne (f := withClock f) (fun _ => rfl) hx]
    exact h x

/-- The module as a warm reset finds it, before the clocks are set again. -/
def coldWarm (s : State) : State :=
  { lostState s with
    clusters := limitsOnly s.clusters
    io := { (lostState s).io with volts := s.io.volts, fmax := s.io.fmax, slowBelow := s.io.slowBelow, fastAbove := s.io.fastAbove } }

/-- A core's clock is set again after a warm reset, where it was not the one after reset. -/
def keepClock (t : State) (c : Core) : State :=
  if c.freq = (Core.reset c.phys).freq then t else onCore c.phys (withClock c.freq) t

theorem warmState_eq (s : State) : warmState s = (allCores s).foldl keepClock (coldWarm s) := rfl

/-- Setting a clock again changes cores alone. -/
theorem keepClock_frame (t : State) (c : Core) : ∃ k l, keepClock t c = { t with core := k, others := l } := by
  unfold keepClock onCore setCore
  split
  · exact ⟨t.core, t.others, rfl⟩
  · split
    · exact ⟨_, t.others, rfl⟩
    · exact ⟨t.core, _, rfl⟩

/-- A warm reset sets cores again and leaves the rest as it found it. -/
theorem warmState_frame (s : State) : ∃ k l, warmState s = { coldWarm s with core := k, others := l } := by
  rw [warmState_eq]
  refine foldl_keeps (P := fun t => ∃ k l, t = { coldWarm s with core := k, others := l }) (fun t c h => ?_) _ _
    ⟨(coldWarm s).core, (coldWarm s).others, rfl⟩
  obtain ⟨k, l, rfl⟩ := h
  exact keepClock_frame _ c

theorem allReset_warm (s : State) : AllReset (warmState s) := by
  rw [warmState_eq]
  refine foldl_keeps (fun t c h => ?_) _ _ (allReset_lost rfl rfl)
  unfold keepClock
  split
  · exact h
  · exact allReset_clock h _ _

/-- The limit of a cluster is found among those that were kept (R462). -/
theorem limit_limitsOnly (cl : Nat) : ∀ l : List Cluster, (l.map Cluster.id).Nodup →
    ((findBy Cluster.id cl (limitsOnly l)).getD (Cluster.reset cl)).limit = ((findBy Cluster.id cl l).getD (Cluster.reset cl)).limit
  | [], _ => rfl
  | k :: l, h => by
    obtain ⟨hnot, hrest⟩ := List.nodup_cons.mp h
    have ih := limit_limitsOnly cl l hrest
    unfold limitsOnly at ih ⊢
    by_cases hcl : k.id = cl
    · cases hlim : k.limit with
      | some x => simp [findBy, hcl, hlim, Cluster.reset]
      | none =>
        have hgone : findBy Cluster.id cl l = none :=
          findBy_none fun y hy e => hnot (List.mem_map.mpr ⟨y, hy, e.trans hcl.symm⟩)
        rw [List.filter_cons_of_neg (by simp [hlim]), ih, hgone, findBy, if_pos hcl]
        simp [hlim, Cluster.reset]
    · rw [findBy, if_neg hcl, ← ih]
      cases hlim : k.limit with
      | some x => simp [findBy, hcl, hlim, Cluster.reset]
      | none => simp [hlim]

theorem limitsOnly_reset (l : List Cluster) : ∀ k ∈ limitsOnly l, k = { Cluster.reset k.id with limit := k.limit } := by
  intro k hk
  obtain ⟨c, -, rfl⟩ := List.mem_map.mp hk
  rfl

/-! ### The three ways of losing the state -/

/-- The module as a cold reset leaves it, before the boot. -/
def coldState (s : State) : State :=
  let t := lostState s
  rampIslands { t with
    powered := true
    dies := t.dies.map (fun d => { d with bb := BlackBox.reset })
    io := { t.io with bb := BlackBox.reset, poweredAt := if s.powered then t.io.poweredAt else s.time } }

theorem exec_coldReset (s : State) : exec (.coldReset (key, sig) items) s = .next (boot key sig items (coldState s)) := by
  show execColdReset (key, sig) items s = _
  unfold execColdReset coldState
  with_reducible rfl

theorem coldReset_leaves (s : State) : ∃ t, exec (.coldReset (key, sig) items) s = .next t ∧ t.powered = true ∧
    t.parts = [] ∧ t.banks = [] ∧ t.clusters = [] ∧ t.core = Core.reset 1 ∧ t.others = [] ∧ t.mem = outsideMemory s.mem ∧
    BootOutcome key sig items s.io.fuse t ∧ (∀ d : Fin 4, (t.dies.get d).bb = BlackBox.reset) ∧ t.io.bb = BlackBox.reset ∧
    t.io.volts.length = 24 ∧ t.io.fuse = s.io.fuse ∧ t.io.audit = s.io.audit := by
  have hboot : BootOutcome key sig items s.io.fuse (boot key sig items (coldState s)) := boot_outcome (s := coldState s) rfl rfl
  obtain ⟨m, b, hframe⟩ := boot_frame key sig items (coldState s)
  refine ⟨_, exec_coldReset s, ?_⟩
  rw [hframe] at hboot ⊢
  refine ⟨rfl, rfl, rfl, rfl, rfl, rfl, rfl, hboot, fun d => ?_, rfl, ?_, rfl, rfl⟩
  · exact congrArg Die.bb (Vector.getElem_map _ d.isLt)
  · exact (List.length_map _).trans List.length_range

/-- The black boxes of the dies outlast what a reset loses (R454). -/
theorem lostState_bb (s : State) (d : Fin 4) : ((lostState s).dies.get d).bb = (s.dies.get d).bb := by
  have h : (lostState s).dies[d.val] = { s.dies[d.val] with proxies := [], emus := [] } := Vector.getElem_map _ d.isLt
  exact (congrArg Die.bb h).trans rfl

theorem exec_warmReset (hpow : s.powered = true) :
    exec (.warmReset (key, sig) items) s = .next (auditReset (boot key sig items (warmState s))) := by
  show execWarmReset (key, sig) items s = _
  rw [execWarmReset, hpow, Bool.not_true, if_neg Bool.false_ne_true]

theorem warmReset_leaves (hpow : s.powered = true) : ∃ t r, exec (.warmReset (key, sig) items) s = .next t ∧ t.powered = true ∧
    t.parts = [] ∧ t.banks = [] ∧ (∀ k ∈ t.clusters, k = { Cluster.reset k.id with limit := k.limit }) ∧
    ((s.clusters.map Cluster.id).Nodup → ∀ cl, (clusterAt t cl).limit = (clusterAt s cl).limit) ∧ AllReset t ∧
    t.mem = outsideMemory s.mem ∧
    BootOutcome key sig items s.io.fuse t ∧ (∀ d : Fin 4, (t.dies.get d).bb = (s.dies.get d).bb) ∧ t.io.bb = s.io.bb ∧
    t.io.volts = s.io.volts ∧ t.io.fmax = s.io.fmax ∧ t.io.auditSeq = s.io.auditSeq + 1 ∧
    t.io.audit.getLast? = some r ∧ r.event = 0x0001 ∧ r.part = 0xFF ∧ r.data = Config.packFields 32 [1] ∧ r.seq = s.io.auditSeq := by
  have hcores := allReset_warm s
  obtain ⟨k, l, hwarm⟩ := warmState_frame s
  generalize hw : warmState s = w at hcores hwarm
  have hboot : BootOutcome key sig items w.io.fuse (boot key sig items w) := by
    subst hwarm
    exact boot_outcome rfl rfl
  obtain ⟨m, b, hframe⟩ := boot_frame key sig items w
  generalize hv : boot key sig items w = v at hboot hframe
  obtain ⟨log, hlog⟩ := auditPut_frame (nextAudit 0x0001 0xFF (Config.packFields 32 [1]) v) v
  have hlast := auditPut_last (nextAudit 0x0001 0xFF (Config.packFields 32 [1]) v) v
  refine ⟨auditReset v, nextAudit 0x0001 0xFF (Config.packFields 32 [1]) v, by rw [exec_warmReset hpow, hw, hv], ?_⟩
  rw [auditReset]
  rw [hlog] at hlast ⊢
  subst hframe hwarm
  refine ⟨rfl, rfl, rfl, limitsOnly_reset s.clusters, fun honce cl => limit_limitsOnly cl s.clusters honce, hcores, rfl,
    ⟨hboot.booted, hboot.measured, hboot.empty⟩, lostState_bb s, rfl, rfl, rfl, rfl, hlast, rfl, rfl, rfl, rfl⟩

theorem coreAt_reset (x : Nat) : coreAt State.reset x = Core.reset x := by
  unfold coreAt
  split
  case isTrue h => exact congrArg Core.reset h
  case isFalse => rfl

/-- What holds right after reset (R184, R437, R449, R461). -/
theorem afterReset : State.reset.parts = [] ∧ State.reset.layout = 0 ∧ (∀ b, (bankAt State.reset b).state = .off) ∧ State.reset.mem = [] ∧
     (∀ i : Fin 8, State.reset.io.mr[i] = List.replicate 48 0) ∧ State.reset.io.audit = [] ∧
     (∀ x, (coreAt State.reset x).run = none) ∧ (∀ (x i : Nat) (n : Reg), (ctxOf (coreAt State.reset x) i).regs[n] = 0) := by
  refine ⟨rfl, rfl, fun _ => rfl, rfl, reset_mr, rfl, fun x => by rw [coreAt_reset]; rfl, fun x i n => ?_⟩
  have hctx : ∃ helper, ctxOf (coreAt State.reset x) i = Ctx.reset helper := by
    rw [coreAt_reset]
    unfold ctxOf
    split
    · exact ⟨true, Vector.getElem_replicate _⟩
    · exact ⟨false, rfl⟩
  obtain ⟨helper, h⟩ := hctx
  rw [h]
  exact Vector.getElem_replicate _

/-- Settles O57, by what the boot measures and by what each reset leaves before it. -/
theorem resetsLose : Obligations.ResetsLose := by
  unfold Obligations.ResetsLose
  refine ⟨⟨fun key sig items s => ?_, fun key sig items s => ⟨fun h => ?_, fun h => ?_⟩, fun s => ?_⟩, afterReset⟩
  · obtain ⟨t, he, h1, h2, h3, h4, h5, h6, h7, hb, h8⟩ := coldReset_leaves (key := key) (sig := sig) (items := items) s
    exact ⟨t, he, h1, h2, h3, h4, h5, h6, h7, ⟨hb.booted, hb.measured, hb.empty⟩, h8⟩
  · show Host.Outcome.next _ = _
    rw [h]
    rfl
  · obtain ⟨t, r, he, h1, h2, h3, h4, h5, h6, h7, hb, h8⟩ := warmReset_leaves (key := key) (sig := sig) (items := items) h
    exact ⟨t, r, he, h1, h2, h3, h4, h5, h6, h7, ⟨hb.booted, hb.measured, hb.empty⟩, h8⟩
  · exact ⟨_, rfl, rfl, rfl, rfl, rfl, rfl, rfl⟩

/-- Settles O59: memory lists nothing, and no core has an allocation. -/
theorem memoryCanonicalAtReset : Obligations.MemoryCanonicalAtReset := by
  unfold Obligations.MemoryCanonicalAtReset
  refine ⟨memory_nil_wf, fun c hc a ha => ?_⟩
  obtain rfl : c = Core.reset 1 := List.mem_singleton.mp hc
  cases ha

end Sys2Proof.Machine
end

section
/-!
SUPPORT. A store to a local store whose performing brings its core to the front of the other cores, so that another byte of memory reads
otherwise.
-/

namespace Sys2Proof.Machine

open Sys2Proof.Safety

/-- A core of cluster 0 with a stash line of line 0 of memory, whose first byte it has stored to. -/
def stashingCore (phys : Nat) (b : Byte) : Core :=
  { Core.reset phys with
    allocs := [⟨0, 1, 0, 0x10000, [(0, b)], []⟩]
    stashLines := [⟨0, 1, 0, 0, 1, openPage 0 0 0 0⟩] }

/-- A store of one byte to line 1 of the allocation of core 3. -/
def waitingStore : PendAcc := ⟨0, .ls 3 0 1 64, false, false, false, false, 0, .core, .store [9]⟩

/-- Core 5 stands before core 3, whose store waits; both hold byte 0 of memory in their stash, with different values. -/
def disorderedCores : State :=
  { State.reset with others := [stashingCore 5 5, { stashingCore 3 3 with pend := [waitingStore] }] }

/-- The state that an event leaves. -/
def stateAfter (i : Instr) (s : State) : State :=
  match exec i s with
  | .next t => t
  | _ => s

theorem disorderedCores_canonical : MemoriesCanonical disorderedCores := by decide +kernel

/-- The premises of the statement, clause by clause. -/
theorem waitingStore_due : (coreAt disorderedCores 3).pend[0]? = some waitingStore ∧ pendDue disorderedCores 3 0 waitingStore = true ∧
    stashEntryAt disorderedCores waitingStore.place = none := by decide +kernel

theorem waitingStore_target : allocOf (coreAt disorderedCores 3) 0 1 = some ⟨0, 1, 0, 0x10000, [(0, 3)], []⟩ ∧
    (coreAt disorderedCores 3).stashLines.all (fun l => !(l.part == 0 && l.gid == 1 && l.lsline == 64 / 64)) = true := by decide +kernel

/-- Byte 0 of memory as core 1 reads it, before and after. -/
theorem byte_changes : placeByte disorderedCores 1 true (.mem 0) = 5 ∧
    placeByte (stateAfter (.accessPerformed 3 0) disorderedCores) 1 true (.mem 0) = 3 := by decide +kernel

/-- Refutes O18: of the cores that a state holds besides the one in focus the first with a dirty stash byte gives the byte, they need
stand in no order, and performing a store of core 3 puts core 3 before core 5, so that byte 0 of memory reads 3, which was 5. -/
theorem not_storePerformed : ¬ Obligations.StorePerformed := by
  unfold Obligations.StorePerformed
  intro h
  obtain ⟨hpend, hdue, hunmapped⟩ := waitingStore_due
  obtain ⟨halloc, hlines⟩ := waitingStore_target
  obtain ⟨hbefore, hafter⟩ := byte_changes
  obtain ⟨hperforms, -, -⟩ := h 3 0 0 1 64 3 waitingStore [9] disorderedCores disorderedCores_canonical hpend rfl rfl hdue (by decide)
    hunmapped
  obtain ⟨t, hexec, -, -, hmem, -⟩ := hperforms _ halloc (by decide) hlines
  have ht : stateAfter (.accessPerformed 3 0) disorderedCores = t := by rw [stateAfter, hexec]
  have hsame := hmem 1 true 0
  rw [hbefore, ← ht, hafter] at hsame
  exact absurd hsame (by decide)

end Sys2Proof.Machine
end

section
/-!
SUPPORT. The register block and the requests at a control core (R209, R381, R435): how a service ends, what an answer leaves, a
line that nothing holds, and an invalidation of translations that has nothing to perform.
-/

namespace Sys2Proof.Machine

open Sys2Proof.Safety

variable {s u : State} {d : Fin 4} {q : ProxyReq} {rest : List ProxyReq} {p : Partition} {test : ProxyReq → Bool}

/-! ### How a service ends -/

/-- What a service that came to an end leaves of the state it left. -/
def endService (d : Fin 4) (q : ProxyReq) (rest : List ProxyReq) : Served × State → State
  | (.wait, s) => s
  | (.old v, s) => answerProxy q (.proxyDone v) (setProxies d rest s)
  | (.trap cause einfo, s) => trapProxy q cause q.va einfo (setProxies d rest s)

theorem serveWith_taken (h : takeProxy s d test = some (q, rest)) (f : ProxyReq → State → Served × State) :
    serveWith d.val test f s = endService d q rest (f q s) := by
  unfold serveWith
  simp only [d.isLt, dite_true, Fin.eta, h]
  rcases f q s with ⟨_ | _ | _, t⟩ <;> rfl

theorem proxies_setProxies (d : Fin 4) (l : List ProxyReq) (s : State) : ((setProxies d l s).dies.get d).proxies = l := by
  simp [setProxies, Vector.get_eq_getElem]

/-! ### What an answer leaves -/

/-- A context that waits for a value has its answer. -/
def proxyReplied (a : Await) (x : Ctx) : Ctx := if x.await = .proxy then { x with await := a, stalled := false } else x

theorem answerProxy_returns (h : q.returns = true) (a : Await) (s : State) :
    answerProxy q a s = onCtx q.phys q.ctx (proxyReplied a) s := by
  rw [answerProxy, if_pos h]
  rfl

theorem answerProxy_silent (h : q.returns = false) (a : Await) (s : State) : answerProxy q a s = s := by simp [answerProxy, h]

theorem answerProxy_frame (q : ProxyReq) (a : Await) (s : State) :
    (answerProxy q a s).mem = s.mem ∧ (answerProxy q a s).parts = s.parts ∧ (answerProxy q a s).dies = s.dies ∧
      (answerProxy q a s).clusters = s.clusters := by
  unfold answerProxy
  split <;> simp [onCtx]

theorem trapProxy_frame (q : ProxyReq) (cause : BitVec 8) (eval einfo : Word) (s : State) :
    (trapProxy q cause eval einfo s).mem = s.mem ∧ (trapProxy q cause eval einfo s).parts = s.parts ∧
      (trapProxy q cause eval einfo s).dies = s.dies := by
  unfold trapProxy
  split
  · obtain ⟨hmem, hparts, hdies, -⟩ := answerProxy_frame q (.proxyTrap cause eval einfo) s
    exact ⟨hmem, hparts, hdies⟩
  · simp [deferTrap, onCtx]

/-- The context that stands at a request is as it was, but that its answer is in its await. -/
theorem proxyAnswered_done {v : Word} (hproxies : (u.dies.get d).proxies = rest)
    (hctx : ctxOf (coreAt u q.phys) q.ctx = ctxOf (coreAt s q.phys) q.ctx) :
    ProxyAnswered d q rest (.proxyDone v) s (answerProxy q (.proxyDone v) u) := by
  refine ⟨by rw [(answerProxy_frame q _ u).2.2.1, hproxies], fun hret hwaits => ?_, fun _ _ _ _ h => by cases h⟩
  rw [answerProxy_returns hret, ctxOf_onCtx, hctx]
  simp [proxyReplied, hwaits]

theorem proxyAnswered_trap {cause : BitVec 8} {eval einfo : Word} (hproxies : (u.dies.get d).proxies = rest)
    (hctx : ctxOf (coreAt u q.phys) q.ctx = ctxOf (coreAt s q.phys) q.ctx) :
    ProxyAnswered d q rest (.proxyTrap cause eval einfo) s (trapProxy q cause eval einfo u) := by
  refine ⟨by rw [(trapProxy_frame q _ _ _ u).2.2, hproxies], fun hret hwaits => ?_, fun hret _ _ _ h => ?_⟩
  · rw [trapProxy, if_pos hret, answerProxy_returns hret, ctxOf_onCtx, hctx]
    simp [proxyReplied, hwaits]
  · cases h
    rw [trapProxy, hret, if_neg Bool.false_ne_true, deferTrap, ctxOf_onCtx, hctx]

/-- A swap that a trap ends changes nothing but the requests and the context. -/
theorem endService_trap (cause : BitVec 8) (einfo : Word) :
    ProxyAnswered d q rest (.proxyTrap cause q.va einfo) s (endService d q rest (.trap cause einfo, s)) ∧
      (endService d q rest (.trap cause einfo, s)).parts = s.parts :=
  ⟨proxyAnswered_trap (u := setProxies d rest s) (proxies_setProxies d rest s) rfl, (trapProxy_frame q _ _ _ _).2.1⟩

/-! ### A line that nothing holds -/

/-- No stash of any core holds a line. -/
abbrev NoStashLines (s : State) : Prop := ∀ c ∈ allCores s, c.stashLines = []

/-- A fold over cores whose stash lines are written back does nothing where there are none. -/
theorem stashFold_nothing {sel : Core → StashLine → Bool} {f : Core → State → StashLine → State} :
    ∀ (cs : List Core) (s : State), (∀ c ∈ cs, c.stashLines = []) →
      cs.foldl (fun s c => (c.stashLines.filter (sel c)).foldl (f c) s) s = s
  | [], _, _ => rfl
  | c :: cs, s, h => by
    rw [List.foldl_cons, h c List.mem_cons_self]
    exact stashFold_nothing cs s fun e he => h e (List.mem_cons_of_mem _ he)

theorem recallStash_nothing (h : NoStashLines s) (cl line : Nat) : recallStash cl line s = s := by
  have hfold : ∀ cs : List Core, (∀ c ∈ cs, c.stashLines = []) → cs.foldl (fun s c =>
      if clusterOf c.phys = cl then (c.stashLines.filter (·.line == line)).foldl (fun s l => stashWriteBack c.phys l true s) s
      else s) s = s := by
    intro cs hcs
    refine List.foldlRecOn (motive := fun t => t = s) cs _ rfl fun t ht c hc => ?_
    rw [hcs c hc]
    simpa using ht
  exact hfold _ h

theorem partialOwner_nothing (hpart : s.partials = []) (hupd : ∀ c ∈ allCores s, c.upd = []) (cl line : Nat) :
    partialOwner cl line s = none := by
  have hcores : ((allCores s).flatMap fun c => c.upd.filter fun p => p.home == some cl && p.pa / 64 == line) = [] := by
    rw [List.flatMap_eq_nil_iff]
    intro c hc
    simp [hupd c hc]
  simp [partialOwner, hpart, hcores]

/-- A line that no cache of the cluster holds leaves nothing to write back. -/
theorem dropLine_absent {cl line : Nat} (hline : lineAt s cl line = none) (hstash : NoStashLines s) (hpart : s.partials = [])
    (hupd : ∀ c ∈ allCores s, c.upd = []) : dropLine cl line s = forgetLine cl line s := by
  have howner : partialOwner cl line s = none := partialOwner_nothing hpart hupd cl line
  have hcombine : combineCluster cl line s = s := by simp [combineCluster, howner]
  have hback : writeBack cl line s = s := by simp [writeBack, hline]
  simp [dropLine, evictLine, recallStash_nothing hstash, hcombine, howner, hback]

theorem forgetLine_frame (cl line : Nat) (s : State) : (forgetLine cl line s).mem = s.mem ∧
    (forgetLine cl line s).dies = s.dies ∧ (forgetLine cl line s).badLines = s.badLines := by
  rw [forgetLine_eq]
  exact ⟨rfl, rfl, rfl⟩

/-- A change of every core that keeps identifiers and fits a core that State does not hold is a change of the core asked for. -/
theorem coreAt_mapCores {f : Core → Core} (hphys : ∀ c, (f c).phys = c.phys) {k : Nat} (hreset : f (Core.reset k) = Core.reset k)
    (s : State) : coreAt (mapCores f s) k = f (coreAt s k) := by
  unfold coreAt mapCores
  simp only [hphys, findBy_map hphys]
  split
  · rfl
  · cases findBy Core.phys k s.others with
    | none => exact hreset.symm
    | some c => rfl

theorem lineGone_ctxOf (cl line : Nat) (c : Core) (i : Nat) : ctxOf (lineGone cl line c) i = ctxOf c i := by
  unfold lineGone
  split <;> rfl

theorem ctxOf_forgetLine (cl line : Nat) (s : State) (k i : Nat) :
    ctxOf (coreAt (forgetLine cl line s) k) i = ctxOf (coreAt s k) i := by
  have hreset : lineGone cl line (Core.reset k) = Core.reset k := by
    unfold lineGone
    split <;> rfl
  rw [forgetLine_eq, coreAt_mapCores (lineGone_phys cl line) hreset, lineGone_ctxOf]
  rfl

/-! ### An invalidation with nothing to perform -/

/-- Nothing waits to be performed, and no stash line is there, on any core. -/
abbrev CoresIdle (s : State) : Prop := ∀ c ∈ allCores s, c.pend = [] ∧ c.stashLines = []

/-- A core after one is stored is that one, or one that was there. -/
theorem mem_allCores_setCore {c x : Core} (h : x ∈ allCores (setCore c s)) : x = c ∨ x ∈ allCores s := by
  unfold setCore at h
  split at h
  · rcases List.mem_cons.mp h with h | h
    · exact .inl h
    · exact .inr (List.mem_cons_of_mem _ h)
  · rcases List.mem_cons.mp h with h | h
    · exact .inr (h ▸ List.mem_cons_self)
    · exact (mem_putBy h).imp_right (List.mem_cons_of_mem _)

theorem CoresIdle.coreAt (h : CoresIdle s) (k : Nat) : (coreAt s k).pend = [] ∧ (coreAt s k).stashLines = [] := by
  rcases coreAt_mem_or s k with hc | hc
  · exact h _ hc
  · rw [hc]
    exact ⟨rfl, rfl⟩

theorem CoresIdle.withoutPend (h : CoresIdle s) (k : Nat) : CoresIdle (onCore k withoutPend s) := by
  intro c hc
  rcases mem_allCores_setCore hc with rfl | hc
  · exact ⟨rfl, (h.coreAt k).2⟩
  · exact h c hc

/-- What performing nothing on some cores leaves. -/
structure Unperformed (s u : State) : Prop where
  idle : CoresIdle u
  elsewhere : { u with core := s.core, others := s.others } = s
  ctx : ∀ k i, ctxOf (coreAt u k) i = ctxOf (coreAt s k) i

theorem performAll_idle (h : CoresIdle s) (k : Nat) : Unperformed s (performAll k s) := by
  rw [performAll_nothing (h.coreAt k).1]
  refine ⟨h.withoutPend k, ?_, fun j i => ?_⟩
  · unfold onCore setCore
    split <;> rfl
  · by_cases hj : k = j
    · subst hj
      rw [coreAt_onCore (f := withoutPend) (fun _ => rfl)]
      rfl
    · rw [coreAt_onCore_ne (f := withoutPend) (fun _ => rfl) hj]

theorem Unperformed.trans {t : State} (h : Unperformed s u) (h' : Unperformed u t) : Unperformed s t where
  idle := h'.idle
  elsewhere := by
    have := h.elsewhere
    rw [← h'.elsewhere] at this
    exact this
  ctx k i := (h'.ctx k i).trans (h.ctx k i)

theorem performAll_fold_idle : ∀ (cs : List Core) (s : State), CoresIdle s →
    Unperformed s (cs.foldl (fun s c => performAll c.phys s) s)
  | [], _, h => ⟨h, rfl, fun _ _ => rfl⟩
  | c :: cs, _, h =>
    have hfirst := performAll_idle h c.phys
    hfirst.trans (performAll_fold_idle cs _ hfirst.idle)

/-- A core without the translations that an invalidation selects. -/
def lessTlb (part kind : Nat) (a : Word) (c : Core) : Core :=
  { c with tlb := c.tlb.filter (fun e => !e.selected part kind a), itlb := c.itlb.filter (fun e => !e.selected part kind a) }

/-- A cluster without them, and without the walks of the partition. -/
def lessWalks (part kind : Nat) (a : Word) (k : Cluster) : Cluster :=
  { k with tlb := k.tlb.filter (fun e => !e.selected part kind a), walks := k.walks.filter (·.1 != part) }

/-- A state without them. -/
def lessTranslations (part kind : Nat) (a : Word) (s : State) : State :=
  { mapCores (lessTlb part kind a) s with clusters := s.clusters.map (lessWalks part kind a) }

theorem invalidateTranslations_eq (part kind : Nat) (a : Word) (s : State) :
    invalidateTranslations part kind a s = lessTranslations part kind a
      ((allCores ((coresOf s part).foldl (fun s c => performAll c.phys s) s)).foldl (fun s c =>
        (c.stashLines.filter (fun l => l.part == part && l.tlb.selected part kind a)).foldl
          (fun s l => stashWriteBack c.phys l true s) s) ((coresOf s part).foldl (fun s c => performAll c.phys s) s)) := rfl

/-- Where nothing waits, an invalidation takes translations and walks away, and changes nothing else. -/
theorem invalidateTranslations_idle (h : CoresIdle s) (part kind : Nat) (a : Word) :
    ∃ u, Unperformed s u ∧ invalidateTranslations part kind a s = lessTranslations part kind a u := by
  have hu := performAll_fold_idle (coresOf s part) s h
  refine ⟨_, hu, ?_⟩
  rw [invalidateTranslations_eq]
  generalize (coresOf s part).foldl (fun s c => performAll c.phys s) s = t at hu ⊢
  exact congrArg (lessTranslations part kind a) (stashFold_nothing
    (sel := fun _ l => l.part == part && l.tlb.selected part kind a) (f := fun c s l => stashWriteBack c.phys l true s)
    (allCores t) t fun c hc => (hu.idle c hc).2)

theorem selected_all (e : TlbEntry) (part : Nat) (a : Word) : e.selected part 1 a = (e.part == part) := by
  simp [TlbEntry.selected]

/-- No translation of a partition is held, nor a table entry of it by a walker. -/
structure NoTranslations (s : State) (part : Nat) : Prop where
  cores : ∀ c ∈ allCores s, ∀ k ∈ c.tlb ++ c.itlb, k.part ≠ part
  clusters : ∀ k ∈ s.clusters, (∀ x ∈ k.tlb, x.part ≠ part) ∧ ∀ w ∈ k.walks, w.1 ≠ part

theorem noTranslations_lessTranslations (s : State) (part : Nat) : NoTranslations (lessTranslations part 1 0 s) part where
  cores c hc k hk := by
    obtain ⟨e, -, rfl⟩ := List.mem_map.mp (show c ∈ (allCores s).map (lessTlb part 1 0) from hc)
    rcases List.mem_append.mp hk with hk | hk <;> simpa [selected_all] using (List.mem_filter.mp hk).2
  clusters k hk := by
    obtain ⟨e, -, rfl⟩ := List.mem_map.mp hk
    exact ⟨fun x hx => by simpa [selected_all] using (List.mem_filter.mp hx).2,
      fun w hw => by simpa using (List.mem_filter.mp hw).2⟩

theorem lessTranslations_frame (part kind : Nat) (a : Word) (h : Unperformed s u) :
    (lessTranslations part kind a u).mem = s.mem ∧ (lessTranslations part kind a u).parts = s.parts ∧
      (lessTranslations part kind a u).dies = s.dies :=
  ⟨(congrArg State.mem h.elsewhere :), (congrArg State.parts h.elsewhere :), (congrArg State.dies h.elsewhere :)⟩

theorem ctxOf_lessTranslations (part kind : Nat) (a : Word) (s : State) (k i : Nat) :
    ctxOf (coreAt (lessTranslations part kind a s) k) i = ctxOf (coreAt s k) i :=
  (congrArg (fun c => ctxOf c i) (coreAt_mapCores (f := lessTlb part kind a) (fun _ => rfl) rfl s) :)

/-! ### The oldest request of a lane (R209) -/

section
variable {lane : Nat}

theorem exec_proxyAtomicService (h : takeProxy s d (fun k => k.lane == lane) = some (q, rest)) :
    exec (.proxyAtomicService d.val lane) s = .next (
      if s.owned.any (·.1 == q.pa / 64) then s
      else if !q.toRegs then serveProxy q (setProxies d rest s)
      else if q.op == .swap then s
      else endService d q rest (readBlock q s)) := by
  refine (show exec (.proxyAtomicService d.val lane) s = execProxyAtomicService d.val lane s from rfl).trans ?_
  have hread := serveWith_taken h readBlock
  unfold execProxyAtomicService
  simp only [d.isLt, dite_true, Fin.eta, h, hread]

theorem exec_proxyAtomicService_owned (h : takeProxy s d (fun k => k.lane == lane) = some (q, rest))
    (howned : s.owned.any (·.1 == q.pa / 64) = true) : exec (.proxyAtomicService d.val lane) s = .next s := by
  rw [exec_proxyAtomicService h, if_pos howned]

theorem exec_proxyAtomicService_mem (h : takeProxy s d (fun k => k.lane == lane) = some (q, rest))
    (howned : s.owned.any (·.1 == q.pa / 64) = false) (hregs : q.toRegs = false) :
    exec (.proxyAtomicService d.val lane) s = .next (serveProxy q (setProxies d rest s)) := by
  simp [exec_proxyAtomicService h, howned, hregs]

theorem exec_proxyAtomicService_swap (h : takeProxy s d (fun k => k.lane == lane) = some (q, rest))
    (hregs : q.toRegs = true) (hswap : q.op = .swap) : exec (.proxyAtomicService d.val lane) s = .next s := by
  simp [exec_proxyAtomicService h, hregs, hswap]

theorem exec_proxyAtomicService_read (h : takeProxy s d (fun k => k.lane == lane) = some (q, rest))
    (howned : s.owned.any (·.1 == q.pa / 64) = false) (hregs : q.toRegs = true) (hswap : q.op ≠ .swap) :
    exec (.proxyAtomicService d.val lane) s = .next (endService d q rest (readBlock q s)) := by
  simp [exec_proxyAtomicService h, howned, hregs, hswap]

end

/-- A request to memory outside the device whose line is bad performs nothing (R195). -/
theorem serveProxy_bad (hbad : q.pa / 64 ∈ s.badLines) (hline : lineAt s (clusterOf q.phys) (q.pa / 64) = none)
    (hpart : s.partials = []) (hcores : ∀ c ∈ allCores s, c.upd = [] ∧ c.stashLines = []) : serveProxy q s =
      trapProxy q 0x17 (q.va &&& ~~~0x3F#64) 0 (forgetLine (clusterOf q.phys) (q.pa / 64) s) := by
  have hstash : NoStashLines s := fun c hc => (hcores c hc).2
  have hbad' : (forgetLine (clusterOf q.phys) (q.pa / 64) s).badLines.contains (q.pa / 64) = true := by
    rw [(forgetLine_frame _ _ s).2.2]
    simpa using hbad
  unfold serveProxy
  simp only [recallStash_nothing hstash, dropLine_absent hline hstash hpart fun c hc => (hcores c hc).1, hbad', if_true]

/-- What such a request leaves. -/
theorem serveProxy_bad_answered (hbad : q.pa / 64 ∈ s.badLines) (hline : lineAt s (clusterOf q.phys) (q.pa / 64) = none)
    (hpart : s.partials = []) (hcores : ∀ c ∈ allCores s, c.upd = [] ∧ c.stashLines = []) :
    ProxyAnswered d q rest (.proxyTrap 0x17 (q.va &&& ~~~0x3F#64) 0) s (serveProxy q (setProxies d rest s)) ∧
      (serveProxy q (setProxies d rest s)).mem = s.mem := by
  rw [serveProxy_bad (s := setProxies d rest s) hbad hline hpart hcores]
  obtain ⟨hmem, hdies, -⟩ := forgetLine_frame (clusterOf q.phys) (q.pa / 64) (setProxies d rest s)
  refine ⟨proxyAnswered_trap ?_ (ctxOf_forgetLine _ _ (setProxies d rest s) _ _), (trapProxy_frame q _ _ _ _).1.trans hmem⟩
  rw [hdies]
  exact proxies_setProxies d rest s

/-- The dwords of HBASE and OVFBASE as the block gives them. -/
theorem readBlock_runtime {v : Word} (hp : partAt s q.part = some p)
    (h : (q.off = 0x3020 ∧ v = p.hbase) ∨ (q.off = 0x3010 ∧ v = p.ovfbase)) : readBlock q s = (.old v, s) := by
  unfold readBlock
  rcases h with ⟨hoff, rfl⟩ | ⟨hoff, rfl⟩ <;> simp [hp, hoff]

/-! ### The runtime registers (R435) -/

section
variable {ok : Word → Bool} {read : Partition → Word} {write : ProxyReq → Partition → State → Served × State}

theorem swapRuntime_user (hp : partAt s q.part = some p) (hrt : q.runtime = false) :
    swapRuntime ok read write q s = (.trap 0x03 0, s) := by simp [swapRuntime, hp, hrt]

theorem swapRuntime_bits (hp : partAt s q.part = some p) (hrt : q.runtime = true) (hok : ok q.v = false) :
    swapRuntime ok read write q s = (.trap 0x09 12, s) := by simp [swapRuntime, hp, hrt, hok, refuse]

theorem swapRuntime_refused (hp : partAt s q.part = some p) (hrt : q.runtime = true) (hok : ok q.v = true) {einfo : Nat}
    (hw : write q p s = refuse einfo s) : swapRuntime ok read write q s = refuse einfo s := by
  simp [swapRuntime, hp, hrt, hok, hw, refuse]

theorem swapRuntime_waits (hp : partAt s q.part = some p) (hrt : q.runtime = true) (hok : ok q.v = true)
    (hw : write q p s = (.wait, s)) : swapRuntime ok read write q s = (.wait, s) := by
  simp [swapRuntime, hp, hrt, hok, hw]

theorem swapRuntime_written (hp : partAt s q.part = some p) (hrt : q.runtime = true) (hok : ok q.v = true) {v : Word}
    (hw : write q p s = (.old v, u)) : swapRuntime ok read write q s = (.old (read p), u) := by
  simp [swapRuntime, hp, hrt, hok, hw]

/-- A swap that a trap ends. -/
theorem swap_trapped {e : Instr} {f : ProxyReq → State → Served × State} {cause : BitVec 8} {einfo : Word}
    (hexec : exec e s = .next (endService d q rest (f q s))) (hf : f q s = (.trap cause einfo, s)) :
    ∃ t, exec e s = .next t ∧ ProxyAnswered d q rest (.proxyTrap cause q.va einfo) s t ∧ t.parts = s.parts :=
  have ⟨hans, hparts⟩ := endService_trap (d := d) (q := q) (rest := rest) (s := s) cause einfo
  ⟨_, hexec, hf ▸ hans, hf ▸ hparts⟩

/-- What a swap that sets a register of its partition leaves. -/
theorem swap_done (g : Partition → Partition) (hg : ∀ p, (g p).tag = p.tag) {v : Word} (hp : partAt s q.part = some p)
    (hmem : u.mem = s.mem) (hparts : u.parts = s.parts)
    (hctx : ctxOf (coreAt u q.phys) q.ctx = ctxOf (coreAt s q.phys) q.ctx) :
    let t := endService d q rest (.old v, onPart q.part g u)
    ProxyAnswered d q rest (.proxyDone v) s t ∧ partAt t q.part = some (g p) ∧ t.mem = s.mem ∧ t.clusters = u.clusters ∧
      ∀ c ∈ allCores t, c ∈ allCores u ∨ ∃ i x, c = putCtx (coreAt u q.phys) i x := by
  intro t
  obtain ⟨htmem, htparts, -, htclusters⟩ := answerProxy_frame q (.proxyDone v) (setProxies d rest (onPart q.part g u))
  refine ⟨proxyAnswered_done (u := setProxies d rest (onPart q.part g u)) (proxies_setProxies d rest _) hctx, ?_,
    htmem.trans hmem, htclusters, fun c hc => ?_⟩
  · have hset : partAt (onPart q.part g u) q.part = (partAt u q.part).map g := partAt_onPart hg q.part u
    have hu : partAt u q.part = partAt s q.part := congrArg (findBy Partition.tag q.part) hparts
    rw [hu, hp] at hset
    exact (congrArg (findBy Partition.tag q.part) htparts).trans hset
  · by_cases hret : q.returns = true
    · rw [show t = onCtx q.phys q.ctx (proxyReplied (.proxyDone v)) (setProxies d rest (onPart q.part g u)) from
        answerProxy_returns hret _ _] at hc
      exact (mem_allCores_setCore hc).elim (fun h => .inr ⟨_, _, h⟩) .inl
    · rw [show t = setProxies d rest (onPart q.part g u) from answerProxy_silent (by simpa using hret) _ _] at hc
      exact .inl hc

/-- A swap of a register that nothing else hangs on. -/
theorem swap_set {e : Instr} {f : ProxyReq → State → Served × State} (g : Partition → Partition) (hg : ∀ p, (g p).tag = p.tag) {v : Word}
    (hp : partAt s q.part = some p) (hexec : exec e s = .next (endService d q rest (f q s)))
    (hf : f q s = (.old v, onPart q.part g s)) : ∃ t, exec e s = .next t ∧ ProxyAnswered d q rest (.proxyDone v) s t ∧
      partAt t q.part = some (g p) ∧ t.mem = s.mem := by
  obtain ⟨hans, hpart, hmem, -⟩ := swap_done (d := d) (rest := rest) (u := s) g hg (v := v) hp rfl rfl rfl
  exact ⟨_, hexec, hf ▸ hans, hf ▸ hpart, hf ▸ hmem⟩

end

/-! ### The stage-1 registers wait for an invalidation (R370, R435) -/

/-- What a swap of a stage-1 field waits for. -/
structure Stage1Ready (q : ProxyReq) (s : State) : Prop where
  operands : operandsInFlight (lessStage1 s) q.part 1 0 = false
  accesses : accessesDone (lessStage1 s) q.phys q.ctx .dev = true
  engines : enginesDone s q.phys q.ctx = true
  idle : CoresIdle s

theorem pendingHomeLines_idle (h : CoresIdle s) (part : Nat) : pendingHomeLines s part = [] := by
  have hnone : ((coresOf s part).flatMap fun c => c.pend.filterMap PendAcc.homeLine) = [] := by
    rw [List.flatMap_eq_nil_iff]
    intro c hc
    simp [(h c (List.mem_filter.mp hc).1).1]
  simp [pendingHomeLines, hnone]

theorem afterInvalidation_waits (h : operandsInFlight (lessStage1 s) q.part 1 0 = true ∨
    accessesDone (lessStage1 s) q.phys q.ctx .dev = false ∨ enginesDone s q.phys q.ctx = false) (f : State → State) :
    afterInvalidation q f s = (.wait, s) := by
  refine if_pos ?_
  rcases h with h | h | h <;> simp only [h, Bool.not_false, Bool.true_or, Bool.or_true]

theorem afterInvalidation_ready (h : Stage1Ready q s) (f : State → State) :
    ∃ u, Unperformed s u ∧ afterInvalidation q f s = (.old 0, f (lessTranslations q.part 1 0 u)) := by
  obtain ⟨u, hu, hinv⟩ := invalidateTranslations_idle h.idle q.part 1 0
  refine ⟨u, hu, ?_⟩
  unfold afterInvalidation
  simp only [h.operands, h.accesses, h.engines, pendingHomeLines_idle h.idle, hinv, List.isEmpty_nil, Bool.not_true, Bool.or_false,
    Bool.false_eq_true, if_false]

/-- A core that State is asked for holds no translation of the partition either. -/
theorem NoTranslations.core {part : Nat} (h : NoTranslations s part) (k : Nat) :
    ∀ e ∈ (coreAt s k).tlb ++ (coreAt s k).itlb, e.part ≠ part := by
  rcases coreAt_mem_or s k with hc | hc
  · exact h.cores _ hc
  · rw [hc]
    exact fun _ he => absurd he List.not_mem_nil

/-- A swap of a stage-1 field that waits for nothing. -/
theorem swap_stage1 {e : Instr} {f : ProxyReq → State → Served × State} (g : Partition → Partition) (hg : ∀ p, (g p).tag = p.tag)
    {v : Word} (hp : partAt s q.part = some p) (hexec : exec e s = .next (endService d q rest (f q s))) (hu : Unperformed s u)
    (hf : f q s = (.old v, onPart q.part g (lessTranslations q.part 1 0 u))) :
    ∃ t, exec e s = .next t ∧ ProxyAnswered d q rest (.proxyDone v) s t ∧ partAt t q.part = some (g p) ∧ t.mem = s.mem ∧
      NoTranslations t q.part := by
  obtain ⟨hmem, hparts, -⟩ := lessTranslations_frame q.part 1 0 hu
  have hnone := noTranslations_lessTranslations u q.part
  have hctx := (ctxOf_lessTranslations q.part 1 0 u q.phys q.ctx).trans (hu.ctx q.phys q.ctx)
  obtain ⟨hans, hpart, htmem, hclusters, hcores⟩ := swap_done (d := d) (rest := rest) g hg (v := v) hp hmem hparts hctx
  refine ⟨_, hexec, hf ▸ hans, hf ▸ hpart, hf ▸ htmem, ?_, ?_⟩
  · rw [hf]
    intro c hc
    rcases hcores c hc with hc | ⟨i, x, rfl⟩
    · exact hnone.cores c hc
    · rw [putCtx_tlb, putCtx_itlb]
      exact hnone.core q.phys
  · rw [hf, hclusters]
    exact hnone.clusters

end Sys2Proof.Machine
end

section
/-!
SUPPORT for O52. The five swaps of R435 as services of a request.
-/

namespace Sys2Proof.Machine

open Sys2Proof.Safety

variable {s : State} {d : Fin 4} {q : ProxyReq} {rest : List ProxyReq} {p : Partition}

theorem exec_hbaseSwap (h : takeProxy s d (fun k => k.swaps 0x3020 (0x3020 + 8)) = some (q, rest)) : exec (.hbaseSwap d.val) s =
    .next (endService d q rest (swapRuntime (fun v => !v.getLsbD 0) Partition.hbase putHbase q s)) :=
  congrArg Host.Outcome.next (serveWith_taken h _)

theorem exec_ovfbaseSwap (h : takeProxy s d (fun k => k.swaps 0x3010 (0x3010 + 8)) = some (q, rest)) : exec (.ovfbaseSwap d.val) s =
    .next (endService d q rest (swapRuntime (fun v => bitsOf v 15 0 == 0) Partition.ovfbase putOvfbase q s)) :=
  congrArg Host.Outcome.next (serveWith_taken h _)

theorem exec_ovfsizeSwap (h : takeProxy s d (fun k => k.swaps 0x3018 (0x3018 + 8)) = some (q, rest)) : exec (.ovfsizeSwap d.val) s =
    .next (endService d q rest (swapRuntime (fun v => bitsOf v 15 0 == 0) Partition.ovfsize putOvfsize q s)) :=
  congrArg Host.Outcome.next (serveWith_taken h _)

theorem exec_s1rootSwap (h : takeProxy s d (fun k => k.swaps 0x3000 (0x3000 + 8)) = some (q, rest)) : exec (.s1rootSwap d.val) s =
    .next (endService d q rest (swapRuntime (fun v => bitsOf v 11 0 == 0) Partition.s1root putS1root q s)) :=
  congrArg Host.Outcome.next (serveWith_taken h _)

theorem exec_s1attrSwap (h : takeProxy s d (fun k => k.swaps 0x3008 (0x3008 + 8)) = some (q, rest)) : exec (.s1attrSwap d.val) s =
    .next (endService d q rest (swapRuntime attrOk Partition.s1attr putS1attr q s)) :=
  congrArg Host.Outcome.next (serveWith_taken h _)

theorem putOvfbase_free (h : areaInUse p = false) :
    putOvfbase q p s = (.old 0, onPart q.part (fun p => { p with ovfbase := q.v }) s) := by simp [putOvfbase, h]

theorem putOvfsize_free (h : areaInUse p = false) :
    putOvfsize q p s = (.old 0, onPart q.part (fun p => { p with ovfsize := q.v }) s) := by simp [putOvfsize, h]

theorem putOvfbase_used (h : areaInUse p = true) : putOvfbase q p s = refuse 19 s := if_pos h

theorem putOvfsize_used (h : areaInUse p = true) : putOvfsize q p s = refuse 19 s := if_pos h

end Sys2Proof.Machine
end

section
namespace Sys2Proof.Machine

open Sys2Proof.Safety

/-- Settles O52: the oldest request of a lane, a read of the register block, and the five runtime registers, one by one. -/
theorem proxiesAreServed : Obligations.ProxiesAreServed := by
  unfold Obligations.ProxiesAreServed
  refine ⟨fun d lane q rest p s htake hp => ⟨exec_proxyAtomicService_owned htake, fun howned => ⟨?_, ?_, ?_, ?_⟩⟩,
    fun d q rest p s hp => ?_⟩
  · exact exec_proxyAtomicService_mem htake howned
  · intro hregs hbad hline hpart hcores
    obtain ⟨hans, hmem⟩ := serveProxy_bad_answered (d := d) (rest := rest) hbad hline hpart hcores
    exact ⟨_, exec_proxyAtomicService_mem htake howned hregs, hans, hmem, fun hret => hans.2.2 hret _ _ _ rfl⟩
  · exact exec_proxyAtomicService_swap htake
  · intro v hregs hop hv
    obtain ⟨hmem, hparts, -⟩ := answerProxy_frame q (.proxyDone v) (setProxies d rest s)
    refine ⟨_, exec_proxyAtomicService_read htake howned hregs hop, ?_⟩
    rw [readBlock_runtime hp hv]
    exact ⟨proxyAnswered_done (u := setProxies d rest s) (proxies_setProxies d rest s) rfl, hparts, hmem⟩
  · intro taken regs x hx htaken
    simp only [regs, List.mem_cons, List.not_mem_nil, or_false] at hx
    rcases hx with rfl | rfl | rfl | rfl | rfl
    case inl =>
      have hexec := exec_hbaseSwap htaken
      refine ⟨fun hrt => swap_trapped hexec (swapRuntime_user hp hrt),
        fun hrt hok => swap_trapped hexec (swapRuntime_bits hp hrt (by simpa using hok)),
        fun _ _ hovf => absurd hovf (by simp), fun hrt hok _ _ => ?_, fun _ _ hs1 => absurd hs1 (by simp)⟩
      obtain ⟨t, ht, hans, hpart, hmem⟩ := swap_set (fun p => { p with hbase := q.v }) (fun _ => rfl) hp hexec
        (swapRuntime_written hp hrt (by simpa using hok) rfl)
      exact ⟨t, ht, hans, hpart, hmem, fun hs1 => absurd hs1 (by simp)⟩
    case inr.inl =>
      have hexec := exec_ovfbaseSwap htaken
      refine ⟨fun hrt => swap_trapped hexec (swapRuntime_user hp hrt),
        fun hrt hok => swap_trapped hexec (swapRuntime_bits hp hrt (by simpa using hok)),
        fun hrt hok _ huse => swap_trapped hexec (swapRuntime_refused hp hrt (by simpa using hok) (putOvfbase_used huse)),
        fun hrt hok hfree _ => ?_, fun _ _ hs1 => absurd hs1 (by simp)⟩
      obtain ⟨t, ht, hans, hpart, hmem⟩ := swap_set (fun p => { p with ovfbase := q.v }) (fun _ => rfl) hp hexec
        (swapRuntime_written hp hrt (by simpa using hok) (putOvfbase_free (hfree (.inl rfl))))
      exact ⟨t, ht, hans, hpart, hmem, fun hs1 => absurd hs1 (by simp)⟩
    case inr.inr.inl =>
      have hexec := exec_ovfsizeSwap htaken
      refine ⟨fun hrt => swap_trapped hexec (swapRuntime_user hp hrt),
        fun hrt hok => swap_trapped hexec (swapRuntime_bits hp hrt (by simpa using hok)),
        fun hrt hok _ huse => swap_trapped hexec (swapRuntime_refused hp hrt (by simpa using hok) (putOvfsize_used huse)),
        fun hrt hok hfree _ => ?_, fun _ _ hs1 => absurd hs1 (by simp)⟩
      obtain ⟨t, ht, hans, hpart, hmem⟩ := swap_set (fun p => { p with ovfsize := q.v }) (fun _ => rfl) hp hexec
        (swapRuntime_written hp hrt (by simpa using hok) (putOvfsize_free (hfree (.inr rfl))))
      exact ⟨t, ht, hans, hpart, hmem, fun hs1 => absurd hs1 (by simp)⟩
    case inr.inr.inr.inl =>
      have hexec := exec_s1rootSwap htaken
      refine ⟨fun hrt => swap_trapped hexec (swapRuntime_user hp hrt),
        fun hrt hok => swap_trapped hexec (swapRuntime_bits hp hrt (by simpa using hok)),
        fun _ _ hovf => absurd hovf (by simp), fun hrt hok _ hready => ?_, fun hrt hok _ hwaits => ?_⟩
      · obtain ⟨hops, hacc, heng, hidle⟩ := hready (.inl rfl)
        obtain ⟨u, hu, hinv⟩ := afterInvalidation_ready ⟨hops, hacc, heng, hidle⟩ (onPart q.part fun p => { p with s1root := q.v })
        obtain ⟨t, ht, hans, hpart, hmem, hcores, hclusters⟩ := swap_stage1 (fun p => { p with s1root := q.v }) (fun _ => rfl) hp hexec hu
          (swapRuntime_written hp hrt (by simpa using hok) hinv)
        exact ⟨t, ht, hans, hpart, hmem, fun _ => ⟨hcores, hclusters⟩⟩
      · rw [hexec, swapRuntime_waits hp hrt (by simpa using hok) (afterInvalidation_waits hwaits _)]
        rfl
    case inr.inr.inr.inr =>
      have hexec := exec_s1attrSwap htaken
      refine ⟨fun hrt => swap_trapped hexec (swapRuntime_user hp hrt),
        fun hrt hok => swap_trapped hexec (swapRuntime_bits hp hrt (by simpa [attrOk] using hok)),
        fun _ _ hovf => absurd hovf (by simp), fun hrt hok _ hready => ?_, fun hrt hok _ hwaits => ?_⟩
      · obtain ⟨hops, hacc, heng, hidle⟩ := hready (.inr rfl)
        obtain ⟨u, hu, hinv⟩ := afterInvalidation_ready ⟨hops, hacc, heng, hidle⟩ (onPart q.part fun p => { p with s1attr := q.v })
        obtain ⟨t, ht, hans, hpart, hmem, hcores, hclusters⟩ := swap_stage1 (fun p => { p with s1attr := q.v }) (fun _ => rfl) hp hexec hu
          (swapRuntime_written hp hrt (by simpa [attrOk] using hok) hinv)
        exact ⟨t, ht, hans, hpart, hmem, fun _ => ⟨hcores, hclusters⟩⟩
      · rw [hexec, swapRuntime_waits hp hrt (by simpa [attrOk] using hok) (afterInvalidation_waits hwaits _)]
        rfl

end Sys2Proof.Machine
end

section
/-!
SUPPORT for O49, O51 and O60. An invariant of memory, local stores and resting clusters, and the rule of each way in which a
state, an act or the answer of a step is put together.
-/

namespace Sys2Proof.Machine

/-! ### The invariant -/

/-- What an invariant speaks of: memory, the local stores, the clusters that rest with an empty Fold Store. -/
structure Upkeep where
  memory : Prop
  locals : Prop
  clusters : Nat → Prop

/-- A memory is in the canonical form where that is asked. -/
def MemTidy (K : Upkeep) (m : Memory) : Prop := K.memory → Memory.wf m

/-- The bytes of an allocation are. -/
def AllocTidy (K : Upkeep) (a : Alloc) : Prop := K.locals → Memory.wf a.mem

/-- The bytes of every allocation of a core are. -/
def CoreTidy (K : Upkeep) (c : Core) : Prop := ∀ a ∈ c.allocs, AllocTidy K a

/-- A cluster that is asked for is out of retention with an empty Fold Store. -/
def ClusterTidy (K : Upkeep) (k : Cluster) : Prop := K.clusters k.id → k.fold = [] ∧ k.retained = false

/-- Every cluster of a list, as it is found there, is. -/
def ClustersTidy (K : Upkeep) (l : List Cluster) : Prop := ∀ k, ClusterTidy K ((findBy Cluster.id k l).getD (Cluster.reset k))

/-- Memory, local stores and clusters are as is asked. -/
structure Tidy (K : Upkeep) (s : State) : Prop where
  mem : MemTidy K s.mem
  core : CoreTidy K s.core
  others : ∀ c ∈ s.others, CoreTidy K c
  clusters : ClustersTidy K s.clusters

/-- A state that comes with a value is tidy. -/
def TidySnd {α : Type} (K : Upkeep) (p : α × State) : Prop := Tidy K p.2

/-- A state, where there is one, is tidy. -/
def TidySome (K : Upkeep) (o : Option State) : Prop := ∀ s, o = some s → Tidy K s

/-- A state that comes with a value, where there is one, is tidy. -/
def TidySomeSnd {α : Type} (K : Upkeep) (o : Option (α × State)) : Prop := ∀ p, o = some p → TidySnd K p

/-- The state that a step leaves, where it leaves one, is tidy. -/
def TidyNext (K : Upkeep) (o : Host.Outcome State Fault Refusal) : Prop := ∀ s, o = .next s → Tidy K s

/-- The state that a run of an act leaves, completed or stopped, is tidy. -/
def TidyRun {α : Type} (K : Upkeep) (r : EStateM.Result Stop State α) : Prop := Tidy K (leftBy r)

/-- An act leaves a tidy state tidy. -/
def KeepsTidy {α : Type} (K : Upkeep) (a : Act α) : Prop := ∀ s, Tidy K s → TidyRun K (a s)

variable {K : Upkeep} {s t : State} {α β γ : Type}

/-- Memory and local stores, of clusters nothing. -/
def allMemory : Upkeep := ⟨True, True, fun _ => False⟩

/-! ### Memory -/

theorem tidy_memPut {m : Memory} {l : List (Nat × Byte)} (h : MemTidy K m) : MemTidy K (memPut m l) := fun hk => memPut_wf l (h hk)

theorem tidy_memClear {m : Memory} {lo n : Nat} (h : MemTidy K m) : MemTidy K (memClear m lo n) := fun hk => memClear_wf lo n (h hk)

theorem tidy_memFilter {m : Memory} {f : Nat × Byte → Bool} (h : MemTidy K m) : MemTidy K (m.filter f) := fun hk => memFilter_wf f (h hk)

theorem tidy_memNil : MemTidy K [] := fun _ => memory_nil_wf

/-! ### States -/

/-- What the invariant looks at. -/
def tidyView (s : State) : Memory × Core × List Core × List Cluster := (s.mem, s.core, s.others, s.clusters)

/-- A change of anything else keeps it. -/
theorem Tidy.same (h : Tidy K s) (e : tidyView t = tidyView s) : Tidy K t := by
  simp only [tidyView, Prod.mk.injEq] at e
  obtain ⟨hmem, hcore, hothers, hclusters⟩ := e
  exact ⟨hmem ▸ h.mem, hcore ▸ h.core, hothers ▸ h.others, hclusters ▸ h.clusters⟩

theorem Tidy.ite {c : Prop} [Decidable c] (hs : Tidy K s) (ht : Tidy K t) : Tidy K (if c then s else t) := by
  split
  · exact hs
  · exact ht

theorem Tidy.ite_app {c : Prop} [Decidable c] {f g : State → State} (hf : Tidy K (f s)) (hg : Tidy K (g s)) :
    Tidy K ((if c then f else g) s) := by
  split
  · exact hf
  · exact hg

theorem Tidy.dite {c : Prop} [Decidable c] {f : c → State} {g : ¬c → State} (hf : ∀ h, Tidy K (f h)) (hg : ∀ h, Tidy K (g h)) :
    Tidy K (if h : c then f h else g h) := by
  split
  · exact hf _
  · exact hg _

theorem Tidy.foldl {f : State → α → State} {l : List α} (h : Tidy K s) (hf : ∀ s x, Tidy K s → Tidy K (f s x)) :
    Tidy K (l.foldl f s) := foldl_keeps hf l s h

theorem Tidy.getD {o : Option State} (ho : TidySome K o) (h : Tidy K s) : Tidy K (o.getD s) := by
  cases o with
  | none => exact h
  | some t => exact ho t rfl

/-! ### Cores -/

theorem CoreTidy.ite {x : Prop} [Decidable x] {c d : Core} (hc : CoreTidy K c) (hd : CoreTidy K d) :
    CoreTidy K (if x then c else d) := by
  split
  · exact hc
  · exact hd

theorem tidy_Core_reset {k : Nat} : CoreTidy K (Core.reset k) := fun _ h => absurd h List.not_mem_nil

theorem CoreTidy.filter {c : Core} {f : Alloc → Bool} (h : CoreTidy K c) : CoreTidy K { c with allocs := c.allocs.filter f } :=
  fun a ha => h a (List.mem_filter.mp ha).1

theorem CoreTidy.push {c : Core} {a : Alloc} (h : CoreTidy K c) (ha : AllocTidy K a) :
    CoreTidy K { c with allocs := c.allocs ++ [a] } := by
  intro b hb
  rcases List.mem_append.mp hb with hb | hb
  · exact h b hb
  · exact List.mem_singleton.mp hb ▸ ha

theorem AllocTidy.write {a : Alloc} {off : Nat} {bytes : List Byte} (h : AllocTidy K a) :
    AllocTidy K { a with mem := memWrite a.mem off bytes } := fun hk => memWrite_wf off bytes (h hk)

theorem AllocTidy.clear {a : Alloc} {off n : Nat} (h : AllocTidy K a) : AllocTidy K { a with mem := memClear a.mem off n } :=
  fun hk => memClear_wf off n (h hk)

theorem tidy_emptyAlloc {part gid rank size : Nat} {bad : List Nat} : AllocTidy K ⟨part, gid, rank, size, [], bad⟩ :=
  fun _ => memory_nil_wf

theorem tidy_onAlloc {part gid : Nat} {f : Alloc → Alloc} {c : Core} (h : CoreTidy K c) (hf : ∀ a, AllocTidy K a → AllocTidy K (f a)) :
    CoreTidy K (onAlloc part gid f c) := by
  intro a ha
  obtain ⟨b, hb, rfl⟩ := List.mem_map.mp ha
  split
  · exact hf b (h b hb)
  · exact h b hb

theorem Tidy.of_allCores (hmem : MemTidy K s.mem) (hcores : ∀ c ∈ allCores s, CoreTidy K c)
    (hclusters : ClustersTidy K s.clusters) : Tidy K s :=
  ⟨hmem, hcores _ List.mem_cons_self, fun c hc => hcores c (List.mem_cons_of_mem _ hc), hclusters⟩

theorem Tidy.cores (h : Tidy K s) : ∀ c ∈ allCores s, CoreTidy K c :=
  List.forall_mem_cons.mpr ⟨h.core, h.others⟩

theorem tidy_coreAt {k : Nat} (h : Tidy K s) : CoreTidy K (coreAt s k) := by
  rcases coreAt_mem_or s k with hc | hc
  · exact h.cores _ hc
  · exact hc ▸ tidy_Core_reset

theorem tidy_setCore {c : Core} (h : Tidy K s) (hc : CoreTidy K c) : Tidy K (setCore c s) := by
  refine Tidy.of_allCores ?_ (fun d hd => ?_) ?_
  · unfold setCore
    split <;> exact h.mem
  · rcases mem_allCores_setCore hd with rfl | hd
    · exact hc
    · exact h.cores d hd
  · unfold setCore
    split <;> exact h.clusters

theorem tidy_onCore {k : Nat} {f : Core → Core} (h : Tidy K s) (hf : ∀ c, CoreTidy K c → CoreTidy K (f c)) : Tidy K (onCore k f s) :=
  tidy_setCore h (hf _ (tidy_coreAt h))

theorem tidy_mapCores {f : Core → Core} (h : Tidy K s) (hf : ∀ c, CoreTidy K c → CoreTidy K (f c)) : Tidy K (mapCores f s) where
  mem := h.mem
  core := hf _ h.core
  others := List.forall_mem_map.mpr fun c hc => hf c (h.others c hc)
  clusters := h.clusters

theorem tidy_focusOn {k : Nat} (h : Tidy K s) : Tidy K (focusOn k s) := by
  unfold focusOn
  split
  · exact h
  · refine ⟨h.mem, tidy_coreAt h, fun c hc => ?_, h.clusters⟩
    rcases mem_putBy hc with rfl | hc
    · exact h.core
    · exact h.others c (List.mem_filter.mp hc).1

theorem tidy_putCtx {i : Nat} {x : Ctx} {c : Core} (h : CoreTidy K c) : CoreTidy K (putCtx c i x) := by
  unfold CoreTidy
  rw [putCtx_allocs]
  exact h

theorem tidy_onCtx {k i : Nat} {f : Ctx → Ctx} (h : Tidy K s) : Tidy K (onCtx k i f s) :=
  tidy_onCore h fun _ hc => tidy_putCtx hc

theorem tidy_onCur {f : Ctx → Ctx} (h : Tidy K s) : Tidy K (onCur f s) :=
  ⟨h.mem, tidy_putCtx h.core, h.others, h.clusters⟩

/-! ### Clusters -/

theorem ClusterTidy.ite {x : Prop} [Decidable x] {c d : Cluster} (hc : ClusterTidy K c) (hd : ClusterTidy K d) :
    ClusterTidy K (if x then c else d) := by
  split
  · exact hc
  · exact hd

theorem tidy_Cluster_reset {k : Nat} : ClusterTidy K (Cluster.reset k) := fun _ => ⟨rfl, rfl⟩

/-- What takes entries out of a Fold Store adds none. -/
theorem ClusterTidy.fewer {k : Cluster} {f : FoldEntry → Bool} (h : ClusterTidy K k) : ClusterTidy K { k with fold := k.fold.filter f } :=
  fun hk => ⟨by rw [(h hk).1, List.filter_nil], (h hk).2⟩

theorem ClusterTidy.folded {k : Cluster} {f : FoldEntry → Bool} {g : FoldEntry → FoldEntry} (h : ClusterTidy K k) :
    ClusterTidy K { k with fold := modifyWhere f g k.fold } := fun hk => ⟨by rw [(h hk).1]; rfl, (h hk).2⟩

theorem tidy_clusterAt {k : Nat} (h : Tidy K s) : ClusterTidy K (clusterAt s k) := h.clusters k

theorem tidy_onCluster {k : Nat} {f : Cluster → Cluster} (h : Tidy K s) (hf : ∀ c, ClusterTidy K c → ClusterTidy K (f c)) :
    Tidy K (onCluster k f s) where
  mem := h.mem
  core := h.core
  others := h.others
  clusters j := by
    unfold onCluster
    by_cases hj : (f (clusterAt s k)).id = j
    · subst hj
      rw [findBy_putBy]
      exact hf _ (tidy_clusterAt h)
    · rw [findBy_putBy_ne _ _ hj]
      exact h.clusters j

theorem tidy_anyCluster {k : Cluster} : ClusterTidy allMemory k := fun hk => hk.elim

theorem clustersTidy_of_forall {l : List Cluster} (h : ∀ k ∈ l, ClusterTidy K k) : ClustersTidy K l := by
  intro k
  cases hf : findBy Cluster.id k l with
  | none => exact tidy_Cluster_reset
  | some c => exact h c (mem_of_findBy hf)

theorem tidy_clusterMap {l : List Cluster} {f : Cluster → Cluster} (h : ClustersTidy K l)
    (hf : ∀ c, ClusterTidy K c → ClusterTidy K (f c)) (hid : ∀ c, (f c).id = c.id := by intro; rfl) : ClustersTidy K (l.map f) := by
  intro k
  have hk := h k
  rw [findBy_map hid]
  cases hc : findBy Cluster.id k l with
  | none => exact tidy_Cluster_reset
  | some c =>
    rw [hc] at hk
    exact hf c hk

/-! ### Values with a state -/

theorem TidySnd.mk {x : α} (h : Tidy K s) : TidySnd K (x, s) := h

theorem TidySnd.snd {p : α × State} (h : TidySnd K p) : Tidy K p.2 := h

theorem TidySnd.of_eq {p : α × State} {x : α} (e : p = (x, s)) (h : TidySnd K p) : Tidy K s := by
  subst e
  exact h

theorem TidySnd.ite {c : Prop} [Decidable c] {p q : α × State} (hp : TidySnd K p) (hq : TidySnd K q) :
    TidySnd K (if c then p else q) := by
  split
  · exact hp
  · exact hq

theorem TidySnd.foldl {f : α × State → β → α × State} {l : List β} {p : α × State} (h : TidySnd K p)
    (hf : ∀ p x, TidySnd K p → TidySnd K (f p x)) : TidySnd K (l.foldl f p) :=
  List.foldlRecOn l f h fun p hp x _ => hf p x hp

theorem TidySome.none : TidySome K none := fun _ h => by cases h

theorem TidySome.some (h : Tidy K s) : TidySome K (some s) := fun t e => by
  cases e
  exact h

theorem TidySome.of_eq {o : Option State} (e : o = .some s) (h : TidySome K o) : Tidy K s := h s e

theorem TidySome.ite {c : Prop} [Decidable c] {o u : Option State} (ho : TidySome K o) (hu : TidySome K u) :
    TidySome K (if c then o else u) := by
  split
  · exact ho
  · exact hu

theorem TidySome.map {o : Option α} {f : α → State} (hf : ∀ x, Tidy K (f x)) : TidySome K (o.map f) := by
  intro t e
  obtain ⟨x, -, rfl⟩ := Option.map_eq_some_iff.mp e
  exact hf x

theorem TidySome.bind {o : Option α} {f : α → Option State} (hf : ∀ x, TidySome K (f x)) : TidySome K (o.bind f) := by
  intro t e
  obtain ⟨x, -, hx⟩ := Option.bind_eq_some_iff.mp e
  exact hf x t hx

theorem TidySome.findSome? {l : List α} {f : α → Option State} (hf : ∀ x, TidySome K (f x)) : TidySome K (l.findSome? f) := by
  intro t e
  obtain ⟨x, -, hx⟩ := List.exists_of_findSome?_eq_some e
  exact hf x t hx

theorem TidySome.orElse {o u : Option State} (ho : TidySome K o) (hu : TidySome K u) : TidySome K (o <|> u) := by
  cases o with
  | none => exact hu
  | some t => exact ho

theorem TidySomeSnd.some {p : α × State} (h : TidySnd K p) : TidySomeSnd K (some p) := fun _ e => by
  cases e
  exact h

theorem TidySomeSnd.of_eq {o : Option (α × State)} {x : α} (e : o = .some (x, s)) (h : TidySomeSnd K o) : Tidy K s := h _ e

theorem TidySomeSnd.map {o : Option β} {f : β → α × State} (hf : ∀ x, TidySnd K (f x)) : TidySomeSnd K (o.map f) := by
  intro p e
  obtain ⟨x, -, rfl⟩ := Option.map_eq_some_iff.mp e
  exact hf x

theorem TidySomeSnd.ofSome {o : Option State} {f : State → α × State} (ho : TidySome K o) (hf : ∀ s, Tidy K s → TidySnd K (f s)) :
    TidySomeSnd K (o.map f) := by
  intro p e
  obtain ⟨t, ht, rfl⟩ := Option.map_eq_some_iff.mp e
  exact hf t (ho t ht)

theorem TidySome.ofSome {o : Option State} {f : State → State} (ho : TidySome K o) (hf : ∀ s, Tidy K s → Tidy K (f s)) :
    TidySome K (o.map f) := by
  intro p e
  obtain ⟨t, ht, rfl⟩ := Option.map_eq_some_iff.mp e
  exact hf t (ho t ht)

/-! ### Runs of acts -/

namespace TidyRun

theorem ok {x : α} (h : Tidy K s) : TidyRun K (.ok x s : EStateM.Result Stop State α) := h

theorem error {x : Stop} (h : Tidy K s) : TidyRun K (.error x s : EStateM.Result Stop State α) := h

end TidyRun

/-! ### Acts -/

namespace KeepsTidy

variable {a b : Act α} {f : α → Act β}

theorem of_eq {x : α} (e : a s = .ok x t) (h : KeepsTidy K a) (hs : Tidy K s) : Tidy K t := by
  have ht := h s hs
  rw [e] at ht
  exact ht

theorem of_stop {x : Stop} (e : a s = .error x t) (h : KeepsTidy K a) (hs : Tidy K s) : Tidy K t := by
  have ht := h s hs
  rw [e] at ht
  exact ht

theorem pure {x : α} : KeepsTidy K (Pure.pure x : Act α) := fun _ h => h

theorem throw {e : Stop} : KeepsTidy K (throw e : Act α) := fun _ h => h

theorem trap {c : BitVec 8} {v x : Word} : KeepsTidy K (trapAct c v x : Act α) := fun _ h => h

theorem stall {p : Bool} : KeepsTidy K (stallAct p : Act α) := fun _ h => h

theorem set (h : Tidy K t) : KeepsTidy K (set t : Act Unit) := fun _ _ => h

theorem modify {g : State → State} (h : ∀ s, Tidy K s → Tidy K (g s)) : KeepsTidy K (modify g : Act Unit) := h

theorem bind (ha : KeepsTidy K a) (hf : ∀ x, KeepsTidy K (f x)) : KeepsTidy K (a >>= f) := by
  intro s hs
  rw [bind_run]
  cases h : a s with
  | ok x t => exact hf x t (of_eq h ha hs)
  | error e t => exact of_stop h ha hs

/-- What follows a look at the state may count on it. -/
theorem get_bind {g : State → Act β} (hg : ∀ s, Tidy K s → KeepsTidy K (g s)) : KeepsTidy K ((MonadState.get : Act State) >>= g) :=
  fun s hs => hg s hs s hs

theorem ite {c : Prop} [Decidable c] (ha : KeepsTidy K a) (hb : KeepsTidy K b) : KeepsTidy K (if c then a else b) := by
  split
  · exact ha
  · exact hb

theorem forM {g : γ → Act PUnit} (hg : ∀ x, KeepsTidy K (g x)) : ∀ {l : List γ}, KeepsTidy K (l.forM g)
  | [] => pure
  | x :: _ => bind (hg x) fun _ => forM hg

theorem foldlM {g : β → γ → Act β} (hg : ∀ b x, KeepsTidy K (g b x)) : ∀ {l : List γ} {b : β}, KeepsTidy K (l.foldlM g b)
  | [], _ => pure
  | x :: _, b => bind (hg b x) fun _ => foldlM hg

theorem filterAuxM {g : γ → Act Bool} (hg : ∀ x, KeepsTidy K (g x)) : ∀ {l acc : List γ}, KeepsTidy K (l.filterAuxM g acc)
  | [], _ => pure
  | x :: _, _ => bind (hg x) fun _ => filterAuxM hg

theorem filterM {g : γ → Act Bool} (hg : ∀ x, KeepsTidy K (g x)) {l : List γ} : KeepsTidy K (l.filterM g) :=
  bind (filterAuxM hg) fun _ => pure

theorem mapM {g : γ → Act β} (hg : ∀ x, KeepsTidy K (g x)) {l : List γ} : KeepsTidy K (l.mapM g) := by
  induction l with
  | nil =>
    rw [List.mapM_nil]
    exact pure
  | cons x l ih =>
    rw [List.mapM_cons]
    exact bind (hg x) fun _ => bind ih fun _ => pure

/-- Work whose stop is an answer. -/
theorem attempt (ha : KeepsTidy K a) : KeepsTidy K (attempt a) := by
  intro s hs
  cases h : a s with
  | ok x t =>
    rw [attempt_ok h]
    exact of_eq h ha hs
  | error e t =>
    rw [attempt_error h]
    exact of_stop h ha hs

end KeepsTidy

theorem tidy_runHw {a : Act Unit} (ha : KeepsTidy K a) (h : Tidy K s) : Tidy K (runHw a s) := by
  unfold runHw
  cases hr : a s with
  | ok x t => exact KeepsTidy.of_eq hr ha h
  | error e t => exact KeepsTidy.of_stop hr ha h

/-! ### Steps -/

namespace TidyNext

theorem next (h : Tidy K s) : TidyNext K (.next s) := fun t e => by
  cases e
  exact h

theorem fault {f : Fault} : TidyNext K (.fault f) := fun _ e => by cases e

theorem dite {c : Prop} [Decidable c] {f : c → Host.Outcome State Fault Refusal} {g : ¬c → Host.Outcome State Fault Refusal}
    (hf : ∀ h, TidyNext K (f h)) (hg : ∀ h, TidyNext K (g h)) : TidyNext K (if h : c then f h else g h) := by
  split
  · exact hf _
  · exact hg _

theorem of_eq {o : Host.Outcome State Fault Refusal} (e : o = .next s) (h : TidyNext K o) : Tidy K s := h s e

theorem refused {r : Refusal} : TidyNext K (.refused r) := fun _ e => by cases e

theorem ite {c : Prop} [Decidable c] {o u : Host.Outcome State Fault Refusal} (ho : TidyNext K o) (hu : TidyNext K u) :
    TidyNext K (if c then o else u) := by
  split
  · exact ho
  · exact hu

end TidyNext

end Sys2Proof.Machine
end

section
/-!
SUPPORT for O49 and O51, and O60. No function of the model takes memory or a local store out of the canonical form: one lemma for each
function that gives a state, a core, a cluster, an act or the answer of a step, in the order of the model's files. A function that may
put entries into a Fold Store or let a cluster rest keeps `allMemory`, every other one whatever is asked.
-/

namespace Sys2Proof.Machine

-- One proof after another: proofs checked side by side need more memory than the check of the whole text has.
set_option Elab.async false

section

variable {K : Upkeep} {s t : State} {α β γ : Type}

/-! ### Sys2Proof/Machine/State.lean -/

theorem tidy_State_reset : Tidy K State.reset :=
  ⟨tidy_memNil, tidy_Core_reset, fun _ h => absurd h List.not_mem_nil, fun _ => tidy_Cluster_reset⟩

/-! ### Sys2Proof/Machine/Store.lean -/

theorem tidy_onPart {tag : Nat} {f : Partition → Partition} (h : Tidy K s) : Tidy K (onPart tag f s) := h.same rfl

theorem tidy_onGroup {tag gid : Nat} {f : Group → Group} (h : Tidy K s) : Tidy K (onGroup tag gid f s) := tidy_onPart h

theorem tidy_onRecorder {r : Nat} {f : BlackBox → BlackBox} (h : Tidy K s) : Tidy K (onRecorder r f s) :=
  .dite (fun _ => h.same rfl) fun _ => h.same rfl

theorem tidy_record {r code part core : Nat} {d0 d1 : Word} (h : Tidy K s) : Tidy K (record r code part core d0 d1 s) :=
  tidy_onRecorder h

theorem tidy_onLaunch {tag slot : Nat} {f : Launch → Launch} (h : Tidy K s) : Tidy K (onLaunch tag slot f s) := tidy_onPart h

theorem tidy_popUp {tag slot : Nat} (h : Tidy K s) : Tidy K (popUp tag slot s) := tidy_onLaunch h

theorem tidy_popDown {tag slot : Nat} (h : Tidy K s) : Tidy K (popDown tag slot s) := tidy_onLaunch h

theorem tidy_launchFails {tag slot code failed : Nat} (h : Tidy K s) : Tidy K (launchFails tag slot code failed s) := tidy_onLaunch h

theorem tidy_hardwareRefused {tag slot code : Nat} {addr : Word} (h : Tidy K s) : Tidy K (hardwareRefused tag slot code addr s) :=
  tidy_launchFails (tidy_record h)

theorem tidy_refillReady {tag : Nat} : ∀ {n : Nat} {s : State}, Tidy K s → Tidy K (refillReady tag n s)
  | 0, _, h => h
  | n + 1, s, h => by
    unfold refillReady
    split
    · exact h
    · split
      · exact h
      · exact tidy_refillReady (tidy_onCluster (tidy_onPart h) fun _ hk => hk)

theorem tidy_readyPush {cl : Nat} {e : ReadyEntry} (h : Tidy K s) : TidySome K (readyPush cl e s) := by
  unfold readyPush
  refine .ite (.some (tidy_onCluster h fun _ hc => hc)) ?_
  split
  · exact .none
  · exact .ite (.some (tidy_onPart h)) .none

theorem tidy_readyContinuation {e : ReadyEntry} (h : Tidy K s) : Tidy K (readyContinuation e s) := by
  unfold readyContinuation
  split
  · rename_i he
    exact TidySome.of_eq he (tidy_readyPush h)
  · exact tidy_onGroup (tidy_popDown (tidy_hardwareRefused h))

theorem tidy_abortTxn {reason cause : Nat} {c : Core} (hc : CoreTidy K c) : CoreTidy K (abortTxn reason cause c) := by
  unfold abortTxn
  split
  · exact hc
  · extract_lets k src x1
    exact hc

theorem tidy_conflict {line : Nat} {write : Bool} {c : Core} (hc : CoreTidy K c) : CoreTidy K (conflict line write c) := by
  unfold conflict
  split
  · exact hc
  · exact .ite (tidy_abortTxn hc) hc

theorem tidy_errorRecorded {part phys line : Nat} (h : Tidy K s) : Tidy K (errorRecorded part phys line s) := tidy_record h

theorem tidy_wakeCore {hit : Place → Bool} {c : Core} (hc : CoreTidy K c) : CoreTidy K (wakeCore hit c) := hc

theorem tidy_wakeMonitors {cl : Option Nat} {p : Place} {n : Nat} (h : Tidy K s) : Tidy K (wakeMonitors cl p n s) :=
  tidy_mapCores h fun _ hc => .ite (tidy_wakeCore hc) hc

theorem tidy_refillWatches {cl : Nat} (h : Tidy K s) : Tidy K (refillWatches cl s) := by
  unfold refillWatches
  extract_lets all
  refine .foldl h fun _ _ hs1 => ?_
  refine .ite hs1 ?_
  extract_lets s2
  have hs2 : Tidy K s2 := tidy_onPart hs1
  exact .ite (tidy_readyContinuation hs2) (tidy_onCluster hs2 fun _ hc => hc)

theorem tidy_refillQueues (h : Tidy K s) : Tidy K (refillQueues s) := by
  unfold refillQueues
  extract_lets s1
  have hs1 : Tidy K s1 := .foldl h fun _ _ hs2 => tidy_refillReady hs2
  exact .foldl hs1 fun _ _ hs2 => tidy_refillWatches hs2

theorem tidy_evalWatchesOf {point : Option Nat} {p : Place} {n cl : Nat} (h : Tidy K s) : Tidy K (evalWatchesOf point p n cl s) := by
  unfold evalWatchesOf
  extract_lets due ws s1
  have hs1 : Tidy K s1 := tidy_onCluster h fun _ hc => hc
  exact .ite (tidy_refillWatches (.foldl hs1 fun _ _ hs2 => tidy_readyContinuation hs2)) h

theorem tidy_evalOverflow {p : Place} {n : Nat} (h : Tidy K s) : Tidy K (evalOverflow p n s) := by
  unfold evalOverflow
  extract_lets due hit
  exact .ite h (.foldl (h.same rfl) fun _ _ hs1 => tidy_readyContinuation hs1)

theorem tidy_written {point : Option Nat} {p : Place} {n : Nat} (h : Tidy K s) : Tidy K (written point p n s) := by
  unfold written
  extract_lets s1
  have hs1 : Tidy K s1 := tidy_wakeMonitors h
  split
  · exact tidy_evalWatchesOf hs1
  · exact tidy_evalOverflow (.foldl hs1 fun _ _ hs2 => tidy_evalWatchesOf hs2)

theorem tidy_writtenCells {point : Option Nat} {cells : List (Nat × Byte)} (h : Tidy K s) : Tidy K (writtenCells point cells s) :=
  .foldl h fun _ _ hs1 => tidy_written hs1

theorem tidy_enterDie {line : Nat} (h : Tidy K s) : Tidy K (enterDie line s) := by
  unfold enterDie
  refine .ite h ?_
  extract_lets new mates out
  exact .ite (h.same rfl) (h.same rfl)

theorem tidy_homePut {cells : List (Nat × Byte)} (h : Tidy K s) : Tidy K (homePut cells s) := by
  unfold homePut
  split
  · exact h
  · extract_lets line s1 s2
    have hs1 : Tidy K s1 := ⟨tidy_memPut h.mem, h.core, h.others, h.clusters⟩
    have hs2 : Tidy K s2 := tidy_enterDie hs1
    exact .ite hs2 (tidy_writtenCells hs2)

theorem tidy_spoilTiles {cl line : Nat} (h : Tidy K s) : Tidy K (spoilTiles cl line s) := tidy_mapCores h fun _ hc => .ite hc hc

theorem tidy_clusterPut {cl : Nat} {cells : List (Nat × Byte)} (h : Tidy K s) : Tidy K (clusterPut cl cells s) := by
  unfold clusterPut
  split
  · exact h
  · extract_lets line s1 s2
    have hs1 : Tidy K s1 := tidy_onCluster h fun _ hc => hc
    have hs2 : Tidy K s2 := tidy_spoilTiles hs1
    exact tidy_writtenCells hs2

theorem tidy_takePartials {home : Option Nat} {line : Nat} (h : Tidy K s) : TidySnd K (takePartials home line s) := by
  unfold takePartials
  extract_lets here ps
  exact .ite (.mk h) (.mk (tidy_mapCores (h.same rfl) fun _ hc => hc))

theorem tidy_combineAt {home : Option Nat} {line : Nat} (h : Tidy K s) : Tidy K (combineAt home line s) := by
  unfold combineAt
  split
  · exact h
  · rename_i he
    extract_lets s2 s3
    have hs2 : Tidy K s2 := .same (TidySnd.of_eq he (tidy_takePartials h)) rfl
    have hs3 : Tidy K s3 := .ite (tidy_errorRecorded hs2) hs2
    refine .foldl hs3 fun _ _ hs4 => ?_
    extract_lets old new cells
    split
    · exact tidy_clusterPut hs4
    · exact tidy_homePut hs4

theorem tidy_reachHome {line : Nat} (h : Tidy K s) : Tidy K (reachHome line s) := .ite (tidy_combineAt h) h

theorem tidy_homeWrite {cells : List (Nat × Byte)} (h : Tidy K s) : Tidy K (homeWrite cells s) := by
  unfold homeWrite
  split
  · exact h
  · exact tidy_homePut (tidy_reachHome h)

theorem tidy_homeWriteBytes {pa : Nat} {bytes : List Byte} (h : Tidy K s) : Tidy K (homeWriteBytes pa bytes s) := by
  unfold homeWriteBytes
  extract_lets cells
  exact .foldl h fun _ _ hs1 => tidy_homeWrite hs1

theorem tidy_writeBack {cl line : Nat} (h : Tidy K s) : Tidy K (writeBack cl line s) := by
  unfold writeBack
  split
  · exact h
  · refine .ite h ?_
    extract_lets s1 s2
    have hs1 : Tidy K s1 := tidy_onCluster h fun _ hc => hc
    have hs2 : Tidy K s2 := .ite (tidy_errorRecorded hs1) hs1
    exact tidy_homeWrite hs2

theorem tidy_setAD {write : Bool} {pa e : Nat} (h : Tidy K s) : Tidy K (setAD write pa e s) := by
  unfold setAD
  extract_lets low new
  exact .ite h (tidy_homeWrite h)

theorem tidy_stashWriteBack {phys : Nat} {l : StashLine} {remove : Bool} (h : Tidy K s) : Tidy K (stashWriteBack phys l remove s) := by
  unfold stashWriteBack
  extract_lets cells same s1 s2
  have hs1 : Tidy K s1 := tidy_onCore h fun _ hc => hc
  have hs2 : Tidy K s2 := .ite hs1 (tidy_setAD (tidy_setAD hs1))
  exact .ite hs1 (.ite (tidy_clusterPut hs2) (tidy_homeWrite hs2))

theorem tidy_recallStash {cl line : Nat} (h : Tidy K s) : Tidy K (recallStash cl line s) :=
  .foldl h fun _ _ hs1 => .ite (.foldl hs1 fun _ _ hs2 => tidy_stashWriteBack hs2) hs1

theorem tidy_forgetLine {cl line : Nat} (h : Tidy K s) : Tidy K (forgetLine cl line s) :=
  tidy_mapCores (tidy_spoilTiles (tidy_onCluster h fun _ hc => hc)) fun _ hc => .ite hc hc

theorem tidy_evictLine {cl line : Nat} (h : Tidy K s) : Tidy K (evictLine cl line s) := by
  unfold evictLine
  extract_lets s1 s2
  have hs1 : Tidy K s1 := tidy_recallStash h
  have hs2 : Tidy K s2 := .ite (tidy_combineAt hs1) hs1
  exact tidy_forgetLine (tidy_writeBack hs2)

theorem tidy_makeRoom {cl line : Nat} (h : Tidy K s) : Tidy K (makeRoom cl line s) := by
  unfold makeRoom
  extract_lets may
  exact .ite h (tidy_evictLine (h.same rfl))

theorem tidy_fillLine {cl part line : Nat} (h : Tidy K s) : Tidy K (fillLine cl part line s) := by
  unfold fillLine
  split
  · exact h
  · extract_lets s1 bytes
    have hs1 : Tidy K s1 := tidy_reachHome (tidy_makeRoom h)
    exact tidy_onCluster hs1 fun _ hc => hc

theorem tidy_combineCluster {cl line : Nat} (h : Tidy K s) : Tidy K (combineCluster cl line s) := by
  unfold combineCluster
  split
  · exact h
  · exact tidy_combineAt (tidy_fillLine h)

theorem tidy_reachCluster {cl part line : Nat} (h : Tidy K s) : Tidy K (reachCluster cl part line s) :=
  tidy_combineCluster (tidy_fillLine h)

theorem tidy_dropLine {cl line : Nat} (h : Tidy K s) : Tidy K (dropLine cl line s) :=
  tidy_evictLine (tidy_combineCluster (tidy_recallStash h))

theorem tidy_invalLine {cl line : Nat} (h : Tidy K s) : Tidy K (invalLine cl line s) := by
  unfold invalLine
  refine .ite ?_ (tidy_dropLine h)
  extract_lets s1
  have hs1 : Tidy K s1 := tidy_writeBack (tidy_combineCluster (tidy_recallStash h))
  exact tidy_onCluster hs1 fun _ hc => hc

theorem tidy_unpinLines {cl : Nat} {lines : List Nat} (h : Tidy K s) : Tidy K (unpinLines cl lines s) := by
  unfold unpinLines
  extract_lets s1
  have hs1 : Tidy K s1 := tidy_onCluster h fun _ hc => hc
  exact .foldl hs1 fun _ _ hs2 => .ite (tidy_dropLine hs2) hs2

theorem tidy_foreignStore {det : Bool} {line : Nat} (h : Tidy K s) : Tidy K (foreignStore det line s) := .ite (h.same rfl) h

theorem tidy_meetTxns {cl line : Nat} {write : Bool} {self : Option Nat} (h : Tidy K s) : Tidy K (meetTxns cl line write self s) :=
  tidy_mapCores h fun _ hc => .ite (tidy_conflict hc) hc

theorem tidy_snoopL1 {cl line phys : Nat} (h : Tidy K s) : Tidy K (snoopL1 cl line phys s) := tidy_mapCores h fun _ hc => .ite hc hc

theorem tidy_storeAt {phys part : Nat} {det self cacheable : Bool} {p : Place} {bytes : List Byte} (h : Tidy K s) :
    Tidy K (storeAt phys part det self cacheable p bytes s) := by
  unfold storeAt
  split
  · extract_lets mask s1
    have hs1 : Tidy K s1 := by
      refine tidy_onCore h fun _ hc => ?_
      extract_lets src
      have hsrc : CoreTidy K src := tidy_onAlloc hc fun _ ha => ha.write
      exact hsrc
    exact tidy_written hs1
  · extract_lets line cl s1 s2 s3 s4
    have hs1 : Tidy K s1 := tidy_foreignStore h
    have hs2 : Tidy K s2 := tidy_meetTxns hs1
    have hs3 : Tidy K s3 := tidy_recallStash hs2
    have hs4 : Tidy K s4 := .ite (hs3.same rfl) hs3
    exact .ite (tidy_clusterPut (tidy_snoopL1 (tidy_reachCluster hs4))) (tidy_homeWrite hs2)

theorem tidy_storeSpan {phys part : Nat} {det cacheable : Bool} : ∀ {n : Nat} {p : Place} {bytes : List Byte} {s : State}, Tidy K s →
    Tidy K (storeSpan phys part det cacheable p bytes n s)
  | 0, _, _, _, h => h
  | n + 1, p, bytes, s, h => by
    unfold storeSpan
    exact .ite h (tidy_storeSpan (tidy_storeAt h))

theorem tidy_readAt {phys part : Nat} {self cacheable : Bool} {p : Place} (h : Tidy K s) :
    Tidy K (readAt phys part self cacheable p s) := by
  unfold readAt
  split
  · exact h
  · extract_lets cl s1
    have hs1 : Tidy K s1 := tidy_meetTxns h
    exact .ite (tidy_reachCluster hs1) (tidy_reachHome hs1)

theorem tidy_rmwAt {phys part : Nat} {det self cacheable : Bool} {scope : Scope} {op : RmwOp} {size : Nat} {v : Word} {p : Place}
    (h : Tidy K s) : TidySnd K (rmwAt phys part det self cacheable scope op size v p s) := by
  unfold rmwAt
  extract_lets atCluster s1 s2 old new changes seen
  have hs1 : Tidy K s1 := by
    unfold s1
    split
    · extract_lets s3
      have hs3 : Tidy K s3 := tidy_foreignStore h
      exact .ite (tidy_dropLine (tidy_meetTxns hs3)) (.ite (tidy_recallStash hs3) hs3)
    · exact h
  have hs2 : Tidy K s2 := tidy_readAt hs1
  exact .ite (.mk (tidy_storeAt hs2)) (.mk (.ite (tidy_wakeMonitors hs2) hs2))

/-! ### Sys2Proof/Machine/Translate.lean -/

theorem tidy_onFunc {vf : Nat} {f : Function → Function} (h : Tidy K s) : Tidy K (onFunc vf f s) := h.same rfl

theorem tidy_onVx {phys ctx : Nat} {f : VxOp → VxOp} (h : Tidy K s) : Tidy K (onVx phys ctx f s) := tidy_onCore h fun _ hc => hc

theorem tidy_setAwait {w : Waiter} {a : Await} (h : Tidy K s) : Tidy K (setAwait w a s) := by
  unfold setAwait
  split
  · exact tidy_onCtx h
  · exact .dite (fun _ => tidy_onCore h fun _ hc => hc) fun _ => h
  · split
    · exact tidy_onVx h
    · exact h
  · exact h

theorem tidy_raiseRequest {p : Partition} {page kinds : Nat} {va : Word} {w : Waiter} (h : Tidy K s) :
    Tidy K (raiseRequest p page kinds va w s) := by
  unfold raiseRequest
  extract_lets mine join
  exact tidy_onFunc (tidy_setAwait h)

theorem tidy_dropReply {vf page : Nat} {w : Waiter} (h : Tidy K s) : Tidy K (dropReply vf page w s) := .ite (tidy_onFunc h) h

theorem tidy_pageMiss {p : Partition} {ipa kinds : Nat} {va : Word} {w : Waiter} : KeepsTidy K (pageMiss p ipa kinds va w : Act α) := by
  unfold pageMiss
  refine .get_bind fun _ _ => ?_
  extract_lets page jp jp1
  have hjp : ∀ (x : Unit), KeepsTidy K (jp x) := fun _ => .bind (.modify fun _ => tidy_raiseRequest) fun _ => .stall
  have hjp1 : ∀ (x : Unit), KeepsTidy K (jp1 x) := by
    intro _
    refine .bind (.modify fun _ => tidy_dropReply) fun _ => ?_
    split
    · exact .ite (.bind .trap fun _ => hjp ()) (hjp ())
    · exact hjp ()
  exact .ite (.bind .trap fun _ => hjp1 ()) (hjp1 ())

theorem tidy_onBank {b : Nat} {f : Bank → Bank} (h : Tidy K s) : Tidy K (onBank b f s) := h.same rfl

theorem tidy_raiseWake {b : Nat} (h : Tidy K s) : Tidy K (raiseWake b s) := by
  unfold raiseWake
  split
  · exact .ite (h.same rfl) (h.same rfl)
  · exact h.same rfl

theorem tidy_demandWake {b : Nat} (h : Tidy K s) : Tidy K (demandWake b s) := .ite h (.ite (h.same rfl) (tidy_raiseWake h))

theorem tidy_nextInLine {front : Nat} (h : Tidy K s) : Tidy K (nextInLine front s) := by
  unfold nextInLine
  extract_lets s1
  have hs1 : Tidy K s1 := h.same rfl
  split
  · exact hs1
  · exact tidy_raiseWake (hs1.same rfl)

theorem tidy_preWake {b : Nat} (h : Tidy K s) : Tidy K (preWake b s) := .ite (h.same rfl) h

theorem tidy_touchRegion {phys sh pa : Nat} (h : Tidy K s) : Tidy K (touchRegion phys sh pa s) := by
  unfold touchRegion
  split
  · exact h
  · extract_lets b more t
    have ht : Tidy K t := tidy_onCore h fun _ hc => hc
    exact .ite ht (.foldl ht fun _ _ hs1 => tidy_preWake hs1)

theorem tidy_clearBank {b : Nat} (h : Tidy K s) : Tidy K (clearBank b s) := by
  unfold clearBank
  split
  exact ⟨tidy_memClear h.mem, h.core, h.others, h.clusters⟩

theorem tidy_activate {b asked : Nat} {fromOff touched : Bool} (h : Tidy K s) : Tidy K (activate b asked fromOff touched s) := by
  unfold activate
  extract_lets s1
  have hs1 : Tidy K s1 := .ite (tidy_clearBank h) h
  exact tidy_onBank hs1

theorem tidy_wakeNow {b : Nat} (h : Tidy K s) : Tidy K (wakeNow b s) := by
  unfold wakeNow
  refine .ite (tidy_onBank h) ?_
  extract_lets fromOff asked s1
  have hs1 : Tidy K s1 := tidy_activate (h.same rfl)
  exact .ite hs1 (tidy_nextInLine hs1)

theorem tidy_freeAct : KeepsTidy K freeAct := .get_bind fun _ hs => .bind (.set (hs.same rfl)) fun _ => .pure

theorem tidy_sampleAt {phys part source sel x : Nat} (h : Tidy K s) : Tidy K (sampleAt phys part source sel x s) := by
  unfold sampleAt
  extract_lets cl
  exact .ite h (tidy_onCluster h fun _ hc => hc)

theorem tidy_sampleFree {phys part source sel : Nat} : KeepsTidy K (sampleFree phys part source sel) :=
  .get_bind fun _ _ => .ite .pure (.bind tidy_freeAct fun _ => .modify fun _ => tidy_sampleAt)

theorem tidy_sampleBin {phys part source sel bin : Nat} : KeepsTidy K (sampleBin phys part source sel bin) :=
  .get_bind fun _ _ => .ite .pure (.bind tidy_freeAct fun _ => .modify fun _ => tidy_sampleAt)

theorem tidy_touchBank {ag : Agent} {b line : Nat} : KeepsTidy K (touchBank ag b line) := by
  unfold touchBank
  refine .get_bind fun _ hs => ?_
  refine .ite (.set (tidy_wakeNow hs)) ?_
  extract_lets s1
  have hs1 : Tidy K s1 := tidy_demandWake hs
  exact .bind (.set (.ite hs1 (hs1.same rfl))) fun _ => .stall

theorem tidy_sampleDram {ag : Agent} {pa : Nat} : KeepsTidy K (sampleDram ag pa) := by
  unfold sampleDram
  refine .get_bind fun _ _ => ?_
  extract_lets sel
  split
  · exact tidy_sampleBin
  · exact tidy_sampleBin
  · exact tidy_sampleFree

theorem tidy_touchPa {ag : Agent} {pa : Nat} : KeepsTidy K (touchPa ag pa) := by
  unfold touchPa
  refine .get_bind fun _ _ => ?_
  refine .ite ?_ .pure
  refine .bind tidy_touchBank fun x => ?_
  extract_lets jp
  have hjp : ∀ (x : Unit), KeepsTidy K (jp x) := fun _ => .modify fun _ hs1 => tidy_enterDie (hs1.same rfl)
  exact .ite (.bind tidy_sampleDram fun _ => hjp ()) (hjp ())

theorem tidy_readEntry {ag : Agent} {va : Word} {pa : Nat} : KeepsTidy K (readEntry ag va pa) := by
  unfold readEntry
  refine .get_bind fun _ hs => ?_
  extract_lets cl jp jp1 jp2
  have hjp : ∀ (x : Unit), KeepsTidy K (jp x) := by
    intro x
    refine .bind (.modify fun _ => tidy_reachHome) fun _ => ?_
    refine .get_bind fun _ _ => ?_
    extract_lets e jp3
    have hjp3 : ∀ (x : Unit), KeepsTidy K (jp3 x) := fun _ => .pure
    exact .ite (.bind (.modify fun _ hs2 => tidy_onCluster hs2 fun _ hc => hc) fun _ => hjp3 ()) (hjp3 ())
  have hjp1 : ∀ (x : Unit), KeepsTidy K (jp1 x) := fun _ => .bind tidy_touchPa fun _ => .get_bind fun _ _ => .ite
    (.bind .trap fun _ => hjp ()) (hjp ())
  have hjp2 : ∀ (x : Unit), KeepsTidy K (jp2 x) := by
    intro _
    unfold jp2
    split
    · exact .bind (.set (hs.same rfl)) fun _ => .ite .pure (hjp1 ())
    · exact hjp1 ()
  exact .ite (.bind .trap fun _ => hjp2 ()) (hjp2 ())

theorem tidy_walk2 {ag : Agent} {p : Partition} {va : Word} {ipa : Nat} :
    ∀ {l : List Nat} {table : Nat}, KeepsTidy K (walk2 ag p va ipa l table)
  | [], _ => .pure
  | sh :: rest, table => by
    unfold walk2
    refine .ite .pure ?_
    extract_lets pa
    exact .bind tidy_readEntry fun e => .ite .pure <| .ite .pure <| .ite tidy_walk2 .pure

theorem tidy_pageRefused {p : Partition} {w : Waiter} {va : Word} {page : Nat} {a : Act α} (ha : KeepsTidy K a) :
    KeepsTidy K (pageRefused p w va page a : Act α) := by
  unfold pageRefused
  extract_lets refused
  refine .get_bind fun _ _ => ?_
  split
  · exact .bind (.modify fun _ => tidy_dropReply) fun _ => .trap
  · exact ha

theorem tidy_stage2 {ag : Agent} {p : Partition} {w : Waiter} {va : Word} {need : Need} {ipa : Nat} :
    KeepsTidy K (stage2 ag p w va need ipa) := by
  unfold stage2
  refine tidy_pageRefused ?_
  refine .bind tidy_walk2 fun _ => ?_
  split
  · exact .trap
  · exact tidy_pageMiss
  · exact .ite (.bind (.modify fun _ => tidy_dropReply) fun _ => .pure) tidy_pageMiss

theorem tidy_walk1 {ag : Agent} {p : Partition} {w : Waiter} {va : Word} : ∀ {used : List (Nat × Nat)} {l : List Nat} {table : Nat},
    KeepsTidy K (walk1 ag p w va used l table)
  | _, [], _ => .pure
  | used, sh :: rest, table => by
    unfold walk1
    refine .bind tidy_stage2 fun x => ?_
    split
    refine .ite .pure <| .bind tidy_readEntry fun e => .ite .pure <| .ite .pure <| .ite tidy_walk1 .pure

theorem tidy_placeL1 {phys : Nat} {fetch : Bool} {t : TlbEntry} (h : Tidy K s) : Tidy K (placeL1 phys fetch t s) :=
  tidy_onCore h fun _ hc => .ite hc hc

theorem tidy_walkBoth {ag : Agent} {w : Waiter} {need : Need} {p : Partition} {va : Word} : KeepsTidy K (walkBoth ag w need p va) := by
  unfold walkBoth
  refine .bind tidy_walk1 fun x => ?_
  split
  · exact .trap
  · exact .trap
  · extract_lets a1 jp
    have hjp : ∀ (x : Unit), KeepsTidy K (jp x) := by
      intro _
      refine .bind tidy_stage2 fun _ => ?_
      split
      refine .bind (.modify fun _ hs => tidy_setAD (tidy_setAD hs)) fun _ => ?_
      extract_lets a2 both t
      exact .bind (.modify fun _ hs => tidy_placeL1 (tidy_onCluster hs fun _ hc => hc)) fun _ => .pure
    exact .ite (.bind .trap fun _ => hjp ()) (hjp ())

theorem tidy_useEntry {w : Waiter} {p : Partition} {va : Word} {e : TlbEntry} : KeepsTidy K (useEntry w p va e) :=
  tidy_pageRefused .pure

theorem tidy_translate {ag : Agent} {w : Waiter} {need : Need} {va : Word} : KeepsTidy K (translate ag w need va) := by
  unfold translate
  extract_lets jp
  have hjp : ∀ (x : Unit), KeepsTidy K (jp x) := by
    intro x
    refine .get_bind fun _ hs => ?_
    extract_lets c jp1
    have hjp1 : ∀ (x : Unit), KeepsTidy K (jp1 x) := by
      intro _
      unfold jp1
      split
      · exact .trap
      · extract_lets mine
        split
        · exact tidy_useEntry
        · split
          · exact .bind (.set (tidy_placeL1 hs)) fun _ => tidy_useEntry
          · exact tidy_walkBoth
    exact .ite (.bind .trap fun _ => hjp1 ()) (hjp1 ())
  exact .ite (.bind .trap fun _ => hjp ()) (hjp ())

theorem tidy_resolveWindow {ag : Agent} {va : Word} {n : Nat} : KeepsTidy K (resolveWindow ag va n) := by
  unfold resolveWindow
  refine .get_bind fun _ _ => ?_
  extract_lets c o k off
  split
  · exact .trap
  · refine .ite ?_ ?_
    · split
      · exact .trap
      · exact .ite .trap .pure
    · refine .ite ?_ .trap
      split
      · exact .trap
      · split
        · extract_lets jp jp1
          have hjp : ∀ (x : Unit), KeepsTidy K (jp x) := by
            intro _
            unfold jp
            split
            · exact .trap
            · extract_lets jp2
              have hjp2 : ∀ (x : Unit), KeepsTidy K (jp2 x) := fun _ => .pure
              exact .ite (.bind .stall fun _ => hjp2 ()) (hjp2 ())
          have hjp1 : ∀ (x : Unit), KeepsTidy K (jp1 x) := fun _ => .ite (.bind .trap fun _ => hjp ()) (hjp ())
          exact .ite (.bind .trap fun _ => hjp1 ()) (hjp1 ())
        · exact .trap

theorem tidy_resolvePage {ag : Agent} {e : TlbEntry} {eval va : Word} {n : Nat} : KeepsTidy K (resolvePage ag e eval va n) := by
  unfold resolvePage
  refine .get_bind fun _ _ => ?_
  extract_lets pa cacheable jp
  have hjp : ∀ (x : Unit), KeepsTidy K (jp x) := fun _ => .pure
  exact .ite (.bind .trap fun _ => hjp ()) (hjp ())

theorem tidy_resolve {ag : Agent} {w : Waiter} {need : Need} {va : Word} {n : Nat} : KeepsTidy K (resolve ag w need va n) := by
  unfold resolve
  extract_lets low va2
  refine .ite tidy_resolveWindow ?_
  refine .ite (.bind tidy_resolveWindow fun _ => .bind tidy_translate fun _ => .bind tidy_resolvePage fun _ => .pure) ?_
  refine .bind tidy_translate fun x => ?_
  refine .ite tidy_resolvePage ?_
  refine .bind tidy_translate fun _ => ?_
  extract_lets jp
  have hjp : ∀ (x : Unit), KeepsTidy K (jp x) := fun _ => .bind tidy_resolvePage fun _ => .bind tidy_resolvePage fun _ => .pure
  exact .ite (.bind .trap fun _ => hjp ()) (hjp ())

/-! ### Sys2Proof/Machine/Access.lean -/

theorem tidy_unordered {va : Word} {kind : Nat} : KeepsTidy K (unordered va kind : Act α) := .trap

theorem tidy_trackLine {ag : Agent} {cls : AccessClass} {va : Word} {line : Place} : KeepsTidy K (trackLine ag cls va line) := by
  unfold trackLine
  refine .get_bind fun _ hs => ?_
  split
  · exact .pure
  · split
    · exact .pure
    · extract_lets t isMem jp jp1
      have hjp : ∀ (x : Unit), KeepsTidy K (jp x) := fun _ => .set (tidy_onGroup hs)
      have hjp1 : ∀ (x : Unit), KeepsTidy K (jp1 x) := fun _ => .ite (.bind tidy_unordered fun _ => hjp ()) (hjp ())
      exact .ite (.bind tidy_unordered fun _ => hjp1 ()) (hjp1 ())

theorem tidy_privateRules {ag : Agent} {cls : AccessClass} {va : Word} {p : Piece} {owner : Nat} :
    KeepsTidy K (privateRules ag cls va p owner) := by
  unfold privateRules
  refine .get_bind fun _ _ => ?_
  extract_lets jp
  have hjp : ∀ (x : Unit), KeepsTidy K (jp x) := by
    intro _
    unfold jp
    split
    · exact tidy_unordered
    · exact tidy_unordered
    · exact tidy_trackLine
  exact .ite (.bind tidy_unordered fun _ => hjp ()) (hjp ())

theorem tidy_detPiece {ag : Agent} {cls : AccessClass} {va : Word} {p : Piece} : KeepsTidy K (detPiece ag cls va p) := by
  unfold detPiece
  refine .get_bind fun _ _ => ?_
  split
  · exact tidy_privateRules
  · extract_lets reads held page jp
    have hjp : ∀ (x : Unit), KeepsTidy K (jp x) := by
      intro _
      unfold jp
      split
      · exact .pure
      · split
        · split
          · exact .ite tidy_unordered .pure
          · exact .bind tidy_privateRules fun _ => .modify fun _ => tidy_onPart
          · split
            · exact .pure
            · exact tidy_unordered
          · split
            · exact .pure
            · exact tidy_unordered
            · exact .pure
            · exact tidy_unordered
        · refine .ite ?_ ?_
          · extract_lets owner
            exact .bind tidy_privateRules fun _ => .modify fun _ => tidy_onPart
          · split
            · exact .pure
            · exact tidy_unordered
            · exact .pure
            · exact tidy_unordered
    exact .ite (.bind .trap fun _ => hjp ()) (hjp ())

theorem tidy_detCheck {ag : Agent} {cls : AccessClass} {va : Word} {ps : List Piece} : KeepsTidy K (detCheck ag cls va ps) :=
  .ite .pure (.forM fun _ => tidy_detPiece)

theorem tidy_backInvalidate {line : Nat} (h : Tidy K s) : Tidy K (backInvalidate line s) := .ite h (h.same rfl)

theorem tidy_awaitHost {line : Nat} : KeepsTidy K (awaitHost line) :=
  .get_bind fun _ hs => .ite (.bind (.set (tidy_backInvalidate hs)) fun _ => .stall) .pure

theorem tidy_awaitCombine {line : Nat} : KeepsTidy K (awaitCombine line) := .get_bind fun _ _ => .ite tidy_awaitHost .pure

theorem tidy_stashFill {ag : Agent} {w : Waiter} {p : Piece} : KeepsTidy K (stashFill ag w p) := by
  unfold stashFill
  split
  · exact .pure
  · refine .get_bind fun _ _ => ?_
    extract_lets c lsline
    split
    · exact .pure
    · refine .ite .pure ?_
      extract_lets gva
      refine .bind tidy_translate fun _ => ?_
      extract_lets pa jp jp1 jp2 jp3 jp4 jp5
      have hjp : ∀ (x : Unit), KeepsTidy K (jp x) := by
        intro _
        refine .modify fun _ hs1 => ?_
        extract_lets s2 bytes
        have hs2 : Tidy K s2 := tidy_reachCluster (tidy_recallStash hs1)
        refine tidy_onCore hs2 fun _ hc1 => ?_
        extract_lets src
        have hsrc : CoreTidy K src := tidy_onAlloc hc1 fun _ ha4 => ha4.write
        exact hsrc
      have hjp1 : ∀ (x : Unit), KeepsTidy K (jp1 x) := fun _ => .get_bind fun _ _ => .ite (.bind .trap fun _ => hjp ()) (hjp ())
      have hjp2 : ∀ (x : Unit), KeepsTidy K (jp2 x) := fun _ => .get_bind fun _ _ => .ite (.bind .stall fun _ => hjp1 ()) (hjp1 ())
      have hjp3 : ∀ (x : Unit), KeepsTidy K (jp3 x) := fun _ => .get_bind fun _ _ => .ite
        (.bind tidy_touchPa fun _ => .bind tidy_sampleFree fun _ => .bind tidy_awaitCombine fun _ => hjp2 ()) (hjp2 ())
      have hjp4 : ∀ (x : Unit), KeepsTidy K (jp4 x) := fun _ => .ite (.bind (.modify fun _ => tidy_touchRegion) fun _ => hjp3 ())
        (hjp3 ())
      have hjp5 : ∀ (x : Unit), KeepsTidy K (jp5 x) := fun _ => .ite (.bind .trap fun _ => hjp4 ()) (hjp4 ())
      exact .get_bind fun _ _ => .ite (.bind .trap fun _ => hjp5 ()) (hjp5 ())

theorem tidy_flowSent {part phys target : Nat} (h : Tidy K s) : Tidy K (flowSent part phys target s) := h.same rfl

theorem tidy_touchData {ag : Agent} {p : Piece} : KeepsTidy K (touchData ag p) := by
  unfold touchData
  split
  · exact .get_bind fun _ _ => .ite .stall .pure
  · extract_lets jp jp1
    have hjp : ∀ (x : Unit), KeepsTidy K (jp x) := fun _ => tidy_awaitCombine
    have hjp1 : ∀ (x : Unit), KeepsTidy K (jp1 x) := by
      intro x
      refine .get_bind fun _ _ => ?_
      extract_lets home jp2
      have hjp2 : ∀ (x : Unit), KeepsTidy K (jp2 x) := fun _ => .ite
        (.bind tidy_touchPa fun _ => .ite (.bind tidy_sampleFree fun _ => hjp ()) (hjp ())) .pure
      exact .ite (.bind .stall fun _ => hjp2 ()) (hjp2 ())
    exact .ite (.bind (.modify fun _ => tidy_touchRegion) fun _ => hjp1 ()) (hjp1 ())

theorem tidy_openAccess {ag : Agent} {w : Waiter} {cls : AccessClass} {need : Need} {outside : Bool} {va : Word} {n : Nat} :
    KeepsTidy K (openAccess ag w cls need outside va n) := by
  unfold openAccess
  refine .bind tidy_resolve fun x => ?_
  extract_lets jp jp1
  have hjp : ∀ (x : Unit), KeepsTidy K (jp x) := fun _ => .bind tidy_detCheck fun _ => .bind (.forM fun _ => tidy_stashFill) fun _ =>
    .bind (.forM fun _ => tidy_touchData) fun _ => .pure
  have hjp1 : ∀ (x : Unit), KeepsTidy K (jp1 x) := fun _ => .ite (.bind .trap fun _ => hjp ()) (hjp ())
  exact .ite (.bind .trap fun _ => hjp1 ()) (hjp1 ())

theorem tidy_redAt {phys part : Nat} {det self cacheable : Bool} {scope : Scope} {op : RmwOp} {size : Nat} {v : Word} {ord : Bool}
    {p : Place} (h : Tidy K s) : Tidy K (redAt phys part det self cacheable scope op size v ord p s) := by
  unfold redAt
  split
  · exact TidySnd.snd (tidy_rmwAt h)
  · extract_lets cl line home s1 s2 s3 c
    have hs1 : Tidy K s1 := .ite h (.ite (tidy_dropLine h) (tidy_recallStash h))
    have hs2 : Tidy K s2 := tidy_meetTxns hs1
    have hs3 : Tidy K s3 := .ite (hs2.same rfl) hs2
    exact .ite (tidy_onCore hs3 fun _ hc1 => hc1) (hs3.same rfl)

theorem tidy_flushStash {phys line : Nat} {remove : Bool} (h : Tidy K s) : Tidy K (flushStash phys line remove s) :=
  .foldl h fun _ _ hs1 => tidy_stashWriteBack hs1

theorem tidy_flushAt {phys : Nat} {scope : Scope} {p : Place} (h : Tidy K s) : Tidy K (flushAt phys scope p s) := by
  unfold flushAt
  split
  · exact h
  · extract_lets line cl s1
    have hs1 : Tidy K s1 := tidy_combineCluster (tidy_flushStash h)
    split
    · exact h
    · exact hs1
    · exact hs1
    · exact .ite hs1 (tidy_reachHome (tidy_writeBack hs1))

theorem tidy_invalAt {phys : Nat} {scope : Scope} {p : Place} (h : Tidy K s) : Tidy K (invalAt phys scope p s) := by
  unfold invalAt
  split
  · exact h
  · extract_lets line s1
    have hs1 : Tidy K s1 := tidy_onCore h fun _ hc => hc
    split
    · exact hs1
    · exact tidy_combineCluster (tidy_flushStash hs1)
    · exact tidy_combineCluster (tidy_flushStash hs1)
    · exact tidy_reachHome (tidy_invalLine (tidy_flushStash hs1))

theorem tidy_deferTrap {phys ctx : Nat} {d : Deferred} (h : Tidy K s) : Tidy K (deferTrap phys ctx d s) := tidy_onCtx h

theorem tidy_refillPend {phys : Nat} {q : PendAcc} : KeepsTidy K (refillPend phys q) := .ite (.get_bind fun _ _ => tidy_stashFill) .pure

theorem tidy_performAt {phys : Nat} {q : PendAcc} (h : Tidy K s) : Tidy K (performAt phys q s) := by
  unfold performAt
  extract_lets part
  refine .ite (tidy_deferTrap h) ?_
  split
  · exact tidy_storeAt h
  · exact TidySnd.snd (tidy_rmwAt h)
  · exact tidy_redAt h
  · exact tidy_flushAt h
  · exact tidy_invalAt h

theorem tidy_performPend {phys : Nat} {q : PendAcc} (h : Tidy K s) : Tidy K (performPend phys q s) := by
  unfold performPend
  refine .ite (tidy_deferTrap h) ?_
  split
  · rename_i he
    exact tidy_performAt (KeepsTidy.of_eq he tidy_refillPend h)
  · rename_i he
    exact tidy_deferTrap (KeepsTidy.of_stop he tidy_refillPend h)
  · rename_i he
    exact tidy_onCore (KeepsTidy.of_stop he tidy_refillPend h) fun _ hc => hc

theorem tidy_awaitPend {phys : Nat} {q : PendAcc} : KeepsTidy K (awaitPend phys q) := by
  unfold awaitPend
  refine .get_bind fun _ _ => ?_
  extract_lets jp jp1
  have hjp : ∀ (x : Unit), KeepsTidy K (jp x) := by
    intro _ _ hs1
    unfold jp
    split
    · rename_i he
      exact .error (KeepsTidy.of_stop he tidy_refillPend hs1)
    · exact .ok hs1
    · rename_i he
      exact .ok (KeepsTidy.of_eq he tidy_refillPend hs1)
  have hjp1 : ∀ (x : Unit), KeepsTidy K (jp1 x) := by
    intro _
    unfold jp1
    split
    · exact .bind tidy_awaitHost fun _ => hjp ()
    · exact hjp ()
  exact .ite (.bind .stall fun _ => hjp1 ()) (hjp1 ())

theorem tidy_performOwn {ag : Agent} : KeepsTidy K (performOwn ag) := by
  unfold performOwn
  refine .get_bind fun _ _ => ?_
  extract_lets own mine
  refine .ite .pure ?_
  refine .bind (.forM fun _ => tidy_awaitPend) fun _ => ?_
  refine .get_bind fun _ hs1 => ?_
  extract_lets s2
  have hs2 : Tidy K s2 := tidy_onCore hs1 fun _ hc => hc
  exact .set (.foldl hs2 fun _ _ hs3 => tidy_performPend hs3)

theorem tidy_awaitProxies {ag : Agent} {ps : List Piece} : KeepsTidy K (awaitProxies ag ps) := by
  unfold awaitProxies
  refine .get_bind fun _ _ => ?_
  extract_lets jp
  have hjp : ∀ (x : Unit), KeepsTidy K (jp x) := fun _ => .ite .stall .pure
  exact .ite (.bind .stall fun _ => hjp ()) (hjp ())

theorem tidy_performMeeting {ag : Agent} {ps : List Piece} : KeepsTidy K (performMeeting ag ps) :=
  .bind tidy_awaitProxies fun _ => .get_bind fun _ _ => .ite tidy_performOwn .pure

theorem tidy_pendPush {ag : Agent} {scope : Scope} {kind : AccKind} {tied : Bool} {va : Word} {p : Piece} :
    KeepsTidy K (pendPush ag scope kind tied va p) := by
  unfold pendPush
  refine .modify fun _ hs => ?_
  extract_lets q
  exact .ite (tidy_performPend hs) (tidy_onCore hs fun _ hc => hc)

theorem tidy_txnTouch {ag : Agent} {write : Bool} {ps : List Piece} : KeepsTidy K (txnTouch ag write ps) := by
  unfold txnTouch
  refine .forM fun x => ?_
  split
  · exact .throw
  · extract_lets line jp
    have hjp : ∀ (x : Unit), KeepsTidy K (jp x) := by
      intro _
      refine .get_bind fun _ hs => ?_
      split
      · exact .pure
      · extract_lets rd wr jp1
        have hjp1 : ∀ (x : Unit), KeepsTidy K (jp1 x) := fun _ => .set (tidy_onCore hs fun _ hc => hc)
        exact .ite (.bind .throw fun _ => hjp1 ()) (hjp1 ())
    exact .ite (.bind .throw fun _ => hjp ()) (hjp ())

theorem tidy_txnPut {ag : Agent} {scope : Scope} {kind : AccKind} {va : Word} {p : Piece} {bytes : List Byte} :
    KeepsTidy K (txnPut ag scope kind va p bytes) := by
  unfold txnPut
  split
  · exact .pure
  · exact .modify fun _ hs => tidy_onCore hs fun _ hc => hc

theorem tidy_fillL1 {phys : Nat} {ps : List Piece} (h : Tidy K s) : Tidy K (fillL1 phys ps s) := by
  unfold fillL1
  refine .foldl h fun _ _ hs1 => ?_
  split
  · exact hs1
  · exact .ite (tidy_onCore hs1 fun _ hc => hc) hs1

theorem tidy_checkBad {whole : Bool} {ps : List Piece} : KeepsTidy K (checkBad whole ps) := by
  unfold checkBad
  refine .get_bind fun _ _ => ?_
  split
  · exact .trap
  · exact .pure

theorem tidy_reachPieces {ag : Agent} {ps : List Piece} (h : Tidy K s) : Tidy K (reachPieces ag ps s) :=
  .foldl h fun _ _ hs1 => tidy_readAt hs1

theorem tidy_loadAct {ag : Agent} {va : Word} {n : Nat} : KeepsTidy K (loadAct ag va n) := by
  unfold loadAct
  refine .bind tidy_openAccess fun x => ?_
  refine .bind tidy_performMeeting fun _ => ?_
  refine .get_bind fun _ _ => ?_
  extract_lets jp
  have hjp : ∀ (x : Unit), KeepsTidy K (jp x) := by
    intro _
    refine .get_bind fun _ hs1 => ?_
    extract_lets s2 slow bad jp1
    have hs2 : Tidy K s2 := tidy_reachPieces hs1
    have hjp1 : ∀ (x : Unit), KeepsTidy K (jp1 x) := fun _ => .bind (.set (tidy_fillL1 hs2)) fun _ => .pure
    exact .bind (.set hs2) fun _ => .ite (.bind tidy_checkBad fun _ => hjp1 ()) (hjp1 ())
  exact .ite (.bind tidy_txnTouch fun _ => hjp ()) (hjp ())

theorem tidy_forParts {ps : List Piece} {bytes : List Byte} {f : Nat → Piece → List Byte → Act Unit}
    (hf : ∀ (a : Nat) (a_1 : Piece) (a_2 : List Byte), KeepsTidy K (f a a_1 a_2)) : KeepsTidy K (forParts ps bytes f) :=
  .bind (.foldlM fun b x => .bind (hf b x _) fun _ => .pure) fun _ => .pure

theorem tidy_storeAct {ag : Agent} {va : Word} {bytes : List Byte} : KeepsTidy K (storeAct ag va bytes) :=
  .bind tidy_openAccess fun _ => .get_bind fun _ _ => .ite
    (.bind tidy_txnTouch fun _ => .bind tidy_awaitProxies fun _ => .bind tidy_checkBad fun _ => tidy_forParts fun _ _ _ => tidy_txnPut)
    (.ite (.bind tidy_performMeeting fun _ => .bind tidy_checkBad fun _ => tidy_forParts fun _ _ _ => .modify fun _ => tidy_storeAt)
    (.bind tidy_awaitProxies fun _ => tidy_forParts fun _ _ _ => tidy_pendPush))

theorem tidy_readMem {ag : Agent} {w : Waiter} {cls : AccessClass} {va : Word} {n : Nat} : KeepsTidy K (readMem ag w cls va n) := by
  unfold readMem
  refine .bind tidy_openAccess fun _ => ?_
  refine .bind tidy_performMeeting fun _ => ?_
  refine .get_bind fun _ hs => ?_
  extract_lets s1
  have hs1 : Tidy K s1 := tidy_reachPieces hs
  exact .bind (.set hs1) fun _ => .bind tidy_checkBad fun _ => .pure

theorem tidy_awaitHosts {ps : List Piece} : KeepsTidy K (awaitHosts ps) := by
  unfold awaitHosts
  refine .forM fun _ => ?_
  split
  · exact .ite .pure tidy_awaitHost
  · exact .pure

theorem tidy_writeMem {ag : Agent} {w : Waiter} {cls : AccessClass} {va : Word} {bytes : List Byte} :
    KeepsTidy K (writeMem ag w cls va bytes) :=
  .bind tidy_openAccess fun _ => .bind tidy_performMeeting fun _ => .bind tidy_checkBad fun _ => .bind tidy_awaitHosts fun _ =>
    tidy_forParts fun _ _ _ => .modify fun _ => tidy_storeAt

theorem tidy_storeThrough {phys part : Nat} {det : Bool} {p : Place} {bytes : List Byte} (h : Tidy K s) :
    Tidy K (storeThrough phys part det p bytes s) := by
  unfold storeThrough
  split
  · exact tidy_storeAt h
  · extract_lets cl s1
    have hs1 : Tidy K s1 := tidy_meetTxns (tidy_foreignStore h)
    exact tidy_homeWrite (tidy_dropLine hs1)

theorem tidy_putTransfer {phys : Nat} {o : OwedWrite} : KeepsTidy K (putTransfer phys o) := by
  intro s hs
  unfold putTransfer
  extract_lets ag put
  have hput : KeepsTidy K put := .bind tidy_openAccess fun _ => .bind tidy_performMeeting fun _ => .bind tidy_checkBad fun _ =>
    .bind tidy_awaitHosts fun _ => tidy_forParts fun _ _ _ => .modify fun _ h => tidy_storeThrough h
  split
  · rename_i he
    exact .error (KeepsTidy.of_stop he hput hs)
  · rename_i he
    exact .ok (tidy_record (KeepsTidy.of_stop he hput hs))
  · rename_i he
    exact .ok (KeepsTidy.of_eq he hput hs)

theorem tidy_payOwed {phys : Nat} (h : Tidy K s) : Tidy K (payOwed phys s) := by
  unfold payOwed
  refine .foldl h fun _ _ hs1 => ?_
  split
  · rename_i he
    exact tidy_onCore (KeepsTidy.of_eq he tidy_putTransfer hs1) fun _ hc => hc
  · rename_i he
    exact KeepsTidy.of_stop he tidy_putTransfer hs1

theorem tidy_oweTransfer {phys : Nat} {o : OwedWrite} (h : Tidy K s) : Tidy K (oweTransfer phys o s) :=
  tidy_payOwed (tidy_onCore h fun _ hc => hc)

theorem tidy_sendProxy {ag : Agent} {va : Word} {pa : Nat} {op : RmwOp} {size : Nat} {v : Word} {returns : Bool} (h : Tidy K s) :
    Tidy K (sendProxy ag va pa op size v returns s) := by
  unfold sendProxy
  extract_lets d
  exact .dite (fun _ => h.same rfl) fun _ => h

theorem tidy_proxyAct {ag : Agent} {va : Word} {pa : Nat} {op : RmwOp} {size : Nat} {v : Word} {waits : Bool} :
    KeepsTidy K (proxyAct ag va pa op size v waits) :=
  .get_bind fun _ hs => .ite (.bind (.set (tidy_setAwait (tidy_sendProxy hs))) fun _ => .stall)
    (.bind (.set (tidy_sendProxy hs)) fun _ => .pure)

theorem tidy_proxyAnswer {ag : Agent} : KeepsTidy K (proxyAnswer ag) := by
  unfold proxyAnswer
  refine .get_bind fun s hs => ?_
  extract_lets w
  cases awaitOf s w with
  | proxyDone old => exact .bind (.set (tidy_setAwait hs)) fun _ => .pure
  | proxyTrap c e i => exact .bind (.set (tidy_setAwait hs)) fun _ => .trap
  | proxy => exact .stall
  | _ => exact .pure

theorem tidy_txnAtomic {ag : Agent} {scope : Scope} {op : RmwOp} {size : Nat} {va v : Word} {p : Piece} :
    KeepsTidy K (txnAtomic ag scope op size va v p) := by
  unfold txnAtomic
  extract_lets near q jp
  have hjp : ∀ (x : Unit), KeepsTidy K (jp x) := by
    intro _
    refine .bind (.modify fun _ => tidy_reachPieces) fun _ => ?_
    refine .bind tidy_checkBad fun _ => ?_
    refine .get_bind fun _ _ => ?_
    extract_lets old
    exact .bind tidy_txnPut fun _ => .pure
  split
  · exact .ite (.bind (.modify fun _ => tidy_dropLine) fun _ => hjp ()) (hjp ())
  · exact hjp ()

theorem tidy_atomicAct {ag : Agent} {scope : Scope} {op : RmwOp} {size : Nat} {va v : Word} {returns : Bool} :
    KeepsTidy K (atomicAct ag scope op size va v returns) := by
  unfold atomicAct
  extract_lets w cls jp
  have hjp : ∀ (x : Unit), KeepsTidy K (jp x) := by
    intro x
    refine .bind tidy_resolve fun _ => ?_
    split
    · exact .pure
    · refine .ite ?_ ?_
      · extract_lets jp1 jp2
        have hjp1 : ∀ (x : Unit), KeepsTidy K (jp1 x) := fun _ => tidy_proxyAct
        have hjp2 : ∀ (x : Unit), KeepsTidy K (jp2 x) := fun _ => .get_bind fun _ _ => .ite (.bind .throw fun _ => hjp1 ()) (hjp1 ())
        exact .ite (.bind .trap fun _ => hjp2 ()) (hjp2 ())
      · extract_lets jp1 jp2 jp3
        have hjp1 : ∀ (x : Unit), KeepsTidy K (jp1 x) := by
          intro _
          refine .get_bind fun _ hs => ?_
          split
          rename_i he
          exact .bind (.set (TidySnd.of_eq he (tidy_rmwAt hs))) fun _ => .pure
        have hjp2 : ∀ (x : Unit), KeepsTidy K (jp2 x) := by
          intro _
          unfold jp2
          split
          · exact .ite (.bind tidy_awaitHost fun _ => hjp1 ()) (hjp1 ())
          · exact hjp1 ()
        have hjp3 : ∀ (x : Unit), KeepsTidy K (jp3 x) := fun _ => .bind tidy_detCheck fun _ => .bind tidy_stashFill fun _ => .bind
          tidy_touchData fun _ => .get_bind fun _ _ => .ite
          (.bind tidy_txnTouch fun _ => .bind tidy_txnTouch fun _ => .bind tidy_performMeeting fun _ => tidy_txnAtomic)
          (.ite (.bind tidy_performMeeting fun _ => tidy_proxyAct)
          (.ite (.bind tidy_performMeeting fun _ => .get_bind fun _ _ => .ite (.bind .trap fun _ => hjp2 ()) (hjp2 ()))
          (.get_bind fun _ _ => .ite (.bind tidy_performMeeting fun _ => .bind tidy_checkBad fun _ => .bind
          (.modify fun _ hs2 => TidySnd.snd (tidy_rmwAt hs2)) fun _ => .pure)
          (.bind tidy_awaitProxies fun _ => .bind tidy_pendPush fun _ => .pure))))
        exact .ite (.bind .trap fun _ => hjp3 ()) (hjp3 ())
  exact .ite (.bind .trap fun _ => hjp ()) (hjp ())

theorem tidy_redAct {ag : Agent} {scope : Scope} {op : RmwOp} {size : Nat} {ord : Bool} {va v : Word} :
    KeepsTidy K (redAct ag scope op size ord va v) := by
  unfold redAct
  extract_lets w jp
  have hjp : ∀ (x : Unit), KeepsTidy K (jp x) := by
    intro x
    refine .bind tidy_resolve fun _ => ?_
    split
    · exact .pure
    · extract_lets jp1 jp2
      have hjp1 : ∀ (x : Unit), KeepsTidy K (jp1 x) := fun _ => .bind tidy_detCheck fun _ => .bind tidy_stashFill fun _ => .bind
        tidy_touchData fun _ => .ite (.bind tidy_performMeeting fun _ => .bind tidy_proxyAct fun _ => .pure)
        (.get_bind fun _ _ => .ite (.bind tidy_performMeeting fun _ => .bind tidy_checkBad fun _ => .modify fun _ => tidy_redAt)
        (.bind tidy_awaitProxies fun _ => tidy_pendPush))
      have hjp2 : ∀ (x : Unit), KeepsTidy K (jp2 x) := fun _ => .ite (.bind .trap fun _ => hjp1 ()) (hjp1 ())
      exact .ite (.bind .trap fun _ => hjp2 ()) (hjp2 ())
  exact .ite (.bind .trap fun _ => hjp ()) (hjp ())

theorem tidy_cacheAct {ag : Agent} {scope : Scope} {inval : Bool} {va : Word} : KeepsTidy K (cacheAct ag scope inval va) := by
  unfold cacheAct
  refine .ite .pure ?_
  refine .bind tidy_resolve fun x => ?_
  extract_lets jp
  have hjp : ∀ (x : Unit), KeepsTidy K (jp x) := by
    intro _
    unfold jp
    split
    · exact .pure
    · exact .bind tidy_awaitProxies fun _ => tidy_pendPush
  exact .ite (.bind .trap fun _ => hjp ()) (hjp ())

theorem tidy_fenceAct {ag : Agent} {scope : Scope} : KeepsTidy K (fenceAct ag scope) := .get_bind fun _ _ => .ite .stall .pure

/-! ### Sys2Proof/Machine/FoldStore.lean -/

theorem tidy_onSlot {cl part : Nat} {d : Decl} {f : SlotState → SlotState} (h : Tidy K s) : Tidy K (onSlot cl part d f s) :=
  tidy_onCluster h fun _ hc => hc

theorem tidy_removeEntry {cl : Nat} {e : FoldEntry} (h : Tidy K s) : Tidy K (removeEntry cl e s) :=
  tidy_onCluster h fun _ hc => hc.fewer

theorem tidy_releaseSlot {part slot : Nat} (h : Tidy K s) : Tidy K (releaseSlot part slot s) := by
  unfold releaseSlot
  exact ⟨h.mem, h.core, h.others, tidy_clusterMap h.clusters fun _ hk => hk.fewer⟩

theorem tidy_forgetAnswers {phys : Nat} (h : Tidy K s) : Tidy K (forgetAnswers phys s) := h.same rfl

theorem tidy_dropStanding {c : Core} (hc : CoreTidy K c) : CoreTidy K (dropStanding c) := hc

/-! ### Sys2Proof/Machine/Sched.lean -/

theorem tidy_readRecord {ag : Agent} {w : Waiter} {addr : Word} : KeepsTidy K (readRecord ag w addr) := by
  unfold readRecord
  extract_lets jp
  have hjp : ∀ (x : Unit), KeepsTidy K (jp x) := fun _ => tidy_readMem
  exact .ite (.bind .trap fun _ => hjp ()) (hjp ())

theorem tidy_atHome {phys : Nat} {p : Place} {n : Nat} (h : Tidy K s) : TidySnd K (atHome phys p n s) := by
  unfold atHome
  split
  · extract_lets s1
    have hs1 : Tidy K s1 := tidy_reachHome (tidy_dropLine (tidy_recallStash h))
    exact .mk hs1
  · exact .mk h

theorem tidy_awaitHome {phys : Nat} {write : Bool} {p : Place} : KeepsTidy K (awaitHome phys write p) := by
  unfold awaitHome
  split
  · exact .pure
  · refine .get_bind fun _ _ => ?_
    extract_lets jp
    have hjp : ∀ (x : Unit), KeepsTidy K (jp x) := fun _ => .ite tidy_awaitHost .pure
    exact .ite (.bind .stall fun _ => hjp ()) (hjp ())

theorem tidy_putCount {ag : Agent} {p : Place} {c : ℤ} (h : Tidy K s) : Tidy K (putCount ag p c s) := tidy_storeAt h

theorem tidy_hwDword {ag : Agent} {need : Need} {addr : Word} : KeepsTidy K (hwDword ag need addr) := by
  unfold hwDword
  extract_lets jp
  have hjp : ∀ (x : Unit), KeepsTidy K (jp x) := by
    intro _
    refine .bind tidy_openAccess fun _ => ?_
    split
    · exact .trap
    · refine .bind tidy_awaitHome fun _ => ?_
      refine .get_bind fun _ hs => ?_
      split
      rename_i he
      exact .bind (.set (TidySnd.of_eq he (tidy_atHome hs))) fun _ => .pure
  exact .ite (.bind .trap fun _ => hjp ()) (hjp ())

theorem tidy_graphTarget {ag : Agent} {r : TaskRec} {v : Word} : KeepsTidy K (graphTarget ag r v) := by
  unfold graphTarget
  split
  · exact .pure
  · exact .pure
  · extract_lets n
    refine .ite .pure ?_
    refine .bind tidy_hwDword fun _ => ?_
    split
    exact .pure

theorem tidy_readyRec {phys : Nat} : ∀ {n cl : Nat} {e : ReadyEntry}, KeepsTidy K (readyRec cl phys n e)
  | 0, _, _ => .modify fun _ h => tidy_hardwareRefused h
  | n + 1, cl, e => by
    unfold readyRec
    refine .get_bind fun s hs => ?_
    extract_lets ag work
    have hwork : KeepsTidy K work := by
      refine .bind tidy_hwDword fun _ => ?_
      split
      refine .bind tidy_graphTarget fun _ => ?_
      split
      extract_lets jp
      have hjp : ∀ x, KeepsTidy K (jp x) := fun _ => .pure
      refine .ite ?_ (hjp ())
      refine .bind tidy_openAccess fun _ => ?_
      refine .bind (.forM fun _ => tidy_awaitHome) fun _ => ?_
      refine .bind (.modify fun _ h => tidy_storeAt h) fun _ => ?_
      split
      · exact hjp ()
      · exact .bind (.modify fun _ h => tidy_putCount h) fun _ => hjp ()
    split
    · exact .pure
    · refine .ite ?_ ?_
      · split
        · exact .set (tidy_hardwareRefused hs)
        · split
          · rename_i he
            exact .set (tidy_popUp (TidySome.of_eq he (tidy_readyPush hs)))
          · exact .set (tidy_hardwareRefused hs)
      · extract_lets tcl
        refine .bind (.attempt hwork) fun _ => ?_
        split
        · exact .modify fun _ h => h.same rfl
        · exact .modify fun _ h => tidy_hardwareRefused h
        · exact .modify fun _ h => tidy_hardwareRefused h
        · refine .ite .pure ?_
          refine .bind (.attempt tidy_readRecord) fun _ => ?_
          split
          · exact .modify fun _ h => h.same rfl
          · exact .modify fun _ h => tidy_hardwareRefused h
          · exact .ite (.modify fun _ h => tidy_hardwareRefused h) tidy_readyRec

theorem tidy_readyTarget {part launch cl phys : Nat} {det : Bool} {addr : Word} :
    KeepsTidy K (readyTarget part launch cl phys det addr) := by
  unfold readyTarget
  refine .get_bind fun _ _ => ?_
  split
  · exact .pure
  · refine .bind (.attempt tidy_readRecord) fun _ => ?_
    split
    · exact .modify fun _ hs1 => hs1.same rfl
    · exact .modify fun _ => tidy_hardwareRefused
    · extract_lets r
      exact .ite (.modify fun _ => tidy_hardwareRefused) tidy_readyRec

theorem tidy_decrement {ag : Agent} {w : Waiter} {launch cl : Nat} {det : Bool} {peer : Option Nat} {addr : Word} {amount : Nat} :
    KeepsTidy K (decrement ag w launch cl det peer addr amount) := by
  unfold decrement
  refine .bind tidy_openAccess fun x => ?_
  split
  · exact .pure
  · refine .bind tidy_awaitHome fun x => ?_
    refine .get_bind fun _ hs => ?_
    split
    rename_i he
    refine .bind (.set (TidySnd.of_eq he (tidy_atHome hs))) fun _ => ?_
    extract_lets r jp
    have hjp : ∀ (x : Unit), KeepsTidy K (jp x) := fun _ => .pure
    exact .ite .pure (.bind (.modify fun _ => tidy_putCount) fun _ => .ite (.bind tidy_readyRec fun _ => hjp ()) (hjp ()))

theorem tidy_hwDecrement {part launch cl phys : Nat} {det : Bool} {addr : Word} :
    KeepsTidy K (hwDecrement part launch cl phys det addr) := by
  unfold hwDecrement
  refine .get_bind fun _ _ => ?_
  extract_lets ag
  split
  · exact .pure
  · refine .bind (.attempt tidy_readRecord) fun _ => ?_
    split
    · exact .modify fun _ hs1 => hs1.same rfl
    · exact .modify fun _ => tidy_hardwareRefused
    · extract_lets r
      refine .ite (.modify fun _ => tidy_hardwareRefused) ?_
      refine .bind (.attempt tidy_decrement) fun _ => ?_
      split
      · exact .pure
      · exact .modify fun _ hs1 => hs1.same rfl
      · exact .modify fun _ => tidy_hardwareRefused

theorem tidy_writeDone {phys part : Nat} {done v : Word} : KeepsTidy K (writeDone phys part done v) := by
  unfold writeDone
  refine .bind tidy_openAccess fun _ => ?_
  split
  · exact .trap
  · refine .bind tidy_awaitHome fun _ => ?_
    refine .modify fun _ hs => ?_
    split
    rename_i he
    exact tidy_storeAt (TidySnd.of_eq he (tidy_atHome hs))

theorem tidy_completeLaunch {tag : Nat} {rejected : Bool} {l : Launch} : KeepsTidy K (completeLaunch tag rejected l) := by
  unfold completeLaunch
  refine .get_bind fun _ _ => ?_
  extract_lets phys jp
  have hjp : ∀ (x : Except Stop Unit), KeepsTidy K (jp x) := by
    intro _
    unfold jp
    split
    · exact .modify fun _ hs1 => .ite hs1 (hs1.same rfl)
    · extract_lets failed
      refine .modify fun _ hs1 => ?_
      extract_lets s2 decls s3 s4
      have hs2 : Tidy K s2 := .ite (tidy_record hs1) hs1
      have hs3 : Tidy K s3 := .ite hs2 (.foldl hs2 fun _ _ hs5 => tidy_releaseSlot hs5)
      have hs4 : Tidy K s4 := tidy_onPart hs3
      exact tidy_homeWrite hs4
  exact .ite (.bind .pure fun x => hjp x) (.bind (.attempt tidy_writeDone) fun x => hjp x)

theorem tidy_sweepLaunches {atEnd : Bool} {tag : Nat} (h : Tidy K s) : Tidy K (sweepLaunches atEnd tag s) := by
  unfold sweepLaunches
  split
  · exact h
  · exact .foldl h fun _ _ hs1 => tidy_runHw tidy_completeLaunch hs1

theorem tidy_sweepPart {tag : Nat} (h : Tidy K s) : Tidy K (sweepPart tag s) := tidy_sweepLaunches h

theorem tidy_dropAlloc {phys part gid : Nat} (h : Tidy K s) : Tidy K (dropAlloc phys part gid s) := by
  unfold dropAlloc
  extract_lets mine s1
  have hs1 : Tidy K s1 := .foldl h fun _ _ hs2 => tidy_stashWriteBack hs2
  exact tidy_onCore hs1 fun _ hc => hc.filter

theorem tidy_dissolveGroup {part : Nat} {g : Group} (h : Tidy K s) : Tidy K (dissolveGroup part g s) := by
  unfold dissolveGroup
  extract_lets cores s1 s2
  have hs1 : Tidy K s1 := .foldl h fun _ _ hs3 => tidy_dropAlloc hs3
  have hs2 : Tidy K s2 := tidy_onPart hs1
  exact tidy_onCluster hs2 fun _ hc => hc

theorem tidy_exitGroup {part phys : Nat} {det : Bool} {g : Group} (h : Tidy K s) : Tidy K (exitGroup part phys det g s) := by
  unfold exitGroup
  extract_lets s1
  have hs1 : Tidy K s1 := tidy_dissolveGroup h
  exact .ite hs1 (.ite (tidy_onCore hs1 fun _ hc => hc) (tidy_runHw tidy_hwDecrement hs1))

theorem tidy_memberEnds {part gid rank phys : Nat} {det : Bool} (h : Tidy K s) : Tidy K (memberEnds part gid rank phys det s) := by
  unfold memberEnds
  extract_lets s1
  have hs1 : Tidy K s1 := tidy_onGroup h
  split
  · exact hs1
  · exact .ite (tidy_exitGroup hs1) hs1

theorem tidy_startCore {p : Partition} {e : ReadyEntry} {run : Running} {lcore gsize : Nat} {c : Core} (hc : CoreTidy K c) :
    CoreTidy K (startCore p e run lcore gsize c) := by
  unfold startCore
  extract_lets x x1 src
  exact hc

theorem tidy_startGroup {cl base : Nat} {e : ReadyEntry} (h : Tidy K s) : Tidy K (startGroup cl base e s) := by
  unfold startGroup
  split
  · exact h
  · extract_lets gid g grp s1 s2 s3
    have hs1 : Tidy K s1 := tidy_onPart h
    have hs2 : Tidy K s2 := .ite (tidy_onCluster hs1 fun _ hc => hc) hs1
    have hs3 : Tidy K s3 := .foldl hs2 fun _ _ hs4 => tidy_popUp hs4
    refine .foldl hs3 fun _ _ hs4 => ?_
    split
    · exact hs4
    · extract_lets run s5
      have hs5 : Tidy K s5 := tidy_onCore hs4 fun _ hc => tidy_startCore (hc.push tidy_emptyAlloc)
      exact tidy_sampleAt hs5

theorem tidy_dropTile {phys : Nat} (h : Tidy K s) : Tidy K (dropTile phys s) := by
  unfold dropTile
  split
  · exact h
  · exact tidy_unpinLines (tidy_onCore h fun _ hc => hc)

theorem tidy_trimSlices {phys : Nat} (h : Tidy K s) : Tidy K (trimSlices phys s) := by
  unfold trimSlices
  extract_lets l
  exact tidy_mapCores h fun _ hc => .ite hc hc

theorem tidy_dropOps {phys : Nat} (h : Tidy K s) : Tidy K (dropOps phys s) := by
  unfold dropOps
  extract_lets pins s1
  have hs1 : Tidy K s1 := h.same rfl
  exact tidy_trimSlices (tidy_unpinLines (tidy_onCore hs1 fun _ hc => hc))

theorem tidy_vacate {c : Core} (hc : CoreTidy K c) : CoreTidy K (vacate c) := hc

/-! ### Sys2Proof/Machine/Ops.lean -/

theorem tidy_setReg {n : Reg} {v : Word} (h : Tidy K s) : Tidy K (setReg n v s) := tidy_onCur h

theorem tidy_dropFailed {n : Reg} (h : Tidy K s) : Tidy K (dropFailed n s) := tidy_onCur h

theorem tidy_failedAct {n : Reg} {p : Producer} : KeepsTidy K (failedAct n p : Act α) :=
  .bind (.modify fun _ => tidy_dropFailed) fun _ => .trap

theorem tidy_readS {n : Reg} {w : Bool} : KeepsTidy K (readS n w) := by
  unfold readS
  refine .get_bind fun _ _ => ?_
  split
  · exact tidy_failedAct
  · exact .ite .stall (.ite .pure (.ite .stall (.ite .stall .trap)))

theorem tidy_destReady {n : Reg} : KeepsTidy K (destReady n) := by
  unfold destReady
  refine .get_bind fun _ _ => ?_
  refine .ite .pure ?_
  split
  · exact tidy_failedAct
  · exact .ite .stall .pure

theorem tidy_writeS {n : Reg} {v : Word} : KeepsTidy K (writeS n v) := .bind tidy_destReady fun _ => .modify fun _ => tidy_setReg

theorem tidy_produce {n : Reg} {v addr : Word} {bad : Bool} (h : Tidy K s) : Tidy K (produce n v addr bad s) := .ite h (tidy_onCur h)

theorem tidy_producedBy {n : Reg} {package : Nat} (h : Tidy K s) : Tidy K (producedBy n package s) := tidy_onCur h

theorem tidy_bring {n : Reg} {v addr : Word} {bad : Bool} {package : Option Nat} (h : Tidy K s) :
    Tidy K (bring n v addr bad package s) := by
  unfold bring
  extract_lets s1
  have hs1 : Tidy K s1 := tidy_produce h
  split
  · exact tidy_producedBy hs1
  · exact hs1

theorem tidy_jumpTo {a : Word} : KeepsTidy K (jumpTo a) := .modify fun _ => tidy_onCur

theorem tidy_advance {len : Nat} : KeepsTidy K (advance len) := .modify fun _ => tidy_onCur

theorem tidy_mergeFlags {f : FlagSet} : KeepsTidy K (mergeFlags f) := .modify fun _ => tidy_onCur

theorem tidy_haltChannel {phys : Nat} {ch : Fin 4} (h : Tidy K s) : Tidy K (haltChannel phys ch s) := by
  unfold haltChannel
  extract_lets s1
  have hs1 : Tidy K s1 := h.same rfl
  exact tidy_onCore hs1 fun _ hc => hc

theorem tidy_stopChannel {phys : Nat} {ch : Fin 4} (h : Tidy K s) : Tidy K (stopChannel phys ch s) := by
  unfold stopChannel
  extract_lets c s1
  have hs1 : Tidy K s1 := tidy_haltChannel h
  split
  · split
    · exact tidy_oweTransfer hs1
    · exact hs1
  · exact hs1

theorem tidy_leaveNest {phys : Nat} {gone : GangArrival → Bool} {c : Cluster} (hc : ClusterTidy K c) :
    ClusterTidy K (leaveNest phys gone c) :=
  hc

theorem tidy_failGang {phys : Nat} (h : Tidy K s) : Tidy K (failGang phys s) := by
  unfold failGang
  split
  · exact h
  · exact tidy_mapCores h fun _ hc => .ite hc hc

theorem tidy_performAll {phys : Nat} (h : Tidy K s) : Tidy K (performAll phys s) := by
  unfold performAll
  split
  exact .foldl (tidy_onCore h fun _ hc => hc) fun _ _ hs1 => tidy_performPend hs1

theorem tidy_releaseWord {phys part : Nat} {det : Bool} {scope : Scope} {n : HeldWord} (h : Tidy K s) :
    Tidy K (releaseWord phys part det scope n s) := by
  unfold releaseWord
  extract_lets regions bound c lines s1 cl s2
  have hs1 : Tidy K s1 := .foldl h fun _ _ hs3 => tidy_stashWriteBack hs3
  have hs2 : Tidy K s2 := by
    unfold s2
    split
    · exact .foldl hs1 fun _ _ hs3 => tidy_writeBack (tidy_combineCluster hs3)
    · exact .foldl hs1 fun _ _ hs3 => tidy_writeBack (tidy_combineCluster hs3)
    · exact .foldl hs1 fun _ _ hs3 => tidy_writeBack (tidy_combineCluster hs3)
    · exact hs1
  exact TidySnd.snd (tidy_rmwAt hs2)

theorem tidy_releaseHeld {phys : Nat} (h : Tidy K s) : Tidy K (releaseHeld phys s) := by
  unfold releaseHeld
  split
  · exact h
  · extract_lets s1
    have hs1 : Tidy K s1 := .foldl h fun _ _ hs2 => tidy_releaseWord hs2
    exact tidy_onCore hs1 fun _ hc => hc

theorem tidy_freeIndex {cl part slot idx : Nat} (h : Tidy K s) : Tidy K (freeIndex cl part slot idx s) :=
  tidy_onCluster h fun _ hc => hc

theorem tidy_endEvent {phys : Nat} {r : Running} (h : Tidy K s) : Tidy K (endEvent phys r s) := by
  unfold endEvent
  split
  · exact h
  · exact .ite (tidy_onCore h fun _ hc => hc) (tidy_freeIndex h)

theorem tidy_stopCore {phys : Nat} (h : Tidy K s) : Tidy K (stopCore phys s) := by
  unfold stopCore
  extract_lets s1 s2 s3 s4 s5
  have hs1 : Tidy K s1 := by
    refine tidy_onCore h fun _ hc => ?_
    extract_lets c1 src
    have hc1 : CoreTidy K c1 := tidy_abortTxn hc
    exact hc1
  have hs2 : Tidy K s2 := tidy_forgetAnswers (tidy_onCore hs1 fun _ => tidy_dropStanding)
  have hs3 : Tidy K s3 := tidy_onCluster (tidy_failGang hs2) fun _ => tidy_leaveNest
  have hs4 : Tidy K s4 := tidy_dropOps hs3
  have hs5 : Tidy K s5 := .foldl hs4 fun _ _ hs6 => tidy_stopChannel hs6
  exact tidy_releaseHeld (tidy_performAll hs5)

theorem tidy_reachBarrier {phys part : Nat} (h : Tidy K s) : Tidy K (reachBarrier phys part s) := .ite (tidy_onCore h fun _ hc => hc) h

theorem tidy_discardConts {part gid launch : Nat} (h : Tidy K s) : Tidy K (discardConts part gid launch s) := by
  unfold discardConts
  extract_lets mine heldMine n s1
  have hs1 : Tidy K s1 := tidy_mapCores ⟨h.mem, h.core, h.others, tidy_clusterMap h.clusters (fun _ hk => hk)⟩ fun _ hc => hc
  exact tidy_refillQueues (.foldl hs1 fun _ _ hs2 => tidy_popDown hs2)

theorem tidy_saveAccess {a : Act α} (ha : KeepsTidy K a) : KeepsTidy K (saveAccess a : Act α) := by
  unfold saveAccess
  refine .bind (.attempt ha) fun _ => ?_
  split
  · exact .pure
  · exact .throw
  · exact .throw

theorem tidy_saveRead {phys i : Nat} {a : Word} {n : Nat} : KeepsTidy K (saveRead phys i a n) := by
  unfold saveRead
  refine .get_bind fun s _ => ?_
  extract_lets ag
  refine tidy_saveAccess ?_
  refine .bind tidy_openAccess fun _ => ?_
  refine .bind tidy_performMeeting fun _ => ?_
  refine .bind tidy_checkBad fun _ => ?_
  refine .get_bind fun _ hs1 => ?_
  extract_lets s2
  have hs2 : Tidy K s2 := tidy_reachPieces hs1
  exact .bind (.set hs2) fun _ => .pure

theorem tidy_saveWrite {phys i : Nat} {a : Word} {bytes : List Byte} : KeepsTidy K (saveWrite phys i a bytes) := by
  unfold saveWrite
  refine .get_bind fun s _ => ?_
  extract_lets ag
  exact tidy_saveAccess (.bind tidy_openAccess fun _ => .bind tidy_performMeeting fun _ => .bind tidy_checkBad fun _ => tidy_forParts
    fun _ _ _ => .modify fun _ => tidy_storeAt)

theorem tidy_frameBusy {i : Nat} : KeepsTidy K (frameBusy i) := .get_bind fun _ _ => .ite (.bind tidy_saveRead fun _ => .pure) .pure

theorem tidy_leaveQueues {i : Nat} {c : Core} (hc : CoreTidy K c) : CoreTidy K (leaveQueues i c) := hc

theorem tidy_leaveUnready {phys : Nat} {c : Cluster} (hc : ClusterTidy K c) : ClusterTidy K (leaveUnready phys c) := hc

theorem tidy_beginEntry {d : Deferred} {epc : Word} (h : Tidy K s) : Tidy K (beginEntry d epc s) := by
  unfold beginEntry
  extract_lets s1 s2
  have hs1 : Tidy K s1 := tidy_onCur h
  have hs2 : Tidy K s2 := ⟨hs1.mem, tidy_leaveQueues hs1.core, hs1.others, hs1.clusters⟩
  exact .ite hs2 (tidy_onCluster hs2 fun _ => tidy_leaveUnready)

theorem tidy_takeTrap {cause : BitVec 8} {eval einfo epc : Word} : KeepsTidy K (takeTrap cause eval einfo epc) := by
  unfold takeTrap
  refine .bind (.modify fun _ => tidy_beginEntry) fun x => ?_
  refine .get_bind fun _ _ => ?_
  extract_lets i a jp jp1 jp2
  have hjp : ∀ (x : Unit), KeepsTidy K (jp x) := by
    intro _
    refine .get_bind fun _ _ => ?_
    extract_lets x2 status
    refine .bind tidy_saveWrite fun _ => ?_
    refine .modify fun _ hs2 => ?_
    extract_lets src s3
    have hsrc : CoreTidy K src := hs2.core
    have hs3 : Tidy K s3 := ⟨hs2.mem, hsrc, hs2.others, hs2.clusters⟩
    exact tidy_onCur hs3
  have hjp1 : ∀ (x : Unit), KeepsTidy K (jp1 x) := fun _ => .bind tidy_frameBusy fun _ => .ite (.bind .throw fun _ => hjp ()) (hjp ())
  have hjp2 : ∀ (x : Unit), KeepsTidy K (jp2 x) := fun _ => .ite (.bind .throw fun _ => hjp1 ()) (hjp1 ())
  exact .ite (.bind .stall fun _ => hjp2 ()) (hjp2 ())

theorem tidy_gangTrap {phys : Nat} (h : Tidy K s) : Tidy K (gangTrap phys s) := by
  unfold gangTrap
  split
  · extract_lets here f src f1
    have hf : Tidy K f := tidy_focusOn h
    have hsrc : CoreTidy K src := hf.core
    have hf1 : Tidy K f1 := ⟨hf.mem, hsrc, hf.others, hf.clusters⟩
    split
    · rename_i he1
      exact tidy_focusOn (KeepsTidy.of_eq he1 tidy_takeTrap hf1)
    · rename_i he1
      exact tidy_focusOn (KeepsTidy.of_stop he1 tidy_takeTrap hf1)
  · exact h

theorem tidy_stopMember {phys : Nat} (h : Tidy K s) : Tidy K (stopMember phys s) := by
  unfold stopMember
  split
  · exact h
  · extract_lets s1 s2
    have hs1 : Tidy K s1 := tidy_endEvent (tidy_stopCore h)
    have hs2 : Tidy K s2 := tidy_popDown hs1
    exact tidy_reachBarrier (tidy_onCore (tidy_dropTile hs2) fun _ => tidy_vacate)

theorem tidy_failGroup {part gid : Nat} (h : Tidy K s) : Tidy K (failGroup part gid s) := by
  unfold failGroup
  split
  · exact h
  · extract_lets s1
    have hs1 : Tidy K s1 := .foldl h fun _ _ hs2 => .ite (tidy_stopMember (tidy_gangTrap hs2)) hs2
    exact tidy_dissolveGroup (tidy_discardConts hs1)

theorem tidy_failTask {phys : Nat} {cause : BitVec 8} (h : Tidy K s) : Tidy K (failTask phys cause s) := by
  unfold failTask
  split
  · exact tidy_onCore h fun _ hc => hc
  · extract_lets s1 s2 s3 s4
    have hs1 : Tidy K s1 := tidy_record h
    have hs2 : Tidy K s2 := tidy_onPart hs1
    have hs3 : Tidy K s3 := tidy_launchFails hs2
    have hs4 : Tidy K s4 := tidy_stopMember hs3
    exact tidy_sweepPart (tidy_failGroup hs4)

theorem tidy_raise {cause : BitVec 8} {eval einfo : Word} : KeepsTidy K (raise cause eval einfo) :=
  .get_bind fun _ hs => .ite (.bind (.set ⟨hs.mem, tidy_abortTxn hs.core, hs.others, hs.clusters⟩) fun _ => .ite
    (.get_bind fun _ _ => tidy_takeTrap) .pure) tidy_takeTrap

theorem tidy_failWith {phys i : Nat} {cause : BitVec 8} {eval einfo : Word} (h : Tidy K s) :
    Tidy K (failWith phys i cause eval einfo s) :=
  tidy_failTask (.ite (tidy_onCtx h) h)

theorem tidy_standStill {party : Bool} (h : Tidy K s) : Tidy K (standStill party s) := tidy_onCur h

theorem tidy_settleTrap {r : EStateM.Result Stop State Unit} (h : Tidy K (leftBy r)) : Tidy K (settleTrap r) := by
  unfold settleTrap
  split
  · exact h
  · exact tidy_failWith h
  · exact tidy_standStill h
  · exact h

theorem tidy_stopAs {e : Stop} (h : Tidy K s) : Tidy K (stopAs e s) := by
  unfold stopAs
  split
  · exact tidy_settleTrap (tidy_raise _ h)
  · exact tidy_standStill h
  · exact tidy_failWith h
  · exact ⟨h.mem, tidy_abortTxn h.core, h.others, h.clusters⟩
  · exact h

theorem tidy_noteTurn (h : Tidy K s) : Tidy K (noteTurn s) := by
  unfold noteTurn
  extract_lets det src
  have hsrc : CoreTidy K src := h.core
  exact .ite ⟨h.mem, hsrc, h.others, h.clusters⟩ h

theorem tidy_halt {e : Stop} (h : Tidy K s) : Tidy K (halt e s) := by
  unfold halt
  split
  · exact tidy_stopAs (tidy_noteTurn h)
  · exact tidy_stopAs (tidy_noteTurn h)
  · exact tidy_stopAs h

theorem tidy_resumeEntry {e : Entry} (h : Tidy K s) : Tidy K (resumeEntry e s) := tidy_settleTrap (tidy_takeTrap _ h)

theorem tidy_precheck {i : InstrInfo} : KeepsTidy K (precheck i) := by
  unfold precheck
  refine .get_bind fun _ _ => ?_
  extract_lets x jp jp1 jp2
  have hjp : ∀ (x : Unit), KeepsTidy K (jp x) := fun _ => .ite .throw .pure
  have hjp1 : ∀ (x : Unit), KeepsTidy K (jp1 x) := fun _ => .ite (.bind .trap fun _ => hjp ()) (hjp ())
  have hjp2 : ∀ (x : Unit), KeepsTidy K (jp2 x) := fun _ => .ite (.bind .trap fun _ => hjp1 ()) (hjp1 ())
  exact .ite (.bind .trap fun _ => hjp2 ()) (hjp2 ())

theorem tidy_retire {i : InstrInfo} (h : Tidy K s) : Tidy K (retire i s) := by
  unfold retire
  extract_lets s1 src
  have hs1 : Tidy K s1 := tidy_onCur (tidy_noteTurn h)
  have hsrc : CoreTidy K src := hs1.core
  exact ⟨hs1.mem, hsrc, hs1.others, hs1.clusters⟩

theorem tidy_runInstr {i : InstrInfo} {body : Act Unit} (hbody : KeepsTidy K body) (h : Tidy K s) : Tidy K (runInstr i body s) := by
  unfold runInstr
  split
  · rename_i he
    exact tidy_retire (KeepsTidy.of_eq he (.bind tidy_precheck fun _ => hbody) h)
  · rename_i he
    exact tidy_halt (KeepsTidy.of_stop he (.bind tidy_precheck fun _ => hbody) h)

theorem tidy_runSeq {i : InstrInfo} {body : Act Unit} (hbody : KeepsTidy K body) (h : Tidy K s) : TidyNext K (runSeq i body s) :=
  .next (tidy_runInstr (.bind hbody fun _ => tidy_advance) h)

theorem tidy_runJump {i : InstrInfo} {body : Act Unit} (hbody : KeepsTidy K body) (h : Tidy K s) : TidyNext K (runJump i body s) :=
  .next (tidy_runInstr hbody h)

theorem tidy_clearBusy {i : Nat} {b : List Byte} : KeepsTidy K (clearBusy i b) := .get_bind fun _ _ => tidy_saveWrite

/-! ### Sys2Proof/Machine/Alu.lean -/

theorem tidy_aluBody {op : AluOp} {d a b : Reg} {wa wb : Bool} : KeepsTidy K (aluBody op d a b wa wb) :=
  .bind tidy_readS fun _ => .bind tidy_readS fun _ => tidy_writeS

theorem tidy_unaryBody {f : Word → Word} {d a : Reg} {wa : Bool} : KeepsTidy K (unaryBody f d a wa) :=
  .bind tidy_readS fun _ => tidy_writeS

theorem tidy_cselBody {d a b : Reg} {wa wb : Bool} : KeepsTidy K (cselBody d a b wa wb) :=
  .bind tidy_readS fun _ => .bind tidy_readS fun _ => .bind tidy_readS fun _ => tidy_writeS

theorem tidy_execAdd {d a b : Reg} {wa wb : Bool} (h : Tidy K s) : TidyNext K (execAdd d a b wa wb s) := tidy_runSeq tidy_aluBody h

theorem tidy_execSub {d a b : Reg} {wa wb : Bool} (h : Tidy K s) : TidyNext K (execSub d a b wa wb s) := tidy_runSeq tidy_aluBody h

theorem tidy_execMul {d a b : Reg} {wa wb : Bool} (h : Tidy K s) : TidyNext K (execMul d a b wa wb s) := tidy_runSeq tidy_aluBody h

theorem tidy_execMulh {d a b : Reg} {wa wb : Bool} (h : Tidy K s) : TidyNext K (execMulh d a b wa wb s) := tidy_runSeq tidy_aluBody h

theorem tidy_execMulhn {d a b : Reg} {wa wb : Bool} (h : Tidy K s) : TidyNext K (execMulhn d a b wa wb s) := tidy_runSeq tidy_aluBody h

theorem tidy_execDiv {d a b : Reg} {wa wb : Bool} (h : Tidy K s) : TidyNext K (execDiv d a b wa wb s) := tidy_runSeq tidy_aluBody h

theorem tidy_execDivn {d a b : Reg} {wa wb : Bool} (h : Tidy K s) : TidyNext K (execDivn d a b wa wb s) := tidy_runSeq tidy_aluBody h

theorem tidy_execRem {d a b : Reg} {wa wb : Bool} (h : Tidy K s) : TidyNext K (execRem d a b wa wb s) := tidy_runSeq tidy_aluBody h

theorem tidy_execRemn {d a b : Reg} {wa wb : Bool} (h : Tidy K s) : TidyNext K (execRemn d a b wa wb s) := tidy_runSeq tidy_aluBody h

theorem tidy_execAnd {d a b : Reg} {wa wb : Bool} (h : Tidy K s) : TidyNext K (execAnd d a b wa wb s) := tidy_runSeq tidy_aluBody h

theorem tidy_execOr {d a b : Reg} {wa wb : Bool} (h : Tidy K s) : TidyNext K (execOr d a b wa wb s) := tidy_runSeq tidy_aluBody h

theorem tidy_execXor {d a b : Reg} {wa wb : Bool} (h : Tidy K s) : TidyNext K (execXor d a b wa wb s) := tidy_runSeq tidy_aluBody h

theorem tidy_execAndn {d a b : Reg} {wa wb : Bool} (h : Tidy K s) : TidyNext K (execAndn d a b wa wb s) := tidy_runSeq tidy_aluBody h

theorem tidy_execSll {d a b : Reg} {wa wb : Bool} (h : Tidy K s) : TidyNext K (execSll d a b wa wb s) := tidy_runSeq tidy_aluBody h

theorem tidy_execSrl {d a b : Reg} {wa wb : Bool} (h : Tidy K s) : TidyNext K (execSrl d a b wa wb s) := tidy_runSeq tidy_aluBody h

theorem tidy_execSra {d a b : Reg} {wa wb : Bool} (h : Tidy K s) : TidyNext K (execSra d a b wa wb s) := tidy_runSeq tidy_aluBody h

theorem tidy_execRor {d a b : Reg} {wa wb : Bool} (h : Tidy K s) : TidyNext K (execRor d a b wa wb s) := tidy_runSeq tidy_aluBody h

theorem tidy_execMin {d a b : Reg} {wa wb : Bool} (h : Tidy K s) : TidyNext K (execMin d a b wa wb s) := tidy_runSeq tidy_aluBody h

theorem tidy_execMax {d a b : Reg} {wa wb : Bool} (h : Tidy K s) : TidyNext K (execMax d a b wa wb s) := tidy_runSeq tidy_aluBody h

theorem tidy_execMinn {d a b : Reg} {wa wb : Bool} (h : Tidy K s) : TidyNext K (execMinn d a b wa wb s) := tidy_runSeq tidy_aluBody h

theorem tidy_execMaxn {d a b : Reg} {wa wb : Bool} (h : Tidy K s) : TidyNext K (execMaxn d a b wa wb s) := tidy_runSeq tidy_aluBody h

theorem tidy_execSlt {d a b : Reg} {wa wb : Bool} (h : Tidy K s) : TidyNext K (execSlt d a b wa wb s) := tidy_runSeq tidy_aluBody h

theorem tidy_execSltn {d a b : Reg} {wa wb : Bool} (h : Tidy K s) : TidyNext K (execSltn d a b wa wb s) := tidy_runSeq tidy_aluBody h

theorem tidy_execSeq {d a b : Reg} {wa wb : Bool} (h : Tidy K s) : TidyNext K (execSeq d a b wa wb s) := tidy_runSeq tidy_aluBody h

theorem tidy_execClz {d a : Reg} {wa : Bool} (h : Tidy K s) : TidyNext K (execClz d a wa s) := tidy_runSeq tidy_unaryBody h

theorem tidy_execCtz {d a : Reg} {wa : Bool} (h : Tidy K s) : TidyNext K (execCtz d a wa s) := tidy_runSeq tidy_unaryBody h

theorem tidy_execPopc {d a : Reg} {wa : Bool} (h : Tidy K s) : TidyNext K (execPopc d a wa s) := tidy_runSeq tidy_unaryBody h

theorem tidy_execSext {d a : Reg} {size : Fin 3} {wa : Bool} (h : Tidy K s) : TidyNext K (execSext d a size wa s) :=
  tidy_runSeq tidy_unaryBody h

theorem tidy_execZext {d a : Reg} {size : Fin 3} {wa : Bool} (h : Tidy K s) : TidyNext K (execZext d a size wa s) :=
  tidy_runSeq tidy_unaryBody h

theorem tidy_execCsel {d a b : Reg} {wa wb : Bool} (h : Tidy K s) : TidyNext K (execCsel d a b wa wb s) := tidy_runSeq tidy_cselBody h

theorem tidy_execAddi {d a : Reg} {wa : Bool} {imm : BitVec 14} (h : Tidy K s) : TidyNext K (execAddi d a wa imm s) :=
  tidy_runSeq tidy_unaryBody h

theorem tidy_execAndi {d a : Reg} {wa : Bool} {imm : BitVec 14} (h : Tidy K s) : TidyNext K (execAndi d a wa imm s) :=
  tidy_runSeq tidy_unaryBody h

theorem tidy_execOri {d a : Reg} {wa : Bool} {imm : BitVec 14} (h : Tidy K s) : TidyNext K (execOri d a wa imm s) :=
  tidy_runSeq tidy_unaryBody h

theorem tidy_execXori {d a : Reg} {wa : Bool} {imm : BitVec 14} (h : Tidy K s) : TidyNext K (execXori d a wa imm s) :=
  tidy_runSeq tidy_unaryBody h

theorem tidy_execSlti {d a : Reg} {wa : Bool} {imm : BitVec 14} (h : Tidy K s) : TidyNext K (execSlti d a wa imm s) :=
  tidy_runSeq tidy_unaryBody h

theorem tidy_execSltni {d a : Reg} {wa : Bool} {imm : BitVec 14} (h : Tidy K s) : TidyNext K (execSltni d a wa imm s) :=
  tidy_runSeq tidy_unaryBody h

theorem tidy_execSlli {d a : Reg} {wa : Bool} {amt : BitVec 6} (h : Tidy K s) : TidyNext K (execSlli d a wa amt s) :=
  tidy_runSeq tidy_unaryBody h

theorem tidy_execSrli {d a : Reg} {wa : Bool} {amt : BitVec 6} (h : Tidy K s) : TidyNext K (execSrli d a wa amt s) :=
  tidy_runSeq tidy_unaryBody h

theorem tidy_execSrai {d a : Reg} {wa : Bool} {amt : BitVec 6} (h : Tidy K s) : TidyNext K (execSrai d a wa amt s) :=
  tidy_runSeq tidy_unaryBody h

theorem tidy_execRori {d a : Reg} {wa : Bool} {amt : BitVec 6} (h : Tidy K s) : TidyNext K (execRori d a wa amt s) :=
  tidy_runSeq tidy_unaryBody h

theorem tidy_execHi {d : Reg} {imm : BitVec 20} (h : Tidy K s) : TidyNext K (execHi d imm s) := tidy_runSeq tidy_writeS h

theorem tidy_execPcrel {d : Reg} {imm : BitVec 20} (h : Tidy K s) : TidyNext K (execPcrel d imm s) :=
  tidy_runSeq (.get_bind fun _ _ => tidy_writeS) h

theorem tidy_execCMv {d b : Reg} {w : Bool} (h : Tidy K s) : TidyNext K (execCMv d b w s) := tidy_runSeq tidy_aluBody h

theorem tidy_execCAdd {d b : Reg} {w : Bool} (h : Tidy K s) : TidyNext K (execCAdd d b w s) := tidy_runSeq tidy_aluBody h

theorem tidy_execCSub {d b : Reg} {w : Bool} (h : Tidy K s) : TidyNext K (execCSub d b w s) := tidy_runSeq tidy_aluBody h

theorem tidy_execCAnd {d b : Reg} {w : Bool} (h : Tidy K s) : TidyNext K (execCAnd d b w s) := tidy_runSeq tidy_aluBody h

theorem tidy_execCOr {d b : Reg} {w : Bool} (h : Tidy K s) : TidyNext K (execCOr d b w s) := tidy_runSeq tidy_aluBody h

theorem tidy_execCXor {d b : Reg} {w : Bool} (h : Tidy K s) : TidyNext K (execCXor d b w s) := tidy_runSeq tidy_aluBody h

theorem tidy_execCSll {d b : Reg} {w : Bool} (h : Tidy K s) : TidyNext K (execCSll d b w s) := tidy_runSeq tidy_aluBody h

theorem tidy_execCSrl {d b : Reg} {w : Bool} (h : Tidy K s) : TidyNext K (execCSrl d b w s) := tidy_runSeq tidy_aluBody h

theorem tidy_execCSra {d b : Reg} {w : Bool} (h : Tidy K s) : TidyNext K (execCSra d b w s) := tidy_runSeq tidy_aluBody h

theorem tidy_execCAddi {d : Reg} {imm : BitVec 5} {w : Bool} (h : Tidy K s) : TidyNext K (execCAddi d imm w s) :=
  tidy_runSeq tidy_unaryBody h

/-! ### Sys2Proof/Machine/Remote.lean -/

theorem tidy_putInbox {tag : Nat} {l : List InboxEntry} {c : Core} (hc : CoreTidy K c) : CoreTidy K (putInbox tag l c) := .ite hc hc

theorem tidy_holdReq {phys : Nat} {q : HeldReq} (h : Tidy K s) : Tidy K (holdReq phys q s) := tidy_onCore h fun _ hc => hc

theorem tidy_sendRemote {w : RemoteWrite} (h : Tidy K s) : Tidy K (sendRemote w s) := tidy_flowSent (h.same rfl)

theorem tidy_rwrAct {n : Reg} {target value : Word} : KeepsTidy K (rwrAct n target value) := by
  unfold rwrAct
  refine .get_bind fun _ _ => ?_
  extract_lets ag w
  split
  · exact .trap
  · extract_lets jp
    have hjp : ∀ (x : Unit), KeepsTidy K (jp x) := by
      intro _
      unfold jp
      split
      · exact .stall
      · refine .bind tidy_fenceAct fun _ => ?_
        refine .ite ?_ (.ite .stall (.modify fun _ => tidy_sendRemote))
        refine .modify fun _ hs1 => ?_
        extract_lets s2
        have hs2 : Tidy K s2 := tidy_holdReq hs1
        exact tidy_onCore hs2 fun _ hc => hc
    exact .ite (.bind .trap fun _ => hjp ()) (hjp ())

theorem tidy_execRwr {n a b : Reg} {wa wb : Bool} (h : Tidy K s) : TidyNext K (execRwr n a b wa wb s) :=
  tidy_runSeq (.bind tidy_readS fun _ => .bind tidy_readS fun _ => tidy_rwrAct) h

theorem tidy_presenceAct {n : Reg} {on : Bool} : KeepsTidy K (presenceAct n on) :=
  .ite .pure (.bind tidy_destReady fun _ => .modify fun _ => tidy_onCur)

theorem tidy_execFeclr {n : Reg} (h : Tidy K s) : TidyNext K (execFeclr n s) := tidy_runSeq tidy_presenceAct h

theorem tidy_execFeset {n : Reg} (h : Tidy K s) : TidyNext K (execFeset n s) := tidy_runSeq tidy_presenceAct h

theorem tidy_fetstBody {d n : Reg} : KeepsTidy K (fetstBody d n) := by
  unfold fetstBody
  refine .get_bind fun _ _ => ?_
  extract_lets jp
  have hjp : ∀ (x : Unit), KeepsTidy K (jp x) := fun _ => tidy_writeS
  exact .ite (.bind .stall fun _ => hjp ()) (hjp ())

theorem tidy_execFetst {d n : Reg} (h : Tidy K s) : TidyNext K (execFetst d n s) := tidy_runSeq tidy_fetstBody h

/-! ### Sys2Proof/Machine/Control.lean -/

theorem tidy_mfcBody {d : Reg} {n : BitVec 12} : KeepsTidy K (mfcBody d n) := by
  unfold mfcBody
  refine .get_bind fun _ _ => ?_
  extract_lets firmware jp jp1 jp2
  have hjp : ∀ (x : Unit), KeepsTidy K (jp x) := fun _ => tidy_writeS
  have hjp1 : ∀ (x : Unit), KeepsTidy K (jp1 x) := fun _ => .ite (.bind .stall fun _ => hjp ()) (hjp ())
  have hjp2 : ∀ (x : Unit), KeepsTidy K (jp2 x) := fun _ => .ite (.bind .trap fun _ => hjp1 ()) (hjp1 ())
  exact .ite (.bind .trap fun _ => hjp2 ()) (hjp2 ())

theorem tidy_execMfc {d : Reg} {n : BitVec 12} (h : Tidy K s) : TidyNext K (execMfc d n s) := tidy_runSeq tidy_mfcBody h

theorem tidy_putPartReg {tag n : Nat} {v : Word} (h : Tidy K s) : Tidy K (putPartReg tag n v s) := tidy_onPart h

theorem tidy_putCtl {n : Nat} {v : Word} (h : Tidy K s) : Tidy K (putCtl n v s) := by
  unfold putCtl
  split
  · exact tidy_onCur h
  · refine ⟨h.mem, ?_, h.others, h.clusters⟩
    extract_lets src
    have hsrc : CoreTidy K src := h.core
    exact hsrc
  · exact tidy_onCur h
  · refine ⟨h.mem, ?_, h.others, h.clusters⟩
    extract_lets src
    have hsrc : CoreTidy K src := h.core
    exact hsrc
  · refine ⟨h.mem, ?_, h.others, h.clusters⟩
    extract_lets src
    have hsrc : CoreTidy K src := h.core
    exact hsrc
  · refine ⟨h.mem, ?_, h.others, h.clusters⟩
    extract_lets src
    have hsrc : CoreTidy K src := h.core
    exact hsrc
  · refine .ite ?_ (.ite (tidy_holdReq h) (tidy_putPartReg h))
    refine ⟨h.mem, ?_, h.others, h.clusters⟩
    extract_lets src
    have hsrc : CoreTidy K src := h.core
    exact hsrc

theorem tidy_mtcBody {n : BitVec 12} {a : Reg} {wa : Bool} : KeepsTidy K (mtcBody n a wa) := by
  unfold mtcBody
  refine .bind tidy_readS fun x => ?_
  refine .get_bind fun _ _ => ?_
  extract_lets priv firmware jp jp1 jp2 jp3
  have hjp : ∀ (x : Unit), KeepsTidy K (jp x) := fun _ => .modify fun _ => tidy_putCtl
  have hjp1 : ∀ (x : Unit), KeepsTidy K (jp1 x) := fun _ => .ite (.bind .trap fun _ => hjp ()) (hjp ())
  have hjp2 : ∀ (x : Unit), KeepsTidy K (jp2 x) := fun _ => .ite (.bind .trap fun _ => hjp1 ()) (hjp1 ())
  have hjp3 : ∀ (x : Unit), KeepsTidy K (jp3 x) := by
    intro _
    unfold jp3
    split
    · exact .ite (.bind .trap fun _ => hjp2 ()) (hjp2 ())
    · exact .bind .trap fun _ => hjp2 ()
    · exact .ite (.bind .trap fun _ => hjp2 ()) (hjp2 ())
    · exact hjp2 ()
  exact .ite (.bind .trap fun _ => hjp3 ()) (hjp3 ())

theorem tidy_execMtc {n : BitVec 12} {a : Reg} {wa : Bool} (h : Tidy K s) : TidyNext K (execMtc n a wa s) := tidy_runSeq tidy_mtcBody h

/-! ### Sys2Proof/Machine/Mem.lean -/

theorem tidy_sampleLoad {ag : Agent} {before : State} {addr : Word} {n : Nat} : KeepsTidy K (sampleLoad ag before addr n) := by
  unfold sampleLoad
  refine .ite .pure ?_
  refine .bind (.attempt tidy_resolve) fun _ => ?_
  split
  · exact tidy_sampleFree
  · exact .pure

theorem tidy_loadTo {d : Reg} {addr : Word} {n : Nat} {f : Nat → Word} : KeepsTidy K (loadTo d addr n f) := by
  unfold loadTo
  refine .bind tidy_destReady fun _ => ?_
  refine .get_bind fun _ _ => ?_
  extract_lets ag
  refine .get_bind fun _ _ => ?_
  refine .bind tidy_loadAct fun _ => ?_
  refine .bind tidy_sampleLoad fun _ => ?_
  extract_lets v
  exact .ite (.ite .trap .pure) (.ite (.modify fun _ => tidy_bring) (.modify fun _ => tidy_setReg))

theorem tidy_loadBody {d a : Reg} {wa : Bool} {off : BitVec 11} {n : Nat} {f : Nat → Word} : KeepsTidy K (loadBody d a wa off n f) :=
  .bind tidy_readS fun _ => tidy_loadTo

theorem tidy_storeBody {data a : Reg} {w : Bool} {off : BitVec 11} {n : Nat} : KeepsTidy K (storeBody data a w off n) :=
  .bind tidy_readS fun _ => .bind tidy_readS fun _ => .get_bind fun _ _ => tidy_storeAct

theorem tidy_prefetchLine {ag : Agent} {level : Fin 3} {pa : Nat} (h : Tidy K s) : Tidy K (prefetchLine ag level pa s) := by
  unfold prefetchLine
  extract_lets line near awake s1 s2
  have hs1 : Tidy K s1 := .ite h (tidy_enterDie h)
  have hs2 : Tidy K s2 := tidy_fillLine hs1
  exact .ite (.ite (tidy_preWake h) h) (.ite h (.ite (tidy_errorRecorded h) (.ite hs1 (.ite (tidy_onCore hs2 fun _ hc => hc) hs2))))

theorem tidy_prefetch {ag : Agent} {level : Fin 3} {va : Word} (h : Tidy K s) : Tidy K (prefetch ag level va s) := by
  unfold prefetch
  refine .ite h ?_
  split
  · exact h
  · split
    · exact h
    · extract_lets pa
      exact .ite (tidy_prefetchLine h) h

theorem tidy_cacheBody {inval : Bool} {scope : Scope} {a : Reg} {wa : Bool} : KeepsTidy K (cacheBody inval scope a wa) :=
  .bind tidy_readS fun _ => .get_bind fun _ _ => tidy_cacheAct

theorem tidy_execLdB {d a : Reg} {wa : Bool} {off : BitVec 11} (h : Tidy K s) : TidyNext K (execLdB d a wa off s) :=
  tidy_runSeq tidy_loadBody h

theorem tidy_execLdH {d a : Reg} {wa : Bool} {off : BitVec 11} (h : Tidy K s) : TidyNext K (execLdH d a wa off s) :=
  tidy_runSeq tidy_loadBody h

theorem tidy_execLdW {d a : Reg} {wa : Bool} {off : BitVec 11} (h : Tidy K s) : TidyNext K (execLdW d a wa off s) :=
  tidy_runSeq tidy_loadBody h

theorem tidy_execLdD {d a : Reg} {wa : Bool} {off : BitVec 11} (h : Tidy K s) : TidyNext K (execLdD d a wa off s) :=
  tidy_runSeq tidy_loadBody h

theorem tidy_execLdBn {d a : Reg} {wa : Bool} {off : BitVec 11} (h : Tidy K s) : TidyNext K (execLdBn d a wa off s) :=
  tidy_runSeq tidy_loadBody h

theorem tidy_execLdHn {d a : Reg} {wa : Bool} {off : BitVec 11} (h : Tidy K s) : TidyNext K (execLdHn d a wa off s) :=
  tidy_runSeq tidy_loadBody h

theorem tidy_execLdWn {d a : Reg} {wa : Bool} {off : BitVec 11} (h : Tidy K s) : TidyNext K (execLdWn d a wa off s) :=
  tidy_runSeq tidy_loadBody h

theorem tidy_execStB {data a : Reg} {w : Bool} {off : BitVec 11} (h : Tidy K s) : TidyNext K (execStB data a w off s) :=
  tidy_runSeq tidy_storeBody h

theorem tidy_execStH {data a : Reg} {w : Bool} {off : BitVec 11} (h : Tidy K s) : TidyNext K (execStH data a w off s) :=
  tidy_runSeq tidy_storeBody h

theorem tidy_execStW {data a : Reg} {w : Bool} {off : BitVec 11} (h : Tidy K s) : TidyNext K (execStW data a w off s) :=
  tidy_runSeq tidy_storeBody h

theorem tidy_execStD {data a : Reg} {w : Bool} {off : BitVec 11} (h : Tidy K s) : TidyNext K (execStD data a w off s) :=
  tidy_runSeq tidy_storeBody h

theorem tidy_execCLd {d b : Reg} {w : Bool} (h : Tidy K s) : TidyNext K (execCLd d b w s) := tidy_runSeq tidy_loadBody h

theorem tidy_execCSt {d b : Reg} {w : Bool} (h : Tidy K s) : TidyNext K (execCSt d b w s) := tidy_runSeq tidy_storeBody h

theorem tidy_execPref {level : Fin 3} {a : Reg} {wa : Bool} (h : Tidy K s) : TidyNext K (execPref level a wa s) :=
  tidy_runSeq (.bind tidy_readS fun _ => .modify fun _ => tidy_prefetch) h

theorem tidy_execCflush {scope : Scope} {a : Reg} {wa : Bool} (h : Tidy K s) : TidyNext K (execCflush scope a wa s) :=
  tidy_runSeq tidy_cacheBody h

theorem tidy_execCinval {scope : Scope} {a : Reg} {wa : Bool} (h : Tidy K s) : TidyNext K (execCinval scope a wa s) :=
  tidy_runSeq tidy_cacheBody h

/-! ### Sys2Proof/Machine/Sync.lean -/

theorem tidy_syncPlace {ag : Agent} {scope : Scope} {va : Word} : KeepsTidy K (syncPlace ag scope va) := by
  unfold syncPlace
  extract_lets jp
  have hjp : ∀ (x : Unit), KeepsTidy K (jp x) := by
    intro x
    refine .bind tidy_resolve fun _ => ?_
    split
    · exact .trap
    · extract_lets jp1 jp2
      have hjp1 : ∀ (x : Unit), KeepsTidy K (jp1 x) := fun _ => .bind tidy_stashFill fun _ => .bind tidy_touchData fun _ => .pure
      have hjp2 : ∀ (x : Unit), KeepsTidy K (jp2 x) := fun _ => .get_bind fun _ _ => .ite (.bind .trap fun _ => hjp1 ()) (hjp1 ())
      exact .ite (.bind .trap fun _ => hjp2 ()) (hjp2 ())
  exact .ite (.bind .trap fun _ => hjp ()) (hjp ())

theorem tidy_acquireLines {phys part : Nat} {word : Word} (h : Tidy K s) : Tidy K (acquireLines phys part word s) := by
  unfold acquireLines
  extract_lets cl bound s1
  have hs1 : Tidy K s1 := .foldl h fun _ _ hs2 => .ite (.foldl hs2 fun _ _ hs3 => tidy_stashWriteBack hs3) hs2
  exact .foldl hs1 fun _ _ hs2 => .ite (tidy_writeBack (tidy_combineCluster (tidy_recallStash hs2))) (tidy_dropLine hs2)

theorem tidy_onHeld {phys : Nat} {f : List HeldWord → List HeldWord} (h : Tidy K s) : Tidy K (onHeld phys f s) :=
  tidy_onCore h fun _ hc => hc

theorem tidy_awaitLines {phys : Nat} {lines : List Nat} : KeepsTidy K (awaitLines phys lines) := by
  unfold awaitLines
  refine .get_bind fun _ _ => ?_
  extract_lets jp
  have hjp : ∀ (x : Unit), KeepsTidy K (jp x) := fun _ => .forM fun _ => tidy_awaitHost
  exact .ite (.bind .stall fun _ => hjp ()) (hjp ())

theorem tidy_acqAct {ag : Agent} {scope : Scope} {va : Word} : KeepsTidy K (acqAct ag scope va) := by
  unfold acqAct
  refine .bind tidy_syncPlace fun x => ?_
  refine .get_bind fun _ _ => ?_
  extract_lets held has far jp jp1 jp2 jp3 jp4 jp5
  have hjp : ∀ (x : Unit), KeepsTidy K (jp x) := fun _ => .ite (.modify fun _ => tidy_onHeld) .pure
  have hjp1 : ∀ (x : Unit), KeepsTidy K (jp1 x) := fun _ => .ite (.bind (.modify fun _ => tidy_acquireLines) fun _ => hjp ()) (hjp ())
  have hjp2 : ∀ (x : Unit), KeepsTidy K (jp2 x) := fun _ => .bind (.modify fun _ => tidy_readAt) fun _ => .get_bind fun _ _ => .ite
    (.bind .trap fun _ => hjp1 ()) (hjp1 ())
  have hjp3 : ∀ (x : Unit), KeepsTidy K (jp3 x) := by
    intro _
    unfold jp3
    split
    · refine .ite ?_ (hjp2 ())
      refine .get_bind fun _ _ => ?_
      extract_lets jp6
      have hjp6 : ∀ (x : Unit), KeepsTidy K (jp6 x) := fun _ => .bind (.modify fun _ hs2 => tidy_dropLine (tidy_recallStash hs2))
        fun _ => hjp2 ()
      exact .ite (.bind tidy_awaitLines fun _ => hjp6 ()) (hjp6 ())
    · exact hjp2 ()
  have hjp4 : ∀ (x : Unit), KeepsTidy K (jp4 x) := fun _ => .ite (.get_bind fun _ _ => .bind tidy_awaitLines fun _ => hjp3 ()) (hjp3 ())
  have hjp5 : ∀ (x : Unit), KeepsTidy K (jp5 x) := fun _ => .bind tidy_performMeeting fun _ => .get_bind fun _ _ => .ite
    (.bind .stall fun _ => hjp4 ()) (hjp4 ())
  exact .ite (.bind .trap fun _ => hjp5 ()) (hjp5 ())

theorem tidy_relAct {ag : Agent} {scope : Scope} {va : Word} : KeepsTidy K (relAct ag scope va) := by
  unfold relAct
  refine .bind tidy_syncPlace fun x => ?_
  refine .bind tidy_fenceAct fun _ => ?_
  refine .get_bind fun _ _ => ?_
  extract_lets jp jp1 jp2
  have hjp : ∀ (x : Unit), KeepsTidy K (jp x) := fun _ => .bind (.modify fun _ => tidy_releaseWord) fun _ => .modify fun _ =>
    tidy_onHeld
  have hjp1 : ∀ (x : Unit), KeepsTidy K (jp1 x) := fun _ => .ite (.get_bind fun _ _ => .bind tidy_awaitLines fun _ => hjp ()) (hjp ())
  have hjp2 : ∀ (x : Unit), KeepsTidy K (jp2 x) := by
    intro _
    unfold jp2
    split
    · exact .ite (.bind tidy_awaitHost fun _ => hjp1 ()) (hjp1 ())
    · exact hjp1 ()
  exact .ite (.bind .trap fun _ => hjp2 ()) (hjp2 ())

theorem tidy_execAcq {scope : Scope} {a : Reg} {w : Bool} (h : Tidy K s) : TidyNext K (execAcq scope a w s) :=
  tidy_runSeq (.bind tidy_readS fun _ => .get_bind fun _ _ => tidy_acqAct) h

theorem tidy_execRel {scope : Scope} {a : Reg} {w : Bool} (h : Tidy K s) : TidyNext K (execRel scope a w s) :=
  tidy_runSeq (.bind tidy_readS fun _ => .get_bind fun _ _ => tidy_relAct) h

theorem tidy_bindAct {word desc : Word} : KeepsTidy K (bindAct word desc) := by
  unfold bindAct
  refine .get_bind fun _ _ => ?_
  extract_lets ag regions jp
  have hjp : ∀ (x : Unit), KeepsTidy K (jp x) := by
    intro x
    refine .bind tidy_readMem fun _ => ?_
    extract_lets r jp1 jp2
    have hjp1 : ∀ (x : Unit), KeepsTidy K (jp1 x) := fun _ => .modify fun _ => tidy_onPart
    have hjp2 : ∀ (x : Unit), KeepsTidy K (jp2 x) := fun _ => .ite (.bind .trap fun _ => hjp1 ()) (hjp1 ())
    exact .ite (.bind .trap fun _ => hjp2 ()) (hjp2 ())
  exact .ite (.bind .trap fun _ => hjp ()) (hjp ())

theorem tidy_execBind {a b : Reg} {w : Bool} (h : Tidy K s) : TidyNext K (execBind a b w s) :=
  tidy_runSeq (.bind tidy_readS fun _ => .bind tidy_readS fun _ => tidy_bindAct) h

theorem tidy_execUnbind {a : Reg} {w : Bool} (h : Tidy K s) : TidyNext K (execUnbind a w s) :=
  tidy_runSeq (.bind tidy_readS fun _ => .modify fun _ => tidy_onPart) h

theorem tidy_execFence {scope : Scope} (h : Tidy K s) : TidyNext K (execFence scope s) :=
  tidy_runSeq (.get_bind fun _ _ => tidy_fenceAct) h

theorem tidy_monBody {d a : Reg} {w : Bool} : KeepsTidy K (monBody d a w) := by
  unfold monBody
  refine .bind tidy_readS fun x => ?_
  refine .bind tidy_destReady fun _ => ?_
  extract_lets jp
  have hjp : ∀ (x : Unit), KeepsTidy K (jp x) := by
    intro _
    refine .get_bind fun s _ => ?_
    extract_lets ag
    refine .bind tidy_openAccess fun _ => ?_
    refine .bind tidy_performMeeting fun _ => ?_
    refine .bind (.modify fun _ => tidy_reachPieces) fun _ => ?_
    refine .get_bind fun _ _ => ?_
    split
    · exact .pure
    · extract_lets jp1
      have hjp1 : ∀ (x : Unit), KeepsTidy K (jp1 x) := fun _ => .bind (.modify fun _ => tidy_onCur) fun _ => .modify fun _ => tidy_bring
      exact .ite (.bind .trap fun _ => hjp1 ()) (hjp1 ())
  exact .ite (.bind .trap fun _ => hjp ()) (hjp ())

theorem tidy_execMon {d a : Reg} {w : Bool} (h : Tidy K s) : TidyNext K (execMon d a w s) := tidy_runSeq tidy_monBody h

theorem tidy_mwaitBody : KeepsTidy K mwaitBody := by
  unfold mwaitBody
  refine .get_bind fun _ _ => ?_
  extract_lets x wakes jp
  have hjp : ∀ (x : Unit), KeepsTidy K (jp x) := fun _ => .ite (.modify fun _ => tidy_onCur)
    (.bind (.modify fun _ => tidy_onCur) fun _ => .stall)
  exact .ite (.bind .trap fun _ => hjp ()) (hjp ())

theorem tidy_execMwait (h : Tidy K s) : TidyNext K (execMwait s) := tidy_runSeq tidy_mwaitBody h

/-! ### Sys2Proof/Machine/Record.lean -/

theorem tidy_keepRecord {phys : Nat} {addr : Word} {b : List Byte} (h : Tidy K s) : Tidy K (keepRecord phys addr b s) :=
  tidy_onCore h fun _ hc => hc

theorem tidy_withInfo {info : Word} {a : Act α} (ha : KeepsTidy K a) : KeepsTidy K (withInfo info a : Act α) := by
  unfold withInfo
  refine .bind (.attempt ha) fun _ => ?_
  split
  · exact .pure
  · exact .trap
  · exact .throw

theorem tidy_recordFault {addr : Word} {code : Nat} {a : Act α} (ha : KeepsTidy K a) :
    KeepsTidy K (recordFault addr code a : Act α) := by
  unfold recordFault
  refine .bind (.attempt ha) fun _ => ?_
  split
  · exact .pure
  · exact .trap
  · exact .throw

theorem tidy_fetchRecord {ag : Agent} {w : Waiter} {code : Nat} {addr : Word} {own : List Byte → Bool} {also : List Byte → Bool} :
    KeepsTidy K (fetchRecord ag w code addr own also) := by
  unfold fetchRecord
  refine .get_bind fun _ hs => ?_
  split
  · exact .bind (.set (tidy_keepRecord hs)) fun _ => .pure
  · refine .bind (tidy_recordFault tidy_readMem) fun _ => ?_
    extract_lets ok jp
    have hjp : ∀ (x : Unit), KeepsTidy K (jp x) := fun _ => .pure
    exact .ite (.bind (.modify fun _ => tidy_keepRecord) fun _ => hjp ()) (hjp ())

theorem tidy_placeInSpace {ag : Agent} {r : ShapeRec} {va : Word} {n : Nat} : KeepsTidy K (placeInSpace ag r va n) := by
  unfold placeInSpace
  refine .ite ?_ ?_
  · extract_lets jp
    have hjp : ∀ (x : Unit), KeepsTidy K (jp x) := fun _ => .pure
    exact .ite (.bind .trap fun _ => hjp ()) (hjp ())
  · refine .get_bind fun _ _ => ?_
    extract_lets c off
    split
    · exact .trap
    · split
      · exact .trap
      · split
        · exact .trap
        · extract_lets jp
          have hjp : ∀ (x : Unit), KeepsTidy K (jp x) := fun _ => .pure
          exact .ite (.bind .trap fun _ => hjp ()) (hjp ())

theorem tidy_readElement {ag : Agent} {w : Waiter} {r : ShapeRec} {p : Vector Nat 4} : KeepsTidy K (readElement ag w r p) :=
  .bind tidy_placeInSpace fun _ => .bind tidy_readMem fun _ => .pure

theorem tidy_execTsfence (h : Tidy K s) : TidyNext K (execTsfence s) := by
  unfold execTsfence
  refine tidy_runSeq ?_ h
  refine .get_bind fun _ _ => ?_
  extract_lets jp
  have hjp : ∀ (x : Unit), KeepsTidy K (jp x) := by
    intro _
    refine .get_bind fun _ _ => ?_
    refine .bind tidy_performOwn fun _ => ?_
    refine .modify fun _ hs3 => ?_
    refine ⟨hs3.mem, ?_, hs3.others, hs3.clusters⟩
    extract_lets src
    have hsrc : CoreTidy K src := hs3.core
    exact hsrc
  exact .ite (.bind .stall fun _ => hjp ()) (hjp ())

theorem tidy_tsdimBody {d a : Reg} {dim : Fin 4} {wa : Bool} : KeepsTidy K (tsdimBody d a dim wa) := by
  unfold tsdimBody
  refine .bind tidy_readS fun x => ?_
  refine .bind tidy_destReady fun _ => ?_
  extract_lets jp
  have hjp : ∀ (x : Unit), KeepsTidy K (jp x) := by
    intro _
    refine .get_bind fun _ _ => ?_
    extract_lets ag
    refine .bind tidy_fetchRecord fun _ => ?_
    split
    extract_lets jp1
    have hjp1 : ∀ (x : Unit), KeepsTidy K (jp1 x) := fun _ => .modify fun _ => tidy_setReg
    exact .ite (.bind .trap fun _ => hjp1 ()) (hjp1 ())
  exact .ite (.bind .trap fun _ => hjp ()) (hjp ())

theorem tidy_execTsdim {d a : Reg} {dim : Fin 4} {wa : Bool} (h : Tidy K s) : TidyNext K (execTsdim d a dim wa s) :=
  tidy_runSeq tidy_tsdimBody h

/-! ### Sys2Proof/Machine/Copy.lean -/

theorem tidy_onChan {phys : Nat} {ch : Fin 4} {f : Chan → Chan} (h : Tidy K s) : Tidy K (onChan phys ch f s) :=
  tidy_onCore h fun _ hc => hc

theorem tidy_ownLine {phys : Nat} {ch : Fin 4} {line : Nat} (h : Tidy K s) : Tidy K (ownLine phys ch line s) := by
  unfold ownLine
  extract_lets s1
  have hs1 : Tidy K s1 := .ite (tidy_backInvalidate h) (tidy_dropLine (tidy_recallStash h))
  exact .ite hs1 (hs1.same rfl)

theorem tidy_claimLine {phys : Nat} {ch : Fin 4} {space l : Nat} : KeepsTidy K (claimLine phys ch space l) := by
  unfold claimLine
  refine .get_bind fun _ _ => ?_
  extract_lets ag va jp
  have hjp : ∀ (x : Unit), KeepsTidy K (jp x) := fun _ => .pure
  refine .bind (.attempt tidy_resolve) fun x => ?_
  split
  · exact .pure
  · exact .ite .throw .pure
  · extract_lets jp1
    have hjp1 : ∀ (x : Unit), KeepsTidy K (jp1 x) := by
      intro _
      refine .get_bind fun _ _ => ?_
      extract_lets taken
      refine .ite .pure ?_
      refine .bind tidy_detCheck fun _ => ?_
      refine .ite ?_ (hjp ())
      refine .bind ?_ fun _ => hjp ()
      refine .forM fun _ => ?_
      split
      · exact .modify fun _ => tidy_ownLine
      · exact .pure
    exact .ite (.bind .trap fun _ => hjp1 ()) (hjp1 ())

theorem tidy_ownLines {phys : Nat} {ch : Fin 4} {j : CopyJob} {done : Nat} : KeepsTidy K (ownLines phys ch j done) :=
  .filterM fun _ => .bind tidy_claimLine fun _ => .pure

theorem tidy_claimAgain {phys : Nat} {ch : Fin 4} {j : CopyJob} {now : List Nat} : KeepsTidy K (claimAgain phys ch j now) := by
  unfold claimAgain
  refine .bind ?_ fun _ => .bind (.filterM fun _ => .bind tidy_claimLine fun _ => .pure) fun _ => .pure
  refine .filterM fun _ => ?_
  refine .get_bind fun _ hs => ?_
  refine .bind (.attempt tidy_claimLine) fun _ => ?_
  split
  · exact .pure
  · exact .bind (.set hs) fun _ => .pure

theorem tidy_releaseLines {phys : Nat} {ch : Fin 4} (h : Tidy K s) : Tidy K (releaseLines phys ch s) := h.same rfl

theorem tidy_faultChannel {phys : Nat} {ch : Fin 4} {cause : BitVec 8} {addr einfo : Word} (h : Tidy K s) :
    Tidy K (faultChannel phys ch cause addr einfo s) := by
  unfold faultChannel
  extract_lets k s1 s2 s3 part
  have hs1 : Tidy K s1 := tidy_releaseLines h
  have hs2 : Tidy K s2 := tidy_onChan hs1
  have hs3 : Tidy K s3 := .ite (tidy_deferTrap hs2) hs2
  exact .ite hs3 (tidy_oweTransfer (tidy_oweTransfer hs3))

theorem tidy_readPair {ag : Agent} {w : Waiter} {rcd : Option Transfer} {dst src : Word} : KeepsTidy K (readPair ag w rcd dst src) := by
  unfold readPair
  extract_lets jp
  have hjp : ∀ (x : Unit), KeepsTidy K (jp x) := by
    intro x
    refine .bind tidy_fetchRecord fun _ => ?_
    split
    extract_lets jp1
    have hjp1 : ∀ (x : Unit), KeepsTidy K (jp1 x) := by
      intro _
      refine .bind tidy_fetchRecord fun _ => ?_
      split
      extract_lets jp2 jp3
      have hjp2 : ∀ (x : Unit), KeepsTidy K (jp2 x) := fun _ => .pure
      have hjp3 : ∀ (x : Unit), KeepsTidy K (jp3 x) := fun _ => .ite (.bind .trap fun _ => hjp2 ()) (hjp2 ())
      exact .ite (.bind .trap fun _ => hjp3 ()) (hjp3 ())
    exact .ite (.bind .trap fun _ => hjp1 ()) (hjp1 ())
  exact .ite (.bind .trap fun _ => hjp ()) (hjp ())

theorem tidy_fitPair {j : CopyJob} : KeepsTidy K (fitPair j) := by
  unfold fitPair
  extract_lets jp
  have hjp : ∀ (x : Unit), KeepsTidy K (jp x) := fun _ => .pure
  exact .ite (.bind .trap fun _ => hjp ()) (hjp ())

theorem tidy_readTransfer {ag : Agent} {w : Waiter} {a : Word} : KeepsTidy K (readTransfer ag w a) := by
  unfold readTransfer
  extract_lets jp
  have hjp : ∀ (x : Unit), KeepsTidy K (jp x) := by
    intro x
    refine .bind (tidy_recordFault tidy_readMem) fun _ => ?_
    extract_lets jp1
    have hjp1 : ∀ (x : Unit), KeepsTidy K (jp1 x) := fun _ => .ite .pure (.bind tidy_readPair fun _ => .pure)
    exact .ite (.bind .trap fun _ => hjp1 ()) (hjp1 ())
  exact .ite (.bind .trap fun _ => hjp ()) (hjp ())

theorem tidy_fitTransfer {x : Option CopyJob} : KeepsTidy K (fitTransfer x) := by
  unfold fitTransfer
  split
  · exact .pure
  · exact .bind tidy_fitPair fun _ => .pure

theorem tidy_startJob {phys : Nat} {ch : Fin 4} {j : CopyJob} : KeepsTidy K (startJob phys ch j) := by
  unfold startJob
  refine .bind (.modify fun _ => tidy_onChan) fun _ => ?_
  refine .bind (.attempt tidy_ownLines) fun _ => ?_
  split
  · exact .modify fun _ => tidy_faultChannel
  · exact .pure
  · exact .modify fun _ => tidy_onChan

theorem tidy_chanContinue {phys : Nat} {ch : Fin 4} : KeepsTidy K (chanContinue phys ch) := by
  unfold chanContinue
  refine .get_bind fun _ hs => ?_
  extract_lets k
  refine .ite .pure ?_
  refine .ite (.set (tidy_onChan hs)) ?_
  refine .bind (.attempt (.bind tidy_readTransfer fun _ => tidy_fitTransfer)) fun _ => ?_
  split
  · exact .modify fun _ => tidy_faultChannel
  · exact .throw
  · exact .modify fun _ => tidy_onChan
  · exact tidy_startJob

theorem tidy_sourceLine {ag : Agent} {w : Waiter} {va : Word} {srcs : List (Nat × List Byte)} {l : Nat} :
    KeepsTidy K (sourceLine ag w va srcs l) := by
  unfold sourceLine
  refine .ite .pure ?_
  refine .bind (.attempt tidy_readMem) fun _ => ?_
  split
  · exact .pure
  · exact .trap
  · exact .throw

theorem tidy_copyBits {ag : Agent} {w : Waiter} {j : CopyJob} {srcs : List (Nat × List Byte)} {i : Nat} :
    KeepsTidy K (copyBits ag w j srcs i) := by
  unfold copyBits
  split
  · exact .pure
  · extract_lets n
    refine .bind tidy_placeInSpace fun _ => ?_
    extract_lets l ls
    refine .bind (.foldlM fun _ _ => tidy_sourceLine) fun _ => ?_
    extract_lets b
    exact .pure

theorem tidy_copyUnit {ag : Agent} {w : Waiter} {j : CopyJob} {srcs : List (Nat × List Byte)} {u : Nat} :
    KeepsTidy K (copyUnit ag w j srcs u) := by
  unfold copyUnit
  extract_lets g
  refine .bind ?_ fun _ => ?_
  · refine .foldlM fun _ _ => ?_
    refine .bind (tidy_withInfo tidy_copyBits) fun _ => ?_
    split
    exact .pure
  · split
    exact .pure

theorem tidy_checkDest {j : CopyJob} {ps : List Piece} : KeepsTidy K (checkDest j ps) := by
  unfold checkDest
  refine .get_bind fun _ _ => ?_
  split
  · exact .trap
  · exact .pure

theorem tidy_mendLine {p : Place} (h : Tidy K s) : Tidy K (mendLine p s) := by
  unfold mendLine
  split
  · exact h.same rfl
  · exact tidy_onCore h fun _ hc => tidy_onAlloc hc fun _ ha4 => ha4

theorem tidy_lineParts {ag : Agent} {w : Waiter} {j : CopyJob} :
    ∀ {n first : Nat} {srcs : List (Nat × List Byte)}, KeepsTidy K (lineParts ag w j first n srcs)
  | 0, _, _ => .pure
  | n + 1, first, srcs => by
    unfold lineParts
    refine .bind (.attempt ?_) fun _ => ?_
    · refine .bind tidy_copyUnit fun _ => ?_
      split
      extract_lets a jp
      have hjp : ∀ x, KeepsTidy K (jp x) := by
        intro _
        refine .bind tidy_openAccess fun _ => ?_
        refine .bind tidy_checkDest fun _ => ?_
        refine .bind ?_ fun _ => .pure
        refine .forM fun _ => ?_
        split
        · exact tidy_awaitHost
        · exact .pure
      exact tidy_withInfo (.ite (.bind .trap fun _ => hjp ()) (hjp ()))
    · split
      · exact .pure
      · exact .throw
      · refine .bind tidy_lineParts fun _ => ?_
        split
        exact .pure

theorem tidy_copyLine {phys : Nat} {ch : Fin 4} {j : CopyJob} : KeepsTidy K (copyLine phys ch j) := by
  unfold copyLine
  refine .get_bind fun _ _ => ?_
  extract_lets ag n
  split
  extract_lets now
  refine .bind (.attempt tidy_claimAgain) fun _ => ?_
  split
  · exact .modify fun _ => tidy_faultChannel
  · exact .throw
  · refine .bind (.modify fun _ => tidy_onChan) fun _ => ?_
    extract_lets jp
    have hjp : ∀ (x : Unit), KeepsTidy K (jp x) := by
      intro _
      refine .get_bind fun _ _ => ?_
      extract_lets mine
      refine .bind (.modify fun _ => tidy_releaseLines) fun _ => ?_
      refine .bind (.attempt tidy_lineParts) fun _ => ?_
      refine .bind (.modify fun _ hs2 => hs2.same rfl) fun _ => ?_
      split
      · exact .throw
      · refine .bind (.forM fun _ => tidy_forParts fun _ _ _ => .modify fun _ => tidy_storeThrough) fun _ => ?_
        extract_lets bytes closed
        refine .bind (.modify fun _ => tidy_onChan) fun _ => ?_
        split
        · exact .modify fun _ => tidy_faultChannel
        · exact .modify fun _ hs2 => .foldl (hs2.same rfl) fun _ _ hs3 => .ite (tidy_mendLine hs3) hs3
    exact .ite (.bind .stall fun _ => hjp ()) (hjp ())

theorem tidy_askHelper {phys : Nat} {q : HelperReq} (h : Tidy K s) : Tidy K (askHelper phys q s) := tidy_onCore h fun _ hc => hc

theorem tidy_finishRecord {phys : Nat} {ch : Fin 4} {j : CopyJob} : KeepsTidy K (finishRecord phys ch j) := by
  unfold finishRecord
  refine .bind (.modify fun _ => tidy_releaseLines) fun x => ?_
  split
  · exact .bind (.modify fun _ => tidy_onChan) fun _ => .get_bind fun _ _ => tidy_sampleFree
  · refine .get_bind fun _ _ => ?_
    extract_lets part jp
    have hjp : ∀ (x : Unit), KeepsTidy K (jp x) := fun _ => .bind tidy_sampleFree fun _ => tidy_chanContinue
    exact .bind tidy_putTransfer fun _ => .bind tidy_putTransfer fun _ => .bind (.modify fun _ => tidy_onChan) fun _ => .ite
      (.bind (.modify fun _ => tidy_askHelper) fun _ => hjp ()) (hjp ())

theorem tidy_takeStops {phys : Nat} (h : Tidy K s) : Tidy K (takeStops phys s) := by
  unfold takeStops
  extract_lets l s1
  have hs1 : Tidy K s1 := tidy_onCore h fun _ hc => hc
  refine .foldl hs1 fun _ _ hs2 => ?_
  split
  · exact tidy_stopChannel hs2
  · exact hs2

theorem tidy_enterCopy {q : CopyCmd} (h : Tidy K s) : Tidy K (enterCopy q s) := by
  unfold enterCopy
  refine .ite h ?_
  refine ⟨h.mem, ?_, h.others, h.clusters⟩
  extract_lets src
  have hsrc : CoreTidy K src := h.core
  exact hsrc

theorem tidy_leaveCopy {q : CopyCmd} (h : Tidy K s) : Tidy K (leaveCopy q s) := by
  unfold leaveCopy
  refine tidy_takeStops ?_
  refine ⟨h.mem, ?_, h.others, h.clusters⟩
  extract_lets src
  have hsrc : CoreTidy K src := h.core
  exact hsrc

theorem tidy_copyTrap {a : Act α} (ha : KeepsTidy K a) : KeepsTidy K (copyTrap a : Act α) := by
  unfold copyTrap
  refine .bind (.attempt ha) fun _ => ?_
  split
  · exact .pure
  · exact .trap
  · exact .throw

theorem tidy_cpyAct {ch : Fin 4} {dst src : Word} : KeepsTidy K (cpyAct ch dst src) := by
  unfold cpyAct
  refine .get_bind fun _ hs => ?_
  extract_lets phys
  exact .bind (.set (tidy_stopChannel hs)) fun _ => .bind (tidy_copyTrap tidy_readPair) fun _ => .bind tidy_fitPair fun _ =>
    tidy_startJob

theorem tidy_cpycAct {ch : Fin 4} {head : Word} {again : Bool} : KeepsTidy K (cpycAct ch head again) := by
  unfold cpycAct
  refine .get_bind fun _ hs => ?_
  extract_lets phys k jp
  have hjp : ∀ (x : Unit), KeepsTidy K (jp x) := by
    intro _
    refine .bind (.attempt (.bind (tidy_copyTrap tidy_readTransfer) fun _ => tidy_fitTransfer)) fun _ => ?_
    split
    · exact .bind (.modify fun _ => tidy_onChan) fun _ => .trap
    · exact .throw
    · exact .modify fun _ => tidy_onChan
    · exact tidy_startJob
  exact .ite (.bind (.set (tidy_stopChannel hs)) fun _ => hjp ()) (hjp ())

theorem tidy_performCopy {a : CopyCmd} : KeepsTidy K (performCopy a) := by
  unfold performCopy
  split
  · exact tidy_cpyAct
  · exact tidy_cpycAct
  · exact .modify fun _ => tidy_stopChannel

theorem tidy_serveCopy {q : CopyCmd} : KeepsTidy K (serveCopy q) := by
  unfold serveCopy
  refine .bind (.modify fun _ => tidy_takeStops) fun _ => ?_
  refine .get_bind fun _ _ => ?_
  refine .ite (.bind (.modify fun _ => tidy_enterCopy) fun _ => .ite .stall .pure) ?_
  refine .bind (.attempt tidy_performCopy) fun _ => ?_
  split
  · exact .modify fun _ => tidy_leaveCopy
  · exact .bind (.modify fun _ => tidy_enterCopy) fun _ => .throw
  · exact .bind (.modify fun _ => tidy_leaveCopy) fun _ => .throw

theorem tidy_copyIssued {q : CopyCmd} (h : Tidy K s) : Tidy K (copyIssued q s) := by
  unfold copyIssued
  extract_lets zero
  have hzero : ∀ (ch : Fin 4), Tidy K (zero ch) := fun _ => tidy_onChan h
  split
  · rename_i a1 _ _
    exact hzero a1
  · rename_i a1 _ _
    exact .ite h (hzero a1)
  · exact h

theorem tidy_issueCopy {ch : Fin 4} {operands : Act CopyCmd} (hoperands : KeepsTidy K operands) :
    KeepsTidy K (issueCopy ch operands) := by
  unfold issueCopy
  refine .get_bind fun _ _ => ?_
  split
  · exact tidy_serveCopy
  · refine .bind (.attempt hoperands) fun _ => ?_
    split
    · extract_lets jp
      have hjp : ∀ (x : Unit), KeepsTidy K (jp x) := fun _ => .trap
      exact .ite (.bind (.modify fun _ => tidy_stopChannel) fun _ => hjp ()) (hjp ())
    · exact .throw
    · refine .bind (.modify fun _ => tidy_takeStops) fun _ => ?_
      refine .get_bind fun _ _ => ?_
      extract_lets jp
      have hjp : ∀ (x : Unit), KeepsTidy K (jp x) := fun _ => .bind (.modify fun _ => tidy_copyIssued) fun _ => tidy_serveCopy
      exact .ite (.bind .stall fun _ => hjp ()) (hjp ())

theorem tidy_execCpy {ch : Fin 4} {a b : Reg} {wa wb : Bool} (h : Tidy K s) : TidyNext K (execCpy ch a b wa wb s) :=
  tidy_runSeq (tidy_issueCopy (.bind tidy_readS fun _ => .bind tidy_readS fun _ => .pure)) h

theorem tidy_execCpyc {ch : Fin 4} {a : Reg} {wa : Bool} (h : Tidy K s) : TidyNext K (execCpyc ch a wa s) := by
  unfold execCpyc
  refine tidy_runSeq ?_ h
  refine tidy_issueCopy ?_
  refine .bind tidy_readS fun _ => ?_
  refine .get_bind fun _ _ => ?_
  extract_lets k
  exact .pure

theorem tidy_execCstop {ch : Fin 4} (h : Tidy K s) : TidyNext K (execCstop ch s) := tidy_runSeq (tidy_issueCopy .pure) h

theorem tidy_execCopyLineWrite {core ch : Nat} (h : Tidy K s) : TidyNext K (execCopyLineWrite core ch s) := by
  unfold execCopyLineWrite
  refine .dite (fun _ => ?_) fun _ => .next h
  extract_lets s1 k
  have hs1 : Tidy K s1 := tidy_payOwed h
  split
  · exact .next (.ite (tidy_runHw tidy_copyLine hs1) hs1)
  · exact .next (tidy_runHw tidy_chanContinue hs1)
  · exact .next hs1

theorem tidy_execCopyRecordFinish {core ch : Nat} (h : Tidy K s) : TidyNext K (execCopyRecordFinish core ch s) := by
  unfold execCopyRecordFinish
  refine .dite (fun _ => ?_) fun _ => .next h
  extract_lets k
  split
  · exact .next (.ite (tidy_runHw tidy_finishRecord h) h)
  · exact .next h

/-! ### Sys2Proof/Machine/Matrix.lean -/

theorem tidy_mxRecord {ag : Agent} {w : Waiter} {code : Nat} {addr : Word} {own : List Byte → Bool} {also : List Byte → Bool} :
    KeepsTidy K (mxRecord ag w code addr own also) :=
  .ite .pure tidy_fetchRecord

theorem tidy_operandPages {ag : Agent} {w : Waiter} {need : Need} {r : ShapeRec} : KeepsTidy K (operandPages ag w need r) := by
  unfold operandPages
  refine .ite .pure ?_
  refine .foldlM fun _ x => ?_
  extract_lets vp
  refine .ite .pure ?_
  refine .bind tidy_resolve fun _ => ?_
  extract_lets jp
  have hjp : ∀ (x : Unit), KeepsTidy K (jp x) := by
    intro _
    unfold jp
    split
    · exact .pure
    · exact .pure
  exact .ite (.bind .trap fun _ => hjp ()) (hjp ())

theorem tidy_operandWindow {ag : Agent} {r : ShapeRec} : KeepsTidy K (operandWindow ag r) := by
  unfold operandWindow
  refine .forM fun x => ?_
  extract_lets jp
  have hjp : ∀ (x : Unit), KeepsTidy K (jp x) := fun _ => .bind tidy_resolveWindow fun _ => .pure
  exact .ite (.bind .trap fun _ => hjp ()) (hjp ())

theorem tidy_operandDet {ag : Agent} {w : Waiter} {cls : AccessClass} {r : ShapeRec} : KeepsTidy K (operandDet ag w cls r) :=
  .ite .pure (.forM fun _ => .bind tidy_resolve fun _ => tidy_detCheck)

theorem tidy_awaitSpans {ag : Agent} {w : Waiter} {need : Need} {r : ShapeRec} : KeepsTidy K (awaitSpans ag w need r) :=
  .get_bind fun _ _ => .ite .pure (.forM fun _ => .bind tidy_resolve fun _ => .get_bind fun _ _ => .ite .stall .pure)

theorem tidy_acceptOperands {ag : Agent} {w : Waiter} {q : MxOp} : KeepsTidy K (acceptOperands ag w q) := by
  unfold acceptOperands
  extract_lets ops
  exact .bind (.foldlM fun _ _ => .bind (tidy_withInfo tidy_operandPages) fun _ => .pure) fun _ => .bind
    (.forM fun _ => tidy_withInfo tidy_operandWindow) fun _ => .bind (.forM fun _ => tidy_withInfo tidy_operandDet) fun _ => .bind
    (.forM fun _ => tidy_awaitSpans) fun _ => .pure

theorem tidy_readOperands {ag : Agent} {w : Waiter} {kind : MxKind} {x : Fin 4} {pfx : Bool} {fmt aAddr bAddr asAddr bsAddr : Word} :
    KeepsTidy K (readOperands ag w kind x pfx fmt aAddr bAddr asAddr bsAddr) := by
  unfold readOperands
  extract_lets as bs aFits
  refine .bind tidy_mxRecord fun _ => ?_
  split
  extract_lets ra bFits
  refine .bind tidy_mxRecord fun _ => ?_
  split
  extract_lets rb cls int jp
  have hjp : ∀ (x : List Byte × Bool), KeepsTidy K (jp x) := by
    intro _
    unfold jp
    split
    extract_lets jp1
    have hjp1 : ∀ (x : List Byte × Bool), KeepsTidy K (jp1 x) := by
      intro _
      unfold jp1
      split
      extract_lets jp2 jp3 jp4 jp5
      have hjp2 : ∀ (x : Unit), KeepsTidy K (jp2 x) := fun _ => .get_bind fun _ _ => .pure
      have hjp3 : ∀ (x : Unit), KeepsTidy K (jp3 x) := fun _ => .ite (.bind .trap fun _ => hjp2 ()) (hjp2 ())
      have hjp4 : ∀ (x : Unit), KeepsTidy K (jp4 x) := fun _ => .ite (.bind .trap fun _ => hjp3 ()) (hjp3 ())
      have hjp5 : ∀ (x : Unit), KeepsTidy K (jp5 x) := fun _ => .ite (.bind .trap fun _ => hjp4 ()) (hjp4 ())
      exact .ite (.bind .trap fun _ => hjp5 ()) (hjp5 ())
    exact .ite (.bind .pure fun x4 => hjp1 x4) (.bind tidy_mxRecord fun x4 => hjp1 x4)
  exact .ite (.bind .pure fun x3 => hjp x3) (.bind tidy_mxRecord fun x3 => hjp x3)

theorem tidy_mxPush {phys : Nat} {q : MxOp} (h : Tidy K s) : Tidy K (mxPush phys q s) := tidy_onCore h fun _ hc => hc

theorem tidy_sliceEnter {host prio : Nat} (h : Tidy K s) : TidySnd K (sliceEnter host prio s) := by
  unfold sliceEnter
  extract_lets id
  exact .mk (tidy_onCore h fun _ hc => hc)

theorem tidy_mxOwn {phys : Nat} {q : MxOp} (h : Tidy K s) : Tidy K (mxOwn phys q s) := by
  unfold mxOwn
  split
  rename_i he
  exact tidy_mxPush (TidySnd.of_eq he (tidy_sliceEnter h))

theorem tidy_operandPieces {ag : Agent} {q : MxOp} {va : Word} {n : Nat} : KeepsTidy K (operandPieces ag q va n) :=
  .foldlM fun _ _ => .ite (.bind tidy_resolveWindow fun _ => .pure) .pure

theorem tidy_mxBytes {ag : Agent} {q : MxOp} {va : Word} {n : Nat} : KeepsTidy K (mxBytes ag q va n) :=
  .bind tidy_operandPieces fun _ => .bind (.forM fun _ => tidy_stashFill) fun _ => .bind (.forM fun _ => tidy_touchData) fun _ => .bind
    tidy_performMeeting fun _ => .bind (.modify fun _ => tidy_reachPieces) fun _ => .bind tidy_checkBad fun _ => .get_bind fun _ _ =>
    .pure

theorem tidy_mxRow {ag : Agent} {q : MxOp} {code : Nat} {r : ShapeRec} {i k : Nat} : KeepsTidy K (mxRow ag q code r i k) := by
  unfold mxRow
  extract_lets va
  refine .bind (tidy_withInfo tidy_mxBytes) fun _ => ?_
  split
  · exact .pure
  · exact .trap

theorem tidy_mxScales {ag : Agent} {q : MxOp} {code : Nat} {r : Option ShapeRec} {n i k : Nat} :
    KeepsTidy K (mxScales ag q code r n i k) := by
  unfold mxScales
  split
  · exact .pure
  · extract_lets x
    exact .bind (tidy_withInfo tidy_mxBytes) fun _ => .pure

theorem tidy_pinPieces {ag : Agent} {ps : List Piece} : KeepsTidy K (pinPieces ag ps) := by
  unfold pinPieces
  extract_lets cl lines jp
  have hjp : ∀ (x : Unit), KeepsTidy K (jp x) := by
    intro _
    refine .bind (.forM fun _ => tidy_touchData) fun _ => ?_
    refine .bind ?_ fun _ => .pure
    refine .modify fun _ hs => ?_
    extract_lets s1
    have hs1 : Tidy K s1 := .foldl hs fun _ _ hs2 => tidy_fillLine hs2
    exact tidy_onCluster hs1 fun _ hc => hc
  exact .get_bind fun _ _ => .ite (.bind .stall fun _ => hjp ()) (hjp ())

theorem tidy_freshenTile {phys : Nat} {q : MxOp} {k : Nat} (h : Tidy K s) : Tidy K (freshenTile phys q k s) :=
  tidy_onCore h fun _ hc => hc

theorem tidy_fetchStep {phys n : Nat} : KeepsTidy K (fetchStep phys n) := by
  unfold fetchStep
  refine .get_bind fun _ _ => ?_
  split
  · exact .pure
  · refine .ite .pure ?_
    extract_lets ps
    exact .bind tidy_pinPieces fun _ => .modify fun _ hs1 => tidy_freshenTile (tidy_onCore hs1 fun _ hc => hc)

theorem tidy_readStep {phys : Nat} {q : MxOp} : KeepsTidy K (readStep phys q) := by
  unfold readStep
  refine .get_bind fun _ _ => ?_
  extract_lets ag n k
  exact .bind (.mapM fun _ => .bind tidy_mxRow fun _ => .bind tidy_mxScales fun _ => .pure) fun _ => .bind
    (.mapM fun _ => .bind tidy_mxRow fun _ => .bind tidy_mxScales fun _ => .pure) fun _ => .pure

theorem tidy_stepCore {q : MxOp} {v : StepValues} {c : Core} (hc : CoreTidy K c) : CoreTidy K (stepCore q v c) := hc

theorem tidy_applyStep {phys : Nat} {q : MxOp} : KeepsTidy K (applyStep phys q) := by
  unfold applyStep
  refine .bind tidy_readStep fun _ => ?_
  refine .get_bind fun _ _ => ?_
  extract_lets c
  exact .bind (.modify fun _ hs1 => tidy_onCore hs1 fun _ => tidy_stepCore) fun _ => .pure

theorem tidy_zeroAcc {x : Fin 4} {c : Core} (hc : CoreTidy K c) : CoreTidy K (zeroAcc x c) := hc

theorem tidy_settleQueue : ∀ {done l : List MxOp} {c : Core}, CoreTidy K c → CoreTidy K (settleQueue done l c)
  | _, [], _, h => h
  | done, q :: rest, c, h => by
    unfold settleQueue
    exact .ite (tidy_settleQueue (tidy_zeroAcc h)) (.ite (tidy_settleQueue h) (tidy_settleQueue h))

theorem tidy_loadTile {phys : Nat} {q : MxOp} : KeepsTidy K (loadTile phys q) := by
  unfold loadTile
  refine .get_bind fun _ _ => ?_
  extract_lets ag steps jp
  have hjp : ∀ (x : Unit), KeepsTidy K (jp x) := fun _ => .bind (.forM fun _ => .forM fun _ => tidy_touchData) fun _ => .bind
    (.mapM fun _ => tidy_pinPieces) fun _ => .modify fun _ hs1 => tidy_onCore hs1 fun _ hc => hc
  exact .bind (.modify fun _ => tidy_dropTile) fun _ => .get_bind fun _ _ => .ite (.bind .stall fun _ => hjp ()) (hjp ())

theorem tidy_performTile {phys : Nat} : KeepsTidy K (performTile phys) := by
  unfold performTile
  refine .get_bind fun _ _ => ?_
  split
  · exact .pure
  · refine .bind (.modify fun _ hs1 => tidy_onCore hs1 fun _ => tidy_settleQueue) fun _ => ?_
    extract_lets jp
    have hjp : ∀ (x : Unit), KeepsTidy K (jp x) := fun _ => .modify fun _ hs1 => tidy_onCore hs1 fun _ => tidy_settleQueue
    exact .ite (.bind tidy_loadTile fun _ => hjp ())
      (.get_bind fun _ _ => .ite (.bind (.modify fun _ => tidy_dropTile) fun _ => hjp ()) (hjp ()))

theorem tidy_takeQueue {phys : Nat} (h : Tidy K s) : Tidy K (takeQueue phys s) := by
  unfold takeQueue
  extract_lets s1
  have hs1 : Tidy K s1 := tidy_onCore h fun _ => tidy_settleQueue
  exact .foldl hs1 fun _ _ hs2 => .ite (tidy_runHw tidy_performTile hs2) hs2

theorem tidy_mxEnter {phys : Nat} {q : MxOp} (h : Tidy K s) : Tidy K (mxEnter phys q s) := tidy_takeQueue (tidy_mxPush h)

theorem tidy_putOp {phys n : Nat} {q : Option MxOp} (h : Tidy K s) : Tidy K (putOp phys n q s) := by
  unfold putOp
  extract_lets old s1 s2
  have hs1 : Tidy K s1 := tidy_takeQueue (tidy_onCore h fun _ hc => hc)
  have hs2 : Tidy K s2 := .ite (tidy_trimSlices hs1) hs1
  exact .ite (tidy_unpinLines hs2) hs2

theorem tidy_completeOp {phys n : Nat} {flags : BitVec 5} (h : Tidy K s) : Tidy K (completeOp phys n flags s) :=
  tidy_putOp (tidy_onCtx h)

theorem tidy_abandonOp {phys n : Nat} {cause : BitVec 8} {eval einfo : Word} (h : Tidy K s) :
    Tidy K (abandonOp phys n cause eval einfo s) :=
  tidy_putOp (tidy_deferTrap h)

theorem tidy_readMember {m : Nat × Nat} : KeepsTidy K (readMember m) := by
  unfold readMember
  refine .get_bind fun _ _ => ?_
  split
  · exact .stall
  · refine .bind (.attempt tidy_readStep) fun _ => ?_
    split
    · exact .pure
    · exact .pure
    · exact .throw

theorem tidy_stepMember {m : Nat × Nat} {r : Except Deferred (MxOp × StepValues)} (h : Tidy K s) : Tidy K (stepMember m r s) := by
  unfold stepMember
  split
  · exact tidy_abandonOp h
  · extract_lets p s1 s2
    have hs1 : Tidy K s1 := tidy_onCore h fun _ => tidy_stepCore
    have hs2 : Tidy K s2 := tidy_putOp hs1
    refine .ite ?_ (tidy_completeOp hs1)
    split
    · rename_i he
      exact KeepsTidy.of_eq he tidy_fetchStep hs2
    · exact hs2

theorem tidy_sliceStep {ms : List (Nat × Nat)} : KeepsTidy K (sliceStep ms) :=
  .bind (.forM fun _ => tidy_fetchStep) fun _ => .bind (.mapM fun _ => tidy_readMember) fun _ => .modify fun _ hs => .foldl hs
    fun _ _ hs1 => tidy_stepMember hs1

theorem tidy_execMatrixKStep {core n : Nat} (h : Tidy K s) : TidyNext K (execMatrixKStep core n s) := by
  unfold execMatrixKStep
  split
  · exact .next h
  · exact .next (.ite (tidy_runHw tidy_sliceStep h) h)

theorem tidy_releaseMember {host id : Nat} {m : NestMember} (h : Tidy K s) : Tidy K (releaseMember host id m s) := by
  unfold releaseMember
  refine tidy_onCore h fun _ hc => ?_
  extract_lets mine
  exact hc

theorem tidy_dispatchEntry {cl n : Nat} (h : Tidy K s) : Tidy K (dispatchEntry cl n s) := by
  unfold dispatchEntry
  cases (clusterAt s cl).nest[n]? with
  | none => exact h
  | some e =>
    dsimp only
    refine .ite (tidy_onCluster h fun _ hk => hk) (tidy_runHw tidy_sampleFree ?_)
    refine .foldl ?_ fun _ _ h => tidy_onCore (tidy_releaseMember h) fun _ hc a ha => hc a ha
    exact TidySnd.snd (tidy_sliceEnter (tidy_onCluster h fun _ hk => hk))

theorem tidy_dispatchDue {cl : Nat} (h : Tidy K s) : Tidy K (dispatchDue cl s) := by
  unfold dispatchDue
  refine .foldl h fun _ _ hs1 => ?_
  split
  · exact hs1
  · exact tidy_dispatchEntry hs1

theorem tidy_openEntry {cl row : Nat} {key : List Nat} {m : NestMember} {nhold : Nat} (h : Tidy K s) :
    TidySnd K (openEntry cl row key m nhold s) :=
  .ite (.mk (tidy_onCluster h fun _ hc => hc)) (.mk h)

theorem tidy_placeMember {phys : Nat} {key : List Nat} {q : MxOp} {nhold : Nat} (h : Tidy K s) :
    TidySnd K (placeMember phys key q nhold s) := by
  unfold placeMember
  extract_lets cl row mem nest s1
  have hs1 : Tidy K s1 := by
    unfold s1
    split
    · exact tidy_dispatchEntry h
    · exact h
  split
  · split
    · exact .mk h
    · exact .mk (tidy_onCluster h fun _ hc => hc)
  · split
    · rename_i he1
      exact .mk (TidySnd.of_eq he1 (tidy_openEntry hs1))
    · rename_i he1
      split
      · exact tidy_openEntry (tidy_dispatchEntry (TidySnd.of_eq he1 (tidy_openEntry hs1)))
      · exact .mk (TidySnd.of_eq he1 (tidy_openEntry hs1))

theorem tidy_leaveEntry {phys : Nat} {x : Fin 4} (h : Tidy K s) : Tidy K (leaveEntry phys x s) := tidy_onCluster h fun _ hc => hc

theorem tidy_readyMember {phys : Nat} {x : Fin 4} (h : Tidy K s) : Tidy K (readyMember phys x s) := tidy_onCluster h fun _ hc => hc

theorem tidy_takePlace {ag : Agent} {q : MxOp} : KeepsTidy K (takePlace ag q) := by
  unfold takePlace
  refine .get_bind fun _ hs => ?_
  refine .ite ?_ .pure
  extract_lets part s1 nhold jp
  have hjp : ∀ (x : Unit), KeepsTidy K (jp x) := by
    intro _
    unfold jp
    split
    rename_i he
    exact .bind (.set (TidySnd.of_eq he (tidy_placeMember hs))) fun _ => .ite .stall .pure
  exact .ite (.bind .stall fun _ => hjp ()) (hjp ())

theorem tidy_nestAccept {ag : Agent} {w : Waiter} {q : MxOp} : KeepsTidy K (nestAccept ag w q) := by
  unfold nestAccept
  refine .bind tidy_takePlace fun _ => ?_
  refine .bind (.modify fun _ => tidy_dispatchDue) fun _ => ?_
  refine .get_bind fun _ _ => ?_
  extract_lets number
  exact .bind tidy_acceptOperands fun _ => .modify fun _ hs1 => tidy_dispatchDue (tidy_readyMember (tidy_mxEnter hs1))

theorem tidy_memberTrap {phys : Nat} {x : Fin 4} {a : Act Unit} (ha : KeepsTidy K a) : KeepsTidy K (memberTrap phys x a) := by
  unfold memberTrap
  refine .bind (.attempt ha) fun _ => ?_
  split
  · exact .pure
  · refine .get_bind fun _ _ => ?_
    split
    · exact .trap
    · exact .bind (.modify fun _ => tidy_leaveEntry) fun _ => .trap
  · exact .throw

theorem tidy_execNestingHoldExpiry {cluster n : Nat} (h : Tidy K s) : TidyNext K (execNestingHoldExpiry cluster n s) := by
  unfold execNestingHoldExpiry
  split
  · exact .next (.ite (tidy_dispatchEntry h) h)
  · exact .next h

theorem tidy_askEmulation {r : EmuReq} (h : Tidy K s) : Tidy K (askEmulation r s) := by
  unfold askEmulation
  extract_lets d
  exact .dite (fun _ => h.same rfl) fun _ => h

theorem tidy_answerGang {l : List GangArrival} {a : Await} (h : Tidy K s) : Tidy K (answerGang l a s) :=
  .foldl h fun _ _ hs1 => tidy_onCtx hs1

theorem tidy_closeRound {phys round : Nat} (h : Tidy K s) : Tidy K (closeRound phys round s) := tidy_onCluster h fun _ hc => hc

theorem tidy_startShare {phys : Nat} (h : Tidy K s) : Tidy K (startShare phys s) := by
  unfold startShare
  extract_lets c at_ s1
  have hs1 : Tidy K s1 := tidy_onCore h fun _ hc1 => hc1
  split
  · exact h
  · refine .ite (tidy_askEmulation (tidy_setAwait hs1)) ?_
    split
    rename_i he1
    exact tidy_onCore (TidySnd.of_eq he1 (tidy_sliceEnter h)) fun _ hc1 => hc1

theorem tidy_settleGang {phys round : Nat} (h : Tidy K s) : Tidy K (settleGang phys round s) := by
  unfold settleGang
  extract_lets l
  split
  · extract_lets s1 s2
    have hs1 : Tidy K s1 := tidy_answerGang h
    have hs2 : Tidy K s2 := tidy_onCluster hs1 fun _ hc => hc
    exact .ite (tidy_closeRound hs2) hs2
  · exact .ite h (tidy_closeRound (.foldl (tidy_answerGang h) fun _ _ hs1 => tidy_startShare hs1))

theorem tidy_gangArrive {a : GangArrival} (h : Tidy K s) : Tidy K (gangArrive a s) := by
  unfold gangArrive
  extract_lets cl round
  exact tidy_settleGang (tidy_onCluster h fun _ hc => hc)

theorem tidy_dropGangOp {phys : Nat} (h : Tidy K s) : Tidy K (dropGangOp phys s) := tidy_onCore h fun _ hc => hc

theorem tidy_scaleRegs {wa wb : Bool} : KeepsTidy K (scaleRegs wa wb) := by
  unfold scaleRegs
  refine .get_bind fun _ _ => ?_
  extract_lets x jp
  have hjp : ∀ (x : Word), KeepsTidy K (jp x) := by
    intro _
    unfold jp
    extract_lets jp1
    have hjp1 : ∀ (x : Word), KeepsTidy K (jp1 x) := fun _ => .pure
    exact .ite (.bind .pure fun x2 => hjp1 x2) (.bind tidy_readS fun x2 => hjp1 x2)
  exact .ite .pure (.ite (.bind .pure fun x1 => hjp x1) (.bind tidy_readS fun x1 => hjp x1))

theorem tidy_emulate {ag : Agent} {q : MxOp} : KeepsTidy K (emulate ag q) :=
  .bind (.modify fun _ hs => tidy_askEmulation (tidy_setAwait hs)) fun _ => .stall

theorem tidy_emulated {w : Waiter} : KeepsTidy K (emulated w) := by
  unfold emulated
  refine .get_bind fun _ _ => ?_
  split
  · exact .stall
  · exact .bind (.modify fun _ => tidy_setAwait) fun _ => .pure
  · exact .bind (.modify fun _ => tidy_setAwait) fun _ => .trap
  · exact .pure

theorem tidy_mmaAccept {solo : Bool} {x : Fin 4} {a b : Reg} {wa wb : Bool} : KeepsTidy K (mmaAccept solo x a b wa wb) := by
  unfold mmaAccept
  refine .bind tidy_readS fun _ => ?_
  refine .bind tidy_readS fun _ => ?_
  refine .bind tidy_scaleRegs fun _ => ?_
  split
  refine .get_bind fun _ _ => ?_
  extract_lets ag w k jp
  have hjp : ∀ (x : Unit), KeepsTidy K (jp x) := fun _ => .bind tidy_readOperands fun _ => .ite tidy_emulate
    (.ite (.bind tidy_acceptOperands fun _ => .modify fun _ => tidy_mxOwn) tidy_nestAccept)
  exact .ite (.bind .stall fun _ => hjp ()) (hjp ())

theorem tidy_mmaBody {solo : Bool} {x : Fin 4} {a b : Reg} {wa wb : Bool} : KeepsTidy K (mmaBody solo x a b wa wb) := by
  unfold mmaBody
  refine .get_bind fun _ _ => ?_
  extract_lets ag
  exact .bind tidy_emulated fun _ => .ite .pure (tidy_memberTrap tidy_mmaAccept)

theorem tidy_gangAccept {x : Fin 4} {k : Ctx} {aAddr bAddr asAddr bsAddr : Word} :
    KeepsTidy K (gangAccept x k aAddr bAddr asAddr bsAddr) := by
  unfold gangAccept
  refine .get_bind fun _ _ => ?_
  extract_lets ag w
  exact .bind tidy_readOperands fun _ => .ite .pure tidy_acceptOperands

theorem tidy_failedArrival {a : Act α} (ha : KeepsTidy K a) : KeepsTidy K (failedArrival a : Act α) := by
  unfold failedArrival
  refine .bind (.attempt ha) fun _ => ?_
  split
  · exact .pure
  · refine .bind ?_ fun _ => .trap
    refine .modify fun _ hs => ?_
    extract_lets phys
    exact .ite (tidy_gangArrive hs) hs
  · exact .throw

theorem tidy_gangAnswer {w : Waiter} : KeepsTidy K (gangAnswer w) := by
  unfold gangAnswer
  refine .get_bind fun s _ => ?_
  cases awaitOf s w with
  | gangGo => exact .modify fun _ h => tidy_setAwait h
  | gangFail e => exact .bind (.modify fun _ h => tidy_setAwait (tidy_dropGangOp h)) fun _ => .trap
  | _ => exact .stall

theorem tidy_gangWait {phys : Nat} {q : MxOp} (h : Tidy K s) : Tidy K (gangWait phys q s) :=
  tidy_gangArrive (tidy_setAwait (tidy_mxPush h))

theorem tidy_mgangBody {x : Fin 4} {a b : Reg} {wa wb : Bool} : KeepsTidy K (mgangBody x a b wa wb) := by
  unfold mgangBody
  refine .get_bind fun _ _ => ?_
  extract_lets phys w k
  refine .bind tidy_emulated fun _ => ?_
  refine .ite .pure ?_
  split
  · exact .stall
  · exact tidy_gangAnswer
  · exact tidy_gangAnswer
  · refine .bind ?_ fun _ => ?_
    · refine tidy_failedArrival ?_
      refine .bind tidy_readS fun _ => ?_
      refine .bind tidy_readS fun _ => ?_
      refine .bind tidy_scaleRegs fun _ => ?_
      split
      exact .pure
    · split
      extract_lets jp jp1
      have hjp : ∀ (x : Unit), KeepsTidy K (jp x) := fun _ => .bind (tidy_failedArrival tidy_gangAccept) fun _ => .ite
        (.get_bind fun _ _ => tidy_emulate) (.bind (.modify fun _ => tidy_gangWait) fun _ => tidy_gangAnswer)
      have hjp1 : ∀ (x : Unit), KeepsTidy K (jp1 x) := fun _ => .get_bind fun _ _ => .ite (.bind .stall fun _ => hjp ()) (hjp ())
      exact .ite (.bind .trap fun _ => hjp1 ()) (hjp1 ())

theorem tidy_execMma {x : Fin 4} {a b : Reg} {wa wb : Bool} (h : Tidy K s) : TidyNext K (execMma x a b wa wb s) :=
  tidy_runSeq tidy_mmaBody h

theorem tidy_execMmaSolo {x : Fin 4} {a b : Reg} {wa wb : Bool} (h : Tidy K s) : TidyNext K (execMmaSolo x a b wa wb s) :=
  tidy_runSeq tidy_mmaBody h

theorem tidy_execMgang {x : Fin 4} {a b : Reg} {wa wb : Bool} (h : Tidy K s) : TidyNext K (execMgang x a b wa wb s) :=
  tidy_runSeq tidy_mgangBody h

theorem tidy_execMzero {x : Fin 4} (h : Tidy K s) : TidyNext K (execMzero x s) := by
  unfold execMzero
  refine tidy_runSeq ?_ h
  refine .get_bind fun _ _ => ?_
  extract_lets phys jp
  have hjp : ∀ (x : Unit), KeepsTidy K (jp x) := fun _ => .modify fun _ => tidy_mxPush
  exact .ite (.modify fun _ hs2 => tidy_onCore hs2 fun c hc => tidy_zeroAcc hc) (.ite (.bind .stall fun _ => hjp ()) (hjp ()))

theorem tidy_mldAct {addr : Word} : KeepsTidy K (mldAct addr) := by
  unfold mldAct
  refine .get_bind fun _ _ => ?_
  extract_lets ag w src jp
  have hjp : ∀ (x : Unit), KeepsTidy K (jp x) := by
    intro x
    refine .bind tidy_mxRecord fun _ => ?_
    split
    extract_lets r jp1
    have hjp1 : ∀ (x : Unit), KeepsTidy K (jp1 x) := fun _ => .bind (tidy_withInfo tidy_operandPages) fun _ => .bind
      (tidy_withInfo tidy_operandWindow) fun _ => .bind (tidy_withInfo tidy_operandDet) fun _ => .bind tidy_awaitSpans fun _ => .ite
      .pure (.modify fun _ => tidy_mxEnter)
    exact .ite (.bind .trap fun _ => hjp1 ()) (hjp1 ())
  exact .ite (.bind .stall fun _ => hjp ()) (hjp ())

theorem tidy_execMld {a : Reg} {wa : Bool} (h : Tidy K s) : TidyNext K (execMld a wa s) :=
  tidy_runSeq (.bind tidy_readS fun _ => tidy_mldAct) h

theorem tidy_execMrel {a : Reg} {wa : Bool} (h : Tidy K s) : TidyNext K (execMrel a wa s) := by
  unfold execMrel
  refine tidy_runSeq ?_ h
  refine .bind tidy_readS fun x => ?_
  refine .get_bind fun _ _ => ?_
  extract_lets phys src jp
  have hjp : ∀ (x : Unit), KeepsTidy K (jp x) := fun _ => .modify fun _ => tidy_mxEnter
  exact .get_bind fun _ _ => .ite (.bind .stall fun _ => hjp ()) (hjp ())

theorem tidy_mdrainAct {x : Fin 4} {dAddr hpc : Word} : KeepsTidy K (mdrainAct x dAddr hpc) := by
  unfold mdrainAct
  refine .get_bind fun _ _ => ?_
  extract_lets k ag w pfx jp
  have hjp : ∀ (x : Unit), KeepsTidy K (jp x) := by
    intro _
    refine .bind tidy_mxRecord fun _ => ?_
    split
    extract_lets d jp1
    have hjp1 : ∀ (x : Unit), KeepsTidy K (jp1 x) := fun _ => .bind (tidy_withInfo tidy_operandWindow) fun _ => .bind
      (tidy_withInfo tidy_operandDet) fun _ => .bind tidy_awaitSpans fun _ => .modify fun _ => tidy_mxPush
    exact .ite (.bind .trap fun _ => hjp1 ()) (hjp1 ())
  exact .ite (.bind .stall fun _ => hjp ()) (hjp ())

theorem tidy_execMdrain {x : Fin 4} {a b : Reg} {wa wb : Bool} (h : Tidy K s) : TidyNext K (execMdrain x a b wa wb s) :=
  tidy_runSeq (.bind tidy_readS fun _ => .bind tidy_readS fun _ => tidy_mdrainAct) h

theorem tidy_releaseRow {phys : Nat} {x : Fin 4} (h : Tidy K s) : Tidy K (releaseRow phys x s) := by
  unfold releaseRow
  split
  · exact h
  · split
    · exact h
    · exact .ite (tidy_putOp h) (tidy_completeOp h)

theorem tidy_execMdrainRow {core n : Nat} (h : Tidy K s) : TidyNext K (execMdrainRow core n s) := by
  unfold execMdrainRow
  split
  · exact .next (tidy_takeQueue h)
  · extract_lets asked r va
    refine .ite (.next (tidy_takeQueue h)) ?_
    split
    split
    · rename_i he2
      exact .next (tidy_abandonOp (KeepsTidy.of_stop he2 tidy_writeMem h))
    · rename_i he2
      exact .next (KeepsTidy.of_stop he2 tidy_writeMem h)
    · rename_i he2
      extract_lets s2
      have hs2 : Tidy K s2 := tidy_putOp (KeepsTidy.of_eq he2 tidy_writeMem h)
      exact .next (.ite (tidy_releaseRow hs2) (tidy_askHelper hs2))

theorem tidy_emulateSteps {phys : Nat} : ∀ {n : Nat} {q : MxOp}, KeepsTidy K (emulateSteps phys n q)
  | 0, _ => .pure
  | n + 1, q => by
    unfold emulateSteps
    exact .ite (.bind tidy_applyStep fun _ => tidy_emulateSteps) .pure

theorem tidy_recordEmulation {phys : Nat} {q : MxOp} (h : Tidy K s) : Tidy K (recordEmulation phys q s) := by
  unfold recordEmulation
  extract_lets c
  exact tidy_record h

theorem tidy_EmuReq_answer {r : EmuReq} {a : Await} (h : Tidy K s) : Tidy K (EmuReq.answer r a s) := .ite h (tidy_onCtx h)

theorem tidy_EmuReq_finish {r : EmuReq} {q : MxOp} {fault : Option Deferred} (h : Tidy K s) : Tidy K (EmuReq.finish r q fault s) := by
  unfold EmuReq.finish
  extract_lets s1
  have hs1 : Tidy K s1 := tidy_recordEmulation h
  split
  · exact tidy_completeOp hs1
  · exact tidy_abandonOp hs1
  · exact tidy_EmuReq_answer (tidy_onCtx hs1)
  · exact tidy_EmuReq_answer (tidy_deferTrap hs1)

theorem tidy_execFormatEmulationRequest {die : Nat} (h : Tidy K s) : TidyNext K (execFormatEmulationRequest die s) := by
  unfold execFormatEmulationRequest
  refine .dite (fun _ => ?_) fun _ => .next h
  split
  · exact .next h
  · extract_lets drop src
    have hdrop : ∀ (s : State), Tidy K s → Tidy K (drop s) := fun _ hs1 => hs1.same rfl
    refine .ite (.next (h.same rfl)) ?_
    refine .ite (.next h) ?_
    split
    · rename_i s1 he1
      extract_lets s2
      have hs2 : Tidy K s2 := tidy_EmuReq_answer (hdrop s1 (KeepsTidy.of_stop he1 (.ite .pure tidy_acceptOperands) h))
      exact .next (.ite (tidy_gangArrive hs2) hs2)
    · rename_i he1
      exact .next (KeepsTidy.of_stop he1 (.ite .pure tidy_acceptOperands) h)
    · rename_i s0 he1
      refine .ite (.next (tidy_gangWait (hdrop s0 (KeepsTidy.of_eq he1 (.ite .pure tidy_acceptOperands) h)))) ?_
      split
      · exact .next (.same (KeepsTidy.of_eq he1 (.ite .pure tidy_acceptOperands) h) rfl)
      · rename_i s1 he2
        exact .next (tidy_EmuReq_finish
          (hdrop s1 (KeepsTidy.of_stop he2 tidy_emulateSteps (KeepsTidy.of_eq he1 (.ite .pure tidy_acceptOperands) h))))
      · rename_i he2
        exact .next (KeepsTidy.of_stop he2 tidy_emulateSteps (KeepsTidy.of_eq he1 (.ite .pure tidy_acceptOperands) h))
      · rename_i s1 he2
        exact .next (tidy_EmuReq_finish
          (hdrop s1 (KeepsTidy.of_eq he2 tidy_emulateSteps (KeepsTidy.of_eq he1 (.ite .pure tidy_acceptOperands) h))))

/-! ### Sys2Proof/Machine/Vector.lean -/

theorem tidy_fillRecords {phys : Nat} {l : List VecRead} (h : Tidy K s) : Tidy K (fillRecords phys l s) :=
  .foldl h fun _ _ hs1 => .ite hs1 (tidy_keepRecord hs1)

theorem tidy_readVecRecords {ag : Agent} {w : Waiter} {op : VecOp} {addrs : List (Nat × Word)} :
    KeepsTidy K (readVecRecords ag w op addrs) := by
  unfold readVecRecords
  refine .foldlM fun _ x => ?_
  extract_lets jp one
  have hjp : ∀ (x : Unit), KeepsTidy K (jp x) := by
    intro _
    unfold jp
    split
    · exact .pure
    · refine .bind tidy_fetchRecord fun _ => ?_
      split
      exact .pure
  have hone : KeepsTidy K one := .ite (.bind .trap fun _ => hjp ()) (hjp ())
  refine .bind (.attempt hone) fun _ => ?_
  split
  · exact .pure
  · exact .bind (.modify fun _ => tidy_fillRecords) fun _ => .trap
  · exact .throw

theorem tidy_vecAccept {ag : Agent} {w : Waiter} {op : VecOp} {fmt : Option Word} {addrs : List (Nat × Word)} :
    KeepsTidy K (vecAccept ag w op fmt addrs) := by
  unfold vecAccept
  refine .bind tidy_readVecRecords fun _ => ?_
  extract_lets recs fits
  exact .bind (.modify fun _ => tidy_fillRecords) fun _ => .bind (.forM fun _ => .ite .trap .pure) fun _ => .bind
    (.forM fun _ => .ite .trap .pure) fun _ => .bind (.forM fun _ => .ite .trap .pure) fun _ => .pure

theorem tidy_checkSpots {ag : Agent} {w : Waiter} {i : Nat} {spots : List Spot} : KeepsTidy K (checkSpots ag w i spots) := by
  unfold checkSpots
  refine .bind ?_ fun x => ?_
  · refine .mapM fun x => ?_
    refine tidy_withInfo ?_
    refine .bind tidy_placeInSpace fun _ => ?_
    extract_lets jp
    have hjp : ∀ (x : Unit), KeepsTidy K (jp x) := fun _ => .pure
    exact .ite (.bind tidy_resolveWindow fun _ => hjp ()) (hjp ())
  · refine .bind (.forM fun _ => tidy_withInfo
      (.ite (.bind tidy_translate fun _ => .ite (.bind tidy_translate fun _ => .pure) .pure) .pure)) fun _ => ?_
    refine .mapM fun _ => ?_
    refine tidy_withInfo ?_
    refine .bind tidy_resolve fun _ => ?_
    extract_lets jp
    have hjp : ∀ (x : Unit), KeepsTidy K (jp x) := fun _ => .pure
    exact .ite (.bind .trap fun _ => hjp ()) (hjp ())

theorem tidy_detSpots {ag : Agent} {i : Nat} {l : List (Spot × List Piece)} : KeepsTidy K (detSpots ag i l) :=
  .forM fun _ => tidy_withInfo tidy_detCheck

theorem tidy_readySpots {ag : Agent} {w : Waiter} {i : Nat} {l : List (Spot × List Piece)} : KeepsTidy K (readySpots ag w i l) := by
  unfold readySpots
  refine .forM fun _ => ?_
  refine tidy_withInfo ?_
  extract_lets rmw
  exact .bind (.forM fun _ => tidy_stashFill) fun _ => .bind (.forM fun _ => tidy_touchData) fun _ => .bind tidy_performMeeting
    fun _ => .ite tidy_awaitHosts .pure

theorem tidy_spotBytes {ag : Agent} {i : Nat} {x : Spot × List Piece} : KeepsTidy K (spotBytes ag i x) :=
  .bind (.modify fun _ => tidy_reachPieces) fun _ => .bind (tidy_withInfo tidy_checkBad) fun _ => .get_bind fun _ _ => .pure

theorem tidy_writeSpot {ag : Agent} {i : Nat} {x : Spot × List Piece} {v : Nat} : KeepsTidy K (writeSpot ag i x v) := by
  unfold writeSpot
  refine .bind tidy_spotBytes fun _ => ?_
  extract_lets new
  exact .bind (.foldlM fun _ _ => .bind (.modify fun _ => tidy_storeAt) fun _ => .pure) fun _ => .pure

theorem tidy_spotValue {ag : Agent} {i : Nat} {x : Spot × List Piece} : KeepsTidy K (spotValue ag i x) := by
  unfold spotValue
  refine .bind tidy_spotBytes fun _ => ?_
  refine .ite ?_ .pure
  extract_lets jp
  have hjp : ∀ (x : Unit), KeepsTidy K (jp x) := fun _ => .pure
  exact .ite (.bind .trap fun _ => hjp ()) (hjp ())

theorem tidy_placeElem {ag : Agent} {w : Waiter} {op : VecOp} {q : VxOp} {i : Nat} : KeepsTidy K (placeElem ag w op q i) := by
  unfold placeElem
  extract_lets spots
  refine .get_bind fun _ _ => ?_
  split
  · exact .pure
  · exact .bind tidy_checkSpots fun _ => .bind tidy_detSpots fun _ => .bind (.modify fun _ => tidy_onVx) fun _ => .pure

theorem tidy_readVecElem {ag : Agent} {w : Waiter} {op : VecOp} {q : VxOp} {i : Nat} : KeepsTidy K (readVecElem ag w op q i) :=
  .bind tidy_placeElem fun _ => .bind tidy_readySpots fun _ => .bind (.forM fun _ => .ite (tidy_withInfo tidy_checkBad) .pure) fun _ =>
    .mapM fun _ => .bind tidy_spotValue fun _ => .pure

theorem tidy_readIndex {ag : Agent} {w : Waiter} {i : Nat} {b : ShapeRec} {p : Vector Nat 4} {l : List (Spot × List Piece)} :
    KeepsTidy K (readIndex ag w i b p l) :=
  .foldlM fun _ _ => .bind (tidy_withInfo
    (.bind (.forM fun _ => tidy_stashFill) fun _ => .bind (.forM fun _ => tidy_touchData) fun _ => tidy_performMeeting)) fun _ => .bind
    tidy_spotBytes fun _ => .pure

theorem tidy_doIndexed {ag : Agent} {w : Waiter} {op : VecOp} {recs : List (Nat × ShapeRec)} {bAddr : Word} {i : Nat} :
    KeepsTidy K (doIndexed ag w op recs bAddr i) := by
  unfold doIndexed
  extract_lets e p a b d table first
  refine .bind tidy_checkSpots fun x => ?_
  refine .bind tidy_readIndex fun _ => ?_
  extract_lets k inRange q src spot jp
  have hjp : ∀ (x : Unit), KeepsTidy K (jp x) := by
    intro _
    refine .bind tidy_checkSpots fun _ => ?_
    extract_lets all
    refine .bind tidy_detSpots fun _ => ?_
    refine .bind tidy_readySpots fun _ => ?_
    refine .bind (.mapM fun _ => .bind tidy_spotBytes fun _ => .pure) fun _ => ?_
    extract_lets v
    split
    · refine .forM fun _ => ?_
      refine .bind (tidy_withInfo tidy_checkBad) fun _ => ?_
      refine .forM fun _ => ?_
      refine .get_bind fun _ hs => ?_
      split
      rename_i he
      exact .set (TidySnd.of_eq he (tidy_rmwAt hs))
    · exact .forM fun _ => tidy_writeSpot
    · exact .forM fun _ => tidy_writeSpot
  exact .ite (.bind .trap fun _ => hjp ()) (hjp ())

theorem tidy_tableIndex {ag : Agent} {q : VxOp} {op : VecOp} {i : Nat} : KeepsTidy K (tableIndex ag q op i) := by
  unfold tableIndex
  refine .get_bind fun _ hs => ?_
  extract_lets b read
  have hread : KeepsTidy K read := .bind tidy_checkSpots fun _ => .foldlM fun _ _ => .bind tidy_spotBytes fun _ => .pure
  refine .bind (.attempt hread) fun _ => ?_
  refine .bind (.set hs) fun _ => ?_
  split
  · exact .pure
  · exact .pure

theorem tidy_blockBehind {ag : Agent} {q : VxOp} {op : VecOp} {i : Nat} {b : Blocked} : KeepsTidy K (blockBehind ag q op i b) := by
  unfold blockBehind
  refine .ite .pure ?_
  refine .bind tidy_tableIndex fun _ => ?_
  split
  · exact .pure
  · exact .pure

theorem tidy_isBlocked {ag : Agent} {q : VxOp} {op : VecOp} {i : Nat} {b : Blocked} : KeepsTidy K (isBlocked ag q op i b) := by
  unfold isBlocked
  refine .ite .pure ?_
  refine .ite .pure ?_
  refine .bind tidy_tableIndex fun _ => ?_
  split
  · exact .pure
  · exact .pure

theorem tidy_walkElems {ag : Agent} {op : VecOp} {work : VxOp → Nat → Act (List (Nat × Nat))}
    (hwork : ∀ q i, KeepsTidy K (work q i)) :
    ∀ {l : List Nat} {left : Option Nat} {b : Blocked}, KeepsTidy K (walkElems ag op work l left b)
  | [], _, _ => .pure
  | i :: rest, left, b => by
    unfold walkElems
    refine .get_bind fun _ _ => ?_
    split
    · exact .pure
    · refine .ite (tidy_walkElems hwork) ?_
      refine .ite (.bind tidy_blockBehind fun _ => tidy_walkElems hwork) ?_
      refine .bind tidy_isBlocked fun _ => ?_
      refine .ite (tidy_walkElems hwork) ?_
      refine .ite .stall ?_
      refine .bind (.attempt (hwork _ i)) fun _ => ?_
      split
      · exact .bind (.modify fun _ h => tidy_onVx h) fun _ => tidy_walkElems hwork
      · exact .bind (.modify fun _ h => tidy_onVx h) fun _ => .bind tidy_blockBehind fun _ => tidy_walkElems hwork
      · refine .get_bind fun _ _ => ?_
        extract_lets q jp
        have hjp : ∀ x, KeepsTidy K (jp x) := fun _ => .trap
        exact .ite (.bind .stall fun _ => hjp ()) (hjp ())
      · exact .throw

theorem tidy_walkAll {ag : Agent} {op : VecOp} {work : VxOp → Nat → Act (List (Nat × Nat))} {range : List Nat}
    (hwork : ∀ (a : VxOp) (a_1 : Nat), KeepsTidy K (work a a_1)) : KeepsTidy K (walkAll ag op work range) := by
  unfold walkAll
  refine .get_bind fun _ _ => ?_
  extract_lets pace
  exact .bind (tidy_walkElems hwork) fun _ => .get_bind fun _ _ => .ite .stall .pure

theorem tidy_walkGroup {ag : Agent} {form : VecForm} {range : List Nat} : KeepsTidy K (walkGroup ag form range) := by
  unfold walkGroup
  refine tidy_walkAll fun _ _ => ?_
  extract_lets w
  exact .ite (.bind tidy_doIndexed fun _ => .pure) tidy_readVecElem

theorem tidy_checkGroup {ag : Agent} {form : VecForm} {range : List Nat} : KeepsTidy K (checkGroup ag form range) :=
  tidy_walkAll fun _ _ => .bind tidy_placeElem fun _ => .pure

theorem tidy_quantExps {ag : Agent} {mode : Nat} {range : List Nat} : KeepsTidy K (quantExps ag mode range) := by
  unfold quantExps
  refine .forM fun _ => ?_
  refine .get_bind fun _ _ => ?_
  split
  · exact .pure
  · extract_lets a d n base
    refine .ite ?_ .pure
    refine .bind ?_ fun _ => .modify fun _ => tidy_onVx
    refine .mapM fun _ => ?_
    extract_lets j
    split
    · exact .pure
    · exact .pure
    · exact .bind (tidy_withInfo tidy_readElement) fun _ => .pure

theorem tidy_destSpot {ag : Agent} {form : VecForm} {q : VxOp} {code i j v : Nat} : KeepsTidy K (destSpot ag form q code i j v) :=
  .bind tidy_placeElem fun _ => .pure

theorem tidy_writeElems {ag : Agent} {l : List (Nat × (Spot × List Piece) × Nat)} : KeepsTidy K (writeElems ag l) :=
  .bind (.forM fun _ => tidy_readySpots) fun _ => .forM fun _ => tidy_writeSpot

theorem tidy_finishGroup {ag : Agent} {form : VecForm} {range : List Nat} : KeepsTidy K (finishGroup ag form range) := by
  unfold finishGroup
  refine .get_bind fun _ _ => ?_
  split
  · exact .pure
  · extract_lets mode next jp
    have hjp : ∀ (x : Unit), KeepsTidy K (jp x) := by
      intro _
      refine .get_bind fun _ _ => ?_
      extract_lets q1 d res n ends
      exact .ite (.modify fun _ => tidy_onVx)
        (.bind (.mapM fun _ => tidy_destSpot) fun _ => .bind (.mapM fun _ => tidy_destSpot) fun _ => .bind tidy_writeElems fun _ =>
        .modify fun _ => tidy_onVx)
    exact .ite (.bind tidy_quantExps fun _ => hjp ()) (hjp ())

theorem tidy_finishReduction {ag : Agent} {form : VecForm} : KeepsTidy K (finishReduction ag form) := by
  unfold finishReduction
  refine .get_bind fun _ _ => ?_
  split
  · exact .pure
  · extract_lets res
    exact .bind (.mapM fun _ => tidy_destSpot) fun _ => .bind tidy_writeElems fun _ => .modify fun _ => tidy_onVx

theorem tidy_vecGroup {ag : Agent} {form : VecForm} : KeepsTidy K (vecGroup ag form) := by
  unfold vecGroup
  refine .get_bind fun _ _ => ?_
  split
  · exact .pure
  · extract_lets range
    exact .ite (.bind tidy_walkGroup fun _ => .bind tidy_quantExps fun _ => .pure)
      (.ite (.bind tidy_checkGroup fun _ => .pure) (.bind tidy_walkGroup fun _ => .ite .pure (.bind tidy_finishGroup fun _ => .pure)))

theorem tidy_vecFinish {ag : Agent} {form : VecForm} : KeepsTidy K (vecFinish ag form) := by
  unfold vecFinish
  refine .get_bind fun _ _ => ?_
  split
  · exact .pure
  · extract_lets range jp
    have hjp : ∀ (x : Unit), KeepsTidy K (jp x) := fun _ => tidy_finishGroup
    exact .bind tidy_walkGroup fun _ => .ite (.bind tidy_finishReduction fun _ => hjp ()) (hjp ())

theorem tidy_recSpans {ag : Agent} {recs : List (Nat × ShapeRec)} : KeepsTidy K (recSpans ag recs) := by
  unfold recSpans
  refine .mapM fun _ => ?_
  refine .bind (.attempt tidy_placeInSpace) fun _ => ?_
  split
  · exact .pure
  · exact .pure

theorem tidy_vecRegs {form : VecForm} : KeepsTidy K (vecRegs form) := by
  unfold vecRegs
  extract_lets jp
  have hjp : ∀ (x : Word), KeepsTidy K (jp x) := by
    intro x
    unfold jp
    extract_lets jp1
    have hjp1 : ∀ (x : Word), KeepsTidy K (jp1 x) := by
      intro _
      refine .bind tidy_readS fun _ => ?_
      refine .get_bind fun _ _ => ?_
      extract_lets fmt jp2
      have hjp2 : ∀ (x : Option Word), KeepsTidy K (jp2 x) := by
        intro _
        unfold jp2
        extract_lets jp3
        have hjp3 : ∀ (x : Option Word), KeepsTidy K (jp3 x) := fun _ => .pure
        exact .ite (.bind .pure fun x4 => hjp3 x4) (.bind tidy_readS fun _ => .bind .pure fun x5 => hjp3 x5)
      exact .ite (.bind .pure fun x3 => hjp2 x3) (.bind tidy_readS fun _ => .bind .pure fun x4 => hjp2 x4)
    split
    · exact .bind tidy_readS fun x2 => hjp1 x2
    · exact .bind .pure fun x2 => hjp1 x2
  split
  · exact .bind tidy_readS fun x1 => hjp x1
  · exact .bind .pure fun x1 => hjp x1

theorem tidy_onDevice {ag : Agent} {need : Need} {va : Word} : KeepsTidy K (onDevice ag need va) := by
  unfold onDevice
  refine .get_bind fun _ hs => ?_
  refine .bind (.attempt tidy_translate) fun _ => ?_
  refine .bind (.set hs) fun _ => ?_
  split
  · exact .pure
  · exact .pure

theorem tidy_refuseDevice {ag : Agent} {op : VecOp} {fmt : Option Word} {recs : List (Nat × ShapeRec)} :
    KeepsTidy K (refuseDevice ag op fmt recs) := by
  unfold refuseDevice
  extract_lets e spots
  refine .bind ?_ fun _ => .pure
  refine .foldlM fun _ x => ?_
  refine .foldlM fun _ _ => ?_
  extract_lets page jp
  have hjp : ∀ (x : Unit), KeepsTidy K (jp x) := fun _ => .pure
  exact .ite .pure (.bind tidy_onDevice fun _ => .ite (.bind .trap fun _ => hjp ()) (hjp ()))

theorem tidy_vecBegin {i : Instr} {form : VecForm} {v : VecRegs} : KeepsTidy K (vecBegin i form v) := by
  unfold vecBegin
  refine .get_bind fun _ _ => ?_
  extract_lets ag x fmt fresh start jp
  have hjp : ∀ (x : Unit), KeepsTidy K (jp x) := by
    intro _
    refine .bind tidy_vecAccept fun _ => ?_
    refine .bind tidy_refuseDevice fun _ => ?_
    refine .bind tidy_recSpans fun _ => ?_
    extract_lets got
    refine .modify fun _ hs1 => ?_
    extract_lets s2 src
    have hs2 : Tidy K s2 := tidy_onCur hs1
    have hsrc : CoreTidy K src := hs2.core
    exact ⟨hs2.mem, hsrc, hs2.others, hs2.clusters⟩
  split
  · exact .ite (.bind .stall fun _ => hjp ()) (hjp ())
  · exact hjp ()

theorem tidy_enterVec {ctx : Nat} (h : Tidy K s) : Tidy K (enterVec ctx s) := by
  unfold enterVec
  refine .ite h ?_
  refine ⟨h.mem, ?_, h.others, h.clusters⟩
  extract_lets src
  have hsrc : CoreTidy K src := h.core
  exact hsrc

theorem tidy_leaveVec {ctx : Nat} (h : Tidy K s) : Tidy K (leaveVec ctx s) := by
  unfold leaveVec
  refine ⟨h.mem, ?_, h.others, h.clusters⟩
  extract_lets src
  have hsrc : CoreTidy K src := h.core
  exact hsrc

theorem tidy_queueVec {begin' : Act Unit} (hbegin' : KeepsTidy K begin') : KeepsTidy K (queueVec begin') := by
  unfold queueVec
  refine .get_bind fun _ _ => ?_
  extract_lets ctx jp jp1
  have hjp : ∀ (x : Unit), KeepsTidy K (jp x) := by
    intro _
    refine .bind (.attempt hbegin') fun _ => ?_
    split
    · exact .modify fun _ => tidy_leaveVec
    · exact .bind (.modify fun _ => tidy_enterVec) fun _ => .throw
    · exact .bind (.modify fun _ => tidy_leaveVec) fun _ => .throw
  have hjp1 : ∀ (x : Unit), KeepsTidy K (jp1 x) := fun _ => .ite
    (.bind (.modify fun _ => tidy_enterVec) fun _ => .bind .stall fun _ => hjp ()) (hjp ())
  exact .ite (.bind .stall fun _ => hjp1 ()) (hjp1 ())

theorem tidy_vecTake {i : Instr} {form : VecForm} : KeepsTidy K (vecTake i form) :=
  .bind tidy_vecRegs fun _ => tidy_queueVec tidy_vecBegin

theorem tidy_vecDrop {ctx : Nat} (h : Tidy K s) : Tidy K (vecDrop ctx s) := by
  unfold vecDrop
  refine ⟨h.mem, ?_, h.others, h.clusters⟩
  extract_lets src
  have hsrc : CoreTidy K src := h.core
  exact hsrc

theorem tidy_vecPass {ag : Agent} {form : VecForm} (h : Tidy K s) : Tidy K (vecPass ag form s) := by
  unfold vecPass
  refine .ite ?_ (tidy_onVx h)
  extract_lets fl
  exact tidy_vecDrop (tidy_onCur h)

theorem tidy_vecBody {i : Instr} {form : VecForm} : KeepsTidy K (vecBody i form) := by
  unfold vecBody
  refine .get_bind fun s _ => ?_
  extract_lets ag jp jp1
  have hjp : ∀ (x : Unit), KeepsTidy K (jp x) := fun _ => .modify fun _ => tidy_vecPass
  have hjp1 : ∀ (x : Unit), KeepsTidy K (jp1 x) := by
    intro _
    refine .bind (.attempt tidy_vecGroup) fun _ => ?_
    split
    · exact .ite (.bind .stall fun _ => hjp ()) (hjp ())
    · refine .get_bind fun _ _ => ?_
      split
      · exact .trap
      · exact .bind tidy_mergeFlags fun _ => .bind (.modify fun _ hs2 => tidy_onCur (tidy_vecDrop hs2)) fun _ => .trap
    · exact .throw
  exact .get_bind fun _ _ => .ite (.bind tidy_vecTake fun _ => hjp1 ()) (hjp1 ())

theorem tidy_vecInstr {i : Instr} {helper : Bool} (h : Tidy K s) : TidyNext K (vecInstr i helper s) := by
  unfold vecInstr
  split
  · exact tidy_runSeq tidy_vecBody h
  · exact .next h

theorem tidy_vecRetire {core : Nat} {q : VxOp} (h : Tidy K s) : Tidy K (vecRetire core q s) := by
  unfold vecRetire
  extract_lets fl
  exact tidy_onCore (tidy_onCtx h) fun _ hc => hc

theorem tidy_execVectorElementGroup {core : Nat} (h : Tidy K s) : TidyNext K (execVectorElementGroup core s) := by
  unfold execVectorElementGroup
  split
  · exact .next h
  · split
    · exact .next h
    · extract_lets src ag
      refine .ite ?_ ?_
      · split
        · rename_i he2
          exact .next (tidy_vecRetire (KeepsTidy.of_eq he2 tidy_vecFinish h))
        · rename_i he2
          exact .next (tidy_deferTrap (tidy_vecRetire (KeepsTidy.of_stop he2 tidy_vecFinish h)))
        · rename_i he2
          exact .next (KeepsTidy.of_stop he2 tidy_vecFinish h)
      · split
        · rename_i he2
          exact .next (KeepsTidy.of_eq he2 tidy_vecGroup h)
        · rename_i he2
          exact .next (KeepsTidy.of_stop he2 tidy_vecGroup h)
        · exact .next (tidy_onCtx h)

theorem tidy_execVadd {d a b : Reg} {bs w : Bool} (h : Tidy K s) : TidyNext K (execVadd d a b bs w s) := tidy_vecInstr h

theorem tidy_execVsub {d a b : Reg} {bs w : Bool} (h : Tidy K s) : TidyNext K (execVsub d a b bs w s) := tidy_vecInstr h

theorem tidy_execVmul {d a b : Reg} {bs w : Bool} (h : Tidy K s) : TidyNext K (execVmul d a b bs w s) := tidy_vecInstr h

theorem tidy_execVdiv {d a b : Reg} {bs w : Bool} (h : Tidy K s) : TidyNext K (execVdiv d a b bs w s) := tidy_vecInstr h

theorem tidy_execVfma {d a b : Reg} {bs w : Bool} (h : Tidy K s) : TidyNext K (execVfma d a b bs w s) := tidy_vecInstr h

theorem tidy_execVmin {d a b : Reg} {bs w : Bool} (h : Tidy K s) : TidyNext K (execVmin d a b bs w s) := tidy_vecInstr h

theorem tidy_execVmax {d a b : Reg} {bs w : Bool} (h : Tidy K s) : TidyNext K (execVmax d a b bs w s) := tidy_vecInstr h

theorem tidy_execVabs {d a : Reg} {w : Bool} (h : Tidy K s) : TidyNext K (execVabs d a w s) := tidy_vecInstr h

theorem tidy_execVneg {d a : Reg} {w : Bool} (h : Tidy K s) : TidyNext K (execVneg d a w s) := tidy_vecInstr h

theorem tidy_execVrcp {d a : Reg} {w : Bool} (h : Tidy K s) : TidyNext K (execVrcp d a w s) := tidy_vecInstr h

theorem tidy_execVrsq {d a : Reg} {w : Bool} (h : Tidy K s) : TidyNext K (execVrsq d a w s) := tidy_vecInstr h

theorem tidy_execVexp2 {d a : Reg} {w : Bool} (h : Tidy K s) : TidyNext K (execVexp2 d a w s) := tidy_vecInstr h

theorem tidy_execVlog2 {d a : Reg} {w : Bool} (h : Tidy K s) : TidyNext K (execVlog2 d a w s) := tidy_vecInstr h

theorem tidy_execVsel {d a b : Reg} {bs w : Bool} (h : Tidy K s) : TidyNext K (execVsel d a b bs w s) := tidy_vecInstr h

theorem tidy_execVcmpEq {d a b : Reg} {bs w : Bool} (h : Tidy K s) : TidyNext K (execVcmpEq d a b bs w s) := tidy_vecInstr h

theorem tidy_execVcmpNe {d a b : Reg} {bs w : Bool} (h : Tidy K s) : TidyNext K (execVcmpNe d a b bs w s) := tidy_vecInstr h

theorem tidy_execVcmpLt {d a b : Reg} {bs w : Bool} (h : Tidy K s) : TidyNext K (execVcmpLt d a b bs w s) := tidy_vecInstr h

theorem tidy_execVcmpLe {d a b : Reg} {bs w : Bool} (h : Tidy K s) : TidyNext K (execVcmpLe d a b bs w s) := tidy_vecInstr h

theorem tidy_execVand {d a b : Reg} {bs w : Bool} (h : Tidy K s) : TidyNext K (execVand d a b bs w s) := tidy_vecInstr h

theorem tidy_execVor {d a b : Reg} {bs w : Bool} (h : Tidy K s) : TidyNext K (execVor d a b bs w s) := tidy_vecInstr h

theorem tidy_execVxor {d a b : Reg} {bs w : Bool} (h : Tidy K s) : TidyNext K (execVxor d a b bs w s) := tidy_vecInstr h

theorem tidy_execVshl {d a b : Reg} {bs w : Bool} (h : Tidy K s) : TidyNext K (execVshl d a b bs w s) := tidy_vecInstr h

theorem tidy_execVshr {d a b : Reg} {bs w : Bool} (h : Tidy K s) : TidyNext K (execVshr d a b bs w s) := tidy_vecInstr h

theorem tidy_execVpopc {d a : Reg} {w : Bool} (h : Tidy K s) : TidyNext K (execVpopc d a w s) := tidy_vecInstr h

theorem tidy_execVcvt {d a : Reg} {w : Bool} (h : Tidy K s) : TidyNext K (execVcvt d a w s) := tidy_vecInstr h

theorem tidy_execVquant {d a : Reg} {w : Bool} (h : Tidy K s) : TidyNext K (execVquant d a w s) := tidy_vecInstr h

theorem tidy_execVsum {d a : Reg} {dim : Fin 4} {w : Bool} (h : Tidy K s) : TidyNext K (execVsum d a dim w s) := tidy_vecInstr h

theorem tidy_execVmaxr {d a : Reg} {dim : Fin 4} {w : Bool} (h : Tidy K s) : TidyNext K (execVmaxr d a dim w s) := tidy_vecInstr h

theorem tidy_execVscan {d a : Reg} {dim : Fin 4} {w : Bool} (h : Tidy K s) : TidyNext K (execVscan d a dim w s) := tidy_vecInstr h

theorem tidy_execVgath {d a b : Reg} {w : Bool} (h : Tidy K s) : TidyNext K (execVgath d a b w s) := tidy_vecInstr h

theorem tidy_execVscat {d a b : Reg} {w : Bool} (h : Tidy K s) : TidyNext K (execVscat d a b w s) := tidy_vecInstr h

theorem tidy_execVamoOr {d a b : Reg} {w : Bool} (h : Tidy K s) : TidyNext K (execVamoOr d a b w s) := tidy_vecInstr h

theorem tidy_execVamoAnd {d a b : Reg} {w : Bool} (h : Tidy K s) : TidyNext K (execVamoAnd d a b w s) := tidy_vecInstr h

theorem tidy_execVamoAdd {d a b : Reg} {w : Bool} (h : Tidy K s) : TidyNext K (execVamoAdd d a b w s) := tidy_vecInstr h

theorem tidy_execVamoFadd {d a b : Reg} {w : Bool} (h : Tidy K s) : TidyNext K (execVamoFadd d a b w s) := tidy_vecInstr h

theorem tidy_execVamoMax {d a b : Reg} {w : Bool} (h : Tidy K s) : TidyNext K (execVamoMax d a b w s) := tidy_vecInstr h

theorem tidy_execVhash {d a : Reg} {w : Bool} (h : Tidy K s) : TidyNext K (execVhash d a w s) := tidy_vecInstr h

theorem tidy_execVacc {d : Reg} {x : Fin 4} {w : Bool} (h : Tidy K s) : TidyNext K (execVacc d x w s) := tidy_vecInstr h

theorem tidy_execVfill {d b : Reg} {w : Bool} (h : Tidy K s) : TidyNext K (execVfill d b w s) := tidy_vecInstr h

theorem tidy_execViota {d b : Reg} {w : Bool} (h : Tidy K s) : TidyNext K (execViota d b w s) := tidy_vecInstr h

theorem tidy_execVaccLive {d : Reg} {x : Fin 4} {w : Bool} (h : Tidy K s) : TidyNext K (execVaccLive d x w s) := tidy_vecInstr h

/-! ### Sys2Proof/Machine/Context.lean -/

theorem tidy_takeErrors : KeepsTidy K takeErrors := by
  unfold takeErrors
  refine .get_bind fun _ _ => ?_
  split
  · exact tidy_failedAct
  · exact .pure

theorem tidy_settleRegs : KeepsTidy K settleRegs := by
  unfold settleRegs
  refine .bind tidy_takeErrors fun _ => ?_
  refine .get_bind fun _ _ => ?_
  extract_lets x1
  exact .ite .stall .pure

theorem tidy_contWaits : KeepsTidy K contWaits := by
  unfold contWaits
  refine .bind tidy_settleRegs fun x => ?_
  refine .get_bind fun _ _ => ?_
  extract_lets c jp jp1
  have hjp : ∀ (x : Unit), KeepsTidy K (jp x) := fun _ => .ite .trap .pure
  have hjp1 : ∀ (x : Unit), KeepsTidy K (jp1 x) := fun _ => .ite (.bind .stall fun _ => hjp ()) (hjp ())
  exact .ite (.bind .stall fun _ => hjp1 ()) (hjp1 ())

theorem tidy_endWaits : KeepsTidy K endWaits := by
  unfold endWaits
  refine .bind tidy_takeErrors fun x => ?_
  refine .get_bind fun _ _ => ?_
  extract_lets c jp
  have hjp : ∀ (x : Unit), KeepsTidy K (jp x) := fun _ => .ite .stall .pure
  exact .ite (.bind .stall fun _ => hjp ()) (hjp ())

theorem tidy_probeArea {phys : Nat} : KeepsTidy K (probeArea phys) := by
  unfold probeArea
  refine .get_bind fun s _ => ?_
  extract_lets ag
  exact .forM fun _ => tidy_saveAccess (.bind tidy_openAccess fun _ => tidy_performMeeting)

theorem tidy_probeSave {phys : Nat} : KeepsTidy K (probeSave phys) := by
  unfold probeSave
  extract_lets mark
  have hmark : ∀ (b : Bool) (s : State), Tidy K s → Tidy K (mark b s) := fun _ _ hs => tidy_onCtx hs
  refine .bind (.attempt tidy_probeArea) fun _ => ?_
  split
  · exact .modify fun s hs => hmark _ s hs
  · exact .bind (.modify fun s hs => hmark _ s hs) fun _ => .throw
  · exact .throw

theorem tidy_areaWrite {phys off : Nat} {b : List Byte} : KeepsTidy K (areaWrite phys off b) := .get_bind fun _ _ => tidy_saveWrite

theorem tidy_saveContext {phys kind : Nat} {pc : Word} : KeepsTidy K (saveContext phys kind pc) := by
  unfold saveContext
  refine .get_bind fun _ _ => ?_
  extract_lets c jp
  have hjp : ∀ (x : Unit), KeepsTidy K (jp x) := fun _ => .bind tidy_areaWrite fun _ => .forM fun _ => tidy_areaWrite
  exact .bind tidy_areaWrite fun _ => .bind tidy_areaWrite fun _ => .ite
    (.bind (.forM fun _ => tidy_areaWrite) fun _ => .bind tidy_areaWrite fun _ => .bind tidy_areaWrite fun _ => .bind
    (.forM fun _ => tidy_areaWrite) fun _ => .bind tidy_areaWrite fun _ => .bind tidy_areaWrite fun _ => hjp ()) (hjp ())

theorem tidy_awaitHeld {phys : Nat} : KeepsTidy K (awaitHeld phys) := by
  unfold awaitHeld
  refine .get_bind fun _ _ => ?_
  extract_lets held
  exact .bind tidy_awaitLines fun _ => .ite tidy_awaitLines .pure

theorem tidy_leaveRunning {r : Running} (h : Tidy K s) : Tidy K (leaveRunning r s) := tidy_onGroup h

theorem tidy_freeCore {phys part : Nat} (h : Tidy K s) : Tidy K (freeCore phys part s) := by
  unfold freeCore
  refine tidy_reachBarrier ?_
  refine tidy_onCore (tidy_dropTile (tidy_forgetAnswers h)) fun _ hc => ?_
  extract_lets src
  have hsrc : CoreTidy K src := tidy_vacate (tidy_dropStanding hc)
  exact hsrc

theorem tidy_beginYield {phys : Nat} (h : Tidy K s) : Tidy K (beginYield phys s) := by
  unfold beginYield
  refine tidy_onCore h fun _ hc => ?_
  refine .ite hc ?_
  extract_lets src
  have hsrc : CoreTidy K src := tidy_abortTxn hc
  exact hsrc

theorem tidy_stopEngines {phys : Nat} (h : Tidy K s) : Tidy K (stopEngines phys s) := by
  unfold stopEngines
  extract_lets s1 s2
  have hs1 : Tidy K s1 := tidy_onCluster h fun _ => tidy_leaveNest
  have hs2 : Tidy K s2 := .foldl (tidy_dropOps hs1) fun _ _ hs3 => tidy_haltChannel hs3
  refine tidy_onCore hs2 fun _ hc => ?_
  extract_lets src
  have hsrc : CoreTidy K src := tidy_dropStanding hc
  exact hsrc

theorem tidy_settleChannels {phys : Nat} : KeepsTidy K (settleChannels phys) := by
  unfold settleChannels
  refine .bind ?_ fun _ => ?_
  · refine .modify fun _ hs => ?_
    extract_lets l
    exact tidy_takeStops (tidy_onCore hs fun _ hc => hc)
  · refine .get_bind fun _ _ => ?_
    extract_lets c
    refine .forM fun _ => ?_
    split
    · exact tidy_putTransfer
    · exact .pure

theorem tidy_countWaits {c : Core} (hc : CoreTidy K c) : CoreTidy K (countWaits c) := by
  unfold countWaits
  extract_lets n
  exact hc

theorem tidy_settleFlags {phys : Nat} (h : Tidy K s) : Tidy K (settleFlags phys s) := by
  unfold settleFlags
  extract_lets s1
  have hs1 : Tidy K s1 := .foldl h fun _ _ hs2 => tidy_onCtx hs2
  exact .foldl hs1 fun _ _ hs2 => tidy_onVx (tidy_onCtx hs2)

theorem tidy_finishYield {phys : Nat} : KeepsTidy K (finishYield phys) := by
  unfold finishYield
  refine .get_bind fun _ _ => ?_
  split
  · exact .modify fun _ hs1 => tidy_onCore hs1 fun _ hc => hc
  · refine .bind tidy_probeArea fun _ => ?_
    refine .bind tidy_awaitHeld fun _ => ?_
    refine .bind tidy_settleChannels fun _ => ?_
    refine .get_bind fun _ _ => ?_
    extract_lets c e
    refine .bind (.modify fun _ => tidy_settleFlags) fun _ => ?_
    refine .bind (.modify fun _ => tidy_releaseHeld) fun _ => ?_
    refine .bind ?_ fun _ => ?_
    · refine .modify fun _ hs2 => ?_
      refine tidy_onCore hs2 fun _ hc1 => ?_
      extract_lets src
      have hsrc : CoreTidy K src := tidy_countWaits hc1
      exact hsrc
    · refine .bind tidy_saveContext fun _ => ?_
      refine .modify fun _ hs2 => ?_
      extract_lets s3
      have hs3 : Tidy K s3 := tidy_freeCore (tidy_leaveRunning (tidy_stopEngines hs2))
      exact tidy_readyContinuation hs3

theorem tidy_tryYield {phys : Nat} (h : Tidy K s) : Tidy K (tryYield phys s) := by
  unfold tryYield
  extract_lets c
  refine .ite h ?_
  split
  · rename_i he
    exact KeepsTidy.of_eq he tidy_finishYield h
  · rename_i he
    exact tidy_failWith (KeepsTidy.of_stop he tidy_finishYield h)
  · rename_i he
    exact KeepsTidy.of_stop he tidy_finishYield h

theorem tidy_areaRead {phys off n : Nat} : KeepsTidy K (areaRead phys off n) := .get_bind fun _ _ => tidy_saveRead

theorem tidy_failAct {cause : BitVec 8} {eval einfo : optParam Word 0} : KeepsTidy K (failAct cause eval einfo : Act α) := .throw

theorem tidy_orFail {a : Act α} (ha : KeepsTidy K a) : KeepsTidy K (orFail a : Act α) := by
  unfold orFail
  refine .bind (.attempt ha) fun _ => ?_
  split
  · exact .pure
  · exact tidy_failAct
  · exact .throw

theorem tidy_loadMx {ag : Agent} {rm : Nat} {b : List Byte} : KeepsTidy K (loadMx ag rm b) := by
  unfold loadMx
  extract_lets f kind x pfx pfmt next w blank rm1 k jp
  have hjp : ∀ (x : Unit), KeepsTidy K (jp x) := by
    intro _
    refine .ite .pure ?_
    refine .get_bind fun _ _ => ?_
    extract_lets base
    refine .ite .pure ?_
    refine .ite ?_ (.bind (tidy_orFail tidy_readOperands) fun _ => .bind (tidy_orFail tidy_acceptOperands) fun _ => .pure)
    refine .bind (tidy_orFail tidy_mxRecord) fun _ => ?_
    split
    extract_lets r jp1
    have hjp1 : ∀ (x : Unit), KeepsTidy K (jp1 x) := fun _ => .bind (tidy_orFail (tidy_withInfo tidy_operandWindow)) fun _ => .pure
    exact .ite (.bind tidy_failAct fun _ => hjp1 ()) (hjp1 ())
  exact .ite (.bind tidy_failAct fun _ => hjp ()) (hjp ())

theorem tidy_loadChan {ag : Agent} {ch : Nat} {inside : Bool} {b : List Byte} : KeepsTidy K (loadChan ag ch inside b) := by
  unfold loadChan
  extract_lets f state hwait k done w pair read blank
  have hread : KeepsTidy K read := .ite (.bind tidy_readPair fun _ => .pure) (.bind tidy_readTransfer fun _ => tidy_fitTransfer)
  refine .ite .pure ?_
  refine .ite .pure ?_
  refine .bind (.attempt hread) fun _ => ?_
  split
  · exact .pure
  · exact .pure
  · exact .pure
  · exact .throw

theorem tidy_carryArea {phys : Nat} : KeepsTidy K (carryArea phys) := by
  unfold carryArea
  refine .get_bind fun s _ => ?_
  refine .ite ?_ .pure
  refine .get_bind fun _ _ => ?_
  extract_lets ag
  refine .forM fun _ => ?_
  refine tidy_saveAccess ?_
  refine .bind tidy_openAccess fun _ => ?_
  extract_lets lines
  refine .get_bind fun _ _ => ?_
  refine .bind tidy_awaitLines fun _ => ?_
  refine .modify fun _ hs3 => ?_
  refine .foldl hs3 fun _ _ hs4 => ?_
  split
  · exact .foldl hs4 fun _ _ hs5 => tidy_dropLine hs5
  · exact hs4

theorem tidy_readArea {phys : Nat} : KeepsTidy K (readArea phys) := by
  unfold readArea
  refine .bind tidy_carryArea fun x => ?_
  refine .get_bind fun _ _ => ?_
  extract_lets kept causes src
  refine .bind tidy_areaRead fun _ => ?_
  extract_lets kind live jp
  have hjp : ∀ (x : Unit), KeepsTidy K (jp x) := by
    intro _
    refine .bind tidy_areaRead fun _ => ?_
    extract_lets ctl jp1
    have hjp1 : ∀ (x : Unit), KeepsTidy K (jp1 x) := by
      intro _
      refine .bind tidy_areaRead fun _ => ?_
      refine .bind (.mapM fun _ => tidy_areaRead) fun _ => ?_
      extract_lets none'
      refine .ite .pure ?_
      refine .bind ?_ fun _ => ?_
      · refine .mapM fun _ => ?_
        refine .ite .pure ?_
        refine .bind tidy_areaRead fun _ => ?_
        extract_lets x9 jp2
        have hjp2 : ∀ (x : Unit), KeepsTidy K (jp2 x) := fun _ => .pure
        exact .ite (.bind tidy_failAct fun _ => hjp2 ()) (hjp2 ())
      · extract_lets helpers
        refine .bind tidy_areaRead fun _ => ?_
        extract_lets vec jp2
        have hjp2 : ∀ (x : Unit), KeepsTidy K (jp2 x) := by
          intro _
          refine .get_bind fun _ _ => ?_
          extract_lets src1 ag
          exact .bind tidy_areaRead fun _ => .bind (.mapM fun _ => tidy_loadMx) fun _ => .bind tidy_areaRead fun _ => .bind
            (.mapM fun _ => tidy_loadChan) fun _ => .pure
        exact .ite (.bind tidy_failAct fun _ => hjp2 ()) (hjp2 ())
    exact .ite (.bind tidy_failAct fun _ => hjp1 ()) (hjp1 ())
  exact .ite (.bind tidy_failAct fun _ => hjp ()) (hjp ())

theorem tidy_resumeMx {phys : Nat} {q : MxOp} : KeepsTidy K (resumeMx phys q) := by
  unfold resumeMx
  refine .get_bind fun _ hs => ?_
  refine .ite .pure ?_
  refine .ite (.ite (.set (tidy_mxPush hs)) (.set (tidy_onCore hs fun c hc => tidy_zeroAcc hc))) ?_
  refine .ite (.set (tidy_mxPush hs)) ?_
  refine .ite (.set (tidy_askEmulation (tidy_mxPush hs))) ?_
  refine .ite ?_ (.set (tidy_mxOwn hs))
  extract_lets p s1 nhold
  split
  · rename_i he
    exact .bind (.set (TidySnd.of_eq he (tidy_placeMember hs))) fun _ => .stall
  · rename_i he
    exact .set (tidy_readyMember (tidy_mxPush (TidySnd.of_eq he (tidy_placeMember hs))))

theorem tidy_restoreCore {x : Restored} {c : Core} (hc : CoreTidy K c) : CoreTidy K (restoreCore x c) := by
  unfold restoreCore
  extract_lets src ctl helpers
  exact hc

theorem tidy_restoreChan {phys : Nat} {ch : Fin 4} {x : LoadedChan} : KeepsTidy K (restoreChan phys ch x) := by
  unfold restoreChan
  refine .bind (.modify fun _ => tidy_onChan) fun _ => ?_
  extract_lets jp
  have hjp : ∀ (x : Unit), KeepsTidy K (jp x) := by
    intro _
    unfold jp
    split
    · refine .get_bind fun _ _ => ?_
      extract_lets part
      exact .modify fun _ => tidy_askHelper
    · exact .pure
  split
  · exact .bind tidy_startJob fun _ => hjp ()
  · exact .bind (.modify fun _ => tidy_faultChannel) fun _ => hjp ()
  · exact hjp ()

theorem tidy_restore {phys : Nat} {x : Restored} : KeepsTidy K (restore phys x) := by
  unfold restore
  refine .get_bind fun s hs => ?_
  extract_lets mx jp
  have hmx : KeepsTidy K mx :=
    .bind (.modify fun _ h => tidy_onCore h fun _ => tidy_restoreCore) fun _ => .forM fun _ => tidy_resumeMx
  have hjp : ∀ u, KeepsTidy K (jp u) := by
    intro _
    refine .bind (.modify fun _ h => tidy_dispatchDue h) fun _ => .forM fun ch => ?_
    cases x.chans[ch.val]? with
    | none => exact .pure
    | some y => exact tidy_restoreChan
  refine .bind (.attempt hmx) fun _ => ?_
  split
  · exact hjp ()
  · exact .bind (.set hs) fun _ => .bind .throw hjp

theorem tidy_resumeAct {phys : Nat} : ∀ {n : Nat}, KeepsTidy K (resumeAct phys n)
  | 0 => .pure
  | n + 1 => by
    unfold resumeAct
    refine .get_bind fun s hs => ?_
    split
    · exact .pure
    · exact .get_bind fun _ _ => .bind (tidy_orFail tidy_acqAct) fun _ => .bind (.modify fun _ h => tidy_onCore h fun _ hc => hc) fun _ =>
        tidy_resumeAct
    · exact .bind tidy_readArea fun _ => tidy_restore

theorem tidy_tryResume {phys : Nat} (h : Tidy K s) : Tidy K (tryResume phys s) := by
  unfold tryResume
  refine .ite h ?_
  split
  · rename_i he
    exact KeepsTidy.of_eq he tidy_resumeAct h
  · rename_i he
    exact tidy_failWith (KeepsTidy.of_stop he tidy_resumeAct h)
  · rename_i he
    exact KeepsTidy.of_stop he tidy_resumeAct h

theorem tidy_startResumed {phys lcore : Nat} {e : ReadyEntry} (h : Tidy K s) : Tidy K (startResumed phys lcore e s) := by
  unfold startResumed
  split
  · extract_lets src run s1 s2 s3 s4 s5 s6 s7
    have hs1 : Tidy K s1 := by
      unfold s1
      split
      · exact tidy_dropAlloc h
      · exact h
    have hs2 : Tidy K s2 := tidy_onCluster hs1 fun _ hc => hc
    have hs3 : Tidy K s3 := .ite (tidy_onCluster hs2 fun _ hc => hc) hs2
    have hs4 : Tidy K s4 := tidy_onGroup hs3
    have hs5 : Tidy K s5 := .ite (tidy_onCore hs4 fun _ hc => hc.push tidy_emptyAlloc) h
    have hs6 : Tidy K s6 := tidy_onGroup hs5
    have hs7 : Tidy K s7 := by
      refine tidy_onCore hs6 fun _ hc => ?_
      extract_lets src1
      have hsrc1 : CoreTidy K src1 := tidy_startCore hc
      exact hsrc1
    exact tidy_tryResume (tidy_sampleAt hs7)
  · exact tidy_popDown h

/-! ### Sys2Proof/Machine/Task.lean -/

theorem tidy_curPart : KeepsTidy K curPart := by
  unfold curPart
  refine .get_bind fun _ _ => ?_
  split
  · exact .pure
  · exact .trap

theorem tidy_instrRecord {addr : Word} {takes : TaskRec → Bool} : KeepsTidy K (instrRecord addr takes) := by
  unfold instrRecord
  refine .get_bind fun _ _ => ?_
  extract_lets ag
  refine .bind tidy_readRecord fun x => ?_
  extract_lets r jp
  have hjp : ∀ (x : Unit), KeepsTidy K (jp x) := fun _ => .pure
  exact .bind tidy_curPart fun _ => .ite (.bind .trap fun _ => hjp ()) (hjp ())

theorem tidy_spawnAct {addr : Word} : KeepsTidy K (spawnAct addr) := by
  unfold spawnAct
  refine .bind tidy_instrRecord fun x => ?_
  refine .bind tidy_curPart fun _ => ?_
  refine .get_bind fun _ _ => ?_
  extract_lets ag peer e jp jp1 jp2
  have hjp : ∀ (x : Unit), KeepsTidy K (jp x) := fun _ => .bind tidy_fenceAct fun _ => .ite (.modify fun _ => tidy_holdReq)
    tidy_readyRec
  have hjp1 : ∀ (x : Unit), KeepsTidy K (jp1 x) := fun _ => .ite (.bind .trap fun _ => hjp ()) (hjp ())
  have hjp2 : ∀ (x : Unit), KeepsTidy K (jp2 x) := fun _ => .ite (.bind .trap fun _ => hjp1 ()) (hjp1 ())
  exact .ite (.bind .trap fun _ => hjp2 ()) (hjp2 ())

theorem tidy_execTspawn {a : Reg} {wa : Bool} (h : Tidy K s) : TidyNext K (execTspawn a wa s) :=
  tidy_runSeq (.bind tidy_readS fun _ => tidy_spawnAct) h

theorem tidy_pushEntry {phys : Nat} {e : ReadyEntry} : KeepsTidy K (pushEntry phys e) :=
  .get_bind fun _ hs => .ite (.set (tidy_popUp (tidy_onCore hs fun _ hc => hc))) tidy_readyRec

theorem tidy_forkAct {addr : Word} : KeepsTidy K (forkAct addr) := by
  unfold forkAct
  refine .bind tidy_instrRecord fun x => ?_
  refine .bind tidy_curPart fun _ => ?_
  refine .get_bind fun _ _ => ?_
  extract_lets ag e jp jp1
  have hjp : ∀ (x : Unit), KeepsTidy K (jp x) := fun _ => .bind tidy_fenceAct fun _ => .ite (.modify fun _ => tidy_holdReq)
    tidy_pushEntry
  have hjp1 : ∀ (x : Unit), KeepsTidy K (jp1 x) := fun _ => .ite (.bind .trap fun _ => hjp ()) (hjp ())
  exact .ite (.bind .trap fun _ => hjp1 ()) (hjp1 ())

theorem tidy_execTfork {a : Reg} {wa : Bool} (h : Tidy K s) : TidyNext K (execTfork a wa s) :=
  tidy_runSeq (.bind tidy_readS fun _ => tidy_forkAct) h

theorem tidy_countAtHome {addr : Word} : KeepsTidy K (countAtHome addr) := by
  unfold countAtHome
  refine .get_bind fun s _ => ?_
  extract_lets ag
  refine .bind tidy_openAccess fun _ => ?_
  split
  · exact .pure
  · refine .bind tidy_awaitHome fun _ => ?_
    refine .get_bind fun _ hs1 => ?_
    split
    rename_i he
    exact .bind (.set (TidySnd.of_eq he (tidy_atHome hs1))) fun _ => .pure

theorem tidy_decChecks {addr amount : Word} : KeepsTidy K (decChecks addr amount) := by
  unfold decChecks
  refine .bind tidy_instrRecord fun x => ?_
  extract_lets jp jp1
  have hjp : ∀ (x : Unit), KeepsTidy K (jp x) := fun _ => .pure
  have hjp1 : ∀ (x : Unit), KeepsTidy K (jp1 x) := by
    intro _
    refine .bind tidy_countAtHome fun _ => ?_
    extract_lets jp2
    have hjp2 : ∀ (x : Unit), KeepsTidy K (jp2 x) := fun _ => .bind tidy_curPart fun _ => .get_bind fun _ _ => .ite
      (.bind .trap fun _ => hjp ()) (hjp ())
    exact .ite (.bind .trap fun _ => hjp2 ()) (hjp2 ())
  exact .ite (.bind .trap fun _ => hjp1 ()) (hjp1 ())

theorem tidy_decPerform {addr amount : Word} : KeepsTidy K (decPerform addr amount) := by
  unfold decPerform
  refine .bind tidy_curPart fun _ => ?_
  refine .get_bind fun _ _ => ?_
  extract_lets ag
  exact .ite (.modify fun _ => tidy_holdReq) (.bind tidy_decrement fun _ => .ite .trap .pure)

theorem tidy_execTdec {a b : Reg} {wa wb : Bool} (h : Tidy K s) : TidyNext K (execTdec a b wa wb s) :=
  tidy_runSeq (.bind tidy_readS fun _ => .bind tidy_readS fun _ => .bind tidy_decChecks fun _ => .get_bind fun _ _ => .bind
    tidy_fenceAct fun _ => tidy_decPerform) h

theorem tidy_endTask {phys : Nat} (h : Tidy K s) : Tidy K (endTask phys s) := by
  unfold endTask
  split
  · exact h
  · extract_lets s1 s2 s3
    have hs1 : Tidy K s1 := tidy_endEvent (tidy_releaseHeld h)
    have hs2 : Tidy K s2 := tidy_freeCore hs1
    have hs3 : Tidy K s3 := tidy_memberEnds hs2
    exact tidy_sweepPart (tidy_popDown hs3)

theorem tidy_endReady : KeepsTidy K endReady :=
  .bind tidy_endWaits fun _ => .get_bind fun _ _ => .bind tidy_fenceAct fun _ => .get_bind fun _ _ => tidy_awaitHeld

theorem tidy_execTend (h : Tidy K s) : TidyNext K (execTend s) :=
  tidy_runJump (.bind tidy_endReady fun _ => .modify fun _ => tidy_endTask) h

theorem tidy_execTjoin {a : Reg} {wa : Bool} (h : Tidy K s) : TidyNext K (execTjoin a wa s) :=
  tidy_runJump (.bind tidy_readS fun _ => .bind tidy_decChecks fun _ => .bind tidy_endReady fun _ => .bind tidy_decPerform fun _ =>
    .modify fun _ => tidy_endTask) h

theorem tidy_curRun : KeepsTidy K curRun := by
  unfold curRun
  refine .get_bind fun _ _ => ?_
  split
  · exact .pure
  · exact .throw

theorem tidy_leaveSaved {phys kind : Nat} {pc : Word} : KeepsTidy K (leaveSaved phys kind pc) :=
  .bind tidy_curRun fun _ => .bind (.modify fun _ => tidy_releaseHeld) fun _ => .bind tidy_saveContext fun _ => .modify fun _ hs =>
    tidy_freeCore (tidy_leaveRunning hs)

theorem tidy_saveReady {scope : Scope} : KeepsTidy K (saveReady scope) := by
  unfold saveReady
  refine .get_bind fun _ _ => ?_
  extract_lets phys
  exact .bind tidy_probeSave fun _ => .get_bind fun _ _ => .bind tidy_fenceAct fun _ => tidy_awaitHeld

theorem tidy_execTyield (h : Tidy K s) : TidyNext K (execTyield s) := by
  unfold execTyield
  refine tidy_runJump ?_ h
  refine .bind tidy_contWaits fun x => ?_
  refine .bind tidy_curPart fun _ => ?_
  refine .get_bind fun _ _ => ?_
  extract_lets phys pc jp
  have hjp : ∀ (x : Unit), KeepsTidy K (jp x) := by
    intro _
    refine .bind tidy_saveReady fun _ => ?_
    refine .bind tidy_curRun fun _ => ?_
    extract_lets e
    exact .bind tidy_leaveSaved fun _ => .modify fun _ hs2 => .ite_app (tidy_holdReq hs2) (tidy_readyContinuation hs2)
  exact .ite (.bind .trap fun _ => hjp ()) (hjp ())

theorem tidy_startHelper {n : Fin 10} {pc s1 s2 : Word} {origin : HelperOrigin} {c : Core} (hc : CoreTidy K c) :
    CoreTidy K (startHelper n pc s1 s2 origin c) :=
  hc

theorem tidy_execHstart {n : Fin 10} {a b : Reg} {wa wb : Bool} (h : Tidy K s) : TidyNext K (execHstart n a b wa wb s) := by
  unfold execHstart
  refine tidy_runSeq ?_ h
  refine .get_bind fun _ _ => ?_
  extract_lets jp
  have hjp : ∀ (x : Unit), KeepsTidy K (jp x) := fun _ => .bind tidy_readS fun _ => .bind tidy_readS fun _ => .bind tidy_readS fun _ =>
    .modify fun _ hs2 => ⟨hs2.mem, tidy_startHelper hs2.core, hs2.others, hs2.clusters⟩
  exact .ite (.bind .trap fun _ => hjp ()) (hjp ())

theorem tidy_hendWaits : KeepsTidy K hendWaits := .bind tidy_settleRegs fun _ => .get_bind fun _ _ => .ite .stall .pure

theorem tidy_endHelper (h : Tidy K s) : Tidy K (endHelper s) := by
  unfold endHelper
  extract_lets x s1
  have hs1 : Tidy K s1 := tidy_onCur h
  split
  · exact tidy_releaseRow hs1
  · exact hs1

theorem tidy_execHend (h : Tidy K s) : TidyNext K (execHend s) :=
  tidy_runJump (.bind tidy_hendWaits fun _ => .modify fun _ => tidy_endHelper) h

theorem tidy_watchPiece {va : Word} {n : Nat} : KeepsTidy K (watchPiece va n) := by
  unfold watchPiece
  extract_lets jp
  have hjp : ∀ (x : Unit), KeepsTidy K (jp x) := by
    intro _
    refine .get_bind fun s _ => ?_
    extract_lets ag
    refine .bind tidy_openAccess fun _ => ?_
    split
    · exact .trap
    · exact .pure
  exact .ite (.bind .trap fun _ => hjp ()) (hjp ())

theorem tidy_watchNow {phys : Nat} {p : Piece} {n : Nat} (h : Tidy K s) : TidySnd K (watchNow phys p n s) := by
  unfold watchNow
  extract_lets s1
  have hs1 : Tidy K s1 := tidy_readAt h
  exact .mk hs1

theorem tidy_installWatch {phys : Nat} {w : Watch} (h : Tidy K s) : Tidy K (installWatch phys w s) := by
  unfold installWatch
  extract_lets cl src w1
  exact .ite (tidy_onCluster h fun _ hc => hc) (tidy_onPart h)

theorem tidy_cwaitAct {va cond : Word} : KeepsTidy K (cwaitAct va cond) := by
  unfold cwaitAct
  extract_lets kind arg jp
  have hjp : ∀ (x : Unit), KeepsTidy K (jp x) := by
    intro x
    refine .bind tidy_watchPiece fun _ => ?_
    refine .bind tidy_curPart fun _ => ?_
    refine .get_bind fun _ hs => ?_
    extract_lets phys
    split
    rename_i he
    refine .bind (.set (TidySnd.of_eq he (tidy_watchNow hs))) fun _ => ?_
    extract_lets now pc jp1
    have hjp1 : ∀ (x : Unit), KeepsTidy K (jp1 x) := by
      intro _
      refine .bind tidy_saveReady fun _ => ?_
      refine .bind tidy_curRun fun _ => ?_
      extract_lets e w
      refine .bind tidy_leaveSaved fun _ => ?_
      refine .ite (.modify fun _ => tidy_holdReq) ?_
      refine .get_bind fun _ hs2 => ?_
      split
      rename_i he1
      exact .bind (.set (TidySnd.of_eq he1 (tidy_watchNow hs2))) fun _ => .modify fun _ hs4 => .ite_app (tidy_readyContinuation hs4)
        (tidy_installWatch hs4)
    exact .ite (.bind .trap fun _ => hjp1 ()) (hjp1 ())
  exact .ite (.bind .trap fun _ => hjp ()) (hjp ())

theorem tidy_execCwait {a b : Reg} {wa wb : Bool} (h : Tidy K s) : TidyNext K (execCwait a b wa wb s) :=
  tidy_runJump (.bind tidy_contWaits fun _ => .bind tidy_readS fun _ => .bind tidy_readS fun _ => tidy_cwaitAct) h

theorem tidy_barArrive {phys gsize : Nat} {cacheable : Bool} {w : Watch} (h : Tidy K s) :
    Tidy K (barArrive phys gsize cacheable w s) := by
  unfold barArrive
  extract_lets part s1 v s2
  have hs1 : Tidy K s1 := tidy_readAt h
  have hs2 : Tidy K s2 := tidy_storeAt hs1
  exact .ite (tidy_readyContinuation hs2) (tidy_installWatch hs2)

theorem tidy_barAct {va : Word} : KeepsTidy K (barAct va) := by
  unfold barAct
  refine .bind tidy_watchPiece fun x => ?_
  refine .bind tidy_curPart fun _ => ?_
  refine .get_bind fun _ hs => ?_
  extract_lets phys gsize
  refine .bind tidy_curRun fun _ => ?_
  extract_lets jp
  have hjp : ∀ (x : Unit), KeepsTidy K (jp x) := by
    intro _
    unfold jp
    split
    rename_i he
    refine .bind (.set (TidySnd.of_eq he (tidy_watchNow hs))) fun _ => ?_
    extract_lets pc e w jp1 jp2
    have hjp1 : ∀ (x : Unit), KeepsTidy K (jp1 x) := fun _ => .bind tidy_awaitHosts fun _ => .bind tidy_saveReady fun _ => .bind
      tidy_leaveSaved fun _ => .ite (.modify fun _ hs2 => tidy_holdReq (tidy_onGroup hs2)) (.modify fun _ => tidy_barArrive)
    have hjp2 : ∀ (x : Unit), KeepsTidy K (jp2 x) := fun _ => .ite (.bind .trap fun _ => hjp1 ()) (hjp1 ())
    exact .ite (.bind .trap fun _ => hjp2 ()) (hjp2 ())
  exact .ite (.bind .trap fun _ => hjp ()) (hjp ())

theorem tidy_execBar {a : Reg} {wa : Bool} (h : Tidy K s) : TidyNext K (execBar a wa s) :=
  tidy_runJump (.bind tidy_contWaits fun _ => .bind tidy_readS fun _ => tidy_barAct) h

theorem tidy_eretEnd {i : Nat} {b : List Byte} : KeepsTidy K (eretEnd i b) :=
  .ite (.bind tidy_endReady fun _ => .bind tidy_clearBusy fun _ => .modify fun _ => tidy_endTask)
    (.bind tidy_hendWaits fun _ => .bind tidy_clearBusy fun _ => .modify fun _ => tidy_endHelper)

theorem tidy_eretBody : KeepsTidy K eretBody := by
  unfold eretBody
  refine .get_bind fun _ _ => ?_
  extract_lets i jp
  have hjp : ∀ (x : Unit), KeepsTidy K (jp x) := by
    intro x
    refine .bind tidy_saveRead fun _ => ?_
    split
    · extract_lets jp1 jp2
      have hjp1 : ∀ (x : Unit), KeepsTidy K (jp1 x) := fun _ => .bind tidy_clearBusy fun _ => .modify fun _ => tidy_onCur
      have hjp2 : ∀ (x : Unit), KeepsTidy K (jp2 x) := fun _ => .get_bind fun _ _ => .ite (.bind .stall fun _ => hjp1 ()) (hjp1 ())
      exact .ite (.bind .throw fun _ => hjp2 ()) (hjp2 ())
    · exact tidy_eretEnd
    · exact .bind tidy_clearBusy fun _ => .throw
    · exact .throw
  exact .bind tidy_frameBusy fun _ => .ite (.bind .trap fun _ => hjp ()) (hjp ())

theorem tidy_execEret (h : Tidy K s) : TidyNext K (execEret s) := tidy_runJump tidy_eretBody h

/-! ### Sys2Proof/Machine/Message.lean -/

theorem tidy_ringWrite {phys : Nat} {r : Ring} {off : Nat} {b : List Byte} (h : Tidy K s) : Tidy K (ringWrite phys r off b s) :=
  tidy_storeSpan h

theorem tidy_consume {phys : Nat} {i : Fin 4} {n : Nat} (h : Tidy K s) : Tidy K (consume phys i n s) := by
  unfold consume
  split
  · exact h
  · extract_lets m
    split
    · exact h
    · exact tidy_ringWrite h

theorem tidy_consumeAct {i : Fin 4} {n : Word} : KeepsTidy K (consumeAct i n) := by
  unfold consumeAct
  refine .get_bind fun _ hs => ?_
  split
  · exact .trap
  · extract_lets m jp jp1
    have hjp : ∀ (x : Unit), KeepsTidy K (jp x) := fun _ => .ite (.set (tidy_holdReq hs)) (.set (tidy_consume hs))
    have hjp1 : ∀ (x : Unit), KeepsTidy K (jp1 x) := by
      intro _
      unfold jp1
      split
      · exact .bind .trap fun _ => hjp ()
      · exact hjp ()
    exact .ite (.bind .trap fun _ => hjp1 ()) (hjp1 ())

theorem tidy_openAct {i : Fin 4} {va : Word} : KeepsTidy K (openAct i va) := by
  unfold openAct
  refine .get_bind fun _ _ => ?_
  extract_lets ag
  refine .bind tidy_performOwn fun x => ?_
  refine .get_bind fun _ hs1 => ?_
  split
  · exact .trap
  · extract_lets r jp jp1
    have hjp : ∀ (x : Unit), KeepsTidy K (jp x) := by
      intro _
      refine .bind (.set (.foldl hs1 fun _ _ hs2 => tidy_ringWrite hs2)) fun _ => ?_
      refine .modify fun _ hs2 => ?_
      refine ⟨hs2.mem, ?_, hs2.others, hs2.clusters⟩
      extract_lets src
      have hsrc : CoreTidy K src := hs2.core
      exact hsrc
    have hjp1 : ∀ (x : Unit), KeepsTidy K (jp1 x) := fun _ => .ite (.bind .trap fun _ => hjp ()) (hjp ())
    exact .ite (.bind .trap fun _ => hjp1 ()) (hjp1 ())

theorem tidy_mtakeAct {sel v : Word} : KeepsTidy K (mtakeAct sel v) := by
  unfold mtakeAct
  extract_lets i jp
  have hjp : ∀ (x : Unit), KeepsTidy K (jp x) := by
    intro _
    unfold jp
    split
    · exact tidy_consumeAct
    · exact tidy_openAct
    · refine .get_bind fun _ hs => ?_
      split
      · exact .trap
      · refine .set ?_
        refine ⟨hs.mem, ?_, hs.others, hs.clusters⟩
        extract_lets src
        have hsrc : CoreTidy K src := hs.core
        exact hsrc
  exact .ite (.bind .trap fun _ => hjp ()) (hjp ())

theorem tidy_execMtake {a b : Reg} {wa wb : Bool} (h : Tidy K s) : TidyNext K (execMtake a b wa wb s) :=
  tidy_runSeq (.bind tidy_readS fun _ => .bind tidy_readS fun _ => tidy_mtakeAct) h

theorem tidy_sendMsg {m : Msg} (h : Tidy K s) : Tidy K (sendMsg m s) := tidy_flowSent (h.same rfl)

theorem tidy_msendStart {sel body : Word} : KeepsTidy K (msendStart sel body) := by
  unfold msendStart
  refine .bind tidy_curPart fun x => ?_
  refine .get_bind fun _ _ => ?_
  extract_lets ag jp
  have hjp : ∀ (x : Unit), KeepsTidy K (jp x) := by
    intro _
    unfold jp
    split
    · exact .stall
    · refine .bind tidy_readMem fun _ => ?_
      refine .bind tidy_fenceAct fun _ => ?_
      refine .get_bind fun _ hs1 => ?_
      extract_lets m s2
      have hs2 : Tidy K s2 := tidy_onCur hs1
      exact .bind (.set (.ite (tidy_onCore (tidy_holdReq hs2) fun _ hc => hc) (tidy_sendMsg hs2))) fun _ => .stall
  exact .ite (.bind .trap fun _ => hjp ()) (hjp ())

theorem tidy_msendBody {d a b : Reg} {wa wb : Bool} : KeepsTidy K (msendBody d a b wa wb) := by
  unfold msendBody
  refine .get_bind fun _ _ => ?_
  split
  · exact .stall
  · extract_lets jp
    have hjp : ∀ (x : Unit), KeepsTidy K (jp x) := fun _ => tidy_writeS
    exact .ite (.bind tidy_readS fun _ => .bind .trap fun _ => hjp ()) (hjp ())
  · exact .bind tidy_readS fun _ => .bind tidy_readS fun _ => .bind tidy_destReady fun _ => tidy_msendStart

theorem tidy_execMsend {d a b : Reg} {wa wb : Bool} (h : Tidy K s) : TidyNext K (execMsend d a b wa wb s) :=
  tidy_runSeq tidy_msendBody h

theorem tidy_writeMessage {phys : Nat} {i : Fin 4} {r : Ring} {m : Msg} {skip : Nat} (h : Tidy K s) :
    Tidy K (writeMessage phys i r m skip s) := by
  unfold writeMessage
  extract_lets a tail size at0 here s1 s2 s3 s4 hen
  have hs1 : Tidy K s1 := .ite h (tidy_ringWrite h)
  have hs2 : Tidy K s2 := tidy_ringWrite hs1
  have hs3 : Tidy K s3 := tidy_ringWrite hs2
  have hs4 : Tidy K s4 := tidy_ringWrite hs3
  exact tidy_onCore hs4 fun _ hc => hc

theorem tidy_placeMessage {phys : Nat} {m : Msg} (h : Tidy K s) : TidySnd K (placeMessage phys m s) := by
  unfold placeMessage
  extract_lets i
  split
  · exact .mk h
  · refine .ite (.mk (tidy_record h)) ?_
    extract_lets a
    split
    · extract_lets s1
      have hs1 : Tidy K s1 := tidy_writeMessage h
      exact .mk (tidy_sampleAt hs1)
    · exact .mk (tidy_ringWrite h)

theorem tidy_execMessagePlacement {n : Nat} (h : Tidy K s) : TidyNext K (execMessagePlacement n s) := by
  unfold execMessagePlacement
  refine .next ?_
  split
  · exact h
  · split
    · exact h
    · split
      rename_i he2
      exact .same (TidySnd.of_eq he2 (tidy_placeMessage h)) rfl

theorem tidy_answerSender {phys ctx st : Nat} (h : Tidy K s) : Tidy K (answerSender phys ctx st s) := tidy_onCtx h

theorem tidy_execMsendAnswer {core ctx : Nat} (h : Tidy K s) : TidyNext K (execMsendAnswer core ctx s) := by
  unfold execMsendAnswer
  refine .next ?_
  split
  · exact h
  · exact tidy_answerSender (h.same rfl)

theorem tidy_onTree {part t : Nat} {f : Tree → Tree} (h : Tidy K s) : Tidy K (onTree part t f s) := tidy_onPart h

theorem tidy_vectorPieces {ag : Agent} {r : ShapeRec} : KeepsTidy K (vectorPieces ag r) := by
  unfold vectorPieces
  extract_lets n jp
  have hjp : ∀ (x : Unit), KeepsTidy K (jp x) := fun _ => .foldlM fun _ _ => .bind tidy_openAccess fun _ => .pure
  exact .ite (.bind .trap fun _ => hjp ()) (hjp ())

theorem tidy_pieceEntries {ag : Agent} {ps : List Piece} : KeepsTidy K (pieceEntries ag ps) := by
  unfold pieceEntries
  refine .foldlM fun _ _ => ?_
  split
  · exact .pure
  · exact .ite .pure (.bind tidy_translate fun _ => .pure)

theorem tidy_contribute {phys : Nat} {p : Partition} {t : Tree} {c : Contribution} (h : Tidy K s) :
    Tidy K (contribute phys p t c s) := by
  unfold contribute
  extract_lets s1 s2
  have hs1 : Tidy K s1 := tidy_onTree h
  have hs2 : Tidy K s2 := tidy_onPart hs1
  exact .ite (tidy_holdReq hs2) hs2

theorem tidy_nredAct {sel addr : Word} : KeepsTidy K (nredAct sel addr) := by
  unfold nredAct
  refine .bind tidy_curPart fun x => ?_
  refine .get_bind fun _ _ => ?_
  extract_lets ag lcore jp
  have hjp : ∀ (x : Unit), KeepsTidy K (jp x) := fun _ => .pure
  split
  · exact .trap
  · extract_lets jp1 jp2 jp3
    have hjp1 : ∀ (x : Unit), KeepsTidy K (jp1 x) := by
      intro _
      refine .bind tidy_fetchRecord fun _ => ?_
      split
      extract_lets r jp4
      have hjp4 : ∀ (x : Unit), KeepsTidy K (jp4 x) := by
        intro _
        refine .bind tidy_vectorPieces fun _ => ?_
        refine .ite (.ite (.bind (.modify fun _ hs1 => .ite (tidy_onCore hs1 fun _ hc => hc) hs1) fun _ => .bind .stall fun _ => hjp
          ()) (hjp ())) ?_
        refine .bind tidy_performMeeting fun _ => ?_
        refine .bind (.modify fun _ => tidy_reachPieces) fun _ => ?_
        refine .bind tidy_checkBad fun _ => ?_
        refine .bind tidy_pieceEntries fun _ => ?_
        refine .get_bind fun _ hs1 => ?_
        extract_lets bytes
        exact .bind (.set (tidy_contribute hs1)) fun _ => .pure
      exact .ite (.bind .trap fun _ => hjp4 ()) (hjp4 ())
    have hjp2 : ∀ (x : Unit), KeepsTidy K (jp2 x) := fun _ => .ite .pure (.ite (.bind .trap fun _ => hjp1 ()) (hjp1 ()))
    have hjp3 : ∀ (x : Unit), KeepsTidy K (jp3 x) := fun _ => .ite (.bind .trap fun _ => hjp2 ()) (hjp2 ())
    exact .ite (.bind .trap fun _ => hjp3 ()) (hjp3 ())

theorem tidy_execNred {d a b : Reg} {wa wb : Bool} (h : Tidy K s) : TidyNext K (execNred d a b wa wb s) :=
  tidy_runSeq (.bind tidy_readS fun _ => .bind tidy_readS fun _ => .bind tidy_destReady fun _ => .bind tidy_nredAct fun _ => .modify
    fun _ => tidy_setReg) h

theorem tidy_writeResult {phys part : Nat} {c : Contribution} {v : List W32} (h : Tidy K s) : Tidy K (writeResult phys part c v s) := by
  unfold writeResult
  extract_lets bytes
  exact TidySnd.snd (.foldl (.mk h) fun _ _ hp => .mk (tidy_storeAt (TidySnd.snd hp)))

theorem tidy_endContribution {now : Bool} {p : Partition} {c : Contribution} (h : Tidy K s) : Tidy K (endContribution now p c s) := by
  unfold endContribution
  extract_lets s1 phys
  have hs1 : Tidy K s1 := tidy_onPart h
  exact .ite hs1 (.ite (tidy_holdReq hs1) (tidy_sweepPart (tidy_runHw tidy_hwDecrement hs1)))

theorem tidy_endRounds {now : Bool} {part t : Nat} (h : Tidy K s) : Tidy K (endRounds now part t s) := by
  unfold endRounds
  split
  · exact h
  · exact .foldl h fun _ _ hs1 => tidy_endContribution hs1

theorem tidy_failTree {now : Bool} {part t cause : Nat} (h : Tidy K s) : Tidy K (failTree now part t cause s) := by
  unfold failTree
  extract_lets s1
  have hs1 : Tidy K s1 := tidy_record h
  exact tidy_endRounds (tidy_onTree hs1)

theorem tidy_keepResult {p : Partition} {t round : Nat} {v : List W32} (h : Tidy K s) : Tidy K (keepResult p t round v s) := by
  unfold keepResult
  extract_lets waits
  exact tidy_onTree h

theorem tidy_askHosts {c : Contribution} (h : Tidy K s) : Tidy K (askHosts c s) := by
  unfold askHosts
  refine .foldl h fun _ _ hs1 => ?_
  split
  · exact hs1
  · exact .ite (tidy_backInvalidate hs1) hs1

theorem tidy_completeRound {part lcore tree : Nat} (h : Tidy K s) : Tidy K (completeRound part lcore tree s) := by
  unfold completeRound
  split
  · exact h
  · split
    · refine .ite (tidy_failTree h) ?_
      split
      · exact h
      · extract_lets phys s1
        have hs1 : Tidy K s1 := tidy_endContribution (tidy_writeResult h)
        refine .ite (tidy_askHosts h) ?_
        split
        · exact hs1
        · exact tidy_keepResult hs1
    · exact h

theorem tidy_execNredRoundComplete {core tree : Nat} (h : Tidy K s) : TidyNext K (execNredRoundComplete core tree s) := by
  unfold execNredRoundComplete
  refine .next ?_
  split
  · exact h
  · refine .ite h ?_
    split
    · exact h
    · exact tidy_completeRound h

theorem tidy_execTreeHoldExpiry {part tree : Nat} (h : Tidy K s) : TidyNext K (execTreeHoldExpiry part tree s) := by
  unfold execTreeHoldExpiry
  refine .next ?_
  split
  · exact h
  · exact .ite (tidy_onTree h) h

/-! ### Sys2Proof/Machine/Fold.lean -/

theorem tidy_foldError {eval : Word} {reason : Nat} {index : optParam Nat 0} : KeepsTidy K (foldError eval reason index : Act α) :=
  .trap

theorem tidy_needDecl {slot : Word} : KeepsTidy K (needDecl slot) := by
  unfold needDecl
  extract_lets jp
  have hjp : ∀ (x : Unit), KeepsTidy K (jp x) := by
    intro _
    refine .bind tidy_curPart fun _ => ?_
    split
    · exact .pure
    · exact tidy_foldError
  exact .ite (.bind tidy_foldError fun _ => hjp ()) (hjp ())

theorem tidy_writeSpill {p : Partition} {d : Decl} {cl k key : Nat} {v : W32} : KeepsTidy K (writeSpill p d cl k key v) := by
  unfold writeSpill
  extract_lets ag b
  refine .bind tidy_openAccess fun _ => ?_
  refine .bind tidy_checkBad fun _ => ?_
  refine .bind (.forM fun _ => tidy_awaitHome) fun _ => ?_
  refine .forM fun _ => ?_
  refine .modify fun _ hs => ?_
  split
  rename_i he
  exact tidy_storeAt (TidySnd.of_eq he (tidy_atHome hs))

theorem tidy_readSpill {p : Partition} {d : Decl} {cl k : Nat} : KeepsTidy K (readSpill p d cl k) := by
  unfold readSpill
  extract_lets ag
  refine .bind tidy_openAccess fun _ => ?_
  refine .bind tidy_checkBad fun _ => ?_
  refine .bind (.forM fun _ => tidy_awaitHome) fun _ => ?_
  refine .bind ?_ fun _ => .pure
  refine .foldlM fun _ _ => ?_
  refine .get_bind fun _ hs => ?_
  split
  rename_i he
  exact .bind (.set (TidySnd.of_eq he (tidy_atHome hs))) fun _ => .pure

theorem tidy_spillRecord {p : Partition} {cl : Nat} {kw : Word} (h : Tidy K s) : Tidy K (spillRecord p cl kw s) := tidy_record h

theorem tidy_mergeEntry {part : Nat} {d : Decl} {cl key : Nat} {v : W32} (h : Tidy K s) :
    TidySome K (mergeEntry part d cl key v s) := by
  unfold mergeEntry
  extract_lets same
  exact .ite (.some (tidy_onCluster h fun _ hc => hc.folded)) .none

theorem tidy_insertEntry {part : Nat} {d : Decl} {cl key : Nat} {v : W32} (h : Tidy allMemory s) :
    Tidy allMemory (insertEntry part d cl key v s) :=
  tidy_onCluster h fun _ _ => tidy_anyCluster

theorem tidy_refusePost {part : Nat} {d : Decl} {cl : Nat} (h : Tidy K s) : Tidy K (refusePost part d cl s) := tidy_onSlot h

theorem tidy_applyPost {p : Partition} {d : Decl} {cl key : Nat} {v : W32} {strict : Bool} :
    KeepsTidy allMemory (applyPost p d cl key v strict) := by
  unfold applyPost
  refine .get_bind fun _ hs => ?_
  split
  · rename_i he
    exact .bind (.set (TidySome.of_eq he (tidy_mergeEntry hs))) fun _ => .pure
  · extract_lets k kw full jp jp1
    have hjp : ∀ (x : Unit), KeepsTidy allMemory (jp x) := fun _ => .bind (.modify fun _ => tidy_refusePost) fun _ => .pure
    have hjp1 : ∀ (x : Unit), KeepsTidy allMemory (jp1 x) := by
      intro _
      refine .ite (.bind (.set (tidy_refusePost hs)) fun _ => .pure) ?_
      refine .bind (.attempt tidy_writeSpill) fun _ => ?_
      split
      · exact .bind (.modify fun _ => tidy_onSlot) fun _ => .pure
      · exact .stall
      · exact .bind (.modify fun _ => tidy_spillRecord) fun _ => .ite (.bind .trap fun _ => hjp ()) (hjp ())
    exact .ite (.bind (.set (tidy_insertEntry hs)) fun _ => .pure) (.ite (.bind .trap fun _ => hjp1 ()) (hjp1 ()))

theorem tidy_checkPool {ag : Agent} {b : List Byte} : KeepsTidy K (checkPool ag b) := by
  unfold checkPool
  extract_lets d n
  exact .ite (.forM fun _ => .bind tidy_translate fun _ => .pure) .pure

theorem tidy_caught {a : Act α} (ha : KeepsTidy K a) : KeepsTidy K (caught a : Act (Except Deferred α)) := by
  unfold caught
  refine .bind (.attempt ha) fun _ => ?_
  split
  · exact .pure
  · exact .pure
  · exact .throw

theorem tidy_readDecl {slot rcd : Word} : KeepsTidy K (readDecl slot rcd) := by
  unfold readDecl
  refine .ite .pure ?_
  refine .get_bind fun _ _ => ?_
  extract_lets ag
  refine .bind (tidy_caught (.bind tidy_readRecord fun _ => .bind tidy_checkPool fun _ => .pure)) fun _ => ?_
  split
  · exact .pure
  · exact .pure

theorem tidy_declPerform {slot rcd : Word} {b : List Byte} {fault : Option Deferred} : KeepsTidy K (declPerform slot rcd b fault) := by
  unfold declPerform
  extract_lets jp jp1
  have hjp : ∀ (x : Unit), KeepsTidy K (jp x) := by
    intro x
    refine .bind tidy_curPart fun _ => ?_
    extract_lets jp2
    have hjp2 : ∀ (x : Unit), KeepsTidy K (jp2 x) := by
      intro _
      unfold jp2
      split
      · exact tidy_foldError
      · refine .get_bind fun _ hs => ?_
        extract_lets lsize
        exact .set (tidy_onPart hs)
    exact .ite (.bind tidy_foldError fun _ => hjp2 ()) (hjp2 ())
  have hjp1 : ∀ (x : Unit), KeepsTidy K (jp1 x) := by
    intro x
    refine .ite ?_ (.ite (.bind tidy_foldError fun _ => hjp ()) (hjp ()))
    refine .bind tidy_needDecl fun _ => ?_
    refine .bind tidy_curPart fun _ => ?_
    refine .get_bind fun _ hs => ?_
    extract_lets jp2 jp3
    have hjp2 : ∀ (x : Unit), KeepsTidy K (jp2 x) := fun _ => .set (tidy_releaseSlot hs)
    have hjp3 : ∀ (x : Unit), KeepsTidy K (jp3 x) := fun _ => .ite (.bind tidy_foldError fun _ => hjp2 ()) (hjp2 ())
    exact .ite (.bind tidy_foldError fun _ => hjp3 ()) (hjp3 ())
  split
  · exact .bind .trap fun _ => hjp1 ()
  · exact hjp1 ()

theorem tidy_takeEntry {phys : Nat} {e : FoldEntry} (h : Tidy K s) : Tidy K (takeEntry phys e s) := tidy_sampleAt (tidy_removeEntry h)

theorem tidy_drainAct {mask : Word} {take : Bool} : KeepsTidy K (drainAct mask take) := by
  unfold drainAct
  extract_lets jp
  have hjp : ∀ (x : Unit), KeepsTidy K (jp x) := by
    intro x
    refine .bind tidy_curPart fun _ => ?_
    refine .bind (.forM fun _ => .ite .pure tidy_foldError) fun _ => ?_
    refine .get_bind fun _ hs => ?_
    extract_lets phys
    split
    · exact .pure
    · extract_lets jp1
      have hjp1 : ∀ (x : Unit), KeepsTidy K (jp1 x) := fun _ => .pure
      exact .ite (.bind (.set (tidy_sweepPart (tidy_takeEntry hs))) fun _ => hjp1 ()) (hjp1 ())
  exact .ite (.bind tidy_foldError fun _ => hjp ()) (hjp ())

theorem tidy_setThreshold {part slot cl : Nat} {v : W32} (h : Tidy K s) : Tidy K (setThreshold part slot cl v s) := by
  unfold setThreshold
  split
  · exact h
  · exact tidy_sweepPart (tidy_onSlot h)

theorem tidy_settleThreshold {part slot : Nat} {v : W32} (h : Tidy K s) : Tidy K (settleThreshold part slot v s) := tidy_onPart h

theorem tidy_thrPerform {atEnd : Bool} {slot v : Word} : KeepsTidy K (thrPerform atEnd slot v) := by
  unfold thrPerform
  refine .bind tidy_needDecl fun _ => ?_
  refine .bind tidy_curPart fun _ => ?_
  extract_lets t
  exact .ite (.modify fun _ hs => tidy_settleThreshold (.foldl hs fun _ _ hs1 => tidy_setThreshold hs1))
    (.modify fun _ hs => hs.same rfl)

theorem tidy_quietPerform {slot rcd : Word} : KeepsTidy K (quietPerform slot rcd) := by
  unfold quietPerform
  extract_lets jp
  have hjp : ∀ (x : Unit), KeepsTidy K (jp x) := by
    intro x
    refine .bind tidy_needDecl fun _ => ?_
    refine .bind tidy_curPart fun _ => ?_
    extract_lets jp1
    have hjp1 : ∀ (x : Unit), KeepsTidy K (jp1 x) := by
      intro _
      refine .modify fun _ hs => ?_
      extract_lets top s1
      have hs1 : Tidy K s1 := tidy_onPart hs
      exact .foldl hs1 fun _ _ hs2 => tidy_onSlot hs2
    exact .ite (.bind tidy_foldError fun _ => hjp1 ()) (hjp1 ())
  exact .ite (.bind .trap fun _ => hjp ()) (hjp ())

theorem tidy_blacken {p : Partition} {d : Decl} {src home : Nat} (h : Tidy K s) : Tidy K (blacken p d src home s) := by
  unfold blacken
  extract_lets i
  exact .ite (tidy_onSlot h) h

theorem tidy_sendPost {p : Partition} {d : Decl} {q : Post} (h : Tidy K s) : Tidy K (sendPost p d q s) := tidy_blacken (h.same rfl)

theorem tidy_postOrder {ag : Agent} {home : Nat} {own : Bool} : KeepsTidy K (postOrder ag home own) := by
  unfold postOrder
  refine .get_bind fun _ _ => ?_
  extract_lets sc
  exact .ite (.ite .stall .pure) tidy_fenceAct

theorem tidy_holdPost {ag : Agent} {q : Post} : KeepsTidy K (holdPost ag q) := by
  unfold holdPost
  refine .get_bind fun _ hs => ?_
  split
  · exact .pure
  · extract_lets src jp jp1
    have hsrc : CoreTidy K src := hs.core
    have hjp : ∀ (x : Unit), KeepsTidy K (jp x) := fun _ => .set ⟨hs.mem, hsrc, hs.others, hs.clusters⟩
    have hjp1 : ∀ (x : Unit), KeepsTidy K (jp1 x) := fun _ => .ite (.bind .throw fun _ => hjp ()) (hjp ())
    exact .ite (.bind .throw fun _ => hjp1 ()) (hjp1 ())

theorem tidy_keyDecl {p : Partition} {kw eval : Word} {index : optParam Nat 0} : KeepsTidy K (keyDecl p kw eval index) := by
  unfold keyDecl
  split
  · exact tidy_foldError
  · extract_lets jp
    have hjp : ∀ (x : Unit), KeepsTidy K (jp x) := fun _ => .pure
    exact .ite (.bind tidy_foldError fun _ => hjp ()) (hjp ())

theorem tidy_postPerform {reg : Reg} {kw v : Word} : KeepsTidy K (postPerform reg kw v) := by
  unfold postPerform
  refine .bind tidy_curPart fun _ => ?_
  refine .get_bind fun _ _ => ?_
  extract_lets ag
  refine .bind tidy_keyDecl fun _ => ?_
  extract_lets q
  exact .ite (.bind tidy_holdPost fun _ => .modify fun _ => tidy_setReg)
    (.bind tidy_postOrder fun _ => .bind (.modify fun _ => tidy_sendPost) fun _ => .ite (.modify fun _ => tidy_onCur) .pure)

theorem tidy_postNow {p : Partition} {d : Decl} {kw : Word} {v : W32} : KeepsTidy allMemory (postNow p d kw v) := by
  unfold postNow
  refine .get_bind fun _ _ => ?_
  extract_lets src home
  exact .bind tidy_applyPost fun _ => .bind (.modify fun _ => tidy_blacken) fun _ => .pure

theorem tidy_postAtEnd {reg : Reg} {kw v : Word} : KeepsTidy allMemory (postAtEnd reg kw v) :=
  .bind tidy_curPart fun _ => .bind tidy_keyDecl fun _ => .bind tidy_postNow fun _ => .modify fun _ => tidy_setReg

theorem tidy_postvAccept {ag : Agent} {keys vals : Word} : KeepsTidy K (postvAccept ag keys vals) := by
  unfold postvAccept
  extract_lets w read
  have hread : ∀ (code : Nat) (addr : Word), KeepsTidy K (read code addr) := by
    intro _ _
    unfold read
    extract_lets jp jp1
    have hjp : ∀ (x : Unit), KeepsTidy K (jp x) := by
      intro _
      refine .bind tidy_fetchRecord fun _ => ?_
      split
      exact .pure
    have hjp1 : ∀ (x : Unit), KeepsTidy K (jp1 x) := fun _ => .get_bind fun _ _ => .get_bind fun _ _ => .ite
      (.bind (tidy_recordFault tidy_resolve) fun _ => .bind tidy_txnTouch fun _ => hjp ()) (hjp ())
    exact .ite (.bind .trap fun _ => hjp1 ()) (hjp1 ())
  refine .bind (hread _ keys) fun x => ?_
  split
  refine .bind (hread _ vals) fun _ => ?_
  split
  extract_lets jp jp1 jp2 jp3
  have hjp : ∀ (x : Unit), KeepsTidy K (jp x) := fun _ => .pure
  have hjp1 : ∀ (x : Unit), KeepsTidy K (jp1 x) := fun _ => .ite (.bind .trap fun _ => hjp ()) (hjp ())
  have hjp2 : ∀ (x : Unit), KeepsTidy K (jp2 x) := fun _ => .ite (.bind .trap fun _ => hjp1 ()) (hjp1 ())
  have hjp3 : ∀ (x : Unit), KeepsTidy K (jp3 x) := fun _ => .ite (.bind .trap fun _ => hjp2 ()) (hjp2 ())
  exact .ite (.bind .trap fun _ => hjp3 ()) (hjp3 ())

theorem tidy_postvRead {ag : Agent} {i : Nat} {x : Spot × List Piece} : KeepsTidy K (postvRead ag i x) := by
  unfold postvRead
  refine .get_bind fun _ _ => ?_
  extract_lets jp
  have hjp : ∀ (x : Unit), KeepsTidy K (jp x) := fun _ => .bind (.modify fun _ => tidy_reachPieces) fun _ => .bind
    (tidy_withInfo tidy_checkBad) fun _ => .get_bind fun _ _ => .pure
  exact .ite (.bind tidy_txnTouch fun _ => hjp ()) (hjp ())

theorem tidy_postvPlace {ag : Agent} {w : Waiter} {a b : ShapeRec} {i : Nat} : KeepsTidy K (postvPlace ag w a b i) := by
  unfold postvPlace
  extract_lets p spots
  refine .get_bind fun _ _ => ?_
  split
  · exact .pure
  · exact .bind tidy_checkSpots fun _ => .bind (.modify fun _ => tidy_onVx) fun _ => .pure

theorem tidy_postvKey {ag : Agent} {w : Waiter} {a b : ShapeRec} {i : Nat} : KeepsTidy K (postvKey ag w a b i) :=
  .bind tidy_postvPlace fun _ => .bind
    (.foldlM fun _ _ => .bind (tidy_withInfo
    (.bind (.forM fun _ => tidy_stashFill) fun _ => .bind (.forM fun _ => tidy_touchData) fun _ => tidy_performMeeting)) fun _ =>
    tidy_postvRead) fun _ => .pure

theorem tidy_postvValue {ag : Agent} {w : Waiter} {b : ShapeRec} {i : Nat} {l : List (Spot × List Piece)} :
    KeepsTidy K (postvValue ag w b i l) :=
  .bind tidy_detSpots fun _ => .bind tidy_readySpots fun _ => .bind (.mapM fun _ => tidy_postvRead) fun _ => .pure

theorem tidy_postvDecl {p : Partition} {keys vals : Word} {fmt i : Nat} {kw : Word} : KeepsTidy K (postvDecl p keys vals fmt i kw) := by
  unfold postvDecl
  refine .bind tidy_keyDecl fun x => ?_
  extract_lets jp
  have hjp : ∀ (x : Unit), KeepsTidy K (jp x) := fun _ => .pure
  exact .ite (.bind .trap fun _ => hjp ()) (hjp ())

theorem tidy_postvBegin {i : Instr} {d : Reg} {keys vals : Word} : KeepsTidy K (postvBegin i d keys vals) := by
  unfold postvBegin
  refine .get_bind fun _ _ => ?_
  extract_lets ag x fresh start
  refine .bind tidy_postvAccept fun _ => ?_
  split
  extract_lets recs
  refine .bind tidy_recSpans fun _ => ?_
  refine .modify fun _ hs1 => ?_
  extract_lets s2 src
  have hs2 : Tidy K s2 := tidy_onCur hs1
  have hsrc : CoreTidy K src := hs2.core
  exact ⟨hs2.mem, hsrc, hs2.others, hs2.clusters⟩

theorem tidy_postvTake {i : Instr} {d a b : Reg} {wa wb : Bool} : KeepsTidy K (postvTake i d a b wa wb) :=
  .bind tidy_readS fun _ => .bind tidy_readS fun _ => .bind tidy_destReady fun _ => tidy_queueVec tidy_postvBegin

theorem tidy_postvPost {ag : Agent} {reg : Reg} {q : VxOp} {i : Nat} : KeepsTidy K (postvPost ag reg q i) := by
  unfold postvPost
  extract_lets w
  refine .bind tidy_postvKey fun _ => ?_
  split
  refine .bind tidy_curPart fun _ => ?_
  refine .bind tidy_postvDecl fun _ => ?_
  refine .bind tidy_postvValue fun _ => ?_
  refine .get_bind fun _ _ => ?_
  extract_lets k
  exact .ite (.bind tidy_holdPost fun _ => .modify fun _ => tidy_onVx) (.bind tidy_postOrder fun _ => .modify fun _ => tidy_sendPost)

theorem tidy_postvWalk {ag : Agent} {reg : Reg} : ∀ {l : List Nat}, KeepsTidy K (postvWalk ag reg l)
  | [] => .pure
  | i :: rest => by
    unfold postvWalk
    refine .get_bind fun _ _ => ?_
    split
    · exact .pure
    · extract_lets jp
      have hjp : ∀ x, KeepsTidy K (jp x) := fun _ => tidy_postvWalk
      exact .ite (.bind tidy_postvPost fun _ => .bind (.modify fun _ h => tidy_onVx h) fun _ => hjp ()) (hjp ())

theorem tidy_postvGroup {ag : Agent} {reg : Reg} : KeepsTidy K (postvGroup ag reg) := by
  unfold postvGroup
  refine .get_bind fun _ _ => ?_
  split
  · exact .pure
  · extract_lets n range jp
    have hjp : ∀ (x : Unit), KeepsTidy K (jp x) := fun _ => .pure
    exact .bind tidy_postvWalk fun _ => .ite (.bind (.modify fun _ => tidy_onVx) fun _ => hjp ()) (hjp ())

theorem tidy_postvEngine {i : Instr} {d a b : Reg} {wa wb : Bool} : KeepsTidy K (postvEngine i d a b wa wb) := by
  unfold postvEngine
  refine .get_bind fun _ _ => ?_
  extract_lets ag owed jp jp1
  have howed : KeepsTidy K owed := .get_bind fun _ _ => .ite .stall .pure
  have hjp : ∀ (x : Unit), KeepsTidy K (jp x) := by
    intro _
    refine .get_bind fun _ _ => ?_
    split
    · exact .pure
    · exact .bind howed fun _ => .bind (.modify fun _ => tidy_setReg) fun _ => .modify fun _ => tidy_vecDrop
  have hjp1 : ∀ (x : Unit), KeepsTidy K (jp1 x) := by
    intro _
    refine .bind (.attempt tidy_postvGroup) fun _ => ?_
    split
    · exact .ite (.bind .stall fun _ => hjp ()) (hjp ())
    · refine .get_bind fun _ _ => ?_
      split
      · exact .trap
      · exact .bind howed fun _ => .bind (.modify fun _ hs2 => tidy_onCur (tidy_vecDrop hs2)) fun _ => .trap
    · exact .throw
  exact .get_bind fun _ _ => .ite (.bind tidy_postvTake fun _ => hjp1 ()) (hjp1 ())

theorem tidy_readElems {ag : Agent} {a b : ShapeRec} : ∀ {l : List Nat}, KeepsTidy K (readElems ag a b l)
  | [] => .pure
  | i :: rest => by
    unfold readElems
    refine .bind (tidy_caught tidy_postvKey) fun _ => ?_
    split
    · exact .pure
    · refine .bind (tidy_caught tidy_postvValue) fun _ => ?_
      split
      · exact .pure
      · refine .bind tidy_readElems fun _ => ?_
        split
        exact .pure

theorem tidy_readPostv {i : Instr} {d a b : Reg} {wa wb : Bool} : KeepsTidy K (readPostv i d a b wa wb) := by
  unfold readPostv
  refine .bind tidy_readS fun x => ?_
  refine .bind tidy_readS fun _ => ?_
  refine .bind tidy_destReady fun _ => ?_
  refine .get_bind fun _ _ => ?_
  extract_lets ag from' skip jp
  have hjp : ∀ (x : Unit), KeepsTidy K (jp x) := by
    intro _
    refine .bind (tidy_caught tidy_postvAccept) fun _ => ?_
    split
    · exact .pure
    · refine .bind tidy_readElems fun _ => ?_
      split
      exact .bind tidy_fenceAct fun _ => .pure
  exact .ite (.bind .stall fun _ => hjp ()) (hjp ())

theorem tidy_postvPosts {i : W32} {d : Reg} {keys vals : Word} {fmt : Nat} {stop : Option Nat} :
    ∀ {l : List (Nat × Word × W32)} {counts : List (Nat × Nat)}, KeepsTidy allMemory (postvPosts i d keys vals fmt stop l counts)
  | [], _ => .pure
  | (k, kw, v) :: rest, counts => by
    unfold postvPosts
    refine .bind tidy_curPart fun _ => ?_
    refine .get_bind fun _ _ => ?_
    refine .bind ?_ fun _ => ?_
    · refine .attempt ?_
      refine .bind tidy_postvDecl fun _ => ?_
      refine .ite .pure ?_
      refine .bind (.attempt tidy_postNow) fun _ => ?_
      split
      · exact .pure
      · exact .trap
      · exact .throw
    · split
      · exact .pure
      · exact tidy_postvPosts
      · exact .bind (.modify fun _ h => tidy_onCur h) fun _ => .throw

theorem tidy_postvAtEnd {w : W32} {d : Reg} {keys vals : Word} {fmt : Nat} {elems : List (Nat × Word × W32)} {fault : Option Deferred}
    {counts : List (Nat × Nat)} : KeepsTidy allMemory (postvAtEnd w d keys vals fmt elems fault counts) := by
  unfold postvAtEnd
  extract_lets at' i
  refine .bind tidy_postvPosts fun x => ?_
  split
  · extract_lets jp
    have hjp : ∀ (x : Unit), KeepsTidy allMemory (jp x) := fun _ => .trap
    exact .ite (.bind (.modify fun _ => tidy_onCur) fun _ => hjp ()) (hjp ())
  · extract_lets v
    exact .modify fun _ hs => tidy_onCur (tidy_setReg hs)

theorem tidy_foldPerform_deliver {atEnd : Bool} {d : Reg} {mask : Word} {take : Bool} :
    KeepsTidy K (foldPerform.deliver atEnd d mask take) := by
  unfold foldPerform.deliver
  refine .bind tidy_drainAct fun _ => ?_
  split
  exact .ite (.modify fun _ hs => tidy_setReg (tidy_setReg hs)) (.modify fun _ hs => tidy_produce (tidy_produce hs))

theorem tidy_foldPerform {atEnd : Bool} {a : FoldOp} : KeepsTidy allMemory (foldPerform atEnd a) := by
  unfold foldPerform
  split
  · exact tidy_declPerform
  · exact .ite tidy_postAtEnd tidy_postPerform
  · exact tidy_postvAtEnd
  · exact tidy_thrPerform
  · exact tidy_quietPerform
  · exact tidy_foldPerform_deliver
  · exact tidy_foldPerform_deliver

theorem tidy_standFold {op : FoldOp} : KeepsTidy K (standFold op) := by
  unfold standFold
  refine .bind ?_ fun _ => .stall
  refine .modify fun _ hs => ?_
  extract_lets ag s1
  have hs1 : Tidy K s1 := tidy_onCur hs
  exact tidy_onCore (tidy_holdReq hs1) fun _ hc => hc

theorem tidy_foldBody {read : Act FoldOp} (hread : KeepsTidy allMemory read) : KeepsTidy allMemory (foldBody read) := by
  unfold foldBody
  refine .get_bind fun _ _ => ?_
  extract_lets jp
  have hjp : ∀ (x : Unit), KeepsTidy allMemory (jp x) := fun _ => .bind hread fun _ => .get_bind fun _ _ => .ite tidy_standFold
    tidy_foldPerform
  exact .ite (.bind .stall fun _ => hjp ()) (hjp ())

theorem tidy_execFdecl {a b : Reg} {wa wb : Bool} (h : Tidy allMemory s) : TidyNext allMemory (execFdecl a b wa wb s) :=
  tidy_runSeq (tidy_foldBody (.bind tidy_readS fun _ => .bind tidy_readS fun _ => tidy_readDecl)) h

theorem tidy_execFpost {d a b : Reg} {wa wb : Bool} (h : Tidy allMemory s) : TidyNext allMemory (execFpost d a b wa wb s) := by
  unfold execFpost
  refine tidy_runSeq ?_ h
  refine tidy_foldBody ?_
  refine .bind tidy_readS fun x => ?_
  refine .bind tidy_readS fun _ => ?_
  refine .bind tidy_destReady fun _ => ?_
  refine .get_bind fun _ _ => ?_
  extract_lets ag jp
  have hjp : ∀ (x : Unit), KeepsTidy allMemory (jp x) := fun _ => .pure
  refine .ite ?_ (hjp ())
  split
  · exact .bind tidy_postOrder fun _ => hjp ()
  · exact hjp ()

theorem tidy_execFpostv {d a b : Reg} {wa wb : Bool} (h : Tidy allMemory s) : TidyNext allMemory (execFpostv d a b wa wb s) := by
  unfold execFpostv
  extract_lets i src
  exact tidy_runSeq (.get_bind fun _ _ => .ite (tidy_foldBody tidy_readPostv) tidy_postvEngine) h

theorem tidy_execFdrain {d a : Reg} {wa : Bool} (h : Tidy allMemory s) : TidyNext allMemory (execFdrain d a wa s) :=
  tidy_runSeq (tidy_foldBody (.bind tidy_readS fun _ => .bind tidy_destReady fun _ => .bind tidy_destReady fun _ => .pure)) h

theorem tidy_execFpeek {d a : Reg} {wa : Bool} (h : Tidy allMemory s) : TidyNext allMemory (execFpeek d a wa s) :=
  tidy_runSeq (tidy_foldBody (.bind tidy_readS fun _ => .bind tidy_destReady fun _ => .bind tidy_destReady fun _ => .pure)) h

theorem tidy_execFthr {a b : Reg} {wa wb : Bool} (h : Tidy allMemory s) : TidyNext allMemory (execFthr a b wa wb s) :=
  tidy_runSeq (tidy_foldBody (.bind tidy_readS fun _ => .bind tidy_readS fun _ => .pure)) h

theorem tidy_execFquiet {a b : Reg} {wa wb : Bool} (h : Tidy allMemory s) : TidyNext allMemory (execFquiet a b wa wb s) :=
  tidy_runSeq (tidy_foldBody (.bind tidy_readS fun _ => .bind tidy_readS fun _ => .pure)) h

theorem tidy_fcountAct {sel : Word} : KeepsTidy K (fcountAct sel) := by
  unfold fcountAct
  extract_lets jp
  have hjp : ∀ (x : Unit), KeepsTidy K (jp x) := by
    intro _
    refine .bind tidy_curPart fun _ => ?_
    refine .get_bind fun _ _ => ?_
    extract_lets cl
    refine .ite .pure ?_
    split
    · exact tidy_foldError
    · exact .pure
  exact .ite (.bind tidy_foldError fun _ => hjp ()) (hjp ())

theorem tidy_execFcount {d a : Reg} {wa : Bool} (h : Tidy K s) : TidyNext K (execFcount d a wa s) :=
  tidy_runSeq (.bind tidy_readS fun _ => .bind tidy_destReady fun _ => .bind tidy_fcountAct fun _ => .modify fun _ => tidy_setReg) h

theorem tidy_postArrived {n : Nat} {q : Post} {st : Nat} (h : Tidy K s) : Tidy K (postArrived n q st s) := by
  unfold postArrived
  extract_lets s1
  have hs1 : Tidy K s1 := h.same rfl
  exact tidy_sweepPart hs1

theorem tidy_execFoldPostArrival {n : Nat} (h : Tidy allMemory s) : TidyNext allMemory (execFoldPostArrival n s) := by
  unfold execFoldPostArrival
  refine .next ?_
  split
  · exact h
  · refine .ite h ?_
    split
    · exact tidy_postArrived h
    · split
      · exact tidy_postArrived h
      · split
        · rename_i he3
          exact tidy_postArrived (KeepsTidy.of_eq he3 tidy_applyPost h)
        · rename_i he3
          exact KeepsTidy.of_stop he3 tidy_applyPost h

theorem tidy_takeAnswer {phys ctx : Nat} {reg : Reg} {v : Word} (h : Tidy K s) : Tidy K (takeAnswer phys ctx reg v s) := by
  unfold takeAnswer
  refine .ite (tidy_onVx h) ?_
  refine .ite ?_ h
  extract_lets s1
  have hs1 : Tidy K s1 := tidy_onCtx h
  exact .ite (tidy_onCore hs1 fun _ hc => hc) hs1

theorem tidy_execFpostStatusAnswer {n : Nat} (h : Tidy K s) : TidyNext K (execFpostStatusAnswer n s) := by
  unfold execFpostStatusAnswer
  refine .next ?_
  split
  · exact h
  · exact tidy_takeAnswer (h.same rfl)

theorem tidy_landThreshold {n : Nat} {t : Nat × Nat × Nat × W32} (h : Tidy K s) : Tidy K (landThreshold n t s) := by
  unfold landThreshold
  extract_lets left s1
  have hleft : Tidy K left := h.same rfl
  have hs1 : Tidy K s1 := .ite (tidy_setThreshold hleft) hleft
  exact .ite hs1 (tidy_settleThreshold hs1)

theorem tidy_execThresholdWriteArrival {n : Nat} (h : Tidy K s) : TidyNext K (execThresholdWriteArrival n s) := by
  unfold execThresholdWriteArrival
  refine .next ?_
  split
  · exact h
  · exact .ite h (tidy_landThreshold h)

theorem tidy_replayOne {p : Partition} {d : Decl} {cl : Nat} : KeepsTidy allMemory (replayOne p d cl) := by
  unfold replayOne
  refine .get_bind fun s _ => ?_
  extract_lets k step1 jp
  have hstep1 : ∀ (s : State), Tidy allMemory s → Tidy allMemory (step1 s) := fun _ => tidy_onSlot
  have hjp : ∀ (x : Unit), KeepsTidy allMemory (jp x) := fun _ => .pure
  refine .bind (.attempt tidy_readSpill) fun _ => ?_
  split
  · exact .pure
  · exact .bind (.modify fun _ hs1 => hstep1 _ (tidy_spillRecord hs1)) fun _ => .pure
  · refine .bind (.modify fun s1 hs1 => hstep1 s1 hs1) fun _ => ?_
    refine .ite (.bind (.modify fun _ => tidy_spillRecord) fun _ => hjp ()) ?_
    refine .bind ?_ fun _ => hjp ()
    refine .modify fun _ hs1 => ?_
    split
    · rename_i he
      exact TidySome.of_eq he (tidy_mergeEntry hs1)
    · exact tidy_insertEntry hs1

theorem tidy_replaySlot {p : Partition} {d : Decl} {cl : Nat} : ∀ {n : Nat}, KeepsTidy allMemory (replaySlot p d cl n)
  | 0 => .pure
  | n + 1 => by
    unfold replaySlot
    exact .get_bind fun _ _ => .ite .pure (.bind tidy_replayOne fun _ => .ite tidy_replaySlot .pure)

theorem tidy_spillReady {p : Partition} {d : Decl} {cl : Nat} : KeepsTidy K (spillReady p d cl) := by
  unfold spillReady
  refine .get_bind fun _ _ => ?_
  extract_lets k
  refine .foldlM fun _ _ => ?_
  refine .bind (.attempt tidy_readSpill) fun _ => ?_
  split
  · exact .pure
  · exact .pure

theorem tidy_replayStore {part cl : Nat} (h : Tidy allMemory s) : Tidy allMemory (replayStore part cl s) := by
  unfold replayStore
  split
  · exact h
  · exact .ite h (tidy_sweepPart (.foldl h fun _ _ hs1 => tidy_runHw tidy_replaySlot hs1))

theorem tidy_execFoldReplay {cluster part : Nat} (h : Tidy allMemory s) : TidyNext allMemory (execFoldReplay cluster part s) :=
  .next (.ite h (tidy_replayStore h))

theorem tidy_startEvent {p : Partition} {phys : Nat} {d : Decl} {e : FoldEntry} (h : Tidy K s) : Tidy K (startEvent p phys d e s) := by
  unfold startEvent
  extract_lets cl k j det rcd addr src entry go
  have hgo : ∀ (s : State), Tidy K s → Tidy K (go s) := by
    intro _ hs1
    unfold go
    extract_lets s2
    have hs2 : Tidy K s2 := tidy_onSlot (tidy_takeEntry hs1)
    exact tidy_startGroup (tidy_popUp hs2)
  split
  · rename_i s1 he
    exact hgo s1 (KeepsTidy.of_eq he tidy_writeMem h)
  · rename_i he
    exact KeepsTidy.of_stop he tidy_writeMem h
  · rename_i s1 he
    exact tidy_failWith (tidy_record (hgo s1 (KeepsTidy.of_stop he tidy_writeMem h)))
  · rename_i he
    exact KeepsTidy.of_stop he tidy_writeMem h

theorem tidy_topEnds {p : Partition} {t : Top} (h : Tidy K s) : Tidy K (topEnds p t s) := by
  unfold topEnds
  extract_lets cl s1
  have hs1 : Tidy K s1 := tidy_onPart h
  exact tidy_sweepPart (tidy_runHw tidy_hwDecrement hs1)

theorem tidy_onTop {part slot : Nat} {f : Top → Top} (h : Tidy K s) : Tidy K (onTop part slot f s) := tidy_onPart h

theorem tidy_topStep {p : Partition} {d : Decl} {t : Top} (h : Tidy K s) : Tidy K (topStep p d t s) := by
  unfold topStep
  extract_lets ring i k next white
  have hwhite : ∀ (s : State), Tidy K s → Tidy K (white s) := fun _ => tidy_onSlot
  exact .ite (tidy_topEnds h) (.ite (hwhite _ (tidy_onTop h)) (hwhite _ (tidy_onTop h)))

theorem tidy_execTopTokenPass {part slot : Nat} (h : Tidy K s) : TidyNext K (execTopTokenPass part slot s) := by
  unfold execTopTokenPass
  refine .next ?_
  split
  · exact h
  · refine .ite h ?_
    split
    · exact .ite (tidy_topStep h) h
    · exact h

theorem tidy_topsAtEnd {p : Partition} (h : Tidy K s) : Tidy K (topsAtEnd p s) := by
  unfold topsAtEnd
  refine .foldl h fun _ _ hs1 => ?_
  split
  · exact hs1
  · exact .ite (.ite (tidy_topEnds hs1) hs1) (tidy_onTop hs1)

/-! ### Sys2Proof/Machine/Txn.lean -/

theorem tidy_openTxn {d : Reg} (h : Tidy K s) : Tidy K (openTxn d s) := by
  unfold openTxn
  extract_lets x s1 src src1
  have hs1 : Tidy K s1 := tidy_setReg h
  have hsrc : CoreTidy K src := hs1.core
  exact ⟨hs1.mem, hsrc, hs1.others, hs1.clusters⟩

theorem tidy_execTxb {d : Reg} (h : Tidy K s) : TidyNext K (execTxb d s) := by
  unfold execTxb
  refine tidy_runSeq ?_ h
  refine .get_bind fun _ _ => ?_
  extract_lets jp jp1
  have hjp : ∀ (x : Unit), KeepsTidy K (jp x) := fun _ => .bind tidy_destReady fun _ => .modify fun _ => tidy_openTxn
  have hjp1 : ∀ (x : Unit), KeepsTidy K (jp1 x) := fun _ => .ite (.bind .trap fun _ => hjp ()) (hjp ())
  exact .ite (.bind .throw fun _ => hjp1 ()) (hjp1 ())

theorem tidy_commitPost {q : Post} : KeepsTidy allMemory (commitPost q) := by
  unfold commitPost
  refine .get_bind fun _ _ => ?_
  split
  · exact .throw
  · exact .bind tidy_applyPost fun _ => .ite .throw .pure

theorem tidy_commitPosts {posts : List Post} : KeepsTidy allMemory (commitPosts posts) := by
  unfold commitPosts
  refine .get_bind fun _ hs => ?_
  refine .bind (.attempt (.forM fun _ => tidy_commitPost)) fun _ => ?_
  split
  · exact .pure
  · exact .bind (.modify fun _ _ => hs.same rfl) fun _ => .throw

theorem tidy_awaitPosts {ag : Agent} {posts : List Post} : KeepsTidy K (awaitPosts ag posts) :=
  .bind (.forM fun _ => tidy_postOrder) fun _ => .get_bind fun _ _ => .ite .stall .pure

theorem tidy_commitTxn : KeepsTidy allMemory commitTxn := by
  unfold commitTxn
  refine .get_bind fun _ _ => ?_
  split
  · exact .trap
  · extract_lets ag jp
    have hjp : ∀ (x : Unit), KeepsTidy allMemory (jp x) := by
      intro _
      refine .bind ?_ fun _ => .modify fun _ hs1 => tidy_sweepPart (.foldl hs1 fun _ _ hs2 => tidy_performPend hs2)
      refine .modify fun _ hs1 => ?_
      refine ⟨hs1.mem, ?_, hs1.others, hs1.clusters⟩
      extract_lets src src1
      have hsrc : CoreTidy allMemory src := hs1.core
      exact hsrc
    exact .bind tidy_performOwn fun _ => .bind tidy_awaitPosts fun _ => .bind (.forM fun _ => tidy_awaitPend) fun _ => .get_bind
      fun _ hs1 => .bind tidy_commitPosts fun _ => .ite (.bind (.set (.foldl hs1 fun _ _ hs2 => tidy_holdReq hs2)) fun _ => hjp ())
      (hjp ())

theorem tidy_execTxe (h : Tidy allMemory s) : TidyNext allMemory (execTxe s) := tidy_runSeq tidy_commitTxn h

theorem tidy_execTxa (h : Tidy K s) : TidyNext K (execTxa s) := by
  unfold execTxa
  refine tidy_runJump ?_ h
  refine .get_bind fun _ _ => ?_
  extract_lets jp
  have hjp : ∀ (x : Unit), KeepsTidy K (jp x) := fun _ => .throw
  exact .ite (.bind .trap fun _ => hjp ()) (hjp ())

/-! ### Sys2Proof/Machine/Arrive.lean -/

theorem tidy_markBad {p : Place} (h : Tidy K s) : Tidy K (markBad p s) := by
  unfold markBad
  refine .ite h ?_
  split
  · exact h.same rfl
  · exact tidy_onCore h fun _ hc => tidy_onAlloc hc fun _ ha4 => ha4

theorem tidy_countCorrected {m : MemUnit} (h : Tidy K s) : Tidy K (countCorrected m s) := by
  unfold countCorrected
  extract_lets n
  exact h.same rfl

theorem tidy_execLoadValueArrival {core ctx : Nat} {reg : Reg} {bad : Bool} (h : Tidy K s) :
    TidyNext K (execLoadValueArrival core ctx reg bad s) := by
  unfold execLoadValueArrival
  extract_lets found s1
  have hs1 : Tidy K s1 := tidy_onCtx h
  refine .next ?_
  cases found with
  | none => exact hs1
  | some p => exact tidy_markBad hs1

theorem tidy_applyRemote {n : Reg} {v : Word} {c : Core} (hc : CoreTidy K c) : CoreTidy K (applyRemote n v c) := by
  unfold applyRemote
  extract_lets wake
  exact hc

theorem tidy_landRemote {w : RemoteWrite} {c : Core} (hc : CoreTidy K c) : CoreTidy K (landRemote w c) :=
  .ite hc (.ite (tidy_applyRemote hc) (tidy_putInbox hc))

theorem tidy_deliverRemote {phys : Nat} {w : RemoteWrite} (h : Tidy K s) : Tidy K (deliverRemote phys w s) :=
  .ite (tidy_onCore h fun _ => tidy_landRemote) (tidy_record h)

theorem tidy_execRemoteWriteArrival {n : Nat} (h : Tidy K s) : TidyNext K (execRemoteWriteArrival n s) := by
  unfold execRemoteWriteArrival
  refine .next ?_
  split
  · exact h
  · refine .ite h ?_
    split
    · exact h.same rfl
    · exact .ite h (tidy_deliverRemote (h.same rfl))

theorem tidy_execInboxEntryApply {core n : Nat} (h : Tidy K s) : TidyNext K (execInboxEntryApply core n s) := by
  unfold execInboxEntryApply
  refine .next ?_
  refine tidy_onCore h fun _ hc => ?_
  split
  · exact hc
  · exact .ite (tidy_applyRemote hc) hc

theorem tidy_execAccessPerformed {core n : Nat} (h : Tidy K s) : TidyNext K (execAccessPerformed core n s) := by
  unfold execAccessPerformed
  refine .next ?_
  split
  · exact h
  · refine .ite h ?_
    split
    · rename_i he1
      exact KeepsTidy.of_stop he1 tidy_awaitPend h
    · rename_i he1
      exact tidy_performPend (tidy_onCore (KeepsTidy.of_eq he1 tidy_awaitPend h) fun _ hc => hc)

theorem tidy_execCacheEviction {cluster line : Nat} (h : Tidy K s) : TidyNext K (execCacheEviction cluster line s) :=
  .next (.ite (.ite (h.same rfl) h) (.ite (tidy_evictLine h) h))

theorem tidy_execUpdateOnlyEviction {core line : Nat} (h : Tidy K s) : TidyNext K (execUpdateOnlyEviction core line s) := by
  unfold execUpdateOnlyEviction
  extract_lets mine s1
  have hs1 : Tidy K s1 := tidy_onCore h fun _ hc => hc
  exact .next (hs1.same rfl)

theorem tidy_setProxies {die : Fin 4} {l : List ProxyReq} (h : Tidy K s) : Tidy K (setProxies die l s) := h.same rfl

theorem tidy_answerProxy {q : ProxyReq} {a : Await} (h : Tidy K s) : Tidy K (answerProxy q a s) := .ite (tidy_onCtx h) h

theorem tidy_trapProxy {q : ProxyReq} {cause : BitVec 8} {eval einfo : Word} (h : Tidy K s) : Tidy K (trapProxy q cause eval einfo s) :=
  .ite (tidy_answerProxy h) (tidy_deferTrap h)

theorem tidy_serveProxy {q : ProxyReq} (h : Tidy K s) : Tidy K (serveProxy q s) := by
  unfold serveProxy
  extract_lets cl s1
  have hs1 : Tidy K s1 := tidy_dropLine (tidy_recallStash h)
  refine .ite (tidy_trapProxy hs1) ?_
  split
  rename_i he
  exact tidy_answerProxy (TidySnd.of_eq he (tidy_rmwAt hs1))

theorem tidy_completionMade {origin : HelperOrigin} {c : Core} (hc : CoreTidy K c) : CoreTidy K (completionMade origin c) := by
  unfold completionMade
  split
  · extract_lets src k
    exact hc
  · exact hc

/-- A core on which a helper starts has the local stores it had. -/
theorem tidy_startRequest {c d : Core} (h : CoreTidy K c) (e : startRequest c = some d) : CoreTidy K d := by
  unfold startRequest at e
  split at e
  · cases e
  · split at e
    · cases e
      exact tidy_completionMade (tidy_startHelper h)
    · cases e

theorem tidy_execHardwareHelperStart {core : Nat} (h : Tidy K s) : TidyNext K (execHardwareHelperStart core s) := by
  unfold execHardwareHelperStart
  refine .next (.ite h ?_)
  split
  · rename_i he
    exact tidy_setCore h (tidy_startRequest (tidy_coreAt h) he)
  · exact h

theorem tidy_execOverflowWatchScan {part : Nat} (h : Tidy K s) : TidyNext K (execOverflowWatchScan part s) := by
  unfold execOverflowWatchScan
  refine .next ?_
  split
  · exact h
  · extract_lets hit s1 s2
    have hs1 : Tidy K s1 := tidy_onPart h
    have hs2 : Tidy K s2 := .foldl hs1 fun _ _ hs3 => tidy_readyContinuation hs3
    exact .foldl hs2 fun _ _ hs3 => tidy_refillWatches hs3

/-! ### Sys2Proof/Machine/Atomic.lean -/

theorem tidy_amoBody {op : RmwOp} {d a b : Reg} {w sz : Bool} {scope : Scope} : KeepsTidy K (amoBody op d a b w sz scope) := by
  unfold amoBody
  refine .get_bind fun _ _ => ?_
  refine .bind tidy_proxyAnswer fun _ => ?_
  split
  · exact .modify fun _ => tidy_setReg
  · exact .bind tidy_readS fun _ => .bind tidy_readS fun _ => .bind tidy_destReady fun _ => .get_bind fun _ _ => .bind tidy_atomicAct
      fun _ => .modify fun _ => tidy_setReg

theorem tidy_casBody {d a b : Reg} {w sz : Bool} {scope : Scope} : KeepsTidy K (casBody d a b w sz scope) := by
  unfold casBody
  refine .get_bind fun _ _ => ?_
  refine .bind tidy_proxyAnswer fun _ => ?_
  split
  · exact .modify fun _ => tidy_setReg
  · exact .bind tidy_readS fun _ => .bind tidy_readS fun _ => .bind tidy_readS fun _ => .bind tidy_destReady fun _ => .get_bind
      fun _ _ => .bind tidy_atomicAct fun _ => .modify fun _ => tidy_setReg

theorem tidy_redBody {op : RmwOp} {a b : Reg} {w sz ord : Bool} {scope : Scope} : KeepsTidy K (redBody op a b w sz ord scope) :=
  .bind tidy_readS fun _ => .bind tidy_readS fun _ => .get_bind fun _ _ => tidy_redAct

theorem tidy_execAmoAdd {d a b : Reg} {w sz : Bool} {scope : Scope} (h : Tidy K s) : TidyNext K (execAmoAdd d a b w sz scope s) :=
  tidy_runSeq tidy_amoBody h

theorem tidy_execAmoAnd {d a b : Reg} {w sz : Bool} {scope : Scope} (h : Tidy K s) : TidyNext K (execAmoAnd d a b w sz scope s) :=
  tidy_runSeq tidy_amoBody h

theorem tidy_execAmoOr {d a b : Reg} {w sz : Bool} {scope : Scope} (h : Tidy K s) : TidyNext K (execAmoOr d a b w sz scope s) :=
  tidy_runSeq tidy_amoBody h

theorem tidy_execAmoXor {d a b : Reg} {w sz : Bool} {scope : Scope} (h : Tidy K s) : TidyNext K (execAmoXor d a b w sz scope s) :=
  tidy_runSeq tidy_amoBody h

theorem tidy_execAmoMin {d a b : Reg} {w sz : Bool} {scope : Scope} (h : Tidy K s) : TidyNext K (execAmoMin d a b w sz scope s) :=
  tidy_runSeq tidy_amoBody h

theorem tidy_execAmoMax {d a b : Reg} {w sz : Bool} {scope : Scope} (h : Tidy K s) : TidyNext K (execAmoMax d a b w sz scope s) :=
  tidy_runSeq tidy_amoBody h

theorem tidy_execAmoMinn {d a b : Reg} {w sz : Bool} {scope : Scope} (h : Tidy K s) : TidyNext K (execAmoMinn d a b w sz scope s) :=
  tidy_runSeq tidy_amoBody h

theorem tidy_execAmoMaxn {d a b : Reg} {w sz : Bool} {scope : Scope} (h : Tidy K s) : TidyNext K (execAmoMaxn d a b w sz scope s) :=
  tidy_runSeq tidy_amoBody h

theorem tidy_execAmoSwap {d a b : Reg} {w sz : Bool} {scope : Scope} (h : Tidy K s) : TidyNext K (execAmoSwap d a b w sz scope s) :=
  tidy_runSeq tidy_amoBody h

theorem tidy_execAmoFadd {d a b : Reg} {w : Bool} {scope : Scope} (h : Tidy K s) : TidyNext K (execAmoFadd d a b w scope s) :=
  tidy_runSeq tidy_amoBody h

theorem tidy_execAmoFmin {d a b : Reg} {w : Bool} {scope : Scope} (h : Tidy K s) : TidyNext K (execAmoFmin d a b w scope s) :=
  tidy_runSeq tidy_amoBody h

theorem tidy_execAmoFmax {d a b : Reg} {w : Bool} {scope : Scope} (h : Tidy K s) : TidyNext K (execAmoFmax d a b w scope s) :=
  tidy_runSeq tidy_amoBody h

theorem tidy_execAmoBadd {d a b : Reg} {w : Bool} {scope : Scope} (h : Tidy K s) : TidyNext K (execAmoBadd d a b w scope s) :=
  tidy_runSeq tidy_amoBody h

theorem tidy_execCas {d a b : Reg} {w sz : Bool} {scope : Scope} (h : Tidy K s) : TidyNext K (execCas d a b w sz scope s) :=
  tidy_runSeq tidy_casBody h

theorem tidy_execRedAdd {a b : Reg} {w sz ord : Bool} {scope : Scope} (h : Tidy K s) : TidyNext K (execRedAdd a b w sz ord scope s) :=
  tidy_runSeq tidy_redBody h

theorem tidy_execRedAnd {a b : Reg} {w sz ord : Bool} {scope : Scope} (h : Tidy K s) : TidyNext K (execRedAnd a b w sz ord scope s) :=
  tidy_runSeq tidy_redBody h

theorem tidy_execRedOr {a b : Reg} {w sz ord : Bool} {scope : Scope} (h : Tidy K s) : TidyNext K (execRedOr a b w sz ord scope s) :=
  tidy_runSeq tidy_redBody h

theorem tidy_execRedXor {a b : Reg} {w sz ord : Bool} {scope : Scope} (h : Tidy K s) : TidyNext K (execRedXor a b w sz ord scope s) :=
  tidy_runSeq tidy_redBody h

theorem tidy_execRedMin {a b : Reg} {w sz ord : Bool} {scope : Scope} (h : Tidy K s) : TidyNext K (execRedMin a b w sz ord scope s) :=
  tidy_runSeq tidy_redBody h

theorem tidy_execRedMax {a b : Reg} {w sz ord : Bool} {scope : Scope} (h : Tidy K s) : TidyNext K (execRedMax a b w sz ord scope s) :=
  tidy_runSeq tidy_redBody h

theorem tidy_execRedMinn {a b : Reg} {w sz ord : Bool} {scope : Scope} (h : Tidy K s) : TidyNext K (execRedMinn a b w sz ord scope s) :=
  tidy_runSeq tidy_redBody h

theorem tidy_execRedMaxn {a b : Reg} {w sz ord : Bool} {scope : Scope} (h : Tidy K s) : TidyNext K (execRedMaxn a b w sz ord scope s) :=
  tidy_runSeq tidy_redBody h

theorem tidy_execRedFadd {a b : Reg} {w ord : Bool} {scope : Scope} (h : Tidy K s) : TidyNext K (execRedFadd a b w ord scope s) :=
  tidy_runSeq tidy_redBody h

theorem tidy_execRedFmin {a b : Reg} {w ord : Bool} {scope : Scope} (h : Tidy K s) : TidyNext K (execRedFmin a b w ord scope s) :=
  tidy_runSeq tidy_redBody h

theorem tidy_execRedFmax {a b : Reg} {w ord : Bool} {scope : Scope} (h : Tidy K s) : TidyNext K (execRedFmax a b w ord scope s) :=
  tidy_runSeq tidy_redBody h

theorem tidy_execRedBadd {a b : Reg} {w ord : Bool} {scope : Scope} (h : Tidy K s) : TidyNext K (execRedBadd a b w ord scope s) :=
  tidy_runSeq tidy_redBody h

/-! ### Sys2Proof/Machine/Work.lean -/

theorem tidy_removeReady {cl i tag : Nat} (h : Tidy K s) : Tidy K (removeReady cl i tag s) :=
  tidy_refillReady (tidy_onCluster h fun _ hc => hc)

theorem tidy_passOver {p : Partition} {cl n : Nat} (h : Tidy K s) : Tidy K (passOver p cl n s) := by
  unfold passOver
  extract_lets fits pass
  exact tidy_onCluster h fun _ hc => hc

theorem tidy_placeFor {p : Partition} {cl : Nat} (h : Tidy K s) : Tidy K (placeFor p cl s) := by
  unfold placeFor
  extract_lets q
  split
  · exact tidy_startGroup (tidy_removeReady (tidy_passOver h))
  · exact tidy_passOver h

theorem tidy_execGroupPlacement {cluster : Nat} (h : Tidy K s) : TidyNext K (execGroupPlacement cluster s) :=
  .next (.foldl h fun _ _ hs1 => .ite hs1 (tidy_placeFor hs1))

theorem tidy_startQueued {p : Partition} {phys l : Nat} {x : Nat × ReadyEntry × Nat} (h : Tidy K s) :
    Tidy K (startQueued p phys l x s) := by
  unfold startQueued
  extract_lets s1
  have hs1 : Tidy K s1 := tidy_removeReady (tidy_passOver h)
  exact .ite (tidy_startGroup hs1) (tidy_startResumed hs1)

theorem tidy_steal {p : Partition} {phys l : Nat} (h : Tidy K s) : TidySome K (steal p phys l s) := by
  unfold steal
  refine .findSome? fun _ => ?_
  refine .findSome? fun _ => ?_
  refine .bind fun _ => ?_
  refine .map fun _ => ?_
  extract_lets s1 s2
  have hs1 : Tidy K s1 := tidy_onCore h fun _ hc => hc
  have hs2 : Tidy K s2 := tidy_onCore hs1 fun _ hc => hc
  exact tidy_startGroup hs2

theorem tidy_takeForeign {p : Partition} {phys l : Nat} (h : Tidy K s) : TidySome K (takeForeign p phys l s) := by
  unfold takeForeign
  extract_lets xs top
  exact .map fun _ => tidy_startResumed (tidy_removeReady h)

theorem tidy_takeFor {phys : Nat} (h : Tidy K s) : Tidy K (takeFor phys s) := by
  unfold takeFor
  extract_lets c
  split
  · exact h
  · split
    · exact h
    · refine .ite h ?_
      extract_lets q d f qp dp fp
      exact .ite (.ite h (.getD (.orElse (tidy_steal h) (tidy_takeForeign h)) h))
        (.ite (.getD (.map fun _ => tidy_startQueued h) h)
        (.ite (.getD (.map fun _ => tidy_startGroup (tidy_onCore h fun _ hc1 => hc1)) h) (.getD (.map fun _ => tidy_startEvent h) h)))

theorem tidy_execTakeWork {core : Nat} (h : Tidy K s) : TidyNext K (execTakeWork core s) := .next (.ite h (tidy_takeFor h))

theorem tidy_disarm {tag slot : Nat} (h : Tidy K s) : Tidy K (disarm tag slot s) := tidy_homeWrite (tidy_onPart h)

theorem tidy_rejectLaunch {tag slot reason : Nat} {done : Word} {phys : Nat} (h : Tidy K s) :
    Tidy K (rejectLaunch tag slot reason done phys s) := by
  unfold rejectLaunch
  extract_lets clear lost
  have hclear : ∀ (s : State), Tidy K s → Tidy K (clear s) := fun _ hs1 => tidy_disarm (tidy_record hs1)
  refine .ite (hclear _ (tidy_record h)) ?_
  split
  · rename_i s1 he
    exact hclear s1 (KeepsTidy.of_eq he tidy_writeDone h)
  · rename_i he
    exact .same (KeepsTidy.of_stop he tidy_writeDone h) rfl
  · rename_i he
    exact hclear _ (tidy_record (KeepsTidy.of_stop he tidy_writeDone h))

theorem tidy_rootRecord {p : Partition} {phys : Nat} {root : Word} : KeepsTidy K (rootRecord p phys root) := by
  unfold rootRecord
  refine .bind (.attempt tidy_readRecord) fun _ => ?_
  split
  · exact .stall
  · exact .pure
  · extract_lets r
    exact .ite .pure (.ite .pure (.ite .pure .pure))

theorem tidy_judgeSlot {p : Partition} {slot : Nat} {b : List Byte} (h : Tidy K s) : Tidy K (judgeSlot p slot b s) := by
  unfold judgeSlot
  extract_lets done phys
  split
  · exact tidy_rejectLaunch h
  · split
    · rename_i he1
      exact .same (KeepsTidy.of_stop he1 tidy_rootRecord h) rfl
    · rename_i he1
      exact tidy_rejectLaunch (KeepsTidy.of_eq he1 tidy_rootRecord h)
    · rename_i he1
      extract_lets s2
      have hs2 : Tidy K s2 := tidy_onPart (KeepsTidy.of_eq he1 tidy_rootRecord h)
      exact tidy_sweepPart (tidy_runHw tidy_readyRec hs2)

theorem tidy_parseSlot {p : Partition} {slot : Nat} (h : Tidy K s) : Tidy K (parseSlot p slot s) := tidy_judgeSlot (tidy_onPart h)

theorem tidy_redoWork {w : HwWork} (h : Tidy K s) : Tidy K (redoWork w s) := by
  unfold redoWork
  split
  · exact tidy_runHw tidy_hwDecrement h
  · exact tidy_runHw tidy_readyTarget h
  · split
    · exact .ite h (tidy_runHw tidy_completeLaunch h)
    · exact h
  · split
    · exact tidy_judgeSlot h
    · exact h
  · split
    · exact tidy_rejectLaunch h
    · exact h
  · exact h.same rfl

theorem tidy_sweepGroups {tag : Nat} (h : Tidy K s) : Tidy K (sweepGroups tag s) := by
  unfold sweepGroups
  split
  · exact h
  · exact tidy_sweepPart (.foldl h fun _ _ hs1 => tidy_exitGroup hs1)

theorem tidy_redoAll {tags : List Nat} (h : Tidy K s) : Tidy K (redoAll tags s) := by
  unfold redoAll
  extract_lets mine s1
  have hs1 : Tidy K s1 := h.same rfl
  exact .foldl (.foldl hs1 fun _ _ hs2 => tidy_redoWork hs2) fun _ _ hs2 => tidy_sweepGroups hs2

theorem tidy_execLaunchParse {part : Nat} (h : Tidy K s) : TidyNext K (execLaunchParse part s) := by
  unfold execLaunchParse
  extract_lets s1
  have hs1 : Tidy K s1 := tidy_redoAll h
  refine .next ?_
  split
  · exact hs1
  · split
    · exact hs1
    · exact tidy_parseSlot hs1

theorem tidy_execWatchdogExpiry {core : Nat} (h : Tidy K s) : TidyNext K (execWatchdogExpiry core s) := by
  unfold execWatchdogExpiry
  extract_lets c
  exact .next (.ite h (.ite (tidy_tryYield h)
    (.ite (tidy_failTask h) (tidy_tryYield (tidy_onCore (tidy_beginYield h) fun _ hc1 => hc1)))))

theorem tidy_execYieldWaitLimit {core : Nat} (h : Tidy K s) : TidyNext K (execYieldWaitLimit core s) := by
  unfold execYieldWaitLimit
  extract_lets c
  exact .next (.ite (tidy_failTask h) h)

theorem tidy_newQuantum {p : Partition} {c : Core} (hc : CoreTidy K c) : CoreTidy K (newQuantum p c) := by
  unfold newQuantum
  extract_lets wake
  exact hc

theorem tidy_switchPart {phys : Nat} (h : Tidy K s) : Tidy K (switchPart phys s) := by
  unfold switchPart
  extract_lets s1 s2
  have hs1 : Tidy K s1 := tidy_performAll h
  have hs2 : Tidy K s2 := .foldl hs1 fun _ _ hs3 => tidy_stashWriteBack hs3
  refine tidy_onCore hs2 fun _ hc => ?_
  extract_lets c1 next c2
  have hc1 : CoreTidy K c1 := by
    unfold c1
    split
    · exact hc
    · exact hc
  have hc2 : CoreTidy K c2 := hc1
  split
  · exact tidy_newQuantum hc2
  · exact hc2

theorem tidy_execSliceEnd {core : Nat} {next : Option Nat} (h : Tidy K s) : TidyNext K (execSliceEnd core next s) := by
  unfold execSliceEnd
  extract_lets c g
  exact .next (.ite h (tidy_onCore h fun _ hc1 => hc1))

theorem tidy_execGraceExpiry {core : Nat} (h : Tidy K s) : TidyNext K (execGraceExpiry core s) := by
  unfold execGraceExpiry
  extract_lets c
  refine .next ?_
  split
  · exact h
  · exact .ite (.ite h (tidy_switchPart h)) (.ite (tidy_tryYield (tidy_beginYield h)) h)

theorem tidy_execQntExpiry {core : Nat} (h : Tidy K s) : TidyNext K (execQntExpiry core s) := by
  unfold execQntExpiry
  extract_lets c
  exact .next (.ite (tidy_onCore h fun _ hc1 => hc1) h)

theorem tidy_failEntry {e : ReadyEntry} {cause : Nat} (h : Tidy K s) : Tidy K (failEntry e cause s) := by
  unfold failEntry
  extract_lets s1 s2 s3 s4 s5
  have hs1 : Tidy K s1 := tidy_record h
  have hs2 : Tidy K s2 := tidy_onPart hs1
  have hs3 : Tidy K s3 := tidy_popDown (tidy_launchFails hs2)
  have hs4 : Tidy K s4 := by
    unfold s4
    split
    · exact tidy_freeIndex hs3
    · exact hs3
  have hs5 : Tidy K s5 := .ite hs4 (tidy_failGroup (tidy_onGroup hs4))
  exact tidy_sweepPart hs5

theorem tidy_arriveAtEnd {phys : Nat} {cacheable : Bool} {w : Watch} (h : Tidy K s) : Tidy K (arriveAtEnd phys cacheable w s) := by
  unfold arriveAtEnd
  extract_lets gsize s1 v s2 s3
  have hs1 : Tidy K s1 := tidy_readAt h
  have hs2 : Tidy K s2 := tidy_storeAt hs1
  have hs3 : Tidy K s3 := .ite (tidy_onGroup hs2) hs2
  exact .ite (tidy_failEntry hs1) (tidy_installWatch hs3)

theorem tidy_trapAtEnd {e : Stop} (h : Tidy K s) : Tidy K (trapAtEnd e s) := tidy_halt (tidy_onCur h)

theorem tidy_orWait {before : State} {x : Bool × State} (h : Tidy K before) (hx : TidySnd K x) : TidySnd K (orWait before x) :=
  .ite hx (.mk (h.same rfl))

theorem tidy_foldAtEnd {phys ctx : Nat} {op : FoldOp} (h : Tidy allMemory s) : TidySnd allMemory (foldAtEnd phys ctx op s) := by
  unfold foldAtEnd
  refine .ite (.mk h) ?_
  extract_lets here f cur src f1 back
  have hf : Tidy allMemory f := tidy_focusOn h
  have hsrc : CoreTidy allMemory src := hf.core
  have hf1 : Tidy allMemory f1 := ⟨hf.mem, hsrc, hf.others, hf.clusters⟩
  have hback : ∀ (s : State), Tidy allMemory s → Tidy allMemory (back s) := fun _ hs1 => tidy_focusOn (tidy_onCore hs1 fun _ hc => hc)
  split
  · rename_i he
    exact .mk (hback _ (tidy_retire (KeepsTidy.of_eq he (.bind tidy_foldPerform fun _ => tidy_advance) hf1)))
  · rename_i he
    exact .mk (KeepsTidy.of_stop he (.bind tidy_foldPerform fun _ => tidy_advance) hf1)
  · rename_i he
    exact .mk (hback _ (tidy_trapAtEnd (KeepsTidy.of_stop he (.bind tidy_foldPerform fun _ => tidy_advance) hf1)))

theorem tidy_decrementAtEnd {part launch cl phys : Nat} {det : Bool} {addr : Word} {amount : Nat} :
    KeepsTidy K (decrementAtEnd part launch cl phys det addr amount) := by
  unfold decrementAtEnd
  refine .get_bind fun _ _ => ?_
  split
  · exact .pure
  · extract_lets ag
    refine .bind (.attempt tidy_readRecord) fun _ => ?_
    split
    · exact .stall
    · exact .modify fun _ => tidy_hardwareRefused
    · extract_lets r
      refine .ite (.modify fun _ => tidy_hardwareRefused) ?_
      refine .bind (.attempt tidy_decrement) fun _ => ?_
      split
      · exact .pure
      · exact .stall
      · exact .modify fun _ => tidy_hardwareRefused

theorem tidy_actAtEnd {a : Act Unit} (ha : KeepsTidy K a) (h : Tidy K s) : TidySnd K (actAtEnd a s) := by
  unfold actAtEnd
  split
  · rename_i he
    exact .mk (KeepsTidy.of_eq he ha h)
  · rename_i he
    exact .mk (KeepsTidy.of_stop he ha h)
  · rename_i he
    exact .mk (KeepsTidy.of_stop he ha h)

theorem tidy_postAtEndOf {q : Post} (h : Tidy allMemory s) : TidySnd allMemory (postAtEndOf q s) := by
  unfold postAtEndOf
  extract_lets answer
  have hanswer : ∀ (st : Nat) (s : State), Tidy allMemory s → Tidy allMemory (answer st s) := fun _ _ hs1 => hs1.same rfl
  split
  · exact .mk (hanswer _ s h)
  · split
    · rename_i st s1 he1
      exact .mk (hanswer st s1 (KeepsTidy.of_eq he1 tidy_applyPost h))
    · rename_i he1
      exact .mk (KeepsTidy.of_stop he1 tidy_applyPost h)
    · rename_i s1 _ he1
      exact .mk (hanswer _ s1 (KeepsTidy.of_stop he1 tidy_applyPost h))

theorem tidy_deliverAll {part : Nat} : ∀ {l : List RemoteWrite} {blocked : List Nat} {s : State}, Tidy K s →
    Tidy K (deliverAll part l blocked s)
  | [], _, _, h => h
  | w :: rest, blocked, s, h => by
    unfold deliverAll
    refine .ite (tidy_deliverAll (h.same rfl)) ?_
    refine .ite (tidy_deliverAll (h.same rfl)) ?_
    split
    · exact tidy_deliverAll h
    · exact .ite (tidy_deliverAll (tidy_deliverRemote h)) (tidy_deliverAll (h.same rfl))

theorem tidy_landMessages {part : Nat} : ∀ {n : Nat} {s : State}, Tidy K s → Tidy K (landMessages part n s)
  | 0, _, h => h
  | n + 1, s, h => by
    unfold landMessages
    split
    · exact h
    · split
      · exact h
      · split
        rename_i he
        exact tidy_landMessages (tidy_answerSender (TidySnd.of_eq he (tidy_placeMessage (h.same rfl))))

theorem tidy_landRemotes {part : Nat} (h : Tidy K s) : Tidy K (landRemotes part s) := tidy_deliverAll (h.same rfl)

theorem tidy_roundAtEnd {part lcore phys tree : Nat} (h : Tidy K s) : TidySnd K (roundAtEnd part lcore phys tree s) := by
  unfold roundAtEnd
  split
  · exact .mk h
  · exact .ite (.mk (tidy_askHosts h)) (.mk (tidy_completeRound h))

theorem tidy_awaitArrival {cacheable : Bool} {w : Watch} : KeepsTidy K (awaitArrival cacheable w) := by
  unfold awaitArrival
  split
  · exact .ite .pure tidy_awaitHost
  · exact .pure

theorem tidy_applyHeld {part lcore phys : Nat} {q : HeldReq} (h : Tidy allMemory s) :
    TidySnd allMemory (applyHeld part lcore phys q s) := by
  unfold applyHeld
  extract_lets cl
  split
  · exact .ite (tidy_actAtEnd tidy_readyRec h) (.mk (tidy_readyContinuation h))
  · exact tidy_actAtEnd tidy_pushEntry h
  · exact tidy_actAtEnd tidy_decrementAtEnd h
  · exact tidy_foldAtEnd h
  · exact .mk (tidy_landRemotes (tidy_sendRemote h))
  · exact .mk (tidy_landMessages (tidy_sendMsg h))
  · exact .mk (tidy_consume h)
  · exact tidy_roundAtEnd h
  · exact tidy_postAtEndOf h
  · exact .mk (tidy_freeIndex h)
  · exact .mk (tidy_putPartReg h)
  · exact tidy_actAtEnd (.bind tidy_awaitArrival fun _ => .modify fun _ => tidy_arriveAtEnd) h
  · exact .mk (tidy_onCluster h fun _ _ => tidy_anyCluster)
  · exact .mk (tidy_installWatch h)

theorem tidy_applyAll {part : Nat} : ∀ {n : Nat} {s : State}, Tidy allMemory s → TidySnd allMemory (applyAll part n s)
  | 0, _, h => .mk h
  | n + 1, s, h => by
    unfold applyAll
    split
    · exact .mk h
    · split
      · exact .mk h
      · have hgo {l phys : Nat} {q : HeldReq} {rest : List (Nat × HeldReq)} :
            TidySnd allMemory (applyHeld part l phys q (onCore phys (fun c => { c with held := rest }) s)) :=
          tidy_applyHeld (tidy_onCore h fun _ hc => hc)
        extract_lets go
        split
        · rename_i he
          exact tidy_applyAll (TidySnd.of_eq he (tidy_orWait h hgo))
        · exact tidy_orWait h hgo

theorem tidy_performIssued {p : Partition} (h : Tidy K s) : TidySnd K (performIssued p s) := by
  unfold performIssued
  extract_lets all
  split
  · rename_i he
    exact .mk (KeepsTidy.of_stop he (.forM fun _ => tidy_awaitPend) h)
  · rename_i he
    exact .mk (.foldl (KeepsTidy.of_eq he (.forM fun _ => tidy_awaitPend) h) fun _ _ hs2 => tidy_performAll hs2)

theorem tidy_landPosts {part : Nat} : ∀ {n : Nat} {s : State}, Tidy allMemory s → TidySnd allMemory (landPosts part n s)
  | 0, _, h => .mk h
  | n + 1, s, h => by
    unfold landPosts
    split
    · exact .mk h
    · split
      · rename_i he
        exact tidy_landPosts (TidySnd.of_eq he (tidy_orWait h (tidy_postAtEndOf (h.same rfl))))
      · exact tidy_orWait h (tidy_postAtEndOf (h.same rfl))

theorem tidy_landThresholds {part : Nat} : ∀ {n : Nat} {s : State}, Tidy K s → Tidy K (landThresholds part n s)
  | 0, _, h => h
  | n + 1, s, h => by
    unfold landThresholds
    split
    · exact h
    · split
      · exact h
      · exact tidy_landThresholds (tidy_landThreshold h)

theorem tidy_startHelpers {phys : Nat} : ∀ {n : Nat} {s : State}, Tidy K s → Tidy K (startHelpers phys n s)
  | 0, _, h => h
  | n + 1, s, h => by
    unfold startHelpers
    split
    · rename_i he
      exact tidy_startHelpers (tidy_setCore h (tidy_startRequest (tidy_coreAt h) he))
    · exact h

theorem tidy_replayAll {p : Partition} (h : Tidy allMemory s) : TidySnd allMemory (replayAll p s) := by
  unfold replayAll
  extract_lets ready
  have hready : KeepsTidy allMemory ready := .foldlM fun _ _ => .foldlM fun _ _ => .bind tidy_spillReady fun _ => .pure
  split
  · rename_i he
    exact .mk (.foldl (KeepsTidy.of_eq he hready h) fun _ _ hs2 => tidy_replayStore hs2)
  · rename_i he
    exact .mk (KeepsTidy.of_eq he hready h)
  · rename_i he
    exact .mk (KeepsTidy.of_stop he hready h)

theorem tidy_watchesAtEnd {p : Partition} (h : Tidy K s) : Tidy K (watchesAtEnd p s) := by
  unfold watchesAtEnd
  extract_lets mine inTable hit s1 s2 lc s3
  have hs1 : Tidy K s1 := ⟨h.mem, h.core, h.others, tidy_clusterMap h.clusters (fun _ hk => hk)⟩
  have hs2 : Tidy K s2 := tidy_onPart hs1
  have hs3 : Tidy K s3 := .foldl hs2 fun _ _ hs4 => tidy_readyContinuation hs4
  exact .foldl hs3 fun _ _ hs4 => tidy_refillWatches hs4

theorem tidy_endQuantum {p : Partition} (h : Tidy allMemory s) : TidySnd allMemory (endQuantum p s) := by
  unfold endQuantum
  extract_lets s1
  have hs1 : Tidy allMemory s1 := tidy_landMessages (tidy_landRemotes h)
  split
  · rename_i he
    exact .mk (TidySnd.of_eq he (tidy_performIssued hs1))
  · rename_i he
    split
    · rename_i he1
      exact .mk (TidySnd.of_eq he1 (tidy_landPosts (tidy_landThresholds (TidySnd.of_eq he (tidy_performIssued hs1)))))
    · rename_i he1
      split
      · rename_i he2
        exact .mk (TidySnd.of_eq he2 (tidy_applyAll
          (TidySnd.of_eq he1 (tidy_landPosts (tidy_landThresholds (TidySnd.of_eq he (tidy_performIssued hs1)))))))
      · rename_i he2
        split
        · rename_i he3
          exact .mk (TidySnd.of_eq he3 (tidy_replayAll
            (tidy_landRemotes (TidySnd.of_eq he2
            (tidy_applyAll (TidySnd.of_eq he1 (tidy_landPosts (tidy_landThresholds (TidySnd.of_eq he (tidy_performIssued hs1))))))))))
        · rename_i he3
          split
          · exact .mk (TidySnd.of_eq he3 (tidy_replayAll
              (tidy_landRemotes (TidySnd.of_eq he2
              (tidy_applyAll (TidySnd.of_eq he1 (tidy_landPosts (tidy_landThresholds (TidySnd.of_eq he (tidy_performIssued hs1))))))))))
          · rename_i he4
            exact .mk (TidySomeSnd.of_eq he4
              (.map fun _ => tidy_orWait (TidySnd.of_eq he3
              (tidy_replayAll (tidy_landRemotes
              (TidySnd.of_eq he2 (tidy_applyAll
              (TidySnd.of_eq he1 (tidy_landPosts (tidy_landThresholds (TidySnd.of_eq he (tidy_performIssued hs1))))))))))
              (.mk (tidy_topsAtEnd (TidySnd.of_eq he3
              (tidy_replayAll (tidy_landRemotes
              (TidySnd.of_eq he2 (tidy_applyAll
              (TidySnd.of_eq he1 (tidy_landPosts (tidy_landThresholds (TidySnd.of_eq he (tidy_performIssued hs1))))))))))))))
          · rename_i he4
            extract_lets s7
            have hs7 : Tidy allMemory s7 := .foldl
              (TidySomeSnd.of_eq he4 (.map fun _ => tidy_orWait
              (TidySnd.of_eq he3 (tidy_replayAll
              (tidy_landRemotes (TidySnd.of_eq he2
              (tidy_applyAll (TidySnd.of_eq he1
              (tidy_landPosts (tidy_landThresholds (TidySnd.of_eq he (tidy_performIssued hs1))))))))))
              (.mk (tidy_topsAtEnd (TidySnd.of_eq he3
              (tidy_replayAll (tidy_landRemotes
              (TidySnd.of_eq he2 (tidy_applyAll
              (TidySnd.of_eq he1 (tidy_landPosts (tidy_landThresholds (TidySnd.of_eq he (tidy_performIssued hs1))))))))))))))
              fun _ _ hs8 => tidy_startHelpers hs8
            exact .mk (tidy_sweepLaunches (tidy_sweepGroups (tidy_watchesAtEnd hs7)))

theorem tidy_beginQuantum {tag : Nat} (h : Tidy K s) : Tidy K (beginQuantum tag s) := by
  unfold beginQuantum
  extract_lets s1
  have hs1 : Tidy K s1 := tidy_onPart h
  split
  · exact hs1
  · extract_lets cores s2 s3
    have hs2 : Tidy K s2 := .foldl hs1 fun _ _ hs4 => tidy_takeFor hs4
    have hs3 : Tidy K s3 := .foldl hs2 fun _ _ hs4 => tidy_passOver hs4
    refine .foldl hs3 fun _ _ hs4 => ?_
    split
    · exact tidy_onCore hs4 fun _ => tidy_newQuantum
    · exact hs4

/-! ### Sys2Proof/Machine/Bank.lean -/

theorem tidy_execBankRetentionEntry {bank : Nat} (h : Tidy K s) : TidyNext K (execBankRetentionEntry bank s) := by
  unfold execBankRetentionEntry
  extract_lets k
  exact .next (.ite (tidy_onBank (h.same rfl)) h)

theorem tidy_execWakeSlotGrant {die : Nat} (h : Tidy K s) : TidyNext K (execWakeSlotGrant die s) := by
  unfold execWakeSlotGrant
  refine .next ?_
  refine .ite h ?_
  split
  · exact h
  · extract_lets s1
    have hs1 : Tidy K s1 := h.same rfl
    exact .ite hs1 (tidy_onBank hs1)

theorem tidy_execBankWakeComplete {bank : Nat} (h : Tidy K s) : TidyNext K (execBankWakeComplete bank s) := by
  unfold execBankWakeComplete
  refine .next ?_
  split
  · exact h
  · refine .ite h ?_
    extract_lets s1
    have hs1 : Tidy K s1 := tidy_activate (h.same rfl)
    exact .ite hs1 (tidy_nextInLine hs1)

theorem tidy_execBankPowerDownComplete {bank : Nat} (h : Tidy K s) : TidyNext K (execBankPowerDownComplete bank s) :=
  .next (.ite (tidy_onBank h) h)

theorem tidy_settleCore {phys : Nat} (h : Tidy K s) : Tidy K (settleCore phys s) := by
  unfold settleCore
  extract_lets s1 s2 mine s3
  have hs1 : Tidy K s1 := tidy_performAll h
  have hs2 : Tidy K s2 := .foldl hs1 fun _ _ hs4 => tidy_stashWriteBack hs4
  have hs3 : Tidy K s3 := hs2.same rfl
  exact tidy_onCore hs3 fun _ hc => hc

theorem tidy_execClusterRetentionEntry {cluster : Nat} (h : Tidy allMemory s) :
    TidyNext allMemory (execClusterRetentionEntry cluster s) := by
  unfold execClusterRetentionEntry
  extract_lets lines s1 s2
  have hs1 : Tidy allMemory s1 := .foldl h fun _ _ hs3 => tidy_settleCore hs3
  have hs2 : Tidy allMemory s2 := .foldl hs1 fun _ _ hs3 => tidy_dropLine hs3
  exact .next (.ite h (.ite (.foldl h fun _ _ hs3 => tidy_backInvalidate hs3) (tidy_onCluster hs2 fun _ _ => tidy_anyCluster)))

theorem tidy_loseSlots {cl : Nat} {p : Partition} (h : Tidy K s) : Tidy K (loseSlots cl p s) := by
  unfold loseSlots
  extract_lets c
  refine .foldl h fun _ _ hs1 => ?_
  extract_lets lost tasks s2
  have hs2 : Tidy K s2 := tidy_onPart (tidy_record hs1)
  exact .ite hs1 (.ite hs2 (tidy_launchFails hs2))

theorem tidy_scrubCluster {cl : Nat} (h : Tidy K s) : Tidy K (scrubCluster cl s) := by
  unfold scrubCluster
  extract_lets s1 s2
  have hs1 : Tidy K s1 := tidy_onCluster h fun _ _ => fun _ => ⟨rfl, rfl⟩
  have hs2 : Tidy K s2 := .foldl hs1 fun _ _ hs3 => .foldl hs3 fun _ _ hs4 => tidy_dropAlloc hs4
  exact tidy_mapCores hs2 fun _ hc => .ite hc hc

theorem tidy_execClusterRetentionExit {cluster : Nat} {lost : Bool} (h : Tidy K s) :
    TidyNext K (execClusterRetentionExit cluster lost s) := by
  unfold execClusterRetentionExit
  refine .next (.ite h (.ite (tidy_onCluster h fun _ hk hid => ⟨(hk hid).1, rfl⟩) ?_))
  extract_lets es here s1 s2 s3 s4
  have hs1 : Tidy K s1 := tidy_record h
  have hs2 : Tidy K s2 := .foldl hs1 fun _ _ h => tidy_loseSlots h
  have hs3 : Tidy K s3 := tidy_scrubCluster (hs2.same rfl)
  have hs4 : Tidy K s4 := .foldl hs3 fun _ _ h => tidy_failEntry h
  exact .foldl hs4 fun _ _ h => tidy_sweepPart h

/-! ### Sys2Proof/Machine/Sys.lean -/

theorem tidy_trapBody {cause : BitVec 8} {a : Reg} {wa : Bool} : KeepsTidy K (trapBody cause a wa) :=
  .bind tidy_readS fun _ => .bind (.modify fun _ => tidy_noteTurn) fun _ => .get_bind fun _ _ => .bind tidy_takeTrap fun _ => .throw

theorem tidy_execTrap {a : Reg} {wa : Bool} (h : Tidy K s) : TidyNext K (execTrap a wa s) := tidy_runJump tidy_trapBody h

theorem tidy_execSvc {a : Reg} {wa : Bool} (h : Tidy K s) : TidyNext K (execSvc a wa s) := tidy_runJump tidy_trapBody h

theorem tidy_execBrk (h : Tidy K s) : TidyNext K (execBrk s) :=
  tidy_runJump (.bind (.modify fun _ => tidy_noteTurn) fun _ => .get_bind fun _ _ => .bind tidy_takeTrap fun _ => .throw) h

theorem tidy_invalidateTranslations {part kind : Nat} {a : Word} (h : Tidy K s) : Tidy K (invalidateTranslations part kind a s) := by
  unfold invalidateTranslations
  extract_lets keep s1 s2 s3
  have hs1 : Tidy K s1 := .foldl h fun _ _ hs4 => tidy_performAll hs4
  have hs2 : Tidy K s2 := .foldl hs1 fun _ _ hs4 => .foldl hs4 fun _ _ hs5 => tidy_stashWriteBack hs5
  have hs3 : Tidy K s3 := tidy_mapCores hs2 fun _ hc => hc
  exact ⟨hs3.mem, hs3.core, hs3.others, tidy_clusterMap hs3.clusters (fun _ hk => hk)⟩

theorem tidy_tlbinvAct {a b : Word} : KeepsTidy K (tlbinvAct a b) := by
  unfold tlbinvAct
  refine .get_bind fun _ hs => ?_
  extract_lets ag kind jp jp1 jp2 jp3 jp4
  have hjp : ∀ (x : Unit), KeepsTidy K (jp x) := fun _ => .modify fun _ => tidy_invalidateTranslations
  have hjp1 : ∀ (x : Unit), KeepsTidy K (jp1 x) := fun _ => .ite
    (.bind (.set (.foldl hs fun _ _ hs1 => tidy_backInvalidate hs1)) fun _ => .bind .stall fun _ => hjp ()) (hjp ())
  have hjp2 : ∀ (x : Unit), KeepsTidy K (jp2 x) := fun _ => .bind tidy_fenceAct fun _ => .ite (.bind .stall fun _ => hjp1 ()) (hjp1 ())
  have hjp3 : ∀ (x : Unit), KeepsTidy K (jp3 x) := fun _ => .ite (.bind .trap fun _ => hjp2 ()) (hjp2 ())
  have hjp4 : ∀ (x : Unit), KeepsTidy K (jp4 x) := fun _ => .ite (.bind .trap fun _ => hjp3 ()) (hjp3 ())
  exact .ite (.bind .trap fun _ => hjp4 ()) (hjp4 ())

theorem tidy_execTlbinv {a b : Reg} {wa wb : Bool} (h : Tidy K s) : TidyNext K (execTlbinv a b wa wb s) :=
  tidy_runSeq (.bind tidy_readS fun _ => .bind tidy_readS fun _ => tidy_tlbinvAct) h

/-! ### Sys2Proof/Machine/Host.lean -/

theorem tidy_replyCore {hit : Nat → Bool} {kinds : Nat} {ok : Bool} {c : Core} (hc : CoreTidy K c) :
    CoreTidy K (replyCore hit kinds ok c) :=
  hc

theorem tidy_redoFunc {vf : Nat} (h : Tidy K s) : Tidy K (redoFunc vf s) := tidy_redoAll h

theorem tidy_replyAll {vf : Nat} {hit : Nat → Bool} {kinds : Nat} {ok : Bool} (h : Tidy K s) : Tidy K (replyAll vf hit kinds ok s) := by
  unfold replyAll
  extract_lets tags
  exact tidy_mapCores h fun _ hc => .ite (tidy_replyCore hc) hc

theorem tidy_staleReply {vf slot gen : Nat} (h : Tidy K s) : Tidy K (staleReply vf slot gen s) := tidy_record h

theorem tidy_replyOne {vf slot gen : Nat} {ok : Bool} (h : Tidy K s) : Tidy K (replyOne vf slot gen ok s) := by
  unfold replyOne
  split
  · exact tidy_staleReply h
  · extract_lets s1
    have hs1 : Tidy K s1 := tidy_onFunc h
    exact tidy_redoFunc (tidy_replyAll hs1)

theorem tidy_execPageReplySuccess {vf slot gen : Nat} (h : Tidy K s) : TidyNext K (execPageReplySuccess vf slot gen s) :=
  .next (tidy_replyOne h)

theorem tidy_execPageReplyInvalidRequest {vf slot gen : Nat} (h : Tidy K s) : TidyNext K (execPageReplyInvalidRequest vf slot gen s) :=
  .next (tidy_replyOne h)

theorem tidy_abandonRequests {vf : Nat} (h : Tidy K s) : Tidy K (abandonRequests vf s) := by
  unfold abandonRequests
  extract_lets s1
  have hs1 : Tidy K s1 := tidy_onFunc h
  exact tidy_replyAll hs1

theorem tidy_execPageReplyResponseFailure {vf slot gen : Nat} (h : Tidy K s) :
    TidyNext K (execPageReplyResponseFailure vf slot gen s) := by
  unfold execPageReplyResponseFailure
  refine .next ?_
  split
  · exact tidy_staleReply h
  · exact tidy_redoFunc (tidy_onFunc (tidy_abandonRequests h))

theorem tidy_newGeneration {vf : Nat} (h : Tidy K s) : Tidy K (newGeneration vf s) := by
  unfold newGeneration
  extract_lets s1 g
  have hs1 : Tidy K s1 := tidy_onFunc (tidy_abandonRequests h)
  exact hs1.same rfl

theorem tidy_execFunctionReset {vf : Nat} (h : Tidy K s) : TidyNext K (execFunctionReset vf s) :=
  .next (tidy_redoFunc (tidy_newGeneration h))

theorem tidy_execHostStage2Invalidation {part : Nat} {ipa : Option (BitVec 64)} (h : Tidy K s) :
    TidyNext K (execHostStage2Invalidation part ipa s) := by
  unfold execHostStage2Invalidation
  extract_lets lines kind
  exact .next (.ite h (.ite (.foldl h fun _ _ hs1 => tidy_backInvalidate hs1) (tidy_invalidateTranslations h)))

theorem tidy_failProxies {phys n : Nat} {die : Fin 4} (h : Tidy K s) : Tidy K (failProxies phys n die s) := by
  unfold failProxies
  extract_lets l mine
  exact .foldl (tidy_setProxies h) fun _ _ hs1 => tidy_trapProxy hs1

theorem tidy_failTrees {phys : Nat} {p : Partition} (h : Tidy K s) : Tidy K (failTrees phys p s) := by
  unfold failTrees
  split
  · exact h
  · exact .foldl h fun _ _ hs1 => tidy_failTree hs1

theorem tidy_execLinkRetryExhausted {flow : Nat × Option Nat} (h : Tidy K s) : TidyNext K (execLinkRetryExhausted flow s) := by
  unfold execLinkRetryExhausted
  extract_lets core
  refine .next ?_
  split
  · exact .getD (.map fun _ => tidy_failTrees h) h
  · extract_lets lost s1 s2
    have hs1 : Tidy K s1 := tidy_onCore h fun _ hc => hc
    have hs2 : Tidy K s2 := .foldl hs1 fun _ _ hs3 => tidy_deferTrap hs3
    exact .foldl hs2 fun _ _ hs3 => tidy_failProxies hs3

theorem tidy_ejected {tag pa : Nat} (h : Tidy K s) : Tidy K (ejected tag pa s) := tidy_record h

theorem tidy_wakeBank {pa : Nat} (h : Tidy K s) : Tidy K (wakeBank pa s) := .ite (tidy_enterDie (tidy_wakeNow h)) h

theorem tidy_execBackInvalidationAck {line : Nat} (h : Tidy K s) : TidyNext K (execBackInvalidationAck line s) := by
  unfold execBackInvalidationAck
  refine .next ?_
  refine .ite h ?_
  extract_lets s1
  have hs1 : Tidy K s1 := h.same rfl
  refine tidy_redoAll ?_
  refine .foldl hs1 fun _ _ hs2 => ?_
  split
  · exact hs2
  · split
    · exact hs2
    · exact tidy_performPend (tidy_onCore hs2 fun _ hc => hc)

theorem tidy_dropCopies {line : Nat} (h : Tidy K s) : Tidy K (dropCopies line s) :=
  .foldl h fun _ _ hs1 => tidy_dropLine (tidy_recallStash hs1)

theorem tidy_execHostSnoop {pa : Nat} {bytes : List (BitVec 8)} (h : Tidy K s) : TidyNext K (execHostSnoop pa bytes s) :=
  .next (.ite h (tidy_homeWriteBytes (tidy_reachHome (tidy_dropCopies h))))

theorem tidy_execCxlMemWrite {place : Nat × Nat} {bytes : List (BitVec 8)} (h : Tidy K s) :
    TidyNext K (execCxlMemWrite place bytes s) := by
  unfold execCxlMemWrite
  split
  exact .next (.ite h (.ite (tidy_ejected h)
    (.ite h (.ite (tidy_backInvalidate h) (.ite (tidy_errorRecorded (tidy_wakeBank h)) (tidy_homeWriteBytes (tidy_wakeBank h)))))))

theorem tidy_readOutside {tag pa : Nat} (h : Tidy K s) : Tidy K (readOutside tag pa s) := .ite (tidy_errorRecorded h) h

theorem tidy_execCxlMemRead {place : Nat × Nat} (h : Tidy K s) : TidyNext K (execCxlMemRead place s) := by
  unfold execCxlMemRead
  split
  refine .next ?_
  refine .ite (tidy_ejected h) ?_
  refine .ite h ?_
  refine .ite (tidy_backInvalidate h) ?_
  extract_lets s1
  have hs1 : Tidy K s1 := tidy_readOutside (tidy_reachHome (tidy_wakeBank h))
  exact .ite (hs1.same rfl) hs1

theorem tidy_remoteAccess {tag pa kind : Nat} {bytes : List Byte} (h : Tidy K s) : Tidy K (remoteAccess tag pa kind bytes s) := by
  unfold remoteAccess
  extract_lets line s1 n v old
  have hs1 : Tidy K s1 := tidy_reachHome (tidy_wakeBank h)
  exact .ite (tidy_readOutside hs1)
    (.ite (.ite (tidy_errorRecorded hs1) (tidy_homeWriteBytes hs1)) (.ite (tidy_errorRecorded hs1) (tidy_homeWriteBytes hs1)))

theorem tidy_execBolmorRemoteAccess {tag pa kind : Nat} {bytes : List (BitVec 8)} (h : Tidy K s) :
    TidyNext K (execBolmorRemoteAccess tag pa kind bytes s) :=
  .next (.ite h (.ite (tidy_ejected h) (.ite h (.ite (tidy_backInvalidate h) (tidy_remoteAccess h)))))

/-! ### Sys2Proof/Machine/Regs.lean -/

theorem tidy_serveWith {die : Nat} {test : ProxyReq → Bool} {f : ProxyReq → State → Served × State}
    (hf : ∀ (a : ProxyReq) (a_1 : State), Tidy K a_1 → TidySnd K (f a a_1)) (h : Tidy K s) : Tidy K (serveWith die test f s) := by
  unfold serveWith
  refine .dite (fun _ => ?_) fun _ => h
  split
  · exact h
  · rename_i q _ _
    split
    · rename_i he1
      exact TidySnd.of_eq he1 (hf q s h)
    · rename_i he1
      exact tidy_answerProxy (tidy_setProxies (TidySnd.of_eq he1 (hf q s h)))
    · rename_i he1
      exact tidy_trapProxy (tidy_setProxies (TidySnd.of_eq he1 (hf q s h)))

theorem tidy_refuse {einfo : Nat} (h : Tidy K s) : TidySnd K (refuse einfo s) := .mk h

theorem tidy_readBlock {q : ProxyReq} (h : Tidy K s) : TidySnd K (readBlock q s) := by
  unfold readBlock
  extract_lets off
  clear_value off
  split
  · exact tidy_refuse h
  · refine .ite (.mk h) (.ite (.mk h) (.ite (.mk h) ?_))
    split
    iterate 5 exact .mk h
    exact tidy_refuse h

theorem tidy_execProxyAtomicService {die lane : Nat} (h : Tidy K s) : TidyNext K (execProxyAtomicService die lane s) := by
  unfold execProxyAtomicService
  refine .next ?_
  refine .dite (fun _ => ?_) fun _ => h
  split
  · exact h
  · exact .ite h (.ite (tidy_serveProxy (tidy_setProxies h)) (.ite h (tidy_serveWith (fun _ _ ha1 => tidy_readBlock ha1) h)))

theorem tidy_putStash {phys : Nat} {e : StashEntry} (h : Tidy K s) : Tidy K (putStash phys e s) := tidy_onCore h fun _ hc => hc

theorem tidy_emptyStash {phys : Nat} {e : StashEntry} (h : Tidy K s) : Tidy K (emptyStash phys e s) :=
  .foldl h fun _ _ hs1 => tidy_stashWriteBack hs1

theorem tidy_swapStashA {q : ProxyReq} (h : Tidy K s) : TidySnd K (swapStashA q s) := by
  unfold swapStashA
  extract_lets old new
  exact .ite (.ite (.mk (tidy_putStash (tidy_emptyStash h))) (tidy_refuse h)) (.mk (tidy_putStash (tidy_emptyStash h)))

theorem tidy_execStashEntryASwap {die : Nat} (h : Tidy K s) : TidyNext K (execStashEntryASwap die s) :=
  .next (tidy_serveWith (fun _ _ ha1 => tidy_swapStashA ha1) h)

theorem tidy_swapStashB {q : ProxyReq} (h : Tidy K s) : TidySnd K (swapStashB q s) := by
  unfold swapStashB
  extract_lets old
  exact .ite (tidy_refuse h) (.mk (tidy_putStash h))

theorem tidy_execStashEntryBSwap {die : Nat} (h : Tidy K s) : TidyNext K (execStashEntryBSwap die s) :=
  .next (tidy_serveWith (fun _ _ ha1 => tidy_swapStashB ha1) h)

theorem tidy_putTree {part : Nat} {t : Tree} (h : Tidy K s) : Tidy K (putTree part t s) := tidy_onPart h

theorem tidy_readLeaves {q : ProxyReq} {list : Word} {n : Nat} : KeepsTidy K (readLeaves q list n) := .bind tidy_readMem fun _ => .pure

theorem tidy_swapTree {q : ProxyReq} (h : Tidy K s) : TidySnd K (swapTree q s) := by
  unfold swapTree
  split
  · exact tidy_refuse h
  · extract_lets t n t0
    refine .ite (.mk (tidy_putTree h)) ?_
    refine .ite (tidy_refuse h) ?_
    split
    · rename_i he1
      exact .mk (KeepsTidy.of_stop he1 tidy_readLeaves h)
    · rename_i he1
      exact tidy_refuse (KeepsTidy.of_stop he1 tidy_readLeaves h)
    · rename_i he1
      exact .ite (tidy_refuse (KeepsTidy.of_eq he1 tidy_readLeaves h))
        (.mk (tidy_putTree (tidy_endRounds (KeepsTidy.of_eq he1 tidy_readLeaves h))))

theorem tidy_execTreeT0Swap {die : Nat} (h : Tidy K s) : TidyNext K (execTreeT0Swap die s) :=
  .next (tidy_serveWith (fun _ _ ha1 => tidy_swapTree ha1) h)

theorem tidy_swapMonitor {q : ProxyReq} (h : Tidy K s) : TidySnd K (swapMonitor q s) := by
  unfold swapMonitor
  extract_lets cl i u old config src new
  exact .ite (tidy_refuse h) (.mk (tidy_onCluster h fun _ hc => hc))

theorem tidy_execMonitorConfigSwap {die : Nat} (h : Tidy K s) : TidyNext K (execMonitorConfigSwap die s) :=
  .next (tidy_serveWith (fun _ _ ha1 => tidy_swapMonitor ha1) h)

theorem tidy_swapRuntime {ok : Word → Bool} {read : Partition → Word} {write : ProxyReq → Partition → State → Served × State}
    {q : ProxyReq} (hwrite : ∀ (a : ProxyReq) (a_1 : Partition) (a_2 : State), Tidy K a_2 → TidySnd K (write a a_1 a_2)) (h : Tidy K s)
    : TidySnd K (swapRuntime ok read write q s) := by
  unfold swapRuntime
  split
  · exact tidy_refuse h
  · rename_i p _
    refine .ite (.mk h) ?_
    refine .ite (tidy_refuse h) ?_
    split
    · rename_i he1
      exact .mk (TidySnd.of_eq he1 (hwrite q p s h))
    · exact hwrite q p s h

theorem tidy_putHbase {q : ProxyReq} {x : Partition} (h : Tidy K s) : TidySnd K (putHbase q x s) := .mk (tidy_onPart h)

theorem tidy_execHbaseSwap {die : Nat} (h : Tidy K s) : TidyNext K (execHbaseSwap die s) :=
  .next (tidy_serveWith (fun _ _ ha1 => tidy_swapRuntime (fun _ _ _ ha4 => tidy_putHbase ha4) ha1) h)

theorem tidy_putOvfbase {q : ProxyReq} {p : Partition} (h : Tidy K s) : TidySnd K (putOvfbase q p s) :=
  .ite (tidy_refuse h) (.mk (tidy_onPart h))

theorem tidy_execOvfbaseSwap {die : Nat} (h : Tidy K s) : TidyNext K (execOvfbaseSwap die s) :=
  .next (tidy_serveWith (fun _ _ ha1 => tidy_swapRuntime (fun _ _ _ ha4 => tidy_putOvfbase ha4) ha1) h)

theorem tidy_putOvfsize {q : ProxyReq} {p : Partition} (h : Tidy K s) : TidySnd K (putOvfsize q p s) :=
  .ite (tidy_refuse h) (.mk (tidy_onPart h))

theorem tidy_execOvfsizeSwap {die : Nat} (h : Tidy K s) : TidyNext K (execOvfsizeSwap die s) :=
  .next (tidy_serveWith (fun _ _ ha1 => tidy_swapRuntime (fun _ _ _ ha4 => tidy_putOvfsize ha4) ha1) h)

theorem tidy_afterInvalidation {q : ProxyReq} {f : State → State} (hf : ∀ (a : State), Tidy K a → Tidy K (f a)) (h : Tidy K s) :
    TidySnd K (afterInvalidation q f s) := by
  unfold afterInvalidation
  extract_lets part lines
  exact .ite (.mk h) (.ite (.mk (.foldl h fun _ _ hs1 => tidy_backInvalidate hs1)) (.mk (hf _ (tidy_invalidateTranslations h))))

theorem tidy_putS1root {q : ProxyReq} {x : Partition} (h : Tidy K s) : TidySnd K (putS1root q x s) :=
  tidy_afterInvalidation (fun _ => tidy_onPart) h

theorem tidy_execS1rootSwap {die : Nat} (h : Tidy K s) : TidyNext K (execS1rootSwap die s) :=
  .next (tidy_serveWith (fun _ _ ha1 => tidy_swapRuntime (fun _ _ _ ha4 => tidy_putS1root ha4) ha1) h)

theorem tidy_putS1attr {q : ProxyReq} {x : Partition} (h : Tidy K s) : TidySnd K (putS1attr q x s) :=
  tidy_afterInvalidation (fun _ => tidy_onPart) h

theorem tidy_execS1attrSwap {die : Nat} (h : Tidy K s) : TidyNext K (execS1attrSwap die s) :=
  .next (tidy_serveWith (fun _ _ ha1 => tidy_swapRuntime (fun _ _ _ ha4 => tidy_putS1attr ha4) ha1) h)

theorem tidy_swapOther {q : ProxyReq} (h : Tidy K s) : TidySnd K (swapOther q s) := by
  unfold swapOther
  split
  · exact tidy_refuse h
  · refine .ite ?_ (.ite (tidy_refuse h) (tidy_refuse h))
    extract_lets t
    exact .mk (tidy_putTree h)

theorem tidy_execPartitionRegisterWrite {die : Nat} (h : Tidy K s) : TidyNext K (execPartitionRegisterWrite die s) :=
  .next (tidy_serveWith (fun _ _ ha1 => tidy_swapOther ha1) h)

/-! ### Sys2Proof/Machine/Audit.lean -/

theorem tidy_measure {i : Fin 8} {item : List Byte} (h : Tidy K s) : Tidy K (measure i item s) := h.same rfl

theorem tidy_auditPut {r : AuditRec} (h : Tidy K s) : Tidy K (auditPut r s) := by
  unfold auditPut
  exact ⟨h.mem, h.core, h.others, h.clusters⟩

theorem tidy_freeData (h : Tidy K s) : TidySnd K (freeData s) := .mk (h.same rfl)

theorem tidy_auditEvent {event part : Nat} (h : Tidy K s) : Tidy K (auditEvent event part s) := by
  unfold auditEvent
  split
  rename_i he
  exact tidy_auditPut (TidySnd.of_eq he (tidy_freeData h))

theorem tidy_auditLayout {event part : Nat} (h : Tidy K s) : Tidy K (auditLayout event part s) := by
  unfold auditLayout
  split
  rename_i he
  extract_lets r
  exact tidy_measure (tidy_auditPut (TidySnd.of_eq he (tidy_freeData h)))

theorem tidy_auditAsked {event : Nat} {data : List Byte} (h : Tidy K s) : Tidy K (auditAsked event data s) := .ite h (tidy_auditPut h)

theorem tidy_execAuditAppend {askers events : List Nat} {data : List (List (BitVec 8))} (h : Tidy K s) :
    TidyNext K (execAuditAppend askers events data s) :=
  .next (.foldl h fun _ _ hs1 => tidy_auditAsked hs1)

theorem tidy_execDebugUnlock {state : List (BitVec 8)} (h : Tidy K s) : TidyNext K (execDebugUnlock state s) :=
  .next (tidy_auditEvent (tidy_measure h))

theorem tidy_retireLocal {phys part gid line : Nat} (h : Tidy K s) : Tidy K (retireLocal phys part gid line s) :=
  tidy_auditEvent (tidy_record (tidy_onCore h fun _ hc => tidy_onAlloc hc fun _ ha => ha.clear))

theorem tidy_execLineRetirement {place : Option (Nat × Nat × Nat) × Nat} (h : Tidy K s) : TidyNext K (execLineRetirement place s) := by
  unfold execLineRetirement
  extract_lets line clean s1
  have hs1 : Tidy K s1 := ⟨tidy_memClear h.mem, h.core, h.others, tidy_clusterMap h.clusters (fun _ hk => hk)⟩
  refine .next ?_
  split
  · exact .ite (tidy_retireLocal h) h
  · exact .ite h (tidy_auditEvent (tidy_record hs1))

theorem tidy_execBlackBoxWrite {recorder : Nat} (h : Tidy K s) : TidyNext K (execBlackBoxWrite recorder s) := .next (tidy_onRecorder h)

theorem tidy_freeze {recorder : Nat} (h : Tidy K s) : Tidy K (freeze recorder s) := tidy_onRecorder h

theorem tidy_execFatalError {recorder : Nat} (h : Tidy K s) : TidyNext K (execFatalError recorder s) := .next (tidy_freeze h)

theorem tidy_mailbox {f : State → Option (List Byte × State)} (hf : ∀ (a : State), Tidy K a → TidySomeSnd K (f a)) (h : Tidy K s) :
    Tidy K (mailbox f s) := by
  unfold mailbox
  extract_lets answer
  have hanswer : ∀ (r : Response) (s : State), Tidy K s → Tidy K (answer r s) := fun _ _ hs1 => hs1.same rfl
  refine .ite (hanswer _ s h) ?_
  split
  · rename_i s1 he
    exact hanswer _ s1 (hanswer _ s1
      (hanswer _ s1 (hanswer _ s1 (hanswer _ s1
      (hanswer _ s1 (hanswer _ s1 (hanswer _ s1
      (hanswer _ s1 (hanswer _ s1 (hanswer _ s1
      (hanswer _ s1 (hanswer _ s1 (hanswer _ s1
      (hanswer _ s1 (hanswer _ s1 (hanswer _ s1
      (hanswer _ s1 (hanswer _ s1 (hanswer _ s1
      (hanswer _ s1 (hanswer _ s1 (hanswer _ s1
      (hanswer _ s1 (hanswer _ s1 (hanswer _ s1
      (hanswer _ s1 (hanswer _ s1 (hanswer _ s1
      (hanswer _ s1 (hanswer _ s1 (hanswer _ s1
      (hanswer _ s1 (hanswer _ s1 (hanswer _ s1
      (hanswer _ s1 (hanswer _ s1 (hanswer _ s1
      (hanswer _ s1 (hanswer _ s1 (hanswer _ s1
      (hanswer _ s1 (hanswer _ s1 (hanswer _ s1
      (hanswer _ s1 (hanswer _ s1 (hanswer _ s1
      (hanswer _ s1 (hanswer _ s1 (hanswer _ s1
      (hanswer _ s1 (hanswer _ s1 (hanswer _ s1
      (hanswer _ s1 (hanswer _ s1 (TidySomeSnd.of_eq he (hf s h))))))))))))))))))))))))))))))))))))))))))))))))))))))))
  · exact hanswer _ s h

theorem tidy_command {f : State → Option State} (hf : ∀ (a : State), Tidy K a → TidySome K (f a)) (h : Tidy K s) :
    Tidy K (command f s) :=
  tidy_mailbox (fun a ha => .ofSome (hf a ha) fun _ => .mk) h

theorem tidy_execSummary (h : Tidy K s) : TidyNext K (execSummary s) := .next (tidy_mailbox (fun _ ha => .some (.mk ha)) h)

theorem tidy_execAttest {nonce : List (BitVec 8)} (h : Tidy K s) : TidyNext K (execAttest nonce s) := by
  unfold execAttest
  refine .next ?_
  refine tidy_mailbox (fun _ ha => ?_) h
  extract_lets b
  exact .some (.mk (tidy_auditEvent (ha.same rfl)))

theorem tidy_execLogread {seq count : Nat} (h : Tidy K s) : TidyNext K (execLogread seq count s) :=
  .next (tidy_mailbox (fun _ ha => .some (.mk ha)) h)

theorem tidy_execBbread {recorder index count : Nat} (h : Tidy K s) : TidyNext K (execBbread recorder index count s) :=
  .next (tidy_mailbox (fun _ ha => .some (.mk ha)) h)

/-! ### Sys2Proof/Machine/Branch.lean -/

theorem tidy_branchIf {c : Bool} {off : BitVec 12} : KeepsTidy K (branchIf c off) := by
  unfold branchIf
  refine .get_bind fun _ _ => ?_
  extract_lets pc
  exact tidy_jumpTo

theorem tidy_branchBody {c : BrCond} {a b : Reg} {w : Bool} {off : BitVec 12} : KeepsTidy K (branchBody c a b w off) :=
  .bind tidy_readS fun _ => .bind tidy_readS fun _ => tidy_branchIf

theorem tidy_bitBranchBody {want : Bool} {a : Reg} {bit : Fin 32} {w : Bool} {off : BitVec 12} :
    KeepsTidy K (bitBranchBody want a bit w off) :=
  .bind tidy_readS fun _ => tidy_branchIf

theorem tidy_execBeq {a b : Reg} {w : Bool} {off : BitVec 12} (h : Tidy K s) : TidyNext K (execBeq a b w off s) :=
  tidy_runJump tidy_branchBody h

theorem tidy_execBne {a b : Reg} {w : Bool} {off : BitVec 12} (h : Tidy K s) : TidyNext K (execBne a b w off s) :=
  tidy_runJump tidy_branchBody h

theorem tidy_execBlt {a b : Reg} {w : Bool} {off : BitVec 12} (h : Tidy K s) : TidyNext K (execBlt a b w off s) :=
  tidy_runJump tidy_branchBody h

theorem tidy_execBge {a b : Reg} {w : Bool} {off : BitVec 12} (h : Tidy K s) : TidyNext K (execBge a b w off s) :=
  tidy_runJump tidy_branchBody h

theorem tidy_execBltn {a b : Reg} {w : Bool} {off : BitVec 12} (h : Tidy K s) : TidyNext K (execBltn a b w off s) :=
  tidy_runJump tidy_branchBody h

theorem tidy_execBgen {a b : Reg} {w : Bool} {off : BitVec 12} (h : Tidy K s) : TidyNext K (execBgen a b w off s) :=
  tidy_runJump tidy_branchBody h

theorem tidy_execBbs {a : Reg} {bit : Fin 32} {w : Bool} {off : BitVec 12} (h : Tidy K s) : TidyNext K (execBbs a bit w off s) :=
  tidy_runJump tidy_bitBranchBody h

theorem tidy_execBbc {a : Reg} {bit : Fin 32} {w : Bool} {off : BitVec 12} (h : Tidy K s) : TidyNext K (execBbc a bit w off s) :=
  tidy_runJump tidy_bitBranchBody h

theorem tidy_execJal {d : Reg} {off : BitVec 20} (h : Tidy K s) : TidyNext K (execJal d off s) := by
  unfold execJal
  refine tidy_runJump ?_ h
  refine .get_bind fun _ _ => ?_
  extract_lets pc
  exact .bind tidy_writeS fun _ => tidy_jumpTo

theorem tidy_execJalr {d a : Reg} {wa : Bool} {imm : BitVec 14} (h : Tidy K s) : TidyNext K (execJalr d a wa imm s) := by
  unfold execJalr
  refine tidy_runJump ?_ h
  refine .bind tidy_readS fun _ => ?_
  refine .get_bind fun _ _ => ?_
  extract_lets pc
  exact .bind tidy_writeS fun _ => tidy_jumpTo

/-! ### Sys2Proof/Machine/Fp.lean -/

theorem tidy_fp1Body {f : Rounding → Word → Word × FlagSet} {d a : Reg} {wa : Bool} : KeepsTidy K (fp1Body f d a wa) := by
  unfold fp1Body
  refine .bind tidy_readS fun _ => ?_
  refine .get_bind fun _ _ => ?_
  split
  exact .bind tidy_writeS fun _ => tidy_mergeFlags

theorem tidy_fp2Body {f : Rounding → Word → Word → Word × FlagSet} {d a b : Reg} {wa wb : Bool} :
    KeepsTidy K (fp2Body f d a b wa wb) := by
  unfold fp2Body
  refine .bind tidy_readS fun _ => ?_
  refine .bind tidy_readS fun _ => ?_
  refine .get_bind fun _ _ => ?_
  split
  exact .bind tidy_writeS fun _ => tidy_mergeFlags

theorem tidy_fp3Body {f : Rounding → Word → Word → Word → Word × FlagSet} {d a b c : Reg} {w : Bool} :
    KeepsTidy K (fp3Body f d a b c w) := by
  unfold fp3Body
  refine .bind tidy_readS fun _ => ?_
  refine .bind tidy_readS fun _ => ?_
  refine .bind tidy_readS fun _ => ?_
  refine .get_bind fun _ _ => ?_
  split
  exact .bind tidy_writeS fun _ => tidy_mergeFlags

theorem tidy_execFadd {d a b : Reg} {wa wb : Bool} (h : Tidy K s) : TidyNext K (execFadd d a b wa wb s) := tidy_runSeq tidy_fp2Body h

theorem tidy_execFsub {d a b : Reg} {wa wb : Bool} (h : Tidy K s) : TidyNext K (execFsub d a b wa wb s) := tidy_runSeq tidy_fp2Body h

theorem tidy_execFmul {d a b : Reg} {wa wb : Bool} (h : Tidy K s) : TidyNext K (execFmul d a b wa wb s) := tidy_runSeq tidy_fp2Body h

theorem tidy_execFdiv {d a b : Reg} {wa wb : Bool} (h : Tidy K s) : TidyNext K (execFdiv d a b wa wb s) := tidy_runSeq tidy_fp2Body h

theorem tidy_execFmin {d a b : Reg} {wa wb : Bool} (h : Tidy K s) : TidyNext K (execFmin d a b wa wb s) := tidy_runSeq tidy_fp2Body h

theorem tidy_execFmax {d a b : Reg} {wa wb : Bool} (h : Tidy K s) : TidyNext K (execFmax d a b wa wb s) := tidy_runSeq tidy_fp2Body h

theorem tidy_execFsgnj {d a b : Reg} {wa wb : Bool} (h : Tidy K s) : TidyNext K (execFsgnj d a b wa wb s) := tidy_runSeq tidy_fp2Body h

theorem tidy_execFeq {d a b : Reg} {wa wb : Bool} (h : Tidy K s) : TidyNext K (execFeq d a b wa wb s) := tidy_runSeq tidy_fp2Body h

theorem tidy_execFlt {d a b : Reg} {wa wb : Bool} (h : Tidy K s) : TidyNext K (execFlt d a b wa wb s) := tidy_runSeq tidy_fp2Body h

theorem tidy_execFle {d a b : Reg} {wa wb : Bool} (h : Tidy K s) : TidyNext K (execFle d a b wa wb s) := tidy_runSeq tidy_fp2Body h

theorem tidy_execFsqrt {d a : Reg} {wa : Bool} (h : Tidy K s) : TidyNext K (execFsqrt d a wa s) := tidy_runSeq tidy_fp1Body h

theorem tidy_execFneg {d a : Reg} {wa : Bool} (h : Tidy K s) : TidyNext K (execFneg d a wa s) := tidy_runSeq tidy_fp1Body h

theorem tidy_execFabs {d a : Reg} {wa : Bool} (h : Tidy K s) : TidyNext K (execFabs d a wa s) := tidy_runSeq tidy_fp1Body h

theorem tidy_execFclass {d a : Reg} {wa : Bool} (h : Tidy K s) : TidyNext K (execFclass d a wa s) := tidy_runSeq tidy_fp1Body h

theorem tidy_execFrcp {d a : Reg} {wa : Bool} (h : Tidy K s) : TidyNext K (execFrcp d a wa s) := tidy_runSeq tidy_fp1Body h

theorem tidy_execFrsq {d a : Reg} {wa : Bool} (h : Tidy K s) : TidyNext K (execFrsq d a wa s) := tidy_runSeq tidy_fp1Body h

theorem tidy_execFcvtfi {d a : Reg} {wa : Bool} (h : Tidy K s) : TidyNext K (execFcvtfi d a wa s) := tidy_runSeq tidy_fp1Body h

theorem tidy_execFcvtif {d a : Reg} {wa : Bool} (h : Tidy K s) : TidyNext K (execFcvtif d a wa s) := tidy_runSeq tidy_fp1Body h

theorem tidy_execFcvtfn {d a : Reg} {wa : Bool} (h : Tidy K s) : TidyNext K (execFcvtfn d a wa s) := tidy_runSeq tidy_fp1Body h

theorem tidy_execFcvtnf {d a : Reg} {wa : Bool} (h : Tidy K s) : TidyNext K (execFcvtnf d a wa s) := tidy_runSeq tidy_fp1Body h

theorem tidy_execFcvtbf {d a : Reg} {wa : Bool} (h : Tidy K s) : TidyNext K (execFcvtbf d a wa s) := tidy_runSeq tidy_fp1Body h

theorem tidy_execFcvtfb {d a : Reg} {wa : Bool} (h : Tidy K s) : TidyNext K (execFcvtfb d a wa s) := tidy_runSeq tidy_fp1Body h

theorem tidy_execFfma {d a b c : Reg} {w : Bool} (h : Tidy K s) : TidyNext K (execFfma d a b c w s) := tidy_runSeq tidy_fp3Body h

theorem tidy_execFfms {d a b c : Reg} {w : Bool} (h : Tidy K s) : TidyNext K (execFfms d a b c w s) := tidy_runSeq tidy_fp3Body h

theorem tidy_execFnfma {d a b c : Reg} {w : Bool} (h : Tidy K s) : TidyNext K (execFnfma d a b c w s) := tidy_runSeq tidy_fp3Body h

theorem tidy_execFnfms {d a b c : Reg} {w : Bool} (h : Tidy K s) : TidyNext K (execFnfms d a b c w s) := tidy_runSeq tidy_fp3Body h

theorem tidy_execCFadd {d b : Reg} {w : Bool} (h : Tidy K s) : TidyNext K (execCFadd d b w s) := tidy_runSeq tidy_fp2Body h

theorem tidy_execCFmul {d b : Reg} {w : Bool} (h : Tidy K s) : TidyNext K (execCFmul d b w s) := tidy_runSeq tidy_fp2Body h

theorem tidy_execCFmin {d b : Reg} {w : Bool} (h : Tidy K s) : TidyNext K (execCFmin d b w s) := tidy_runSeq tidy_fp2Body h

theorem tidy_execCFmax {d b : Reg} {w : Bool} (h : Tidy K s) : TidyNext K (execCFmax d b w s) := tidy_runSeq tidy_fp2Body h

theorem tidy_execFmtp {pfx : BitVec 25} (h : Tidy K s) : TidyNext K (execFmtp pfx s) := by
  unfold execFmtp
  refine tidy_runSeq ?_ h
  split
  · exact .trap
  · exact .modify fun _ => tidy_onCur

/-! ### Sys2Proof/Machine/Layout.lean -/

theorem tidy_withQuota {p : Partition} {q : Nat} {cls : List Nat} (h : Tidy K s) : TidySome K (withQuota p q cls s) := by
  unfold withQuota
  extract_lets core t
  have ht : Tidy K t := .foldl h fun _ _ hs1 => .ite (tidy_onCore hs1 fun _ hc => hc) (tidy_onCluster hs1 fun _ hc => hc)
  exact .ite (.some ht) .none

theorem tidy_setQuota {tag : Nat} {cluster : Option Nat} {q : Nat} (h : Tidy K s) : TidySome K (setQuota tag cluster q s) := by
  unfold setQuota
  split
  · exact .none
  · extract_lets cls
    exact .ite .none (tidy_withQuota (tidy_auditEvent h))

theorem tidy_execSetquota {tag : Nat} {cluster : Option Nat} {q : Nat} (h : Tidy K s) : TidyNext K (execSetquota tag cluster q s) :=
  .next (tidy_command (fun _ => tidy_setQuota) h)

theorem tidy_setS2 {tag : Nat} {root attr : Word} {pasid : Nat} (h : Tidy K s) : TidySome K (setS2 tag root attr pasid s) := by
  unfold setS2
  split
  · exact .none
  · exact .ite .none (.some (tidy_onPart (tidy_auditEvent h)))

theorem tidy_execSets2 {tag : Nat} {root attr : BitVec 64} {pasid : Nat} (h : Tidy K s) :
    TidyNext K (execSets2 tag root attr pasid s) :=
  .next (tidy_command (fun _ => tidy_setS2) h)

theorem tidy_joinCore {now tag : Nat} {c : Core} (hc : CoreTidy K c) : CoreTidy K (joinCore now tag c) := hc

theorem tidy_forgetPart {tag : Nat} {c : Core} (hc : CoreTidy K c) : CoreTidy K (forgetPart tag c) := hc.filter

theorem tidy_leaveCore {now tag : Nat} {zero : Bool} {c : Core} (hc : CoreTidy K c) : CoreTidy K (leaveCore now tag zero c) := by
  unfold leaveCore
  extract_lets next k src
  have hk : CoreTidy K k := tidy_forgetPart hc
  exact .ite hk hk

theorem tidy_dropInbox {tag phys : Nat} (h : Tidy K s) : Tidy K (dropInbox tag phys s) := by
  unfold dropInbox
  extract_lets es
  exact .foldl (tidy_onPart (tidy_onCore h fun _ => tidy_putInbox)) fun _ _ hs1 => tidy_record hs1

theorem tidy_create {tag : Nat} {cores banks : List Nat} {vf : Nat} {det : Bool} {shares : List (Nat × Nat)} (h : Tidy K s) :
    TidySome K (create tag cores banks vf det shares s) := by
  unfold create
  refine .ite .none ?_
  extract_lets s1 p s2 s3 s4
  have hs1 : Tidy K s1 := tidy_newGeneration (tidy_auditLayout h)
  have hs2 : Tidy K s2 := .foldl hs1 fun _ _ hs5 => tidy_onCore hs5 fun _ => tidy_joinCore
  have hs3 : Tidy K s3 := .foldl hs2 fun _ _ hs5 => tidy_onBank hs5
  have hs4 : Tidy K s4 := ⟨tidy_memClear hs3.mem, hs3.core, hs3.others, hs3.clusters⟩
  exact .ite (.some hs4) .none

theorem tidy_execCreate {tag : Nat} {cores : List Nat × List (Nat × Nat)} {banks : List Nat} {vf : Nat} {det : Bool} (h : Tidy K s) :
    TidyNext K (execCreate tag cores banks vf det s) :=
  .next (tidy_command (fun _ => tidy_create) h)

theorem tidy_resize {tag : Nat} {grow : List Nat} {shrink limit : Nat} (h : Tidy K s) :
    TidySome K (resize tag grow shrink limit s) := by
  unfold resize
  split
  · exact .none
  · extract_lets keep leaving ranks h1
    exact .ite .none (.ite .none (.some (tidy_onPart (tidy_auditLayout h))))

theorem tidy_execResize {tag : Nat} {grow : List Nat} {shrink limit : Nat} (h : Tidy K s) :
    TidyNext K (execResize tag grow shrink limit s) :=
  .next (tidy_command (fun _ => tidy_resize) h)

theorem tidy_dispatchHolding {phys : Nat} (h : Tidy K s) : Tidy K (dispatchHolding phys s) := by
  unfold dispatchHolding
  extract_lets cl
  refine .foldl h fun _ _ hs1 => ?_
  split
  · exact tidy_dispatchEntry hs1
  · exact hs1

theorem tidy_replace {tag lcore phys : Nat} (h : Tidy K s) : TidySome K (replace tag lcore phys s) := by
  unfold replace
  split
  · exact .none
  · split
    · exact .none
    · refine .ite .none ?_
      extract_lets h1 yielding s1 s2 s3
      have hs1 : Tidy K s1 := tidy_onPart (tidy_auditLayout h)
      have hs2 : Tidy K s2 := tidy_dispatchHolding hs1
      have hs3 : Tidy K s3 := .foldl hs2 fun _ _ hs4 => .ite (tidy_tryYield (tidy_beginYield hs4)) hs4
      exact .some hs3

theorem tidy_execReplace {tag lcore phys : Nat} (h : Tidy K s) : TidyNext K (execReplace tag lcore phys s) :=
  .next (tidy_command (fun _ => tidy_replace) h)

theorem tidy_Core_movedPlaces {tag old new : Nat} {c : Core} (hc : CoreTidy K c) : CoreTidy K (Core.movedPlaces tag old new c) := by
  unfold Core.movedPlaces
  extract_lets mon
  exact hc

theorem tidy_movePackets {tag old new : Nat} (h : Tidy K s) : Tidy K (movePackets tag old new s) := by
  unfold movePackets
  extract_lets at_
  exact h.same rfl

theorem tidy_moveQueues {tag new cold cnew : Nat} (h : Tidy K s) : Tidy K (moveQueues tag new cold cnew s) := by
  unfold moveQueues
  refine .ite h ?_
  extract_lets mine es ws s1
  have hs1 : Tidy K s1 := tidy_onCluster h fun _ hc => hc
  exact .foldl (.foldl hs1 fun _ _ hs2 => tidy_readyContinuation hs2) fun _ _ hs2 => tidy_installWatch hs2

theorem tidy_moveResidents {tag old new : Nat} (h : Tidy K s) : Tidy K (moveResidents tag old new s) := by
  unfold moveResidents
  extract_lets s1 o
  have hs1 : Tidy K s1 := .foldl h fun _ _ h => tidy_stashWriteBack h
  have ho : CoreTidy K o := tidy_coreAt hs1
  refine tidy_onCore hs1 fun c hc a ha => ?_
  rcases List.mem_append.mp ha with ha | ha
  · exact hc a ha
  · exact ho a (List.mem_filter.mp ha).1

theorem tidy_handOver {tag lcore old new : Nat} (h : Tidy K s) : Tidy K (handOver tag lcore old new s) := by
  unfold handOver
  extract_lets s1 s2 s3 s4 s5 s6 moved s7 kept s8 s9
  have hs3 : Tidy K s3 := tidy_moveResidents (tidy_movePackets (tidy_onCore (tidy_settleCore h) fun _ hc => tidy_joinCore hc))
  clear_value s3
  have hs4 : Tidy K s4 := tidy_mapCores ⟨hs3.mem, hs3.core, hs3.others, tidy_clusterMap hs3.clusters (fun _ hk => hk)⟩ fun _ hc =>
    tidy_Core_movedPlaces hc
  have hs7 : Tidy K s7 := tidy_onPart (tidy_moveQueues (tidy_onPart hs4))
  clear_value s7
  have hs9 : Tidy K s9 := tidy_onCluster (tidy_onCluster hs7 fun _ hk => hk) fun _ hk => hk
  exact tidy_onCore (tidy_dropInbox hs9) fun _ hc => tidy_leaveCore hc

theorem tidy_spilled {p : Partition} : KeepsTidy K (spilled p) := by
  unfold spilled
  refine .foldlM fun _ _ => ?_
  refine .foldlM fun _ _ => ?_
  refine .get_bind fun _ _ => ?_
  extract_lets k
  refine .foldlM fun _ _ => ?_
  refine .bind (.attempt tidy_readSpill) fun _ => ?_
  split
  · exact .pure
  · exact .stall
  · exact .pure

theorem tidy_rehomePosts {p : Partition} (h : Tidy K s) : Tidy K (rehomePosts p s) := tidy_mapCores (h.same rfl) fun _ hc => hc

theorem tidy_ringChanged {before after : Partition} {spills : List (Nat × Nat × Option (Word × W32))} (h : Tidy K s) :
    Tidy K (ringChanged before after spills s) := by
  unfold ringChanged
  extract_lets gone lost es rs s1 s2 s3 s4
  have hs1 : Tidy K s1 := .foldl h fun _ _ hs5 => tidy_spillRecord hs5
  have hs2 : Tidy K s2 := .foldl hs1 fun _ _ hs5 => tidy_onCluster hs5 fun _ hc => hc.fewer
  have hs3 : Tidy K s3 := tidy_rehomePosts hs2
  have hs4 : Tidy K s4 := ⟨hs3.mem, hs3.core, hs3.others, tidy_clusterMap hs3.clusters (fun _ hk => hk)⟩
  exact tidy_onPart hs4

theorem tidy_requeue {tag : Nat} (h : Tidy K s) : Tidy K (requeue tag s) := by
  unfold requeue
  split
  · exact h
  · extract_lets goes late out s1
    have hs1 : Tidy K s1 := tidy_onPart ⟨h.mem, h.core, h.others, tidy_clusterMap h.clusters (fun _ hk => hk)⟩
    refine .foldl hs1 fun _ _ hs2 => ?_
    extract_lets src e
    split
    · exact tidy_failEntry hs2
    · exact .getD (tidy_readyPush hs2) (tidy_onCluster hs2 fun _ hc => hc)

theorem tidy_tick {p : Partition} {n : Shadow} {spills : List (Nat × Nat × Option (Word × W32))} (h : Tidy K s) :
    Tidy K (tick p n spills s) := by
  unfold tick
  extract_lets s1 s2 src s3 s4
  have hs1 : Tidy K s1 := .foldl h fun _ _ hs5 => tidy_onCore (tidy_dropInbox (tidy_settleCore hs5)) fun _ => tidy_leaveCore
  have hs2 : Tidy K s2 := by
    refine .ite (.foldl hs1 fun _ _ hs5 => tidy_onCore hs5 fun _ => tidy_joinCore) ?_
    refine .foldl h fun _ _ hs5 => ?_
    split
    · exact .ite (tidy_handOver hs5) hs5
    · exact hs5
  have hsrc : Tidy K src := tidy_onPart hs2
  have hs3 : Tidy K s3 := hsrc.same rfl
  have hs4 : Tidy K s4 := .ite (tidy_focusOn hs3) hs3
  split
  · exact hs4
  · exact tidy_refillQueues (tidy_requeue (.ite hs4 (tidy_ringChanged hs4)))

theorem tidy_dropChange {tag : Nat} (h : Tidy K s) : Tidy K (dropChange tag s) := tidy_onPart (h.same rfl)

theorem tidy_tickDue {tag : Nat} (h : Tidy K s) : Tidy K (tickDue tag s) := by
  unfold tickDue
  split
  · exact h
  · refine .ite h ?_
    refine .ite (tidy_dropChange h) ?_
    refine .ite (tidy_tick h) ?_
    split
    · rename_i he1
      exact tidy_tick (KeepsTidy.of_eq he1 tidy_spilled h)
    · rename_i he1
      exact KeepsTidy.of_stop he1 tidy_spilled h

theorem tidy_execShrinkLimitExpiry {tag : Nat} (h : Tidy K s) : TidyNext K (execShrinkLimitExpiry tag s) := by
  unfold execShrinkLimitExpiry
  refine .next ?_
  split
  · exact h
  · exact .ite (tidy_dropChange h) h

theorem tidy_execQuantumEnd {part : Nat} (h : Tidy allMemory s) : TidyNext allMemory (execQuantumEnd part s) := by
  unfold execQuantumEnd
  refine .next ?_
  split
  · exact h
  · refine .ite h ?_
    split
    · rename_i he1
      exact TidySnd.of_eq he1 (tidy_endQuantum h)
    · rename_i he1
      exact tidy_beginQuantum (tidy_tickDue (TidySnd.of_eq he1 (tidy_endQuantum h)))

theorem tidy_abortLaunch {p : Partition} {slot : Nat} (h : Tidy K s) : TidySnd K (abortLaunch p slot s) := by
  unfold abortLaunch
  extract_lets done phys clear lost
  have hclear : ∀ (s : State), Tidy K s → Tidy K (clear s) := fun _ hs1 => tidy_homeWrite (tidy_onPart hs1)
  have hlost : ∀ (s : State), Tidy K s → TidySnd K (lost s) := fun _ hs1 => .mk (hclear _ (tidy_record hs1))
  refine .ite (hlost s h) ?_
  split
  · rename_i s1 he
    exact .mk (hclear s1 (KeepsTidy.of_eq he tidy_writeDone h))
  · rename_i he
    exact .mk (KeepsTidy.of_stop he tidy_writeDone h)
  · rename_i s1 _ he
    exact hlost s1 (KeepsTidy.of_stop he tidy_writeDone h)

theorem tidy_scrubPart {tag cl : Nat} (h : Tidy K s) : Tidy K (scrubPart tag cl s) := by
  unfold scrubPart
  extract_lets mine s1 lines
  have hs1 : Tidy K s1 := .foldl h fun _ _ hs2 => tidy_writeBack hs2
  exact tidy_onCluster hs1 fun _ hc => hc.fewer

theorem tidy_scrubTraffic {tag : Nat} (h : Tidy K s) : Tidy K (scrubTraffic tag s) := h.same rfl

theorem tidy_powerBank {b : Nat} (h : Tidy K s) : Tidy K (powerBank b s) := by
  unfold powerBank
  extract_lets s1 here
  have hs1 : Tidy K s1 := tidy_clearBank h
  exact tidy_onBank (hs1.same rfl)

theorem tidy_stopPartition {p : Partition} (h : Tidy K s) : Tidy K (stopPartition p s) := by
  unfold stopPartition
  extract_lets cores running s1 s2
  have hs1 : Tidy K s1 := .foldl h fun _ _ hs3 => tidy_forgetAnswers (tidy_onCluster (hs3.same rfl) fun _ => tidy_leaveNest)
  have hs2 : Tidy K s2 := tidy_scrubTraffic hs1
  exact .foldl (tidy_onPart hs2) fun _ _ hs3 => tidy_onCore hs3 fun _ => tidy_leaveCore

theorem tidy_finishRelease {p : Partition} (h : Tidy K s) : Tidy K (finishRelease p s) := by
  unfold finishRelease
  extract_lets s1 s2 s3
  have hs1 : Tidy K s1 := .foldl (tidy_scrubTraffic h) fun _ _ hs4 => tidy_scrubPart hs4
  have hs2 : Tidy K s2 := .foldl hs1 fun _ _ hs4 => tidy_powerBank hs4
  have hs3 : Tidy K s3 := tidy_newGeneration hs2
  exact tidy_refillQueues ⟨tidy_memClear hs3.mem, hs3.core, hs3.others, hs3.clusters⟩

theorem tidy_goOnRelease {tag : Nat} (h : Tidy K s) : Tidy K (goOnRelease tag s) := by
  unfold goOnRelease
  split
  · exact h
  · split
    rename_i he1
    exact .ite (tidy_finishRelease (TidySnd.of_eq he1 (.foldl (.mk h) fun _ _ hp1 => .ite (tidy_abortLaunch (TidySnd.snd hp1)) hp1)))
      (.ite (TidySnd.of_eq he1 (.foldl (.mk h) fun _ _ hp1 => .ite (tidy_abortLaunch (TidySnd.snd hp1)) hp1))
      (.same (TidySnd.of_eq he1 (.foldl (.mk h) fun _ _ hp1 => .ite (tidy_abortLaunch (TidySnd.snd hp1)) hp1)) rfl))

theorem tidy_release {tag : Nat} (h : Tidy K s) : TidySome K (release tag s) := by
  unfold release
  split
  · exact .none
  · exact .ite .none (.some (tidy_goOnRelease (tidy_stopPartition (tidy_auditLayout h))))

theorem tidy_execRelease {tag : Nat} (h : Tidy K s) : TidyNext K (execRelease tag s) := .next (tidy_command (fun _ => tidy_release) h)

theorem tidy_execLayoutTick {tag : Nat} (h : Tidy K s) : TidyNext K (execLayoutTick tag s) := by
  unfold execLayoutTick
  refine .next ?_
  split
  · exact h
  · exact .ite (tidy_goOnRelease h) (.ite h (tidy_tickDue h))

/-! ### Sys2Proof/Machine/Power.lean -/

/-- Of clusters that keep only their limits, none rests and none holds an entry. -/
theorem tidy_limitsOnly {l : List Cluster} : ClustersTidy K (limitsOnly l) := by
  refine clustersTidy_of_forall fun k hk _ => ?_
  unfold limitsOnly at hk
  obtain ⟨c, -, hc⟩ := List.mem_map.mp hk
  exact ⟨by rw [← hc]; rfl, by rw [← hc]; rfl⟩

theorem tidy_lostState (h : Tidy K s) : Tidy K (lostState s) := by
  unfold lostState
  exact ⟨tidy_memFilter h.mem, tidy_State_reset.core, tidy_State_reset.others, tidy_State_reset.clusters⟩

theorem tidy_warmState (h : Tidy K s) : Tidy K (warmState s) := by
  unfold warmState
  have ht : Tidy K (lostState s) := tidy_lostState h
  refine .foldl ⟨ht.mem, ht.core, ht.others, tidy_limitsOnly⟩ fun t c h => ?_
  exact .ite h (tidy_onCore h fun _ hc => hc)

theorem tidy_measureBoot {items : List (List Byte)} (h : Tidy K s) : Tidy K (measureBoot items s) := by
  unfold measureBoot
  extract_lets item s1 s2
  have hs1 : Tidy K s1 := tidy_measure (tidy_measure h)
  have hs2 : Tidy K s2 := .foldl hs1 fun _ _ hs3 => tidy_measure hs3
  exact tidy_measure (tidy_measure hs2)

theorem tidy_boot {key sig : List Byte} {items : List (List Byte)} (h : Tidy K s) : Tidy K (boot key sig items s) := by
  unfold boot
  refine .ite ?_ h
  have hm : Tidy K (measureBoot items s) := tidy_measureBoot h
  exact ⟨hm.mem, hm.core, hm.others, hm.clusters⟩

theorem tidy_rampIslands (h : Tidy K s) : Tidy K (rampIslands s) := h.same rfl

theorem tidy_execColdReset {signed : List (BitVec 8) × List (BitVec 8)} {items : List (List (BitVec 8))} (h : Tidy K s) :
    TidyNext K (execColdReset signed items s) := by
  unfold execColdReset
  extract_lets t src
  have ht : Tidy K t := tidy_lostState h
  exact .next (tidy_boot (tidy_rampIslands (ht.same rfl)))

theorem tidy_auditReset (h : Tidy K s) : Tidy K (auditReset s) := tidy_auditPut h

theorem tidy_execWarmReset {signed : List (BitVec 8) × List (BitVec 8)} {items : List (List (BitVec 8))} (h : Tidy K s) :
    TidyNext K (execWarmReset signed items s) :=
  .next (.ite h (tidy_auditReset (tidy_boot (tidy_warmState h))))

theorem tidy_execPowerOff (h : Tidy K s) : TidyNext K (execPowerOff s) :=
  .next ⟨tidy_memFilter h.mem, tidy_State_reset.core, tidy_State_reset.others, tidy_State_reset.clusters⟩

theorem tidy_putDuty {phys duty : Nat} (h : Tidy K s) : Tidy K (putDuty phys duty s) := tidy_sampleAt (tidy_onCore h fun _ hc => hc)

theorem tidy_runBudgetTree {dieBudgets : List Nat} {demands : List (Nat × Nat)} (h : Tidy K s) :
    Tidy K (runBudgetTree dieBudgets demands s) := by
  unfold runBudgetTree
  extract_lets s1
  have hs1 : Tidy K s1 := .foldl h fun _ _ hs2 => tidy_onCore hs2 fun _ hc => hc
  exact .foldl hs1 fun _ _ hs2 => tidy_putDuty hs2

theorem tidy_execBudgetTreeUpdate {dieBudgets : List Nat} {counts : List (Nat × List Nat)} (h : Tidy K s) :
    TidyNext K (execBudgetTreeUpdate dieBudgets counts s) :=
  .next (.ite h (tidy_runBudgetTree h))

theorem tidy_execRampWindow {core busy : Nat} (h : Tidy K s) : TidyNext K (execRampWindow core busy s) :=
  .next (tidy_onCore h fun _ hc => hc)

theorem tidy_execGovernorWindow {core cycles stalls : Nat} (h : Tidy K s) : TidyNext K (execGovernorWindow core cycles stalls s) :=
  .next (tidy_onCore h fun _ hc => .ite (fun a ha => hc a ha) (.ite (fun a ha => hc a ha) hc))

theorem tidy_holdFreq {cl : Nat} (h : Tidy K s) : Tidy K (holdFreq cl s) := by
  unfold holdFreq
  extract_lets m
  exact .ite h (.foldl h fun _ _ hs1 => tidy_onCore hs1 fun _ hc => hc)

theorem tidy_execMicrocontrollerLoop {temps volts fmax : List Nat} {limits : List Nat × Nat × Nat} (h : Tidy K s) :
    TidyNext K (execMicrocontrollerLoop temps volts fmax limits s) := by
  unfold execMicrocontrollerLoop
  extract_lets src s1 s2
  have hs1 : Tidy K s1 := h.same rfl
  have hs2 : Tidy K s2 := .foldl hs1 fun _ _ hs3 => tidy_onCluster hs3 fun _ hc => hc
  exact .next (.foldl hs2 fun _ _ hs3 => tidy_holdFreq hs3)

theorem tidy_execThermalTrip {cluster : Nat} (h : Tidy K s) : TidyNext K (execThermalTrip cluster s) := by
  unfold execThermalTrip
  extract_lets s1
  have hs1 : Tidy K s1 := .foldl h fun _ _ hs2 => tidy_putDuty (tidy_onCore hs2 fun _ hc => hc)
  exact .next (tidy_auditEvent (tidy_record hs1))

theorem tidy_execThermalShutdown (h : Tidy K s) : TidyNext K (execThermalShutdown s) := by
  unfold execThermalShutdown
  exact .next ⟨tidy_memFilter (tidy_freeze h).mem, tidy_Core_reset, fun _ h => absurd h List.not_mem_nil, tidy_limitsOnly⟩

theorem tidy_execHole {word : BitVec 32} {cause : BitVec 8} (h : Tidy K s) : TidyNext K (execHole word cause s) := .next (tidy_halt h)

theorem tidy_execFetchFault {cause : BitVec 8} {eval : BitVec 64} (h : Tidy K s) : TidyNext K (execFetchFault cause eval s) :=
  .next (tidy_halt h)

/-! ### Sys2Proof/Machine/Dispatch.lean -/

theorem tidy_exec {i : Instr} (h : Tidy allMemory s) : TidyNext allMemory (exec i s) := by
  unfold exec
  split
  · exact tidy_execAdd h
  · exact tidy_execSub h
  · exact tidy_execMul h
  · exact tidy_execMulh h
  · exact tidy_execMulhn h
  · exact tidy_execDiv h
  · exact tidy_execDivn h
  · exact tidy_execRem h
  · exact tidy_execRemn h
  · exact tidy_execAnd h
  · exact tidy_execOr h
  · exact tidy_execXor h
  · exact tidy_execAndn h
  · exact tidy_execSll h
  · exact tidy_execSrl h
  · exact tidy_execSra h
  · exact tidy_execRor h
  · exact tidy_execMin h
  · exact tidy_execMax h
  · exact tidy_execMinn h
  · exact tidy_execMaxn h
  · exact tidy_execSlt h
  · exact tidy_execSltn h
  · exact tidy_execSeq h
  · exact tidy_execClz h
  · exact tidy_execCtz h
  · exact tidy_execPopc h
  · exact tidy_execSext h
  · exact tidy_execZext h
  · exact tidy_execCsel h
  · exact tidy_execAddi h
  · exact tidy_execAndi h
  · exact tidy_execOri h
  · exact tidy_execXori h
  · exact tidy_execSlli h
  · exact tidy_execSrli h
  · exact tidy_execSrai h
  · exact tidy_execRori h
  · exact tidy_execSlti h
  · exact tidy_execSltni h
  · exact tidy_execHi h
  · exact tidy_execPcrel h
  · exact tidy_execBeq h
  · exact tidy_execBne h
  · exact tidy_execBlt h
  · exact tidy_execBge h
  · exact tidy_execBltn h
  · exact tidy_execBgen h
  · exact tidy_execBbs h
  · exact tidy_execBbc h
  · exact tidy_execJal h
  · exact tidy_execJalr h
  · exact tidy_execFadd h
  · exact tidy_execFsub h
  · exact tidy_execFmul h
  · exact tidy_execFdiv h
  · exact tidy_execFsqrt h
  · exact tidy_execFmin h
  · exact tidy_execFmax h
  · exact tidy_execFneg h
  · exact tidy_execFabs h
  · exact tidy_execFsgnj h
  · exact tidy_execFeq h
  · exact tidy_execFlt h
  · exact tidy_execFle h
  · exact tidy_execFclass h
  · exact tidy_execFrcp h
  · exact tidy_execFrsq h
  · exact tidy_execFcvtfi h
  · exact tidy_execFcvtif h
  · exact tidy_execFcvtfn h
  · exact tidy_execFcvtnf h
  · exact tidy_execFcvtbf h
  · exact tidy_execFcvtfb h
  · exact tidy_execFfma h
  · exact tidy_execFfms h
  · exact tidy_execFnfma h
  · exact tidy_execFnfms h
  · exact tidy_execLdB h
  · exact tidy_execLdH h
  · exact tidy_execLdW h
  · exact tidy_execLdD h
  · exact tidy_execLdBn h
  · exact tidy_execLdHn h
  · exact tidy_execLdWn h
  · exact tidy_execStB h
  · exact tidy_execStH h
  · exact tidy_execStW h
  · exact tidy_execStD h
  · exact tidy_execPref h
  · exact tidy_execCflush h
  · exact tidy_execCinval h
  · exact tidy_execAmoAdd h
  · exact tidy_execAmoAnd h
  · exact tidy_execAmoOr h
  · exact tidy_execAmoXor h
  · exact tidy_execAmoMin h
  · exact tidy_execAmoMax h
  · exact tidy_execAmoMinn h
  · exact tidy_execAmoMaxn h
  · exact tidy_execAmoSwap h
  · exact tidy_execAmoFadd h
  · exact tidy_execAmoFmin h
  · exact tidy_execAmoFmax h
  · exact tidy_execAmoBadd h
  · exact tidy_execCas h
  · exact tidy_execRedAdd h
  · exact tidy_execRedAnd h
  · exact tidy_execRedOr h
  · exact tidy_execRedXor h
  · exact tidy_execRedMin h
  · exact tidy_execRedMax h
  · exact tidy_execRedMinn h
  · exact tidy_execRedMaxn h
  · exact tidy_execRedFadd h
  · exact tidy_execRedFmin h
  · exact tidy_execRedFmax h
  · exact tidy_execRedBadd h
  · exact tidy_execAcq h
  · exact tidy_execRel h
  · exact tidy_execBind h
  · exact tidy_execUnbind h
  · exact tidy_execFence h
  · exact tidy_execMon h
  · exact tidy_execMwait h
  · exact tidy_execRwr h
  · exact tidy_execFeclr h
  · exact tidy_execFeset h
  · exact tidy_execFetst h
  · exact tidy_execTspawn h
  · exact tidy_execTfork h
  · exact tidy_execTjoin h
  · exact tidy_execTdec h
  · exact tidy_execTend h
  · exact tidy_execTyield h
  · exact tidy_execHstart h
  · exact tidy_execHend h
  · exact tidy_execCwait h
  · exact tidy_execBar h
  · exact tidy_execFdecl h
  · exact tidy_execFpost h
  · exact tidy_execFpostv h
  · exact tidy_execFdrain h
  · exact tidy_execFpeek h
  · exact tidy_execFthr h
  · exact tidy_execFcount h
  · exact tidy_execFquiet h
  · exact tidy_execMsend h
  · exact tidy_execMtake h
  · exact tidy_execNred h
  · exact tidy_execCpy h
  · exact tidy_execCpyc h
  · exact tidy_execCstop h
  · exact tidy_execTsfence h
  · exact tidy_execTsdim h
  · exact tidy_execMld h
  · exact tidy_execMma h
  · exact tidy_execMgang h
  · exact tidy_execMzero h
  · exact tidy_execMdrain h
  · exact tidy_execMrel h
  · exact tidy_execMmaSolo h
  · exact tidy_execFmtp h
  · exact tidy_execTrap h
  · exact tidy_execSvc h
  · exact tidy_execEret h
  · exact tidy_execBrk h
  · exact tidy_execTlbinv h
  · exact tidy_execTxb h
  · exact tidy_execTxe h
  · exact tidy_execTxa h
  · exact tidy_execVadd h
  · exact tidy_execVsub h
  · exact tidy_execVmul h
  · exact tidy_execVdiv h
  · exact tidy_execVfma h
  · exact tidy_execVmin h
  · exact tidy_execVmax h
  · exact tidy_execVabs h
  · exact tidy_execVneg h
  · exact tidy_execVrcp h
  · exact tidy_execVrsq h
  · exact tidy_execVexp2 h
  · exact tidy_execVlog2 h
  · exact tidy_execVsel h
  · exact tidy_execVcmpEq h
  · exact tidy_execVcmpNe h
  · exact tidy_execVcmpLt h
  · exact tidy_execVcmpLe h
  · exact tidy_execVand h
  · exact tidy_execVor h
  · exact tidy_execVxor h
  · exact tidy_execVshl h
  · exact tidy_execVshr h
  · exact tidy_execVpopc h
  · exact tidy_execVcvt h
  · exact tidy_execVquant h
  · exact tidy_execVsum h
  · exact tidy_execVmaxr h
  · exact tidy_execVscan h
  · exact tidy_execVgath h
  · exact tidy_execVscat h
  · exact tidy_execVamoOr h
  · exact tidy_execVamoAnd h
  · exact tidy_execVamoAdd h
  · exact tidy_execVamoFadd h
  · exact tidy_execVamoMax h
  · exact tidy_execVhash h
  · exact tidy_execVacc h
  · exact tidy_execVfill h
  · exact tidy_execViota h
  · exact tidy_execVaccLive h
  · exact tidy_execMfc h
  · exact tidy_execMtc h
  · exact tidy_execCMv h
  · exact tidy_execCAdd h
  · exact tidy_execCSub h
  · exact tidy_execCAnd h
  · exact tidy_execCOr h
  · exact tidy_execCXor h
  · exact tidy_execCSll h
  · exact tidy_execCSrl h
  · exact tidy_execCSra h
  · exact tidy_execCAddi h
  · exact tidy_execCLd h
  · exact tidy_execCSt h
  · exact tidy_execCFadd h
  · exact tidy_execCFmul h
  · exact tidy_execCFmin h
  · exact tidy_execCFmax h
  · exact tidy_execLoadValueArrival h
  · exact tidy_execRemoteWriteArrival h
  · exact tidy_execInboxEntryApply h
  · exact tidy_execWatchdogExpiry h
  · exact tidy_execYieldWaitLimit h
  · exact tidy_execSliceEnd h
  · exact tidy_execGraceExpiry h
  · exact tidy_execTakeWork h
  · exact tidy_execGroupPlacement h
  · exact tidy_execLaunchParse h
  · exact tidy_execHardwareHelperStart h
  · exact tidy_execQntExpiry h
  · exact tidy_execQuantumEnd h
  · exact tidy_execNestingHoldExpiry h
  · exact tidy_execMatrixKStep h
  · exact tidy_execMdrainRow h
  · exact tidy_execFormatEmulationRequest h
  · exact tidy_execVectorElementGroup h
  · exact tidy_execPageReplySuccess h
  · exact tidy_execPageReplyInvalidRequest h
  · exact tidy_execPageReplyResponseFailure h
  · exact tidy_execFunctionReset h
  · exact tidy_execHostStage2Invalidation h
  · exact tidy_execCopyLineWrite h
  · exact tidy_execCopyRecordFinish h
  · exact tidy_execMessagePlacement h
  · exact tidy_execMsendAnswer h
  · exact tidy_execFoldPostArrival h
  · exact tidy_execFpostStatusAnswer h
  · exact tidy_execFoldReplay h
  · exact tidy_execTopTokenPass h
  · exact tidy_execNredRoundComplete h
  · exact tidy_execTreeHoldExpiry h
  · exact tidy_execLinkRetryExhausted h
  · exact tidy_execOverflowWatchScan h
  · exact tidy_execBankRetentionEntry h
  · exact tidy_execWakeSlotGrant h
  · exact tidy_execBankWakeComplete h
  · exact tidy_execClusterRetentionEntry h
  · exact tidy_execClusterRetentionExit h
  · exact tidy_execCacheEviction h
  · exact tidy_execUpdateOnlyEviction h
  · exact tidy_execProxyAtomicService h
  · exact tidy_execBackInvalidationAck h
  · exact tidy_execHostSnoop h
  · exact tidy_execCxlMemWrite h
  · exact tidy_execCxlMemRead h
  · exact tidy_execStashEntryASwap h
  · exact tidy_execStashEntryBSwap h
  · exact tidy_execTreeT0Swap h
  · exact tidy_execMonitorConfigSwap h
  · exact tidy_execHbaseSwap h
  · exact tidy_execOvfbaseSwap h
  · exact tidy_execOvfsizeSwap h
  · exact tidy_execS1rootSwap h
  · exact tidy_execS1attrSwap h
  · exact tidy_execPartitionRegisterWrite h
  · exact tidy_execCreate h
  · exact tidy_execResize h
  · exact tidy_execReplace h
  · exact tidy_execLayoutTick h
  · exact tidy_execShrinkLimitExpiry h
  · exact tidy_execRelease h
  · exact tidy_execSets2 h
  · exact tidy_execSetquota h
  · exact tidy_execSummary h
  · exact tidy_execAttest h
  · exact tidy_execLogread h
  · exact tidy_execBbread h
  · exact tidy_execAuditAppend h
  · exact tidy_execBlackBoxWrite h
  · exact tidy_execFatalError h
  · exact tidy_execColdReset h
  · exact tidy_execWarmReset h
  · exact tidy_execPowerOff h
  · exact tidy_execBudgetTreeUpdate h
  · exact tidy_execRampWindow h
  · exact tidy_execGovernorWindow h
  · exact tidy_execMicrocontrollerLoop h
  · exact tidy_execThermalTrip h
  · exact tidy_execThermalShutdown h
  · exact tidy_execHole h
  · exact tidy_execFetchFault h
  · exact tidy_execAccessPerformed h
  · exact tidy_execBankPowerDownComplete h
  · exact tidy_execBolmorRemoteAccess h
  · exact tidy_execLineRetirement h
  · exact tidy_execDebugUnlock h
  · exact tidy_execThresholdWriteArrival h

/-! ### Sys2Proof/Machine/Cycle.lean -/

theorem tidy_cycleOf {c : Core} (hc : CoreTidy K c) : CoreTidy K (cycleOf c) := hc

theorem tidy_passCycle {phys : Nat} (h : Tidy K s) : Tidy K (passCycle phys s) := by
  unfold passCycle
  extract_lets src
  have hsrc : Tidy K src := tidy_onCore h fun _ => tidy_cycleOf
  exact hsrc.same rfl

theorem tidy_passIdle (h : Tidy K s) : Tidy K (passIdle s) := by
  unfold passIdle
  extract_lets src
  have hsrc : Tidy K src := tidy_mapCores h fun _ => tidy_cycleOf
  exact hsrc.same rfl

theorem tidy_wakeAll (h : Tidy K s) : Tidy K (wakeAll s) := tidy_mapCores h fun _ hc => hc

theorem tidy_fetchHalf {ag : Agent} {va : Word} : KeepsTidy K (fetchHalf ag va) := by
  unfold fetchHalf
  extract_lets off jp
  have hjp : ∀ (x : Unit), KeepsTidy K (jp x) := by
    intro x
    refine .bind tidy_translate fun _ => ?_
    refine .bind tidy_resolvePage fun _ => ?_
    split
    · exact .trap
    · extract_lets line jp1 jp2 jp3
      have hjp1 : ∀ (x : Unit), KeepsTidy K (jp1 x) := by
        intro _
        refine .get_bind fun _ hs => ?_
        extract_lets s1 bytes
        have hs1 : Tidy K s1 := tidy_readAt hs
        exact .bind (.set (.ite (tidy_onCore hs1 fun _ hc => hc) hs1)) fun _ => .pure
      have hjp2 : ∀ (x : Unit), KeepsTidy K (jp2 x) := fun _ => .bind tidy_touchData fun _ => .get_bind fun _ _ => .ite
        (.bind .trap fun _ => hjp1 ()) (hjp1 ())
      have hjp3 : ∀ (x : Unit), KeepsTidy K (jp3 x) := by
        intro _
        refine .get_bind fun _ _ => ?_
        split
        · exact .ite .pure (hjp2 ())
        · exact hjp2 ()
      exact .ite (.bind .trap fun _ => hjp3 ()) (hjp3 ())
  exact .ite (.bind .trap fun _ => hjp ()) (hjp ())

theorem tidy_fetchInstr : KeepsTidy K fetchInstr := by
  unfold fetchInstr
  refine .get_bind fun _ _ => ?_
  extract_lets ag pc jp
  have hjp : ∀ (x : List Byte), KeepsTidy K (jp x) := by
    intro _
    refine .bind (.modify fun _ => tidy_onCur) fun _ => ?_
    split <;> exact .pure
  exact .bind tidy_fetchHalf fun _ => .ite (.bind .pure fun x1 => hjp x1) (.bind tidy_fetchHalf fun _ => .bind .pure fun x2 => hjp x2)

/-- The state in which a core's cycle goes on. -/
def preparedState : Prepared → State
  | .run _ s | .hole _ _ s | .fetchFault _ _ s | .done s => s

/-- The state in which a core's cycle goes on is tidy. -/
def TidyPrepared (K : Upkeep) (p : Prepared) : Prop := Tidy K (preparedState p)

theorem TidyPrepared.of_eq {p q : Prepared} (e : p = q) (h : TidyPrepared K p) : Tidy K (preparedState q) := e ▸ h

theorem TidyPrepared.ite {c : Prop} [Decidable c] {p q : Prepared} (hp : TidyPrepared K p) (hq : TidyPrepared K q) :
    TidyPrepared K (if c then p else q) := by
  split
  · exact hp
  · exact hq

theorem TidyPrepared.done (h : Tidy K s) : TidyPrepared K (.done s) := h

theorem tidy_afterTrap (h : Tidy K s) : Tidy K (afterTrap s) := .ite h (tidy_wakeAll h)

theorem tidy_takeBoundary {d : Deferred} {x : Ctx} (h : Tidy K s) : Tidy K (takeBoundary d x s) := by
  unfold takeBoundary
  extract_lets s1
  have hs1 : Tidy K s1 := tidy_onCluster (tidy_onCur h) fun _ hc => .ite (tidy_leaveNest hc) hc
  exact tidy_afterTrap (tidy_stopAs hs1)

theorem tidy_nextInstr (h : Tidy K s) : TidyPrepared K (nextInstr s) := by
  unfold nextInstr
  split
  · exact h
  · split
    · rename_i he
      exact KeepsTidy.of_eq he tidy_fetchInstr h
    · rename_i he
      exact KeepsTidy.of_eq he tidy_fetchInstr h
    · rename_i he
      exact KeepsTidy.of_stop he tidy_fetchInstr h
    · rename_i he
      exact .done (tidy_standStill (KeepsTidy.of_stop he tidy_fetchInstr h))
    · rename_i he
      exact KeepsTidy.of_stop he tidy_fetchInstr h

theorem tidy_errorOr {p : Prepared} (h : TidyPrepared K p) : TidyPrepared K (errorOr p) := by
  unfold errorOr
  split
  · split
    · exact .done (tidy_takeBoundary h)
    · exact h
  · exact h

theorem tidy_prepare {phys : Nat} (h : Tidy K s) : TidyPrepared K (prepare phys s) := by
  unfold prepare
  extract_lets s1 c
  have hs1 : Tidy K s1 := tidy_focusOn h
  refine .ite (.done (tidy_wakeAll (tidy_tryResume hs1))) ?_
  split
  · exact .done (.ite (tidy_tryYield hs1) hs1)
  · refine .ite (.done hs1) ?_
    extract_lets s2
    have hs2 : Tidy K s2 := ⟨hs1.mem, hs1.core, hs1.others, hs1.clusters⟩
    split
    · exact .done (tidy_afterTrap (tidy_resumeEntry hs2))
    · split
      · exact .done (tidy_takeBoundary hs2)
      · exact tidy_errorOr (tidy_nextInstr hs2)

theorem tidy_afterInstr {phys ctx : Nat} {pc : Word} {i : Option Instr} (h : Tidy K s) : Tidy K (afterInstr phys ctx pc i s) := by
  unfold afterInstr
  extract_lets x
  exact .ite (tidy_onCtx h) (tidy_wakeAll (tidy_onCtx h))

/-- Every event of a list leaves a tidy state tidy. -/
def TidyEvents (l : List Due) : Prop := ∀ e ∈ l, ∀ s, Tidy allMemory s → TidyNext allMemory (e s)

namespace TidyEvents

variable {l m : List Due} {e : Due}

theorem nil : TidyEvents [] := fun _ h => absurd h List.not_mem_nil

theorem cons (he : ∀ s, Tidy allMemory s → TidyNext allMemory (e s)) (hl : TidyEvents l) : TidyEvents (e :: l) :=
  List.forall_mem_cons.mpr ⟨he, hl⟩

theorem append (hl : TidyEvents l) (hm : TidyEvents m) : TidyEvents (l ++ m) := List.forall_mem_append.mpr ⟨hl, hm⟩

theorem map {f : α → Due} {l : List α} (hf : ∀ x s, Tidy allMemory s → TidyNext allMemory (f x s)) : TidyEvents (l.map f) :=
  List.forall_mem_map.mpr fun x _ => hf x

theorem flatMap {f : α → List Due} {l : List α} (hf : ∀ x, TidyEvents (f x)) : TidyEvents (l.flatMap f) := fun e he => by
  obtain ⟨x, -, hx⟩ := List.mem_flatMap.mp he
  exact hf x e hx

theorem ite {c : Prop} [Decidable c] (hl : TidyEvents l) (hm : TidyEvents m) : TidyEvents (if c then l else m) := by
  split
  · exact hl
  · exact hm

theorem rotate {k : Nat} (hl : TidyEvents l) : TidyEvents (rotate k l) :=
  append (fun e he => hl e (List.mem_of_mem_drop he)) fun e he => hl e (List.mem_of_mem_take he)

end TidyEvents

theorem tidy_coreEvents {work : Bool} {c : Core} : TidyEvents (coreEvents s work c) := by
  unfold coreEvents
  refine .append (.append (.append (.append (.append (.append (.append (.append (.append (.append (.append (.append (.append (.append
    ?_ ?_) ?_) ?_) ?_) ?_) ?_) ?_) ?_) ?_) ?_) ?_) ?_) ?_) ?_
  · exact .map fun _ _ h => tidy_execAccessPerformed h
  · exact .flatMap fun _ => .map fun _ _ h => tidy_execLoadValueArrival h
  · exact .map fun _ _ h => tidy_execInboxEntryApply h
  · exact .ite .nil (.cons (fun _ h => tidy_execVectorElementGroup h) .nil)
  · exact .map fun _ _ h => tidy_execMatrixKStep h
  · exact .map fun _ _ h => tidy_execMdrainRow h
  · exact .flatMap fun _ => .cons (fun _ h => tidy_execCopyLineWrite h) (.cons (fun _ h => tidy_execCopyRecordFinish h) .nil)
  · exact .ite .nil (.cons (fun _ h => tidy_execHardwareHelperStart h) .nil)
  · exact .map fun _ _ h => tidy_execMsendAnswer h
  · split
    · exact .map fun _ _ h => tidy_execNredRoundComplete h
    · exact .nil
  · exact .ite (.cons (fun _ h => tidy_execWatchdogExpiry h) .nil) .nil
  · exact .ite (.cons (fun _ h => tidy_execQntExpiry h) .nil) .nil
  · exact .ite (.cons (fun _ h => tidy_execYieldWaitLimit h) .nil) .nil
  · exact .ite (.cons (fun _ h => tidy_execGraceExpiry h) .nil) .nil
  · exact .ite (.cons (fun _ h => tidy_execTakeWork h) .nil) .nil

theorem tidy_dieEvents {d : Fin 4} : TidyEvents (dieEvents s d) := by
  unfold dieEvents
  refine .append (.append (.map fun _ _ h => tidy_execProxyAtomicService h) (.ite ?_ .nil)) ?_
  · refine .cons (fun _ h => tidy_execStashEntryASwap h) <| .cons (fun _ h => tidy_execStashEntryBSwap h) ?_
    refine .cons (fun _ h => tidy_execTreeT0Swap h) <| .cons (fun _ h => tidy_execMonitorConfigSwap h) ?_
    refine .cons (fun _ h => tidy_execHbaseSwap h) <| .cons (fun _ h => tidy_execOvfbaseSwap h) ?_
    refine .cons (fun _ h => tidy_execOvfsizeSwap h) <| .cons (fun _ h => tidy_execS1rootSwap h) ?_
    exact .cons (fun _ h => tidy_execS1attrSwap h) <| .cons (fun _ h => tidy_execPartitionRegisterWrite h) .nil
  · exact .ite .nil (.cons (fun _ h => tidy_execFormatEmulationRequest h) .nil)

theorem tidy_trafficEvents : TidyEvents (trafficEvents s) := by
  unfold trafficEvents
  refine .append (.append (.append (.append (.append (.append (.append (.append ?_ ?_) ?_) ?_) ?_) ?_) ?_) ?_) ?_
  · exact .map fun _ _ h => tidy_execRemoteWriteArrival h
  · exact .map fun _ _ h => tidy_execFoldPostArrival h
  · exact .map fun _ _ h => tidy_execFpostStatusAnswer h
  · exact .map fun _ _ h => tidy_execThresholdWriteArrival h
  · exact .map fun _ _ h => tidy_execMessagePlacement h
  · exact .flatMap fun _ => tidy_dieEvents
  · exact .map fun _ _ h => tidy_execWakeSlotGrant h
  · exact .map fun _ _ h => tidy_execBankWakeComplete h
  · exact .map fun _ _ h => tidy_execBankPowerDownComplete h

theorem tidy_partEvents : TidyEvents (partEvents s) := by
  unfold partEvents
  refine .append (.append (.flatMap fun _ => ?_) (.flatMap fun _ => ?_)) (.map fun _ _ h => tidy_execBlackBoxWrite h)
  · refine .append (.append (.append ?_ ?_) ?_) ?_
    · refine .cons (fun _ h => tidy_execQuantumEnd h) <| .cons (fun _ h => tidy_execLaunchParse h) ?_
      exact .cons (fun _ h => tidy_execLayoutTick h) <| .cons (fun _ h => tidy_execShrinkLimitExpiry h) .nil
    · exact .map fun _ _ h => tidy_execFoldReplay h
    · exact .map fun _ _ h => tidy_execTopTokenPass h
    · exact .ite .nil (.cons (fun _ h => tidy_execOverflowWatchScan h) .nil)
  · refine .append (.ite .nil (.ite ?_ ?_)) (.map fun _ _ h => tidy_execNestingHoldExpiry h)
    · exact .cons (fun _ h => tidy_execClusterRetentionExit h) .nil
    · exact .cons (fun _ h => tidy_execGroupPlacement h) .nil

theorem tidy_happens {e : Due} (he : TidyNext K (e s)) : TidySome K (happens s e) := by
  unfold happens
  split
  · rename_i hx
    exact .ite .none (.some (TidyNext.of_eq hx he))
  · exact .none

theorem tidy_dueEvents : TidyEvents (dueEvents s) := by
  unfold dueEvents
  have hnear : TidyEvents (rotate s.turn ((allCores s).flatMap (coreEvents s (workWaits s)))) :=
    .rotate (.flatMap fun _ => tidy_coreEvents)
  have hfar : TidyEvents (rotate (s.turn / 8) (trafficEvents s ++ partEvents s)) := .rotate (.append tidy_trafficEvents tidy_partEvents)
  exact .ite (.append hfar hnear) (.append hnear hfar)

theorem tidy_nextEvent (h : Tidy allMemory s) : TidySome allMemory (nextEvent s) := by
  unfold nextEvent
  refine .ofSome (fun t ht => ?_) fun _ ht => ht.same rfl
  obtain ⟨e, he, hx⟩ := List.exists_of_findSome?_eq_some ht
  exact tidy_happens (tidy_dueEvents e he s h) t hx

/-- What is chosen, if it is an event, leaves a tidy state. -/
def TidyChoice (c : Choice) : Prop := ∀ o, c = .event o → TidyNext allMemory o

theorem tidyChoice_issue {phys : Nat} : TidyChoice (.issue phys) := fun _ h => by cases h

theorem tidyChoice_event {o : Host.Outcome State Fault Refusal} (h : TidyNext allMemory o) : TidyChoice (.event o) := fun _ e => by
  cases e
  exact h

theorem tidyChoice_getD {o : Option Choice} {c : Choice} (ho : ∀ d ∈ o, TidyChoice d) (hc : TidyChoice c) : TidyChoice (o.getD c) := by
  cases o with
  | none => exact hc
  | some d => exact ho d rfl

theorem tidyChoice_orElse {o u : Option Choice} (ho : ∀ d ∈ o, TidyChoice d) (hu : ∀ d ∈ u, TidyChoice d) :
    ∀ d ∈ (o <|> u), TidyChoice d := by
  cases o with
  | none => exact hu
  | some c => exact ho

theorem tidy_background (h : Tidy allMemory s) : TidyChoice (background s) := by
  have hevent : ∀ d ∈ (nextEvent s).map (fun t => Choice.event (.next t)), TidyChoice d := by
    intro d hd
    obtain ⟨t, ht, rfl⟩ := Option.map_eq_some_iff.mp hd
    exact tidyChoice_event (.next (tidy_nextEvent h t ht))
  have hcore : ∀ d ∈ (nextCore s).map Choice.issue, TidyChoice d := by
    intro d hd
    obtain ⟨phys, -, rfl⟩ := Option.map_eq_some_iff.mp hd
    exact tidyChoice_issue
  unfold background
  refine tidyChoice_getD ?_ ?_
  · split
    · exact tidyChoice_orElse hcore hevent
    · exact tidyChoice_orElse hevent hcore
  · split
    · exact tidyChoice_issue
    · exact fun _ e => by cases e

theorem tidy_choose (h : Tidy allMemory s) : TidyChoice (choose s) := by
  unfold choose
  extract_lets c
  split
  · exact tidyChoice_event (tidy_execWatchdogExpiry h)
  · split
    · exact tidyChoice_event (tidy_execQntExpiry h)
    · split
      · exact tidyChoice_issue
      · exact tidy_background h

/-! ### Sys2Proof/Machine/Step.lean -/

theorem tidy_thenState {f : State → State} {o : Host.Outcome State Fault Refusal} (hf : ∀ s, Tidy K s → Tidy K (f s))
    (ho : TidyNext K o) : TidyNext K (thenState f o) := by
  cases o with
  | next s => exact .next (hf s (ho s rfl))
  | fault r => exact .fault
  | refused r => exact .refused

theorem tidy_issueOn {phys : Nat} (h : Tidy allMemory s) : TidyNext allMemory (issueOn phys s) := by
  have hp := tidy_prepare (phys := phys) h
  have hafter {pc : Word} {n : Nat} {i : Option Instr} :
      ∀ t, Tidy allMemory t → Tidy allMemory (passCycle phys (afterInstr phys n pc i t)) :=
    fun _ ht => tidy_passCycle (tidy_afterInstr ht)
  unfold issueOn
  split
  · rename_i he
    exact .next (tidy_passCycle (TidyPrepared.of_eq he hp))
  · rename_i he
    exact tidy_thenState hafter (tidy_exec (TidyPrepared.of_eq he hp))
  · rename_i he
    exact tidy_thenState hafter (tidy_execHole (TidyPrepared.of_eq he hp))
  · rename_i he
    exact tidy_thenState hafter (tidy_execFetchFault (TidyPrepared.of_eq he hp))

theorem tidy_doMove {m : Move} (h : Tidy allMemory s) : TidyNext allMemory (doMove m s) := by
  unfold doMove
  split
  · exact tidy_thenState (fun _ => tidy_wakeAll) (tidy_exec h)
  · exact tidy_issueOn h
  · exact .next (h.same rfl)
  · exact .next (tidy_countCorrected h)
  · exact .next (tidy_markBad h)
  · exact .next (tidy_onCore h fun _ hc => hc)

theorem tidy_step (h : Tidy allMemory s) : TidyNext allMemory (step s) := by
  unfold step
  split
  · exact tidy_doMove (h.same rfl)
  · refine .ite .fault ?_
    split
    · exact tidy_issueOn h
    · rename_i he
      exact tidy_thenState (fun _ ht => tidy_passCycle (tidy_wakeAll ht)) (tidy_choose h _ he)
    · exact .next (tidy_passIdle h)

theorem memoriesCanonical_iff : Safety.MemoriesCanonical s ↔ Tidy allMemory s :=
  ⟨fun ⟨hmem, hlocals⟩ => .of_allCores (fun _ => hmem) (fun c hc a ha _ => hlocals c hc a ha) fun _ => tidy_anyCluster,
    fun h => ⟨h.mem trivial, fun c hc a ha => h.cores c hc a ha trivial⟩⟩

/-- Settles O60: every function that a step can run leaves memory and the local stores in the canonical form. -/
theorem memoryStaysCanonical : Obligations.MemoryStaysCanonical := by
  unfold Obligations.MemoryStaysCanonical
  intro s t hs ht
  exact memoriesCanonical_iff.mpr (TidyNext.of_eq ht (tidy_step (memoriesCanonical_iff.mp hs)))

end

end Sys2Proof.Machine
end

section
/-!
Settles O49. What the host and the other packages write is there after it, whatever the access had to wake or combine first; the loss
of a link.
-/

namespace Sys2Proof.Machine

-- One proof after another: proofs checked side by side need more memory than the check of the whole text has.
set_option Elab.async false

variable {s t : State}

/-! ### Bytes of one line written at their home -/

theorem cellsOf_cons (pa : Nat) (b : Byte) (bs : List Byte) : cellsOf pa (b :: bs) = (pa, b) :: cellsOf (pa + 1) bs := by
  simp [cellsOf, List.range_succ_eq_map, List.zipWith_map_left, Nat.add_assoc, Nat.add_comm 1]

theorem memPut_cellsOf : ∀ (bytes : List Byte) (m : Memory) (pa : Nat), memPut m (cellsOf pa bytes) = memWrite m pa bytes
  | [], _, _ => rfl
  | b :: bs, m, pa => by
    rw [cellsOf_cons, memPut, List.foldl_cons]
    exact memPut_cellsOf bs (memSet m pa b) (pa + 1)

theorem mem_cellsOf {pa : Nat} {bytes : List Byte} {c : Nat × Byte} (h : c ∈ cellsOf pa bytes) :
    pa ≤ c.1 ∧ c.1 < pa + bytes.length := by
  induction bytes generalizing pa with
  | nil => cases h
  | cons b bs ih =>
    rw [cellsOf_cons] at h
    rcases List.mem_cons.mp h with rfl | h
    · simp
    · have := ih h
      simp only [List.length_cons]
      omega

/-- Bytes within one line are all of that line. -/
theorem cellsOf_line {pa : Nat} {bytes : List Byte} (hpa : pa % 64 + bytes.length ≤ 64) (line : Nat) :
    (cellsOf pa bytes).filter (fun c => c.1 / 64 == line) = if line = pa / 64 then cellsOf pa bytes else [] := by
  have hline : ∀ c ∈ cellsOf pa bytes, c.1 / 64 = pa / 64 := fun c hc => by
    have := mem_cellsOf hc
    omega
  split
  · rename_i h
    exact List.filter_eq_self.mpr fun c hc => by simp [hline c hc, h]
  · rename_i h
    exact List.filter_eq_nil_iff.mpr fun c hc => by simpa [hline c hc] using Ne.symm h

theorem homeWrite_nil (s : State) : homeWrite [] s = s := rfl

/-- Only the line of the bytes is written. -/
theorem homeWriteBytes_line {pa : Nat} {bytes : List Byte} (hpa : pa % 64 + bytes.length ≤ 64) (s : State) :
    homeWriteBytes pa bytes s = homeWrite (cellsOf pa bytes) s := by
  have hrest : ∀ (l : List Nat) (u : State), pa / 64 ∉ l →
      l.foldl (fun s line => homeWrite ((cellsOf pa bytes).filter (fun c => c.1 / 64 == line)) s) u = u := by
    intro l u hl
    refine List.foldlRecOn (motive := fun t => t = u) l _ rfl fun t ht line hline => ?_
    rw [cellsOf_line hpa, if_neg (ne_of_mem_of_not_mem hline hl), homeWrite_nil, ht]
  unfold homeWriteBytes
  rw [List.range_succ_eq_map, List.map_cons, List.foldl_cons, Nat.zero_add, cellsOf_line hpa, if_pos rfl]
  refine hrest _ _ fun h => ?_
  simp only [List.map_map, List.mem_map, Function.comp_apply] at h
  omega

theorem homePut_mem (cells : List (Nat × Byte)) (s : State) : (homePut cells s).mem = memPut s.mem cells := by
  cases cells with
  | nil => rfl
  | cons c rest =>
    unfold homePut
    dsimp only
    split
    · exact (keepsMem_enterDie _ _).mem
    · exact (keepsMem_writtenCells _ _ _).mem.trans (keepsMem_enterDie _ _).mem

/-- Memory alone is in the canonical form. -/
def memoryOnly : Upkeep := ⟨True, False, fun _ => False⟩

theorem tidy_memoryOnly_iff : Tidy memoryOnly s ↔ Memory.wf s.mem :=
  ⟨fun h => h.mem trivial, fun h => .of_allCores (fun _ => h) (fun _ _ _ _ hk => hk.elim) fun _ hk => hk.elim⟩

/-- Bytes of one line that are written at their home are there. -/
theorem homeWriteBytes_read {pa : Nat} {bytes : List Byte} (hpa : pa % 64 + bytes.length ≤ 64) (h : Tidy memoryOnly s) :
    memRead (homeWriteBytes pa bytes s).mem pa bytes.length = bytes := by
  rw [homeWriteBytes_line hpa]
  cases bytes with
  | nil => rfl
  | cons b bs =>
    have hwrite : homeWrite (cellsOf pa (b :: bs)) s = homePut (cellsOf pa (b :: bs)) (reachHome (pa / 64) s) := by
      rw [cellsOf_cons]
      rfl
    rw [hwrite, homePut_mem, memPut_cellsOf]
    exact memRead_memWrite pa _ (tidy_memoryOnly_iff.mp (tidy_reachHome h))

/-! ### Lines that are not bad stay so -/

theorem readyPush_badLines {cl : Nat} {e : ReadyEntry} (h : readyPush cl e s = some t) : t.badLines = s.badLines := by
  unfold readyPush at h
  split at h
  · cases h
    rfl
  · split at h
    · cases h
    · split at h
      · cases h
        rfl
      · cases h

theorem readyContinuation_badLines (e : ReadyEntry) (s : State) : (readyContinuation e s).badLines = s.badLines := by
  unfold readyContinuation
  split
  · exact readyPush_badLines ‹_›
  · exact record_badLines _ _ _ _ _ _ _

/-- What every step leaves is left after the run. -/
theorem foldl_badLines {α : Type} {f : State → α → State} (hf : ∀ s x, (f s x).badLines = s.badLines) (l : List α) (s : State) :
    (l.foldl f s).badLines = s.badLines := foldl_keeps (P := fun t => t.badLines = s.badLines) (fun t x ht => (hf t x).trans ht) l s rfl

theorem refillWatches_badLines (cl : Nat) (s : State) : (refillWatches cl s).badLines = s.badLines := by
  unfold refillWatches
  refine foldl_badLines (fun u w => ?_) _ s
  dsimp only
  split
  · rfl
  · split
    · exact readyContinuation_badLines _ _
    · rfl

theorem evalWatchesOf_badLines (point : Option Nat) (p : Place) (n cl : Nat) (s : State) :
    (evalWatchesOf point p n cl s).badLines = s.badLines := by
  unfold evalWatchesOf
  dsimp only
  split
  · rw [refillWatches_badLines, foldl_badLines fun _ _ => readyContinuation_badLines _ _]
    rfl
  · rfl

theorem evalOverflow_badLines (p : Place) (n : Nat) (s : State) : (evalOverflow p n s).badLines = s.badLines := by
  unfold evalOverflow
  dsimp only
  split
  · rfl
  · rw [foldl_badLines fun _ _ => readyContinuation_badLines _ _]

theorem written_badLines (point : Option Nat) (p : Place) (n : Nat) (s : State) : (written point p n s).badLines = s.badLines := by
  unfold written
  cases point with
  | some cl => exact evalWatchesOf_badLines _ _ _ _ _
  | none => exact (evalOverflow_badLines _ _ _).trans (foldl_badLines (fun _ _ => evalWatchesOf_badLines _ _ _ _ _) _ _)

theorem enterDie_badLines (line : Nat) (s : State) : (enterDie line s).badLines = s.badLines := by
  unfold enterDie
  dsimp only
  repeat' split
  all_goals rfl

theorem homePut_badLines (cells : List (Nat × Byte)) (s : State) : (homePut cells s).badLines ⊆ s.badLines := by
  cases cells with
  | nil => exact fun _ h => h
  | cons c rest =>
    have hdie : (homePut (c :: rest) s).badLines =
        if (c :: rest).length ≥ 64 then s.badLines.filter (· != c.1 / 64) else s.badLines := by
      unfold homePut
      dsimp only
      split
      · exact enterDie_badLines _ _
      · exact (foldl_badLines (fun _ _ => written_badLines _ _ _ _) _ _).trans (enterDie_badLines _ _)
    rw [hdie]
    split
    · exact List.filter_subset_self _
    · exact fun _ h => h

theorem combineHome_badLines (line : Nat) (s : State) : (combineAt none line s).badLines ⊆ s.badLines := by
  have htake : (takePartials none line s).2.badLines = s.badLines := by
    unfold takePartials
    dsimp only
    split <;> rfl
  unfold combineAt
  generalize takePartials none line s = r at htake
  obtain ⟨ps, u⟩ := r
  cases ps with
  | nil => exact fun _ h => h
  | cons p ps =>
    refine foldl_keeps (P := fun t => t.badLines ⊆ s.badLines) (fun t q ht => List.Subset.trans (homePut_badLines _ t) ht) _ _ ?_
    dsimp only at htake ⊢
    split
    · rw [errorRecorded, record_badLines, htake]
      exact List.Subset.refl _
    · rw [htake]
      exact List.Subset.refl _

theorem reachHome_badLines (line : Nat) (s : State) : (reachHome line s).badLines ⊆ s.badLines := by
  unfold reachHome
  split
  · exact combineHome_badLines line s
  · exact fun _ h => h

theorem raiseWake_badLines (b : Nat) (s : State) : (raiseWake b s).badLines = s.badLines := by
  unfold raiseWake
  split
  · split <;> rfl
  · rfl

theorem nextInLine_badLines (front : Nat) (s : State) : (nextInLine front s).badLines = s.badLines := by
  unfold nextInLine
  dsimp only
  split
  · rfl
  · exact raiseWake_badLines _ _

theorem activate_badLines (b asked : Nat) (fromOff touched : Bool) (s : State) : (activate b asked fromOff touched s).badLines = s.badLines := by
  unfold activate
  cases fromOff <;> rfl

theorem wakeNow_badLines (b : Nat) (s : State) : (wakeNow b s).badLines = s.badLines := by
  unfold wakeNow
  split
  · rfl
  · dsimp only
    split
    · exact activate_badLines _ _ _ _ _
    · exact (nextInLine_badLines _ _).trans (activate_badLines _ _ _ _ _)

theorem wakeBank_badLines (pa : Nat) (s : State) : (wakeBank pa s).badLines = s.badLines := by
  unfold wakeBank
  split
  · exact (enterDie_badLines _ _).trans (wakeNow_badLines _ _)
  · rfl

/-! ### Accesses of the host -/

theorem execCxlMemWrite_cases (tag : Nat) {pa : Nat} {bytes : List Byte} (hpa : pa % 64 + bytes.length ≤ 64) (s : State) :
    (hostReaches s tag pa = false → exec (.cxlMemWrite (tag, pa) bytes) s = .next (ejected tag pa s)) ∧
    (hostReaches s tag pa = true → ownedLine s (pa / 64) = true → exec (.cxlMemWrite (tag, pa) bytes) s = .next s) ∧
    (hostReaches s tag pa = true → ownedLine s (pa / 64) = false →
      (pa / 64 ∈ s.hostLines → exec (.cxlMemWrite (tag, pa) bytes) s = .next (backInvalidate (pa / 64) s)) ∧
      (pa / 64 ∉ s.hostLines → pa / 64 ∈ s.badLines → bytes.length < 64 →
        exec (.cxlMemWrite (tag, pa) bytes) s = .next (errorRecorded tag 0x3FFF (pa / 64) (wakeBank pa s))) ∧
      (pa / 64 ∉ s.hostLines → (pa / 64 ∉ s.badLines ∨ bytes.length = 64) → Memory.wf s.mem →
        ∃ t, exec (.cxlMemWrite (tag, pa) bytes) s = .next t ∧ memRead t.mem pa bytes.length = bytes)) := by
  have hrun : exec (.cxlMemWrite (tag, pa) bytes) s = .next (if 64 < pa % 64 + bytes.length then s
      else if !hostReaches s tag pa then ejected tag pa s
      else if ownedLine s (pa / 64) then s
      else if s.hostLines.contains (pa / 64) then backInvalidate (pa / 64) s
      else if s.badLines.contains (pa / 64) && bytes.length < 64 then errorRecorded tag 0x3FFF (pa / 64) (wakeBank pa s)
      else homeWriteBytes pa bytes (wakeBank pa s)) := rfl
  rw [hrun, if_neg (Nat.not_lt.mpr hpa)]
  refine ⟨fun hr => by simp [hr], fun hr ho => by simp [hr, ho], fun hr ho => ⟨fun hl => by simp [hr, ho, hl], ?_, ?_⟩⟩
  · intro hl hb hlen
    simp [hr, ho, hl, hb, hlen]
  · intro hl hb hwf
    refine ⟨_, rfl, ?_⟩
    have hwhole : ¬ (pa / 64 ∈ s.badLines ∧ bytes.length < 64) := by
      rintro ⟨hbad, hlen⟩
      exact hb.elim (· hbad) fun h => by omega
    simp only [hr, ho, hl, hwhole, List.contains_iff_mem, Bool.and_eq_true, decide_eq_true_eq, Bool.not_true, Bool.false_eq_true, if_false]
    exact homeWriteBytes_read hpa (tidy_wakeBank (tidy_memoryOnly_iff.mpr hwf))

theorem execCxlMemRead_cases (tag pa : Nat) (s : State) :
    (hostReaches s tag pa = false → exec (.cxlMemRead (tag, pa)) s = .next (ejected tag pa s)) ∧
    (hostReaches s tag pa = true → ownedLine s (pa / 64) = true → exec (.cxlMemRead (tag, pa)) s = .next s) ∧
    (hostReaches s tag pa = true → ownedLine s (pa / 64) = false →
      (hasPartials (pa / 64) s = true → pa / 64 ∈ s.hostLines → exec (.cxlMemRead (tag, pa)) s = .next (backInvalidate (pa / 64) s)) ∧
      (isDram pa = true → (hasPartials (pa / 64) s = false ∨ pa / 64 ∉ s.hostLines) →
        ∃ t, exec (.cxlMemRead (tag, pa)) s = .next t ∧ pa / 64 ∈ t.hostLines)) := by
  have hrun : exec (.cxlMemRead (tag, pa)) s = .next (if !hostReaches s tag pa then ejected tag pa s
      else if ownedLine s (pa / 64) then s
      else if hasPartials (pa / 64) s && s.hostLines.contains (pa / 64) then backInvalidate (pa / 64) s
      else
        let s := readOutside tag pa (reachHome (pa / 64) (wakeBank pa s))
        if isDram pa && !s.hostLines.contains (pa / 64) then { s with hostLines := s.hostLines ++ [pa / 64] } else s) := rfl
  rw [hrun]
  refine ⟨fun hr => by simp [hr], fun hr ho => by simp [hr, ho], fun hr ho => ⟨fun hp hl => by simp [hr, ho, hp, hl], ?_⟩⟩
  intro hdram hfree
  refine ⟨_, rfl, ?_⟩
  have hgo : (hasPartials (pa / 64) s && s.hostLines.contains (pa / 64)) = false := by
    rcases hfree with h | h <;> simp [h]
  simp only [hr, ho, hgo, hdram, Bool.not_true, Bool.false_eq_true, if_false, Bool.true_and]
  split
  · exact List.mem_append_right _ List.mem_cons_self
  · rename_i hin
    simpa using hin

theorem execHostSnoop_cases {pa : Nat} {bytes : List Byte} (hhost : isHost pa = true) (hpa : pa % 64 + bytes.length ≤ 64) (s : State) :
    (ownedLine s (pa / 64) = true → exec (.hostSnoop pa bytes) s = .next s) ∧
    (ownedLine s (pa / 64) = false → Memory.wf s.mem →
      ∃ t, exec (.hostSnoop pa bytes) s = .next t ∧ memRead t.mem pa bytes.length = bytes) := by
  have hrun : exec (.hostSnoop pa bytes) s = .next (if !isHost pa || 64 < pa % 64 + bytes.length || ownedLine s (pa / 64) then s
      else homeWriteBytes pa bytes (reachHome (pa / 64) (dropCopies (pa / 64) s))) := rfl
  rw [hrun]
  refine ⟨fun ho => by simp [ho], fun ho hwf => ⟨_, rfl, ?_⟩⟩
  simp only [hhost, ho, Nat.not_lt.mpr hpa, Bool.not_true, decide_false, Bool.or_self, Bool.false_eq_true, if_false]
  exact homeWriteBytes_read hpa (tidy_reachHome (tidy_dropCopies (tidy_memoryOnly_iff.mpr hwf)))

/-! ### An acknowledgement that no access waits for -/

theorem performHome_none {line phys : Nat} {s : State} (h : ∀ q ∈ (coreAt s phys).pend, q.homeLine ≠ some line) :
    (List.range (coreAt s phys).pend.length).find? (fun n =>
      ((coreAt s phys).pend[n]?).any (fun q => q.homeLine == some line && pendDue s phys n q)) = none := by
  refine List.find?_eq_none.mpr fun n _ hany => ?_
  obtain ⟨q, hq, hhome⟩ := (Option.any_eq_true _ _).mp hany
  exact h q (List.mem_of_getElem? hq) (by simpa using (Bool.and_eq_true_iff.mp hhome).1)

theorem coreAt_pend_of_all {P : PendAcc → Prop} (h : ∀ c ∈ allCores s, ∀ q ∈ c.pend, P q) (phys : Nat) :
    ∀ q ∈ (coreAt s phys).pend, P q := by
  rcases coreAt_mem_or s phys with hc | hc
  · exact h _ hc
  · rw [hc]
    exact fun q hq => absurd hq List.not_mem_nil

theorem execBackInvalidationAck_cases (line : Nat) (s : State) :
    (line ∉ s.hostWaits → exec (.backInvalidationAck line) s = .next s) ∧
    (line ∈ s.hostWaits → (∀ c ∈ allCores s, ∀ q ∈ c.pend, q.homeLine ≠ some line) →
      exec (.backInvalidationAck line) s = .next (redoAll (s.parts.map Partition.tag)
        { s with hostWaits := s.hostWaits.filter (· != line), hostLines := s.hostLines.filter (· != line) })) := by
  refine ⟨fun h => ?_, fun h hpend => ?_⟩
  · change execBackInvalidationAck line s = _
    simp [execBackInvalidationAck, h]
  · change execBackInvalidationAck line s = _
    unfold execBackInvalidationAck
    rw [if_neg (by simpa using h)]
    refine congrArg (fun t => Host.Outcome.next (redoAll _ t)) ?_
    generalize hu : ({ s with hostWaits := _, hostLines := _ } : State) = u
    have hpendU : ∀ c ∈ allCores u, ∀ q ∈ c.pend, q.homeLine ≠ some line := hu ▸ hpend
    refine List.foldlRecOn (motive := fun t => t = u) _ _ rfl fun t ht c _ => ?_
    subst ht
    rw [performHome_none (coreAt_pend_of_all hpendU _)]

/-! ### Stores of other packages -/

theorem execRemoteStore_cases (tag : Nat) {pa : Nat} {bytes : List Byte} (hpa : pa % 64 + bytes.length ≤ 64) (s : State) :
    (isDram pa = false ∨ (bankAt s (bankOf pa)).owner ≠ some tag → exec (.bolmorRemoteAccess tag pa 1 bytes) s = .next (ejected tag pa s)) ∧
    (isDram pa = true → (bankAt s (bankOf pa)).owner = some tag →
      (ownedLine s (pa / 64) = true → exec (.bolmorRemoteAccess tag pa 1 bytes) s = .next s) ∧
      (ownedLine s (pa / 64) = false → pa / 64 ∈ s.hostLines → exec (.bolmorRemoteAccess tag pa 1 bytes) s = .next (backInvalidate (pa / 64) s)) ∧
      (ownedLine s (pa / 64) = false → pa / 64 ∉ s.hostLines → (pa / 64 ∉ s.badLines ∨ bytes.length = 64) → Memory.wf s.mem →
        ∃ t, exec (.bolmorRemoteAccess tag pa 1 bytes) s = .next t ∧ memRead t.mem pa bytes.length = bytes)) := by
  have hrun : exec (.bolmorRemoteAccess tag pa 1 bytes) s = .next (if 64 < pa % 64 + bytes.length || 15 < 1 then s
      else if !isDram pa || (bankAt s (bankOf pa)).owner ≠ some tag then ejected tag pa s
      else if ownedLine s (pa / 64) then s
      else if (1 ≠ 0 || hasPartials (pa / 64) s) && s.hostLines.contains (pa / 64) then backInvalidate (pa / 64) s
      else remoteAccess tag pa 1 bytes s) := rfl
  have hstore : remoteAccess tag pa 1 bytes s =
      let u := reachHome (pa / 64) (wakeBank pa s)
      if u.badLines.contains (pa / 64) && bytes.length < 64 then errorRecorded tag 0x3FFF (pa / 64) u
      else homeWriteBytes pa bytes u := rfl
  have hin : ¬ 64 < pa % 64 + bytes.length := Nat.not_lt.mpr hpa
  rw [hrun]
  refine ⟨fun h => ?_, fun hdram hown => ⟨fun ho => ?_, fun ho hl => ?_, fun ho hl hb hwf => ⟨_, rfl, ?_⟩⟩⟩
  · rcases h with h | h <;> simp [hin, h]
  · simp [hin, hdram, hown, ho]
  · simp [hin, hdram, hown, ho, hl]
  · have hwhole : ¬ (pa / 64 ∈ (reachHome (pa / 64) (wakeBank pa s)).badLines ∧ bytes.length < 64) := by
      rintro ⟨hbad, hlen⟩
      exact hb.elim (· (wakeBank_badLines pa s ▸ reachHome_badLines _ _ hbad)) fun h => by omega
    have hgo : remoteAccess tag pa 1 bytes s = homeWriteBytes pa bytes (reachHome (pa / 64) (wakeBank pa s)) := by
      rw [hstore]
      simp only [List.contains_iff_mem, Bool.and_eq_true, decide_eq_true_eq, hwhole, if_false]
    simp only [hin, hdram, hown, ho, hl, hgo, List.contains_iff_mem, Bool.and_eq_true, Bool.or_eq_true, decide_eq_true_eq, Bool.not_true,
      Bool.false_eq_true, ne_eq, not_true, or_self, and_false, if_false, show ¬ 15 < 1 by decide]
    exact homeWriteBytes_read hpa (tidy_reachHome (tidy_wakeBank (tidy_memoryOnly_iff.mpr hwf)))

/-! ### The loss of a link -/

/-- A step that leaves memory, partitions and a core's accesses, and takes no trap from one that waits on it. -/
structure Deferring (core : Nat) (s t : State) : Prop where
  mem : t.mem = s.mem
  parts : t.parts = s.parts
  pend : (coreAt t core).pend = (coreAt s core).pend
  deferred : ∀ i, (ctxOf (coreAt s core) i).deferred ⊆ (ctxOf (coreAt t core) i).deferred

namespace Deferring

variable {core : Nat} {u : State}

theorem refl (s : State) : Deferring core s s := ⟨rfl, rfl, rfl, fun _ => List.Subset.refl _⟩

theorem trans (h : Deferring core s t) (h' : Deferring core t u) : Deferring core s u :=
  ⟨h'.mem.trans h.mem, h'.parts.trans h.parts, h'.pend.trans h.pend, fun i => List.Subset.trans (h.deferred i) (h'.deferred i)⟩

theorem foldl {α : Type} {f : State → α → State} (hf : ∀ s x, Deferring core s (f s x)) (l : List α) (s : State) :
    Deferring core s (l.foldl f s) := foldl_keeps (P := Deferring core s) (fun t x ht => ht.trans (hf t x)) l s (refl s)

/-- A context that keeps the traps it has. -/
theorem onCtx {g : Ctx → Ctx} (hg : ∀ x, x.deferred ⊆ (g x).deferred) (phys i : Nat) (s : State) : Deferring core s (onCtx phys i g s) := by
  have hcore : (coreAt (Machine.onCtx phys i g s) core).pend = (coreAt s core).pend ∧
      ∀ k, (ctxOf (coreAt s core) k).deferred ⊆ (ctxOf (coreAt (Machine.onCtx phys i g s) core) k).deferred := by
    by_cases hc : phys = core
    · subst hc
      rw [coreAt_onCtx]
      refine ⟨putCtx_pend _ _ _, fun k => ?_⟩
      unfold ctxOf putCtx
      by_cases hi : 0 < i ∧ i ≤ 10 <;> by_cases hk : 0 < k ∧ k ≤ 10 <;> simp only [hi, hk, and_self, dite_true, dite_false]
      · by_cases he : i - 1 = k - 1
        · simp only [he, Vector.getElem_set_self]
          exact hg _
        · rw [Vector.getElem_set_ne _ _ he]
          exact List.Subset.refl _
      · exact List.Subset.refl _
      · exact List.Subset.refl _
      · exact hg _
    · rw [coreAt_onCtx_ne hc]
      exact ⟨rfl, fun _ => List.Subset.refl _⟩
  exact ⟨onCtx_mem _ _ _ _, onCtx_parts _ _ _ _, hcore.1, hcore.2⟩

theorem deferTrap (phys i : Nat) (d : Deferred) (s : State) : Deferring core s (deferTrap phys i d s) :=
  onCtx (fun _ => List.subset_append_left _ _) phys i s

theorem trapProxy (q : ProxyReq) (cause : BitVec 8) (eval einfo : Word) (s : State) :
    Deferring core s (trapProxy q cause eval einfo s) := by
  unfold Machine.trapProxy
  split
  · rename_i hret
    rw [answerProxy_returns hret]
    refine onCtx (fun x => ?_) _ _ _
    unfold proxyReplied
    split <;> exact List.Subset.refl _
  · exact deferTrap _ _ _ _

theorem failProxies (phys n : Nat) (die : Fin 4) (s : State) : Deferring core s (failProxies phys n die s) := by
  unfold Machine.failProxies
  extract_lets l mine
  have hset : Deferring core s (setProxies die (l.filter fun q => !mine q) s) := ⟨rfl, rfl, rfl, fun _ => List.Subset.refl _⟩
  exact hset.trans (foldl (fun _ _ => trapProxy _ _ _ _ _) _ _)

end Deferring

theorem deferTrap_deferred (phys i : Nat) (d : Deferred) (s : State) : d ∈ (ctxOf (coreAt (deferTrap phys i d s) phys) i).deferred := by
  rw [deferTrap, ctxOf_onCtx]
  exact List.mem_append_right _ List.mem_cons_self

/-- A control core holds no proxy atomic of a core to a package. -/
def NoProxies (phys n : Nat) (d : Fin 4) (s : State) : Prop :=
  ∀ q ∈ (s.dies.get d).proxies, ¬ (q.phys = phys ∧ packageOf q.pa = some n)

theorem failProxies_dies (phys n : Nat) (die : Fin 4) (s : State) : (failProxies phys n die s).dies =
    (setProxies die (s.dies[die].proxies.filter fun q => !(q.phys == phys && packageOf q.pa == some n)) s).dies := by
  unfold failProxies
  dsimp only
  refine foldl_keeps (P := fun t => t.dies = _) (fun t q ht => ?_) _ _ rfl
  exact (trapProxy_frame _ _ _ _ _).2.2.trans ht

theorem noProxies_failProxies (phys n : Nat) (die : Fin 4) (s : State) : NoProxies phys n die (failProxies phys n die s) := by
  intro q hq
  rw [failProxies_dies, proxies_setProxies] at hq
  have hother := (List.mem_filter.mp hq).2
  rintro ⟨hphys, hpack⟩
  simp [hphys, hpack] at hother

theorem NoProxies.failProxies {phys n : Nat} {d : Fin 4} (h : NoProxies phys n d s) (die : Fin 4) :
    NoProxies phys n d (failProxies phys n die s) := by
  by_cases hd : die = d
  · exact hd ▸ noProxies_failProxies phys n die s
  · have hother : (Machine.failProxies phys n die s).dies.get d = s.dies.get d := by
      rw [failProxies_dies]
      simp only [setProxies, Vector.get_eq_getElem]
      exact Vector.getElem_set_ne _ _ fun e => hd (Fin.ext e)
    unfold NoProxies
    rw [hother]
    exact h

/-- A core whose accesses to a package fail. -/
def linkLost (n : Nat) (c : Core) : Core :=
  { c with
    ctl := failProducers n c.ctl, helpers := c.helpers.map (failProducers n)
    pend := c.pend.filter (fun q => !q.place.inPackage n) }

/-- Every access of a list has a machine error waiting at its context. -/
def deferLost (core : Nat) (lost : List PendAcc) (s : State) : State :=
  lost.foldl (fun s q => deferTrap core q.ctx ⟨0x17, q.va, 0⟩ s) s

/-- The proxy atomics of a core to a package fail at every control core. -/
def failAllProxies (core n : Nat) (s : State) : State := (List.finRange 4).foldl (fun s die => failProxies core n die s) s

theorem execLinkRetryExhausted_eq (core n : Nat) (s : State) : execLinkRetryExhausted (core, some n) s =
    .next (failAllProxies core n (deferLost core ((coreAt s core).pend.filter (·.place.inPackage n)) (onCore core (linkLost n) s))) := rfl

theorem deferring_deferLost (core : Nat) (lost : List PendAcc) (s : State) : Deferring core s (deferLost core lost s) :=
  .foldl (fun _ _ => .deferTrap _ _ _ _) _ _

theorem deferring_failAllProxies (core n : Nat) (s : State) : Deferring core s (failAllProxies core n s) :=
  .foldl (fun _ _ => .failProxies _ _ _ _) _ _

theorem deferLost_deferred {core : Nat} {lost : List PendAcc} {q : PendAcc} (hq : q ∈ lost) (s : State) :
    ⟨0x17, q.va, 0⟩ ∈ (ctxOf (coreAt (deferLost core lost s) core) q.ctx).deferred := by
  unfold deferLost
  refine foldl_reaches (P := fun t => ⟨0x17, q.va, 0⟩ ∈ (ctxOf (coreAt t core) q.ctx).deferred) (fun t => ?_)
    (fun t y ht => ?_) lost s hq
  · exact deferTrap_deferred core q.ctx ⟨0x17, q.va, 0⟩ t
  · exact (Deferring.deferTrap core y.ctx ⟨0x17, y.va, 0⟩ t).deferred q.ctx ht

theorem noProxies_failAllProxies (core n : Nat) (d : Fin 4) (s : State) : NoProxies core n d (failAllProxies core n s) :=
  foldl_reaches (fun t => noProxies_failProxies core n d t) (fun _ die ht => ht.failProxies die) _ s (List.mem_finRange d)

theorem linkLost_pend (core n : Nat) (s : State) :
    (coreAt (onCore core (linkLost n) s) core).pend = (coreAt s core).pend.filter (fun q => !q.place.inPackage n) := by
  rw [coreAt_onCore (f := linkLost n) fun _ => rfl]
  rfl

theorem execLinkRetryExhausted_cases (core n : Nat) (s : State) :
    ∃ t, exec (.linkRetryExhausted (core, some n)) s = .next t ∧ t.mem = s.mem ∧ t.parts = s.parts ∧
      (coreAt t core).pend = (coreAt s core).pend.filter (fun q => !q.place.inPackage n) ∧
      (∀ q ∈ (coreAt s core).pend, q.place.inPackage n = true → ⟨0x17, q.va, 0⟩ ∈ (ctxOf (coreAt t core) q.ctx).deferred) ∧
      (∀ (d : Fin 4), ∀ q ∈ (t.dies.get d).proxies, ¬ (q.phys = core ∧ packageOf q.pa = some n)) := by
  refine ⟨_, execLinkRetryExhausted_eq core n s, ?_⟩
  generalize hlost : (coreAt s core).pend.filter (·.place.inPackage n) = lost
  have hproxies := deferring_failAllProxies core n (deferLost core lost (onCore core (linkLost n) s))
  have hleft := (deferring_deferLost core lost (onCore core (linkLost n) s)).trans hproxies
  refine ⟨hleft.mem.trans (onCore_mem _ _ _), hleft.parts.trans (onCore_parts _ _ _), hleft.pend.trans (linkLost_pend core n s),
    fun q hq hn => ?_, fun d => noProxies_failAllProxies core n d _⟩
  exact hproxies.deferred q.ctx (deferLost_deferred (hlost ▸ List.mem_filter.mpr ⟨hq, hn⟩) _)

theorem execTreesFail_cases (core : Nat) (s : State) :
    (∀ p, partAt s (corePart (coreAt s core)) = some p → exec (.linkRetryExhausted (core, none)) s = .next (failTrees core p s)) ∧
    (partAt s (corePart (coreAt s core)) = none → exec (.linkRetryExhausted (core, none)) s = .next s) := by
  have hrun : exec (.linkRetryExhausted (core, none)) s =
      .next (((partAt s (corePart (coreAt s core))).map (fun p => failTrees core p s)).getD s) := rfl
  rw [hrun]
  exact ⟨fun p hp => by simp [hp], fun hp => by simp [hp]⟩

/-- Settles O49, clause by clause: the host's accesses, then those of other packages and the loss of a link. -/
theorem outsideAccesses : Obligations.OutsideAccesses := by
  unfold Obligations.OutsideAccesses
  refine ⟨fun pa s => ⟨fun tag bytes hpa => ?_, fun tag => ?_, fun bytes hhost hpa => ?_, fun line => ?_⟩, fun tag pa bytes s hpa => ?_,
    execLinkRetryExhausted_cases, execTreesFail_cases⟩
  · exact execCxlMemWrite_cases tag hpa s
  · exact execCxlMemRead_cases tag pa s
  · exact execHostSnoop_cases hhost hpa s
  · exact execBackInvalidationAck_cases line s
  · exact execRemoteStore_cases tag hpa s

end Sys2Proof.Machine
end

section
/-!
Settles O51. Banks: retention, wake slots, wakes, power-down. Clusters: what a rest leaves in the cache, and what an exit leaves.
-/

namespace Sys2Proof.Machine

-- One proof after another: proofs checked side by side need more memory than the check of the whole text has.
set_option Elab.async false

variable {s t u : State}

/-! ### Banks -/

theorem execBankRetentionEntry_cases (b : Nat) (s : State) : let k := bankAt s b
    let rests := k.state = .active ∧ k.owner.isSome = true ∧ 20 ≤ bankAge s b ∧ k.stay ≤ s.time ∧ heldByPhase s b = false
    (rests → exec (.bankRetentionEntry b) s = .next (onBank b (fun k => { k with state := .retention, entered := s.time })
      { s with sleepers := s.sleepers.filter (fun x => !(isDram (x.1 * 64) && bankOf (x.1 * 64) == b)) })) ∧
    (¬ rests → exec (.bankRetentionEntry b) s = .next s) := by
  intro k rests
  change (rests → execBankRetentionEntry b s = _) ∧ (¬ rests → execBankRetentionEntry b s = _)
  have hiff : (k.state == .active && k.owner.isSome && 20 ≤ bankAge s b && k.stay ≤ s.time && !heldByPhase s b) = true ↔ rests := by
    simp [rests, and_assoc]
  unfold execBankRetentionEntry
  exact ⟨fun h => congrArg _ (if_pos (hiff.mpr h)), fun h => congrArg _ (if_neg (mt hiff.mp h))⟩

/-- The wake that gets a slot: no demand waits before it and, if it is none itself, none at all. -/
theorem nextWake_eq {die : Nat} {before after : List Wake} {w : Wake} (hwakes : s.wakes = before ++ w :: after)
    (harb : arbiterOf w.bank = die) (hfree : w.granted = false)
    (hbefore : ∀ x ∈ before, arbiterOf x.bank = die → x.granted = true ∨ (x.demand = false ∧ w.demand = true))
    (hafter : w.demand = true ∨ ∀ x ∈ after, arbiterOf x.bank = die → x.granted = false → x.demand = false) :
    nextWake s die = some w := by
  have hw : (arbiterOf w.bank == die && !w.granted) = true := by simp [harb, hfree]
  unfold nextWake
  rw [hwakes, List.filter_append, List.filter_cons, if_pos hw]
  cases hd : w.demand with
  | true =>
    have hnone : (before.filter (fun w => arbiterOf w.bank == die && !w.granted)).find? (·.demand) = none := by
      refine List.find?_eq_none.mpr fun x hx => ?_
      obtain ⟨hx, hwait⟩ := List.mem_filter.mp hx
      simp only [Bool.and_eq_true, beq_iff_eq, Bool.not_eq_true'] at hwait
      rcases hbefore x hx hwait.1 with h | h
      · simp [hwait.2] at h
      · simp [h.1]
    simp [List.find?_append, hnone, hd]
  | false =>
    have hnil : before.filter (fun w => arbiterOf w.bank == die && !w.granted) = [] := by
      refine List.filter_eq_nil_iff.mpr fun x hx hwait => ?_
      simp only [Bool.and_eq_true, beq_iff_eq, Bool.not_eq_true'] at hwait
      rcases hbefore x hx hwait.1 with h | h
      · simp [hwait.2] at h
      · simp [hd] at h
    have hnone : (after.filter (fun w => arbiterOf w.bank == die && !w.granted)).find? (·.demand) = none := by
      refine List.find?_eq_none.mpr fun x hx => ?_
      obtain ⟨hx, hwait⟩ := List.mem_filter.mp hx
      simp only [Bool.and_eq_true, beq_iff_eq, Bool.not_eq_true'] at hwait
      simp [hafter.resolve_left (by simp [hd]) x hx hwait.1 hwait.2]
    simp [hnil, hd, hnone]

theorem execWakeSlotGrant_cases (die : Nat) (s : State) : (16 ≤ slotsUsed s die → exec (.wakeSlotGrant die) s = .next s) ∧
    (∀ before w after, slotsUsed s die < 16 → s.wakes = before ++ w :: after → arbiterOf w.bank = die → w.granted = false →
      (∀ x ∈ before, arbiterOf x.bank = die → x.granted = true ∨ (x.demand = false ∧ w.demand = true)) →
      (w.demand = true ∨ ∀ x ∈ after, arbiterOf x.bank = die → x.granted = false → x.demand = false) →
      ∃ t, exec (.wakeSlotGrant die) s = .next t ∧
        t.wakes = s.wakes.map (fun x => if x.bank = w.bank then { x with granted := true } else x) ∧
        (bankAt t w.bank).state = (if (bankAt s w.bank).state = .powerDown then .powerDown else .waking) ∧ t.mem = s.mem) := by
  change (_ → execWakeSlotGrant die s = _) ∧ ∀ before w after, _ → _ → _ → _ → _ → _ → ∃ t, execWakeSlotGrant die s = _ ∧ _
  unfold execWakeSlotGrant
  refine ⟨fun h => by rw [if_pos h], fun before w after hslots hwakes harb hfree hbefore hafter => ⟨_, rfl, ?_⟩⟩
  rw [if_neg (Nat.not_le.mpr hslots), nextWake_eq hwakes harb hfree hbefore hafter]
  have hmap : modifyWhere (fun x => x.bank == w.bank) (fun x => { x with granted := true }) s.wakes =
      s.wakes.map (fun x => if x.bank = w.bank then { x with granted := true } else x) := by
    simp [modifyWhere]
  dsimp only
  rw [hmap]
  generalize hu : ({ s with wakes := s.wakes.map (fun x => if x.bank = w.bank then { x with granted := true } else x) } : State) = u
  have hbank : bankAt u w.bank = bankAt s w.bank := hu ▸ rfl
  have hleft : u.wakes = s.wakes.map (fun x => if x.bank = w.bank then { x with granted := true } else x) ∧ u.mem = s.mem := hu ▸ ⟨rfl, rfl⟩
  by_cases hdown : (bankAt s w.bank).state = .powerDown
  · rw [hbank, hdown, if_pos rfl, if_pos (beq_self_eq_true _), hbank, hdown]
    exact ⟨hleft.1, rfl, hleft.2⟩
  · rw [hbank, if_neg (by simpa using hdown), if_neg hdown, bankAt_onBank]
    · exact ⟨hleft.1, rfl, hleft.2⟩
    · exact fun _ => rfl

theorem raiseWake_frame (b : Nat) (s : State) : (raiseWake b s).banks = s.banks ∧ (raiseWake b s).mem = s.mem ∧
    ∀ x ∈ (raiseWake b s).wakes, x.bank = b ∨ x ∈ s.wakes := by
  unfold raiseWake
  split
  · rename_i w hw
    have hb : w.bank = b := by simpa using List.find?_some hw
    split
    · refine ⟨rfl, rfl, fun x hx => ?_⟩
      obtain ⟨y, hy, rfl⟩ := List.mem_map.mp hx
      split
      · rename_i h
        exact .inl (by simpa using h)
      · exact .inr hy
    · refine ⟨rfl, rfl, fun x hx => ?_⟩
      rcases List.mem_append.mp hx with hx | hx
      · exact .inr (List.mem_filter.mp hx).1
      · exact .inl (List.mem_singleton.mp hx ▸ hb)
  · refine ⟨rfl, rfl, fun x hx => ?_⟩
    rcases List.mem_append.mp hx with hx | hx
    · exact .inr hx
    · exact .inl (List.mem_singleton.mp hx ▸ rfl)

/-- What waits next behind a front end is another bank than one that is active there. -/
theorem nextInLine_frame {b : Nat} (hactive : (bankAt s b).state = .active) : (nextInLine (frontEnd b) s).banks = s.banks ∧
    (nextInLine (frontEnd b) s).mem = s.mem ∧ ∀ x ∈ (nextInLine (frontEnd b) s).wakes, x.bank ≠ b ∨ x ∈ s.wakes := by
  unfold nextInLine
  extract_lets s1
  have hqueue : b ∉ s1.wakeQueue := fun h => by
    have := (List.mem_filter.mp h).2
    simp [hactive] at this
  split
  · exact ⟨rfl, rfl, fun x hx => .inr hx⟩
  · rename_i c hc
    obtain ⟨hbanks, hmem, hwakes⟩ := raiseWake_frame c { s1 with wakeQueue := s1.wakeQueue.erase c }
    have hne : c ≠ b := fun e => hqueue (e ▸ List.mem_of_find?_eq_some hc)
    exact ⟨hbanks, hmem, fun x hx => (hwakes x hx).imp (fun e : x.bank = c => e ▸ hne) id⟩

theorem activate_frame (b asked : Nat) (fromOff touched : Bool) (s : State) :
    (bankAt (activate b asked fromOff touched s) b).state = .active ∧ (activate b asked fromOff touched s).wakes = s.wakes ∧
      ∀ a, memGet (activate b asked fromOff touched s).mem a =
        if fromOff = true ∧ (bankRange b).1 ≤ a ∧ a < (bankRange b).1 + (bankRange b).2 then 0 else memGet s.mem a := by
  unfold activate
  refine ⟨?_, ?_, fun a => ?_⟩
  · dsimp only
    rw [bankAt_onBank]
    exact fun _ => rfl
  · cases fromOff <;> rfl
  · cases fromOff with
    | false => simp [onBank]
    | true =>
      change memGet (memClear s.mem (bankRange b).1 (bankRange b).2) a = _
      rw [memGet_memClear]
      simp

theorem execBankWakeComplete_active {b : Nat} {w : Wake} (hwake : s.wakes.find? (fun w => w.bank == b && w.granted) = some w)
    (hdown : (bankAt s b).state ≠ .powerDown) :
    ∃ t, exec (.bankWakeComplete b) s = .next t ∧ (bankAt t b).state = .active ∧ (∀ x ∈ t.wakes, x.bank ≠ b) ∧
      (∀ a, memGet t.mem a =
        if w.fromOff = true ∧ (bankRange b).1 ≤ a ∧ a < (bankRange b).1 + (bankRange b).2 then 0 else memGet s.mem a) := by
  refine ⟨_, rfl, ?_⟩
  rw [hwake]
  dsimp only
  rw [if_neg (by simpa using hdown)]
  obtain ⟨hstate, hwakes, hmem⟩ := activate_frame b w.asked w.fromOff w.demand { s with wakes := s.wakes.filter (·.bank != b) }
  generalize activate b w.asked w.fromOff w.demand { s with wakes := s.wakes.filter (·.bank != b) } = u at hstate hwakes hmem
  have hothers : ∀ x ∈ u.wakes, x.bank ≠ b := fun x hx => by
    rw [hwakes] at hx
    simpa using (List.mem_filter.mp hx).2
  split
  · exact ⟨hstate, hothers, hmem⟩
  · obtain ⟨hbanks, hmem', hwakes'⟩ := nextInLine_frame hstate
    refine ⟨?_, fun x hx => (hwakes' x hx).elim id (hothers x), fun a => hmem' ▸ hmem a⟩
    rw [bankAt, hbanks]
    exact hstate

theorem execBankPowerDownComplete_down {b : Nat} (h : (bankAt s b).state = .powerDown) :
    exec (.bankPowerDownComplete b) s = .next (onBank b (fun k =>
      { k with state := if s.wakes.any (fun w => w.bank == b && w.granted) = true then .waking else .off }) s) := by
  change execBankPowerDownComplete b s = _
  simp [execBankPowerDownComplete, h]

/-! ### Lines of the cluster caches -/

/-- A step after which the caches hold lines that they held, and at most one more. -/
def LinesFrom (new : Option Nat) (s t : State) : Prop :=
  ∀ k, ∀ x ∈ (clusterAt t k).lines, (∃ y ∈ (clusterAt s k).lines, y.line = x.line) ∨ new = some x.line

namespace LinesFrom

variable {new : Option Nat}

theorem refl (s : State) : LinesFrom new s s := fun _ x hx => .inl ⟨x, hx, rfl⟩

theorem trans (h : LinesFrom new s t) (h' : LinesFrom new t u) : LinesFrom new s u := by
  intro k x hx
  rcases h' k x hx with ⟨y, hy, e⟩ | hnew
  · rcases h k y hy with ⟨z, hz, e'⟩ | hnew
    · exact .inl ⟨z, hz, e'.trans e⟩
    · exact .inr (e ▸ hnew)
  · exact .inr hnew

theorem same (h : t.clusters = s.clusters) : LinesFrom new s t := by
  intro k x hx
  rw [clusterAt, h] at hx
  exact .inl ⟨x, hx, rfl⟩

theorem foldl {α : Type} {f : State → α → State} (hf : ∀ s x, LinesFrom new s (f s x)) (l : List α) (s : State) :
    LinesFrom new s (l.foldl f s) := foldl_keeps (P := LinesFrom new s) (fun t x ht => ht.trans (hf t x)) l s (refl s)

theorem onCluster {f : Cluster → Cluster} {cl : Nat}
    (hlines : ∀ c, ∀ x ∈ (f c).lines, (∃ y ∈ c.lines, y.line = x.line) ∨ new = some x.line)
    (hid : ∀ c, (f c).id = c.id := by intro; rfl) : LinesFrom new s (onCluster cl f s) := by
  intro k x hx
  by_cases hk : cl = k
  · subst hk
    rw [clusterAt_onCluster hid] at hx
    exact hlines _ x hx
  · rw [clusterAt_onCluster_ne hid hk] at hx
    exact .inl ⟨x, hx, rfl⟩

/-- A change of a cluster that leaves its cache. -/
theorem elsewhere {f : Cluster → Cluster} {cl : Nat} (hid : ∀ c, (f c).id = c.id := by intro; rfl)
    (hlines : ∀ c, (f c).lines = c.lines := by intro; rfl) : LinesFrom new s (Machine.onCluster cl f s) :=
  onCluster (fun c x hx => .inl ⟨x, hlines c ▸ hx, rfl⟩) hid

/-- A change of lines that keeps which lines they are. -/
theorem modified {p : CLine → Bool} {g : CLine → CLine} {cl : Nat} (hg : ∀ x, (g x).line = x.line := by intro; rfl) :
    LinesFrom new s (Machine.onCluster cl (fun c => { c with lines := modifyWhere p g c.lines }) s) := by
  refine onCluster fun c x hx => .inl ?_
  obtain ⟨y, hy, rfl⟩ := List.mem_map.mp hx
  refine ⟨y, hy, ?_⟩
  split
  · exact (hg y).symm
  · rfl

theorem readyPush {cl : Nat} {e : ReadyEntry} (h : readyPush cl e s = some t) : LinesFrom new s t := by
  unfold Machine.readyPush at h
  split at h
  · cases h
    exact elsewhere
  · split at h
    · cases h
    · split at h
      · cases h
        exact same rfl
      · cases h

theorem record (r code part core : Nat) (d0 d1 : Word) (s : State) : LinesFrom new s (record r code part core d0 d1 s) :=
  same (record_clusters _ _ _ _ _ _ _)

theorem readyContinuation (e : ReadyEntry) (s : State) : LinesFrom new s (readyContinuation e s) := by
  unfold Machine.readyContinuation
  split
  · exact readyPush ‹_›
  · exact record _ _ _ _ _ _ _

theorem refillWatches (cl : Nat) (s : State) : LinesFrom new s (refillWatches cl s) := by
  unfold Machine.refillWatches
  refine foldl (fun u w => ?_) _ s
  dsimp only
  split
  · exact refl u
  · split
    · exact trans (t := onPart w.entry.part _ u) (same rfl) (readyContinuation _ _)
    · exact trans (t := onPart w.entry.part _ u) (same rfl) elsewhere

theorem evalWatchesOf (point : Option Nat) (p : Place) (n cl : Nat) (s : State) : LinesFrom new s (evalWatchesOf point p n cl s) := by
  unfold Machine.evalWatchesOf
  extract_lets due ws s1
  split
  · have hs1 : LinesFrom new s s1 := elsewhere
    exact (hs1.trans (foldl (fun _ _ => readyContinuation _ _) _ _)).trans (refillWatches _ _)
  · exact refl s

theorem evalOverflow (p : Place) (n : Nat) (s : State) : LinesFrom new s (evalOverflow p n s) := by
  unfold Machine.evalOverflow
  extract_lets due hit
  split
  · exact refl s
  · exact trans (t := { s with parts := _ }) (same rfl) (foldl (fun _ _ => readyContinuation _ _) _ _)

theorem written (point : Option Nat) (p : Place) (n : Nat) (s : State) : LinesFrom new s (written point p n s) := by
  have hwake : LinesFrom new s (wakeMonitors point p n s) := same rfl
  unfold Machine.written
  cases point with
  | some cl => exact hwake.trans (evalWatchesOf _ _ _ _ _)
  | none => exact (hwake.trans (foldl (fun _ _ => evalWatchesOf _ _ _ _ _) _ _)).trans (evalOverflow _ _ _)

theorem writtenCells (point : Option Nat) (cells : List (Nat × Byte)) (s : State) : LinesFrom new s (writtenCells point cells s) :=
  foldl (fun _ _ => written _ _ _ _) _ _

theorem enterDie (line : Nat) (s : State) : LinesFrom new s (enterDie line s) := by
  obtain ⟨d, k, h⟩ := enterDie_eq line s
  rw [h]
  exact same rfl

theorem homePut (cells : List (Nat × Byte)) (s : State) : LinesFrom new s (homePut cells s) := by
  unfold Machine.homePut
  split
  · exact refl s
  · rename_i pa v rest
    extract_lets line s1 s2
    have hs2 : LinesFrom new s s2 := trans (t := s1) (same rfl) (enterDie line s1)
    split
    · exact hs2
    · exact hs2.trans (writtenCells _ _ _)

theorem line_put (l : CLine) (cells : List (Nat × Byte)) (stored : Bool) : (l.put cells stored).line = l.line :=
  List.foldlRecOn (motive := fun k : CLine => k.line = l.line) cells _ rfl fun k hk c _ => by
    split
    · exact hk
    · exact hk

theorem clusterPut (cl : Nat) (cells : List (Nat × Byte)) (s : State) : LinesFrom new s (clusterPut cl cells s) := by
  unfold Machine.clusterPut
  split
  · exact refl s
  · extract_lets line s1 s2
    have hs1 : LinesFrom new s s1 := modified fun x => line_put x _ _
    have hs2 : LinesFrom new s1 s2 := same rfl
    exact (hs1.trans hs2).trans (writtenCells _ _ _)

theorem combineAt (home : Option Nat) (line : Nat) (s : State) : LinesFrom new s (combineAt home line s) := by
  have htake : LinesFrom new s (takePartials home line s).2 := by
    unfold takePartials
    dsimp only
    split
    · exact refl s
    · exact same rfl
  unfold Machine.combineAt
  generalize takePartials home line s = r at htake
  obtain ⟨ps, u⟩ := r
  cases ps with
  | nil => exact refl s
  | cons p ps =>
    dsimp only at htake ⊢
    have htags : LinesFrom new s { u with detTags := u.detTags.filter (· != line) } := htake.trans (same rfl)
    refine trans ?_ (foldl (fun v q => ?_) _ _)
    · split
      · exact htags.trans (record _ _ _ _ _ _ _)
      · exact htags
    cases home with
    | some cl => exact clusterPut _ _ _
    | none => exact homePut _ _

theorem reachHome (line : Nat) (s : State) : LinesFrom new s (reachHome line s) := by
  unfold Machine.reachHome
  split
  · exact combineAt _ _ _
  · exact refl s

theorem homeWrite (cells : List (Nat × Byte)) (s : State) : LinesFrom new s (homeWrite cells s) := by
  unfold Machine.homeWrite
  split
  · exact refl s
  · exact (reachHome _ _).trans (homePut _ _)

theorem setAD (write : Bool) (pa e : Nat) (s : State) : LinesFrom new s (setAD write pa e s) := by
  unfold Machine.setAD
  extract_lets low new'
  split
  · exact refl s
  · exact homeWrite _ _

theorem stashWriteBack (phys : Nat) (l : StashLine) (remove : Bool) (s : State) : LinesFrom new s (stashWriteBack phys l remove s) := by
  unfold Machine.stashWriteBack
  extract_lets cells same' s1 s2
  have hs1 : LinesFrom new s s1 := same (onCore_clusters _ _ _)
  have hs2 : LinesFrom new s1 s2 := by
    unfold s2
    split
    · exact refl _
    · exact (setAD _ _ _ _).trans (setAD _ _ _ _)
  split
  · exact hs1
  · split
    · exact (hs1.trans hs2).trans (clusterPut _ _ _)
    · exact (hs1.trans hs2).trans (homeWrite _ _)

theorem recallStash (cl line : Nat) (s : State) : LinesFrom new s (recallStash cl line s) := by
  unfold Machine.recallStash
  refine foldl (fun u c => ?_) _ s
  split
  · exact foldl (fun _ _ => stashWriteBack _ _ _ _) _ _
  · exact refl u

theorem writeBack (cl line : Nat) (s : State) : LinesFrom new s (writeBack cl line s) := by
  unfold Machine.writeBack
  split
  · exact refl s
  · split
    · exact refl s
    · extract_lets s1 s2
      have hs1 : LinesFrom new s s1 := modified
      have hs2 : LinesFrom new s1 s2 := by
        unfold s2
        split
        · exact record _ _ _ _ _ _ _
        · exact refl _
      exact (hs1.trans hs2).trans (homeWrite _ _)

theorem forgetLine (cl line : Nat) (s : State) : LinesFrom new s (forgetLine cl line s) := by
  refine trans (t := Machine.onCluster cl (fun c =>
    { c with lines := c.lines.filter (·.line != line), refetch := c.refetch.filter (· != line) }) s) ?_ (same rfl)
  exact onCluster fun c x hx => .inl ⟨x, List.mem_of_mem_filter hx, rfl⟩

theorem evictLine (cl line : Nat) (s : State) : LinesFrom new s (evictLine cl line s) := by
  unfold Machine.evictLine
  extract_lets s1 s2
  have hs1 : LinesFrom new s s1 := recallStash _ _ _
  have hs2 : LinesFrom new s1 s2 := by
    unfold s2
    split
    · exact combineAt _ _ _
    · exact refl _
  exact ((hs1.trans hs2).trans (writeBack _ _ _)).trans (forgetLine _ _ _)

theorem fillLine (cl part line : Nat) (s : State) : LinesFrom (some line) s (fillLine cl part line s) := by
  unfold Machine.fillLine
  split
  · exact refl s
  · extract_lets s1 bytes
    have hroom : LinesFrom (some line) s (makeRoom cl line s) := by
      unfold makeRoom
      dsimp only
      split
      · exact refl s
      · exact trans (t := { s with freeCtr := s.freeCtr + 1 }) (same rfl) (evictLine _ _ _)
    have hs1 : LinesFrom (some line) s s1 := hroom.trans (reachHome line _)
    clear_value s1
    refine hs1.trans (onCluster fun c x hx => ?_)
    rcases mem_putBy hx with rfl | hx
    · exact .inr rfl
    · exact .inl ⟨x, hx, rfl⟩

theorem combineCluster (cl line : Nat) (s : State) : LinesFrom (some line) s (combineCluster cl line s) := by
  unfold Machine.combineCluster
  split
  · exact refl s
  · exact (fillLine _ _ _ _).trans (combineAt _ _ _)

theorem not_mem_forgetLine {cl line : Nat} {x : CLine} (hx : x ∈ (clusterAt (Machine.forgetLine cl line s) cl).lines) : x.line ≠ line := by
  change x ∈ (clusterAt (Machine.onCluster cl (fun c =>
    { c with lines := c.lines.filter (·.line != line), refetch := c.refetch.filter (· != line) }) s) cl).lines at hx
  rw [clusterAt_onCluster (by intro; rfl)] at hx
  simpa using (List.mem_filter.mp hx).2

/-- A dropped line is gone, and no other comes. -/
theorem dropLine_lines (cl line : Nat) (s : State) {x : CLine} (hx : x ∈ (clusterAt (dropLine cl line s) cl).lines) :
    x.line ≠ line ∧ ∃ y ∈ (clusterAt s cl).lines, y.line = x.line := by
  have hgone : x.line ≠ line := by
    rintro rfl
    obtain ⟨u, hu⟩ : ∃ u, dropLine cl x.line s = Machine.forgetLine cl x.line u := ⟨_, rfl⟩
    rw [hu] at hx
    exact not_mem_forgetLine hx rfl
  have hfrom : LinesFrom (some line) s (dropLine cl line s) :=
    ((recallStash cl line s).trans (combineCluster cl line _)).trans (evictLine cl line _)
  exact ⟨hgone, (hfrom cl x hx).resolve_right fun e => hgone (Option.some.inj e).symm⟩

end LinesFrom

theorem lines_foldl_dropLine {cl : Nat} : ∀ (l : List CLine) (s : State) {x : CLine},
    x ∈ (clusterAt (l.foldl (fun s y => dropLine cl y.line s) s) cl).lines →
      (∀ y ∈ l, y.line ≠ x.line) ∧ ∃ z ∈ (clusterAt s cl).lines, z.line = x.line
  | [], _, x, hx => ⟨fun _ h => absurd h List.not_mem_nil, x, hx, rfl⟩
  | y :: l, s, x, hx => by
    obtain ⟨hl, z, hz, hzx⟩ := lines_foldl_dropLine l (dropLine cl y.line s) hx
    obtain ⟨hzy, w, hw, hwz⟩ := LinesFrom.dropLine_lines cl y.line s hz
    exact ⟨List.forall_mem_cons.mpr ⟨fun e => hzy (hzx.trans e.symm), hl⟩, w, hw, hwz.trans hzx⟩

/-- Once every line of a cluster's cache is dropped, the cache is empty. -/
theorem lines_dropAll (cl : Nat) (s : State) :
    (clusterAt ((clusterAt s cl).lines.foldl (fun s l => dropLine cl l.line s) s) cl).lines = [] := by
  refine List.eq_nil_iff_forall_not_mem.mpr fun x hx => ?_
  obtain ⟨hnone, z, hz, hzx⟩ := lines_foldl_dropLine _ s hx
  exact hnone z hz hzx

/-! ### A cluster rests and returns -/

/-- What a cluster's rest asks for. -/
def MayRest (cl : Nat) (s : State) : Prop := (clusterAt s cl).retained = false ∧
  (∀ c ∈ allCores s, clusterOf c.phys = cl → coreRests c = true ∧ ∀ q ∈ c.pend, q.blocked c.phys s = false) ∧
  ∀ l ∈ dirtyLines s cl, ownedFor s (cl * 256) l true = false

theorem mayRest_iff (cl : Nat) (s : State) : ((clusterAt s cl).retained || !(clusterCores s cl).all coreRests ||
    (clusterCores s cl).any (fun c => c.pend.any (fun q => q.blocked c.phys s)) ||
    (dirtyLines s cl).any (ownedFor s (cl * 256) · true)) = false ↔ MayRest cl s := by
  simp only [Bool.or_eq_false_iff, Bool.not_eq_false', List.all_eq_true, List.any_eq_false, clusterCores, List.mem_filter, beq_iff_eq,
    MayRest, Bool.not_eq_true, and_imp]
  constructor
  · rintro ⟨⟨⟨hret, hrest⟩, hpend⟩, hown⟩
    exact ⟨hret, fun c hc hcl => ⟨hrest c hc hcl, hpend c hc hcl⟩, hown⟩
  · rintro ⟨hret, hcores, hown⟩
    exact ⟨⟨⟨hret, fun c hc hcl => (hcores c hc hcl).1⟩, fun c hc hcl => (hcores c hc hcl).2⟩, hown⟩

theorem execClusterRetentionEntry_cases (cl : Nat) (s : State) : let e : Instr := .clusterRetentionEntry cl
    (MayRest cl s → (∀ l ∈ dirtyLines s cl, l ∉ s.hostLines) →
      ∃ t, exec e s = .next t ∧ (clusterAt t cl).retained = true ∧ (clusterAt t cl).lines = []) ∧
    (MayRest cl s → (∃ l ∈ dirtyLines s cl, l ∈ s.hostLines) →
      exec e s = .next (((dirtyLines s cl).filter s.hostLines.contains).foldl (fun s l => backInvalidate l s) s)) ∧
    (¬ MayRest cl s → exec e s = .next s) := by
  change (_ → _ → ∃ t, execClusterRetentionEntry cl s = _ ∧ _) ∧ (_ → _ → execClusterRetentionEntry cl s = _) ∧
    (_ → execClusterRetentionEntry cl s = _)
  unfold execClusterRetentionEntry
  refine ⟨fun hrest hhost => ⟨_, rfl, ?_⟩, fun hrest hhost => ?_, fun hrest => ?_⟩
  · have hfree : (dirtyLines s cl).any s.hostLines.contains = false := by simpa using hhost
    dsimp only
    rw [(mayRest_iff cl s).mpr hrest, hfree, if_neg Bool.false_ne_true, if_neg Bool.false_ne_true, clusterAt_onCluster]
    · exact ⟨rfl, lines_dropAll cl _⟩
    · exact fun _ => rfl
  · have hheld : (dirtyLines s cl).any s.hostLines.contains = true := by simpa using hhost
    dsimp only
    rw [(mayRest_iff cl s).mpr hrest, hheld, if_neg Bool.false_ne_true, if_pos rfl]
  · dsimp only
    rw [if_pos (Bool.eq_true_of_not_eq_false (mt (mayRest_iff cl s).mp hrest))]

theorem execClusterRetentionExit_kept {cl : Nat} (h : (clusterAt s cl).retained = true) :
    exec (.clusterRetentionExit cl false) s = .next (onCluster cl (fun c => { c with retained := false }) s) := by
  change execClusterRetentionExit cl false s = _
  simp [execClusterRetentionExit, h]

/-- One cluster does not rest, and its Fold Store is empty. -/
def clusterOnly (cl : Nat) : Upkeep := ⟨False, False, (· = cl)⟩

theorem tidy_clusterOnly {cl : Nat} (h : (clusterAt s cl).fold = [] ∧ (clusterAt s cl).retained = false) : Tidy (clusterOnly cl) s := by
  refine .of_allCores (fun hk => hk.elim) (fun _ _ _ _ hk => hk.elim) fun k hk => ?_
  have hid : k = cl := (clusterAt_id s k).symm.trans hk
  exact hid ▸ h

/-- What is scrubbed does not rest and holds no entry of a Fold Store. -/
theorem tidy_scrubCluster_self (cl : Nat) (s : State) : Tidy (clusterOnly cl) (scrubCluster cl s) := by
  unfold scrubCluster
  extract_lets s1 s2
  have hs1 : Tidy (clusterOnly cl) s1 := by
    refine tidy_clusterOnly ?_
    unfold s1
    rw [clusterAt_onCluster]
    · exact ⟨rfl, rfl⟩
    · exact fun _ => rfl
  have hs2 : Tidy (clusterOnly cl) s2 := .foldl hs1 fun _ _ h => .foldl h fun _ _ => tidy_dropAlloc
  exact tidy_mapCores hs2 fun _ hc => .ite hc hc

theorem execClusterRetentionExit_lost {cl : Nat} (h : (clusterAt s cl).retained = true) :
    ∃ t, exec (.clusterRetentionExit cl true) s = .next t ∧ (clusterAt t cl).retained = false ∧ (clusterAt t cl).fold = [] := by
  have hleft (l : List ReadyEntry) {u : State} (hu : Tidy (clusterOnly cl) u) :
      Tidy (clusterOnly cl) (l.foldl (fun s e => failEntry e 0x18 s) u) := .foldl hu fun _ _ => tidy_failEntry
  have hswept (l : List Nat) {u : State} (hu : Tidy (clusterOnly cl) u) : Tidy (clusterOnly cl) (l.foldl (fun s t => sweepPart t s) u) :=
    .foldl hu fun _ _ => tidy_sweepPart
  suffices hend : ∃ t, exec (.clusterRetentionExit cl true) s = .next t ∧ Tidy (clusterOnly cl) t by
    obtain ⟨t, ht, htidy⟩ := hend
    have hcl := tidy_clusterAt htidy (clusterAt_id t cl)
    exact ⟨t, ht, hcl.2, hcl.1⟩
  refine ⟨_, rfl, ?_⟩
  dsimp only
  rw [h]
  exact hswept _ (hleft _ (tidy_scrubCluster_self cl _))

/-- Settles O51, clause by clause: banks, then clusters. -/
theorem banksAndClustersSleep : Obligations.BanksAndClustersSleep := by
  unfold Obligations.BanksAndClustersSleep
  exact ⟨⟨execBankRetentionEntry_cases, execWakeSlotGrant_cases, fun _ _ _ => execBankWakeComplete_active,
    fun _ _ => execBankPowerDownComplete_down⟩, execClusterRetentionEntry_cases, fun _ _ => execClusterRetentionExit_kept,
    fun _ _ => execClusterRetentionExit_lost⟩

end Sys2Proof.Machine
end

section
/-!
Settles O20. Atomics and reductions: what the act of each comes to once its access has passed the checks, the same in the own
window, and the instructions.
-/

namespace Sys2Proof.Machine

-- One proof after another: proofs checked side by side need more memory than the check of the whole text has.
set_option Elab.async false

open Sys2Proof.Safety

variable {s t u : State} {va v : Word} {n : Nat} {p : Piece} {q : Place} {op : RmwOp} {sc : Scope} {cls : AccessClass}

/-! ### The access -/

theorem curWaiter_eq (s : State) : Waiter.ctx (curAgent s).phys (curAgent s).ctx = curWaiter s := rfl

theorem setResult_run {α : Type} (g : State → α × State) (u : State) :
    (do let (x, s') := g (← get); set s'; return x : Act α) u = .ok (g u).1 (g u).2 := rfl

theorem anyBad_one (s : State) (p : Piece) : anyBad s [p] = badAt s p.place := by simp [anyBad, Piece.isBad]

/-- A misaligned word traps before anything else is looked at (R205, R208). -/
theorem atomicAct_misaligned {ag : Agent} (h : va.toNat % n ≠ 0) (returns : Bool) :
    atomicAct ag sc op n va v returns s = .error (.trap 0x05 va 0) s := by
  unfold atomicAct
  rw [if_pos h]
  rfl

/-- A misaligned word of a reduction traps before anything else is looked at (R211). -/
theorem redAct_misaligned {ag : Agent} {ord : Bool} (h : va.toNat % n ≠ 0) :
    redAct ag sc op n ord va v s = .error (.trap 0x05 va 0) s := by
  unfold redAct
  rw [if_pos h]
  rfl

/-- An atomic that gives its old value, once its access has passed the checks and the accesses that it meets are performed: a bad
line traps (R194), and with the host out of the way the operation is made in this step (R207). -/
theorem atomicAct_returning (hal : va.toNat % n = 0) (hopen : OpensAtomic s .returning sc va n p t)
    (htxn : inTxn t (curAgent s) = false) (hmeet : performMeeting (curAgent s) [p] t = .ok () u) :
    (badAt u p.place = true → atomicAct (curAgent s) sc op n va v true s = .error (.trap 0x17 (badEval va) 0) u) ∧
    (badAt u p.place = false → (rmwAtCluster sc p.cacheable = true ∨ HomeFree u p) →
      let r := rmwAt s.core.phys (corePart s.core) (detMode s) (curIdx s == 0) p.cacheable sc op n v p.place u
      atomicAct (curAgent s) sc op n va v true s = .ok r.1 r.2) := by
  obtain ⟨hregs, hout, s1, s2, s3, hres, hdet, hfill, htouch⟩ := hopen
  unfold atomicAct
  rw [if_neg (not_not.mpr hal), curWaiter_eq]
  dsimp only
  rw [bind_ok hres]
  simp only [hregs, hout, Bool.false_and, Bool.false_eq_true, if_false, if_true]
  rw [bind_ok hdet, bind_ok hfill, bind_ok htouch, get_bind]
  simp only [htxn, Bool.false_eq_true, if_false]
  rw [bind_ok hmeet, get_bind, anyBad_one]
  refine ⟨fun hbad => ?_, fun hsound hfree => ?_⟩
  · simp [hbad]
  · simp only [hsound, Bool.false_eq_true, if_false, curAgent_phys, curAgent_part, curAgent_det, curAgent_self]
    have hgives := setResult_run (rmwAt s.core.phys (corePart s.core) (detMode s) (curIdx s == 0) p.cacheable sc op n v p.place) u
    cases hpa : p.pa? with
    | none => exact hgives
    | some pa =>
      cases hnear : rmwAtCluster sc p.cacheable with
      | true => exact hgives
      | false =>
        have hhost : u.hostLines.contains (pa / 64) = false := (hfree.resolve_left (by simp [hnear])) pa hpa
        have hwait : awaitHost (pa / 64) u = .ok () u := by
          unfold awaitHost
          rw [get_bind, hhost]
          rfl
        exact (bind_ok hwait).trans hgives

/-- An atomic that gives nothing waits to be performed (R207, R219). -/
theorem atomicAct_waits (hal : va.toNat % n = 0) (hopen : OpensAtomic s (.update op.orderFree) sc va n p t)
    (htxn : inTxn t (curAgent s) = false) (hstash : stashEntryAt t p.place = none)
    (hprox : awaitProxies (curAgent s) [p] t = .ok () t) :
    atomicAct (curAgent s) sc op n va v false s = .ok 0 (queueAccess s.core.phys t
      ⟨curIdx s, p.place, p.cacheable, p.device, false, detMode s, va, sc, .rmw op n v⟩) := by
  obtain ⟨hregs, hout, s1, s2, s3, hres, hdet, hfill, htouch⟩ := hopen
  unfold atomicAct
  rw [if_neg (not_not.mpr hal), curWaiter_eq]
  dsimp only
  rw [bind_ok hres]
  simp only [hregs, hout, Bool.false_and, Bool.false_eq_true, if_false]
  rw [bind_ok hdet, bind_ok hfill, bind_ok htouch, get_bind]
  simp only [htxn, Bool.false_eq_true, if_false]
  rw [get_bind]
  simp only [hstash, Option.isSome_none, Bool.false_eq_true, if_false]
  rw [bind_ok hprox]
  exact bind_ok (pendPush_run s t _ _ _ _ _)

/-- A reduction waits to be performed (R211, R219). -/
theorem redAct_waits {ord : Bool} (hal : va.toNat % n = 0) (hopen : OpensAtomic s (.update (ord || op.orderFree)) sc va n p t)
    (hstash : stashEntryAt t p.place = none) (hprox : awaitProxies (curAgent s) [p] t = .ok () t) :
    redAct (curAgent s) sc op n ord va v s = .ok () (queueAccess s.core.phys t
      ⟨curIdx s, p.place, p.cacheable, p.device, false, detMode s, va, sc, .red op n v ord⟩) := by
  obtain ⟨hregs, hout, s1, s2, s3, hres, hdet, hfill, htouch⟩ := hopen
  unfold redAct
  rw [if_neg (not_not.mpr hal), curWaiter_eq]
  dsimp only
  rw [bind_ok hres]
  simp only [hregs, hout, Bool.false_and, Bool.false_eq_true, if_false]
  rw [bind_ok hdet, bind_ok hfill, bind_ok htouch]
  rw [get_bind]
  simp only [hstash, Option.isSome_none, Bool.false_eq_true, if_false]
  rw [bind_ok hprox]
  exact pendPush_run s t _ _ _ _ _

/-! ### The own window -/

/-- An atomic of the own window passes its checks, and they leave the state as it is (R177). -/
theorem opensAtomic_own (hpl : Plain s) (h0 : 0 < n) (hown : ownPlace s va n = some q) (cls : AccessClass) (sc : Scope) :
    OpensAtomic s cls sc va n (wholePiece q false va false n) s := by
  have hres := resolve_own h0 hown (curWaiter s) needRW
  obtain ⟨r, al, -, -, -, -, -, -, -, rfl⟩ := ownPlace_eq_some hown
  have hdet : (curAgent s).det = false := by rw [curAgent_det, hpl.notDet]
  exact ⟨rfl, rfl, s, s, s, hres, detCheck_free hdet cls va _ s, stashFill_unmapped (stashEntryAt_own hpl.noStash _ _ _) _,
    touchData_own rfl⟩

theorem inTxn_plain (hpl : Plain s) : inTxn s (curAgent s) = false := by simp [inTxn, hpl.noTxn]

theorem badAt_own (hown : ownPlace s va n = some q) : badAt s q = false := by
  obtain ⟨r, al, -, hal, -, -, -, -, hsound, rfl⟩ := ownPlace_eq_some hown
  simpa [badAt, hal] using hsound

/-- Whether an operation stores its result: a cas only where the old value is the expected one (R208). -/
def rmwStores (op : RmwOp) (n : Nat) (old : Word) : Bool :=
  match op with
  | .cas e => zextBits (8 * n) old.toNat == zextBits (8 * n) e.toNat
  | _ => true

/-- An atomic at the own window: the old value, and its result stored there or a wake-up (R206, R208, R221). -/
theorem rmwAt_own (hown : ownPlace s va n = some q) (part : Nat) (det self : Bool) (op : RmwOp) (sc : Scope) (v : Word) :
    let old := BitVec.ofNat 64 (storeNat s q n)
    rmwAt s.core.phys part det self false sc op n v q s = (old,
      if rmwStores op n old then storeAt s.core.phys part det self false q (leBytes n (rmwApply op n old v).toNat) s
      else wakeMonitors none q n s) := by
  obtain ⟨r, al, -, -, -, -, -, -, -, rfl⟩ := ownPlace_eq_some hown
  intro old
  have hsplit : ∀ x y : State, (if rmwStores op n old then (old, x) else (old, y)) =
      (old, if rmwStores op n old then x else y) := fun x y => (apply_ite (Prod.mk old) _ x y).symm
  exact hsplit _ _

theorem atomicAct_own (hpl : Plain s) (h0 : 0 < n) (hal : va.toNat % n = 0) (hown : ownPlace s va n = some q) (op : RmwOp)
    (v : Word) : let old := BitVec.ofNat 64 (storeNat s q n)
    atomicAct (curAgent s) sc op n va v true s = .ok old
      (if rmwStores op n old then
        storeAt s.core.phys (corePart s.core) false (curIdx s == 0) false q (leBytes n (rmwApply op n old v).toNat) s
       else wakeMonitors none q n s) := by
  intro old
  have hopen := opensAtomic_own hpl h0 hown .returning sc
  have hsound := badAt_own hown
  have hold := rmwAt_own hown (corePart s.core) (detMode s) (curIdx s == 0) op sc v
  obtain ⟨r, al, -, -, -, -, -, -, -, rfl⟩ := ownPlace_eq_some hown
  have hrun := (atomicAct_returning (op := op) (v := v) hal hopen (inTxn_plain hpl) (performMeeting_own hpl _ _ _ _)).2 hsound
    (.inr fun pa h => by cases h)
  rw [← hpl.notDet]
  exact hrun.trans (congrArg (fun r : Word × State => EStateM.Result.ok r.1 r.2) hold)

section
variable (hpl : Plain s) (h0 : 0 < n) (hal : va.toNat % n = 0) (hown : ownPlace s va n = some q)
include hpl h0 hal hown

theorem atomicAct_own_waits (op : RmwOp) (v : Word) :
    atomicAct (curAgent s) sc op n va v false s = .ok 0 (withPend (pendOf s q va sc (.rmw op n v)) s) := by
  have hopen := opensAtomic_own hpl h0 hown (.update op.orderFree) sc
  obtain ⟨r, al, -, -, -, -, -, -, -, rfl⟩ := ownPlace_eq_some hown
  rw [atomicAct_waits hal hopen (inTxn_plain hpl) (stashEntryAt_own hpl.noStash _ _ _) (awaitProxies_own hpl.noVec _ _ _ _),
    queueAccess_waits hpl.notDet, hpl.notDet]
  rfl

theorem redAct_own (op : RmwOp) (v : Word) (ord : Bool) :
    redAct (curAgent s) sc op n ord va v s = .ok () (withPend (pendOf s q va sc (.red op n v ord)) s) := by
  have hopen := opensAtomic_own hpl h0 hown (.update (ord || op.orderFree)) sc
  obtain ⟨r, al, -, -, -, -, -, -, -, rfl⟩ := ownPlace_eq_some hown
  rw [redAct_waits hal hopen (stashEntryAt_own hpl.noStash _ _ _) (awaitProxies_own hpl.noVec _ _ _ _),
    queueAccess_waits hpl.notDet, hpl.notDet]
  rfl

end

/-! ### What a cas stores -/

theorem leNat_lt (bs : List Byte) : leNat bs < 2 ^ (8 * bs.length) := by
  induction bs with
  | nil => simp [leNat]
  | cons b bs ih =>
    have hb := b.isLt
    have hpow : 2 ^ (8 * (b :: bs).length) = 256 * 2 ^ (8 * bs.length) := by
      rw [List.length_cons, Nat.mul_succ, Nat.pow_add, Nat.mul_comm]
    rw [hpow, leNat]
    omega

/-- The low n bytes of a number are those of its residue. -/
theorem leBytes_mod (n x : Nat) : leBytes n (x % 2 ^ (8 * n)) = leBytes n x := by
  induction n generalizing x with
  | zero => rfl
  | succ n ih =>
    have hpow : 2 ^ (8 * (n + 1)) = 256 * 2 ^ (8 * n) := by rw [Nat.mul_succ, Nat.pow_add, Nat.mul_comm]
    have hlow : BitVec.ofNat 8 (x % (256 * 2 ^ (8 * n))) = BitVec.ofNat 8 x := by
      refine BitVec.eq_of_toNat_eq ?_
      simp only [BitVec.toNat_ofNat]
      exact Nat.mod_mul_right_mod x 256 _
    rw [hpow, leBytes, leBytes, hlow, Nat.mod_mul_right_div_self, ih]

theorem zextBits_low {w : Nat} (hw : w ≤ 64) (x : Nat) : (zextBits w x).toNat = x % 2 ^ w := by
  have hle : 2 ^ w ≤ 2 ^ 64 := Nat.pow_le_pow_right (by omega) hw
  have hlt : x % 2 ^ w < 2 ^ w := Nat.mod_lt _ (by positivity)
  rw [zextBits, BitVec.toNat_ofNat, Nat.mod_eq_of_lt (by omega)]

theorem storeNat_lt (s : State) (q : Place) (n : Nat) : storeNat s q n < 2 ^ (8 * n) := by
  have hlen : (storeBytes s q n).length = n := by simp [storeBytes, placeBytes]
  have hlt := leNat_lt (storeBytes s q n)
  rwa [hlen] at hlt

section
variable (hn : n ≤ 8)
include hn

/-- A cas stores exactly where the old value is the low bytes of the expected one (R208). -/
theorem rmwStores_cas_iff (e : Word) :
    rmwStores (.cas e) n (BitVec.ofNat 64 (storeNat s q n)) = true ↔ storeNat s q n = e.toNat % 2 ^ (8 * n) := by
  have hlt := storeNat_lt s q n
  have hle : 2 ^ (8 * n) ≤ 2 ^ 64 := Nat.pow_le_pow_right (by omega) (by omega)
  have hold : (BitVec.ofNat 64 (storeNat s q n)).toNat = storeNat s q n := Nat.mod_eq_of_lt (by omega)
  simp only [rmwStores, beq_iff_eq]
  rw [← BitVec.toNat_inj, zextBits_low (by omega), zextBits_low (by omega), hold, Nat.mod_eq_of_lt hlt]

/-- A cas that stores leaves the bytes of its operand (R208). -/
theorem leBytes_cas {e old : Word} (hstores : rmwStores (.cas e) n old = true) (v : Word) :
    leBytes n (rmwApply (.cas e) n old v).toNat = leBytes n v.toNat := by
  have heq : zextBits (8 * n) old.toNat = zextBits (8 * n) e.toNat := by simpa [rmwStores] using hstores
  simp only [rmwApply, heq, if_true]
  rw [zextBits_low (by omega), zextBits_low (by omega), Nat.mod_mod, leBytes_mod]

end

/-! ### The instructions -/

section
variable {d a b : Reg} {w sz : Bool}
variable (hawait : (curCtx s).await = .nothing) (ha : Readable s a) (hb : Readable s b) (hd : Writable s d)
include hawait ha hb hd

/-- An atomic that waits for no answer reads its operands and makes its access (R205). -/
theorem amoBody_run : amoBody op d a b w sz sc s = (do
      let old ← atomicAct (curAgent s) sc op (szBytes sz) (regVal s a) (regVal s b) (d != 0)
      modify (setReg d (rmwExt op (szBytes sz) old)) : Act Unit) s := by
  unfold amoBody
  rw [get_bind, bind_ok (proxyAnswer_none hawait)]
  simp only
  rw [bind_ok (readS_ok ha w), bind_ok (readS_ok hb w), bind_ok (destReady_ok hd), get_bind]

/-- A cas that waits for no answer reads its operands and makes its access (R208). -/
theorem casBody_run (he : Readable s d) : casBody d a b w sz sc s = (do
      let old ← atomicAct (curAgent s) sc (.cas (regVal s d)) (szBytes sz) (regVal s a) (regVal s b) true
      modify (setReg d (rmwExt (.cas (regVal s d)) (szBytes sz) old)) : Act Unit) s := by
  unfold casBody
  rw [get_bind, bind_ok (proxyAnswer_none hawait)]
  simp only
  rw [bind_ok (readS_ok ha w), bind_ok (readS_ok hb w), bind_ok (readS_ok he w), bind_ok (destReady_ok hd), get_bind]

end

/-- What the instruction of an atomic is: its frame, its width, and its body. -/
theorem exec_amo {i : Instr} {f : InstrInfo} {d a b : Reg} (hf : frameOf i = some f) (hi : amoForm i = some (op, d, a, b, n, sc)) :
    (∀ e, op ≠ .cas e) ∧ ∃ w sz, n = szBytes sz ∧ exec i s = runSeq f (amoBody op d a b w sz sc) s := by
  cases i <;> simp only [amoForm, Option.some.injEq, Prod.mk.injEq, reduceCtorEq] at hi <;>
    obtain ⟨rfl, rfl, rfl, rfl, rfl, rfl⟩ := hi <;> cases hf <;> refine ⟨fun _ => nofun, ?_⟩
  case amoFadd w _ => exact ⟨w, false, rfl, rfl⟩
  case amoFmin w _ => exact ⟨w, false, rfl, rfl⟩
  case amoFmax w _ => exact ⟨w, false, rfl, rfl⟩
  case amoBadd w _ => exact ⟨w, false, rfl, rfl⟩
  all_goals exact ⟨_, _, rfl, rfl⟩

/-- What the instruction of a reduction is: its frame, its width, and its body. -/
theorem exec_red {i : Instr} {f : InstrInfo} {a b : Reg} {ord : Bool} (hf : frameOf i = some f)
    (hi : redForm i = some (op, a, b, n, ord, sc)) :
    ∃ w sz, n = szBytes sz ∧ exec i s = runSeq f (redBody op a b w sz ord sc) s := by
  cases i <;> simp only [redForm, Option.some.injEq, Prod.mk.injEq, reduceCtorEq] at hi <;>
    obtain ⟨rfl, rfl, rfl, rfl, rfl, rfl⟩ := hi <;> cases hf
  case redFadd w _ _ => exact ⟨w, false, rfl, rfl⟩
  case redFmin w _ _ => exact ⟨w, false, rfl, rfl⟩
  case redFmax w _ _ => exact ⟨w, false, rfl, rfl⟩
  case redBadd w _ _ => exact ⟨w, false, rfl, rfl⟩
  all_goals exact ⟨_, _, rfl, rfl⟩

theorem szBytes_pos (sz : Bool) : 0 < szBytes sz := by cases sz <;> decide

theorem szBytes_le (sz : Bool) : szBytes sz ≤ 8 := by cases sz <;> decide

/-- Whether an atomic gives its old value in its own step: a cas always does, any other with a destination (R207, R208). -/
def givesOld (op : RmwOp) (d : Reg) : Bool :=
  match op with
  | .cas _ => true
  | _ => d != 0

theorem givesOld_of_not_cas (h : ∀ e, op ≠ .cas e) (d : Reg) : givesOld op d = (d != 0) := by
  cases op with
  | cas e => exact absurd rfl (h e)
  | _ => rfl

theorem givesOld_of {d : Reg} (h : d ≠ 0 ∨ ∃ e, op = .cas e) : givesOld op d = true := by
  by_cases hcas : ∃ e, op = .cas e
  · obtain ⟨e, rfl⟩ := hcas
    rfl
  · rw [givesOld_of_not_cas (not_exists.mp hcas)]
    simpa using h.resolve_right hcas

section
variable {i : Instr} {f : InstrInfo} {d a b : Reg} (hf : frameOf i = some f) (hmay : MayIssue f s) (ha : Readable s a)
  (hb : Readable s b)
include hf hmay ha hb

/-- An atomic or a cas is its access: what that gives goes to the destination, and where it stops the instruction does. -/
theorem exec_atomic (hawait : (curCtx s).await = .nothing) (hd : Writable s d)
    (hi : amoForm i = some (op, d, a, b, n, sc) ∨
      (Readable s d ∧ ∃ w sz, i = .cas d a b w sz sc ∧ op = .cas (regVal s d) ∧ n = if sz then 8 else 4)) :
    (0 < n ∧ n ≤ 8) ∧
    (∀ old t, atomicAct (curAgent s) sc op n (regVal s a) (regVal s b) (givesOld op d) s = .ok old t →
      exec i s = .next (completes f (setReg d (rmwExt op n old) t))) ∧
    (∀ e t, atomicAct (curAgent s) sc op n (regVal s a) (regVal s b) (givesOld op d) s = .error e t →
      exec i s = .next (halt e t)) := by
  rcases hi with hi | ⟨he, w, sz, rfl, rfl, rfl⟩
  · obtain ⟨hcas, w, sz, rfl, hexec⟩ := exec_amo (s := s) hf hi
    rw [givesOld_of_not_cas hcas, hexec]
    exact ⟨⟨szBytes_pos sz, szBytes_le sz⟩,
      fun _ _ hrun => runSeq_ok hmay ((amoBody_run hawait ha hb hd).trans (bind_ok hrun)),
      fun _ _ hrun => runSeq_stops hmay ((amoBody_run hawait ha hb hd).trans (bind_error hrun))⟩
  · cases hf
    exact ⟨⟨szBytes_pos sz, szBytes_le sz⟩,
      fun _ _ hrun => runSeq_ok hmay ((casBody_run hawait ha hb hd he).trans (bind_ok hrun)),
      fun _ _ hrun => runSeq_stops hmay ((casBody_run hawait ha hb hd he).trans (bind_error hrun))⟩

/-- A reduction is its access (R211). -/
theorem exec_reduction {ord : Bool} (hi : redForm i = some (op, a, b, n, ord, sc)) :
    0 < n ∧
    (∀ t, redAct (curAgent s) sc op n ord (regVal s a) (regVal s b) s = .ok () t → exec i s = .next (completes f t)) ∧
    (∀ e t, redAct (curAgent s) sc op n ord (regVal s a) (regVal s b) s = .error e t → exec i s = .next (halt e t)) := by
  obtain ⟨w, sz, rfl, hexec⟩ := exec_red (s := s) hf hi
  have hbody : redBody op a b w sz ord sc s = redAct (curAgent s) sc op (szBytes sz) ord (regVal s a) (regVal s b) s := by
    unfold redBody
    rw [bind_ok (readS_ok ha w), bind_ok (readS_ok hb w), get_bind]
  rw [hexec]
  exact ⟨szBytes_pos sz, fun _ hrun => runSeq_ok hmay (hbody.trans hrun), fun _ _ hrun => runSeq_stops hmay (hbody.trans hrun)⟩

end

/-- Settles O20: an atomic, a cas and a reduction are their accesses, in the own window and on device memory. -/
theorem atomicsAndReductions : Obligations.AtomicsAndReductions := by
  unfold Obligations.AtomicsAndReductions
  refine ⟨⟨?_, ?_, ?_⟩, ?_⟩
  · intro i f op d a b n sc q s hf hi hmay hawait ha hb hd hpl hal hown old
    obtain ⟨⟨h0, -⟩, hok, -⟩ := exec_atomic hf hmay ha hb hawait hd (.inl hi)
    obtain ⟨hcas, -⟩ := exec_amo (s := s) hf hi
    have hstores : rmwStores op n old = true := by
      cases op with
      | cas e => exact absurd rfl (hcas e)
      | _ => rfl
    rw [givesOld_of_not_cas hcas] at hok
    by_cases hdest : d = 0
    · subst hdest
      rw [if_pos rfl, hok _ _ (atomicAct_own_waits hpl h0 hal hown op _), setReg_zero]
    · rw [bne_iff_ne.mpr hdest] at hok
      rw [if_neg hdest, hok _ _ (atomicAct_own hpl h0 hal hown op _), if_pos hstores]
  · intro d a b w sz sc f q s n hf hmay hawait ha hb he hd hpl hal hown old
    obtain ⟨⟨h0, h8⟩, hok, -⟩ := exec_atomic hf hmay ha hb hawait hd (.inr ⟨he, w, sz, rfl, rfl, rfl⟩)
    rw [hok _ _ (atomicAct_own hpl h0 hal hown _ _)]
    by_cases hold : old = (regVal s d).toNat % 2 ^ (8 * n)
    · have hstores := (rmwStores_cas_iff h8 (regVal s d)).mpr hold
      rw [if_pos hstores, if_pos hold, leBytes_cas h8 hstores]
      rfl
    · rw [if_neg (mt (rmwStores_cas_iff h8 _).mp hold), if_neg hold]
      rfl
  · intro i f op d a b n sc s hf hi hmay hawait ha hb hd va v
    obtain ⟨-, hok, hstop⟩ := exec_atomic hf hmay ha hb hawait hd hi
    refine ⟨fun hmis => hstop _ _ (atomicAct_misaligned hmis _), fun p t u hal hgives hopen htxn hmeet => ?_,
      fun p t hal hzero hcas hopen htxn hstash hprox => ?_⟩
    · rw [givesOld_of hgives] at hok hstop
      obtain ⟨hbad, hsound⟩ := atomicAct_returning (op := op) (v := v) hal hopen htxn hmeet
      exact ⟨fun h => hstop _ _ (hbad h), fun h hfree => hok _ _ (hsound h hfree)⟩
    · subst hzero
      rw [givesOld_of_not_cas hcas] at hok
      rw [hok _ _ (atomicAct_waits hal hopen htxn hstash hprox), setReg_zero]
  · intro i f op a b n ord sc s hf hi hmay ha hb
    obtain ⟨h0, hok, hstop⟩ := exec_reduction hf hmay ha hb hi
    exact ⟨fun hmis => hstop _ _ (redAct_misaligned hmis),
      fun p hpl hal hown => hok _ (redAct_own hpl h0 hal hown op _ ord),
      fun p t hal hopen hstash hprox => hok _ (redAct_waits hal hopen hstash hprox)⟩

end Sys2Proof.Machine
end
